-- ==== Sys2Proof/Word.lean ====
section
/-!
DEFINITION. The bit vectors the manual's registers, bytes and data words are held in (spec/00_scope.md R1, R2, R6).
-/
namespace Sys2Proof

/-- One byte of memory. -/
abbrev Byte := BitVec 8

/-- One 32-bit register or data word (R6, "Words, rows and ranges"). -/
abbrev Word := BitVec 32

/-- One 64-bit register (R8). -/
abbrev DWord := BitVec 64

end Sys2Proof
end

