-- ==== Sys2Proof/Syntax.lean ====
section
/-!
DEFINITION. The commands of the FV1216: one constructor of Instr for each row of spec/opcode_table.json, in the
table's order, and the types of their operands. What a command cannot know from the machine's own state (the outcome of
a training, a temperature, the errors a read meets, held cycles of an arbitration) is an operand.
-/
namespace Sys2Proof

/-- The four register requesters of R391, in the order of Table EB.3 kind 6. -/
inductive Requester where
  | mainband
  | sideband
  | service
  | hoop
deriving DecidableEq, Repr

/-- What the reads of one line or word meet (Tables MS.5 and R87): nothing, a single-bit error, or an
uncorrectable word on the first `reads` reads. -/
inductive ReadError where
  | clean
  | single
  | uncorrectable (reads : Nat)
deriving DecidableEq, Repr

/-- A read of a register: its address and its bytes (R7). -/
structure RegRead where
  addr : Nat
  size : Nat
deriving DecidableEq, Repr

/-- A ring's entry at the front of its pending list and what the reads of its admission meet: whether its BIND_TABLE can be
read (R406), the descriptors a complement pair of which disagrees twice on its way to the tiles, and those whose source holds
an uncorrectable word (R331-R333). -/
structure AdmissionReads where
  ring : Nat
  found : Bool
  damaged : List Nat
  lost : List Nat
deriving DecidableEq, Repr

/-- The cycles for which an engine was held (R86), and those of them that waited for another member's data (R181). -/
structure HeldCycles where
  total : Nat
  exchange : Nat
deriving DecidableEq, Repr

/-- The write-back of a stack's oldest entry and what its read meets (R323, R324). -/
structure EntryRead where
  stack : Nat
  error : ReadError
deriving DecidableEq, Repr

/-- A ring whose job's write-combining entries are written back, and what the reads of their lines meet, by line (R324). -/
structure RingDrain where
  ring : Nat
  merges : List (Nat × ReadError)
deriving DecidableEq, Repr

/-- A ring's job, how many readings of a complement pair of its moved state disagree (R331, R332), and what the words of that
state in HD meet (R333, R523). -/
structure PairReads where
  ring : Nat
  readings : Nat
  error : ReadError
deriving DecidableEq, Repr

/-- The abort causes of Table TL.6 that name one macro-operation, by the cause codes of Table EB.4 (ABORT). -/
inductive AbortCause where
  /-- cause 1: an uncorrectable scratchpad word at this offset (R88) -/
  | scratchWord (offset : Nat)
  /-- cause 2: a word uncorrectable in transit after its resends (R327) -/
  | transit
  /-- cause 3: a poisoned memory line at this device address (R329) -/
  | memLine (addr : Nat)
  /-- cause 1: a read of another tile's scratchpad that returned status FAULTED (R89) -/
  | remote
deriving DecidableEq, Repr

/-- The three kinds of tile failure ("Tile failure and recovery"). -/
inductive FailCause where
  | tileRegister
  | programStore
  | noAnswer
deriving DecidableEq, Repr

/-- The path a checked packet came over (Tables MS.4 and MS.5). -/
inductive PacketPath where
  | ground
  | bridge (bg : Nat)
  | fanout (stack : Nat)
deriving DecidableEq, Repr

/-- A controller that scrubs (R340). -/
inductive ScrubUnit where
  | stack (s : Nat)
  | near (die : Nat)
deriving DecidableEq, Repr

/-- A point of a curve in affine form; none is the point at infinity (R505). -/
abbrev Point := Option (Nat × Nat)

/-- The SPDM requests the responder tells apart (R497, Table SE.4). -/
inductive SpdmRequest where
  | getVersion
  | getCapabilities
  | negotiateAlgorithms
  | getDigests
  | getCertificate (slot : Nat)
  | challenge (slot : Nat)
  | getMeasurements (block : Nat)
  | keyExchange (slot : Nat) (heartbeat : Bool)
  | finish (session : Nat)
  | heartbeat (session : Nat)
  | keyUpdate (session : Nat)
  | ideKm (session : Nat)
  | endSession (session : Nat)
  | unsupported (code : Nat)
deriving DecidableEq, Repr

/-- What start-up STAGE 3 finds on one stack (R550): training, repaired lanes, the failing rows, and whether a spare
row is left for each of them; `spareMin` is the fewest spare rows left in any bank. -/
structure StackReport where
  trained : Bool
  lanes : Nat
  failingRows : List Nat
  sparesEnough : Bool
  spareMin : Nat
deriving DecidableEq, Repr

/-- The commands: one constructor for each row of the table. -/
inductive Instr where
  | regWrite (req : Requester) (addr size : Nat) (value : DWord)
  | reg64LowRead (req : Requester) (read : RegRead)
  | modeWrite (req : Requester) (value : Word)
  | psetLoad (req : Requester) (index : Nat)
  | psetUnload (req : Requester) (index : Nat)
  | psetLoadComplete
  | prkLoad (req : Requester) (index : Nat)
  | prkUnload (req : Requester) (index : Nat)
  | prkLoadComplete
  | sqDoorbell (req : Requester) (ring : Nat) (tail : Word)
  | ringFetch (ring : Nat)
  | ringError (ring : Nat) (completion : Bool) (addr : DWord)
  | cqDoorbell (req : Requester) (ring : Nat) (head : Word)
  | evqDoorbell (req : Requester) (head : Word)
  | ringEnable (req : Requester)
  | ringDisable (req : Requester)
  | ringReset (req : Requester)
  | jobAdmissionCheck (reads : AdmissionReads)
  | jobAdmit
  | jobAged (ring : Nat)
  | jobCancelGo (req : Requester) (ring : Nat)
  | jobComplete (ring : RingDrain)
  | completionRecordWrite (ring : Nat)
  | cqCoalesceTimeout (ring : Nat)
  | halt (req : Requester)
  | haltComplete
  | release (req : Requester)
  | linkRetrain (req : Requester) (rate : Nat)
  | linkTrainingDone (moduleA moduleB : Bool) (repaired : Nat)
  | linkRecalibration
  | linkRecalibrationDone
  | hdmMapWrite (req : Requester) (value : DWord)
  | hostMemRead (offset len : Nat)
  | hostMemWrite (offset : Nat) (data : List Byte)
  | cxlConfigRequest (commit : Option Bool)
  | telemClear (req : Requester)
  | macroOffer (tile : Nat)
  | macroAdmit (tile : Nat)
  | groupStart (tile seq delay : Nat)
  | macroRetire (tile seq : Nat) (held : HeldCycles)
  | macroAbort (tile seq : Nat) (cause : AbortCause)
  | segmentFetchDone (tile cycles : Nat)
  | scratchEccWriteback (tile offset : Nat)
  | ntt (tile seq : Nat)
  | intt (tile seq : Nat)
  | autoCoefficient (tile seq : Nat)
  | autoEvaluation (tile seq : Nat)
  | autoIndex (tile seq : Nat)
  | extract (tile seq : Nat)
  | modup (tile seq : Nat)
  | moddown (tile seq : Nat)
  | rescale (tile seq : Nat)
  | kswRelin (tile seq : Nat)
  | kswGalois (tile seq : Nat)
  | kswLweKs (tile seq : Nat)
  | keyVerdict (tile seq : Nat)
  | bobbinStreamStart (stack : Nat)
  | keyRingArrival (tile seq bytes cycles : Nat)
  | hmul (tile seq : Nat)
  | pmul (tile seq : Nat)
  | add (tile seq : Nat)
  | sub (tile seq : Nat)
  | neg (tile seq : Nat)
  | cmul (tile seq : Nat)
  | vprog (tile seq : Nat)
  | vcvt (tile seq : Nat)
  | mxpModular (tile seq : Nat)
  | mxpClear (tile seq : Nat)
  | mxpExpand (tile seq : Nat)
  | pbs (tile seq : Nat)
  | pbsKeyVerdict (tile seq : Nat)
  | pbsObjectArrival (tile seq cycles : Nat)
  | packRaise (tile seq : Nat)
  | packLwe (tile seq : Nat)
  | load (tile seq : Nat)
  | store (tile seq : Nat)
  | gather (tile seq : Nat)
  | scatter (tile seq : Nat)
  | send (tile seq : Nat)
  | shuttleSlotFree (tile seq : Nat)
  | shuttleDescriptorArrive (tile seq : Nat) (damaged : Bool)
  | shuttleAck (tile seq : Nat)
  | sendCompletion (tile seq : Nat)
  | recv (tile seq : Nat)
  | recvPoll (tile seq : Nat)
  | shqReset (req : Requester)
  | win (tile seq : Nat)
  | remoteWrite (writer target offset : Nat) (data : List Byte)
  | remoteRead (reader target offset len : Nat)
  | bar (tile seq : Nat)
  | barrierResolve (ring : RingDrain) (barrier : Nat)
  | chkCompute (tile seq : Nat)
  | chkAppend (tile seq : Nat)
  | chkCheckStrip (tile seq : Nat)
  | nop (tile seq : Nat)
  | chainStageResume (tile seq cycles : Nat) (ringFull : Bool)
  | cvuRxWrite (req : Requester) (unit : Nat) (value : DWord)
  | memReadRequest (addr : Nat) (error : ReadError)
  | memWriteRequest (line : Nat) (mask : DWord) (data : List Byte)
  | memPoisonRequest
  | wcbResidencyTimeout (oldest : EntryRead)
  | packetReceive (path : PacketPath) (tile seq : Nat) (error : ReadError)
  | translationComplete (tile queue : Nat) (present : Bool)
  | streamResume (req : Requester)
  | stallWatchdog (tile seq : Nat)
  | strmReadCheck (req : Requester) (pattern : Nat)
  | strmFill (req : Requester) (pattern : Nat)
  | strmCompare (req : Requester) (pattern : Nat)
  | strmRead (req : Requester) (pattern : Nat)
  | streamerDone (stack : Nat) (errors : List (Nat × ReadError))
  | patrolScrub (unit : ScrubUnit) (error : ReadError)
  | commitFinish (reads : PairReads)
  | tilePollTimeout (tile : Nat)
  | tileFailure (tile : Nat) (cause : FailCause)
  | restoreDone (reads : PairReads)
  | spareTakeover (tile : Nat)
  | errorHandle
  | errorPosted
  | pacerSlot
  | pacerWindow
  | dvfsStart (die : Nat)
  | avsStatusPoll (die : Nat) (reached : Bool)
  | dvfsSettleEnd (die : Nat)
  | dvfsFreezeEnd (die : Nat)
  | avsTimeout (die : Nat)
  | thermalSample (tiles hbm : List Nat) (hub : Nat)
  | thermalFloorRise (die : Nat)
  | thermalFloorFall (die : Nat)
  | powerOff (req : Requester)
  | safeOff
  | clkoutSelect (req : Requester) (value : Word)
  | railGood (rail : Nat)
  | railLost (rail : Nat)
  | refclkLost
  | mresetAssert
  | mresetRelease
  | throttleFilter (active : Bool)
  | throttleHonour
  | startupBegin
  | stageRom (badFuseRow : Option Nat)
  | stageTrusted
  | stageHbm (reports : List StackReport)
  | stageTiles (failingSites : List (List Nat)) (failingBridge : Option Nat)
  | stageWipe
  | stageService
  | stageUcie (moduleA moduleB : Bool) (repaired : Nat)
  | stageCxl
  | bootStart (kind : Nat)
  | bootPush
  | bootAbort
  | ownerChange (req : Requester)
  | ownerChangeDone
  | debugNonce (req : Requester)
  | debugUnlock (req : Requester)
  | svnCommit (req : Requester) (fusesBlown : Bool)
  | identity (req : Requester)
  | spdmRequest (request : SpdmRequest)
  | svcHeartbeat
  | heartbeatMissed
  | svcDenied (write : Bool) (addr : DWord) (value : Word)
  | modadd (mBits x y m : Nat)
  | modsub (mBits x y m : Nat)
  | modmul (mBits x y m : Nat)
  | modexp (mBits eBits x e m : Nat)
  | modinvP (mBits x m : Nat)
  | ecmulg (slot k : Nat)
  | ecmul (slot k : Nat) (p : Point)
  | ecdh (slot k : Nat) (q : Point)
  | ecadd (slot : Nat) (p q : Point)
  | ecdsaSign (slot e d k : Nat)
  | ecdsaVerify (slot e r sigS : Nat) (q : Point)
  | curveLoad (slot p a b gx gy n : Nat)
  | bodkinDone
  | i3cStatusRead
  | i3cPrivateWrite (data : List Byte)
  | jtagIdcode
  | jtagBypass
  | jtagSamplePreload (bits : List Bool)
  | jtagExtest (bits : List Bool)
  | jtagIeee1838Access (dieCode : Nat)
  | jtagIeee1687Access (network : Nat)
  | i3cDynamicAddressAssignment (addr : Nat)
  | spdmHeartbeatTimeout (session : Nat)
  | mailboxBadCmd (req : Requester) (cmd : Nat)
deriving DecidableEq, Repr

end Sys2Proof
end

