-- ==== Sys2Proof/WellFormed.lean ====
section
/-!
DEFINITION. Which commands are well formed: every operand lies in the range the manual gives the thing it names. A
command outside these ranges names nothing of the machine; exec is still total on it.
-/
namespace Sys2Proof

/-- 208 logical tiles (R12). -/
def Instr.tileOk (t : Nat) : Bool := decide (t < 208)

/-- 32 ring pairs (R396). -/
def Instr.ringOk (r : Nat) : Bool := decide (r < 32)

/-- 12 stacks (R13). -/
def Instr.stackOk (k : Nat) : Bool := decide (k < 12)

/-- Four compute dies (R11). -/
def Instr.dieOk (d : Nat) : Bool := decide (d < 4)

/-- A sequence number is 32 bits (R92). -/
def Instr.seqOk (q : Nat) : Bool := decide (q < 2 ^ 32)

/-- A macro-operation of a tile. -/
def Instr.mopOk (t q : Nat) : Bool := Instr.tileOk t && Instr.seqOk q

/-- A declared length M_BITS or E_BITS; R508 says what one above 4,096 does (R507). -/
def Instr.lengthOk (n : Nat) : Bool := decide (n < 2 ^ 16)

/-- A four-slot Bodkin curve number (R506). -/
def Instr.slotOk (k : Nat) : Bool := decide (k < 4)

/-- An affine point whose coordinates fit the 521 bits of the widest operand (R505, R506). -/
def Instr.pointOk : Point → Bool
  | none => true
  | some (x, y) => decide (x < 2 ^ 4096) && decide (y < 2 ^ 4096)

/-- The operand ranges of each command. -/
def Instr.wf : Instr → Bool
  | .regWrite _ addr size _ => decide (addr < 2 ^ 24) && [1, 2, 4, 8, 16].contains size
  | .reg64LowRead _ r => decide (r.addr < 2 ^ 24) && [1, 2, 4, 8].contains r.size
  | .modeWrite _ _ => true
  | .psetLoad _ k => decide (k < 64)
  | .psetUnload _ k => decide (k < 64)
  | .psetLoadComplete => true
  | .prkLoad _ k => decide (k < 16)
  | .prkUnload _ k => decide (k < 16)
  | .prkLoadComplete => true
  | .sqDoorbell _ r _ => Instr.ringOk r
  | .ringFetch r => Instr.ringOk r
  | .ringError r _ _ => Instr.ringOk r
  | .cqDoorbell _ r _ => Instr.ringOk r
  | .evqDoorbell _ _ => true
  | .ringEnable _ => true
  | .ringDisable _ => true
  | .ringReset _ => true
  | .jobAdmissionCheck r => Instr.ringOk r.ring && r.damaged.all (fun i => decide (i < 4095))
  | .jobAdmit => true
  | .jobAged r => Instr.ringOk r
  | .jobCancelGo _ r => Instr.ringOk r
  | .jobComplete r => Instr.ringOk r.ring && r.merges.all (fun x => decide (x.1 % 64 = 0))
  | .completionRecordWrite r => Instr.ringOk r
  | .cqCoalesceTimeout r => Instr.ringOk r
  | .halt _ => true
  | .haltComplete => true
  | .release _ => true
  | .linkRetrain _ rate => decide (rate < 4)
  | .linkTrainingDone _ _ n => decide (n < 256)
  | .linkRecalibration => true
  | .linkRecalibrationDone => true
  | .hdmMapWrite _ _ => true
  | .hostMemRead off len => decide (off < 2 ^ 64) && decide (len ≤ 64)
  | .hostMemWrite off data => decide (off < 2 ^ 64) && decide (data.length ≤ 64)
  | .cxlConfigRequest _ => true
  | .telemClear _ => true
  | .macroOffer t => Instr.tileOk t
  | .macroAdmit t => Instr.tileOk t
  | .groupStart t q _ => Instr.mopOk t q
  | .macroRetire t q h => Instr.mopOk t q && decide (h.exchange ≤ h.total)
  | .macroAbort t q _ => Instr.mopOk t q
  | .segmentFetchDone t _ => Instr.tileOk t
  | .scratchEccWriteback t off => Instr.tileOk t && decide (off < 0x600000) && off % 4 == 0
  | .ntt t q => Instr.mopOk t q
  | .intt t q => Instr.mopOk t q
  | .autoCoefficient t q => Instr.mopOk t q
  | .autoEvaluation t q => Instr.mopOk t q
  | .autoIndex t q => Instr.mopOk t q
  | .extract t q => Instr.mopOk t q
  | .modup t q => Instr.mopOk t q
  | .moddown t q => Instr.mopOk t q
  | .rescale t q => Instr.mopOk t q
  | .kswRelin t q => Instr.mopOk t q
  | .kswGalois t q => Instr.mopOk t q
  | .kswLweKs t q => Instr.mopOk t q
  | .keyVerdict t q => Instr.mopOk t q
  | .bobbinStreamStart k => Instr.stackOk k
  | .keyRingArrival t q n _ => Instr.mopOk t q && decide (n ≤ 65536)
  | .hmul t q => Instr.mopOk t q
  | .pmul t q => Instr.mopOk t q
  | .add t q => Instr.mopOk t q
  | .sub t q => Instr.mopOk t q
  | .neg t q => Instr.mopOk t q
  | .cmul t q => Instr.mopOk t q
  | .vprog t q => Instr.mopOk t q
  | .vcvt t q => Instr.mopOk t q
  | .mxpModular t q => Instr.mopOk t q
  | .mxpClear t q => Instr.mopOk t q
  | .mxpExpand t q => Instr.mopOk t q
  | .pbs t q => Instr.mopOk t q
  | .pbsKeyVerdict t q => Instr.mopOk t q
  | .pbsObjectArrival t q _ => Instr.mopOk t q
  | .packRaise t q => Instr.mopOk t q
  | .packLwe t q => Instr.mopOk t q
  | .load t q => Instr.mopOk t q
  | .store t q => Instr.mopOk t q
  | .gather t q => Instr.mopOk t q
  | .scatter t q => Instr.mopOk t q
  | .send t q => Instr.mopOk t q
  | .shuttleSlotFree t q => Instr.mopOk t q
  | .shuttleDescriptorArrive t q _ => Instr.mopOk t q
  | .shuttleAck t q => Instr.mopOk t q
  | .sendCompletion t q => Instr.mopOk t q
  | .recv t q => Instr.mopOk t q
  | .recvPoll t q => Instr.mopOk t q
  | .shqReset _ => true
  | .win t q => Instr.mopOk t q
  | .remoteWrite w t off data =>
      Instr.tileOk w && Instr.tileOk t && decide (off + data.length ≤ 2 ^ 23)
  | .remoteRead r t off len => Instr.tileOk r && Instr.tileOk t && decide (off + len ≤ 2 ^ 23)
  | .bar t q => Instr.mopOk t q
  | .barrierResolve r _ => Instr.ringOk r.ring && r.merges.all (fun x => decide (x.1 % 64 = 0))
  | .chkCompute t q => Instr.mopOk t q
  | .chkAppend t q => Instr.mopOk t q
  | .chkCheckStrip t q => Instr.mopOk t q
  | .nop t q => Instr.mopOk t q
  | .chainStageResume t q _ _ => Instr.mopOk t q
  | .cvuRxWrite _ u _ => decide (u < 8)
  | .memReadRequest a _ => decide (a < 2 ^ 64)
  | .memWriteRequest line _ data => decide (line < 2 ^ 64) && line % 64 == 0 && data.length == 64
  | .memPoisonRequest => true
  | .wcbResidencyTimeout e => Instr.stackOk e.stack
  | .packetReceive _ t q _ => Instr.mopOk t q
  | .translationComplete t q _ => Instr.tileOk t && decide (q < 8)
  | .streamResume _ => true
  | .stallWatchdog t q => Instr.mopOk t q
  | .strmReadCheck _ p => decide (p < 4)
  | .strmFill _ p => decide (p < 4)
  | .strmCompare _ p => decide (p < 4)
  | .strmRead _ p => decide (p < 4)
  | .streamerDone k _ => Instr.stackOk k
  | .patrolScrub (.stack k) _ => Instr.stackOk k
  | .patrolScrub (.near d) _ => Instr.dieOk d
  | .commitFinish r => Instr.ringOk r.ring
  | .tilePollTimeout t => Instr.tileOk t
  | .tileFailure t _ => Instr.tileOk t
  | .restoreDone r => Instr.ringOk r.ring
  | .spareTakeover t => Instr.tileOk t
  | .errorHandle => true
  | .errorPosted => true
  | .pacerSlot => true
  | .pacerWindow => true
  | .dvfsStart d => Instr.dieOk d
  | .avsStatusPoll d _ => Instr.dieOk d
  | .dvfsSettleEnd d => Instr.dieOk d
  | .dvfsFreezeEnd d => Instr.dieOk d
  | .avsTimeout d => Instr.dieOk d
  | .thermalSample ts ks hub =>
      ts.length == 224 && ks.length == 12 && ts.all (fun v => decide (v < 256))
        && ks.all (fun v => decide (v < 256)) && decide (hub < 256)
  | .thermalFloorRise d => Instr.dieOk d
  | .thermalFloorFall d => Instr.dieOk d
  | .powerOff _ => true
  | .safeOff => true
  | .clkoutSelect _ _ => true
  | .railGood r => decide (r < 11)
  | .railLost r => decide (r < 11)
  | .refclkLost => true
  | .mresetAssert => true
  | .mresetRelease => true
  | .throttleFilter _ => true
  | .throttleHonour => true
  | .startupBegin => true
  | .stageRom _ => true
  | .stageTrusted => true
  | .stageHbm reports => reports.length == 12
  | .stageTiles sites _ => sites.length == 4 && sites.all (fun l => l.all (fun v => decide (v < 56)))
  | .stageWipe => true
  | .stageService => true
  | .stageUcie _ _ n => decide (n < 256)
  | .stageCxl => true
  | .bootStart k => decide (k < 4)
  | .bootPush => true
  | .bootAbort => true
  | .ownerChange _ => true
  | .ownerChangeDone => true
  | .debugNonce _ => true
  | .debugUnlock _ => true
  | .svnCommit _ _ => true
  | .identity _ => true
  | .spdmRequest _ => true
  | .svcHeartbeat => true
  | .heartbeatMissed => true
  | .svcDenied _ _ _ => true
  | .modadd n _ _ _ => Instr.lengthOk n
  | .modsub n _ _ _ => Instr.lengthOk n
  | .modmul n _ _ _ => Instr.lengthOk n
  | .modexp n k _ _ _ => Instr.lengthOk n && Instr.lengthOk k
  | .modinvP n _ _ => Instr.lengthOk n
  | .ecmulg k _ => Instr.slotOk k
  | .ecmul k _ p => Instr.slotOk k && Instr.pointOk p
  | .ecdh k _ p => Instr.slotOk k && Instr.pointOk p
  | .ecadd k p q => Instr.slotOk k && Instr.pointOk p && Instr.pointOk q
  | .ecdsaSign k _ _ _ => Instr.slotOk k
  | .ecdsaVerify k _ _ _ q => Instr.slotOk k && Instr.pointOk q
  | .curveLoad k _ _ _ _ _ _ => Instr.slotOk k
  | .bodkinDone => true
  | .i3cStatusRead => true
  | .i3cPrivateWrite _ => true
  | .jtagIdcode => true
  | .jtagBypass => true
  | .jtagSamplePreload _ => true
  | .jtagExtest _ => true
  | .jtagIeee1838Access _ => true
  | .jtagIeee1687Access _ => true
  | .i3cDynamicAddressAssignment a => decide (a < 128)
  | .spdmHeartbeatTimeout _ => true
  | .mailboxBadCmd _ c => decide (c < 256)

end Sys2Proof
end

