-- ==== Sys2Proof/Decode.lean ====
section
/-!
DEFINITION. The reading of a command from the bits of spec/opcode_table.json. The table gives no row any bits (every
row's list of fields is empty: the commands are register accesses, operations and events, not words), so no word spells
a command. The encodings the manual does give (macro-operation words, vector-program words, Table OP.1 and R143) are
data of the machine and are read in Machine/Operands.lean and Machine/Vprog.lean.
-/
namespace Sys2Proof

/-- The command a word spells by the table's bits: none, for no row of the table has bits. -/
def decodeTableWord (_nbits _w : Nat) : Option Instr := none

end Sys2Proof
end

