-- ==== Sys2Proof/Config.lean ====
section
/-!
DEFINITION. What one implementation of the module fixes (fuses, the trusted-firmware configuration, the ROM) and the
free values: constants without a body, of which nothing can be computed or proved (DESIGN CHOICE, log 5, log 9).
-/
namespace Sys2Proof

/-- FREE VALUE: the n-th value the manual leaves open, applied to State.freeCount (DESIGN CHOICE, log 5). -/
opaque Config.freeWord : Nat → DWord

/-- FREE VALUE: the n-th byte string of a random source, byte by byte (debug nonces, SPDM nonces; DESIGN CHOICE, log 5). -/
opaque Config.freeByte : Nat → Nat → Byte

/-- FREE VALUE: word `pos` of the n-th set of tile-register words that the manual leaves open (DESIGN CHOICE, log 5). -/
opaque Config.freeLane : (n : Nat) → (pos : Nat) → Word

/-- FREE VALUE: what the Bodkin uses as the inverse of a value that has none modulo p or n, which happens only on a
curve whose p or n is composite (R506 does not test them; DESIGN CHOICE, log 5). -/
opaque Config.openInverse : (modulus value : Nat) → Nat

/-- Cycles that a partial write waits for a write-back when the buffer is full, by the line written back and the time
(R323 gives no figure; DESIGN CHOICE, log 5). -/
opaque Config.wcbWait : (line clock : Nat) → Nat

/-- Whether the trusted-firmware configuration presents CXL.mem (R388). -/
opaque Config.cxlMemPresent : Bool

/-- The fuse that gives the voltage of a die at a performance point (R459); only its offset from 600 mV is kept free,
so that the voltage lies in the range the rule gives. -/
opaque Config.fusedVoltageOffset : Nat → Nat → Nat

/-- Fused voltage of a die at a point, in mV: within 600 to 850 (R459; DESIGN CHOICE, log 9). -/
def Config.perfVolt (die point : Nat) : Nat :=
  600 + Config.fusedVoltageOffset die point % 251

/-- The fuse behind PACER_FIXED, as an offset from 200 W (R474). -/
opaque Config.fusedPacerOffset : Nat

/-- Fused PACER_FIXED in W: within 200 to 350 (R474; DESIGN CHOICE, log 9). -/
def Config.pacerFixed : Nat :=
  200 + Config.fusedPacerOffset % 151

/-- Repair fuses that a stack's base die has as manufactured (R550; DESIGN CHOICE, log 9). -/
opaque Config.repairFuses : Nat

/-- The unique device secret fused in the module, 32 bytes (R495; DESIGN CHOICE, log 9). -/
opaque Config.udsByte : Nat → Byte

/-- SHA-384 fused in key slot `slot`: of ECC_PUB when `lms` is false, of LMS_PUB when it is true (R493)
(DESIGN CHOICE, log 9). -/
opaque Config.keyHashByte : (slot : Nat) → (lms : Bool) → Nat → Byte

/-- Revocation fuses of the four key slots as manufactured (R494). -/
opaque Config.fusedRevoked : BitVec 4

/-- Fused security version of a KIND (1 trusted, 2 service) as manufactured (R494). -/
opaque Config.fusedSvn : Nat → BitVec 6

/-- SHA-384 of the Hoop ROM, measurement block 1 (R497). -/
opaque Config.romDigestByte : Nat → Byte

/-- The generator and coefficients of P-384 (curve slot 0, R506) are those of FIPS 186-5, which the manual names. -/
def Config.p384P : Nat := 2 ^ 384 - 2 ^ 128 - 2 ^ 96 + 2 ^ 32 - 1
def Config.p384A : Nat := Config.p384P - 3
def Config.p384B : Nat :=
  0xb3312fa7e23ee7e4988e056be3f82d19181d9c6efe8141120314088f5013875ac656398d8a2ed19d2a85c8edd3ec2aef
def Config.p384Gx : Nat :=
  0xaa87ca22be8b05378eb1c71ef320ad746e1d3b628ba79b9859f741e082542a385502f25dbf55296c3a545e3872760ab7
def Config.p384Gy : Nat :=
  0x3617de4a96262c6f5d9e98bf9292dc29f8f41dbd289a147ce9da3113b5f0b8c00a60b1ce1d7e819d7a431d7c90ea0e5f
def Config.p384N : Nat :=
  0xffffffffffffffffffffffffffffffffffffffffffffffffc7634d81f4372ddf581a0db248b0a77aecec196accc52973

end Sys2Proof
end

