-- ==== Sys2Proof/Machine/State.lean ====
section
/-!
DEFINITION. The state of the FV1216 as plain data: every register, buffer, queue, counter, mode and pin the manual
gives it, the queue of waiting commands, and the state right after reset. INVENTORY.md lists every field with its rule
and its reset value.
-/
namespace Sys2Proof.Machine

/-! ## Outcomes -/

/-- The one way the model stops: an access the address map gives no home (Table MS.1). -/
inductive Fault where
  /-- Raised by MEM_READ_REQUEST, MEM_WRITE_REQUEST, REMOTE_READ and REMOTE_WRITE at an address Table MS.1 calls
  unmapped. Safe: the model stops where no controller is there to answer. -/
  | unmapped (addr : Nat)
deriving DecidableEq, Repr

/-- Why a command has no meaning. -/
inductive Refusal where
  /-- A command whose meaning has not been written. Safe. -/
  | notModelled (mnemonic : String)
deriving DecidableEq, Repr

/-! ## Tables of like things -/

/-- A table of `n` things of one kind. -/
abbrev Tab (n : Nat) (α : Type) := Vector α n

/-- Entry `i`, or `d` where the table has no such entry. -/
def Tab.at {α : Type} {n : Nat} (v : Vector α n) (d : α) (i : Nat) : α :=
  if h : i < n then v[i] else d

/-- The table with entry `i` replaced; unchanged where it has no such entry. -/
def Tab.put {α : Type} {n : Nat} (v : Vector α n) (i : Nat) (x : α) : Vector α n :=
  v.setIfInBounds i x

/-- A table of `n` equal entries. -/
def Tab.fill {α : Type} (n : Nat) (x : α) : Vector α n := Vector.replicate n x

/-- A table whose entry `i` is `f i`. -/
def Tab.build {α : Type} (n : Nat) (f : Nat → α) : Vector α n :=
  ⟨((List.range n).map f).toArray, by simp⟩

/-! ## Memory -/

/-- The device address space as a list of cells: addresses strictly rising, no cell that holds what an unlisted address
reads as (0; DESIGN CHOICE, log 7). -/
abbrev Memory := List Host.Cell

/-- Every listed address lies above `lo` or at it, rises strictly, and no listed byte is 0. -/
def Memory.wfFrom : Nat → Memory → Bool
  | _, [] => true
  | lo, (a, v) :: m => decide (lo ≤ a) && decide (v ≠ 0) && Memory.wfFrom (a + 1) m

/-- The canonical form. -/
def Memory.wf (m : Memory) : Bool := Memory.wfFrom 0 m

/-! ## Modes and register fields -/

/-- MODE.GUARD (Table DV.4). -/
inductive Guard where
  | off
  | mirror
  | mirrorVerify
deriving DecidableEq, Repr

/-- MODE.KEYFEED. -/
inductive Keyfeed where
  | stored
  | seeded
deriving DecidableEq, Repr

/-- MODE.CHECK. -/
inductive CheckMode where
  | word
  | wordPair
  | full
deriving DecidableEq, Repr

/-- MODE.ROUND. -/
inductive Rounding where
  | nearestEven
  | towardZero
  | stochastic
deriving DecidableEq, Repr

/-- The assigned values of MODE (Table DV.4): an unassigned encoding cannot be held (R22). -/
structure Mode where
  guard : Guard
  keyfeed : Keyfeed
  pace : Nat
  check : CheckMode
  audit : Bool
  round : Rounding
deriving DecidableEq, Repr

/-- MODE at reset, 0x0000_1011 (R21). -/
def Mode.reset : Mode :=
  { guard := .mirror, keyfeed := .seeded, pace := 0, check := .wordPair, audit := false, round := .nearestEven }

/-- One requester's copy of the select registers (R391). -/
structure Selects where
  tile : Nat
  queue : Nat
  ring : Nat
  stack : Nat
  die : Nat
deriving DecidableEq, Repr

def Selects.reset : Selects := { tile := 0, queue := 0, ring := 0, stack := 0, die := 0 }

/-- The two register spaces (Table HI.3, R420). -/
inductive RegSpace where
  | bar0
  | sideband
deriving DecidableEq, Repr

/-- TELEM_SEL (Table HI.16). -/
structure TelemSel where
  group : Nat
  index : Nat
  scope : Nat
deriving DecidableEq, Repr

/-- HALT_STATUS.STATE (Table HI.12). -/
inductive HaltState where
  | running
  | halting
  | halted
deriving DecidableEq, Repr

/-! ## Parameter sets and prickings -/

/-- A modulus entry (Table CT.3). -/
structure Modulus where
  q : Nat
  root : Nat
  w : Nat
  c : Nat
  u : Nat
  scaleStep : Nat
deriving DecidableEq, Repr

/-- A loaded parameter set (Table CT.2). -/
structure PSet where
  logN : Nat
  chain : Nat
  special : Nat
  dnum : Nat
  lweN : Nat
  noiseLimit : Nat
  postPbs : Nat
  postRlwe : Nat
  pbsLevels : Nat
  pbsBaseLog : Nat
  domainSep : List Byte
  lwe : Modulus
  noiseInc : List Int
  moduli : List Modulus
deriving DecidableEq, Repr

/-- A load or unload in progress: what the write that started it fixed (R46). -/
structure LoadOp where
  load : Bool
  index : Nat
  addr : Nat
deriving DecidableEq, Repr

/-- The registers of a loader (Tables CT.6 to CT.8, OP.12 to OP.14). BUSY is 1 while `op` holds an operation. -/
structure Loader where
  addr : DWord
  index : Nat
  code : Nat
  lastIndex : Nat
  detail : Nat
  op : Option LoadOp
deriving DecidableEq, Repr

def Loader.reset : Loader := { addr := 0, index := 0, code := 0, lastIndex := 0, detail := 0, op := none }

/-- The header of a loaded pricking and where it lies (Table OP.9). A section is (offset, size). -/
structure PrkInfo where
  base : Nat
  bindings : Nat
  tiles : Nat
  descs : Nat
  groups : Nat
  tables : Nat
  vprogs : Nat
  psetRef : DWord
  imageSize : Nat
  sections : List (Nat × Nat)
deriving DecidableEq, Repr

/-! ## Errors -/

/-- The error classes (Table EB.1). -/
inductive ErrClass where
  | corrected
  | contained
  | deferred
  | fatal
deriving DecidableEq, Repr

/-- What an error record says (Table EB.2), but for COUNT and CHECK. `ring` is none when no job is named. -/
structure Err where
  cls : ErrClass
  code : Nat
  kind : Nat
  unit : Nat
  ring : Option Nat
  tag : Nat
  seq : Nat
  arg0 : Nat
  arg1 : Nat
deriving DecidableEq, Repr

/-- How far the Hoop is with an entry (R527). -/
inductive Handling where
  | waiting
  | active
  | suspended
deriving DecidableEq, Repr

/-- An entry of the error queue (R524, R526). -/
structure ErrEntry where
  err : Err
  count : Nat
  order : Nat
  phase : Handling
deriving DecidableEq, Repr

/-- The error queue and its registers (Table EB.5). -/
structure ErrUnit where
  queue : List ErrEntry
  nextOrder : Nat
  fatal : Bool
  lost : Bool
  overflow : Nat
  afterFatal : Nat
  fatalRec : Option Err
deriving DecidableEq, Repr

def ErrUnit.reset : ErrUnit :=
  { queue := [], nextOrder := 0, fatal := false, lost := false, overflow := 0, afterFatal := 0, fatalRec := none }

/-! ## Macro-operation words and descriptors -/

/-- An operand reference (R271); `desc` 0xFFF names no operand. -/
structure Opnd where
  desc : Nat
  off : Nat
deriving DecidableEq, Repr

/-- A macro-operation word (Table OP.1). -/
structure MopWord where
  opcode : Nat
  engine : Nat
  issue : Nat
  chain : Nat
  cstage : Nat
  pset : Nat
  hold : Nat
  o0 : Opnd
  o1 : Opnd
  o2 : Opnd
  o3 : Opnd
  imm : Nat
deriving DecidableEq, Repr

/-- A dimension entry (Table OP.6). -/
structure Dim where
  extent : Nat
  stride : Nat
  role : Nat
  axis : Nat
  parts : Nat
  block : Nat
deriving DecidableEq, Repr

/-- A created layout descriptor (Table OP.5): `base` has the binding or the image base added. `code` is the creation
code of Table OP.8 that refused it, 0 when it stands. -/
structure Desc where
  code : Nat
  elemBits : Nat
  space : Nat
  recorded : Bool
  index : Bool
  blocked : Bool
  specialRows : Nat
  tileset : Nat
  dieMask : Nat
  stackMask : Nat
  base : Nat
  allocSize : Nat
  pitch : Nat
  recordOffset : Nat
  dims : List Dim
  /-- the tiles of the group entry TILESET, in its order -/
  members : List Nat
deriving DecidableEq, Repr

/-- A byte range [lo, hi) with its mark (R97). -/
structure ByteRange where
  lo : Nat
  hi : Nat
  write : Bool
deriving DecidableEq, Repr

/-- What a started macro-operation waits for (R175, R181, R201, R207). -/
inductive Hold where
  | none
  | verdict
  | keyRing
  | object
deriving DecidableEq, Repr

/-- A Shuttle descriptor (Table SQ.3). `rec` is 1 when there is no record. -/
structure ShuttleDesc where
  queue : Nat
  sender : Nat
  epoch : Nat
  length : Nat
  src : Nat
  recAddr : Nat
  seq : Nat
deriving DecidableEq, Repr

/-- Where a SEND stands (R358-R360). -/
inductive SendState where
  | idle
  | waitSlot
  | inFlight
  | accepted
  | ackDue
  | closedDue
  | staleDue (epoch queueEpoch : Nat)
deriving DecidableEq, Repr

/-- An admitted, unretired macro-operation (R93, R94, R96). -/
structure Mop where
  seq : Nat
  word : MopWord
  admitted : Nat
  /-- its cycle 0; none while a group-start signal (R95) or a chain's first unit (R250) is awaited -/
  start : Option Nat
  /-- the cycle of its admission or, in a group, of its group-start signal; none before -/
  ready0 : Option Nat
  /-- as a chain's stage: the cycle, counted from its cycle 0, in which the first unit of its intermediate completes;
  none where that is its retirement or where it writes none -/
  unitAfter : Option Nat
  /-- its engine interval; none where it holds its engines until it frees them itself -/
  interval : Option Nat
  /-- scoreboard entries (R96) -/
  ranges : List ByteRange
  /-- operand positions with a marked granule at admission (R58) -/
  marked : List Nat
  latency : Nat
  held : Nat
  hold : Hold
  /-- its effect has been taken -/
  done : Bool
  /-- the error to record at retirement (R71, R372) -/
  events : List Err
  send : SendState
  /-- RECV: the take cycle and the head descriptor (R361) -/
  taken : Option (Nat × ShuttleDesc)
  /-- RECV: the head slot could not be read (R89, R103, Table SQ.6) -/
  badHead : Bool
  /-- SEND: how often its descriptor has been resent (R327, R360) -/
  resends : Nat
  /-- its one stall event has been raised (R367) -/
  stalled : Bool
  waitSince : Nat
  /-- an abort cause it has met, which MACRO_ABORT carries out (R88, R327, R329) -/
  stop : Option AbortCause
deriving DecidableEq, Repr

/-! ## Tiles -/

/-- A tile register: 32 rows of 128 words. -/
abbrev VReg := Tab 32 (Tab 128 Word)

/-- A mask register: 32 rows of 128 bits. -/
abbrev KReg := Tab 32 (BitVec 128)

/-- A write to a tile-register row that has not landed yet (R105): it is read from cycle `cycle` + 1 on. -/
structure Landing where
  cycle : Nat
  reg : Nat
  row : Nat
  value : Tab 128 Word
  writer : Nat
deriving DecidableEq, Repr

/-- A segment in the program store (R294-R296). -/
structure Segment where
  index : Nat
  words : List MopWord
  /-- its CRC-32C agreed, and from this tile cycle on it may be used -/
  usable : Option Nat
  fetches : Nat
deriving DecidableEq, Repr

/-- STATE of a stream queue (Table SQ.2). -/
inductive StreamState where
  | idle
  | running
  | halted
deriving DecidableEq, Repr

/-- A stream queue: its status word (Table SQ.2) and its registers (Table SQ.10). -/
structure StreamQueue where
  cfgLimit : Nat
  state : StreamState
  limit : Nat
  seq : Nat
  /-- POS as the status word gives it, which is written when the state changes (R350) -/
  pos : Nat
  faultAddr : Nat
  halts : Nat
  /-- requests of the current macro-operation before this index need no further translation (R351) -/
  released : Nat
  /-- its line requests, the last first: the tile cycle in which one issues and the one in which its data are there (R349) -/
  issues : List (Nat × Nat)
  /-- host requests of the current macro-operation whose translation has completed (R351) -/
  translated : Nat
  /-- the tile cycle of its last halt -/
  haltedAt : Nat
deriving DecidableEq, Repr

def StreamQueue.reset : StreamQueue :=
  { cfgLimit := 16, state := .idle, limit := 0, seq := 0, pos := 0, faultAddr := 0, halts := 0, released := 0,
    issues := [], translated := 0, haltedAt := 0 }

/-- A Shuttle queue (Table SQ.5) with its descriptors in slots, oldest first; `head` is the slot of the oldest. -/
structure ShuttleQueue where
  isOpen : Bool
  epoch : Nat
  head : Nat
  sender : Nat
  taken : Nat
  slots : List ShuttleDesc
deriving DecidableEq, Repr

def ShuttleQueue.reset : ShuttleQueue :=
  { isOpen := false, epoch := 0, head := 0, sender := 0xFF, taken := 0, slots := [] }

/-- A remote-write window (R370): bytes [lo, hi). -/
structure Window where
  isOpen : Bool
  lo : Nat
  hi : Nat
  writers : BitVec 208
  epoch : Nat
deriving DecidableEq, Repr

def Window.reset : Window := { isOpen := false, lo := 0, hi := 0, writers := 0, epoch := 0 }

/-- The offered, not yet admitted word (R91, R303). -/
structure Offer where
  word : MopWord
  cycle : Nat
  /-- the cycles before this one are counted in the ADMIT_WAIT counters (R305) -/
  counted : Nat
deriving DecidableEq, Repr

/-- Where an intermediate of a fused chain lies (R246, Table FC.3): its layout, the distance of its first element from the
hold space, and whether the hold space keeps only a ring of its units, so that it is kept whole in a buffer. -/
structure Inter where
  desc : Desc
  lead : Nat
  ring : Bool
deriving DecidableEq, Repr

/-- A fused chain in flight on a tile (R243-R258), from its head's admission until its last stage retires. -/
structure ChainRun where
  /-- sequence number of the chain head -/
  head : Nat
  kind : Nat
  stages : Nat
  /-- descriptor of the hold space, its device address and its bytes -/
  hold : Nat
  base : Nat
  size : Nat
  /-- intermediates, by the stage that writes them -/
  inters : List Inter
  /-- (stage, cycle in which the first unit of its intermediate completed) -/
  units : List (Nat × Nat)
  /-- (stage, rows) of the intermediates that pass through a ring -/
  buffers : List (Nat × List (List Nat))
deriving DecidableEq, Repr

/-- A tile entry (Table OP.10). -/
structure TileEntry where
  tile : Nat
  stream : Nat
  words : Nat
  segCrc : Nat
deriving DecidableEq, Repr

/-- One logical tile. Its scratchpad bytes are in State.mem (R309). -/
structure Tile where
  /-- TILE_LOC.LOGICAL: 0 until the end of tile self-test (Table TL.9) -/
  logical : Nat
  site : Nat
  die : Nat
  col : Nat
  row : Nat
  locState : Nat
  partner : Option Nat
  /-- marked granules, rising (R101) -/
  marks : List Nat
  /-- scratchpad word offsets that are uncorrectable (R88) -/
  eccDouble : List Nat
  vregs : Tab 16 VReg
  kregs : Tab 4 KReg
  landings : List Landing
  /-- ring of the admitted job the tile belongs to -/
  job : Option Nat
  entry : Option TileEntry
  store : List Segment
  /-- stream word index of the next word to offer; it is the sequence number of that word -/
  next : Nat
  lastAdmit : Option Nat
  offer : Option Offer
  window : List Mop
  chains : List ChainRun
  /-- for each engine the first cycle in which its condition allows an admission; none while it is held (Table TL.3) -/
  engines : Tab 15 (Option Nat)
  cycle : Nat
  auditPos : Nat
  streams : Tab 8 StreamQueue
  queues : Tab 8 ShuttleQueue
  windows : Tab 8 Window
  dropped : Bool
  dropAddr : DWord
  failed : Bool
  temp : Nat
  /-- core tokens left of the slot's allotment, and those drawn in the slot (R465) -/
  coreAllot : Nat
  drawn : Nat
  /-- cycles left of the slot, and those of them that the allotment covers at the tile's rate (R465) -/
  slotLeft : Nat
  runs : Nat
  /-- memory tokens left of the slot's allotment, and those drawn beyond it (R467) -/
  memAllot : Nat
  memOwed : Nat
  limited : Bool
deriving DecidableEq, Repr

/-- A tile before self-test (Table TL.9: every field 0; Table TR.8: no partner; DESIGN CHOICE, log 8). -/
def Tile.reset : Tile :=
  { logical := 0, site := 0, die := 0, col := 0, row := 0, locState := 0, partner := none, marks := [], eccDouble := [],
    vregs := Tab.fill 16 (Tab.fill 32 (Tab.fill 128 0)),
    kregs := Tab.fill 4 (Tab.fill 32 0), landings := [], job := none, entry := none, store := [], next := 0,
    lastAdmit := none, offer := none, window := [], chains := [], engines := Tab.fill 15 (some 0), cycle := 0, auditPos := 0,
    streams := Tab.fill 8 StreamQueue.reset, queues := Tab.fill 8 ShuttleQueue.reset,
    windows := Tab.fill 8 Window.reset, dropped := false, dropAddr := 0, failed := false, temp := 0, coreAllot := 0,
    drawn := 0, slotLeft := 0, runs := 0, memAllot := 0, memOwed := 0, limited := false }

/-! ## Memory controllers -/

/-- A write-combining entry (R322): one line, its bytes and its byte mask, and when it was allocated. -/
structure WcbEntry where
  line : Nat
  data : List Byte
  mask : DWord
  since : Nat
deriving DecidableEq, Repr

/-- Operations of a base-die streamer (R335). -/
inductive StrmOp where
  | readCheck
  | fill
  | compare
  | read
deriving DecidableEq, Repr

/-- A streamer descriptor that runs (R335): what GO fixed, and the lines its COMPARE found to differ. -/
structure StrmRun where
  op : StrmOp
  start : Nat
  stride : Int
  count : Nat
  differing : Nat
deriving DecidableEq, Repr

/-- A key stream at a Bobbin (R172): the group macro-operation it serves, by its ring, group entry and use. -/
structure KeyStream where
  ring : Nat
  group : Nat
  use : Nat
deriving DecidableEq, Repr

/-- An entry of the repair log (R550): a row address and how many of its two tally fuses are blown. -/
structure RepairEntry where
  row : Nat
  tally : Nat
deriving DecidableEq, Repr

/-- One stack: controller, streamer, Bobbin, repair resources. -/
structure Stack where
  scrubEnable : Bool
  scrubPeriod : Nat
  scrubNext : Nat
  strmStart : Nat
  strmStride : Word
  strmCount : Nat
  strmOp : StrmOp
  strmPattern : Nat
  strmValue : Word
  /-- BUSY is 1 while a descriptor runs -/
  strmRun : Option StrmRun
  strmRefused : Bool
  strmMismatch : Nat
  wcb : List WcbEntry
  bobbinActive : List KeyStream
  bobbinWaiting : List KeyStream
  soft : Nat
  hardNew : Nat
  lanes : Nat
  spareMin : Nat
  repairState : Nat
  repairLog : List RepairEntry
  /-- repair fuses of the base die that are left (R550) -/
  fuses : Nat
  temp : Nat
deriving DecidableEq, Repr

def Stack.reset : Stack :=
  { scrubEnable := true, scrubPeriod := 24, scrubNext := 0, strmStart := 0, strmStride := 1, strmCount := 1,
    strmOp := .readCheck, strmPattern := 0, strmValue := 0, strmRun := none, strmRefused := false,
    strmMismatch := 0, wcb := [], bobbinActive := [], bobbinWaiting := [], soft := 0, hardNew := 0, lanes := 0,
    spareMin := 0, repairState := 0, repairLog := [], fuses := Config.repairFuses, temp := 0 }

/-- A poison request of a tile on its way to a controller (R330): the line addresses it covers. -/
structure PoisonRequest where
  tile : Nat
  lines : List Nat
deriving DecidableEq, Repr

/-! ## Rings and jobs -/

/-- A submission entry taken from a ring (Table HI.4): its 128 bytes, when it was fetched, and its aged mark (R408).
`checked` is set once it has passed Table HI.5; `damaged` names the descriptors a complement pair of which disagrees twice
on its way to the tiles (R331-R333). -/
structure PendingEntry where
  bytes : List Byte
  since : Nat
  aged : Bool
  checked : Bool
  damaged : List Nat
  /-- descriptors whose source word is uncorrectable on the way to the tiles (R333) -/
  lost : List Nat
deriving DecidableEq, Repr

/-- A completion record waiting for its ring (R401, Table HI.6), but for SQ_HEAD, PHASE and CHECK, which are fixed when
it is written. -/
structure Completion where
  tag : Nat
  status : Nat
  tile : Nat
  code : Nat
  seq : Nat
  recoveries : Nat
  events : Nat
  elapsed : Nat
  notify : Bool
  /-- the record ends an admitted job, whose tiles it frees (R407) -/
  endsJob : Bool
  /-- a CANCEL_DONE record: the ring and the tag of the target, whose record is written first (R415) -/
  after : Option (Nat × Nat)
deriving DecidableEq, Repr

/-- A ring pair (Table HI.11). -/
structure Ring where
  sqBase : DWord
  sqSizeLog : Nat
  cqBase : DWord
  cqSizeLog : Nat
  vector : Nat
  coalCount : Nat
  coalUs : Nat
  enable : Bool
  error : Bool
  sqHead : Nat
  sqTail : Nat
  cqTail : Nat
  phase : Bool
  cqHead : Nat
  pending : List PendingEntry
  held : List Completion
  unacked : Nat
  /-- when COAL_US began to run; none while it does not run or has fired (R414) -/
  firstUnacked : Option Nat
  /-- since when a record has waited for a slot (CQ_FULL_CYCLES) -/
  fullSince : Option Nat
deriving DecidableEq, Repr

def Ring.reset (r : Nat) : Ring :=
  { sqBase := 0, sqSizeLog := 4, cqBase := 0, cqSizeLog := 4, vector := r, coalCount := 1, coalUs := 0,
    enable := false, error := false, sqHead := 0, sqTail := 0, cqTail := 0, phase := true, cqHead := 0,
    pending := [], held := [], unacked := 0, firstUnacked := none,
    fullSince := none }

/-- The event ring (Table HI.11). -/
structure EventRing where
  base : DWord
  sizeLog : Nat
  enable : Bool
  tail : Nat
  overflow : Bool
  lost : Nat
  head : Nat
  phase : Bool
  seq : Nat
deriving DecidableEq, Repr

def EventRing.reset : EventRing :=
  { base := 0, sizeLog := 6, enable := false, tail := 0, overflow := false, lost := 0, head := 0, phase := true,
    seq := 0 }

/-- A barrier of the admitted job (R374-R378). -/
structure Barrier where
  members : List Nat
  arrived : List Nat
  uses : Nat
deriving DecidableEq, Repr

/-- A protected shard with its two slots (R436). `tile` is none for a DEVICE shard; `mirror` says the method. -/
structure GuardShard where
  entry : Nat
  tile : Option Nat
  base : Nat
  size : Nat
  mirror : Bool
  slot0 : Nat
  slot1 : Nat
  /-- where its ciphertext records begin, counted from the base, and how many there is room for (R331) -/
  recOff : Nat
  recCount : Nat
  /-- the slot that holds the last finished commit; none before the first -/
  current : Option Bool
  /-- commit generation of each slot (R437) -/
  gen0 : Nat
  gen1 : Nat
deriving DecidableEq, Repr

/-- A schedule (Table TR.1) with its S and F on one die (R424, R426). -/
structure Schedule where
  index : Nat
  die : Nat
  s : Nat
  f : Nat
deriving DecidableEq, Repr

/-- The state of Table TR.5 that one tile has in HD (R438, R440). -/
structure SavedTile where
  tile : Nat
  next : Nat
  auditPos : Nat
  auditLost : Nat
  epochs : List Nat
  senders : List Nat
  /-- the stream status words: STATE, LIMIT, SEQ, POS, FAULT_ADDR and HALTS of each queue (Table SQ.2) -/
  streams : List StreamQueue
deriving DecidableEq, Repr

/-- What one commit has in HD (Table TR.5, R516). A check-value unit is (TX, RX, BROKEN, REASON). -/
structure Saved where
  tiles : List SavedTile
  scheds : List Schedule
  cvus : List (Nat × Nat × Bool × Nat)
deriving DecidableEq, Repr

/-- A recovery in progress (Table TR.6): the failed tiles for which spares take over, the last to fail first, and what RECOVERY
reports. -/
structure Recovery where
  takeovers : List Nat
  arg : Nat
  site : Nat
  since : Nat
  /-- the shards the starting event names, as indices into the job's (R443) -/
  named : List Nat
deriving DecidableEq, Repr

/-- How a job ends (Table HI.7): status, TILE, CODE and SEQ of its record. -/
structure Ending where
  status : Nat
  tile : Nat
  code : Nat
  seq : Nat
deriving DecidableEq, Repr

/-- An admitted job (R407). -/
structure Job where
  ring : Nat
  tag : Nat
  prk : Nat
  image : PrkInfo
  notify : Bool
  pasid : Nat
  bindTable : Nat
  roundSeed : Nat
  auditBase : Nat
  auditPerTile : Nat
  snapBase : Nat
  snapSize : Nat
  /-- the snapshot of MODE (R24) -/
  mode : Mode
  tiles : List TileEntry
  descs : List Desc
  barriers : List Barrier
  epoch : Nat
  /-- epochs of the Shuttle queues of each of its tiles as they stood at admission (R358) -/
  epochs0 : List (Nat × List Nat)
  shards : List GuardShard
  /-- written byte ranges since the last finished commit, the latest first (R438) -/
  written : List (Nat × Nat)
  /-- how many of them stood when the commit in progress began -/
  writtenAt : Nat
  generation : Nat
  committing : Bool
  /-- when the commit in progress began -/
  commitSince : Nat
  /-- the device-wide barrier whose resolution awaits the commit in progress -/
  resolving : Option Nat
  /-- the shards the commit in progress copied, as indices, and the state it took -/
  copied : List Nat
  /-- under MIRROR_VERIFY, CRC-32C of every shard as read at the commit in progress (R439) -/
  crcs : List Nat
  taking : Option Saved
  saved : Option Saved
  scheds : List Schedule
  recovery : Option Recovery
  epochRecoveries : Nat
  /-- tiles that have failed since the last finished commit (Table TR.7) -/
  fallen : List Nat
  /-- (tile, sequence number, cause code) of aborts that started a recovery in this epoch (R443) -/
  aborted : List (Nat × Nat × Nat)
  recoveries : Nat
  events : Nat
  heldErrs : List Err
  admitted : Nat
  ending : Option Ending
deriving DecidableEq, Repr

/-- The verdict of a key check for one shard set or member (Tables KS.8, RF.3): the flags it raises, the header's
KEYTAG and KEYTAG_OUT, its BASE_LOG, and whether the per-set check raised them. -/
structure Verdict where
  flags : Nat
  keytag : Nat
  keytagOut : Nat
  baseLog : Nat
  perSet : Bool
deriving DecidableEq, Repr

/-- A member of a group macro-operation in progress. -/
structure GMember where
  tile : Nat
  seq : Nat
  started : Bool
  verdict : Option Verdict
  /-- bytes in the 64 KiB key ring (R171) -/
  ring : Nat
  /-- key bytes that have come to the ring since the start (R171, R198) -/
  got : Nat
  /-- refresh objects that have reached the buffers (R198, R207) -/
  objects : Nat
  /-- refresh objects that the member has finished with (R207) -/
  fin : Nat
deriving DecidableEq, Repr

/-- A line of a key image as its stream read it from HBM; `pass` is the wave of a PBS, 0 for a KSW (R169, R173, R198). -/
structure KeyLine where
  pass : Nat
  addr : Nat
  bytes : List Byte
deriving DecidableEq, Repr

/-- A group macro-operation from its first member's admission on (R95). -/
structure GroupRun where
  ring : Nat
  group : Nat
  use : Nat
  opcode : Nat
  gsLog : Nat
  sets : Nat
  members : List GMember
  /-- tiles of the group entry in its order -/
  tiles : List Nat
  /-- the lines that the key stream has read so far -/
  lines : List KeyLine
deriving DecidableEq, Repr

/-! ## Power, clocks and heat -/

/-- Where a DVFS sequence stands (Table PW.3). -/
inductive DvfsPhase where
  /-- VOUT written; the status is polled -/
  | polling
  /-- faster: the 2 µs settle -/
  | settling
  /-- the die's tiles are frozen while the FLLs retarget -/
  | frozen
deriving DecidableEq, Repr

/-- A DVFS sequence (R461): `faster` says the direction. -/
structure Dvfs where
  faster : Bool
  point : Nat
  phase : DvfsPhase
  since : Nat
deriving DecidableEq, Repr

/-- One compute die's power state (Table PW.9). -/
structure Die where
  target : Nat
  point : Nat
  /-- the point whose fused voltage is charged and requested (R459, Table PW.3) -/
  charged : Nat
  avsFault : Bool
  seq : Option Dvfs
  slew : Nat
  tSlow : Nat
  tAlert : Nat
  tMax : Nat
  tMaxTile : Nat
  slowFlag : Bool
  alertFlag : Bool
  floor : Nat
  floorRose : Nat
  belowSince : Option Nat
  /-- at the last sample every tile was below T_SLOW − 5 °C (R463) -/
  cool : Bool
  spent : Nat
  /-- core tokens that the die's tiles spent in the last slot -/
  spending : Nat
  /-- its tiles stand still in the running slot for a change of frequency (Table PW.3) -/
  still : Bool
  unlimitedWindows : Nat
  limitedWindows : Nat
  voutMv : Nat
  /-- core current ramping to zero with ballast (R457, R472, R476) -/
  ramping : Bool
deriving DecidableEq, Repr

def Die.reset : Die :=
  { target := 1, point := 7, charged := 7, avsFault := false, seq := none, slew := 60, tSlow := 95, tAlert := 105,
    tMax := 0, tMaxTile := 0, slowFlag := false, alertFlag := false, floor := 0, floorRose := 0, belowSince := none,
    cool := false, spent := 0, spending := 0, still := false, unlimitedWindows := 0, limitedWindows := 0, voutMv := 750,
    ramping := false }

/-- The module-wide power and clock registers (Table PW.10) and the pacer. -/
structure Power where
  ceil : Tab 8 Nat
  fixed : Nat
  inForce : Nat
  limited : Bool
  slewing : Bool
  ballast : Bool
  /-- the same three marks, gathered over the slots of the running window -/
  winLimited : Bool
  winSlewing : Bool
  winBallast : Bool
  /-- service tokens asked for since the last slot boundary (R468) -/
  serviceDemand : Nat
  serviceAllot : Nat
  /-- time of the next slot boundary and of the next window -/
  nextSlot : Nat
  nextWindow : Nat
  safeOff : Bool
  offRamp : Bool
  clkSrc : Nat
  clkDiv : Nat
  clkTile : Nat
  clkEnable : Bool
  /-- CLKOUT is low until this time after a write of CLKOUT_SEL (R483) -/
  clkLowUntil : Nat
  /-- cycle of the tile of CLKOUT_SEL at that write (R483, source 1) -/
  clkFrom : Nat
  refclkOk : Bool
  locked : Bool
  hubTemp : Nat
  /-- the sensors of the tile sites that no logical tile has, four a die (R475) -/
  spareTemps : Tab 16 Nat
  /-- sensors at or above 115 °C at the last sample: (kind, unit) of Table EB.3 (R476) -/
  hot : List (Nat × Nat)
  nextSample : Nat
deriving DecidableEq, Repr

def Power.reset : Power :=
  { ceil := ⟨#[1500, 1350, 1200, 1050, 900, 750, 600, 450], by simp⟩, fixed := Config.pacerFixed, inForce := 1500,
    limited := false, slewing := false, ballast := false, winLimited := false, winSlewing := false,
    winBallast := false, serviceDemand := 0, serviceAllot := 0, nextSlot := 200, nextWindow := 1000,
    safeOff := false, offRamp := false, clkSrc := 0, clkDiv := 0, clkTile := 0, clkEnable := false,
    clkLowUntil := 0, clkFrom := 0, refclkOk := true, locked := false, hubTemp := 0, spareTemps := Tab.fill 16 0, hot := [], nextSample := 10000 }

/-! ## Trust -/

/-- A key pair on P-384 (R496): the private scalar and the public point. -/
structure KeyPair where
  d : Nat
  pub : Point
deriving DecidableEq, Repr

/-- What is kept of a running firmware image (Table SE.1). -/
structure Image where
  keyIndex : Nat
  svn : Nat
  eccPub : List Byte
  /-- SHA-384 of its signed part: M_T or M_S (Table SE.3) -/
  measure : List Byte
deriving DecidableEq, Repr

/-- An SPDM session (R497). -/
structure Session where
  id : Nat
  heartbeat : Bool
  lastMessage : Nat
deriving DecidableEq, Repr

/-- A short Weierstrass curve (R506). -/
structure Curve where
  p : Nat
  a : Nat
  b : Nat
  gx : Nat
  gy : Nat
  n : Nat
deriving DecidableEq, Repr

/-- Status of a Bodkin operation (Tables SE.9 and SE.11). -/
inductive BodkinStatus where
  | ok
  | infinity
  | notOnCurve
  | reject
  | retry
  | noInverse
  | badOperand
  | curveCode (code : Nat)
deriving DecidableEq, Repr

/-- A Bodkin operation in progress: its result, status and duration in hub cycles, fixed at its start, and the curve it
loads (R506, R507). -/
structure BodkinOp where
  /-- limbs of a coordinate or integer, ℓ -/
  limbs : Nat
  result : List Nat
  status : BodkinStatus
  cycles : Nat
  since : Nat
  loads : Option (Nat × Curve)
deriving DecidableEq, Repr

/-- The Bodkin (R505-R508). -/
structure Bodkin where
  /-- the 64 KiB operand memory as 64-bit limbs: what the DMA from Hoop SRAM filled it with, then the last result (R505) -/
  mem : List DWord
  curves : Tab 3 (Option Curve)
  op : Option BodkinOp
  /-- what the DMA has emptied into Hoop SRAM: the last result -/
  result : List Nat
  status : BodkinStatus
deriving DecidableEq, Repr

def Bodkin.reset : Bodkin := { mem := [], curves := Tab.fill 3 none, op := none, result := [], status := .ok }

/-- The security mailbox (Table SE.5). -/
structure Mailbox where
  cmd : Nat
  len : Nat
  busy : Bool
  result : Nat
  outLen : Nat
  data : List Byte
deriving DecidableEq, Repr

def Mailbox.reset : Mailbox :=
  { cmd := 0, len := 0, busy := false, result := 0, outLen := 0, data := List.replicate 4096 0 }

/-- The Alias certificate (Table SE.3): what it certifies, the Alias public key as x, then y, and the DeviceID key's signature of it.
The X.509 form round them is the standard's (DESIGN CHOICE, log 45). -/
structure AliasCert where
  subject : List Byte
  signature : List Byte
deriving DecidableEq, Repr

/-- Identity, fuses, firmwares and service windows. -/
structure Trust where
  owner : List Byte
  debug : Bool
  nonce : Option (List Byte)
  udsLocked : Bool
  cdi1 : List Byte
  deviceId : Option KeyPair
  aliasKey : Option KeyPair
  aliasCert : Option AliasCert
  trusted : Option Image
  service : Option Image
  /-- the service firmware's image in the cluster's SRAM, header and body (R487, R490) -/
  serviceImage : List Byte
  revoked : BitVec 4
  svnTrusted : Nat
  svnService : Nat
  /-- service windows: byte ranges [lo, hi) of the service cluster's addresses (R487, R488) -/
  windows : List (Nat × Nat)
  serviceRunning : Bool
  heartbeat : Nat
  /-- the new OWNER of the change in progress (R501) -/
  changing : Option (List Byte)
  sessions : List Session
  nextSession : Nat
deriving DecidableEq, Repr

def Trust.reset : Trust :=
  { owner := List.replicate 48 0, debug := false, nonce := none, udsLocked := false, cdi1 := [], deviceId := none,
    aliasKey := none, aliasCert := none, serviceImage := [], trusted := none, service := none, revoked := Config.fusedRevoked,
    svnTrusted := (Config.fusedSvn 1).toNat, svnService := (Config.fusedSvn 2).toNat, windows := [],
    serviceRunning := false, heartbeat := 0, changing := none, sessions := [], nextSession := 0 }

/-- A check-value unit (Table SE.12). -/
structure Cvu where
  poly : DWord
  initial : DWord
  width : Nat
  refIn : Bool
  refOut : Bool
  xorOut : Bool
  stream : Nat
  tx : Nat
  rx : Nat
  broken : Bool
  reason : Nat
deriving DecidableEq, Repr

def Cvu.reset : Cvu :=
  { poly := 0x42F0E1EBA9EA3693, initial := 0, width := 64, refIn := false, refOut := false, xorOut := false,
    stream := 0, tx := 0, rx := 0, broken := false, reason := 0 }

/-! ## Link, pins, start-up and test access -/

/-- LINK_STATUS.STATE (Table HI.12). -/
inductive LinkState where
  | down
  | training
  | up
  | recalibrating
deriving DecidableEq, Repr

/-- The UCIe link and the CXL side (Table HI.12). -/
structure Link where
  ctrlRate : Nat
  rate : Nat
  width : Nat
  repaired : Nat
  state : LinkState
  lastRecal : Option Nat
  hdmBase : Nat
  decoderCommitted : Bool
  memPresent : Bool
  ide : Bool
deriving DecidableEq, Repr

def Link.reset : Link :=
  { ctrlRate := 1, rate := 0, width := 0, repaired := 0, state := .down, lastRecal := none, hdmBase := 0,
    decoderCommitted := false, memPresent := Config.cxlMemPresent, ide := false }

/-- The management pins and the rails (Tables PW.1 and EB.10). -/
structure Pins where
  railsGood : Tab 11 Bool
  refclk : Bool
  /-- MRESET_N counts as asserted (R544) -/
  mreset : Bool
  alertN : Bool
  thermtripN : Bool
  throttleFilter : Bool
  throttle : Bool
  throttleChanged : Option Nat
  /-- when the last rail became good (R534) -/
  goodSince : Nat
  i3cAddr : Option Nat
  i3cInterrupt : Bool
  /-- the xSPI pins are held in high impedance (R540) -/
  xspiHighZ : Bool
deriving DecidableEq, Repr

def Pins.reset : Pins :=
  { railsGood := Tab.fill 11 true, refclk := true, mreset := false, alertN := true, thermtripN := true,
    throttleFilter := false, throttle := false, throttleChanged := none, goodSince := 0, i3cAddr := none, i3cInterrupt := false,
    xspiHighZ := false }

/-- Start-up and the boot mailbox (Tables EB.6 to EB.9). -/
structure Boot where
  /-- start-up has begun at t0 (R534) -/
  begun : Bool
  t0 : Nat
  stage : Nat
  stopped : Bool
  waiting : Bool
  waitRefclk : Bool
  code : Nat
  detail : Nat
  ctrlKind : Nat
  len : Nat
  offset : Nat
  resultCode : Nat
  resultSource : Nat
  data : List Byte
  /-- an image is being received; its bytes so far -/
  image : Option (List Byte)
deriving DecidableEq, Repr

def Boot.reset : Boot :=
  { begun := false, t0 := 0, stage := 1, stopped := false, waiting := false, waitRefclk := false, code := 0,
    detail := 0, ctrlKind := 0, len := 0, offset := 0, resultCode := 0, resultSource := 0,
    data := List.replicate 128 0, image := none }

/-- The instructions of the JTAG port (Table EB.12). -/
inductive JtagInstr where
  | idcode
  | bypass
  | samplePreload
  | extest
  | ieee1838 (dieCode : Nat)
  | ieee1687 (network : Nat)
deriving DecidableEq, Repr

/-- The JTAG port (R554). -/
structure Jtag where
  instr : JtagInstr
  bypassBit : Bool
  boundary : List Bool
  /-- EXTEST drives the pins from the boundary-scan register -/
  driving : Bool
deriving DecidableEq, Repr

def Jtag.reset : Jtag := { instr := .idcode, bypassBit := false, boundary := [], driving := false }

/-- The SPDM capabilities of Table SE.4. -/
inductive SpdmCapability where
  | cert
  | chal
  | measSig
  | keyEx
  | encrypt
  | mac
  | hbeat
  | keyUpd
deriving DecidableEq, Repr

/-- The SPDM algorithms of Table SE.4. -/
inductive SpdmAlgorithm where
  | ecdsaP384
  | sha384
  | dheSecp384r1
  | aes256Gcm
  | spdmKeySchedule
deriving DecidableEq, Repr

/-- SPDM answers (R497): the class of the response and what the manual fixes of it. -/
inductive SpdmResponse where
  | version (v : Nat)
  | capabilities (l : List SpdmCapability)
  | algorithms (l : List SpdmAlgorithm)
  /-- SHA-384 of the chain of each slot that has one -/
  | digests (l : List (Nat × List Byte))
  /-- the certificate chain of a slot: what the boot flash holds, then the Alias certificate -/
  | certificate (slot : Nat) (chain : List Byte)
  | challengeAuth (digest nonce signature : List Byte)
  /-- a measurement block in DMTF form, and the Alias key's signature of the exchange -/
  | measurement (block : Nat) (value signature : List Byte)
  | sessionOpened (id : Nat)
  | ack
  | errorBusy
  | errorUnsupported
  /-- an ERROR response whose code the manual does not give: a fifth session, or a session that is not open -/
  | errorOpen
deriving DecidableEq, Repr

/-- What the device last drove out in answer to a command (DESIGN CHOICE, log 6). -/
inductive Response where
  | none
  | word (value : Word)
  | data (bytes : List Byte) (poison : Bool)
  | status (bytes : List Byte) (faulted : Bool)
  | nack
  | retry
  | completed
  | spdm (r : SpdmResponse)
  /-- the levels of the pins as the boundary-scan register captures them -/
  | pins (levels : List Bool)
deriving DecidableEq, Repr

/-! ## Telemetry -/

/-- The telemetry counters of the chapters' counter tables, in the order of Table HI.15 (R422). -/
inductive Ctr where
  | admitWaitWindow
  | admitWaitEntries
  | admitWaitRanges
  | admitWaitEngine
  | wideHeldCycles
  | narrowAged
  | eccCorrected
  | poisonMarks
  | aborts
  | auditEvents
  | auditLost
  | kswKeyWaitCycles
  | kswExchangeWaitCycles
  | bobbinPermutations
  | bobbinKeyBytesRead
  | bobbinStreams
  | multicastDeliveries
  | keyHeaderFaulted
  | keyMismatch
  | pbsCount
  | pbsKeyWaitCycles
  | pbsKeyBytesRead
  | pbsKeyMismatch
  | packCount
  | refreshClose
  | mxpCount
  | mxpAccumCycles
  | mxeHeldCycles
  | vcvtCount
  | nanSrcRaised
  | fcChains
  | fcAdmitWaitChain
  | fcArrivalWaitCycles
  | fcRingFullCycles
  | fcHoldBytesPeak
  | progFetchWaitCycles
  | progSegments
  | progSegRefetch
  | offers
  | issueRefused
  | descCreated
  | descRefused
  | tileActiveCycles
  | tileFrozenCycles
  | dmaLineRequests
  | dmaExcessCycles
  | farLinesRead
  | farLinesWritten
  | wcbMerges
  | wcbFullCycles
  | wcbRmw
  | wcbPoisonDrop
  | memEccCorrected
  | memRereadClean
  | memLinesPoisoned
  | linkResends
  | pairCheckFailed
  | scrubPasses
  | strqLines
  | strqCreditWaitCycles
  | strqHalts
  | strqHaltCycles
  | shuttleSends
  | shuttleRecvs
  | shuttleClosed
  | shuttleStale
  | shuttleStalls
  | remoteBytesRead
  | remoteBytesWritten
  | remoteBytesDropped
  | barResolved
  | barWaitCycles
  | jobsAdmitted
  | jobsRefused
  | jobsCancelled
  | admitAged
  | ringFetches
  | cqFullCycles
  | bar0Reads
  | bar0ReadMaxNs
  | linkRecals
  | linkReplays
  | ideErrors
  | atsMisses
  | commits
  | commitUs
  | mirrorBytes
  | snapBytes
  | verifyMismatch
  | recoveries
  | recoveryUs
  | restoreBytes
  | spareTakeovers
  | schedSteps
  | pacerWindows
  | pacerLimitedWindows
  | slewLimitedSlots
  | ballastTokens
  | coreTokens
  | memTokens
  | serviceTokens
  | thermalSlots
  | perfChanges
  | avsFaults
  | tMaxSeen
  | svcWindowDenied
  | svcRestarts
  | spdmSessions
  | ownerChanges
  | bodkinOps
  | bodkinBusyCycles
  | cvuBytes
  | cvuBlocksSealed
  | cvuBlocksAccepted
  | cvuBlocksFailed
  | errCorrected
  | errContained
  | errDeferred
  | errCoalesced
  | errqHighWater
  | startups
  | startupMsLast
  | mresetFiltered
  | throttleChanges
  | hbmSoftRepairs
deriving DecidableEq, Repr

/-- The scope a counter is kept at (Table HI.15). -/
inductive Scope where
  | module
  | tile
  | stack
  | die
deriving DecidableEq, Repr


/-- A stored counter: which, of which tile, stack or die (0 for the module), and its value; absent counters are 0. -/
abbrev Telemetry := List ((Ctr × Nat) × Nat)

/-! ## The state -/

/-- The state of the FV1216. -/
structure State where
  /-- waiting commands, first in, first out -/
  pending : List Instr
  clock : Nat
  freeCount : Nat
  resp : Response
  msix : List Nat
  pageRequests : List (Nat × Nat × Nat)
  -- selects and the register window
  sel : Tab 4 Selects
  readLatch : Option (Nat × Word)
  lowHeld : List (Nat × Word)
  mode : Mode
  wdog : Nat
  cancelTag : Word
  cancelRing : Nat
  cancelResult : Nat
  jobAge : Nat
  halt : HaltState
  telemSel : TelemSel
  tele : Telemetry
  -- loaders
  psetLoader : Loader
  psets : Tab 64 (Option PSet)
  prkLoader : Loader
  prks : Tab 16 (Option PrkInfo)
  -- rings, events, jobs
  rings : Tab 32 Ring
  evq : EventRing
  rrNext : Nat
  jobs : List Job
  groups : List GroupRun
  -- tiles and memory
  tiles : Tab 208 Tile
  spares : Tab 4 (List Nat)
  mem : Memory
  linePoison : List Nat
  hbm : Tab 12 Stack
  poisonRequests : List PoisonRequest
  nearScrub : Tab 4 Nat
  -- link, errors, power, pins, trust, start-up, test
  link : Link
  errs : ErrUnit
  dies : Tab 4 Die
  power : Power
  pins : Pins
  trust : Trust
  mbx : Mailbox
  bodkin : Bodkin
  cvus : Tab 8 Cvu
  boot : Boot
  flash : Memory
  jtag : Jtag
deriving DecidableEq, Repr

/-- The module right after reset: rails good, REFCLK present, MRESET_N high, STAGE 1, start-up not begun (DESIGN CHOICE, log 10);
every register at the reset value of its table, every other field at the value INVENTORY.md gives (DESIGN CHOICE, log 8). -/
def State.reset : State :=
  { pending := [], clock := 0, freeCount := 0, resp := .none, msix := [], pageRequests := [],
    sel := Tab.fill 4 Selects.reset, readLatch := none, lowHeld := [], mode := Mode.reset, wdog := 10000,
    cancelTag := 0, cancelRing := 0, cancelResult := 0, jobAge := 1000, halt := .running,
    telemSel := { group := 0, index := 0, scope := 0 }, tele := [], psetLoader := Loader.reset,
    psets := Tab.fill 64 none, prkLoader := Loader.reset, prks := Tab.fill 16 none,
    rings := Tab.build 32 Ring.reset, evq := EventRing.reset, rrNext := 0, jobs := [], groups := [],
    tiles := Tab.fill 208 Tile.reset, spares := Tab.fill 4 [], mem := [], linePoison := [],
    hbm := Tab.fill 12 Stack.reset, poisonRequests := [], nearScrub := Tab.fill 4 0, link := Link.reset,
    errs := ErrUnit.reset, dies := Tab.fill 4 Die.reset, power := Power.reset, pins := Pins.reset,
    trust := Trust.reset, mbx := Mailbox.reset, bodkin := Bodkin.reset, cvus := Tab.fill 8 Cvu.reset,
    boot := Boot.reset, flash := [], jtag := Jtag.reset }

end Sys2Proof.Machine
end

