-- ==== Sys2Proof/Machine/Bytes.lean ====
section
/-!
DEFINITION. Bytes, fields, bit fields and check values: little-endian order (R1), bit ranges (R2), complement pairs (R5),
CRC-32C, and the general CRC of a check-value unit (R509).
-/
namespace Sys2Proof.Machine

/-- Bits [hi:lo] of a value (R2). -/
def bits (v hi lo : Nat) : Nat := v >>> lo % 2 ^ (hi + 1 - lo)

/-- Bit `i` of a value. -/
def bit (v i : Nat) : Bool := v >>> i % 2 == 1

/-- 1 for true. -/
def flag (b : Bool) : Nat := if b then 1 else 0

/-- Ceiling of a quotient; 0 for a divisor of 0. -/
def ceilDiv (a b : Nat) : Nat := (a + b - 1) / b

/-- The `n` bytes of a value, lowest first (R1). -/
def leBytes : Nat → Nat → List Byte
  | 0, _ => []
  | n + 1, v => BitVec.ofNat 8 v :: leBytes n (v / 256)

/-- The value of bytes, lowest first (R1). -/
def leNat : List Byte → Nat
  | [] => 0
  | b :: bs => b.toNat + 256 * leNat bs

/-- The value of bytes, highest first. -/
def beNat (bs : List Byte) : Nat := leNat bs.reverse

/-- The `n` bytes of a value, highest first. -/
def beBytes (n v : Nat) : List Byte := (leBytes n v).reverse

/-- The field of `size` bytes at `off` (R1); bytes past the end read as 0. -/
def fld (bs : List Byte) (off size : Nat) : Nat := leNat ((bs.drop off).take size)

/-- `n` bytes at `off`, filled up with zeros. -/
def slice (bs : List Byte) (off n : Nat) : List Byte :=
  let part := (bs.drop off).take n
  part ++ List.replicate (n - part.length) 0

/-- The signed value of a `w`-bit field. -/
def signed (w v : Nat) : Int :=
  if v % 2 ^ w < 2 ^ (w - 1) then ((v % 2 ^ w : Nat) : Int) else ((v % 2 ^ w : Nat) : Int) - 2 ^ w

/-- The low `w` bits of an integer. -/
def low (w : Nat) (i : Int) : Nat := (i % (2 ^ w : Nat)).toNat

/-- Saturation at all ones of `w` bits. -/
def sat (w v : Nat) : Nat := min v (2 ^ w - 1)

/-- A complement pair of `w` bits agrees when the exclusive OR has every bit set (R5). -/
def pairAgrees (w v n : Nat) : Bool := v % 2 ^ w + n % 2 ^ w == 2 ^ w - 1 && v % 2 ^ w &&& n % 2 ^ w == 0

/-- The complement of a `w`-bit field. -/
def complement (w v : Nat) : Nat := 2 ^ w - 1 - v % 2 ^ w

/-! ## Check values -/

/-- One bit of the reflected CRC-32C. -/
def crc32cBit (c : Nat) : Nat := if c % 2 == 1 then c >>> 1 ^^^ 0x82F63B78 else c >>> 1

/-- One byte of the reflected CRC-32C. -/
def crc32cByte (c : Nat) (b : Byte) : Nat :=
  crc32cBit (crc32cBit (crc32cBit (crc32cBit (crc32cBit (crc32cBit (crc32cBit (crc32cBit (c ^^^ b.toNat))))))))

/-- CRC-32C (Castagnoli), Table SC.3: reflected, preset and final exclusive OR of all ones. -/
def crc32c (bs : List Byte) : Nat := bs.foldl crc32cByte 0xFFFFFFFF ^^^ 0xFFFFFFFF

/-- The `w` low bits of a value in reverse order. -/
def reflect : Nat → Nat → Nat
  | 0, _ => 0
  | w + 1, v => (v % 2) * 2 ^ w + reflect w (v / 2)

/-- One bit, highest first, of a CRC of `w` bits with polynomial `poly`. -/
def crcBit (w poly c : Nat) : Nat :=
  if bit c (w - 1) then (2 * c ^^^ poly) % 2 ^ w else 2 * c % 2 ^ w

/-- `n` bits of a CRC. -/
def crcBits (w poly : Nat) : Nat → Nat → Nat
  | 0, c => c
  | n + 1, c => crcBits w poly n (crcBit w poly c)

/-- One byte of a CRC of `w` bits (8 to 64): the byte enters at the top. -/
def crcByte (w poly : Nat) (refIn : Bool) (c : Nat) (b : Byte) : Nat :=
  let v := if refIn then reflect 8 b.toNat else b.toNat
  crcBits w poly 8 ((c ^^^ v * 2 ^ (w - 8)) % 2 ^ w)

/-- The check value of a unit over bytes (R509): configurable width, polynomial, initial value, reflection and final
exclusive OR. -/
def cvuCheck (u : Cvu) (bs : List Byte) : Nat :=
  let c := bs.foldl (crcByte u.width u.poly.toNat u.refIn) (u.initial.toNat % 2 ^ u.width)
  let r := if u.refOut then reflect u.width c else c
  if u.xorOut then 2 ^ u.width - 1 - r else r

/-- A structure of `n` bytes whose last four are its CRC-32C agrees with it. -/
def crcAgrees (bs : List Byte) (n : Nat) : Bool := fld bs (n - 4) 4 == crc32c (slice bs 0 (n - 4))

/-- The bytes with their CRC-32C behind them. -/
def withCrc (bs : List Byte) : List Byte := bs ++ leBytes 4 (crc32c bs)

/-- Boolean test that a list has no member. -/
def emptyList {α : Type} (l : List α) : Bool := match l with | [] => true | _ => false

end Sys2Proof.Machine
end

