-- ==== Sys2Proof/Machine/Telemetry.lean ====
section
/-!
DEFINITION. The telemetry counters: their groups, rows, widths and scopes (R422, Table HI.15 and the counter tables of
each chapter), counting, reading and clearing (R423).
-/
namespace Sys2Proof.Machine

/-- Counter group 0. -/
def Ctr.group0 : List (Ctr × Nat × Nat × Nat × Scope) :=
  [(.admitWaitWindow, 0, 0, 48, .tile),
   (.admitWaitEntries, 0, 1, 48, .tile),
   (.admitWaitRanges, 0, 2, 48, .tile),
   (.admitWaitEngine, 0, 3, 48, .tile),
   (.wideHeldCycles, 0, 4, 48, .tile),
   (.narrowAged, 0, 5, 32, .tile),
   (.eccCorrected, 0, 6, 32, .tile),
   (.poisonMarks, 0, 7, 32, .tile),
   (.aborts, 0, 8, 32, .tile),
   (.auditEvents, 0, 9, 32, .tile),
   (.auditLost, 0, 10, 32, .tile)]

/-- Counter group 1. -/
def Ctr.group1 : List (Ctr × Nat × Nat × Nat × Scope) :=
  [(.kswKeyWaitCycles, 1, 0, 48, .tile),
   (.kswExchangeWaitCycles, 1, 1, 48, .tile),
   (.bobbinPermutations, 1, 2, 48, .stack),
   (.bobbinKeyBytesRead, 1, 3, 48, .stack),
   (.bobbinStreams, 1, 4, 32, .stack),
   (.multicastDeliveries, 1, 5, 48, .module),
   (.keyHeaderFaulted, 1, 6, 32, .module),
   (.keyMismatch, 1, 7, 32, .module)]

/-- Counter group 2. -/
def Ctr.group2 : List (Ctr × Nat × Nat × Nat × Scope) :=
  [(.pbsCount, 2, 0, 48, .tile),
   (.pbsKeyWaitCycles, 2, 1, 48, .tile),
   (.pbsKeyBytesRead, 2, 2, 48, .tile),
   (.pbsKeyMismatch, 2, 3, 32, .tile),
   (.packCount, 2, 4, 32, .tile),
   (.refreshClose, 2, 5, 32, .tile)]

/-- Counter group 3. -/
def Ctr.group3 : List (Ctr × Nat × Nat × Nat × Scope) :=
  [(.mxpCount, 3, 0, 48, .tile),
   (.mxpAccumCycles, 3, 1, 48, .tile),
   (.mxeHeldCycles, 3, 2, 48, .tile),
   (.vcvtCount, 3, 3, 32, .tile),
   (.nanSrcRaised, 3, 4, 32, .tile)]

/-- Counter group 4. -/
def Ctr.group4 : List (Ctr × Nat × Nat × Nat × Scope) :=
  [(.fcChains, 4, 0, 48, .tile),
   (.fcAdmitWaitChain, 4, 1, 48, .tile),
   (.fcArrivalWaitCycles, 4, 2, 48, .tile),
   (.fcRingFullCycles, 4, 3, 48, .tile),
   (.fcHoldBytesPeak, 4, 4, 32, .tile)]

/-- Counter group 5. -/
def Ctr.group5 : List (Ctr × Nat × Nat × Nat × Scope) :=
  [(.progFetchWaitCycles, 5, 0, 48, .tile),
   (.progSegments, 5, 1, 32, .tile),
   (.progSegRefetch, 5, 2, 32, .tile),
   (.offers, 5, 3, 48, .tile),
   (.issueRefused, 5, 4, 32, .tile),
   (.descCreated, 5, 5, 32, .tile),
   (.descRefused, 5, 6, 32, .tile),
   (.tileActiveCycles, 5, 7, 48, .tile),
   (.tileFrozenCycles, 5, 8, 48, .tile)]

/-- Counter group 6. -/
def Ctr.group6 : List (Ctr × Nat × Nat × Nat × Scope) :=
  [(.dmaLineRequests, 6, 0, 48, .tile),
   (.dmaExcessCycles, 6, 1, 48, .tile),
   (.farLinesRead, 6, 2, 48, .tile),
   (.farLinesWritten, 6, 3, 48, .tile),
   (.wcbMerges, 6, 4, 48, .stack),
   (.wcbFullCycles, 6, 5, 48, .stack),
   (.wcbRmw, 6, 6, 48, .stack),
   (.wcbPoisonDrop, 6, 7, 32, .stack),
   (.memEccCorrected, 6, 8, 32, .module),
   (.memRereadClean, 6, 9, 32, .module),
   (.memLinesPoisoned, 6, 10, 32, .module),
   (.linkResends, 6, 11, 32, .module),
   (.pairCheckFailed, 6, 12, 32, .module),
   (.scrubPasses, 6, 13, 32, .stack)]

/-- Counter group 7. -/
def Ctr.group7 : List (Ctr × Nat × Nat × Nat × Scope) :=
  [(.strqLines, 7, 0, 48, .tile),
   (.strqCreditWaitCycles, 7, 1, 48, .tile),
   (.strqHalts, 7, 2, 32, .tile),
   (.strqHaltCycles, 7, 3, 48, .tile),
   (.shuttleSends, 7, 4, 48, .tile),
   (.shuttleRecvs, 7, 5, 48, .tile),
   (.shuttleClosed, 7, 6, 32, .tile),
   (.shuttleStale, 7, 7, 32, .tile),
   (.shuttleStalls, 7, 8, 32, .tile),
   (.remoteBytesRead, 7, 9, 48, .tile),
   (.remoteBytesWritten, 7, 10, 48, .tile),
   (.remoteBytesDropped, 7, 11, 48, .tile),
   (.barResolved, 7, 12, 32, .tile),
   (.barWaitCycles, 7, 13, 48, .tile)]

/-- Counter group 8. -/
def Ctr.group8 : List (Ctr × Nat × Nat × Nat × Scope) :=
  [(.jobsAdmitted, 8, 0, 48, .module),
   (.jobsRefused, 8, 1, 32, .module),
   (.jobsCancelled, 8, 2, 32, .module),
   (.admitAged, 8, 3, 32, .module),
   (.ringFetches, 8, 4, 48, .module),
   (.cqFullCycles, 8, 5, 48, .module),
   (.bar0Reads, 8, 6, 48, .module),
   (.bar0ReadMaxNs, 8, 7, 32, .module),
   (.linkRecals, 8, 8, 32, .module),
   (.linkReplays, 8, 9, 32, .module),
   (.ideErrors, 8, 10, 32, .module),
   (.atsMisses, 8, 11, 48, .module)]

/-- Counter group 9. -/
def Ctr.group9 : List (Ctr × Nat × Nat × Nat × Scope) :=
  [(.commits, 9, 0, 48, .module),
   (.commitUs, 9, 1, 48, .module),
   (.mirrorBytes, 9, 2, 48, .module),
   (.snapBytes, 9, 3, 48, .module),
   (.verifyMismatch, 9, 4, 32, .module),
   (.recoveries, 9, 5, 32, .module),
   (.recoveryUs, 9, 6, 48, .module),
   (.restoreBytes, 9, 7, 48, .module),
   (.spareTakeovers, 9, 8, 32, .module),
   (.schedSteps, 9, 9, 48, .module)]

/-- Counter group 10. -/
def Ctr.group10 : List (Ctr × Nat × Nat × Nat × Scope) :=
  [(.pacerWindows, 10, 0, 48, .module),
   (.pacerLimitedWindows, 10, 1, 48, .module),
   (.slewLimitedSlots, 10, 2, 48, .die),
   (.ballastTokens, 10, 3, 48, .die),
   (.coreTokens, 10, 4, 48, .die),
   (.memTokens, 10, 5, 48, .module),
   (.serviceTokens, 10, 6, 48, .module),
   (.thermalSlots, 10, 7, 48, .die),
   (.perfChanges, 10, 8, 32, .die),
   (.avsFaults, 10, 9, 32, .die),
   (.tMaxSeen, 10, 10, 8, .die)]

/-- Counter group 11. -/
def Ctr.group11 : List (Ctr × Nat × Nat × Nat × Scope) :=
  [(.svcWindowDenied, 11, 0, 32, .module),
   (.svcRestarts, 11, 1, 32, .module),
   (.spdmSessions, 11, 2, 32, .module),
   (.ownerChanges, 11, 3, 32, .module),
   (.bodkinOps, 11, 4, 48, .module),
   (.bodkinBusyCycles, 11, 5, 48, .module),
   (.cvuBytes, 11, 6, 48, .module),
   (.cvuBlocksSealed, 11, 7, 48, .module),
   (.cvuBlocksAccepted, 11, 8, 48, .module),
   (.cvuBlocksFailed, 11, 9, 32, .module)]

/-- Counter group 12. -/
def Ctr.group12 : List (Ctr × Nat × Nat × Nat × Scope) :=
  [(.errCorrected, 12, 0, 48, .module),
   (.errContained, 12, 1, 32, .module),
   (.errDeferred, 12, 2, 32, .module),
   (.errCoalesced, 12, 3, 32, .module),
   (.errqHighWater, 12, 4, 8, .module),
   (.startups, 12, 5, 32, .module),
   (.startupMsLast, 12, 6, 32, .module),
   (.mresetFiltered, 12, 7, 32, .module),
   (.throttleChanges, 12, 8, 32, .module),
   (.hbmSoftRepairs, 12, 9, 32, .module)]

/-- Every counter with its group, index, width and scope (R422, Table HI.15 and the counter tables). -/
def Ctr.rows : List (Ctr × Nat × Nat × Nat × Scope) :=
  Ctr.group0 ++ Ctr.group1 ++ Ctr.group2 ++ Ctr.group3 ++ Ctr.group4 ++ Ctr.group5 ++ Ctr.group6 ++
    Ctr.group7 ++ Ctr.group8 ++ Ctr.group9 ++ Ctr.group10 ++ Ctr.group11 ++ Ctr.group12

/-- The row of a counter: group, index, width, scope. -/
def Ctr.row (c : Ctr) : Nat × Nat × Nat × Scope :=
  match Ctr.rows.find? (fun r => r.1 == c) with
  | some (_, g, i, w, sc) => (g, i, w, sc)
  | none => (0, 0, 0, .module)

/-- Width of a counter. -/
def Ctr.width (c : Ctr) : Nat := c.row.2.2.1

/-- The counters that record a largest value (R422). -/
def Ctr.isPeak (c : Ctr) : Bool := c == .fcHoldBytesPeak || c == .tMaxSeen || c == .errqHighWater || c == .bar0ReadMaxNs

/-- The counter of a group and index (R422); none where unassigned. -/
def Ctr.named (group index : Nat) : Option (Ctr × Nat × Scope) :=
  match Ctr.rows.find? (fun r => r.2.1 == group && r.2.2.1 == index) with
  | some (c, _, _, w, sc) => some (c, w, sc)
  | none => none

/-- Instances of a scope. -/
def Scope.size : Scope → Nat
  | .module => 1
  | .tile => 208
  | .stack => 12
  | .die => 4

/-- The value of a counter at one place; absent counters are 0. -/
def Telemetry.get (m : Telemetry) (c : Ctr) (i : Nat) : Nat :=
  match m.find? (fun p => p.1 == (c, i)) with
  | some p => p.2
  | none => 0

/-- A counter set to a value. -/
def Telemetry.set (m : Telemetry) (c : Ctr) (i v : Nat) : Telemetry :=
  ((c, i), v) :: m.filter (fun p => p.1 != (c, i))

/-- A counter raised by `n`, saturating at all ones of its width (R423; DESIGN CHOICE, log 50). -/
def State.count (c : Ctr) (i n : Nat) (s : State) : State :=
  if n = 0 then s else { s with tele := Telemetry.set s.tele c i (sat c.width (Telemetry.get s.tele c i + n)) }

/-- A counter that records a largest value (DESIGN CHOICE, log 50). -/
def State.countMax (c : Ctr) (i v : Nat) (s : State) : State :=
  { s with tele := Telemetry.set s.tele c i (max (Telemetry.get s.tele c i) (sat c.width v)) }

/-- A counter that holds a value. -/
def State.countSet (c : Ctr) (i v : Nat) (s : State) : State :=
  { s with tele := Telemetry.set s.tele c i (sat c.width v) }

/-- The instances a module value adds up: those of the counter's scope; WCB_POISON_DROP counts the near-tier controllers' drops
too, which no STACK_SEL selects (Table MS.10; DESIGN CHOICE, log 50). -/
def Ctr.instances (c : Ctr) (sc : Scope) : Nat := if c = .wcbPoisonDrop then 16 else sc.size

/-- The module value: the sum over all instances, saturating, or the largest for a peak (R422; DESIGN CHOICE, log 50). -/
def Telemetry.total (m : Telemetry) (c : Ctr) (w : Nat) (sc : Scope) : Nat :=
  let vs := (List.range (c.instances sc)).map (Telemetry.get m c)
  if c.isPeak then vs.foldl max 0 else sat w (vs.foldl (· + ·) 0)

/-- Whether SCOPE (Table HI.16) names the scope a counter is kept at. -/
def Scope.code : Scope → Nat
  | .module => 0
  | .tile => 1
  | .stack => 2
  | .die => 3

/-- The instance a requester's own select register names at a scope; none where it selects no instance (R423). -/
def Selects.telem (x : Selects) : Scope → Option Nat
  | .module => some 0
  | .tile => if x.tile < 208 then some x.tile else none
  | .stack => if x.stack < 12 then some x.stack else none
  | .die => if x.die < 4 then some x.die else none

/-- TELEM_VAL (R423; DESIGN CHOICE, log 50). -/
def State.telemValue (s : State) (x : Selects) : Nat :=
  match Ctr.named s.telemSel.group s.telemSel.index with
  | none => 0
  | some (c, w, sc) =>
    if s.telemSel.scope = 0 then Telemetry.total s.tele c w sc
    else if s.telemSel.scope = sc.code then
      match x.telem sc with
      | some i => Telemetry.get s.tele c i
      | none => 0
    else 0

/-- TELEM_CTRL.CLEAR (R423): the named counter at the selected scope; with SCOPE 0 every instance of it. -/
def State.telemCleared (s : State) (x : Selects) : State :=
  match Ctr.named s.telemSel.group s.telemSel.index with
  | none => s
  | some (c, _, sc) =>
    if s.telemSel.scope = 0 then { s with tele := s.tele.filter (fun p => p.1.1 != c) }
    else if s.telemSel.scope = sc.code then
      match x.telem sc with
      | some i => { s with tele := s.tele.filter (fun p => p.1 != (c, i)) }
      | none => s
    else s

end Sys2Proof.Machine
end

