-- ==== Sys2Proof/Machine/Ops.lean ====
section
/-!
DEFINITION. The named operations every meaning is built from: access to tiles, stacks, rings and jobs; the device
address map and memory (10_memory); errors and the error queue (16, R520-R533); the event ring and completion records
(12, R400-R414); the register gate (R531, R537).
-/
namespace Sys2Proof.Machine

/-- The outcomes of a command. -/
abbrev Out := Host.Outcome State Fault Refusal

/-! ## Parts of the state -/

def State.tile (s : State) (t : Nat) : Tile := Tab.at s.tiles Tile.reset t
def State.mapTile (t : Nat) (f : Tile → Tile) (s : State) : State := { s with tiles := Tab.put s.tiles t (f (s.tile t)) }
def State.stack (s : State) (k : Nat) : Stack := Tab.at s.hbm Stack.reset k
def State.mapStack (k : Nat) (f : Stack → Stack) (s : State) : State :=
  { s with hbm := Tab.put s.hbm k (f (s.stack k)) }
def State.ring (s : State) (r : Nat) : Ring := Tab.at s.rings (Ring.reset r) r
def State.mapRing (r : Nat) (f : Ring → Ring) (s : State) : State := { s with rings := Tab.put s.rings r (f (s.ring r)) }
def State.die (s : State) (d : Nat) : Die := Tab.at s.dies Die.reset d
def State.mapDie (d : Nat) (f : Die → Die) (s : State) : State := { s with dies := Tab.put s.dies d (f (s.die d)) }
def State.cvu (s : State) (u : Nat) : Cvu := Tab.at s.cvus Cvu.reset u
def State.mapCvu (u : Nat) (f : Cvu → Cvu) (s : State) : State := { s with cvus := Tab.put s.cvus u (f (s.cvu u)) }

/-- The requester's number in Table EB.3 kind 6 and in the select copies (R391). -/
def requesterNum : Requester → Nat
  | .mainband => 0
  | .sideband => 1
  | .service => 2
  | .hoop => 3

def State.selects (s : State) (q : Requester) : Selects := Tab.at s.sel Selects.reset (requesterNum q)
def State.mapSelects (q : Requester) (f : Selects → Selects) (s : State) : State :=
  { s with sel := Tab.put s.sel (requesterNum q) (f (s.selects q)) }

/-- The admitted job of a ring (R406: at most one). -/
def State.job (s : State) (r : Nat) : Option Job := s.jobs.find? (fun j => j.ring == r)
def State.mapJob (r : Nat) (f : Job → Job) (s : State) : State :=
  { s with jobs := s.jobs.map (fun j => if j.ring == r then f j else j) }

/-- The logical tiles of a job: those with a tile entry in its pricking. -/
def Job.tileIds (j : Job) : List Nat := j.tiles.map (fun e => e.tile)

/-- Die of a logical tile (R13). -/
def dieOfTile (t : Nat) : Nat := t / 52

/-! ## The device address map (R307-R313) -/

/-- Where a device address lies (Table MS.1). A stack address is a byte offset within the stack. -/
inductive Home where
  | hbm (stack addr : Nat)
  | near (die off : Nat)
  | scratch (tile off : Nat)
  | host
  | unmapped
deriving DecidableEq, Repr

/-- The map of R312 from a die offset to (j, stack address). -/
def stackOfOffset (x : Nat) : Nat × Nat :=
  if x < 0x2400000000 then
    let g := x >>> 11
    let t := g % 96
    (t / 32, (g / 96 * 32 + t % 32) * 2048 + x % 2048)
  else
    let y := x - 0x2400000000
    (y / 0x400000000, 0xC00000000 + y % 0x400000000)

/-- Table MS.1 (DESIGN CHOICE, log 32). -/
def home (a : Nat) : Home :=
  if a < 0xC000000000 then
    let p := stackOfOffset (a % 0x3000000000)
    .hbm (3 * (a / 0x3000000000) + p.1) p.2
  else if 0x10000000000 ≤ a ∧ a < 0x10100000000 then
    .near ((a - 0x10000000000) / 0x40000000) ((a - 0x10000000000) % 0x40000000)
  else if 0x20000000000 ≤ a ∧ a < 0x20068000000 then
    let o := a % 0x800000
    if o < 0x600000 then .scratch ((a - 0x20000000000) / 0x800000) o else .unmapped
  else if 2 ^ 63 ≤ a ∧ a < 2 ^ 64 then .host
  else .unmapped

/-- The device address of a stack address: R312 read backwards. -/
def stackToDevice (k sa : Nat) : Nat :=
  let base := 0x3000000000 * (k / 3)
  if sa < 0xC00000000 then
    let r := sa / 2048
    base + (r / 32 * 96 + (k % 3 * 32 + r % 32)) * 2048 + sa % 2048
  else base + 0x2400000000 + k % 3 * 0x400000000 + (sa - 0xC00000000)

/-- Device address of a scratchpad byte (R309). -/
def scratchAddr (t off : Nat) : Nat := 0x20000000000 + 0x800000 * t + off

/-- Device address of a host address (R387). -/
def hostAddr (h : Nat) : Nat := 2 ^ 63 + h % 2 ^ 63

/-- Every byte of [a, a + n) has a home (R308; DESIGN CHOICE, log 32). -/
def mapped (a n : Nat) : Bool :=
  n == 0 || (home a != .unmapped && home (a + n - 1) != .unmapped &&
    (decide (a + n ≤ 0xC000000000) || (decide (0x10000000000 ≤ a) && decide (a + n ≤ 0x10100000000)) ||
      (decide (2 ^ 63 ≤ a) && decide (a + n ≤ 2 ^ 64)) || a / 0x800000 == (a + n - 1) / 0x800000))

/-- The memory line of an address. -/
def lineOf (a : Nat) : Nat := a / 64 * 64

/-- The lines that [a, a + n) touches, lowest first. -/
def linesOf (a n : Nat) : List Nat :=
  if n = 0 then [] else (List.range ((a + n - 1) / 64 - a / 64 + 1)).map (fun i => (a / 64 + i) * 64)

/-! ## Memory -/

/-- The byte at an address; unlisted addresses read as 0 (DESIGN CHOICE, log 7). -/
def Memory.get : Memory → Nat → Byte
  | [], _ => 0
  | (k, v) :: m, a => if a < k then 0 else if a = k then v else Memory.get m a

/-- One byte written, in canonical form: writing 0 removes the cell (DESIGN CHOICE, log 7). -/
def Memory.put : Memory → Nat → Byte → Memory
  | [], a, b => if b = 0 then [] else [(a, b)]
  | (k, v) :: m, a, b =>
    if a < k then (if b = 0 then (k, v) :: m else (a, b) :: (k, v) :: m)
    else if a = k then (if b = 0 then m else (a, b) :: m)
    else (k, v) :: Memory.put m a b

/-- Bytes written from an address up. -/
def Memory.putAll (m : Memory) : Nat → List Byte → Memory
  | _, [] => m
  | a, b :: bs => Memory.putAll (Memory.put m a b) (a + 1) bs

/-- Memory tokens of a line request at an address, bridges apart (Table PW.5); host lines have no row. -/
def lineTokens (a : Nat) : Nat :=
  match home a with
  | .hbm _ _ => 82
  | .near _ _ => 7
  | .scratch _ _ => 4
  | _ => 0

/-- Work that no tile requests, charged to the service pool (R468). -/
def State.askService (n : Nat) (s : State) : State :=
  { s with power := { s.power with serviceDemand := s.power.serviceDemand + n } }

/-- A service request need not wait: what has been asked since the last slot boundary has not spent the most that a slot's service
pool may be, M/2 (R468, Table PW.7; DESIGN CHOICE, log 55). -/
def State.poolOpen (s : State) : Bool :=
  s.power.serviceDemand == 0 || decide (s.power.serviceDemand < (s.power.inForce - s.power.fixed) * 20000 / 2)

/-- Every cell of [lo, hi) cleared. -/
def Memory.clear (m : Memory) (lo hi : Nat) : Memory := m.filter (fun c => !(decide (lo ≤ c.1) && decide (c.1 < hi)))

/-- The write-combining entry that holds a line. -/
def Stack.entryOf (k : Stack) (line : Nat) : Option WcbEntry := k.wcb.find? (fun e => e.line == line)

/-- A byte as a reader gets it: a resident write-combining entry lies over the stored byte (R322). -/
def State.readByte (s : State) (a : Nat) : Byte :=
  match home a with
  | .hbm k _ =>
    match (s.stack k).entryOf (lineOf a) with
    | some e => if bit e.mask.toNat (a % 64) then e.data.getD (a % 64) 0 else Memory.get s.mem a
    | none => Memory.get s.mem a
  | .unmapped => 0
  | _ => Memory.get s.mem a

/-- `n` bytes from an address. -/
def State.readRaw (s : State) (a n : Nat) : List Byte := (List.range n).map (fun i => s.readByte (a + i))

/-- Whether the line of an address is poisoned (R328). -/
def State.poisoned (s : State) (a : Nat) : Bool := s.linePoison.contains (lineOf a)

/-- Bytes as a reader of Table MS.6 that takes zeros for a poisoned line, and for an unmapped address (R308). -/
def State.readZeroed (s : State) (a n : Nat) : List Byte :=
  (List.range n).map (fun i => if s.poisoned (a + i) then 0 else s.readByte (a + i))

/-- A 32-bit word. -/
def State.readWord (s : State) (a : Nat) : Nat := leNat (s.readRaw a 4)

/-- A sorted insertion without repeats. -/
def insertNat (x : Nat) : List Nat → List Nat
  | [] => [x]
  | y :: l => if x < y then x :: y :: l else if x = y then y :: l else y :: insertNat x l

/-- A poison code written into a line's check bits (R328). -/
def State.markPoison (line : Nat) (s : State) : State :=
  let s := if s.linePoison.contains line then s else s.count .memLinesPoisoned 0 1
  { s with linePoison := insertNat line s.linePoison }

/-- A line poisoned by request: a resident entry is discarded (Table MS.3, R330). -/
def State.poisonLine (line : Nat) (s : State) : State :=
  let s := s.markPoison line
  match home line with
  | .hbm k _ => s.mapStack k (fun u => { u with wcb := u.wcb.filter (fun e => e.line != line) })
  | _ => s

/-- Only lines of HBM and of the near tier hold a poison code (R328). -/
def poisonable (a : Nat) : Bool :=
  match home a with
  | .hbm _ _ => true
  | .near _ _ => true
  | _ => false

/-- Bytes of a masked line laid over memory (DESIGN CHOICE, log 28). -/
def Memory.putMasked (m : Memory) (line : Nat) (mask : Nat) : Nat → List Byte → Memory
  | _, [] => m
  | i, b :: bs => Memory.putMasked (if bit mask i then Memory.put m (line + i) b else m) line mask (i + 1) bs

/-- The byte mask that covers all 64 bytes. -/
def fullMask : Nat := 2 ^ 64 - 1

/-- The write-back of an entry (R323): a complete one is a full-line write; an incomplete one reads, merges and writes,
and on a poisoned line its bytes are discarded (Table MS.3; DESIGN CHOICE, log 28). -/
def State.writeBack (k : Nat) (e : WcbEntry) (s : State) : State :=
  let s := s.mapStack k (fun u => { u with wcb := u.wcb.filter (fun x => x.line != e.line) })
  if e.mask.toNat = fullMask then
    { s with mem := Memory.putAll s.mem e.line e.data, linePoison := s.linePoison.filter (· != e.line) }
  else
    let s := (s.count .wcbRmw k 1).count .memTokens 0 82
    if s.poisoned e.line then s.count .wcbPoisonDrop k 1
    else { s with mem := Memory.putMasked s.mem e.line e.mask.toNat 0 e.data }

/-- Every entry of every stack written back (a barrier resolves or a job completes, R323). -/
def State.writeBackAll (s : State) : State :=
  (List.range 12).foldl (fun s k => (s.stack k).wcb.foldl (fun s e => s.writeBack k e) s) s

/-- Merge of masked bytes over an entry's bytes: the later arrival's byte is kept (DESIGN CHOICE, log 28). -/
def mergeBytes (old new : List Byte) (mask : Nat) : List Byte :=
  (List.range 64).map (fun i => if bit mask i then new.getD i 0 else old.getD i 0)

/-- A write of a line with a byte mask that its controller accepts (R322, Table MS.3). `data` has 64 bytes
(DESIGN CHOICE, log 28). -/
def State.acceptLine (line mask : Nat) (data : List Byte) (s : State) : State :=
  if mask = 0 then s else
  match home line with
  | .hbm k _ =>
    if mask = fullMask then
      let s := s.mapStack k (fun u => { u with wcb := u.wcb.filter (fun x => x.line != line) })
      { s with mem := Memory.putAll s.mem line data, linePoison := s.linePoison.filter (· != line) }
    else
      let s := s.count .wcbMerges k 1
      match (s.stack k).entryOf line with
      | some e =>
        let e' : WcbEntry := { e with data := mergeBytes e.data data mask, mask := e.mask ||| BitVec.ofNat 64 mask }
        let s := s.mapStack k (fun u => { u with wcb := u.wcb.map (fun x => if x.line == line then e' else x) })
        if e'.mask.toNat = fullMask then s.writeBack k e' else s
      | none =>
        let s := match (s.stack k).wcb with
          | old :: _ => if (s.stack k).wcb.length ≥ 256 then (s.writeBack k old).count .wcbFullCycles k (Config.wcbWait old.line s.clock) else s
          | [] => s
        let e : WcbEntry :=
          { line := line, data := mergeBytes [] data mask, mask := BitVec.ofNat 64 mask, since := s.clock }
        s.mapStack k (fun u => { u with wcb := u.wcb ++ [e] })
  | .near d _ =>
    if mask = fullMask then
      { s with mem := Memory.putAll s.mem line data, linePoison := s.linePoison.filter (· != line) }
    else if s.poisoned line then s.count .wcbPoisonDrop (12 + d) 1
    else { s with mem := Memory.putMasked s.mem line mask 0 data }
  | .scratch t off => ({ s with mem := Memory.putMasked s.mem line mask 0 data }).mapTile t (fun u =>
      { u with eccDouble := u.eccDouble.filter (fun o =>
        !(decide (off ≤ o) && decide (o < off + 64) && bits mask (o - off + 3) (o - off) == 15)) })
  | .unmapped => s
  | .host => { s with mem := Memory.putMasked s.mem line mask 0 data }

/-- The mask of the bytes of [a, a + n) that lie in a line. -/
def lineMask (line a n : Nat) : Nat :=
  let lo := max a line - line
  let hi := min (a + n) (line + 64) - line
  if hi ≤ lo then 0 else (2 ^ (hi - lo) - 1) * 2 ^ lo

/-- The 64 bytes of a line taken from bytes that begin at `a`. -/
def lineData (line a : Nat) (bs : List Byte) : List Byte :=
  (List.range 64).map (fun i => if a ≤ line + i then bs.getD (line + i - a) 0 else 0)

/-- Bytes written from an address up, line by line. -/
def State.store (a : Nat) (bs : List Byte) (s : State) : State :=
  (linesOf a bs.length).foldl (fun s l => s.acceptLine l (lineMask l a bs.length) (lineData l a bs)) s

/-- A write of one requester to host memory (rings, events). -/
def State.storeHost (h : Nat) (bs : List Byte) (s : State) : State := s.store (hostAddr h) bs

/-! ## Errors (R520-R533) -/

def ErrClass.rank : ErrClass → Nat
  | .corrected => 1
  | .contained => 2
  | .deferred => 3
  | .fatal => 4

/-- SOURCE: instance in [11:0], kind in [15:12] (Table EB.2). -/
def Err.source (e : Err) : Nat := e.kind * 4096 + e.unit % 4096

/-- An error that names no job (RING 0xFF, JOB_TAG 0, SEQ 0). -/
def Err.plain (cls : ErrClass) (code kind unit arg0 arg1 : Nat) : Err :=
  { cls := cls, code := code, kind := kind, unit := unit, ring := none, tag := 0, seq := 0, arg0 := arg0, arg1 := arg1 }

/-- An error of a macro-operation or of a job. -/
def Err.ofJob (cls : ErrClass) (code kind unit : Nat) (j : Job) (seq arg0 arg1 : Nat) : Err :=
  { cls := cls, code := code, kind := kind, unit := unit, ring := some j.ring, tag := j.tag, seq := seq, arg0 := arg0,
    arg1 := arg1 }

/-- The 32-byte error record (Table EB.2). -/
def Err.bytes (e : Err) (count : Nat) : List Byte :=
  withCrc (leBytes 2 0xC7FC ++ leBytes 1 e.cls.rank ++ leBytes 1 e.code ++ leBytes 2 e.source ++
    leBytes 1 (e.ring.getD 0xFF) ++ leBytes 1 count ++ leBytes 4 e.tag ++ leBytes 4 e.seq ++ leBytes 8 e.arg0 ++
    leBytes 4 e.arg1)

/-- A repeat of an entry that the Hoop has not begun to handle (R526). -/
def ErrEntry.repeats (x : ErrEntry) (e : Err) : Bool :=
  x.phase == .waiting && x.err.cls == e.cls && x.err.source == e.source && x.err.code == e.code && x.err.tag == e.tag

/-- The order of R524: descending CLASS, then ascending SOURCE. -/
def Err.before (a b : Err) : Bool :=
  decide (a.cls.rank > b.cls.rank) || (a.cls.rank == b.cls.rank && decide (a.source ≤ b.source))

def Err.insertSorted (e : Err) : List Err → List Err
  | [] => [e]
  | x :: l => if e.before x then e :: x :: l else x :: Err.insertSorted e l

/-- The errors of one cycle in the order in which they enter. -/
def Err.sorted (l : List Err) : List Err := l.foldr Err.insertSorted []

/-- The entry a FATAL error displaces (R528): the latest unhandled entry of the lowest class. -/
def ErrUnit.victim (u : ErrUnit) : Option ErrEntry :=
  (u.queue.filter (fun x => x.phase == .waiting)).foldl (fun best x =>
    match best with
    | none => some x
    | some b => if x.err.cls.rank < b.err.cls.rank ∨ (x.err.cls.rank = b.err.cls.rank ∧ b.order < x.order)
      then some x else some b) none

/-- The class of the entry in handling. -/
def ErrUnit.activeRank (u : ErrUnit) : Nat :=
  match u.queue.find? (fun x => x.phase == .active) with
  | some x => x.err.cls.rank
  | none => 5

/-- A new entry at the end of the queue. A higher class than the one in handling suspends it and is handled at once
(R527). -/
def ErrUnit.append (u : ErrUnit) (e : Err) : ErrUnit :=
  let above := decide (u.activeRank < e.cls.rank)
  let q := if above then u.queue.map (fun x => if x.phase = .active then { x with phase := .suspended } else x)
    else u.queue
  { u with
    queue := q ++ [{ err := e, count := 1, order := u.nextOrder, phase := if above then .active else .waiting }],
    nextOrder := u.nextOrder + 1 }

/-- One error enters the queue: a repeat adds to COUNT (R526), a full queue loses it or lets a FATAL error displace an
entry (R528). -/
def ErrUnit.enter (u : ErrUnit) (e : Err) : ErrUnit :=
  if u.queue.any (fun x => x.repeats e) then
    { u with queue := u.queue.map (fun x => if x.repeats e then { x with count := min 255 (x.count + 1) } else x) }
  else if u.queue.length < 64 then u.append e
  else
    let lost : ErrUnit := { u with overflow := sat 32 (u.overflow + 1), lost := true }
    match u.victim with
    | some v => if e.cls = .fatal then { lost with queue := u.queue.filter (fun x => x.order != v.order) }.append e
      else lost
    | none => lost

/-- ALERT_N asserted; each assertion raises an in-band interrupt (R548, R549). -/
def State.assertAlert (s : State) : State :=
  if s.pins.alertN then { s with pins := { s.pins with alertN := false, i3cInterrupt := true } } else s

/-- The stop of the module (R530): tiles freeze and rings stop while FATAL is set; ballast ramps; ALERT_N asserts, with
an in-band interrupt (R549); the write-combining buffers are lost (R325). -/
def State.enterFatal (e : Err) (s : State) : State :=
  { s.assertAlert with
    errs := { s.errs with fatal := true, fatalRec := some e },
    dies := s.dies.map (fun d => { d with ramping := true }),
    hbm := s.hbm.map (fun k => { k with wcb := [] }) }

/-- EVENTS of the job that a DEFERRED error names (R557). -/
def State.countEvent (e : Err) (s : State) : State :=
  match e.ring with
  | some r => if e.cls = .deferred then
      s.mapJob r (fun j => if j.tag = e.tag then { j with events := sat 16 (j.events + 1) } else j) else s
  | none => s

/-- Entry into the queue with its two counters. -/
def State.enterQueue (e : Err) (s : State) : State :=
  let s := if s.errs.queue.any (fun x => x.repeats e) then s.count .errCoalesced 0 1 else s
  let s := { s with errs := s.errs.enter e }
  s.countMax .errqHighWater 0 s.errs.queue.length

/-- One error of a cycle (R524-R529, R556). -/
def State.enterErr (e : Err) (s : State) : State :=
  match e.cls with
  | .corrected => s.count .errCorrected 0 1
  | .contained => (s.enterQueue e).count .errContained 0 1
  | .deferred => ((s.enterQueue e).count .errDeferred 0 1).countEvent e
  | .fatal => (if s.errs.fatal then s else s.enterFatal e).enterQueue e

/-- Errors raised in one cycle. Once the module is FATAL they are only counted (R529). -/
def State.raise (l : List Err) (s : State) : State :=
  if s.errs.fatal then { s with errs := { s.errs with afterFatal := sat 32 (s.errs.afterFatal + l.length) } }
  else (Err.sorted l).foldl (fun s e => State.enterErr e s) s

/-- Errors a macro-operation raises: under GUARD = MIRROR or MIRROR_VERIFY a DEFERRED one is held until R447 releases
it (DESIGN CHOICE, log 23). -/
def State.raiseMop (r : Nat) (l : List Err) (s : State) : State :=
  match s.job r with
  | some j =>
    if j.mode.guard = .off then s.raise l
    else (s.raise (l.filter (fun e => e.cls != .deferred))).mapJob r
      (fun j => { j with heldErrs := j.heldErrs ++ l.filter (fun e => e.cls == .deferred) })
  | none => s.raise l

/-- Bytes [lo, hi) written: every job that guards its state notes them (R438). -/
def State.noteWrite (lo hi : Nat) (s : State) : State :=
  { s with jobs := s.jobs.map (fun j =>
      if j.mode.guard = .off ∨ hi ≤ lo then j else { j with written := (lo, hi) :: j.written }) }

/-- REG_DISCARD (Table EB.4): a discarded register or mailbox write names its address and value. -/
def State.discard (q : Requester) (addr value : Nat) (s : State) : State :=
  s.raise [Err.plain .deferred 0x03 6 (requesterNum q) addr (value % 2 ^ 32)]

/-! ## Time -/

/-- One idle step: a period of REFCLK, 10 ns, passes (R480, DESIGN CHOICE, log 1). -/
def State.idle (s : State) : State := { s with clock := s.clock + 10 }

/-- The clock moved forward to a time, never back (DESIGN CHOICE, log 1; DESIGN CHOICE, log 73). -/
def State.until (t : Nat) (s : State) : State := { s with clock := max s.clock t }

/-! ## Register gate -/

/-- Every rail is good (R454). -/
def Pins.allGood (p : Pins) : Bool := p.railsGood.toList.all (fun b => b)

/-- Whether a register write is served: not while FATAL (R531), not while start-up is stopped, where only the sideband
is (R537), not while MRESET_N counts as asserted (R545) or a rail is down (R455; DESIGN CHOICE, log 14). -/
def State.serves (s : State) (q : Requester) : Bool :=
  !s.errs.fatal && !s.pins.mreset && s.pins.allGood && (!s.boot.stopped || q == .sideband)

/-- The service cluster's access to a BAR0 offset passes through a service window (R487; DESIGN CHOICE, log 62). -/
def State.windowOpen (s : State) (q : Requester) (a : Nat) : Bool :=
  q != .service || (s.trust.serviceRunning && s.trust.windows.any (fun w => decide (w.1 ≤ a) && decide (a < w.2)))

/-- An access outside every window (R489; DESIGN CHOICE, log 69). -/
def State.denied (a : Nat) (s : State) : State :=
  (s.count .svcWindowDenied 0 1).raise [Err.plain .deferred 0x0D 8 1 a 0]

/-- A write of the register at `a` behind the gate and, for the service cluster, through a window; outside the gate the write is
discarded without a record (R489, R531; DESIGN CHOICE, log 14). -/
def State.gated (s : State) (q : Requester) (a : Nat) (f : State → State) : State :=
  if !s.serves q then s else if s.windowOpen q a then f s else s.denied a

/-- Any other register access clears the latch of R9. -/
def State.unlatch (s : State) : State := { s with readLatch := none }

/-! ## Events and completion records -/

/-- An MSI-X vector raised (DESIGN CHOICE, log 6). -/
def State.interrupt (v : Nat) (s : State) : State := { s with msix := s.msix ++ [v] }

/-- The 64 bytes of an event entry (Table HI.8). -/
def EventRing.entry (v : EventRing) (kind : Nat) (payload : List Byte) : List Byte :=
  withCrc (leBytes 2 0xC7F9 ++ leBytes 1 kind ++ leBytes 1 (flag v.phase) ++ leBytes 4 v.seq ++
    slice payload 0 32 ++ List.replicate 20 0)

/-- The event ring takes an entry: it is enabled, and one more does not make the tail equal to the host's head (R413). -/
def EventRing.hasRoom (v : EventRing) : Bool :=
  v.enable && (v.tail + 1) % 2 ^ v.sizeLog != v.head % 2 ^ v.sizeLog

/-- The ring after an entry: the tail moves on, and PHASE inverts where it wraps (R412). -/
def EventRing.taken (v : EventRing) : EventRing :=
  { v with
    seq := (v.seq + 1) % 2 ^ 32
    tail := (v.tail + 1) % 2 ^ v.sizeLog
    phase := if (v.tail + 1) % 2 ^ v.sizeLog = 0 then !v.phase else v.phase }

/-- The ring after an entry it cannot take: discarded, counted in LOST and shown by OVERFLOW (R413, Table HI.13; DESIGN CHOICE,
log 25). -/
def EventRing.dropped (v : EventRing) : EventRing :=
  { v with seq := (v.seq + 1) % 2 ^ 32, lost := sat 19 (v.lost + 1), overflow := true }

/-- An entry lost (R413). -/
def State.dropEvent (s : State) : State := { s with evq := s.evq.dropped }

/-- An entry for the event ring (R412, R413). -/
def State.postEvent (kind : Nat) (payload : List Byte) (s : State) : State :=
  let v := s.evq
  if v.hasRoom then
    { s.storeHost (v.base.toNat + 64 * v.tail) (v.entry kind payload) with evq := v.taken }.interrupt 32
  else s.dropEvent

/-- A ring in use: enabled and not stopped by an error (R396). -/
def Ring.inUse (r : Ring) : Bool := r.enable && !r.error

/-- One more record would make the tail equal to the host's head (R401). -/
def Ring.cqFull (r : Ring) : Bool := (r.cqTail + 1) % 2 ^ r.cqSizeLog == r.cqHead % 2 ^ r.cqSizeLog

/-- The 32-byte completion record (Table HI.6). -/
def Completion.bytes (c : Completion) (k : Nat) (r : Ring) : List Byte :=
  withCrc (leBytes 4 c.tag ++ leBytes 1 k ++ leBytes 1 c.status ++ leBytes 2 r.sqHead ++ leBytes 2 c.tile ++
    leBytes 1 c.code ++ leBytes 1 (flag r.phase) ++ leBytes 4 c.seq ++ leBytes 2 c.recoveries ++ leBytes 2 c.events ++
    leBytes 4 c.elapsed ++ leBytes 4 0)

/-- Unacknowledged records of a ring (DEDUCED, log 26). -/
def Ring.outstanding (r : Ring) : Nat := (r.cqTail + 2 ^ r.cqSizeLog - r.cqHead) % 2 ^ r.cqSizeLog

/-- A ring's admitted job is over: its tiles are free. -/
def State.dropJob (k : Nat) (s : State) : State :=
  { s with
    jobs := s.jobs.filter (fun j => j.ring != k),
    tiles := s.tiles.map (fun u => if u.job = some k then { u with job := none, entry := none, partner := none } else u) }

/-- A record written to its slot by a single write (R400), with the interrupts of R414. A record that ends an admitted
job frees the job's tiles (R407; DEDUCED, log 26). -/
def State.writeCompletion (k : Nat) (c : Completion) (s : State) : State :=
  let r := s.ring k
  let s := s.storeHost (r.cqBase.toNat + 32 * r.cqTail) (c.bytes k r)
  let tail := (r.cqTail + 1) % 2 ^ r.cqSizeLog
  let r' := { r with
    cqTail := tail, phase := if tail = 0 then !r.phase else r.phase, unacked := r.unacked + 1,
    firstUnacked := if r.unacked = 0 ∧ r.coalUs ≠ 0 then some s.clock else r.firstUnacked }
  let s := s.mapRing k (fun _ => r')
  let s := if c.endsJob then s.dropJob k else s
  if c.notify || r'.unacked == max r.coalCount 1 then s.interrupt r.vector else s

/-- Whether the ring may write a record now: not in FATAL (R530). -/
def State.canComplete (s : State) (k : Nat) : Bool := !s.errs.fatal && (s.ring k).inUse && !(s.ring k).cqFull

/-- The record waits for that of the job it cancelled, held on the target's ring (R415). -/
def State.awaits (s : State) (c : Completion) : Bool :=
  c.after.any (fun x => (s.ring x.1).held.any (fun h => h.tag == x.2 && (h.status == 0x12 || h.status == 0x13)))

/-- A record that joins those its ring holds. -/
def State.holdRecord (k : Nat) (c : Completion) (s : State) : State :=
  s.mapRing k (fun r =>
    { r with held := r.held ++ [c],
             fullSince := if r.cqFull && r.fullSince.isNone then some s.clock else r.fullSince })

/-- A completion record made: written at once, or held in order (R396, R401). That of a cancelled admitted job is always held first:
until COMPLETION_RECORD_WRITE writes it the job is not over, and a HALT still finds it (Table HI.10; DESIGN CHOICE, log 23). -/
def State.complete (k : Nat) (c : Completion) (s : State) : State :=
  if s.errs.fatal then s
  else if !(c.endsJob && c.status == 0x12) && emptyList (s.ring k).held && s.canComplete k && !s.awaits c then s.writeCompletion k c
  else s.holdRecord k c

/-- The oldest held record written, if its ring has a slot for it. -/
def State.flushOne (k : Nat) (s : State) : State :=
  match (s.ring k).held with
  | c :: rest =>
    if s.canComplete k && !s.awaits c then
      let s := (s.mapRing k (fun r => { r with held := rest })).writeCompletion k c
      match (s.ring k).fullSince, rest with
      | some t, [] => (s.count .cqFullCycles 0 (s.clock - t)).mapRing k (fun r => { r with fullSince := none })
      | _, _ => s
    else s
  | [] => s

end Sys2Proof.Machine
end

