-- ==== Sys2Proof/Machine/Arith.lean ====
section
/-!
DEFINITION. The word arithmetic of the engines (04_polynomial_engines): residues, transforms, automorphisms, base
conversion and rounded drops, on lists of words; mix and Barrett-free modular powers and inverses.
-/
namespace Sys2Proof.Machine

/-- Words are 32 bits. -/
def word32 (x : Nat) : Nat := x % 2 ^ 32

def powGo (m : Nat) : Nat → Nat → Nat → Nat → Nat
  | 0, _, _, acc => acc
  | f + 1, b, e, acc => if e = 0 then acc else powGo m f (b * b % m) (e / 2) (if e % 2 = 1 then acc * b % m else acc)

/-- b^e mod m. -/
def powMod (b e m : Nat) : Nat := powGo m (Nat.log2 e + 1) (b % m) e (1 % m)

def invGo : Nat → Int → Int → Int → Int → Int × Int
  | 0, r, _, x, _ => (r, x)
  | f + 1, r, r', x, x' => if r' = 0 then (r, x) else invGo f r' (r - r / r' * r') x' (x - r / r' * x')

/-- The inverse of `a` modulo `m`, if there is one. -/
def invMod? (a m : Nat) : Option Nat :=
  let p := invGo (2 * Nat.log2 (m + 1) + 4) (m : Int) ((a % m : Nat) : Int) 0 1
  if p.1 = 1 then some (p.2 % (m : Int)).toNat else none

/-- The inverse of `a` modulo `m`; 0 where there is none. -/
def invMod (a m : Nat) : Nat := (invMod? a m).getD 0

/-- The product of a list. -/
def product (l : List Nat) : Nat := l.foldl (· * ·) 1

/-- The sum of a list. -/
def total (l : List Nat) : Nat := l.foldl (· + ·) 0

/-! ## Selections of R125 and R130 -/

/-- red (R125): one conditional subtraction. -/
def red (q x : Nat) : Nat := if q ≤ x then x - q else x

/-- lz (R125): reduced once when q ≥ 2^31, then the low 32 bits. -/
def lz (q x : Nat) : Nat := word32 (if 2 ^ 31 ≤ q ∧ q ≤ x then x - q else x)

/-- sub (R125). -/
def subSel (q x y : Nat) : Nat := if y ≤ x then x - y else word32 (x + q + 2 ^ 32 - y)

/-- neg (R130). -/
def negSel (q x : Nat) : Nat := if red q x = 0 then 0 else word32 (q + 2 ^ 32 - red q x)

/-! ## Transforms (R124-R126) -/

/-- brv(k): the `l` low bits in reverse order. -/
def brv (l k : Nat) : Nat := reflect l k

/-- ψ for ring dimension 2^logN: ROOT^(2^17 / N). -/
def psiOf (root q logN : Nat) : Nat := powMod root (2 ^ 17 / 2 ^ logN) q

/-- psi_brv[k] (R124). -/
def psiBrv (psi q logN k : Nat) : Nat := powMod psi (brv logN k) q

/-- psi_inv_brv[k] (R124): ψ has order 2N. -/
def psiInvBrv (psi q logN k : Nat) : Nat := powMod (invMod psi q) (brv logN k) q

/-- One forward butterfly. -/
def bflyLo (q w x y : Nat) : Nat := lz q (red q x + w * y % q)
def bflyHi (q w x y : Nat) : Nat := lz q (red q x + q - w * y % q)

/-- One stage of NTT with m blocks of 2t words. -/
def nttStage (q psi logN m t : Nat) (a : List Nat) : List Nat :=
  ((List.range m).map fun i =>
    let c := (a.drop (2 * i * t)).take (2 * t)
    let w := psiBrv psi q logN (m + i)
    List.zipWith (bflyLo q w) (c.take t) (c.drop t) ++ List.zipWith (bflyHi q w) (c.take t) (c.drop t)).flatten

/-- NTT of one residue row (R125). -/
def nttRow (q psi logN : Nat) (keepLazy : Bool) (a : List Nat) : List Nat :=
  let b := (List.range logN).foldl (fun a k => nttStage q psi logN (2 ^ k) (2 ^ logN / 2 ^ (k + 1)) a) a
  if keepLazy then b else b.map (red q)

/-- One stage of INTT. -/
def inttStage (q psi logN m t : Nat) (a : List Nat) : List Nat :=
  ((List.range m).map fun i =>
    let c := (a.drop (2 * i * t)).take (2 * t)
    let w := psiInvBrv psi q logN (m + i)
    List.zipWith (fun x y => lz q (red q x + red q y)) (c.take t) (c.drop t) ++
      List.zipWith (fun x y => subSel q (red q x) (red q y) * w % q) (c.take t) (c.drop t)).flatten

/-- INTT of one residue row (R126). -/
def inttRow (q psi logN : Nat) (a : List Nat) : List Nat :=
  let b := (List.range logN).foldl
    (fun a k => inttStage q psi logN (2 ^ logN / 2 ^ (k + 1)) (2 ^ k) a) a
  b.map (fun x => x * invMod (2 ^ logN) q % q)

/-! ## Automorphisms and extraction (R130-R133) -/

/-- AUTO in coefficient form (R130). -/
def autoCoeff (q g : Nat) (a : List Nat) : List Nat :=
  let n := a.length
  (List.range n).foldl (fun b j =>
    let e := j * g % (2 * n)
    if e < n then b.set e (red q (a.getD j 0)) else b.set (e - n) (negSel q (a.getD j 0))) (List.replicate n 0)

/-- π(i) of R131. -/
def autoPi (logN g i : Nat) : Nat := brv logN ((g * (2 * brv logN i + 1) % 2 ^ (logN + 1) - 1) / 2)

/-- AUTO in evaluation form (R131). -/
def autoEval (logN g : Nat) (a : List Nat) : List Nat :=
  (List.range a.length).map (fun i => a.getD (autoPi logN g i) 0)

/-- AUTO by index tensor (R132). -/
def autoIndex (idx a : List Nat) : List Nat := idx.map (fun i => a.getD i 0)

/-- EXTRACT at coefficient k (R133): N mask words and the body word. -/
def extractLwe (q k : Nat) (a0 a1 : List Nat) : List Nat :=
  let n := a1.length
  (List.range n).map (fun j => if j ≤ k then red q (a1.getD (k - j) 0) else negSel q (a1.getD (n + k - j) 0)) ++
    [red q (a0.getD k 0)]

/-! ## Base conversion (R135-R138) -/

/-- conv_(S→t)(z): the source is a list of (modulus, residue). -/
def conv (src : List (Nat × Nat)) (t : Nat) : Nat :=
  let qs := product (src.map (·.1))
  total (src.map (fun p => p.2 % p.1 * invMod (qs / p.1) p.1 % p.1 * (qs / p.1 % t))) % t

/-- Dropping S with rounding for one remaining modulus t (R137); `x` is the residue at t, `src` the residues at S. -/
def dropRound (src : List (Nat × Nat)) (t x : Nat) : Nat :=
  let qs := product (src.map (·.1))
  let h := qs / 2
  let xs := src.map (fun p => (p.1, (p.2 + h) % p.1))
  ((x + h) % t + t - conv xs t) % t * invMod (qs % t) t % t

/-- α = ⌈L / DNUM⌉. -/
def alphaOf (chain dnum : Nat) : Nat := ceilDiv chain dnum

/-- The rows of digit d at level ℓ: from d·α up to min((d + 1)·α, ℓ + 1). -/
def digitRows (alpha d level : Nat) : List Nat :=
  (List.range alpha).filterMap (fun i => if d * alpha + i < level + 1 then some (d * alpha + i) else none)

/-- One coefficient of MODUP (R136): `x` are the residues of the chain rows, `qc` their moduli, `qk` the special
moduli. -/
def modupAt (alpha d : Nat) (qc qk x : List Nat) : List Nat :=
  let rows := digitRows alpha d (qc.length - 1)
  let src := rows.map (fun r => (qc.getD r 1, x.getD r 0))
  (List.range qc.length).map (fun r =>
    if emptyList rows then 0
    else if rows.contains r then red (qc.getD r 1) (x.getD r 0) else conv src (qc.getD r 1)) ++
    qk.map (fun t => if emptyList rows then 0 else conv src t)

/-- One coefficient of a rounded drop (R137): the first `keep` rows remain, the rest are S. -/
def dropAt (keep : Nat) (qs x : List Nat) : List Nat :=
  let src := List.zip (qs.drop keep) (x.drop keep)
  (List.range keep).map (fun r => dropRound src (qs.getD r 1) (x.getD r 0))

/-- Rows turned into columns: column i holds word i of every row. -/
def columns (n : Nat) (rows : List (List Nat)) : List (List Nat) :=
  (List.range n).map (fun i => rows.map (fun r => r.getD i 0))

/-! ## mix (R238) -/

/-- The counter-based generator's mixing function (R238), on 64-bit values. -/
def mix64 (z : Nat) : Nat :=
  let m := 2 ^ 64
  let a := (z ^^^ z >>> 30) * 0xBF58476D1CE4E5B9 % m
  let b := (a ^^^ a >>> 27) * 0x94D049BB133111EB % m
  b ^^^ b >>> 31

end Sys2Proof.Machine
end

