-- ==== Sys2Proof/Machine/Crypto.lean ====
section
/-!
DEFINITION. The cryptographic functions the manual names by standard (Table SC.3): SHAKE256 (FIPS 202), SHA-384 and
SHA-256, HMAC and HKDF with SHA-384, ECDSA arithmetic on short Weierstrass curves (FIPS 186-5), and HSS/LMS verification
(RFC 8554). Words of 64 bits are Nat below 2^64.
-/
namespace Sys2Proof.Machine

/-! ## Keccak and SHAKE256 -/

/-- One step of the 8-bit register of FIPS 202 algorithm 5 whose low bit is rc(t). -/
def keccakLfsr (r : Nat) : Nat := if 128 ≤ r then (2 * r) ^^^ 0x171 else 2 * r

/-- The constant of a round, from the register as the round finds it, and the register after the round's seven steps:
bit 2^j − 1 of the constant is the register's low bit after j steps. -/
def keccakConst (r : Nat) : Nat × Nat :=
  [1, 2, 8, 128, 2 ^ 15, 2 ^ 31, 2 ^ 63].foldl (fun p place => (p.1 + p.2 % 2 * place, keccakLfsr p.2)) (0, r)

/-- The walk (x, y) → (y, 2x + 3y) from (1, 0): step t rotates its lane by (t + 1)(t + 2)/2. -/
def keccakWalk : Nat → Nat → Nat → Nat → List Nat → List Nat
  | 0, _, _, _, l => l
  | f + 1, t, x, y, l => keccakWalk f (t + 1) y ((2 * x + 3 * y) % 5) (l.set (x + 5 * y) ((t + 1) * (t + 2) / 2 % 64))

/-- Rotation of lane x + 5y (FIPS 202 algorithm 2). -/
def keccakRot : List Nat := keccakWalk 24 0 1 0 (List.replicate 25 0)

def rotl64 (v n : Nat) : Nat := (v <<< n ||| v >>> (64 - n)) % 2 ^ 64

/-- θ: each lane takes the parities of the column before it and, rotated by one, of the column after it. -/
def keccakTheta (st : List Nat) : List Nat :=
  let parity := fun x => (List.range 5).foldl (fun a y => a ^^^ st.getD (x % 5 + 5 * y) 0) 0
  let mix := (List.range 5).map (fun x => parity (x + 4) ^^^ rotl64 (parity (x + 1)) 1)
  st.mapIdx (fun i v => v ^^^ mix.getD (i % 5) 0)

/-- ρ and π: every lane rotated, then lane (x, y) taken from (x + 3y, x). -/
def keccakPlace (st : List Nat) : List Nat :=
  (List.range 25).map (fun i =>
    let j := (i % 5 + 3 * (i / 5)) % 5 + 5 * (i % 5)
    rotl64 (st.getD j 0) (keccakRot.getD j 0))

/-- χ along each row of five lanes. -/
def keccakChi (st : List Nat) : List Nat :=
  (List.range 25).map (fun i =>
    let lane := fun k => st.getD (i / 5 * 5 + (i + k) % 5) 0
    lane 0 ^^^ (lane 2 - (lane 1 &&& lane 2)))

/-- A round with its ι, and the constants' register after it. -/
def keccakRound (p : List Nat × Nat) : List Nat × Nat :=
  let c := keccakConst p.2
  let st := keccakChi (keccakPlace (keccakTheta p.1))
  (st.set 0 (st.getD 0 0 ^^^ c.1), c.2)

/-- Keccak-f[1600]: 24 rounds. -/
def keccakF (st : List Nat) : List Nat := (Nat.repeat keccakRound 24 (st, 1)).1

/-- The 64-bit lanes of bytes. -/
def lanes (n : Nat) (bs : List Byte) : List Nat := (List.range n).map (fun i => fld bs (8 * i) 8)

/-- One block of 136 bytes absorbed. -/
def absorb (st : List Nat) (block : List Byte) : List Nat :=
  keccakF (List.zipWith (fun a b => a ^^^ b) st (lanes 17 block ++ List.replicate 8 0))

def blocksOf (size : Nat) : Nat → List Byte → List (List Byte)
  | 0, _ => []
  | f + 1, bs => if emptyList bs then [] else bs.take size :: blocksOf size f (bs.drop size)

/-- The padding of SHAKE256: 0x1F, zeros, 0x80 in the last byte. -/
def shakePad (bs : List Byte) : List Byte :=
  let r := 136 - bs.length % 136
  if r = 1 then bs ++ [0x9F] else bs ++ [0x1F] ++ List.replicate (r - 2) 0 ++ [0x80]

def squeeze : Nat → List Nat → List Byte
  | 0, _ => []
  | k + 1, st => (st.take 17).flatMap (leBytes 8) ++ squeeze k (keccakF st)

/-- The first `n` bytes of SHAKE256. -/
def shake256 (bs : List Byte) (n : Nat) : List Byte :=
  let p := shakePad bs
  let st := (blocksOf 136 (p.length / 136 + 1) p).foldl absorb (List.replicate 25 0)
  (squeeze (ceilDiv n 136) st).take n

/-! ## SHA-2 -/

/-- Round constants of SHA-512 and SHA-384; their high halves are those of SHA-256. -/
def sha512K : List Nat :=
  [0x428A2F98D728AE22, 0x7137449123EF65CD, 0xB5C0FBCFEC4D3B2F, 0xE9B5DBA58189DBBC,
   0x3956C25BF348B538, 0x59F111F1B605D019, 0x923F82A4AF194F9B, 0xAB1C5ED5DA6D8118,
   0xD807AA98A3030242, 0x12835B0145706FBE, 0x243185BE4EE4B28C, 0x550C7DC3D5FFB4E2,
   0x72BE5D74F27B896F, 0x80DEB1FE3B1696B1, 0x9BDC06A725C71235, 0xC19BF174CF692694] ++
  [0xE49B69C19EF14AD2, 0xEFBE4786384F25E3, 0x0FC19DC68B8CD5B5, 0x240CA1CC77AC9C65,
   0x2DE92C6F592B0275, 0x4A7484AA6EA6E483, 0x5CB0A9DCBD41FBD4, 0x76F988DA831153B5,
   0x983E5152EE66DFAB, 0xA831C66D2DB43210, 0xB00327C898FB213F, 0xBF597FC7BEEF0EE4,
   0xC6E00BF33DA88FC2, 0xD5A79147930AA725, 0x06CA6351E003826F, 0x142929670A0E6E70] ++
  [0x27B70A8546D22FFC, 0x2E1B21385C26C926, 0x4D2C6DFC5AC42AED, 0x53380D139D95B3DF,
   0x650A73548BAF63DE, 0x766A0ABB3C77B2A8, 0x81C2C92E47EDAEE6, 0x92722C851482353B,
   0xA2BFE8A14CF10364, 0xA81A664BBC423001, 0xC24B8B70D0F89791, 0xC76C51A30654BE30,
   0xD192E819D6EF5218, 0xD69906245565A910, 0xF40E35855771202A, 0x106AA07032BBD1B8] ++
  [0x19A4C116B8D2D0C8, 0x1E376C085141AB53, 0x2748774CDF8EEB99, 0x34B0BCB5E19B48A8,
   0x391C0CB3C5C95A63, 0x4ED8AA4AE3418ACB, 0x5B9CCA4F7763E373, 0x682E6FF3D6B2B8A3,
   0x748F82EE5DEFB2FC, 0x78A5636F43172F60, 0x84C87814A1F0AB72, 0x8CC702081A6439EC,
   0x90BEFFFA23631E28, 0xA4506CEBDE82BDE9, 0xBEF9A3F7B2C67915, 0xC67178F2E372532B] ++
  [0xCA273ECEEA26619C, 0xD186B8C721C0C207, 0xEADA7DD6CDE0EB1E, 0xF57D4F7FEE6ED178,
   0x06F067AA72176FBA, 0x0A637DC5A2C898A6, 0x113F9804BEF90DAE, 0x1B710B35131C471B,
   0x28DB77F523047D84, 0x32CAAB7B40C72493, 0x3C9EBE0A15C9BEBC, 0x431D67C49C100D4C,
   0x4CC5D4BECB3E42B6, 0x597F299CFC657E2A, 0x5FCB6FAB3AD6FAEC, 0x6C44198C4A475817]

/-- Square-root fractions of the first sixteen primes: 0 to 7 start SHA-256 (high halves), 8 to 15 start SHA-384. -/
def sha2Iv : List Nat :=
  [0x6A09E667F3BCC908, 0xBB67AE8584CAA73B, 0x3C6EF372FE94F82B, 0xA54FF53A5F1D36F1,
   0x510E527FADE682D1, 0x9B05688C2B3E6C1F, 0x1F83D9ABFB41BD6B, 0x5BE0CD19137E2179,
   0xCBBB9D5DC1059ED8, 0x629A292A367CD507, 0x9159015A3070DD17, 0x152FECD8F70E5939,
   0x67332667FFC00B31, 0x8EB44A8768581511, 0xDB0C2E0D64F98FA7, 0x47B5481DBEFA4FA4]

/-- A rotation to the right of a word of w bits. -/
def rotr (w v n : Nat) : Nat := (v >>> n ||| v <<< (w - n)) % 2 ^ w

/-- One SHA-2 variant: word width, rounds, and the rotation amounts of the two Σ and the two σ (last is a shift). -/
structure Sha2 where
  w : Nat
  rounds : Nat
  s0 : List Nat
  s1 : List Nat
  g0 : List Nat
  g1 : List Nat

def Sha2.sigma (h : Sha2) (r : List Nat) (x : Nat) : Nat :=
  rotr h.w x (r.getD 0 0) ^^^ rotr h.w x (r.getD 1 0) ^^^ rotr h.w x (r.getD 2 0)

def Sha2.gamma (h : Sha2) (r : List Nat) (x : Nat) : Nat :=
  rotr h.w x (r.getD 0 0) ^^^ rotr h.w x (r.getD 1 0) ^^^ x >>> r.getD 2 0

def Sha2.expand (h : Sha2) : Nat → List Nat → List Nat
  | 0, _ => []
  | n + 1, w =>
    let t := (h.gamma h.g1 (w.getD 14 0) + w.getD 9 0 + h.gamma h.g0 (w.getD 1 0) + w.getD 0 0) % 2 ^ h.w
    w.getD 0 0 :: h.expand n (w.drop 1 ++ [t])

def Sha2.round (h : Sha2) (v : List Nat) (kw : Nat) : List Nat :=
  let a := v.getD 0 0
  let b := v.getD 1 0
  let c := v.getD 2 0
  let e := v.getD 4 0
  let f := v.getD 5 0
  let g := v.getD 6 0
  let ch := (e &&& f) ^^^ ((2 ^ h.w - 1 - e) &&& g)
  let maj := (a &&& b) ^^^ (a &&& c) ^^^ (b &&& c)
  let t1 := v.getD 7 0 + h.sigma h.s1 e + ch + kw
  let t2 := h.sigma h.s0 a + maj
  [(t1 + t2) % 2 ^ h.w, a, b, c, (v.getD 3 0 + t1) % 2 ^ h.w, e, f, g]

/-- One block. -/
def Sha2.block (h : Sha2) (st : List Nat) (b : List Byte) : List Nat :=
  let w := (List.range 16).map (fun i => beNat (slice b (i * (h.w / 8)) (h.w / 8)))
  let ws := h.expand h.rounds w
  let ks := (sha512K.take h.rounds).map (fun k => k >>> (64 - h.w))
  let v := (List.zipWith (· + ·) ws ks).foldl h.round st
  List.zipWith (fun a b => (a + b) % 2 ^ h.w) st v

/-- Padding: a 1 bit, zeros, the bit length in two words. -/
def Sha2.pad (h : Sha2) (bs : List Byte) : List Byte :=
  let size := 2 * h.w
  let len := h.w / 4
  let z := (2 * size - 1 - len - bs.length % size) % size
  bs ++ [0x80] ++ List.replicate z 0 ++ beBytes len (8 * bs.length)

def Sha2.hash (h : Sha2) (iv : List Nat) (outWords : Nat) (bs : List Byte) : List Byte :=
  let p := h.pad bs
  let size := 2 * h.w
  (((blocksOf size (p.length / size + 1) p).foldl h.block iv).take outWords).flatMap (beBytes (h.w / 8))

def sha2Wide : Sha2 :=
  { w := 64, rounds := 80, s0 := [28, 34, 39], s1 := [14, 18, 41], g0 := [1, 8, 7], g1 := [19, 61, 6] }

def sha2Narrow : Sha2 :=
  { w := 32, rounds := 64, s0 := [2, 13, 22], s1 := [6, 11, 25], g0 := [7, 18, 3], g1 := [17, 19, 10] }

def sha384 (bs : List Byte) : List Byte := sha2Wide.hash (sha2Iv.drop 8) 6 bs
def sha256 (bs : List Byte) : List Byte := sha2Narrow.hash ((sha2Iv.take 8).map (fun v => v >>> 32)) 8 bs

/-- HMAC-SHA-384; the block is 128 bytes. -/
def hmac384 (key msg : List Byte) : List Byte :=
  let k := if key.length > 128 then sha384 key else key
  let k := k ++ List.replicate (128 - k.length) 0
  sha384 (k.map (fun b => b ^^^ 0x5C) ++ sha384 (k.map (fun b => b ^^^ 0x36) ++ msg))

def hkdfGo (prk info : List Byte) : Nat → Nat → List Byte → List Byte
  | 0, _, _ => []
  | f + 1, i, prev =>
    let t := hmac384 prk (prev ++ info ++ [BitVec.ofNat 8 i])
    t ++ hkdfGo prk info f (i + 1) t

/-- HKDF-SHA-384 with an empty salt (DESIGN CHOICE, log 45): `n` bytes. -/
def hkdf384 (ikm info : List Byte) (n : Nat) : List Byte :=
  (hkdfGo (hmac384 (List.replicate 48 0) ikm) info (ceilDiv n 48) 1 []).take n

/-! ## Curves -/

/-- Whether a point with reduced coordinates lies on the curve. -/
def Curve.on (c : Curve) (x y : Nat) : Bool :=
  decide (x < c.p) && decide (y < c.p) && y * y % c.p == (x * x * x + c.a * x + c.b) % c.p

/-- The inverse in a curve's field or scalar ring; a free value where a composite modulus has none (DESIGN CHOICE, log 5). -/
def curveInv (x m : Nat) : Nat := (invMod? x m).getD (Config.openInverse m (x % m) % m)

/-- The chord or tangent of slope l through (x1, y1) and (x2, _). -/
def Curve.third (c : Curve) (l x1 y1 x2 : Nat) : Point :=
  let x3 := (l * l + 2 * c.p - x1 % c.p - x2 % c.p) % c.p
  some (x3, (l * (x1 + c.p - x3) + c.p - y1 % c.p) % c.p)

/-- P + Q. -/
def Curve.add (c : Curve) : Point → Point → Point
  | none, q => q
  | p, none => p
  | some (x1, y1), some (x2, y2) =>
    if x1 = x2 then
      if (y1 + y2) % c.p = 0 then none
      else c.third ((3 * x1 * x1 + c.a) * curveInv (2 * y1) c.p % c.p) x1 y1 x2
    else c.third ((y2 + c.p - y1) * curveInv (x2 + c.p - x1) c.p % c.p) x1 y1 x2

def Curve.mulGo (c : Curve) : Nat → Nat → Point → Point → Point
  | 0, _, _, acc => acc
  | f + 1, k, p, acc => if k = 0 then acc else c.mulGo f (k / 2) (c.add p p) (if k % 2 = 1 then c.add acc p else acc)

/-- k·P. -/
def Curve.mul (c : Curve) (k : Nat) (p : Point) : Point := c.mulGo (Nat.log2 k + 1) k p none

/-- P-384 (curve slot 0, R506). -/
def p384 : Curve :=
  { p := Config.p384P, a := Config.p384A, b := Config.p384B, gx := Config.p384Gx, gy := Config.p384Gy,
    n := Config.p384N }

def Curve.g (c : Curve) : Point := some (c.gx, c.gy)

/-- Bit length. -/
def bitLength (v : Nat) : Nat := if v = 0 then 0 else Nat.log2 v + 1

/-- The digest as an integer of at most the bit length of n (FIPS 186-5). -/
def digestInt (c : Curve) (d : List Byte) : Nat :=
  let e := beNat d
  if 8 * d.length > bitLength c.n then e >>> (8 * d.length - bitLength c.n) else e

/-- ECDSA verification (FIPS 186-5) of r, s over a digest integer e with public point q. -/
def ecdsaOk (c : Curve) (e r s : Nat) (q : Point) : Bool :=
  match q with
  | none => false
  | some (qx, qy) =>
    if r = 0 ∨ s = 0 ∨ c.n ≤ r ∨ c.n ≤ s ∨ c.on qx qy = false then false
    else
      let w := curveInv s c.n
      match c.add (c.mul (e * w % c.n) c.g) (c.mul (r * w % c.n) q) with
      | none => false
      | some (x, _) => x % c.n == r

/-- The signature of digest e with key d and nonce k (FIPS 186-5); none where it must be retried (Table SE.11). -/
def Curve.sign (c : Curve) (e d k : Nat) : Option (Nat × Nat) :=
  match c.mul (k % c.n) c.g with
  | none => none
  | some (x, _) =>
    let r := x % c.n
    let z := curveInv (k % c.n) c.n * (e + r * d) % c.n
    if k % c.n = 0 ∨ r = 0 ∨ z = 0 then none else some (r, z)

/-- A P-384 point from 96 bytes x, then y, big-endian. -/
def pointOfBytes (b : List Byte) : Point := some (beNat (slice b 0 48), beNat (slice b 48 48))

/-- ECDSA P-384 with SHA-384 over a message; key and signature of 96 bytes each (R493, R499). -/
def ecdsaP384 (pub msg sig : List Byte) : Bool :=
  ecdsaOk p384 (digestInt p384 (sha384 msg)) (beNat (slice sig 0 48)) (beNat (slice sig 48 48)) (pointOfBytes pub)

/-! ## HSS / LMS (RFC 8554): L = 1, LMS_SHA256_M32_H15, LMOTS_SHA256_N32_W8 -/

def lmsChain (pre : List Byte) : Nat → Nat → List Byte → List Byte
  | 0, _, t => t
  | f + 1, j, t => lmsChain pre f (j + 1) (sha256 (pre ++ beBytes 1 j ++ t))

def lmsTree (ident : List Byte) : Nat → Nat → List (List Byte) → List Byte → List Byte
  | 0, _, _, t => t
  | f + 1, node, path, t =>
    if node ≤ 1 then t
    else
      let sib := path.headD []
      let pre := ident ++ beBytes 4 (node / 2) ++ beBytes 2 0x8383
      lmsTree ident f (node / 2) (path.drop 1) (sha256 (if node % 2 = 1 then pre ++ sib ++ t else pre ++ t ++ sib))

/-- Verification of a 1,616-byte HSS signature under a 60-byte HSS public key. -/
def lmsOk (pub msg sig : List Byte) : Bool :=
  let ident := slice pub 12 16
  let root := slice pub 28 32
  let q := beNat (slice sig 4 4)
  let c := slice sig 12 32
  let qb := beBytes 4 q
  let digest := sha256 (ident ++ qb ++ beBytes 2 0x8181 ++ c ++ msg)
  let cksm := total (digest.map (fun b => 255 - b.toNat))
  let coefs := (digest ++ beBytes 2 cksm).map (fun b => b.toNat)
  let z := (List.range 34).flatMap (fun i =>
    let a := coefs.getD i 0
    lmsChain (ident ++ qb ++ beBytes 2 i) (255 - a) a (slice sig (44 + 32 * i) 32))
  let kc := sha256 (ident ++ qb ++ beBytes 2 0x8080 ++ z)
  let leaf := sha256 (ident ++ beBytes 4 (2 ^ 15 + q) ++ beBytes 2 0x8282 ++ kc)
  let path := (List.range 15).map (fun i => slice sig (1136 + 32 * i) 32)
  beNat (slice pub 0 4) == 1 && beNat (slice pub 4 4) == 7 && beNat (slice pub 8 4) == 4 &&
    beNat (slice sig 0 4) == 0 && beNat (slice sig 8 4) == 4 && beNat (slice sig 1132 4) == 7 && decide (q < 2 ^ 15) &&
    lmsTree ident 16 (2 ^ 15 + q) path leaf == root

end Sys2Proof.Machine
end

