-- ==== Sys2Proof/Machine/Bodkin.lean ====
section
/-!
DEFINITION. The Bodkin, the big-number engine (15_trust, R505-R508): each command fixes its result, status and duration
at its start; BODKIN_DONE ends it.
-/
namespace Sys2Proof.Machine

/-! ## Durations (R507), in hub cycles of 1 ns -/

def bodkinMm (l : Nat) : Nat := l * l + 2 * l + 10
def bodkinAs (l : Nat) : Nat := l + 4

/-- ℓ of a bit length. -/
def bodkinLimbs (n : Nat) : Nat := ceilDiv n 64

/-- t_e of a curve. -/
def Curve.te (c : Curve) : Nat :=
  let b := bitLength c.p
  let l := bodkinLimbs b
  40 + bitLength c.n * (13 * bodkinMm l + 8 * bodkinAs l) + (2 * b + 9) * bodkinMm l

/-! ## Starting an operation -/

/-- A value in ℓ little-endian limbs. -/
def limbsOf : Nat → Nat → List DWord
  | 0, _ => []
  | l + 1, v => BitVec.ofNat 64 v :: limbsOf l (v / 2 ^ 64)

/-- The operand memory, 64 KiB, as the DMA from Hoop SRAM fills it for a command: operands of `l` limbs each; a point is its
coordinates and its infinity flag (R505; DESIGN CHOICE, log 61). -/
def operandMem (l : Nat) (vs : List Nat) : List DWord := (vs.flatMap (limbsOf l)).take 8192

/-- An operation started; while one runs, or in reset, the command changes nothing (DESIGN CHOICE, log 61). -/
def State.bodkinRun (s : State) (l : Nat) (vs : List Nat) (result : List Nat) (st : BodkinStatus) (cycles : Nat)
    (loads : Option (Nat × Curve)) : Out :=
  if s.bodkin.op.isSome || s.pins.mreset || !s.pins.allGood then .next s
  else .next { s with bodkin := { s.bodkin with
    mem := operandMem l vs,
    op := some { limbs := l, result := result, status := st, cycles := cycles, since := s.clock, loads := loads } } }

/-- An operation on operands out of range: no computation, 20 cycles (Table SE.11; DESIGN CHOICE, log 61). -/
def State.bodkinBad (s : State) : Out := s.bodkinRun 0 [] [] .badOperand 20 none

/-! ## Modular operations -/

/-- A modular operation of M_BITS with modulus m, after the reduction of its operands (Table SE.11). -/
def State.bodkinMod (s : State) (mBits cycles m : Nat) (vs : List Nat) (f : Nat → List Nat → Nat × BodkinStatus) : Out :=
  if 4096 < mBits then s.bodkinBad
  else
    let l := bodkinLimbs mBits
    let m := m % 2 ^ (64 * l)
    let r := if m % 2 = 0 ∨ m < 3 then (0, BodkinStatus.badOperand) else f m (vs.map (fun v => v % 2 ^ (64 * l) % m))
    s.bodkinRun l (vs ++ [m]) [r.1] r.2 cycles none

/-- MODADD. -/
def execModadd (mBits x y m : Nat) (s : State) : Out :=
  s.bodkinMod mBits (20 + bodkinAs (bodkinLimbs mBits)) m [x, y] (fun m v => ((v.getD 0 0 + v.getD 1 0) % m, .ok))

/-- MODSUB. -/
def execModsub (mBits x y m : Nat) (s : State) : Out :=
  s.bodkinMod mBits (20 + bodkinAs (bodkinLimbs mBits)) m [x, y] (fun m v => ((v.getD 0 0 + m - v.getD 1 0) % m, .ok))

/-- MODMUL. -/
def execModmul (mBits x y m : Nat) (s : State) : Out :=
  s.bodkinMod mBits (20 + bodkinMm (bodkinLimbs mBits)) m [x, y] (fun m v => (v.getD 0 0 * v.getD 1 0 % m, .ok))

/-- MODEXP with e of E_BITS bits. -/
def execModexp (mBits eBits x e m : Nat) (s : State) : Out :=
  if eBits = 0 ∨ 4096 < eBits then s.bodkinBad
  else s.bodkinMod mBits (20 + (2 * eBits + 2) * bodkinMm (bodkinLimbs mBits)) m [x]
    (fun m v => (powMod (v.getD 0 0) (e % 2 ^ eBits) m, .ok))

/-- MODINV_P: x^(m − 2). -/
def execModinvP (mBits x m : Nat) (s : State) : Out :=
  s.bodkinMod mBits (20 + (2 * mBits + 2) * bodkinMm (bodkinLimbs mBits)) m [x]
    (fun m v => if v.getD 0 0 = 0 then (0, .noInverse) else (powMod (v.getD 0 0) (m - 2) m, .ok))

/-! ## Curve operations -/

/-- The curve of a slot; none for an invalid one (R506). -/
def State.curve (s : State) (slot : Nat) : Option Curve :=
  if slot = 0 then some p384 else if slot < 4 then Tab.at s.bodkin.curves none (slot - 1) else none

/-- A point's result: coordinates and infinity flag. -/
def pointResult (p : Point) : List Nat × BodkinStatus :=
  match p with
  | some (x, y) => ([x, y, 0], .ok)
  | none => ([0, 0, 1], .infinity)

/-- The x-coordinate, 0 at infinity. -/
def xResult (p : Point) : List Nat × BodkinStatus :=
  match p with
  | some (x, _) => ([x], .ok)
  | none => ([0], .infinity)

/-- An input point off the curve. -/
def Curve.off (c : Curve) (p : Point) : Bool := match p with | some (x, y) => !c.on x y | none => false

/-- A point as operands: its coordinates and its infinity flag. -/
def pointWords (p : Point) : List Nat := match p with | some (x, y) => [x, y, 0] | none => [0, 0, 1]

/-- A curve operation with its input points: NOT_ON_CURVE first, then infinity (Table SE.11). -/
def State.bodkinCurve (s : State) (slot : Nat) (scalars : List Nat) (points : List Point) (zero : List Nat)
    (cycles : Curve → Nat) (atInf : List Nat) (f : Curve → List Nat × BodkinStatus) : Out :=
  match s.curve slot with
  | none => s.bodkinBad
  | some c =>
    let r := if points.any c.off then (zero, BodkinStatus.notOnCurve)
      else if points.any (·.isNone) then (atInf, BodkinStatus.infinity) else f c
    s.bodkinRun (bodkinLimbs (bitLength c.p)) (scalars ++ points.flatMap pointWords) r.1 r.2 (cycles c) none

/-- ECMULG: k·G. -/
def execEcmulg (slot k : Nat) (s : State) : Out :=
  s.bodkinCurve slot [k] [] [0, 0, 0] Curve.te [] (fun c => pointResult (c.mul (k % c.n) c.g))

/-- ECMUL: k·P. -/
def execEcmul (slot k : Nat) (p : Point) (s : State) : Out :=
  s.bodkinCurve slot [k] [p] [0, 0, 0] Curve.te [0, 0, 1] (fun c => pointResult (c.mul (k % c.n) p))

/-- ECDH: the x-coordinate of k·Q. -/
def execEcdh (slot k : Nat) (q : Point) (s : State) : Out :=
  s.bodkinCurve slot [k] [q] [0] Curve.te [0] (fun c => xResult (c.mul (k % c.n) q))

/-- ECADD: P + Q (DESIGN CHOICE, log 61). -/
def execEcadd (slot : Nat) (p q : Point) (s : State) : Out :=
  s.bodkinCurve slot [] [p, q] [0, 0, 0]
    (fun c =>
      let b := bitLength c.p
      20 + 8 * bodkinAs (bodkinLimbs b) + (2 * b + 18) * bodkinMm (bodkinLimbs b))
    [0, 0, 1] (fun c => pointResult (c.add p q))

/-- Cycles of the scalar part of ECDSA. -/
def Curve.scalarCycles (c : Curve) : Nat := (2 * bitLength c.n + 6) * bodkinMm (bodkinLimbs (bitLength c.p))

/-- ECDSA_SIGN. -/
def execEcdsaSign (slot e d k : Nat) (s : State) : Out :=
  s.bodkinCurve slot [e, d, k] [] [] (fun c => 60 + c.te + c.scalarCycles) []
    (fun c => match c.sign e d k with | some p => ([p.1, p.2], .ok) | none => ([0, 0], .retry))

/-- ECDSA_VERIFY: ACCEPT or REJECT. -/
def execEcdsaVerify (slot e r z : Nat) (q : Point) (s : State) : Out :=
  s.bodkinCurve slot ([e, r, z] ++ pointWords q) [] [] (fun c => 80 + 2 * c.te + c.scalarCycles) []
    (fun c => if ecdsaOk c e r z q then ([1], .ok) else ([0], .reject))

/-! ## CURVE_LOAD -/

/-- The first failing check of Table SE.9; 0 where all pass. -/
def Curve.loadCode (c : Curve) : Nat :=
  let b := bitLength c.p
  let dist := ((c.n : Int) - ((c.p : Int) + 1)).natAbs
  if b < 160 ∨ 521 < b then 1
  else if c.p % 2 = 0 then 2
  else if c.p ≤ c.a ∨ c.p ≤ c.b then 3
  else if (4 * c.a * c.a * c.a + 27 * c.b * c.b) % c.p = 0 then 4
  else if !c.on c.gx c.gy then 5
  else if c.n % 2 = 0 ∨ 4 * c.p < dist * dist then 6
  else if c.mul c.n c.g ≠ none then 7
  else 0

/-- CURVE_LOAD into slots 1 to 3; slot 0 is fixed (DESIGN CHOICE, log 61). -/
def execCurveLoad (slot p a b gx gy n : Nat) (s : State) : Out :=
  let c : Curve := { p := p, a := a, b := b, gx := gx, gy := gy, n := n }
  if slot = 0 ∨ 3 < slot then s.bodkinBad
  else
    let code := c.loadCode
    s.bodkinRun (bodkinLimbs (bitLength p)) [p, a, b, gx, gy, n] [] (if code = 0 then .ok else .curveCode code)
      (200 + c.te) (if code = 0 then some (slot - 1, c) else none)

/-- BODKIN_DONE: the operation's time has passed; its result stands in the operand memory after the operands, and the DMA empties it
into Hoop SRAM (R505; DESIGN CHOICE, log 61). -/
def execBodkinDone (s : State) : Out :=
  match s.bodkin.op with
  | none => .next s
  | some o =>
    let s := ((s.until (o.since + o.cycles)).count .bodkinOps 0 1).count .bodkinBusyCycles 0 o.cycles
    .next { s with bodkin := { s.bodkin with
      mem := (s.bodkin.mem ++ operandMem o.limbs o.result).take 8192, op := none, result := o.result, status := o.status,
      curves := match o.loads with | some p => Tab.put s.bodkin.curves p.1 (some p.2) | none => s.bodkin.curves } }

end Sys2Proof.Machine
end

