-- ==== Sys2Proof/Machine/Operands.lean ====
section
/-!
DEFINITION. Operand forms (09_macro_operations): macro-operation words (R270-R275), layout descriptors and their creation
(R276-R288), the placement of elements and records (R277-R282), and the views a tile has of its operands.
-/
namespace Sys2Proof.Machine

/-! ## Macro-operation words -/

/-- An operand reference (R271). -/
def Opnd.parse (v : Nat) : Opnd := { desc := bits v 11 0, off := bits v 31 12 }

/-- The reference that names no operand. -/
def Opnd.none : Opnd := { desc := 0xFFF, off := 0 }

def Opnd.isNone (o : Opnd) : Bool := o.desc == 0xFFF

/-- A macro-operation word (Table OP.1). -/
def MopWord.parse (b : List Byte) : MopWord :=
  let w0 := fld b 0 4
  let w1 := fld b 4 4
  { opcode := bits w0 11 0, engine := bits w0 15 12, issue := bits w0 27 16, chain := bits w0 30 28,
    cstage := bits w1 1 0, pset := bits w1 7 2, hold := bits w1 19 8, o0 := Opnd.parse (fld b 8 4),
    o1 := Opnd.parse (fld b 12 4), o2 := Opnd.parse (fld b 16 4), o3 := Opnd.parse (fld b 20 4), imm := fld b 24 8 }

/-- The four operand references in order. -/
def MopWord.opnds (w : MopWord) : List Opnd := [w.o0, w.o1, w.o2, w.o3]

/-- The family index of Table CT.5. -/
def MopWord.family (w : MopWord) : Nat := w.opcode - 0x100

/-- Family indices by name (Tables CT.5 and OP.3). -/
abbrev Fam.ntt := 0
abbrev Fam.intt := 1
abbrev Fam.auto := 2
abbrev Fam.extract := 3
abbrev Fam.modup := 4
abbrev Fam.moddown := 5
abbrev Fam.rescale := 6
abbrev Fam.ksw := 7
abbrev Fam.hmul := 8
abbrev Fam.pmul := 9
abbrev Fam.add := 10
abbrev Fam.sub := 11
abbrev Fam.neg := 12
abbrev Fam.cmul := 13
abbrev Fam.vprog := 14
abbrev Fam.vcvt := 15
abbrev Fam.mxp := 16
abbrev Fam.pbs := 17
abbrev Fam.pack := 18
abbrev Fam.load := 19
abbrev Fam.store := 20
abbrev Fam.gather := 21
abbrev Fam.scatter := 22
abbrev Fam.send := 23
abbrev Fam.recv := 24
abbrev Fam.win := 25
abbrev Fam.bar := 26
abbrev Fam.chk := 27
abbrev Fam.nop := 28

/-- ENGINE of each family (Table OP.3); none for an unassigned opcode. -/
def engineCode (fam : Nat) : Option Nat :=
  [0, 0, 1, 1, 2, 2, 2, 9, 3, 3, 3, 3, 3, 3, 3, 3, 4, 10, 2, 6, 6, 6, 6, 7, 7, 8, 8, 6, 8][fam]?

/-- An opcode is assigned (R273). -/
def MopWord.assigned (w : MopWord) : Bool := decide (0x100 ≤ w.opcode) && decide (w.opcode ≤ 0x11C)

/-- Immediate fields (Table OP.4). -/
def MopWord.immBits (w : MopWord) (hi lo : Nat) : Nat := bits w.imm hi lo
def MopWord.queue (w : MopWord) : Nat := w.immBits 2 0
def MopWord.peer (w : MopWord) : Nat := w.immBits 10 3

/-- Domains (Table CT.1). -/
abbrev Dom.rlwe := 1
abbrev Dom.lwe := 2
abbrev Dom.ggsw := 3
abbrev Dom.plain := 4

/-- What an operand position takes (Table OP.3). -/
inductive Position where
  | absent
  | untyped
  | index
  /-- a record of one of these domains -/
  | typed (domains : List Nat)
  /-- any domain, or untyped -/
  | any
  /-- the position a result is written to, with a record -/
  | result
deriving DecidableEq, Repr

/-- The four positions of an opcode under its immediates (Table OP.3). -/
def MopWord.positions (w : MopWord) : List Position :=
  let r := [Dom.rlwe]
  let rp := [Dom.rlwe, Dom.plain]
  let rl := [Dom.rlwe, Dom.lwe]
  match w.family with
  | 0 => [.typed rp, .absent, .result, .absent]
  | 1 => [.typed rp, .absent, .result, .absent]
  | 2 => if w.immBits 1 0 = 2 then [.typed [Dom.rlwe, Dom.plain, Dom.lwe], .index, .result, .absent]
         else [.typed rp, .absent, .result, .absent]
  | 3 => [.typed r, .absent, .result, .absent]
  | 4 => [.typed r, .absent, .result, .absent]
  | 5 => [.typed r, .absent, .result, .absent]
  | 6 => [.typed r, .absent, .result, .absent]
  | 7 => [.typed (if w.immBits 1 0 = 3 then [Dom.lwe] else r), .untyped, .result, .untyped]
  | 8 => [.typed r, .typed r, .result, .absent]
  | 9 => [.typed r, .typed [Dom.plain], .result, .absent]
  | 10 => [.typed rl, .typed [Dom.rlwe, Dom.lwe, Dom.plain], .result, .absent]
  | 11 => [.typed rl, .typed [Dom.rlwe, Dom.lwe, Dom.plain], .result, .absent]
  | 12 => [.typed rl, .absent, .result, .absent]
  | 13 => [.typed rl, .untyped, .result, .absent]
  | 14 => [.any, .any, .any, .any]
  | 15 => [.typed [Dom.plain], .absent, .result, .absent]
  | 16 => [if w.immBits 1 0 = 2 then .absent else .typed (if w.immBits 1 0 = 0 then [Dom.lwe] else [Dom.plain]),
           .typed [Dom.plain], .result, .untyped]
  | 17 => [.typed [Dom.lwe], .untyped, .result, .untyped]
  | 18 => [.typed (if w.immBits 0 0 = 0 then r else [Dom.lwe]), .absent, .result, .absent]
  | 19 => [.any, .absent, .any, .absent]
  | 20 => [.any, .absent, .any, .absent]
  | 21 => [.any, .index, .any, .absent]
  | 22 => [.any, .index, .any, .absent]
  | 23 => [.any, .absent, .absent, .absent]
  | 24 => [.absent, .absent, .any, .absent]
  | 25 => [.untyped, .untyped, .absent, .absent]
  | 26 => [.absent, .absent, .absent, .absent]
  | 27 => [.any, .absent, .untyped, .absent]
  | _ => [.absent, .absent, .absent, .absent]

/-- The opcodes of Table OP.4 that use the PSET field. -/
def MopWord.usesPset (w : MopWord) : Bool := [2, 3, 4, 7, 15, 16, 17, 18].contains w.family

/-- The positions an opcode writes: OPND2, and the workspace of KSW and PBS (R182). -/
def MopWord.writes (w : MopWord) : List Nat :=
  match w.family with
  | 7 => [2, 3]
  | 17 => [2, 3]
  | 23 => []
  | 25 => []
  | _ => [2]

/-! ## Dimensions (R277) -/

/-- Block size: 0 means ⌈EXTENT/PARTS⌉. -/
def Dim.blockSize (d : Dim) : Nat := if d.block = 0 then ceilDiv d.extent d.parts else d.block

/-- The part that holds index i. -/
def Dim.part (d : Dim) (i : Nat) : Nat := i / d.blockSize % d.parts

/-- The local index of index i. -/
def Dim.locOf (d : Dim) (i : Nat) : Nat := i / (d.blockSize * d.parts) * d.blockSize + i % d.blockSize

/-- How many indices lie in part p. -/
def Dim.localExtent (d : Dim) (p : Nat) : Nat :=
  let b := d.blockSize
  d.extent / (b * d.parts) * b + min b (d.extent % (b * d.parts) - p * b)

/-- The largest local extent over all parts is that of part 0. -/
def Dim.maxExtent (d : Dim) : Nat := d.localExtent 0

def Dim.sharded (d : Dim) : Bool := d.axis != 0

/-! ## Descriptors -/

/-- Number of elements. -/
def Desc.count (d : Desc) : Nat := product (d.dims.map (·.extent))

/-- The extent of a role: the product over its dimensions; 1 when absent (R283; DESIGN CHOICE, log 41). -/
def Desc.roleExtent (d : Desc) (role : Nat) : Nat :=
  product ((d.dims.filter (fun x => x.role == role)).map (·.extent))

def Desc.hasRole (d : Desc) (role : Nat) : Bool := d.dims.any (fun x => x.role == role)

/-- Roles (Table OP.6). -/
abbrev Role.word := 1
abbrev Role.row := 2
abbrev Role.comp := 3
abbrev Role.batch := 4

def unlinearGo : List Dim → Nat → List Nat
  | [], _ => []
  | d :: ds, i => i % d.extent :: unlinearGo ds (i / d.extent)

/-- The indices of the element of global linear index i, dimension 0 fastest (DESIGN CHOICE, log 41). -/
def Desc.unlinear (d : Desc) (i : Nat) : List Nat := unlinearGo d.dims i

/-- Indices role by role; an index beyond a dimension's extent wraps (DESIGN CHOICE, log 41). -/
def placeGo : List Dim → Nat → Nat → Nat → Nat → List Nat
  | [], _, _, _, _ => []
  | d :: ds, w, r, c, b =>
    if d.role = Role.word then w % d.extent :: placeGo ds (w / d.extent) r c b
    else if d.role = Role.row then r % d.extent :: placeGo ds w (r / d.extent) c b
    else if d.role = Role.comp then c % d.extent :: placeGo ds w r (c / d.extent) b
    else if d.role = Role.batch then b % d.extent :: placeGo ds w r c (b / d.extent)
    else 0 :: placeGo ds w r c b

/-- The indices of word w of row r of component c of batch combination b; a dimension of role NONE is taken at
index 0 (DESIGN CHOICE, log 41). -/
def Desc.place (d : Desc) (w r c b : Nat) : List Nat := placeGo d.dims w r c b

def shardGo : List Dim → List Nat → Nat
  | d :: ds, i :: is => if d.sharded then d.part i + d.parts * shardGo ds is else shardGo ds is
  | _, _ => 0

/-- The shard that holds an element: the parts of the sharded dimensions in mixed radix, higher dimensions more
significant (R278, R279). -/
def Desc.shardOf (d : Desc) (ix : List Nat) : Nat := shardGo d.dims ix

def digitsGo : List Dim → Nat → List Nat
  | [], _ => []
  | d :: ds, j => if d.sharded then j % d.parts :: digitsGo ds (j / d.parts) else 0 :: digitsGo ds j

/-- The part of each dimension in shard j; 0 for an unsharded dimension. -/
def Desc.digits (d : Desc) (j : Nat) : List Nat := digitsGo d.dims j

/-- Number of shards. -/
def Desc.shards (d : Desc) : Nat := product ((d.dims.filter Dim.sharded).map (·.parts))

/-- Whether the descriptor is sharded over tiles. -/
def Desc.tileSharded (d : Desc) : Bool := d.space == 0 && d.dims.any (fun x => x.axis == 1)

/-- The shard of a tile; none when it holds none. A tile-local or DEVICE or PRICKING descriptor has shard 0. -/
def Desc.tileShard (d : Desc) (t : Nat) : Option Nat :=
  if d.tileSharded then (d.members.take d.shards).findIdx? (· == t) else some 0

/-- Base of a shard (R278, R279). -/
def Desc.shardBase (d : Desc) (t j : Nat) : Nat :=
  if d.space = 0 then scratchAddr (if d.tileSharded then d.members.getD j 0xFFFF else t) d.base
  else if d.space = 1 then d.base + j * d.pitch
  else d.base

/-- Local indices of an element. -/
def Desc.locals (d : Desc) (ix : List Nat) : List Nat := List.zipWith Dim.locOf d.dims ix

/-- Σ l_d·STRIDE_d over dimensions from `k` up. -/
def strideSum (dims : List Dim) (ls : List Nat) : Nat := total (List.zipWith (fun d l => l * d.stride) dims ls)

/-- Largest local extents. -/
def Desc.maxExtents (d : Desc) : List Nat := d.dims.map Dim.maxExtent

/-- Offset of an element from its shard base in bits (R280, R286). -/
def Desc.offsetBits (d : Desc) (ls : List Nat) : Nat :=
  if d.blocked then
    let s := d.elemBits / 8
    let t0 := 64 / s
    let l0 := ls.getD 0 0
    let l1 := ls.getD 1 0
    let n0 := ceilDiv (d.maxExtents.getD 0 1) t0
    8 * (4096 * (l0 / t0 + n0 * (l1 / 64)) + 64 * (l1 % 64) + s * (l0 % t0) +
      strideSum (d.dims.drop 2) (ls.drop 2))
  else if d.elemBits < 8 then ls.getD 0 0 * d.elemBits + 8 * strideSum (d.dims.drop 1) (ls.drop 1)
  else 8 * strideSum d.dims ls

/-- Bytes of a shard whose local extents are `es`: from its base through its highest byte (R285). -/
def Desc.spanOf (d : Desc) (es : List Nat) : Nat :=
  if es.any (· == 0) then 0
  else if d.blocked then
    let s := d.elemBits / 8
    let n0 := ceilDiv (d.maxExtents.getD 0 1) (64 / s)
    let n1 := ceilDiv (d.maxExtents.getD 1 1) 64
    4096 * n0 * n1 + strideSum (d.dims.drop 2) ((es.drop 2).map (· - 1))
  else if d.elemBits < 8 then
    strideSum (d.dims.drop 1) ((es.drop 1).map (· - 1)) + ceilDiv (es.getD 0 0 * d.elemBits) 8
  else strideSum d.dims (es.map (· - 1)) + d.elemBits / 8

/-- Local extents of shard j. -/
def Desc.extentsOf (d : Desc) (j : Nat) : List Nat := List.zipWith Dim.localExtent d.dims (d.digits j)

/-- Dimensions of a role with the indices given for them. -/
def Desc.batchDims (d : Desc) : List Dim := d.dims.filter (fun x => x.role == Role.batch)

/-- Number of batch combinations. -/
def Desc.batches (d : Desc) : Nat := d.roleExtent Role.batch

def localBatchGo : List Dim → Nat → Nat
  | [], _ => 0
  | d :: ds, b =>
    let i := b % d.extent
    d.locOf i + d.localExtent (d.part i) * localBatchGo ds (b / d.extent)

def roleIndexGo (role : Nat) : List (Dim × Nat) → Nat
  | [] => 0
  | (d, i) :: l => if d.role = role then i + d.extent * roleIndexGo role l else roleIndexGo role l

/-- The index of an element in a role, its dimensions combined as in `Desc.place`. -/
def Desc.roleIndex (d : Desc) (role : Nat) (ix : List Nat) : Nat := roleIndexGo role (List.zip d.dims ix)

/-- The local linear index of batch combination b in the shards that hold it (R281). -/
def Desc.localBatch (d : Desc) (b : Nat) : Nat := localBatchGo d.batchDims b

/-- Records that shard j holds: one for each batch combination with an element in it, none in an empty shard (R281). -/
def Desc.recordsIn (d : Desc) (j : Nat) : Nat :=
  if (d.extentsOf j).any (· == 0) then 0
  else product ((List.zip d.dims (d.extentsOf j)).map (fun p => if p.1.role = Role.batch then p.2 else 1))

/-- Where the highest of the shards' parts of a DEVICE operand ends, counted from the base of shard 0; `size` gives the bytes of
a shard's part. -/
def Desc.reach (d : Desc) (size : Nat → Nat) : Nat :=
  (List.range d.shards).foldl (fun n j => if size j = 0 then n else max n (j * d.pitch + size j)) 0

/-- Records a shard of the largest extents holds. -/
def Desc.maxRecords (d : Desc) : Nat := if d.recorded then product (d.batchDims.map Dim.maxExtent) else 0

/-- Bytes of the largest shard with its records, from its base. -/
def Desc.fullSpan (d : Desc) : Nat :=
  max (d.spanOf d.maxExtents) (if d.recorded then d.recordOffset + 64 * d.maxRecords else 0)

/-! ## Creation (R285-R288) -/

/-- The place of the nth set bit of a mask, counted from 0 in ascending order. -/
def nthSet : Nat → Nat → Nat → Nat
  | 0, _, _ => 0
  | f + 1, mask, n => if mask % 2 = 1 then (if n = 0 then 0 else 1 + nthSet f (mask / 2) (n - 1))
    else 1 + nthSet f (mask / 2) n

def popCount : Nat → Nat → Nat
  | 0, _ => 0
  | f + 1, v => v % 2 + popCount f (v / 2)

/-- [lo, lo + n) lies in die k: in its HBM region or its near tier. -/
def inDie (k lo n : Nat) : Bool :=
  (decide (0x3000000000 * k ≤ lo) && decide (lo + n ≤ 0x3000000000 * (k + 1)) && decide (k < 4)) ||
    (decide (0x10000000000 + 0x40000000 * k ≤ lo) && decide (lo + n ≤ 0x10000000000 + 0x40000000 * (k + 1)))

/-- [lo, lo + n) lies in the stack-local region of stack k (R312). -/
def inStackLocal (k lo n : Nat) : Bool :=
  let base := 0x3000000000 * (k / 3) + 0x2400000000 + 0x400000000 * (k % 3)
  decide (base ≤ lo) && decide (lo + n ≤ base + 0x400000000)

def Desc.hasAxis (d : Desc) (axis : Nat) : Bool := d.dims.any (fun x => x.axis == axis)

def axisCoordGo (axis : Nat) : List (Dim × Nat) → Nat
  | [] => 0
  | (d, k) :: l => if d.axis = axis then k + d.parts * axisCoordGo axis l else axisCoordGo axis l

/-- The coordinate of shard j on an axis: the parts of the dimensions on it, combined as R278 combines tile parts
(DEDUCED, log 76). -/
def Desc.axisCoord (d : Desc) (axis j : Nat) : Nat := axisCoordGo axis (List.zip d.dims (d.digits j))

/-- The die and stack assertions of shard j hold (R279, R312; DEDUCED, log 76). -/
def Desc.placedRight (d : Desc) (j : Nat) : Bool :=
  let lo := d.base + j * d.pitch
  (!d.hasAxis 2 || inDie (nthSet 4 d.dieMask (d.axisCoord 2 j)) lo d.allocSize) &&
    (!d.hasAxis 3 || inStackLocal (nthSet 12 d.stackMask (d.axisCoord 3 j)) lo d.allocSize)

/-- A dimension entry (Table OP.6). -/
def Dim.parse (b : List Byte) : Dim :=
  { extent := fld b 0 4, stride := fld b 4 4, role := bits (fld b 8 1) 3 0, axis := bits (fld b 8 1) 5 4,
    parts := fld b 9 1, block := fld b 10 2 }

/-- The fields of a template (Table OP.5), with no base added and no members. -/
def Desc.parse (b : List Byte) : Desc :=
  let fl := fld b 0x06 1
  let rank := fld b 0x02 1
  { code := 0, elemBits := fld b 0x03 1, space := fld b 0x04 1, recorded := bit fl 0, index := bit fl 1,
    blocked := bit fl 2, specialRows := fld b 0x07 1, tileset := fld b 0x08 1, dieMask := bits (fld b 0x09 1) 3 0,
    stackMask := bits (fld b 0x0A 2) 11 0, base := fld b 0x10 8, allocSize := fld b 0x20 8, pitch := fld b 0x30 8,
    recordOffset := fld b 0x38 4,
    dims := (List.range (min rank 6)).map (fun i => Dim.parse (slice b (0x40 + 12 * i) 12)), members := [] }

/-- Check 0x01: format, CRC and complement pairs. -/
def templateSound (b : List Byte) : Bool :=
  fld b 0 2 == 0xC7F5 && crcAgrees b 192 && pairAgrees 64 (fld b 0x10 8) (fld b 0x18 8) &&
    pairAgrees 64 (fld b 0x20 8) (fld b 0x28 8)

/-- Check 0x02: shape, with R286 and R288. -/
def Desc.shapeOk (d : Desc) (rank : Nat) : Bool :=
  decide (1 ≤ rank) && decide (rank ≤ 6) && [1, 2, 4, 8, 16, 32, 64].contains d.elemBits && decide (d.space ≤ 2) &&
    d.dims.all (fun x => decide (x.role ≤ 4) && decide (1 ≤ x.extent) && decide (1 ≤ x.parts)) &&
    (!d.blocked || (decide (8 ≤ d.elemBits) && decide (2 ≤ rank))) &&
    (!d.index || (d.elemBits == 32 && !d.recorded && d.space != 0))

/-- Product of the parts of the dimensions on an axis. -/
def Desc.axisParts (d : Desc) (axis : Nat) : Nat := product ((d.dims.filter (fun x => x.axis == axis)).map (·.parts))

/-- Check 0x03: sharding. `members` is none where TILESET names no valid entry. -/
def Desc.shardOk (d : Desc) (members : Option (List Nat)) : Bool :=
  d.dims.all (fun x => x.axis != 0 || x.parts == 1) && (!d.hasAxis 1 || d.space == 0) &&
    (!(d.hasAxis 2 || d.hasAxis 3) || d.space == 1) &&
    (!d.hasAxis 1 || (match members with | some m => d.axisParts 1 == m.length | none => false)) &&
    (!d.hasAxis 2 || d.axisParts 2 == popCount 4 d.dieMask) &&
    (!d.hasAxis 3 || d.axisParts 3 == popCount 12 d.stackMask)

/-- Check 0x05: every allocation holds its shard and lies inside its binding, scratchpad, image or mapped range. -/
def Desc.insideOk (d : Desc) (bound : Option (Nat × Nat)) (imgBase imgSize : Nat) : Bool :=
  decide (d.fullSpan ≤ d.allocSize) &&
    (List.range d.shards).all (fun j =>
      let lo := if d.space = 1 then d.base + j * d.pitch else d.base
      let hi := lo + d.allocSize
      (match bound with | some (a, n) => decide (a ≤ lo) && decide (hi ≤ a + n) | none => true) &&
        (if d.space = 0 then decide (hi ≤ 0x5FC000)
         else if d.space = 2 then decide (imgBase ≤ lo) && decide (hi ≤ imgBase + imgSize)
         else mapped lo d.allocSize))

def aliasGo (packed : Option Nat) : List (Dim × Nat) → Bool
  | (d, e) :: (d', e') :: l =>
    decide ((match packed with | some n => n | none => d.stride * e) ≤ d'.stride) && aliasGo none ((d', e') :: l)
  | _ => true

/-- Check 0x06: no two elements share a byte. -/
def Desc.aliasOk (d : Desc) : Bool :=
  let es := d.maxExtents
  if d.blocked then
    let n0 := ceilDiv (es.getD 0 1) (64 / (d.elemBits / 8))
    let n1 := ceilDiv (es.getD 1 1) 64
    aliasGo (some (4096 * n0 * n1)) ((({ (d.dims.getD 0 ⟨1, 0, 0, 0, 1, 0⟩) with stride := 0 } : Dim), 1) ::
      (List.zip d.dims es).drop 2)
  else if d.elemBits < 8 then aliasGo (some (ceilDiv (es.getD 0 0 * d.elemBits) 8)) (List.zip d.dims es)
  else aliasGo none (List.zip d.dims es) && decide (d.elemBits / 8 ≤ (d.dims.map (·.stride)).getD 0 0)

/-- Check 0x07: records and BLOCKED strides aligned. -/
def Desc.alignOk (d : Desc) : Bool :=
  (!d.recorded || (d.recordOffset % 64 == 0 && d.base % 64 == 0 && (d.space != 1 || d.shards ≤ 1 || d.pitch % 64 == 0)))
    && (!d.blocked || (d.dims.drop 2).all (fun x => x.stride % 4096 == 0))

/-- The creation code of a template (Table OP.8): the first failing check. -/
def Desc.creationCode (d : Desc) (raw : List Byte) (members : Option (List Nat)) (bindUsed : Bool)
    (bound : Option (Nat × Nat)) (imgBase imgSize kind : Nat) : Nat :=
  if !templateSound raw then 0x01
  else if !d.shapeOk (fld raw 2 1) then 0x02
  else if !d.shardOk members then 0x03
  else if bindUsed && bound.isNone then 0x04
  else if !d.insideOk bound imgBase imgSize then 0x05
  else if !d.aliasOk then 0x06
  else if !d.alignOk then 0x07
  else if !(List.range d.shards).all d.placedRight then 0x08
  else if d.blocked && kind == 0 then 0x09
  else 0x00

/-- A descriptor created from its 192 bytes (R285): `members` are the tiles of the group entry TILESET, `binding` gives
the range of a bound slot. -/
def Desc.create (raw : List Byte) (members : Nat → Option (List Nat)) (binding : Nat → Option (Nat × Nat))
    (imgBase imgSize kind : Nat) : Desc :=
  let d := Desc.parse raw
  let slot := fld raw 0x05 1
  let uses := d.space != 2 && slot != 0xFF
  let bound := if uses then binding slot else none
  let ms := if d.tileset = 0xFF then none else members d.tileset
  let d := { d with
    base := if d.space = 2 then imgBase + d.base else match bound with | some (a, _) => a + d.base | none => d.base,
    members := ms.getD [] }
  { d with code := d.creationCode raw ms uses bound imgBase imgSize kind }

/-! ## Views: an operand as one tile sees it -/

/-- An operand of a tile: its descriptor, the descriptor's index, the tile and the operand offset in 64-byte units. For an
intermediate of a fused chain, `lead` is the distance of its elements from the hold space, and `buf` names the chain's
head and the stage whose intermediate passes through a ring. -/
structure View where
  desc : Desc
  idx : Nat
  tile : Nat
  off : Nat
  lead : Nat := 0
  buf : Option (Nat × Nat) := none
deriving DecidableEq, Repr

/-- The view of an operand reference; none where it names no created descriptor. -/
def Job.view (j : Job) (t : Nat) (o : Opnd) : Option View :=
  if o.isNone then none
  else match j.descs[o.desc]? with
    | some d => some { desc := d, idx := o.desc, tile := t, off := o.off }
    | none => none

/-- Address in bits of the element with these indices (R280). -/
def View.bitAddr (v : View) (ix : List Nat) : Nat :=
  8 * (v.desc.shardBase v.tile (v.desc.shardOf ix) + 64 * v.off + v.lead) + v.desc.offsetBits (v.desc.locals ix)

/-- Byte address of an element. -/
def View.addr (v : View) (ix : List Nat) : Nat := v.bitAddr ix / 8

/-- Whether the element lies in this tile's view: in its shard of a tile-sharded descriptor. -/
def View.holds (v : View) (ix : List Nat) : Bool :=
  match v.desc.tileShard v.tile with
  | some j => !v.desc.tileSharded || v.desc.shardOf ix == j
  | none => false

/-- Whether the index of a role lies in this tile's view. -/
def View.holdsRole (v : View) (role i : Nat) : Bool :=
  match v.desc.tileShard v.tile with
  | none => false
  | some j =>
    let ix := v.desc.place (if role = Role.word then i else 0) (if role = Role.row then i else 0)
      (if role = Role.comp then i else 0) (if role = Role.batch then i else 0)
    !v.desc.tileSharded || (List.zip v.desc.dims (List.zip ix (v.desc.digits j))).all (fun p =>
      p.1.role != role || !p.1.sharded || p.1.part p.2.1 == p.2.2)

/-- The indices of a role in this tile's view (DESIGN CHOICE, log 41). -/
def View.roleIn (v : View) (role : Nat) : List Nat :=
  (List.range (v.desc.roleExtent role)).filter (v.holdsRole role)

/-- The batch combinations in this tile's view. -/
def View.batchIn (v : View) : List Nat := v.roleIn Role.batch

/-- The batch of an input that goes with batch `b` of an output. Each operand counts the batches of its own view, so the
k-th of the output's goes with the k-th of the input's (R121, R561); an input without BATCH dimensions serves every batch,
and an output without them takes the first batch of the input's view (DESIGN CHOICE, log 41). -/
def View.batchFor (src dst : View) (b : Nat) : Nat :=
  if src.desc.hasRole Role.batch then src.batchIn.getD (dst.batchIn.findIdx (· == b)) b else 0

/-- The indices of a role that lie in the views of an output and of an input: an engine works on its own tile's shards
only (R121; DESIGN CHOICE, log 41). -/
def View.sharedRole (dst src : View) (role : Nat) : List Nat := (dst.roleIn role).filter (src.holdsRole role)

/-- Byte ranges [lo, hi) of the operand's data in this tile's view, as one bounding range from its lowest to its highest byte
(R96); the ring slots of an intermediate that passes through a ring (Table FC.3). -/
def View.dataRange (v : View) : Nat × Nat :=
  let d := v.desc
  if d.space = 1 then
    let lo := d.base + 64 * v.off
    (lo, lo + d.reach (fun j => d.spanOf (d.extentsOf j)))
  else
    let j := (d.tileShard v.tile).getD 0
    let lo := d.shardBase v.tile j + 64 * v.off + v.lead
    (lo, lo + (if v.buf.isSome then d.allocSize else d.spanOf (d.extentsOf j)))

/-- The bounding range of the record copies in this tile's view. -/
def View.recordRange (v : View) : Nat × Nat :=
  let d := v.desc
  if d.space = 1 then
    let lo := d.base + 64 * v.off + d.recordOffset
    (lo, lo + d.reach (fun j => 64 * d.recordsIn j))
  else
    let j := (d.tileShard v.tile).getD 0
    let lo := d.shardBase v.tile j + 64 * v.off + d.recordOffset
    (lo, lo + 64 * d.recordsIn j)

/-- The whole allocation of an index tensor or of an operand addressed through one (R96). -/
def View.allocRange (v : View) : Nat × Nat :=
  let d := v.desc
  let lo := if d.space = 1 then d.base else d.shardBase v.tile ((d.tileShard v.tile).getD 0)
  (lo, lo + (if d.space = 1 then (d.shards - 1) * d.pitch else 0) + d.allocSize)

/-- The shards that hold an element of batch combination b (R281). -/
def Desc.shardsOfBatch (d : Desc) (b : Nat) : List Nat :=
  let ix := d.place 0 0 0 b
  (List.range d.shards).filter (fun j =>
    (d.extentsOf j).all (· != 0) && (List.zip d.dims (List.zip ix (d.digits j))).all (fun p =>
      p.1.role != Role.batch || !p.1.sharded || p.1.part p.2.1 == p.2.2))

/-- Address of the copy of record b in shard j (R281). -/
def View.recordIn (v : View) (b j : Nat) : Nat :=
  v.desc.shardBase v.tile j + 64 * v.off + v.desc.recordOffset + 64 * v.desc.localBatch b

/-- The copy of record b that a tile reads: its own shard's, and where that holds no element of the batch, the copy in the
lowest-numbered shard that does (R282; DESIGN CHOICE, log 41). -/
def View.recordRead (v : View) (b : Nat) : Nat :=
  let js := v.desc.shardsOfBatch b
  let own := (v.desc.tileShard v.tile).getD 0
  v.recordIn b (if v.desc.tileSharded && js.contains own then own else (js.head?).getD own)

/-- The shards whose copies of record b a tile writes (R282). -/
def View.recordShards (v : View) (b : Nat) : List Nat :=
  if v.desc.space = 0 then
    (if v.desc.tileSharded then (v.desc.shardsOfBatch b).filter (fun j => v.desc.tileShard v.tile == some j) else [0])
  else v.desc.shardsOfBatch b

/-- DATA of the copy of record b in shard j: the address of the lowest element of the combination in that shard
(R282). -/
def View.recordData (v : View) (b j : Nat) : Nat :=
  let ls := List.zipWith (fun (d : Dim) i => if d.role = Role.batch then d.locOf i else 0) v.desc.dims
    (v.desc.place 0 0 0 b)
  v.desc.shardBase v.tile j + 64 * v.off + v.lead + v.desc.offsetBits ls / 8

/-- LAYOUT (Table OP.7): the descriptor index and the map of the tiles that hold a shard. -/
def View.layout (v : View) : List Byte :=
  let d := v.desc
  let m := if d.space = 0 then (if d.tileSharded then d.members.take d.shards else [v.tile]) else []
  leBytes 2 (v.idx % 4096) ++ leBytes 26 (m.foldl (fun acc t => acc ||| 2 ^ t) 0)

/-- Rows of an intermediate that passes through the ring of a chain. -/
def State.chainRows (s : State) (t head stage : Nat) : List (List Nat) :=
  match (s.tile t).chains.find? (fun c => c.head == head) with
  | some c => ((c.buffers.find? (fun b => b.1 == stage)).map (·.2)).getD []
  | none => []

/-- A word of such an intermediate; its dimensions are WORD and row. -/
def State.setChainWord (t head stage : Nat) (ix : List Nat) (x : Nat) (s : State) : State :=
  s.mapTile t (fun u => { u with chains := u.chains.map (fun c => if c.head == head then
    { c with buffers := c.buffers.map (fun b => if b.1 == stage then
        (b.1, b.2.set (ix.getD 1 0) ((b.2.getD (ix.getD 1 0) []).set (ix.getD 0 0) (x % 2 ^ 32))) else b) } else c) })

/-- The value of an element. -/
def State.readElem (s : State) (v : View) (ix : List Nat) : Nat :=
  match v.buf with
  | some (h, st) => ((s.chainRows v.tile h st).getD (ix.getD 1 0) []).getD (ix.getD 0 0) 0
  | none =>
  let a := v.bitAddr ix
  if v.desc.elemBits < 8 then bits (s.readByte (a / 8)).toNat (a % 8 + v.desc.elemBits - 1) (a % 8)
  else leNat (s.readRaw (a / 8) (v.desc.elemBits / 8))

/-- The value written at an element. -/
def State.writeElem (v : View) (ix : List Nat) (x : Nat) (s : State) : State :=
  match v.buf with
  | some (h, st) => s.setChainWord v.tile h st ix x
  | none =>
  let a := v.bitAddr ix
  if v.desc.elemBits < 8 then
    let old := (s.readByte (a / 8)).toNat
    let m := (2 ^ v.desc.elemBits - 1) * 2 ^ (a % 8)
    s.store (a / 8) [BitVec.ofNat 8 (old - (old &&& m) + x % 2 ^ v.desc.elemBits * 2 ^ (a % 8))]
  else s.store (a / 8) (leBytes (v.desc.elemBits / 8) x)

/-- The words of row r of component c of batch b, as many as the operand's WORD extent. -/
def State.readRow (s : State) (v : View) (n r c b : Nat) : List Nat :=
  (List.range n).map (fun w => s.readElem v (v.desc.place w r c b))

/-- The same row as an engine of the tile reads it: a word outside the tile's view is not read and counts as 0 (R121; DESIGN
CHOICE, log 41). -/
def State.readRowIn (s : State) (v : View) (n r c b : Nat) : List Nat :=
  (List.range n).map (fun w => if v.holds (v.desc.place w r c b) then s.readElem v (v.desc.place w r c b) else 0)

/-- A row written. -/
def State.writeRow (v : View) (r c b : Nat) (row : List Nat) (s : State) : State :=
  (List.zip (List.range row.length) row).foldl (fun s p =>
    let ix := v.desc.place p.1 r c b
    if v.holds ix then s.writeElem v ix p.2 else s) s

/-- The words of an index tensor, in its linear order. -/
def State.readIndex (s : State) (v : View) : List Nat :=
  (List.range v.desc.count).map (fun i => s.readElem v (v.desc.unlinear i))

/-- Whether a range lies in a tile's own scratchpad. -/
def inScratch (t lo hi : Nat) : Bool := decide (scratchAddr t 0 ≤ lo) && decide (hi ≤ scratchAddr t 0x600000)

end Sys2Proof.Machine
end

