-- ==== Sys2Proof/Machine/Flags.lean ====
section
/-!
DEFINITION. Ciphertext records and their flags (02_ciphertext_records): the fields of Table CT.10, the input checks of
Table CT.11 and R59, and the record arithmetic of Table CT.5 with R60 to R69.
-/
namespace Sys2Proof.Machine

/-! ## Flag bits (Table CT.10) -/

abbrev Flag.exhausted := 1
abbrev Flag.keyMismatch := 2
abbrev Flag.faulted := 4
abbrev Flag.nanSrc := 8
abbrev Flag.range := 16

/-- The OR of flags. -/
def orFlags (l : List Nat) : Nat := l.foldl (fun a b => a ||| b) 0

/-- A ciphertext record, but for LAYOUT, FORMAT, the complements and CHECK, which the device writes anew. -/
structure Rec where
  domain : Nat
  pset : Nat
  level : Nat
  flags : Nat
  keytag : Nat
  scale : Nat
  noise : Nat
  comps : Nat
deriving DecidableEq, Repr

/-- The record with every field 0. -/
def Rec.zero : Rec :=
  { domain := 0, pset := 0, level := 0, flags := 0, keytag := 0, scale := 0, noise := 0, comps := 0 }

/-- The fields of 64 bytes. -/
def Rec.parse (b : List Byte) : Rec :=
  { domain := fld b 0x02 1, pset := fld b 0x03 1, level := fld b 0x04 1, flags := bits (fld b 0x07 1) 4 0,
    keytag := fld b 0x08 4, scale := fld b 0x10 2, noise := fld b 0x14 2, comps := fld b 0x16 2 }

/-- The 64 bytes the device writes (R54): FORMAT, complements and CHECK correct. -/
def Rec.bytes (r : Rec) (data : Nat) (layout : List Byte) : List Byte :=
  withCrc (leBytes 2 0xC7F1 ++ leBytes 1 r.domain ++ leBytes 1 r.pset ++ leBytes 1 r.level ++
    leBytes 1 (complement 8 r.level) ++ leBytes 1 (complement 8 r.pset) ++ leBytes 1 (r.flags % 32) ++
    leBytes 4 r.keytag ++ leBytes 4 (complement 32 r.keytag) ++ leBytes 2 r.scale ++ leBytes 2 (complement 16 r.scale) ++
    leBytes 2 r.noise ++ leBytes 2 r.comps ++ leBytes 8 data ++ slice layout 0 28)

/-- The complement pairs of a record agree: LEVEL, PSET, KEYTAG and SCALE (R52). -/
def recordPairs (b : List Byte) : Bool :=
  pairAgrees 8 (fld b 4 1) (fld b 5 1) && pairAgrees 8 (fld b 3 1) (fld b 6 1) && pairAgrees 32 (fld b 8 4) (fld b 12 4)
    && pairAgrees 16 (fld b 16 2) (fld b 18 2)

/-- Checks 1 to 4 of Table CT.11. -/
def recordSound (b : List Byte) : Bool :=
  fld b 0 2 == 0xC7F1 && crcAgrees b 64 && recordPairs b && [1, 2, 3, 4].contains (fld b 2 1)

/-! ## Parameter sets -/

def State.pset (s : State) (k : Nat) : Option PSet := Tab.at s.psets none k

def PSet.n (p : PSet) : Nat := 2 ^ p.logN

/-- The modulus entry of a modulus index; 0x7F names the LWE modulus (R38). -/
def PSet.modulus (p : PSet) (i : Nat) : Modulus :=
  if i = 0x7F then p.lwe else p.moduli.getD i { q := 0, root := 0, w := 0, c := 0, u := 0, scaleStep := 0 }

/-- Modulus index of row r of an operand at LEVEL ℓ: chain rows, then special rows (R117). -/
def PSet.rowIndex (p : PSet) (level r : Nat) : Nat := if r ≤ level then r else p.chain + (r - level - 1)

def PSet.q (p : PSet) (i : Nat) : Nat := (p.modulus i).q

/-- NOISE_INC of a family (R63: 19 to 28 are ignored). -/
def PSet.inc (p : PSet) (fam : Nat) : Int := p.noiseInc.getD fam 0

/-! ## Checks on input (R57, R58) -/

/-- An input record as checked: its fields, the new flags it raised, whether it passed checks 1 to 4, and whether check
5 or 6 raised RANGE (R559). -/
structure RecIn where
  r : Rec
  newFlags : Nat
  sound : Bool
  outside : Bool
deriving DecidableEq, Repr

/-- Check 8 of Table CT.11 (R283). `poly` says that a PLAIN record here is a residue polynomial. -/
def shapeAgrees (p : PSet) (d : Desc) (r : Rec) (poly : Bool) : Bool :=
  decide (d.specialRows ≤ p.special) &&
  (if r.domain = Dom.lwe then d.roleExtent Role.word == r.comps
   else d.roleExtent Role.row == r.level + 1 + d.specialRows && d.roleExtent Role.comp == r.comps &&
     (!(r.domain == Dom.rlwe || (r.domain == Dom.plain && poly)) || d.roleExtent Role.word == p.n) &&
     (r.domain != Dom.ggsw || (r.level == 0 && r.comps == 4 * p.pbsLevels)))

/-- The checks of Table CT.11 in order on one input record. `named` is the set a word's PSET field names; `refs` is the
pricking's PSET_REF; `marked` says that a read range of the operand is marked (R58). -/
def checkRecord (s : State) (b : List Byte) (accepted : List Nat) (named : Option Nat) (refs : Nat) (d : Desc)
    (poly marked : Bool) : RecIn :=
  let r := Rec.parse b
  let m := if marked then Flag.faulted else 0
  let fail (f : Nat) (sound outside : Bool) : RecIn :=
    { r := r, newFlags := f ||| m, sound := sound, outside := outside }
  if !recordSound b then fail Flag.faulted false false
  else if !accepted.contains r.domain then fail Flag.range true true
  else match s.pset r.pset with
    | none => fail Flag.range true true
    | some p =>
      if !bit refs r.pset || (match named with | some k => k != r.pset | none => false) then fail Flag.range true true
      else if decide (p.chain < r.level + 1) || (r.domain == Dom.lwe && r.level != 0) then fail Flag.range true false
      else if !shapeAgrees p d r poly then fail Flag.range true false
      else fail 0 true false

/-- Whether an input is a ciphertext (RLWE or LWE). -/
def RecIn.cipher (x : RecIn) : Bool := x.r.domain == Dom.rlwe || x.r.domain == Dom.lwe

/-- All members equal. -/
def allEqual (l : List Nat) : Bool := match l with | [] => true | x :: xs => xs.all (· == x)

/-- R59: the comparisons between input records that passed checks 1 to 4. -/
def compareRecords (l : List RecIn) : Nat :=
  let ok := l.filter (fun x => x.sound)
  let ct := ok.filter RecIn.cipher
  (if allEqual (ok.map (fun x => x.r.pset)) && allEqual (ct.map (fun x => x.r.level)) then 0 else Flag.range) |||
    (if allEqual (ct.map (fun x => x.r.keytag)) then 0 else Flag.keyMismatch)

/-- The reference input (R60): the first ciphertext that passed checks 1 to 4, else the first PLAIN or GGSW one. -/
def reference (l : List RecIn) : Option RecIn :=
  match (l.filter (fun x => x.sound)).find? RecIn.cipher with
  | some x => some x
  | none => l.find? (fun x => x.sound)

/-! ## Record arithmetic (Table CT.5) -/

/-- What Table CT.5 and the chapters say of one operation's output: LEVEL and SCALE as integers before R64 and R66,
NOISE by increment or as a value, KEYTAG, and COMPONENTS. -/
structure RecRule where
  family : Nat
  level : Int
  scale : Int
  /-- `some v`: NOISE is written as v; none: max noise plus INC -/
  noise : Option Int
  keytag : Nat
  comps : Nat
  domain : Nat
deriving DecidableEq, Repr

/-- NOISE clamped (R62). -/
def clampNoise (i : Int) : Nat := if i < 0 then 0 else if i > 0xFFFF then 0xFFFF else i.toNat

/-- The largest NOISE among the ciphertext inputs that passed checks 1 to 4 (R61). -/
def maxNoise (l : List RecIn) : Nat :=
  ((l.filter (fun x => x.sound && x.cipher)).map (fun x => x.r.noise)).foldl max 0

/-- The output record and its newly raised flags from a rule with a reference input (R60-R66, R559). -/
def applyRule (s : State) (l : List RecIn) (ref : RecIn) (u : RecRule) : Rec × Nat :=
  let set := if ref.outside then none else s.pset ref.r.pset
  let exhaustedLevel := if u.level < 0 then Flag.exhausted else 0
  let plainRef := !ref.cipher
  let inc : Int := match set with | some p => p.inc u.family | none => 0
  let noise : Int := if plainRef then 0 else match u.noise with | some v => v | none => (maxNoise l : Int) + inc
  let exhaustedNoise := match set with
    | some p => if !plainRef && decide (noise > (p.noiseLimit : Int)) then Flag.exhausted else 0
    | none => 0
  let range := if u.scale < -32768 ∨ u.scale > 32767 then Flag.range else 0
  ({ domain := u.domain, pset := ref.r.pset, level := if u.level < 0 then 0 else u.level.toNat, flags := 0,
     keytag := if plainRef then 0 else u.keytag, scale := low 16 u.scale, noise := clampNoise noise, comps := u.comps },
   orFlags [exhaustedLevel, exhaustedNoise, range])

/-- The output record where no input qualifies (R60, R558): DOMAIN as given, COMPONENTS from the output descriptor. -/
def noReference (domain : Nat) (out : Desc) : Rec :=
  { Rec.zero with
    domain := domain, comps := if domain = Dom.lwe then out.roleExtent Role.word else out.roleExtent Role.comp }

/-- COMPONENTS derived from N or LWE_N: from the output descriptor where R559 applies. -/
def derivedComps (s : State) (ref : RecIn) (out : Desc) (domain : Nat) (f : PSet → Nat) : Nat :=
  if ref.outside then (noReference domain out).comps
  else match s.pset ref.r.pset with
    | some p => f p
    | none => (noReference domain out).comps

/-- SCALE_STEP of chain modulus LEVEL; 0 under R559. -/
def scaleStepOf (s : State) (ref : RecIn) : Nat :=
  if ref.outside then 0
  else match s.pset ref.r.pset with
    | some p => (p.modulus ref.r.level).scaleStep
    | none => 0

/-- A record's SCALE as a signed number. -/
def Rec.scaleInt (r : Rec) : Int := signed 16 r.scale

end Sys2Proof.Machine
end

