-- ==== Sys2Proof/Machine/Typed.lean ====
section
/-!
DEFINITION. How an engine's command meets a started macro-operation: its context, its input records (R57-R59), what one
output batch becomes (R60-R69), and the writing of data and records (R56, R69, R73).
-/
namespace Sys2Proof.Machine

/-! ## Engines (Tables TL.3, OP.2) -/

/-- Engine numbers of a tile: 0 NTE, 1 AUE, 2 BCE, 3 VE, 4 MXE, 5 RFE, 6 Shuttle, 7 + q stream queue q. The sequencer's
opcodes use none. -/
def MopWord.engines (w : MopWord) : List Nat :=
  match w.family with
  | 7 => [0, 2, 3]
  | 17 => [5, 3]
  | f => match engineCode f with
    | some e =>
      if e ≤ 5 then [e]
      else if e = 6 then (if f = Fam.chk then [] else [7 + w.queue])
      else if e = 7 then [6]
      else []
    | none => []

/-- The first cycle in which an engine's condition allows an admission (Table TL.3; DEDUCED, log 75). -/
def State.setEngine (t e : Nat) (x : Option Nat) (s : State) : State :=
  s.mapTile t (fun u => { u with engines := Tab.put u.engines e x })

/-! ## The macro-operation a command is about -/

/-- A tile, the job it runs, one macro-operation of its window, and the fused chain it is a stage of. -/
structure Ctx where
  t : Nat
  ring : Nat
  job : Job
  mop : Mop
  chain : Option ChainRun
deriving DecidableEq, Repr

def Ctx.w (c : Ctx) : MopWord := c.mop.word

/-- Operand reference at a position. -/
def MopWord.opnd (w : MopWord) (k : Nat) : Opnd := w.opnds.getD k Opnd.none

/-- The intermediate of a chain's stage as the tile sees it. -/
def ChainRun.view (ch : ChainRun) (t stage : Nat) : Option View :=
  match ch.inters[stage]? with
  | some i => some { desc := i.desc, idx := ch.hold, tile := t, off := 0, lead := i.lead,
                     buf := if i.ring then some (ch.head, stage) else none }
  | none => none

/-- The operand at a position as the tile sees it. In a chain, a reference to the HOLD descriptor denotes the
intermediate: its own at a write position, else that of the stage before it (R246). -/
def Ctx.view (c : Ctx) (k : Nat) : Option View :=
  match c.chain with
  | some ch =>
    if (c.w.opnd k).desc = ch.hold ∧ ch.kind ≠ 1 then
      match ch.view c.t (if k = 2 then c.w.cstage else c.w.cstage - 1) with
      | some v => some v
      | none => c.job.view c.t (c.w.opnd k)
    else c.job.view c.t (c.w.opnd k)
  | none => c.job.view c.t (c.w.opnd k)

/-- Positions that name an operand, with its view. -/
def Ctx.operands (c : Ctx) : List (Nat × View) := (List.range 4).filterMap (fun k => (c.view k).map (fun v => (k, v)))

/-- The macro-operation of a tile with a sequence number. -/
def State.mopOf (s : State) (t seq : Nat) : Option Mop := (s.tile t).window.find? (fun m => m.seq == seq)

def State.mapMop (t seq : Nat) (f : Mop → Mop) (s : State) : State :=
  s.mapTile t (fun u => { u with window := u.window.map (fun m => if m.seq == seq then f m else m) })

/-- The chain that a macro-operation of a tile is a stage of. -/
def Tile.chainOf (u : Tile) (m : Mop) : Option ChainRun :=
  if m.word.chain = 0 then none
  else u.chains.find? (fun c => c.head + m.word.cstage == m.seq)

def State.ctx (s : State) (t seq : Nat) : Option Ctx :=
  match (s.tile t).job, s.mopOf t seq with
  | some r, some m =>
    match s.job r with
    | some j => some { t := t, ring := r, job := j, mop := m, chain := (s.tile t).chainOf m }
    | none => none
  | _, _ => none

/-- The die's tiles are frozen for a change of frequency (Table PW.3). -/
def Die.frozen (d : Die) : Bool := match d.seq with | some q => q.phase == .frozen | none => false

/-- A tile whose clock runs: not failed, its die not frozen, the module not FATAL (R530), and its remaining core allotment for
the slot covers a cycle (R465). -/
def State.tileRuns (s : State) (t : Nat) : Bool :=
  !s.errs.fatal && !(s.tile t).failed && !s.pins.mreset && s.pins.allGood && !(s.die (dieOfTile t)).frozen &&
    decide (0 < (s.tile t).runs)

/-- Transfers pass a tile's island boundary: they wait there while it is frozen (R465, Table PW.11). A tile outside every job is
not frozen. -/
def State.letsIn (s : State) (t : Nat) : Bool :=
  !(s.die (dieOfTile t)).frozen && ((s.tile t).job.isNone || decide (0 < (s.tile t).runs))

/-- A macro-operation that an engine may work on: started, its effect not yet taken, not stopped by an abort cause. -/
def Mop.ready (m : Mop) : Bool := m.start.isSome && !m.done && m.stop.isNone

/-- A poison request of the tile is on its way, and the macro-operation's ranges reach memory: the request precedes its
requests (R330). -/
def State.poisonWaits (s : State) (c : Ctx) : Bool :=
  s.poisonRequests.any (fun r => r.tile == c.t) && c.mop.ranges.any (fun r => poisonable r.lo)

/-- The context of a ready macro-operation that the command names (DESIGN CHOICE, log 2). -/
def State.readyCtx (s : State) (t seq : Nat) (kind : MopWord → Bool) : Option Ctx :=
  match s.ctx t seq with
  | some c => if s.tileRuns t && c.mop.ready && !s.poisonWaits c && kind c.w then some c else none
  | none => none

/-- The rest of a command that works on a ready macro-operation; where it names none, nothing changes (DESIGN CHOICE, log 2). -/
def State.withReady (s : State) (t seq : Nat) (kind : MopWord → Bool) (f : Ctx → State) : Out :=
  match s.readyCtx t seq kind with
  | some c => .next (f c)
  | none => .next s

/-- The first unit of a stage's intermediate completes in a cycle; the next stage, once admitted and, in a group, once
started, has its cycle 0 in the cycle after (R250), from which its engines' intervals count. -/
def State.unitDone (c : Ctx) (cycle : Nat) (s : State) : State :=
  match c.chain with
  | none => s
  | some ch =>
    let st := c.w.cstage
    let s := s.mapTile c.t (fun u => { u with chains := u.chains.map (fun x =>
      if x.head == ch.head then { x with units := (st, cycle) :: x.units } else x) })
    match s.mopOf c.t (ch.head + st + 1) with
    | some m =>
      if m.word.chain ≠ 0 ∧ m.word.cstage = st + 1 ∧ m.start.isNone ∧ m.ready0.isSome then
        let x := max (m.ready0.getD 0) cycle + 1
        let s := s.mapMop c.t m.seq (fun m => { m with start := some x })
        match m.interval with
        | some i => m.word.engines.foldl (fun s e =>
            if (s.tile c.t).window.any (fun y => decide (m.seq < y.seq) && y.word.engines.contains e) then s
            else s.setEngine c.t e (some (x + i))) s
        | none => s
      else s
    | none => s

/-- The effect is taken: what is left is retirement. `unit` is the distance from cycle 0 to the completion of the first
unit of a chain's intermediate, where that is not the retirement. -/
def State.markDone (c : Ctx) (s : State) : State :=
  let s := s.mapMop c.t c.mop.seq (fun m => { m with done := true })
  match c.mop.unitAfter with
  | some n => s.unitDone c (c.mop.start.getD 0 + n)
  | none => s

/-! ## Ranges (R96) -/

/-- The operand positions a macro-operation reads as data. -/
def MopWord.reads (w : MopWord) : List Nat :=
  match w.family with
  | 24 => []
  | 25 => [1]
  | 7 => [0, 1]
  | 17 => [0, 1]
  | _ => [0, 1, 3]

/-- Whether a position is read: the accumulator of FC4's stage 1 too (R264). -/
def MopWord.readsAt (w : MopWord) (k : Nat) : Bool :=
  w.reads.contains k || (w.chain == 4 && w.cstage == 1 && k == 2)

def MopWord.writesAt (w : MopWord) (k : Nat) : Bool := w.writes.contains k

/-- An operand is addressed through an index tensor: the source of a GATHER and of AUTO by index tensor, the
destination of a SCATTER (R96). -/
def MopWord.indexed (w : MopWord) (k : Nat) : Bool :=
  (w.family == Fam.gather && k == 0) || (w.family == Fam.scatter && k == 2) ||
    (w.family == Fam.auto && w.immBits 1 0 == 2 && k == 0)

/-- Rounded outward to 64-byte boundaries (R97). -/
def round64 (p : Nat × Nat) : Nat × Nat := (p.1 / 64 * 64, ceilDiv p.2 64 * 64)

/-- The data range of an operand of a macro-operation (R96). -/
def MopWord.dataRange (w : MopWord) (k : Nat) (v : View) : Nat × Nat :=
  if v.desc.index || w.indexed k then v.allocRange else v.dataRange

/-- Whether the operand's records are read or written by the opcode (Table OP.3): not at an untyped position, and never by
a CHK (R512). -/
def MopWord.recordAt (w : MopWord) (k : Nat) (d : Desc) : Bool :=
  d.recorded && w.family != Fam.chk && (match w.positions.getD k .absent with
    | .typed _ => true
    | .any => true
    | .result => true
    | _ => false)

/-- Positions that name an operand, with its descriptor's view. -/
def Job.operands (j : Job) (t : Nat) (w : MopWord) : List (Nat × View) :=
  (List.range 4).filterMap (fun k =>
    match j.view t (w.opnd k) with
    | some v => some (k, v)
    | none => none)

/-- The scoreboard entries of one word (R96). -/
def Job.rangesOf (j : Job) (t : Nat) (w : MopWord) : List ByteRange :=
  (j.operands t w).flatMap (fun p =>
    let wr := w.writesAt p.1
    let d := round64 (w.dataRange p.1 p.2)
    let r := round64 p.2.recordRange
    { lo := d.1, hi := d.2, write := wr } ::
      (if w.recordAt p.1 p.2.desc then [{ lo := r.1, hi := r.2, write := wr }] else []))

/-- Granules of a tile's scratchpad that [lo, hi) touches. -/
def granulesOf (t lo hi : Nat) : List Nat :=
  let b := scratchAddr t 0
  let e := scratchAddr t 0x600000
  let lo := max lo b
  let hi := min hi e
  if hi ≤ lo then [] else (List.range ((hi - 1 - b) / 4096 - (lo - b) / 4096 + 1)).map (fun i => (lo - b) / 4096 + i)

/-- Granules that [lo, hi) covers whole. -/
def granulesIn (t lo hi : Nat) : List Nat :=
  (granulesOf t lo hi).filter (fun g =>
    decide (lo ≤ scratchAddr t (4096 * g)) && decide (scratchAddr t (4096 * (g + 1)) ≤ hi))

/-- A granule marked in the poison map, counted when it was not marked (DESIGN CHOICE, log 20). -/
def State.markGranule (t g : Nat) (s : State) : State :=
  if (s.tile t).marks.contains g then s
  else (s.mapTile t (fun u => { u with marks := insertNat g u.marks })).count .poisonMarks t 1

def State.clearGranules (t : Nat) (gs : List Nat) (s : State) : State :=
  s.mapTile t (fun u => { u with marks := u.marks.filter (fun g => !gs.contains g) })

/-- The operand positions one of whose read ranges touches a marked granule (R58). -/
def State.markedPositions (s : State) (j : Job) (t : Nat) (w : MopWord) : List Nat :=
  (j.operands t w).filterMap (fun p =>
    let ranges := w.dataRange p.1 p.2 :: (if w.recordAt p.1 p.2.desc then [p.2.recordRange] else [])
    if w.readsAt p.1 && ranges.any (fun r => (granulesOf t (round64 r).1 (round64 r).2).any (s.tile t).marks.contains)
    then some p.1 else none)

/-- A macro-operation that meets an abort cause waits for MACRO_ABORT to carry it out. -/
def State.stopMop (c : Ctx) (cause : AbortCause) (s : State) : State :=
  s.mapMop c.t c.mop.seq (fun m => { m with stop := some cause })

/-- Bytes of an element: address and length. -/
def View.extent (v : View) (ix : List Nat) : Nat × Nat :=
  let a := v.bitAddr ix
  (a / 8, ceilDiv (a % 8 + v.desc.elemBits) 8)

/-- The first of the source lines on which an unpoisoned output depends that is poisoned (Table MS.6). -/
def State.badLine (s : State) (l : List (Nat × Nat)) : Option Nat :=
  l.findSome? (fun p => (linesOf p.1 p.2).find? (fun a => s.linePoison.contains a))

/-! ## Input records -/

/-- Whether a PLAIN record at a position is a residue polynomial (R283). For OPND1 of an ADD or SUB whose OPND0 record failed
checks 1 to 4, that OPND0 is RLWE is read from that record's DOMAIN byte (DESIGN CHOICE, log 77). -/
def polyAt (w : MopWord) (k : Nat) (first : Option RecIn) : Bool :=
  [0, 1, 4, 5, 6].contains w.family || (w.family == Fam.auto && w.immBits 1 0 != 2) ||
    (w.family == Fam.pmul && k == 1) ||
    ([Fam.add, Fam.sub].contains w.family && k == 1 &&
      (match first with | some x => x.r.domain == Dom.rlwe | none => false))

/-- The domains check 5 accepts at a position (R273, R274). -/
def acceptedAt (w : MopWord) (k : Nat) (first : Option RecIn) : List Nat :=
  if [Fam.add, Fam.sub].contains w.family && k == 1 then
    match first with
    | some x => if x.sound then [x.r.domain, Dom.plain] else [1, 2, 4]
    | none => [1, 2, 4]
  else match w.positions.getD k .absent with
    | .typed l => l
    | .any => [1, 2, 3, 4]
    | _ => []

/-- Input record `b` of one operand. -/
def State.inputAt (s : State) (c : Ctx) (first : Option RecIn) (b k : Nat) (v : View) : RecIn :=
  checkRecord s (s.readZeroed (v.recordRead (if v.desc.hasRole Role.batch then b else 0)) 64) (acceptedAt c.w k first)
    (if c.w.usesPset then some c.w.pset else none) c.job.image.psetRef.toNat v.desc (polyAt c.w k first)
    (c.mop.marked.contains k)

/-- Input records in operand order, of operands that are read and have records; `pick` names the batch of each. -/
def State.inputsBy (s : State) (c : Ctx) (pick : View → Nat) : List (Nat × RecIn) :=
  c.operands.foldl (fun acc p =>
    let reads := match c.w.positions.getD p.1 .absent with
      | .typed _ => true
      | .any => c.w.readsAt p.1
      | _ => false
    if reads && p.2.desc.recorded then
      acc ++ [(p.1, s.inputAt c ((acc.find? (fun x => x.1 == 0)).map (·.2)) (pick p.2) p.1 p.2)]
    else acc) []

/-- The input records of one output batch; an unbatched operand serves every batch (R561). -/
def State.inputs (s : State) (c : Ctx) (b : Nat) : List (Nat × RecIn) :=
  s.inputsBy c (fun v => match c.view 2 with | some d => v.batchFor d b | none => b)

/-- FAULTED from marked operands that have no record of their own (R58, Table CT.12). -/
def Ctx.plainMarks (c : Ctx) : Nat :=
  if c.operands.any (fun p =>
      c.mop.marked.contains p.1 && !(p.2.desc.recorded && c.w.recordAt p.1 p.2.desc)) then Flag.faulted else 0

/-! ## Outputs -/

/-- A word to write: the indices of its element and its value. -/
abbrev ElemOut := List Nat × Nat

/-- What becomes of one output batch: the flags newly raised and all flags, the record, and the data of a batch
without poison. -/
structure BatchOut where
  b : Nat
  newFlags : Nat
  flags : Nat
  record : Rec
  data : List ElemOut
deriving DecidableEq, Repr

/-- The words of one row as elements of a view. -/
def rowOut (v : View) (r c b : Nat) (ws : List Nat) : List ElemOut :=
  (List.zip (List.range ws.length) ws).map (fun p => (v.desc.place p.1 r c b, p.2))

/-- Whether an element belongs to batch combination `b`. -/
def inBatch (d : Desc) (b : Nat) (ix : List Nat) : Bool :=
  (List.zip d.dims (List.zip ix (d.place 0 0 0 b))).all (fun p => p.1.role != Role.batch || p.2.1 == p.2.2)

/-- Every element of batch `b` in a tile's view, with the word 0 (R69). -/
def zeroOut (v : View) (b : Nat) : List ElemOut :=
  ((List.range v.desc.count).map v.desc.unlinear).filterMap (fun ix =>
    if inBatch v.desc b ix && v.holds ix then some (ix, 0) else none)

/-- Elements written where the view holds them. -/
def State.writeOut (v : View) (l : List ElemOut) (s : State) : State :=
  l.foldl (fun s p => if v.holds p.1 then s.writeElem v p.1 p.2 else s) s

/-- Every copy of an output record that the macro-operation writes (R282). -/
def State.writeRecord (v : View) (b : Nat) (r : Rec) (s : State) : State :=
  (v.recordShards b).foldl (fun s j =>
    s.store (v.recordIn b j) (r.bytes (v.recordData b j) v.layout)) s

/-- Batches of an output: those in the tile's view; the one batch of a tensor without BATCH dimensions. -/
def View.outBatches (v : View) : List Nat := v.batchIn

/-- The POISON event of a macro-operation (R71, Table EB.4; DEDUCED, log 52). -/
def Ctx.poisonEvent (c : Ctx) (tile seq flags count : Nat) : Err :=
  Err.ofJob .deferred 0x01 1 tile c.job seq (flags + 256 * c.w.family + 65536 * count) 0

/-- The data and records of all output batches written, the event kept for retirement, the effect taken
(DESIGN CHOICE, log 22). -/
def State.commitOut (c : Ctx) (v : View) (outs : List BatchOut) (s : State) : State :=
  let s := outs.foldl (fun s o => s.writeOut v (if o.flags = 0 then o.data else zeroOut v o.b)) s
  let s := if v.desc.recorded then outs.foldl (fun s o => s.writeRecord v o.b { o.record with flags := o.flags }) s
    else s
  let new := orFlags (outs.map (·.newFlags))
  let s := if new = 0 then s
    else s.mapMop c.t c.mop.seq (fun m => { m with events := m.events ++ [c.poisonEvent c.t c.mop.seq new 1] })
  s.markDone c

/-- The domain an output takes where no input qualifies as reference (R558): the first that Table OP.3 lists for OPND0,
with "any" read as RLWE; a position that names one domain keeps it. -/
def MopWord.outDomain (w : MopWord) : Nat :=
  match w.family with
  | 3 => Dom.lwe
  | 17 => Dom.lwe
  | 18 => Dom.rlwe
  | _ => match w.positions.getD 0 .absent with
    | .typed (d :: _) => d
    | _ => Dom.rlwe

/-- One output batch of a family whose records follow Table CT.5: `rule` gives the record arithmetic, `extra` the flags
that only this opcode raises, `data` the words. -/
def State.batchOut (s : State) (c : Ctx) (v : View) (b : Nat)
    (rule : List (Nat × RecIn) → RecIn → RecRule) (extra : Option RecIn → Nat)
    (data : RecIn → PSet → List ElemOut) : BatchOut :=
  let ins := s.inputs c b
  let recs := ins.map (·.2)
  let inherited := orFlags (recs.map (fun x => x.r.flags))
  let fromChecks := orFlags [orFlags (recs.map (·.newFlags)), compareRecords recs, c.plainMarks]
  match reference recs with
  | none =>
    let new := fromChecks ||| extra none
    { b := b, newFlags := new, flags := new ||| inherited, record := noReference c.w.outDomain v.desc, data := [] }
  | some ref =>
    let out := applyRule s recs ref (rule ins ref)
    let new := orFlags [fromChecks, out.2, extra (some ref)]
    { b := b, newFlags := new, flags := new ||| inherited, record := out.1,
      data := if new ||| inherited = 0 then
          (match s.pset ref.r.pset with | some p => data ref p | none => [])
        else [] }

/-- An engine's whole effect, batch by batch, all inputs read before anything is written (R56; DESIGN CHOICE, log 22). -/
def State.typedOp (c : Ctx) (rule : List (Nat × RecIn) → RecIn → RecRule) (extra : Option RecIn → Nat)
    (data : State → View → Nat → RecIn → PSet → List ElemOut) (s : State) : State :=
  match c.view 2 with
  | none => s.markDone c
  | some v => s.commitOut c v (v.outBatches.map (fun b => s.batchOut c v b rule extra (data s v b))) 

/-- The record arithmetic most families share: everything unchanged but NOISE, with the reference input's DOMAIN. -/
def keepRule (fam : Nat) (ref : RecIn) : RecRule :=
  { family := fam, level := ref.r.level, scale := ref.r.scaleInt, noise := none, keytag := ref.r.keytag,
    comps := ref.r.comps, domain := ref.r.domain }

/-- The rule of a family whose OPND2 Table OP.3 names RLWE (R558). -/
def rlweRule (fam : Nat) (ref : RecIn) : RecRule := { keepRule fam ref with domain := Dom.rlwe }

/-! ## Sizes used by the latency formulas (R562) -/

/-- The reference input of the first output batch, whose set and LEVEL the engines take their sizes from (R283). -/
def State.sizeRef (s : State) (c : Ctx) : Option RecIn :=
  (reference ((s.inputs c ((c.view 2).elim 0 (fun v => (v.batchIn.head?).getD 0))).map (·.2))).filter (fun x => !x.outside)

/-- Words of a row as the operand's shape gives them. -/
def View.n (v : View) : Nat := v.desc.roleExtent Role.word

/-- Residue rows of all components and batches in this tile's view. -/
def View.polyRows (v : View) : Nat :=
  (v.roleIn Role.row).length * (v.roleIn Role.comp).length * v.batchIn.length

/-- Components of all batches in this tile's view. -/
def View.polyComps (v : View) : Nat := (v.roleIn Role.comp).length * v.batchIn.length

/-- LEVEL as the operand's shape gives it. -/
def View.level (v : View) : Nat := v.desc.roleExtent Role.row - 1 - v.desc.specialRows

/-- s_N and s'_N (R128). -/
def sOf (n : Nat) : Nat := max (n / 128) 16
def sOf' (n : Nat) : Nat := max (n / 64) 16

/-- The ring dimension N of a macro-operation: of the set its word names, else of its reference input's set, never of a
descriptor (R283); where neither exists, as OPND0's shape gives it (DESIGN CHOICE, log 42). -/
def State.ringOf (s : State) (c : Ctx) : Nat :=
  let shape := (c.view 0).elim 1 View.n
  if c.w.usesPset then (match s.pset c.w.pset with | some p => p.n | none => shape)
  else match s.sizeRef c with
    | some r => (match s.pset r.r.pset with | some p => p.n | none => shape)
    | none => shape

/-- LEVEL of a macro-operation in the latency formulas: as OPND0's shape gives it, whatever its record holds (R70, R120). -/
def Ctx.level (c : Ctx) : Nat := (c.view 0).elim 0 View.level

/-- Byte address of element 0 of this tile's shard of an operand (R143). -/
def View.base (v : View) : Nat := v.desc.shardBase v.tile ((v.desc.tileShard v.tile).getD 0) + 64 * v.off + v.lead

end Sys2Proof.Machine
end

