-- ==== Sys2Proof/Machine/Reads.lean ====
section
/-!
DEFINITION. What a macro-operation reads (R88): the elements that move (R289, R563), the words of vector programs and the
transfers of their LD and LDK (R143-R145), and the uncorrectable scratchpad word that a read meets.
-/
namespace Sys2Proof.Machine

/-! ## Which elements move (R289, R563) -/

/-- Elements of a descriptor in a tile's shard; every element where it is not tile-sharded. -/
def View.chosen (v : View) : List Nat :=
  (List.range v.desc.count).filter (fun i => !v.desc.tileSharded || v.holds (v.desc.unlinear i))

/-- A move: the indices of the destination element, and those of the source element or none where 0 is written. -/
abbrev Move := List Nat × Option (List Nat)

/-- The moves of a LOAD or STORE. -/
def copyMoves (src dst : View) : List Move :=
  (if dst.desc.tileSharded then dst.chosen else src.chosen).map (fun i => (dst.desc.unlinear i, some (src.desc.unlinear i)))

/-- The moves of a GATHER. -/
def gatherMoves (src dst : View) (idx : List Nat) : List Move :=
  dst.chosen.map (fun i => (dst.desc.unlinear i,
    let k := idx.getD i src.desc.count
    if k < src.desc.count then some (src.desc.unlinear k) else none))

/-- The moves of a SCATTER, in ascending order of the source. -/
def scatterMoves (src dst : View) (idx : List Nat) : List Move :=
  src.chosen.filterMap (fun i =>
    let k := idx.getD i dst.desc.count
    if k < dst.desc.count then some (dst.desc.unlinear k, some (src.desc.unlinear i)) else none)

/-- The moves of a tile-DMA macro-operation. -/
def State.moves (s : State) (c : Ctx) : List Move :=
  match c.view 0, c.view 2 with
  | some src, some dst =>
    match c.w.family, c.view 1 with
    | 21, some ix => gatherMoves src dst (s.readIndex ix)
    | 22, some ix => scatterMoves src dst (s.readIndex ix)
    | _, _ => copyMoves src dst
  | _, _ => []

/-- The batches whose elements a macro-operation moves (R563): of its shard of the destination, else of its shard of the
source. -/
def movedBatches (w : MopWord) (src dst : View) : List Nat :=
  if (dst.desc.tileSharded && w.family != Fam.scatter) || !src.desc.tileSharded || w.family == Fam.gather then
    dst.outBatches
  else dst.outBatches.filter src.batchIn.contains

/-! ## Vector programs (R143-R145) -/

/-- A vector program: its row map and its instruction words (Table OP.11). -/
structure Program where
  rowmap : List Nat
  words : List Nat
deriving DecidableEq, Repr

/-- A program from its bytes. -/
def Program.parse (b : List Byte) : Program :=
  { rowmap := (List.range 32).map (fun i => fld b i 1),
    words := (List.range (fld b 0x20 1)).map (fun i => fld b (0x40 + 4 * i) 4) }

/-- (offset, size) of a section of a loaded image (R293). -/
def PrkInfo.section (p : PrkInfo) (k : Nat) : Nat × Nat := p.sections.getD k (0, 0)

/-- Where program `k` of a loaded pricking lies: its entry in the section's index and its bytes, as (address, length). -/
def State.programAt (s : State) (p : PrkInfo) (k : Nat) : List (Nat × Nat) :=
  let sec := p.base + (p.section 4).1
  [(sec + 4 * k, 4), (sec + leNat (s.readZeroed (sec + 4 * k) 4), 320)]

/-- Program `k` of a loaded pricking, read from the image. -/
def State.program (s : State) (p : PrkInfo) (k : Nat) : Program :=
  let sec := p.base + (p.section 4).1
  Program.parse (s.readZeroed (sec + leNat (s.readZeroed (sec + 4 * k) 4)) 320)

/-! ## Instruction words (Table PE.3) -/

def vOp (w : Nat) : Nat := bits w 5 0
def vD (w : Nat) : Nat := bits w 9 6
def vA (w : Nat) : Nat := bits w 13 10
def vB (w : Nat) : Nat := bits w 17 14
def vC (w : Nat) : Nat := bits w 21 18
def vBc (w : Nat) : Nat := bits w 23 22
def vSel (w : Nat) : Nat := bits w 30 24
/-- LD, ST, LDK: operand slot, first row, COUNT and group offset. -/
def vSlot (w : Nat) : Nat := bits w 11 10
def vFirst (w : Nat) : Nat := bits w 13 12 + 4 * bits w 16 14
def vCount (w : Nat) : Nat := bits w 17 17 + 2 * bits w 21 18 + 1
def vGoff (w : Nat) : Nat := bits w 31 22

def vMem (w : Nat) : Bool := [0x20, 0x21, 0x22].contains (vOp w)
/-- Base address of each operand slot in this tile; 0 where the slot holds no operand. -/
abbrev Slots := List Nat

/-- Address and length of a transfer. -/
def vTransfer (slots : Slots) (w : Nat) : Nat × Nat := (slots.getD (vSlot w) 0 + 3072 * vGoff w, 512 * vCount w)

/-- The slots' base addresses. -/
def slotsOf (j : Job) (t : Nat) (w : MopWord) : Slots :=
  w.opnds.map (fun o => match j.view t o with | some v => v.base | none => 0)

def Ctx.slots (c : Ctx) : Slots := (List.range 4).map (fun k => match c.view k with | some v => v.base | none => 0)

/-- PROG (Table OP.4). -/
def MopWord.prog (w : MopWord) : Nat := w.immBits 15 0

/-! ## Matrices: dimension role WORD runs along a row, all other dimensions count rows (DEDUCED, log 46) -/

def matGo : List Dim → Nat → Nat → List Nat
  | [], _, _ => []
  | d :: ds, k, j =>
    if d.role = Role.word then j % d.extent :: matGo ds k (j / d.extent)
    else k % d.extent :: matGo ds (k / d.extent) j

/-- Indices of the element in row k, column j of a matrix operand (DEDUCED, log 46). -/
def Desc.matAt (d : Desc) (k j : Nat) : List Nat := matGo d.dims k j

/-- Rows and columns of a matrix operand (DEDUCED, log 46). -/
def Desc.matCols (d : Desc) : Nat := d.roleExtent Role.word
def Desc.matRows (d : Desc) : Nat := d.count / d.matCols

/-- Rows of a matrix operand in the tile's view (DEDUCED, log 46). -/
def View.matRowsIn (v : View) : List Nat := (List.range v.desc.matRows).filter (fun k => v.holds (v.desc.matAt k 0))

/-- MMODE of an MXP (Table OP.4). -/
def MopWord.mmode (w : MopWord) : Nat := w.immBits 1 0

/-! ## Uncorrectable words (R88) -/

/-- A word at an address lies in an extent (address, length). -/
def wordIn (a : Nat) (r : Nat × Nat) : Bool := decide (r.1 < a + 4) && decide (a < r.1 + r.2)

/-- The extents of an operand's elements in this tile's view that `keep` picks. -/
def View.extents (v : View) (keep : List Nat → Bool) : List (Nat × Nat) :=
  (((List.range v.desc.count).map v.desc.unlinear).filter (fun ix => v.holds ix && keep ix)).map v.extent

/-- The elements that a macro-operation reads of an operand: EXTRACT row 0 of components 0 and 1 (R133), MODUP the rows of its
digit (R136), every other opcode all of them. -/
def State.readsElem (s : State) (c : Ctx) (v : View) (ix : List Nat) : Bool :=
  match c.w.family with
  | 3 => v.desc.roleIndex Role.row ix == 0 && decide (v.desc.roleIndex Role.comp ix < 2)
  | 4 => (s.pset c.w.pset).elim true (fun p =>
      (digitRows (alphaOf p.chain p.dnum) (c.w.immBits 2 0) c.level).contains (v.desc.roleIndex Role.row ix))
  | _ => true

/-- The bytes that a macro-operation reads of the operand at a position: its elements in this tile's view; the 512 bytes of a
CMUL's constant table (R141); the bounding range where it reads bytes and no elements (a CHK, the source of a VCVT, an untyped
operand), or rows that pass through a chain's ring (DESIGN CHOICE, log 29); of an MXP's W the rows of its own output. -/
def State.readExtents (s : State) (c : Ctx) (k : Nat) (v : View) : List (Nat × Nat) :=
  if c.w.family = Fam.cmul ∧ k = 1 then [(v.base, 512)]
  else if v.buf.isSome || c.w.family == Fam.chk || c.w.family == Fam.vcvt || c.w.positions.getD k .absent == .untyped then
    [(v.dataRange.1, v.dataRange.2 - v.dataRange.1)]
  else if c.w.family = Fam.mxp ∧ k = 1 then
    (if c.w.mmode = 2 then [0] else (c.view 2).elim [] View.matRowsIn).flatMap (fun r =>
      (List.range v.desc.matCols).map (fun j => v.extent (v.desc.matAt r j)))
  else v.extents (s.readsElem c v)

/-- The copies of input records that a macro-operation reads, by their batches (R561, R563; DEDUCED, log 46). -/
def Ctx.recordReads (c : Ctx) (k : Nat) (v : View) : List (Nat × Nat) :=
  let batches := match c.view 2 with
    | some d =>
      if [Fam.load, Fam.store, Fam.gather, Fam.scatter].contains c.w.family then movedBatches c.w v d
      else if c.w.family = Fam.mxp ∨ c.w.family = Fam.pbs then v.batchIn
      else d.outBatches.map (v.batchFor d)
    | none => v.batchIn
  if c.w.recordAt k v.desc then batches.map (fun b => (v.recordRead (if v.desc.hasRole Role.batch then b else 0), 64)) else []

/-- The source words that an AUTO by index tensor copies (R132). -/
def State.indexReads (s : State) (src ix dst : View) : List (Nat × Nat) :=
  (List.zip (List.range dst.desc.count) (s.readIndex ix)).filterMap fun p =>
    if dst.holds (dst.desc.unlinear p.1) && decide (p.2 < src.desc.count) then some (src.extent (src.desc.unlinear p.2)) else none

/-- The data bytes that a macro-operation reads, but for a VPROG; a SEND reads none, since its receiver does (R361, R362). -/
def State.dataReads (s : State) (c : Ctx) : List (Nat × Nat) :=
  if c.w.family = Fam.send then []
  else if [Fam.load, Fam.store, Fam.gather, Fam.scatter].contains c.w.family then
    (c.view 0).elim [] (fun src => (s.moves c).filterMap (fun m => m.2.map src.extent))
  else match c.view 0, c.view 1, c.view 2 with
    | some src, some ix, some dst =>
      if c.w.family = Fam.auto then s.indexReads src ix dst
      else c.operands.flatMap (fun p => if c.w.readsAt p.1 then s.readExtents c p.1 p.2 else [])
    | _, _, _ => c.operands.flatMap (fun p => if c.w.readsAt p.1 then s.readExtents c p.1 p.2 else [])

/-- An LD or LDK of a program loads a word that no earlier ST of the program has written over. -/
def vLoads (slots : Slots) (a : Nat) : List Nat → Bool
  | [] => false
  | w :: l =>
    let r := vTransfer slots w
    if vOp w = 0x21 then !(decide (r.1 ≤ a) && decide (a + 4 ≤ r.1 + r.2)) && vLoads slots a l
    else (vMem w && wordIn a r) || vLoads slots a l

/-- The slots of each run of a VPROG: in FC2 and FC5 slot 0 is the one or the other ring slot (R260). -/
def Ctx.runSlots (c : Ctx) : List Slots :=
  match c.chain with
  | some ch =>
    if ch.kind = 2 ∨ ch.kind = 5 then [0, 1].map (fun u => (ch.base + 4096 + 16384 * u) :: c.slots.drop 1) else [c.slots]
  | none => [c.slots]

/-- A read of the macro-operation meets the scratchpad word at an address. -/
def State.readsWord (s : State) (c : Ctx) (a : Nat) : Bool :=
  (if c.w.family = Fam.vprog then
      c.runSlots.any (fun x => vLoads x a (s.program c.job.image c.w.prog).words)
    else (s.dataReads c).any (wordIn a)) ||
    c.operands.any (fun p => c.w.readsAt p.1 && c.w.family != Fam.send && (c.recordReads p.1 p.2).any (wordIn a))

/-- The first uncorrectable scratchpad word that the macro-operation reads (R88). -/
def State.badWord (s : State) (c : Ctx) : Option Nat :=
  (s.tile c.t).eccDouble.find? (fun o => s.readsWord c (scratchAddr c.t o))

/-- The cause that a command may bring in: a word that the macro-operation reads and that is uncorrectable now. -/
def State.meets (s : State) (c : Ctx) (cause : AbortCause) : Bool :=
  match cause with
  | .scratchWord o => c.mop.start.isSome && !c.mop.done && s.readsWord c (scratchAddr c.t (o / 4 * 4))
  | _ => false

/-- An engine's work on a macro-operation, unless a read meets an uncorrectable word: then its granule is marked and
the macro-operation stops (R88). -/
def State.guarded (c : Ctx) (f : State → State) (s : State) : State :=
  match s.badWord c with
  | some o => (s.markGranule c.t (o / 4096)).stopMop c (.scratchWord o)
  | none => f s

end Sys2Proof.Machine
end

