-- ==== Sys2Proof/Machine/Poly.lean ====
section
/-!
DEFINITION. The NTE, AUE, BCE and the stream form of the VE (04_polynomial_engines): what NTT, INTT, AUTO, EXTRACT, MODUP,
MODDOWN, RESCALE, HMUL, PMUL, ADD, SUB, NEG and CMUL write, and their latencies and engine intervals.
-/
namespace Sys2Proof.Machine

/-! ## Rows -/

/-- Modulus index of row r of data of a reference record (R117). -/
def PSet.rowMod (p : PSet) (ref : RecIn) (r : Nat) : Nat :=
  if ref.r.domain = Dom.lwe then 0x7F else p.rowIndex ref.r.level r

/-- ψ for a set's ring dimension and modulus index. -/
def PSet.psi (p : PSet) (i : Nat) : Nat := psiOf (p.modulus i).root (p.q i) p.logN

/-- Every residue row in the views of output and input, rewritten by `f` of its modulus index. An output of other ROW
or COMP extents than the input's takes its rows with indices that wrap (DESIGN CHOICE, log 41). -/
def mapRows (s : State) (src dst : View) (b : Nat) (ref : RecIn) (p : PSet) (f : Nat → List Nat → List Nat) :
    List ElemOut :=
  let bi := src.batchFor dst b
  (dst.sharedRole src Role.comp).flatMap fun c => (dst.sharedRole src Role.row).flatMap fun r =>
    rowOut dst r c b (f (p.rowMod ref r) (s.readRowIn src src.n r c bi))

/-- Rows 0 … of component c of a batch, each as a list of words. -/
def State.readRows (s : State) (v : View) (rows c b : Nat) : List (List Nat) :=
  (List.range rows).map (fun r => s.readRow v v.n r c b)

/-- The rows of an output component from columns; surplus rows wrap onto the output's rows (DESIGN CHOICE, log 41). -/
def rowsOut (v : View) (c b rows : Nat) (cols : List (List Nat)) : List ElemOut :=
  (List.range rows).flatMap fun r => rowOut v r c b (cols.map (fun x => x.getD r 0))

/-! ## NTE (R124-R129) -/

def nttData (lazyOut : Bool) (src : View) (s : State) (dst : View) (b : Nat) (ref : RecIn) (p : PSet) :
    List ElemOut :=
  mapRows s src dst b ref p (fun i row => nttRow (p.q i) (p.psi i) p.logN lazyOut row)

def inttData (src : View) (s : State) (dst : View) (b : Nat) (ref : RecIn) (p : PSet) : List ElemOut :=
  mapRows s src dst b ref p (fun i row => inttRow (p.q i) (p.psi i) p.logN row)

/-- No flags beyond the shared ones. -/
def noExtra (_ : Option RecIn) : Nat := 0

/-- A one-input engine command: context, guard against uncorrectable words, then the typed effect. -/
def State.unary (s : State) (t seq : Nat) (kind : MopWord → Bool)
    (rule : Ctx → List (Nat × RecIn) → RecIn → RecRule) (extra : Ctx → Option RecIn → Nat)
    (data : Ctx → View → State → View → Nat → RecIn → PSet → List ElemOut) : Out :=
  s.withReady t seq kind fun c =>
    s.guarded c fun s =>
      match c.view 0 with
      | some v => s.typedOp c (rule c) (extra c) (data c v)
      | none => s.markDone c

/-- NTT: every residue row forward, in evaluation form (R125, R127). -/
def execNtt (t seq : Nat) (s : State) : Out :=
  s.unary t seq (fun w => w.family == Fam.ntt) (fun _ _ => keepRule Fam.ntt) (fun _ => noExtra)
    (fun c => nttData (bit c.w.imm 0))

/-- INTT: every residue row inverse (R126). -/
def execIntt (t seq : Nat) (s : State) : Out :=
  s.unary t seq (fun w => w.family == Fam.intt) (fun _ _ => keepRule Fam.intt) (fun _ => noExtra) (fun _ => inttData)

/-! ## AUE (R130-R134) -/

/-- The Galois element of the word (Table OP.4). -/
def MopWord.galois (w : MopWord) : Nat := w.immBits 19 2

def isAuto (form : Nat) (w : MopWord) : Bool := w.family == Fam.auto && w.immBits 1 0 == form

/-- AUTO in coefficient form (R130). -/
def execAutoCoefficient (t seq : Nat) (s : State) : Out :=
  s.unary t seq (isAuto 0) (fun _ _ => keepRule Fam.auto) (fun _ => noExtra)
    (fun c src s dst b ref p => mapRows s src dst b ref p (fun i row => autoCoeff (p.q i) c.w.galois row))

def autoEvalData (c : Ctx) (src : View) (s : State) (dst : View) (b : Nat) (ref : RecIn) (p : PSet) : List ElemOut :=
  mapRows s src dst b ref p (fun _ row => autoEval p.logN c.w.galois row)

/-- The largest COMPONENTS of the inputs that passed checks 1 to 4 (ADD and SUB, Table CT.5; DESIGN CHOICE, log 77). -/
def maxComps (ins : List (Nat × RecIn)) : Nat := ((ins.filter (fun x => x.2.sound)).map (fun x => x.2.r.comps)).foldl max 0

/-- The record and flags of an ADD or SUB of two records inside a chain: `x` and `y` as they would be read (R256). -/
def chainAdd (s : State) (fam : Nat) (out : Desc) (x y : RecIn) : Rec × Nat :=
  let fl := orFlags [x.newFlags, y.newFlags, compareRecords [x, y]]
  match reference [x, y] with
  | none => (noReference Dom.rlwe out, fl)
  | some ref =>
    let o := applyRule s [x, y] ref { keepRule fam ref with comps := maxComps [(0, x), (1, y)] }
    (o.1, fl ||| o.2)

/-- A record written inside a chain as its next reader finds it. -/
def reread (s : State) (c : Ctx) (accepted : List Nat) (d : Desc) (r : Rec) : RecIn :=
  checkRecord s (r.bytes 0 []) accepted none c.job.image.psetRef.toNat d false false

/-- Flags of `new` that are not in `old`. -/
def without (new old : Nat) : Nat := new - (new &&& old)

/-- FC4 stage 1 on one batch: acc[i] + a[π(i)] as a modular sum; the AUTO row, then the ADD row (R256, R264). The ADD takes the
AUTO result as its first operand and so as its reference input (DESIGN CHOICE, log 36). -/
def State.autoAddBatch (s : State) (c : Ctx) (src acc : View) (b : Nat) : BatchOut :=
  let o := s.batchOut c acc b (fun _ => keepRule Fam.auto) noExtra (fun _ _ => [])
  let x := reread s c [1, 2] acc.desc { o.record with flags := o.flags }
  let y := checkRecord s (s.readZeroed (acc.recordRead b) 64) [x.r.domain, 4] none c.job.image.psetRef.toNat acc.desc true
    (c.mop.marked.contains 2)
  let r := chainAdd s Fam.add acc.desc x y
  let new := o.newFlags ||| without r.2 o.flags
  let flags := orFlags [new, o.flags, y.r.flags]
  { b := b, newFlags := new, flags := flags, record := r.1,
    data := if flags = 0 then
        (match s.pset x.r.pset with
        | some p =>
          (acc.sharedRole src Role.comp).flatMap fun k => (acc.sharedRole src Role.row).flatMap fun i =>
            rowOut acc i k b (List.zipWith (fun a v => (a + v) % p.q (p.rowMod x i)) (s.readRow acc acc.n i k b)
              (autoEval p.logN c.w.galois (s.readRow src src.n i k (src.batchFor acc b))))
        | none => [])
      else [] }

/-- AUTO in evaluation form (R131); as stage 1 of FC4 it adds into the accumulator (R264). -/
def execAutoEvaluation (t seq : Nat) (s : State) : Out :=
  if ((s.mopOf t seq).map (fun m => m.word.chain)).getD 0 = 4 then
    s.withReady t seq (isAuto 1) fun c => s.guarded c fun s =>
      match c.view 0, c.view 2 with
      | some src, some acc => s.commitOut c acc (acc.outBatches.map (s.autoAddBatch c src acc))
      | _, _ => s.markDone c
  else s.unary t seq (isAuto 1) (fun _ _ => keepRule Fam.auto) (fun _ => noExtra) autoEvalData

/-- The source word with a global linear index; 0 beyond the source (R132, R289). -/
def State.linearWord (s : State) (src : View) (i : Nat) : Nat :=
  if i < src.desc.count then s.readElem src (src.desc.unlinear i) else 0

/-- AUTO by index tensor (R132): words copied in the operands' global linear order. Where the index has fewer entries
than the output has elements, only those with an entry are written (DESIGN CHOICE, log 41). -/
def autoIndexData (c : Ctx) (src : View) (s : State) (dst : View) (b : Nat) (_ : RecIn) (_ : PSet) : List ElemOut :=
  match c.view 1 with
  | none => []
  | some ix =>
    (List.zip (List.range dst.desc.count) (s.readIndex ix)).filterMap fun p =>
      let e := dst.desc.unlinear p.1
      if inBatch dst.desc b e then some (e, s.linearWord src p.2) else none

/-- AUTO by index tensor. A poisoned line of the index stops it unless every output is poisoned already (Table MS.6). -/
def execAutoIndex (t seq : Nat) (s : State) : Out :=
  s.withReady t seq (isAuto 2) fun c =>
    s.guarded c fun s =>
      match c.view 0, c.view 1, c.view 2 with
      | some src, some ix, some dst =>
        let outs := dst.outBatches.map (fun b =>
          s.batchOut c dst b (fun _ => keepRule Fam.auto) noExtra (autoIndexData c src s dst b))
        let index := if outs.any (fun o => o.flags == 0) then
            (List.range ix.desc.count).map (fun i => ix.extent (ix.desc.unlinear i)) else []
        (match s.badLine index with
        | some a => s.stopMop c (.memLine a)
        | none => s.commitOut c dst outs)
      | _, _, _ => s.markDone c

/-- EXTRACT's record: LWE, LEVEL 0, N + 1 components (Table CT.5). -/
def extractRule (s : State) (out : Desc) (ref : RecIn) : RecRule :=
  { keepRule Fam.extract ref with
    level := 0, domain := Dom.lwe, comps := derivedComps s ref out Dom.lwe (fun p => p.n + 1) }

/-- The descriptor of the output operand. -/
def Ctx.outDesc (c : Ctx) : Desc := match c.view 2 with | some v => v.desc | none => Desc.parse []

/-- EXTRACT at coefficient COEF: row 0 of components 0 and 1 (R133); of an input with one component, that component
serves as both (DESIGN CHOICE, log 41). -/
def execExtract (t seq : Nat) (s : State) : Out :=
  s.unary t seq (fun w => w.family == Fam.extract) (fun c _ => extractRule s c.outDesc) (fun _ => noExtra)
    (fun c src s dst b _ p =>
      let bi := src.batchFor dst b
      rowOut dst 0 0 b (extractLwe (p.q 0) (c.w.immBits 16 0) (s.readRow src src.n 0 0 bi) (s.readRow src src.n 0 1 bi)))

/-! ## BCE (R135-R139) -/

/-- The moduli of chain rows 0 … ℓ and the special moduli. -/
def PSet.chainQs (p : PSet) (level : Nat) : List Nat := (List.range (level + 1)).map p.q
def PSet.specialQs (p : PSet) : List Nat := (List.range p.special).map (fun i => p.q (p.chain + i))

/-- MODUP of one component's columns (R136). -/
def modupCols (p : PSet) (d level : Nat) (cols : List (List Nat)) : List (List Nat) :=
  cols.map (modupAt (alphaOf p.chain p.dnum) d (p.chainQs level) p.specialQs)

/-- MODUP: one digit to the full basis. -/
def execModup (t seq : Nat) (s : State) : Out :=
  s.unary t seq (fun w => w.family == Fam.modup) (fun _ _ => rlweRule Fam.modup) (fun _ => noExtra)
    (fun c src s dst b ref p =>
      let bi := src.batchFor dst b
      (dst.roleIn Role.comp).flatMap fun k =>
        rowsOut dst k b (ref.r.level + 1 + p.special)
          (modupCols p (c.w.immBits 2 0) ref.r.level (columns p.n (s.readRows src (ref.r.level + 1) k bi))))

/-- RESCALE and MODDOWN drop the top chain modulus with rounding (R138). -/
def dropData (src : View) (s : State) (dst : View) (b : Nat) (ref : RecIn) (p : PSet) : List ElemOut :=
  let bi := src.batchFor dst b
  (dst.roleIn Role.comp).flatMap fun k =>
    rowsOut dst k b ref.r.level
      ((columns p.n (s.readRows src (ref.r.level + 1) k bi)).map (dropAt ref.r.level (p.chainQs ref.r.level)))

/-- NOISE of MODDOWN and RESCALE: NOISE_POST_RLWE when CLOSE is set (R213); 0 under R559 (DEDUCED, log 51). -/
def closeNoise (s : State) (w : MopWord) (ref : RecIn) : Option Int :=
  if bit w.imm 0 then
    (if ref.outside then some 0 else match s.pset ref.r.pset with | some p => some (p.postRlwe : Int) | none => some 0)
  else none

/-- MODDOWN: LEVEL − 1 (Table CT.5). -/
def execModdown (t seq : Nat) (s : State) : Out :=
  s.unary t seq (fun w => w.family == Fam.moddown)
    (fun c _ ref => { rlweRule Fam.moddown ref with level := (ref.r.level : Int) - 1, noise := closeNoise s c.w ref })
    (fun _ => noExtra) (fun _ => dropData)

/-- RESCALE: LEVEL − 1 and SCALE lowered by SCALE_STEP of chain modulus LEVEL. -/
def execRescale (t seq : Nat) (s : State) : Out :=
  s.unary t seq (fun w => w.family == Fam.rescale)
    (fun c _ ref => { rlweRule Fam.rescale ref with
      level := (ref.r.level : Int) - 1, scale := ref.r.scaleInt - (scaleStepOf s ref : Int),
      noise := closeNoise s c.w ref })
    (fun _ => noExtra) (fun _ => dropData)

/-! ## VE, stream form (R141, Table PE.2) -/

/-- The words of component c, row r of an operand for batch b of the output; zeros where it has no such component, or none in
this tile's view (R121, R141, R561; DESIGN CHOICE, log 41). -/
def State.streamRow (s : State) (dst v : View) (c r b : Nat) : List Nat :=
  if decide (c < v.desc.roleExtent Role.comp) && v.holdsRole Role.comp c then s.readRowIn v dst.n r c (v.batchFor dst b)
  else List.replicate dst.n 0

/-- Word i of the constant table (R141). -/
def State.tableWord (s : State) (v : View) (i : Nat) : Nat := s.readWord (v.base + 4 * (if i = 0x7F then 127 else i))

/-- Component k of an HMUL at one row: Σ over i + j = k of a_i · b_j, an exact residue (R123). -/
def hmulRow (q n : Nat) (a b : Nat → List Nat) (ca cb k : Nat) : List Nat :=
  (List.range n).map (fun w =>
    total (((List.range (k + 1)).filter (fun i => decide (i < ca) && decide (k - i < cb))).map
      (fun i => (a i).getD w 0 * (b (k - i)).getD w 0)) % q)

/-- Output row (component k, row r) of a stream-form operation. -/
def streamOut (s : State) (fam : Nat) (a : View) (b2 : Option View) (dst : View) (k r b : Nat) (i q : Nat) : List Nat :=
  let x := s.streamRow dst a k r b
  match fam, b2 with
  | 8, some v =>
    hmulRow q dst.n (fun c => s.streamRow dst a c r b) (fun c => s.streamRow dst v c r b) (a.desc.roleExtent Role.comp)
      (v.desc.roleExtent Role.comp) k
  | 9, some v => List.zipWith (fun x y => x * y % q) x (s.streamRow dst v 0 r b)
  | 10, some v => List.zipWith (fun x y => (x + y) % q) x (s.streamRow dst v k r b)
  | 11, some v => List.zipWith (fun x y => (x % q + q - y % q) % q) x (s.streamRow dst v k r b)
  | 13, some v => let cst := s.tableWord v i; x.map (fun x => x * cst % q)
  | _, _ => x.map (negSel q)

/-- The rows that lie in the tile's views of the output and of every input stream; the constant table of a CMUL has no rows
(R121, R141). -/
def streamRows (fam : Nat) (a : View) (b2 : Option View) (dst : View) : List Nat :=
  (dst.sharedRole a Role.row).filter (fun r => fam == Fam.cmul || b2.all (fun v => v.holdsRole Role.row r))

/-- Data of a stream-form operation. -/
def streamData (fam : Nat) (c : Ctx) (a : View) (s : State) (dst : View) (b : Nat) (ref : RecIn) (p : PSet) :
    List ElemOut :=
  (dst.roleIn Role.comp).flatMap fun k => (streamRows fam a (c.view 1) dst).flatMap fun r =>
    let i := p.rowMod ref r
    rowOut dst r k b (streamOut s fam a (c.view 1) dst k r b i (p.q i))

/-- SCALE of the PLAIN operand of a PMUL (Table CT.5); an input that failed checks 1 to 4 adds nothing to a sum or maximum
of that table (DESIGN CHOICE, log 77). -/
def plainScale (ins : List (Nat × RecIn)) : Int :=
  match ins.find? (fun x => x.2.sound && x.2.r.domain == Dom.plain) with
  | some x => x.2.r.scaleInt
  | none => 0

/-- Sum over the inputs that passed checks 1 to 4; the others add nothing (DESIGN CHOICE, log 77). -/
def soundSum (ins : List (Nat × RecIn)) (f : Rec → Int) : Int :=
  ((ins.filter (fun x => x.2.sound)).map (fun x => f x.2.r)).foldl (· + ·) 0

/-- HMUL: SCALE the sum of the inputs', COMPONENTS their sum less 1. -/
def execHmul (t seq : Nat) (s : State) : Out :=
  s.unary t seq (fun w => w.family == Fam.hmul)
    (fun _ ins ref => { rlweRule Fam.hmul ref with
      scale := soundSum ins Rec.scaleInt, comps := (soundSum ins (fun r => (r.comps : Int)) - 1).toNat })
    (fun _ => noExtra) (streamData Fam.hmul)

/-- PMUL: SCALE the ciphertext's plus the plaintext's. -/
def execPmul (t seq : Nat) (s : State) : Out :=
  s.unary t seq (fun w => w.family == Fam.pmul)
    (fun _ ins ref => { rlweRule Fam.pmul ref with
      scale := ref.r.scaleInt + (if ref.cipher then plainScale ins else 0) })
    (fun _ => noExtra) (streamData Fam.pmul)

/-- ADD. -/
def execAdd (t seq : Nat) (s : State) : Out :=
  s.unary t seq (fun w => w.family == Fam.add) (fun _ ins ref => { keepRule Fam.add ref with comps := maxComps ins })
    (fun _ => noExtra) (streamData Fam.add)

/-- SUB. -/
def execSub (t seq : Nat) (s : State) : Out :=
  s.unary t seq (fun w => w.family == Fam.sub) (fun _ ins ref => { keepRule Fam.sub ref with comps := maxComps ins })
    (fun _ => noExtra) (streamData Fam.sub)

/-- NEG. -/
def execNeg (t seq : Nat) (s : State) : Out :=
  s.unary t seq (fun w => w.family == Fam.neg) (fun _ _ => keepRule Fam.neg) (fun _ => noExtra) (streamData Fam.neg)

/-- CMUL: SCALE plus CSCALE (DEDUCED, log 43). -/
def execCmul (t seq : Nat) (s : State) : Out :=
  s.unary t seq (fun w => w.family == Fam.cmul)
    (fun c _ ref => { keepRule Fam.cmul ref with scale := ref.r.scaleInt + signed 16 (c.w.immBits 15 0) })
    (fun _ => noExtra) (streamData Fam.cmul)

/-! ## Narrow transfers (R140) -/

/-- The strips of a set of bytes, rising, without repeats: `as` are byte addresses with lengths. -/
def stripsOf (l : List (Nat × Nat)) : List Nat :=
  l.foldl (fun acc p => if p.2 = 0 then acc
    else (List.range ((p.1 + p.2 - 1) / 512 - p.1 / 512 + 1)).foldl (fun acc i => insertNat (p.1 / 512 + i) acc) acc) []

/-- Groups of at most 6 strips, cut from runs of consecutive strips. -/
def groupsGo : Option Nat → Nat → List Nat → Nat
  | _, _, [] => 0
  | prev, k, x :: l =>
    match prev with
    | some y => if x = y + 1 ∧ k < 6 then groupsGo (some x) (k + 1) l else 1 + groupsGo (some x) 1 l
    | none => 1 + groupsGo (some x) 1 l

/-- Number of groups of a transfer (R140). -/
def groupCount (l : List (Nat × Nat)) : Nat := groupsGo none 0 (stripsOf l)

/-- Index of the group that holds each strip, in address order. -/
def groupIndexGo : Option Nat → Nat → Nat → List Nat → List (Nat × Nat)
  | _, _, _, [] => []
  | prev, k, g, x :: l =>
    match prev with
    | some y => if x = y + 1 ∧ k < 6 then (x, g) :: groupIndexGo (some x) (k + 1) g l
                else (x, g + 1) :: groupIndexGo (some x) 1 (g + 1) l
    | none => (x, g) :: groupIndexGo (some x) 1 g l

/-- (strip, group) pairs of a transfer. -/
def groupIndex (l : List (Nat × Nat)) : List (Nat × Nat) := groupIndexGo none 0 0 (stripsOf l)

/-! ## Latencies (R128, R134, R139, R142, R562): latency and engine interval -/

/-- Word positions of one component of one batch in this tile's view: (row, word), row by row. -/
def View.positions (v : View) : List (Nat × Nat) :=
  (v.roleIn Role.row).flatMap (fun r => (v.roleIn Role.word).map (fun w => (r, w)))

/-- Byte extents of positions of component c of batch b. -/
def View.bytesAt (v : View) (c b : Nat) (ps : List (Nat × Nat)) : List (Nat × Nat) :=
  ps.map (fun p => (v.addr (v.desc.place p.2 p.1 c b), 4))

/-- Passes of 768 positions. -/
def passesGo : Nat → List (Nat × Nat) → List (List (Nat × Nat))
  | 0, _ => []
  | f + 1, l => match l with
    | [] => []
    | _ => l.take 768 :: passesGo f (l.drop 768)

def passesOf (l : List (Nat × Nat)) : List (List (Nat × Nat)) := passesGo l.length l

/-- Groups of one stream in one pass: nothing where the operand has no such component in this tile's view (DEDUCED,
log 43). -/
def View.streamGroups (v : View) (c b : Nat) (ps : List (Nat × Nat)) : Nat :=
  if (v.roleIn Role.comp).contains c then groupCount (v.bytesAt c b ps) else 0

/-- Latency of a stream-form operation (R142). The constant table of CMUL and a zero-extended component are no streams
(DEDUCED, log 43). Where no output word lies in this tile's view, R142's sum is empty, and R74's least latency holds, since
records are read (DESIGN CHOICE, log 43). -/
def streamLatency (fam e : Nat) (ins : List View) (dst : View) : Nat :=
  let ps := passesOf dst.positions
  let cs := dst.roleIn Role.comp
  max 8 (1 + total (dst.batchIn.map (fun b =>
    if fam = Fam.hmul then
      total (ps.map (fun q => 32 * (total (cs.map (fun k => dst.streamGroups k b q)) +
        total (ins.map (fun v => total ((v.roleIn Role.comp).map (fun k => v.streamGroups k (v.batchFor dst b) q))))) + e))
    else total (cs.map (fun k => total (ps.map (fun q =>
      32 * (dst.streamGroups k b q +
        total ((List.zip (List.range ins.length) ins).map (fun v =>
          v.2.streamGroups (if fam = Fam.pmul ∧ v.1 = 1 then 0 else k) (v.2.batchFor dst b) q))) + e)))))))

/-- Words that an AUTO by index tensor writes: elements of the output's view that have an entry (R134, R562). -/
def indexedWords (ix dst : View) : Nat :=
  ((List.range (min ix.desc.count dst.desc.count)).filter (fun i => dst.holds (dst.desc.unlinear i))).length

/-- Latency and engine interval of the families of this chapter but VPROG; `n` is the ring dimension, `lv` the LEVEL and
`p` the set the word's PSET names (DESIGN CHOICE, log 42). -/
def polyTiming (w : MopWord) (n lv : Nat) (v0 v1 v2 : Option View) (p : Option PSet) : Nat × Nat :=
  match v0, v2 with
  | some a, some d =>
    let s := sOf n
    match w.family with
    | 0 => let l := a.polyRows * Nat.log2 n * s; (22 + l, l)
    | 1 => let l := a.polyRows * (Nat.log2 n * s + sOf' n); (22 + l, l)
    | 2 =>
      let l := if w.immBits 1 0 = 2 then
          ceilDiv (v1.elim 0 (fun ix => indexedWords ix d)) 128
        else a.polyRows * n / 256
      (20 + l, l)
    | 3 => let l := d.batchIn.length * (n / 128); (20 + l, l)
    | 4 =>
      let l := match p with
        | some p =>
          let k := (digitRows (alphaOf p.chain p.dnum) (w.immBits 2 0) lv).length
          a.polyComps * n * k * (1 + (lv + 1 - k + p.special)) / 64
        | none => 0
      (24 + l, l)
    | 5 => let l := a.polyComps * n * (1 + 2 * lv) / 64; (24 + l, l)
    | 6 => let l := a.polyComps * n * (1 + 2 * lv) / 64; (24 + l, l)
    | 13 => let l := streamLatency 13 11 [a] d; (l, l - 1)
    | 12 => let l := streamLatency 12 3 [a] d; (l, l - 1)
    | f =>
      let ins := match v1 with | some b => [a, b] | none => [a]
      let l := streamLatency f (if f = Fam.hmul then 12 else if f = Fam.pmul then 11 else 3) ins d
      (l, l - 1)
  | _, _ => (8, 1)

end Sys2Proof.Machine
end

