-- ==== Sys2Proof/Machine/Queues.lean ====
section
/-!
DEFINITION. Streams, Shuttle queues, windows (11_streams_queues): the tile control page (Table SQ.1), status words
(Tables SQ.2, SQ.5), opening and closing, epochs (R365, R366), windows (R370, R371), and what paths cost (Tables MS.2, SQ.4).
-/
namespace Sys2Proof.Machine

/-! ## The tile control page (R345, Table SQ.1) -/

abbrev controlPage := 0x5FC000

/-- The stream status word (Table SQ.2). -/
def StreamQueue.bytes (q : StreamQueue) : List Byte :=
  leBytes 1 (match q.state with | .idle => 0 | .running => 1 | .halted => 2) ++ leBytes 1 q.limit ++ leBytes 2 0 ++
    leBytes 4 q.seq ++ leBytes 4 q.pos ++ leBytes 4 (complement 32 q.pos) ++ leBytes 8 q.faultAddr ++ leBytes 4 q.halts ++
    leBytes 4 0

/-- The queue status word (Table SQ.5). -/
def ShuttleQueue.bytes (q : ShuttleQueue) : List Byte :=
  leBytes 1 q.slots.length ++ leBytes 1 (flag q.isOpen) ++ leBytes 2 q.epoch ++ leBytes 2 (complement 16 q.epoch) ++
    leBytes 1 q.head ++ leBytes 1 q.sender ++ leBytes 4 q.taken ++ leBytes 4 0

/-- The Shuttle descriptor (Table SQ.3). -/
def ShuttleDesc.bytes (d : ShuttleDesc) : List Byte :=
  leBytes 2 0xC7F7 ++ leBytes 1 d.queue ++ leBytes 1 d.sender ++ leBytes 2 d.epoch ++ leBytes 2 (complement 16 d.epoch) ++
    leBytes 4 d.length ++ leBytes 4 0 ++ leBytes 8 d.src ++ leBytes 8 d.recAddr

/-- Line requests of a queue outstanding in a tile cycle (R349). -/
def StreamQueue.outstanding (q : StreamQueue) (cycle : Nat) : Nat :=
  (q.issues.filter (fun p => decide (p.1 ≤ cycle) && decide (cycle < p.2))).length

/-- POS in a tile cycle: while the queue runs, as many requests as have been issued. -/
def StreamQueue.posAt (q : StreamQueue) (cycle : Nat) : Nat :=
  if q.state = .running ∧ q.issues ≠ [] then min q.released (q.issues.filter (fun p => decide (p.1 ≤ cycle))).length else q.pos

def Tile.stream (u : Tile) (k : Nat) : StreamQueue := Tab.at u.streams StreamQueue.reset k
def Tile.queue (u : Tile) (k : Nat) : ShuttleQueue := Tab.at u.queues ShuttleQueue.reset k
def Tile.winAt (u : Tile) (k : Nat) : Window := Tab.at u.windows Window.reset k

/-- A stream queue changed; its status word in the control page follows (R350). -/
def State.mapStream (t k : Nat) (f : StreamQueue → StreamQueue) (s : State) : State :=
  let s := s.mapTile t (fun u => { u with streams := Tab.put u.streams k (f (u.stream k)) })
  s.store (scratchAddr t (0x5FE080 + 32 * k)) ((s.tile t).stream k).bytes

/-- A Shuttle queue changed; its status word follows. -/
def State.mapQueue (t k : Nat) (f : ShuttleQueue → ShuttleQueue) (s : State) : State :=
  let s := s.mapTile t (fun u => { u with queues := Tab.put u.queues k (f (u.queue k)) })
  s.store (scratchAddr t (0x5FE000 + 16 * k)) ((s.tile t).queue k).bytes

/-- The descriptor of the i-th slot from the head, in its slot of the control page. -/
def State.writeSlot (t k i : Nat) (d : ShuttleDesc) (s : State) : State :=
  s.store (scratchAddr t (controlPage + 1024 * k + 32 * ((((s.tile t).queue k).head + i) % 32))) d.bytes

/-- The whole control page written at job admission; its marks clear (R346, Table TL.4). -/
def State.writeControlPage (t : Nat) (s : State) : State :=
  let s := s.store (scratchAddr t controlPage) (List.replicate 16384 0)
  let s := (List.range 8).foldl (fun s k => (s.mapStream t k id).mapQueue t k id) s
  s.clearGranules t [1532, 1533, 1534, 1535]

/-! ## Shuttle queues: closing and epochs (R365, R366) -/

/-- How a SEND in a slot ends: its sender's macro-operation learns of it when the completion reaches it. -/
def State.endSend (d : ShuttleDesc) (x : SendState) (s : State) : State :=
  s.mapMop d.sender d.seq (fun m => if m.word.family = Fam.send then { m with send := x } else m)

/-- A queue closes: each SEND whose descriptor remains in a slot completes CLOSED. -/
def State.closeQueue (t k : Nat) (s : State) : State :=
  let q := (s.tile t).queue k
  let s := q.slots.foldl (fun s d => (s.endSend d .closedDue).count .shuttleClosed d.sender 1) s
  s.mapQueue t k (fun q => { q with isOpen := false, slots := [] })

/-- An epoch advances: every descriptor in the slots is discarded and its SEND completes STALE. -/
def State.advanceEpoch (t k : Nat) (s : State) : State :=
  let q := (s.tile t).queue k
  let e := (q.epoch + 1) % 65536
  let s := q.slots.foldl (fun s d => (s.endSend d (.staleDue d.epoch e)).count .shuttleStale d.sender 1) s
  s.mapQueue t k (fun q => { q with epoch := e, slots := [] })

/-- A slot freed, and its descriptor gone (DESIGN CHOICE, log 38). -/
def State.freeSlot (t k : Nat) (d : ShuttleDesc) (s : State) : State :=
  s.mapQueue t k (fun q =>
    { q with slots := q.slots.filter (fun x => x.seq != d.seq), head := (q.head + 1) % 32 })

/-- A taken descriptor leaves its slot and its SEND is acknowledged, unless an advance of the epoch has discarded it (R362,
R365). -/
def State.giveBack (t k : Nat) (d : ShuttleDesc) (s : State) : State :=
  if ((s.tile t).queue k).slots.contains d then (s.freeSlot t k d).endSend d .ackDue else s

/-- Every queue of a tile. -/
def State.closeQueues (t : Nat) (s : State) : State := (List.range 8).foldl (fun s k => s.closeQueue t k) s
def State.advanceEpochs (t : Nat) (s : State) : State := (List.range 8).foldl (fun s k => s.advanceEpoch t k) s

/-- Every queue of a tile opens, empty, for a job; `senders` gives each queue's sender (R366). -/
def State.openQueues (t : Nat) (senders : Nat → Nat) (s : State) : State :=
  (List.range 8).foldl (fun s k => s.mapQueue t k (fun q =>
    { q with isOpen := true, head := 0, slots := [], taken := 0, sender := senders k })) s

/-- Every window of a tile closes; the windows' epochs stay (R371). -/
def State.closeWindows (t : Nat) (s : State) : State :=
  s.mapTile t (fun u => { u with windows := u.windows.map (fun w => { w with isOpen := false }) })

/-- The stream queues of a tile at a job's admission: LIMIT is taken from STRQ_CFG (R349), HALTS counts in the job. -/
def State.admitStreams (t : Nat) (s : State) : State :=
  (List.range 8).foldl (fun s k => s.mapStream t k (fun q =>
    { StreamQueue.reset with cfgLimit := q.cfgLimit, limit := q.cfgLimit })) s

/-- Every stream queue of a tile idle. -/
def State.idleStreams (t : Nat) (s : State) : State :=
  (List.range 8).foldl (fun s k => s.mapStream t k (fun q =>
    { q with state := .idle, issues := [], faultAddr := 0, translated := 0 })) s

/-! ## Windows -/

/-- The open window of a tile that holds a scratchpad byte and names the writer (DESIGN CHOICE, log 40). -/
def Tile.windowFor (u : Tile) (writer off : Nat) : Option Window :=
  u.windows.toList.find? (fun w => w.isOpen && decide (w.lo ≤ off) && decide (off < w.hi) && w.writers.getLsbD writer)

/-- The epoch that an event gives for a dropped byte: that of a window that covers it; 0xFFFF where none does (R372)
(DESIGN CHOICE, log 40). -/
def Tile.dropEpoch (u : Tile) (off : Nat) : Nat :=
  match u.windows.toList.find? (fun w => decide (w.lo ≤ off) && decide (off < w.hi)) with
  | some w => w.epoch
  | none => 0xFFFF

/-- One byte written by another tile: accepted, and then a write of its shard (R438), or dropped (R369; DESIGN CHOICE, log 40). -/
def State.remoteByte (writer target off : Nat) (b : Byte) (s : State) : State × Bool :=
  match (s.tile target).windowFor writer off with
  | some _ => ((s.store (scratchAddr target off) [b]).noteWrite (scratchAddr target off) (scratchAddr target off + 1), true)
  | none => (s, false)

/-- The first dropped byte of a remote write: address, target and window epoch. -/
abbrev Drop := Nat × Nat × Nat

/-- Bytes written into another tile's scratchpad, and the first that is dropped (DESIGN CHOICE, log 40). -/
def State.remoteStore (writer target off : Nat) (bs : List Byte) (s : State) : State × Option Drop :=
  (List.zip (List.range bs.length) bs).foldl (fun (acc : State × Option Drop) p =>
    let o := off + p.1
    let r := acc.1.remoteByte writer target o p.2
    if r.2 then (r.1.count .remoteBytesWritten writer 1, acc.2)
    else (r.1.count .remoteBytesDropped writer 1,
      match acc.2 with
      | some d => some d
      | none => some (scratchAddr target o, target, (acc.1.tile target).dropEpoch o)))
    (s, none)

/-! ## Remote reads (R89, R103, R368) -/

/-- What a read of another tile's scratchpad meets: a marked granule, or an uncorrectable word. -/
def State.remoteBad (s : State) (target off n : Nat) : Bool :=
  (granulesOf target (scratchAddr target off) (scratchAddr target (off + n))).any (s.tile target).marks.contains ||
    (s.tile target).eccDouble.any (fun o => decide (o < off + n) && decide (off < o + 4))

/-- A remote read: the bytes, and whether its status is FAULTED; an uncorrectable word marks its granule. -/
def State.remoteRead (target off n : Nat) (s : State) : State × List Byte × Bool :=
  if s.remoteBad target off n then
    let words := (s.tile target).eccDouble.filter (fun o => decide (o < off + n) && decide (off < o + 4))
    (words.foldl (fun s o => s.markGranule target (o / 4096)) s, List.replicate n 0, true)
  else (s, s.readRaw (scratchAddr target off) n, false)

/-- The first extent in another tile's scratchpad that reads as FAULTED. -/
def State.badRemote (s : State) (t : Nat) (l : List (Nat × Nat)) : Option (Nat × Nat × Nat) :=
  l.findSome? (fun p => match home p.1 with
    | .scratch x off => if x != t && s.remoteBad x off p.2 then some (x, off, p.2) else none
    | _ => none)

/-! ## Complement pairs on moves (R331-R333) -/

/-- The first of the offsets at which a ciphertext record stands one of whose complement pairs disagrees. Where FORMAT is not a
record's, nothing is compared (R331; DEDUCED, log 81). -/
def brokenRecord (offs : List Nat) (bs : List Byte) : Option Nat :=
  offs.find? (fun o =>
    let b := slice bs o 64
    fld b 0 2 == 0xC7F1 && !recordPairs b)

/-- Both readings of a value from its source disagree: counted, and the source is handled as one with an uncorrectable word
(R332). -/
def State.spoilSource (a : Nat) (s : State) : State :=
  let s := s.count .pairCheckFailed 0 2
  match home a with
  | .scratch t off => s.markGranule t (off / 4096)
  | .hbm _ _ => s.markPoison (lineOf a)
  | .near _ _ => s.markPoison (lineOf a)
  | _ => s

/-! ## Path costs (Tables MS.2 and SQ.4) -/

/-- Arithmetic clock of a performance point in MHz (Table PW.2): P0 to P7. -/
def pointMHz (p : Nat) : Nat := [720, 600, 525, 450, 375, 300, 225, 150].getD p 150

/-- The bridges of the route from die a to die b (R17, Table DV.2): east-west first, on the row of a, then north-south, on
the column of b. -/
def dieRoute (a b : Nat) : List Nat := (if a % 2 = b % 2 then [] else [a / 2]) ++ (if a / 2 = b / 2 then [] else [2 + b % 2])

/-- How many bridges a transfer between two dies crosses (R17). -/
def dieHops (a b : Nat) : Nat := (dieRoute a b).length

/-- The bridges that a multicast from one die to others crosses, each once (R169). -/
def multicastBridges (a : Nat) (dies : List Nat) : List Nat := (dies.flatMap (dieRoute a)).eraseDups

/-- ⌈latency · f⌉ in tile cycles of a tile (R314). -/
def State.pathCycles (s : State) (t ns : Nat) : Nat := ceilDiv (ns * pointMHz (s.die (dieOfTile t)).point) 1000

/-- Read latency of one line for a tile in ns (Table MS.2, Table SQ.4); 0 in its own scratchpad. -/
def pathNs (t a : Nat) : Nat :=
  let d := dieOfTile t
  match home a with
  | .near k _ => [45, 79, 113].getD (dieHops d k) 113
  | .hbm k _ => [110, 144, 178].getD (dieHops d (k / 3)) 178
  | .scratch x _ => if x = t then 0 else [30, 64, 98].getD (dieHops d (dieOfTile x)) 98
  | .host => if d < 2 then 64 else 80
  | .unmapped => 0

/-- Delivery latency of a Shuttle descriptor or acknowledgement in ns. -/
def deliveryNs (a b : Nat) : Nat := [20, 54, 88].getD (dieHops (dieOfTile a) (dieOfTile b)) 88

/-- The die where an address lies; host memory is reached through HD, and counts from die 0. -/
def dieAt (a : Nat) : Nat :=
  match home a with
  | .hbm k _ => k / 3
  | .near d _ => d
  | .scratch x _ => dieOfTile x
  | _ => 0

/-- Bridges between a tile and where an address lies (Table PW.5). -/
def bridgesTo (t a : Nat) : Nat :=
  match home a with
  | .hbm k _ => dieHops (dieOfTile t) (k / 3)
  | .near k _ => dieHops (dieOfTile t) k
  | .scratch x _ => dieHops (dieOfTile t) (dieOfTile x)
  | _ => 0

/-- Memory tokens of line requests of a tile (R467, Table PW.5): under CHECK = FULL each packet carries a check value. -/
def requestTokens (t : Nat) (full : Bool) (lines : List Nat) : Nat :=
  lines.foldl (fun n a => n + lineTokens a + 20 * bridgesTo t a + (if full then 2 else 0)) 0

/-- The tile's memory allotment covers line requests of some tokens (R467). -/
def State.covers (s : State) (t n : Nat) : Bool := decide (n ≤ (s.tile t).memAllot)

/-- Memory tokens of a tile's line requests: what the slot's allotment does not cover is owed to the next (R467; DESIGN CHOICE,
log 55). -/
def State.drawTokens (t n : Nat) (s : State) : State :=
  (s.mapTile t (fun u => { u with memAllot := u.memAllot - n, memOwed := u.memOwed + (n - u.memAllot) })).count .memTokens 0 n

/-- A request of a tile passes to a line at once: the island that holds it is not frozen (R465). -/
def State.openTo (s : State) (t a : Nat) : Bool :=
  match home a with
  | .scratch x _ => x == t || s.letsIn x
  | _ => true

/-- A line that is reached through a far channel. -/
def farLine (t a : Nat) : Bool :=
  match home a with
  | .near k _ => k != dieOfTile t
  | .hbm k _ => k / 3 != dieOfTile t
  | _ => false

/-! ## Core tokens (R459, R465, R466) -/

/-- κ of a voltage in mV, in 1/256 (R459). -/
def kappa (mv : Nat) : Nat := (mv * mv * 256 + 281250) / 562500

/-- κ at which a die is charged. -/
def State.kappaOf (s : State) (d : Nat) : Nat := kappa (Config.perfVolt d (s.die d).charged)

/-- The charged unit of a macro-operation and its class (Table PW.4): units 0 to 4 NTE, AUE, BCE, VE, MXE; 5 to 12 the
stream queues; 13 the Shuttle unit; 14 the check path. -/
def MopWord.charge (w : MopWord) : Option (Nat × Nat) :=
  match w.family with
  | 0 | 1 => some (0, 110)
  | 2 | 3 => some (1, 40)
  | 4 | 5 | 6 | 18 => some (2, 60)
  | 7 => some (3, 160)
  | 8 | 9 | 10 | 11 | 12 | 13 | 15 => some (3, 90)
  | 14 => some (3, 130)
  | 16 => some (4, 150)
  | 17 => some (3, 260)
  | 19 | 20 | 21 | 22 => some (5 + w.queue % 8, 10)
  | 23 | 24 => some (13, 5)
  | 27 => some (14, 20)
  | _ => none

/-- Σ c: each unit counts once, at the largest class of its admitted, unretired macro-operations. -/
def Tile.classes (u : Tile) : Nat :=
  total ((List.range 15).map (fun k =>
    (u.window.filterMap (fun m => m.word.charge)).foldl (fun n p => if p.1 = k then max n p.2 else n) 0))

/-- A tile's rate in tokens per running cycle. -/
def State.rate (s : State) (t : Nat) : Nat := ceilDiv (s.kappaOf (dieOfTile t) * (30 + (s.tile t).classes)) 256

/-- A tile of a job, clocked: every other tile is clock-gated and draws nothing (R465). -/
def State.paced (s : State) (t : Nat) : Bool := (s.tile t).job.isSome && !(s.tile t).failed && !s.errs.fatal

/-- The cycles left of a tile's slot that what is left of its core allotment covers (R465). -/
def State.repace (t : Nat) (s : State) : State :=
  let n := (s.tile t).coreAllot / max 1 (s.rate t)
  s.mapTile t (fun u => { u with runs := min u.slotLeft n })

/-- Cycles that a tile runs: each draws its rate (R465, R466). Where a command takes more cycles than the slot's allotment
covers, the rest draws nothing (DESIGN CHOICE, log 74). -/
def State.runCycles (t n : Nat) (s : State) : State :=
  let k := min n (s.tile t).runs
  let cost := k * s.rate t
  s.mapTile t (fun u => { u with
    coreAllot := u.coreAllot - cost, drawn := u.drawn + cost, slotLeft := u.slotLeft - k, runs := u.runs - k })

end Sys2Proof.Machine
end

