-- ==== Sys2Proof/Machine/Dma.lean ====
section
/-!
DEFINITION. The tile DMA (10_memory, 11_streams_queues): LOAD, STORE, GATHER, SCATTER (R289, R315-R318, R347-R349, R563),
translations and halts of stream queues (R351-R355), and remote access (R368, R369, R372).
-/
namespace Sys2Proof.Machine

/-! ## Line requests (R316) -/

/-- A line that counts as a request: near tier, HBM or host memory. -/
def memorySide (a : Nat) : Bool :=
  match home a with
  | .hbm _ _ => true
  | .near _ _ => true
  | .host => true
  | _ => false

/-- A line of another tile's scratchpad. -/
def remoteSide (t a : Nat) : Bool := match home a with | .scratch x _ => x != t | _ => false

/-- The lines of a list of byte extents, rising, without repeats. -/
def lineSet (l : List (Nat × Nat)) : List Nat :=
  l.foldl (fun acc p => (linesOf p.1 p.2).foldl (fun acc x => insertNat x acc) acc) []

/-- The extents of the records that a recorded LOAD or STORE copies: read from the source, and every copy written to the
destination (R282, R563). -/
def MopWord.movedRecords (w : MopWord) (src dst : View) : List (Nat × Nat) × List (Nat × Nat) :=
  if src.desc.recorded && dst.desc.recorded then
    let bs := movedBatches w src dst
    (bs.map (fun b => (src.recordRead b, 64)), bs.flatMap (fun b => (dst.recordShards b).map (fun j => (dst.recordIn b j, 64))))
  else ([], [])

/-- The lines a macro-operation touches, source side before destination side; a true mark says a write. A LOAD or STORE touches
its records' lines too. GATHER and SCATTER count the index tensor's lines, then each element's (R316; DESIGN CHOICE, log 39). -/
def State.dmaLines (s : State) (c : Ctx) : List (Nat × Bool) :=
  match c.view 0, c.view 2 with
  | some src, some dst =>
    let ms := s.moves c
    match c.view 1 with
    | some ix =>
      (lineSet ((List.range ix.desc.count).map (fun i => ix.extent (ix.desc.unlinear i)))).map (fun l => (l, false)) ++
        ms.flatMap (fun m => (match m.2 with
          | some i => (linesOf (src.extent i).1 (src.extent i).2).map (fun l => (l, false))
          | none => []) ++ (linesOf (dst.extent m.1).1 (dst.extent m.1).2).map (fun l => (l, true)))
    | none =>
      let r := c.w.movedRecords src dst
      (lineSet (ms.filterMap (fun m => m.2.map src.extent) ++ r.1)).map (fun l => (l, false)) ++
        (lineSet (ms.map (fun m => dst.extent m.1) ++ r.2)).map (fun l => (l, true))
  | _, _ => []

/-- The line requests in request order; where both sides lie in the own scratchpad, the destination's lines
(DESIGN CHOICE, log 39). -/
def State.requests (s : State) (c : Ctx) : List (Nat × Bool) :=
  let all := s.dmaLines c
  let mem := all.filter (fun l => memorySide l.1)
  if emptyList mem && !all.any (fun l => remoteSide c.t l.1) then all.filter (fun l => l.2) else mem

/-- Lines in other tiles' scratchpads. -/
def State.remoteLines (s : State) (c : Ctx) : Nat := ((s.dmaLines c).filter (fun l => remoteSide c.t l.1)).length

/-- L_min (R316, R368) and the number of line requests (DESIGN CHOICE, log 39). -/
def State.dmaLatency (s : State) (c : Ctx) : Nat × Nat :=
  let all := s.dmaLines c
  let r := (s.requests c).length
  let remote := s.remoteLines c
  let p := (all.map (fun l => s.pathCycles c.t (pathNs c.t l.1))).foldl max 0
  (8 + ceilDiv r 4 + 4 * remote + p, r)

/-- How the requests of a queue issue: each with the cycle in which it issues and the one in which its data are there, the last
first, and the cycles spent waiting for a credit (R349). -/
structure Issue where
  issues : List (Nat × Nat)
  waited : Nat

/-- One more request issues, not before cycle `first` and `path` cycles before its data are there: `share` in a cycle, at most
`limit` outstanding. -/
def Issue.next (limit share first : Nat) (i : Issue) (path : Nat) : Issue :=
  let last := max first ((i.issues.head?).elim 0 (·.1))
  let base := if (i.issues.filter (fun p => p.1 == last)).length < share then last else last + 1
  let busy := i.issues.filter (fun p => decide (base < p.2))
  let x := match busy with
    | [] => base
    | p :: l => if busy.length < limit then base else l.foldl (fun n p => min n p.2) p.2
  { issues := (x, x + path) :: i.issues, waited := i.waited + (x - base) }

/-- The lines that a transfer asks for, in order: those that R counts, then those of other tiles' scratchpads (DEDUCED,
log 39). -/
def State.issueLines (s : State) (c : Ctx) : List Nat :=
  (s.requests c).map (·.1) ++ ((s.dmaLines c).map (·.1)).filter (remoteSide c.t)

/-- What a queue has of the tile's four requests in a cycle, which go round among the queues that have one to issue (R315, R349;
DESIGN CHOICE, log 39). -/
def State.issueShare (s : State) (t k : Nat) : Nat :=
  let u := s.tile t
  let others := ((List.range 8).filter (fun j => j != k && (u.stream j).state == .running &&
    (u.stream j).issues.any (fun p => decide (u.cycle < p.1)))).length
  max 1 (4 / (1 + others))

/-- Lines issued from a cycle on, after those that have been, at the idle latencies of Table MS.2 (R349; DEDUCED, log 39). -/
def State.issueOn (s : State) (c : Ctx) (first : Nat) (issues : List (Nat × Nat)) (lines : List Nat) : Issue :=
  (lines.map (fun a => s.pathCycles c.t (pathNs c.t a))).foldl
    (Issue.next (max 1 ((s.tile c.t).stream c.w.queue).limit) (s.issueShare c.t c.w.queue) first)
    { issues := issues, waited := 0 }

/-- The issue of all lines of a transfer that awaits no translation, counted from its first cycle. -/
def State.issueOf (s : State) (c : Ctx) : Issue := s.issueOn c 0 [] (s.issueLines c)

/-- The cycle after the one in which the last line request issues (R348). -/
def Issue.ended (i : Issue) : Nat := (i.issues.head?).elim 0 (fun p => p.1 + 1)

/-- Indices of the requests that need a translation (R351). -/
def State.hostRequests (s : State) (c : Ctx) : List Nat :=
  let rs := s.requests c
  (List.range rs.length).filter (fun i => match home ((rs.getD i (0, false)).1) with | .host => true | _ => false)

/-- The cycle, counted from cycle 0, in which the last byte of the lowest 4 KiB granule of the destination is written when
no translation is awaited: 8 cycles and the data's arrival, with R349's waits for credits, for the last line that feeds it (R259,
R316; DEDUCED, log 36). -/
def State.firstGranule (s : State) (c : Ctx) : Nat :=
  match c.view 0, c.view 2 with
  | some src, some dst =>
    let ms := (s.moves c).map (fun m => ((dst.extent m.1).1 / 4096, m))
    let low := match ms with
      | [] => 0
      | m :: l => l.foldl (fun a x => min a x.1) m.1
    let feeds := lineSet ((ms.filter (fun m => m.1 == low)).filterMap (fun m => m.2.2.map src.extent))
    let remote := (feeds.filter (remoteSide c.t)).length
    let times := (s.issueLines c).zip (s.issueOf c).issues.reverse
    8 + 4 * remote + times.foldl (fun a x => if feeds.contains x.1 then max a (x.2.2 + 1) else a) 0
  | _, _ => 8

/-! ## Stream queues (R347-R355) -/

/-- Index of the next request to issue when `k` host requests are translated: all before it have been issued. -/
def State.streamPos (s : State) (c : Ctx) (k : Nat) : Nat := ((s.hostRequests c)[k]?).getD (s.requests c).length

/-- Cycles that requests waited for a credit: they lengthen the transfer (R318, R349). -/
def State.creditWait (c : Ctx) (n : Nat) (s : State) : State :=
  ((s.count .strqCreditWaitCycles c.t n).count .dmaExcessCycles c.t n).mapMop c.t c.mop.seq (fun m =>
    { m with held := m.held + n })

/-- The lines before the first that awaits a translation when `k` are translated; all, with those of other tiles' scratchpads,
when none awaits one. -/
def State.releasedLines (s : State) (c : Ctx) (k : Nat) : List Nat :=
  if (s.hostRequests c).length ≤ k then s.issueLines c else (s.issueLines c).take (s.streamPos c k)

/-- A macro-operation begins on its queue, and the requests that await no translation issue. -/
def State.beginDma (c : Ctx) (s : State) : State :=
  let i := s.issueOn c (c.mop.start.getD 0) [] (s.releasedLines c 0)
  let s := s.mapStream c.t c.w.queue (fun q =>
    { q with state := .running, seq := c.mop.seq, pos := 0, faultAddr := 0, released := s.streamPos c 0, issues := i.issues,
             translated := 0 })
  s.creditWait c i.waited

/-- The macro-operation that a queue runs. -/
def State.streamCtx (s : State) (t k : Nat) : Option Ctx :=
  match s.ctx t ((s.tile t).stream k).seq with
  | some c =>
    if [19, 20, 21, 22].contains c.w.family && c.w.queue == k && c.mop.ready && s.tileRuns t then some c else none
  | none => none

/-! ## The copy -/

/-- What becomes of record b of a copying macro-operation (R560): flags newly raised, all flags, the copied fields. -/
def State.copyRecord (s : State) (c : Ctx) (src : View) (b : Nat) : BatchOut :=
  let x := s.inputAt c none b 0 src
  let new := x.newFlags ||| c.plainMarks
  { b := b, newFlags := new, flags := new ||| x.r.flags, record := x.r, data := [] }

/-- The outputs by batch; one output without a record where the operands have none. -/
def State.copyOuts (s : State) (c : Ctx) (src dst : View) : List BatchOut :=
  if dst.desc.recorded then (movedBatches c.w src dst).map (s.copyRecord c src)
  else [{ b := 0, newFlags := c.plainMarks, flags := c.plainMarks, record := Rec.zero, data := [] }]

/-- Flags of the output that an element belongs to. -/
def flagsAt (d : Desc) (outs : List BatchOut) (ix : List Nat) : Nat :=
  if d.recorded then ((outs.find? (fun o => inBatch d o.b ix)).map (·.flags)).getD 0
  else ((outs.head?).map (·.flags)).getD 0

/-- What an element leaves in a line: bits and their mask in a window of three lines, this one in the middle. -/
def View.overlay (v : View) (l : Nat) (acc : Nat × Nat) (e : ElemOut) : Nat × Nat :=
  let o := v.bitAddr e.1 + 512 - 8 * l
  if v.bitAddr e.1 + 512 < 8 * l ∨ 1024 ≤ o then acc
  else
    let m := (2 ^ v.desc.elemBits - 1) * 2 ^ o
    (acc.1 - (acc.1 &&& m) + e.2 % 2 ^ v.desc.elemBits * 2 ^ o, acc.2 ||| m)

/-- The write of a line with the elements given: its byte mask and its bytes. -/
def State.lineWrite (s : State) (v : View) (l : Nat) (es : List ElemOut) : Nat × List Byte :=
  let p := es.foldl (v.overlay l) (leNat (s.readRaw l 64) * 2 ^ 512, 0)
  ((List.range 64).foldl (fun m i => if bits p.2 (519 + 8 * i) (512 + 8 * i) = 0 then m else m + 2 ^ i) 0,
    leBytes 64 (p.1 / 2 ^ 512))

/-- Bytes written by a tile: into its own scratchpad and into memory as a masked line, into another tile's scratchpad
through a window, byte by byte (R369). -/
def State.dmaLine (c : Ctx) (l mask : Nat) (data : List Byte) (acc : State × Option Drop) : State × Option Drop :=
  match home l with
  | .scratch t off =>
    if t = c.t then (acc.1.acceptLine l mask data, acc.2)
    else (List.range 64).foldl (fun (acc : State × Option Drop) i =>
      if bit mask i then
        let r := acc.1.remoteStore c.t t (off + i) [data.getD i 0]
        (r.1, match acc.2 with | some d => some d | none => r.2)
      else acc) acc
  | _ => (acc.1.acceptLine l mask data, acc.2)

/-- Elements written by a tile-DMA macro-operation: a LOAD or STORE writes each line of the destination once (R316), a
GATHER or SCATTER each element's lines, element by element. -/
def State.dmaWrite (c : Ctx) (v : View) (es : List ElemOut) (acc : State × Option Drop) : State × Option Drop :=
  let put (es : List ElemOut) (acc : State × Option Drop) (l : Nat) : State × Option Drop :=
    let p := acc.1.lineWrite v l es
    State.dmaLine c l p.1 p.2 acc
  if c.w.family = Fam.load ∨ c.w.family = Fam.store then
    (lineSet (es.map (fun e => v.extent e.1))).foldl (put es) acc
  else es.foldl (fun acc e => (linesOf (v.extent e.1).1 (v.extent e.1).2).foldl (put [e]) acc) acc

/-- The copies of an output record written (R282), through a window where they lie in another tile's scratchpad. -/
def State.dmaRecord (c : Ctx) (v : View) (o : BatchOut) (acc : State × Option Drop) : State × Option Drop :=
  (v.recordShards o.b).foldl (fun (acc : State × Option Drop) j =>
    let a := v.recordIn o.b j
    let bs := ({ o.record with flags := o.flags } : Rec).bytes (v.recordData o.b j) v.layout
    (linesOf a 64).foldl (fun acc l => State.dmaLine c l (lineMask l a 64) (lineData l a bs) acc) acc) acc

/-- A dropped byte: REMOTE_STATUS, REMOTE_DROP_ADDR and the event (R372). -/
def State.noteDrop (c : Ctx) (d : Option Drop) (s : State) : State :=
  match d with
  | none => s
  | some (a, target, epoch) =>
    let s := s.mapTile c.t (fun u =>
      { u with dropped := true, dropAddr := if u.dropped then u.dropAddr else BitVec.ofNat 64 a })
    s.mapMop c.t c.mop.seq (fun m => { m with
      events := m.events ++ [Err.ofJob .deferred 0x08 1 c.t c.job c.mop.seq a (target + 65536 * epoch)] })

/-- Bytes written by a tile from an address up: into another tile's scratchpad through its windows (R369; DEDUCED, log 52). -/
def State.tileStore (c : Ctx) (a : Nat) (bs : List Byte) (acc : State × Option Drop) : State × Option Drop :=
  match home a with
  | .scratch x off =>
    if x = c.t then (acc.1.store a bs, acc.2)
    else
      let r := acc.1.remoteStore c.t x off bs
      (r.1, match acc.2 with | some d => some d | none => r.2)
  | _ => (acc.1.store a bs, acc.2)

/-- The same for the one write of a macro-operation, with what a dropped byte leaves. -/
def State.tileWrite (c : Ctx) (a : Nat) (bs : List Byte) (s : State) : State :=
  let r := State.tileStore c a bs (s, none)
  r.1.noteDrop c r.2

/-- The elements that the moves given write and their values: zeros for a poisoned output (R69). -/
def State.movedValues (s : State) (src dst : View) (outs : List BatchOut) (ms : List Move) : List ElemOut :=
  ms.map (fun m => (m.1, if flagsAt dst.desc outs m.1 = 0 then
    (match m.2 with | some i => s.readElem src i | none => 0) else 0))

/-- The zeros that a poisoned SCATTER writes: its whole destination data range, output by output (R69). -/
def scatterZeros (dst : View) (outs : List BatchOut) : List ElemOut :=
  (outs.filter (fun o => o.flags != 0)).flatMap (fun o =>
    if dst.desc.recorded then zeroOut dst o.b
    else (((List.range dst.desc.count).map dst.desc.unlinear).filter dst.holds).map (fun ix => (ix, 0)))

/-- The extents of the index tensor. -/
def Ctx.indexExtents (c : Ctx) : List (Nat × Nat) :=
  match c.view 1 with
  | some ix => (List.range ix.desc.count).map (fun i => ix.extent (ix.desc.unlinear i))
  | none => []

/-- Whether all line requests of a move come among the first `k`: a LOAD or STORE shares lines between elements, a GATHER
or SCATTER issues its elements' lines one after another, those of the index tensor first. -/
def State.issuedMoves (s : State) (c : Ctx) (src dst : View) (k : Nat) : List Move :=
  let ms := s.moves c
  if c.w.family = Fam.load ∨ c.w.family = Fam.store then
    let issued := (s.requests c).take k
    let sent (p : Nat × Nat) (write : Bool) : Bool :=
      (linesOf p.1 p.2).all (fun l => !memorySide l || issued.contains (l, write))
    ms.filter (fun m => (m.2.map src.extent).all (fun p => sent p false) && sent (dst.extent m.1) true)
  else
    let index := ((lineSet c.indexExtents).filter memorySide).length
    let lines (m : Move) : Nat := (((m.2.elim [] (fun i => linesOf (src.extent i).1 (src.extent i).2)) ++
      linesOf (dst.extent m.1).1 (dst.extent m.1).2).filter memorySide).length
    (ms.foldl (fun (acc : Nat × List Move) m =>
      let n := acc.1 + lines m
      (n, if n ≤ k then acc.2 ++ [m] else acc.2)) (index, [])).2

/-- The requests issued before a queue halts complete (R352): what they moved is written. An in-place transfer writes
nothing before its last request, so that it writes the same bytes as one that does not halt (R355; DESIGN CHOICE,
log 39). -/
def State.dmaPrefix (c : Ctx) (k : Nat) (s : State) : State :=
  match c.view 0, c.view 2 with
  | some src, some dst =>
    let outs := s.copyOuts c src dst
    let ms := s.issuedMoves c src dst k
    let reads := (ms.filter (fun m => flagsAt dst.desc outs m.1 == 0)).filterMap (fun m => m.2.map src.extent)
    if (decide (src.dataRange.1 < dst.dataRange.2) && decide (dst.dataRange.1 < src.dataRange.2)) ||
        (s.badWord c).isSome || (s.badLine (c.indexExtents ++ reads)).isSome ||
        (s.badRemote c.t (c.indexExtents ++ reads)).isSome then s
    else
      let r := State.dmaWrite c dst (s.movedValues src dst outs ms) (s, none)
      r.1.noteDrop c r.2
  | _, _ => s

/-- TRANSLATION_COMPLETE: the next host request of a queue may issue, or the queue halts (R351, R352). The last one lets
the queue accept its next macro-operation in the cycle after its last request (R348). -/
def execTranslationComplete (t k : Nat) (present : Bool) (s : State) : Out :=
  match s.streamCtx t k with
  | none => .next s
  | some c =>
    let q := (s.tile t).stream k
    match (s.hostRequests c)[q.translated]? with
    | none => .next s
    | some i =>
      if q.state != .running then .next s
      else
        let s := s.count .atsMisses 0 1
        if present then
          let n := q.translated + 1
          let x := s.issueOn c (s.tile t).cycle q.issues ((s.releasedLines c n).drop i)
          let s := s.mapStream t k (fun q =>
            { q with translated := n, released := s.streamPos c n, issues := x.issues })
          let s := s.creditWait c x.waited
          .next (if (s.hostRequests c).length ≤ n then s.setEngine t (7 + k) (some x.ended) else s)
        else
          let s := s.dmaPrefix c i
          let a := ((s.requests c).getD i (0, false)).1
          let s := s.mapStream t k (fun q =>
            { q with state := .halted, pos := i, faultAddr := a, halts := q.halts + 1,
                     haltedAt := (s.tile t).cycle })
          let s := { s.count .strqHalts t 1 with pageRequests := s.pageRequests ++ [(t, k, a)] }
          .next (s.postEvent 2 (leBytes 4 c.job.tag ++ leBytes 1 c.ring ++ leBytes 1 k ++ leBytes 2 t ++
            leBytes 4 c.mop.seq ++ leBytes 4 i ++ leBytes 8 a ++ leBytes 8 0))

/-- STRQ_CTRL.RESUME on the queue behind a requester's TILE_SEL and QUEUE_SEL; on one not halted: discarded. -/
def State.streamResume (q : Requester) (s : State) : State :=
  let t := (s.selects q).tile
  let k := (s.selects q).queue
  if t ≥ 208 then s
  else if ((s.tile t).stream k).state = .halted then
    let n := (s.tile t).cycle - ((s.tile t).stream k).haltedAt
    (s.mapStream t k (fun x => { x with state := .running, faultAddr := 0 })).count .strqHaltCycles t n
  else s.discard q 0x030104 1

/-- STREAM_RESUME (R353): the queue that the requester's TILE_SEL and QUEUE_SEL name; not halted: discarded. -/
def execStreamResume (q : Requester) (s : State) : Out :=
  .next ((s.unlatch).gated q 0x030104 (State.streamResume q))

/-! ## The effect -/

/-- Granules of the own scratchpad all of whose bytes a transfer's extents cover (Table TL.4). -/
def coveredGranules (t : Nat) (es : List (Nat × Nat)) : List Nat :=
  let es := es.eraseDups
  ((es.flatMap (fun p => granulesOf t p.1 (p.1 + p.2))).eraseDups).filter (fun g =>
    let lo := scratchAddr t (4096 * g)
    decide (4096 ≤ total (es.map (fun p => min (p.1 + p.2) (lo + 4096) - max p.1 lo))))

/-- What stops a tile-DMA macro-operation: a source record or data in another tile's scratchpad that reads as FAULTED (R89,
R368), a poisoned line on which an unpoisoned output depends (Table MS.6). -/
def State.dmaStop (s : State) (c : Ctx) (records reads : List (Nat × Nat)) : Option State :=
  match s.badRemote c.t records with
  | some (x, off, n) => some (((s.remoteRead x off n).1).stopMop c .remote)
  | none =>
    match s.badLine reads with
    | some a => some (s.stopMop c (.memLine a))
    | none =>
      match s.badRemote c.t reads with
      | some (x, off, n) => some (((s.remoteRead x off n).1).stopMop c .remote)
      | none => none

/-- The lines of a transfer outside the tile's own scratchpad. -/
def State.outsideLines (s : State) (c : Ctx) : List Nat :=
  ((s.dmaLines c).map (·.1)).filter (fun l => memorySide l || remoteSide c.t l)

/-- The counters and tokens of a transfer. -/
def State.countDma (c : Ctx) (src : View) (ms : List Move) (s : State) : State :=
  let lines := s.dmaLines c
  let far := lines.filter (fun l => farLine c.t l.1)
  let n := (s.requests c).length
  let remote := total ((ms.filterMap (fun m => m.2.map src.extent)).filterMap (fun p =>
    if remoteSide c.t p.1 then some p.2 else none))
  let tokens := requestTokens c.t (c.job.mode.check == .full) (s.outsideLines c)
  (((((s.count .dmaLineRequests c.t n).count .strqLines c.t n).count .farLinesRead c.t
    (far.filter (fun l => !l.2)).length).count .farLinesWritten c.t (far.filter (fun l => l.2)).length).count
      .remoteBytesRead c.t remote).drawTokens c.t tokens

/-- The records that a LOAD or STORE moves, checked where CHECK asks for it: one whose complement pairs disagree in two readings
spoils its source before the record is read (R331-R333, Table MS.12; DEDUCED, log 81). -/
def State.movePairs (c : Ctx) (src dst : View) (s : State) : State :=
  if c.job.mode.check = .word ∨ !(c.w.family = Fam.load ∨ c.w.family = Fam.store) then s
  else (c.w.movedRecords src dst).1.foldl (fun s r =>
    if (brokenRecord [0] (s.readRaw r.1 64)).isSome then s.spoilSource r.1 else s) s

/-- A tile-DMA macro-operation: all elements and records read, then written (DESIGN CHOICE, log 22). -/
def State.dma (c : Ctx) (s : State) : State :=
  match c.view 0, c.view 2 with
  | some src, some dst =>
    let s := s.movePairs c src dst
    let outs := s.copyOuts c src dst
    let clean (m : Move) : Bool := flagsAt dst.desc outs m.1 == 0
    let ms := s.moves c
    let records := if src.desc.recorded then outs.map (fun o => (src.recordRead o.b, 64)) else []
    match s.dmaStop c records (c.indexExtents ++ (ms.filter clean).filterMap (fun m => m.2.map src.extent)) with
    | some stopped => stopped
    | none =>
      let scatter := c.w.family == Fam.scatter
      let vals := (if scatter then scatterZeros dst outs else []) ++
        s.movedValues src dst outs (if scatter then ms.filter clean else ms)
      let n := (s.requests c).length
      let r := State.dmaWrite c dst vals (s.countDma c src ms, none)
      let r := if dst.desc.recorded then outs.foldl (fun r o => State.dmaRecord c dst o r) r else r
      let s := r.1.noteDrop c r.2
      let s := s.clearGranules c.t (coveredGranules c.t (vals.map (fun e => dst.extent e.1)))
      let new := orFlags (outs.map (·.newFlags))
      let s := if new = 0 then s
        else s.mapMop c.t c.mop.seq (fun m => { m with events := m.events ++ [c.poisonEvent c.t c.mop.seq new 1] })
      let s := s.mapStream c.t c.w.queue (fun q => if q.seq = c.mop.seq then { q with pos := n, issues := [] } else q)
      let s := if c.w.chain = 1 ∧ c.mop.unitAfter.isNone then
          s.unitDone c (max (c.mop.start.getD 0 + s.firstGranule c) (s.tile c.t).cycle) else s
      s.markDone c
  | _, _ => s.markDone c

/-- Every host request of the macro-operation has its translation (R351), and its queue is not halted. -/
def State.dmaReady (s : State) (c : Ctx) : Bool :=
  let hosts := (s.hostRequests c).length
  let q := (s.tile c.t).stream c.w.queue
  hosts == 0 || (q.seq == c.mop.seq && q.state == .running && decide (hosts ≤ q.translated))

/-- The transfer's requests may issue: its first line's tokens are covered (R467), and no tile whose scratchpad it reaches is frozen
(R465; DESIGN CHOICE, log 55). -/
def State.dmaOpen (s : State) (c : Ctx) : Bool :=
  let lines := s.outsideLines c
  s.covers c.t (requestTokens c.t (c.job.mode.check == .full) (lines.take 1)) && lines.all (s.openTo c.t)

/-- A tile-DMA command. -/
def State.dmaOp (s : State) (t seq fam : Nat) : Out :=
  s.withReady t seq (fun w => w.family == fam) fun c =>
    if s.dmaReady c && s.dmaOpen c then s.guarded c (State.dma c) else s

/-- LOAD (R563). -/
def execLoad (t seq : Nat) (s : State) : Out := s.dmaOp t seq Fam.load

/-- STORE (R563). -/
def execStore (t seq : Nat) (s : State) : Out := s.dmaOp t seq Fam.store

/-- GATHER (R289). -/
def execGather (t seq : Nat) (s : State) : Out := s.dmaOp t seq Fam.gather

/-- SCATTER (R289). -/
def execScatter (t seq : Nat) (s : State) : Out := s.dmaOp t seq Fam.scatter

/-! ## Remote access -/

/-- REMOTE_READ: a read of a tile's scratchpad by another tile (R368); it waits at the island boundary of a frozen one (R465). -/
def execRemoteRead (reader target off len : Nat) (s : State) : Out :=
  if target ≥ 208 ∨ off + len > 0x600000 then .fault (.unmapped (scratchAddr target off))
  else if !s.pins.allGood || !s.letsIn target then .next s
  else
    let r := s.remoteRead target off len
    .next { r.1.count .remoteBytesRead reader len with resp := .status r.2.1 r.2.2 }

/-- REMOTE_WRITE: each byte is written where an open window of the target accepts it, else dropped (R369);
it waits at the island boundary of a frozen tile (R465; DESIGN CHOICE, log 32). -/
def execRemoteWrite (writer target off : Nat) (data : List Byte) (s : State) : Out :=
  if target ≥ 208 ∨ off + data.length > 0x600000 then .fault (.unmapped (scratchAddr target off))
  else if !s.pins.allGood || !s.letsIn target then .next s
  else .next (s.remoteStore writer target off data).1

end Sys2Proof.Machine
end

