-- ==== Sys2Proof/Machine/CheckUnit.lean ====
section
/-!
DEFINITION. Check-value units and sealed blocks (15_trust, R509-R519): CHK and its three actions, and the write of CVU_RX.
-/
namespace Sys2Proof.Machine

/-! ## Operands (Table SE.14) -/

/-- UNIT and ACTION (Table OP.4). -/
def MopWord.chkUnit (w : MopWord) : Nat := w.immBits 2 0
def MopWord.chkAction (w : MopWord) : Nat := w.immBits 4 3

/-- A bounding range as address and length. -/
def View.span (v : View) : Nat × Nat := (v.dataRange.1, v.dataRange.2 - v.dataRange.1)

/-- The bytes that a CHK reads and the bytes it writes: B blocks of 4,160 bytes on the sealed side. -/
def MopWord.chkSpans (w : MopWord) (src dst : View) : (Nat × Nat) × (Nat × Nat) :=
  let a := src.span
  let b := dst.span
  if w.chkAction = 0 then (a, (b.1, 8))
  else if w.chkAction = 1 then (a, (b.1, 4160 * ceilDiv a.2 4096))
  else ((a.1, 4160 * ceilDiv b.2 4096), b)

/-- OPND2 is as large as the action needs (R512). -/
def MopWord.chkRoom (w : MopWord) (src dst : View) : Bool :=
  if w.chkAction = 2 then true else decide ((w.chkSpans src dst).2.2 ≤ dst.span.2)

/-- L_min of a CHK (R518). -/
def State.chkLatency (s : State) (t : Nat) (w : MopWord) (src dst : View) : Nat :=
  let p := w.chkSpans src dst
  let lines := linesOf p.1.1 p.1.2 ++ linesOf p.2.1 p.2.2
  let path := ((lines.filter memorySide).map (fun a => s.pathCycles t (pathNs t a))).foldl max 0
  40 + ceilDiv lines.length 4 + path + s.pathCycles t (if dieOfTile t < 2 then 24 else 40)

/-! ## Sealed blocks (Table SE.13) -/

/-- The last value of an alive counter. -/
abbrev lastCounter := 2 ^ 48 - 1

/-- The 4,160 bytes of a block; `flip` stores the complement of its check value. -/
def Cvu.block (u : Cvu) (counter : Nat) (payload : List Byte) (flip : Bool) : List Byte :=
  let b := leBytes 2 u.stream ++ leBytes 6 counter ++ slice payload 0 4096
  let c := cvuCheck u b
  b ++ leBytes 8 (if flip then 2 ^ u.width - 1 - c else c) ++ List.replicate 48 0

/-- A block sealed (R513; DESIGN CHOICE, log 54). -/
def Cvu.seal (u : Cvu) (payload : List Byte) : Cvu × List Byte :=
  if u.tx ≥ lastCounter then ({ u with broken := true, reason := 5 }, u.block lastCounter [] true)
  else ({ u with tx := u.tx + 1 }, u.block u.tx payload false)

/-- The reason for which a block is not accepted; 0 where it is (R514; DESIGN CHOICE, log 54). -/
def Cvu.fault (u : Cvu) (b : List Byte) : Nat :=
  if fld b 0x1008 8 ≠ cvuCheck u (slice b 0 0x1008) then 1
  else if fld b 0 2 ≠ u.stream then 2
  else if fld b 2 6 < u.rx then 3
  else if fld b 2 6 > u.rx then 4
  else 0

/-- A block checked: the unit after it and the payload it yields (DESIGN CHOICE, log 54). -/
def Cvu.accept (u : Cvu) (b : List Byte) : Cvu × List Byte :=
  let f := u.fault b
  let u' : Cvu := if f = 0 then { u with rx := (u.rx + 1) % 2 ^ 48 }
    else if u.broken then u else { u with broken := true, reason := f }
  (u', if u'.broken then List.replicate 4096 0 else slice b 8 4096)

/-- Blocks passed through a unit one after another: the unit, the bytes, the first block that met it BROKEN
(DESIGN CHOICE, log 54). -/
def Cvu.pass (f : Cvu → List Byte → Cvu × List Byte) (u : Cvu) (blocks : List (List Byte)) :
    Cvu × List Byte × Option Nat :=
  (List.zip (List.range blocks.length) blocks).foldl (fun (acc : Cvu × List Byte × Option Nat) p =>
    let r := f acc.1 p.2
    (r.1, acc.2.1 ++ r.2, if acc.2.2.isNone && r.1.broken then some p.1 else acc.2.2)) (u, [], none)

/-- Bytes cut into `n` blocks of `size`. -/
def chkBlocks (bs : List Byte) (size n : Nat) : List (List Byte) := (List.range n).map (fun i => slice bs (size * i) size)

/-! ## CHK -/

/-- The CVU_BROKEN event, with the fields that Table EB.4 gives it: its source is the check-value unit (Table EB.3). -/
def Ctx.brokenEvent (c : Ctx) (block reason : Nat) : Err :=
  Err.ofJob .deferred 0x09 9 c.w.chkUnit c.job c.mop.seq block reason

/-- The unit's work on the bytes read: the unit after it, the bytes to write and the event of a CHK that finds or meets BROKEN, for
whatever REASON (R513, R514). -/
def Cvu.work (u : Cvu) (c : Ctx) (bs : List Byte) (out : Nat) : Cvu × List Byte × List Err :=
  let broke (x : Cvu × List Byte × Option Nat) : List Err :=
    match x.2.2 with
    | some k => [c.brokenEvent k x.1.reason]
    | none => []
  if c.w.chkAction = 0 then (u, leBytes 8 (cvuCheck u bs), [])
  else if c.w.chkAction = 1 then
    let n := ceilDiv bs.length 4096
    let r := u.pass Cvu.seal (chkBlocks bs 4096 n)
    (r.1, r.2.1, broke r)
  else
    let r := u.pass Cvu.accept (chkBlocks bs 4160 (ceilDiv out 4096))
    (r.1, slice r.2.1 0 out, broke r)

/-- What a CHK adds to its counters. -/
def State.countChk (c : Ctx) (u v : Cvu) (read out : Nat) (s : State) : State :=
  let n := ceilDiv (if c.w.chkAction = 1 then read else out) 4096
  if c.w.chkAction = 0 then s.count .cvuBytes 0 read
  else
    let s := s.count .cvuBytes 0 (4104 * n)
    if c.w.chkAction = 1 then s.count .cvuBlocksSealed 0 n
    else (s.count .cvuBlocksAccepted 0 (v.rx - u.rx)).count .cvuBlocksFailed 0 (n - (v.rx - u.rx))

/-- Memory tokens of a CHK: its lines outside the own scratchpad, the bridge to the hub that each of its lines crosses, and a check
value on each packet under CHECK = FULL (Table PW.5). -/
def Ctx.chkTokens (c : Ctx) (src dst : View) : Nat :=
  let p := c.w.chkSpans src dst
  (linesOf p.1.1 p.1.2 ++ linesOf p.2.1 p.2.2).foldl (fun n a =>
    n + (match home a with | .scratch x _ => if x = c.t then 0 else lineTokens a | _ => lineTokens a) +
      20 * (bridgesTo c.t a + 1) + (if c.job.mode.check = .full then 2 else 0)) 0

/-- No tile whose scratchpad a CHK reaches is frozen (R465). -/
def State.chkOpen (s : State) (c : Ctx) : Bool :=
  match c.view 0, c.view 2 with
  | some src, some dst =>
    let p := c.w.chkSpans src dst
    (linesOf p.1.1 p.1.2 ++ linesOf p.2.1 p.2.2).all (s.openTo c.t)
  | _, _ => true

/-- Where in a span of bytes the ciphertext records lie that the job's descriptors place there (R281). -/
def Ctx.recordsIn (c : Ctx) (a n : Nat) : List Nat :=
  (c.job.descs.filter (fun d => d.code == 0 && d.recorded)).flatMap (fun d =>
    (List.range d.shards).flatMap (fun j => (List.range d.maxRecords).filterMap (fun i =>
      let x := d.shardBase c.t j + d.recordOffset + 64 * i
      if a ≤ x ∧ x + 64 ≤ a + n then some (x - a) else none)))

/-- The source address of a record that a CHK exports or imports and one of whose complement pairs disagrees in both readings,
where CHECK has it checked (R331, R332; DEDUCED, log 81). A record imported stands in the payloads of its blocks. -/
def State.chkPair (s : State) (c : Ctx) (src dst : View) : Option Nat :=
  let p := c.w.chkSpans src dst
  if c.job.mode.check = .word then none
  else if c.w.chkAction = 1 then
    (brokenRecord (c.recordsIn p.1.1 p.1.2) (s.readRaw p.1.1 p.1.2)).map (p.1.1 + ·)
  else if c.w.chkAction = 2 then
    (brokenRecord (c.recordsIn p.2.1 p.2.2) ((chkBlocks (s.readRaw p.1.1 p.1.2) 4160 (ceilDiv p.2.2 4096)).flatMap
      (fun b => slice b 8 4096))).map (fun o => p.1.1 + 4160 * (o / 4096) + 8 + o % 4096)
  else none

/-- What a macro-operation that reads an uncorrectable word at an address meets (Table TL.6); host memory holds none. -/
def Ctx.wordCause (c : Ctx) (a : Nat) : Option AbortCause :=
  match home a with
  | .scratch x off => if x = c.t then some (.scratchWord off) else some .remote
  | .hbm _ _ => some (.memLine (lineOf a))
  | .near _ _ => some (.memLine (lineOf a))
  | _ => none

/-- A CHK's effect. Its lines draw tokens, and wait for no allotment, since Table PW.6 gives a CHK none (DESIGN CHOICE, log 55). Marked operands poison it: zeros are written and the unit is not used (R58, R69; DEDUCED, log 52). -/
def State.chk (c : Ctx) (s : State) : State :=
  match c.view 0, c.view 2 with
  | some src, some dst =>
    let p := c.w.chkSpans src dst
    let tokens := c.chkTokens src dst
    if c.plainMarks ≠ 0 then
      let s := (s.count .memTokens 0 tokens).tileWrite c p.2.1 (List.replicate p.2.2 0)
      (s.mapMop c.t c.mop.seq (fun m =>
        { m with events := m.events ++ [c.poisonEvent c.t c.mop.seq c.plainMarks 1] })).markDone c
    else
      match s.badLine [p.1] with
      | some a => s.stopMop c (.memLine a)
      | none =>
        match s.badRemote c.t [p.1] with
        | some (x, off, n) => ((s.remoteRead x off n).1).stopMop c .remote
        | none =>
          let fault := s.chkPair c src dst
          let s := match fault with | some a => s.spoilSource a | none => s
          match fault.bind c.wordCause with
          | some k => s.stopMop c k
          | none =>
          let u := s.cvu c.w.chkUnit
          let r := u.work c (s.readRaw p.1.1 p.1.2) p.2.2
          let s := s.mapCvu c.w.chkUnit (fun _ => r.1)
          let s := ((s.countChk c u r.1 p.1.2 p.2.2).count .memTokens 0 tokens).tileWrite c p.2.1 r.2.1
          let s := if emptyList r.2.2 then s
            else s.mapMop c.t c.mop.seq (fun m => { m with events := m.events ++ r.2.2 })
          s.markDone c
  | _, _ => s.markDone c

/-- A CHK command with one ACTION. -/
def State.chkOp (s : State) (t seq action : Nat) : Out :=
  s.withReady t seq (fun w => w.family == Fam.chk && w.chkAction == action) fun c =>
    if s.chkOpen c then s.guarded c (State.chk c) else s

/-- CHK_COMPUTE. -/
def execChkCompute (t seq : Nat) (s : State) : Out := s.chkOp t seq 0

/-- CHK_APPEND (R513). -/
def execChkAppend (t seq : Nat) (s : State) : Out := s.chkOp t seq 1

/-- CHK_CHECK_STRIP (R514). -/
def execChkCheckStrip (t seq : Nat) (s : State) : Out := s.chkOp t seq 2

/-! ## CVU_RX (R510) -/

/-- Address of a register of unit `u`. -/
def cvuAddr (u off : Nat) : Nat := 0x070000 + 0x40 * u + off

/-- A write of CVU_RX: BROKEN and REASON clear (R510). -/
def State.writeCvuRx (q : Requester) (u v : Nat) (s : State) : State :=
  if !emptyList s.jobs then s.discard q (cvuAddr u 0x20) v
  else s.mapCvu u (fun x => { x with rx := v % 2 ^ 48, broken := false, reason := 0 })

/-- CVU_RX_WRITE: sets RX and clears BROKEN and REASON; discarded while a job is admitted. -/
def execCvuRxWrite (q : Requester) (u : Nat) (value : DWord) (s : State) : Out :=
  .next ((s.unlatch).gated q (cvuAddr u 0x20) (State.writeCvuRx q u value.toNat))

end Sys2Proof.Machine
end

