-- ==== Sys2Proof/Machine/ErrQueue.lean ====
section
/-!
DEFINITION. The Hoop's handling of the error queue (16_errors_startup, R527).
-/
namespace Sys2Proof.Machine

/-- Which of two entries the Hoop takes first: the higher class; within a class a suspended one, then the earlier. -/
def ErrEntry.ahead (a b : ErrEntry) : Bool :=
  decide (a.err.cls.rank > b.err.cls.rank) ||
    (a.err.cls.rank == b.err.cls.rank &&
      ((a.phase == .suspended && b.phase != .suspended) ||
        ((a.phase == .suspended) == (b.phase == .suspended) && decide (a.order < b.order))))

/-- The next entry to handle. -/
def ErrUnit.next (u : ErrUnit) : Option ErrEntry :=
  u.queue.foldl (fun best x => match best with
    | none => some x
    | some b => if x.ahead b then some x else some b) none

/-- The entry in handling. -/
def ErrUnit.active (u : ErrUnit) : Option ErrEntry := u.queue.find? (fun x => x.phase == .active)

/-- The queue without an entry (DESIGN CHOICE, log 27). -/
def ErrUnit.free (u : ErrUnit) (x : ErrEntry) : ErrUnit := { u with queue := u.queue.filter (fun y => y.order != x.order) }

/-- The Hoop's handling: where it handles no entry, it takes the next one, which is in handling from then on; where it handles a
CONTAINED entry, that entry is retired without a posting (R527; DESIGN CHOICE, log 27). -/
def State.handleErr (s : State) : State :=
  match s.errs.active with
  | some x => if x.err.cls.rank ≤ 2 then { s with errs := s.errs.free x } else s
  | none =>
    match s.errs.next with
    | some x => { s with errs := { s.errs with
        queue := s.errs.queue.map (fun y => if y.order = x.order then { y with phase := .active } else y) } }
    | none => s

/-- What the Hoop's reads of its SRAM and of the error queue meet: a free value (DESIGN CHOICE, log 5, log 27). -/
def State.hoopRead (s : State) : ReadError :=
  match (Config.freeWord s.freeCount).toNat % 4 with
  | 0 => .single
  | 1 => .uncorrectable 1
  | _ => .clean

/-- The Hoop's step on the error queue, by what its reads meet: an uncorrectable word is a HUB_FAULT (R523, Table EB.4;
DESIGN CHOICE, log 27). -/
def State.hoopStep (error : ReadError) (s : State) : State :=
  match error with
  | .clean => s.handleErr
  | .single => (s.raise [Err.plain .corrected 0 0 0 0 0]).handleErr
  | .uncorrectable n => if n = 0 then s.handleErr else s.raise [Err.plain .fatal 0x36 8 0 0 0]

/-- ERROR_HANDLE: the Hoop takes the next entry, or ends the handling of a CONTAINED one (R527). -/
def execErrorHandle (s : State) : Out := .next ({ s with freeCount := s.freeCount + 1 }.hoopStep s.hoopRead)

/-- A trained link carries the module's writes (R530). -/
def Link.carries (l : Link) : Bool := l.state == .up || l.state == .recalibrating

/-- ERROR_POSTED: Selvedge accepts the write of the ERROR entry, or R413 discards it; the entry frees
(DESIGN CHOICE, log 27, log 73). A CONTAINED entry is not posted. The ring lies in host memory, which the module writes over its
link: while it is FATAL and the link carries nothing the entry is lost and counted (R530; DEDUCED, log 27). -/
def execErrorPosted (s : State) : Out :=
  match s.errs.active with
  | some x => .next (if x.err.cls.rank ≤ 2 then s
      else
        let t : State := { s with errs := s.errs.free x }
        if s.errs.fatal && !s.link.carries then t.dropEvent else t.postEvent 1 (x.err.bytes x.count))
  | none => .next s

end Sys2Proof.Machine
end

