-- ==== Sys2Proof/Machine/Float.lean ====
section
/-!
DEFINITION. Ingest formats, binary floating point and rounding to fixed point (07_matrix_engine, R228, R229, R236-R241), on
exact dyadic values.
-/
namespace Sys2Proof.Machine

/-- A floating-point value: NaN, an infinity, or ±m · 2^e exactly (a zero keeps its sign). -/
inductive FVal where
  | nan
  | inf (neg : Bool)
  | fin (neg : Bool) (m : Nat) (e : Int)
deriving DecidableEq, Repr

/-- A value of an IEEE 754 binary interchange format with `eb` exponent and `mb` significand bits. -/
def ieeeVal (eb mb v : Nat) : FVal :=
  let neg := bit v (eb + mb)
  let x := bits v (eb + mb - 1) mb
  let m := v % 2 ^ mb
  let emin : Int := 2 - (2 ^ (eb - 1) : Nat)
  if x = 2 ^ eb - 1 then (if m = 0 then .inf neg else .nan)
  else if x = 0 then .fin neg m (emin - mb)
  else .fin neg (2 ^ mb + m) (emin + x - 1 - mb)

/-- OCP FP8 E4M3: no infinity; exponent and significand all ones are NaN. -/
def e4m3Val (v : Nat) : FVal :=
  let x := bits v 6 3
  let m := v % 8
  if x = 15 ∧ m = 7 then .nan
  else if x = 0 then .fin (bit v 7) m (-9)
  else .fin (bit v 7) (8 + m) ((x : Int) - 10)

/-- An integer as an exact value; 0 is +0. -/
def intVal (i : Int) : FVal := .fin (decide (i < 0)) i.natAbs 0

/-- Width in bits of a source format (Table MX.5); 0 when unassigned. -/
def srcBits (fmt : Nat) : Nat := [1, 2, 4, 8, 8, 8, 16, 16, 32, 32].getD fmt 0

/-- The value of an element in a source format (Table MX.5). -/
def srcVal (fmt v : Nat) : FVal :=
  match fmt with
  | 0 => if v % 2 = 0 then intVal (-1) else intVal 1
  | 1 => intVal (signed 2 v)
  | 2 => intVal (signed 4 v)
  | 3 => intVal (signed 8 v)
  | 4 => e4m3Val (v % 2 ^ 8)
  | 5 => ieeeVal 5 2 (v % 2 ^ 8)
  | 6 => ieeeVal 5 10 (v % 2 ^ 16)
  | 7 => ieeeVal 8 7 (v % 2 ^ 16)
  | 8 => ieeeVal 8 23 (v % 2 ^ 32)
  | _ => intVal (signed 32 v)

/-- A binary32 word. -/
def f32 (v : Nat) : FVal := ieeeVal 8 23 (v % 2 ^ 32)

/-- m · 2^k rounded to an integer, nearest, ties to even. -/
def rneShift (m : Nat) (k : Int) : Nat :=
  if 0 ≤ k then m * 2 ^ k.toNat
  else
    let d := 2 ^ (-k).toNat
    let t := m / d
    let r := m % d
    if 2 * r > d ∨ (2 * r = d ∧ t % 2 = 1) then t + 1 else t

/-- The encoding of a value in an IEEE 754 format: nearest-even, subnormals produced, overflow to infinity; `nan` is the
format's NaN. -/
def encodeIeee (eb mb nan : Nat) : FVal → Nat
  | .nan => nan
  | .inf neg => flag neg * 2 ^ (eb + mb) + (2 ^ eb - 1) * 2 ^ mb
  | .fin neg m e =>
    let sign := flag neg * 2 ^ (eb + mb)
    if m = 0 then sign
    else
      let emin : Int := 2 - (2 ^ (eb - 1) : Nat)
      let x : Int := max ((Nat.log2 m : Int) + e) emin
      let r := rneShift m (e - (x - mb))
      let v := (x - emin).toNat * 2 ^ mb + r
      if v ≥ (2 ^ eb - 1) * 2 ^ mb then sign + (2 ^ eb - 1) * 2 ^ mb else sign + v

/-- binary32 with the canonical NaN. -/
def toF32 (v : FVal) : Nat := encodeIeee 8 23 0x7FC00000 v

/-- The signed integer of a finite value scaled to a common exponent `e0` below its own. -/
def alignTo (e0 : Int) (neg : Bool) (m : Nat) (e : Int) : Int :=
  let v : Int := (m * 2 ^ (e - e0).toNat : Nat)
  if neg then -v else v

/-- a · b + c of unbounded precision with the special-value rules of IEEE 754 fusedMultiplyAdd. -/
def fmaVal (a b c : FVal) : FVal :=
  let prod : FVal := match a, b with
    | .nan, _ => .nan
    | _, .nan => .nan
    | .inf x, .inf y => .inf (x != y)
    | .inf x, .fin y m _ => if m = 0 then .nan else .inf (x != y)
    | .fin x m _, .inf y => if m = 0 then .nan else .inf (x != y)
    | .fin x m e, .fin y n f => .fin (x != y) (m * n) (e + f)
  match prod, c with
  | .nan, _ => .nan
  | _, .nan => .nan
  | .inf x, .inf y => if x = y then .inf x else .nan
  | .inf x, _ => .inf x
  | _, .inf y => .inf y
  | .fin x m e, .fin y n f =>
    let e0 := min e f
    let v := alignTo e0 x m e + alignTo e0 y n f
    if v = 0 then .fin (x && y) 0 0 else .fin (decide (v < 0)) v.natAbs e0

/-- a + b exactly. -/
def addVal (a b : FVal) : FVal := fmaVal a (intVal 1) b

/-- a · b exactly: the product's own sign also for a zero. -/
def mulVal (a b : FVal) : FVal :=
  match a, b with
  | .fin x m e, .fin y n f => .fin (x != y) (m * n) (e + f)
  | _, _ => fmaVal a b (.fin false 0 0)

/-- Whether a < b for values that are no NaN; −0 and +0 are equal. -/
def ltVal : FVal → FVal → Bool
  | .nan, _ => false
  | _, .nan => false
  | .inf x, .inf y => x && !y
  | .inf x, _ => x
  | _, .inf y => !y
  | .fin x m e, .fin y n f => decide (alignTo (min e f) x m e < alignTo (min e f) y n f)

/-- Minimum (Table MX.7): NaN for a NaN; operand A of two equal ones. -/
def minVal (a b : FVal) : FVal := if a = .nan ∨ b = .nan then .nan else if ltVal b a then b else a

/-- Maximum (Table MX.7). -/
def maxVal (a b : FVal) : FVal := if a = .nan ∨ b = .nan then .nan else if ltVal a b then b else a

/-! ## Fixed point (R237-R239) -/

/-- The draw of R238. -/
def draw (seed tile seq pos : Nat) : Nat :=
  let z := mix64 (seed % 2 ^ 64 ^^^ (tile % 2 ^ 32 * 2 ^ 32 + seq % 2 ^ 32))
  mix64 ((z + pos) % 2 ^ 64) >>> 32

/-- Saturation to 32 signed bits. -/
def clamp32 (i : Int) : Int := if i < -(2 ^ 31) then -(2 ^ 31) else if i > 2 ^ 31 - 1 then 2 ^ 31 - 1 else i

/-- round_fixed of n / d with d > 0 (R238). -/
def roundFixed (mode : Rounding) (n : Int) (d u : Nat) : Int :=
  let t := n / (d : Int)
  let r := n - t * (d : Int)
  let up := match mode with
    | .nearestEven => decide (2 * r > (d : Int)) || (decide (2 * r = (d : Int)) && decide (t % 2 = 1))
    | .towardZero => decide (n < 0) && decide (r > 0)
    | .stochastic => decide (r * 2 ^ 32 / (d : Int) > (u : Int))
  clamp32 (if up then t + 1 else t)

/-- Conversion of v · 2^F to fixed point (R237): none for a NaN. -/
def toFixed (mode : Rounding) (v : FVal) (f : Int) (u : Nat) : Option Nat :=
  match v with
  | .nan => none
  | .inf neg => some (low 32 (if neg then -(2 ^ 31) else 2 ^ 31 - 1))
  | .fin neg m e =>
    let k := e + f
    let n : Int := if neg then -(m : Int) else (m : Int)
    some (low 32 (if 0 ≤ k then roundFixed mode (n * (2 ^ k.toNat : Nat)) 1 u
      else roundFixed mode n (2 ^ (-k).toNat) u))

end Sys2Proof.Machine
end

