-- ==== Sys2Proof/Machine/Vprog.lean ====
section
/-!
DEFINITION. Vector programs (04_polynomial_engines, R143-R148, R564; 07_matrix_engine, R240): instruction words, timing,
tile-register landings (R105), timing events (R109-R111), and the VPROG command.
-/
namespace Sys2Proof.Machine

/-! ## Instruction words (Table PE.3) -/

/-- Modular instructions (R564). -/
def vModular (w : Nat) : Bool := [1, 2, 3, 4, 5, 6, 0x18, 0x19].contains (vOp w)

/-- The assigned operations (Tables PE.4 and MX.6). -/
def vAssigned (w : Nat) : Bool :=
  decide (vOp w ≤ 6) || (decide (0x08 ≤ vOp w) && decide (vOp w ≤ 0x10)) ||
    (decide (0x18 ≤ vOp w) && decide (vOp w ≤ 0x1D)) || vMem w || (decide (0x28 ≤ vOp w) && decide (vOp w ≤ 0x2D))

/-- An instruction is valid (R143-R145, R240): assigned, COUNT within the rows, SEL of a ROW broadcast within 0 to 31,
field C of FCVT a floating-point format. -/
def vValid (w : Nat) : Bool :=
  vAssigned w && (!vMem w || decide (vFirst w + vCount w ≤ 32)) &&
    (vMem w || vBc w != 1 || decide (vSel w < 32)) && (vOp w != 0x28 || (decide (4 ≤ vC w) && decide (vC w ≤ 8)))

/-- A row-map entry is valid (R144). -/
def rowEntryOk (e : Nat) : Bool := decide (e ≤ 95) || e == 0x7F

/-! ## Timing (R146-R148) -/

/-- Depth e (Tables PE.4 and MX.6). -/
def vDepth (w : Nat) : Nat :=
  match vOp w with
  | 0x04 => 11
  | 0x05 => 12
  | 0x08 => 2
  | 0x09 => 2
  | 0x0A => 4
  | 0x0B => 2
  | 0x0C => 2
  | 0x0D => 2
  | 0x0E => 2
  | 0x0F => 2
  | 0x10 => 1
  | 0x18 => 10
  | 0x1A => 10
  | 0x1C => 4
  | 0x1D => 4
  | 0x28 => 4
  | 0x29 => 4
  | 0x2A => 2
  | 0x2B => 2
  | 0x2C => 4
  | 0x2D => 4
  | _ => 3

def vGroups (slots : Slots) (w : Nat) : Nat := groupCount [vTransfer slots w]

/-- Duration of an instruction. -/
def vDuration (slots : Slots) (w : Nat) : Nat :=
  match vOp w with
  | 0x00 => 1
  | 0x19 => 36
  | 0x1B => 36
  | 0x20 => 32 * vGroups slots w
  | 0x21 => vCount w + 32 * vGroups slots w
  | 0x22 => 32 * vGroups slots w
  | _ => 32

/-- The delay before a broadcast. -/
def vDelay (w : Nat) : Nat := if !vMem w && vBc w != 0 then 16 else 0

/-- Issue cycles of the instructions that follow a cycle, and c_n. -/
def vIssueGo (slots : Slots) : Nat → List Nat → List Nat
  | c, [] => [c]
  | c, w :: l =>
    c :: vIssueGo slots (c + vDuration slots w + (match l with | x :: _ => vDelay x | [] => 0)) l

/-- Issue cycles c_0 … c_(n−1) and c_n (R146; DESIGN CHOICE, log 37). -/
def vIssue (slots : Slots) (p : Program) : List Nat := vIssueGo slots 6 p.words

def vEnd (slots : Slots) (p : Program) : Nat := ((vIssue slots p).getLast?).getD 6

/-- Latency and VE interval (R148; DESIGN CHOICE, log 37). -/
def vTiming (slots : Slots) (p : Program) : Nat × Nat := (vEnd slots p + 16, vEnd slots p - 1)

/-! ## Tile registers (R105) -/

/-- Register number of a mask register in landings. -/
abbrev maskReg (k : Nat) : Nat := 16 + k % 4

def KReg.words (k : BitVec 128) : Tab 128 Word := Tab.build 128 (fun i => if k.getLsbD i then 1 else 0)

def bitsOf (v : Tab 128 Word) : BitVec 128 :=
  BitVec.ofNat 128 ((List.range 128).foldl (fun acc i => if Tab.at v 0 i = 0 then acc else acc ||| 2 ^ i) 0)

/-- A landed row. -/
def Tile.regRow (u : Tile) (reg row : Nat) : Tab 128 Word :=
  if reg < 16 then Tab.at (Tab.at u.vregs (Tab.fill 32 (Tab.fill 128 0)) reg) (Tab.fill 128 0) row
  else KReg.words (Tab.at (Tab.at u.kregs (Tab.fill 32 0) (reg - 16)) 0 row)

def Tile.setRow (u : Tile) (reg row : Nat) (v : Tab 128 Word) : Tile :=
  if reg < 16 then
    { u with vregs := Tab.put u.vregs reg (Tab.put (Tab.at u.vregs (Tab.fill 32 (Tab.fill 128 0)) reg) row v) }
  else
    { u with kregs := Tab.put u.kregs (reg - 16) (Tab.put (Tab.at u.kregs (Tab.fill 32 0) (reg - 16)) row (bitsOf v)) }

/-- The landing a read of a row in cycle `c` sees: the latest before it. -/
def seenLanding (ls : List Landing) (reg row c : Nat) : Option Landing :=
  (ls.filter (fun l => l.reg == reg && l.row == row && decide (l.cycle < c))).foldl (fun best l =>
    match best with
    | none => some l
    | some b => if b.cycle ≤ l.cycle then some l else some b) none

/-- A row as a read in cycle `c` returns it. -/
def Tile.readRow (u : Tile) (ls : List Landing) (reg row c : Nat) : List Nat :=
  ((match seenLanding ls reg row c with | some l => l.value | none => u.regRow reg row).toList).map (fun (x : Word) => x.toNat)

/-- Landings before a cycle moved into the registers, in landing order. -/
def Tile.land (u : Tile) (c : Nat) : Tile :=
  let due := (u.landings.filter (fun l => decide (l.cycle < c))).mergeSort (fun a b => decide (a.cycle ≤ b.cycle))
  { due.foldl (fun u l => u.setRow l.reg l.row l.value) u with
    landings := u.landings.filter (fun l => !decide (l.cycle < c)) }

def vecOf (l : List Nat) : Tab 128 Word := Tab.build 128 (fun i => BitVec.ofNat 32 (l.getD i 0))

/-! ## Timing events (R109-R111) -/

/-- A read of a tile-register row. -/
structure VRead where
  reg : Nat
  row : Nat
  cycle : Nat
deriving DecidableEq, Repr

/-- Early reads of one row: the writes of earlier macro-operations that it misses, with DIST. -/
def missed (ls : List Landing) (seq : Nat) (r : VRead) : List (Nat × Int) :=
  (ls.filter (fun l => l.reg == r.reg && l.row == r.row && decide (l.writer < seq) && decide (r.cycle ≤ l.cycle))).map
    (fun l => (l.writer, (r.cycle : Int) - l.cycle))

/-- The first affected read of each row for a writer and a register. -/
def rowDists (ls : List Landing) (seq writer reg : Nat) (rs : List VRead) : List (Nat × Int) :=
  (List.range 32).filterMap fun row =>
    ((rs.filter (fun r => r.reg == reg && r.row == row)).findSome? (fun r =>
      ((missed ls seq r).find? (fun m => m.1 == writer)).map (·.2))).map (fun d => (row, d))

def runsGo : Option (Nat × Int × Nat) → List (Nat × Int) → List (Nat × Int × Nat)
  | none, [] => []
  | some r, [] => [r]
  | none, (row, d) :: l => runsGo (some (row, d, 1)) l
  | some (lo, d0, n), (row, d) :: l =>
    if row = lo + n then runsGo (some (lo, d0, n + 1)) l else (lo, d0, n) :: runsGo (some (row, d, 1)) l

/-- Timing-event entries (Table TL.5) of one reader. -/
def timingEvents (t seq : Nat) (ls : List Landing) (rs : List VRead) : List (List Byte) :=
  (List.range 16).flatMap fun reg =>
    (((ls.map (·.writer)).filter (fun w => decide (w < seq))).eraseDups).flatMap fun writer =>
      (runsGo none (rowDists ls seq writer reg rs)).map fun r =>
        leBytes 2 t ++ leBytes 1 1 ++ leBytes 1 reg ++ leBytes 1 r.1 ++ leBytes 1 r.2.2 ++ leBytes 2 (low 16 r.2.1) ++
          leBytes 4 writer ++ leBytes 4 seq

/-- Entries written into the tile's audit area, each drawing tokens (R111); what does not fit is counted in AUDIT_LOST
(R110). -/
def State.audit (t : Nat) (j : Job) (es : List (List Byte)) (s : State) : State :=
  es.foldl (fun s e =>
    let pos := (s.tile t).auditPos
    let s := s.count .auditEvents t 1
    if 16 * (pos + 1) ≤ j.auditPerTile then
      ((s.count .memTokens 0 4).store (j.auditBase + t * j.auditPerTile + 16 * pos) e).mapTile t (fun u => { u with auditPos := pos + 1 })
    else s.count .auditLost t 1) s

/-! ## Execution -/

/-- A run of a program so far: its tile-register writes, its reads, the bytes its STs wrote, and whether an FCVT met a
NaN. -/
structure VRun where
  lands : List Landing
  reads : List VRead
  stored : List (Nat × Nat)
  nan : Bool
deriving DecidableEq, Repr

/-- Positions of the bits set in a mask row. -/
def maskPositions (row : List Nat) : List Nat := (List.range 128).filter (fun i => row.getD i 0 != 0)

/-- CMPR: the marked words moved down; EXPD: words moved up to the marked places. -/
def compress (mask a : List Nat) : List Nat :=
  let m := maskPositions mask
  (List.range 128).map (fun i => match m[i]? with | some k => a.getD k 0 | none => 0)
def expand (mask a : List Nat) : List Nat :=
  let m := maskPositions mask
  (List.range 128).map (fun k => match m.findIdx? (· == k) with | some i => a.getD i 0 | none => 0)

/-- One element of a compute instruction but the reductions, CMPR, EXPD and FCVT: `q` is the row's modulus. -/
def vElem (w q a b c : Nat) : Nat :=
  let sel := vSel w
  match vOp w with
  | 0x01 => (a + b) % q
  | 0x02 => (a % q + q - b % q) % q
  | 0x03 => negSel q a
  | 0x04 => a * b % q
  | 0x05 => (a * b + c) % q
  | 0x06 => red q a
  | 0x08 => word32 (a + b)
  | 0x09 => word32 (a + 2 ^ 32 - b)
  | 0x0A => word32 (a * b)
  | 0x0B => a &&& b
  | 0x0C => a ||| b
  | 0x0D => a ^^^ b
  | 0x0E => word32 (a * 2 ^ (sel % 32))
  | 0x0F => a / 2 ^ (sel % 32)
  | 0x29 => toF32 (match intVal (signed 32 a) with | .fin n m e => .fin n m (e - signed 7 sel) | v => v)
  | 0x2A => toF32 (minVal (f32 a) (f32 b))
  | 0x2B => toF32 (maxVal (f32 a) (f32 b))
  | 0x2C => toF32 (addVal (f32 a) (f32 b))
  | 0x2D => toF32 (mulVal (f32 a) (f32 b))
  | _ => a

/-- FMIN and FMAX return the operand's own word, or the NaN (Table MX.7). -/
def vPick (w a b : Nat) : Nat :=
  let x := f32 a
  let y := f32 b
  if x = .nan ∨ y = .nan then 0x7FC00000
  else if vOp w = 0x2A then (if ltVal y x then b else a) else (if ltVal x y then b else a)

/-- The B value at (row, column) of broadcast source rows (R145). -/
def vBroadcast (w : Nat) (rows : List (List Nat)) (r k : Nat) : Nat :=
  match vBc w with
  | 0 => (rows.getD r []).getD k 0
  | 1 => (rows.getD (vSel w) []).getD k 0
  | 2 => (rows.getD r []).getD (vSel w) 0
  | _ => (rows.getD 0 []).getD (vSel w) 0

/-- Which registers an operation reads. -/
def vUsesB (w : Nat) : Bool :=
  [1, 2, 4, 5, 8, 9, 0xA, 0xB, 0xC, 0xD, 0x2A, 0x2B, 0x2C, 0x2D].contains (vOp w)

/-- The context of a run: the tile, its tile registers before it, its start cycle, its sequence number, the moduli of
the rows (none: the entry names no modulus), the rounding mode and seed, and the number of its free values. -/
structure VCtx where
  t : Nat
  seq : Nat
  start : Nat
  tile : Tile
  older : List Landing
  moduli : List (Option Nat)
  round : Rounding
  seed : Nat
  free : Nat
  slots : Slots
  /-- what a run of a fused chain adds to the position argument of a draw (R261) -/
  pos : Nat
  /-- extents into which its STs write zeros: those of its poisoned batches (R69) -/
  zeros : List (Nat × Nat)

/-- All rows of a register as an instruction issued in cycle `c` reads them: row r in cycle c + r, or all in cycle c. -/
def VCtx.rows (x : VCtx) (ls : List Landing) (reg c : Nat) (once : Bool) : List (List Nat) :=
  (List.range 32).map (fun r => x.tile.readRow ls reg r (if once then c else c + r))

/-- Modulus of a row; none where there is none. -/
def VCtx.q (x : VCtx) (r : Nat) : Option Nat := x.moduli.getD r none

/-- A free word for an element that no modulus defines (DESIGN CHOICE, log 5). -/
def VCtx.freeWord (x : VCtx) (i r k : Nat) : Nat := (Config.freeLane x.free (x.pos + 4096 * i + 128 * r + k)).toNat

/-- The rows a compute instruction writes, with their landing cycles, and whether a NaN was met. -/
def VCtx.compute (x : VCtx) (ls : List Landing) (i w c : Nat) : List (Nat × Nat × List Nat) × Bool :=
  let a := x.rows ls (vA w) c false
  let cols := List.range 128
  let rowsIdx := List.range 32
  match vOp w with
  | 0x18 => (rowsIdx.map (fun r => (r, c + r + 10,
      (match x.q r with | some q => total (a.getD r []) % q | none => x.freeWord i r 0) :: List.replicate 127 0)), false)
  | 0x1A => (rowsIdx.map (fun r => (r, c + r + 10, word32 (total (a.getD r [])) :: List.replicate 127 0)), false)
  | 0x19 => ([(0, c + 35, cols.map (fun k =>
      match x.q 0 with | some q => total (a.map (fun row => row.getD k 0)) % q | none => x.freeWord i 0 k))], false)
  | 0x1B => ([(0, c + 35, cols.map (fun k => word32 (total (a.map (fun row => row.getD k 0)))))], false)
  | 0x1C => (rowsIdx.map (fun r => (r, c + r + 4,
      compress (x.tile.readRow ls (maskReg (vC w)) r (c + r)) (a.getD r []))), false)
  | 0x1D => (rowsIdx.map (fun r => (r, c + r + 4,
      expand (x.tile.readRow ls (maskReg (vC w)) r (c + r)) (a.getD r []))), false)
  | 0x28 =>
    let f := signed 7 (vSel w)
    let fx (r k : Nat) : Option Nat :=
      toFixed x.round (srcVal (vC w) ((a.getD r []).getD k 0)) f (draw x.seed x.t x.seq (x.pos + 4096 * i + 128 * r + k))
    (rowsIdx.map (fun r => (r, c + r + 4, cols.map (fun k => (fx r k).getD 0))),
      rowsIdx.any (fun r => cols.any (fun k => (fx r k).isNone)))
  | _ =>
    let b := if vUsesB w then x.rows ls (vB w) c (vBc w != 0) else []
    let cc := if vOp w = 0x05 then x.rows ls (vC w) c false else []
    (rowsIdx.map (fun r => (r, c + r + vDepth w, cols.map (fun k =>
      let av := (a.getD r []).getD k 0
      let bv := vBroadcast w b r k
      if vOp w = 0x2A ∨ vOp w = 0x2B then vPick w av bv
      else if vModular w then
        match x.q r with
        | some q => vElem w q av bv ((cc.getD r []).getD k 0)
        | none => x.freeWord i r k
      else vElem w 1 av bv 0))), false)

/-- Tile-register reads of an instruction issued in cycle `c`, in order (R146, R147). -/
def vReads (w c : Nat) : List VRead :=
  let each (reg : Nat) : List VRead := (List.range 32).map (fun r => { reg := reg, row := r, cycle := c + r })
  if vOp w = 0x00 then []
  else if vOp w = 0x21 then (List.range (vCount w)).map (fun k => { reg := vD w, row := vFirst w + k, cycle := c + k })
  else if vMem w then []
  else
    let bReads : List VRead := if vUsesB w then
        (match vBc w with
        | 0 => each (vB w)
        | 1 => [{ reg := vB w, row := vSel w, cycle := c }]
        | 2 => (List.range 32).map (fun r => { reg := vB w, row := r, cycle := c })
        | _ => [{ reg := vB w, row := 0, cycle := c }])
      else []
    each (vA w) ++ bReads ++ (if vOp w = 0x05 then each (vC w) else [])

/-- Index of the group that holds the last byte of a row of a transfer. -/
def rowGroup (a n k : Nat) : Nat :=
  (((groupIndex [(a, n)]).find? (fun p => p.1 == (a + 512 * k + 511) / 512)).map (·.2)).getD 0

/-- Bytes from an address up, 0 where they lie in one of the extents. -/
def zeroWithin (zs : List (Nat × Nat)) (a : Nat) (bs : List Byte) : List Byte :=
  (List.zip (List.range bs.length) bs).map (fun p =>
    if zs.any (fun z => decide (z.1 ≤ a + p.1) && decide (a + p.1 < z.1 + z.2)) then 0 else p.2)

/-- One instruction (DESIGN CHOICE, log 37). -/
def VCtx.instr (x : VCtx) (i w c : Nat) (p : VRun × State) : VRun × State :=
  let run := p.1
  let s := p.2
  let at0 := x.start + c
  let run := { run with reads := run.reads ++ vReads w at0 }
  let tr := vTransfer x.slots w
  if vOp w = 0x00 then (run, s)
  else if vOp w = 0x21 then
    let bs := (List.range (vCount w)).flatMap (fun k =>
      (x.tile.readRow (x.older ++ run.lands) (vD w) (vFirst w + k) (at0 + k)).flatMap (leBytes 4))
    ({ run with stored := run.stored ++ [tr] }, s.store tr.1 (zeroWithin x.zeros tr.1 bs))
  else if vMem w then
    let reg := if vOp w = 0x22 then maskReg (vD w) else vD w
    let ls : List Landing := (List.range (vCount w)).map (fun k =>
      let ws := (List.range 128).map (fun j => s.readWord (tr.1 + 512 * k + 4 * j))
      { cycle := at0 + 32 * rowGroup tr.1 tr.2 k + 31, reg := reg, row := vFirst w + k,
        value := vecOf (if vOp w = 0x22 then ws.map (fun v => if v = 0 then 0 else 1) else ws), writer := x.seq })
    ({ run with lands := run.lands ++ ls }, s)
  else
    let out := x.compute (x.older ++ run.lands) i w at0
    let ls : List Landing := out.1.map (fun r =>
      { cycle := r.2.1, reg := vD w, row := r.1, value := vecOf r.2.2, writer := x.seq })
    ({ run with lands := run.lands ++ ls, nan := run.nan || out.2 }, s)

/-- A whole program, after what earlier runs did (DESIGN CHOICE, log 37). -/
def VCtx.run (x : VCtx) (p : Program) (acc : VRun × State) : VRun × State :=
  (List.zip (List.range p.words.length) (List.zip p.words (vIssue x.slots p))).foldl
    (fun acc e => x.instr e.1 e.2.1 e.2.2 acc) acc

def VRun.empty : VRun := { lands := [], reads := [], stored := [], nan := false }

/-! ## FC2 and FC5 (R260, R261) -/

/-- Rows and columns of the matrix of an intermediate: dimension 0 its words, dimension 1 its rows. -/
def Inter.cols (i : Inter) : Nat := (i.desc.dims.map (·.extent)).getD 0 1
def Inter.rows (i : Inter) : Nat := (i.desc.dims.map (·.extent)).getD 1 1

/-- Units of stage 0's output: 32 rows × 128 columns, row blocks major. -/
def Inter.vUnits (i : Inter) : Nat := ceilDiv i.rows 32 * ceilDiv i.cols 128

/-- The 16,384 bytes of unit `u`; a word beyond the last column or row is 0. -/
def unitBytes (rows : List (List Nat)) (cols u : Nat) : List Byte :=
  let n := max (ceilDiv cols 128) 1
  (List.range 32).flatMap (fun r => (List.range 128).flatMap (fun k =>
    leBytes 4 (((rows.getD (32 * (u / n) + r) []).getD (128 * (u % n) + k) 0))))

/-! ## The command -/

/-- R564: a row-map entry that names no modulus of a set. -/
def rowMapBad (p : PSet) (g : Program) : Bool :=
  g.rowmap.any (fun e => if e = 0x7F then p.lweN == 0 else decide (p.chain + p.special ≤ e))

/-- The modulus of each row under a reference's set. -/
def rowModuli (p : Option PSet) (g : Program) : List (Option Nat) :=
  g.rowmap.map (fun e => match p with
    | some p => if (if e = 0x7F then p.lweN == 0 else decide (p.chain + p.special ≤ e)) then none else some (p.q e)
    | none => none)

/-- The extents into which a VPROG's STs write zeros (R69): the elements of its poisoned batches, and every address where
all its batches are poisoned. -/
def zeroExtents (v : Option View) (outs : List BatchOut) : List (Nat × Nat) :=
  let bad := outs.filter (fun o => o.flags != 0)
  if !emptyList bad && bad.length == outs.length then [(0, 2 ^ 64)]
  else match v with
    | some v => bad.flatMap (fun o => (zeroOut v o.b).map (fun e => v.extent e.1))
    | none => []

/-- The output batches of one run, but for NAN_SRC: the record of an FCVT's run is known when it ends (R564). -/
def State.vprogOuts (s : State) (c : Ctx) (g : Program) : List BatchOut :=
  let modular := g.words.any vModular
  let extra (r : Option RecIn) : Nat :=
    match r with
    | some ref => if modular && !ref.outside then
        (match s.pset ref.r.pset with | some p => if rowMapBad p g then Flag.range else 0 | none => 0) else 0
    | none => 0
  let blank : View := { desc := c.outDesc, idx := 0, tile := c.t, off := 0 }
  ((c.view 2).elim [0] View.outBatches).map (fun b =>
    s.batchOut c ((c.view 2).getD blank) b (fun _ => keepRule Fam.vprog) extra (fun _ _ => []))

/-- What the runs of a VPROG have done so far: the tile-register writes and reads of all of them, the flags newly raised, and the
state with their stores and records. -/
structure VPass where
  lands : List Landing
  reads : List VRead
  newFlags : Nat
  start : Nat
  state : State

/-- One run of a VPROG, with its input records read anew (R255). A NaN at an FCVT raises NAN_SRC on records that carry other
flags too (Table CT.12; DEDUCED, log 78), and zeros are in every byte that the run stored. Its row moduli are those of the first
output batch's reference input, for the data of every batch (R564; DESIGN CHOICE, log 41). -/
def VCtx.pass (x : VCtx) (c : Ctx) (g : Program) (acc : VPass) : VPass :=
  let s := acc.state
  let outs := s.vprogOuts c g
  let ref := reference ((s.inputs c ((outs.map (·.b)).headD 0)).map (·.2))
  let set := match ref with | some r => if r.outside then none else s.pset r.r.pset | none => none
  let x := { x with start := acc.start, moduli := rowModuli set g, zeros := zeroExtents (c.view 2) outs }
  let res := x.run g ({ lands := acc.lands, reads := acc.reads, stored := [], nan := false }, s)
  let outs : List BatchOut := if res.1.nan then
      outs.map (fun o => { o with newFlags := o.newFlags ||| Flag.nanSrc, flags := o.flags ||| Flag.nanSrc })
    else outs
  let s := if res.1.nan then
      res.1.stored.foldl (fun s r => s.store r.1 (List.replicate r.2 0)) res.2
    else res.2
  let s := match c.view 2 with
    | some v => if v.desc.recorded then
        outs.foldl (fun (s : State) (o : BatchOut) => s.writeRecord v o.b { o.record with flags := o.flags }) s else s
    | none => s
  { lands := res.1.lands, reads := res.1.reads, newFlags := acc.newFlags ||| orFlags (outs.map (·.newFlags)),
    start := acc.start + vEnd x.slots g + 16, state := s }

/-- The runs of a chain's stage 1: run u reads unit u in ring slot u mod 2 and starts when run u − 1 has ended (R260). -/
def VCtx.passUnits (x : VCtx) (c : Ctx) (g : Program) (ch : ChainRun) (i : Inter) (acc : VPass) : VPass :=
  let rows := acc.state.chainRows x.t ch.head 0
  (List.range i.vUnits).foldl (fun (acc : VPass) u =>
    let slot := ch.base + 4096 + 16384 * (u % 2)
    VCtx.pass { x with slots := slot :: x.slots.drop 1, pos := 262144 * u } c g
      { acc with state := acc.state.store slot (unitBytes rows i.cols u) }) acc

/-- The effect of a VPROG: one run, in FC2 and FC5 one for each unit, then its event (R71) and its timing events. -/
def State.runVprog (c : Ctx) (s0 : State) : State :=
  let g := s0.program c.job.image c.w.prog
  let start := c.mop.start.getD 0 + (if c.w.chain = 0 then 0 else c.mop.held)
  let s := s0.mapTile c.t (fun u => u.land (start + 6))
  let x : VCtx :=
    { t := c.t, seq := c.mop.seq, start := start, tile := s.tile c.t, older := (s.tile c.t).landings,
      moduli := [], round := c.job.mode.round, seed := c.job.roundSeed, free := s.freeCount,
      slots := c.slots, pos := 0, zeros := [] }
  let first : VPass := { lands := [], reads := [], newFlags := 0, start := start, state := s }
  let res : VPass := match c.chain.bind (fun ch => (ch.inters[0]?).map (fun i => (ch, i))) with
    | some (ch, i) => if ch.kind = 2 ∨ ch.kind = 5 then x.passUnits c g ch i first else x.pass c g first
    | none => x.pass c g first
  let s := { res.state with freeCount := res.state.freeCount + 1 }
  let s := if bit res.newFlags 3 then s.count .nanSrcRaised c.t 1 else s
  let s := s.mapTile c.t (fun u => { u with landings := u.landings ++ res.lands })
  let s := if res.newFlags = 0 then s
    else s.mapMop c.t c.mop.seq (fun m => { m with events := m.events ++ [c.poisonEvent c.t c.mop.seq res.newFlags 1] })
  let s := if c.job.mode.audit then s.audit c.t c.job (timingEvents c.t c.mop.seq x.older res.reads) else s
  s.markDone c

/-- Every earlier VPROG of the tile has taken its effect: the VE runs them in program order. -/
def State.vprogTurn (s : State) (c : Ctx) : Bool :=
  (s.tile c.t).window.all (fun m => m.word.family != Fam.vprog || decide (c.mop.seq ≤ m.seq) || m.done)

/-- A poisoned line of the program, on which an unpoisoned output depends (Table MS.6). -/
def State.badProgram (s : State) (c : Ctx) : Option Nat :=
  if (s.vprogOuts c (s.program c.job.image c.w.prog)).any (fun o => o.flags == 0) then
    s.badLine (s.programAt c.job.image c.w.prog)
  else none

/-- VPROG: a vector program on V0–V15 (R146). -/
def execVprog (t seq : Nat) (s : State) : Out :=
  s.withReady t seq (fun w => w.family == Fam.vprog) fun c =>
    if s.vprogTurn c then
      s.guarded c fun s =>
        match s.badProgram c with
        | some a => s.stopMop c (.memLine a)
        | none => State.runVprog c s
    else s

end Sys2Proof.Machine
end

