-- ==== Sys2Proof/Machine/Group.lean ====
section
/-!
DEFINITION. Group macro-operations (05_key_switching, 06_refresh): group entries, group runs, key headers (Table KS.6), seeded
regeneration (R164, R196) and key streams at a Bobbin (R172).
-/
namespace Sys2Proof.Machine

/-! ## Group entries (Table KS.3) -/

structure GroupEntry where
  gsLog : Nat
  sets : Nat
  bytes : List Byte
deriving DecidableEq, Repr

def GroupEntry.parse (b : List Byte) : GroupEntry := { gsLog := fld b 0 1, sets := fld b 1 1, bytes := slice b 0 256 }

/-- Listed members, set by set. -/
def GroupEntry.members (g : GroupEntry) : List Nat :=
  (List.range (min (g.sets * 2 ^ g.gsLog) 208)).map (fun i => fld g.bytes (0x10 + i) 1)

def noRepeats : List Nat → Bool
  | [] => true
  | x :: l => !l.contains x && noRepeats l

/-- The conditions of R154. -/
def GroupEntry.valid (g : GroupEntry) : Bool :=
  decide (g.gsLog ≤ 5) && decide (1 ≤ g.sets) && decide (g.sets * 2 ^ g.gsLog ≤ 208) && noRepeats g.members &&
    (List.range g.sets).all (fun k =>
      let l := (g.members.drop (k * 2 ^ g.gsLog)).take (2 ^ g.gsLog)
      l.all (fun t => dieOfTile t == dieOfTile (l.headD 0)) ) &&
    (List.range (208 - g.members.length)).all (fun i => fld g.bytes (0x10 + g.members.length + i) 1 == 0xFF) &&
    crcAgrees g.bytes 256

/-- Group entry `k` of a loaded image. -/
def State.groupEntry (s : State) (p : PrkInfo) (k : Nat) : GroupEntry :=
  GroupEntry.parse (s.readZeroed (p.base + (p.section 2).1 + 256 * k) 256)

/-! ## Group runs (R95) -/

/-- The run that a member's macro-operation belongs to. -/
def State.runOf (s : State) (ring t seq : Nat) : Option GroupRun :=
  s.groups.find? (fun g => g.ring == ring && g.members.any (fun m => m.tile == t && m.seq == seq))

def GroupRun.same (a b : GroupRun) : Bool := a.ring == b.ring && a.group == b.group && a.use == b.use

def State.mapRun (g : GroupRun) (f : GroupRun → GroupRun) (s : State) : State :=
  { s with groups := s.groups.map (fun x => if x.same g then f x else x) }

def State.mapMember (g : GroupRun) (t : Nat) (f : GMember → GMember) (s : State) : State :=
  s.mapRun g (fun x => { x with members := x.members.map (fun m => if m.tile == t then f m else m) })

def GroupRun.member (g : GroupRun) (t : Nat) : Option GMember := g.members.find? (fun m => m.tile == t)

/-- Members per shard set. -/
def GroupRun.g (r : GroupRun) : Nat := 2 ^ r.gsLog

/-- Shard set of a tile. -/
def GroupRun.setOf (r : GroupRun) (t : Nat) : Nat := ((r.tiles.findIdx? (· == t)).getD 0) / r.g

/-- Tiles of a shard set; the first is its set leader. -/
def GroupRun.setTiles (r : GroupRun) (k : Nat) : List Nat := (r.tiles.drop (k * r.g)).take r.g
def GroupRun.setLeader (r : GroupRun) (k : Nat) : Nat := (r.setTiles k).headD 0

/-- Every member has admitted the macro-operation. -/
def GroupRun.complete (r : GroupRun) : Bool := r.members.length == r.tiles.length

/-- Every member has received the group-start signal. -/
def GroupRun.allStarted (r : GroupRun) : Bool := r.complete && r.members.all (·.started)

/-! ## Key headers (Tables KS.5, KS.6) -/

structure KeyHeader where
  kind : Nat
  form : Nat
  keytag : Nat
  pset : Nat
  digits : Nat
  baseLog : Nat
  keytagOut : Nat
  galois : Nat
  bytes : List Byte
  seed : List Byte
deriving DecidableEq, Repr

def KeyHeader.parse (b seed : List Byte) : KeyHeader :=
  { kind := fld b 2 1, form := fld b 3 1, keytag := fld b 4 4, pset := fld b 0xC 1, digits := fld b 0xE 1,
    baseLog := fld b 0xF 1, keytagOut := fld b 0x10 4, galois := fld b 0x14 4, bytes := slice b 0 32, seed := seed }

/-- The header and seed block at an address, as memory holds them. -/
def State.keyHeader (s : State) (a : Nat) : KeyHeader := KeyHeader.parse (s.readZeroed a 32) (s.readZeroed (a + 32) 32)

/-- Checks 1 to 4 of Table KS.8. -/
def KeyHeader.sound (h : KeyHeader) : Bool :=
  fld h.bytes 0 2 == 0xC7F3 && crcAgrees h.bytes 32 && pairAgrees 32 (fld h.bytes 4 4) (fld h.bytes 8 4) &&
    pairAgrees 8 (fld h.bytes 0xC 1) (fld h.bytes 0xD 1) && fld h.bytes 0x18 4 == crc32c h.seed

/-- FORM as KEYFEED asks for it (check 6). -/
def keyfeedForm (k : Keyfeed) : Nat := match k with | .stored => 0 | .seeded => 1

/-! ## Seeded regeneration (R164, R165, R196) -/

/-- The words of one regenerated row or mask: `tail` are bytes 52 to 59 of the input. -/
def regenerate (seed domainSep : List Byte) (keytag : Nat) (tail : List Byte) (q n : Nat) : List Nat :=
  let out := shake256 (slice seed 0 32 ++ slice domainSep 0 16 ++ leBytes 4 keytag ++ slice tail 0 8) (8 * n)
  (List.range n).map (fun k => fld out (8 * k) 8 % q)

/-! ## Key streams (R169, R172) -/

/-- Stack whose controller holds a line of HBM. -/
def stackOf (a : Nat) : Option Nat := match home a with | .hbm k _ => some k | _ => none

/-- The stacks that hold a line of [lo, lo + n), found at every place where the interleave of R312 may change (R341). -/
def imageStacks (lo n : Nat) : List Nat :=
  let at0 := (List.range (ceilDiv n 65536)).map (fun i => lo + 65536 * i)
  (List.range 12).filter (fun k => ((lo + n - 1) :: at0).any (fun a => stackOf a == some k))

/-- A stream joins a Bobbin: one of four places, or the end of the waiting list (DESIGN CHOICE, log 71). -/
def State.beginStream (k : Nat) (x : KeyStream) (s : State) : State :=
  if (s.stack k).bobbinActive.length < 4 && emptyList (s.stack k).bobbinWaiting then
    (s.mapStack k (fun u => { u with bobbinActive := u.bobbinActive ++ [x] })).count .bobbinStreams k 1
  else s.mapStack k (fun u => { u with bobbinWaiting := u.bobbinWaiting ++ [x] })

/-- A stream ends or is dropped (DESIGN CHOICE, log 71). -/
def State.endStream (x : KeyStream) (s : State) : State :=
  (List.range 12).foldl (fun s k => s.mapStack k (fun u =>
    { u with bobbinActive := u.bobbinActive.filter (· != x), bobbinWaiting := u.bobbinWaiting.filter (· != x) })) s

def GroupRun.stream (g : GroupRun) : KeyStream := { ring := g.ring, group := g.group, use := g.use }

/-- The run's stream has a place at every Bobbin that serves it (R172, R341; DESIGN CHOICE, log 71). -/
def State.streaming (s : State) (g : GroupRun) : Bool :=
  s.hbm.any (fun k => k.bobbinActive.contains g.stream) && !s.hbm.any (fun k => k.bobbinWaiting.contains g.stream)

/-- BOBBIN_STREAM_START: a stream that waited takes a free place (R172). -/
def execBobbinStreamStart (k : Nat) (s : State) : Out :=
  match (s.stack k).bobbinWaiting with
  | x :: rest =>
    if (s.stack k).bobbinActive.length < 4 then
      .next ((s.mapStack k (fun u =>
        { u with bobbinActive := u.bobbinActive ++ [x], bobbinWaiting := rest })).count .bobbinStreams k 1)
    else .next s
  | [] => .next s

/-! ### Lines read once -/

/-- Lines of a list of ranges, each once. -/
def rangeLines (l : List (Nat × Nat)) : List Nat := (l.flatMap (fun r => linesOf r.1 r.2)).eraseDups

/-- The lines of a list of ranges that the stream has not read in this pass. -/
def GroupRun.unread (g : GroupRun) (pass : Nat) (l : List (Nat × Nat)) : List Nat :=
  (rangeLines l).filter (fun a => !g.lines.any (fun x => x.pass == pass && x.addr == a))

/-- One line read from HBM and sent on to `dests`, the members that hold a word of it: BOBBIN_KEY_BYTES_READ of its
stack, a delivery for each member, and the tokens of the line and of each bridge its multicast crosses, with a check value
under CHECK = FULL (R169, R468, Tables DV.6, PW.5). -/
def State.readKeyLine (g : GroupRun) (full : Bool) (pass a : Nat) (dests dies : List Nat) (s : State) : State :=
  let k := (stackOf a).getD 0
  let s := (s.count .bobbinKeyBytesRead k 64).count .multicastDeliveries 0 dests.length
  let s := s.askService (82 + 20 * (multicastBridges (k / 3) dies).length + (if full then 2 else 0))
  s.mapRun g (fun x => { x with lines := x.lines ++ [{ pass := pass, addr := a, bytes := s.readRaw a 64 }] })

/-- Every line of a list read; `holders` are the members that hold a word of a line. -/
def State.readKeyLines (g : GroupRun) (full : Bool) (pass : Nat) (holders : Nat → List Nat) (l : List Nat) (s : State) :
    State :=
  l.foldl (fun s a => s.readKeyLine g full pass a (holders a) ((holders a).map dieOfTile)) s

/-- The header and seed blocks at some addresses, read once and sent to the dies of the members (R167, R170). -/
def State.readHeaders (g : GroupRun) (full : Bool) (bases : List Nat) (s : State) : State :=
  (g.unread 0 (bases.map (fun a => (a, 0x40)))).foldl
    (fun s a => s.readKeyLine g full 0 a [] (g.tiles.map dieOfTile)) s

/-- Bytes of a key image as the stream read them; what it has not read is as memory holds it. -/
def State.keyBytes (s : State) (lines : List KeyLine) (pass a n : Nat) : List Byte :=
  (List.range n).map (fun i =>
    match lines.find? (fun x => x.pass == pass && x.addr == (a + i) / 64 * 64) with
    | some x => x.bytes.getD ((a + i) % 64) 0
    | none => s.readByte (a + i))

/-- The header and seed block that a run's stream has read. -/
def State.streamHeader (s : State) (g : GroupRun) (a : Nat) : KeyHeader :=
  KeyHeader.parse (s.keyBytes g.lines 0 a 32) (s.keyBytes g.lines 0 (a + 32) 32)

/-- A started, unfinished macro-operation whose key is streamed. The PBS of FC6 reads its headers and first objects from its
group start on, while its stage waits for the KSW (R265). Key streams wait while the service pool is spent (R468). -/
def State.withStream (s : State) (t seq : Nat) (kind : MopWord → Bool) (f : Ctx → State) : Out :=
  match s.ctx t seq with
  | some c =>
    if s.tileRuns t && s.poolOpen && (c.mop.start.isSome || c.w.chain == 6) && !c.mop.done && c.mop.stop.isNone && !s.poisonWaits c &&
        kind c.w then .next (f c)
    else .next s
  | none => .next s

/-- A macro-operation with held cycles added to its latency; `early` ones come before the first unit of its intermediate is
complete and delay that too (R250). -/
def Mop.delayed (m : Mop) (cycles : Nat) (early : Bool) : Mop :=
  { m with held := m.held + cycles, unitAfter := if early then m.unitAfter.map (· + cycles) else m.unitAfter }

/-- Held cycles added to a macro-operation's latency, and its hold released (R175, R181, R207). -/
def State.release (t seq cycles : Nat) (early : Bool) (s : State) : State :=
  s.mapMop t seq (fun m => { m.delayed cycles early with hold := .none })

/-- A run whose every member has taken its effect is over. -/
def State.closeRun (g : GroupRun) (s : State) : State :=
  { s.endStream g.stream with groups := s.groups.filter (fun x => !x.same g) }

/-- The first line of a list that is poisoned. -/
def State.poisonedLine (s : State) (l : List Nat) : Option Nat := l.find? s.linePoison.contains

/-- Lines of [a, a + n) that are poisoned. -/
def State.firstPoisoned (s : State) (l : List (Nat × Nat)) : Option Nat := s.poisonedLine (rangeLines l)

/-- Zeros over a member's whole workspace. -/
def State.zeroRange (lo hi : Nat) (s : State) : State := s.store lo (List.replicate (hi - lo) 0)

/-! ### Key data of one member, in the order of its arrival (R171) -/

/-- A stretch of key words: its place in the stream, counted in words, its bytes, the address of stored words, and for
regenerated ones the end of their SHAKE256 input with the modulus. -/
structure KeyPiece where
  pos : Nat
  size : Nat
  stored : Option Nat
  tail : List Byte
  q : Nat

/-- Bytes [skip, skip + n) of a list of pieces, piece by piece: the piece, the first byte of it and how many. -/
def slicePieces : List KeyPiece → Nat → Nat → List (KeyPiece × Nat × Nat)
  | [], _, _ => []
  | p :: l, skip, n =>
    if p.size ≤ skip then slicePieces l (skip - p.size) n
    else if n = 0 then []
    else
      let k := min n (p.size - skip)
      (p, skip, k) :: slicePieces l 0 (n - k)

def piecesSize (l : List KeyPiece) : Nat := total (l.map (·.size))

/-- Bytes of a list of pieces that lie before word `w` of the stream. -/
def piecesBefore (l : List KeyPiece) (w : Nat) : Nat := total (l.map (fun p => min p.size (4 * (w - p.pos))))

/-- The word of the stream at byte `got` of a list of pieces. -/
def pieceWord (l : List KeyPiece) (got : Nat) : Nat :=
  match slicePieces l got 1 with
  | (p, k, _) :: _ => p.pos + k / 4
  | [] => 0

/-- The stored ranges of a list of pieces. -/
def storedRanges (l : List (KeyPiece × Nat × Nat)) : List (Nat × Nat) :=
  l.filterMap (fun x => x.1.stored.map (fun a => (a + x.2.1, x.2.2)))

end Sys2Proof.Machine
end

