-- ==== Sys2Proof/Machine/MemCtl.lean ====
section
/-!
DEFINITION. The memory controllers (10_memory): reads with their errors (Table MS.5), writes, poison requests, the
residency limit of the write-combining buffer, patrol scrub; and CXL.mem accesses through the HDM window (12).
-/
namespace Sys2Proof.Machine

/-- Source kind and instance of the controller of a line (Table EB.3). -/
def controllerOf (a : Nat) : Nat × Nat :=
  match home a with
  | .hbm k _ => (2, k)
  | .near d _ => (3, d)
  | _ => (0, 0)

/-- The errors that the reads of one line meet (Table MS.5): a single-bit error is corrected; an uncorrectable word is
read again, up to two more times; three uncorrectable reads poison the line. -/
def State.lineRead (line : Nat) (e : ReadError) (s : State) : State :=
  if s.linePoison.contains line then s
  else match e with
    | .clean => s
    | .single => (s.count .memEccCorrected 0 1).raise [Err.plain .corrected 0 0 0 0 0]
    | .uncorrectable n =>
      if n = 0 then s
      else if n < 3 then
        let c := controllerOf line
        (s.count .memRereadClean 0 1).raise [Err.plain .contained 0x20 c.1 c.2 line (n + 1)]
      else s.markPoison line

/-- The errors that a read of a scratchpad word meets (R87, R88): a single-bit error is corrected, an uncorrectable word
stays in the bank; it is read once. -/
def State.wordRead (t off : Nat) (e : ReadError) (s : State) : State :=
  match e with
  | .clean => s
  | .single => (s.count .eccCorrected t 1).raise [Err.plain .corrected 0 0 0 0 0]
  | .uncorrectable n =>
    if n = 0 then s else s.mapTile t (fun u => { u with eccDouble := insertNat (off / 4 * 4) u.eccDouble })

/-- MEM_READ_REQUEST: the line with resident entries laid over it (R322); zeros and poison for a poisoned line
(Table MS.6), and for a scratchpad line that an uncorrectable word or a mark makes unreadable (R89, R103). An unpowered
module answers nothing (R19; DESIGN CHOICE, log 29). -/
def execMemReadRequest (addr : Nat) (error : ReadError) (s : State) : Out :=
  if !s.pins.allGood then .next s else
  match home addr with
  | .unmapped => .fault (.unmapped addr)
  | .hbm _ _ =>
    let s := s.lineRead (lineOf addr) error
    .next { s with resp := .data (s.readZeroed (lineOf addr) 64) (s.poisoned addr) }
  | .near _ _ =>
    let s := s.lineRead (lineOf addr) error
    .next { s with resp := .data (s.readZeroed (lineOf addr) 64) (s.poisoned addr) }
  | .scratch t off =>
    let r := (s.wordRead t off error).remoteRead t (off / 64 * 64) 64
    .next { r.1 with resp := .data r.2.1 r.2.2 }
  | .host => .next { s with resp := .data (s.readZeroed (lineOf addr) 64) false }

/-- The bytes of a line that a mask names, as a range from the lowest to the highest. -/
def maskRange (mask : Nat) : Nat × Nat :=
  let on := (List.range 64).filter (bit mask)
  (on.headD 0, on.getLastD 0 + 1)

/-- MEM_WRITE_REQUEST: a full or partial line write accepted (R322, R321); as a write of any kind it marks the guarded
shards it touches (R438). -/
def execMemWriteRequest (line : Nat) (mask : DWord) (data : List Byte) (s : State) : Out :=
  if !s.pins.allGood then .next s else
  match home line with
  | .unmapped => .fault (.unmapped line)
  | _ =>
    let r := maskRange mask.toNat
    let s := s.acceptLine (lineOf line) mask.toNat (slice data 0 64)
    .next (if mask = 0 then s else s.noteWrite (lineOf line + r.1) (lineOf line + r.2))

/-- MEM_POISON_REQUEST: the oldest poison request is accepted: its lines are poisoned and their entries discarded
(R330, Table MS.3). -/
def execMemPoisonRequest (s : State) : Out :=
  if !s.pins.allGood then .next s else
  match s.poisonRequests with
  | [] => .next s
  | r :: rest => .next (r.lines.foldl (fun s l => s.poisonLine l) { s with poisonRequests := rest })

/-- WCB_RESIDENCY_TIMEOUT: the oldest entry has been resident for 4 µs and is written back (R323). `error` is what the
write-back's read of the line meets, or a word of the buffer itself (Tables MS.3, MS.4; DEDUCED, log 80). -/
def execWcbResidencyTimeout (oldest : EntryRead) (s : State) : Out :=
  let k := oldest.stack
  if !s.pins.allGood then .next s else
  match (s.stack k).wcb with
  | [] => .next s
  | e :: _ =>
    let s := s.until (e.since + 4000)
    .next ((if e.mask.toNat = fullMask then s else s.lineRead e.line oldest.error).writeBack k e)

/-- The reads of incomplete entries that are written back together at a barrier or a job's end (R323, Table MS.3): `merges` gives
what each meets, by its line. -/
def State.mergeReads (merges : List (Nat × ReadError)) (s : State) : State :=
  (List.range 12).foldl (fun s k => (s.stack k).wcb.foldl (fun s e =>
    if e.mask.toNat = fullMask then s
    else s.lineRead e.line (((merges.find? (fun m => m.1 == e.line)).map (·.2)).getD .clean)) s) s

/-- PATROL_SCRUB (R340): one scrub read by READ_CHECK at the scrub position; it waits while the service pool is spent (R468;
DESIGN CHOICE, log 29). -/
def execPatrolScrub (unit : ScrubUnit) (error : ReadError) (s : State) : Out :=
  if !s.pins.allGood || !s.poolOpen then .next s else
  match unit with
  | .stack k =>
    if (s.stack k).scrubEnable then
      let p := (s.stack k).scrubNext
      let s := (s.lineRead (stackToDevice k (64 * p)) error).askService 82
      let wraps := decide (p + 1 ≥ 2 ^ 30)
      let s := s.mapStack k (fun u => { u with scrubNext := if wraps then 0 else p + 1 })
      .next (if wraps then s.count .scrubPasses k 1 else s)
    else .next s
  | .near d =>
    let p := Tab.at s.nearScrub 0 d
    let s := (s.lineRead (0x10000000000 + 0x40000000 * d + lineOf (4 * p)) error).askService 7
    .next { s with nearScrub := Tab.put s.nearScrub d (if p + 1 ≥ 2 ^ 28 then 0 else p + 1) }

/-! ## CXL.mem through the HDM window (R388-R390) -/

/-- Whether a CXL.mem access goes on: CXL.mem is presented, the access lies in the window, and the module is powered, out of reset
and not stopped (R19, R537). It waits while the service pool is spent (R468). -/
def State.memAccess (s : State) (offset n : Nat) : Bool :=
  s.link.memPresent && !s.boot.stopped && !s.pins.mreset && s.pins.allGood && decide (offset + n ≤ 2 ^ 36) && s.poolOpen

/-- Whether a CXL.mem access is served as data: not while FATAL (R531) or during an owner change (Table SE.8). -/
def State.memServed (s : State) : Bool := !s.errs.fatal && s.trust.changing.isNone

/-- HOST_MEM_READ. -/
def execHostMemRead (offset len : Nat) (s : State) : Out :=
  if !s.memAccess offset len then .next s
  else if !s.memServed then .next { s with resp := .data (List.replicate len 0) true }
  else
    let a := s.link.hdmBase * 2 ^ 36 + offset
    let bad := (linesOf a len).filter (fun l => s.linePoison.contains l)
    let s := s.raise (bad.map (fun l => Err.plain .deferred 0x0E (controllerOf l).1 (controllerOf l).2 l 0))
    let s := s.askService (82 * (linesOf a len).length)
    .next { s with resp := .data (s.readZeroed a len) (!emptyList bad) }

/-- HOST_MEM_WRITE. -/
def execHostMemWrite (offset : Nat) (data : List Byte) (s : State) : Out :=
  if !s.memAccess offset data.length || !s.memServed then .next s
  else
    let a := s.link.hdmBase * 2 ^ 36 + offset
    .next (((s.store a data).noteWrite a (a + data.length)).askService (82 * (linesOf a data.length).length))

end Sys2Proof.Machine
end

