-- ==== Sys2Proof/Machine/KeySwitch.lean ====
section
/-!
DEFINITION. Key switching (05_key_switching): the KSW stages (R156-R159), key binding (Table KS.8), records (R177, R184) and
timing (R180, R186).
-/
namespace Sys2Proof.Machine

/-! ## Immediates (Table KS.2) -/

def MopWord.kswKind (w : MopWord) : Nat := w.immBits 1 0
def MopWord.kswStage (w : MopWord) : Nat := w.immBits 5 2
def MopWord.kswLazy (w : MopWord) : Bool := bit w.imm 6
def MopWord.kswGroup (w : MopWord) : Nat := w.immBits 14 7
def MopWord.kswGalois (w : MopWord) : Nat := w.immBits 32 15

/-- STAGE is permitted for the KIND (Table KS.2). -/
def stageOk (kind stage : Nat) : Bool :=
  if kind = 3 then [0, 2, 5].contains stage else [0, 1, 3, 4, 5, 6, 7, 8].contains stage

/-- The stages that stream the key. -/
def MopWord.kswStreams (w : MopWord) : Bool := w.kswStage == 0 || w.kswStage == 5

/-- The last stage of the split sequence, and the fused form: they apply the KSW row of Table CT.5 (R184). -/
def MopWord.kswLast (w : MopWord) : Bool := w.kswStage == 0 || w.kswStage == (if w.kswKind = 3 then 5 else 8)

/-- COMPONENTS of the input (Table KS.1); none for LWE_KS, where it is N + 1. -/
def kswComps (kind n : Nat) : Nat := if kind = 1 then 3 else if kind = 2 then 2 else n + 1

/-! ## Key words -/

/-- The key of one KSW: image address, header, set, whether it is SEEDED, and the lines its stream has read in one pass. -/
structure Key where
  base : Nat
  hdr : KeyHeader
  p : PSet
  seeded : Bool
  lines : List KeyLine
  pass : Nat

/-- A stored key word. -/
def State.keyWord (s : State) (k : Key) (a : Nat) : Nat := leNat (s.keyBytes k.lines k.pass a 4)

/-- Where digit d of an RLWE key begins (Table KS.5). -/
def digitBase (base : Nat) (p : PSet) (seeded : Bool) (d : Nat) : Nat :=
  base + 0x40 + d * ((if seeded then 4 else 8) * (p.chain + p.special) * p.n)

/-- The end of the SHAKE256 input of an a-half row (Table KS.7). -/
def rowTail (pset d i : Nat) : List Byte := leBytes 1 pset ++ leBytes 1 d ++ leBytes 1 i ++ leBytes 1 0 ++ leBytes 4 0

/-- The same for the mask of LWE_KS entry (j, i). -/
def maskTail (pset j i : Nat) : List Byte := leBytes 1 pset ++ leBytes 1 i ++ leBytes 1 0x7F ++ leBytes 1 0 ++ leBytes 4 j

/-- Words of row `i` (modulus index) of half `h` of digit `d` of an RLWE key (R161, R164). -/
def State.keyRow (s : State) (k : Key) (n d h i : Nat) : List Nat :=
  if h = 1 && k.seeded then
    regenerate k.hdr.seed k.p.domainSep k.hdr.keytag (rowTail k.hdr.pset d i) (k.p.q i) n
  else (List.range n).map (fun x =>
    s.keyWord k (digitBase k.base k.p k.seeded d + 4 * (n * ((k.p.chain + k.p.special) * h + i) + x)))

/-- Words 0 … n of entry (j, i) of an LWE_KS key: `m` is LWE_N, `l` the digit count. -/
def State.lweKeyEntry (s : State) (k : Key) (l j i : Nat) : List Nat :=
  let m := k.p.lweN
  let e := j * l + i
  if k.seeded then
    regenerate k.hdr.seed k.p.domainSep k.hdr.keytag (maskTail k.hdr.pset j i) k.p.lwe.q m ++ [s.keyWord k (k.base + 0x40 + 4 * e)]
  else (List.range (m + 1)).map (fun x => s.keyWord k (k.base + 0x40 + 4 * ((m + 1) * e + x)))

/-- A whole key image: where it begins and its bytes (Table KS.5). -/
def keyImage (base kind : Nat) (p : PSet) (seeded : Bool) : Nat × Nat :=
  (base, 0x40 + if kind = 3 then 4 * p.n * p.pbsLevels * (if seeded then 1 else p.lweN + 1)
    else ceilDiv p.chain (alphaOf p.chain p.dnum) * ((if seeded then 4 else 8) * (p.chain + p.special) * p.n))

/-- β (R156). -/
def betaOf (p : PSet) (rho : Nat) : Nat := ceilDiv rho (alphaOf p.chain p.dnum)

/-! ## Stages on rows (Table KS.4) -/

abbrev Rows := List (List Nat)

/-- Each row of a polynomial, by its modulus index. -/
def rowsMap (p : PSet) (level : Nat) (f : Nat → List Nat → List Nat) (rows : Rows) : Rows :=
  (List.zip (List.range rows.length) rows).map (fun x => f (p.rowIndex level x.1) x.2)

def kswIntt (p : PSet) (level : Nat) (rows : Rows) : Rows := rowsMap p level (fun i r => inttRow (p.q i) (p.psi i) p.logN r) rows
def kswNtt (p : PSet) (level : Nat) (keepLazy : Bool) (rows : Rows) : Rows :=
  rowsMap p level (fun i r => nttRow (p.q i) (p.psi i) p.logN keepLazy r) rows

def kswModup (p : PSet) (level d : Nat) (z : Rows) : Rows :=
  columns (level + 1 + p.special) (modupCols p d level (columns p.n z))

/-- Stage 5: v_j[r] = Σ_d ŷ_d[r] · key_(d,j)[r] mod q_r (R157). -/
def State.kswMac (s : State) (k : Key) (level : Nat) (ys : List Rows) (h : Nat) : Rows :=
  (List.range (level + 1 + k.p.special)).map fun r =>
    let i := k.p.rowIndex level r
    let keys := (List.range ys.length).map (fun d => s.keyRow k k.p.n d h i)
    (List.range k.p.n).map fun x =>
      total (List.zipWith (fun y key => (y.getD r []).getD x 0 * key.getD x 0) ys keys) % k.p.q i

/-- Stage 7: the special rows dropped with rounding (R137). -/
def kswDrop (p : PSet) (level : Nat) (v : Rows) : Rows :=
  let qs := p.chainQs level ++ p.specialQs
  columns (level + 1) ((columns p.n v).map (dropAt (level + 1) qs))

/-- Stage 8: u + c, an exact modular sum (R158). -/
def kswAdd (p : PSet) (level : Nat) (u c : Rows) : Rows :=
  (List.zip (List.range u.length) (List.zip u c)).map (fun x =>
    List.zipWith (fun a b => (a + b) % p.q (p.rowIndex level x.1)) x.2.1 x.2.2)

/-- The switched pair from x, fused (stages 1 to 8 up to u). -/
def State.kswPair (s : State) (k : Key) (level : Nat) (x : Rows) : Rows × Rows :=
  let z := kswIntt k.p level x
  let ys := (List.range (betaOf k.p (level + 1))).map (fun d => kswNtt k.p level true (kswModup k.p level d z))
  let fin (h : Nat) : Rows := kswNtt k.p level false (kswDrop k.p level (kswIntt k.p level (s.kswMac k level ys h)))
  (fin 0, fin 1)

/-- The output components of Table KS.1 from u and the input's components. -/
def kswOut (p : PSet) (level kind : Nat) (u0 u1 : Rows) (input : Nat → Rows) : List Rows :=
  if kind = 1 then [kswAdd p level u0 (input 0), kswAdd p level u1 (input 1)] else [kswAdd p level u0 (input 0), u1]

/-! ## LWE_KS (R159) -/

/-- Digits of a mask word and the body in the LWE modulus. -/
def lweDigits (q0 b l a : Nat) : List Nat :=
  let m := b * l
  let v := (a % q0 * 2 ^ m + q0 / 2) / q0 % 2 ^ m
  (List.range l).map (fun i => v / 2 ^ (b * (l - 1 - i)) % 2 ^ b)

def lweBody (q0 ql b : Nat) : Nat := (b % q0 * ql + q0 / 2) / q0 % ql

/-- The inner product: `digits` per mask word, `key` gives entry (j, i). -/
def lweAcc (ql n : Nat) (body : Nat) (digits : List (List Nat)) (key : Nat → Nat → List Nat) : List Nat :=
  let sums : List Nat := (List.zip (List.range digits.length) digits).foldl (fun acc p =>
    (List.zip (List.range p.2.length) p.2).foldl (fun acc e =>
      List.zipWith (fun a w => a + e.2 * w) acc (key p.1 e.1)) acc) (List.replicate (n + 1) 0)
  (List.zip (List.range (n + 1)) sums).map (fun x =>
    ((((if x.1 = n then body else 0 : Nat) : Int) - x.2) % (ql : Int)).toNat)

/-- A whole LWE key switch of mask words `a` and body `b` from dimension a.length. -/
def State.lweSwitch (s : State) (k : Key) (base : Nat) (a : List Nat) (b : Nat) : List Nat :=
  let l := k.p.pbsLevels
  lweAcc k.p.lwe.q k.p.lweN (lweBody (k.p.q 0) k.p.lwe.q b) (a.map (lweDigits (k.p.q 0) base l)) (s.lweKeyEntry k l)

/-! ## Placement of split intermediates (DEDUCED, log 47): polynomial i at component i mod C, NONE index i / C -/

def placeNoneGo : List Dim → List Nat → Nat → List Nat
  | [], _, _ => []
  | d :: ds, ix, e =>
    if d.role = 0 then e % d.extent :: placeNoneGo ds ix.tail (e / d.extent)
    else ix.headD 0 :: placeNoneGo ds ix.tail e

/-- Indices of word w of row r of polynomial i of batch b (DEDUCED, log 47). -/
def Desc.placePoly (d : Desc) (w r i b : Nat) : List Nat :=
  let c := d.roleExtent Role.comp
  placeNoneGo d.dims (d.place w r (i % c) b) (i / c)

def State.readPoly (s : State) (v : View) (rows i b : Nat) : Rows :=
  (List.range rows).map (fun r => (List.range v.n).map (fun w => s.readElem v (v.desc.placePoly w r i b)))

def polyOut (v : View) (i b : Nat) (rows : Rows) : List ElemOut :=
  (List.zip (List.range rows.length) rows).flatMap fun r =>
    (List.zip (List.range r.2.length) r.2).map (fun w => (v.desc.placePoly w.1 r.1 i b, w.2))

/-! ## Data of one shard set -/

/-- Output words of one ciphertext (batch `b` of the set leader's view of the output). Stage 8 takes the original input, the
operand that the key does not need there, as operand 1 (DESIGN CHOICE, log 47). -/
def State.kswData (s : State) (w : MopWord) (src dst : View) (other : Option View) (k : Key) (bl b level : Nat) :
    List ElemOut :=
  let bi := src.batchFor dst b
  let p := k.p
  let kind := w.kswKind
  let rho := level + 1
  let comp (v : View) (c : Nat) : Rows := s.readRows v rho c (v.batchFor dst b)
  let polys (n rows : Nat) : List Rows := (List.range n).map (fun i => s.readPoly src rows i bi)
  let emit (l : List Rows) : List ElemOut :=
    (List.zip (List.range l.length) l).flatMap (fun x => polyOut dst x.1 b x.2)
  let beta := betaOf p rho
  if kind = 3 then
    let row := s.readRow src src.n 0 0 bi
    let l := p.pbsLevels
    if w.kswStage = 2 then
      polyOut dst 0 b [(row.dropLast.map (fun a => (lweDigits (p.q 0) bl l a).getD 0 0)) ++
        [lweBody (p.q 0) p.lwe.q (row.getLastD 0)]] ++
      (List.range (l - 1)).flatMap (fun i =>
        polyOut dst (i + 1) b [row.dropLast.map (fun a => (lweDigits (p.q 0) bl l a).getD (i + 1) 0)])
    else if w.kswStage = 5 then
      let ds := (List.range l).map (fun i => (s.readPoly src 1 i bi).headD [])
      let body := ((ds.headD []).getLastD 0)
      let digits := (List.range (src.n - 1)).map (fun j => ds.map (fun r => r.getD j 0))
      rowOut dst 0 0 b (lweAcc p.lwe.q p.lweN body digits (s.lweKeyEntry k l))
    else rowOut dst 0 0 b (s.lweSwitch k bl row.dropLast (row.getLastD 0))
  else
    match w.kswStage with
    | 0 =>
      let u := s.kswPair k level (comp src (if kind = 1 then 2 else 1))
      emit (kswOut p level kind u.1 u.2 (comp src))
    | 1 => emit [kswIntt p level (comp src (if kind = 1 then 2 else 1))]
    | 3 => let z := s.readPoly src rho 0 bi; emit ((List.range beta).map (fun d => kswModup p level d z))
    | 4 => emit ((polys beta (rho + p.special)).map (kswNtt p level w.kswLazy))
    | 5 => let ys := polys beta (rho + p.special); emit [s.kswMac k level ys 0, s.kswMac k level ys 1]
    | 6 => emit ((polys 2 (rho + p.special)).map (kswIntt p level))
    | 7 => emit ((polys 2 (rho + p.special)).map (kswDrop p level))
    | _ =>
      let u := (polys 2 rho).map (kswNtt p level false)
      emit (kswOut p level kind (u.getD 0 []) (u.getD 1 []) (match other with | some v => comp v | none => fun _ => []))

/-! ## Key binding (R174, Table KS.8) -/

/-- The verdict for one shard set: `keytag` is its record's KEYTAG. BASE_LOG is the header's only where every check passes
(R159). -/
def kswVerdict (h : KeyHeader) (w : MopWord) (form keytag : Nat) (p : PSet) : Verdict :=
  let alpha := alphaOf p.chain p.dnum
  let wrongDigits :=
    if w.kswKind = 3 then
      h.digits != p.pbsLevels || decide (h.baseLog * h.digits > 32) || h.baseLog == 0
    else h.digits != ceilDiv p.chain alpha || h.keytagOut != h.keytag
  let fl :=
    if !h.sound then (Flag.faulted, false)
    else if h.kind != w.kswKind || h.form != form || h.pset != w.pset || wrongDigits || h.galois != w.kswGalois then
      (Flag.keyMismatch, false)
    else if h.keytag != keytag then (Flag.keyMismatch, true)
    else (0, false)
  { flags := fl.1, keytag := h.keytag, keytagOut := h.keytagOut, baseLog := if fl.1 = 0 then h.baseLog else 1,
    perSet := fl.2 }

/-- The check of a header against the KEYTAG of the record it serves, the last of Tables KS.8 and RF.3. -/
def Verdict.against (v : Verdict) (keytag : Nat) : Verdict :=
  if v.flags = 0 ∧ v.keytag ≠ keytag then { v with flags := Flag.keyMismatch, perSet := true } else v

/-- Context of another member of the same run. -/
def State.memberCtx (s : State) (g : GroupRun) (t : Nat) : Option Ctx :=
  match g.member t with
  | some m => s.ctx t m.seq
  | none => none

/-- KEYTAG of a member's first input record. -/
def State.inputTag (s : State) (c : Ctx) : Nat := ((s.inputs c ((c.view 0).elim 0 (fun v => v.outBatches.headD 0))).head?).elim 0 (fun x => x.2.r.keytag)

/-- CHECK = FULL in the macro-operation's job. -/
def Ctx.full (c : Ctx) : Bool := c.job.mode.check == .full

/-- KEY_VERDICT: the reading Bobbin has the header and the seed block, and the verdict reaches a set leader and releases its
set's members (R175). KEY_HEADER_FAULTED and KEY_MISMATCH count each shard set's verdict (DESIGN CHOICE, log 71). -/
def execKeyVerdict (t seq : Nat) (s : State) : Out :=
  s.withStream t seq (fun w => w.family == Fam.ksw && w.kswStreams) fun c =>
    match s.runOf c.ring t seq, c.view 1, s.pset c.w.pset with
    | some g, some kv, some p =>
      if !g.allStarted || !s.streaming g || g.setLeader (g.setOf t) != t || (g.member t).any (fun m => m.verdict.isSome) then s
      else
        match s.poisonedLine (g.unread 0 [(kv.base, 0x40)]) with
        | some a => s.stopMop c (.memLine a)
        | none =>
          let v := kswVerdict (s.streamHeader g kv.base) c.w (keyfeedForm c.job.mode.keyfeed) (s.inputTag c) p
          let s := s.readHeaders g c.full [kv.base]
          let s := if bit v.flags 2 then s.count .keyHeaderFaulted 0 1 else s
          let s := if bit v.flags 1 then s.count .keyMismatch 0 1 else s
          let s := s.mapMember g t (fun m => { m with verdict := some v })
          (g.setTiles (g.setOf t)).foldl (fun s x =>
            match g.member x, s.memberCtx g x with
            | some m, some cx => if cx.mop.hold = .verdict then s.release x m.seq 0 true else s
            | _, _ => s) s
    | _, _, _ => s

/-! ## The key ring (R170, R171) -/

/-- The key words of LWE_KS entries (j, i), in the order of the image: mask and body, the mask regenerated in SEEDED form. -/
def lwePieces (k : Key) (js : List Nat) : List KeyPiece :=
  let m := k.p.lweN
  js.flatMap fun j => (List.range k.p.pbsLevels).flatMap fun i =>
    let e := j * k.p.pbsLevels + i
    if k.seeded then
      [{ pos := (m + 1) * e, size := 4 * m, stored := none, tail := maskTail k.hdr.pset j i, q := k.p.lwe.q },
        { pos := (m + 1) * e + m, size := 4, stored := some (k.base + 0x40 + 4 * e), tail := [], q := 0 }]
    else [{ pos := (m + 1) * e, size := 4 * (m + 1), stored := some (k.base + 0x40 + 4 * ((m + 1) * e)), tail := [], q := 0 }]

/-- The key words of rows `rs` of an RLWE key at LEVEL `level`, digit by digit, the b-half's rows before the a-half's
(R171; DESIGN CHOICE, log 71). -/
def rowPieces (k : Key) (level : Nat) (rs : List Nat) : List KeyPiece :=
  let p := k.p
  let rows := level + 1 + p.special
  (List.range (betaOf p (level + 1))).flatMap fun d => (List.range 2).flatMap fun h => rs.map fun r =>
    let i := p.rowIndex level r
    { pos := p.n * (rows * (2 * d + h) + r), size := 4 * p.n,
      stored := if h = 1 && k.seeded then none
        else some (digitBase k.base p k.seeded d + 4 * (p.n * ((p.chain + p.special) * h + i))),
      tail := rowTail k.hdr.pset d i, q := p.q i }

/-- The key of a macro-operation as its run's stream has read it. -/
def State.runKey (s : State) (g : GroupRun) (c : Ctx) (p : PSet) (base pass : Nat) : Key :=
  { base := base, hdr := s.streamHeader g base, p := p, seeded := c.job.mode.keyfeed == .seeded, lines := g.lines, pass := pass }

/-- What a KSW streams to a member of its set: the rows it holds, or the entries of its mask words (R155, R169). -/
def State.kswPieces (s : State) (g : GroupRun) (c : Ctx) (p : PSet) : List KeyPiece :=
  if !c.w.kswStreams then []
  else
    let k := s.runKey g c p ((c.view 1).elim 0 View.base) 0
    let j := ((g.tiles.findIdx? (· == c.t)).getD 0) % g.g
    if c.w.kswKind = 3 then
      lwePieces k ((List.range p.n).filter (fun x => decide (j * p.n / g.g ≤ x) && decide (x < (j + 1) * p.n / g.g)))
    else
      let level := (c.view 0).elim 0 View.level
      rowPieces k level ((List.range (level + 1 + p.special)).filter (fun r => r % g.g == j))

/-- The bytes of a piece: stored ones as the stream reads them, regenerated ones by the Bobbin of the die (R165). -/
def State.pieceBytes (s : State) (k : Key) (x : KeyPiece × Nat × Nat) : List Byte :=
  match x.1.stored with
  | some a => s.keyBytes k.lines k.pass (a + x.2.1) x.2.2
  | none => slice ((regenerate k.hdr.seed k.p.domainSep k.hdr.keytag x.1.tail x.1.q (x.1.size / 4)).flatMap (leBytes 4)) x.2.1 x.2.2

/-- Bytes laid into the key ring, the last 64 KiB of a member's workspace, from the place of stream byte `got` on (R171). -/
def State.fillKeyRing (c : Ctx) (got : Nat) (bs : List Byte) (s : State) : State :=
  match c.view 3 with
  | some v =>
    let lo := v.dataRange.2 - 65536
    (List.zip (List.range bs.length) bs).foldl (fun s x => s.store (lo + (got + x.1) % 65536) [x.2]) s
  | none => s

/-- Held cycles of a wave come before the first unit of the intermediate is complete: a KSW reads its whole key before its last
stage; the first unit of stage 1 of FC3 is 32 ciphertexts (R250, R262). -/
def Ctx.early (c : Ctx) (wave : Nat) : Bool :=
  c.w.family != Fam.pbs || decide (wave < ceilDiv 32 (max (c.w.immBits 24 20) 1))

/-- The words of a stream that a member may take before another member's full ring holds it back (R171). -/
def GroupRun.heldBack (g : GroupRun) (t : Nat) (mine : List KeyPiece) (theirs : Nat → List KeyPiece) : Nat :=
  g.members.foldl (fun n m =>
    if m.tile = t ∨ m.ring < 65536 then n
    else min n (piecesBefore mine (pieceWord (theirs m.tile) m.got))) (piecesSize mine)

/-- Key words reach a member's ring: its pieces of one pass, of which `at0` bytes have come. A line is read when the first
member needs it. A member that holds at a read takes the words at once (R169, R171, R181). -/
def State.ringArrival (s : State) (g : GroupRun) (c : Ctx) (k : Key) (theirs : Nat → List KeyPiece) (at0 bytes cycles : Nat)
    (ctr : Ctr) : State :=
  let early := c.early
  let mine := theirs c.t
  let m := (g.member c.t).getD { tile := c.t, seq := c.mop.seq, started := true, verdict := none, ring := 0, got := 0,
                                 objects := 0, fin := 0 }
  let draining := decide (c.mop.hold = .keyRing)
  let room := if draining then bytes else min bytes (65536 - m.ring)
  let n := min room (g.heldBack c.t mine theirs - at0)
  let parts := slicePieces mine at0 n
  let new := g.unread k.pass (storedRanges parts)
  let head := g.unread 0 [(k.base, 0x40)]
  if n = 0 then s
  else
    match s.poisonedLine (head ++ new) with
    | some a => s.stopMop c (.memLine a)
    | none =>
      let bs := parts.flatMap (s.pieceBytes k)
      let holders (a : Nat) : List Nat := g.tiles.filter (fun x =>
        (theirs x).any (fun (p : KeyPiece) => p.stored.any (fun b => decide (b < a + 64) && decide (a < b + p.size))))
      let s := (s.readHeaders g c.full [k.base]).readKeyLines g c.full k.pass holders new
      let s := s.fillKeyRing c m.got bs
      let s := s.mapMember g c.t (fun m => { m with got := m.got + n, ring := if draining then 0 else m.ring + n })
      if draining then
        let s := s.count ctr c.t cycles
        if at0 + n = piecesSize mine then s.release c.t c.mop.seq cycles (early k.pass)
        else s.mapMop c.t c.mop.seq (fun m => m.delayed cycles (early k.pass))
      else s

/-- Key words reach a member of a KSW (R181). -/
def State.kswRing (s : State) (t seq bytes cycles : Nat) : Out :=
  s.withStream t seq (fun w => w.family == Fam.ksw && w.kswStreams) fun c =>
    match s.runOf c.ring t seq, s.pset c.w.pset with
    | some g, some p =>
      if !g.allStarted || !s.streaming g then s
      else
        let k := s.runKey g c p ((c.view 1).elim 0 View.base) 0
        let theirs (x : Nat) : List KeyPiece := match s.memberCtx g x with | some cx => s.kswPieces g cx p | none => []
        s.ringArrival g c k theirs ((g.member t).elim 0 (·.got)) bytes cycles .kswKeyWaitCycles
    | _, _ => s

/-! ## The whole group's effect -/

/-- BASE_LOG that a split LWE_KS decomposes with at STAGE 2: the header's where every check of Table KS.8 passes, else 1
(R159, R185; DEDUCED, log 79). -/
def State.splitBase (s : State) (c : Ctx) (kb : Nat) (p : PSet) : Nat :=
  (kswVerdict (s.keyHeader kb) c.w (keyfeedForm c.job.mode.keyfeed) (s.inputTag c) p).baseLog

/-- What one shard set's ciphertexts become, seen from its leader. -/
def State.kswSet (s : State) (g : GroupRun) (set : Nat) (p : PSet) : List BatchOut :=
  match s.memberCtx g (g.setLeader set) with
  | none => []
  | some c =>
    match c.view 0, c.view 2 with
    | some src, some dst =>
      let v := ((g.member c.t).bind (·.verdict)).getD
        { flags := 0, keytag := 0, keytagOut := 0, baseLog := 1, perSet := false }
      let kb := (c.view 1).elim 0 View.base
      let key := s.runKey g c p kb 0
      let bl := if c.w.kswStreams then v.baseLog else s.splitBase c kb p
      let marks := if (g.setTiles set).any (fun t =>
          match s.memberCtx g t with | some x => !emptyList x.mop.marked | none => false) then Flag.faulted else 0
      dst.outBatches.map fun b =>
        let ins := s.inputs c b
        let fl := inputFlagsOf c ins
        let verdictFlags := if c.w.kswStreams then v.flags else 0
        match reference (ins.map (·.2)) with
        | none =>
          let new := orFlags [fl.1, marks, verdictFlags]
          { b := b, newFlags := new, flags := new ||| fl.2,
            record := noReference (if c.w.kswKind = 3 then Dom.lwe else Dom.rlwe) dst.desc, data := [] }
        | some ref =>
          let comps := if ref.outside then 0 else
            if ref.r.comps = kswComps c.w.kswKind p.n then 0 else Flag.range
          let tag := if c.w.kswStreams && v.flags == 0 then v.keytagOut else ref.r.keytag
          let last := applyRule s (ins.map (·.2)) ref
            { keepRule Fam.ksw ref with
              keytag := tag,
              comps := if c.w.kswKind = 3 then derivedComps s ref dst.desc ref.r.domain (fun p => p.lweN + 1) else 2 }
          let out := if c.w.kswLast then last
            else ({ ref.r with keytag := if c.w.kswStage = 5 then tag else ref.r.keytag }, 0)
          let new := orFlags [fl.1, marks, verdictFlags, comps, out.2]
          { b := b, newFlags := new, flags := new ||| fl.2, record := out.1,
            data := if new ||| fl.2 = 0 then s.kswData c.w src dst (c.view 1) key (max bl 1) b ref.r.level
              else [] }
    | _, _ => []
where
  /-- Flags of the checks and inherited flags of a list of inputs. -/
  inputFlagsOf (c : Ctx) (ins : List (Nat × RecIn)) : Nat × Nat :=
    (orFlags [orFlags (ins.map (fun x => x.2.newFlags)), compareRecords (ins.map (·.2)), c.plainMarks],
      orFlags (ins.map (fun x => x.2.r.flags)))

/-- The word 0 at every element of a batch of an operand. -/
def zeroAll (v : View) (b : Nat) : List ElemOut :=
  ((List.range v.desc.count).map v.desc.unlinear).filterMap (fun ix => if inBatch v.desc b ix then some (ix, 0) else none)

/-- The event of a group macro-operation (R178, R204): the leader of the first set with a new flag, the union of the new
flags, the number of sets with new flags, and, where check 10 of Table KS.8 or check 6 of Table RF.3 raised KEYMISMATCH in a
set, the header's KEYTAG and that set's record KEYTAG. -/
def groupEvent (c : Ctx) (leader seq : Nat) (union count : Nat) (tags : Option (Nat × Nat)) : Err :=
  match tags with
  | some (key, record) =>
    Err.ofJob .deferred 0x02 1 leader c.job seq (key + 2 ^ 32 * record) (union + 256 * c.w.family + 65536 * count)
  | none => Err.ofJob .deferred 0x01 1 leader c.job seq (union + 256 * c.w.family + 65536 * count) 0

/-- Header and record KEYTAG of the first set among `sets` that failed the check of its own record. -/
def State.mismatchTags (s : State) (g : GroupRun) (sets : List Nat) : Option (Nat × Nat) :=
  sets.findSome? fun k =>
    match g.member (g.setLeader k), s.memberCtx g (g.setLeader k) with
    | some m, some cl => m.verdict.bind (fun v => if (v.against (s.inputTag cl)).perSet then some (v.keytag, s.inputTag cl) else none)
    | _, _ => none

/-- One set's output written on one of its members, through the member's own view: its rows of a sharded output, and on the
leader the whole of an unsharded one (R155, R246). Every member writes the copies of the records in its own shard or scratchpad
(R282). -/
def State.commitMember (g : GroupRun) (set t : Nat) (outs : List BatchOut) (s : State) : State :=
  match (s.memberCtx g t).bind (fun c => c.view 2) with
  | some v =>
    let s := if !v.desc.tileSharded && g.setLeader set != t then s
      else outs.foldl (fun s o => s.writeOut v (if o.flags = 0 then o.data else zeroAll v o.b)) s
    if v.desc.recorded then outs.foldl (fun s o => s.writeRecord v o.b { o.record with flags := o.flags }) s else s
  | none => s

/-- The sets' outputs written by every member, the workspaces zeroed, the event kept, the run closed (DESIGN CHOICE, log 22). -/
def State.commitGroup (c : Ctx) (g : GroupRun) (outs : List (Nat × List BatchOut)) (s : State) : State :=
  let s := outs.foldl (fun s x => (g.setTiles x.1).foldl (fun s t => s.commitMember g x.1 t x.2) s) s
  let s := g.tiles.foldl (fun s t =>
    match s.memberCtx g t with
    | some cm => match cm.view 3 with
      | some w => s.zeroRange w.dataRange.1 w.dataRange.2
      | none => s
    | none => s) s
  let bad := outs.filter (fun x => x.2.any (fun o => o.newFlags != 0))
  let union := orFlags (outs.flatMap (fun x => x.2.map (·.newFlags)))
  let s := match bad with
    | [] => s
    | x :: _ =>
      let l := g.setLeader x.1
      match g.member l with
      | some m =>
        let e := groupEvent c l m.seq union bad.length (s.mismatchTags g (bad.map Prod.fst))
        s.mapMop l m.seq (fun mp => { mp with events := mp.events ++ [e] })
      | none => s
  let s := g.tiles.foldl (fun s t => match s.memberCtx g t with | some cm => s.markDone cm | none => s) s
  s.closeRun g

/-- Permutations of one Bobbin, charged to the service pool (R468, Table PW.5). -/
def State.permute (k n : Nat) (s : State) : State := (s.count .bobbinPermutations k n).askService (4 * n)

/-- Keccak permutations of a SEEDED KSW, counted at the Bobbins of R166. -/
def State.countPermutations (c : Ctx) (g : GroupRun) (p : PSet) (rho n : Nat) (s : State) : State :=
  if c.job.mode.keyfeed != .seeded then s
  else
    (List.range 4).foldl (fun s d =>
      if g.tiles.any (fun t => dieOfTile t == d) then
        if c.w.kswKind = 3 then
          (List.range 3).foldl (fun s k => s.permute (3 * d + k)
            (((List.range n).filter (fun j => j % 3 == k)).length * p.pbsLevels * ceilDiv p.lweN 17)) s
        else
          ((List.range rho) ++ (List.range p.special).map (p.chain + ·)).foldl (fun s i =>
            s.permute (3 * d + i % 3) (betaOf p rho * ceilDiv n 17)) s
      else s) s

/-- A member may go on: its set's verdict has come and stage 5 has had all its key words; otherwise what it waits for. -/
def State.kswWaits (s : State) (g : GroupRun) (p : PSet) (t : Nat) : Hold :=
  match g.member t, s.memberCtx g t with
  | some m, some c =>
    if !c.w.kswStreams then .none
    else if (g.member (g.setLeader (g.setOf t))).all (fun x => x.verdict.isNone) then .verdict
    else if m.got < piecesSize (s.kswPieces g c p) then .keyRing
    else .none
  | _, _ => .none

/-- A member that stops at a read of its ring has drained it (R171). -/
def State.holdAt (g : GroupRun) (t seq : Nat) (h : Hold) (s : State) : State :=
  let s := s.mapMop t seq (fun m => { m with hold := h })
  if h = .keyRing then s.mapMember g t (fun m => { m with ring := 0 }) else s

/-- The poisoned header that STAGE 2 of a split LWE_KS would read (R159; DEDUCED, log 79). -/
def State.kswBadHeader (s : State) (c : Ctx) : Option Nat :=
  if c.w.kswKind = 3 ∧ c.w.kswStage = 2 then (c.view 1).bind (fun v => s.firstPoisoned [(v.base, 0x40)]) else none

/-- KSW on one member: it waits for its verdict and its key words; once every member of the group can go on, every
shard set's output is written (DESIGN CHOICE, log 22). -/
def State.ksw (s : State) (t seq kind : Nat) : Out :=
  s.withReady t seq (fun w => w.family == Fam.ksw && w.kswKind == kind) fun c =>
    match s.runOf c.ring t seq, s.pset c.w.pset with
    | some g, some p =>
      if !g.allStarted then s
      else if s.kswWaits g p t ≠ .none then s.holdAt g t seq (s.kswWaits g p t)
      else if g.tiles.any (fun x => s.kswWaits g p x != .none) then s.mapMop t seq (fun m => { m with hold := .none })
      else
        let outs := (List.range g.sets).map (fun k => (k, s.kswSet g k p))
        let s := s.mapMop t seq (fun m => { m with hold := .none })
        match g.tiles.findSome? (fun x => (s.memberCtx g x).bind (fun cx => (s.badWord cx).map (fun o => (cx, o)))) with
        | some (cx, o) => (s.markGranule cx.t (o / 4096)).stopMop cx (.scratchWord o)
        | none =>
          match s.kswBadHeader c with
          | some a => s.stopMop c (.memLine a)
          | none =>
            let rho := (c.view 0).elim 1 (fun v => v.level + 1)
            let s := if c.w.kswStreams then s.countPermutations c g p rho p.n else s
            s.commitGroup c g outs
    | _, _ => s

/-- KSW of kind RELIN. -/
def execKswRelin (t seq : Nat) (s : State) : Out := s.ksw t seq 1

/-- KSW of kind GALOIS. -/
def execKswGalois (t seq : Nat) (s : State) : Out := s.ksw t seq 2

/-- KSW of kind LWE_KS. -/
def execKswLweKs (t seq : Nat) (s : State) : Out := s.ksw t seq 3

/-! ## Timing (R180, R186) -/

/-- Workspace size W. -/
def kswWorkspace (kind n m rho g : Nat) (p : PSet) : Nat :=
  if kind = 3 then 4 * (ceilDiv n g + g * (m + 1)) + 65536
  else
    let up := ceilDiv (betaOf p rho * (rho + p.special)) g
    let out := ceilDiv (rho + p.special) g
    4 * n * (up + 2 * out) + 65536

/-- Latency of a KSW on a group of `g` tiles per shard set, with ρ of operand 0 (Table KS.9). -/
def kswLatency (w : MopWord) (rho g : Nat) (p : PSet) : Nat :=
  let n := p.n
  let m := p.lweN
  let l := p.pbsLevels
  let z := ceilDiv (kswWorkspace w.kswKind n m rho g p) 3072
  if w.kswKind = 3 then
    let t2 := l * ceilDiv n (128 * g)
    let t5 := ceilDiv n g * l * ceilDiv (m + 1) 128
    let x3 := ceilDiv ((g - 1) * (m + 1)) 32
    40 + z + (match w.kswStage with | 0 => t2 + t5 + x3 | 2 => t2 | _ => t5 + x3)
  else
    let k := p.special
    let beta := betaOf p rho
    let alpha := alphaOf p.chain p.dnum
    let ein := ceilDiv rho g
    let eup := ceilDiv (beta * (rho + k)) g
    let eout := ceilDiv (rho + k) g
    let y (e : Nat) : Nat := ceilDiv (e * n * (g - 1)) (32 * g)
    let lam := p.logN
    let t1 := ein * (lam * sOf n + sOf' n)
    let t3 := total ((List.range beta).map (fun d =>
      let kd := (digitRows alpha d (rho - 1)).length
      ceilDiv (n / g * kd * (1 + (rho - kd + k))) 64))
    let t4 := eup * lam * sOf n
    let t5 := 2 * beta * eout * n / 128
    let t6 := 2 * eout * (lam * sOf n + sOf' n)
    let t7 := 2 * ceilDiv (n / g * (k + rho * (k + 1))) 64
    let t8 := 2 * ein * lam * sOf n
    40 + z + (match w.kswStage with
      | 0 => t1 + y ein + t3 + y eup + t4 + t5 + t6 + y (2 * eout) + t7 + y (2 * ein) + t8
      | 1 => t1
      | 3 => y ein + t3 + y eup
      | 4 => t4
      | 5 => t5
      | 6 => t6
      | 7 => y (2 * eout) + t7 + y (2 * ein)
      | _ => t8)

/-- The cycle of a KSW, without held cycles, in which its outputs are written: what follows is the zeroing of the workspace
and the 34 cycles of the drain (R180; DEDUCED, log 36). -/
def kswWritten (w : MopWord) (rho g : Nat) (p : PSet) : Nat :=
  kswLatency w rho g p - (ceilDiv (kswWorkspace w.kswKind p.n p.lweN rho g p) 3072 + 34)

end Sys2Proof.Machine
end

