-- ==== Sys2Proof/Machine/Matrix.lean ====
section
/-!
DEFINITION. The matrix engine and ingest (07_matrix_engine): MXP in its three modes (R216-R234), VCVT (R235-R239), their
records (R226, R230) and timing.
-/
namespace Sys2Proof.Machine

/-! ## Immediates (Tables MX.1 and OP.4) -/

def MopWord.wbits (w : MopWord) : Nat := 2 ^ w.immBits 3 2
def MopWord.xform (w : MopWord) : Nat := w.immBits 5 4
def MopWord.groupSize (w : MopWord) : Nat := 2 ^ (w.immBits 8 6 + 5)
def MopWord.clip (w : MopWord) : Bool := bit w.imm 9
def MopWord.outFmt (w : MopWord) : Nat := w.immBits 12 10
def MopWord.outFrac (w : MopWord) : Int := signed 7 (w.immBits 19 13)
def MopWord.xBits (w : MopWord) : Nat := w.immBits 24 20
def MopWord.mxRows (w : MopWord) : Nat := w.immBits 31 25

/-- A WBITS and XFORM pair of Table MX.2. -/
def mxPairOk (b xform : Nat) : Bool :=
  (xform == 0 && b == 1) || (xform == 1 && (b == 2 || b == 4)) || (xform == 2 && (b == 2 || b == 4 || b == 8))

/-- Bytes of a group record (Table MX.2). -/
def mxRecordSize (b xform : Nat) : Nat := if xform = 0 then 0 else if xform = 1 then 2 * 2 ^ b else 8

/-- EB (Table MX.2). -/
def mxEb (xform : Nat) : Nat := [0, 15, 8].getD xform 8

/-- Bytes of an epilogue entry (Table MX.3). -/
def mxEntry (mmode : Nat) : Nat := [8, 16, 0].getD mmode 0

/-! ## Weights (R221-R223) -/

/-- Code m of row k (R221). -/
def State.weightCode (s : State) (w : View) (b k m : Nat) : Nat :=
  let a := w.addr (w.desc.matAt k 0)
  let i := b * m
  bits (s.readByte (a + i / 8)).toNat (i % 8 + b - 1) (i % 8)

/-- The expanded weight as a signed integer times its group scale taken apart: (ê for CLEAR, S). With AFFINE outside CLEAR
the value is (c − Z)·S; otherwise S is 1. -/
def State.weight (s : State) (c : Ctx) (w side : View) (k m cols rows : Nat) : Int × Nat :=
  let b := c.w.wbits
  let g := k * ceilDiv cols c.w.groupSize + m / c.w.groupSize
  let a := side.base + ceilDiv (rows * mxEntry c.w.mmode) 64 * 64 + mxRecordSize b c.w.xform * g
  let code := s.weightCode w b k m
  if c.w.xform = 0 then (2 * (code : Int) - 1, 1)
  else if c.w.xform = 1 then (signed 16 (leNat (s.readRaw (a + 2 * code) 2)), 1)
  else ((code : Int) - (s.readByte (a + 4)).toNat, s.readWord a)

/-- ê modulo q, MODULAR and EXPAND. -/
def modWeight (q : Nat) (e : Int × Nat) : Nat := (e.1 * (e.2 : Int) % (q : Int)).toNat

/-! ## Data -/

/-- The columns and rows of W: K rows of M codes. -/
def mxModularData (c : Ctx) (x w side : View) (s : State) (dst : View) (p : PSet) : List ElemOut :=
  let q := p.lwe.q
  let m := x.desc.matRows
  let rows := dst.desc.matRows
  let cols := dst.desc.matCols
  dst.matRowsIn.flatMap fun k =>
    let e := (List.range m).map (fun i => modWeight q (s.weight c w side k i m rows))
    let kappa := s.readWord (side.base + 8 * k)
    let beta := s.readWord (side.base + 8 * k + 4)
    (List.range cols).map fun j =>
      let sum := total (List.zipWith (fun e i => e * s.readElem x (x.desc.matAt i j)) e (List.range m))
      (dst.desc.matAt k j, (kappa * sum + (if j + 1 = cols then beta else 0)) % q)

/-- The CLEAR accumulator (R227). -/
def mxAccum (c : Ctx) (x w side : View) (s : State) (k j m rows : Nat) : Int :=
  ((List.range m).map (fun i =>
    (s.weight c w side k i m rows).1 * signed (c.w.xBits + 1) (s.readElem x (x.desc.matAt i j)))).foldl (· + ·) 0

/-- One CLEAR output word and whether a NaN reached an INT32 output (R228, R229). -/
def mxClearWord (c : Ctx) (side : View) (s : State) (a : Int) (k pos : Nat) : Nat × Bool :=
  let e := side.base + 16 * k
  let r := fmaVal (intVal a) (f32 (s.readWord e)) (f32 (s.readWord (e + 4)))
  let r := if c.w.clip then minVal (maxVal r (f32 (s.readWord (e + 8)))) (f32 (s.readWord (e + 12))) else r
  match c.w.outFmt with
  | 0 =>
    match toFixed c.job.mode.round r c.w.outFrac (draw c.job.roundSeed c.t c.mop.seq pos) with
    | some v => (v, false)
    | none => (0, true)
  | 1 => (toF32 r, false)
  | 2 => (encodeIeee 5 10 0x7E00 r, false)
  | _ => (encodeIeee 8 7 0x7FC0 r, false)

/-- CLEAR output: the words, each with whether a NaN reached it. -/
def mxClearData (c : Ctx) (x w side : View) (s : State) (dst : View) : List (List Nat × Nat × Bool) :=
  let m := x.desc.matRows
  let rows := dst.desc.matRows
  let cols := dst.desc.matCols
  dst.matRowsIn.flatMap fun k => (List.range cols).map fun j =>
    (dst.desc.matAt k j, mxClearWord c side s (mxAccum c x w side s k j m rows) k (k * cols + j))

/-- EXPAND output (R231). -/
def mxExpandData (c : Ctx) (w side : View) (s : State) (dst : View) (p : PSet) : List ElemOut :=
  let n := p.n
  let e := (List.range n).map (fun i => s.weight c w side 0 i n 1)
  ((List.range c.w.mxRows).filter (dst.holdsRole Role.row)).flatMap fun r =>
    let level := min c.w.mxRows p.chain - 1
    rowOut dst r 0 0 (e.map (modWeight (p.q (p.rowIndex level r))))

/-! ## Records -/

/-- The batches of an input whose records are inputs of output batch `b`, where each input batch gives `per` output batches: the
same batch's (R69, R561). Where the views' batches do not pair so, each output is made of all of them (DEDUCED, log 46). -/
def recordBatches (src dst : View) (per b : Nat) : List Nat :=
  if !src.desc.hasRole Role.batch then [0]
  else if dst.desc.hasRole Role.batch && src.batchIn.length * per == dst.batchIn.length then
    [src.batchIn.getD (dst.batchIn.findIdx (· == b) / max per 1) b]
  else src.batchIn

/-- The input records of output batch `b` of an MXP or PBS. -/
def State.matInputs (s : State) (c : Ctx) (per b : Nat) : List (Nat × RecIn) :=
  c.operands.foldl (fun acc p =>
    match c.w.positions.getD p.1 .absent with
    | .typed _ => if p.2.desc.recorded then
        acc ++ ((c.view 2).elim [0] (fun d => recordBatches p.2 d per b)).map (fun k =>
          (p.1, s.inputAt c ((acc.find? (fun x => x.1 == 0)).map (·.2)) k p.1 p.2))
        else acc
    | _ => acc) []

/-- Flags raised by the checks of a list of inputs, and those inherited. -/
def inputFlags (c : Ctx) (ins : List (Nat × RecIn)) : Nat × Nat :=
  (orFlags [orFlags (ins.map (fun x => x.2.newFlags)), compareRecords (ins.map (·.2)), c.plainMarks],
    orFlags (ins.map (fun x => x.2.r.flags)))

/-- A MODULAR product's extra check: COMPONENTS of X is LWE_N + 1, also where the shape agrees (Table MX.8). -/
def mxLweCheck (s : State) (ins : List (Nat × RecIn)) : Nat :=
  if ins.any (fun x => x.1 == 0 && x.2.sound && !x.2.outside && (match s.pset x.2.r.pset with
      | some p => x.2.r.domain == Dom.lwe && x.2.r.comps != p.lweN + 1
      | none => false)) then Flag.range else 0

/-- SCALE sum over the first record of each operand; one that failed checks 1 to 4 adds nothing (DESIGN CHOICE, log 77). -/
def firstScales (ins : List (Nat × RecIn)) (ks : List Nat) : Int :=
  (ks.map (fun k => match ins.find? (fun x => x.1 == k && x.2.sound) with | some x => x.2.r.scaleInt | none => 0)).foldl (· + ·) 0

/-- Accumulation cycles of a MODULAR or CLEAR product: T·τ (R232). -/
def mxCycles (b k m cols : Nat) : Nat :=
  ceilDiv k 32 * ceilDiv cols 32 * max ((if b ≤ 2 then 1 else if b = 4 then 2 else 4) * m) 32

def mxCount (c : Ctx) (v : View) (m : Nat) (s : State) : State :=
  (s.count .mxpCount c.t 1).count .mxpAccumCycles c.t
    (if c.w.mmode = 2 then 0 else mxCycles c.w.wbits v.matRowsIn.length m v.desc.matCols)

/-! ## FC3 stage 2 (R263) -/

/-- Offsets in the hold space of FC3 (Table FC.3) behind the record area: the ring of stage-1 units, the partial sums,
the unnormalised outputs, r, the sums and differences, their refreshes. -/
def ChainRun.fc3Ring (ch : ChainRun) : Nat :=
  4096 + ((ch.inters[0]?).elim 0 (fun i => 4 * i.cols * i.rows))

/-- MV·32 rows of C words: bytes of one unit of stage 1's output. -/
def ChainRun.fc3Unit (ch : ChainRun) : Nat :=
  match ch.inters[0]?, ch.inters[1]? with
  | some a, some b => 4 * b.cols * (32 * (b.rows / max a.rows 1))
  | _, _ => 0

def ChainRun.fc3Partial (ch : ChainRun) : Nat := ch.fc3Ring + 2 * ch.fc3Unit

/-- Rows of words stored one after another. -/
def State.storeRows (a : Nat) (rows : List (List Nat)) (s : State) : State :=
  s.store a (rows.flatMap (fun r => r.flatMap (leBytes 4)))

/-- The ring slots as the last two units leave them. -/
def State.fillRing (ch : ChainRun) (t : Nat) (s : State) : State :=
  let rows := s.chainRows t ch.head 1
  let per := ch.fc3Unit / max (4 * ((ch.inters[1]?).elim 1 Inter.cols)) 1
  let us := rows.length / max per 1
  ((List.range us).drop (us - 2)).foldl (fun s u =>
    s.storeRows (ch.base + ch.fc3Ring + ch.fc3Unit * (u % 2)) ((rows.drop (per * u)).take per)) s

/-- Σ ê·x modulo ql without KAPPA and BETA: the partial sums after the last unit. -/
def mxPartials (c : Ctx) (x w side : View) (s : State) (v : View) (p : PSet) : List (List Nat) :=
  let q := p.lwe.q
  let m := x.desc.matRows
  let rows := v.desc.matRows
  (List.range rows).map fun k =>
    let e := (List.range m).map (fun i => modWeight q (s.weight c w side k i m rows))
    (List.range v.desc.matCols).map fun j =>
      total (List.zipWith (fun e i => e * s.readElem x (x.desc.matAt i j)) e (List.range m)) % q

/-- What FC3 stage 2 leaves in the hold space besides its output: the ring and the partial sums; zeros where it is
poisoned. -/
def State.fc3Stage2 (c : Ctx) (partials : List (List Nat)) (s : State) : State :=
  match c.chain with
  | some ch =>
    if ch.kind = 3 ∧ c.w.cstage = 2 then (s.fillRing ch c.t).storeRows (ch.base + ch.fc3Partial) partials else s
  | none => s

/-- A PLAIN record of VCVT, CLEAR and EXPAND (R230, R235), with RANGE for a SCALE out of range (R66). -/
def plainRec (pset level : Nat) (scale : Int) : Rec × Nat :=
  ({ Rec.zero with domain := Dom.plain, pset := pset, level := level, scale := low 16 scale, comps := 1 },
    if scale < -32768 ∨ scale > 32767 then Flag.range else 0)

/-- Output batch `b` of a MODULAR product (R224-R226). -/
def State.mxModularOut (s : State) (c : Ctx) (x w side v : View) (b : Nat) : BatchOut :=
  let ins := s.matInputs c 1 b
  let fl := inputFlags c ins
  match reference (ins.map (·.2)) with
  | none => { b := b, newFlags := fl.1, flags := fl.1 ||| fl.2, record := noReference Dom.lwe v.desc, data := [] }
  | some ref =>
    let out := applyRule s (ins.map (·.2)) ref { keepRule Fam.mxp ref with scale := firstScales ins [0, 1] }
    let new := orFlags [fl.1, out.2, mxLweCheck s ins]
    { b := b, newFlags := new, flags := new ||| fl.2, record := out.1,
      data := if new ||| fl.2 = 0 then
          (match s.pset ref.r.pset with
          | some p => (mxModularData c x w side s v p).filter (fun e => inBatch v.desc b e.1)
          | none => [])
        else [] }

/-- Output batch `b` of a CLEAR product (R227-R230). A NaN at one of its INT32 words raises NAN_SRC beside any other flag
(Tables MX.4, CT.12; DEDUCED, log 78). -/
def State.mxClearOut (s : State) (c : Ctx) (x w side v : View) (b : Nat) : BatchOut :=
  let ins := s.matInputs c 1 b
  let fl := inputFlags c ins
  let r := plainRec c.w.pset 0 (firstScales ins [0, 1])
  let data := (mxClearData c x w side s v).filter (fun e => inBatch v.desc b e.1)
  let new := orFlags [fl.1, r.2, if data.any (fun e => e.2.2) then Flag.nanSrc else 0]
  { b := b, newFlags := new, flags := new ||| fl.2, record := r.1, data := data.map (fun e => (e.1, e.2.1)) }

/-- Output batch `b` of an EXPAND (R230, R231). -/
def State.mxExpandOut (s : State) (c : Ctx) (w side v : View) (b : Nat) : BatchOut :=
  let ins := s.matInputs c 1 b
  let fl := inputFlags c ins
  let set := s.pset c.w.pset
  let r := plainRec c.w.pset (min c.w.mxRows (set.elim 0 (fun p => p.chain)) - 1) (firstScales ins [1])
  let new := fl.1 ||| r.2
  { b := b, newFlags := new, flags := new ||| fl.2, record := r.1,
    data := if new ||| fl.2 = 0 then
        (match set with
        | some p => (mxExpandData c w side s v p).filter (fun e => inBatch v.desc b e.1)
        | none => [])
      else [] }

/-- MXP MODULAR (R224-R226); in FC3 also what its stage 2 leaves in the hold space, zeros where it is poisoned. -/
def execMxpModular (t seq : Nat) (s : State) : Out :=
  s.withReady t seq (fun w => w.family == Fam.mxp && w.mmode == 0) fun c =>
    s.guarded c fun s =>
      match c.view 0, c.view 1, c.view 2, c.view 3 with
      | some x, some w, some v, some side =>
        let outs := v.outBatches.map (s.mxModularOut c x w side v)
        let set := (outs.head?).bind (fun o => if o.flags = 0 then s.pset o.record.pset else none)
        let partials := if c.w.chain = 3 ∧ c.w.cstage = 2 then
            (match set with
            | some p => mxPartials c x w side s v p
            | none => List.replicate v.desc.matRows (List.replicate v.desc.matCols 0))
          else []
        ((mxCount c v x.desc.matRows s).fc3Stage2 c partials).commitOut c v outs
      | _, _, _, _ => s.markDone c

/-- MXP CLEAR (R227-R230). -/
def execMxpClear (t seq : Nat) (s : State) : Out :=
  s.withReady t seq (fun w => w.family == Fam.mxp && w.mmode == 1) fun c =>
    s.guarded c fun s =>
      match c.view 0, c.view 1, c.view 2, c.view 3 with
      | some x, some w, some v, some side =>
        let outs := v.outBatches.map (s.mxClearOut c x w side v)
        let s := mxCount c v x.desc.matRows s
        let s := if outs.any (fun o => bit o.newFlags 3) then s.count .nanSrcRaised c.t 1 else s
        s.commitOut c v outs
      | _, _, _, _ => s.markDone c

/-- MXP EXPAND (R230, R231). -/
def execMxpExpand (t seq : Nat) (s : State) : Out :=
  s.withReady t seq (fun w => w.family == Fam.mxp && w.mmode == 2) fun c =>
    s.guarded c fun s =>
      match c.view 1, c.view 2, c.view 3 with
      | some w, some v, some side =>
        (mxCount c v 0 s).commitOut c v (v.outBatches.map (s.mxExpandOut c w side v))
      | _, _, _ => s.markDone c

/-! ## VCVT (R235-R237) -/

/-- Source element i of the tile's view: bits [s·i + s − 1 : s·i] of the bit string that begins at its first byte (R236). -/
def State.srcElem (s : State) (v : View) (fmt i : Nat) : Nat :=
  let b := srcBits fmt
  bits (leNat (s.readRaw (v.base + b * i / 8) 5)) (b * i % 8 + b - 1) (b * i % 8)

def MopWord.srcFmt (w : MopWord) : Nat := w.immBits 3 0
def MopWord.frac (w : MopWord) : Int := signed 8 (w.immBits 11 4)

/-- The conversions of a VCVT in order: the index of an output word in this tile's view, and the source element it comes
from, counted through the source's view; an unbatched source serves every batch anew (R121, R235, R561; DEDUCED, log 51). -/
def vcvtPairs (src dst : View) : List (Nat × Nat) :=
  let is := (List.range dst.desc.count).filter (fun i => dst.holds (dst.desc.unlinear i))
  if src.desc.hasRole Role.batch then List.zip is (List.range is.length)
  else dst.outBatches.flatMap (fun b =>
    let own := is.filter (fun i => inBatch dst.desc b (dst.desc.unlinear i))
    List.zip own (List.range own.length))

/-- The words of one batch, none where a source element is a NaN. The draw's position is the output word's linear index in the
whole tensor, also of a tile-sharded one (R239; DEDUCED, log 51). -/
def vcvtData (c : Ctx) (src : View) (s : State) (dst : View) (b : Nat) : List (List Nat × Option Nat) :=
  (vcvtPairs src dst).filterMap fun p =>
    let ix := dst.desc.unlinear p.1
    if inBatch dst.desc b ix then
      some (ix, toFixed c.job.mode.round (srcVal c.w.srcFmt (s.srcElem src c.w.srcFmt p.2)) c.w.frac
        (draw c.job.roundSeed c.t c.mop.seq p.1))
    else none

/-- VCVT: fixed point at scale FRAC; a NaN raises NAN_SRC beside any other flag (R237, Table CT.12; DEDUCED, log 78). -/
def execVcvt (t seq : Nat) (s : State) : Out :=
  s.withReady t seq (fun w => w.family == Fam.vcvt) fun c =>
    s.guarded c fun s =>
      match c.view 0, c.view 2 with
      | some src, some v =>
        let r := plainRec c.w.pset 0 (256 * c.w.frac)
        let outs : List BatchOut := v.outBatches.map fun b =>
          let fl := inputFlags c (s.inputs c b)
          let d := vcvtData c src s v b
          let new := if d.any (fun e => e.2.isNone) then fl.1 ||| Flag.nanSrc else fl.1
          { b := b, newFlags := new, flags := new ||| fl.2, record := r.1,
            data := d.map (fun e => (e.1, e.2.getD 0)) }
        let s := s.count .vcvtCount c.t 1
        let s := if outs.any (fun o => bit o.newFlags 3) then s.count .nanSrcRaised c.t 1 else s
        s.commitOut c v outs
      | _, _ => s.markDone c

/-! ## Timing (R232, R234, R235) -/

/-- Latency and interval of an MXP; `n` is the ring dimension, which EXPAND's ROWS rows have (R232, R234). -/
def mxTiming (w : MopWord) (n : Nat) (v0 v2 : Option View) : Nat × Nat :=
  match v2 with
  | none => (8, 1)
  | some v =>
    if w.mmode = 2 then
      let l := 24 + ceilDiv (w.mxRows * n) 128
      (l, l)
    else
      let m := match v0 with | some x => x.desc.matRows | none => 0
      let l := 57 + mxCycles w.wbits v.matRowsIn.length m v.desc.matCols
      (l, l - 41)

/-- Byte extent of a VCVT source element. -/
def View.srcBytes (v : View) (fmt i : Nat) : Nat × Nat := (v.base + srcBits fmt * i / 8, max 1 (srcBits fmt / 8))

/-- Latency and interval of a VCVT: passes of 768 words of one component of one batch (R142, R562), depth 6. -/
def vcvtTiming (w : MopWord) (src dst : View) : Nat × Nat :=
  let all := vcvtPairs src dst
  let parts := dst.outBatches.flatMap (fun b => (dst.roleIn Role.comp).map (fun k => all.filter (fun p =>
    let ix := dst.desc.unlinear p.1
    inBatch dst.desc b ix && dst.desc.roleIndex Role.comp ix == k)))
  let l := 1 + total ((parts.flatMap passesOf).map (fun q =>
    32 * (groupCount (q.map (fun p => src.srcBytes w.srcFmt p.2)) +
      groupCount (q.map (fun p => (dst.addr (dst.desc.unlinear p.1), 4)))) + 6))
  (l, l - 1)

end Sys2Proof.Machine
end

