-- ==== Sys2Proof/Machine/Refresh.lean ====
section
/-!
DEFINITION. Refresh and table look-up (06_refresh): PBS (R188-R209) and PACK (R210-R212).
-/
namespace Sys2Proof.Machine

/-! ## Immediates (Tables RF.1 and RF.5) and table blocks (Table RF.2) -/

def MopWord.pbsGroup (w : MopWord) : Nat := w.immBits 7 0
def MopWord.pbsTable (w : MopWord) : Nat := w.immBits 15 8
def MopWord.ringLog (w : MopWord) : Nat := w.immBits 19 16
def MopWord.wave (w : MopWord) : Nat := w.immBits 24 20
def MopWord.packSrc (w : MopWord) : Nat := w.immBits 0 0
def MopWord.packRaise (w : MopWord) : Nat := w.immBits 7 1
def MopWord.packCoef (w : MopWord) : Nat := w.immBits 24 8

structure TableBlock where
  bytes : List Byte
deriving DecidableEq, Repr

def TableBlock.p (b : TableBlock) : Nat := fld b.bytes 2 1
def TableBlock.mv (b : TableBlock) : Nat := fld b.bytes 3 1
def TableBlock.outScale (b : TableBlock) : Int := signed 16 (fld b.bytes 4 2)
/-- T[j][e]. -/
def TableBlock.entry (b : TableBlock) (j e : Nat) : Nat := fld b.bytes (8 + 4 * (j * 2 ^ b.p + e)) 4
/-- The first two checks of R194. -/
def TableBlock.valid (b : TableBlock) : Bool :=
  fld b.bytes 0 2 == 0xC7F4 && crcAgrees b.bytes 4112 && decide (1 ≤ b.p) && decide (b.p ≤ 8) && [1, 2, 4].contains b.mv

/-- Where table block `k` of a loaded image lies: address and length. -/
def PrkInfo.tableAt (p : PrkInfo) (k : Nat) : Nat × Nat := (p.base + (p.section 3).1 + 4112 * k, 4112)

/-- Table block `k` of a loaded image. -/
def State.tableBlock (s : State) (p : PrkInfo) (k : Nat) : TableBlock :=
  { bytes := s.readZeroed (p.tableAt k).1 (p.tableAt k).2 }

/-! ## The computation (R192) -/

/-- ms: into the rotation range. -/
def pbsMs (ql nr x : Nat) : Nat := (x % ql * 2 * nr + ql / 2) / ql % (2 * nr)

/-- X^e · x. -/
def pbsRot (q nr e : Nat) (x : List Nat) : List Nat :=
  (List.range nr).foldl (fun t k =>
    let f := (k + e) % (2 * nr)
    if f < nr then t.set f (red q (x.getD k 0)) else t.set (f - nr) (negSel q (x.getD k 0))) (List.replicate nr 0)

/-- digit g of a word, most significant first. -/
def pbsDigit (q0 bl lv x g : Nat) : Nat := (lweDigits q0 bl lv x).getD g 0

/-- The test polynomial. -/
def pbsTest (q0 nr : Nat) (b : TableBlock) : List Nat :=
  let n := b.mv * 2 ^ b.p
  let wd := nr / n
  (List.range nr).map fun k =>
    let s := (k + wd / 2) / wd
    if s < n then b.entry (s % b.mv) (s / b.mv) % q0 else negSel q0 (b.entry 0 0 % q0)

/-- Bytes of a refresh object (R195). -/
def objectSize (p : PSet) (nr : Nat) (seeded : Bool) : Nat := (if seeded then 8 else 16) * p.pbsLevels * nr

/-- Refresh key words of row r, column c of object i. -/
def State.refreshKeyRow (s : State) (k : Key) (nr i r c : Nat) : List Nat :=
  let obj := k.base + 0x40 + i * objectSize k.p nr k.seeded
  if c = 1 && k.seeded then
    regenerate k.hdr.seed k.p.domainSep k.hdr.keytag (leBytes 1 k.hdr.pset ++ leBytes 1 r ++ leBytes 1 0 ++ leBytes 1 4 ++
      leBytes 4 i) (k.p.q 0) nr
  else (List.range nr).map (fun x => s.keyWord k (obj + 4 * (nr * ((if k.seeded then 1 else 2) * r + c) + x)))

/-- One step of the blind rotation on the pair of accumulator polynomials. -/
def pbsStep (q0 psi rl bl lv e : Nat) (key : Nat → Nat → List Nat) (acc : List Nat × List Nat) : List Nat × List Nat :=
  let nr := 2 ^ rl
  let diff (x : List Nat) : List Nat := List.zipWith (fun t a => subSel q0 t a) (pbsRot q0 nr e x) x
  let dg (x : List Nat) : List (List Nat) := (List.range lv).map (fun g => (diff x).map (fun v => pbsDigit q0 bl lv v g))
  let tr := (dg acc.1 ++ dg acc.2).map (nttRow q0 psi rl false)
  let col (c : Nat) (a : List Nat) : List Nat :=
    let y := (List.range nr).map (fun k =>
      total ((List.zip (List.range tr.length) tr).map (fun r => r.2.getD k 0 * ((key r.1 c).getD k 0 % q0))) % q0)
    List.zipWith (fun a y => (a + y) % q0) a (inttRow q0 psi rl y)
  (col 0 acc.1, col 1 acc.2)

/-- The MV outputs of one input ciphertext. -/
def State.pbsOne (s : State) (kr ks : Key) (kb : Nat) (rl : Nat) (b : TableBlock) (a : List Nat) (body : Nat) :
    List (List Nat) :=
  let p := kr.p
  let nr := 2 ^ rl
  let q0 := p.q 0
  let psi := psiOf (p.modulus 0).root q0 rl
  let ql := p.lwe.q
  let start := (pbsRot q0 nr ((2 * nr - pbsMs ql nr body) % (2 * nr)) (pbsTest q0 nr b), List.replicate nr 0)
  let acc := (List.zip (List.range a.length) a).foldl (fun acc x =>
    pbsStep q0 psi rl p.pbsBaseLog p.pbsLevels ((2 * nr - pbsMs ql nr x.2) % (2 * nr))
      (fun r c => s.refreshKeyRow kr nr x.1 r c) acc) start
  let wd := nr / (b.mv * 2 ^ b.p)
  (List.range b.mv).map fun j =>
    let x := extractLwe q0 (j * wd) acc.1 acc.2
    s.lweSwitch ks kb x.dropLast (x.getLastD 0)

/-! ## Keys (R195, R200) -/

/-- Where the key-switching image of a key pair begins (R195). -/
def ksImage (base nr : Nat) (p : PSet) (seeded : Bool) : Nat :=
  ceilDiv (base + 0x40 + p.lweN * objectSize p nr seeded) 64 * 64

/-- Byte ranges of a key pair. -/
def pairRanges (base nr : Nat) (p : PSet) (seeded : Bool) : List (Nat × Nat) :=
  let k := ksImage base nr p seeded
  [(base, 0x40 + p.lweN * objectSize p nr seeded),
    (k, 0x40 + 4 * nr * p.pbsLevels * (if seeded then 1 else p.lweN + 1))]

/-- Checks 1 to 5 of Table RF.3; check 6 is `Verdict.against` a member's record KEYTAG. -/
def pbsVerdict (r k : KeyHeader) (w : MopWord) (form : Nat) (p : PSet) : Verdict :=
  let fl :=
    if !r.sound || !k.sound then Flag.faulted
    else if r.kind != 4 || r.form != form || r.pset != w.pset || r.digits != p.pbsLevels || r.baseLog != p.pbsBaseLog ||
        r.galois != 0 then Flag.keyMismatch
    else if k.kind != 3 || k.form != form || k.pset != w.pset || k.digits != p.pbsLevels || k.baseLog == 0 ||
        decide (k.baseLog * k.digits > 32) || k.galois != 0 then Flag.keyMismatch
    else if k.keytag != r.keytagOut then Flag.keyMismatch
    else 0
  { flags := fl, keytag := r.keytag, keytagOut := k.keytagOut, baseLog := k.baseLog, perSet := false }

/-- The image that a PBS's key-switching key begins at. -/
def Ctx.pbsImage (c : Ctx) (p : PSet) : Nat :=
  ksImage ((c.view 1).elim 0 View.base) (2 ^ c.w.ringLog) p (c.job.mode.keyfeed == .seeded)

/-- PBS_KEY_VERDICT: both headers and seed blocks are read, and a member's verdict arrives and releases it (R201). In FC6 the
headers are read during the KSW (R265): the KEYTAG of the record that the KSW has still to write is compared when it is
there. PBS_KEY_MISMATCH and KEY_HEADER_FAULTED count each member's verdict (DESIGN CHOICE, log 71). -/
def execPbsKeyVerdict (t seq : Nat) (s : State) : Out :=
  s.withStream t seq (fun w => w.family == Fam.pbs) fun c =>
    match s.runOf c.ring t seq, c.view 1, s.pset c.w.pset with
    | some g, some kv, some p =>
      if !g.allStarted || !s.streaming g || (g.member t).any (fun m => m.verdict.isSome) then s
      else
        let k := c.pbsImage p
        match s.poisonedLine (g.unread 0 [(kv.base, 0x40), (k, 0x40)]) with
        | some a => s.stopMop c (.memLine a)
        | none =>
          let h := pbsVerdict (s.streamHeader g kv.base) (s.streamHeader g k) c.w (keyfeedForm c.job.mode.keyfeed) p
          let v := if c.mop.start.isSome then h.against (s.inputTag c) else h
          let s := s.readHeaders g c.full [kv.base, k]
          let s := if bit v.flags 1 then s.count .pbsKeyMismatch t 1 else s
          let s := if bit v.flags 2 then s.count .keyHeaderFaulted 0 1 else s
          let s := s.mapMember g t (fun m => { m with verdict := some v })
          if c.mop.hold = .verdict then s.release t seq 0 true else s
    | _, _, _ => s

/-! ## The key stream of a PBS (R198, R207) -/

/-- Whether a word is stage 3 of FC3. -/
def MopWord.normalises (w : MopWord) : Bool := w.chain == 3 && w.cstage == 3

/-- Waves of a PBS: V = M/w; in stage 3 of FC3 one for Z and those of the sums and differences (R208, R266). -/
def Ctx.waves (c : Ctx) : Nat :=
  let m := (c.view 0).elim 0 (fun v => v.matRowsIn.length)
  if c.w.normalises then 1 + 2 * (m - 1) / max c.w.wave 1 else m / max c.w.wave 1

/-- The key-switching entries of one wave, which every member receives (R198). -/
def State.pbsPieces (s : State) (g : GroupRun) (c : Ctx) (p : PSet) : List KeyPiece :=
  lwePieces (s.runKey g c p (c.pbsImage p) 0) (List.range (2 ^ c.w.ringLog))

/-- What a PBS member waits for next. The stream brings each wave's objects and then its key-switching entries; the
verdict must be there before the first wave's outputs are written (R198, R201, R207). -/
def State.pbsWaits (s : State) (g : GroupRun) (p : PSet) (t : Nat) : Hold :=
  match g.member t, s.memberCtx g t with
  | some m, some c =>
    let entries := piecesSize (s.pbsPieces g c p)
    if m.objects < p.lweN then .object
    else if m.verdict.isNone then .verdict
    else if m.got < m.objects / max p.lweN 1 * entries then .keyRing
    else if m.objects < c.waves * p.lweN then .object
    else .none
  | _, _ => .none

/-- Object i of the stream may enter the buffer of a member: the entries of the waves before it have come, and every member
has finished with object i − 2 (R207). -/
def State.objectFits (s : State) (g : GroupRun) (c : Ctx) (p : PSet) (i : Nat) : Bool :=
  decide (i < c.waves * p.lweN) &&
    decide (i / max p.lweN 1 * piecesSize (s.pbsPieces g c p) ≤ (g.member c.t).elim 0 (·.got)) &&
    g.members.all (fun m => decide (i < m.fin + 2))

/-- PBS_OBJECT_ARRIVAL: the next refresh object reaches a member's buffer and releases a held step after `cycles` held
cycles; its lines are read when the first member receives it (R198, R199, R207). -/
def execPbsObjectArrival (t seq cycles : Nat) (s : State) : Out :=
  s.withStream t seq (fun w => w.family == Fam.pbs) fun c =>
    match s.runOf c.ring t seq, c.view 1, s.pset c.w.pset with
    | some g, some kv, some p =>
      let i := (g.member t).elim 0 (·.objects)
      if !g.allStarted || !s.streaming g || !s.objectFits g c p i then s
      else
        let size := objectSize p (2 ^ c.w.ringLog) (c.job.mode.keyfeed == .seeded)
        let pass := i / max p.lweN 1
        let new := g.unread pass [(kv.base + 0x40 + i % max p.lweN 1 * size, size)]
        match s.poisonedLine (g.unread 0 [(kv.base, 0x40)] ++ new) with
        | some a => s.stopMop c (.memLine a)
        | none =>
          let s := (s.readHeaders g c.full [kv.base]).readKeyLines g c.full pass (fun _ => g.tiles) new
          let s := s.mapMember g t (fun m => { m with objects := m.objects + 1 })
          if c.mop.hold = .object then (s.release t seq cycles (c.early pass)).count .pbsKeyWaitCycles t cycles else s
    | _, _, _ => s

/-- Key-switching entries reach a member of a PBS, wave by wave (R198, R207). -/
def State.pbsRing (s : State) (t seq bytes cycles : Nat) : Out :=
  s.withStream t seq (fun w => w.family == Fam.pbs) fun c =>
    match s.runOf c.ring t seq, s.pset c.w.pset with
    | some g, some p =>
      let entries := piecesSize (s.pbsPieces g c p)
      let m := (g.member t).elim (0, 0) (fun m => (m.got, m.objects))
      let pass := m.1 / max entries 1
      if !g.allStarted || !s.streaming g || decide (m.2 < (pass + 1) * p.lweN) || decide (c.waves ≤ pass) then s
      else s.ringArrival g c (s.runKey g c p (c.pbsImage p) pass) (fun _ => s.pbsPieces g c p) (m.1 % max entries 1) bytes
        cycles .pbsKeyWaitCycles
    | _, _ => s

/-- KEY_RING_ARRIVAL: key words reach a member's ring, of 64 KiB, while its stream has its places at the Bobbins; a member
held on an empty ring takes them at once after `cycles` held cycles (R171, R181, R207; DESIGN CHOICE, log 4). -/
def execKeyRingArrival (t seq bytes cycles : Nat) (s : State) : Out :=
  match s.ctx t seq with
  | some c => if c.w.family = Fam.pbs then s.pbsRing t seq bytes cycles else s.kswRing t seq bytes cycles
  | none => .next s

/-! ## PBS -/

/-- The record of a PBS output and its newly raised flags, from its inputs as checked, a verdict and a table block
(R193, R204). -/
def State.pbsRecord (s : State) (out : Desc) (ins : List RecIn) (extra : Nat) (v : Verdict) (block : TableBlock)
    (p : PSet) : Rec × Nat :=
  let checks := orFlags [orFlags (ins.map (·.newFlags)), compareRecords ins, extra, v.flags]
  match reference ins with
  | none => (noReference Dom.lwe out, checks)
  | some ref =>
    let o := applyRule s ins ref
      { keepRule Fam.pbs ref with
        level := 0, scale := block.outScale,
        noise := some (if ref.outside then 0 else match s.pset ref.r.pset with | some p => (p.postPbs : Int) | none => 0),
        keytag := if v.flags = 0 then v.keytagOut else ref.r.keytag, domain := Dom.lwe,
        comps := derivedComps s ref out Dom.lwe (fun p => p.lweN + 1) }
    let shape := if ref.outside || ref.r.comps == p.lweN + 1 then 0 else Flag.range
    (o.1, orFlags [checks, o.2, shape])

/-- The keys of a PBS in one wave, as its stream has read them: the refresh key and the key-switching key of its pair. -/
def State.pbsKeys (s : State) (g : GroupRun) (c : Ctx) (p : PSet) (wave : Nat) : Key × Key :=
  (s.runKey g c p ((c.view 1).elim 0 View.base) wave, s.runKey g c p (c.pbsImage p) wave)

/-- The MV outputs of one LWE ciphertext given as one row. -/
def State.pbsRow (s : State) (g : GroupRun) (c : Ctx) (p : PSet) (bl : Nat) (block : TableBlock) (wave : Nat)
    (row : List Nat) : List (List Nat) :=
  let k := s.pbsKeys g c p wave
  s.pbsOne k.1 k.2 bl c.w.ringLog block row.dropLast (row.getLastD 0)

/-- The verdict that a member holds. -/
def GroupRun.verdictOf (g : GroupRun) (t : Nat) : Verdict :=
  ((g.member t).bind (·.verdict)).getD { flags := 0, keytag := 0, keytagOut := 0, baseLog := 1, perSet := false }

/-- One member's output. -/
def State.pbsMember (s : State) (g : GroupRun) (c : Ctx) (p : PSet) : List BatchOut :=
  match c.view 0, c.view 2 with
  | some src, some dst =>
    let v := (g.verdictOf c.t).against (s.inputTag c)
    let block := s.tableBlock c.job.image c.w.pbsTable
    let heads := dst.outBatches.map (fun b =>
      let ins := s.matInputs c block.mv b
      let r := s.pbsRecord dst.desc (ins.map (·.2)) c.plainMarks v block p
      (b, r, orFlags (r.2 :: ins.map (fun x => x.2.r.flags))))
    let data := if heads.any (fun h => h.2.2 == 0) then
        (List.zip (List.range src.matRowsIn.length) src.matRowsIn).flatMap (fun i =>
          let outs := s.pbsRow g c p v.baseLog block (i.1 / max c.w.wave 1)
            ((List.range src.desc.matCols).map (fun j => s.readElem src (src.desc.matAt i.2 j)))
          (List.zip (List.range outs.length) outs).flatMap (fun o =>
            (List.zip (List.range o.2.length) o.2).map (fun x =>
              (dst.desc.matAt (dst.matRowsIn.getD (i.1 * block.mv + o.1) 0) x.1, x.2))))
      else []
    heads.map (fun h =>
      { b := h.1, newFlags := h.2.1.2, flags := h.2.2, record := h.2.1.1, data := data.filter (fun e => inBatch dst.desc h.1 e.1) })
  | _, _ => []

/-! ## Deferred normalisation: FC3 stage 3 (R266) -/

/-- What stage 3 computes from the K2 unnormalised rows: r, the sums and differences in turn, their refreshes, and the
outputs. -/
structure Normal where
  r : List Nat
  mixed : List (List Nat)
  fresh : List (List Nat)
  out : List (List Nat)

def State.normalise (s : State) (g : GroupRun) (c : Ctx) (p : PSet) (bl : Nat) (rows : List (List Nat)) : Normal :=
  let ql := p.lwe.q
  let t0 := s.tableBlock c.job.image c.w.pbsTable
  let t1 := s.tableBlock c.job.image (c.w.pbsTable + 1)
  let r := (s.pbsRow g c p bl t0 0 (rows.getLastD [])).headD []
  let mixed := rows.dropLast.flatMap (fun o =>
    [List.zipWith (fun a b => (a + b) % ql) o r, List.zipWith (fun a b => (a % ql + ql - b % ql) % ql) o r])
  let fresh := (List.zip (List.range mixed.length) mixed).map (fun x =>
    (s.pbsRow g c p bl t1 (1 + x.1 / max c.w.wave 1) x.2).headD [])
  let out := (List.range rows.dropLast.length).map (fun j =>
    List.zipWith (fun a b => (a % ql + ql - b % ql) % ql) (fresh.getD (2 * j) []) (fresh.getD (2 * j + 1) []))
  { r := r, mixed := mixed, fresh := fresh, out := out }

/-- Records of stage 3: PBS, ADD, SUB, PBS, SUB (R255, R256), with all newly raised flags. -/
def State.normalRecord (s : State) (g : GroupRun) (c : Ctx) (out : Desc) (p : PSet) (x0 : RecIn) : Rec × Nat :=
  let k := s.pbsKeys g c p 0
  let v1 := (g.verdictOf c.t).against x0.r.keytag
  let p1 := s.pbsRecord out [x0] c.plainMarks v1 (s.tableBlock c.job.image c.w.pbsTable) p
  let f1 := p1.2 ||| x0.r.flags
  let x1 := reread s c [2] out { p1.1 with flags := f1 }
  let a := chainAdd s Fam.add out x0 x1
  let b := chainAdd s Fam.sub out x0 x1
  let f2 := orFlags [f1, without (a.2 ||| b.2) f1]
  let xa := reread s c [2] out { a.1 with flags := f2 }
  let xb := reread s c [2] out { b.1 with flags := f2 }
  let v2 := (pbsVerdict k.1.hdr k.2.hdr c.w (keyfeedForm c.job.mode.keyfeed) p).against xa.r.keytag
  let p2 := s.pbsRecord out [xa, xb] 0 v2 (s.tableBlock c.job.image (c.w.pbsTable + 1)) p
  let f3 := f2 ||| p2.2
  let x2 := reread s c [2] out { p2.1 with flags := f3 }
  let z := chainAdd s Fam.sub out x2 x2
  (z.1, without (orFlags [f3, z.2]) x0.r.flags ||| p1.2)

/-- Stage 3 on one member: the output rows, and what it leaves in the hold space. -/
def State.normalMember (s : State) (g : GroupRun) (c : Ctx) (p : PSet) : List BatchOut :=
  match c.view 0, c.view 2, (s.matInputs c 1 0).head? with
  | some src, some dst, some x =>
    let r := s.normalRecord g c dst.desc p x.2
    let flags := r.2 ||| x.2.r.flags
    let data := if flags = 0 then
        (let rows := (List.range src.desc.matRows).map (fun i =>
            (List.range src.desc.matCols).map (fun j => s.readElem src (src.desc.matAt i j)))
         let n := s.normalise g c p (g.verdictOf c.t).baseLog rows
         (List.zip (List.range n.out.length) n.out).flatMap (fun o =>
            (List.zip (List.range o.2.length) o.2).map (fun w => (dst.desc.matAt o.1 w.1, w.2))))
      else []
    dst.outBatches.map (fun b =>
      { b := b, newFlags := r.2, flags := flags, record := r.1, data := data.filter (fun e => inBatch dst.desc b e.1) })
  | _, _, _ => []

/-- The hold space behind the unnormalised outputs after stage 3: r, sums and differences, refreshes; zeros where it is
poisoned. -/
def State.storeNormal (g : GroupRun) (c : Ctx) (p : PSet) (s : State) : State :=
  match c.chain, c.view 0, (s.matInputs c 1 0).head? with
  | some ch, some src, some x =>
    let cols := src.desc.matCols
    let k2 := src.desc.matRows
    let at3 := ch.base + ch.fc3Partial + 8 * cols * k2
    let rows := (List.range k2).map (fun i => (List.range cols).map (fun j => s.readElem src (src.desc.matAt i j)))
    let zero := List.replicate (1 + 4 * (k2 - 1)) (List.replicate cols 0)
    let fl := (s.normalRecord g c c.outDesc p x.2).2 ||| x.2.r.flags
    if fl = 0 then
      let n := s.normalise g c p (g.verdictOf c.t).baseLog rows
      s.storeRows at3 (n.r :: n.mixed ++ n.fresh)
    else s.storeRows at3 zero
  | _, _, _ => s

/-- Keccak permutations of a SEEDED PBS, wave by wave: object i at the Bobbin number i mod 3 of each die that holds a
member, the key-switching masks as R166 has them (R197). -/
def State.countRefresh (c : Ctx) (g : GroupRun) (p : PSet) (s : State) : State :=
  if c.job.mode.keyfeed != .seeded then s
  else
    let nr := 2 ^ c.w.ringLog
    let third (n k : Nat) : Nat := ((List.range n).filter (fun j => j % 3 == k)).length
    (List.range 4).foldl (fun s d =>
      if g.tiles.any (fun t => dieOfTile t == d) then
        (List.range 3).foldl (fun s k => s.permute (3 * d + k) (c.waves *
          (third p.lweN k * 2 * p.pbsLevels * ceilDiv nr 17 + third nr k * p.pbsLevels * ceilDiv p.lweN 17))) s
      else s) s

/-- What every member writes. -/
def State.pbsOuts (s : State) (g : GroupRun) (p : PSet) : List (Nat × List BatchOut) :=
  (List.range g.sets).map (fun k =>
    (k, match s.memberCtx g (g.setLeader k) with
        | some cm => if cm.w.normalises then s.normalMember g cm p else s.pbsMember g cm p
        | none => []))

/-- The table blocks that a PBS reads. -/
def Ctx.pbsTables (c : Ctx) : List (Nat × Nat) :=
  c.job.image.tableAt c.w.pbsTable :: (if c.w.normalises then [c.job.image.tableAt (c.w.pbsTable + 1)] else [])

/-- The counters of a PBS on every member; the verdict of one that was not compared with its record when it arrived counts
here. -/
def State.countPbs (c : Ctx) (g : GroupRun) (p : PSet) (s : State) : State :=
  let ranges := (c.view 1).elim [] (fun kv => pairRanges kv.base (2 ^ c.w.ringLog) p (c.job.mode.keyfeed == .seeded))
  g.tiles.foldl (fun s x =>
    let late := match s.memberCtx g x with
      | some cx => decide ((g.verdictOf x).flags = 0) && decide (((g.verdictOf x).against (s.inputTag cx)).flags ≠ 0)
      | none => false
    let s := (s.count .pbsCount x ((c.view 0).elim 0 (fun v => v.matRowsIn.length))).count .pbsKeyBytesRead x
      (total (ranges.map (·.2)) * c.waves)
    if late then s.count .pbsKeyMismatch x 1 else s) s

/-- PBS on one member: it works off the objects in its buffers and holds for what comes next. The effect of the group is
taken once every member has had its whole stream, so that one event names them (R204). A poisoned line of the table block aborts
it unless every output is poisoned already (Table MS.6). PBS_COUNT counts the input ciphertexts of each member, and
PBS_KEY_BYTES_READ for each member the whole key pair, headers and seed blocks included, once for each wave (DESIGN CHOICE,
log 71). -/
def execPbs (t seq : Nat) (s : State) : Out :=
  s.withReady t seq (fun w => w.family == Fam.pbs) fun c =>
    match s.runOf c.ring t seq, s.pset c.w.pset with
    | some g, some p =>
      if !g.allStarted then s
      else if s.pbsWaits g p t ≠ .none then
        (s.holdAt g t seq (s.pbsWaits g p t)).mapMember g t (fun m => { m with fin := m.objects })
      else if g.tiles.any (fun x => s.pbsWaits g p x != .none) then
        (s.mapMop t seq (fun m => { m with hold := .none })).mapMember g t (fun m => { m with fin := m.objects })
      else
        let outs := s.pbsOuts g p
        let s := s.mapMop t seq (fun m => { m with hold := .none })
        match g.tiles.findSome? (fun x => (s.memberCtx g x).bind (fun cx => (s.badWord cx).map (fun o => (cx, o)))) with
        | some (cx, o) => (s.markGranule cx.t (o / 4096)).stopMop cx (.scratchWord o)
        | none =>
          match (if outs.any (fun x => x.2.any (fun o => o.flags == 0)) then s.badLine c.pbsTables else none) with
          | some a => s.stopMop c (.memLine a)
          | none =>
            let s := (s.countPbs c g p).countRefresh c g p
            let s := if c.w.normalises then
                g.tiles.foldl (fun s x => match s.memberCtx g x with | some cm => s.storeNormal g cm p | none => s) s
              else s
            s.commitGroup c g outs
    | _, _ => s

/-- Workspace size W and latency of a PBS (Table RF.4); `m` ciphertexts per member, MV functions. -/
def pbsWorkspace (nr w lv mv : Nat) : Nat := 8 * nr * w + 40 * lv * nr + 8 * w * mv * (nr + 1) + 65536

def pbsLatency (w : MopWord) (m mv : Nat) (p : PSet) : Nat :=
  let nr := 2 ^ w.ringLog
  let wv := w.wave
  let n := p.lweN
  let lv := p.pbsLevels
  let init := wv * (ceilDiv (n + 1) 128 + nr / 128)
  let rot := n * (wv * ((2 * lv + 2) * nr * w.ringLog / 256) + 64)
  let ex := wv * mv * nr / 128
  let ks := wv * mv * nr * lv * ceilDiv (n + 1) 128
  40 + m / max wv 1 * (init + rot + ex) + ks + ceilDiv (pbsWorkspace nr wv lv mv) 3072

/-! ## PACK (R210-R212) -/

/-- lift_s(x) as a residue modulo q. -/
def liftTo (qs q x : Nat) : Nat :=
  let y := x % qs
  if y ≤ qs / 2 then y % q else ((y : Int) - qs) % (q : Int) |>.toNat

/-- The words of component c of an output row for one LWE sample packed at coefficient k (SRC = 1). -/
def packLweRow (ql q n k c : Nat) (a : List Nat) (b : Nat) : List Nat :=
  if c = 0 then (List.range n).map (fun i => if i = k then liftTo ql q b else 0)
  else (List.zip (List.range a.length) a).foldl (fun row x =>
    if x.1 ≤ k then row.set (k - x.1) (liftTo ql q x.2) else row.set (n + k - x.1) (negSel q (liftTo ql q x.2)))
    (List.replicate n 0)

/-- RANGE of R211: what the set alone decides, its reference input's or, where no input qualifies, the one the word names;
and what the reference input's LEVEL and COMPONENTS decide. -/
def packRange (s : State) (w : MopWord) (ref : Option RecIn) : Nat :=
  let set := match ref with
    | some r => if r.outside then none else s.pset r.r.pset
    | none => s.pset w.pset
  match set with
  | some p =>
    let shape := match ref with
      | some r => (w.packSrc == 0 && (r.r.level != 0 || r.r.comps != 2)) || (w.packSrc == 1 && r.r.comps != p.lweN + 1)
      | none => false
    if shape || decide (p.chain < w.packRaise + 1) ||
        (w.packSrc == 1 && (decide (p.n < p.lweN) || decide (p.n ≤ w.packCoef))) then Flag.range else 0
  | none => 0

/-- PACK's record: RLWE at LEVEL R with 2 components. -/
def packRule (c : Ctx) (ref : RecIn) : RecRule :=
  { keepRule Fam.pack ref with level := c.w.packRaise, comps := 2, domain := Dom.rlwe }

/-- One PACK. -/
def State.packOp (s : State) (t seq srcBit : Nat)
    (data : Ctx → View → State → View → Nat → RecIn → PSet → List ElemOut) : Out :=
  match s.unary t seq (fun w => w.family == Fam.pack && w.packSrc == srcBit) (fun c _ => packRule c)
    (fun c r => packRange s c.w r) data with
  | .next s' => .next (if (match s.readyCtx t seq (fun w => w.family == Fam.pack && w.packSrc == srcBit) with
      | some c => (s.badWord c).isNone
      | none => false) then s'.count .packCount t 1 else s')
  | o => o

/-- PACK of an RLWE ciphertext: the modulus raise. -/
def execPackRaise (t seq : Nat) (s : State) : Out :=
  s.packOp t seq 0 fun c src s dst b _ p =>
    let bi := src.batchFor dst b
    (dst.roleIn Role.comp).flatMap fun k => (dst.roleIn Role.row).flatMap fun r =>
      rowOut dst r k b ((s.readRow src src.n 0 k bi).map (liftTo (p.q 0) (p.q (p.rowIndex c.w.packRaise r))))

/-- PACK of an LWE sample into coefficient COEF. -/
def execPackLwe (t seq : Nat) (s : State) : Out :=
  s.packOp t seq 1 fun c src s dst b _ p =>
    let bi := src.batchFor dst b
    let x := s.readRow src src.n 0 0 bi
    (dst.roleIn Role.comp).flatMap fun k => (dst.roleIn Role.row).flatMap fun r =>
      rowOut dst r k b (packLweRow p.lwe.q (p.q (p.rowIndex c.w.packRaise r)) p.n c.w.packCoef k x.dropLast (x.getLastD 0))

/-- Latency and interval of PACK (R212). -/
def packTiming (w : MopWord) (dst : View) (p : PSet) : Nat × Nat :=
  let l := p.n * dst.polyRows / 64 + (if w.packSrc = 1 then dst.batchIn.length * ceilDiv (p.lweN + 1) 64 else 0)
  (24 + l, l)

end Sys2Proof.Machine
end

