-- ==== Sys2Proof/Machine/Issue.lean ====
section
/-!
DEFINITION. What the sequencer settles when it offers a macro-operation (08_fused_chains, 09_macro_operations): the hold space
and the intermediates of a chain (R246, Table FC.3), the issue checks (R303, Table OP.17), and latencies with engine intervals.
-/
namespace Sys2Proof.Machine

/-! ## A macro-operation before its admission -/

/-- An admitted macro-operation of a word, nothing of which has happened yet. -/
def Mop.fresh (seq : Nat) (w : MopWord) : Mop :=
  { seq := seq, word := w, admitted := 0, start := none, ready0 := none, unitAfter := none,
    interval := none, ranges := [], marked := [],
    latency := 8, held := 0, hold := .none, done := false, events := [], send := .idle, taken := none, badHead := false, resends := 0, stalled := false,
    waitSince := 0, stop := none }

/-- The context a word would have on a tile. -/
def Job.ctxOf (j : Job) (t seq : Nat) (w : MopWord) (ch : Option ChainRun) : Ctx :=
  { t := t, ring := j.ring, job := j, mop := Mop.fresh seq w, chain := ch }

/-! ## The stream -/

/-- A word of the program store (R294). -/
def Tile.storeWord (u : Tile) (i : Nat) : Option MopWord :=
  match u.store.find? (fun g => g.index == i / 4096) with
  | some g => g.words[i % 4096]?
  | none => none

/-- Stages a chain kind may have (Table FC.1). -/
def stageCounts (kind : Nat) : List Nat := if kind = 3 then [3, 4] else [2]

/-- The words of the chain that a head opens: consecutive words of its kind with rising CSTAGE. -/
def chainGo (kind : Nat) : Nat → Nat → (Nat → Option MopWord) → List MopWord
  | 0, _, _ => []
  | f + 1, k, word =>
    match word k with
    | some w => if w.chain = kind ∧ w.cstage = k then w :: chainGo kind f (k + 1) word else []
    | none => []

/-- The stages from a head on, as the program store holds them. -/
def State.chainWords (s : State) (t : Nat) (e : TileEntry) (i : Nat) (w : MopWord) : List MopWord :=
  if w.chain = 0 then [w]
  else chainGo w.chain 4 0 (fun k => if e.words ≤ i + k then none else (s.tile t).storeWord (i + k))

/-- The stream positions whose words the sequencer needs to offer the word at `i`: its own, and for a chain head those of
every stage its kind may have (Table FC.1). -/
def chainReach (e : TileEntry) (i : Nat) (w : MopWord) : List Nat :=
  if w.chain = 0 then [i]
  else ((List.range ((stageCounts w.chain).foldl max 1)).map (fun k => i + k)).filter (fun x => decide (x < e.words))

/-- The cycle from which the segments of these positions are all usable; none while one is not (R295). -/
def Tile.usableFrom (u : Tile) (xs : List Nat) : Option Nat :=
  xs.foldl (fun acc x =>
    match acc, (u.store.find? (fun g => g.index == x / 4096)).bind (·.usable) with
    | some a, some b => some (max a b)
    | _, _ => none) (some 0)

/-! ## Group entries by word -/

/-- The group entry a group macro-operation names. -/
def State.groupOf (s : State) (j : Job) (w : MopWord) : Option GroupEntry :=
  if w.family = Fam.ksw then some (s.groupEntry j.image w.kswGroup)
  else if w.family = Fam.pbs then some (s.groupEntry j.image w.pbsGroup)
  else none

/-! ## Chains (R246, Table FC.3) -/

/-- The layout of an intermediate of `cols` words in each of `rows` rows, with its record at 64·stage. Its allocation is what
Table FC.3 gives it in the hold space. -/
def plainInter (base stage cols rows : Nat) : Desc :=
  { code := 0, elemBits := 32, space := 0, recorded := true, index := false, blocked := false, specialRows := 0,
    tileset := 0xFF, dieMask := 0, stackMask := 0, base := base, allocSize := 4 * cols * rows, pitch := 0,
    recordOffset := 64 * stage,
    dims := [{ extent := cols, stride := 4, role := Role.word, axis := 0, parts := 1, block := 0 },
      { extent := rows, stride := 4 * cols, role := 0, axis := 0, parts := 1, block := 0 }],
    members := [] }

/-- The output of a KSW GALOIS as FC4 holds it: two components of e_in rows on each member, one batch for each set. -/
def rotInter (base n rho : Nat) (g : GroupEntry) : Desc :=
  let k := 2 ^ g.gsLog
  let e := ceilDiv rho k
  { plainInter base 0 n (2 * e) with
    tileset := 0, members := g.members,
    dims := [{ extent := n, stride := 4, role := Role.word, axis := 0, parts := 1, block := 0 },
      { extent := rho, stride := 4 * n, role := Role.row, axis := 1, parts := k, block := 1 },
      { extent := 2, stride := 4 * n * e, role := Role.comp, axis := 0, parts := 1, block := 0 },
      { extent := g.sets, stride := 8 * n * e, role := Role.batch, axis := 1, parts := g.sets, block := 1 }] }

/-- The bytes H that a chain needs and its intermediates; its words and the hold space's offset are given (DEDUCED, log 36). -/
def State.chainShape (s : State) (j : Job) (t base : Nat) (ws : List MopWord) : Nat × List Inter :=
  let w0 := ws.getD 0 (MopWord.parse [])
  let w1 := ws.getD 1 (MopWord.parse [])
  let w2 := ws.getD 2 (MopWord.parse [])
  let w3 := ws.getD 3 (MopWord.parse [])
  let cols := (j.view t w0.o0).elim 1 (fun v => v.desc.matCols)
  let k0 := (j.view t w0.o1).elim 0 (fun v => v.desc.matRows)
  let at0 (d : Desc) (lead : Nat) : Inter := { desc := d, lead := lead, ring := false }
  let ring (d : Desc) (lead bytes : Nat) : Inter := { desc := { d with allocSize := bytes }, lead := lead, ring := true }
  match w0.chain with
  | 2 => (4096 + 32768, [ring (plainInter base 0 cols k0) 4096 32768])
  | 5 => (4096 + 32768, [ring (plainInter base 0 cols k0) 4096 32768])
  | 3 =>
    let c := ((s.pset w0.pset).elim 0 (fun p => p.lweN)) + 1
    let mv := (s.tableBlock j.image w1.pbsTable).mv
    let k2 := (j.view t w2.o1).elim 0 (fun v => v.desc.matRows)
    let h := 4096 + 4 * c * (k0 + 64 * mv + k2)
    let two := [at0 (plainInter base 0 cols k0) 4096, ring (plainInter base 1 c (k0 * mv)) (4096 + 4 * c * k0) (256 * c * mv)]
    if w3.cstage = 3 ∧ w3.chain = 3 then (h + 4 * c * (5 * k2 - 3), two ++ [at0 (plainInter base 2 c k2) h])
    else (h, two)
  | 4 =>
    let g := s.groupEntry j.image w0.kswGroup
    let rho := (j.view t w0.o0).elim 1 (fun v => v.level + 1)
    let n := (j.view t w0.o0).elim 1 (fun v => v.n)
    (4096 + 8 * ceilDiv rho (2 ^ g.gsLog) * n, [at0 (rotInter base n rho g) 4096])
  | 6 =>
    let c := ((s.pset w0.pset).elim 0 (fun p => p.lweN)) + 1
    (4096 + 4 * c, [at0 (plainInter base 0 c 1) 4096])
  | _ => (0, [])

/-- The device range of the allocation of a chain's HOLD descriptor in a tile. -/
def Job.holdAlloc (j : Job) (t : Nat) (w : MopWord) : Option (Nat × Nat) :=
  (j.descs[w.hold]?).map (fun d =>
    let lo := if d.space = 0 then scratchAddr t d.base else d.base
    (lo, lo + d.allocSize))

/-- The chain that a head opens (DEDUCED, log 36). -/
def State.newChain (s : State) (j : Job) (t seq : Nat) (ws : List MopWord) : Option ChainRun :=
  match ws with
  | [] => none
  | w :: _ =>
    if w.chain = 0 then none
    else
      let alloc := if w.chain = 1 then (0, 0) else (j.holdAlloc t w).getD (0, 0)
      let shape := s.chainShape j t (alloc.1 - scratchAddr t 0) ws
      some { head := seq, kind := w.chain, stages := ws.length, hold := w.hold, base := alloc.1,
             size := if w.chain = 1 then 0 else alloc.2 - alloc.1, inters := shape.2, units := [],
             buffers := ((List.zip (List.range shape.2.length) shape.2).filter (fun p => p.2.ring)).map (fun p =>
               (p.1, List.replicate p.2.rows (List.replicate p.2.cols 0))) }

/-! ## Issue checks (Table OP.17) -/

/-- Two byte ranges share a byte. -/
def overlaps (a b : Nat × Nat) : Bool := decide (a.1 < b.2) && decide (b.1 < a.2)

/-- An operand that denotes an intermediate of the chain. -/
def Ctx.isHold (c : Ctx) (k : Nat) : Bool :=
  match c.chain with
  | some ch => ch.kind != 1 && (c.w.opnd k).desc == ch.hold
  | none => false

/-- Operands that are no intermediates. -/
def Ctx.outer (c : Ctx) : List (Nat × View) := c.operands.filter (fun p => !c.isHold p.1)

/-- Data and record range of an operand. -/
def Ctx.rangesAt (c : Ctx) (p : Nat × View) : List (Nat × Nat) :=
  c.w.dataRange p.1 p.2 :: (if c.w.recordAt p.1 p.2.desc then [p.2.recordRange] else [])

/-- Every index of an operand lies in the tile's shard. -/
def View.wholly (v : View) : Bool :=
  !v.desc.tileSharded || v.desc.extentsOf ((v.desc.tileShard v.tile).getD 0) == v.desc.dims.map (·.extent)

/-- The codes of a row of a matrix operand lie in the tile's shard. -/
def View.holdsRow (v : View) (k : Nat) : Bool :=
  (List.range v.desc.matCols).all (fun j => v.holds (v.desc.matAt k j))

/-- What an MXP reads of an operand lies in the tile's shards: all of X and of the side block, of W the rows that give its own
rows of Y (R217; DEDUCED, log 46). -/
def Ctx.matOwn (c : Ctx) (p : Nat × View) : Bool :=
  if p.1 = 2 then true
  else if p.1 = 1 then (if c.w.mmode = 2 then [0] else (c.view 2).elim [] View.matRowsIn).all p.2.holdsRow
  else p.2.wholly

/-- The operand lies in the tile's own scratchpad; that of a WIN in SCRATCH space (R370). -/
def Ctx.inOwn (c : Ctx) (p : Nat × View) : Bool :=
  (c.rangesAt p).all (fun r => inScratch c.t r.1 r.2) && (c.w.family != Fam.win || p.2.desc.space == 0) &&
    (c.w.family != Fam.mxp || c.matOwn p)

/-- The families of the NTE, AUE, BCE and VE. -/
def MopWord.narrow (w : MopWord) : Bool :=
  [0, 1, 2, 3, 4, 5, 6, 8, 9, 10, 11, 12, 13, 14, 15, 18].contains w.family

/-- Positions that must lie in the own scratchpad (R121, R153, R191, R217, R370). -/
def MopWord.ownAt (w : MopWord) (k : Nat) : Bool :=
  (w.narrow && !(w.family == Fam.auto && k == 1)) || w.family == Fam.mxp || (w.family == Fam.pbs && k != 1) ||
    (w.family == Fam.ksw && k == 3) || (w.family == Fam.win && k == 0)

/-- Code 0x05 (DESIGN CHOICE, log 35). -/
def State.outOfPlace (s : State) (c : Ctx) (head : Bool) : Bool :=
  let key := match s.pset c.w.pset with
    | none => []
    | some p =>
      if c.w.family = Fam.ksw ∧ c.w.kswStage ≠ 8 then
        (match c.view 1 with
         | some v => [keyImage v.base c.w.kswKind p (decide (c.job.mode.keyfeed = Keyfeed.seeded))]
         | none => [])
      else if c.w.family = Fam.pbs then
        (match c.view 1 with
         | some v => pairRanges v.base (2 ^ c.w.ringLog) p (decide (c.job.mode.keyfeed = Keyfeed.seeded))
         | none => [])
      else []
  c.operands.any (fun p => c.w.ownAt p.1 && !c.inOwn p) ||
    key.any (fun r => decide (0xC000000000 < r.1 + r.2)) ||
    (head && c.w.chain > 1 && (match c.job.holdAlloc c.t c.w with
      | some r => !inScratch c.t r.1 r.2
      | none => false))

/-- Every row, word and component of an operand lies in the tile's shard (R121). -/
def View.whole (v : View) : Bool :=
  !v.desc.tileSharded || (List.zip v.desc.dims (v.desc.digits ((v.desc.tileShard v.tile).getD 0))).all (fun p =>
    p.1.role == Role.batch || p.1.localExtent p.2 == p.1.extent)

/-- BATCH extents in the tile's view. -/
def View.batchExtents (v : View) : List Nat :=
  ((List.zip v.desc.dims (v.desc.digits ((v.desc.tileShard v.tile).getD 0))).filter (fun p => p.1.role == Role.batch)).map
    (fun p => if v.desc.tileSharded then p.1.localExtent p.2 else p.1.extent)

/-- R563. -/
def copyAgrees (w : MopWord) (src dst : View) : Bool :=
  src.desc.elemBits == dst.desc.elemBits && src.desc.recorded == dst.desc.recorded &&
    (!src.desc.recorded || src.desc.batches == dst.desc.batches) &&
    (w.family == Fam.gather || w.family == Fam.scatter || src.desc.count == dst.desc.count)

/-- R155 on one tile: member j of a shard set holds row r when r mod G = j; for LWE_KS its N/G mask words, and the set
leader the body and the whole output. -/
def kswSharded (w : MopWord) (g : GroupEntry) (t : Nat) (src dst : View) : Bool :=
  let k := 2 ^ g.gsLog
  let j := ((g.members.findIdx? (· == t)).getD 0) % k
  let rows (v : View) : Bool :=
    v.roleIn Role.row == (List.range (v.desc.roleExtent Role.row)).filter (fun r => r % k == j) &&
      (v.roleIn Role.word).length == v.n
  let words (v : View) : Bool :=
    let n := v.n - 1
    v.roleIn Role.word == (List.range v.n).filter (fun i =>
      if i = n then j == 0 else decide (j * n / k ≤ i) && decide (i < (j + 1) * n / k))
  let all (v : View) : Bool := j != 0 || (v.roleIn Role.word).length == v.n
  src.desc.space == 0 && dst.desc.space == 0 &&
    (if w.kswKind = 3 then
       (if w.kswStage = 2 then words src && words dst else words src && all dst)
     else rows src && rows dst)

/-- ⌈log2 m⌉. -/
def ceilLog2 (m : Nat) : Nat := if m ≤ 1 then 0 else Nat.log2 (m - 1) + 1

/-- R220: operands that disagree, or a side block too small. -/
def State.mxpBad (s : State) (c : Ctx) : Bool :=
  match c.view 1, c.view 2, c.view 3 with
  | some w, some y, some side =>
    let m := w.desc.matCols
    let k := if c.w.mmode = 2 then 1 else w.desc.matRows
    let need := ceilDiv (k * mxEntry c.w.mmode) 64 * 64 + mxRecordSize c.w.wbits c.w.xform * (k * ceilDiv m c.w.groupSize)
    let shape := if c.w.mmode = 2 then
        w.desc.matRows == 1 && (match s.pset c.w.pset with | some p => m == p.n && y.n == p.n | none => true)
      else match c.view 0 with
        | some x => x.desc.matRows == m && x.desc.matCols == y.desc.matCols && w.desc.matRows == y.desc.matRows
        | none => false
    !shape || decide (side.span.2 < need)
  | _, _, _ => true

/-- MV of the table block a PBS names. -/
def State.mvOf (s : State) (j : Job) (w : MopWord) : Nat := (s.tableBlock j.image w.pbsTable).mv

/-- R191's last item; for stage 3 of FC3 its K2 rows and K2 − 1 outputs (R266). -/
def State.pbsBad (s : State) (c : Ctx) : Bool :=
  match c.view 0, c.view 2, s.groupOf c.job c.w with
  | some a, some d, some g =>
    let m := a.matRowsIn.length
    if c.w.normalises then
      decide (m < 2) || 2 * (m - 1) % c.w.wave != 0 || d.matRowsIn.length != m - 1 ||
        s.mvOf c.job c.w != 1 || (s.tableBlock c.job.image (c.w.pbsTable + 1)).mv != 1
    else m % c.w.wave != 0 || g.members.any (fun x => ({ a with tile := x } : View).matRowsIn.length != m) ||
      d.matRowsIn.length != m * s.mvOf c.job c.w
  | _, _, _ => true

/-- FC3's multiples (R247); they are checked with the head. -/
def State.fc3Bad (s : State) (c : Ctx) (ws : List MopWord) : Bool :=
  c.w.chain == 3 &&
    (let k0 := (c.view 1).elim 0 (fun v => v.desc.matRows)
     let k2 := (ws[2]?).elim 0 (fun w => (c.job.view c.t w.o1).elim 0 (fun v => v.desc.matRows))
     k0 % 32 != 0 || (ws[1]?).elim false (fun w => k0 % w.wave != 0) ||
       (ws[3]?).elim false (fun w => decide (k2 < 2) || 2 * (k2 - 1) % w.wave != 0 || s.mvOf c.job w != 1 ||
         (s.tableBlock c.job.image (w.pbsTable + 1)).mv != 1))

/-- ELEM_BITS that a position asks for: 32 at the data positions of the NTE, AUE, BCE and VE, KSW and PBS included, and for
X and Y of an MXP, whose weights have their code width (R121, R221; DEDUCED, log 35). A VPROG moves raw bytes, and VCVT's
source has its format's width (R235). -/
def MopWord.elemSize (w : MopWord) (k : Nat) : Option Nat :=
  let f := w.family
  if f = Fam.vprog ∨ (f = Fam.vcvt ∧ k = 0) ∨ (f = Fam.auto ∧ k = 1) then none
  else if w.narrow then some 32
  else if f = Fam.ksw then (if k = 0 ∨ k = 2 ∨ (k = 1 ∧ w.kswStage = 8) then some 32 else none)
  else if f = Fam.pbs then (if k = 0 ∨ k = 2 then some 32 else none)
  else if f = Fam.mxp then (if k = 0 ∨ k = 2 then some 32 else if k = 1 then some w.wbits else none)
  else none

/-- Code 0x08 (DESIGN CHOICE, log 35). -/
def State.shapeBad (s : State) (c : Ctx) (head : Bool) (ws : List MopWord) : Bool :=
  let f := c.w.family
  c.operands.any (fun p => (c.w.elemSize p.1).any (· != p.2.desc.elemBits)) ||
    (([3, 4, 5, 6, 18].contains f || (f == Fam.auto && c.w.immBits 1 0 == 2)) &&
      (c.view 0).elim false (fun v => !v.whole)) ||
    (f == Fam.cmul && (c.view 1).elim false (fun v => decide (v.span.2 < 512))) ||
    ([8, 9, 10, 11, 12, 13, 15].contains f &&
      (match (c.operands.filter (fun p => p.2.desc.hasRole Role.batch)).map (fun p => p.2.batchExtents) with
       | x :: l => l.any (· != x)
       | [] => false)) ||
    (match c.view 0, c.view 2, f with
     | some a, some d, 7 => (match s.groupOf c.job c.w with | some g => !kswSharded c.w g c.t a d | none => false)
     | some a, some d, 19 => !copyAgrees c.w a d
     | some a, some d, 20 => !copyAgrees c.w a d
     | some a, some d, 21 => !copyAgrees c.w a d || (c.view 1).elim true (fun x => x.desc.count != d.desc.count)
     | some a, some d, 22 => !copyAgrees c.w a d || (c.view 1).elim true (fun x => x.desc.count != a.desc.count)
     | some a, some d, 27 => !c.w.chkRoom a d
     | _, _, 16 => s.mxpBad c
     | _, _, 17 => s.pbsBad c
     | _, _, _ => false) ||
    (head && s.fc3Bad c ws)

/-- Code 0x09 (DESIGN CHOICE, log 35). -/
def State.spaceBad (s : State) (c : Ctx) (head : Bool) (ws : List MopWord) : Bool :=
  let work := (c.view 3).elim 0 (fun v => v.span.2)
  (match s.pset c.w.pset, s.groupOf c.job c.w with
   | some p, some g =>
     if c.w.family = Fam.ksw then
       decide (work < kswWorkspace c.w.kswKind p.n p.lweN ((c.view 0).elim 1 (fun v => v.level + 1)) (2 ^ g.gsLog) p)
     else if c.w.family = Fam.pbs then
       decide (work < pbsWorkspace (2 ^ c.w.ringLog) c.w.wave p.pbsLevels (s.mvOf c.job c.w))
     else false
   | _, _ => false) ||
    (head && c.w.chain > 1 && decide (((c.job.holdAlloc c.t c.w).elim 0 (fun r => r.2 - r.1)) <
      (s.chainShape c.job c.t 0 ws).1))

/-- Code 0x0A. -/
def State.paramBad (s : State) (c : Ctx) : Bool :=
  match c.w.family, s.pset c.w.pset with
  | 7, some p => c.w.kswKind != 3 && p.special == 0
  | 17, some p => p.lweN == 0 || decide (32 < p.pbsBaseLog * p.pbsLevels)
  | 16, some p => c.w.mmode == 2 && decide (p.chain + p.special < c.w.mxRows)
  | 14, _ => (s.program c.job.image c.w.prog).words.any vModular && !c.operands.any (fun p => p.2.desc.recorded)
  | _, _ => false

/-- Code 0x0B. -/
def Ctx.modeBad (c : Ctx) : Bool :=
  c.w.family == Fam.mxp &&
    ((c.w.clip && c.w.mmode != 1) ||
      (c.w.mmode == 1 && decide (47 < c.w.xBits + 1 + mxEb c.w.xform +
        ceilLog2 ((c.view 1).elim 0 (fun v => v.desc.matCols)))))

/-- Ranges of a stage's operands that are no intermediates. -/
def Ctx.outerRanges (c : Ctx) (write : Bool) : List (Nat × Nat) :=
  c.outer.flatMap (fun p => if (if write then c.w.writesAt p.1 else c.w.readsAt p.1) then c.rangesAt p else [])

/-- Two ranges share a byte outside the chain's hold space. -/
def Ctx.clash (c : Ctx) (a b : Nat × Nat) : Bool :=
  let hold := c.chain.elim (0, 0) (fun ch => (ch.base, ch.base + ch.size))
  overlaps a b && !(decide (hold.1 ≤ max a.1 b.1) && decide (min a.2 b.2 ≤ hold.2))

/-- Code 0x0C (R247): outside the hold space, write ranges of two stages overlap, or a later stage writes what an earlier one
reads; FC4's accumulator is excepted. -/
def overlapBad (cs : List Ctx) : Bool :=
  (List.range cs.length).any (fun i => (List.range i).any (fun k =>
    match cs[k]?, cs[i]? with
    | some a, some b =>
      (b.outerRanges true).any (fun r => (a.outerRanges true).any (a.clash r) ||
        (b.w.chain != 4 && (a.outerRanges false).any (a.clash r)))
    | _, _ => false))

/-- The first failing check of a word: its code and, for 0x01, the creation code. `cs` are the chain's stages
(DESIGN CHOICE, log 35). -/
def State.issueCode (s : State) (c : Ctx) (head : Bool) (ws : List MopWord) (cs : List Ctx) : Nat × Nat :=
  let named := c.outer ++ (if head && c.w.chain > 1 then
      (match c.job.view c.t { desc := c.w.hold, off := 0 } with | some v => [(4, v)] | none => []) else [])
  match named.find? (fun p => p.2.desc.code != 0) with
  | some p => (0x01, p.2.desc.code)
  | none =>
    if c.outer.any (fun p => p.2.desc.tileSharded && (p.2.desc.tileShard c.t).isNone) ||
        (match s.groupOf c.job c.w with | some g => !g.members.contains c.t | none => false) then (0x02, 0)
    else if c.operands.any (fun p => !p.2.desc.recorded && (match c.w.positions.getD p.1 .absent with
        | .typed _ => true
        | .result => true
        | _ => false)) then (0x03, 0)
    else if c.outer.any (fun p => decide (p.2.desc.allocSize < 64 * p.2.off + p.2.desc.fullSpan)) then (0x04, 0)
    else if s.outOfPlace c head then (0x05, 0)
    else if c.operands.any (fun p => c.w.writesAt p.1 && p.2.desc.space == 2) then (0x06, 0)
    else if c.operands.any (fun p => c.w.writesAt p.1 && p.2.desc.index) then (0x07, 0)
    else if s.shapeBad c head ws then (0x08, 0)
    else if s.spaceBad c head ws then (0x09, 0)
    else if s.paramBad c then (0x0A, 0)
    else if c.modeBad then (0x0B, 0)
    else if head && overlapBad cs then (0x0C, 0)
    else (0, 0)

/-- The stages of the word or chain at stream position `seq` of a tile. -/
def State.offerCtxs (s : State) (j : Job) (t seq : Nat) (ws : List MopWord) : List Ctx :=
  let ch := s.newChain j t seq ws
  (List.zip (List.range ws.length) ws).map (fun p => j.ctxOf t (seq + p.1) p.2 ch)

/-- The first refusal over the word offered and, for a chain head, the stages behind it: sequence number and codes. -/
def State.refusal (s : State) (j : Job) (t seq : Nat) (ws : List MopWord) : Option (Nat × Nat × Nat) :=
  let cs := s.offerCtxs j t seq ws
  cs.findSome? (fun c =>
    let r := s.issueCode c (decide (c.mop.seq = seq)) ws cs
    if r.1 = 0 then none else some (c.mop.seq, r.1, r.2))

/-! ## Latencies and intervals -/

/-- Latency and interval of a tile-DMA macro-operation: its queue is held until its last request has issued (R348), which
for one that needs translations is known only when the last of them completes (DESIGN CHOICE, log 39). -/
def State.dmaTiming (s : State) (c : Ctx) : Nat × Option Nat :=
  let l := s.dmaLatency c
  (l.1, if emptyList (s.hostRequests c) then some (max 1 (s.issueOf c).ended) else none)

/-- Latency and engine interval of a macro-operation without held cycles; an interval of none holds its engines until
the operation itself frees them. -/
def State.timing (s : State) (c : Ctx) : Nat × Option Nat :=
  let w := c.w
  let pair (x : Nat × Nat) : Nat × Option Nat := (x.1, some x.2)
  match w.family with
  | 7 => match s.pset w.pset, s.groupOf c.job w with
    | some p, some g => (kswLatency w ((c.view 0).elim 1 (fun v => v.level + 1)) (2 ^ g.gsLog) p, none)
    | _, _ => (40, none)
  | 14 =>
    let g := s.program c.job.image w.prog
    match c.chain.bind (fun ch => (ch.inters[0]?).map (fun i => (ch, i))) with
    | some (ch, i) =>
      if ch.kind = 2 ∨ ch.kind = 5 then
        let l := i.vUnits * (vEnd ((ch.base + 4096) :: c.slots.drop 1) g + 16)
        (l, some (l - 17))
      else pair (vTiming c.slots g)
    | none => pair (vTiming c.slots g)
  | 15 => match c.view 0, c.view 2 with
    | some a, some d => pair (vcvtTiming w a d)
    | _, _ => (8, some 1)
  | 16 =>
    match c.chain, c.view 0, c.view 2 with
    | some ch, some x, some y =>
      if ch.kind = 3 ∧ w.cstage = 2 then
        let us := ((ch.inters[0]?).elim 0 Inter.rows) / 32
        let per := x.desc.matRows / max us 1
        let l := 57 + us * mxCycles w.wbits y.matRowsIn.length per y.desc.matCols
        (l, some (l - 41))
      else pair (mxTiming w (s.ringOf c) (c.view 0) (c.view 2))
    | _, _, _ => pair (mxTiming w (s.ringOf c) (c.view 0) (c.view 2))
  | 17 => match s.pset w.pset, c.view 0 with
    | some p, some a =>
      let m := a.matRowsIn.length
      if w.normalises then
        let x := 1 + 99 * ceilDiv ((m - 1) * a.desc.matCols) 768
        let one := { w with imm := w.imm - w.wave * 2 ^ 20 + 2 ^ 20 }
        (pbsLatency one 1 1 p + 2 * x + pbsLatency w (2 * (m - 1)) 1 p + x, none)
      else (pbsLatency w m (s.mvOf c.job w) p, none)
    | _, _ => (40, none)
  | 18 => match s.pset w.pset, c.view 2 with
    | some p, some d => pair (packTiming w d p)
    | _, _ => (24, some 0)
  | 19 => s.dmaTiming c
  | 20 => s.dmaTiming c
  | 21 => s.dmaTiming c
  | 22 => s.dmaTiming c
  | 23 => (8, none)
  | 24 => (8, none)
  | 25 => (8, some 1)
  | 26 => (8, some 1)
  | 27 => match c.view 0, c.view 2 with
    | some a, some d => (s.chkLatency c.t w a d, some 1)
    | _, _ => (40, some 1)
  | 28 => (1, some 1)
  | _ => pair (polyTiming w (s.ringOf c) c.level (c.view 0) (c.view 1) (c.view 2) (s.pset w.pset))

/-- When the first unit of a stage's intermediate completes, counted from its cycle 0; none where that is its
retirement, where it is known only when data arrive, or where no stage follows (R250, R262-R264; DEDUCED, log 36). -/
def State.unitAfterOf (s : State) (c : Ctx) : Option Nat :=
  match c.chain with
  | none => none
  | some ch =>
    let cols := (ch.inters[0]?).elim 0 Inter.cols
    let m := (c.view 0).elim 0 (fun v => v.desc.matRows)
    match ch.kind, c.w.cstage with
    | 2, 0 => some (55 + min 4 (ceilDiv cols 32) * mxCycles c.w.wbits 32 m 32)
    | 5, 0 => some (55 + min 4 (ceilDiv cols 32) * mxCycles c.w.wbits 32 m 32)
    | 3, 0 => some (55 + ceilDiv cols 32 * mxCycles c.w.wbits 32 m 32)
    | 3, 1 =>
      (s.pset c.w.pset).map (fun p =>
        let mv := s.mvOf c.job c.w
        let nr := 2 ^ c.w.ringLog
        let wv := c.w.wave
        let init := wv * (ceilDiv (p.lweN + 1) 128 + nr / 128)
        let rot := p.lweN * (wv * ((2 * p.pbsLevels + 2) * nr * c.w.ringLog / 256) + 64)
        let ex := wv * mv * nr / 128
        let ks := wv * mv * nr * p.pbsLevels * ceilDiv (p.lweN + 1) 128
        6 + ceilDiv 32 (max wv 1) * (init + rot + ex) + ks)
    | 4, 0 =>
      match s.pset c.w.pset, s.groupOf c.job c.w with
      | some p, some g =>
        let rho := (c.view 0).elim 1 (fun v => v.level + 1)
        let ein := ceilDiv rho (2 ^ g.gsLog)
        some (kswWritten c.w rho (2 ^ g.gsLog) p - 2 * ein * p.logN * sOf p.n + p.logN * sOf p.n)
      | _, _ => none
    | 6, 0 => (s.pset c.w.pset).map (kswWritten c.w 1 1)
    | 1, 0 => if c.w.family = Fam.load ∧ emptyList (s.hostRequests c) then some (s.firstGranule c) else none
    | _, _ => none

end Sys2Proof.Machine
end

