-- ==== Sys2Proof/Machine/Schedule.lean ====
section
/-!
DEFINITION. The resilience preamble (13_training_and_resilience, Tables TR.1, TR.3, TR.4) and the schedule engines
(R424-R429).
-/
namespace Sys2Proof.Machine

/-! ## The preamble -/

/-- The first bytes of section 7 of a loaded image: header, factors, guard and schedule entries. -/
def State.preamble (s : State) (p : PrkInfo) : List Byte :=
  s.readZeroed (p.base + (p.section 7).1) (min (p.section 7).2 (0x240 + 16 * 1024 + 96 * 8))

def preGuards (b : List Byte) : Nat := fld b 2 2
def preScheds (b : List Byte) : Nat := fld b 4 1
def preMirrorBase (b : List Byte) : Nat := fld b 8 4
def preMirrorSize (b : List Byte) : Nat := fld b 12 4
def preMirrorMax (b : List Byte) : Nat := fld b 16 4

/-- Bytes of a preamble with its entries. -/
def preSize (b : List Byte) : Nat := 0x240 + 16 * preGuards b + 96 * preScheds b

/-- COS[k]. -/
def preCos (b : List Byte) (k : Nat) : Nat := fld b (0x40 + 2 * k) 2

/-- A guard entry (Table TR.4). -/
structure GuardEntry where
  desc : Nat
  method : Nat
  period : Nat
deriving DecidableEq, Repr

def preGuard (b : List Byte) (k : Nat) : GuardEntry :=
  let o := 0x240 + 16 * k
  { desc := bits (fld b o 2) 11 0, method := fld b (o + 2) 1, period := fld b (o + 4) 2 }

/-- The 96 bytes of schedule entry `k`. -/
def preSched (b : List Byte) (k : Nat) : List Byte := slice b (0x240 + 16 * preGuards b + 96 * k) 96

/-! ## Schedule entries (Table TR.1) -/

structure SchedEntry where
  kind : Nat
  barrier : Nat
  outFrac : Nat
  column : Bool
  neg : Bool
  eta : Nat
  etaMin : Nat
  warmup : Nat
  decay : Nat
  restart : Nat
  stepSize : Nat
  gamma : Nat
  target : Nat
  block : Nat
  pset : Nat
  rowmap : List Nat
deriving DecidableEq, Repr

def SchedEntry.parse (e : List Byte) : SchedEntry :=
  { kind := fld e 0 1, barrier := fld e 1 1, outFrac := fld e 2 1, column := bit (fld e 3 1) 0, neg := bit (fld e 3 1) 1,
    eta := fld e 4 4, etaMin := fld e 8 4, warmup := fld e 12 4, decay := fld e 16 4, restart := fld e 20 4,
    stepSize := fld e 24 4, gamma := fld e 28 4, target := bits (fld e 0x20 2) 11 0, block := bits (fld e 0x22 2) 11 0,
    pset := fld e 0x24 1, rowmap := (List.range 32).map (fun i => fld e (0x28 + i) 1) }

/-- The limits of Table TR.1; a row of COLUMN form names a position of MODULI or the LWE modulus (R38). -/
def SchedEntry.valid (x : SchedEntry) : Bool :=
  decide (x.kind ≤ 4) && decide (x.barrier < 16) && decide (1 ≤ x.outFrac) && decide (x.outFrac ≤ 32) &&
    decide (x.etaMin ≤ x.eta) && (!(x.kind == 1 || x.kind == 2) || decide (1 ≤ x.decay)) &&
    (x.kind != 3 || decide (1 ≤ x.stepSize)) && decide (x.pset < 64) &&
    (!x.column || x.rowmap.all (fun m => decide (m < 96) || m == 0x7F))

/-- The step within the schedule's cycle. -/
def SchedEntry.phase (x : SchedEntry) (s : Nat) : Nat := if x.restart ≠ 0 then s % x.restart else s

/-- The factor F at step S, from the one before it (R427). -/
def SchedEntry.factor (x : SchedEntry) (s f : Nat) : Nat :=
  let t := x.phase s
  let f := if t = 0 then 2 ^ 32 else f
  let d := t - x.warmup
  if t < x.warmup then f
  else if (x.kind = 4 ∧ 0 < d) ∨ (x.kind = 3 ∧ 0 < d ∧ d % x.stepSize = 0) then f * x.gamma % 2 ^ 64 / 2 ^ 32
  else f

/-- The rate h at step S with the factor F of that step (R427). -/
def SchedEntry.value (x : SchedEntry) (cos : Nat → Nat) (s f : Nat) : Nat :=
  let t := x.phase s
  let d := t - x.warmup
  let span := x.eta - x.etaMin
  if t < x.warmup then x.eta * (t + 1) / x.warmup
  else match x.kind with
    | 0 => x.eta
    | 1 => if d < x.decay then x.etaMin + span * (x.decay - d) / x.decay else x.etaMin
    | 2 => if d < x.decay then x.etaMin + span * cos (256 * d / x.decay) / 2 ^ 16 else x.etaMin
    | _ => max x.etaMin (x.eta * f % 2 ^ 64 / 2 ^ 32)

/-- The rate h and the factor F after it, for step S (R427). -/
def SchedEntry.rate (x : SchedEntry) (cos : Nat → Nat) (s f : Nat) : Nat × Nat :=
  (x.value cos s (x.factor s f), x.factor s f)

/-- The output word for a modulus (R428). -/
def SchedEntry.word (x : SchedEntry) (h q : Nat) : Nat :=
  let e := h / 2 ^ (32 - x.outFrac)
  if q = 0 then 0
  else if x.neg then (if e % q = 0 then 0 else q - e % q) else e % q

/-- The words of the output: 128 in TABLE form, 4,096 in COLUMN form (DESIGN CHOICE, log 49). -/
def SchedEntry.output (x : SchedEntry) (p : Option PSet) (h : Nat) : List Byte :=
  match p with
  | none => List.replicate (if x.column then 16384 else 512) 0
  | some p =>
    if x.column then
      x.rowmap.flatMap (fun m => leBytes 4 (x.word h (p.q m)) ++ List.replicate 508 0)
    else
      (List.range 128).flatMap (fun i => leBytes 4
        (if i < p.chain + p.special then x.word h (p.q i)
         else if i = 127 ∧ p.lweN ≠ 0 then x.word h p.lwe.q else 0))

/-! ## The engines -/

/-- Tiles of a die into which an engine writes (R428). -/
def Job.schedTiles (j : Job) (d : Desc) (die : Nat) : List Nat :=
  (j.tileIds.filter (fun t => dieOfTile t == die)).filter (fun t => !d.tileSharded || (d.tileShard t).isSome)

/-- An engine's output for one rate written to the schedule's TARGET on its die's tiles (R428). -/
def State.putSched (j : Job) (e : SchedEntry) (die h : Nat) (s : State) : State :=
  match j.descs[e.target]? with
  | some d =>
    if d.code ≠ 0 then s
    else
      let bs := e.output (s.pset e.pset) h
      (j.schedTiles d die).foldl (fun s t =>
        let a := ({ desc := d, idx := e.target, tile := t, off := 0 } : View).base
        (s.store a bs).noteWrite a (a + bs.length)) s
  | none => s

/-- Every schedule's output as it stands, written again. -/
def State.putScheds (ring : Nat) (s : State) : State :=
  match s.job ring with
  | none => s
  | some j =>
    let b := s.preamble j.image
    j.scheds.foldl (fun s x =>
      let e := SchedEntry.parse (preSched b x.index)
      s.putSched j e x.die (e.value (preCos b) x.s x.f)) s

/-- One engine computes one schedule and writes its output (R427, R428); the engine's S is `x.s` (DESIGN CHOICE, log 49). -/
def State.runSched (ring : Nat) (x : Schedule) (s : State) : State :=
  match s.job ring with
  | none => s
  | some j =>
    let b := s.preamble j.image
    let e := SchedEntry.parse (preSched b x.index)
    let r := e.rate (preCos b) x.s x.f
    let s := s.mapJob ring (fun j => { j with scheds := j.scheds.map (fun y =>
      if y.index == x.index && y.die == x.die then { y with s := x.s, f := r.2 } else y) })
    s.putSched j e x.die r.1

/-- Address of the state block of a schedule. -/
def Job.blockAddr (j : Job) (e : SchedEntry) : Option Nat :=
  match j.descs[e.block]? with
  | some d => if d.code = 0 then some (d.shardBase 0 0) else none
  | none => none

/-- At admission every die's engine reads each state block and computes the output for S (R426; DESIGN CHOICE, log 49). -/
def State.startScheds (ring : Nat) (s : State) : State :=
  match s.job ring with
  | none => s
  | some j =>
    let b := s.preamble j.image
    let all := (List.range (preScheds b)).flatMap (fun k => (List.range 4).map (fun d => (k, d)))
    all.foldl (fun s p =>
      let e := SchedEntry.parse (preSched b p.1)
      let blk := match j.blockAddr e with | some a => s.readZeroed a 16 | none => List.replicate 16 0
      let ok := pairAgrees 32 (fld blk 0 4) (fld blk 4 4)
      let s := if ok then s else s.raise [Err.ofJob .deferred 0x0C 5 p.2 j 0 p.1 0]
      let x : Schedule := { index := p.1, die := p.2, s := if ok then fld blk 0 4 else 0,
                            f := if ok then fld blk 8 8 else 2 ^ 32 }
      (s.mapJob ring (fun j => { j with scheds := j.scheds ++ [x] })).runSched ring x) s

/-- At a resolution of STEP_BARRIER every engine steps its schedules (R426; DESIGN CHOICE, log 49). -/
def State.stepScheds (ring barrier : Nat) (s : State) : State :=
  match s.job ring with
  | none => s
  | some j =>
    let b := s.preamble j.image
    let mine := j.scheds.filter (fun x => (SchedEntry.parse (preSched b x.index)).barrier == barrier)
    let s := s.count .schedSteps 0 (mine.filter (fun x => x.die == 0)).length
    mine.foldl (fun s x => s.runSched ring { x with s := (x.s + 1) % 2 ^ 32 }) s

/-- When the job completes, the state blocks are written back (R426). -/
def State.endScheds (ring : Nat) (s : State) : State :=
  match s.job ring with
  | none => s
  | some j =>
    let b := s.preamble j.image
    (j.scheds.filter (fun x => x.die == 0)).foldl (fun s x =>
      match j.blockAddr (SchedEntry.parse (preSched b x.index)) with
      | some a => s.store a (leBytes 4 x.s ++ leBytes 4 (complement 32 x.s) ++ leBytes 8 x.f)
      | none => s) s

end Sys2Proof.Machine
end

