-- ==== Sys2Proof/Machine/Loaders.lean ====
section
/-!
DEFINITION. The loaders of parameter sets (02_ciphertext_records, R38-R51) and of prickings (09_macro_operations, R292-R302):
parameter blocks with the checks of Table CT.4, images with the checks of Table OP.16, and the load commands.
-/
namespace Sys2Proof.Machine

/-! ## Parameter blocks -/

/-- A modulus entry (Table CT.3). -/
def Modulus.parse (b : List Byte) : Modulus :=
  { q := fld b 0 4, root := fld b 4 4, w := fld b 8 1, c := fld b 9 1, u := fld b 10 1, scaleStep := fld b 12 2 }

/-- The 16 bytes of entry `i` of MODULI. -/
def modulusBytes (b : List Byte) (i : Nat) : List Byte := slice b (0x80 + 16 * i) 16

/-- The fields of a parameter block (Table CT.2). -/
def PSet.parse (b : List Byte) : PSet :=
  { logN := fld b 2 1, chain := fld b 3 1, special := fld b 4 1, dnum := fld b 5 1, lweN := fld b 6 2,
    noiseLimit := fld b 8 2, postPbs := fld b 0xA 2, postRlwe := fld b 0xC 2, pbsLevels := fld b 0xE 1,
    pbsBaseLog := fld b 0xF 1, domainSep := slice b 0x10 16, lwe := Modulus.parse (slice b 0x20 16),
    noiseInc := (List.range 32).map (fun i => signed 16 (fld b (0x40 + 2 * i) 2)),
    moduli := (List.range (min 96 (fld b 3 1 + fld b 4 1))).map (fun i => Modulus.parse (modulusBytes b i)) }

/-- R35 and R36: the form of a modulus, recomputed from w, c and u. -/
def Modulus.formOk (m : Modulus) : Bool :=
  decide (28 ≤ m.w) && decide (m.w ≤ 32) && m.c % 2 == 1 && decide (m.c ≤ 15) && decide (18 ≤ m.u) &&
    decide (m.u + 4 ≤ m.w) && m.q + m.c * 2 ^ m.u == 2 ^ m.w + 1 && decide (m.q < 2 ^ 32)

/-- Check 0x03. -/
def PSet.shapeOk (p : PSet) : Bool :=
  decide (10 ≤ p.logN) && decide (p.logN ≤ 17) && decide (1 ≤ p.chain) && decide (p.chain ≤ 80) &&
    decide (p.special ≤ 16) && decide (1 ≤ p.dnum) && decide (p.dnum ≤ 8) &&
    (if p.lweN = 0 then p.pbsLevels == 0 && p.pbsBaseLog == 0
     else decide (256 ≤ p.lweN) && decide (p.lweN ≤ 2048) && p.lweN % 64 == 0 && decide (1 ≤ p.pbsLevels) &&
       decide (p.pbsLevels ≤ 8) && decide (1 ≤ p.pbsBaseLog) && decide (p.pbsBaseLog ≤ 16))

/-- Check 0x04. -/
def PSet.dnumOk (p : PSet) : Bool :=
  decide (p.dnum ≤ p.chain) && (p.special == 0 || decide (ceilDiv p.chain p.dnum ≤ p.special))

/-- Check 0x05. -/
def PSet.formOk (p : PSet) (b : List Byte) : Bool :=
  let zero (l : List Byte) : Bool := l.all (· == 0)
  p.moduli.all (·.formOk) && (if p.lweN = 0 then zero (slice b 0x20 16) else p.lwe.formOk) &&
    (List.range 96).all (fun i => decide (i < p.chain + p.special) || zero (modulusBytes b i))

/-- Check 0x08: the product of the other moduli is invertible. -/
def PSet.coprime (p : PSet) : Bool :=
  (List.range p.moduli.length).all (fun i =>
    Nat.gcd (product ((p.moduli.eraseIdx i).map (·.q))) (p.q i) == 1)

/-- The block checks of Table CT.4 in their order; 0x00 where all pass (R42). -/
def blockCode (b : List Byte) : Nat :=
  let p := PSet.parse b
  if !crcAgrees b 2048 then 0x01
  else if fld b 0 2 ≠ 0xC7F2 then 0x02
  else if !p.shapeOk then 0x03
  else if !p.dnumOk then 0x04
  else if !p.formOk b then 0x05
  else if p.moduli.any (fun m => (m.q - 1) % (2 * p.n) != 0) then 0x06
  else if p.moduli.any (fun m => powMod m.root (2 ^ 17) m.q != m.q - 1) then 0x07
  else if !p.coprime then 0x08
  else if p.noiseLimit = 0 ∨ p.noiseLimit < p.postPbs ∨ p.noiseLimit < p.postRlwe then 0x09
  else 0x00

/-! ## Loader registers -/

/-- A write to PSET_CTRL or PRK_CTRL (R44-R46): none where it is discarded (DESIGN CHOICE, log 15). -/
def Loader.control (l : Loader) (v indexBits : Nat) : Option Loader :=
  let index := v % 2 ^ indexBits
  if bit v 8 && bit v 9 then none
  else if bit v 8 || bit v 9 then
    if l.op.isSome then none
    else some { l with index := index, op := some { load := bit v 8, index := index, addr := l.addr.toNat } }
  else some { l with index := index }

/-- The end of a load or unload: BUSY falls, CODE, INDEX and DETAIL are written together (R46; DESIGN CHOICE, log 15). -/
def Loader.finish (l : Loader) (index code detail : Nat) : Loader :=
  { l with op := none, code := code, lastIndex := index, detail := detail }

/-- A write to PSET_CTRL. -/
def State.writePsetCtrl (q : Requester) (v : Nat) (s : State) : State :=
  match s.psetLoader.control v 6 with
  | some l => { s with psetLoader := l }
  | none => s.discard q 0x010108 v

/-- A write to PRK_CTRL. -/
def State.writePrkCtrl (q : Requester) (v : Nat) (s : State) : State :=
  match s.prkLoader.control v 4 with
  | some l => { s with prkLoader := l }
  | none => s.discard q 0x010208 v

/-- PSET_LOAD: a write of PSET_CTRL with LOAD. -/
def execPsetLoad (q : Requester) (index : Nat) (s : State) : Out :=
  .next (s.unlatch.gated q 0x010108 (State.writePsetCtrl q (index % 64 + 0x100)))

/-- PSET_UNLOAD: a write of PSET_CTRL with UNLOAD. -/
def execPsetUnload (q : Requester) (index : Nat) (s : State) : Out :=
  .next (s.unlatch.gated q 0x010108 (State.writePsetCtrl q (index % 64 + 0x200)))

/-- PRK_LOAD: a write of PRK_CTRL with LOAD. -/
def execPrkLoad (q : Requester) (index : Nat) (s : State) : Out :=
  .next (s.unlatch.gated q 0x010208 (State.writePrkCtrl q (index % 16 + 0x100)))

/-- PRK_UNLOAD: a write of PRK_CTRL with UNLOAD. -/
def execPrkUnload (q : Requester) (index : Nat) (s : State) : Out :=
  .next (s.unlatch.gated q 0x010208 (State.writePrkCtrl q (index % 16 + 0x200)))

/-- A parameter set is held by a job (R49). -/
def State.psetHeld (s : State) (k : Nat) : Bool := s.jobs.any (fun j => bit j.image.psetRef.toNat k)

/-- Result of a parameter-set load or unload: its code, and what the index then holds (DESIGN CHOICE, log 15). -/
def State.psetOutcome (s : State) (o : LoadOp) : Nat × Option PSet :=
  let old := s.pset o.index
  if s.psetHeld o.index then (0x10, old)
  else if o.load then
    if old.isSome then (0x11, old)
    else
      let b := s.readZeroed o.addr 2048
      let code := blockCode b
      (code, if code = 0 then some (PSet.parse b) else none)
  else if old.isNone then (0x12, none)
  else (0x00, none)

/-- PSET_LOAD_COMPLETE (R42, R46-R49; DESIGN CHOICE, log 73). -/
def execPsetLoadComplete (s : State) : Out :=
  match s.psetLoader.op with
  | none => .next s
  | some o =>
    let r := s.psetOutcome o
    .next { s with psets := Tab.put s.psets o.index r.2, psetLoader := s.psetLoader.finish o.index r.1 0 }

/-! ## Pricking images -/

/-- The header of an image (Table OP.9). -/
def PrkInfo.parse (base : Nat) (h : List Byte) : PrkInfo :=
  { base := base, bindings := fld h 3 1, tiles := fld h 8 2, descs := fld h 0xA 2, groups := fld h 0xC 2,
    tables := fld h 0xE 2, vprogs := fld h 0x10 2, psetRef := BitVec.ofNat 64 (fld h 0x18 8), imageSize := fld h 0x20 4,
    sections := (List.range 8).map (fun k => (fld h (0x40 + 16 * k) 4, fld h (0x44 + 16 * k) 4)) }

/-- Bytes of an image. -/
def State.image (s : State) (p : PrkInfo) (off n : Nat) : List Byte := s.readZeroed (p.base + off) n

/-- The lowest image offset of a failing item; an item is its offset and whether it fails (DESIGN CHOICE, log 16). -/
def firstFailing (l : List (Nat × Bool)) : Option Nat :=
  l.foldl (fun best x =>
    if x.2 then (match best with | some o => some (min o x.1) | none => some x.1) else best) none

/-- Code 0x01. -/
def State.imageSound (s : State) (p : PrkInfo) (h : List Byte) : Bool :=
  crcAgrees h 256 &&
    (List.range 8).all (fun k =>
      crc32c (s.image p (p.section k).1 (p.section k).2) == fld h (0x48 + 16 * k) 4)

/-- FEAT (Table OP.15). -/
def featBits : Nat := 0x7FF

/-- Tile entries of an image (Table OP.10), with their image offsets. -/
def State.tileEntries (s : State) (p : PrkInfo) : List (Nat × TileEntry) :=
  (List.range p.tiles).map (fun i =>
    let o := (p.section 0).1 + 16 * i
    let b := s.image p o 16
    (o, { tile := fld b 0 2, stream := fld b 4 4, words := fld b 8 4, segCrc := fld b 12 4 }))

/-- Members of barrier `b` (Table SQ.7). -/
def State.barrierMembers (s : State) (p : PrkInfo) (b : Nat) : List Nat :=
  let m := leNat (s.image p ((p.section 5).1 + 32 * b) 26)
  (List.range 208).filter (bit m)

/-- A barrier whose members are the tiles with tile entries. -/
def State.isDeviceWide (s : State) (p : PrkInfo) (b : Nat) : Bool :=
  let ts := (s.tileEntries p).map (fun e => e.2.tile)
  s.barrierMembers p b == (List.range 208).filter ts.contains

/-- SPACE of descriptor template `d`. -/
def State.templateSpace (s : State) (p : PrkInfo) (d : Nat) : Nat := fld (s.image p ((p.section 1).1 + 192 * d + 4) 1) 0 1

/-- The sizes that the counts require of a section. -/
def PrkInfo.sizeOk (p : PrkInfo) (k n : Nat) : Bool :=
  match k with
  | 0 => n == 16 * p.tiles
  | 1 => n == 192 * p.descs
  | 2 => n == 256 * p.groups
  | 3 => n == 4112 * p.tables
  | 4 => decide (4 * p.vprogs ≤ n)
  | 5 => n == 512
  | 6 => decide (32 ≤ n)
  | _ => decide (0x240 ≤ n)

/-- A section lies where it may; of two that overlap the later fails. -/
def PrkInfo.placeOk (p : PrkInfo) (k : Nat) : Bool :=
  let x := p.section k
  x.2 == 0 || (x.1 % 64 == 0 && decide (256 ≤ x.1) && decide (x.1 + x.2 ≤ p.imageSize) &&
    (List.range k).all (fun j =>
      let y := p.section j
      y.2 == 0 || decide (y.1 + y.2 ≤ x.1) || decide (x.1 + x.2 ≤ y.1)))

/-- A guard entry keeps Table TR.4. -/
def State.guardOk (s : State) (p : PrkInfo) (g : GuardEntry) : Bool :=
  decide (g.desc < p.descs) && decide (g.method ≤ 2) && decide (1 ≤ g.period) &&
    (g.method != 0 || s.templateSpace p g.desc == 0)

/-- A schedule entry keeps Table TR.1; where its set is valid, its rows name moduli of that set. -/
def State.schedOk (s : State) (p : PrkInfo) (x : SchedEntry) : Bool :=
  x.valid && (!x.column || (s.pset x.pset).elim true (fun k =>
    x.rowmap.all (fun m => decide (m < k.chain + k.special) || m == 0x7F))) && s.isDeviceWide p x.barrier && decide (x.target < p.descs) && s.templateSpace p x.target == 0 &&
    decide (x.block < p.descs) && s.templateSpace p x.block == 1

/-- Items of the resilience preamble (R432). -/
def State.preambleItems (s : State) (p : PrkInfo) : List (Nat × Bool) :=
  let o := (p.section 7).1
  let b := s.preamble p
  let whole := decide (preGuards b ≤ 1024) && decide (preScheds b ≤ 8)
  [(o, fld b 0 2 != 0xC7FA), (o + 2, decide (1024 < preGuards b)), (o + 4, decide (8 < preScheds b)),
   (o + 8, preMirrorBase b % 4096 != 0),
   (o + 12, preMirrorSize b % 4096 != 0 || decide (controlPage < preMirrorBase b + preMirrorSize b)),
   (0x40 + 16 * 7, whole && decide ((p.section 7).2 < preSize b))] ++
  (if whole then
    (List.range (preGuards b)).map (fun k => (o + 0x240 + 16 * k, !s.guardOk p (preGuard b k))) ++
    (List.range (preScheds b)).map (fun k =>
      (o + 0x240 + 16 * preGuards b + 96 * k, !s.schedOk p (SchedEntry.parse (preSched b k))))
   else [])

/-- Items of code 0x21. -/
def State.countItems (s : State) (p : PrkInfo) : List (Nat × Bool) :=
  [(0x03, decide (64 < p.bindings)), (0x08, p.tiles == 0 || decide (208 < p.tiles)), (0x0A, decide (4095 < p.descs)),
   (0x0C, decide (256 < p.groups)), (0x0E, decide (256 < p.tables))] ++
  (List.range 8).map (fun k => (0x40 + 16 * k, !(p.sizeOk k (p.section k).2 && p.placeOk k))) ++
  s.preambleItems p

/-- [lo, lo + n) lies within section 6. -/
def PrkInfo.inStreams (p : PrkInfo) (lo n : Nat) : Bool :=
  decide ((p.section 6).1 ≤ lo) && decide (lo + n ≤ (p.section 6).1 + (p.section 6).2)

/-- Items of code 0x22. -/
def State.tileItems (s : State) (p : PrkInfo) : List (Nat × Bool) :=
  let es := s.tileEntries p
  (List.zip (List.range es.length) es).map (fun x =>
    let e := x.2.2
    (x.2.1, !(decide (e.tile < 208) && (es.take x.1).all (fun y => y.2.tile != e.tile) && decide (1 ≤ e.words) &&
      e.stream % 32 == 0 && p.inStreams e.stream (32 * e.words) && p.inStreams e.segCrc (4 * ceilDiv e.words 4096))))

/-- A word of a stream: its image offset, its tile, its place in the stream. -/
structure StreamWord where
  off : Nat
  tile : Nat
  pos : Nat
  w : MopWord
deriving DecidableEq, Repr

/-- Every word of every stream. -/
def State.allWords (s : State) (p : PrkInfo) : List StreamWord :=
  (s.tileEntries p).flatMap (fun e => (List.range e.2.words).map (fun i =>
    { off := e.2.stream + 32 * i, tile := e.2.tile, pos := i, w := MopWord.parse (s.image p (e.2.stream + 32 * i) 32) }))

/-- An operand position holds a descriptor exactly where Table OP.3 has one (R273). -/
def MopWord.positionsOk (w : MopWord) : Bool :=
  (List.zip w.positions w.opnds).all (fun x =>
    match x.1 with
    | .absent => x.2.isNone
    | _ => w.family == Fam.vprog || !x.2.isNone)

/-- The checks of code 0x24 that one word passes by itself. -/
def MopWord.wordOk (w : MopWord) (p : PrkInfo) : Bool :=
  w.assigned && engineCode w.family == some w.engine && w.chain != 7 &&
    w.opnds.all (fun o => o.isNone || decide (o.desc < p.descs)) && w.positionsOk &&
    (!w.usesPset || bit p.psetRef.toNat w.pset)

/-- BARs of a tile that name a barrier. -/
def barCount (ws : List StreamWord) (tile barrier : Nat) : Nat :=
  (ws.filter (fun x => x.tile == tile && x.w.opcode == 0x11A && x.w.immBits 3 0 == barrier)).length

def StreamWord.isSend (x : StreamWord) : Bool := x.w.opcode == 0x117

/-- R356: whether a SEND or RECV fails. -/
def StreamWord.shuttleBad (x : StreamWord) (tiles : List Nat) (ws : List StreamWord) : Bool :=
  if x.isSend then
    !tiles.contains x.w.peer || x.w.peer == x.tile || ws.any (fun y =>
      y.isSend && y.tile != x.tile && y.w.peer == x.w.peer && y.w.queue == x.w.queue && decide (y.off ≤ x.off))
  else if x.w.opcode = 0x118 then
    !tiles.contains x.w.peer || x.w.peer == x.tile || !ws.any (fun y =>
      y.isSend && y.tile == x.w.peer && y.w.peer == x.tile && y.w.queue == x.w.queue)
  else false

/-- Items of code 0x24 (DESIGN CHOICE, log 16). -/
def State.wordItems (s : State) (p : PrkInfo) (ws : List StreamWord) : List (Nat × Bool) :=
  let tiles := (s.tileEntries p).map (fun e => e.2.tile)
  ws.map (fun x => (x.off, !x.w.wordOk p || x.shuttleBad tiles ws ||
    (x.w.opcode == 0x11A && !(s.barrierMembers p (x.w.immBits 3 0)).contains x.tile))) ++
  (List.range 16).map (fun b =>
    let ms := s.barrierMembers p b
    ((p.section 5).1 + 32 * b, ms.any (fun t => !tiles.contains t) || !allEqual (ms.map (fun t => barCount ws t b))))

/-- g is odd and below 2N. -/
def galoisOk (g : Nat) (p : Option PSet) : Bool := g % 2 == 1 && (match p with | some p => decide (g < 2 * p.n) | none => false)

/-- The immediates of a word (code 0x25) that fail. -/
def State.immBad (s : State) (p : PrkInfo) (w : MopWord) : Bool :=
  let set := s.pset w.pset
  match w.family with
  | 2 => w.immBits 1 0 == 3 || (w.immBits 1 0 != 2 && !galoisOk w.galois set)
  | 3 => (match set with | some x => decide (x.n ≤ w.immBits 16 0) | none => true)
  | 4 => (match set with | some x => decide (x.dnum ≤ w.immBits 2 0) | none => true)
  | 7 => w.kswKind == 0 || (if w.kswKind = 2 then !galoisOk w.kswGalois set else w.kswGalois != 0) ||
      !stageOk w.kswKind w.kswStage || decide (p.groups ≤ w.kswGroup)
  | 14 => decide (p.vprogs ≤ w.prog) || (s.program p w.prog).words.any (fun v => vMem v && (w.opnd (vSlot v)).isNone)
  | 15 => decide (9 < w.srcFmt)
  | 16 => w.mmode == 3 || !mxPairOk w.wbits w.xform || (w.mmode == 1 && decide (3 < w.outFmt)) ||
      (w.mmode == 2 && (w.mxRows == 0 || decide (96 < w.mxRows)))
  | 17 => decide (p.groups ≤ w.pbsGroup) || (s.groupEntry p w.pbsGroup).gsLog != 0 || decide (w.ringLog < 9) ||
      decide (12 < w.ringLog) || w.wave == 0 || decide (16 < w.wave) || decide (p.tables ≤ w.pbsTable) ||
      (let b := s.tableBlock p w.pbsTable
       decide (2 ^ w.ringLog < b.mv * 2 ^ (b.p + 1)))
  | 27 => w.immBits 4 3 == 3
  | _ => false

/-- Items of code 0x25. -/
def State.immItems (s : State) (p : PrkInfo) (ws : List StreamWord) : List (Nat × Bool) :=
  ws.map (fun x => (x.off, s.immBad p x.w))

/-- The opcode and mode of a stage (Table FC.1). -/
def stageFits (kind stage : Nat) (w : MopWord) : Bool :=
  let mxp (m : Nat) : Bool := w.family == Fam.mxp && w.mmode == m
  match kind, stage with
  | 1, 0 => w.family == Fam.load || w.family == Fam.recv
  | 1, _ => [8, 9, 10, 11, 12, 13, 14].contains w.family || mxp 0 || mxp 1
  | 2, 0 => mxp 0
  | 2, _ => w.family == Fam.vprog
  | 3, 0 => mxp 0
  | 3, 2 => mxp 0
  | 3, _ => w.family == Fam.pbs
  | 4, 0 => w.family == Fam.ksw && w.kswKind == 2
  | 4, _ => w.family == Fam.auto && w.immBits 1 0 == 1
  | 5, 0 => mxp 1
  | 5, _ => w.family == Fam.vprog
  | 6, 0 => w.family == Fam.ksw && w.kswKind == 3
  | _, _ => w.family == Fam.pbs

/-- What a stage owes to the other stages of its run (R245, R265). -/
def State.stageAgrees (s : State) (p : PrkInfo) (head w : MopWord) (second : Option MopWord) (stage : Nat) : Bool :=
  let group (k : Nat) : GroupEntry := s.groupEntry p k
  match head.chain, stage with
  | 3, 1 => (group w.pbsGroup).gsLog == 0
  | 3, 3 => (group w.pbsGroup).gsLog == 0 &&
      (match second with | some x => (group x.pbsGroup).members == (group w.pbsGroup).members | none => true)
  | 4, 1 => w.galois == head.kswGalois
  | 6, 0 => (group w.kswGroup).gsLog == 0
  | 6, 1 => w.wave == 1 && (group w.pbsGroup).members == (group head.kswGroup).members
  | _, _ => true

/-- Items of a run of a chain that opens at word `i` of a stream: the head where the run itself is wrong, else the stage. -/
def State.runItems (s : State) (p : PrkInfo) (st : List StreamWord) (i : Nat) (x : StreamWord) : List (Nat × Bool) :=
  let run := chainGo x.w.chain 4 0 (fun k => (st[i + k]?).map (·.w))
  if !(stageCounts x.w.chain).contains run.length then [(x.off, true)]
  else (List.zip (List.range run.length) run).map (fun y =>
    (x.off + 32 * y.1, !(stageFits x.w.chain y.1 y.2) || (y.1 != 0 && y.2.issue != 0) ||
      (y.2.family == Fam.ksw && y.2.kswStage != 0) || !s.stageAgrees p x.w y.2 run[1]? y.1))

/-- The words of one stream, split into runs of chains. -/
def State.streamRuns (s : State) (p : PrkInfo) (st : List StreamWord) : Nat → Nat → List (Nat × Bool)
  | 0, _ => []
  | f + 1, i =>
    match st[i]? with
    | none => []
    | some x =>
      if x.w.chain = 0 then State.streamRuns s p st f (i + 1)
      else
        let n := (chainGo x.w.chain 4 0 (fun k => (st[i + k]?).map (·.w))).length
        s.runItems p st i x ++ State.streamRuns s p st f (i + max 1 n)

/-- Items of code 0x26 (DESIGN CHOICE, log 16). -/
def State.chainItems (s : State) (p : PrkInfo) (ws : List StreamWord) : List (Nat × Bool) :=
  (s.tileEntries p).flatMap (fun e =>
    let st := ws.filter (fun x => x.tile == e.2.tile)
    s.streamRuns p st st.length 0)

/-- Items of codes 0x27 and 0x28. -/
def State.groupItems (s : State) (p : PrkInfo) : List (Nat × Bool) :=
  (List.range p.groups).map (fun g => ((p.section 2).1 + 256 * g, !(s.groupEntry p g).valid))
def State.tableItems (s : State) (p : PrkInfo) : List (Nat × Bool) :=
  (List.range p.tables).map (fun t => ((p.section 3).1 + 4112 * t, !(s.tableBlock p t).valid))

/-- A program is valid (R144, R145, R240). -/
def Program.valid (g : Program) : Bool :=
  decide (1 ≤ g.words.length) && decide (g.words.length ≤ 64) && g.rowmap.all rowEntryOk &&
    g.words.all (fun w => vValid w && (vOp w != 0x21 || vSlot w == 2))

/-- Items of code 0x29. -/
def State.vprogItems (s : State) (p : PrkInfo) : List (Nat × Bool) :=
  let sec := p.section 4
  (List.range p.vprogs).map (fun k =>
    let off := leNat (s.image p (sec.1 + 4 * k) 4)
    let n := fld (s.image p (sec.1 + off + 0x20) 1) 0 1
    if decide (off + 0x40 ≤ sec.2) && decide (off + 0x40 + 4 * n ≤ sec.2) then
      (sec.1 + off, !(s.program p k).valid)
    else (sec.1 + 4 * k, true))

/-- The first code of a list whose items fail, with the offset of the first failing item. -/
def firstCode : List (Nat × Option Nat) → Nat × Nat
  | [] => (0, 0)
  | (c, some o) :: _ => (c, o)
  | (_, none) :: l => firstCode l

/-- Codes 0x20 to 0x29 in ascending order (R301; DESIGN CHOICE, log 16). -/
def State.imageChecks (s : State) (p : PrkInfo) (h : List Byte) : Nat × Nat :=
  let early := firstCode
    [(0x20, if (List.range 32).any (fun i => bit (fld h 4 4) i && !bit featBits i) then some 4 else none),
     (0x21, firstFailing (s.countItems p))]
  if early.1 ≠ 0 then early
  else
    let tiles := firstCode
      [(0x22, firstFailing (s.tileItems p)),
       (0x23, if (List.range 64).any (fun k => bit p.psetRef.toNat k && (s.pset k).isNone) then some 0x18 else none)]
    if tiles.1 ≠ 0 then tiles
    else
      let ws := s.allWords p
      firstCode
        [(0x24, firstFailing (s.wordItems p ws)), (0x25, firstFailing (s.immItems p ws)),
         (0x26, firstFailing (s.chainItems p ws)), (0x27, firstFailing (s.groupItems p)),
         (0x28, firstFailing (s.tableItems p)), (0x29, firstFailing (s.vprogItems p))]

/-- The load checks of an image (R301): code and detail. -/
def State.imageCode (s : State) (p : PrkInfo) (h : List Byte) : Nat × Nat :=
  if !s.imageSound p h then (0x01, 0)
  else if fld h 0 2 ≠ 0xC7F6 ∨ fld h 2 1 ≠ 1 then (0x02, 0)
  else s.imageChecks p h

/-- Codes 0x25 and 0x28 against the sets now valid (R302); 0 where both pass. -/
def State.recheckCode (s : State) (p : PrkInfo) : Nat :=
  (firstCode [(0x25, firstFailing (s.immItems p (s.allWords p))), (0x28, firstFailing (s.tableItems p))]).1

def State.pricking (s : State) (k : Nat) : Option PrkInfo := Tab.at s.prks none k

/-- Result of a pricking load or unload: code, detail, and what the index then holds (DESIGN CHOICE, log 15). -/
def State.prkOutcome (s : State) (o : LoadOp) : Nat × Nat × Option PrkInfo :=
  let old := s.pricking o.index
  if s.jobs.any (fun j => j.prk == o.index) then (0x10, 0, old)
  else if o.load then
    if old.isSome then (0x11, 0, old)
    else
      let h := s.readZeroed o.addr 256
      let p := PrkInfo.parse o.addr h
      let r := s.imageCode p h
      (r.1, r.2, if r.1 = 0 then some p else none)
  else if old.isNone then (0x12, 0, none)
  else (0x00, 0, none)

/-- PRK_LOAD_COMPLETE (R298-R301). -/
def execPrkLoadComplete (s : State) : Out :=
  match s.prkLoader.op with
  | none => .next s
  | some o =>
    let r := s.prkOutcome o
    .next { s with prks := Tab.put s.prks o.index r.2.2, prkLoader := s.prkLoader.finish o.index r.1 r.2.1 }

end Sys2Proof.Machine
end

