-- ==== Sys2Proof/Machine/Admit.lean ====
section
/-!
DEFINITION. The admission conditions (03_tile, Table TL.3; 08_fused_chains, R248, R249) and the counting of the cycles in which
an offered macro-operation waits (R305).
-/
namespace Sys2Proof.Machine

/-! ## Tile time -/

/-- A tile's cycle counter moved forward to a cycle; the cycles draw core tokens (R465), and count as active while the tile
belongs to a job. -/
def State.tileAt (t cycle : Nat) (s : State) : State :=
  let n := cycle - (s.tile t).cycle
  let s := s.runCycles t n
  let s := if (s.tile t).job.isSome then s.count .tileActiveCycles t n else s
  s.mapTile t (fun u => { u with cycle := u.cycle + n })

/-! ## Ranges (R96) -/

/-- The scoreboard entries of a stage: its operands' ranges outside the hold space. -/
def Ctx.entries (c : Ctx) : List ByteRange :=
  c.outer.flatMap (fun p =>
    (c.rangesAt p).map (fun r => { lo := (round64 r).1, hi := (round64 r).2, write := c.w.writesAt p.1 }))

/-- The positions one of whose read ranges touches a marked granule (R58). -/
def State.marksOf (s : State) (c : Ctx) : List Nat :=
  (c.outer.filter (fun p => c.w.readsAt p.1 && (c.rangesAt p).any (fun r =>
    (granulesOf c.t (round64 r).1 (round64 r).2).any (s.tile c.t).marks.contains))).map (·.1)

/-- The entry of a chain's hold space, a write range (R249). -/
def ChainRun.entry (ch : ChainRun) : List ByteRange :=
  if ch.size = 0 then [] else [{ lo := ch.base / 64 * 64, hi := ceilDiv (ch.base + ch.size) 64 * 64, write := true }]

/-- Every entry a tile's scoreboard holds. -/
def Tile.entries (u : Tile) : List ByteRange := u.window.flatMap (·.ranges) ++ u.chains.flatMap ChainRun.entry

/-- The entries that what is offered needs. -/
def offeredEntries (cs : List Ctx) : List ByteRange :=
  cs.flatMap Ctx.entries ++ (match cs with
    | c :: _ => (match c.chain with | some ch => ch.entry | none => [])
    | [] => [])

/-- Two entries conflict (R97). -/
def ByteRange.conflicts (a b : ByteRange) : Bool :=
  decide (a.lo < b.hi) && decide (b.lo < a.hi) && (a.write || b.write)

/-! ## Conditions -/

/-- Window slots of a word: a BAR counts as 80 (R376). -/
def MopWord.slots (w : MopWord) : Nat := if w.family = Fam.bar then 80 else 1

/-- The first of the Window, Entries and Ranges conditions that fails (DEDUCED, log 34). -/
def Tile.staticBlock (u : Tile) (cs : List Ctx) : Option Ctr :=
  let es := offeredEntries cs
  if 80 < total (u.window.map (fun m => m.word.slots)) + total (cs.map (fun c => c.w.slots)) then some .admitWaitWindow
  else if 256 < u.entries.length + es.length then some .admitWaitEntries
  else if es.any (fun a => u.entries.any a.conflicts) then some .admitWaitRanges
  else none

/-- The first admission cycle that the engines allow: each stage's engines that no earlier stage uses; none while one of
them is held (DEDUCED, log 34, log 75). -/
def Tile.engineCycle (u : Tile) (cs : List Ctx) : Option Nat :=
  (List.zip (List.range cs.length) cs).foldl (fun acc p =>
    p.2.w.engines.foldl (fun acc e =>
      if (cs.take p.1).any (fun c => c.w.engines.contains e) then acc
      else match acc, Tab.at u.engines (some 0) e with
        | some a, some x => some (max a x)
        | _, _ => none) acc) (some 0)

/-- A chain head waits while two chains of the tile are in flight (DEDUCED, log 34). -/
def Tile.chainBlock (u : Tile) (cs : List Ctx) : Bool :=
  (match cs with | c :: _ => c.w.chain != 0 | [] => false) && decide (2 ≤ u.chains.length)

/-- What a tile's offered word opens: itself or, for a chain head, every stage. -/
def State.offered (s : State) (t : Nat) : List Ctx :=
  match (s.tile t).offer, (s.tile t).job, (s.tile t).entry with
  | some o, some r, some e =>
    match s.job r with
    | some j => s.offerCtxs j t ((s.tile t).next - 1) (s.chainWords t e ((s.tile t).next - 1) o.word)
    | none => []
  | _, _, _ => []

/-- Waiting cycles counted up to a cycle, each under the first condition that fails (R305). Cycles in which every
condition holds are left to the admission. -/
def State.accountWait (t upto : Nat) (s : State) : State :=
  match (s.tile t).offer with
  | none => s
  | some o =>
    if upto ≤ o.counted then s
    else
      let cs := s.offered t
      let put (n : Nat) (s : State) : State := s.mapTile t (fun u => { u with offer := some { o with counted := n } })
      match (s.tile t).staticBlock cs with
      | some k => put upto (s.count k t (upto - o.counted))
      | none =>
        match (s.tile t).engineCycle cs with
        | none => put upto (s.count .admitWaitEngine t (upto - o.counted))
        | some x =>
          let e := min upto (max o.counted x)
          let s := s.count .admitWaitEngine t (e - o.counted)
          if (s.tile t).chainBlock cs then put upto (s.count .fcAdmitWaitChain t (upto - e)) else put e s

end Sys2Proof.Machine
end

