-- ==== Sys2Proof/Machine/Retire.lean ====
section
/-!
DEFINITION. The end of a macro-operation (03_tile): retirement (R94, R100-R102) and abort (R112-R114, R182, R209, R257, R330),
as operations that the sequencer, the Shuttle unit, cancellation and recovery share.
-/
namespace Sys2Proof.Machine

/-! ## Engines (Tables TL.3, OP.2) -/

/-- Each engine of a macro-operation that it still holds accepts its next admission from a cycle on, unless a later stage of
its chain takes it (DEDUCED, log 75). -/
def State.freeEngines (c : Ctx) (cycle : Nat) (s : State) : State :=
  c.w.engines.foldl (fun s e =>
    if (s.tile c.t).window.any (fun m => decide (c.mop.seq < m.seq) && m.word.engines.contains e) then s
    else match Tab.at (s.tile c.t).engines (some 0) e with
      | none => s.setEngine c.t e (some cycle)
      | some _ => s) s

/-- Held cycles hold an engine's whole pipeline and delay its next start (R86, R181, R207, R253): a later macro-operation that
shares an engine and has been admitted already starts that much later, and so does the next admission (DEDUCED, log 75). -/
def State.delayEngines (c : Ctx) (held : Nat) (s : State) : State :=
  let s := s.mapTile c.t (fun u => { u with window := u.window.map (fun m =>
    if c.mop.seq < m.seq ∧ c.w.engines.any m.word.engines.contains then
      { m with start := m.start.map (· + held) }
    else m) })
  c.w.engines.foldl (fun s e =>
    match Tab.at (s.tile c.t).engines (some 0) e with
    | some x => s.setEngine c.t e (some (x + held))
    | none => s) s

/-! ## Ranges of a macro-operation, exact -/

/-- Data and record ranges written. -/
def Ctx.writeRanges (c : Ctx) : List (Nat × Nat) :=
  c.operands.flatMap (fun p => if c.w.writesAt p.1 then
    c.w.dataRange p.1 p.2 :: (if c.w.recordAt p.1 p.2.desc then [p.2.recordRange] else []) else [])

/-- The record ranges written. -/
def Ctx.writeRecords (c : Ctx) : List (Nat × Nat) :=
  c.operands.flatMap (fun p => if c.w.writesAt p.1 && c.w.recordAt p.1 p.2.desc then [p.2.recordRange] else [])

/-- Data and record ranges read. -/
def Ctx.readRanges (c : Ctx) : List (Nat × Nat) :=
  c.operands.flatMap (fun p => if c.w.readsAt p.1 then
    c.w.dataRange p.1 p.2 :: (if c.w.recordAt p.1 p.2.desc then [p.2.recordRange] else []) else [])

/-- A read range overlaps a write range (R99). -/
def Ctx.inPlace (c : Ctx) : Bool := c.readRanges.any (fun r => c.writeRanges.any (overlaps r))

/-- The hold space of the macro-operation's chain. -/
def Ctx.holdRange (c : Ctx) : List (Nat × Nat) :=
  match c.chain with
  | some ch => if ch.size = 0 then [] else [(ch.base, ch.base + ch.size)]
  | none => []

/-! ## Retirement -/

/-- The tile has retired the last macro-operation of its stream. -/
def Tile.finished (u : Tile) : Bool :=
  match u.entry with
  | some e => decide (e.words ≤ u.next) && emptyList u.window && u.offer.isNone
  | none => true

/-- A chain is over when its last stage leaves the window. -/
def State.closeChains (t : Nat) (s : State) : State :=
  s.mapTile t (fun u => { u with chains := u.chains.filter (fun ch =>
    decide (u.next < ch.head + ch.stages) ||
      u.window.any (fun m => decide (ch.head ≤ m.seq) && decide (m.seq < ch.head + ch.stages))) })

/-- The tile-DMA families. -/
def MopWord.isDma (w : MopWord) : Bool := [19, 20, 21, 22].contains w.family

/-- A tile-DMA macro-operation leaves its queue: IDLE, unless the next one runs there already (R350); the cycles of a halt
that lasts are counted (R355). -/
def State.leaveStream (c : Ctx) (s : State) : State :=
  let q := (s.tile c.t).stream c.w.queue
  if !c.w.isDma || q.seq != c.mop.seq then s
  else
    let s := if q.state = .halted then s.count .strqHaltCycles c.t ((s.tile c.t).cycle - q.haltedAt) else s
    s.mapStream c.t c.w.queue (fun q => { q with state := .idle, issues := [], faultAddr := 0 })

/-- A macro-operation leaves the window at the end of a cycle: entries and slot freed, marks of granules that its write
ranges cover cleared (Table TL.4; deliveries of a RECV clear none, R102), its errors recorded (R71, R372), its written
ranges noted (R438), its queue closed when the tile's stream has ended (R366). -/
def State.retireMop (c : Ctx) (cycle : Nat) (s : State) : State :=
  let s := (s.tileAt c.t cycle).accountWait c.t (cycle + 1)
  let clears := if c.w.family = Fam.recv then [] else c.writeRanges.flatMap (fun r => granulesIn c.t r.1 r.2)
  let s := s.clearGranules c.t clears
  let s := c.writeRanges.foldl (fun s r => s.noteWrite r.1 r.2) s
  let s := (s.raiseMop c.ring c.mop.events).leaveStream c
  let s := if c.mop.unitAfter.isNone then s.unitDone c cycle else s
  let s := (s.mapTile c.t (fun u => { u with window := u.window.filter (fun m => m.seq != c.mop.seq) })).repace c.t
  let s := (s.freeEngines c cycle).closeChains c.t
  if (s.tile c.t).finished then s.closeQueues c.t else s

/-! ## Abort -/

/-- The lines of ranges that lie in the near tier or in HBM. -/
def poisonLines (rs : List (Nat × Nat)) : List Nat :=
  (rs.flatMap (fun r => linesOf r.1 (r.2 - r.1))).filter poisonable

/-- Poison requests of a tile, one for each controller concerned (R330). -/
def State.requestPoison (t : Nat) (lines : List Nat) (s : State) : State :=
  let ctl (a : Nat) : Nat := match home a with | .hbm k _ => k | .near d _ => 12 + d | _ => 16
  { s with poisonRequests := s.poisonRequests ++ (List.range 16).filterMap (fun k =>
      let ls := lines.filter (fun a => ctl a == k)
      if emptyList ls then none else some { tile := t, lines := ls }) }

/-- The logical tiles whose scratchpads a device address range touches. -/
def scratchTiles (lo hi : Nat) : List Nat :=
  let lo := max lo 0x20000000000
  let hi := min hi 0x20068000000
  if hi ≤ lo then []
  else (List.range ((hi - 1 - 0x20000000000) / 0x800000 - (lo - 0x20000000000) / 0x800000 + 1)).map
    (fun i => (lo - 0x20000000000) / 0x800000 + i)

/-- The granules that a range touches, in whichever tile's scratchpad they lie, marked. -/
def State.markRange (r : Nat × Nat) (s : State) : State :=
  (scratchTiles r.1 r.2).foldl (fun s t => (granulesOf t r.1 r.2).foldl (fun s g => s.markGranule t g) s) s

/-- The memory lines that an aborted macro-operation poisons (Table TL.7): those of its output record; of its data every
line once its effect is taken and, in a tile-DMA transfer before that, from the first to the highest that a request issued
so far writes (DESIGN CHOICE, log 20). -/
def State.abortLines (s : State) (c : Ctx) : List Nat :=
  let q := (s.tile c.t).stream c.w.queue
  let issued := if c.w.isDma && q.seq == c.mop.seq then
      ((s.requests c).take (q.posAt (s.tile c.t).cycle)).filterMap (fun l => if l.2 then some (l.1 + 64) else none) else []
  let top := issued.foldl max 0
  poisonLines (if c.mop.done then c.writeRanges
    else c.writeRecords ++ c.writeRanges.filterMap (fun r => if r.1 < min r.2 top then some (r.1, min r.2 top) else none))

/-- Table TL.7 for one macro-operation, in its abort cycle (DESIGN CHOICE, log 20, log 21). -/
def State.abortMop (c : Ctx) (s : State) : State :=
  let s := s.accountWait c.t ((s.tile c.t).cycle + 1)
  let hold := c.holdRange
  let lines := s.abortLines c
  let s := (c.writeRanges ++ hold ++ (if c.inPlace then c.readRanges else [])).foldl (fun s r => s.markRange r) s
  let s := s.requestPoison c.t lines
  let s := c.writeRanges.foldl (fun s r => s.noteWrite r.1 r.2) s
  let s := s.count .aborts c.t 1
  let s := match c.mop.taken with
    | some (_, d) => s.giveBack c.t c.w.queue d
    | none => s
  let s := match s.runOf c.ring c.t c.mop.seq with
    | some g => s.closeRun g
    | none => s
  let s := s.leaveStream c
  let s := (s.mapTile c.t (fun u =>
    { u with window := u.window.filter (fun m => m.seq != c.mop.seq),
             landings := u.landings.filter (fun l => l.writer != c.mop.seq || decide (l.cycle < u.cycle)) })).repace c.t
  (c.w.engines.foldl (fun s e => s.setEngine c.t e (some (s.tile c.t).cycle)) s).closeChains c.t

/-- The macro-operations of a tile's chain, or the one itself. -/
def State.siblings (s : State) (c : Ctx) : List Ctx :=
  match c.chain with
  | some ch => ((s.tile c.t).window.filter (fun m =>
      decide (ch.head ≤ m.seq) && decide (m.seq < ch.head + ch.stages))).filterMap (fun m => s.ctx c.t m.seq)
  | none => [c]

/-- Everything that an abort stops with it: the stages of its chain, and on every member the group's (R182, R209,
R257; DESIGN CHOICE, log 21). -/
def State.abortSet (s : State) (c : Ctx) : List Ctx :=
  let own := s.siblings c
  let others := own.flatMap (fun x => match s.runOf x.ring x.t x.mop.seq with
    | some g => (g.members.filter (fun m => m.tile != c.t)).flatMap (fun m => match s.ctx m.tile m.seq with
        | some y => s.siblings y
        | none => [])
    | none => [])
  (own ++ others).eraseDups

/-- All of them aborted (DESIGN CHOICE, log 21). -/
def State.abortAll (cs : List Ctx) (s : State) : State := cs.foldl (fun s c => s.abortMop c) s

/-- Every unretired macro-operation of a tile aborted, and nothing offered. -/
def State.abortTile (t : Nat) (s : State) : State :=
  let s := s.abortAll ((s.tile t).window.filterMap (fun m => s.ctx t m.seq))
  (s.mapTile t (fun u => { u with offer := none, window := [], chains := [] })).repace t

/-! ## What ends with a job (Table SQ.9) -/

/-- Queues closed and, when `advance`, their epochs advanced; windows closed; streams idle. -/
def State.settleTile (advance : Bool) (t : Nat) (s : State) : State :=
  let s := s.closeQueues t
  let s := if advance then s.advanceEpochs t else s
  (s.closeWindows t).idleStreams t

/-- The completion record of a job (Table HI.6); ELAPSED rounds down (DESIGN CHOICE, log 24; DESIGN CHOICE, log 23). -/
def State.finishJob (r : Nat) (e : Ending) (s : State) : State :=
  match s.job r with
  | some j =>
    let s := s.mapJob r (fun j => { j with ending := some e, recovery := none, committing := false, taking := none })
    s.complete r
      { tag := j.tag, status := e.status, tile := e.tile, code := e.code, seq := e.seq, recoveries := j.recoveries,
        events := ((s.job r).elim 0 (fun j => j.events)), elapsed := sat 32 ((s.clock - j.admitted) / 1000),
        notify := j.notify, endsJob := true, after := none }
  | none => s

/-- A job stopped on every tile (Table TL.6): aborts, queues and windows, barriers, groups; held events are released
(R447: the job is over); its record is made (DESIGN CHOICE, log 23). -/
def State.stopJob (r : Nat) (e : Ending) (s : State) : State :=
  match s.job r with
  | some j =>
    if j.ending.isSome then s
    else
      let s := j.tileIds.foldl (fun s t => s.abortTile t) s
      let s := j.tileIds.foldl (fun s t => s.settleTile true t) s
      let s := (s.mapJob r (fun j => { j with
        barriers := j.barriers.map (fun b => { b with arrived := [] }), heldErrs := [] })).raise j.heldErrs
      { s with groups := s.groups.filter (fun g => g.ring != r) }.finishJob r e
  | none => s

end Sys2Proof.Machine
end

