-- ==== Sys2Proof/Machine/Recovery.lean ====
section
/-!
DEFINITION. Commits and recoveries (13_training_and_resilience, R436-R449; 10_memory, R333, Table MS.12): placement of the
guard's slots, what a commit copies and takes, verification, restores, spare takeover, tile failure.
-/
namespace Sys2Proof.Machine

/-! ## Partners and placement (R436, R437) -/

/-- The tile of a job at a Ground coordinate. -/
def State.tileOfCoord (s : State) (tiles : List Nat) (d c r : Nat) : Option Nat :=
  tiles.find? (fun t => (s.tile t).die == d && (s.tile t).col == c && (s.tile t).row == r)

/-- The partner of a tile in a job. -/
def State.partnerOf (s : State) (tiles : List Nat) (t : Nat) : Option Nat :=
  let u := s.tile t
  [2, 6, 4].findSome? (fun k => s.tileOfCoord tiles u.die ((u.col + k) % 8) u.row)

/-- Bytes of a snapshot slot. -/
def snapBytesOf (size : Nat) : Nat := 4160 * ceilDiv size 4096

/-- The shards of a guarded descriptor in ascending order: the tile that holds one (none in DEVICE space) and its device
address. -/
def Desc.guardShards (d : Desc) (tiles : List Nat) : List (Option Nat × Nat) :=
  if d.space = 0 then
    ((tiles.foldl (fun l t => insertNat t l) []).filter (fun t => !d.tileSharded || (d.tileShard t).isSome)).map (fun t => (some t, scratchAddr t d.base))
  else if d.space = 1 then (List.range d.shards).map (fun i => (none, d.base + i * d.pitch))
  else []

/-- Where placement stands: the next free offset of each partner's mirror area and of the snapshot region, and whether a
shard is too large. -/
structure Placing where
  shards : List GuardShard
  areas : List (Nat × Nat)
  snap : Nat
  tooLarge : Bool
deriving DecidableEq, Repr

/-- One shard placed (R436). -/
def State.placeShard (s : State) (tiles : List Nat) (pre : List Byte) (snapBase e : Nat)
    (d : Desc) (mirror : Bool) (x : Option Nat × Nat) (p : Placing) : Placing :=
  let size := ceilDiv d.allocSize 4096 * 4096
  let partner := if mirror then x.1.bind (s.partnerOf tiles) else none
  let mk (m : Bool) (a b : Nat) : GuardShard :=
    { entry := e, tile := x.1, base := x.2, size := d.allocSize, mirror := m, slot0 := a, slot1 := b,
      recOff := d.recordOffset, recCount := d.maxRecords, current := none, gen0 := 0, gen1 := 0 }
  let snap : Placing :=
    let a := snapBase + p.snap
    { p with shards := p.shards ++ [mk false a (a + snapBytesOf d.allocSize)],
             snap := p.snap + 2 * snapBytesOf d.allocSize,
             tooLarge := p.tooLarge || decide (2 ^ 20 < ceilDiv d.allocSize 4096) }
  match partner with
  | some q =>
    let off := ((p.areas.find? (fun y => y.1 == q)).map (·.2)).getD (preMirrorBase pre)
    if off + 2 * size ≤ preMirrorBase pre + preMirrorSize pre then
      { p with shards := p.shards ++ [mk true (scratchAddr q off) (scratchAddr q (off + size))],
               areas := (q, off + 2 * size) :: p.areas.filter (fun y => y.1 != q) }
    else snap
  | none => snap

/-- Every guard entry resolved, in table order. -/
def State.placeGuards (s : State) (tiles : List Nat) (descs : List Desc) (pre : List Byte) (snapBase : Nat) : Placing :=
  (List.range (preGuards pre)).foldl (fun p e =>
    let g := preGuard pre e
    match descs[g.desc]? with
    | some d =>
      if d.code ≠ 0 ∨ d.allocSize = 0 then p
      else
        let mirror := d.space == 0 && (g.method == 0 || (g.method == 2 && decide (d.allocSize ≤ preMirrorMax pre) &&
          decide (g.period ≤ 4)))
        (d.guardShards tiles).foldl (fun p x => s.placeShard tiles pre snapBase e d mirror x p) p
    | none => p) { shards := [], areas := [], snap := 0, tooLarge := false }

/-! ## Slots -/

/-- The slot that does not hold the last commit. -/
def GuardShard.nextSlot (g : GuardShard) : Nat := if g.current = some false then g.slot1 else g.slot0

/-- The slot of the last finished commit, and its generation. -/
def GuardShard.heldSlot (g : GuardShard) : Option (Nat × Nat) :=
  g.current.map (fun b => if b then (g.slot1, g.gen1) else (g.slot0, g.gen0))

/-- The other slot becomes current, with its commit generation. -/
def GuardShard.switch (n : Nat) (g : GuardShard) : GuardShard :=
  if g.current = some false then { g with current := some true, gen1 := n } else { g with current := some false, gen0 := n }

/-- The commit generation that the next seal of an entry's shards has: it counts per entry (R437; DEDUCED, log 48). -/
def Job.nextGen (j : Job) (entry : Nat) : Nat :=
  ((j.shards.filter (fun g => g.entry == entry)).filterMap GuardShard.heldSlot).foldl (fun n x => max n (x.2 + 1)) 0

/-- A job's shards with their indices. -/
def Job.numbered (j : Job) : List (Nat × GuardShard) := (List.range j.shards.length).zip j.shards

def GuardShard.range (g : GuardShard) : Nat × Nat := (g.base, g.base + g.size)

/-- The tile that holds a mirrored shard's slots. -/
def GuardShard.holder (g : GuardShard) : Option Nat :=
  match home g.slot0 with
  | .scratch x _ => if g.mirror then some x else none
  | _ => none

/-- A shard that some write has touched since the last finished commit, or that no commit holds yet (R438). -/
def Job.dirty (j : Job) (g : GuardShard) : Bool := g.current.isNone || j.written.any (overlaps g.range)

/-- A move cannot read its source: an uncorrectable word, a marked granule or a poisoned line (R333). -/
def State.unreadable (s : State) (a n : Nat) : Bool :=
  match home a with
  | .scratch x off => s.remoteBad x off n
  | _ => (linesOf a n).any s.linePoison.contains

/-- The unit in its reset configuration that seals and checks snapshots of a guard entry (R517). -/
def snapUnit (entry counter : Nat) : Cvu := { Cvu.reset with stream := entry, tx := counter, rx := counter }

/-- The sealed blocks of a shard (R437). -/
def snapBlocks (entry gen : Nat) (bs : List Byte) : List Byte :=
  (List.range (ceilDiv bs.length 4096)).flatMap (fun k =>
    ((snapUnit entry 0).block (gen * 2 ^ 20 + k) (slice bs (4096 * k) 4096) false))

/-- The first block of a snapshot slot that fails its check value or counter. -/
def State.snapFault (s : State) (entry slot gen size : Nat) : Option Nat :=
  (List.range (ceilDiv size 4096)).find? (fun k =>
    (snapUnit entry (gen * 2 ^ 20 + k)).fault (s.readRaw (slot + 4160 * k) 4160) != 0)

/-- The offset of the first ciphertext record among a shard's bytes one of whose complement pairs disagrees. -/
def GuardShard.badRecord (g : GuardShard) (bs : List Byte) : Option Nat :=
  brokenRecord ((List.range g.recCount).map (fun i => g.recOff + 64 * i)) bs

/-- Where offset `o` of a shard lies in a slot. -/
def GuardShard.slotAt (g : GuardShard) (slot o : Nat) : Nat :=
  if g.mirror then slot + o else slot + 4160 * (o / 4096) + 8 + o % 4096

/-- Bytes of a slot. -/
def GuardShard.slotSize (g : GuardShard) : Nat := if g.mirror then g.size else snapBytesOf g.size

/-- A complement pair of a moved value that disagrees in both readings, as CHECK has it checked (Table MS.7). -/
def Job.pairFault (j : Job) (g : GuardShard) (bs : List Byte) : Option Nat :=
  if j.mode.check = .word then none else g.badRecord bs

/-- The bytes a slot holds. -/
def State.slotBytes (s : State) (g : GuardShard) (slot : Nat) : List Byte :=
  if g.mirror then s.readRaw slot g.size
  else slice ((List.range (ceilDiv g.size 4096)).flatMap (fun k => s.readRaw (slot + 4160 * k + 8) 4096)) 0 g.size

/-- A slot cannot be read back: its memory fails, or a block's check value or counter does. -/
def State.slotBad (s : State) (g : GuardShard) (slot gen : Nat) : Bool :=
  if g.mirror then s.unreadable slot g.size
  else s.unreadable slot (snapBytesOf g.size) || (s.snapFault g.entry slot gen g.size).isSome

/-! ## Table TR.5 -/

/-- The state of one tile that a commit takes. -/
def State.saveTile (s : State) (t : Nat) : SavedTile :=
  let u := s.tile t
  { tile := t, next := if u.offer.isSome then u.next - 1 else u.next, auditPos := u.auditPos,
    auditLost := Telemetry.get s.tele .auditLost t, epochs := (List.range 8).map (fun k => (u.queue k).epoch),
    senders := (List.range 8).map (fun k => (u.queue k).sender),
    streams := u.streams.toList }

/-- Everything of Table TR.5, with the check-value units (R516). -/
def State.save (s : State) (j : Job) : Saved :=
  { tiles := j.tileIds.map s.saveTile, scheds := j.scheds,
    cvus := s.cvus.toList.map (fun u => (u.tx, u.rx, u.broken, u.reason)) }

/-! ## Fetching a stream (R294) -/

/-- Words of a segment. -/
def TileEntry.segWords (e : TileEntry) (k : Nat) : Nat := min 4096 (e.words - 4096 * k)

/-- A segment whose fetch has begun; none past the stream's end. -/
def TileEntry.fetching (e : TileEntry) (k : Nat) : List Segment :=
  if 4096 * k < e.words then [{ index := k, words := [], usable := none, fetches := 0 }] else []

/-- A tile at the start of a job or of a replay: its sequencer waits for the segment of its next word (R294). -/
def State.startTile (t next : Nat) (s : State) : State :=
  State.repace t <| s.mapTile t (fun u => { u with
    next := next, lastAdmit := none, offer := none, window := [], chains := [], engines := Tab.fill 15 (some 0),
    store := match u.entry with
      | some e => e.fetching (next / 4096) ++ e.fetching (next / 4096 + 1)
      | none => [] })

/-! ## Recovery (Table TR.6) -/

/-- Every unretired macro-operation of the listed tiles aborted, with all that goes down with it. -/
def State.abortTiles (ts : List Nat) (s : State) : State :=
  let cs := (ts.flatMap (fun t => ((s.tile t).window.filterMap (fun m => s.ctx t m.seq)).flatMap s.abortSet)).eraseDups
  ts.foldl (fun s t => s.abortTile t) (s.abortAll cs)

/-- Step 1: the job's tiles stop and its macro-operations are aborted; held events are discarded. -/
def State.stopTiles (ring : Nat) (s : State) : State :=
  match s.job ring with
  | none => s
  | some j =>
    let s := s.abortTiles j.tileIds
    let s := j.tileIds.foldl (fun s t => (s.closeWindows t).idleStreams t) s
    let s := s.mapJob ring (fun j => { j with
      heldErrs := [], committing := false, taking := none, copied := [], resolving := none,
      barriers := j.barriers.map (fun b => { b with arrived := [] }) })
    { s with groups := s.groups.filter (fun g => g.ring != ring) }

/-- A recovery starts, or starts again at step 1 with another spare for the new failure (R442, R443, Table TR.7). -/
def State.startRecovery (ring : Nat) (takeover : Option Nat) (arg : Nat) (named : List Nat) (s : State) : State :=
  match s.job ring with
  | none => s
  | some j =>
    let s := s.stopTiles ring
    let n := if j.recovery.isSome then j.epochRecoveries else j.epochRecoveries + 1
    let old := j.recovery.elim [] (·.named)
    let failed := (j.recovery.elim [] (·.takeovers)).filter (fun t => some t != takeover)
    let since := match j.recovery with | some r => r.since | none => s.clock
    let s := s.mapJob ring (fun j => { j with
      epochRecoveries := n,
      recovery := some { takeovers := takeover.toList ++ failed, arg := arg, site := 0, since := since, named := old ++ named } })
    if 4 ≤ n then s.raise [Err.ofJob .fatal 0x34 0 0 j 0 j.epoch 0] else s

/-- The shards of a tile. -/
def Job.shardsOf (j : Job) (t : Nat) : List Nat := (j.numbered.filter (fun x => x.2.tile == some t)).map (·.1)

/-- The shards that an abort names: those among what the macro-operation reads that cannot now be read
(DEDUCED, log 48). -/
def State.abortNames (s : State) (c : Ctx) : List Nat :=
  (c.job.numbered.filter (fun x => c.readRanges.any (overlaps x.2.range) && s.unreadable x.2.base x.2.size)).map (·.1)

/-- Whether step 4 restores a shard. -/
def Job.restores (j : Job) (r : Recovery) (x : Nat × GuardShard) : Bool :=
  x.2.tile.any r.takeovers.contains || j.written.any (overlaps x.2.range) || r.named.contains x.1

/-- Bytes put back: whole granules lose their marks, whole lines their poison, before the bytes are written (R444). -/
def State.putBack (a : Nat) (bs : List Byte) (s : State) : State :=
  let s := { s with linePoison := s.linePoison.filter (fun l => !(linesOf a bs.length).contains l) }.store a bs
  match home a with
  | .scratch t _ => s.clearGranules t (granulesOf t a (a + bs.length))
  | _ => s

/-- The error of a shard that cannot be restored (R445, Table MS.12). -/
def State.restoreFault (s : State) (j : Job) (g : GuardShard) (slot gen : Nat) : Option Err :=
  if g.mirror then
    if s.unreadable slot g.size || (j.pairFault g (s.slotBytes g slot)).isSome then
      some (Err.ofJob .fatal 0x37 0 0 j 0 g.entry (g.holder.getD 0))
    else none
  else match s.snapFault g.entry slot gen g.size with
    | some k => some (Err.ofJob .fatal 0x35 0 0 j 0 g.entry k)
    | none =>
      if s.unreadable slot (snapBytesOf g.size) then some (Err.ofJob .fatal 0x35 0 0 j 0 g.entry 0)
      else (j.pairFault g (s.slotBytes g slot)).map (fun o => Err.ofJob .fatal 0x35 0 0 j 0 g.entry (o / 4096))

/-- Service tokens of reading or writing `n` bytes line by line (R468); under CHECK = FULL each line's packet carries a
check value (Table DV.6). -/
def lineService (j : Job) (a n : Nat) : Nat := ceilDiv n 64 * (lineTokens a + (if j.mode.check = .full then 2 else 0))

/-- Service tokens of the bridges that the lines of a slot cross between it and its shard's die (Table PW.5; DESIGN CHOICE, log
55). -/
def GuardShard.bridgeService (g : GuardShard) (slot : Nat) : Nat :=
  ceilDiv g.slotSize 64 * (20 * dieHops (dieAt g.base) (dieAt slot))

/-- One shard restored from its current slot; one whose slots were lost with the tile that held them cannot be (Table MS.12;
DEDUCED, log 44). -/
def State.restoreShard (j : Job) (g : GuardShard) (s : State) : State :=
  match g.heldSlot with
  | none => if j.saved.isSome then s.raise [Err.ofJob .fatal 0x37 0 0 j 0 g.entry (g.holder.getD 0)] else s
  | some (slot, gen) =>
    let s := s.askService (lineService j slot g.slotSize + g.bridgeService slot)
    match s.restoreFault j g slot gen with
    | some e =>
      let s := match j.pairFault g (s.slotBytes g slot) with
        | some o => s.spoilSource (g.slotAt slot o)
        | none => s
      s.raise [e]
    | none => ((s.putBack g.base (s.slotBytes g slot)).count .restoreBytes 0 g.size).askService (lineService j g.base g.size)

/-- Table TR.5 restored on one tile, which then restarts. -/
def State.restoreTile (x : SavedTile) (s : State) : State :=
  let t := x.tile
  let s := s.countSet .auditLost t x.auditLost
  let s := (s.mapTile t (fun u => { u with auditPos := x.auditPos })).startTile t x.next
  (List.range 8).foldl (fun s k =>
    (s.mapQueue t k (fun q => { q with
      isOpen := true, epoch := x.epochs.getD k 0, sender := x.senders.getD k 0xFF, slots := [] })).mapStream t k
      (fun q => { x.streams.getD k StreamQueue.reset with cfgLimit := q.cfgLimit })) s

/-- Schedules and check-value units restored. -/
def State.restoreShared (ring : Nat) (v : Saved) (s : State) : State :=
  let s := s.mapJob ring (fun j => { j with scheds := v.scheds })
  (List.zip (List.range v.cvus.length) v.cvus).foldl (fun s p => s.mapCvu p.1 (fun u =>
    { u with tx := p.2.1, rx := p.2.2.1, broken := p.2.2.2.1, reason := p.2.2.2.2 })) s

/-! ## Commits (R438-R440) -/

/-- One shard copied or sealed into its other slot (DESIGN CHOICE, log 48). -/
def State.copyShard (j : Job) (g : GuardShard) (s : State) : State :=
  let bs := s.readRaw g.base g.size
  let s := s.askService (lineService j g.base g.size + lineService j g.nextSlot g.slotSize + g.bridgeService g.nextSlot)
  if g.mirror then (s.store g.nextSlot bs).count .mirrorBytes 0 g.size
  else
    let b := snapBlocks g.entry (j.nextGen g.entry) bs
    (s.store g.nextSlot b).count .snapBytes 0 b.length

/-- A shard that cannot be copied, and the address of a complement pair in it that disagrees in both readings. -/
def State.copyFault (s : State) (j : Job) (x : Nat × GuardShard) : Option (Nat × Option Nat) :=
  if s.unreadable x.2.base x.2.size then some (x.1, none)
  else (j.pairFault x.2 (s.readRaw x.2.base x.2.size)).map (fun o => (x.1, some (x.2.base + o)))

/-- A commit starts: touched shards are copied, the state of Table TR.5 is taken; a shard that cannot be read, or a record
in it whose complement pair disagrees twice, starts a recovery without takeover (Table MS.12; DESIGN CHOICE, log 48). -/
def State.beginCommit (ring : Nat) (s : State) : State :=
  match s.job ring with
  | none => s
  | some j =>
    if j.mode.guard = .off then s
    else
      let todo := j.numbered.filter (fun x => j.dirty x.2)
      match todo.findSome? (s.copyFault j) with
      | some (i, a) => (match a with
          | some a => s.spoilSource a
          | none => s).startRecovery ring none 0xFF [i]
      | none =>
        let s := todo.foldl (fun s x => s.copyShard j x.2) s
        s.mapJob ring (fun x => { x with
          committing := true, commitSince := s.clock, copied := todo.map (·.1), writtenAt := x.written.length,
          crcs := if x.mode.guard = .mirrorVerify then x.shards.map (fun g => crc32c (s.readRaw g.base g.size)) else [],
          taking := some (s.save x) })

/-- The slot that a shard is compared with, and its commit generation: the copy just written, or the current slot. -/
def Job.compared (j : Job) (x : Nat × GuardShard) : Option (Nat × Nat) :=
  if j.copied.contains x.1 then some (x.2.nextSlot, j.nextGen x.2.entry) else x.2.heldSlot

/-- The source of a complement pair that disagrees twice in the readings for a comparison: the shard, or its slot. -/
def State.comparePair (s : State) (j : Job) (g : GuardShard) (slot : Nat) : Option Nat :=
  match j.pairFault g (s.readRaw g.base g.size) with
  | some o => some (g.base + o)
  | none => (j.pairFault g (s.slotBytes g slot)).map (g.slotAt slot)

/-- Whether a shard, as read at this commit, differs from its copy, or cannot be compared (R439, Table MS.12). -/
def State.mismatch (s : State) (j : Job) (x : Nat × GuardShard) : Bool :=
  match j.compared x with
  | none => false
  | some (a, gen) => s.unreadable x.2.base x.2.size || s.slotBad x.2 a gen || (s.comparePair j x.2 a).isSome ||
      crc32c (s.slotBytes x.2 a) != j.crcs.getD x.1 0

/-- Shards that differ from their copies under MIRROR_VERIFY (R439). -/
def State.mismatches (s : State) (j : Job) : List (Nat × GuardShard) := j.numbered.filter (s.mismatch j)

/-- What the comparisons of a commit do besides: the lines they read draw tokens (Table DV.6), the copy's and, for a shard
not copied, the shard's own; a pair that disagrees twice spoils its source. -/
def State.compareShards (j : Job) (s : State) : State :=
  j.numbered.foldl (fun s x => match j.compared x with
    | none => s
    | some (a, _) =>
      let s := s.askService (lineService j a x.2.slotSize + x.2.bridgeService a +
        (if j.copied.contains x.1 then 0 else lineService j x.2.base x.2.size))
      match s.comparePair j x.2 a with
      | some o => s.spoilSource o
      | none => s) s

/-- The BARs that waited for a barrier may retire; its use is over. -/
def State.releaseBars (ring barrier : Nat) (s : State) : State :=
  match s.job ring with
  | none => s
  | some j =>
    let ms := ((j.barriers[barrier]?).map (·.members)).getD []
    let s := ms.foldl (fun s t => s.mapTile t (fun u => { u with window := u.window.map (fun m =>
      if m.word.family = Fam.bar ∧ m.word.immBits 3 0 = barrier ∧ m.start.isSome then { m with done := true } else m) })) s
    s.mapJob ring (fun j => { j with
      resolving := none,
      barriers := (List.zip (List.range j.barriers.length) j.barriers).map (fun b =>
        if b.1 = barrier then { b.2 with arrived := [], uses := b.2.uses + 1 } else b.2) })

/-- The state of Table TR.5 on its way into HD or back: a single-bit error is corrected; of its complement pairs, checked where CHECK
asks for it, how many readings disagreed; and whether the state is lost, to a second one (R332) or to an uncorrectable word
(R333). -/
def State.statePairs (j : Job) (reads : PairReads) (s : State) : State × Bool :=
  let s := match reads.error with | .single => s.raise [Err.plain .corrected 0 0 0 0 0] | _ => s
  let bad := match reads.error with | .uncorrectable n => n != 0 | _ => false
  if j.mode.check = .word then (s, bad)
  else (s.count .pairCheckFailed 0 (min reads.readings 2), bad || decide (2 ≤ reads.readings))

/-- COMMIT_FINISH: slots and state switch together, held events are posted; or a mismatch starts a recovery (R439, R440,
R447; DESIGN CHOICE, log 48), as does state of Table TR.5 that is lost on its way (Table MS.12). It waits while the service pool is
spent, from which the copies draw (Table DV.6; DESIGN CHOICE, log 55). -/
def execCommitFinish (reads : PairReads) (s : State) : Out :=
  let ring := reads.ring
  match s.job ring with
  | none => .next s
  | some j =>
    if !j.committing || s.errs.fatal || !s.poolOpen then .next s
    else
      let verify := decide (j.mode.guard = .mirrorVerify)
      let bad := if verify then s.mismatches j else []
      let s := if verify then s.compareShards j else s
      let r := s.statePairs j reads
      if !emptyList bad then
        .next ((r.1.count .verifyMismatch 0 bad.length).startRecovery ring none 0xFF (bad.map (·.1)))
      else if r.2 then .next (r.1.startRecovery ring none 0xFF [])
      else
        let s := r.1.mapJob ring (fun j => { j with
          committing := false, saved := j.taking, taking := none, copied := [], heldErrs := [],
          written := j.written.take (j.written.length - j.writtenAt),
          shards := j.numbered.map (fun x => if j.copied.contains x.1 then x.2.switch (j.nextGen x.2.entry) else x.2),
          generation := j.generation + 1, epochRecoveries := 0, aborted := [], fallen := [], crcs := [] })
        let s := (s.count .commits 0 1).count .commitUs 0 ((s.clock - j.commitSince) / 1000)
        let s := s.raise j.heldErrs
        match j.resolving with
        | some b => .next (s.releaseBars ring b)
        | none => .next s

/-- A poison request of the job's tiles is still to be served: it precedes what a tile asks after its abort (R330). -/
def State.poisonDue (s : State) (j : Job) : Bool := s.poisonRequests.any (fun r => j.tileIds.contains r.tile)

/-- RESTORE_DONE: steps 4 and 5 of Table TR.6 are over; the job's tiles restart (R442, R443), after step 1's poison requests.
State of Table TR.5 that is lost cannot be restored (Table MS.12, R523). It waits while the service pool is spent. Before the first
finished commit a spare's control page and schedule outputs are written as at admission (R380, R428). -/
def execRestoreDone (reads : PairReads) (s : State) : Out :=
  let ring := reads.ring
  match s.job ring with
  | none => .next s
  | some j =>
    match j.recovery with
    | none => .next s
    | some r =>
      if s.errs.fatal || s.poisonDue j || !s.poolOpen || r.takeovers.any (fun t => (s.tile t).failed) then .next s
      else
        let s := (j.numbered.filter (j.restores r)).foldl (fun s x => s.restoreShard j x.2) s
        let p := s.statePairs j reads
        let s := if p.2 && j.saved.isSome then p.1.raise [Err.ofJob .fatal 0x36 0 0 j 0 0 0] else p.1
        if s.errs.fatal then .next s
        else
          let n := min 0xFFFF (j.recoveries + 1)
          let s := s.raise [Err.ofJob .contained 0x22 0 0 j 0 (r.arg + 256 * r.site) n]
          let s := (s.count .recoveries 0 1).count .recoveryUs 0 ((s.clock - r.since) / 1000)
          let s := s.mapJob ring (fun j => { j with recovery := none, recoveries := n })
          match j.saved with
          | some v => .next (v.tiles.foldl (fun s x => s.restoreTile x) (s.restoreShared ring v))
          | none =>
            let s := r.takeovers.foldl (fun s t => s.writeControlPage t) s
            let s := if emptyList r.takeovers then s else s.putScheds ring
            .next ((j.tileIds.foldl (fun s t => s.startTile t 0) s).beginCommit ring)

/-! ## Tile failure and spares (R441, R442, Table TR.7) -/

/-- A spare site takes over a logical tile: the first of its die. Its scratchpad is zeros, without marks
(UNVERIFIED, log 44). -/
def State.takeover (t : Nat) (s : State) : State :=
  let d := dieOfTile t
  match Tab.at s.spares [] d with
  | [] => (s.mapTile t (fun u => { u with locState := 2 })).raise [Err.plain .fatal 0x32 5 d d 0]
  | site :: rest =>
    let s := { s with spares := Tab.put s.spares d rest,
                      mem := Memory.clear s.mem (scratchAddr t 0) (scratchAddr t 0x600000) }
    let s := s.mapTile t (fun u => { u with
      site := site, locState := 1, failed := false, marks := [], eccDouble := [], landings := [],
      vregs := Tile.reset.vregs, kregs := Tile.reset.kregs })
    s.count .spareTakeovers 0 1

/-- The job whose tile this is, unless it is over. -/
def State.runningJob (s : State) (t : Nat) : Option Job :=
  match (s.tile t).job with
  | some r => (s.job r).bind (fun j => if j.ending.isSome then none else some j)
  | none => none

/-- A mirrored shard that is lost when a tile fails: the tile and the tile that holds its slots, or the reverse, have both failed
since the last finished commit (Table TR.7). -/
def Job.lostWith (j : Job) (t : Nat) (g : GuardShard) : Option Nat :=
  match g.tile, g.holder with
  | some a, some b =>
    if a = t ∧ j.fallen.contains b then some b else if b = t ∧ j.fallen.contains a then some a else none
  | _, _ => none

/-- A tile fails in a job that guards its state (R442, Table TR.7): mirrored shards are lost with it, or a recovery takes it over; the
slots it held for others are lost, and their shards count as written (DEDUCED, log 44). -/
def State.guardedFailure (j : Job) (t : Nat) (s : State) : State :=
  match (if j.saved.isSome then j.shards else []).findSome? (j.lostWith t) with
  | some first => s.raise [Err.ofJob .fatal 0x33 0 0 j 0 (first + 256 * t) 0]
  | none =>
    let s := s.mapJob j.ring (fun j => { j with
      shards := j.shards.map (fun g => if g.holder = some t then { g with current := none } else g),
      fallen := t :: j.fallen })
    s.startRecovery j.ring (some t) t []

/-- A tile fails in a job without guard (R441, R365, R366): its macro-operations are aborted, its queues advance and
close (UNVERIFIED, log 44). -/
def State.plainFailure (j : Job) (t : Nat) (s : State) : State :=
  let s := s.abortTiles [t]
  let s := (((s.advanceEpochs t).closeQueues t).closeWindows t).idleStreams t
  s.raise [Err.ofJob .deferred 0x0A 1 t j 0 0 4]

/-- A tile failure (UNVERIFIED, log 44). -/
def State.tileFails (t : Nat) (s : State) : State :=
  if t ≥ 208 || (s.tile t).failed || s.errs.fatal || !s.pins.allGood then s
  else
    match s.runningJob t with
    | some j =>
      let s := s.mapTile t (fun u => { u with failed := true })
      if j.mode.guard = .off then s.plainFailure j t else s.guardedFailure j t
    | none => (s.takeover t).raise [Err.plain .corrected 0 1 t 0 0]

/-- TILE_FAILURE: an uncorrectable tile-register, program-store or scoreboard error, or no answer to the poll. -/
def execTileFailure (t : Nat) (_ : FailCause) (s : State) : Out := .next (s.tileFails t)

/-- TILE_POLL_TIMEOUT: no answer to the hub's status poll for 10 µs. -/
def execTilePollTimeout (t : Nat) (s : State) : Out := .next (s.tileFails t)

/-- SPARE_TAKEOVER: step 2 of a recovery, or, under GUARD = OFF, once the job has ended (R441). -/
def execSpareTakeover (t : Nat) (s : State) : Out :=
  if t ≥ 208 || !(s.tile t).failed || s.errs.fatal || !s.pins.allGood then .next s
  else
    match s.runningJob t with
    | some j =>
      if j.recovery.any (fun r => r.takeovers.contains t) then
        let s := s.takeover t
        .next (s.mapJob j.ring (fun x => { x with
          recovery := x.recovery.map (fun r => if r.arg = t then { r with site := (s.tile t).site } else r) }))
      else .next s
    | none => .next (s.takeover t)

end Sys2Proof.Machine
end

