-- ==== Sys2Proof/Machine/Rings.lean ====
section
/-!
DEFINITION. Rings and cancellation (12_host_port, R396-R420): doorbells, fetching, ring control, CANCEL, HALT and RELEASE,
completion records that were held, coalescing.
-/
namespace Sys2Proof.Machine

/-! ## Job descriptors (Table HI.4) -/

def jdOp (b : List Byte) : Nat := fld b 2 1
def jdKind (b : List Byte) : Nat := fld b 3 1
def jdTag (b : List Byte) : Nat := fld b 4 4
def jdPricking (b : List Byte) : Nat := fld b 8 1
def jdNotify (b : List Byte) : Bool := bit (fld b 9 1) 0
def jdPasidValid (b : List Byte) : Bool := bit (fld b 0xC 4) 31
def jdBindTable (b : List Byte) : Nat := fld b 0x10 8
def jdSnapBase (b : List Byte) : Nat := fld b 0x30 8
def jdSnapSize (b : List Byte) : Nat := fld b 0x38 8
def jdTargetTag (b : List Byte) : Nat := fld b 0x40 4
def jdTargetRing (b : List Byte) : Nat := fld b 0x44 1

/-- Format and check value agree. -/
def jdSound (b : List Byte) : Bool := fld b 0 2 == 0xC7F8 && crcAgrees b 128

/-- An entry that acts as a CANCEL: a damaged one is left to the admission check. -/
def jdIsCancel (b : List Byte) : Bool := jdSound b && jdOp b == 2

/-- The record of a job or entry that was not admitted. -/
def Completion.plain (tag status code : Nat) (notify : Bool) : Completion :=
  { tag := tag, status := status, tile := 0xFFFF, code := code, seq := 0, recoveries := 0, events := 0, elapsed := 0,
    notify := notify, endsJob := false, after := none }

/-! ## Cancellation (R415, R416, Table HI.10) -/

/-- Every tile of a job has retired its last macro-operation, and no recovery of the job is in progress, which replays them. -/
def State.jobFinished (s : State) (j : Job) : Bool := j.recovery.isNone && j.tileIds.all (fun t => (s.tile t).finished)

/-- The status of a job that ends with nothing more to say than its status. -/
def Ending.plain (status : Nat) : Ending := { status := status, tile := 0xFFFF, code := 0, seq := 0 }

/-- A CANCEL for a tag on a ring: whether it found a job, and its effect. The admitted job comes before the pending ones in
ring order; one that has retired everything ends OK (DESIGN CHOICE, log 18). The admitted job's record is held, and a HALT that comes
before it is written makes it HALTED (Table HI.10). -/
def State.cancel (ring tag : Nat) (s : State) : State × Bool :=
  match (s.job ring).filter (fun j => j.tag == tag && j.ending.isNone && !s.jobFinished j) with
  | some _ => ((s.stopJob ring (Ending.plain 0x12)).count .jobsCancelled 0 1, true)
  | none =>
    match (s.ring ring).pending.findIdx? (fun e => jdOp e.bytes == 1 && jdTag e.bytes == tag) with
    | some i =>
      match (s.ring ring).pending[i]? with
      | some e =>
        let s := s.mapRing ring (fun r => { r with pending := r.pending.eraseIdx i })
        ((s.complete ring (Completion.plain tag 0x12 0 (jdNotify e.bytes))).count .jobsCancelled 0 1, true)
      | none => (s, false)
    | none => (s, false)

/-- A CANCEL entry that enters the pending list of ring `k`: its target ends first and writes its record; the entry's own
record waits for that. -/
def State.cancelEntry (k : Nat) (b : List Byte) (s : State) : State :=
  let r := if jdTargetRing b < 32 then s.cancel (jdTargetRing b) (jdTargetTag b) else (s, false)
  r.1.complete k { Completion.plain (jdTag b) (if r.2 then 0x14 else 0x15) 0 false with
    after := if r.2 then some (jdTargetRing b, jdTargetTag b) else none }

/-- JOB_CANCEL_GO: the same, with its outcome in RESULT. -/
def State.cancelGo (ring : Nat) (s : State) : State :=
  let r := ({ s with cancelRing := ring } : State).cancel ring s.cancelTag.toNat
  { r.1 with cancelResult := if r.2 then 2 else 3 }

/-- JOB_CANCEL_GO. -/
def execJobCancelGo (q : Requester) (ring : Nat) (s : State) : Out :=
  .next (s.unlatch.gated q 0x010424 (State.cancelGo (ring % 32)))

/-! ## Doorbells -/

def sqDbAddr (r : Nat) : Nat := 0x080000 + 8 * r
def cqDbAddr (r : Nat) : Nat := 0x080004 + 8 * r

/-- A write of a submission tail (R399). -/
def State.writeSqDb (q : Requester) (r v : Nat) (s : State) : State :=
  let x := v % 4096
  if r < 32 ∧ x < 2 ^ (s.ring r).sqSizeLog then s.mapRing r (fun g => { g with sqTail := x }) else s.discard q (sqDbAddr r) v

/-- A write of a completion head (R400, R414): slots return; when every record is acknowledged both counts restart
(DESIGN CHOICE, log 17). -/
def State.writeCqDb (q : Requester) (r v : Nat) (s : State) : State :=
  let x := v % 4096
  if r < 32 ∧ x < 2 ^ (s.ring r).cqSizeLog then
    s.mapRing r (fun g =>
      let g' : Ring := { g with cqHead := x }
      let n := g'.outstanding
      { g' with unacked := n, firstUnacked := if n = 0 then none else g.firstUnacked })
  else s.discard q (cqDbAddr r) v

/-- A write of the event head (DESIGN CHOICE, log 17). -/
def State.writeEvqDb (q : Requester) (v : Nat) (s : State) : State :=
  let x := v % 4096
  if x < 2 ^ s.evq.sizeLog then { s with evq := { s.evq with head := x } } else s.discard q 0x080100 v

/-- SQ_DOORBELL. -/
def execSqDoorbell (q : Requester) (ring : Nat) (tail : Word) (s : State) : Out :=
  .next (s.unlatch.gated q (sqDbAddr ring) (State.writeSqDb q ring tail.toNat))

/-- CQ_DOORBELL. -/
def execCqDoorbell (q : Requester) (ring : Nat) (head : Word) (s : State) : Out :=
  .next (s.unlatch.gated q (cqDbAddr ring) (State.writeCqDb q ring head.toNat))

/-- EVQ_DOORBELL. -/
def execEvqDoorbell (q : Requester) (head : Word) (s : State) : Out :=
  .next (s.unlatch.gated q 0x080100 (State.writeEvqDb q head.toNat))

/-! ## Fetching (R399) -/

/-- Fetching and admission go on: not while FATAL (R530) or halted (R417). -/
def State.admits (s : State) : Bool := !s.errs.fatal && s.halt == .running && !s.pins.mreset && s.pins.allGood

/-- One entry fetched: SQ_HEAD advances, a CANCEL acts, any other entry joins the pending list (DESIGN CHOICE, log 18). -/
def State.fetchOne (k : Nat) (s : State) : State :=
  let r := s.ring k
  let b := s.readRaw (hostAddr (r.sqBase.toNat + 128 * r.sqHead)) 128
  let s := (s.mapRing k (fun r => { r with sqHead := (r.sqHead + 1) % 2 ^ r.sqSizeLog })).count .ringFetches 0 1
  if jdIsCancel b then s.cancelEntry k b
  else s.mapRing k (fun r => { r with pending := r.pending ++ [{ bytes := b, since := s.clock, aged := false, checked := false, damaged := [], lost := [] }] })

/-- Entries fetched while there are entries and room (DESIGN CHOICE, log 18). -/
def State.fetchAll (k : Nat) : Nat → State → State
  | 0, s => s
  | f + 1, s =>
    if (s.ring k).sqHead = (s.ring k).sqTail ∨ 64 ≤ (s.ring k).pending.length then s
    else State.fetchAll k f (s.fetchOne k)

/-- RING_FETCH (DESIGN CHOICE, log 18). -/
def execRingFetch (ring : Nat) (s : State) : Out :=
  if decide (ring < 32) && s.admits && (s.ring ring).inUse then .next (s.fetchAll ring 4096) else .next s

/-- RING_ERROR: a translation fault or unsupported-request response on a ring access stops the ring (R396). -/
def execRingError (ring : Nat) (completion : Bool) (addr : DWord) (s : State) : Out :=
  if decide (32 ≤ ring) || s.errs.fatal || !(s.ring ring).inUse then .next s
  else .next ((s.mapRing ring (fun r => { r with error := true })).postEvent 3
    (leBytes 1 ring ++ leBytes 1 (flag completion) ++ leBytes 2 0 ++ leBytes 8 addr.toNat))

/-! ## Held records (R401) -/

/-- Every held record of a ring that finds a slot. -/
def State.flushAll (k : Nat) : Nat → State → State
  | 0, s => s
  | f + 1, s => State.flushAll k f (s.flushOne k)

/-- COMPLETION_RECORD_WRITE. -/
def execCompletionRecordWrite (ring : Nat) (s : State) : Out := .next (s.flushOne ring)

/-- CQ_COALESCE_TIMEOUT (R414; DEDUCED, log 26). -/
def execCqCoalesceTimeout (ring : Nat) (s : State) : Out :=
  let r := s.ring ring
  match r.firstUnacked with
  | some t =>
    if r.coalUs = 0 then .next s
    else .next (((s.until (t + 1000 * r.coalUs)).interrupt r.vector).mapRing ring (fun r => { r with firstUnacked := none }))
  | none => .next s

/-! ## RING_CTRL (R396, R420) -/

/-- A ring with a pending entry or an admitted job. -/
def State.ringBusy (s : State) (k : Nat) : Bool := !emptyList (s.ring k).pending || (s.job k).isSome

/-- RESET. The host's head starts again with the tail: the first record goes to slot 0 (R396; DESIGN CHOICE, log 17). -/
def Ring.cleared (r : Ring) : Ring :=
  { r with sqHead := 0, sqTail := 0, cqTail := 0, cqHead := 0, error := false, phase := true, unacked := 0,
           firstUnacked := none }

/-- A write of RING_CTRL behind RING_SEL. RESET of a ring that is enabled, or with ENABLE in the same write, is
discarded (DESIGN CHOICE, log 17). -/
def State.writeRingCtrl (q : Requester) (v : Nat) (s : State) : State :=
  let k := (s.selects q).ring
  let r := s.ring k
  let bad := s.discard q 0x020030 v
  if bit v 1 then
    if bit v 0 || r.enable then bad else s.mapRing k Ring.cleared
  else if bit v 0 then
    let s := s.mapRing k (fun r => { r with enable := true })
    s.flushAll k (s.ring k).held.length
  else if !r.error && s.ringBusy k then bad
  else s.mapRing k (fun r => { r with enable := false })

/-- RING_ENABLE. -/
def execRingEnable (q : Requester) (s : State) : Out := .next (s.unlatch.gated q 0x020030 (State.writeRingCtrl q 1))

/-- RING_DISABLE. -/
def execRingDisable (q : Requester) (s : State) : Out := .next (s.unlatch.gated q 0x020030 (State.writeRingCtrl q 0))

/-- RING_RESET. -/
def execRingReset (q : Requester) (s : State) : Out := .next (s.unlatch.gated q 0x020030 (State.writeRingCtrl q 2))

/-! ## HALT (R417, R418) -/

/-- The address of HALT_CTRL as a requester sees it. -/
def haltAddr (q : Requester) : Nat := if q = .sideband then 0x010 else 0x010400

/-- A record of a cancelled job that HALT finds unwritten says HALTED (Table HI.10; DEDUCED, log 23). -/
def Completion.halted (c : Completion) : Completion := if c.endsJob ∧ c.status = 0x12 then { c with status := 0x13 } else c

def Ring.haltedHeld (r : Ring) : Ring := { r with held := r.held.map Completion.halted }

/-- HALT: every admitted job that has not retired everything ends HALTED. -/
def State.halting (s : State) : State :=
  if s.halt ≠ .running then s
  else
    let s := { s with halt := .halting, rings := s.rings.map Ring.haltedHeld }
    (s.jobs.filter (fun j => j.ending.isNone && !s.jobFinished j)).foldl (fun s j =>
      s.stopJob j.ring (Ending.plain 0x13)) s

/-- A write of HALT_CTRL. -/
def State.writeHaltCtrl (q : Requester) (v : Nat) (s : State) : State :=
  if bit v 0 then s.halting
  else if bit v 1 then
    if s.halt = .halted ∧ s.trust.changing.isNone then { s with halt := .running } else s.discard q (haltAddr q) v
  else s

/-- HALT. -/
def execHalt (q : Requester) (s : State) : Out := .next (s.unlatch.gated q (haltAddr q) (State.writeHaltCtrl q 1))

/-- RELEASE. -/
def execRelease (q : Requester) (s : State) : Out := .next (s.unlatch.gated q (haltAddr q) (State.writeHaltCtrl q 2))

/-- HALT_COMPLETE: every tile has stopped and every poison request has been accepted (DESIGN CHOICE, log 73). -/
def execHaltComplete (s : State) : Out :=
  if s.halt = .halting && emptyList s.poisonRequests &&
      s.jobs.all (fun j => j.ending.isSome || s.jobFinished j) then .next { s with halt := .halted }
  else .next s

end Sys2Proof.Machine
end

