-- ==== Sys2Proof/Machine/Jobs.lean ====
section
/-!
DEFINITION. Jobs (12_host_port, R402-R411; 09_macro_operations, R285, R302; 13_training_and_resilience, R432-R438): admission
checks, admission, ageing, completion.
-/
namespace Sys2Proof.Machine

/-! ## Bindings (R404) -/

/-- Slot `i` of the binding table. -/
def State.bindSlot (s : State) (b : List Byte) (i : Nat) : Nat × Nat :=
  let t := s.readZeroed (jdBindTable b + 16 * i) 16
  (fld t 0 8, fld t 8 8)

/-- The range of a bound slot. -/
def State.binding (s : State) (p : PrkInfo) (b : List Byte) (i : Nat) : Option (Nat × Nat) :=
  if i < p.bindings then
    let x := s.bindSlot b i
    if x.2 = 0 then none else some x
  else none

/-- BAD_BINDING (Table HI.5). A table in host memory is read through translation, which may fail: `found` says that it does
not. -/
def State.badBinding (s : State) (p : PrkInfo) (b : List Byte) (found : Bool) : Bool :=
  let n := 16 * p.bindings
  let unreadable := n != 0 && (!mapped (jdBindTable b) n || s.unreadable (jdBindTable b) n ||
    (!found && decide (2 ^ 63 ≤ jdBindTable b)))
  unreadable || (List.range p.bindings).any (fun i =>
    match s.binding p b i with
    | some x => decide (2 ^ 64 < x.1 + x.2) || !mapped x.1 x.2 || (decide (2 ^ 63 ≤ x.1) && !jdPasidValid b)
    | none => false)

/-! ## Descriptors (R285, R432, R433) -/

/-- Tiles of group entry `k`; none where the table has no valid entry. -/
def State.groupTiles (s : State) (p : PrkInfo) (k : Nat) : Option (List Nat) :=
  if k < p.groups ∧ (s.groupEntry p k).valid then some (s.groupEntry p k).members else none

/-- The ranges a descriptor may not overlap: the resilience preamble, and under GUARD the mirror area. An empty range overlaps
nothing. -/
def Desc.reserved (d : Desc) (p : PrkInfo) (pre : List Byte) (guarded : Bool) : Bool :=
  let own := (d.base, d.base + d.allocSize)
  let meets (r : Nat × Nat) : Bool := decide (0 < d.allocSize) && decide (r.1 < r.2) && overlaps own r
  (d.space == 2 && meets (p.base + (p.section 7).1, p.base + (p.section 7).1 + preSize pre)) ||
    (guarded && d.space == 0 && meets (preMirrorBase pre, preMirrorBase pre + preMirrorSize pre))

/-- One descriptor created for a job. -/
def State.createDesc (s : State) (p : PrkInfo) (b pre : List Byte) (guarded : Bool) (i : Nat) : Desc :=
  let d := Desc.create (s.image p ((p.section 1).1 + 192 * i) 192) (s.groupTiles p) (s.binding p b) p.base p.imageSize
    (jdKind b)
  if (d.code = 0 ∨ 5 < d.code) && d.reserved p pre guarded then { d with code := 0x05 } else d

/-! ## A job before its admission -/

/-- The job that a descriptor asks for, under the MODE now in force. -/
def State.newJob (s : State) (ring : Nat) (b : List Byte) (p : PrkInfo) : Job :=
  let es := (s.tileEntries p).map (·.2)
  let pre := s.preamble p
  let guarded := decide (s.mode.guard ≠ .off)
  { ring := ring, tag := jdTag b, prk := jdPricking b, image := p, notify := jdNotify b, pasid := fld b 0xC 4 % 2 ^ 20,
    bindTable := jdBindTable b, roundSeed := fld b 0x18 8, auditBase := fld b 0x20 8, auditPerTile := fld b 0x28 4,
    snapBase := jdSnapBase b, snapSize := jdSnapSize b, mode := s.mode, tiles := es,
    descs := (List.range p.descs).map (s.createDesc p b pre guarded),
    barriers := (List.range 16).map (fun k => { members := s.barrierMembers p k, arrived := [], uses := 0 }),
    epoch := 0, epochs0 := es.map (fun e => (e.tile, (List.range 8).map (fun k => ((s.tile e.tile).queue k).epoch))),
    shards := [], written := [], writtenAt := 0, generation := 0, committing := false, commitSince := 0, resolving := none, copied := [],
    crcs := [], fallen := [], taking := none, saved := none, scheds := [], recovery := none, epochRecoveries := 0, aborted := [], recoveries := 0,
    events := 0, heldErrs := [], admitted := s.clock, ending := none }

/-- The guard's slots of a job (R436). -/
def State.placing (s : State) (j : Job) : Placing :=
  if j.mode.guard = .off then { shards := [], areas := [], snap := 0, tooLarge := false }
  else s.placeGuards j.tileIds j.descs (s.preamble j.image) j.snapBase

/-- SNAP_SPACE (R436, R437). -/
def State.snapShort (s : State) (j : Job) : Bool :=
  j.mode.guard != .off &&
    (let x := s.placing j
     decide (j.snapSize < x.snap) || decide (0xC000000000 < j.snapBase + j.snapSize) || x.tooLarge)

/-! ## Admission checks (Table HI.5) -/

/-- BAD_DESCRIPTOR. -/
def jdBad (b : List Byte) : Bool :=
  !jdSound b || jdOp b != 1 || decide (3 < jdKind b) || jdBindTable b % 64 != 0 || fld b 0x20 8 % 16 != 0 ||
    fld b 0x28 4 % 16 != 0 || jdSnapBase b % 4096 != 0

/-- The first failing check: its status and CODE; 0 where all pass (DESIGN CHOICE, log 19). -/
def State.admissionCode (s : State) (ring : Nat) (b : List Byte) (found : Bool) : Nat × Nat :=
  if jdBad b then (0x01, 0)
  else match s.pricking (jdPricking b) with
    | none => (0x02, 0)
    | some p =>
      if s.badBinding p b found then (0x03, 0)
      else match (List.range 64).find? (fun k => bit p.psetRef.toNat k && (s.pset k).isNone) with
        | some k => (0x04, k)
        | none =>
          if s.recheckCode p ≠ 0 then (0x05, s.recheckCode p)
          else if s.snapShort (s.newJob ring b p) then (0x06, 0)
          else (0, 0)

/-- The front entry leaves its list with a refusal. -/
def State.refuseJob (ring : Nat) (e : PendingEntry) (code : Nat × Nat) (s : State) : State :=
  let s := (s.mapRing ring (fun r => { r with pending := r.pending.drop 1 })).count .jobsRefused 0 1
  s.complete ring (Completion.plain (jdTag e.bytes) code.1 code.2 (jdNotify e.bytes))

/-- JOB_ADMISSION_CHECK (R406; DESIGN CHOICE, log 19). -/
def execJobAdmissionCheck (reads : AdmissionReads) (s : State) : Out :=
  let ring := reads.ring
  match (s.ring ring).pending with
  | e :: rest =>
    if e.checked || !s.admits || !(s.ring ring).inUse then .next s
    else
      let c := s.admissionCode ring e.bytes reads.found
      if c.1 = 0 then .next (s.mapRing ring (fun r => { r with pending := { e with checked := true, damaged := reads.damaged, lost := reads.lost } :: rest }))
      else .next (s.refuseJob ring e c)
  | [] => .next s

/-! ## Admission (R407, R408) -/

/-- Tiles of the pricking an entry names. -/
def State.entryTiles (s : State) (e : PendingEntry) : List Nat :=
  match s.pricking (jdPricking e.bytes) with
  | some p => (s.tileEntries p).map (fun x => x.2.tile)
  | none => []

/-- Aged front entries of other rings. -/
def State.agedTiles (s : State) (ring : Nat) : List Nat :=
  (List.range 32).flatMap (fun r => if r = ring then [] else
    match (s.ring r).pending with
    | e :: _ => if e.aged then s.entryTiles e else []
    | [] => [])

/-- No record of a job waits to be written: a CANCEL entry's own is none (R407). -/
def Ring.jobRecordsWritten (r : Ring) : Bool := r.held.all (fun c => c.status == 0x14 || c.status == 0x15)

/-- The front entry of a ring may be admitted now (DESIGN CHOICE, log 19). -/
def State.admissible (s : State) (ring : Nat) : Bool :=
  match (s.ring ring).pending with
  | e :: _ =>
    let ts := s.entryTiles e
    e.checked && (s.ring ring).inUse && (s.job ring).isNone && (s.ring ring).jobRecordsWritten &&
      ts.all (fun t => (s.tile t).job.isNone && !(s.tile t).failed) &&
      (e.aged || !ts.any (s.agedTiles ring).contains)
  | [] => false

/-- The sender of queue `k` of tile `t` in a job; 0xFF none. -/
def senderOf (ws : List StreamWord) (t k : Nat) : Nat :=
  match ws.find? (fun x => x.isSend && x.w.peer == t && x.w.queue == k) with
  | some x => x.tile
  | none => 0xFF

/-- A tile joins a job: control page, queues, windows, the fetch of its first segments. -/
def State.joinTile (j : Job) (ws : List StreamWord) (e : TileEntry) (s : State) : State :=
  let t := e.tile
  let s := s.mapTile t (fun u => { u with job := some j.ring, entry := some e, partner := s.partnerOf j.tileIds t, auditPos := 0 })
  ((((s.writeControlPage t).openQueues t (senderOf ws t)).closeWindows t).admitStreams t).startTile t 0

/-- A job admitted: MODE snapshot, descriptors, queues, schedules, the guard's slots and the first commit. -/
def State.admitJob (j : Job) (s : State) : State :=
  let j := { j with shards := (s.placing j).shards }
  let s := { s with jobs := s.jobs ++ [j] }
  let first := (j.tileIds.headD 0)
  let s := s.count .jobsAdmitted 0 1
  let s := s.count .descCreated first (j.descs.filter (fun d => d.code == 0)).length
  let s := s.count .descRefused first (j.descs.filter (fun d => d.code != 0)).length
  let ws := s.allWords j.image
  let s := j.tiles.foldl (fun s e => s.joinTile j ws e) s
  (s.startScheds j.ring).beginCommit j.ring

/-- A descriptor one of whose complement pairs disagreed twice on its way to a tile is refused with code 0x01, where CHECK asks for
the comparison, and under every CHECK one whose source holds an uncorrectable word (R333, Tables MS.7, MS.12). -/
def Job.distributed (j : Job) (damaged lost : List Nat) : Job :=
  let bad := lost ++ (if j.mode.check = .word then [] else damaged)
  { j with descs := (List.zip (List.range j.descs.length) j.descs).map (fun p =>
    if bad.contains p.1 && p.2.code == 0 then { p.2 with code := 0x01 } else p.2) }

/-- How many of a job's descriptors are so refused. -/
def Job.damagedCount (j : Job) (damaged : List Nat) : Nat :=
  if j.mode.check = .word then 0
  else (((List.range j.descs.length).zip j.descs).filter (fun p => damaged.contains p.1 && p.2.code == 0)).length

/-- The front entry of a ring admitted, or refused where a check has come to fail since. -/
def State.admitFront (ring : Nat) (s : State) : State :=
  match (s.ring ring).pending with
  | e :: rest =>
    let c := s.admissionCode ring e.bytes true
    match s.pricking (jdPricking e.bytes) with
    | some p =>
      if c.1 ≠ 0 then s.refuseJob ring e c
      else
        let j := s.newJob ring e.bytes p
        let s := s.mapRing ring (fun r => { r with pending := rest })
        let s := if e.aged then s.count .admitAged 0 1 else s
        (s.count .pairCheckFailed 0 (2 * j.damagedCount e.damaged)).admitJob (j.distributed e.damaged e.lost)
    | none => s.refuseJob ring e c
  | [] => s

/-- JOB_ADMIT: the next ring in round-robin order whose front entry may be admitted (DESIGN CHOICE, log 19). -/
def execJobAdmit (s : State) : Out :=
  if !s.admits then .next s
  else
    match ((List.range 32).map (fun i => (s.rrNext + i) % 32)).find? s.admissible with
    | some r => .next ({ s with rrNext := (r + 1) % 32 }.admitFront r)
    | none => .next s

/-- JOB_AGED (R408). -/
def execJobAged (ring : Nat) (s : State) : Out :=
  match (s.ring ring).pending with
  | e :: rest =>
    if e.aged then .next s
    else .next ((s.until (e.since + 1000 * s.jobAge)).mapRing ring (fun r => { r with pending := { e with aged := true } :: rest }))
  | [] => .next s

/-! ## Completion (R410) -/

/-- JOB_COMPLETE: queues and windows close, state blocks and write-combining entries are written back, held events are
posted, the record is made. -/
def execJobComplete (d : RingDrain) (s : State) : Out :=
  match s.job d.ring with
  | none => .next s
  | some j =>
    if s.errs.fatal || j.ending.isSome || j.committing || j.recovery.isSome || !s.jobFinished j then .next s
    else
      let s := ((s.endScheds d.ring).mergeReads d.merges).writeBackAll
      let s := j.tileIds.foldl (fun s t => s.settleTile false t) s
      let s := (s.mapJob d.ring (fun j => { j with heldErrs := [] })).raise j.heldErrs
      .next ({ s with groups := s.groups.filter (fun g => g.ring != d.ring) }.finishJob d.ring (Ending.plain 0x00))

end Sys2Proof.Machine
end

