-- ==== Sys2Proof/Machine/Link.lean ====
section
/-!
DEFINITION. The UCIe link, the HDM window and CXL.io configuration (12_host_port, R382-R389; 16_errors_startup, R536).
-/
namespace Sys2Proof.Machine

/-! ## Training (R382-R384) -/

/-- A training ends: both modules, or one at half width with a LINK entry, or none. -/
def State.trained (a b : Bool) (repaired : Nat) (s : State) : State :=
  let width := flag a + flag b
  let l : Link := { s.link with
    state := if width = 0 then .down else .up, rate := s.link.ctrlRate, width := width, repaired := repaired % 256 }
  let s := { s with link := l }
  if width = 2 then s
  else s.postEvent 4 (leBytes 1 l.rate ++ leBytes 1 l.width ++ leBytes 2 l.repaired)

/-- A write of LINK_CTRL: RATE 3 is unassigned; RETRAIN is performed only while no job is admitted (DESIGN CHOICE, log 68). -/
def State.writeLinkCtrl (q : Requester) (v : Nat) (s : State) : State :=
  let rate := bits v 1 0
  if rate = 3 || (bit v 2 && !emptyList s.jobs) then s.discard q 0x010500 v
  else { s with link := { s.link with ctrlRate := rate, state := if bit v 2 then .training else s.link.state } }

/-- LINK_RETRAIN (R383; DESIGN CHOICE, log 68). -/
def execLinkRetrain (q : Requester) (rate : Nat) (s : State) : Out :=
  .next (s.unlatch.gated q 0x010500 (State.writeLinkCtrl q (rate % 4 + 4)))

/-- LINK_TRAINING_DONE (R384; DESIGN CHOICE, log 31, log 68). -/
def execLinkTrainingDone (a b : Bool) (repaired : Nat) (s : State) : Out :=
  if s.link.state = .training then .next (s.trained a b repaired) else .next s

/-- LINK_RECALIBRATION (R385): at most once in 100 ms (DESIGN CHOICE, log 68). -/
def execLinkRecalibration (s : State) : Out :=
  if s.link.state ≠ .up then .next s
  else
    let s := match s.link.lastRecal with | some t => s.until (t + 100000000) | none => s
    .next ({ s with link := { s.link with state := .recalibrating, lastRecal := some s.clock } }.count .linkRecals 0 1)

/-- LINK_RECALIBRATION_DONE. -/
def execLinkRecalibrationDone (s : State) : Out :=
  if s.link.state = .recalibrating then .next { s with link := { s.link with state := .up } } else .next s

/-! ## The HDM window (R389) -/

/-- A write of HDM_MAP: discarded where the window would leave HBM, while the decoder is committed and while a job is
admitted. -/
def State.writeHdmMap (q : Requester) (v : Nat) (s : State) : State :=
  let base := v / 2 ^ 36 % 2 ^ 28
  if decide (0xC000000000 < (base + 1) * 2 ^ 36) || s.link.decoderCommitted || !emptyList s.jobs then
    s.discard q 0x010600 v
  else { s with link := { s.link with hdmBase := base } }

/-- HDM_MAP_WRITE. -/
def execHdmMapWrite (q : Requester) (value : DWord) (s : State) : Out :=
  .next (s.unlatch.gated q 0x010600 (State.writeHdmMap q value.toNat))

/-! ## Configuration requests (R536) -/

/-- CXL_CONFIG_REQUEST: retry status before STAGE 9; afterwards completed; an unpowered module answers nothing (R19). `commit` is what the request does to the host's
commitment of the HDM decoder, if it is the one that changes it. -/
def execCxlConfigRequest (commit : Option Bool) (s : State) : Out :=
  if !s.pins.allGood then .next s
  else if s.boot.stage < 9 ∨ s.pins.mreset ∨ s.boot.stopped then .next { s with resp := .retry }
  else
    let l : Link := match commit with | some b => { s.link with decoderCommitted := b } | none => s.link
    .next { s with resp := .completed, link := l }

end Sys2Proof.Machine
end

