-- ==== Sys2Proof/Machine/Shuttle.lean ====
section
/-!
DEFINITION. SEND and RECV (R356-R363), the stall watchdog (R367), SHQ_CTRL.RESET (R365), WIN (R370) and the commands in which
descriptors, acknowledgements and completions arrive.
-/
namespace Sys2Proof.Machine

/-! ## SEND -/

/-- Descriptors of a sender's queue that are in slots or in flight (R358). -/
def State.outstanding (s : State) (sender peer k : Nat) : Nat :=
  ((s.tile peer).queue k).slots.length +
    ((s.tile sender).window.filter (fun m => m.word.family == Fam.send && m.send == .inFlight && m.word.peer == peer &&
      m.word.queue == k)).length

/-- EPOCH of a SEND: the receiver's queue epoch as it stood when the job was admitted. -/
def Job.epochAt (j : Job) (t k : Nat) : Nat :=
  ((j.epochs0.find? (fun e => e.1 == t)).map (fun e => e.2.getD k 0)).getD 0

/-- The descriptor that a SEND posts (R358). -/
def Ctx.descriptor (c : Ctx) : ShuttleDesc :=
  match c.view 0 with
  | some v =>
    let r := v.dataRange
    { queue := c.w.queue, sender := c.t, epoch := c.job.epochAt c.w.peer c.w.queue, length := r.2 - r.1, src := r.1,
      recAddr := if v.desc.recorded then v.recordRead (v.outBatches.headD 0) else 1, seq := c.mop.seq }
  | none => { queue := c.w.queue, sender := c.t, epoch := 0, length := 0, src := 0, recAddr := 1, seq := c.mop.seq }

/-- The SEND's state changed. -/
def State.setSend (c : Ctx) (x : SendState) (s : State) : State :=
  s.mapMop c.t c.mop.seq (fun m => { m with send := x })

/-- Tokens of a packet of a SEND: every bridge it crosses, and its check value under CHECK = FULL (Table PW.5). -/
def packetTokens (j : Job) (a b : Nat) : Nat :=
  20 * dieHops (dieOfTile a) (dieOfTile b) + (if j.mode.check = .full then 2 else 0)

/-- Tokens of a descriptor, one Shuttle line. -/
def Ctx.sendTokens (c : Ctx) : Nat := 4 + packetTokens c.job c.t c.w.peer

/-- A SEND posts its descriptor. -/
def State.postSend (c : Ctx) (s : State) : State :=
  ((s.setSend c .inFlight).count .shuttleSends c.t 1).drawTokens c.t c.sendTokens

/-- Whether a slot is free for another descriptor of the SEND. -/
def State.slotFree (s : State) (c : Ctx) : Bool := decide (s.outstanding c.t c.w.peer c.w.queue < 32)

def isSend (w : MopWord) : Bool := w.family == Fam.send

/-- SEND: posts its descriptor, or waits for a slot (R358). Its line waits for the tile's memory allotment (R467). -/
def execSend (t seq : Nat) (s : State) : Out :=
  s.withReady t seq isSend fun c =>
    if c.mop.send != .idle || !s.covers t c.sendTokens then s
    else if s.slotFree c then s.postSend c
    else (s.setSend c .waitSlot).mapMop t seq (fun m => { m with waitSince := s.clock })

/-- SHUTTLE_SLOT_FREE: a waiting SEND posts (R358). -/
def execShuttleSlotFree (t seq : Nat) (s : State) : Out :=
  s.withReady t seq isSend fun c => if c.mop.send == .waitSlot && s.slotFree c && s.covers t c.sendTokens then s.postSend c else s

/-- SHUTTLE_DESCRIPTOR_ARRIVE: the receiving unit's order of R360. A descriptor damaged in transit is resent up to three
times; then its SEND meets an abort cause (R327, R333, Table MS.5). Acceptance frees the sender's Shuttle unit; a SEND that
completes CLOSED or STALE keeps it until the completion arrives (R363). A descriptor waits at the island boundary of a frozen
receiver (R465; DESIGN CHOICE, log 38). -/
def execShuttleDescriptorArrive (t seq : Nat) (damaged : Bool) (s : State) : Out :=
  s.withReady t seq isSend fun c =>
    let q := (s.tile c.w.peer).queue c.w.queue
    let d := c.descriptor
    if c.mop.send != .inFlight || !s.letsIn c.w.peer then s
    else if damaged then
      if c.mop.resends < 3 then
        ((s.mapMop t seq (fun m => { m with resends := m.resends + 1 })).count .linkResends 0 1).raise
          [Err.ofJob .contained 0x21 1 c.w.peer c.job seq 0 1]
      else s.stopMop c .transit
    else
      if !q.isOpen then (s.setSend c .closedDue).count .shuttleClosed t 1
      else if d.epoch ≠ q.epoch then (s.setSend c (.staleDue d.epoch q.epoch)).count .shuttleStale t 1
      else
        let s := (s.freeEngines c (s.tile t).cycle).writeSlot c.w.peer c.w.queue q.slots.length d
        (s.mapQueue c.w.peer c.w.queue (fun q => { q with slots := q.slots ++ [d] })).setSend c .accepted

/-- A SEND retires in the cycle that an answer takes to reach it. -/
def State.retireSend (c : Ctx) (s : State) : State :=
  s.retireMop c ((s.tile c.t).cycle + s.pathCycles c.t (deliveryNs c.w.peer c.t))

/-- SHUTTLE_ACK: the acknowledgement reaches the sender and its SEND retires (R359). -/
def execShuttleAck (t seq : Nat) (s : State) : Out :=
  match s.ctx t seq with
  | some c => if s.tileRuns t && isSend c.w && c.mop.send == .ackDue then .next (s.retireSend c) else .next s
  | none => .next s

/-- The event of a STALE completion (Table EB.4). -/
def Ctx.staleEvent (c : Ctx) (e q : Nat) : Err :=
  Err.ofJob .deferred 0x06 1 c.t c.job c.mop.seq
    (c.w.peer + 256 * c.w.queue + 2 ^ 32 * (e % 65536) + 2 ^ 48 * (q % 65536)) 0

/-- SEND_COMPLETION: CLOSED or STALE reaches the sender and its SEND retires (R360). -/
def execSendCompletion (t seq : Nat) (s : State) : Out :=
  match s.ctx t seq with
  | some c =>
    if !s.tileRuns t || !isSend c.w then .next s
    else match c.mop.send with
      | .closedDue => .next (s.retireSend c)
      | .staleDue e q => .next ((s.retireSend c).raiseMop c.ring [c.staleEvent e q])
      | _ => .next s
  | none => .next s

/-! ## RECV -/

def isRecv (w : MopWord) : Bool := w.family == Fam.recv

/-- Descriptors of a queue that an unretired RECV of the tile has taken: they stay in their slots until it retires
(R362). -/
def Tile.takenOf (u : Tile) (k : Nat) : List Nat :=
  (u.window.filter (fun m => isRecv m.word && m.word.queue == k)).filterMap (fun m => m.taken.map (fun x => x.2.seq))

/-- The oldest descriptor not yet taken (DESIGN CHOICE, log 38). -/
def Tile.headOf (u : Tile) (k : Nat) : Option ShuttleDesc :=
  (u.queue k).slots.find? (fun d => !(u.takenOf k).contains d.seq)

/-- The RECV's next poll cycle: start, start + 4, … not before the tile's cycle. -/
def pollCycle (start now : Nat) : Nat := start + 4 * ceilDiv (now - start) 4

/-- Latency of a RECV once its take cycle is fixed (R362): `k` counted from its cycle 0. -/
def State.recvLatency (s : State) (c : Ctx) (k : Nat) (d : ShuttleDesc) : Nat :=
  let r := (linesOf d.src d.length).length + (if d.recAddr = 1 then 0 else 1)
  k + 8 + 4 * r + s.pathCycles c.t (pathNs c.t d.src)

/-- The slot of the control page that holds the oldest descriptor not yet taken: its offset in the scratchpad. -/
def Tile.headSlot (u : Tile) (k : Nat) : Nat :=
  controlPage + 1024 * k + 32 * (((u.queue k).head + (u.takenOf k).length) % 32)

/-- RECV_POLL: a read of the queue status word; the first that finds a descriptor fixes the take cycle, in which the head
slot is read: a stale descriptor is freed and polling resumes; a slot that cannot be read is taken, and the RECV will write
zeros with FAULTED. The pull of a record's line and the payload's draws tokens; it waits for the tile's memory allotment (R89,
R103, R361, R467, Table SQ.6; DESIGN CHOICE, log 38). -/
def execRecvPoll (t seq : Nat) (s : State) : Out :=
  s.withReady t seq isRecv fun c =>
    if c.mop.taken.isSome then s
    else
      let start := c.mop.start.getD 0
      let cyc := pollCycle start (s.tile t).cycle
      let k := c.w.queue
      match (s.tile t).headOf k with
      | none => s.tileAt t (cyc + 1)
      | some d =>
        let q := (s.tile t).queue k
        let s := s.tileAt t (cyc + 1)
        let slot := (s.tile t).headSlot k
        let bad := s.remoteBad t slot 32
        let lines := linesOf d.src d.length ++ (if d.recAddr = 1 then [] else linesOf d.recAddr 64)
        let full := c.job.mode.check == .full
        if !s.covers t (requestTokens t full (lines.take 1)) then s
        else
        let s := (s.remoteRead t slot 32).1
        if !bad ∧ d.epoch ≠ q.epoch then
          ((s.freeSlot t k d).endSend d (.staleDue d.epoch q.epoch)).count .shuttleStale d.sender 1
        else
          let s := s.mapQueue t k (fun q => { q with taken := (q.taken + 1) % 2 ^ 32 })
          let s := s.mapMop t seq (fun m =>
            { m with taken := some (cyc + 1, d), badHead := bad, latency := s.recvLatency c (cyc + 1 - start) d })
          ((s.freeEngines c (cyc + 1)).count .shuttleRecvs t 1).drawTokens t (requestTokens t full lines)

/-- Whether the payload or the record of a descriptor cannot be read: a poisoned line, a marked granule or an
uncorrectable word (R89, R103, Table MS.6). -/
def State.payloadBad (s : State) (a n : Nat) : Bool :=
  match home a with
  | .scratch x off => s.remoteBad x off n
  | _ => (linesOf a n).any s.linePoison.contains

/-- An unreadable word of a sender's scratchpad marks its granule (R89). -/
def State.markSource (a n : Nat) (s : State) : State :=
  match home a with
  | .scratch x off => (s.remoteRead x off n).1
  | _ => s

/-- The record that a RECV pulls, checked as an input of its OPND2. -/
def State.recvRecord (s : State) (c : Ctx) (v : View) (d : ShuttleDesc) : RecIn :=
  let b := if s.payloadBad d.recAddr 64 then List.replicate 64 0 else s.readZeroed d.recAddr 64
  checkRecord s b [1, 2, 3, 4] none c.job.image.psetRef.toNat v.desc false false

/-- The cycle in which the last byte of the first 4 KiB granule of a RECV's destination lands: one line in 4 cycles, the
record's before the payload's (R259, R362; DEDUCED, log 36). -/
def State.recvGranule (s : State) (c : Ctx) (k : Nat) (d : ShuttleDesc) (lo hi : Nat) : Nat :=
  let n := (linesOf d.src (min (4096 - lo % 4096) (hi - lo))).length + (if d.recAddr = 1 then 0 else 1)
  k + 4 * n + s.pathCycles c.t (pathNs c.t d.src)

/-- The record that a RECV writes to every batch of its OPND2: the one that the descriptor names, copied (R560). Where it reads no
source record (REC = 1 with a typed OPND2, or a head slot that cannot be read) every field but FORMAT, FLAGS and CHECK is 0,
DOMAIN too (DESIGN CHOICE, log 38). -/
def recvOut (x : Option RecIn) (new flags b : Nat) : BatchOut :=
  { b := b, newFlags := new, flags := flags, record := x.elim Rec.zero (fun x => x.r), data := [] }

/-- What a RECV leaves in its destination: the payload, then the records, each through the windows of another tile where it
lies in that tile's scratchpad (R346, R369). -/
def State.recvWrite (c : Ctx) (v : View) (bytes : List Byte) (outs : List BatchOut) (s : State) : State :=
  let r := State.tileStore c v.dataRange.1 bytes (s, none)
  let r := outs.foldl (fun r o => State.dmaRecord c v o r) r
  r.1.noteDrop c r.2

/-- RECV: once it has taken a descriptor, the record and the payload are pulled and written (R361, R362). Where OPND2 holds
several batches, the one record that the descriptor names is copied to each of them (R560; DESIGN CHOICE, log 38). The pull
waits while the tile it reads from is frozen (R465). -/
def execRecv (t seq : Nat) (s : State) : Out :=
  s.withReady t seq isRecv fun c =>
    match c.mop.taken, c.view 2 with
    | some (k, d), some v =>
      if !s.openTo t d.src then s
      else
      let r := v.dataRange
      let typed := v.desc.recorded
      let range := !c.mop.badHead && (d.length != r.2 - r.1 || (d.recAddr == 1) == typed)
      let bad := c.mop.badHead || s.payloadBad d.src d.length || (typed && d.recAddr != 1 && s.payloadBad d.recAddr 64)
      let x := if typed && d.recAddr != 1 && !c.mop.badHead then some (s.recvRecord c v d) else none
      let new := orFlags [if range then Flag.range else 0, if bad then Flag.faulted else 0, x.elim 0 (fun x => x.newFlags)]
      let flags := new ||| x.elim 0 (fun x => x.r.flags)
      let bytes := if flags = 0 then s.readZeroed d.src d.length else List.replicate (r.2 - r.1) 0
      let s := s.markSource d.src d.length
      let s := if typed && d.recAddr != 1 then s.markSource d.recAddr 64 else s
      let s := s.recvWrite c v bytes (if typed then v.outBatches.map (recvOut x new flags) else [])
      let s := if new = 0 then s
        else s.mapMop t seq (fun m => { m with events := m.events ++ [c.poisonEvent t seq new 1] })
      let s := match home d.src with
        | .scratch x _ => if x = t then s else s.count .remoteBytesRead t d.length
        | _ => s
      let s := if c.w.chain = 1 then s.unitDone c (s.recvGranule c k d r.1 r.2) else s
      s.markDone c
    | _, _ => s

/-- At its retirement a RECV frees its slot and sends the acknowledgement, a packet to the sender (R362, Table PW.5). -/
def State.ackRecv (c : Ctx) (s : State) : State :=
  match c.mop.taken with
  | some (_, d) => (s.giveBack c.t c.w.queue d).drawTokens c.t (packetTokens c.job c.t d.sender)
  | none => s

/-- Whether the descriptor a RECV took is the oldest in its queue, or no longer in it: deliveries end in order. -/
def State.recvFirst (s : State) (c : Ctx) : Bool :=
  match c.mop.taken with
  | some (_, d) =>
    let slots := ((s.tile c.t).queue c.w.queue).slots
    !slots.contains d || (slots.head?).elim true (fun x => x.seq == d.seq)
  | none => true

/-! ## SHQ_CTRL.RESET -/

/-- SHQ_CTRL.RESET: the queue behind a requester's TILE_SEL and QUEUE_SEL. -/
def State.shqReset (q : Requester) (s : State) : State :=
  let t := (s.selects q).tile
  if t ≥ 208 then s else s.advanceEpoch t (s.selects q).queue

/-- SHQ_RESET: the queue that the requester's TILE_SEL and QUEUE_SEL name (R365). -/
def execShqReset (q : Requester) (s : State) : Out :=
  .next ((s.unlatch).gated q 0x030124 (State.shqReset q))

/-! ## WIN -/

/-- What keeps a WIN from its writer map: a poisoned line, or a word of another tile's scratchpad that cannot be read
(R112, Table MS.6). -/
def State.winStop (s : State) (c : Ctx) (map : Nat) : Option AbortCause :=
  match s.badLine [(map, 26)] with
  | some a => some (.memLine a)
  | none => if (s.badRemote c.t [(map, 26)]).isSome then some .remote else none

/-- WIN: the window is opened or replaced, and its epoch advances (R370). A writer map on a marked granule raises FAULTED, and the
poisoned map counts as all zeros, which closes the window (R58, R71, Table CT.12; DESIGN CHOICE, log 40). -/
def execWin (t seq : Nat) (s : State) : Out :=
  s.withReady t seq (fun w => w.family == Fam.win) fun c => s.guarded c fun s =>
    match c.view 0, c.view 1 with
    | some v, some m =>
      match (if c.plainMarks = 0 then s.winStop c m.base else none) with
      | some cause => s.stopMop c cause
      | none =>
      let r := round64 v.dataRange
      let map := if c.plainMarks = 0 then BitVec.ofNat 208 (leNat (s.readZeroed m.base 26)) else 0
      let s := s.mapTile t (fun u =>
        let x : Window :=
          { isOpen := map != 0, lo := r.1 - scratchAddr t 0, hi := r.2 - scratchAddr t 0, writers := map,
            epoch := ((u.winAt (c.w.immBits 2 0)).epoch + 1) % 65536 }
        { u with windows := Tab.put u.windows (c.w.immBits 2 0) x })
      let s := if c.plainMarks = 0 then s
        else s.mapMop t seq (fun m => { m with events := m.events ++ [c.poisonEvent t seq c.plainMarks 1] })
      s.markDone c
    | _, _ => s.markDone c

/-! ## BAR -/

/-- BARRIER (Table OP.4). -/
def MopWord.barrier (w : MopWord) : Nat := w.immBits 3 0

def isBar (w : MopWord) : Bool := w.family == Fam.bar

/-- BAR: the tile arrives at its barrier (R377; DESIGN CHOICE, log 72). -/
def execBar (t seq : Nat) (s : State) : Out :=
  s.withReady t seq isBar fun c =>
    (s.mapMop t seq (fun m => { m with waitSince := s.clock })).mapJob c.ring (fun j =>
      { j with barriers := (List.zip (List.range j.barriers.length) j.barriers).map (fun b =>
          if b.1 = c.w.barrier ∧ !b.2.arrived.contains t then { b.2 with arrived := insertNat t b.2.arrived } else b.2) })

/-- A BAR that has arrived at the current use of its barrier and waits for its resolution (DESIGN CHOICE, log 72). -/
def Ctx.barWaiting (c : Ctx) : Bool :=
  isBar c.w && ((c.job.barriers[c.w.barrier]?).elim false (fun b => b.arrived.contains c.t))

/-! ## The stall watchdog (R367) -/

/-- A SEND that waits for a slot, a RECV before its take cycle, or a BAR before its resolution. -/
def Ctx.stallable (c : Ctx) : Bool :=
  c.mop.start.isSome && !c.mop.done &&
    ((isSend c.w && c.mop.send == .waitSlot) || (isRecv c.w && c.mop.taken.isNone) || c.barWaiting)

/-- The stall event (Table EB.4). -/
def Ctx.stallEvent (c : Ctx) : Err :=
  let bar := isBar c.w
  Err.ofJob .deferred 0x07 1 c.t c.job c.mop.seq
    (c.w.opcode + 65536 * (if bar then c.w.barrier else c.w.peer) + (if bar then 0 else 2 ^ 32 * c.w.queue)) (flag bar)

/-- STALL_WATCHDOG: a macro-operation that has waited SHUTTLE_WDOG.INTERVAL raises its one stall event, posted at once
(R447). -/
def execStallWatchdog (t seq : Nat) (s : State) : Out :=
  match s.ctx t seq with
  | some c =>
    if s.tileRuns t && c.stallable && !c.mop.stalled && s.wdog != 0 then
      let s := s.until (c.mop.waitSince + 1000 * s.wdog)
      .next (((s.mapMop t seq (fun m => { m with stalled := true })).count .shuttleStalls t 1).raise [c.stallEvent])
    else .next s
  | none => .next s

end Sys2Proof.Machine
end

