-- ==== Sys2Proof/Machine/Mops.lean ====
section
/-!
DEFINITION. The sequencer (03_tile, 08_fused_chains, 09_macro_operations): segments, offers with the issue checks, admission,
group starts, retirement, aborts; barriers (R374-R379); chain stages that resume; packets that arrive damaged.
-/
namespace Sys2Proof.Machine

/-! ## Segments (R294-R296) -/

/-- Bytes of a segment in the image. -/
def State.segmentBytes (s : State) (j : Job) (e : TileEntry) (k : Nat) : List Byte :=
  s.readZeroed (j.image.base + e.stream + 131072 * k) (32 * e.segWords k)

/-- A stored check value of a segment. -/
def State.segmentCheck (s : State) (j : Job) (e : TileEntry) (k : Nat) : Nat :=
  leNat (s.readZeroed (j.image.base + e.segCrc + 4 * k) 4)

/-- A tile's job, while it runs: not ended, not recovering. -/
def State.activeJob (s : State) (t : Nat) : Option Job :=
  match s.runningJob t with
  | some j => if j.recovery.isSome || !s.tileRuns t then none else some j
  | none => none

/-- SEGMENT_FETCH_DONE: the oldest fetch of a tile ends, `cycles` tile cycles on (DESIGN CHOICE, log 4). -/
def execSegmentFetchDone (t cycles : Nat) (s : State) : Out :=
  match s.activeJob t, (s.tile t).entry, (s.tile t).store.find? (fun g => g.usable.isNone) with
  | some j, some e, some g =>
    let bs := s.segmentBytes j e g.index
    let put (f : Segment → Segment) (s : State) : State := s.mapTile t (fun u =>
      { u with store := u.store.map (fun x => if x.index == g.index then f x else x) })
    if crc32c bs = s.segmentCheck j e g.index then
      let words := (List.range (e.segWords g.index)).map (fun i => MopWord.parse (slice bs (32 * i) 32))
      let s := s.count .progSegments t 1
      .next (put (fun x => { x with words := words, usable := some ((s.tile t).cycle + cycles), fetches := x.fetches + 1 }) s)
    else if g.fetches = 0 then
      let s := s.count .progSegRefetch t 1
      .next (put (fun x => { x with fetches := 1 }) s)
    else
      let s := s.raise [Err.ofJob .deferred 0x05 1 t j 0 g.index 0]
      .next (s.stopJob j.ring { status := 0x11, tile := t, code := 0, seq := g.index })
  | _, _, _ => .next s

/-! ## Offers (R91, R295, R303) -/

/-- Offer cycle by R91, where an admission came before (DEDUCED, log 34). -/
def Tile.dueCycle (u : Tile) (w : MopWord) : Option Nat := u.lastAdmit.map (fun a => a + w.issue + 1)

/-- The first word of segment k ≥ 1 is offered: segment k + 1 takes the half of segment k − 1 (R294). -/
def Tile.nextFetch (u : Tile) (i : Nat) : Tile :=
  match u.entry with
  | some e =>
    let k := i / 4096
    if i % 4096 = 0 ∧ 1 ≤ k ∧ !u.store.any (fun g => g.index == k + 1) then
      { u with store := u.store.filter (fun g => g.index != k - 1) ++ e.fetching (k + 1) }
    else u
  | none => u

/-- MACRO_OFFER: the next word is offered in its cycle, a chain head with its stages once their segments are usable; a failing
issue check ends the job (R91, R295, R303). -/
def execMacroOffer (t : Nat) (s : State) : Out :=
  let u := s.tile t
  match s.activeJob t, u.entry, u.store.find? (fun g => g.index == u.next / 4096) with
  | some j, some e, some g =>
    match g.words[u.next % 4096]?, (g.words[u.next % 4096]?).bind (fun w => u.usableFrom (chainReach e u.next w)) with
    | some w, some ready =>
      if u.offer.isSome || decide (e.words ≤ u.next) || (j.committing && j.resolving.isNone) then .next s
      else
        let due := (u.dueCycle w).getD (ready + 1)
        let cycle := max due (ready + 1)
        let s := (s.count .progFetchWaitCycles t (cycle - due)).count .offers t 1
        match s.refusal j t u.next (s.chainWords t e u.next w) with
        | some (seq, code, creation) =>
          let s := (s.count .issueRefused t 1).raise [Err.ofJob .deferred 0x04 1 t j seq (code + 256 * creation) 0]
          .next (s.stopJob j.ring { status := 0x10, tile := t, code := code, seq := seq })
        | none =>
          let i := u.next
          .next (s.mapTile t (fun u =>
            { (u.nextFetch i) with next := i + 1, offer := some { word := w, cycle := cycle, counted := cycle } }))
    | _, _ => .next s
  | _, _, _ => .next s

/-! ## Admission (R93-R95, R248) -/

/-- A group run that a member's macro-operation joins: the first of its ring, entry and opcode that lacks the tile. -/
def State.joinRun (c : Ctx) (g : GroupEntry) (k : Nat) (s : State) : State :=
  let m : GMember := { tile := c.t, seq := c.mop.seq, started := false, verdict := none, ring := 0, got := 0,
                       objects := 0, fin := 0 }
  match s.groups.find? (fun x => x.ring == c.ring && x.group == k && x.opcode == c.w.opcode && (x.member c.t).isNone) with
  | some r => s.mapRun r (fun x => { x with members := x.members ++ [m] })
  | none =>
    let use := (s.groups.filter (fun x => x.ring == c.ring && x.group == k)).foldl (fun n x => max n (x.use + 1)) 0
    { s with groups := s.groups ++ [{ ring := c.ring, group := k, use := use, opcode := c.w.opcode, gsLog := g.gsLog,
                                      sets := g.sets, members := [m], tiles := g.members, lines := [] }] }

/-- GROUP of a group macro-operation. -/
def MopWord.group (w : MopWord) : Nat := if w.family = Fam.ksw then w.kswGroup else w.pbsGroup

/-- One word admitted in a cycle. A member of a group holds its engines, a KSW the NTE, BCE and VE, from its admission on, while it
still waits for the group-start signal (DEDUCED, log 75). A stage behind a chain's head starts with its producer's first unit (R250), a group's
member with the group-start signal (R95), any other in the next cycle (R94). -/
def State.admitOne (c : Ctx) (cycle : Nat) (s : State) : State :=
  let grp := s.groupOf c.job c.w
  let later := c.w.chain != 0 && c.w.cstage != 0
  let time := s.timing c
  let starts := grp.isNone && !later
  let m : Mop := { c.mop with
    admitted := cycle, start := if starts then some (cycle + 1) else none, ready0 := if grp.isNone then some cycle else none,
    unitAfter := s.unitAfterOf c, interval := time.2, ranges := c.entries, marked := s.marksOf c, latency := time.1,
    waitSince := s.clock }
  let s := (s.mapTile c.t (fun u => { u with window := u.window ++ [m] })).repace c.t
  let s := c.w.engines.foldl (fun s e => s.setEngine c.t e
    (match time.2 with | some i => if starts then some (cycle + 1 + i) else none | none => none)) s
  let s := match grp with
    | some g => s.joinRun c g c.w.group
    | none => s
  if c.w.isDma then s.beginDma { c with mop := m } else s

/-- MACRO_ADMIT: what a tile offers is admitted in the first cycle in which every condition holds. -/
def execMacroAdmit (t : Nat) (s : State) : Out :=
  match s.activeJob t, (s.tile t).offer, s.offered t with
  | some _, some o, c :: rest =>
    let cs := c :: rest
    match (s.tile t).staticBlock cs, (s.tile t).engineCycle cs with
    | none, some x =>
      if (s.tile t).chainBlock cs then .next s
      else
        let a := max o.counted x
        let s := (s.count .admitWaitEngine t (a - o.counted)).tileAt t a
        let s := match c.chain with
          | some ch =>
            ((s.mapTile t (fun u => { u with chains := u.chains ++ [ch] })).count .fcChains t 1).countMax
              .fcHoldBytesPeak t ch.size
          | none => s
        let s := s.count .offers t rest.length
        let s := (List.zip (List.range cs.length) cs).foldl (fun s p => s.admitOne p.2 (a + p.1)) s
        .next (s.mapTile t (fun u =>
          { (rest.foldl (fun u x => u.nextFetch x.mop.seq) u) with
            offer := none, next := c.mop.seq + cs.length, lastAdmit := some (a + rest.length) }))
    | _, _ => .next s
  | _, _, _ => .next s

/-! ## Group starts (R95, R179) -/

/-- The key image or key pair of a macro-operation is streamed. -/
def MopWord.streamsKey (w : MopWord) : Bool := w.family == Fam.pbs || (w.family == Fam.ksw && w.kswStreams)

/-- The key image or key pair that a macro-operation streams: where it begins and its bytes. -/
def Ctx.streamed (c : Ctx) (p : PSet) (base : Nat) : Nat × Nat :=
  let seeded := c.job.mode.keyfeed == .seeded
  if c.w.family = Fam.pbs then
    let r := (pairRanges base (2 ^ c.w.ringLog) p seeded).getLastD (base, 0)
    (base, r.1 + r.2 - base)
  else keyImage base c.w.kswKind p seeded

/-- The own tile cycles from a member's admission to the group-start signal: 8 after the last admission on the group leader's
die, on another die at most 8 and twice the crossing latency after it (R179). `delay` is what the state does not give: how
long the last admission was in coming and, on another die, how long the signal took (DESIGN CHOICE, log 53). -/
def State.signalDelay (s : State) (g : GroupRun) (t delay : Nat) : Nat :=
  let last := (g.members.getLast?).any (fun m => m.tile == t)
  let hops := dieHops (dieOfTile (g.tiles.headD 0)) (dieOfTile t)
  if hops = 0 then 8 + (if last then 0 else delay)
  else if last then min delay (8 + s.pathCycles t (24 * hops))
  else delay

/-- GROUP_START: once every member has admitted the macro-operation, the signal reaches a member, and its key stream asks for
its place at each Bobbin whose stack holds a line of the image (R95, R179, R341; DESIGN CHOICE, log 4). -/
def execGroupStart (t seq delay : Nat) (s : State) : Out :=
  match s.ctx t seq with
  | none => .next s
  | some c =>
    match s.runOf c.ring t seq with
    | none => .next s
    | some g =>
      if !s.tileRuns t || !g.complete || (g.member t).any (·.started) then .next s
      else
        let signal := c.mop.admitted + s.signalDelay g t delay
        let first : Option Nat := match c.chain with
          | some ch =>
            if c.w.cstage = 0 then some (signal + 1)
            else (ch.units.find? (fun u => u.1 + 1 == c.w.cstage)).map (fun u => max signal u.2 + 1)
          | none => some (signal + 1)
        let s := s.mapMop t seq (fun m => { m with ready0 := some signal, start := first })
        let s := s.mapMember g t (fun m => { m with started := true })
        match s.runOf c.ring t seq, c.view 1, s.pset c.w.pset with
        | some g, some v, some p =>
          let r := c.streamed p v.base
          .next (if g.allStarted && c.w.streamsKey then
            (imageStacks r.1 r.2).foldl (fun s k => s.beginStream k g.stream) s else s)
        | _, _, _ => .next s

/-! ## Retirement (R94, R100) -/

/-- The counters of a retirement's held cycles, for wide engines, the tile DMA and a BAR; a VE, Shuttle or sequencer operation
has none (R84, R86, R318). Held cycles of an MXP, a KSW and a PBS have a counter of their own beside the tile's (Table MX.9,
R181, R207). -/
def MopWord.heldCounters (w : MopWord) : List Ctr :=
  if [19, 20, 21, 22, 27].contains w.family then [.dmaExcessCycles]
  else if w.family = Fam.bar then [.barWaitCycles]
  else if w.family = Fam.mxp then [.wideHeldCycles, .mxeHeldCycles]
  else if w.family = Fam.ksw then [.wideHeldCycles, .kswKeyWaitCycles]
  else if w.family = Fam.pbs then [.wideHeldCycles, .pbsKeyWaitCycles]
  else if w.family ≤ 6 ∨ w.family = Fam.pack then [.wideHeldCycles]
  else []

/-- MACRO_RETIRE: a macro-operation whose effect is taken retires in its cycle L, the held cycles later than its latency says; a
KSW waited `exchange` of them for data from another member. REFRESH_CLOSE counts each RESCALE and MODDOWN with CLOSE here, a
poisoned one too (DESIGN CHOICE, log 4, log 50, log 72, log 74). -/
def execMacroRetire (t seq : Nat) (held : HeldCycles) (s : State) : Out :=
  match s.ctx t seq with
  | none => .next s
  | some c =>
    if !s.tileRuns t || !c.mop.done || c.mop.stop.isSome || isSend c.w || (isRecv c.w && !s.recvFirst c) then .next s
    else
      let bar := isBar c.w
      let n := if !emptyList c.w.heldCounters then (if bar then max 1 held.total else held.total) else 0
      let cycle := c.mop.start.getD 0 + (if bar then 0 else c.mop.latency) + c.mop.held + n
      let s := c.w.heldCounters.foldl (fun s k => s.count k t n) s
      let s := if c.w.family = Fam.ksw then s.count .kswExchangeWaitCycles t (min held.exchange held.total) else s
      let s := s.delayEngines c n
      let s := if [Fam.moddown, Fam.rescale].contains c.w.family && bit c.w.imm 0 then s.count .refreshClose t 1 else s
      let s := if isRecv c.w then s.ackRecv c else s
      .next (s.retireMop c cycle)

/-! ## Aborts (R88, R112, R113, R443) -/

/-- Cause code of an ABORT error (Table EB.4) and the memory address it names. -/
def abortCode : AbortCause → Nat
  | .scratchWord _ => 1
  | .transit => 2
  | .memLine _ => 3
  | .remote => 1

def abortAddress : AbortCause → Nat
  | .memLine a => a
  | _ => 0

/-- The abort carried out: all that stops with the macro-operation, then a recovery without takeover, or a DEFERRED
ABORT under GUARD = OFF and for an abort repeated in the replay, where R447 holds it (DESIGN CHOICE, log 21). -/
def State.abortBy (c : Ctx) (cause : AbortCause) (s : State) : State :=
  let s := s.abortAll (s.abortSet c)
  let key := (c.t, c.mop.seq, abortCode cause)
  if c.job.mode.guard = .off ∨ c.job.aborted.contains key then
    s.raiseMop c.ring [Err.ofJob .deferred 0x0A 1 c.t c.job c.mop.seq (abortAddress cause) (abortCode cause)]
  else (s.mapJob c.ring (fun j => { j with aborted := key :: j.aborted })).startRecovery c.ring none 0xFE (s.abortNames c)

/-- MACRO_ABORT: a cause of Table TL.6 that the macro-operation has met, or that the command names. -/
def execMacroAbort (t seq : Nat) (cause : AbortCause) (s : State) : Out :=
  match s.ctx t seq with
  | none => .next s
  | some c =>
    if !s.tileRuns t || c.job.ending.isSome then .next s
    else match c.mop.stop with
      | some k => .next (s.abortBy c k)
      | none =>
        if !s.meets c cause then .next s
        else match cause with
          | .scratchWord o =>
            let s := s.markGranule t (o / 4096)
            let s := s.mapTile t (fun u => { u with eccDouble := insertNat (o / 4 * 4) u.eccDouble })
            .next (s.abortBy c cause)
          | _ => .next (s.abortBy c cause)

/-! ## Word errors and packets -/

/-- SCRATCH_ECC_WRITEBACK: a bank writes back a word with a single-bit error corrected; it is only counted (R87). -/
def execScratchEccWriteback (t _off : Nat) (s : State) : Out :=
  if !s.pins.allGood then .next s
  else .next ((s.count .eccCorrected t 1).raise [Err.plain .corrected 0 0 0 0 0])

/-- Source of a packet's sender (Table EB.3). -/
def packetSource (p : PacketPath) (t : Nat) : Nat × Nat :=
  match p with
  | .ground => (1, t)
  | .bridge b => (4, b)
  | .fanout k => (2, k)

/-- The bridges that packets from where an address lies cross on their way to a die; those from the host come in by the
die's own bridge to HD (R17, Table DV.2). -/
def inboundBridges (d a : Nat) : List Nat :=
  match home a with
  | .hbm k _ => dieRoute (k / 3) d
  | .near k _ => dieRoute k d
  | .scratch x _ => dieRoute (dieOfTile x) d
  | .host => [4 + d]
  | .unmapped => []

/-- The bridges by which packets reach a macro-operation: from its ranges, a RECV's payload and record, its SEND's
receiver, and a group's other members. -/
def State.packetBridges (s : State) (c : Ctx) : List Nat :=
  let d := dieOfTile c.t
  let peers := (if c.w.family = Fam.send then [c.w.peer] else []) ++ (s.groupOf c.job c.w).elim [] (·.members)
  (c.outer.flatMap c.rangesAt).flatMap (fun r => inboundBridges d r.1 ++ inboundBridges d (r.2 - 1)) ++
    c.mop.taken.elim [] (fun x => inboundBridges d x.2.src ++ inboundBridges d x.2.recAddr) ++
    peers.flatMap (fun x => dieRoute (dieOfTile x) d)

/-- Whether packets of a path reach the macro-operation: the key fan-out of a stack carries regenerated words, to the tiles
of its die only (R167). -/
def State.onPath (s : State) (c : Ctx) (p : PacketPath) : Bool :=
  match p with
  | .ground => true
  | .bridge b => (s.packetBridges c).contains b
  | .fanout k => (c.w.family == Fam.ksw || c.w.family == Fam.pbs) && decide (c.job.mode.keyfeed = Keyfeed.seeded) &&
      k / 3 == dieOfTile c.t

/-- PACKET_RECEIVE: a single-bit error is corrected; an uncorrectable word, or a check value that disagrees, has the packet
resent up to three times; when every resend fails, the macro-operation meets an abort cause (Table MS.5; DEDUCED, log 80). -/
def execPacketReceive (path : PacketPath) (t seq : Nat) (error : ReadError) (s : State) : Out :=
  match s.ctx t seq with
  | none => .next s
  | some c =>
    if !s.tileRuns t || c.mop.start.isNone || c.mop.done || !s.onPath c path then .next s
    else match error with
      | .clean => .next s
      | .single => .next ((s.count .memEccCorrected 0 1).raise [Err.plain .corrected 0 0 0 0 0])
      | .uncorrectable n =>
        if n = 0 then .next s
        else if n ≤ 3 then
          let src := packetSource path t
          .next ((s.count .linkResends 0 n).raise [Err.ofJob .contained 0x21 src.1 src.2 c.job seq 0 n])
        else .next ((s.count .linkResends 0 3).stopMop c .transit)

/-! ## NOP -/

/-- NOP: occupies its window slot and retires in its cycle 1. -/
def execNop (t seq : Nat) (s : State) : Out :=
  s.withReady t seq (fun w => w.family == Fam.nop) fun c => s.markDone c

/-! ## Chain stages (R252) -/

/-- A stage whose intermediate passes through a ring. -/
def ChainRun.fills (ch : ChainRun) (stage : Nat) : Bool := (ch.inters[stage]?).elim false (·.ring)

/-- CHAIN_STAGE_RESUME: a stage held on an incomplete unit, or as the producer on a full ring slot, goes on after
`cycles` held cycles (DEDUCED, log 36). -/
def execChainStageResume (t seq cycles : Nat) (ringFull : Bool) (s : State) : Out :=
  match s.ctx t seq with
  | none => .next s
  | some c =>
    match c.chain with
    | none => .next s
    | some ch =>
      if !s.tileRuns t || c.mop.start.isNone || c.mop.stop.isSome then .next s
      else if (if ringFull then ch.fills c.w.cstage else c.w.cstage != 0) then
        let s := s.count (if ringFull then .fcRingFullCycles else .fcArrivalWaitCycles) t cycles
        let s := s.delayEngines c cycles
        .next (s.mapMop t seq (fun m => { m with held := m.held + cycles }))
      else .next s

/-! ## Barriers (R374-R379) -/

/-- A barrier whose members are all the job's tiles. -/
def Job.deviceWide (j : Job) (b : Barrier) : Bool :=
  j.tileIds.all (fun t => b.members.contains t) && b.members.all (fun t => j.tileIds.contains t)

/-- BARRIER_RESOLVE: every member has arrived and every write-combining entry is written back; at a device-wide barrier
windows close, schedules step and, under GUARD, a commit runs before the BARs retire (DESIGN CHOICE, log 72). -/
def execBarrierResolve (d : RingDrain) (barrier : Nat) (s : State) : Out :=
  match s.job d.ring with
  | none => .next s
  | some j =>
    match j.barriers[barrier]? with
    | none => .next s
    | some b =>
      if s.errs.fatal || j.ending.isSome || j.recovery.isSome || j.committing || emptyList b.members ||
          !b.members.all (fun t => b.arrived.contains t) then .next s
      else
        let s := b.members.foldl (fun s t => s.count .barResolved t 1) (s.mergeReads d.merges).writeBackAll
        if j.deviceWide b then
          let s := b.members.foldl (fun s t => s.closeWindows t) s
          let s := (s.mapJob d.ring (fun j => { j with epoch := j.epoch + 1 })).stepScheds d.ring barrier
          if j.mode.guard = .off then .next (s.releaseBars d.ring barrier)
          else .next ((s.mapJob d.ring (fun j => { j with resolving := some barrier })).beginCommit d.ring)
        else .next (s.releaseBars d.ring barrier)

end Sys2Proof.Machine
end

