-- ==== Sys2Proof/Machine/Power.lean ====
section
/-!
DEFINITION. The pacer, the DVFS sequencer, heat and power-down (14_power_clocks, R451-R484).
-/
namespace Sys2Proof.Machine

/-! ## Charging (R459, R466) -/

/-- ΔB_d (Table PW.6): SLEW × V × 4,000, with V in mV; a SLEW above 60 A/µs is never applied (R474). -/
def State.slewStep (s : State) (d : Nat) : Nat := min 60 (s.die d).slew * Config.perfVolt d (s.die d).point * 4

/-- Tile cycles in a slot at a performance point (Table PW.2). -/
def slotCycles (p : Nat) : Nat := [144, 120, 105, 90, 75, 60, 45, 30].getD p 30

/-- The tile's last sample is at or above T_SLOW. -/
def State.hotTile (s : State) (t : Nat) : Bool := decide ((s.die (dieOfTile t)).tSlow ≤ (s.tile t).temp)

/-- D_t (Table PW.6; DESIGN CHOICE, log 55). -/
def State.coreDemand (s : State) (t : Nat) : Nat :=
  if s.paced t then
    let n := s.rate t * slotCycles (s.die (dieOfTile t)).point
    if s.hotTile t then n / 2 else n
  else 0

/-- D'_t (Table PW.6; DESIGN CHOICE, log 55). -/
def State.memDemand (s : State) (t : Nat) : Nat :=
  if s.paced t && (s.tile t).window.any (fun m => decide (19 ≤ m.word.family) && decide (m.word.family ≤ 24))
  then 4 * slotCycles (s.die (dieOfTile t)).point * 102 else 0

/-! ## Allotments (Table PW.7) -/

/-- The bits of a level from the highest down: the largest value whose cost stays within a bound. -/
def levelBits (cost : Nat → Nat) (bound : Nat) : Nat → Nat → Nat
  | 0, acc => acc
  | b + 1, acc => levelBits cost bound b (if cost (acc + 2 ^ b) ≤ bound then acc + 2 ^ b else acc)

/-- The largest level below 2^18, which lies above every demand, that demands can be served to within a bound. -/
def waterLevel (ds : List Nat) (bound : Nat) : Nat := levelBits (fun l => total (ds.map (min l))) bound 18 0

/-- What the pacer computes for one tile of a slot. -/
structure Allot where
  tile : Nat
  demand : Nat
  /-- min(D_t, λ_d) -/
  capped : Nat
  core : Nat
  mem : Nat
deriving DecidableEq, Repr

/-- Steps 2 and 3: each tile's share, and λ (DESIGN CHOICE, log 55). -/
def State.shares (s : State) (module : Nat) : List Allot :=
  let capped := (List.range 4).flatMap (fun d =>
    let ts := (List.range 52).map (52 * d + ·)
    let l := waterLevel (ts.map s.coreDemand) ((s.die d).spent + s.slewStep d)
    ts.map (fun t => (t, s.coreDemand t, min (s.coreDemand t) l)))
  let l := waterLevel (capped.map (·.2.2)) module
  capped.map (fun x => { tile := x.1, demand := x.2.1, capped := x.2.2, core := min x.2.2 l, mem := 0 })

/-- Step 4's second half on one die: when every tile receives its demand, the smaller remainder is divided among the
die's tiles in a job. Answers the shares and what is left of the module's remainder (DESIGN CHOICE, log 55). -/
def State.bonus (s : State) (d : Nat) (acc : List Allot × Nat) : List Allot × Nat :=
  let mine := acc.1.filter (fun a => dieOfTile a.tile == d)
  let jobs := (mine.filter (fun a => s.paced a.tile)).length
  if jobs = 0 || mine.any (fun a => a.core != a.demand) then acc
  else
    let left := min ((s.die d).spent + s.slewStep d - total (mine.map (·.core))) acc.2
    let each := left / jobs
    (acc.1.map (fun a => if dieOfTile a.tile == d && s.paced a.tile then { a with core := a.core + each } else a),
      acc.2 - each * jobs)

/-- Step 5. -/
def State.memShares (s : State) (l : List Allot) (left : Nat) : List Allot :=
  let level := waterLevel ((List.range 208).map s.memDemand) left
  l.map (fun a => if s.memDemand a.tile = 0 then a else { a with mem := max 102 (min (s.memDemand a.tile) level) })

/-- Core tokens that a tile spends in the slot that ends: what it has drawn, and the rate of every cycle that its allotment still
covers, since a tile in a job runs as long as it can (R465; DESIGN CHOICE, log 74). -/
def State.slotSpent (s : State) (t : Nat) : Nat :=
  (s.tile t).drawn + (if s.paced t then (s.tile t).runs * s.rate t else 0)

/-- The slot that ends, on a die: its consumption E_d with the ballast of R472 (while its tiles stand still for a change of
frequency the ballast holds the last one, Table PW.3), and its counters. -/
def State.slotDie (d : Nat) (s : State) : State :=
  let x := s.die d
  let ts := (List.range 52).map (52 * d + ·)
  let spending := total (ts.map s.slotSpent)
  let keep := if x.still then x.spent else x.spent - s.slewStep d
  let ballast := keep - spending
  let s := s.mapDie d (fun x => { x with
    spending := spending, spent := spending + ballast, ramping := x.ramping && decide (spending + ballast ≠ 0) })
  let s := { s with power := { s.power with winBallast := s.power.winBallast || decide (ballast ≠ 0) } }
  let s := (s.count .coreTokens d spending).count .ballastTokens d ballast
  ts.foldl (fun (s : State) t =>
    if s.paced t then s.count .tileFrozenCycles t ((s.tile t).slotLeft - (s.tile t).runs) else s) s

/-- What a slot's allotments mean for a die: whether the slew cap or the heat of its tiles binds (R469). -/
def State.slotMarks (l : List Allot) (d : Nat) (s : State) : State :=
  let mine := l.filter (fun a => dieOfTile a.tile == d)
  let slewed := mine.any (fun a => a.capped != a.demand)
  let s := s.mapDie d (fun x => { x with still := x.frozen })
  let s := { s with power := { s.power with winSlewing := s.power.winSlewing || slewed } }
  let s := s.count .slewLimitedSlots d (flag slewed)
  s.count .thermalSlots d (flag (mine.any (fun a => s.paced a.tile && s.hotTile a.tile)))

/-- The cycles of a new slot that a tile may use: none outside a job, and none while its die's tiles stand still. -/
def State.slotOf (s : State) (t : Nat) : Nat :=
  if s.paced t && !(s.die (dieOfTile t)).frozen then slotCycles (s.die (dieOfTile t)).point else 0

/-- The allotments of a slot given to the tiles; what is not spent of the last ones is discarded (R469). -/
def State.allot (l : List Allot) (s : State) : State :=
  l.foldl (fun (s : State) a =>
    let n := s.slotOf a.tile
    (s.mapTile a.tile (fun u => { u with
      coreAllot := a.core, drawn := 0, slotLeft := n, memAllot := a.mem - u.memOwed, memOwed := u.memOwed - a.mem,
      limited := a.core < a.capped })).repace a.tile) s

/-- The pacer works from start-up on, while the module is not held in reset. -/
def State.pacing (s : State) : Bool := s.boot.begun && !s.pins.mreset && s.pins.allGood

/-- The module budget M (Table PW.6). -/
def State.budget (s : State) : Nat := (s.power.inForce - s.power.fixed) * 20000

/-- PACER_SLOT (R469, Table PW.7): the slot that ends is settled, then the next one is allotted. -/
def execPacerSlot (s : State) : Out :=
  if !s.pacing then .next s
  else
    let s := s.until s.power.nextSlot
    let s := (List.range 4).foldl (fun s d => State.slotDie d s) s
    let m := s.budget
    let pool := min s.power.serviceDemand (m / 2)
    let l := s.shares (m - pool)
    let limited := l.any (fun a => decide (a.core < a.capped))
    let r := (List.range 4).foldl (fun acc d => s.bonus d acc) (l, m - pool - total (l.map (·.core)))
    let l := s.memShares r.1 r.2
    let s := s.allot l
    let s := (List.range 4).foldl (fun (s : State) d => s.slotMarks l d) s
    .next ({ s with power := { s.power with
      nextSlot := s.power.nextSlot + 200, serviceAllot := pool, serviceDemand := s.power.serviceDemand - pool,
      winLimited := s.power.winLimited || limited } }.count .serviceTokens 0 pool)

/-- The ceiling of MODE.PACE; above 1,500 W it is never applied (R473, R474). -/
def State.ceiling (s : State) : Nat := min 1500 (Tab.at s.power.ceil 1500 s.mode.pace)

/-- PACER_WINDOW (R23, R463, R473). -/
def execPacerWindow (s : State) : Out :=
  if !s.pacing then .next s
  else
    let s := s.until s.power.nextWindow
    let lim := s.power.winLimited
    let s := (s.count .pacerWindows 0 1).count .pacerLimitedWindows 0 (flag lim)
    .next { s with
      dies := s.dies.map (fun d => { d with
        unlimitedWindows := if lim then 0 else d.unlimitedWindows + 1,
        limitedWindows := if lim then d.limitedWindows + 1 else 0 }),
      power := { s.power with
        nextWindow := s.power.nextWindow + 1000, inForce := s.ceiling, limited := lim,
        slewing := s.power.winSlewing, ballast := s.power.winBallast, winLimited := false, winSlewing := false,
        winBallast := false } }

/-! ## Performance points (R458-R464) -/

/-- The P0 conditions of R463: to move to P0, and to stay there. -/
def Die.p0Ok (d : Die) : Bool :=
  if d.point = 0 then decide (d.limitedWindows < 5) && !d.slowFlag
  else d.cool && decide (50 ≤ d.unlimitedWindows)

/-- The target, 0 counting as 1 while the P0 conditions do not hold. -/
def Die.effective (d : Die) : Nat := if d.target = 0 then (if d.p0Ok then 0 else 1) else d.target

/-- The goal of a die (R462); until service firmware is loaded tiles run at P7 (R456). -/
def State.goal (s : State) (d : Nat) : Nat :=
  let x := s.die d
  if s.trust.service.isNone || s.pins.throttle then 7 else max x.effective x.floor

/-- PERF_STATUS.LIMIT: why the goal exceeds TARGET. -/
def State.limitReason (s : State) (d : Nat) : Nat :=
  let x := s.die d
  if s.goal d ≤ x.target then 0
  else if s.pins.throttle then 3
  else if s.trust.service.isNone then 0
  else if x.effective < x.floor then 2
  else 1

/-- The next slot boundary at or after now. -/
def State.slotBoundary (s : State) : Nat :=
  s.clock + (s.power.nextSlot % 200 + 200 - s.clock % 200) % 200

/-- A VOUT write requests a voltage from the die's regulator (R460). -/
def Die.vout (d : Die) (mv : Nat) : Die := { d with voutMv := mv }

/-- Whether a die's sequencer may begin (DESIGN CHOICE, log 56). -/
def State.dvfsMay (s : State) (d : Nat) : Bool :=
  decide (d < 4) && (s.die d).seq.isNone && !(s.die d).avsFault && s.pacing && !s.errs.fatal && !s.power.offRamp &&
    !s.power.safeOff && s.goal d != (s.die d).point

/-- The charge of a die changed: its tiles' remaining cycles follow (R459, R465). -/
def State.repaceDie (d : Nat) (s : State) : State :=
  ((List.range 52).map (52 * d + ·)).foldl (fun s t => State.repace t s) s

/-- The die's tiles freeze at a slot boundary. Where the slot that begins there has been allotted, they stand still in it
(DESIGN CHOICE, log 56). -/
def State.freezeDie (d : Nat) (q : Dvfs) (s : State) : State :=
  let s := s.mapDie d (fun x => { x with seq := some { q with phase := .frozen, since := s.clock } })
  if s.clock < s.power.nextSlot then
    ((List.range 52).map (52 * d + ·)).foldl (fun s t => s.mapTile t (fun u => { u with slotLeft := 0, runs := 0 }))
      (s.mapDie d (fun x => { x with still := true }))
  else s

/-- DVFS_START (Table PW.3, step 1; DESIGN CHOICE, log 56). -/
def execDvfsStart (d : Nat) (s : State) : Out :=
  if !s.dvfsMay d then .next s
  else
    let p := s.goal d
    if p < (s.die d).point then
      .next ((s.mapDie d (fun x => { x.vout (Config.perfVolt d p) with
        charged := p, seq := some { faster := true, point := p, phase := .polling, since := s.clock } })).repaceDie d)
    else
      .next ((s.until s.slotBoundary).freezeDie d { faster := false, point := p, phase := .frozen, since := s.clock })

/-- The sequence of a die, in a phase. -/
def State.dvfsIn (s : State) (d : Nat) (ph : DvfsPhase) : Option Dvfs :=
  if d < 4 ∧ !s.pins.mreset then
    match (s.die d).seq with
    | some q => if q.phase = ph then some q else none
    | none => none
  else none

/-- How long the VOUT write takes on the bus (R460): the example after R464 ends it at 1.6 µs. -/
abbrev voutWriteNs := 1600

/-- AVS_STATUS_POLL (R460): status is read every 2 µs after the write; `reached` is what it reports. -/
def execAvsStatusPoll (d : Nat) (reached : Bool) (s : State) : Out :=
  match s.dvfsIn d .polling with
  | none => .next s
  | some q =>
    let w := q.since + voutWriteNs
    let t := w + 2000 * ((s.clock - w) / 2000 + 1)
    if q.since + 100000 < t then .next s
    else
      let s := s.until t
      if !reached then .next s
      else if q.faster then
        .next (s.mapDie d (fun x => { x with seq := some { q with phase := .settling, since := t } }))
      else .next ((s.mapDie d (fun x => { x with seq := none, charged := q.point })).repaceDie d)

/-- DVFS_SETTLE_END: after 2 µs, at the next slot boundary, the die's tiles freeze. -/
def execDvfsSettleEnd (d : Nat) (s : State) : Out :=
  match s.dvfsIn d .settling with
  | none => .next s
  | some q =>
    let s := s.until (q.since + 2000)
    .next ((s.until s.slotBoundary).freezeDie d q)

/-- DVFS_FREEZE_END: after 2 µs the tiles resume at the new clock; a slower sequence then writes VOUT. -/
def execDvfsFreezeEnd (d : Nat) (s : State) : Out :=
  match s.dvfsIn d .frozen with
  | none => .next s
  | some q =>
    let s := (s.until (q.since + 2000)).count .perfChanges d 1
    if q.faster then .next (s.mapDie d (fun x => { x with point := q.point, seq := none }))
    else .next (s.mapDie d (fun x => { x.vout (Config.perfVolt d q.point) with
      point := q.point, seq := some { q with phase := .polling, since := s.clock } }))

/-! ## Alerts (R476, R548) -/

/-- T_ALERT that a sensor outside the tiles is held against: a stack's and a spare tile
site's is its die's, HD's the lowest (DESIGN CHOICE, log 60). -/
def State.sensorAlert (s : State) : Bool :=
  (List.range 4).any (fun d => (s.die d).alertFlag) ||
    (List.range 12).any (fun k => decide ((s.die (k / 3)).tAlert ≤ (s.stack k).temp)) ||
    (List.range 16).any (fun i => decide ((s.die (i / 4)).tAlert ≤ Tab.at s.power.spareTemps 0 i)) ||
    (List.range 4).any (fun d => decide ((s.die d).tAlert ≤ s.power.hubTemp))

/-- The causes of ALERT_N (DESIGN CHOICE, log 60). -/
def State.alertCause (s : State) : Bool :=
  s.errs.fatal || s.boot.stopped || (List.range 4).any (fun d => (s.die d).avsFault) || s.sensorAlert

/-- ALERT_N follows its causes (DESIGN CHOICE, log 60). -/
def State.realert (s : State) : State :=
  if s.alertCause then s.assertAlert else { s with pins := { s.pins with alertN := true } }

/-- AVS_TIMEOUT (R464; DESIGN CHOICE, log 56). -/
def execAvsTimeout (d : Nat) (s : State) : Out :=
  match s.dvfsIn d .polling with
  | none => .next s
  | some q =>
    let s := (s.until (q.since + 100000)).count .avsFaults d 1
    let s := s.mapDie d (fun x => { x with seq := none, avsFault := true })
    .next ((s.raise [Err.plain .deferred 0x0B 5 d q.point 0]).realert)

/-! ## Heat (R475, R476) -/

/-- The largest entry and its first place. -/
def hottest (l : List Nat) : Nat × Nat :=
  (List.zip l (List.range l.length)).foldl (fun (b p : Nat × Nat) => if b.1 < p.1 then p else b) (l.headD 0, 0)

/-- A die's thermal state after a sample of its 52 tiles. -/
def Die.sampled (d : Die) (now : Nat) (ts : List Nat) : Die :=
  let m := hottest ts
  let slow := decide (d.tSlow ≤ m.1)
  let alert := decide (d.tAlert ≤ m.1)
  { d with
    tMax := m.1, tMaxTile := m.2, slowFlag := slow, alertFlag := alert,
    cool := ts.all (fun x => decide (x + 5 < d.tSlow)),
    belowSince := if slow then none else some (d.belowSince.getD now),
    floor := if alert && !d.alertFlag then min 7 (d.floor + 1) else d.floor,
    floorRose := if alert && !d.alertFlag then now + 1000000 else d.floorRose }

/-- Sensors at or above T_TRIP = 115 °C, with their temperatures. The tile sites count from 0: the logical tiles, then from 208 on
the four sites of each die that no logical tile has (DESIGN CHOICE, log 60). -/
def hotSensors (tiles hbm : List Nat) (hub : Nat) : List ((Nat × Nat) × Nat) :=
  ((List.zip (List.range 224) tiles).map (fun (p : Nat × Nat) => ((1, p.1), p.2)) ++
    (List.zip (List.range 12) hbm).map (fun (p : Nat × Nat) => ((2, p.1), p.2)) ++ [((8, 0), hub)]).filter
      (fun (x : (Nat × Nat) × Nat) => decide (115 ≤ x.2))

/-- The source that a sensor's record names: a site without a logical tile names its die (Table EB.3; DESIGN CHOICE, log 60). -/
def sensorSource (x : Nat × Nat) : Nat × Nat := if x.1 = 1 ∧ 208 ≤ x.2 then (5, (x.2 - 208) / 4) else x

/-- The thermal trip (R476). -/
def State.trip (l : List ((Nat × Nat) × Nat)) (s : State) : State :=
  if emptyList l then s
  else
    let s := s.raise (l.map (fun x => Err.plain .fatal 0x30 (sensorSource x.1).1 (sensorSource x.1).2 (x.2 % 256) 0))
    { s with
      pins := { s.pins with thermtripN := false },
      dies := Tab.build 4 (fun d => { (s.die d).vout (Config.perfVolt d 7) with ramping := true }) }

/-- THERMAL_SAMPLE: the sensors of the 224 tile sites, the stacks and HD in °C, every 10 µs (DESIGN CHOICE, log 56, log 60). -/
def execThermalSample (tiles hbm : List Nat) (hub : Nat) (s : State) : Out :=
  if !s.pacing then .next s
  else
    let s := s.until s.power.nextSample
    let hot := hotSensors tiles hbm hub
    let both := hot.filter (fun x => s.power.hot.contains x.1)
    let s := { s with
      tiles := Tab.build 208 (fun t => { s.tile t with temp := tiles.getD t 0 }),
      hbm := Tab.build 12 (fun k => { s.stack k with temp := hbm.getD k 0 }),
      dies := Tab.build 4 (fun d => (s.die d).sampled s.clock (slice2 tiles (52 * d) 52)),
      power := { s.power with
        hubTemp := hub, spareTemps := Tab.build 16 (fun i => tiles.getD (208 + i) 0), hot := hot.map (·.1), nextSample := s.power.nextSample + 10000 } }
    let s := (List.range 4).foldl (fun (s : State) d => s.countMax .tMaxSeen d (s.die d).tMax) s
    .next ((s.trip both).realert)
where
  /-- `n` entries from place `i` on -/
  slice2 (l : List Nat) (i n : Nat) : List Nat := (l.drop i).take n

/-- THERMAL_FLOOR_RISE: again every 1 ms while a tile is at or above T_ALERT. -/
def execThermalFloorRise (d : Nat) (s : State) : Out :=
  if d < 4 ∧ (s.die d).alertFlag then
    let s := s.until (s.die d).floorRose
    .next (s.mapDie d (fun x => { x with floor := min 7 (x.floor + 1), floorRose := s.clock + 1000000 }))
  else .next s

/-- THERMAL_FLOOR_FALL: after every 10 ms in which every tile stays below T_SLOW. -/
def execThermalFloorFall (d : Nat) (s : State) : Out :=
  match (s.die d).belowSince with
  | some t =>
    if d < 4 then
      let s := s.until (t + 10000000)
      .next (s.mapDie d (fun x => { x with floor := x.floor - 1, belowSince := some s.clock }))
    else .next s
  | none => .next s

/-! ## Power-down (R478, R479) -/

/-- A write of PWR_CTRL with OFF: only while HALTED. -/
def State.writePwrCtrl (q : Requester) (v : Nat) (s : State) : State :=
  if !bit v 0 then s
  else if s.halt = .halted then
    { s with power := { s.power with offRamp := true }, dies := s.dies.map (fun d => { d with ramping := true }) }
  else s.discard q 0x050830 v

/-- POWER_OFF (DESIGN CHOICE, log 57). -/
def execPowerOff (q : Requester) (s : State) : Out := .next (s.unlatch.gated q 0x050830 (State.writePwrCtrl q 1))

/-- Ballast ramps dies to zero core current, each at its slew limit (R472, R473): the time of the longest ramp, and the tokens that
the ballast draws. -/
def State.rampDies (ds : List Nat) (s : State) : State :=
  let n := (ds.map (fun d => ceilDiv (s.die d).spent (s.slewStep d))).foldl max 0
  let s := { s with clock := s.clock + 200 * n }
  ds.foldl (fun s d =>
    let x := s.die d
    let step := s.slewStep d
    (s.mapDie d (fun x => { x with spent := 0, spending := 0, ramping := false })).count .ballastTokens d
      (total ((List.range (x.spent / step)).map (fun i => x.spent - (i + 1) * step)))) s

/-- SAFE_OFF: the ramp has ended, the P7 voltages are requested (DESIGN CHOICE, log 57). -/
def execSafeOff (s : State) : Out :=
  if !s.power.offRamp then .next s
  else
    let s := s.rampDies [0, 1, 2, 3]
    .next { s with
      dies := Tab.build 4 (fun d => (s.die d).vout (Config.perfVolt d 7)),
      power := { s.power with offRamp := false, safeOff := true } }

/-! ## CLKOUT (R483, Table PW.8) -/

/-- Frequency of a source in MHz, for the check of Table PW.10. -/
def clkoutMHz (src : Nat) : Nat := [100, 720, 720, 1200, 1500, 1500, 1000, 400, 200].getD src 0

/-- A write of CLKOUT_SEL: SRC 0 to 8, at most 200 MHz out, and a logical tile where the source needs one
(DESIGN CHOICE, log 57). -/
def State.writeClkout (q : Requester) (v : Nat) (s : State) : State :=
  let src := bits v 3 0
  let div := bits v 15 4
  let tile := bits v 23 16
  if decide (8 < src) || decide (200 * (div + 1) < clkoutMHz src) || (decide (1 ≤ src) && decide (src ≤ 5) &&
      decide (208 ≤ tile)) then s.discard q 0x050900 v
  else { s with power := { s.power with
    clkSrc := src, clkDiv := div, clkTile := tile, clkEnable := bit v 24, clkLowUntil := s.clock + 20,
    clkFrom := (s.tile tile).cycle } }

/-- What an output that divides its source by `d` shows in a source cycle: high for the first half, rounded up, of every `d` cycles
(R483). -/
def dividedHigh (d n : Nat) : Bool := decide (n % d < (d + 1) / 2)

/-- Frequency of CLKOUT's source in MHz (Table PW.8): a tile's clock follows its die's point. -/
def State.clkoutSource (s : State) : Nat :=
  if s.power.clkSrc = 1 ∨ s.power.clkSrc = 2 then pointMHz (s.die (dieOfTile s.power.clkTile)).point else clkoutMHz s.power.clkSrc

/-- The level of CLKOUT at a time in ns (R483): low while disabled and after a write, then the divided source from a rising edge
on. Source 1 counts the tile's own cycles: frozen ones are missing edges. A divisor of 1 gives the source itself (DESIGN CHOICE,
log 57). -/
def State.clkoutHigh (s : State) (now : Nat) : Bool :=
  let p := s.power
  let d := p.clkDiv + 1
  let ns := now - p.clkLowUntil
  if !p.clkEnable || decide (now < p.clkLowUntil) then false
  else if p.clkSrc = 1 ∧ (!s.tileRuns p.clkTile || (s.tile p.clkTile).job.isNone) then false
  else if d = 1 then dividedHigh 2 (ns * (2 * s.clkoutSource) / 1000)
  else if p.clkSrc = 1 then dividedHigh d ((s.tile p.clkTile).cycle - p.clkFrom)
  else dividedHigh d (ns * s.clkoutSource / 1000)

/-- CLKOUT_SELECT (DESIGN CHOICE, log 57). -/
def execClkoutSelect (q : Requester) (value : Word) (s : State) : Out :=
  .next (s.unlatch.gated q 0x050900 (State.writeClkout q value.toNat))

end Sys2Proof.Machine
end

