-- ==== Sys2Proof/Machine/Trust.lean ====
section
/-!
DEFINITION. Firmware images, identity, the security mailbox, change of owner, SPDM and the service cluster (15_trust,
R486-R504).
-/
namespace Sys2Proof.Machine

/-! ## Images (Tables SE.1 and SE.2) -/

/-- Largest body of a KIND. -/
def bodyBound (kind : Nat) : Nat := if kind = 1 then 131072 else 8388608

/-- The fused SVN of a KIND. -/
def Trust.svnOf (t : Trust) (kind : Nat) : Nat := if kind = 1 then t.svnTrusted else t.svnService

/-- The fused hash of a key slot (R493). -/
def fusedHash (slot : Nat) (lms : Bool) : List Byte := (List.range 48).map (Config.keyHashByte slot lms)

/-- The signed part: header bytes 0x000 to 0x0FF (R492). -/
def signedPart (img : List Byte) : List Byte := slice img 0 256

/-- The first failing check of an image of the KIND expected; 0 where all pass. -/
def firmwareCode (t : Trust) (kind : Nat) (img : List Byte) : Nat :=
  let size := fld img 8 4
  let key := fld img 3 1
  let ecc := slice img 0x40 96
  let lms := slice img 0xA0 60
  if fld img 0 2 ≠ 0xC7FB ∨ fld img 2 1 ≠ kind ∨ bodyBound kind < size ∨ size ≤ fld img 0xC 4 then 1
  else if 3 < key ∨ bit t.revoked.toNat key then 2
  else if sha384 ecc ≠ fusedHash key false ∨ sha384 lms ≠ fusedHash key true then 3
  else if fld img 4 4 < t.svnOf kind then 4
  else if slice img 0x10 48 ≠ sha384 ((img.drop 2048).take size) then 5
  else if !ecdsaP384 ecc (signedPart img) (slice img 0x100 96) then 6
  else if !lmsOk lms (signedPart img) (slice img 0x160 1616) then 7
  else 0

/-- What is kept of an image that runs. -/
def Image.parse (img : List Byte) : Image :=
  { keyIndex := fld img 3 1, svn := fld img 4 4, eccPub := slice img 0x40 96, measure := sha384 (signedPart img) }

/-! ## Identity (R495, R496) -/

/-- The key pair of 56 bytes of HKDF output (R496; DESIGN CHOICE, log 45). -/
def KeyPair.derive (z : List Byte) : KeyPair :=
  let d := beNat (slice z 0 56) % (p384.n - 1) + 1
  { d := d, pub := p384.mul d p384.g }

/-- A public key as 96 bytes: x, then y. -/
def pubBytes (p : Point) : List Byte :=
  match p with
  | some (x, y) => beBytes 48 x ++ beBytes 48 y
  | none => List.replicate 96 0

/-- The unique device secret. -/
def udsBytes : List Byte := (List.range 32).map Config.udsByte

/-- The info "FV-DEVID" of layer 0. -/
def devidInfo : List Byte := [0x46, 0x56, 0x2D, 0x44, 0x45, 0x56, 0x49, 0x44]

/-- DICE layer 0, after which the UDS is locked; nothing once it is locked (DESIGN CHOICE, log 45). -/
def Trust.layer0 (t : Trust) (m : Image) : Trust :=
  if t.udsLocked then t
  else { t with
    deviceId := some (KeyPair.derive (hkdf384 udsBytes devidInfo 56)), cdi1 := hmac384 udsBytes m.measure,
    udsLocked := true }

/-- A signature of a message under a key, with the 48 bytes of a nonce; none where the nonce must be drawn again. -/
def KeyPair.sign (k : KeyPair) (msg nonce : List Byte) : Option (List Byte) :=
  (p384.sign (digestInt p384 (sha384 msg)) k.d (beNat nonce)).map (fun p => beBytes 48 p.1 ++ beBytes 48 p.2)

/-- The Alias certificate (Table SE.3; DESIGN CHOICE, log 45). -/
def AliasCert.issue (device subj : KeyPair) (nonce : List Byte) : Option AliasCert :=
  (device.sign (pubBytes subj.pub) nonce).map (fun x => { subject := pubBytes subj.pub, signature := x })

/-- DICE layer 1: the Alias key and its certificate; none while there is no service firmware. The nonce of the certificate's signature
is the n-th free value (DESIGN CHOICE, log 5; DESIGN CHOICE, log 45). -/
def Trust.layer1 (n : Nat) (t : Trust) : Trust :=
  let key := t.service.map (fun m => KeyPair.derive (hkdf384 t.cdi1 (m.measure ++ t.owner ++ [if t.debug then 1 else 0]) 56))
  { t with
    aliasKey := key
    aliasCert := match t.deviceId, key with
      | some d, some k => AliasCert.issue d k ((List.range 48).map (Config.freeByte n))
      | _, _ => none }

/-- DICE layer 1 run again, with a new free value. -/
def State.reidentify (s : State) : State :=
  { s with trust := s.trust.layer1 s.freeCount, freeCount := s.freeCount + 1 }

/-! ## The service cluster (R487-R490) -/

/-- What the Hoop opens: host addresses under no PASID, and the 2 MiB of BAR0 outside the security range (R488, Table HI.2; DESIGN
CHOICE, log 62). -/
def serviceWindows : List (Nat × Nat) := [(2 ^ 63, 2 ^ 64), (0, 0x060000), (0x080000, 0x200000)]

/-- Service firmware started, its first heartbeat due 100 ms from now (DESIGN CHOICE, log 62, log 69). -/
def State.startService (runs : Bool) (s : State) : State :=
  { s with trust := { s.trust with serviceRunning := runs, heartbeat := s.clock } }

/-- Both signatures of an image verify under the keys in its header (R492, R493). -/
def imageSigned (img : List Byte) : Bool :=
  ecdsaP384 (slice img 0x40 96) (signedPart img) (slice img 0x100 96) && lmsOk (slice img 0xA0 60) (signedPart img) (slice img 0x160 1616)

/-- Service firmware restarted from its image, both signatures checked again: one that fails does not run (R490, Table SE.7; DESIGN
CHOICE, log 69). -/
def State.restartService (s : State) : State := s.startService (s.trust.service.isSome && imageSigned s.trust.serviceImage)

/-- SVC_HEARTBEAT (DESIGN CHOICE, log 69). -/
def execSvcHeartbeat (s : State) : Out :=
  if s.trust.serviceRunning && !s.errs.fatal then
    .next { s with trust := { s.trust with heartbeat := s.clock } }
  else .next s

/-- Every poison request accepted. -/
def State.acceptPoison (s : State) : State :=
  s.poisonRequests.foldl (fun (s : State) r => r.lines.foldl (fun (s : State) l => s.poisonLine l) s)
    { s with poisonRequests := [] }

/-- HEARTBEAT_MISSED: 100 ms after the last heartbeat the Hoop halts the module, restarts service firmware and releases
the module (DESIGN CHOICE, log 69). -/
def execHeartbeatMissed (s : State) : Out :=
  if !s.trust.serviceRunning || s.errs.fatal || s.trust.changing.isSome then .next s
  else
    let s := (s.until (s.trust.heartbeat + 100000000)).halting.acceptPoison
    let s := ({ s with halt := .halted }.restartService).count .svcRestarts 0 1
    .next { s.raise [Err.plain .contained 0x23 8 1 0 0] with halt := .running }

/-- SVC_DENIED (R489): zeros on a read, discarded on a write (DESIGN CHOICE, log 62). -/
def execSvcDenied (write : Bool) (addr : DWord) (_ : Word) (s : State) : Out :=
  if !s.trust.serviceRunning || s.trust.windows.any (fun w => decide (w.1 ≤ addr.toNat) && decide (addr.toNat < w.2))
  then .next s
  else
    let s := (s.count .svcWindowDenied 0 1).raise [Err.plain .deferred 0x0D 8 1 addr.toNat 0]
    .next (if write then s else { s with resp := .word 0 })

/-! ## Change of owner (R501-R504, Table SE.7) -/

/-- A tile after the wipe: registers, program store and poison map cleared, queue epochs 0. -/
def Tile.wiped (u : Tile) : Tile :=
  { u with
    marks := [], eccDouble := [], vregs := Tile.reset.vregs, kregs := Tile.reset.kregs, landings := [], store := [],
    queues := Tab.fill 8 ShuttleQueue.reset }

/-- The actions of Table SE.7, apart from OWNER, the Alias key and the service firmware. Every pricking is invalid afterwards, so
that a stale RUN entry ends PRICKING_INVALID (R503; DESIGN CHOICE, log 58). -/
def State.wipe (s : State) : State :=
  { s with
    mem := Memory.clear s.mem 0 (2 ^ 63), linePoison := [],
    tiles := s.tiles.map Tile.wiped,
    hbm := s.hbm.map (fun k => { k with wcb := [] }),
    bodkin := { s.bodkin with mem := [] },
    psets := Tab.fill 64 none, prks := Tab.fill 16 none,
    trust := { s.trust with sessions := [] }, link := { s.link with ide := false },
    cvus := Tab.fill 8 Cvu.reset, mode := Mode.reset, tele := [] }

/-- The new OWNER, and the Alias key and certificate derived from it (DESIGN CHOICE, log 58). -/
def State.setOwner (owner : List Byte) (s : State) : State :=
  ({ s with trust := { s.trust with owner := owner } }).reidentify

/-- An owner change begun: BUSY stays 1 until its last action ends (DESIGN CHOICE, log 58). -/
def State.beginChange (owner : List Byte) (debug : Bool) (s : State) : State :=
  let s := s.wipe
  let s := ({ s with trust := { s.trust with debug := s.trust.debug || debug } }).setOwner owner
  { s with trust := { s.trust with changing := some owner }, mbx := { s.mbx with busy := true } }

/-- OWNER_CHANGE_DONE: the service firmware is restarted and BUSY falls, at most 30 ms after the GO; every counter is 0
(R423). -/
def execOwnerChangeDone (s : State) : Out :=
  if s.trust.changing.isNone then .next s
  else
    let s := { s.restartService with mbx := { s.mbx with busy := false, result := 0, outLen := 0 } }
    .next { s with trust := { s.trust with changing := none }, tele := [] }

/-! ## The security mailbox (R498-R500, Tables SE.5 and SE.6) -/

/-- Input length of a command; none where Table SE.6 has no such command. -/
def mailboxLen (cmd : Nat) : Option Nat :=
  match cmd with
  | 1 => some 48
  | 2 | 4 | 5 => some 0
  | 3 => some 144
  | _ => none

/-- RESULT of a command that ends. -/
def State.mbxResult (code : Nat) (s : State) : State :=
  { s with mbx := { s.mbx with busy := false, result := code, outLen := 0 } }

/-- A command that ends with an output. -/
def State.mbxOut (out : List Byte) (s : State) : State :=
  { s with mbx := { s.mbx with
    busy := false, result := 0, outLen := out.length, data := out ++ s.mbx.data.drop out.length } }

/-- Whether the mailbox and SPDM are served: powered, out of reset and not stopped (R19, R537), in FATAL too (R531; DESIGN CHOICE,
log 65). -/
def State.mbxServes (s : State) : Bool := s.pins.allGood && !s.pins.mreset && !s.boot.stopped

/-- A GO: denied to the service cluster, whose windows leave out the security range (R488, R489), discarded for another requester or
while BUSY = 1; BAD_CMD for an unknown command or another length, and in
FATAL for every command but IDENTITY (DESIGN CHOICE, log 65). -/
def State.mailbox (q : Requester) (cmd : Nat) (run : State → State) (s : State) : State :=
  let s := s.unlatch
  if !s.mbxServes then s
  else if !s.windowOpen q 0x060000 then (if s.errs.fatal then s else s.denied 0x060000)
  else if q ≠ .mainband ∨ s.mbx.busy then (if s.errs.fatal then s else s.discard q 0x060000 (cmd % 256 + 256))
  else
    let s := { s with mbx := { s.mbx with cmd := cmd % 256 } }
    if mailboxLen cmd ≠ some s.mbx.len || (s.errs.fatal && cmd != 5) then s.mbxResult 1 else run s

/-- OWNER_CHANGE's action (DESIGN CHOICE, log 58). -/
def State.runOwnerChange (s : State) : State :=
  if s.halt = .halted then s.beginChange (slice s.mbx.data 0 48) false else s.mbxResult 2

/-- DEBUG_NONCE's action. -/
def State.runDebugNonce (s : State) : State :=
  let nonce := (List.range 48).map (Config.freeByte s.freeCount)
  ({ s with freeCount := s.freeCount + 1, trust := { s.trust with nonce := some nonce } }).mbxOut nonce

/-- Whether a token verifies (R499). -/
def State.tokenOk (s : State) (token : List Byte) : Bool :=
  match s.trust.nonce, s.trust.trusted with
  | some n, some m =>
    slice token 0 48 == n &&
      ecdsaP384 m.eccPub (n ++ sha384 (pubBytes ((s.trust.deviceId.map (·.pub)).getD none))) (slice token 48 96)
  | _, _ => false

/-- DEBUG_UNLOCK's action: the nonce is consumed either way. -/
def State.runDebugUnlock (s : State) : State :=
  if s.halt ≠ .halted then s.mbxResult 2
  else
    let ok := s.tokenOk (slice s.mbx.data 0 144)
    let s := { s with trust := { s.trust with nonce := none } }
    if ok then s.beginChange (List.replicate 48 0) true else s.mbxResult 3

/-- SVN_COMMIT's action; `blown` says whether every fuse could be blown. -/
def State.runSvnCommit (blown : Bool) (s : State) : State :=
  if !emptyList s.jobs then s.mbxResult 5
  else if !blown then s.mbxResult 4
  else
    let t := s.trust
    let svn (m : Option Image) (fused : Nat) : Nat := match m with | some i => max fused i.svn | none => fused
    let low := match t.trusted with | some i => 2 ^ i.keyIndex - 1 | none => 0
    let t' : Trust := { t with
      svnTrusted := svn t.trusted t.svnTrusted, svnService := svn t.service t.svnService,
      revoked := t.revoked ||| BitVec.ofNat 4 low }
    ({ s with trust := t' }).mbxOut [BitVec.ofNat 8 t'.svnTrusted, BitVec.ofNat 8 t'.svnService]

/-- IDENTITY's action. -/
def State.runIdentity (s : State) : State :=
  s.mbxOut (pubBytes ((s.trust.deviceId.map (·.pub)).getD none) ++ s.trust.owner ++
    [if s.trust.debug then 1 else 0])

/-- OWNER_CHANGE. -/
def execOwnerChange (q : Requester) (s : State) : Out := .next (s.mailbox q 1 State.runOwnerChange)

/-- DEBUG_NONCE. -/
def execDebugNonce (q : Requester) (s : State) : Out := .next (s.mailbox q 2 State.runDebugNonce)

/-- DEBUG_UNLOCK. -/
def execDebugUnlock (q : Requester) (s : State) : Out := .next (s.mailbox q 3 State.runDebugUnlock)

/-- SVN_COMMIT. -/
def execSvnCommit (q : Requester) (blown : Bool) (s : State) : Out := .next (s.mailbox q 4 (State.runSvnCommit blown))

/-- IDENTITY. -/
def execIdentity (q : Requester) (s : State) : Out := .next (s.mailbox q 5 State.runIdentity)

/-- MAILBOX_BAD_CMD: a CMD outside Table SE.6. -/
def execMailboxBadCmd (q : Requester) (cmd : Nat) (s : State) : Out :=
  if (mailboxLen cmd).isSome then .next s else .next (s.mailbox q cmd (fun s => s.mbxResult 1))

/-- A GO written through MBX_CTRL. Whether a fuse could be blown is then a free value (DESIGN CHOICE, log 5)
(DESIGN CHOICE, log 65). -/
def State.mailboxGo (q : Requester) (cmd : Nat) (s : State) : State :=
  match cmd with
  | 1 => s.mailbox q 1 State.runOwnerChange
  | 2 => s.mailbox q 2 State.runDebugNonce
  | 3 => s.mailbox q 3 State.runDebugUnlock
  | 4 => ({ s with freeCount := s.freeCount + 1 }).mailbox q 4
      (State.runSvnCommit ((Config.freeWord s.freeCount).toNat % 2 == 1))
  | 5 => s.mailbox q 5 State.runIdentity
  | _ => s.mailbox q cmd (fun s => s.mbxResult 1)

/-! ## SPDM (R497, Table SE.4) -/

/-- A measurement block in DMTF form: the type of its value, its size and the value (DSP0274). A raw value is marked by bit 7 of the
type; the others are the size of a SHA-384 digest (PRESUMED, log 30). -/
def dmtfBlock (type : Nat) (v : List Byte) : List Byte := leBytes 1 type ++ leBytes 2 v.length ++ v

/-- The measurement blocks (R497): the immutable ROM, the two mutable firmwares, the hardware's configuration and OWNER (PRESUMED,
log 30). -/
def State.measurement (s : State) (block : Nat) : Option (List Byte) :=
  match block with
  | 1 => some (dmtfBlock 0 ((List.range 48).map Config.romDigestByte))
  | 2 => s.trust.trusted.map (fun m => dmtfBlock 1 m.measure)
  | 3 => s.trust.service.map (fun m => dmtfBlock 1 m.measure)
  | 4 => some (dmtfBlock 0x82 [BitVec.ofNat 8 s.trust.svnTrusted, BitVec.ofNat 8 s.trust.svnService,
      BitVec.ofNat 8 s.trust.revoked.toNat, if s.trust.debug then 1 else 0])
  | 5 => some (dmtfBlock 3 s.trust.owner)
  | _ => none

/-- `n` bytes of the boot flash. -/
def State.flashBytes (s : State) (off n : Nat) : List Byte := (List.range n).map (fun i => Memory.get s.flash (off + i))

/-- The certificate chain of slot 0: the DeviceID key's chain in the boot flash (Table EB.7), then the Alias certificate (Table SE.4;
DESIGN CHOICE, log 30). -/
def State.certChain (s : State) : List Byte :=
  s.flashBytes 0x80000 0x10000 ++ s.trust.aliasCert.elim [] (fun c => c.subject ++ c.signature)

/-- The support of Table SE.4. -/
def spdmCapabilities : List SpdmCapability := [.cert, .chal, .measSig, .keyEx, .encrypt, .mac, .hbeat, .keyUpd]
def spdmAlgorithms : List SpdmAlgorithm := [.ecdsaP384, .sha384, .dheSecp384r1, .aes256Gcm, .spdmKeySchedule]

/-- The Alias key's signature of an exchange whose bytes the manual does not restate: a free value (DESIGN CHOICE, log 5; DESIGN CHOICE,
log 30). -/
def spdmSignature (n : Nat) : List Byte := (List.range 96).map (fun i => Config.freeByte n (48 + i))

/-- A request inside a session: refused where no such session is open (DESIGN CHOICE, log 30). -/
def State.inSession (s : State) (id : Nat) (f : State → State) : State :=
  if s.trust.sessions.any (fun x => x.id == id) then
    { f { s with trust := { s.trust with
        sessions := s.trust.sessions.map (fun x => if x.id == id then { x with lastMessage := s.clock } else x) } } with
      resp := .spdm .ack }
  else { s with resp := .spdm .errorOpen }

/-- The session that a KEY_EXCHANGE opens: at most four at once (DESIGN CHOICE, log 30). -/
def State.openSession (s : State) (heartbeat : Bool) : State :=
  if s.trust.sessions.length < 4 then
    let x : Session := { id := s.trust.nextSession, heartbeat := heartbeat, lastMessage := s.clock }
    { s.count .spdmSessions 0 1 with
      trust := { s.trust with sessions := s.trust.sessions ++ [x], nextSession := s.trust.nextSession + 1 },
      resp := .spdm (.sessionOpened x.id) }
  else { s with resp := .spdm .errorOpen }

/-- The end of a session. -/
def State.endSession (id : Nat) (s : State) : State :=
  { s with trust := { s.trust with sessions := s.trust.sessions.filter (fun x => x.id != id) } }

/-- SPDM_REQUEST over DOE, in the CXL.io function's configuration space (R536): Busy during an owner change (Table SE.8); what Table SE.4 does not support is answered with
an ERROR (DESIGN CHOICE, log 30). -/
def execSpdmRequest (r : SpdmRequest) (s : State) : Out :=
  if !s.mbxServes then .next s
  else if s.boot.stage < 9 then .next { s with resp := .retry }
  else if s.trust.changing.isSome then .next { s with resp := .spdm .errorBusy }
  else
    let say (x : SpdmResponse) : Out := .next { s with resp := .spdm x }
    let free : Nat := s.freeCount
    let sign (x : SpdmResponse) : Out := .next { s with resp := .spdm x, freeCount := free + 1 }
    match r with
    | .getVersion => say (.version 0x13)
    | .getCapabilities => say (.capabilities spdmCapabilities)
    | .negotiateAlgorithms => say (.algorithms spdmAlgorithms)
    | .getDigests => say (.digests [(0, sha384 s.certChain)])
    | .getCertificate slot => say (if slot = 0 then .certificate 0 s.certChain else .errorUnsupported)
    | .challenge slot =>
      if slot = 0 then sign (.challengeAuth (sha384 s.certChain) ((List.range 32).map (Config.freeByte free)) (spdmSignature free))
      else say .errorUnsupported
    | .getMeasurements block =>
      match s.measurement block with
      | some v => sign (.measurement block v (spdmSignature free))
      | none => say .errorUnsupported
    | .keyExchange slot hb => if slot = 0 then .next (s.openSession hb) else say .errorUnsupported
    | .finish id => .next (s.inSession id (fun s => s))
    | .heartbeat id => .next (s.inSession id (fun s => s))
    | .keyUpdate id => .next (s.inSession id (fun s => s))
    | .ideKm id => .next (s.inSession id (fun s => { s with link := { s.link with ide := true } }))
    | .endSession id => .next (s.inSession id (State.endSession id))
    | .unsupported _ => say .errorUnsupported

/-- SPDM_HEARTBEAT_TIMEOUT: a session with the HBEAT capability ends. -/
def execSpdmHeartbeatTimeout (id : Nat) (s : State) : Out :=
  if s.trust.sessions.any (fun x => x.id == id && x.heartbeat) then .next (s.endSession id) else .next s

end Sys2Proof.Machine
end

