-- ==== Sys2Proof/Machine/Startup.lean ====
section
/-!
DEFINITION. Rails, reset and throttle pins, start-up and the boot mailbox (14_power_clocks, R454-R457, R482;
16_errors_startup, R534-R553).
-/
namespace Sys2Proof.Machine

/-! ## Reset (R457, R545) -/

/-- What outlasts a reset: fuses, the boot flash, the repair logs and repair fuses, host memory, the pins' levels, time and the waiting
commands; every other field takes its reset value (DESIGN CHOICE, log 67). -/
def State.moduleReset (s : State) : State :=
  { State.reset with
    pending := s.pending, clock := s.clock, freeCount := s.freeCount, msix := s.msix, pageRequests := s.pageRequests,
    mem := s.mem.filter (fun c => decide (2 ^ 63 ≤ c.1)), flash := s.flash,
    hbm := s.hbm.map (fun k => { Stack.reset with repairLog := k.repairLog, fuses := k.fuses }),
    trust := { Trust.reset with
      revoked := s.trust.revoked, svnTrusted := s.trust.svnTrusted, svnService := s.trust.svnService },
    pins := { Pins.reset with
      railsGood := s.pins.railsGood, refclk := s.pins.refclk, mreset := s.pins.mreset,
      throttleFilter := s.pins.throttleFilter, goodSince := s.pins.goodSince, xspiHighZ := s.pins.mreset },
    power := { Power.reset with refclkOk := s.power.refclkOk } }

/-- BOOT_STATUS.WAIT_REFCLK: only REFCLK is lacking for start-up, and the ROM waits for it (R534). -/
def State.awaitRefclk (s : State) : State :=
  { s with boot := { s.boot with waitRefclk := s.boot.waitRefclk ||
      (!s.boot.begun && !s.pins.mreset && s.pins.allGood && !s.pins.refclk) } }

/-- RAIL_GOOD. -/
def execRailGood (rail : Nat) (s : State) : Out :=
  let p : Pins := { s.pins with railsGood := Tab.put s.pins.railsGood rail true }
  .next (State.awaitRefclk { s with
    pins := if p.allGood && !s.pins.allGood then { p with goodSince := s.clock } else p })

/-- The dies whose core current the pacer can ramp down: VAUX, VHUB and the die's VCORE are good (R457). The rails count in the
order of Table PW.1. -/
def Pins.rampable (p : Pins) : List Nat :=
  (List.range 4).filter (fun d => Tab.at p.railsGood false 10 && Tab.at p.railsGood false 5 && Tab.at p.railsGood false d)

/-- RAIL_LOST: the module enters reset as if MRESET_N were asserted, and all state is lost, once the dies whose rails still stand
are ramped down (DESIGN CHOICE, log 67). -/
def execRailLost (rail : Nat) (s : State) : Out :=
  if 11 ≤ rail then .next s
  else
    let p : Pins := { s.pins with railsGood := Tab.put s.pins.railsGood rail false }
    .next (({ s with pins := p }.rampDies p.rampable).moduleReset)

/-- MRESET_ASSERT: MRESET_N has stayed low for 10 µs: ballast ramps each die to zero, and within 100 µs all state is reset
(DESIGN CHOICE, log 67). -/
def execMresetAssert (s : State) : Out :=
  let s := (s.rampDies s.pins.rampable).moduleReset
  .next { s with pins := { s.pins with mreset := true, xspiHighZ := true } }

/-- Outside the states of Table EB.12 that execute it, EXTEST acts as BYPASS: it drives no pin. -/
def Jtag.released (j : Jtag) : Jtag := if j.instr = .extest then { j with instr := .bypass, driving := false } else j

/-- MRESET_RELEASE: the pin rises. A low that has not come to count as asserted is ignored and counted (R544, Table EB.13;
DESIGN CHOICE, log 67). -/
def execMresetRelease (s : State) : Out :=
  if !s.pins.mreset then .next (s.count .mresetFiltered 0 1)
  else .next (State.awaitRefclk { s with
    pins := { s.pins with mreset := false, xspiHighZ := false }, jtag := s.jtag.released })

/-- REFCLK_LOST (R482); before start-up the ROM waits for it (R534). -/
def execRefclkLost (s : State) : Out :=
  let s := { s with pins := { s.pins with refclk := false }, power := { s.power with refclkOk := false } }
  if s.pins.mreset || !s.pins.allGood then .next s
  else if s.boot.begun then
    .next ({ s with power := { s.power with locked := false } }.raise [Err.plain .fatal 0x31 8 3 0 0]).realert
  else .next s.awaitRefclk

/-! ## THROTTLE_N (R547) -/

/-- The honoured state takes the filter output. -/
def State.honour (s : State) : State :=
  if s.pins.throttle = s.pins.throttleFilter then s
  else { s with pins := { s.pins with throttle := s.pins.throttleFilter, throttleChanged := some s.clock } }.count
    .throttleChanges 0 1

/-- THROTTLE_FILTER: the pin has held a level for 1 µs; the honoured state follows unless it changed less than 50 µs
ago. -/
def execThrottleFilter (active : Bool) (s : State) : Out :=
  let s := { s with pins := { s.pins with throttleFilter := active } }
  match s.pins.throttleChanged with
  | some t => .next (if t + 50000 ≤ s.clock then s.honour else s)
  | none => .next s.honour

/-- THROTTLE_HONOUR: the interval ends. -/
def execThrottleHonour (s : State) : Out :=
  match s.pins.throttleChanged with
  | some t => .next (s.until (t + 50000)).honour
  | none => .next s.honour

/-! ## Start-up (R534-R540, Tables EB.6 and EB.9) -/

/-- STARTUP_BEGIN at t0: every rail good for 1 ms, MRESET_N high, REFCLK present (DESIGN CHOICE, log 59). -/
def execStartupBegin (s : State) : Out :=
  if s.boot.begun || s.pins.mreset || !s.pins.allGood then .next s
  else
    let s := (s.until (s.pins.goodSince + 1000000)).count .startups 0 1
    .next { s with
      boot := { Boot.reset with begun := true, t0 := s.clock },
      pins := { s.pins with refclk := true },
      power := { s.power with
        refclkOk := true, nextSlot := s.clock + 200, nextWindow := s.clock + 1000, nextSample := s.clock + 10000 } }

/-- The stage that runs, and does not wait for the boot mailbox (DESIGN CHOICE, log 2, log 59). -/
def State.inStage (s : State) (k : Nat) : Bool :=
  s.boot.begun && s.boot.stage == k && !s.boot.stopped && !s.boot.waiting && !s.pins.mreset && !s.errs.fatal

/-- The next stage (DESIGN CHOICE, log 59). -/
def State.enterStage (k : Nat) (s : State) : State := { s with boot := { s.boot with stage := k } }

/-- A stage that fails with a stopping code ends start-up (R537; DESIGN CHOICE, log 59). -/
def State.stopStartup (code detail : Nat) (s : State) : State :=
  ({ s with boot := { s.boot with stopped := true, code := code, detail := detail } }).realert

/-- STAGE_ROM. -/
def execStageRom (badFuseRow : Option Nat) (s : State) : Out :=
  if !s.inStage 1 then .next s
  else match badFuseRow with
    | some r => .next (s.stopStartup 1 r)
    | none => .next ({ s with power := { s.power with locked := true, fixed := Config.pacerFixed } }.enterStage 2)

/-- The image in a flash slot: header and body. -/
def State.flashImage (s : State) (kind off : Nat) : List Byte :=
  let head := s.flashBytes off 2048
  head ++ s.flashBytes (off + 2048) (min (bodyBound kind) (fld head 8 4))

/-- Slots A and B of a KIND (Table EB.7). -/
def flashSlots (kind : Nat) : List Nat := if kind = 1 then [0, 0x40000] else [0x1000000, 0x2000000]

/-- The first slot whose image passes; otherwise the code of the last. -/
def State.bootFlash (s : State) (kind : Nat) : Nat × Nat × Option (List Byte) :=
  (List.zip [0, 1] (flashSlots kind)).foldl (fun (acc : Nat × Nat × Option (List Byte)) p =>
    if acc.2.2.isSome then acc
    else
      let img := s.flashImage kind p.2
      let c := firmwareCode s.trust kind img
      (c, p.1, if c = 0 then some img else none)) (0, 0, none)

/-- BOOT_RESULT. -/
def State.bootResult (code source : Nat) (s : State) : State :=
  { s with boot := { s.boot with resultCode := code, resultSource := source } }

/-- STAGE 2 with a trusted image: it runs, DICE layer 0, the UDS locked. -/
def State.runTrusted (img : List Byte) (s : State) : State :=
  let m := Image.parse img
  ({ s with trust := ({ s.trust with trusted := some m }).layer0 m }).enterStage 3

/-- STAGE 6 with a service image: DICE layer 1, the service cluster starts behind its windows. -/
def State.runService (img : List Byte) (s : State) : State :=
  ((({ s with trust := { s.trust with service := some (Image.parse img), serviceImage := img, windows := serviceWindows } }).reidentify).startService
    true).enterStage 7

/-- A stage that loads firmware of a KIND from the flash; when both slots fail, the boot mailbox opens (R539). -/
def State.loadStage (kind : Nat) (run : List Byte → State → State) (s : State) : State :=
  let r := s.bootFlash kind
  let s := s.bootResult r.1 r.2.1
  match r.2.2 with
  | some img => run img s
  | none => { s with boot := { s.boot with waiting := true, code := kind + 1 } }

/-- STAGE_TRUSTED. -/
def execStageTrusted (s : State) : Out :=
  if s.inStage 2 then .next (s.loadStage 1 State.runTrusted) else .next s

/-- STAGE_SERVICE. -/
def execStageService (s : State) : Out :=
  if s.inStage 6 then .next (s.loadStage 2 State.runService) else .next s

/-! ## STAGE 3: stacks (R550, R553) -/

/-- Where one stack's repair stands: log, rows repaired softly and hard, fuses left. -/
structure Repairing where
  entries : List RepairEntry
  soft : Nat
  hard : Nat
  fuses : Nat
deriving DecidableEq, Repr

/-- A row hard-repaired, as long as fuses remain. -/
def Repairing.burn (r : Repairing) : Repairing :=
  if r.fuses = 0 then r else { r with hard := r.hard + 1, fuses := r.fuses - 1 }

/-- A failing row that has a spare: a soft repair; its tally decides on the hard one. -/
def Repairing.row (r : Repairing) (row : Nat) : Repairing :=
  let r := { r with soft := r.soft + 1 }
  match r.entries.find? (fun e => e.row == row) with
  | some e =>
    if e.tally < 2 then
      { r with entries := r.entries.map (fun x => if x.row == row then { x with tally := x.tally + 1 } else x) }
    else r.burn
  | none =>
    if r.entries.length < 64 then { r with entries := r.entries ++ [{ row := row, tally := 1 }] } else r.burn

/-- What start-up finds on one stack, entered into it. -/
def Stack.repaired (k : Stack) (p : StackReport) : Stack :=
  if !p.trained then { k with repairState := 2 }
  else if !p.sparesEnough then { k with repairState := 2, lanes := p.lanes % 64, spareMin := min 255 p.spareMin }
  else
    let r := p.failingRows.foldl Repairing.row { entries := k.repairLog, soft := 0, hard := 0, fuses := k.fuses }
    { k with
      repairLog := r.entries, fuses := r.fuses, soft := min 255 r.soft, hardNew := min 255 r.hard, lanes := p.lanes % 64,
      spareMin := min 255 p.spareMin, repairState := if r.soft = 0 ∧ p.lanes = 0 then 0 else 1 }

/-- The stacks up to the first that stops start-up. -/
def State.repairStacks : List (Nat × StackReport) → State → State
  | [], s => s.enterStage 4
  | (k, p) :: rest, s =>
    let s := s.mapStack k (fun u => u.repaired p)
    let s := s.count .hbmSoftRepairs 0 (s.stack k).soft
    if !p.trained then s.stopStartup 4 k
    else if !p.sparesEnough then s.stopStartup 5 k
    else State.repairStacks rest s

/-- STAGE_HBM (DESIGN CHOICE, log 31). -/
def execStageHbm (reports : List StackReport) (s : State) : Out :=
  if s.inStage 3 then .next (s.repairStacks (List.zip (List.range 12) reports)) else .next s

/-! ## STAGE 4: tiles and bridges (R552, R13, Table TL.9) -/

/-- The passing sites of a die in ascending order. -/
def passingSites (failing : List Nat) : List Nat := (List.range 56).filter (fun x => !failing.contains x)

/-- Sites assigned on every die: the i-th passing site to logical tile i, the rest spares. -/
def State.assignSites (failing : List (List Nat)) (s : State) : State :=
  { s with
    tiles := Tab.build 208 (fun t =>
      let d := dieOfTile t
      let site := (passingSites (failing.getD d [])).getD (t % 52) 0
      { s.tile t with logical := t, site := site, die := d, col := site % 8, row := site / 8, locState := 0 }),
    spares := Tab.build 4 (fun d => (passingSites (failing.getD d [])).drop 52) }

/-- STAGE_TILES: the failing sites of each die and a failing bridge (DESIGN CHOICE, log 31). -/
def execStageTiles (failing : List (List Nat)) (bridge : Option Nat) (s : State) : Out :=
  if !s.inStage 4 then .next s
  else match (List.range 4).find? (fun d => decide ((passingSites (failing.getD d [])).length < 52)) with
    | some d => .next (s.stopStartup 6 d)
    | none => match bridge with
      | some b => .next (s.stopStartup 7 b)
      | none => .next ((s.assignSites failing).enterStage 5)

/-! ## The later stages -/

/-- STAGE_WIPE: Table SE.7 with OWNER = 0, apart from the service restart (R502). -/
def execStageWipe (s : State) : Out :=
  if !s.inStage 5 then .next s
  else .next ((s.wipe.setOwner (List.replicate 48 0)).enterStage 6)

/-- STAGE_UCIE (DESIGN CHOICE, log 31). -/
def execStageUcie (a b : Bool) (repaired : Nat) (s : State) : Out :=
  if !s.inStage 7 then .next s
  else if !a && !b then .next (s.stopStartup 8 0)
  else .next ((s.trained a b repaired).enterStage 8)

/-- STAGE_CXL: after it the module is Ready, and every counter is 0 (R423). -/
def execStageCxl (s : State) : Out :=
  if !s.inStage 8 then .next s
  else .next { s.enterStage 9 with tele := [] }

/-! ## The boot mailbox (R541, Table EB.8) -/

/-- The KIND that BOOT_STATUS awaits. -/
def Boot.awaited (b : Boot) : Nat := if b.stage = 2 then 1 else 2

/-- An image received whole: checked by Table SE.2; on OK the stage continues, otherwise the mailbox stays open
(DESIGN CHOICE, log 70). -/
def State.checkImage (img : List Byte) (s : State) : State :=
  let kind := s.boot.awaited
  let c := firmwareCode s.trust kind img
  let s := { s with boot := { s.boot with resultCode := c, resultSource := 2, image := none } }
  if c ≠ 0 then s
  else
    let s := { s with boot := { s.boot with waiting := false, code := 0 } }
    if kind = 1 then s.runTrusted img else s.runService img

/-- PUSH appends min(128, remaining) bytes of BOOT_DATA (DESIGN CHOICE, log 70). -/
def State.bootAppend (got : List Byte) (s : State) : State :=
  let n := min 128 (s.boot.len - got.length)
  let img := got ++ s.boot.data.take n
  let s := { s with boot := { s.boot with image := some img, offset := img.length } }
  if s.boot.len ≤ img.length then s.checkImage img else s

/-- A write of BOOT_CTRL that is refused: START while no image of the KIND is awaited, or PUSH with no image started (R541). -/
def State.bootRefuses (s : State) (v : Nat) : Bool :=
  (bit v 4 && !(s.boot.waiting && bits v 1 0 == s.boot.awaited)) ||
    (bit v 5 && !bit v 4 && (bit v 6 || s.boot.image.isNone))

/-- A write of BOOT_CTRL: a refused one is discarded whole; otherwise KIND, then ABORT, START and PUSH in this order (DESIGN
CHOICE, log 70). -/
def State.writeBootCtrl (q : Requester) (v : Nat) (s : State) : State :=
  if s.bootRefuses v then s.discard q 0x100 v
  else
    let s := { s with boot := { s.boot with ctrlKind := bits v 1 0 } }
    let s := if bit v 6 then { s with boot := { s.boot with image := none, offset := 0 } } else s
    let s := if bit v 4 then { s with boot := { s.boot with image := some [], offset := 0 } } else s
    if bit v 5 then s.bootAppend (s.boot.image.getD []) else s

/-- BOOT_START, on the sideband (DESIGN CHOICE, log 70). -/
def execBootStart (kind : Nat) (s : State) : Out :=
  .next (s.unlatch.gated .sideband 0x100 (State.writeBootCtrl .sideband (kind % 4 + 0x10)))

/-- BOOT_PUSH: KIND is rewritten with the value it holds. -/
def execBootPush (s : State) : Out :=
  .next (s.unlatch.gated .sideband 0x100 (State.writeBootCtrl .sideband (s.boot.ctrlKind % 4 + 0x20)))

/-- BOOT_ABORT. -/
def execBootAbort (s : State) : Out :=
  .next (s.unlatch.gated .sideband 0x100 (State.writeBootCtrl .sideband (s.boot.ctrlKind % 4 + 0x40)))

end Sys2Proof.Machine
end

