-- ==== Sys2Proof/Machine/Streamer.lean ====
section
/-!
DEFINITION. The base-die streamers (10_memory, R335-R338) and the stack registers they are commanded through.
-/
namespace Sys2Proof.Machine

/-- Stack-address lines START + k·STRIDE of a descriptor (R335). -/
def strmLine (start : Nat) (stride : Int) (k : Nat) : Int := (start : Int) + (k : Int) * stride

/-- A descriptor that would address a line outside the stack, or has COUNT 0, is refused. -/
def strmInside (start : Nat) (stride : Int) (count : Nat) : Bool :=
  decide (count ≠ 0) && decide (0 ≤ strmLine start stride (count - 1)) &&
    decide (strmLine start stride (count - 1) < 2 ^ 30) && decide (start < 2 ^ 30)

/-- Word k of the pattern for line ℓ (R336). -/
def patternWord (pattern value line k : Nat) : Nat :=
  if pattern = 0 then 0
  else if pattern = 1 then value
  else if pattern = 2 then word32 (16 * line + k)
  else word32 (mix64 ((value * 2 ^ 32 + 16 * line + k) % 2 ^ 64))

/-- The 64 bytes of the pattern for a line. -/
def patternLine (pattern value line : Nat) : List Byte :=
  (List.range 16).flatMap (fun k => leBytes 4 (patternWord pattern value line k))

/-- The device line address of a stack-address line. -/
def strmAddr (k : Nat) (line : Int) : Nat := stackToDevice k (64 * line.toNat)

/-- What GO does on stack `k` with OP and PATTERN (R335-R338, Table MS.9). COMPARE takes a poisoned
line for zeros (DESIGN CHOICE, log 33). -/
def State.strmGo (q : Requester) (k : Nat) (op : StrmOp) (pattern : Nat) (value : Nat) (s : State) : State :=
  if !emptyList s.jobs then s.discard q 0x040030 value
  else
    let s := s.mapStack k (fun u => { u with strmOp := op, strmPattern := pattern })
    let u := s.stack k
    let stride := signed 32 u.strmStride.toNat
    if op = .read || !strmInside u.strmStart stride u.strmCount then
      s.mapStack k (fun u => { u with strmRefused := true })
    else
      let ls := (List.range u.strmCount).map (strmLine u.strmStart stride)
      let v := u.strmValue.toNat
      let s := if op = .fill then
          ls.foldl (fun s l => s.acceptLine (strmAddr k l) fullMask (patternLine pattern v l.toNat)) s
        else s
      let diff := if op = .compare then
          (ls.filter (fun l => s.readZeroed (strmAddr k l) 64 != patternLine pattern v l.toNat)).length
        else 0
      (s.askService (82 * ls.length)).mapStack k (fun u =>
        { u with strmRefused := false,
                 strmRun := some { op := op, start := u.strmStart, stride := stride, count := u.strmCount,
                                   differing := diff } })

/-- The word of STRM_CTRL with GO that a row stands for. -/
def strmCtrlWord (op : StrmOp) (pattern : Nat) : Nat :=
  (match op with | .readCheck => 0 | .fill => 1 | .compare => 2 | .read => 3) + 4 * pattern + 0x100

/-- A STRM_CTRL write with GO of a requester: its own STACK_SEL names the stack; 12 to 15 name none (Table MS.8)
(DESIGN CHOICE, log 33). -/
def State.strmCommand (q : Requester) (op : StrmOp) (pattern : Nat) (s : State) : State :=
  (s.unlatch).gated q 0x040030 fun s =>
    let k := (s.selects q).stack
    if k < 12 then s.strmGo q k op pattern (strmCtrlWord op pattern) else s

/-- STRM_READ_CHECK (DESIGN CHOICE, log 29). -/
def execStrmReadCheck (q : Requester) (pattern : Nat) (s : State) : Out := .next (s.strmCommand q .readCheck pattern)

/-- STRM_FILL (DESIGN CHOICE, log 33). -/
def execStrmFill (q : Requester) (pattern : Nat) (s : State) : Out := .next (s.strmCommand q .fill pattern)

/-- STRM_COMPARE (DESIGN CHOICE, log 33). -/
def execStrmCompare (q : Requester) (pattern : Nat) (s : State) : Out := .next (s.strmCommand q .compare pattern)

/-- STRM_READ: not available through the registers; GO reports REFUSED. -/
def execStrmRead (q : Requester) (pattern : Nat) (s : State) : Out := .next (s.strmCommand q .read pattern)

/-- Whether a descriptor addresses a stack line. -/
def StrmRun.addresses (r : StrmRun) (line : Nat) : Bool :=
  (List.range r.count).any (fun k => strmLine r.start r.stride k == (line : Int))

/-- STREAMER_DONE: the descriptor ends; `errors` are what its reads met, by stack line (R327); STRM_STATUS is
updated. Its accesses wait while the service pool is spent (R468; DESIGN CHOICE, log 29). -/
def execStreamerDone (k : Nat) (errors : List (Nat × ReadError)) (s : State) : Out :=
  match (s.stack k).strmRun with
  | none => .next s
  | some r =>
    if !s.pins.allGood || !s.poolOpen then .next s else
    let s := if r.op = .fill then s
      else (errors.filter (fun e => r.addresses e.1)).foldl
        (fun s e => s.lineRead (stackToDevice k (64 * e.1)) e.2) s
    .next (s.mapStack k (fun u =>
      { u with strmRun := none, strmMismatch := if r.op = .compare then sat 24 r.differing else u.strmMismatch }))

end Sys2Proof.Machine
end

