-- ==== Sys2Proof/Machine/Registers.lean ====
section
/-!
DEFINITION. The register spaces: BAR0 and the sideband (00_scope, R6-R10; 12_host_port, R391, R392, R420, R423, and the
register tables of every chapter). Reads and writes of registers that have no row of their own; registers that do share
the operation of their row.
-/
namespace Sys2Proof.Machine

/-! ## Fields as words -/

/-- MODE (Table DV.4). -/
def Mode.word (m : Mode) : Nat :=
  (match m.guard with | .off => 0 | .mirror => 1 | .mirrorVerify => 2) +
    (match m.keyfeed with | .stored => 0 | .seeded => 16) + 256 * m.pace +
    4096 * (match m.check with | .word => 0 | .wordPair => 1 | .full => 2) + 65536 * flag m.audit +
    2 ^ 20 * (match m.round with | .nearestEven => 0 | .towardZero => 1 | .stochastic => 2)

/-- The mode a word encodes; none where a field holds an unassigned encoding (R22). -/
def Mode.ofWord (v : Nat) : Option Mode :=
  let guard : Option Guard := match bits v 1 0 with | 0 => some .off | 1 => some .mirror | 2 => some .mirrorVerify | _ => none
  let check : Option CheckMode := match bits v 13 12 with | 0 => some .word | 1 => some .wordPair | 2 => some .full | _ => none
  let round : Option Rounding := match bits v 21 20 with
    | 0 => some .nearestEven | 1 => some .towardZero | 2 => some .stochastic | _ => none
  match guard, check, round with
  | some g, some c, some r =>
    some { guard := g, keyfeed := if bit v 4 then .seeded else .stored, pace := bits v 10 8, check := c,
           audit := bit v 16, round := r }
  | _, _, _ => none

/-- HALT_STATUS. -/
def State.haltWord (s : State) : Nat := match s.halt with | .running => 0 | .halting => 1 | .halted => 2

/-- BOOT_STATUS (Table EB.8). -/
def Boot.statusWord (b : Boot) : Nat :=
  b.stage + 16 * flag b.stopped + 32 * flag b.waiting + 64 * flag b.waitRefclk + 256 * b.code

/-- BOOT_RESULT. -/
def Boot.resultWord (b : Boot) : Nat := b.resultCode + 256 * b.resultSource

/-- ERR_STATUS (Table EB.5). -/
def ErrUnit.statusWord (u : ErrUnit) : Nat :=
  flag u.fatal + 2 * flag u.lost + 4 * flag (u.queue.any (fun x => x.phase != .waiting)) + 256 * u.queue.length

/-- PACER_STATUS (Table PW.10). -/
def Power.statusWord (p : Power) : Nat :=
  p.inForce + 2 ^ 16 * flag p.limited + 2 ^ 17 * flag p.slewing + 2 ^ 18 * flag p.ballast

/-- THERM_STATUS (Table PW.9). -/
def Die.thermWord (d : Die) : Nat :=
  d.tMax % 256 + 256 * d.tMaxTile + 2 ^ 14 * flag d.slowFlag + 2 ^ 15 * flag d.alertFlag

/-- PERF_STATUS of a die (Table PW.9). -/
def State.perfWord (s : State) (d : Nat) : Nat :=
  (s.die d).point + 8 * s.goal d + 64 * flag (s.die d).seq.isSome + 128 * flag (s.die d).avsFault +
    256 * s.limitReason d

/-- CLKOUT_SEL. -/
def Power.clkoutWord (p : Power) : Nat := p.clkSrc + 16 * p.clkDiv + 65536 * p.clkTile + 2 ^ 24 * flag p.clkEnable

/-- LINK_STATUS (Table HI.12). -/
def Link.statusWord (l : Link) : Nat :=
  l.rate + 4 * l.width + 16 * l.repaired +
    4096 * (match l.state with | .down => 0 | .training => 1 | .up => 2 | .recalibrating => 3)

/-- PSET_STATUS and PRK_STATUS (Tables CT.8 and OP.14). -/
def Loader.statusWord (l : Loader) : Nat := flag l.op.isSome + 16 * l.code + 4096 * l.lastIndex

/-- TILE_LOC (Table TL.9). -/
def Tile.locWord (u : Tile) : Nat :=
  u.logical + 256 * u.site + 2 ^ 14 * u.die + 2 ^ 16 * u.col + 2 ^ 19 * u.row + 2 ^ 24 * u.locState

/-- GUARD_STATUS (Table TR.8). -/
def State.guardWord (s : State) : Nat :=
  flag (s.jobs.any (·.committing)) + 2 * flag (s.jobs.any (fun j => j.recovery.isSome)) +
    256 * ((List.range 4).foldl (fun n d => n + 4 ^ d * min 3 (Tab.at s.spares [] d).length) 0)

/-- The set bits of valid indices. -/
def validMask {n : Nat} {α : Type} (v : Vector (Option α) n) : Nat :=
  (List.range n).foldl (fun m k => m + 2 ^ k * flag (Tab.at v none k).isSome) 0

/-- Word k of the record kept in ERR_FATAL_REC. -/
def ErrUnit.fatalWord (u : ErrUnit) (k : Nat) : Nat :=
  match u.fatalRec with
  | some e => fld (e.bytes 1) (4 * k) 4
  | none => 0

/-! ## 64-bit registers -/

/-- Offset of a check-value register within its unit; the unit. -/
def cvuOf (a : Nat) : Nat × Nat := ((a - 0x070000) / 64, a % 64)

/-- Whether an address lies in the check-value units (Table SE.12). -/
def inCvu (a : Nat) : Bool := decide (0x070000 ≤ a) && decide (a < 0x070200)

/-- The low words of 64-bit registers. -/
def wideReg (a : Nat) : Bool :=
  [0x010100, 0x010110, 0x010200, 0x010600, 0x020010, 0x020020, 0x020800, 0x030110, 0x030138, 0x040020, 0x180008].contains a ||
    (inCvu a && [0, 8, 0x18, 0x20].contains (a % 64))

/-- The value of a 64-bit register as a requester sees it. -/
def State.read64 (s : State) (q : Requester) (a : Nat) : Nat :=
  let x := s.selects q
  let u := s.tile x.tile
  if inCvu a then
    let c := s.cvu (cvuOf a).1
    match (cvuOf a).2 with
    | 0 => c.poly.toNat
    | 8 => c.initial.toNat
    | 0x18 => c.tx
    | _ => c.rx
  else match a with
  | 0x010100 => s.psetLoader.addr.toNat
  | 0x010110 => validMask s.psets
  | 0x010200 => s.prkLoader.addr.toNat
  | 0x010600 => s.link.hdmBase * 2 ^ 36
  | 0x020010 => (s.ring x.ring).sqBase.toNat
  | 0x020020 => (s.ring x.ring).cqBase.toNat
  | 0x020800 => s.evq.base.toNat
  | 0x030110 => if x.tile < 208 then (u.stream x.queue).faultAddr else 0
  | 0x030138 => if x.tile < 208 then u.dropAddr.toNat else 0
  | 0x040020 => if x.stack < 12 then (s.stack x.stack).strmStart else 0
  | 0x180008 => s.telemValue x
  | _ => 0

/-! ## 32-bit registers: reads -/

/-- Identity, features, sizes, MODE, loaders and watchdog. -/
def State.readMain (s : State) (a : Nat) : Nat :=
  match a with
  | 0x000000 => 0x12167A19
  | 0x000004 => 0xA1
  | 0x000010 => 0x7FF
  | 0x000020 => 4 + 12 * 2 ^ 3 + 208 * 2 ^ 7 + 52 * 2 ^ 15 + 56 * 2 ^ 21
  | 0x000024 => 80 + 256 * 2 ^ 7 + 64 * 2 ^ 17 + 16 * 2 ^ 24
  | 0x000028 => 6144 + 256 * 2 ^ 16
  | 0x00002C => 1024 + 64 * 2 ^ 16
  | 0x000030 => 128 + 64 * 2 ^ 8 + 128 * 2 ^ 16 + 32 * 2 ^ 24
  | 0x010000 => s.mode.word
  | 0x010108 => s.psetLoader.index
  | 0x01010C => s.psetLoader.statusWord
  | 0x010208 => s.prkLoader.index
  | 0x01020C => s.prkLoader.statusWord
  | 0x010210 => validMask s.prks
  | 0x010214 => s.prkLoader.detail
  | 0x010300 => s.wdog
  | 0x010404 => s.haltWord
  | 0x010410 => flag s.link.memPresent
  | 0x010420 => s.cancelTag.toNat
  | 0x010424 => s.cancelRing + 512 * s.cancelResult
  | 0x010430 => s.jobAge
  | 0x010500 => s.link.ctrlRate
  | 0x010504 => s.link.statusWord
  | 0x010700 => s.guardWord
  | _ => 0

/-- Ring and event-ring registers (Table HI.11). -/
def State.readRings (s : State) (x : Selects) (a : Nat) : Nat :=
  let r := s.ring x.ring
  match a with
  | 0x020000 => x.ring
  | 0x020018 => r.sqSizeLog
  | 0x020028 => r.cqSizeLog + 16 * r.vector + 1024 * r.coalCount + 2 ^ 16 * r.coalUs
  | 0x020030 => flag r.enable
  | 0x020034 => (if r.error then 2 else flag r.enable) + 4 * r.pending.length + 512 * flag (s.job x.ring).isSome
  | 0x020038 => r.sqHead
  | 0x02003C => r.cqTail + 4096 * flag r.phase
  | 0x020808 => s.evq.sizeLog + 16 * flag s.evq.enable
  | 0x02080C => s.evq.tail + 4096 * flag s.evq.overflow + 8192 * s.evq.lost
  | _ => 0

/-- Tile and queue registers (Tables TL.8, TL.9, SQ.10, TR.8). -/
def State.readTiles (s : State) (x : Selects) (a : Nat) : Nat :=
  let u := s.tile x.tile
  let k := u.stream x.queue
  let g := u.queue x.queue
  if a = 0x030000 then x.tile
  else if a = 0x030004 then x.queue
  else if 208 ≤ x.tile then 0
  else match a with
  | 0x030010 => u.locWord
  | 0x030018 => match u.partner with | some p => p | none => 256
  | 0x030100 => k.cfgLimit
  | 0x030108 => (match k.state with | .idle => 0 | .running => 1 | .halted => 2) + 4 * k.outstanding u.cycle
  | 0x03010C => k.posAt u.cycle % 2 ^ 32
  | 0x030120 => g.slots.length + 64 * flag g.isOpen + 2 ^ 16 * g.epoch
  | 0x030130 => flag u.dropped
  | _ => 0

/-- Stack registers (Tables MS.8, MS.9, EB.11). -/
def State.readStacks (s : State) (x : Selects) (a : Nat) : Nat :=
  let u := s.stack x.stack
  if a = 0x040000 then x.stack
  else if 12 ≤ x.stack then 0
  else match a with
  | 0x040010 => flag u.scrubEnable + 256 * u.scrubPeriod
  | 0x040028 => u.strmStride.toNat
  | 0x04002C => u.strmCount
  | 0x040030 => (match u.strmOp with | .readCheck => 0 | .fill => 1 | .compare => 2 | .read => 3) + 4 * u.strmPattern
  | 0x040034 => u.strmValue.toNat
  | 0x040038 => flag u.strmRun.isSome + 2 * flag u.strmRefused + 256 * u.strmMismatch
  | 0x040040 => u.soft + 256 * u.hardNew + 2 ^ 16 * u.lanes + 2 ^ 22 * u.spareMin + 2 ^ 30 * u.repairState
  | _ => 0

/-- Power and clock registers (Tables PW.9 and PW.10). -/
def State.readPower (s : State) (x : Selects) (a : Nat) : Nat :=
  let d := s.die x.die
  let p := s.power
  if a = 0x050000 then x.die
  else if 0x050800 ≤ a then
    match a with
    | 0x050820 => p.fixed
    | 0x050824 => p.statusWord
    | 0x050834 => flag p.safeOff + 2 * flag (p.offRamp || s.dies.toList.any (·.ramping))
    | 0x050900 => p.clkoutWord
    | 0x050904 => flag p.refclkOk + 2 * flag p.locked
    | _ => if a < 0x050820 then Tab.at p.ceil 0 ((a - 0x050800) / 4) else 0
  else if 4 ≤ x.die then 0
  else match a with
  | 0x050010 => d.target
  | 0x050014 => s.perfWord x.die
  | 0x050018 => d.slew
  | 0x050020 => d.tSlow + 256 * d.tAlert
  | 0x050024 => d.thermWord
  | _ => if 0x050040 ≤ a ∧ a < 0x050060 then Config.perfVolt x.die ((a - 0x050040) / 4) else 0

/-- The mailbox, the check-value units, the error and the telemetry registers (Tables SE.5, SE.12, EB.5, HI.16). -/
def State.readRest (s : State) (a : Nat) : Nat :=
  if 0x061000 ≤ a ∧ a < 0x062000 then fld s.mbx.data (a - 0x061000) 4
  else if inCvu a then
    let c := s.cvu (cvuOf a).1
    match (cvuOf a).2 with
    | 0x10 => c.width + 128 * flag c.refIn + 256 * flag c.refOut + 512 * flag c.xorOut
    | 0x14 => c.stream
    | 0x28 => flag c.broken + 2 * c.reason
    | _ => 0
  else if 0x100020 ≤ a ∧ a < 0x100040 then s.errs.fatalWord ((a - 0x100020) / 4)
  else match a with
  | 0x060000 => s.mbx.cmd
  | 0x060004 => s.mbx.len
  | 0x060008 => flag s.mbx.busy + 256 * s.mbx.result + 2 ^ 16 * s.mbx.outLen
  | 0x100000 => s.errs.statusWord
  | 0x100004 => s.errs.overflow
  | 0x100008 => s.errs.afterFatal
  | 0x100100 => s.boot.statusWord
  | 0x100104 => s.boot.detail
  | 0x180000 => s.telemSel.group + 16 * s.telemSel.index + 1024 * s.telemSel.scope
  | _ => 0

/-- A 32-bit BAR0 register; unassigned addresses and write-only fields read as 0 (R392, Table SC.1). The security mailbox
is served to the host mainband only (R498). -/
def State.readBar0 (s : State) (q : Requester) (a : Nat) : Nat :=
  if 0x060000 ≤ a ∧ a < 0x070000 ∧ q ≠ .mainband then 0
  else match a / 0x10000 with
  | 0 | 1 => s.readMain a
  | 2 => s.readRings (s.selects q) a
  | 3 => s.readTiles (s.selects q) a
  | 4 => s.readStacks (s.selects q) a
  | 5 => s.readPower (s.selects q) a
  | _ => s.readRest a

/-- A sideband register (Tables HI.12 and EB.8). -/
def State.readSideband (s : State) (a : Nat) : Nat :=
  if 0x180 ≤ a ∧ a < 0x200 then fld s.boot.data (a - 0x180) 4
  else match a with
  | 0x000 => 0x12167A19
  | 0x014 => s.haltWord
  | 0x100 => s.boot.ctrlKind
  | 0x104 => s.boot.statusWord
  | 0x108 => s.boot.len
  | 0x10C => s.boot.offset
  | 0x110 => s.boot.resultWord
  | 0x114 => s.boot.detail
  | _ => 0

/-! ## Reads of commands -/

/-- A read of one word: the high word of a 64-bit register after its low word is the latched one (R9); read at another
time it is the register's current state (Table SC.1). -/
def State.readWord32 (s : State) (q : Requester) (a : Nat) : Nat :=
  if q = .sideband then s.readSideband a
  else if wideReg a then s.read64 q a % 2 ^ 32
  else if 4 ≤ a ∧ wideReg (a - 4) then
    match s.readLatch with
    | some (l, w) => if l = a then w.toNat else s.read64 q (a - 4) / 2 ^ 32 % 2 ^ 32
    | none => s.read64 q (a - 4) / 2 ^ 32 % 2 ^ 32
  else s.readBar0 q a

/-- What the read leaves latched (DESIGN CHOICE, log 12). -/
def State.latchOf (s : State) (q : Requester) (a : Nat) : Option (Nat × Word) :=
  if q ≠ .sideband ∧ wideReg a then some (a + 4, BitVec.ofNat 32 (s.read64 q a / 2 ^ 32)) else none

/-- Whether reads are served: in FATAL too (R531); while start-up is stopped only the sideband and, in BAR0, BOOT_STATUS (R537)
(DESIGN CHOICE, log 14). -/
def State.servesRead (s : State) (q : Requester) (a : Nat) : Bool :=
  !s.pins.mreset && s.pins.allGood && (!s.boot.stopped || q == .sideband || a == 0x100100)

/-- REG64_LOW_READ: a read of the low word of a 64-bit register; at any other address the read of that register. A read
of another size or alignment than a word's answers zeros (R7); for the service cluster that comes before the window (DESIGN CHOICE,
log 62). -/
def execReg64LowRead (q : Requester) (r : RegRead) (s : State) : Out :=
  let a := r.addr
  if !s.servesRead q a then .next s
  else if r.size ≠ 4 ∨ a % 4 ≠ 0 then .next { s.unlatch with resp := .data (List.replicate r.size 0) false }
  else if !s.windowOpen q a then .next { s.unlatch.denied a with resp := .word 0 }
  else
    let t := if q = .sideband then s else s.count .bar0Reads 0 1
    .next { t with resp := .word (BitVec.ofNat 32 (s.readWord32 q a)), readLatch := s.latchOf q a }

/-! ## Writes of 64-bit registers (R8) -/

/-- The low word held until the high word commits both. But for the check-value units, whether the register may be written now is
judged when the high word is written, and the event of a discarded write names the low word's address (DESIGN CHOICE, log 12). -/
def State.holdLow (a v : Nat) (s : State) : State :=
  { s with lowHeld := (a, BitVec.ofNat 32 v) :: s.lowHeld.filter (fun p => p.1 != a) }

/-- Set-up registers of a ring are written only while it is disabled (R420). -/
def State.setRing (q : Requester) (a v : Nat) (f : Ring → Ring) (s : State) : State :=
  let k := (s.selects q).ring
  if (s.ring k).enable then s.discard q a v else s.mapRing k f

/-- A check-value register: discarded while any job is admitted (R510). -/
def State.setCvu (q : Requester) (a v : Nat) (f : Cvu → Cvu) (s : State) : State :=
  if !emptyList s.jobs then s.discard q a v else s.mapCvu (cvuOf a).1 f

/-- A 64-bit register written, by the write of its high word; a discarded write names the low word's address (DESIGN CHOICE, log
12). -/
def State.write64 (q : Requester) (a v : Nat) (s : State) : State :=
  let addr12 := BitVec.ofNat 64 (v / 4096 * 4096)
  if inCvu a then
    match (cvuOf a).2 with
    | 0 => s.setCvu q a v (fun c => { c with poly := BitVec.ofNat 64 v })
    | 8 => s.setCvu q a v (fun c => { c with initial := BitVec.ofNat 64 v })
    | 0x18 => s.setCvu q a v (fun c => { c with tx := v % 2 ^ 48 })
    | _ => s.writeCvuRx q (cvuOf a).1 v
  else match a with
  | 0x010100 => { s with psetLoader := { s.psetLoader with addr := BitVec.ofNat 64 (v / 64 * 64) } }
  | 0x010200 => { s with prkLoader := { s.prkLoader with addr := addr12 } }
  | 0x010600 => s.writeHdmMap q v
  | 0x020010 => s.setRing q a v (fun r => { r with sqBase := addr12 })
  | 0x020020 => s.setRing q a v (fun r => { r with cqBase := addr12 })
  | 0x020800 => { s with evq := { s.evq with base := addr12 } }
  | 0x040020 =>
    let k := (s.selects q).stack
    if k < 12 then s.mapStack k (fun u => { u with strmStart := v % 2 ^ 30 }) else s
  | _ => s

/-- The write of a high word commits both words (R8). A low word is held by its address alone, and both words go to the
register instance that is selected when the high word is written; without a low word written before, that word is a free
value (DESIGN CHOICE, log 5; DESIGN CHOICE, log 12). -/
def State.commitHigh (q : Requester) (a v : Nat) (s : State) : State :=
  match s.lowHeld.find? (fun p => p.1 == a) with
  | some p => ({ s with lowHeld := s.lowHeld.filter (fun x => x.1 != a) }).write64 q a (p.2.toNat + 2 ^ 32 * v)
  | none => ({ s with freeCount := s.freeCount + 1 }).write64 q a
      ((Config.freeWord s.freeCount).toNat % 2 ^ 32 + 2 ^ 32 * v)

/-! ## Writes of 32-bit registers -/

/-- MODE: an unassigned encoding in any field discards the write (R22). -/
def State.writeMode (q : Requester) (v : Nat) (s : State) : State :=
  match Mode.ofWord v with
  | some m => { s with mode := m }
  | none => s.discard q 0x010000 v

/-- JOB_CANCEL_CTRL. -/
def State.writeCancelCtrl (v : Nat) (s : State) : State :=
  if bit v 8 then s.cancelGo (v % 32) else { s with cancelRing := v % 32 }

/-- Loaders, watchdog, halt, cancelling and link. -/
def State.writeMain (q : Requester) (a v : Nat) (s : State) : State :=
  match a with
  | 0x010000 => s.writeMode q v
  | 0x010108 => s.writePsetCtrl q v
  | 0x010208 => s.writePrkCtrl q v
  | 0x010300 => { s with wdog := v % 2 ^ 20 }
  | 0x010400 => s.writeHaltCtrl q v
  | 0x010420 => { s with cancelTag := BitVec.ofNat 32 v }
  | 0x010424 => s.writeCancelCtrl v
  | 0x010430 => { s with jobAge := max 1 (v % 65536) }
  | 0x010500 => s.writeLinkCtrl q v
  | _ => if [0x000000, 0x000004, 0x000010, 0x000020, 0x000024, 0x000028, 0x00002C, 0x000030, 0x01010C, 0x01020C,
        0x010210, 0x010214, 0x010404, 0x010410, 0x010504, 0x010700].contains a then s else s.discard q a v

/-- SIZE_LOG of a ring lies in 4 to 12. -/
def sizeLogOk (v : Nat) : Bool := decide (4 ≤ v % 16) && decide (v % 16 ≤ 12)

/-- Ring and event-ring registers. -/
def State.writeRings (q : Requester) (a v : Nat) (s : State) : State :=
  match a with
  | 0x020000 => s.mapSelects q (fun x => { x with ring := v % 32 })
  | 0x020018 =>
    if sizeLogOk v then s.setRing q a v (fun r => { r with sqSizeLog := v % 16 }) else s.discard q a v
  | 0x020028 =>
    if sizeLogOk v then
      s.setRing q a v (fun r => { r with
        cqSizeLog := v % 16, vector := bits v 9 4, coalCount := max 1 (bits v 15 10), coalUs := bits v 27 16 })
    else s.discard q a v
  | 0x020030 => s.writeRingCtrl q v
  | 0x020808 =>
    if sizeLogOk v then { s with evq := { s.evq with sizeLog := v % 16, enable := bit v 4 } } else s.discard q a v
  | 0x02080C => { s with evq := { s.evq with overflow := s.evq.overflow && !bit v 12 } }
  | _ => if [0x020034, 0x020038, 0x02003C].contains a then s else s.discard q a v

/-- Tile registers; behind a TILE_SEL that selects no tile a write is discarded (Table TL.8). -/
def State.writeTiles (q : Requester) (a v : Nat) (s : State) : State :=
  let x := s.selects q
  if a = 0x030000 then s.mapSelects q (fun x => { x with tile := v % 256 })
  else if a = 0x030004 then s.mapSelects q (fun x => { x with queue := v % 8 })
  else if !([0x030010, 0x030018, 0x030100, 0x030104, 0x030108, 0x03010C, 0x030120, 0x030124, 0x030130].contains a) then
    s.discard q a v
  else if 208 ≤ x.tile then s
  else match a with
  | 0x030100 =>
    if 1 ≤ v % 128 ∧ v % 128 ≤ 64 then s.mapStream x.tile x.queue (fun k => { k with cfgLimit := v % 128 })
    else s.discard q a v
  | 0x030104 => if bit v 0 then s.streamResume q else s
  | 0x030124 => if bit v 0 then s.shqReset q else s
  | 0x030130 => s.mapTile x.tile (fun u => { u with dropped := u.dropped && !bit v 0 })
  | _ => s

/-- The streamer operation of a code. -/
def strmOpOf (v : Nat) : StrmOp := match v % 4 with | 0 => .readCheck | 1 => .fill | 2 => .compare | _ => .read

/-- Stack registers; behind a STACK_SEL that selects no stack a write is discarded (Table MS.8; DESIGN CHOICE, log 13). -/
def State.writeStacks (q : Requester) (a v : Nat) (s : State) : State :=
  let k := (s.selects q).stack
  if a = 0x040000 then s.mapSelects q (fun x => { x with stack := v % 16 })
  else if !([0x040010, 0x040028, 0x04002C, 0x040030, 0x040034, 0x040038, 0x040040].contains a) then s.discard q a v
  else if 12 ≤ k then s
  else match a with
  | 0x040010 =>
    if bits v 15 8 = 0 then s.discard q a v
    else s.mapStack k (fun u => { u with scrubEnable := bit v 0, scrubPeriod := bits v 15 8 })
  | 0x040028 => s.mapStack k (fun u => { u with strmStride := BitVec.ofNat 32 v })
  | 0x04002C => s.mapStack k (fun u => { u with strmCount := v % 2 ^ 31 })
  | 0x040030 =>
    if bit v 8 then s.strmGo q k (strmOpOf v) (bits v 3 2) v
    else s.mapStack k (fun u => { u with strmOp := strmOpOf v, strmPattern := bits v 3 2 })
  | 0x040034 => s.mapStack k (fun u => { u with strmValue := BitVec.ofNat 32 v })
  | _ => s

/-- A die's power registers (Table PW.9); behind a DIE_SEL that selects no die a write is discarded (DESIGN CHOICE, log 13). -/
def State.writeDie (q : Requester) (a v : Nat) (s : State) : State :=
  let k := (s.selects q).die
  if 4 ≤ k then s
  else match a with
  | 0x050010 => s.mapDie k (fun d => { d with target := v % 8 })
  | 0x050014 => if bit v 7 then (s.mapDie k (fun d => { d with avsFault := false })).realert else s
  | 0x050018 =>
    if 20 ≤ v % 64 ∧ v % 64 ≤ 60 then s.mapDie k (fun d => { d with slew := v % 64 }) else s.discard q a v
  | 0x050020 =>
    if bits v 7 0 < bits v 15 8 ∧ bits v 15 8 ≤ 110 then
      s.mapDie k (fun d => { d with tSlow := bits v 7 0, tAlert := bits v 15 8 })
    else s.discard q a v
  | _ => s

/-- PACER_CEIL[n]: PACER_FIXED + 100 to 1,500 W. -/
def State.writeCeil (q : Requester) (a v : Nat) (s : State) : State :=
  if s.power.fixed + 100 ≤ v % 2048 ∧ v % 2048 ≤ 1500 then
    { s with power := { s.power with ceil := Tab.put s.power.ceil ((a - 0x050800) / 4) (v % 2048) } }
  else s.discard q a v

/-- Power and clock registers (DESIGN CHOICE, log 13). -/
def State.writePower (q : Requester) (a v : Nat) (s : State) : State :=
  if a = 0x050000 then s.mapSelects q (fun x => { x with die := v % 8 })
  else if [0x050010, 0x050014, 0x050018, 0x050020, 0x050024].contains a || (decide (0x050040 ≤ a) && decide (a < 0x050060))
  then s.writeDie q a v
  else if 0x050800 ≤ a ∧ a < 0x050820 then s.writeCeil q a v
  else match a with
  | 0x050830 => s.writePwrCtrl q v
  | 0x050900 => s.writeClkout q v
  | _ => if [0x050820, 0x050824, 0x050834, 0x050904].contains a then s else s.discard q a v

/-- The security mailbox (Table SE.5): served to the host mainband only (DESIGN CHOICE, log 65). -/
def State.writeMailbox (q : Requester) (a v : Nat) (s : State) : State :=
  if q ≠ .mainband then s.discard q a v
  else if 0x061000 ≤ a ∧ a < 0x062000 then
    { s with mbx := { s.mbx with
      data := s.mbx.data.take (a - 0x061000) ++ leBytes 4 v ++ s.mbx.data.drop (a - 0x061000 + 4) } }
  else match a with
  | 0x060000 => if bit v 8 then s.mailboxGo q (v % 256) else { s with mbx := { s.mbx with cmd := v % 256 } }
  | 0x060004 => { s with mbx := { s.mbx with len := v % 8192 } }
  | 0x060008 => s
  | _ => s.discard q a v

/-- Check-value unit registers (Table SE.12). -/
def State.writeCvus (q : Requester) (a v : Nat) (s : State) : State :=
  match (cvuOf a).2 with
  | 0x10 =>
    if 8 ≤ v % 128 ∧ v % 128 ≤ 64 then
      s.setCvu q a v (fun c => { c with
        width := v % 128, refIn := bit v 7, refOut := bit v 8, xorOut := bit v 9 })
    else s.discard q a v
  | 0x14 => s.setCvu q a v (fun c => { c with stream := v % 65536 })
  | 0x28 => if !emptyList s.jobs then s.discard q a v else s
  | _ => s.discard q a v

/-- Doorbells. -/
def State.writeDoorbell (q : Requester) (a v : Nat) (s : State) : State :=
  if a < 0x080100 then
    if a % 8 = 0 then s.writeSqDb q ((a - 0x080000) / 8) v else s.writeCqDb q ((a - 0x080000) / 8) v
  else if a = 0x080100 then s.writeEvqDb q v
  else s.discard q a v

/-- ERR_STATUS.LOST (R533). -/
def State.writeErrStatus (v : Nat) (s : State) : State :=
  { s with errs := { s.errs with lost := s.errs.lost && !bit v 1 } }

/-- TELEM_SEL. -/
def State.writeTelemSel (v : Nat) (s : State) : State :=
  { s with telemSel := { group := bits v 3 0, index := bits v 9 4, scope := bits v 11 10 } }

/-- TELEM_CTRL. -/
def State.writeTelemCtrl (q : Requester) (v : Nat) (s : State) : State :=
  if bit v 0 then s.telemCleared (s.selects q) else s

/-- Error and telemetry registers. -/
def State.writeRest (q : Requester) (a v : Nat) (s : State) : State :=
  match a with
  | 0x100000 => s.writeErrStatus v
  | 0x180000 => s.writeTelemSel v
  | 0x180010 => s.writeTelemCtrl q v
  | _ => if [0x100004, 0x100008, 0x100100, 0x100104].contains a || (decide (0x100020 ≤ a) && decide (a < 0x100040)) then s
    else s.discard q a v

/-- A word written in BAR0; an unassigned address discards the write (R392), and so does either word of a check-value register while
a job is admitted (R510, Table SE.15). -/
def State.writeBar0 (q : Requester) (a v : Nat) (s : State) : State :=
  if wideReg a then (if inCvu a && !emptyList s.jobs then s.discard q a v else s.holdLow a v)
  else if 4 ≤ a ∧ wideReg (a - 4) then s.commitHigh q (a - 4) v
  else if inCvu a then s.writeCvus q a v
  else match a / 0x10000 with
  | 0 | 1 => s.writeMain q a v
  | 2 => s.writeRings q a v
  | 3 => s.writeTiles q a v
  | 4 => s.writeStacks q a v
  | 5 => s.writePower q a v
  | 6 => s.writeMailbox q a v
  | 8 => s.writeDoorbell q a v
  | _ => s.writeRest q a v

/-- BOOT_LEN: 2,048 bytes up to 2,048 plus the body bound of the KIND awaited (R541). -/
def State.writeBootLen (q : Requester) (v : Nat) (s : State) : State :=
  let n := v % 2 ^ 24
  if n < 2048 ∨ 2048 + bodyBound (s.boot.awaited) < n then s.discard q 0x108 v
  else { s with boot := { s.boot with len := n } }

/-- A word written in the sideband space; at an unassigned offset it is discarded with the event of BAR0's unassigned addresses
(DESIGN CHOICE, log 13). -/
def State.writeSideband (q : Requester) (a v : Nat) (s : State) : State :=
  if 0x180 ≤ a ∧ a < 0x200 then
    { s with boot := { s.boot with
      data := s.boot.data.take (a - 0x180) ++ leBytes 4 v ++ s.boot.data.drop (a - 0x180 + 4) } }
  else match a with
  | 0x010 => s.writeHaltCtrl q v
  | 0x100 => s.writeBootCtrl q v
  | 0x108 => s.writeBootLen q v
  | _ => if [0x000, 0x014, 0x104, 0x10C, 0x110, 0x114].contains a then s else s.discard q a v

/-! ## Commands -/

/-- A write that FATAL still serves (R531): ERR_STATUS.LOST and the mailbox, which runs IDENTITY only. -/
def fatalServes (q : Requester) (a : Nat) : Bool :=
  q != .sideband && (a == 0x100000 || (q == .mainband && (a == 0x060000 || a == 0x060004 ||
    (decide (0x061000 ≤ a) && decide (a < 0x062000)))))

/-- REG_WRITE: another size or alignment than a word's is discarded (R7); for the service cluster that comes before the window
(DESIGN CHOICE, log 62). -/
def execRegWrite (q : Requester) (a size : Nat) (value : DWord) (s : State) : Out :=
  let s := s.unlatch
  let v := value.toNat % 2 ^ 32
  if s.errs.fatal then
    if fatalServes q a && size == 4 && a % 4 == 0 && s.servesRead q a then .next (s.writeBar0 q a v) else .next s
  else if !s.serves q then .next s
  else if size ≠ 4 ∨ a % 4 ≠ 0 then .next (s.discard q a v)
  else if q = .sideband then .next (s.writeSideband q a v)
  else if !s.windowOpen q a then .next (s.denied a)
  else .next (s.writeBar0 q a v)

/-- MODE_WRITE. -/
def execModeWrite (q : Requester) (value : Word) (s : State) : Out :=
  .next (s.unlatch.gated q 0x010000 (State.writeMode q value.toNat))

/-- TELEM_CLEAR. -/
def execTelemClear (q : Requester) (s : State) : Out := .next (s.unlatch.gated q 0x180010 (State.writeTelemCtrl q 1))

end Sys2Proof.Machine
end

