-- ==== Sys2Proof/Machine/TestAccess.lean ====
section
/-!
DEFINITION. Management and test access: the I3C target and the JTAG port (16_errors_startup, R549, R554).
-/
namespace Sys2Proof.Machine

/-! ## I3C (R549) -/

/-- The target is served from STAGE 1 onward, in FATAL and while start-up is stopped (DESIGN CHOICE, log 64). -/
def State.i3cServed (s : State) : Bool := s.boot.begun && !s.pins.mreset

/-- The 64-byte I3C status block (DESIGN CHOICE, log 64). -/
def State.statusBlock (s : State) : List Byte :=
  let dies := List.range 4
  withCrc (leBytes 4 0x12167A19 ++ leBytes 4 s.boot.statusWord ++ leBytes 4 s.errs.statusWord ++
    leBytes 4 s.power.statusWord ++ dies.flatMap (fun d => leBytes 4 (s.die d).thermWord) ++
    dies.flatMap (fun d => leBytes 4 (s.perfWord d)) ++ leBytes 4 s.haltWord ++ List.replicate 8 0)

/-- I3C_STATUS_READ: a private read, by the dynamic address; the in-band interrupt is answered by it (DESIGN CHOICE, log 64). -/
def execI3cStatusRead (s : State) : Out :=
  if s.i3cServed && s.pins.i3cAddr.isSome then
    .next { s with resp := .data s.statusBlock false, pins := { s.pins with i3cInterrupt := false } }
  else .next s

/-- I3C_PRIVATE_WRITE: answered with NACK (DESIGN CHOICE, log 64). -/
def execI3cPrivateWrite (_ : List Byte) (s : State) : Out := .next { s with resp := .nack }

/-- I3C_DYNAMIC_ADDRESS_ASSIGNMENT. -/
def execI3cDynamicAddressAssignment (addr : Nat) (s : State) : Out :=
  if s.i3cServed then .next { s with pins := { s.pins with i3cAddr := some (addr % 128) } } else .next s

/-! ## JTAG (R554, Table EB.12) -/

/-- The two states of Table EB.12 with rails good: MRESET_N low, and running (DESIGN CHOICE, log 66). -/
def State.jtagReset (s : State) : Bool := s.pins.allGood && s.pins.mreset
def State.jtagRuns (s : State) : Bool := s.pins.allGood && !s.pins.mreset

/-- An instruction taken: executed where the state allows it, otherwise it acts as BYPASS (DESIGN CHOICE, log 66). -/
def State.jtagTake (s : State) (allowed : Bool) (i : JtagInstr) (f : State → State) : Out :=
  if allowed then .next (f { s with jtag := { s.jtag with instr := i, driving := false } })
  else .next { s with jtag := { s.jtag with instr := .bypass, bypassBit := false, driving := false } }

/-- JTAG_IDCODE: version 1, part 0x1216, manufacturer 0x799 (DESIGN CHOICE, log 66). -/
def execJtagIdcode (s : State) : Out :=
  s.jtagTake s.pins.allGood .idcode (fun s => { s with resp := .word 0x11216F33 })

/-- JTAG_BYPASS: one bit, 0 at capture. -/
def execJtagBypass (s : State) : Out :=
  s.jtagTake true .bypass (fun s => { s with jtag := { s.jtag with bypassBit := false } })

/-- Cells of the boundary-scan register: the 22 pins of Table EB.10 but REFCLK_P/N and the JTAG pins, in its order, then the UCIe
sideband pins, data and clock of each direction for two modules (R554; PRESUMED, log 66). -/
abbrev boundaryCells := 30

/-- The levels of those pins: CLKOUT, MRESET_N, THROTTLE_N, ALERT_N and THERMTRIP_N as the state holds them; those of the other
pins, buses all, are open (DESIGN CHOICE, log 66). -/
def State.pinLevels (s : State) : List Bool :=
  [s.clkoutHigh s.clock, !s.pins.mreset, !s.pins.throttleFilter, s.pins.alertN, s.pins.thermtripN] ++
    (List.range (boundaryCells - 5)).map (fun i => decide ((Config.freeByte s.freeCount i).toNat % 2 = 1))

/-- The cells that bits shifted in leave: one bit for each, 0 where none came. -/
def boundaryOf (bits : List Bool) : List Bool := (List.range boundaryCells).map (fun i => bits.getD i false)

/-- JTAG_SAMPLE_PRELOAD: the pins' levels are captured and shifted out, and the boundary-scan register takes the bits shifted in. -/
def execJtagSamplePreload (bits : List Bool) (s : State) : Out :=
  s.jtagTake s.pins.allGood .samplePreload (fun s => { s with
    freeCount := s.freeCount + 1, resp := .pins s.pinLevels, jtag := { s.jtag with boundary := boundaryOf bits } })

/-- JTAG_EXTEST: only while MRESET_N is low; the pins are driven from the boundary-scan register. -/
def execJtagExtest (bits : List Bool) (s : State) : Out :=
  s.jtagTake s.jtagReset .extest (fun s => { s with jtag := { s.jtag with boundary := boundaryOf bits, driving := true } })

/-- JTAG_IEEE1838_ACCESS: only with DEBUG = 1. -/
def execJtagIeee1838Access (dieCode : Nat) (s : State) : Out :=
  s.jtagTake (s.jtagRuns && s.trust.debug) (.ieee1838 dieCode) (fun s => s)

/-- JTAG_IEEE1687_ACCESS: only with DEBUG = 1. -/
def execJtagIeee1687Access (network : Nat) (s : State) : Out :=
  s.jtagTake (s.jtagRuns && s.trust.debug) (.ieee1687 network) (fun s => s)

end Sys2Proof.Machine
end

