-- ==== Sys2Proof/Machine/Dispatch.lean ====
section
/-!
DEFINITION. One arm for each command of the table: the command's effect on everything but the queue.
-/
namespace Sys2Proof.Machine

def exec (i : Instr) (s : State) : Host.Outcome State Fault Refusal :=
  match i with
  | .regWrite req addr size value => Sys2Proof.Machine.execRegWrite req addr size value s
  | .reg64LowRead req read => Sys2Proof.Machine.execReg64LowRead req read s
  | .modeWrite req value => Sys2Proof.Machine.execModeWrite req value s
  | .psetLoad req index => Sys2Proof.Machine.execPsetLoad req index s
  | .psetUnload req index => Sys2Proof.Machine.execPsetUnload req index s
  | .psetLoadComplete => Sys2Proof.Machine.execPsetLoadComplete s
  | .prkLoad req index => Sys2Proof.Machine.execPrkLoad req index s
  | .prkUnload req index => Sys2Proof.Machine.execPrkUnload req index s
  | .prkLoadComplete => Sys2Proof.Machine.execPrkLoadComplete s
  | .sqDoorbell req ring tail => Sys2Proof.Machine.execSqDoorbell req ring tail s
  | .ringFetch ring => Sys2Proof.Machine.execRingFetch ring s
  | .ringError ring completion addr => Sys2Proof.Machine.execRingError ring completion addr s
  | .cqDoorbell req ring head => Sys2Proof.Machine.execCqDoorbell req ring head s
  | .evqDoorbell req head => Sys2Proof.Machine.execEvqDoorbell req head s
  | .ringEnable req => Sys2Proof.Machine.execRingEnable req s
  | .ringDisable req => Sys2Proof.Machine.execRingDisable req s
  | .ringReset req => Sys2Proof.Machine.execRingReset req s
  | .jobAdmissionCheck reads => Sys2Proof.Machine.execJobAdmissionCheck reads s
  | .jobAdmit => Sys2Proof.Machine.execJobAdmit s
  | .jobAged ring => Sys2Proof.Machine.execJobAged ring s
  | .jobCancelGo req ring => Sys2Proof.Machine.execJobCancelGo req ring s
  | .jobComplete ring => Sys2Proof.Machine.execJobComplete ring s
  | .completionRecordWrite ring => Sys2Proof.Machine.execCompletionRecordWrite ring s
  | .cqCoalesceTimeout ring => Sys2Proof.Machine.execCqCoalesceTimeout ring s
  | .halt req => Sys2Proof.Machine.execHalt req s
  | .haltComplete => Sys2Proof.Machine.execHaltComplete s
  | .release req => Sys2Proof.Machine.execRelease req s
  | .linkRetrain req rate => Sys2Proof.Machine.execLinkRetrain req rate s
  | .linkTrainingDone moduleA moduleB repaired => Sys2Proof.Machine.execLinkTrainingDone moduleA moduleB repaired s
  | .linkRecalibration => Sys2Proof.Machine.execLinkRecalibration s
  | .linkRecalibrationDone => Sys2Proof.Machine.execLinkRecalibrationDone s
  | .hdmMapWrite req value => Sys2Proof.Machine.execHdmMapWrite req value s
  | .hostMemRead offset len => Sys2Proof.Machine.execHostMemRead offset len s
  | .hostMemWrite offset data => Sys2Proof.Machine.execHostMemWrite offset data s
  | .cxlConfigRequest commit => Sys2Proof.Machine.execCxlConfigRequest commit s
  | .telemClear req => Sys2Proof.Machine.execTelemClear req s
  | .macroOffer tile => Sys2Proof.Machine.execMacroOffer tile s
  | .macroAdmit tile => Sys2Proof.Machine.execMacroAdmit tile s
  | .groupStart tile seq delay => Sys2Proof.Machine.execGroupStart tile seq delay s
  | .macroRetire tile seq held => Sys2Proof.Machine.execMacroRetire tile seq held s
  | .macroAbort tile seq cause => Sys2Proof.Machine.execMacroAbort tile seq cause s
  | .segmentFetchDone tile cycles => Sys2Proof.Machine.execSegmentFetchDone tile cycles s
  | .scratchEccWriteback tile offset => Sys2Proof.Machine.execScratchEccWriteback tile offset s
  | .ntt tile seq => Sys2Proof.Machine.execNtt tile seq s
  | .intt tile seq => Sys2Proof.Machine.execIntt tile seq s
  | .autoCoefficient tile seq => Sys2Proof.Machine.execAutoCoefficient tile seq s
  | .autoEvaluation tile seq => Sys2Proof.Machine.execAutoEvaluation tile seq s
  | .autoIndex tile seq => Sys2Proof.Machine.execAutoIndex tile seq s
  | .extract tile seq => Sys2Proof.Machine.execExtract tile seq s
  | .modup tile seq => Sys2Proof.Machine.execModup tile seq s
  | .moddown tile seq => Sys2Proof.Machine.execModdown tile seq s
  | .rescale tile seq => Sys2Proof.Machine.execRescale tile seq s
  | .kswRelin tile seq => Sys2Proof.Machine.execKswRelin tile seq s
  | .kswGalois tile seq => Sys2Proof.Machine.execKswGalois tile seq s
  | .kswLweKs tile seq => Sys2Proof.Machine.execKswLweKs tile seq s
  | .keyVerdict tile seq => Sys2Proof.Machine.execKeyVerdict tile seq s
  | .bobbinStreamStart stack => Sys2Proof.Machine.execBobbinStreamStart stack s
  | .keyRingArrival tile seq bytes cycles => Sys2Proof.Machine.execKeyRingArrival tile seq bytes cycles s
  | .hmul tile seq => Sys2Proof.Machine.execHmul tile seq s
  | .pmul tile seq => Sys2Proof.Machine.execPmul tile seq s
  | .add tile seq => Sys2Proof.Machine.execAdd tile seq s
  | .sub tile seq => Sys2Proof.Machine.execSub tile seq s
  | .neg tile seq => Sys2Proof.Machine.execNeg tile seq s
  | .cmul tile seq => Sys2Proof.Machine.execCmul tile seq s
  | .vprog tile seq => Sys2Proof.Machine.execVprog tile seq s
  | .vcvt tile seq => Sys2Proof.Machine.execVcvt tile seq s
  | .mxpModular tile seq => Sys2Proof.Machine.execMxpModular tile seq s
  | .mxpClear tile seq => Sys2Proof.Machine.execMxpClear tile seq s
  | .mxpExpand tile seq => Sys2Proof.Machine.execMxpExpand tile seq s
  | .pbs tile seq => Sys2Proof.Machine.execPbs tile seq s
  | .pbsKeyVerdict tile seq => Sys2Proof.Machine.execPbsKeyVerdict tile seq s
  | .pbsObjectArrival tile seq cycles => Sys2Proof.Machine.execPbsObjectArrival tile seq cycles s
  | .packRaise tile seq => Sys2Proof.Machine.execPackRaise tile seq s
  | .packLwe tile seq => Sys2Proof.Machine.execPackLwe tile seq s
  | .load tile seq => Sys2Proof.Machine.execLoad tile seq s
  | .store tile seq => Sys2Proof.Machine.execStore tile seq s
  | .gather tile seq => Sys2Proof.Machine.execGather tile seq s
  | .scatter tile seq => Sys2Proof.Machine.execScatter tile seq s
  | .send tile seq => Sys2Proof.Machine.execSend tile seq s
  | .shuttleSlotFree tile seq => Sys2Proof.Machine.execShuttleSlotFree tile seq s
  | .shuttleDescriptorArrive tile seq damaged => Sys2Proof.Machine.execShuttleDescriptorArrive tile seq damaged s
  | .shuttleAck tile seq => Sys2Proof.Machine.execShuttleAck tile seq s
  | .sendCompletion tile seq => Sys2Proof.Machine.execSendCompletion tile seq s
  | .recv tile seq => Sys2Proof.Machine.execRecv tile seq s
  | .recvPoll tile seq => Sys2Proof.Machine.execRecvPoll tile seq s
  | .shqReset req => Sys2Proof.Machine.execShqReset req s
  | .win tile seq => Sys2Proof.Machine.execWin tile seq s
  | .remoteWrite writer target offset data => Sys2Proof.Machine.execRemoteWrite writer target offset data s
  | .remoteRead reader target offset len => Sys2Proof.Machine.execRemoteRead reader target offset len s
  | .bar tile seq => Sys2Proof.Machine.execBar tile seq s
  | .barrierResolve ring barrier => Sys2Proof.Machine.execBarrierResolve ring barrier s
  | .chkCompute tile seq => Sys2Proof.Machine.execChkCompute tile seq s
  | .chkAppend tile seq => Sys2Proof.Machine.execChkAppend tile seq s
  | .chkCheckStrip tile seq => Sys2Proof.Machine.execChkCheckStrip tile seq s
  | .nop tile seq => Sys2Proof.Machine.execNop tile seq s
  | .chainStageResume tile seq cycles ringFull => Sys2Proof.Machine.execChainStageResume tile seq cycles ringFull s
  | .cvuRxWrite req unit value => Sys2Proof.Machine.execCvuRxWrite req unit value s
  | .memReadRequest addr error => Sys2Proof.Machine.execMemReadRequest addr error s
  | .memWriteRequest line mask data => Sys2Proof.Machine.execMemWriteRequest line mask data s
  | .memPoisonRequest => Sys2Proof.Machine.execMemPoisonRequest s
  | .wcbResidencyTimeout oldest => Sys2Proof.Machine.execWcbResidencyTimeout oldest s
  | .packetReceive path tile seq error => Sys2Proof.Machine.execPacketReceive path tile seq error s
  | .translationComplete tile queue present => Sys2Proof.Machine.execTranslationComplete tile queue present s
  | .streamResume req => Sys2Proof.Machine.execStreamResume req s
  | .stallWatchdog tile seq => Sys2Proof.Machine.execStallWatchdog tile seq s
  | .strmReadCheck req pattern => Sys2Proof.Machine.execStrmReadCheck req pattern s
  | .strmFill req pattern => Sys2Proof.Machine.execStrmFill req pattern s
  | .strmCompare req pattern => Sys2Proof.Machine.execStrmCompare req pattern s
  | .strmRead req pattern => Sys2Proof.Machine.execStrmRead req pattern s
  | .streamerDone stack errors => Sys2Proof.Machine.execStreamerDone stack errors s
  | .patrolScrub unit error => Sys2Proof.Machine.execPatrolScrub unit error s
  | .commitFinish reads => Sys2Proof.Machine.execCommitFinish reads s
  | .tilePollTimeout tile => Sys2Proof.Machine.execTilePollTimeout tile s
  | .tileFailure tile cause => Sys2Proof.Machine.execTileFailure tile cause s
  | .restoreDone reads => Sys2Proof.Machine.execRestoreDone reads s
  | .spareTakeover tile => Sys2Proof.Machine.execSpareTakeover tile s
  | .errorHandle => Sys2Proof.Machine.execErrorHandle s
  | .errorPosted => Sys2Proof.Machine.execErrorPosted s
  | .pacerSlot => Sys2Proof.Machine.execPacerSlot s
  | .pacerWindow => Sys2Proof.Machine.execPacerWindow s
  | .dvfsStart die => Sys2Proof.Machine.execDvfsStart die s
  | .avsStatusPoll die reached => Sys2Proof.Machine.execAvsStatusPoll die reached s
  | .dvfsSettleEnd die => Sys2Proof.Machine.execDvfsSettleEnd die s
  | .dvfsFreezeEnd die => Sys2Proof.Machine.execDvfsFreezeEnd die s
  | .avsTimeout die => Sys2Proof.Machine.execAvsTimeout die s
  | .thermalSample tiles hbm hub => Sys2Proof.Machine.execThermalSample tiles hbm hub s
  | .thermalFloorRise die => Sys2Proof.Machine.execThermalFloorRise die s
  | .thermalFloorFall die => Sys2Proof.Machine.execThermalFloorFall die s
  | .powerOff req => Sys2Proof.Machine.execPowerOff req s
  | .safeOff => Sys2Proof.Machine.execSafeOff s
  | .clkoutSelect req value => Sys2Proof.Machine.execClkoutSelect req value s
  | .railGood rail => Sys2Proof.Machine.execRailGood rail s
  | .railLost rail => Sys2Proof.Machine.execRailLost rail s
  | .refclkLost => Sys2Proof.Machine.execRefclkLost s
  | .mresetAssert => Sys2Proof.Machine.execMresetAssert s
  | .mresetRelease => Sys2Proof.Machine.execMresetRelease s
  | .throttleFilter active => Sys2Proof.Machine.execThrottleFilter active s
  | .throttleHonour => Sys2Proof.Machine.execThrottleHonour s
  | .startupBegin => Sys2Proof.Machine.execStartupBegin s
  | .stageRom badFuseRow => Sys2Proof.Machine.execStageRom badFuseRow s
  | .stageTrusted => Sys2Proof.Machine.execStageTrusted s
  | .stageHbm reports => Sys2Proof.Machine.execStageHbm reports s
  | .stageTiles failingSites failingBridge => Sys2Proof.Machine.execStageTiles failingSites failingBridge s
  | .stageWipe => Sys2Proof.Machine.execStageWipe s
  | .stageService => Sys2Proof.Machine.execStageService s
  | .stageUcie moduleA moduleB repaired => Sys2Proof.Machine.execStageUcie moduleA moduleB repaired s
  | .stageCxl => Sys2Proof.Machine.execStageCxl s
  | .bootStart kind => Sys2Proof.Machine.execBootStart kind s
  | .bootPush => Sys2Proof.Machine.execBootPush s
  | .bootAbort => Sys2Proof.Machine.execBootAbort s
  | .ownerChange req => Sys2Proof.Machine.execOwnerChange req s
  | .ownerChangeDone => Sys2Proof.Machine.execOwnerChangeDone s
  | .debugNonce req => Sys2Proof.Machine.execDebugNonce req s
  | .debugUnlock req => Sys2Proof.Machine.execDebugUnlock req s
  | .svnCommit req fusesBlown => Sys2Proof.Machine.execSvnCommit req fusesBlown s
  | .identity req => Sys2Proof.Machine.execIdentity req s
  | .spdmRequest request => Sys2Proof.Machine.execSpdmRequest request s
  | .svcHeartbeat => Sys2Proof.Machine.execSvcHeartbeat s
  | .heartbeatMissed => Sys2Proof.Machine.execHeartbeatMissed s
  | .svcDenied write addr value => Sys2Proof.Machine.execSvcDenied write addr value s
  | .modadd mBits x y m => Sys2Proof.Machine.execModadd mBits x y m s
  | .modsub mBits x y m => Sys2Proof.Machine.execModsub mBits x y m s
  | .modmul mBits x y m => Sys2Proof.Machine.execModmul mBits x y m s
  | .modexp mBits eBits x e m => Sys2Proof.Machine.execModexp mBits eBits x e m s
  | .modinvP mBits x m => Sys2Proof.Machine.execModinvP mBits x m s
  | .ecmulg slot k => Sys2Proof.Machine.execEcmulg slot k s
  | .ecmul slot k p => Sys2Proof.Machine.execEcmul slot k p s
  | .ecdh slot k q => Sys2Proof.Machine.execEcdh slot k q s
  | .ecadd slot p q => Sys2Proof.Machine.execEcadd slot p q s
  | .ecdsaSign slot e d k => Sys2Proof.Machine.execEcdsaSign slot e d k s
  | .ecdsaVerify slot e r sigS q => Sys2Proof.Machine.execEcdsaVerify slot e r sigS q s
  | .curveLoad slot p a b gx gy n => Sys2Proof.Machine.execCurveLoad slot p a b gx gy n s
  | .bodkinDone => Sys2Proof.Machine.execBodkinDone s
  | .i3cStatusRead => Sys2Proof.Machine.execI3cStatusRead s
  | .i3cPrivateWrite data => Sys2Proof.Machine.execI3cPrivateWrite data s
  | .jtagIdcode => Sys2Proof.Machine.execJtagIdcode s
  | .jtagBypass => Sys2Proof.Machine.execJtagBypass s
  | .jtagSamplePreload bits => Sys2Proof.Machine.execJtagSamplePreload bits s
  | .jtagExtest bits => Sys2Proof.Machine.execJtagExtest bits s
  | .jtagIeee1838Access dieCode => Sys2Proof.Machine.execJtagIeee1838Access dieCode s
  | .jtagIeee1687Access network => Sys2Proof.Machine.execJtagIeee1687Access network s
  | .i3cDynamicAddressAssignment addr => Sys2Proof.Machine.execI3cDynamicAddressAssignment addr s
  | .spdmHeartbeatTimeout session => Sys2Proof.Machine.execSpdmHeartbeatTimeout session s
  | .mailboxBadCmd req cmd => Sys2Proof.Machine.execMailboxBadCmd req cmd s

end Sys2Proof.Machine
end

