-- ==== Sys2Proof/Safety.lean ====
section
/-!
DEFINITION. What a safe run is, in the terms the statements use: the invariants of the machine's data, and the absence of
the one fault.
-/
namespace Sys2Proof.Machine

/-- The invariant of memory: its cells, and those of the boot flash, are in canonical form. -/
def State.memoryOk (s : State) : Bool := Memory.wf s.mem && Memory.wf s.flash

/-- A resident write-combining entry of stack `k` (R322): an aligned line of that stack, 64 bytes, not complete. -/
def WcbEntry.ok (k : Nat) (e : WcbEntry) : Bool :=
  (match home e.line with | .hbm j _ => j == k | _ => false) && e.line % 64 == 0 && e.data.length == 64 &&
    e.mask.toNat != fullMask

/-- The write-combining buffer of stack `k` (R322): at most 256 entries, one for a line. -/
def Stack.wcbOk (k : Nat) (u : Stack) : Bool :=
  decide (u.wcb.length ≤ 256) && u.wcb.all (WcbEntry.ok k) && noRepeats (u.wcb.map (·.line))

/-- Every write-combining buffer is as R322 says. -/
def wcbsOk (v : Tab 12 Stack) : Bool := (List.range 12).all (fun k => (Tab.at v Stack.reset k).wcbOk k)

/-- The invariant of the write-combining buffers. -/
def State.wcbOk (s : State) : Bool := wcbsOk s.hbm

/-- A ring has at most one admitted job (R406). -/
def ringsOnce (l : List Job) : Bool := noRepeats (l.map (·.ring))

/-- The invariant of the admitted jobs. -/
def State.jobsOk (s : State) : Bool := ringsOnce s.jobs

/-- The error queue holds at most 64 entries (R528). -/
def State.errorsOk (s : State) : Bool := decide (s.errs.queue.length ≤ 64)

/-- A step that does not stop. -/
def State.goesOn (s : State) : Bool :=
  match step s with
  | .next _ => true
  | _ => false

/-! ## Register accesses -/

/-- A register write of a requester reaches the register at `a`: register writes are served, and for the service cluster a window covers
the address (R487, R531). -/
def State.reaches (s : State) (q : Requester) (a : Nat) : Bool := s.serves q && s.windowOpen q a

/-- The addresses of BAR0 that the register tables assign (Tables EB.5, EB.11, HI.11 to HI.16, MS.8, MS.9, OP.18, PW.9, PW.10, SE.5,
SE.12, SQ.10, TL.8, TL.9, TR.8): the 32-bit registers, both words of the 64-bit ones, and the register arrays. -/
def bar0Assigned (a : Nat) : Bool :=
  wideReg a || (decide (4 ≤ a) && wideReg (a - 4)) ||
    [0x000000, 0x000004, 0x000010, 0x000020, 0x000024, 0x000028, 0x00002C, 0x000030,
     0x010000, 0x010108, 0x01010C, 0x010208, 0x01020C, 0x010210, 0x010214, 0x010300, 0x010400, 0x010404, 0x010410, 0x010420,
     0x010424, 0x010430, 0x010500, 0x010504, 0x010700].contains a ||
    [0x020000, 0x020018, 0x020028, 0x020030, 0x020034, 0x020038, 0x02003C, 0x020808, 0x02080C].contains a ||
    [0x030000, 0x030004, 0x030010, 0x030018, 0x030100, 0x030104, 0x030108, 0x03010C, 0x030120, 0x030124, 0x030130].contains a ||
    [0x040000, 0x040010, 0x040028, 0x04002C, 0x040030, 0x040034, 0x040038, 0x040040].contains a ||
    [0x050000, 0x050010, 0x050014, 0x050018, 0x050020, 0x050024, 0x050820, 0x050824, 0x050830, 0x050834, 0x050900, 0x050904].contains a ||
    (decide (0x050040 ≤ a) && decide (a < 0x050060)) || (decide (0x050800 ≤ a) && decide (a < 0x050820)) ||
    [0x060000, 0x060004, 0x060008].contains a || (decide (0x061000 ≤ a) && decide (a < 0x062000)) ||
    (inCvu a && [0x10, 0x14, 0x28].contains (a % 64)) ||
    (decide (0x080000 ≤ a) && decide (a < 0x080104)) ||
    [0x100000, 0x100004, 0x100008, 0x100100, 0x100104].contains a || (decide (0x100020 ≤ a) && decide (a < 0x100040)) ||
    [0x180000, 0x180010].contains a

/-! ## Recorded errors -/

/-- An error that becomes an entry of its own in the queue: the module is not FATAL (R529), the error repeats no waiting
entry (R526), and the queue has room (R528). -/
def ErrUnit.takes (u : ErrUnit) (e : Err) : Bool :=
  !u.fatal && decide (u.queue.length < 64) && !u.queue.any (fun x => x.repeats e)

/-- The error `e` has been recorded between `s` and `t`: where it becomes an entry of its own, that entry is the
last of the queue and has COUNT 1. -/
def Recorded (s t : State) (e : Err) : Prop :=
  s.errs.takes e = true → ∃ x, t.errs.queue.getLast? = some x ∧ x.err = e ∧ x.count = 1

/-! ## Host memory -/

/-- Bytes of host memory that a write reaches as they are: the invariants hold, the bytes do not pass the end of the host's
space, and no line of it is poisoned. -/
def State.hostSound (s : State) (h n : Nat) : Prop :=
  s.wcbOk = true ∧ s.memoryOk = true ∧ h + n ≤ 2 ^ 63 ∧ ∀ a, 2 ^ 63 ≤ a → s.poisoned a = false

/-- An entry for the event ring between `s` and `t` (R412, R413): where the ring takes it, its 64 bytes stand in the slot at the
tail, the ring has moved on and vector 32 is raised; where it does not, the entry is discarded and counted, and memory and
the vectors are as before. -/
def Posted (s t : State) (kind : Nat) (payload : List Byte) : Prop :=
  (s.evq.hasRoom = true → t.evq = s.evq.taken ∧ t.msix = s.msix ++ [32] ∧
    (s.hostSound (s.evq.base.toNat + 64 * s.evq.tail) 64 →
      t.readRaw (hostAddr (s.evq.base.toNat + 64 * s.evq.tail)) 64 = s.evq.entry kind payload)) ∧
  (s.evq.hasRoom = false → t.evq = s.evq.dropped ∧ t.msix = s.msix ∧ t.mem = s.mem)

/-! ## Power -/

/-- Between `s` and `t` the charge of die `d` has changed and nothing else of its tiles: the cycles that each may still run in its slot
follow from what is left of its allotment and its new rate (R459, R465). No other tile changes. -/
def Repaced (s t : State) (d : Nat) : Prop :=
  ∀ x, x < 208 → t.tile x = if dieOfTile x = d
    then { s.tile x with runs := min (s.tile x).slotLeft ((s.tile x).coreAllot / max 1 (t.rate x)) } else s.tile x

/-- The core tokens that die `d` spends in the slot that ends, ballast apart. -/
def State.dieSpending (s : State) (d : Nat) : Nat := total ((List.range 52).map (fun i => s.slotSpent (52 * d + i)))

/-! ## Frames -/

/-- The parts of the state that a frame names: its fields, the fields of the tiles in ten groups, the fuses (R494), and
FATAL, which an update leaves alone where it does not end it (R532). -/
inductive Part where
  | clock | freeCount | resp | msix | pageRequests | sel | readLatch | lowHeld | mode | wdog | cancelTag
  | cancelRing | cancelResult | jobAge | halt | telemSel | tele | psetLoader | psets | prkLoader | prks | rings
  | evq | rrNext | jobs | groups | spares | mem | linePoison | hbm | poisonRequests | nearScrub | link | errs
  | dies | power | pins | trust | mbx | bodkin | cvus | boot | jtag | tVregs | tMarks | tPlace | tProgram | tWindow
  | tStreams | tQueues | tWindows | tDrop | tTemp | fuses | fatal
deriving DecidableEq, Repr

/-- A tile's tile and mask registers with the rows on their way. -/
def Tile.regs (u : Tile) :=
  (u.vregs, u.kregs, u.landings)

/-- A tile's poison map and uncorrectable words. -/
def Tile.faults (u : Tile) :=
  (u.marks, u.eccDouble)

/-- A tile's site and condition. -/
def Tile.place (u : Tile) :=
  (u.logical, u.site, u.die, u.col, u.row, u.locState, u.failed)

/-- A tile's job and program store. -/
def Tile.program (u : Tile) :=
  (u.job, u.entry, u.store, u.partner)

/-- A tile's sequencer, and the tokens of the slot that it draws on. -/
def Tile.sequencer (u : Tile) :=
  (u.next, u.lastAdmit, u.offer, u.window, u.chains, u.engines, u.cycle, u.auditPos, u.coreAllot, u.drawn, u.slotLeft, u.runs, u.memAllot,
    u.memOwed)

/-- A tile's dropped remote writes. -/
def Tile.drops (u : Tile) :=
  (u.dropped, u.dropAddr)

/-- A tile's temperature, and whether the last slot left it short. -/
def Tile.budget (u : Tile) :=
  (u.temp, u.limited)

/-- A part is the same after as before; FATAL has not ended. -/
def Part.same (s t : State) : Part → Prop
  | .clock => t.clock = s.clock
  | .freeCount => t.freeCount = s.freeCount
  | .resp => t.resp = s.resp
  | .msix => t.msix = s.msix
  | .pageRequests => t.pageRequests = s.pageRequests
  | .sel => t.sel = s.sel
  | .readLatch => t.readLatch = s.readLatch
  | .lowHeld => t.lowHeld = s.lowHeld
  | .mode => t.mode = s.mode
  | .wdog => t.wdog = s.wdog
  | .cancelTag => t.cancelTag = s.cancelTag
  | .cancelRing => t.cancelRing = s.cancelRing
  | .cancelResult => t.cancelResult = s.cancelResult
  | .jobAge => t.jobAge = s.jobAge
  | .halt => t.halt = s.halt
  | .telemSel => t.telemSel = s.telemSel
  | .tele => t.tele = s.tele
  | .psetLoader => t.psetLoader = s.psetLoader
  | .psets => t.psets = s.psets
  | .prkLoader => t.prkLoader = s.prkLoader
  | .prks => t.prks = s.prks
  | .rings => t.rings = s.rings
  | .evq => t.evq = s.evq
  | .rrNext => t.rrNext = s.rrNext
  | .jobs => t.jobs = s.jobs
  | .groups => t.groups = s.groups
  | .spares => t.spares = s.spares
  | .mem => t.mem = s.mem
  | .linePoison => t.linePoison = s.linePoison
  | .hbm => t.hbm = s.hbm
  | .poisonRequests => t.poisonRequests = s.poisonRequests
  | .nearScrub => t.nearScrub = s.nearScrub
  | .link => t.link = s.link
  | .errs => t.errs = s.errs
  | .dies => t.dies = s.dies
  | .power => t.power = s.power
  | .pins => t.pins = s.pins
  | .trust => t.trust = s.trust
  | .mbx => t.mbx = s.mbx
  | .bodkin => t.bodkin = s.bodkin
  | .cvus => t.cvus = s.cvus
  | .boot => t.boot = s.boot
  | .jtag => t.jtag = s.jtag
  | .tVregs => ∀ x, (t.tile x).regs = (s.tile x).regs
  | .tMarks => ∀ x, (t.tile x).faults = (s.tile x).faults
  | .tPlace => ∀ x, (t.tile x).place = (s.tile x).place
  | .tProgram => ∀ x, (t.tile x).program = (s.tile x).program
  | .tWindow => ∀ x, (t.tile x).sequencer = (s.tile x).sequencer
  | .tStreams => ∀ x, (t.tile x).streams = (s.tile x).streams
  | .tQueues => ∀ x, (t.tile x).queues = (s.tile x).queues
  | .tWindows => ∀ x, (t.tile x).windows = (s.tile x).windows
  | .tDrop => ∀ x, (t.tile x).drops = (s.tile x).drops
  | .tTemp => ∀ x, (t.tile x).budget = (s.tile x).budget
  | .fuses => t.trust.svnTrusted = s.trust.svnTrusted ∧ t.trust.svnService = s.trust.svnService ∧
      t.trust.revoked = s.trust.revoked
  | .fatal => s.errs.fatal = true → t.errs.fatal = true

/-- What a write of memory lines may change: memory with its poison codes, the write-combining buffers, the marks of
scratchpad words, counters. -/
def Part.stored : List Part := [.mem, .linePoison, .hbm, .tele, .tMarks]

/-- What an error raised may change: the error queue, events held by jobs, and on a FATAL error ramps, pins and buffers. -/
def Part.raised : List Part := [.errs, .jobs, .dies, .pins, .hbm, .tele]

/-- Every part but the fuses, which a reset keeps (R494). -/
def Part.every : List Part :=
  [.clock, .freeCount, .resp, .msix, .pageRequests, .sel, .readLatch, .lowHeld, .mode, .wdog, .cancelTag,
  .cancelRing, .cancelResult, .jobAge, .halt, .telemSel, .tele, .psetLoader, .psets, .prkLoader, .prks, .rings,
  .evq, .rrNext, .jobs, .groups, .spares, .mem, .linePoison, .hbm, .poisonRequests, .nearScrub, .link, .errs,
  .dies, .power, .pins, .trust, .mbx, .bodkin, .cvus, .boot, .jtag, .tVregs, .tMarks, .tPlace, .tProgram, .tWindow,
  .tStreams, .tQueues, .tWindows, .tDrop, .tTemp, .fatal]

/-- The parts of the state that a command may change. -/
def footprint : Instr → List Part
  | .regWrite _ _ _ _ =>
    Part.stored ++ Part.raised ++ [.freeCount, .msix, .sel, .readLatch, .lowHeld, .mode, .wdog, .cancelTag,
    .cancelRing, .cancelResult, .jobAge, .halt, .telemSel, .psetLoader, .psets, .prkLoader, .prks, .rings, .evq,
    .groups, .poisonRequests, .link, .power, .trust, .mbx, .bodkin, .cvus, .boot, .tVregs, .tProgram, .tWindow,
    .tStreams, .tQueues, .tWindows, .tDrop, .fuses]
  | .reg64LowRead _ _ =>
    Part.raised ++ [.resp, .readLatch]
  | .modeWrite _ _ =>
    Part.raised ++ [.readLatch, .mode]
  | .psetLoad _ _ | .psetUnload _ _ =>
    Part.raised ++ [.readLatch, .psetLoader]
  | .psetLoadComplete =>
    [.psetLoader, .psets]
  | .prkLoad _ _ | .prkUnload _ _ =>
    Part.raised ++ [.readLatch, .prkLoader]
  | .prkLoadComplete =>
    [.prkLoader, .prks]
  | .sqDoorbell _ _ _ | .cqDoorbell _ _ _ =>
    Part.raised ++ [.readLatch, .rings]
  | .ringFetch _ | .macroOffer _ | .segmentFetchDone _ _ =>
    Part.stored ++ Part.raised ++ [.msix, .rings, .groups, .poisonRequests, .tVregs, .tProgram, .tWindow,
    .tStreams, .tQueues, .tWindows]
  | .ringError _ _ _ =>
    Part.stored ++ [.msix, .rings, .evq]
  | .evqDoorbell _ _ =>
    Part.raised ++ [.readLatch, .evq]
  | .ringEnable _ | .ringDisable _ | .ringReset _ =>
    Part.stored ++ Part.raised ++ [.msix, .readLatch, .rings, .tProgram]
  | .jobAdmissionCheck _ | .completionRecordWrite _ =>
    Part.stored ++ [.msix, .rings, .jobs, .tProgram]
  | .jobAdmit =>
    Part.stored ++ Part.raised ++ [.msix, .rings, .rrNext, .groups, .poisonRequests, .power, .tVregs, .tProgram,
    .tWindow, .tStreams, .tQueues, .tWindows]
  | .jobAged _ =>
    [.clock, .rings]
  | .jobCancelGo _ _ =>
    Part.stored ++ Part.raised ++ [.msix, .readLatch, .cancelRing, .cancelResult, .rings, .groups, .poisonRequests,
    .tVregs, .tProgram, .tWindow, .tStreams, .tQueues, .tWindows]
  | .jobComplete _ =>
    Part.stored ++ Part.raised ++ [.msix, .rings, .groups, .tProgram, .tWindow, .tStreams, .tQueues, .tWindows]
  | .cqCoalesceTimeout _ =>
    [.clock, .msix, .rings]
  | .halt _ | .release _ =>
    Part.stored ++ Part.raised ++ [.msix, .readLatch, .halt, .rings, .groups, .poisonRequests, .tVregs, .tProgram,
    .tWindow, .tStreams, .tQueues, .tWindows]
  | .haltComplete =>
    [.halt]
  | .linkRetrain _ _ | .hdmMapWrite _ _ =>
    Part.raised ++ [.readLatch, .link]
  | .linkTrainingDone _ _ _ =>
    Part.stored ++ [.msix, .evq, .link]
  | .linkRecalibration =>
    [.clock, .tele, .link]
  | .linkRecalibrationDone =>
    [.link]
  | .hostMemRead _ _ =>
    Part.raised ++ [.resp, .power]
  | .hostMemWrite _ _ =>
    Part.stored ++ [.jobs, .power]
  | .cxlConfigRequest _ =>
    [.resp, .link]
  | .telemClear _ =>
    Part.raised ++ [.readLatch]
  | .macroAdmit _ =>
    Part.stored ++ [.groups, .tProgram, .tWindow, .tStreams]
  | .groupStart _ _ _ =>
    [.tele, .groups, .hbm, .tWindow]
  | .macroRetire _ _ _ | .shuttleAck _ _ | .sendCompletion _ _ =>
    Part.stored ++ Part.raised ++ [.tWindow, .tStreams, .tQueues]
  | .macroAbort _ _ _ =>
    Part.stored ++ Part.raised ++ [.groups, .poisonRequests, .tVregs, .tWindow, .tStreams, .tQueues, .tWindows]
  | .scratchEccWriteback _ _ =>
    Part.raised
  | .ntt _ _ | .intt _ _ | .autoCoefficient _ _ | .autoEvaluation _ _ | .autoIndex _ _ | .extract _ _ | .modup _ _
  | .moddown _ _ | .rescale _ _ | .hmul _ _ | .pmul _ _ | .add _ _ | .sub _ _ | .neg _ _ | .cmul _ _ | .vcvt _ _
  | .mxpModular _ _ | .mxpClear _ _ | .mxpExpand _ _ | .packRaise _ _ | .packLwe _ _ =>
    Part.stored ++ [.tWindow]
  | .recv _ _ =>
    Part.stored ++ [.jobs, .tWindow, .tDrop]
  | .kswRelin _ _ | .kswGalois _ _ | .kswLweKs _ _ | .keyRingArrival _ _ _ _ | .pbs _ _ =>
    Part.stored ++ [.groups, .power, .tWindow]
  | .keyVerdict _ _ | .pbsKeyVerdict _ _ | .pbsObjectArrival _ _ _ =>
    [.tele, .groups, .power, .tWindow]
  | .bobbinStreamStart _ =>
    [.tele, .hbm]
  | .vprog _ _ =>
    Part.stored ++ [.freeCount, .tVregs, .tWindow]
  | .load _ _ | .store _ _ | .gather _ _ | .scatter _ _ =>
    Part.stored ++ [.jobs, .tWindow, .tStreams, .tDrop]
  | .send _ _ | .shuttleSlotFree _ _ | .chainStageResume _ _ _ _ =>
    [.tele, .tWindow]
  | .shuttleDescriptorArrive _ _ _ =>
    Part.stored ++ Part.raised ++ [.tWindow, .tQueues]
  | .recvPoll _ _ =>
    Part.stored ++ [.tWindow, .tQueues]
  | .shqReset _ =>
    Part.stored ++ Part.raised ++ [.readLatch, .tWindow, .tQueues]
  | .win _ _ =>
    [.tele, .tMarks, .tWindow, .tWindows]
  | .remoteWrite _ _ _ _ | .memWriteRequest _ _ _ =>
    Part.stored ++ [.jobs]
  | .remoteRead _ _ _ _ =>
    [.resp, .tele, .tMarks]
  | .bar _ _ =>
    [.jobs, .tWindow]
  | .barrierResolve _ _ | .commitFinish _ =>
    Part.stored ++ Part.raised ++ [.groups, .poisonRequests, .power, .tVregs, .tWindow, .tStreams, .tQueues,
    .tWindows]
  | .chkCompute _ _ | .chkAppend _ _ | .chkCheckStrip _ _ =>
    Part.stored ++ [.jobs, .cvus, .tWindow, .tDrop]
  | .nop _ _ =>
    [.tWindow]
  | .cvuRxWrite _ _ _ =>
    Part.raised ++ [.readLatch, .cvus]
  | .memReadRequest _ _ =>
    Part.raised ++ [.resp, .linePoison, .tMarks]
  | .memPoisonRequest =>
    [.tele, .linePoison, .hbm, .poisonRequests]
  | .wcbResidencyTimeout _ =>
    Part.raised ++ [.clock, .mem, .linePoison]
  | .packetReceive _ _ _ _ =>
    Part.raised ++ [.tWindow]
  | .translationComplete _ _ _ =>
    Part.stored ++ [.msix, .pageRequests, .evq, .jobs, .tWindow, .tStreams, .tDrop]
  | .streamResume _ =>
    Part.stored ++ Part.raised ++ [.readLatch, .tStreams]
  | .stallWatchdog _ _ =>
    Part.raised ++ [.clock, .tWindow]
  | .strmReadCheck _ _ | .strmFill _ _ | .strmCompare _ _ | .strmRead _ _ =>
    Part.stored ++ Part.raised ++ [.readLatch, .power]
  | .streamerDone _ _ =>
    Part.raised ++ [.linePoison]
  | .patrolScrub _ _ =>
    Part.raised ++ [.linePoison, .nearScrub, .power]
  | .tilePollTimeout _ | .tileFailure _ _ =>
    Part.stored ++ Part.raised ++ [.groups, .spares, .poisonRequests, .tVregs, .tPlace, .tWindow, .tStreams,
    .tQueues, .tWindows]
  | .restoreDone _ =>
    Part.stored ++ Part.raised ++ [.groups, .poisonRequests, .power, .cvus, .tVregs, .tProgram, .tWindow,
    .tStreams, .tQueues, .tWindows]
  | .spareTakeover _ =>
    Part.raised ++ [.spares, .mem, .tVregs, .tMarks, .tPlace]
  | .errorHandle =>
    Part.raised ++ [.freeCount]
  | .errorPosted =>
    Part.stored ++ [.msix, .evq, .errs]
  | .pacerSlot =>
    [.clock, .tele, .dies, .power, .tTemp, .tWindow]
  | .pacerWindow =>
    [.clock, .tele, .dies, .power]
  | .thermalFloorRise _ | .thermalFloorFall _ =>
    [.clock, .dies]
  | .dvfsStart _ | .avsStatusPoll _ _ | .dvfsSettleEnd _ | .dvfsFreezeEnd _ =>
    [.clock, .tele, .dies, .tWindow]
  | .avsTimeout _ =>
    Part.raised ++ [.clock]
  | .thermalSample _ _ _ =>
    Part.raised ++ [.clock, .power, .tTemp]
  | .powerOff _ | .clkoutSelect _ _ =>
    Part.raised ++ [.readLatch, .power]
  | .safeOff =>
    [.clock, .tele, .dies, .power]
  | .railGood _ =>
    [.pins, .boot]
  | .mresetRelease =>
    [.tele, .pins, .boot, .jtag]
  | .i3cDynamicAddressAssignment _ =>
    [.pins]
  | .railLost _ | .mresetAssert =>
    Part.every
  | .refclkLost =>
    Part.raised ++ [.power, .boot]
  | .throttleFilter _ =>
    [.tele, .pins]
  | .throttleHonour =>
    [.clock, .tele, .pins]
  | .startupBegin =>
    [.clock, .tele, .power, .pins, .boot]
  | .stageRom _ =>
    [.power, .pins, .boot]
  | .stageTrusted | .stageService =>
    [.freeCount, .trust, .boot]
  | .stageHbm _ =>
    [.tele, .hbm, .pins, .boot]
  | .stageTiles _ _ =>
    [.spares, .pins, .boot, .tPlace]
  | .stageWipe =>
    Part.stored ++ [.freeCount, .mode, .psets, .prks, .link, .trust, .bodkin, .cvus, .boot, .tVregs, .tProgram, .tQueues]
  | .stageUcie _ _ _ =>
    Part.stored ++ [.msix, .evq, .link, .pins, .boot]
  | .stageCxl =>
    [.tele, .boot]
  | .bootStart _ | .bootPush | .bootAbort =>
    Part.raised ++ [.freeCount, .readLatch, .trust, .boot]
  | .ownerChange _ | .debugUnlock _ =>
    Part.stored ++ Part.raised ++ [.freeCount, .readLatch, .mode, .psets, .prks, .link, .trust, .mbx, .bodkin, .cvus, .tVregs,
    .tProgram, .tQueues]
  | .ownerChangeDone =>
    [.tele, .trust, .mbx]
  | .debugNonce _ =>
    Part.raised ++ [.freeCount, .readLatch, .trust, .mbx]
  | .svnCommit _ _ =>
    Part.raised ++ [.readLatch, .trust, .mbx, .fuses]
  | .identity _ | .mailboxBadCmd _ _ =>
    Part.raised ++ [.readLatch, .mbx]
  | .spdmRequest _ =>
    [.freeCount, .resp, .tele, .link, .trust]
  | .svcHeartbeat | .spdmHeartbeatTimeout _ =>
    [.trust]
  | .heartbeatMissed =>
    Part.stored ++ Part.raised ++ [.clock, .msix, .halt, .rings, .groups, .poisonRequests, .trust, .tVregs,
    .tProgram, .tWindow, .tStreams, .tQueues, .tWindows]
  | .svcDenied _ _ _ =>
    Part.raised ++ [.resp]
  | .modadd _ _ _ _ | .modsub _ _ _ _ | .modmul _ _ _ _ | .modexp _ _ _ _ _ | .modinvP _ _ _ | .ecmulg _ _
  | .ecmul _ _ _ | .ecdh _ _ _ | .ecadd _ _ _ | .ecdsaSign _ _ _ _ | .ecdsaVerify _ _ _ _ _
  | .curveLoad _ _ _ _ _ _ _ =>
    [.bodkin]
  | .bodkinDone =>
    [.clock, .tele, .bodkin]
  | .i3cStatusRead =>
    [.resp, .pins]
  | .i3cPrivateWrite _ =>
    [.resp]
  | .jtagIdcode =>
    [.resp, .jtag]
  | .jtagSamplePreload _ =>
    [.freeCount, .resp, .jtag]
  | .jtagBypass | .jtagExtest _ | .jtagIeee1838Access _ | .jtagIeee1687Access _ =>
    [.jtag]

/-! ## Terms of the statements -/

/-- Entry `i` from the head of a submission ring, as host memory holds it. -/
def State.sqEntry (s : State) (k i : Nat) : List Byte :=
  s.readRaw (hostAddr ((s.ring k).sqBase.toNat + 128 * (((s.ring k).sqHead + i) % 2 ^ (s.ring k).sqSizeLog))) 128

/-- How many entries a fetch takes: those up to the tail, while the pending list of 64 has room. -/
def Ring.fetchable (r : Ring) : Nat :=
  min (64 - r.pending.length) ((r.sqTail + 2 ^ r.sqSizeLog - r.sqHead) % 2 ^ r.sqSizeLog)

/-- What an engine command leaves: every output batch with its record by `rule` and its words by `data`, all inputs read
from the state before; the macro-operation's effect is taken. -/
def State.engineEffect (s : State) (c : Ctx) (v : View) (rule : List (Nat × RecIn) → RecIn → RecRule)
    (data : State → View → Nat → RecIn → PSet → List ElemOut) : State :=
  s.commitOut c v (v.outBatches.map (fun b => s.batchOut c v b rule noExtra (data s v b)))

/-- A macro-operation of opcode family `fam` that an engine may work on, whose read ranges hold no uncorrectable word. -/
def State.workable (s : State) (t seq : Nat) (kind : MopWord → Bool) (c : Ctx) : Prop :=
  s.readyCtx t seq kind = some c ∧ s.badWord c = none

/-- An unfinished macro-operation that its key stream serves: started, or the PBS of FC6 (R265); the service pool's slot still
has tokens (R468). -/
def State.feeds (s : State) (t seq : Nat) (c : Ctx) : Prop :=
  s.ctx t seq = some c ∧ s.tileRuns t = true ∧ (c.mop.start.isSome = true ∨ c.w.chain = 6) ∧ c.mop.done = false ∧
    c.mop.stop = none ∧ s.poisonWaits c = false ∧ s.poolOpen = true

/-- The engine commands whose whole effect happens at once, with the opcodes they stand for. -/
def engineCommands (t seq : Nat) : List (Instr × (MopWord → Bool)) :=
  [(.ntt t seq, fun w => w.family == 0), (.intt t seq, fun w => w.family == 1), (.autoCoefficient t seq, isAuto 0),
   (.autoEvaluation t seq, isAuto 1), (.autoIndex t seq, isAuto 2), (.extract t seq, fun w => w.family == 3),
   (.modup t seq, fun w => w.family == 4), (.moddown t seq, fun w => w.family == 5),
   (.rescale t seq, fun w => w.family == 6), (.hmul t seq, fun w => w.family == 8),
   (.pmul t seq, fun w => w.family == 9), (.add t seq, fun w => w.family == 10), (.sub t seq, fun w => w.family == 11),
   (.neg t seq, fun w => w.family == 12), (.cmul t seq, fun w => w.family == 13),
   (.vprog t seq, fun w => w.family == 14), (.vcvt t seq, fun w => w.family == 15),
   (.mxpModular t seq, fun w => w.family == 16 && w.mmode == 0), (.mxpClear t seq, fun w => w.family == 16 && w.mmode == 1),
   (.mxpExpand t seq, fun w => w.family == 16 && w.mmode == 2),
   (.packRaise t seq, fun w => w.family == 18 && w.packSrc == 0), (.packLwe t seq, fun w => w.family == 18 && w.packSrc == 1)]

/-- A PLAIN record of 1 component with KEYTAG and NOISE 0. -/
def plainOut (pset level : Nat) (scale : Int) : Rec :=
  { domain := 4, pset := pset, level := level, flags := 0, keytag := 0, scale := low 16 scale, noise := 0, comps := 1 }

/-- A byte that tile `t` may write as plain memory: in its own scratchpad below the control page, or in memory; not in a
poisoned line. -/
def State.plainTarget (s : State) (t a : Nat) : Prop :=
  s.poisoned a = false ∧ match home a with
    | .scratch x o => x = t ∧ o < controlPage
    | .unmapped => False
    | _ => True

/-- Two byte extents share no byte. -/
def apart (a b : Nat × Nat) : Prop := a.1 + a.2 ≤ b.1 ∨ b.1 + b.2 ≤ a.1

/-- The Bodkin can take a command: nothing runs on it, and the module is powered and not in reset. -/
def State.bodkinFree (s : State) : Prop := s.bodkin.op = none ∧ s.pins.mreset = false ∧ s.pins.allGood = true

/-- A command has started on the Bodkin with this outcome and duration, and changed nothing else. -/
def Started (s : State) (o : Out) (result : List Nat) (st : BodkinStatus) (cycles : Nat) (loads : Option (Nat × Curve)) : Prop :=
  ∃ m l, o = .next { s with bodkin := { s.bodkin with
    mem := m, op := some { limbs := l, result := result, status := st, cycles := cycles, since := s.clock, loads := loads } } }

/-- The job `j` of `s` ends in `v` with one completion record (R396, R401): written at once where its ring can, and the job is
gone; else, and for a job cancelled (log 23), the last record its ring holds. -/
def JobEnds (s v : State) (j : Job) (e : Ending) : Prop :=
  (s.canComplete j.ring = true → (s.ring j.ring).held = [] → e.status ≠ 0x12 → v.job j.ring = none ∧ (v.ring j.ring).held = [] ∧
    (v.ring j.ring).cqTail = ((s.ring j.ring).cqTail + 1) % 2 ^ (s.ring j.ring).cqSizeLog) ∧
  (s.canComplete j.ring = false ∨ (s.ring j.ring).held ≠ [] ∨ e.status = 0x12 → ∃ c, (v.ring j.ring).held = (s.ring j.ring).held ++ [c] ∧
    c.tag = j.tag ∧ c.status = e.status ∧ c.tile = e.tile ∧ c.code = e.code ∧ c.seq = e.seq ∧ c.endsJob = true)

end Sys2Proof.Machine
end

