-- ==== Sys2Proof/Certificates/Slice0/Obligations.lean ====
section
/-!
DEFINITION. The statements about the model that the provers prove; OBLIGATIONS.json lists them with their sources.
-/
open Sys2Proof Sys2Proof.Machine

/-- A step takes the command at the front of the queue and runs it on the state with the queue's rest. A step with nothing waiting
lets one period of REFCLK pass and changes nothing else (log 1, the model's choice). -/
def Obligations.StepRunsFront : Prop :=
  (∀ (c : Instr) (rest : List Instr) (s : State),
     step { s with pending := c :: rest } = exec c { s with pending := rest }) ∧
  (∀ s : State, s.pending = [] → step s = .next { s with clock := s.clock + 10 })

/-- No command touches the waiting queue or the boot flash, and none moves time back. -/
def Obligations.CommandsKeepQueueFlashTime : Prop :=
  ∀ (c : Instr) (s t : State), exec c s = .next t → t.pending = s.pending ∧ t.flash = s.flash ∧ s.clock ≤ t.clock

/-- Every step keeps memory in its canonical form. -/
def Obligations.StepKeepsMemory : Prop :=
  ∀ s t : State, s.memoryOk = true → step s = .next t → t.memoryOk = true

/-- Every step keeps each write-combining buffer as R322 describes it: at most 256 entries, each one aligned line of the stack with
an incomplete byte mask, and no line twice. Every step keeps at most one admitted job on each ring (R406). Every step keeps the
error queue within its 64 entries (R523, R528). -/
def Obligations.StepKeepsQueuesAndBuffers : Prop :=
  (∀ s t : State, s.wcbOk = true → step s = .next t → t.wcbOk = true) ∧
  (∀ s t : State, s.jobsOk = true → step s = .next t → t.jobsOk = true) ∧
  (∀ s t : State, s.errorsOk = true → step s = .next t → t.errorsOk = true)

/-- The state after reset meets every invariant that the steps keep; nothing waits and nothing is admitted. Memory with nothing
listed is the model's choice, log 7. -/
def Obligations.ResetHoldsInvariants : Prop :=
  State.reset.memoryOk = true ∧ State.reset.wcbOk = true ∧ State.reset.jobsOk = true ∧ State.reset.errorsOk = true ∧
  State.reset.errs.fatal = false ∧ State.reset.pending = [] ∧ State.reset.jobs = []

/-- A module that is FATAL stays FATAL through every command but the assertion of MRESET_N and the loss of a rail. -/
def Obligations.FatalLeftOnlyByReset : Prop :=
  ∀ (c : Instr) (s t : State), s.errs.fatal = true → exec c s = .next t → t.errs.fatal = false →
    c = .mresetAssert ∨ ∃ rail, c = .railLost rail

/-- Fused SVNs and key-slot revocations change only through SVN_COMMIT, or the write of MBX_CTRL with GO that starts it, and none
returns to an earlier value. SVN_COMMIT raises each fused SVN to that of the running image and revokes every key slot below the
trusted image's. A write of MBX_CTRL with GO is the command that its CMD names; whether a fuse blows is then a free value, log 5's
choice. -/
def Obligations.FusesOnlyGoUp : Prop :=
  (∀ (c : Instr) (s t : State), exec c s = .next t →
     s.trust.svnTrusted ≤ t.trust.svnTrusted ∧ s.trust.svnService ≤ t.trust.svnService ∧
     (∀ k, s.trust.revoked.getLsbD k = true → t.trust.revoked.getLsbD k = true) ∧
     ((∀ q b, c ≠ .svnCommit q b) →
       (∀ v, c = .regWrite .mainband 0x060000 4 v → ¬ (bit v.toNat 8 = true ∧ v.toNat % 256 = 4)) →
       t.trust.svnTrusted = s.trust.svnTrusted ∧ t.trust.svnService = s.trust.svnService ∧
       t.trust.revoked = s.trust.revoked)) ∧
  (∀ (s : State) (a b : Image), s.mbxServes = true → s.errs.fatal = false → s.mbx.busy = false → s.mbx.len = 0 →
     s.trust.trusted = some a → s.trust.service = some b → s.jobs = [] → ∃ t, exec (.svnCommit .mainband true) s = .next t ∧
       t.trust.svnTrusted = max s.trust.svnTrusted a.svn ∧ t.trust.svnService = max s.trust.svnService b.svn ∧
       t.trust.revoked = s.trust.revoked ||| BitVec.ofNat 4 (2 ^ a.keyIndex - 1)) ∧
  (∀ (s : State) (v : DWord), s.serves .mainband = true → bit v.toNat 8 = true →
     (v.toNat % 256 = 4 → exec (.regWrite .mainband 0x060000 4 v) s =
       exec (.svnCommit .mainband ((Config.freeWord s.freeCount).toNat % 2 == 1)) { s with freeCount := s.freeCount + 1 }) ∧
     (∀ p ∈ [(1, Instr.ownerChange .mainband), (2, .debugNonce .mainband), (3, .debugUnlock .mainband), (5, .identity .mainband)],
       v.toNat % 256 = p.1 → exec (.regWrite .mainband 0x060000 4 v) s = exec p.2 s) ∧
     (mailboxLen (v.toNat % 256) = none → exec (.regWrite .mainband 0x060000 4 v) s = exec (.mailboxBadCmd .mainband (v.toNat % 256)) s))

/-- A command that goes on changes no part of the state outside its footprint. -/
def Obligations.CommandsKeepTheirFrame : Prop :=
  ∀ (c : Instr) (s t : State), exec c s = .next t → ∀ p, p ∉ footprint c → p.same s t

/-- The commands that name a device address a bus agent chose: the only ones that can stop the model. The stop is the fault of log
32. -/
def Obligations.OnlyUnmappedStops : Prop :=
  ∀ (c : Instr) (s : State), (∃ t, exec c s = .next t) ∨
    (∃ a, exec c s = .fault (.unmapped a) ∧
      ((∃ e, c = .memReadRequest a e ∧ home a = .unmapped) ∨ (∃ m d, c = .memWriteRequest a m d ∧ home a = .unmapped) ∨
       (∃ r tg off n, c = .remoteRead r tg off n ∧ (208 ≤ tg ∨ 0x600000 < off + n)) ∨
       (∃ w tg off d, c = .remoteWrite w tg off d ∧ (208 ≤ tg ∨ 0x600000 < off + d.length))))

/-- The address map of HBM is one to one. -/
def Obligations.AddressMapRoundTrip : Prop :=
  (∀ k sa : Nat, k < 12 → sa < 2 ^ 36 → home (stackToDevice k sa) = .hbm k sa) ∧
  (∀ a k sa : Nat, home a = .hbm k sa → k < 12 ∧ sa < 2 ^ 36 ∧ stackToDevice k sa = a)

/-- The two words of a 64-bit register: a read of the low word answers it and latches the high word, and a read of the high word
that follows answers the latched value, whatever happened to the register in between the two words. A 64-bit register is written
in two words: the low word alone changes no register, and the write of the high word commits both together. Where a register may not
be written, the low word is held all the same and the high word's write is judged, by the model's choice, log 12; but either
word of a check-value unit's register is discarded while a job is admitted, with an event that names the word's address. -/
def Obligations.WideRegisters : Prop :=
  (∀ (q : Requester) (a : Nat) (s : State), q ≠ .sideband → wideReg a = true → s.servesRead q a = true →
     s.windowOpen q a = true → s.windowOpen q (a + 4) = true →
     exec (.reg64LowRead q ⟨a, 4⟩) s = .next { s.unlatch.count .bar0Reads 0 1 with
       resp := .word (BitVec.ofNat 32 (s.read64 q a % 2 ^ 32)),
       readLatch := some (a + 4, BitVec.ofNat 32 (s.read64 q a / 2 ^ 32)) } ∧
     ∀ t : State, t.readLatch = some (a + 4, BitVec.ofNat 32 (s.read64 q a / 2 ^ 32)) → t.servesRead q (a + 4) = true →
       t.windowOpen q (a + 4) = true →
       exec (.reg64LowRead q ⟨a + 4, 4⟩) t = .next { t.unlatch.count .bar0Reads 0 1 with
         resp := .word (BitVec.ofNat 32 (s.read64 q a / 2 ^ 32)) }) ∧
  (∀ (q : Requester) (a : Nat) (lo hi : DWord) (s : State), q ≠ .sideband → wideReg a = true → s.reaches q a = true →
     s.reaches q (a + 4) = true → (inCvu a = false ∨ s.jobs = []) →
     exec (.regWrite q a 4 lo) s = .next (s.unlatch.holdLow a (lo.toNat % 2 ^ 32)) ∧
     exec (.regWrite q (a + 4) 4 hi) (s.unlatch.holdLow a (lo.toNat % 2 ^ 32)) =
       .next ({ s.unlatch with lowHeld := s.lowHeld.filter (fun p => p.1 != a) }.write64 q a
         (lo.toNat % 2 ^ 32 + 2 ^ 32 * (hi.toNat % 2 ^ 32)))) ∧
  (∀ (q : Requester) (a : Nat) (v : DWord) (s : State), q ≠ .sideband → wideReg a = true → inCvu a = true → s.jobs ≠ [] →
     s.reaches q a = true → ∃ t, exec (.regWrite q a 4 v) s = .next t ∧ t.cvus = s.cvus ∧ t.lowHeld = s.lowHeld ∧
       Recorded s t (Err.plain .deferred 0x03 6 (requesterNum q) a (v.toNat % 2 ^ 32)))

/-- What writes of the plain registers leave: each holds the field it is written, and nothing else changes but the latch of R9. Each
requester has its own copy of a select register: a write of TILE_SEL, QUEUE_SEL, RING_SEL, STACK_SEL or DIE_SEL changes the
writer's copy of that register and no other copy. AGE 0 counts as 1 by the model's choice, log 17. -/
def Obligations.RegisterWritesAndSelects : Prop :=
  (∀ (q : Requester) (v : DWord) (s : State), q ≠ .sideband →
     (s.reaches q 0x010300 = true → exec (.regWrite q 0x010300 4 v) s = .next { s.unlatch with wdog := v.toNat % 2 ^ 20 }) ∧
     (s.reaches q 0x010420 = true →
       exec (.regWrite q 0x010420 4 v) s = .next { s.unlatch with cancelTag := BitVec.ofNat 32 v.toNat }) ∧
     (s.reaches q 0x010430 = true →
       exec (.regWrite q 0x010430 4 v) s = .next { s.unlatch with jobAge := max 1 (v.toNat % 65536) }) ∧
     (s.reaches q 0x100000 = true → exec (.regWrite q 0x100000 4 v) s =
       .next { s.unlatch with errs := { s.errs with lost := s.errs.lost && !bit v.toNat 1 } }) ∧
     (s.reaches q 0x180000 = true → exec (.regWrite q 0x180000 4 v) s = .next { s.unlatch with
       telemSel := { group := bits v.toNat 3 0, index := bits v.toNat 9 4, scope := bits v.toNat 11 10 } }) ∧
     (s.reaches q 0x050010 = true → (s.selects q).die < 4 →
       exec (.regWrite q 0x050010 4 v) s =
         .next (s.unlatch.mapDie (s.selects q).die (fun d => { d with target := v.toNat % 8 }))) ∧
     (s.reaches q 0x04002C = true → (s.selects q).stack < 12 →
       exec (.regWrite q 0x04002C 4 v) s =
         .next (s.unlatch.mapStack (s.selects q).stack (fun u => { u with strmCount := v.toNat % 2 ^ 31 })))) ∧
  (∀ (q : Requester) (v : DWord) (s : State), q ≠ .sideband →
     ∀ p ∈ [(0x030000, fun (x : Selects) => { x with tile := v.toNat % 256 }),
            (0x030004, fun (x : Selects) => { x with queue := v.toNat % 8 }),
            (0x020000, fun (x : Selects) => { x with ring := v.toNat % 32 }),
            (0x040000, fun (x : Selects) => { x with stack := v.toNat % 16 }),
            (0x050000, fun (x : Selects) => { x with die := v.toNat % 8 })],
       s.reaches q p.1 = true → ∃ t, exec (.regWrite q p.1 4 v) s = .next t ∧ t.selects q = p.2 (s.selects q) ∧
         ∀ q', q' ≠ q → t.selects q' = s.selects q')

/-- A register write of another size or alignment than a word's is discarded: an event names its address, and no register changes. A
read of another size or alignment answers zeros and changes nothing but the latch of R9. Every address of BAR0's 2 MiB that no
register table assigns reads 0, and a write to it is discarded with an event that names it. For the service cluster the size
counts before its windows by the model's choice, log 62. -/
def Obligations.OddAndUnassignedAccesses : Prop :=
  (∀ (q : Requester) (r : RegRead) (s : State), s.servesRead q r.addr = true → r.size ≠ 4 ∨ r.addr % 4 ≠ 0 →
     exec (.reg64LowRead q r) s = .next { s with readLatch := none, resp := .data (List.replicate r.size 0) false }) ∧
  (∀ (q : Requester) (a size : Nat) (v : DWord) (s : State), s.serves q = true → size ≠ 4 ∨ a % 4 ≠ 0 →
     ∃ t, exec (.regWrite q a size v) s = .next t ∧
       Recorded s t (Err.plain .deferred 0x03 6 (requesterNum q) a (v.toNat % 2 ^ 32)) ∧
       ∀ p, p ∉ Part.raised ++ [.readLatch] → p.same s t) ∧
  (∀ (q : Requester) (a : Nat) (v : DWord) (s : State), q ≠ .sideband → s.reaches q a = true →
     a < 2 ^ 21 → a % 4 = 0 → bar0Assigned a = false →
     (∃ t, exec (.reg64LowRead q ⟨a, 4⟩) s = .next t ∧ t.resp = .word 0 ∧
       ∀ p, p ∉ [Part.resp, .readLatch, .tele] → p.same s t) ∧
     (∃ t, exec (.regWrite q a 4 v) s = .next t ∧
       Recorded s t (Err.plain .deferred 0x03 6 (requesterNum q) a (v.toNat % 2 ^ 32)) ∧
       ∀ p, p ∉ Part.raised ++ [.readLatch] → p.same s t))

/-- MODE takes every word whose fields hold assigned encodings, and keeps exactly those fields; a word with an unassigned encoding
is discarded with an event that names MODE's address, and MODE keeps its value. TELEM_CTRL.CLEAR sets the counter that TELEM_SEL
names to 0 at the selected scope, every instance of it with SCOPE 0, and changes no other counter and nothing else but the latch
of R9. -/
def Obligations.ModeWriteAndTelemClear : Prop :=
  (∀ (q : Requester) (v : Word) (s : State), s.reaches q 0x010000 = true →
     (bits v.toNat 1 0 ≠ 3 → bits v.toNat 13 12 ≠ 3 → bits v.toNat 21 20 ≠ 3 →
       ∃ m : Mode, m.word = bits v.toNat 1 0 + 16 * bits v.toNat 4 4 + 256 * bits v.toNat 10 8 + 4096 * bits v.toNat 13 12 +
           65536 * bits v.toNat 16 16 + 2 ^ 20 * bits v.toNat 21 20 ∧
         exec (.modeWrite q v) s = .next { s.unlatch with mode := m }) ∧
     (bits v.toNat 1 0 = 3 ∨ bits v.toNat 13 12 = 3 ∨ bits v.toNat 21 20 = 3 →
       ∃ t, exec (.modeWrite q v) s = .next t ∧ t.mode = s.mode ∧
         Recorded s t (Err.plain .deferred 0x03 6 (requesterNum q) 0x010000 v.toNat))) ∧
  (∀ (q : Requester) (s : State), s.reaches q 0x180010 = true →
     ∃ m, exec (.telemClear q) s = .next { s.unlatch with tele := m } ∧
       { s with tele := m }.telemValue (s.selects q) = 0 ∧
       (∀ c i, (∀ w sc, Ctr.named s.telemSel.group s.telemSel.index ≠ some (c, w, sc)) →
         Telemetry.get m c i = Telemetry.get s.tele c i) ∧
       (∀ c w sc, Ctr.named s.telemSel.group s.telemSel.index = some (c, w, sc) → s.telemSel.scope ≠ 0 →
         ∀ i, (s.selects q).telem sc ≠ some i → Telemetry.get m c i = Telemetry.get s.tele c i))

/-- A load or unload starts when its loader is free: BUSY rises, and the operation keeps the address and the index as they stand at
the write. A write to PSET_CTRL or PRK_CTRL that sets LOAD and UNLOAD, or that sets either while the loader is busy, is
discarded: an event names the register, and no register of a loader changes. -/
def Obligations.LoadersStartOrDiscard : Prop :=
  (∀ (q : Requester) (k : Nat) (s : State),
     (s.reaches q 0x010108 = true → s.psetLoader.op = none → k < 64 →
       exec (.psetLoad q k) s = .next { s.unlatch with psetLoader :=
         { s.psetLoader with index := k, op := some { load := true, index := k, addr := s.psetLoader.addr.toNat } } } ∧
       exec (.psetUnload q k) s = .next { s.unlatch with psetLoader :=
         { s.psetLoader with index := k, op := some { load := false, index := k, addr := s.psetLoader.addr.toNat } } }) ∧
     (s.reaches q 0x010208 = true → s.prkLoader.op = none → k < 16 →
       exec (.prkLoad q k) s = .next { s.unlatch with prkLoader :=
         { s.prkLoader with index := k, op := some { load := true, index := k, addr := s.prkLoader.addr.toNat } } } ∧
       exec (.prkUnload q k) s = .next { s.unlatch with prkLoader :=
         { s.prkLoader with index := k, op := some { load := false, index := k, addr := s.prkLoader.addr.toNat } } })) ∧
  (∀ (q : Requester) (k : Nat) (v : DWord) (s : State), q ≠ .sideband → s.reaches q 0x010108 = true →
     s.reaches q 0x010208 = true →
     (bit v.toNat 8 = true ∧ bit v.toNat 9 = true ∨ s.psetLoader.op.isSome = true ∧ (bit v.toNat 8 = true ∨ bit v.toNat 9 = true) →
       ∃ t, exec (.regWrite q 0x010108 4 v) s = .next t ∧ t.psetLoader = s.psetLoader ∧ t.psets = s.psets ∧
         Recorded s t (Err.plain .deferred 0x03 6 (requesterNum q) 0x010108 (v.toNat % 2 ^ 32))) ∧
     (bit v.toNat 8 = true ∧ bit v.toNat 9 = true ∨ s.prkLoader.op.isSome = true ∧ (bit v.toNat 8 = true ∨ bit v.toNat 9 = true) →
       ∃ t, exec (.regWrite q 0x010208 4 v) s = .next t ∧ t.prkLoader = s.prkLoader ∧ t.prks = s.prks ∧
         Recorded s t (Err.plain .deferred 0x03 6 (requesterNum q) 0x010208 (v.toNat % 2 ^ 32))) ∧
     (s.psetLoader.op.isSome = true → ∀ p ∈ [(Instr.psetLoad q k, 0x100), (.psetUnload q k, 0x200)],
       ∃ t, exec p.1 s = .next t ∧ t.psetLoader = s.psetLoader ∧ t.psets = s.psets ∧
         Recorded s t (Err.plain .deferred 0x03 6 (requesterNum q) 0x010108 (k % 64 + p.2))) ∧
     (s.prkLoader.op.isSome = true → ∀ p ∈ [(Instr.prkLoad q k, 0x100), (.prkUnload q k, 0x200)],
       ∃ t, exec p.1 s = .next t ∧ t.prkLoader = s.prkLoader ∧ t.prks = s.prks ∧
         Recorded s t (Err.plain .deferred 0x03 6 (requesterNum q) 0x010208 (k % 16 + p.2))))

/-- What a parameter-set load or unload leaves when it completes: an index that an admitted job holds keeps its set (code 0x10); a
load into a valid index keeps it too (0x11); a load into an invalid index makes it valid exactly when the block passes every
check (code 0); an unload makes a valid index invalid. No other index changes, and BUSY falls. The same of a pricking: it
becomes valid only through a load into an invalid index that passes every check, an index whose pricking an admitted job runs is
kept (0x10), and no other index changes. Reading and checking at the completion is the model's choice, log 15; PRK_DETAIL and the
order of an image's checks are the model's choice, log 16. -/
def Obligations.LoadsComplete : Prop :=
  (∀ (s : State) (o : LoadOp), s.psetLoader.op = some o → o.index < 64 →
     ∃ t code, exec .psetLoadComplete s = .next t ∧
       t.psetLoader = { s.psetLoader with op := none, code := code, lastIndex := o.index, detail := 0 } ∧
       (∀ k, k ≠ o.index → t.pset k = s.pset k) ∧
       (s.psetHeld o.index = true → code = 0x10 ∧ t.pset o.index = s.pset o.index) ∧
       (s.psetHeld o.index = false →
         (o.load = true → (s.pset o.index).isSome = true → code = 0x11 ∧ t.pset o.index = s.pset o.index) ∧
         (o.load = true → s.pset o.index = none → code = blockCode (s.readZeroed o.addr 2048) ∧
           ((t.pset o.index).isSome = true ↔ code = 0)) ∧
         (o.load = false → (s.pset o.index).isSome = true → code = 0 ∧ t.pset o.index = none))) ∧
  (∀ (s : State) (o : LoadOp), s.prkLoader.op = some o → o.index < 16 →
     ∃ t code detail, exec .prkLoadComplete s = .next t ∧
       t.prkLoader = { s.prkLoader with op := none, code := code, lastIndex := o.index, detail := detail } ∧
       (∀ k, k ≠ o.index → t.pricking k = s.pricking k) ∧
       ((∃ j ∈ s.jobs, j.prk = o.index) → code = 0x10 ∧ t.pricking o.index = s.pricking o.index) ∧
       ((∀ j ∈ s.jobs, j.prk ≠ o.index) →
         (o.load = true → (s.pricking o.index).isSome = true → code = 0x11 ∧ t.pricking o.index = s.pricking o.index) ∧
         (o.load = true → s.pricking o.index = none →
           (code, detail) = s.imageCode (PrkInfo.parse o.addr (s.readZeroed o.addr 256)) (s.readZeroed o.addr 256) ∧
           ((t.pricking o.index).isSome = true ↔ code = 0)) ∧
         (o.load = false → (s.pricking o.index).isSome = true → code = 0 ∧ t.pricking o.index = none)))

/-- A write request of a line completes, and a reader then gets the bytes its mask names; every other address reads as before,
wherever its line was not poisoned. A full-line write clears the poison of its line. What a read of a line answers: its bytes,
with resident entries laid over them, when it is sound; zeros with the poison mark when it is poisoned, and from the third
uncorrectable read on, which poisons it. One or two uncorrectable reads leave a CONTAINED event and the right bytes. A read
of a scratchpad answers its bytes, or zeros with the poison mark where a granule it touches is marked. An address with no home
stops the model (log 32, the model's choice). -/
def Obligations.MemoryWritesAndReads : Prop :=
  (∀ (a : Nat) (mask : DWord) (data : List Byte) (s : State), s.wcbOk = true → s.memoryOk = true → s.pins.allGood = true →
     home a ≠ .unmapped →
     ∃ t, exec (.memWriteRequest a mask data) s = .next t ∧
       (∀ b, mask.toNat = fullMask ∨ s.poisoned b = false → t.readByte b =
         if lineOf b = lineOf a ∧ bit mask.toNat (b % 64) = true then (slice data 0 64).getD (b % 64) 0 else s.readByte b) ∧
       (∀ b, s.poisoned b = false → t.poisoned b = false) ∧
       (mask.toNat = fullMask → poisonable a = true → t.poisoned a = false)) ∧
  (∀ (a : Nat) (s : State), s.pins.allGood = true → home a = .unmapped →
     (∀ e, exec (.memReadRequest a e) s = .fault (.unmapped a)) ∧
     ∀ mask data, exec (.memWriteRequest a mask data) s = .fault (.unmapped a)) ∧
  (∀ (a x off : Nat) (s : State), s.pins.allGood = true → home a = .scratch x off →
     (s.remoteBad x (off / 64 * 64) 64 = false →
       exec (.memReadRequest a .clean) s = .next { s with resp := .data (s.readRaw (scratchAddr x (off / 64 * 64)) 64) false }) ∧
     ((s.tile x).marks.contains (off / 4096) = true → ∀ e, ∃ t, exec (.memReadRequest a e) s = .next t ∧
       t.resp = .data (List.replicate 64 0) true ∧ t.mem = s.mem)) ∧
  (∀ (a : Nat) (s : State), s.pins.allGood = true → poisonable a = true →
     (s.poisoned a = false →
       exec (.memReadRequest a .clean) s = .next { s with resp := .data (s.readRaw (lineOf a) 64) false } ∧
       (∀ n, n = 1 ∨ n = 2 → ∃ t, exec (.memReadRequest a (.uncorrectable n)) s = .next t ∧
         t.resp = .data (s.readRaw (lineOf a) 64) false ∧ t.mem = s.mem ∧ t.linePoison = s.linePoison ∧
         Recorded s t (Err.plain .contained 0x20 (controllerOf a).1 (controllerOf a).2 (lineOf a) (n + 1))) ∧
       (∀ n, 3 ≤ n → ∃ t, exec (.memReadRequest a (.uncorrectable n)) s = .next t ∧
         t.resp = .data (List.replicate 64 0) true ∧ t.poisoned a = true ∧ t.mem = s.mem ∧ t.hbm = s.hbm)) ∧
     (s.poisoned a = true → ∀ e, exec (.memReadRequest a e) s =
       .next { s with resp := .data (List.replicate 64 0) true }))

/-- The oldest poison request is accepted: every line it covers is poisoned and its resident entry discarded; no other line's poison
changes, and the request leaves its queue. After 4 µs the oldest entry of a write-combining buffer is written back: it leaves
the buffer, the others stay, and no reader sees a difference where the line was not poisoned; a line whose third read there is
uncorrectable becomes poisoned, and its entry is lost. A patrol scrub reads the line at the scrub position and moves on,
wrapping at the end of the stack or of the near tier; a line whose third read is uncorrectable becomes poisoned. While the
service pool is spent a scrub read waits (when it is spent is log 55's choice). -/
def Obligations.LinesArePoisonedAndWrittenBack : Prop :=
  (∀ (s : State) (r : PoisonRequest) (rest : List PoisonRequest), s.pins.allGood = true → s.poisonRequests = r :: rest →
     ∃ t, exec .memPoisonRequest s = .next t ∧ t.poisonRequests = rest ∧ t.mem = s.mem ∧
       (∀ l, t.linePoison.contains l = (s.linePoison.contains l || r.lines.contains l)) ∧
       (∀ k l, k < 12 → stackOf l = some k → l ∈ r.lines → (t.stack k).entryOf l = none)) ∧
  (∀ (k : Nat) (e : WcbEntry) (rest : List WcbEntry) (s : State), s.wcbOk = true → s.memoryOk = true →
     s.pins.allGood = true → (s.stack k).wcb = e :: rest →
     (∃ t, exec (.wcbResidencyTimeout ⟨k, .clean⟩) s = .next t ∧ (t.stack k).wcb = rest ∧ e.since + 4000 ≤ t.clock ∧
       (∀ b, s.poisoned b = false → t.poisoned b = false ∧ t.readByte b = s.readByte b)) ∧
     (∀ n, 3 ≤ n → ∃ t, exec (.wcbResidencyTimeout ⟨k, .uncorrectable n⟩) s = .next t ∧ (t.stack k).wcb = rest ∧
       t.linePoison.contains e.line = true ∧ t.mem = s.mem)) ∧
  ((∀ (k : Nat) (s : State), s.pins.allGood = true → s.poolOpen = true → k < 12 → (s.stack k).scrubEnable = true →
     (s.stack k).scrubNext + 1 < 2 ^ 30 →
     ∃ t, exec (.patrolScrub (.stack k) .clean) s = .next t ∧
       t.stack k = { s.stack k with scrubNext := (s.stack k).scrubNext + 1 } ∧ t.mem = s.mem ∧ t.linePoison = s.linePoison ∧ t.tele = s.tele) ∧
   (∀ (u : ScrubUnit) (e : ReadError) (s : State), s.poolOpen = false → exec (.patrolScrub u e) s = .next s) ∧
   (∀ (k n : Nat) (s : State), s.pins.allGood = true → s.poolOpen = true → k < 12 → (s.stack k).scrubEnable = true → 3 ≤ n →
     ∃ t, exec (.patrolScrub (.stack k) (.uncorrectable n)) s = .next t ∧
       t.linePoison.contains (stackToDevice k (64 * (s.stack k).scrubNext)) = true ∧ t.mem = s.mem) ∧
   (∀ (k : Nat) (s : State), s.pins.allGood = true → s.poolOpen = true → k < 12 → (s.stack k).scrubEnable = true →
     (s.stack k).scrubNext + 1 = 2 ^ 30 →
     ∃ t, exec (.patrolScrub (.stack k) .clean) s = .next t ∧ (t.stack k).scrubNext = 0) ∧
   (∀ (d : Nat) (s : State), s.pins.allGood = true → s.poolOpen = true → d < 4 →
     (∃ t, exec (.patrolScrub (.near d) .clean) s = .next t ∧ t.mem = s.mem ∧ t.linePoison = s.linePoison ∧
       Tab.at t.nearScrub 0 d = if 2 ^ 28 ≤ Tab.at s.nearScrub 0 d + 1 then 0 else Tab.at s.nearScrub 0 d + 1) ∧
     (∀ n, 3 ≤ n → ∃ t, exec (.patrolScrub (.near d) (.uncorrectable n)) s = .next t ∧
       t.linePoison.contains (0x10000000000 + 0x40000000 * d + lineOf (4 * Tab.at s.nearScrub 0 d)) = true ∧ t.mem = s.mem)))

/-- FILL writes the pattern of each line of the descriptor as a full line and clears its poison; every other address reads as
before, wherever its line was not poisoned. The descriptor's lines are START + i·STRIDE, and it is refused where one would lie
outside the stack. The lines are written at GO by the model's choice, log 33. -/
def Obligations.StreamerFills : Prop :=
  ∀ (q : Requester) (p k : Nat) (s : State), s.reaches q 0x040030 = true → s.jobs = [] → (s.selects q).stack = k → k < 12 →
    s.wcbOk = true → s.memoryOk = true →
    strmInside (s.stack k).strmStart (signed 32 (s.stack k).strmStride.toNat) (s.stack k).strmCount = true →
    ∃ t, exec (.strmFill q p) s = .next t ∧ (t.stack k).strmRefused = false ∧ (t.stack k).strmRun.isSome = true ∧
      (∀ i, i < (s.stack k).strmCount → ∃ l : Nat,
        (l : Int) = strmLine (s.stack k).strmStart (signed 32 (s.stack k).strmStride.toNat) i ∧ l < 2 ^ 30 ∧
        ∀ b, b < 64 → t.poisoned (stackToDevice k (64 * l) + b) = false ∧
          t.readByte (stackToDevice k (64 * l) + b) = (patternLine p (s.stack k).strmValue.toNat l).getD b 0) ∧
      (∀ a, (∀ i, i < (s.stack k).strmCount → lineOf a ≠
          strmAddr k (strmLine (s.stack k).strmStart (signed 32 (s.stack k).strmStride.toNat) i)) →
        s.poisoned a = false → t.poisoned a = false ∧ t.readByte a = s.readByte a)

/-- The other operations of a streamer: READ_CHECK and COMPARE start and change no memory, COMPARE with the number of lines that
differ from the pattern; READ, and a descriptor outside the stack, are REFUSED with no access; and while a job is admitted GO is
discarded with an event. A descriptor that ends clears BUSY; COMPARE leaves its count in STRM_STATUS; reads that met no error
change nothing else, and a third uncorrectable read of a line that the descriptor addresses poisons it. The count is taken at GO
by the model's choice, log 33; the end waits while a rail is down or the service pool is spent (log 29, log 55). -/
def Obligations.StreamerStartsAndEnds : Prop :=
  (∀ (q : Requester) (p k : Nat) (s : State), s.reaches q 0x040030 = true → (s.selects q).stack = k → k < 12 →
     let u := s.stack k
     let stride := signed 32 u.strmStride.toNat
     let run (op : StrmOp) (n : Nat) : StrmRun :=
       { op := op, start := u.strmStart, stride := stride, count := u.strmCount, differing := n }
     (s.jobs = [] → strmInside u.strmStart stride u.strmCount = true →
       (∃ t, exec (.strmReadCheck q p) s = .next t ∧ t.mem = s.mem ∧ t.linePoison = s.linePoison ∧
         t.stack k = { u with
           strmOp := .readCheck, strmPattern := p, strmRefused := false, strmRun := some (run .readCheck 0) }) ∧
       (∃ t, exec (.strmCompare q p) s = .next t ∧ t.mem = s.mem ∧ t.linePoison = s.linePoison ∧
         t.stack k = { u with
           strmOp := .compare, strmPattern := p, strmRefused := false,
           strmRun := some (run .compare (((List.range u.strmCount).map (strmLine u.strmStart stride)).filter (fun l =>
             s.readZeroed (strmAddr k l) 64 != patternLine p u.strmValue.toNat l.toNat)).length) })) ∧
     (s.jobs = [] → ∃ t, exec (.strmRead q p) s = .next t ∧ t.mem = s.mem ∧ t.linePoison = s.linePoison ∧
       t.stack k = { u with strmOp := .read, strmPattern := p, strmRefused := true }) ∧
     (s.jobs = [] → strmInside u.strmStart stride u.strmCount = false →
       ∀ c ∈ [Instr.strmReadCheck q p, .strmFill q p, .strmCompare q p, .strmRead q p],
         ∃ t, exec c s = .next t ∧ t.mem = s.mem ∧ t.linePoison = s.linePoison ∧ (t.stack k).strmRefused = true ∧
           (t.stack k).strmRun = u.strmRun) ∧
     (s.jobs ≠ [] → ∀ x ∈ [(Instr.strmReadCheck q p, 0x100), (.strmFill q p, 0x101), (.strmCompare q p, 0x102), (.strmRead q p, 0x103)],
       ∃ t, exec x.1 s = .next t ∧ t.mem = s.mem ∧ t.linePoison = s.linePoison ∧
         Recorded s t (Err.plain .deferred 0x03 6 (requesterNum q) 0x040030 ((x.2 + 4 * p) % 2 ^ 32)))) ∧
  (∀ (k : Nat) (l : List (Nat × ReadError)) (s : State), s.pins.allGood = false ∨ s.poolOpen = false →
     exec (.streamerDone k l) s = .next s) ∧
  (∀ (k : Nat) (r : StrmRun) (s : State), s.pins.allGood = true → s.poolOpen = true → k < 12 → (s.stack k).strmRun = some r →
     exec (.streamerDone k []) s = .next (s.mapStack k (fun u =>
       { u with strmRun := none, strmMismatch := if r.op = .compare then sat 24 r.differing else u.strmMismatch })) ∧
     (∀ l n, r.op ≠ .fill → r.addresses l = true → 3 ≤ n →
       ∃ t, exec (.streamerDone k [(l, .uncorrectable n)]) s = .next t ∧
         t.linePoison.contains (stackToDevice k (64 * l)) = true ∧ t.mem = s.mem ∧ (t.stack k).strmRun = none))

/-- The host reads and writes memory through its window: what it writes stands at its address in HBM, and every other address reads
as before; a read answers the bytes there, and one within a poisoned line zeros with the poison mark and an event that names the
line. The link: a retraining starts at the
commanded rate while no job is admitted, and ends with the modules that trained, with no event at full width and with one LINK
entry otherwise; an up link recalibrates and comes back up. The window over HBM moves only to a block that lies in HBM, while
the decoder is not committed and no job is admitted; otherwise the write is discarded with an event. A configuration request is
answered with retry status until the module is ready. RATE 3, the commitment as an operand of the request and the two rows of a
recalibration are the model's choice, log 68; SEQ of an event that is lost is log 25's. An access waits while the service pool is
spent, and an unpowered module answers nothing. -/
def Obligations.LinkAndHostWindow : Prop :=
  (∀ (off len : Nat) (data : List Byte) (s : State), s.pins.allGood = false ∨ s.poolOpen = false →
     exec (.hostMemWrite off data) s = .next s ∧ exec (.hostMemRead off len) s = .next s) ∧
  (∀ (off : Nat) (data : List Byte) (s : State), s.link.memPresent = true → s.boot.stopped = false → s.pins.mreset = false →
     s.pins.allGood = true → s.poolOpen = true → s.errs.fatal = false → s.trust.changing = none → s.wcbOk = true → s.memoryOk = true →
     off + data.length ≤ 2 ^ 36 → s.link.hdmBase * 2 ^ 36 + 2 ^ 36 ≤ 0xC000000000 →
     (∃ t, exec (.hostMemWrite off data) s = .next t ∧ t.link = s.link ∧
       ∀ b, s.poisoned b = false → t.poisoned b = false ∧ t.readByte b =
         if s.link.hdmBase * 2 ^ 36 + off ≤ b ∧ b < s.link.hdmBase * 2 ^ 36 + off + data.length
         then data.getD (b - (s.link.hdmBase * 2 ^ 36 + off)) 0 else s.readByte b) ∧
     (∀ len, off + len ≤ 2 ^ 36 →
       (∀ l ∈ linesOf (s.link.hdmBase * 2 ^ 36 + off) len, s.linePoison.contains l = false) →
       ∃ t, exec (.hostMemRead off len) s = .next t ∧
         t.resp = .data (s.readZeroed (s.link.hdmBase * 2 ^ 36 + off) len) false ∧ t.mem = s.mem ∧ t.linePoison = s.linePoison ∧
         t.errs = s.errs) ∧
     (∀ len l, off + len ≤ 2 ^ 36 → linesOf (s.link.hdmBase * 2 ^ 36 + off) len = [l] → s.linePoison.contains l = true →
       ∃ t, exec (.hostMemRead off len) s = .next t ∧ t.resp = .data (List.replicate len 0) true ∧ t.mem = s.mem ∧
         Recorded s t (Err.plain .deferred 0x0E (controllerOf l).1 (controllerOf l).2 l 0))) ∧
  ((∀ (q : Requester) (rate : Nat) (s : State), s.reaches q 0x010500 = true → rate < 4 →
     (rate < 3 → s.jobs = [] → exec (.linkRetrain q rate) s =
       .next { s.unlatch with link := { s.link with ctrlRate := rate, state := .training } }) ∧
     (rate = 3 ∨ s.jobs ≠ [] → ∃ t, exec (.linkRetrain q rate) s = .next t ∧ t.link = s.link ∧
       Recorded s t (Err.plain .deferred 0x03 6 (requesterNum q) 0x010500 (rate + 4)))) ∧
   (∀ (a b : Bool) (n : Nat) (s : State), s.link.state = .training → n < 256 →
     ∃ t, exec (.linkTrainingDone a b n) s = .next t ∧ t.link = { s.link with
         state := if a || b then .up else .down
         rate := s.link.ctrlRate
         width := flag a + flag b
         repaired := n } ∧
       (a = true → b = true → t.evq = s.evq ∧ t.mem = s.mem) ∧
       (¬ (a = true ∧ b = true) →
         Posted s t 4 (leBytes 1 s.link.ctrlRate ++ leBytes 1 (flag a + flag b) ++ leBytes 2 n))) ∧
   (∀ s : State, s.link.state = .up → ∃ t, exec .linkRecalibration s = .next t ∧ t.link.state = .recalibrating ∧
       t.link.lastRecal = some t.clock ∧ (∀ u, s.link.lastRecal = some u → u + 100000000 ≤ t.clock) ∧
       ∃ v, exec .linkRecalibrationDone t = .next v ∧ v.link = { t.link with state := .up }) ∧
   (∀ (q : Requester) (v : DWord) (s : State), s.reaches q 0x010600 = true →
     (v.toNat / 2 ^ 36 % 2 ^ 28 < 12 → s.link.decoderCommitted = false → s.jobs = [] →
       exec (.hdmMapWrite q v) s = .next { s.unlatch with link := { s.link with hdmBase := v.toNat / 2 ^ 36 % 2 ^ 28 } }) ∧
     (12 ≤ v.toNat / 2 ^ 36 % 2 ^ 28 ∨ s.link.decoderCommitted = true ∨ s.jobs ≠ [] →
       ∃ t, exec (.hdmMapWrite q v) s = .next t ∧ t.link = s.link ∧
         Recorded s t (Err.plain .deferred 0x03 6 (requesterNum q) 0x010600 (v.toNat % 2 ^ 32)))) ∧
   (∀ (c : Option Bool) (s : State), (s.pins.allGood = false → exec (.cxlConfigRequest c) s = .next s) ∧
     (s.pins.allGood = true → s.boot.stage < 9 → exec (.cxlConfigRequest c) s = .next { s with resp := .retry }) ∧
     (s.pins.allGood = true → 9 ≤ s.boot.stage → s.pins.mreset = false → s.boot.stopped = false → ∃ t, exec (.cxlConfigRequest c) s = .next t ∧
       t.resp = .completed ∧ t.link = { s.link with decoderCommitted := c.getD s.link.decoderCommitted } ∧ t.evq = s.evq)))

/-- Doorbells: a submission tail, a completion head and the event head are kept when they lie within the ring; at the ring's size or
beyond they are discarded with an event that names the doorbell's address, and no ring changes. A completion head that
acknowledges every record restarts both counts of its ring. RING_CTRL behind RING_SEL: ENABLE = 1 puts the ring in use and
writes its held records, oldest first, while slots are free; ENABLE = 0 takes an idle or stopped ring out of use, and is discarded with
an event while a ring that is not stopped has a pending or an admitted job; RESET of a ring that is not enabled clears its
indices and ERROR and sets PHASE, and keeps its pending list, its held records and its admitted job. A CQ or event head at the
size or beyond, and what RESET keeps of the head, are the model's choice, log 17. -/
def Obligations.DoorbellsAndRingControls : Prop :=
  (∀ (q : Requester) (r : Nat) (v : Word) (s : State), s.reaches q (sqDbAddr r) = true → s.reaches q (cqDbAddr r) = true →
     s.reaches q 0x080100 = true → r < 32 →
     (v.toNat % 4096 < 2 ^ (s.ring r).sqSizeLog →
       exec (.sqDoorbell q r v) s = .next (s.unlatch.mapRing r (fun g => { g with sqTail := v.toNat % 4096 }))) ∧
     (2 ^ (s.ring r).sqSizeLog ≤ v.toNat % 4096 → ∃ t, exec (.sqDoorbell q r v) s = .next t ∧ t.rings = s.rings ∧
       Recorded s t (Err.plain .deferred 0x03 6 (requesterNum q) (0x080000 + 8 * r) v.toNat)) ∧
     (v.toNat % 4096 < 2 ^ (s.ring r).cqSizeLog → ∃ t, exec (.cqDoorbell q r v) s = .next t ∧
       (∀ k, k ≠ r → t.ring k = s.ring k) ∧ (t.ring r).cqHead = v.toNat % 4096 ∧
       ((t.ring r).cqHead = (s.ring r).cqTail → (s.ring r).cqTail < 2 ^ (s.ring r).cqSizeLog →
         (t.ring r).unacked = 0 ∧ (t.ring r).firstUnacked = none) ∧
       (t.ring r).held = (s.ring r).held ∧ (t.ring r).cqTail = (s.ring r).cqTail ∧ (t.ring r).pending = (s.ring r).pending) ∧
     (2 ^ (s.ring r).cqSizeLog ≤ v.toNat % 4096 → ∃ t, exec (.cqDoorbell q r v) s = .next t ∧ t.rings = s.rings ∧
       Recorded s t (Err.plain .deferred 0x03 6 (requesterNum q) (0x080004 + 8 * r) v.toNat)) ∧
     (v.toNat % 4096 < 2 ^ s.evq.sizeLog →
       exec (.evqDoorbell q v) s = .next { s.unlatch with evq := { s.evq with head := v.toNat % 4096 } }) ∧
     (2 ^ s.evq.sizeLog ≤ v.toNat % 4096 → ∃ t, exec (.evqDoorbell q v) s = .next t ∧ t.evq = s.evq ∧
       Recorded s t (Err.plain .deferred 0x03 6 (requesterNum q) 0x080100 v.toNat))) ∧
  (∀ (q : Requester) (s : State), s.reaches q 0x020030 = true → (s.selects q).ring < 32 →
     let r := (s.selects q).ring
     ((s.ring r).held = [] →
       exec (.ringEnable q) s = .next (s.unlatch.mapRing r (fun g => { g with enable := true }))) ∧
     (∀ c, (s.ring r).held = [c] → s.awaits c = false → (s.ring r).cqFull = false → (s.ring r).error = false → s.errs.fatal = false →
       ∃ t, exec (.ringEnable q) s = .next t ∧ (t.ring r).held = [] ∧ (t.ring r).enable = true ∧
         (t.ring r).cqTail = ((s.ring r).cqTail + 1) % 2 ^ (s.ring r).cqSizeLog) ∧
     (∀ size free n, size = 2 ^ (s.ring r).cqSizeLog → (s.ring r).cqTail < size → (s.ring r).cqHead < size →
       free = ((s.ring r).cqHead + size - 1 - (s.ring r).cqTail) % size → n = min (s.ring r).held.length free →
       (∀ c ∈ (s.ring r).held, s.awaits c = false) → (s.ring r).error = false → s.errs.fatal = false →
       ∃ t, exec (.ringEnable q) s = .next t ∧ (t.ring r).enable = true ∧ (t.ring r).held = (s.ring r).held.drop n ∧
         (t.ring r).cqTail = ((s.ring r).cqTail + n) % size) ∧
     ((s.ring r).error = true ∨ s.ringBusy r = false →
       exec (.ringDisable q) s = .next (s.unlatch.mapRing r (fun g => { g with enable := false }))) ∧
     ((s.ring r).error = false → s.ringBusy r = true → ∃ t, exec (.ringDisable q) s = .next t ∧ t.rings = s.rings ∧
       Recorded s t (Err.plain .deferred 0x03 6 (requesterNum q) 0x020030 0)) ∧
     ((s.ring r).enable = false → exec (.ringReset q) s = .next (s.unlatch.mapRing r (fun g =>
       { g with sqHead := 0, sqTail := 0, cqTail := 0, cqHead := 0, error := false, phase := true, unacked := 0, firstUnacked := none }))))

/-- A held completion record is written, oldest first, when its ring has a free slot: its 32 bytes stand in the slot at the tail,
the tail moves on, PHASE inverts where the tail wraps, and a record with NOTIFY raises the ring's vector. COAL_US after the
first unacknowledged record the vector is raised as well. -/
def Obligations.CompletionRecordsWritten : Prop :=
  ∀ (k : Nat) (s : State), k < 32 → s.wcbOk = true → s.memoryOk = true → (∀ a, 2 ^ 63 ≤ a → s.poisoned a = false) →
    (∀ c rest, (s.ring k).held = c :: rest → s.awaits c = false → s.canComplete k = true →
      (s.ring k).cqBase.toNat + 32 * (s.ring k).cqTail + 32 ≤ 2 ^ 63 →
      ∃ t, exec (.completionRecordWrite k) s = .next t ∧ (t.ring k).held = rest ∧
        (t.ring k).cqTail = ((s.ring k).cqTail + 1) % 2 ^ (s.ring k).cqSizeLog ∧
        (t.ring k).phase = (if ((s.ring k).cqTail + 1) % 2 ^ (s.ring k).cqSizeLog = 0 then !(s.ring k).phase else (s.ring k).phase) ∧
        t.readRaw (hostAddr ((s.ring k).cqBase.toNat + 32 * (s.ring k).cqTail)) 32 = c.bytes k (s.ring k) ∧
        (c.notify = true → t.msix = s.msix ++ [(s.ring k).vector])) ∧
    (∀ t0, (s.ring k).firstUnacked = some t0 → (s.ring k).coalUs ≠ 0 →
      exec (.cqCoalesceTimeout k) s = .next (((s.until (t0 + 1000 * (s.ring k).coalUs)).interrupt (s.ring k).vector).mapRing k
        (fun r => { r with firstUnacked := none })))

/-- A fetch takes the entries from the head up to the tail in ring order while the pending list has room; SQ_HEAD advances by one
for each; RUN entries join the pending list. A CANCEL entry acts as it is fetched: one that matches nothing has a record of status
0x15, written at once or held last. A translation fault stops the ring and posts a RING_ERROR entry; a stopped ring fetches
nothing. One fetch takes all that fits by the model's choice, log 18; SEQ of an event that is lost is log 25's. -/
def Obligations.EntriesFetchedInOrder : Prop :=
  ∀ (k : Nat) (s : State), k < 32 → s.errs.fatal = false → s.halt = .running → s.pins.mreset = false →
    s.pins.allGood = true → (s.ring k).inUse = true →
    ((s.ring k).sqHead < 2 ^ (s.ring k).sqSizeLog → (s.ring k).sqTail < 2 ^ (s.ring k).sqSizeLog →
      (∀ i, i < (s.ring k).fetchable → jdIsCancel (s.sqEntry k i) = false) →
      ∃ t, exec (.ringFetch k) s = .next t ∧ t.mem = s.mem ∧ (∀ j, j ≠ k → t.ring j = s.ring j) ∧
        (t.ring k).pending.map (·.bytes) = (s.ring k).pending.map (·.bytes) ++ (List.range (s.ring k).fetchable).map (s.sqEntry k) ∧
        (t.ring k).sqHead = ((s.ring k).sqHead + (s.ring k).fetchable) % 2 ^ (s.ring k).sqSizeLog) ∧
    ((s.ring k).sqHead < 2 ^ (s.ring k).sqSizeLog → (s.ring k).sqTail = ((s.ring k).sqHead + 1) % 2 ^ (s.ring k).sqSizeLog →
      0 < (s.ring k).sqSizeLog → (s.ring k).pending.length < 64 → jdIsCancel (s.sqEntry k 0) = true →
      (jdTargetRing (s.sqEntry k 0) < 32 → s.job (jdTargetRing (s.sqEntry k 0)) = none ∧
        (s.ring (jdTargetRing (s.sqEntry k 0))).pending = []) →
      ∃ t, exec (.ringFetch k) s = .next t ∧ (t.ring k).pending = (s.ring k).pending ∧ (t.ring k).sqHead = (s.ring k).sqTail ∧
        t.jobs = s.jobs ∧
        ((s.ring k).cqFull = false → (s.ring k).held = [] → (t.ring k).held = [] ∧
          (t.ring k).cqTail = ((s.ring k).cqTail + 1) % 2 ^ (s.ring k).cqSizeLog) ∧
        ((s.ring k).cqFull = true ∨ (s.ring k).held ≠ [] →
          (t.ring k).held = (s.ring k).held ++ [Completion.plain (jdTag (s.sqEntry k 0)) 0x15 0 false] ∧
          (t.ring k).cqTail = (s.ring k).cqTail)) ∧
    (∀ (completion : Bool) (a : DWord), ∃ t, exec (.ringError k completion a) s = .next t ∧
      (t.ring k).error = true ∧ (t.ring k).pending = (s.ring k).pending ∧ t.jobs = s.jobs ∧ (∀ j, j ≠ k → t.ring j = s.ring j) ∧
      Posted s t 3 (leBytes 1 k ++ leBytes 1 (flag completion) ++ leBytes 2 0 ++ leBytes 8 a.toNat) ∧
      exec (.ringFetch k) t = .next t)

/-- How a job enters: the front entry of a ring is checked and marked, or refused with the first failing check's status, its record
written at once or held last; it ages after JOB_CFG.AGE; and the first entry in round-robin order of rings that may be admitted
is admitted under the MODE then in force, which its job keeps. Where the module does not admit (FATAL, not RUNNING, in reset)
nothing happens. The check as a row of its own is the model's choice, log 19. -/
def Obligations.JobsEnter : Prop :=
  (∀ (r : Nat) (e : PendingEntry) (rest : List PendingEntry) (s : State), r < 32 → (s.ring r).pending = e :: rest →
    s.admits = true → (s.ring r).inUse = true → e.checked = false → ∀ (found : Bool) (damaged lost : List Nat),
    ((s.admissionCode r e.bytes found).1 = 0 → exec (.jobAdmissionCheck ⟨r, found, damaged, lost⟩) s = .next (s.mapRing r
      (fun g => { g with pending := { e with checked := true, damaged := damaged, lost := lost } :: rest }))) ∧
    ((s.admissionCode r e.bytes found).1 ≠ 0 → (s.ring r).cqFull = true → (s.ring r).fullSince.isSome = true →
      ∃ t, exec (.jobAdmissionCheck ⟨r, found, damaged, lost⟩) s = .next t ∧ t.jobs = s.jobs ∧
        t.ring r = { s.ring r with pending := rest, held := (s.ring r).held ++
          [Completion.plain (jdTag e.bytes) (s.admissionCode r e.bytes found).1 (s.admissionCode r e.bytes found).2 (jdNotify e.bytes)] }) ∧
    ((s.admissionCode r e.bytes found).1 ≠ 0 → (s.ring r).cqFull = false → (s.ring r).held = [] →
      ∃ t, exec (.jobAdmissionCheck ⟨r, found, damaged, lost⟩) s = .next t ∧ t.jobs = s.jobs ∧ (t.ring r).pending = rest ∧ (t.ring r).held = [] ∧
        (t.ring r).cqTail = ((s.ring r).cqTail + 1) % 2 ^ (s.ring r).cqSizeLog)) ∧
  (∀ (r : Nat) (e : PendingEntry) (rest : List PendingEntry) (s : State), r < 32 → (s.ring r).pending = e :: rest →
    e.aged = false → exec (.jobAged r) s = .next ((s.until (e.since + 1000 * s.jobAge)).mapRing r
      (fun g => { g with pending := { e with aged := true } :: rest }))) ∧
  (∀ (r : Nat) (e : PendingEntry) (rest : List PendingEntry) (p : PrkInfo) (s : State), s.admits = true →
    ((List.range 32).map (fun i => (s.rrNext + i) % 32)).find? s.admissible = some r →
    (s.ring r).pending = e :: rest → e.aged = false → s.pricking (jdPricking e.bytes) = some p →
    ({ s with rrNext := (r + 1) % 32 }.admissionCode r e.bytes true).1 = 0 →
    ∃ j : Job, j.ring = r ∧ j.tag = jdTag e.bytes ∧ j.mode = s.mode ∧ j.admitted = s.clock ∧ j.ending = none ∧
      j.tiles = (s.tileEntries p).map (·.2) ∧
      exec .jobAdmit s = .next ((({ s with rrNext := (r + 1) % 32 }.mapRing r (fun g => { g with pending := rest })).count
        .pairCheckFailed 0 (2 * j.damagedCount e.damaged)).admitJob (j.distributed e.damaged e.lost))) ∧
  (∀ s : State, s.admits = false → exec .jobAdmit s = .next s)

/-- A job that has retired everything ends with exactly one completion record of status OK: written at once where its ring's queue
has room and holds nothing back, and then its tiles are free; else held last in order, and the job keeps its tiles until then. A
CANCEL by register that matches nothing leaves RESULT 3, and one that matches an admitted job 2; that job's record is the last its
ring holds. That it is always held first is the model's choice, log 23. -/
def Obligations.JobsEnd : Prop :=
  (∀ (r : Nat) (j : Job) (s : State), r < 32 → s.job r = some j → s.errs.fatal = false → j.ending = none →
    j.committing = false → j.recovery = none → s.jobFinished j = true → j.heldErrs.all (fun e => e.cls == .deferred) = true →
    (s.ring r).inUse = true → ∀ merges : List (Nat × ReadError),
    ((s.ring r).cqFull = false → (s.ring r).held = [] →
      ∃ t, exec (.jobComplete ⟨r, merges⟩) s = .next t ∧ t.job r = none ∧ (∀ x, (t.tile x).job ≠ some r) ∧ (t.ring r).held = [] ∧
        (t.ring r).cqTail = ((s.ring r).cqTail + 1) % 2 ^ (s.ring r).cqSizeLog) ∧
    ((s.ring r).cqFull = true ∨ (s.ring r).held ≠ [] →
      ∃ t c, exec (.jobComplete ⟨r, merges⟩) s = .next t ∧ (t.ring r).held = (s.ring r).held ++ [c] ∧
        (t.ring r).cqTail = (s.ring r).cqTail ∧ c.tag = j.tag ∧ c.status = 0 ∧ c.tile = 0xFFFF ∧ c.endsJob = true ∧
        (t.job r).isSome = true ∧ ∀ x, (t.tile x).job = (s.tile x).job)) ∧
  (∀ (q : Requester) (r : Nat) (s : State), s.reaches q 0x010424 = true → r < 32 →
    ((s.job r).all (fun j => j.tag != s.cancelTag.toNat) = true →
      (s.ring r).pending.all (fun e => jdTag e.bytes != s.cancelTag.toNat) = true →
      exec (.jobCancelGo q r) s = .next { s.unlatch with cancelRing := r, cancelResult := 3 }) ∧
    (∀ j, s.job r = some j → j.tag = s.cancelTag.toNat → j.ending = none → s.jobFinished j = false →
      ∃ t, exec (.jobCancelGo q r) s = .next t ∧ t.cancelRing = r ∧ t.cancelResult = 2 ∧
        (j.heldErrs = [] → ∃ c, (t.ring r).held = (s.ring r).held ++ [c] ∧ c.tag = j.tag ∧ c.status = 0x12 ∧ c.endsJob = true)))

/-- HALT stops a running module, and has no further effect on one that is halting or halted; it is HALTED once no tile runs and no
poison request waits, and not before. While it is not running nothing is fetched or admitted. RELEASE brings a halted module back
to RUNNING with its pending entries; during a change of owner, or where it is not halted, it is discarded with an event. A
cancelled job whose record is not yet written ends HALTED (log 23). -/
def Obligations.HaltAndRelease : Prop :=
  ∀ (q : Requester) (s : State), s.reaches q (haltAddr q) = true →
    (s.halt = .running → ∃ t, exec (.halt q) s = .next t ∧ t.halt = .halting ∧ t.mode = s.mode ∧ t.link = s.link ∧
      ∀ k c rest, k < 32 → (s.ring k).held = c :: rest → (t.ring k).held.head? = some
        (if c.endsJob ∧ c.status = 0x12 then { c with status := 0x13 } else c)) ∧
    (s.halt ≠ .running → exec (.halt q) s = .next s.unlatch ∧ exec .jobAdmit s = .next s ∧ ∀ r, exec (.ringFetch r) s = .next s) ∧
    (s.halt = .halting → s.poisonRequests = [] → s.jobs.all (fun j => j.ending.isSome || s.jobFinished j) = true →
      exec .haltComplete s = .next { s with halt := .halted }) ∧
    (s.halt = .halting → (s.poisonRequests ≠ [] ∨ ∃ j ∈ s.jobs, j.ending = none ∧ s.jobFinished j = false) →
      exec .haltComplete s = .next s) ∧
    (s.halt = .halted → s.trust.changing = none → exec (.release q) s = .next { s.unlatch with halt := .running }) ∧
    (s.halt ≠ .halted ∨ s.trust.changing.isSome = true → ∃ t, exec (.release q) s = .next t ∧ t.halt = s.halt ∧ t.rings = s.rings ∧
      Recorded s t (Err.plain .deferred 0x03 6 (requesterNum q) (if q = .sideband then 0x010 else 0x010400) 2))

/-- How an error enters the queue: a repeat of an entry not yet in handling adds one to its COUNT and takes none; any other takes
the last entry while there is room; with 64 entries it is lost, except that a FATAL error displaces a waiting entry, which is
lost in its place. The module becomes FATAL once: the first FATAL error is kept as the record of the stop, ALERT_N asserts,
every die's ballast ramps and the write-combining buffers are lost; an error raised later is only counted. -/
def Obligations.ErrorsEnterTheQueue : Prop :=
  (∀ (e : Err) (u : ErrUnit), u.queue.length ≤ 64 →
     (u.queue.any (fun x => x.repeats e) = true →
       u.enter e = { u with queue := u.queue.map (fun x => if x.repeats e then { x with count := min 255 (x.count + 1) } else x) }) ∧
     (u.queue.any (fun x => x.repeats e) = false → u.queue.length < 64 →
       ∃ x, (u.enter e).queue.getLast? = some x ∧ x.err = e ∧ x.count = 1 ∧ (u.enter e).queue.length = u.queue.length + 1 ∧
         (u.enter e).overflow = u.overflow ∧ (u.enter e).lost = u.lost) ∧
     (u.queue.any (fun x => x.repeats e) = false → u.queue.length = 64 →
       (u.enter e).lost = true ∧ (u.enter e).overflow = sat 32 (u.overflow + 1) ∧
       (e.cls ≠ .fatal → (u.enter e).queue = u.queue) ∧
       (e.cls = .fatal → ∀ v, u.victim = some v →
         ∃ x, (u.enter e).queue.getLast? = some x ∧ x.err = e ∧ (u.enter e).queue.all (fun y => y.order != v.order || y.order == x.order) = true))) ∧
  ((∀ (l : List Err) (s : State), s.errs.fatal = true →
     s.raise l = { s with errs := { s.errs with afterFatal := sat 32 (s.errs.afterFatal + l.length) } }) ∧
   (∀ (e : Err) (s : State), s.errs.fatal = false → e.cls = .fatal → (s.raise [e]).errs.fatal = true ∧
     (s.raise [e]).errs.fatalRec = some e ∧ (s.raise [e]).pins.alertN = false ∧ (∀ k, ((s.raise [e]).stack k).wcb = []) ∧
     (s.raise [e]).dies.toList.all (fun d => d.ramping) = true ∧ (s.raise [e]).errs.afterFatal = s.errs.afterFatal ∧
     (s.raise [e]).rings = s.rings ∧ (s.raise [e]).mem = s.mem))

/-- The Hoop handles one entry at a time: with none in handling it takes one of the highest class, and within a class the earliest
of those not suspended. While it is in handling, an error of a higher class suspends it and is handled at once. A CONTAINED entry
ends without a posting; any other is posted and frees when it is: its record, with its COUNT, is an ERROR entry of the event
ring, or counted there where the ring cannot take it, or where its memory cannot be written while the module is FATAL. Nothing
else changes when an entry is taken. An uncorrectable word that the Hoop meets in its SRAM or in the queue is a HUB_FAULT. The end
of a CONTAINED entry as the next ERROR_HANDLE, what the Hoop's reads meet as a free value and the link as what makes the ring's
memory writable are the model's choice, log 27; SEQ and OVERFLOW of a ring that cannot take an entry are the model's choice, log 25. -/
def Obligations.ErrorsHandled : Prop :=
  (∀ s : State, exec .errorHandle s = .next ({ s with freeCount := s.freeCount + 1 }.hoopStep s.hoopRead)) ∧
  (∀ s : State, s.errs.active = none → s.errs.queue ≠ [] → ∃ x, s.errs.next = some x ∧ x ∈ s.errs.queue ∧
    (∀ y, y ∈ s.errs.queue → y.err.cls.rank ≤ x.err.cls.rank) ∧
    (∀ y, y ∈ s.errs.queue → y.err.cls.rank = x.err.cls.rank → y.phase = .waiting → x.phase = .waiting → x.order ≤ y.order) ∧
    let t := s.hoopStep .clean
    t = { s with errs := t.errs } ∧
    t.errs.queue.map (·.order) = s.errs.queue.map (·.order) ∧ ∃ y, t.errs.active = some y ∧ y.order = x.order) ∧
  (∀ (s : State) x, s.errs.active = some x → x.err.cls = .contained →
    s.hoopStep .clean = { s with errs := { s.errs with queue := s.errs.queue.filter (fun y => y.order != x.order) } } ∧
    exec .errorPosted s = .next s) ∧
  (∀ (s : State) x, s.errs.active = some x → x.err.cls = .deferred ∨ x.err.cls = .fatal →
    s.hoopStep .clean = s ∧ ∃ t, exec .errorPosted s = .next t ∧
      t.errs = { s.errs with queue := s.errs.queue.filter (fun y => y.order != x.order) } ∧ t.rings = s.rings ∧ t.jobs = s.jobs ∧
      (s.link.carries = true ∨ s.errs.fatal = false → Posted s t 1 (x.err.bytes x.count)) ∧
      (s.link.carries = false → s.errs.fatal = true → t = { s with errs := t.errs, evq := s.evq.dropped })) ∧
  (∀ (u : ErrUnit) (x : ErrEntry) (e : Err), u.active = some x → x.err.cls.rank < e.cls.rank → u.queue.length < 64 →
    u.queue.any (fun y => y.repeats e) = false → ∃ y z, (u.enter e).active = some y ∧ y.err = e ∧
      z ∈ (u.enter e).queue ∧ z.order = x.order ∧ z.phase = .suspended) ∧
  (∀ (s : State) (n : Nat), 0 < n → s.errs.fatal = false → let t := s.hoopStep (.uncorrectable n)
    t.errs.fatal = true ∧ t.pins.alertN = false ∧ Recorded s t (Err.plain .fatal 0x36 8 0 0 0))

/-- A pacer slot stays within the module's budget and within every die's slew limit. It settles the slot that ends: each die has
consumed what its tiles spent, and the ballast that keeps that within one slew step of the last (a die whose tiles stand still
for a change of frequency keeps the last one). It then allots the next: to the tiles' cores and the service pool together at
most (ceiling − fixed) × 20,000 tokens, to the pool at most half of that, and to each die's tiles at most its consumption and one
slew step. The next slot follows 200 ns later, and a new slot never starts before its time. What a tile spends in a slot is the
model's choice, log 74, the division of a slot the model's choice, log 55. -/
def Obligations.PacerKeepsBudgetAndSlew : Prop :=
  ∀ s : State, s.pacing = true → ∃ t, exec .pacerSlot s = .next t ∧
    total ((List.range 208).map (fun x => (t.tile x).coreAllot)) + t.power.serviceAllot ≤ (s.power.inForce - s.power.fixed) * 20000 ∧
    t.power.serviceAllot ≤ (s.power.inForce - s.power.fixed) * 20000 / 2 ∧
    (∀ d, d < 4 → (s.die d).still = false → (t.die d).spent = max (s.dieSpending d) ((s.die d).spent - s.slewStep d)) ∧
    (∀ d, d < 4 → (s.die d).still = true → (t.die d).spent = max (s.dieSpending d) (s.die d).spent) ∧
    (∀ d, d < 4 → (s.die d).spent ≤ (t.die d).spent + s.slewStep d) ∧
    (∀ d, d < 4 → s.dieSpending d ≤ (s.die d).spent + s.slewStep d → (t.die d).spent ≤ (s.die d).spent + s.slewStep d) ∧
    (∀ d, d < 4 → total ((List.range 52).map (fun i => (t.tile (52 * d + i)).coreAllot)) ≤ (t.die d).spent + s.slewStep d) ∧
    (∀ x, x < 208 → (t.tile x).runs = min (t.tile x).slotLeft ((t.tile x).coreAllot / max 1 (t.rate x)) ∧ (t.tile x).drawn = 0) ∧
    t.power.nextSlot = s.power.nextSlot + 200 ∧ t.clock = max s.clock s.power.nextSlot

/-- A pacer window applies the ceiling that MODE.PACE names, never above 1,500 W, and gathers the marks of its slots. A performance
change runs in the order of its sequence: a faster one raises the voltage first and charges it at once, waits until the
regulator reports it, settles, freezes the tiles from a slot boundary and resumes them at the new point; a slower one freezes
first. The VOUT write takes 1.6 µs, and status is read each 2 µs after it. A regulator that does not report within 100 µs ends the
sequence at the old point with a DEFERRED event that names the die, AVS_FAULT and ALERT_N, and no sequence starts on that die.
That a faster sequence then keeps its new charge, and the slot in which tiles freeze, are the model's choice, log 56. -/
def Obligations.PerformanceChanges : Prop :=
  (∀ s : State, s.pacing = true → ∃ t, exec .pacerWindow s = .next t ∧ t.power.inForce = min 1500 (Tab.at s.power.ceil 1500 s.mode.pace) ∧
    t.power.limited = s.power.winLimited ∧ t.power.slewing = s.power.winSlewing ∧ t.power.ballast = s.power.winBallast ∧
    t.power.nextWindow = s.power.nextWindow + 1000 ∧ t.tiles = s.tiles) ∧
  (∀ (d : Nat) (s : State), s.dvfsMay d = true →
    (s.goal d < (s.die d).point → ∃ t, exec (.dvfsStart d) s = .next t ∧ t.clock = s.clock ∧ Repaced s t d ∧
      t.die d = { s.die d with
        voutMv := Config.perfVolt d (s.goal d)
        charged := s.goal d
        seq := some { faster := true, point := s.goal d, phase := .polling, since := s.clock } } ∧
      ∀ e, e ≠ d → t.die e = s.die e) ∧
    ((s.die d).point < s.goal d → ∃ t, exec (.dvfsStart d) s = .next t ∧ s.clock ≤ t.clock ∧ t.clock < s.clock + 200 ∧
      t.clock % 200 = s.power.nextSlot % 200 ∧ (∀ e, e ≠ d → t.die e = s.die e) ∧
      t.die d = { s.die d with
        seq := some { faster := false, point := s.goal d, phase := .frozen, since := t.clock }
        still := (s.die d).still || decide (t.clock < s.power.nextSlot) } ∧
      (t.clock < s.power.nextSlot → ∀ x, x < 208 → dieOfTile x = d → (t.tile x).runs = 0))) ∧
  (∀ (d : Nat) (s : State), (s.die d).avsFault = true → exec (.dvfsStart d) s = .next s) ∧
  (∀ (d : Nat) (q : Dvfs) (s : State), d < 4 → s.pins.mreset = false → (s.die d).seq = some q →
    (q.phase = .polling → q.since ≤ s.clock → s.clock < q.since + 99600 →
      ∃ c t, s.clock < c ∧ c ≤ s.clock + 3600 ∧ q.since + 3600 ≤ c ∧ c ≤ q.since + 100000 ∧ (c - (q.since + 1600)) % 2000 = 0 ∧
        exec (.avsStatusPoll d false) s = .next { s with clock := c } ∧
        exec (.avsStatusPoll d true) s = .next t ∧ t.clock = c ∧
        (q.faster = true → t = ({ s with clock := c } : State).mapDie d (fun x =>
          { x with seq := some { q with phase := .settling, since := c } })) ∧
        (q.faster = false → t.die d = { s.die d with seq := none, charged := q.point } ∧ Repaced s t d)) ∧
    (q.phase = .settling → ∃ t, exec (.dvfsSettleEnd d) s = .next t ∧ q.since + 2000 ≤ t.clock ∧ t.clock % 200 = s.power.nextSlot % 200 ∧
      (t.die d).seq = some { q with phase := .frozen, since := t.clock } ∧ (t.die d).point = (s.die d).point) ∧
    (q.phase = .frozen → ∃ t, exec (.dvfsFreezeEnd d) s = .next t ∧ q.since + 2000 ≤ t.clock ∧ (t.die d).point = q.point ∧
      (q.faster = true → (t.die d).seq = none) ∧
      (q.faster = false → (t.die d).voutMv = Config.perfVolt d q.point ∧ (t.die d).charged = (s.die d).charged ∧
        (t.die d).seq = some { q with phase := .polling, since := t.clock })) ∧
    (q.phase = .polling → s.errs.fatal = false → ∃ t, exec (.avsTimeout d) s = .next t ∧ q.since + 100000 ≤ t.clock ∧ (t.die d).seq = none ∧
      (t.die d).avsFault = true ∧ (t.die d).point = (s.die d).point ∧ (t.die d).charged = (s.die d).charged ∧ t.pins.alertN = false ∧
      Recorded s t (Err.plain .deferred 0x0B 5 d q.point 0)))

/-- Heat. A sample stores the temperature of every sensor, those of the 16 spare tile sites included, and raises a die's thermal floor by one point when a tile of it first reaches
T_ALERT; the floor rises again each millisecond while that lasts, up to 7, and falls by one 10 ms after the first of the samples
in which every tile has stayed below T_SLOW. A sensor at 115 °C or more in two samples running trips the module: it becomes FATAL, THERMTRIP_N asserts,
every die ramps and the P7 voltages are requested; one such sample alone does not. The first rise within the sample is the
model's choice, log 56, the thresholds of other sensors the model's choice, log 60. -/
def Obligations.HeatTrips : Prop :=
  (∀ (tiles hbm : List Nat) (hub : Nat) (s : State), s.pacing = true → 208 ≤ tiles.length → ∃ t, exec (.thermalSample tiles hbm hub) s = .next t ∧
    (∀ x, x < 208 → (t.tile x).temp = tiles.getD x 0) ∧ (∀ k, k < 12 → (t.stack k).temp = hbm.getD k 0) ∧
    t.power.hubTemp = hub ∧ (∀ i, i < 16 → Tab.at t.power.spareTemps 0 i = tiles.getD (208 + i) 0) ∧
    ((∃ i, i < 16 ∧ (s.die (i / 4)).tAlert ≤ tiles.getD (208 + i) 0) → t.pins.alertN = false) ∧ t.power.nextSample = s.power.nextSample + 10000 ∧
    (∀ d, d < 4 →
      ((∃ i, i < 52 ∧ (s.die d).tSlow ≤ tiles.getD (52 * d + i) 0) → (t.die d).belowSince = none) ∧
      ((∀ i, i < 52 → tiles.getD (52 * d + i) 0 < (s.die d).tSlow) →
        (t.die d).belowSince = some ((s.die d).belowSince.getD (max s.clock s.power.nextSample)))) ∧
    t.power.hot = (hotSensors tiles hbm hub).map (·.1) ∧
    ((hotSensors tiles hbm hub).all (fun x => !s.power.hot.contains x.1) = true → t.errs = s.errs ∧ t.pins.thermtripN = s.pins.thermtripN ∧
      (∀ d, d < 4 → (∀ i, i < 52 → (tiles.getD (52 * d + i) 0) < (s.die d).tAlert) → (t.die d).floor = (s.die d).floor) ∧
      (∀ d i, d < 4 → i < 52 → (s.die d).tAlert ≤ tiles.getD (52 * d + i) 0 → (s.die d).alertFlag = false →
        (t.die d).floor = min 7 ((s.die d).floor + 1) ∧ t.pins.alertN = false)) ∧
    (s.errs.fatal = false → (hotSensors tiles hbm hub).any (fun x => s.power.hot.contains x.1) = true →
      t.errs.fatal = true ∧ t.pins.thermtripN = false ∧ t.pins.alertN = false ∧
      ∀ d, d < 4 → (t.die d).ramping = true ∧ (t.die d).voutMv = Config.perfVolt d 7)) ∧
  (∀ (d : Nat) (s : State), d < 4 → (s.die d).alertFlag = true → ∃ t, exec (.thermalFloorRise d) s = .next t ∧
    t = ({ s with clock := max s.clock (s.die d).floorRose } : State).mapDie d (fun x => { x with
      floor := min 7 (x.floor + 1), floorRose := t.clock + 1000000 })) ∧
  (∀ (d u : Nat) (s : State), d < 4 → (s.die d).belowSince = some u → ∃ t, exec (.thermalFloorFall d) s = .next t ∧
    t = ({ s with clock := max s.clock (u + 10000000) } : State).mapDie d (fun x => { x with
      floor := x.floor - 1, belowSince := some t.clock }))

/-- Power-down: OFF is honoured only while the module is HALTED, and otherwise discarded with an event; the ballast of every die
then ramps to zero, the P7 voltages are requested and SAFE_OFF is set. CLKOUT takes a selection whose source and, where the
source needs one, tile exist and whose output is at most 200 MHz, and is then low for 20 ns; any other write is discarded with
an event. From then on an output that divides REFCLK by d ≥ 2 is high in the first d/2, rounded up, of every d periods, and one
that is not enabled stays low. The ramp as one step and the check of the tile are the model's choice, log 57. -/
def Obligations.PowerOffAndClockOut : Prop :=
  ∀ (q : Requester) (s : State), s.reaches q 0x050830 = true → s.reaches q 0x050900 = true →
    (s.halt = .halted → exec (.powerOff q) s = .next { s.unlatch with
      power := { s.power with offRamp := true }
      dies := s.dies.map (fun d => { d with ramping := true }) }) ∧
    (s.halt ≠ .halted → ∃ t, exec (.powerOff q) s = .next t ∧ t.power = s.power ∧
      Recorded s t (Err.plain .deferred 0x03 6 (requesterNum q) 0x050830 1)) ∧
    (s.power.offRamp = true → ∃ t, exec .safeOff s = .next t ∧ t.power.safeOff = true ∧ t.power.offRamp = false ∧ s.clock ≤ t.clock ∧
      ∀ d, d < 4 → (t.die d).spent = 0 ∧ (t.die d).ramping = false ∧ (t.die d).voutMv = Config.perfVolt d 7) ∧
    (∀ v : Word, bits v.toNat 3 0 ≤ 8 → clkoutMHz (bits v.toNat 3 0) ≤ 200 * (bits v.toNat 15 4 + 1) →
      (bits v.toNat 3 0 = 0 ∨ 6 ≤ bits v.toNat 3 0 ∨ bits v.toNat 23 16 < 208) →
      exec (.clkoutSelect q v) s = .next { s.unlatch with
        power := { s.power with clkSrc := bits v.toNat 3 0, clkDiv := bits v.toNat 15 4, clkTile := bits v.toNat 23 16,
                                clkEnable := bit v.toNat 24, clkLowUntil := s.clock + 20,
                                clkFrom := (s.tile (bits v.toNat 23 16)).cycle } }) ∧
    (∀ v : Word, (8 < bits v.toNat 3 0 ∨ 200 * (bits v.toNat 15 4 + 1) < clkoutMHz (bits v.toNat 3 0) ∨
        (1 ≤ bits v.toNat 3 0 ∧ bits v.toNat 3 0 ≤ 5 ∧ 208 ≤ bits v.toNat 23 16)) →
      ∃ t, exec (.clkoutSelect q v) s = .next t ∧ t.power = s.power ∧
        Recorded s t (Err.plain .deferred 0x03 6 (requesterNum q) 0x050900 v.toNat)) ∧
    (∀ now, now < s.power.clkLowUntil ∨ s.power.clkEnable = false → s.clkoutHigh now = false) ∧
    (∀ n r, s.power.clkEnable = true → s.power.clkSrc = 0 → 0 < s.power.clkDiv → r < 10 →
      s.clkoutHigh (s.power.clkLowUntil + 10 * n + r) = decide (n % (s.power.clkDiv + 1) < (s.power.clkDiv + 2) / 2))

/-- Reset and rails. MRESET_N asserted, or a rail lost, takes every field of the state to its reset value, FATAL, jobs, tiles, queues,
poison codes and keys included; fuses, the boot flash, the stacks' repair logs, host memory with what the host has been told, the
levels of the pins and the waiting commands stay. Each die whose VCORE, VAUX and VHUB stand is first ramped down at its slew limit.
While MRESET_N is low the xSPI pins are in high impedance. A rail that becomes good is noted, with the time at which the last one
did; the release of MRESET_N ends EXTEST; a low that never counted is only counted. REFCLK lost while the module runs makes it FATAL
with a record of its own; where only REFCLK lacks for start-up the ROM waits for it. The honoured throttle state takes the
filter output at once unless it changed within 50 µs, and otherwise when that time ends; while it is active every die's goal is
P7. Start-up begins once, 1 ms after the last rail became good. Reset in one step, what of the list outlasts it and the honoured
state at the filter row are the model's choice, log 67, and so is the row at which a filtered low is counted. -/
def Obligations.ResetsPinsAndStart : Prop :=
  ((∀ s : State, ∃ t, exec .mresetAssert s = .next t ∧
     t = { State.reset with
       pending := s.pending, clock := t.clock, freeCount := s.freeCount, msix := s.msix, pageRequests := s.pageRequests
       mem := t.mem, flash := s.flash, hbm := t.hbm
       trust := { State.reset.trust with
         revoked := s.trust.revoked, svnTrusted := s.trust.svnTrusted, svnService := s.trust.svnService }
       pins := { State.reset.pins with
         railsGood := s.pins.railsGood, refclk := s.pins.refclk, mreset := true, throttleFilter := s.pins.throttleFilter
         goodSince := s.pins.goodSince, xspiHighZ := true }
       power := { State.reset.power with refclkOk := s.power.refclkOk } } ∧
     s.clock ≤ t.clock ∧
     (∀ d, d < 4 → Tab.at s.pins.railsGood false d = true → Tab.at s.pins.railsGood false 5 = true →
       Tab.at s.pins.railsGood false 10 = true → 0 < s.slewStep d → 200 * (s.die d).spent ≤ (t.clock - s.clock) * s.slewStep d) ∧
     (∀ k, k < 12 → t.stack k = { Stack.reset with repairLog := (s.stack k).repairLog, fuses := (s.stack k).fuses }) ∧
     t.pins.alertN = true ∧ t.pins.thermtripN = true ∧ t.errs.fatal = false ∧ t.jobs = [] ∧ t.linePoison = [] ∧
     ∀ a, Memory.get t.mem a = if 2 ^ 63 ≤ a then Memory.get s.mem a else 0) ∧
   (∀ (r : Nat) (s : State), r < 11 → ∃ t u, exec (.railLost r) s = .next t ∧ Tab.at t.pins.railsGood true r = false ∧
     exec .mresetAssert s = .next u ∧ s.clock ≤ t.clock ∧ t.clock ≤ u.clock ∧
     t = { u with
       clock := t.clock
       pins := { u.pins with mreset := s.pins.mreset, railsGood := t.pins.railsGood, xspiHighZ := s.pins.mreset } } ∧
     ∀ k, k ≠ r → Tab.at t.pins.railsGood true k = Tab.at s.pins.railsGood true k) ∧
   (∀ (r : Nat) (s : State), r < 11 → ∃ t, exec (.railGood r) s = .next t ∧ Tab.at t.pins.railsGood false r = true ∧
     (∀ k, k ≠ r → Tab.at t.pins.railsGood false k = Tab.at s.pins.railsGood false k) ∧
     t = { s with
       pins := { s.pins with railsGood := t.pins.railsGood, goodSince := t.pins.goodSince }
       boot := { s.boot with waitRefclk := s.boot.waitRefclk ||
         (!s.boot.begun && !s.pins.mreset && t.pins.allGood && !s.pins.refclk) } } ∧
     (t.pins.allGood = true → s.pins.allGood = false → t.pins.goodSince = s.clock)) ∧
   (∀ s : State, (s.pins.mreset = false → exec .mresetRelease s = .next (s.count .mresetFiltered 0 1)) ∧
     (s.pins.mreset = true → exec .mresetRelease s = .next { s with
       pins := { s.pins with mreset := false, xspiHighZ := false }
       jtag := if s.jtag.instr = .extest then { s.jtag with instr := .bypass, driving := false } else s.jtag
       boot := { s.boot with waitRefclk := s.boot.waitRefclk || (!s.boot.begun && s.pins.allGood && !s.pins.refclk) } }))) ∧
  ((∀ s : State, s.pins.mreset = false → s.pins.allGood = true →
     (s.boot.begun = true → ∃ t, exec .refclkLost s = .next t ∧ t.errs.fatal = true ∧ t.pins.refclk = false ∧ t.power.locked = false ∧
       t.pins.alertN = false ∧ Recorded s t (Err.plain .fatal 0x31 8 3 0 0)) ∧
     (s.boot.begun = false → exec .refclkLost s = .next { s with
       pins := { s.pins with refclk := false }
       power := { s.power with refclkOk := false }
       boot := { s.boot with waitRefclk := true } })) ∧
   (∀ (a : Bool) (s : State), ∃ t, exec (.throttleFilter a) s = .next t ∧ t.pins.throttleFilter = a ∧ t.clock = s.clock ∧
     ((∀ c, s.pins.throttleChanged = some c → c + 50000 ≤ s.clock) → t.pins.throttle = a ∧
       (s.pins.throttle ≠ a → t.pins.throttleChanged = some s.clock) ∧ (s.pins.throttle = a → t.pins.throttleChanged = s.pins.throttleChanged)) ∧
     (∀ c, s.pins.throttleChanged = some c → s.clock < c + 50000 →
       t = { s with pins := { s.pins with throttleFilter := a } } ∧
       ∃ u, exec .throttleHonour t = .next u ∧ u.pins.throttle = a ∧ u.clock = c + 50000)) ∧
   (∀ (d : Nat) (s : State), s.pins.throttle = true → s.goal d = 7) ∧
   (∀ s : State, s.boot.begun = false → s.pins.mreset = false → s.pins.allGood = true → ∃ t, exec .startupBegin s = .next t ∧
     t.boot.begun = true ∧ t.boot.t0 = max s.clock (s.pins.goodSince + 1000000) ∧ t.clock = t.boot.t0 ∧ t.boot.stage = State.reset.boot.stage ∧
     t.power.nextSlot = t.clock + 200 ∧ t.power.nextWindow = t.clock + 1000) ∧
   (∀ s : State, s.boot.begun = true → exec .startupBegin s = .next s))

/-- Start-up runs its stages in order: a stage acts in its turn only, and one that passes is followed by the next; the firmware stages run the first flash slot
whose image passes every check, slot A before slot B, and with neither they wait at the boot mailbox; a stopping failure leaves
STOPPED with the stage's code and detail and ALERT_N asserted. The last stage ends start-up, with every counter 0. The boot
mailbox. START opens it for the awaited kind only; PUSH appends up to 128 bytes of the image begun; ABORT discards what has come; a START or
PUSH that is not allowed is discarded with an event. The last byte brings the check, whose code is kept: an image that passes
lets the stage go on; after any other the mailbox is as before it. The order within a BOOT_CTRL write and the bound of BOOT_LEN are the
model's choice, log 70; each stage as one command, and which of several failing stacks or dies is named, are the model's choice,
logs 31 and 59; the counters that are 0 at the end are the model's choice, log 63. -/
def Obligations.StagesAndBootMailbox : Prop :=
  ((∀ s : State, s.inStage 1 = true →
     (exec (.stageRom none) s = .next { s with power := { s.power with locked := true, fixed := Config.pacerFixed }, boot := { s.boot with stage := 2 } }) ∧
     ∀ r, ∃ t, exec (.stageRom (some r)) s = .next t ∧ t.boot = { s.boot with stopped := true, code := 1, detail := r } ∧ t.pins.alertN = false) ∧
   (∀ (kind : Nat) (c : Instr) (a b : List Byte) (s : State),
     (kind = 1 ∧ c = .stageTrusted ∧ s.inStage 2 = true) ∨ (kind = 2 ∧ c = .stageService ∧ s.inStage 6 = true) →
     a = s.flashImage kind (if kind = 1 then 0 else 0x1000000) → b = s.flashImage kind (if kind = 1 then 0x40000 else 0x2000000) →
     (∀ img src, (firmwareCode s.trust kind a = 0 ∧ img = a ∧ src = 0) ∨
         (firmwareCode s.trust kind a ≠ 0 ∧ firmwareCode s.trust kind b = 0 ∧ img = b ∧ src = 1) →
       ∃ t, exec c s = .next t ∧ t.boot = { s.boot with stage := s.boot.stage + 1, resultCode := 0, resultSource := src } ∧
         (kind = 1 → t.trust.trusted = some (Image.parse img) ∧ t.trust.udsLocked = true ∧ t.trust.service = s.trust.service) ∧
         (kind = 2 → t.trust.service = some (Image.parse img) ∧ t.trust.serviceRunning = true ∧ t.trust.trusted = s.trust.trusted)) ∧
     (firmwareCode s.trust kind a ≠ 0 → firmwareCode s.trust kind b ≠ 0 → ∃ t, exec c s = .next t ∧ t.trust = s.trust ∧
       t.boot = { s.boot with waiting := true, code := kind + 1, resultCode := firmwareCode s.trust kind b, resultSource := 1 })) ∧
   (∀ (l : List StackReport) (s : State), s.inStage 3 = true → l.length ≤ 12 →
     (l.all (fun r => r.trained && r.sparesEnough) = true → ∃ t, exec (.stageHbm l) s = .next t ∧ t.boot = { s.boot with stage := 4 }) ∧
     (∀ k r, l[k]? = some r → (l.take k).all (fun r => r.trained && r.sparesEnough) = true → (r.trained && r.sparesEnough) = false →
       ∃ t, exec (.stageHbm l) s = .next t ∧
         t.boot = { s.boot with stopped := true, code := if r.trained then 5 else 4, detail := k } ∧ t.pins.alertN = false)) ∧
   (∀ (f : List (List Nat)) (s : State), s.inStage 4 = true →
     (∀ d, d < 4 → (∀ e, e < d → 52 ≤ (passingSites (f.getD e [])).length) → (passingSites (f.getD d [])).length < 52 → ∀ b,
       ∃ t, exec (.stageTiles f b) s = .next t ∧ t.boot = { s.boot with stopped := true, code := 6, detail := d } ∧ t.pins.alertN = false) ∧
     ((∀ d, d < 4 → 52 ≤ (passingSites (f.getD d [])).length) →
       (∀ b, ∃ t, exec (.stageTiles f (some b)) s = .next t ∧ t.boot = { s.boot with stopped := true, code := 7, detail := b } ∧ t.pins.alertN = false) ∧
       ∃ t, exec (.stageTiles f none) s = .next t ∧ t.boot = { s.boot with stage := 5 } ∧
         ∀ d i, d < 4 → i < 52 → (t.tile (52 * d + i)).site = (passingSites (f.getD d [])).getD i 0 ∧ (t.tile (52 * d + i)).die = d ∧
           Tab.at t.spares [] d = (passingSites (f.getD d [])).drop 52)) ∧
   (∀ s : State, s.inStage 5 = true → ∃ t, exec .stageWipe s = .next t ∧ t.boot = { s.boot with stage := 6 } ∧
     (∀ a, a < 2 ^ 63 → Memory.get t.mem a = 0) ∧ (∀ a, 2 ^ 63 ≤ a → Memory.get t.mem a = Memory.get s.mem a) ∧ t.linePoison = [] ∧
     t.trust.owner = List.replicate 48 0 ∧ t.trust.sessions = [] ∧ (∀ k, t.pset k = none ∧ t.pricking k = none) ∧ t.mode = State.reset.mode ∧
     ∀ x, x < 208 → (t.tile x).marks = [] ∧ (t.tile x).vregs = Tile.reset.vregs ∧ (t.tile x).store = []) ∧
   (∀ (a b : Bool) (n : Nat) (s : State), s.inStage 7 = true →
     (a = false → b = false → ∃ t, exec (.stageUcie a b n) s = .next t ∧ t.boot = { s.boot with stopped := true, code := 8, detail := 0 } ∧ t.pins.alertN = false) ∧
     (a = true ∨ b = true → ∃ t, exec (.stageUcie a b n) s = .next t ∧ t.boot = { s.boot with stage := 8 } ∧ t.link.state = .up)) ∧
   (∀ s : State, s.inStage 8 = true → ∃ t, exec .stageCxl s = .next t ∧ t.boot = { s.boot with stage := 9 } ∧
     t = { s with boot := t.boot, tele := [] }) ∧
   (∀ (r : Option Nat) (l : List StackReport) (f : List (List Nat)) (b : Option Nat) (x y : Bool) (n : Nat) (s : State),
     ∀ p ∈ [(Instr.stageRom r, 1), (.stageTrusted, 2), (.stageHbm l, 3), (.stageTiles f b, 4), (.stageWipe, 5), (.stageService, 6),
       (.stageUcie x y n, 7), (.stageCxl, 8)], s.inStage p.2 = false → exec p.1 s = .next s)) ∧
  (∀ s : State, s.serves .sideband = true →
     (∀ k, k < 4 → s.boot.waiting = true → k = s.boot.awaited → exec (.bootStart k) s =
       .next { s.unlatch with boot := { s.boot with ctrlKind := k, image := some [], offset := 0 } }) ∧
     (∀ k, k < 4 → (s.boot.waiting = false ∨ k ≠ s.boot.awaited) → ∃ t, exec (.bootStart k) s = .next t ∧
       t.boot = s.boot ∧ Recorded s t (Err.plain .deferred 0x03 6 (requesterNum .sideband) 0x100 (k + 0x10))) ∧
     (s.boot.ctrlKind < 4 → s.boot.image = none → ∃ t, exec .bootPush s = .next t ∧ t.boot = s.boot ∧
       Recorded s t (Err.plain .deferred 0x03 6 (requesterNum .sideband) 0x100 (s.boot.ctrlKind + 0x20))) ∧
     (∀ got img, s.boot.ctrlKind < 4 → s.boot.image = some got → img = got ++ s.boot.data.take (min 128 (s.boot.len - got.length)) →
       (img.length < s.boot.len → exec .bootPush s = .next { s.unlatch with boot := { s.boot with image := some img, offset := img.length } }) ∧
       (s.boot.len ≤ img.length → firmwareCode s.trust s.boot.awaited img ≠ 0 → exec .bootPush s = .next { s.unlatch with
         boot := { s.boot with image := none, offset := img.length, resultCode := firmwareCode s.trust s.boot.awaited img, resultSource := 2 } }) ∧
       (s.boot.len ≤ img.length → firmwareCode s.trust s.boot.awaited img = 0 → ∃ t, exec .bootPush s = .next t ∧ t.boot.waiting = false ∧
         t.boot.code = 0 ∧ t.boot.resultCode = 0 ∧ t.boot.resultSource = 2 ∧ t.boot.image = none ∧
         (s.boot.stage = 2 → t.boot.stage = 3 ∧ t.trust.trusted = some (Image.parse img)) ∧
         (s.boot.stage = 6 → t.boot.stage = 7 ∧ t.trust.service = some (Image.parse img)))) ∧
     (s.boot.ctrlKind < 4 → exec .bootAbort s = .next { s.unlatch with boot := { s.boot with image := none, offset := 0 } }))

/-- The security mailbox. Each command ends with its result: OWNER_CHANGE and a verified DEBUG_UNLOCK, only while HALTED, begin a
change of owner that clears memory, sessions and parameter sets and stays BUSY until it is done; DEBUG_NONCE answers a nonce
of 48 free bytes; a token that does not verify consumes the nonce; SVN_COMMIT raises the fused versions to those that run and revokes the
keys before the one that verified, unless a job is admitted or a fuse fails; IDENTITY answers the device's public key, the owner
and DEBUG. An unknown command or a wrong length is BAD_CMD; a GO while BUSY is discarded. Which failures keep the nonce is the
model's choice, log 65; that memory, sessions and parameter sets are clear in the step of the GO already is log 58's. -/
def Obligations.SecurityMailbox : Prop :=
  ∀ s : State, s.mbxServes = true → s.errs.fatal = false → s.mbx.busy = false →
    (s.mbx.len = 48 → s.halt = .halted → ∃ t, exec (.ownerChange .mainband) s = .next t ∧ t.mbx.busy = true ∧ t.trust.changing = some (slice s.mbx.data 0 48) ∧
      t.trust.owner = slice s.mbx.data 0 48 ∧ t.trust.debug = s.trust.debug ∧ t.trust.sessions = [] ∧ t.trust.revoked = s.trust.revoked ∧
      t.trust.svnTrusted = s.trust.svnTrusted ∧ t.trust.svnService = s.trust.svnService ∧ (∀ k, t.pset k = none ∧ t.pricking k = none) ∧
      (∀ a, Memory.get t.mem a = if 2 ^ 63 ≤ a then Memory.get s.mem a else 0) ∧
      ∃ u, exec .ownerChangeDone t = .next u ∧ u.mbx.busy = false ∧ u.mbx.result = 0 ∧ u.trust.changing = none ∧ u.trust.owner = t.trust.owner ∧ u.halt = s.halt) ∧
    (s.mbx.len = 48 → s.halt ≠ .halted → exec (.ownerChange .mainband) s =
      .next { s.unlatch with mbx := { s.mbx with cmd := 1, busy := false, result := 2, outLen := 0 } }) ∧
    (s.mbx.len = 0 → ∃ t n, exec (.debugNonce .mainband) s = .next t ∧ n.length = 48 ∧ t.trust = { s.trust with nonce := some n } ∧
      n = (List.range 48).map (Config.freeByte s.freeCount) ∧ t.freeCount = s.freeCount + 1 ∧
      t.mbx.result = 0 ∧ t.mbx.outLen = 48 ∧ t.mbx.data.take 48 = n) ∧
    (s.mbx.len = 144 → s.halt ≠ .halted → exec (.debugUnlock .mainband) s =
      .next { s.unlatch with mbx := { s.mbx with cmd := 3, busy := false, result := 2, outLen := 0 } }) ∧
    (s.mbx.len = 144 → s.halt = .halted → s.tokenOk (slice s.mbx.data 0 144) = false → exec (.debugUnlock .mainband) s =
      .next { s.unlatch with
        trust := { s.trust with nonce := none }
        mbx := { s.mbx with cmd := 3, busy := false, result := 3, outLen := 0 } }) ∧
    (s.mbx.len = 144 → s.halt = .halted → s.tokenOk (slice s.mbx.data 0 144) = true → ∃ t, exec (.debugUnlock .mainband) s = .next t ∧
      t.mbx.busy = true ∧ t.trust.debug = true ∧ t.trust.nonce = none ∧ t.trust.owner = List.replicate 48 0 ∧
      t.trust.changing = some (List.replicate 48 0) ∧ t.trust.sessions = [] ∧ (∀ k, t.pset k = none ∧ t.pricking k = none) ∧
      ∀ a, Memory.get t.mem a = if 2 ^ 63 ≤ a then Memory.get s.mem a else 0) ∧
    (s.mbx.len = 0 → (s.jobs ≠ [] → exec (.svnCommit .mainband true) s =
        .next { s.unlatch with mbx := { s.mbx with cmd := 4, busy := false, result := 5, outLen := 0 } }) ∧
      (s.jobs = [] → exec (.svnCommit .mainband false) s =
        .next { s.unlatch with mbx := { s.mbx with cmd := 4, busy := false, result := 4, outLen := 0 } }) ∧
      ∀ a b, s.trust.trusted = some a → s.trust.service = some b → s.jobs = [] → ∃ t, exec (.svnCommit .mainband true) s = .next t ∧
        t.mbx.result = 0 ∧ t.mbx.outLen = 2 ∧ t.trust.svnTrusted = max s.trust.svnTrusted a.svn ∧ t.trust.svnService = max s.trust.svnService b.svn ∧
        t.trust.revoked = s.trust.revoked ||| BitVec.ofNat 4 (2 ^ a.keyIndex - 1)) ∧
    (s.mbx.len = 0 → ∃ t o, exec (.identity .mainband) s = .next t ∧
      o = pubBytes ((s.trust.deviceId.map (·.pub)).getD none) ++ s.trust.owner ++ [if s.trust.debug then 1 else 0] ∧
      t.mbx.result = 0 ∧ t.mbx.outLen = o.length ∧ t.mbx.data.take o.length = o ∧ t.trust = s.trust) ∧
    (∀ c, mailboxLen c = none → exec (.mailboxBadCmd .mainband c) s =
      .next { s.unlatch with mbx := { s.mbx with cmd := c % 256, busy := false, result := 1, outLen := 0 } }) ∧
    (∀ blown, ∀ p ∈ [(Instr.ownerChange .mainband, 1, 48), (.debugNonce .mainband, 2, 0), (.debugUnlock .mainband, 3, 144),
      (.svnCommit .mainband blown, 4, 0), (.identity .mainband, 5, 0)],
      (s.mbx.len ≠ p.2.2 → exec p.1 s =
        .next { s.unlatch with mbx := { s.mbx with cmd := p.2.1, busy := false, result := 1, outLen := 0 } }) ∧
      ∀ m : Mailbox, m.busy = true → ∃ t, exec p.1 { s with mbx := m } = .next t ∧ t.mbx = m ∧ t.trust = s.trust ∧
        Recorded s t (Err.plain .deferred 0x03 6 (requesterNum .mainband) 0x060000 (0x100 + p.2.1)))

/-- SPDM. Before Ready a request is answered with retry status, and during a change of owner with Busy. Otherwise the device answers
the version, the capabilities and algorithms of its table, and the digest of its chain; certificates and challenges for slot 0 only,
the chain being what the boot flash holds and the Alias certificate; the five measurement blocks with their values and no other; a
signature is a free value; a key exchange opens a session, at most four at once; a message in an open session is acknowledged,
an IDE_KM programs the link's keys, an END_SESSION closes the session. A session that asked for heartbeats ends when they stop;
another does not. The form of a measurement block, the parts of the chain, the free signatures and the answers to a fifth session
and to a message in none are the model's choice, log 30. -/
def Obligations.SpdmAnswers : Prop :=
  (∀ (r : SpdmRequest) (s : State), s.mbxServes = true → s.boot.stage < 9 → exec (.spdmRequest r) s = .next { s with resp := .retry }) ∧
  (∀ (r : SpdmRequest) (s : State), s.mbxServes = true → 9 ≤ s.boot.stage → s.trust.changing.isSome = true →
    exec (.spdmRequest r) s = .next { s with resp := .spdm .errorBusy }) ∧
  (∀ s : State, s.mbxServes = true → 9 ≤ s.boot.stage → s.trust.changing = none →
    exec (.spdmRequest .getVersion) s = .next { s with resp := .spdm (.version 0x13) } ∧
    exec (.spdmRequest .getCapabilities) s = .next { s with resp := .spdm (.capabilities
      [.cert, .chal, .measSig, .keyEx, .encrypt, .mac, .hbeat, .keyUpd]) } ∧
    exec (.spdmRequest .negotiateAlgorithms) s = .next { s with resp := .spdm (.algorithms
      [.ecdsaP384, .sha384, .dheSecp384r1, .aes256Gcm, .spdmKeySchedule]) } ∧
    exec (.spdmRequest .getDigests) s = .next { s with resp := .spdm (.digests [(0, sha384 s.certChain)]) } ∧
    (∀ i, i < 0x10000 → s.certChain.getD i 0 = Memory.get s.flash (0x80000 + i)) ∧
    (∀ c, s.trust.aliasCert = some c → s.certChain.drop 0x10000 = c.subject ++ c.signature) ∧
    (∀ k, exec (.spdmRequest (.getCertificate k)) s =
        .next { s with resp := .spdm (if k = 0 then .certificate 0 s.certChain else .errorUnsupported) } ∧
      (k = 0 → ∃ nonce sig, nonce.length = 32 ∧ sig.length = 96 ∧ exec (.spdmRequest (.challenge k)) s =
        .next { s with resp := .spdm (.challengeAuth (sha384 s.certChain) nonce sig), freeCount := s.freeCount + 1 }) ∧
      (k ≠ 0 → exec (.spdmRequest (.challenge k)) s = .next { s with resp := .spdm .errorUnsupported }) ∧
      exec (.spdmRequest (.unsupported k)) s = .next { s with resp := .spdm .errorUnsupported }) ∧
    (∀ b type v, (b = 1 ∧ type = 0 ∧ v = (List.range 48).map Config.romDigestByte) ∨
        (b = 2 ∧ type = 1 ∧ (∃ m, s.trust.trusted = some m ∧ v = m.measure)) ∨
        (b = 3 ∧ type = 1 ∧ (∃ m, s.trust.service = some m ∧ v = m.measure)) ∨
        (b = 4 ∧ type = 0x82 ∧ v = [BitVec.ofNat 8 s.trust.svnTrusted, BitVec.ofNat 8 s.trust.svnService,
          BitVec.ofNat 8 s.trust.revoked.toNat, if s.trust.debug then 1 else 0]) ∨
        (b = 5 ∧ type = 3 ∧ v = s.trust.owner) →
      ∃ sig, sig.length = 96 ∧ exec (.spdmRequest (.getMeasurements b)) s = .next { s with
        resp := .spdm (.measurement b (leBytes 1 type ++ leBytes 2 v.length ++ v) sig), freeCount := s.freeCount + 1 }) ∧
    (∀ b, b = 0 ∨ 5 < b → exec (.spdmRequest (.getMeasurements b)) s = .next { s with resp := .spdm .errorUnsupported }) ∧
    (∀ hb, s.trust.sessions.length < 4 → ∃ t, exec (.spdmRequest (.keyExchange 0 hb)) s = .next t ∧
      t.trust = { s.trust with
        sessions := s.trust.sessions ++ [{ id := s.trust.nextSession, heartbeat := hb, lastMessage := s.clock }]
        nextSession := s.trust.nextSession + 1 } ∧ t.resp = .spdm (.sessionOpened s.trust.nextSession)) ∧
    (∀ hb, 4 ≤ s.trust.sessions.length → exec (.spdmRequest (.keyExchange 0 hb)) s = .next { s with resp := .spdm .errorOpen }) ∧
    (∀ id, s.trust.sessions.any (fun x => x.id == id) = false →
      ∀ r ∈ [SpdmRequest.finish id, .heartbeat id, .keyUpdate id, .ideKm id, .endSession id],
        exec (.spdmRequest r) s = .next { s with resp := .spdm .errorOpen }) ∧
    (∀ id, s.trust.sessions.any (fun x => x.id == id) = true → ∃ t, exec (.spdmRequest (.finish id)) s = .next t ∧
      exec (.spdmRequest (.heartbeat id)) s = .next t ∧ exec (.spdmRequest (.keyUpdate id)) s = .next t ∧ t.resp = .spdm .ack ∧
      t.trust.sessions = s.trust.sessions.map (fun x => if x.id == id then { x with lastMessage := s.clock } else x) ∧
      exec (.spdmRequest (.ideKm id)) s = .next { t with link := { s.link with ide := true } } ∧
      ∃ u, exec (.spdmRequest (.endSession id)) s = .next u ∧ u.trust.sessions.any (fun x => x.id == id) = false ∧
        u.resp = .spdm .ack)) ∧
  (∀ (id : Nat) (s : State), (s.trust.sessions.any (fun x => x.id == id && x.heartbeat) = true → exec (.spdmHeartbeatTimeout id) s =
      .next { s with trust := { s.trust with sessions := s.trust.sessions.filter (fun x => x.id != id) } }) ∧
    (s.trust.sessions.any (fun x => x.id == id && x.heartbeat) = false → exec (.spdmHeartbeatTimeout id) s = .next s))

/-- The service cluster. A heartbeat is noted; 100 ms after the last one the service firmware starts anew with no poison request
waiting, if both signatures of its image verify, and the module runs again; with no job admitted a CONTAINED error is recorded. An access outside its windows reads zeros
or is discarded, and is recorded with its address; one inside is not denied. The I3C target and the JTAG port. A private read by the dynamic address
answers the 64-byte status block with its check value, a private write is refused; with no dynamic address assigned nothing is
read. JTAG instructions act where the module's state allows them and as BYPASS otherwise: EXTEST only in reset, the debug
networks only while running with DEBUG set. The error source of the service cluster and the restart as one step are the model's
choice, log 69; the condition for a status read is the model's choice, log 64; a port without its rails is the model's choice,
log 66, and so are the cells of the boundary register and the pins whose levels are free. -/
def Obligations.ServiceTestAndManagement : Prop :=
  ((∀ s : State, s.trust.serviceRunning = true → s.errs.fatal = false →
     exec .svcHeartbeat s = .next { s with trust := { s.trust with heartbeat := s.clock } } ∧
     (s.trust.changing = none → ∃ t, exec .heartbeatMissed s = .next t ∧ t.halt = .running ∧ t.poisonRequests = [] ∧
       t.trust.serviceRunning = (s.trust.service.isSome && imageSigned s.trust.serviceImage) ∧ t.trust.heartbeat = t.clock ∧ s.trust.heartbeat + 100000000 ≤ t.clock ∧
       (s.jobs = [] → Recorded s t (Err.plain .contained 0x23 8 1 0 0)))) ∧
   (∀ (w : Bool) (a : DWord) (v : Word) (s : State), s.trust.serviceRunning = true →
     (s.trust.windows.any (fun x => decide (x.1 ≤ a.toNat) && decide (a.toNat < x.2)) = true → exec (.svcDenied w a v) s = .next s) ∧
     (s.trust.windows.all (fun x => decide (a.toNat < x.1) || decide (x.2 ≤ a.toNat)) = true → ∃ t, exec (.svcDenied w a v) s = .next t ∧
       (w = false → t.resp = .word 0) ∧ (w = true → t.resp = s.resp) ∧ t.mem = s.mem ∧ t.trust = s.trust ∧
       Recorded s t (Err.plain .deferred 0x0D 8 1 a.toNat 0)))) ∧
  ((∀ s : State, s.i3cServed = true → (∀ a, a < 128 → exec (.i3cDynamicAddressAssignment a) s = .next { s with pins := { s.pins with i3cAddr := some a } }) ∧
     (s.pins.i3cAddr = none → exec .i3cStatusRead s = .next s) ∧
     (s.pins.i3cAddr.isSome = true → ∃ t b, exec .i3cStatusRead s = .next t ∧ t = { s with resp := .data b false, pins := { s.pins with i3cInterrupt := false } } ∧
       b.length = 64 ∧ slice b 0 4 = leBytes 4 0x12167A19 ∧ slice b 8 4 = leBytes 4 s.errs.statusWord ∧ crcAgrees b 64 = true)) ∧
   (∀ (l : List Byte) (s : State), exec (.i3cPrivateWrite l) s = .next { s with resp := .nack }) ∧
   (∀ s : State,
     (s.pins.allGood = true → exec .jtagIdcode s = .next { s with jtag := { s.jtag with instr := .idcode, driving := false }, resp := .word 0x11216F33 } ∧
       ∀ b, ∃ l, exec (.jtagSamplePreload b) s = .next { s with
         jtag := { s.jtag with instr := .samplePreload, driving := false, boundary := boundaryOf b }
         resp := .pins l, freeCount := s.freeCount + 1 } ∧ l.length = boundaryCells ∧
         l.take 5 = [s.clkoutHigh s.clock, !s.pins.mreset, !s.pins.throttleFilter, s.pins.alertN, s.pins.thermtripN]) ∧
     (s.pins.allGood = false → ∀ b, ∀ c ∈ [Instr.jtagIdcode, .jtagSamplePreload b],
       exec c s = .next { s with jtag := { s.jtag with instr := .bypass, bypassBit := false, driving := false } }) ∧
     (exec .jtagBypass s = .next { s with jtag := { s.jtag with instr := .bypass, bypassBit := false, driving := false } }) ∧
     (∀ b, exec (.jtagExtest b) s = .next { s with jtag := if s.pins.allGood && s.pins.mreset
       then { s.jtag with instr := .extest, driving := true, boundary := boundaryOf b } else { s.jtag with instr := .bypass, bypassBit := false, driving := false } }) ∧
     (∀ k, exec (.jtagIeee1838Access k) s = .next { s with jtag := if s.pins.allGood && !s.pins.mreset && s.trust.debug
       then { s.jtag with instr := .ieee1838 k, driving := false } else { s.jtag with instr := .bypass, bypassBit := false, driving := false } }) ∧
     (∀ k, exec (.jtagIeee1687Access k) s = .next { s with jtag := if s.pins.allGood && !s.pins.mreset && s.trust.debug
       then { s.jtag with instr := .ieee1687 k, driving := false } else { s.jtag with instr := .bypass, bypassBit := false, driving := false } })))

/-- Every command of the NTE, AUE, BCE and the stream form of the VE, on a started macro-operation of its opcode whose read ranges
hold no uncorrectable word, completes: each output batch gets its words and its record by the opcode's row of Table CT.5. AUTO by
index tensor stops instead with the line where its index reaches a poisoned line and an output is not poisoned. Effects at once
are the model's choice, log 22; the inputs that a sum or maximum of the table leaves out are log 77's. -/
def Obligations.PolynomialCommandsComplete : Prop :=
  ∀ (s : State) (t seq : Nat) (c : Ctx) (a v : View), c.view 0 = some a → c.view 2 = some v →
    (s.workable t seq (fun w => w.family == 0) c → exec (.ntt t seq) s =
      .next (s.engineEffect c v (fun _ => keepRule 0) (nttData (bit c.w.imm 0) a))) ∧
    (s.workable t seq (fun w => w.family == 1) c → exec (.intt t seq) s =
      .next (s.engineEffect c v (fun _ => keepRule 1) (inttData a))) ∧
    (s.workable t seq (isAuto 0) c → exec (.autoCoefficient t seq) s =
      .next (s.engineEffect c v (fun _ => keepRule 2)
        (fun s d b ref p => mapRows s a d b ref p (fun i row => autoCoeff (p.q i) c.w.galois row)))) ∧
    (s.workable t seq (isAuto 1) c → c.w.chain ≠ 4 → exec (.autoEvaluation t seq) s =
      .next (s.engineEffect c v (fun _ => keepRule 2)
        (fun s d b ref p => mapRows s a d b ref p (fun _ row => autoEval p.logN c.w.galois row)))) ∧
    (s.workable t seq (isAuto 1) c → c.w.chain = 4 → exec (.autoEvaluation t seq) s =
      .next (s.commitOut c v (v.outBatches.map (s.autoAddBatch c a v)))) ∧
    (∀ ix, c.view 1 = some ix → s.workable t seq (isAuto 2) c →
      let index := (List.range ix.desc.count).map (fun i => ix.extent (ix.desc.unlinear i))
      let sound := fun b => (s.batchOut c v b (fun _ => keepRule 2) noExtra (autoIndexData c a s v b)).flags = 0
      ((s.badLine index = none ∨ ∀ b ∈ v.outBatches, ¬ sound b) → exec (.autoIndex t seq) s =
        .next (s.engineEffect c v (fun _ => keepRule 2) (autoIndexData c a))) ∧
      (∀ l, s.badLine index = some l → (∃ b ∈ v.outBatches, sound b) → exec (.autoIndex t seq) s =
        .next (s.stopMop c (.memLine l)))) ∧
    (s.workable t seq (fun w => w.family == 3) c → exec (.extract t seq) s =
      .next (s.engineEffect c v (fun _ ref => { keepRule 3 ref with
          level := 0, domain := 2, comps := derivedComps s ref v.desc 2 (fun p => p.n + 1) })
        (fun s d b _ p => rowOut d 0 0 b (extractLwe (p.q 0) (c.w.immBits 16 0)
          (s.readRow a a.n 0 0 (a.batchFor d b)) (s.readRow a a.n 0 1 (a.batchFor d b)))))) ∧
    (s.workable t seq (fun w => w.family == 4) c → exec (.modup t seq) s =
      .next (s.engineEffect c v (fun _ => rlweRule 4) (fun s d b ref p => (d.roleIn 3).flatMap fun k =>
        rowsOut d k b (ref.r.level + 1 + p.special) (modupCols p (c.w.immBits 2 0) ref.r.level
          (columns p.n (s.readRows a (ref.r.level + 1) k (a.batchFor d b))))))) ∧
    (s.workable t seq (fun w => w.family == 5) c → exec (.moddown t seq) s =
      .next (s.engineEffect c v (fun _ ref => { rlweRule 5 ref with level := (ref.r.level : Int) - 1, noise := closeNoise s c.w ref })
        (dropData a))) ∧
    (s.workable t seq (fun w => w.family == 6) c → exec (.rescale t seq) s =
      .next (s.engineEffect c v (fun _ ref => { rlweRule 6 ref with
        level := (ref.r.level : Int) - 1, scale := ref.r.scaleInt - (scaleStepOf s ref : Int), noise := closeNoise s c.w ref })
        (dropData a))) ∧
    (s.workable t seq (fun w => w.family == 8) c → exec (.hmul t seq) s =
      .next (s.engineEffect c v (fun ins ref => { rlweRule 8 ref with
        scale := soundSum ins Rec.scaleInt, comps := (soundSum ins (fun r => (r.comps : Int)) - 1).toNat }) (streamData 8 c a))) ∧
    (s.workable t seq (fun w => w.family == 9) c → exec (.pmul t seq) s =
      .next (s.engineEffect c v (fun ins ref => { rlweRule 9 ref with
        scale := ref.r.scaleInt + (if ref.cipher then plainScale ins else 0) }) (streamData 9 c a))) ∧
    (s.workable t seq (fun w => w.family == 10) c → exec (.add t seq) s =
      .next (s.engineEffect c v (fun ins ref => { keepRule 10 ref with comps := maxComps ins }) (streamData 10 c a))) ∧
    (s.workable t seq (fun w => w.family == 11) c → exec (.sub t seq) s =
      .next (s.engineEffect c v (fun ins ref => { keepRule 11 ref with comps := maxComps ins }) (streamData 11 c a))) ∧
    (s.workable t seq (fun w => w.family == 12) c → exec (.neg t seq) s =
      .next (s.engineEffect c v (fun _ => keepRule 12) (streamData 12 c a))) ∧
    (s.workable t seq (fun w => w.family == 13) c → exec (.cmul t seq) s =
      .next (s.engineEffect c v (fun _ ref => { keepRule 13 ref with scale := ref.r.scaleInt + signed 16 (c.w.immBits 15 0) })
        (streamData 13 c a)))

/-- An engine command on a macro-operation that is not ready changes nothing (the model's choice, log 2). One that reads an
uncorrectable scratchpad word writes nothing: the word's granule is marked and the macro-operation stops with that cause. -/
def Obligations.EngineCommandsWaitAndStop : Prop :=
  ∀ (s : State) (t seq : Nat), ∀ p ∈ engineCommands t seq,
    (s.readyCtx t seq p.2 = none → exec p.1 s = .next s) ∧
    (∀ (c : Ctx) (o : Nat), s.readyCtx t seq p.2 = some c → s.badWord c = some o →
      (p.1 = .vprog t seq → s.vprogTurn c = true) →
      ∃ u, exec p.1 s = .next u ∧ (u.tile t).marks.contains (o / 4096) = true ∧
        u.mopOf t seq = some { c.mop with stop := some (.scratchWord o) } ∧
        u.mem = s.mem ∧ u.linePoison = s.linePoison ∧ (u.tile t).vregs = (s.tile t).vregs)

/-- Poison. In the effect of an engine command every flag of an input record is in the output record's flags, and no flag is new
without being there. The macro-operation's effect is taken, with one POISON event when a flag is new and none when the poison is
only inherited. A poisoned batch has no data; where it is the one batch of an output of 32-bit words in the scratchpad, every
byte of its words outside the record copies reads 0 after. -/
def Obligations.PoisonTravels : Prop :=
  ∀ (s : State) (c : Ctx) (v : View) (rule : List (Nat × RecIn) → RecIn → RecRule)
    (data : State → View → Nat → RecIn → Machine.PSet → List ElemOut), s.mopOf c.t c.mop.seq = some c.mop →
    (∀ b, let o := s.batchOut c v b rule noExtra (data s v b)
      (∀ x ∈ s.inputs c b, x.2.r.flags ||| o.flags = o.flags) ∧ o.newFlags ||| o.flags = o.flags ∧ (o.flags ≠ 0 → o.data = [])) ∧
    (let new := orFlags (v.outBatches.map (fun b => (s.batchOut c v b rule noExtra (data s v b)).newFlags))
      ∃ m, (s.engineEffect c v rule data).mopOf c.t c.mop.seq = some m ∧ m.done = true ∧
        m.events = c.mop.events ++ (if new = 0 then [] else
          [Err.ofJob .deferred 0x01 1 c.t c.job c.mop.seq (new + 256 * c.w.family + 65536) 0])) ∧
    (∀ b, s.wcbOk = true → Memory.wf s.mem = true → v.outBatches = [b] → v.buf = none → v.desc.elemBits = 32 →
      (s.batchOut c v b rule noExtra (data s v b)).flags ≠ 0 →
      ∀ ix ∈ ((List.range v.desc.count).map v.desc.unlinear), inBatch v.desc b ix = true → v.holds ix = true → ∀ k, k < 4 →
        (∃ t o, home (v.addr ix + k) = .scratch t o) →
        (v.desc.recorded = true → ∀ j ∈ v.recordShards b, ¬ (v.recordIn b j ≤ v.addr ix + k ∧ v.addr ix + k < v.recordIn b j + 64)) →
        (s.engineEffect c v rule data).readByte (v.addr ix + k) = 0)

/-- What the stream form computes, word by word: exact residues of the sum, the difference, the negation, the product with a
plaintext's words, the product with the constant table, and the sum of products that makes a component of a product of
ciphertexts. The digits of a mask word in an LWE key switch are l digits of b bits, and together they are the word scaled to b·l
bits and rounded to nearest. RESCALE and MODDOWN round: where the rows hold the residues of an integer X, dropping the top
modulus leaves the residues of X divided by it, rounded to nearest; and MODUP's base conversion from one modulus is the exact
residue. -/
def Obligations.WordsAreResidues : Prop :=
  (∀ (s : State) (a v d : View) (k r b i q w : Nat), w < d.n → 0 < q →
     let x := fun c => (s.streamRow d a c r b).getD w 0
     let y := fun c => (s.streamRow d v c r b).getD w 0
     (streamOut s 10 a (some v) d k r b i q).getD w 0 = (x k + y k) % q ∧
     ((streamOut s 11 a (some v) d k r b i q).getD w 0 + y k) % q = x k % q ∧
     (streamOut s 9 a (some v) d k r b i q).getD w 0 = x k * y 0 % q ∧
     (streamOut s 13 a (some v) d k r b i q).getD w 0 = x k * s.tableWord v i % q ∧
     (x k < 2 * q → q ≤ 2 ^ 32 → ((streamOut s 12 a none d k r b i q).getD w 0 + x k) % q = 0 ∧ (streamOut s 12 a none d k r b i q).getD w 0 < q) ∧
     (streamOut s 8 a (some v) d k r b i q).getD w 0 = total ((List.range (k + 1)).map fun j =>
       if j < a.desc.roleExtent 3 ∧ k - j < v.desc.roleExtent 3 then x j * y (k - j) else 0) % q) ∧
  (∀ (q b l a : Nat), 0 < q →
     (lweDigits q b l a).length = l ∧ (∀ d ∈ lweDigits q b l a, d < 2 ^ b) ∧
     total ((List.range l).map fun i => (lweDigits q b l a).getD i 0 * 2 ^ (b * (l - 1 - i))) =
       (a % q * 2 ^ (b * l) + q / 2) / q % 2 ^ (b * l)) ∧
  ((∀ (q t x : Nat), 1 < q → 1 < t → q * invMod (q % t) t % t = 1 → dropRound [(q, x % q)] t (x % t) = (x + q / 2) / q % t) ∧
   (∀ (q t x : Nat), 1 < q → conv [(q, x)] t = x % q % t) ∧
   (∀ (l : Nat) (qs : List Nat) (x : Nat), qs.length = l + 1 → (∀ q ∈ qs, 1 < q) →
     (∀ r, r < l → qs.getD l 1 * invMod (qs.getD l 1 % qs.getD r 1) (qs.getD r 1) % qs.getD r 1 = 1) →
     dropAt l qs (qs.map (x % ·)) = (List.range l).map fun r => (x + qs.getD l 1 / 2) / qs.getD l 1 % qs.getD r 1))

/-- AUTO in coefficient form with an odd Galois element puts red of word j at e = j·g mod 2N where that is below N, and its negation
at e − N otherwise; words below 2q give words below q. EXTRACT at coefficient k keeps coefficient k of the phase: the body plus
the sum of mask words times key words is the coefficient of c0 + c1·s, modulo q and X^N + 1. -/
def Obligations.AutomorphismAndExtract : Prop :=
  (∀ (q g logN : Nat) (a : List Nat), 0 < q → q ≤ 2 ^ 32 → g % 2 = 1 → a.length = 2 ^ logN → (∀ x ∈ a, x < 2 * q) →
     (autoCoeff q g a).length = 2 ^ logN ∧ (∀ x ∈ autoCoeff q g a, x < q) ∧
     (∀ j, j < 2 ^ logN →
       let e := j * g % (2 * 2 ^ logN)
       let x := if q ≤ a.getD j 0 then a.getD j 0 - q else a.getD j 0
       (e < 2 ^ logN → (autoCoeff q g a).getD e 0 = x) ∧
       (2 ^ logN ≤ e → (autoCoeff q g a).getD (e - 2 ^ logN) 0 = if x = 0 then 0 else q - x))) ∧
  (∀ (q k : Nat) (a0 a1 sk : List Nat), 0 < q → q ≤ 2 ^ 32 → a0.length = a1.length → sk.length = a1.length → k < a1.length →
     (∀ x ∈ a0, x < 2 * q) → (∀ x ∈ a1, x < 2 * q) →
     let n := a1.length
     let l := extractLwe q k a0 a1
     l.length = n + 1 ∧
     ((l.getD n 0 : Int) + (((List.range n).map fun j => (l.getD j 0 : Int) * sk.getD j 0)).foldl (· + ·) 0) % q =
       ((a0.getD k 0 : Int) + (((List.range n).map fun j => if j ≤ k then (a1.getD (k - j) 0 : Int) * sk.getD j 0
         else -((a1.getD (n + k - j) 0 : Int) * sk.getD j 0))).foldl (· + ·) 0) % q)

/-- The transforms. For words in the accepted range and ψ with ψ^N = −1 modulo q, word i of NTT is congruent to Σ
a_j·ψ^((2·brv(i)+1)·j), reduced unless LAZY keeps it below 2q; INTT of it is the input reduced; AUTO in evaluation form commutes
with it. -/
def Obligations.TransformsEvaluateAndInvert : Prop :=
  ∀ (q psi logN g : Nat) (keepLazy : Bool) (a : List Nat), 1 < q → q < 2 ^ 32 → 1 ≤ logN → a.length = 2 ^ logN →
    (∀ x ∈ a, x < 2 * q ∧ x < 2 ^ 32) → psi ^ 2 ^ logN % q = q - 1 →
    let b := nttRow q psi logN keepLazy a
    b.length = 2 ^ logN ∧ (∀ x ∈ b, x < if keepLazy ∧ q < 2 ^ 31 then 2 * q else q) ∧
    (∀ i, i < 2 ^ logN → b.getD i 0 % q =
      total ((List.range (2 ^ logN)).map fun j => a.getD j 0 * psi ^ ((2 * brv logN i + 1) * j)) % q) ∧
    (psi * invMod psi q % q = 1 → 2 ^ logN * invMod (2 ^ logN) q % q = 1 → inttRow q psi logN b = a.map (· % q)) ∧
    (g % 2 = 1 → autoEval logN g (nttRow q psi logN false a) = nttRow q psi logN false (autoCoeff q g a))

/-- PACK, VCVT and the three modes of MXP on a started macro-operation whose read ranges hold no uncorrectable word. PACK raises
each word of row 0 to the output's moduli, or places an LWE sample at coefficient COEF, and writes an RLWE record at LEVEL R
with 2 components, with RANGE as R211 says. VCVT converts each element to fixed point at FRAC, CLEAR accumulates and applies its
epilogue, EXPAND decodes weights: each writes a PLAIN record with KEYTAG and NOISE 0, 1 component and the set the word names;
MODULAR keeps its reference input's record with SCALE the sum of both. The words of a batch without poison are exactly those the
manual's formula gives: one for every pair converted, for every row and column of the tile's own, for every row and coefficient.
The macro-operation's effect is taken. Effects at once are the model's choice, log 22; the elements that a conversion pairs, log
51; the rows and columns of a matrix and the records of a batch, log 46; SCALE beside a damaged record, log 77. -/
def Obligations.TypedCommandsComplete : Prop :=
  ∀ (s : State) (t seq : Nat) (c : Ctx) (v : View), c.view 2 = some v →
    (∀ a, c.view 0 = some a →
      (s.workable t seq (fun w => w.family == 18 && w.packSrc == 0) c → exec (.packRaise t seq) s =
        .next ((s.commitOut c v (v.outBatches.map fun b => s.batchOut c v b
          (fun _ ref => { keepRule 18 ref with level := c.w.packRaise, comps := 2, domain := 1 })
          (packRange s c.w)
          (fun _ p => (v.roleIn 3).flatMap fun k => (v.roleIn 2).flatMap fun r => rowOut v r k b
            ((s.readRow a a.n 0 k (a.batchFor v b)).map
              (liftTo (p.q 0) (p.q (p.rowIndex c.w.packRaise r))))))).count .packCount t 1)) ∧
      (s.workable t seq (fun w => w.family == 18 && w.packSrc == 1) c → exec (.packLwe t seq) s =
        .next ((s.commitOut c v (v.outBatches.map fun b => s.batchOut c v b
          (fun _ ref => { keepRule 18 ref with level := c.w.packRaise, comps := 2, domain := 1 })
          (packRange s c.w)
          (fun _ p => (v.roleIn 3).flatMap fun k => (v.roleIn 2).flatMap fun r =>
            let x := s.readRow a a.n 0 0 (a.batchFor v b)
            rowOut v r k b (packLweRow p.lwe.q (p.q (p.rowIndex c.w.packRaise r)) p.n c.w.packCoef k x.dropLast
              (x.getLastD 0))))).count .packCount t 1)) ∧
      (s.workable t seq (fun w => w.family == 15) c → ∃ (u : State) (outs : List BatchOut), exec (.vcvt t seq) s = .next (u.commitOut c v outs) ∧
        u.mem = s.mem ∧ u.tele.get .vcvtCount t = sat (Ctr.vcvtCount).width (s.tele.get .vcvtCount t + 1) ∧ outs.map (·.b) = v.outBatches ∧
        ∀ o ∈ outs, o.record = plainOut c.w.pset 0 (256 * c.w.frac) ∧
          (o.flags = 0 → ∀ e, e ∈ o.data ↔ ∃ i ∈ vcvtPairs a v, inBatch v.desc o.b (v.desc.unlinear i.1) = true ∧
            e.1 = v.desc.unlinear i.1 ∧ toFixed c.job.mode.round (srcVal c.w.srcFmt (s.srcElem a c.w.srcFmt i.2)) c.w.frac
              (draw c.job.roundSeed c.t c.mop.seq i.1) = some e.2))) ∧
    (∀ x w side, c.view 0 = some x → c.view 1 = some w → c.view 3 = some side →
      (s.workable t seq (fun m => m.family == 16 && m.mmode == 0) c → ∃ (u : State) (outs : List BatchOut),
        exec (.mxpModular t seq) s = .next (u.commitOut c v outs) ∧ (c.chain = none → u.mem = s.mem) ∧ outs.map (·.b) = v.outBatches ∧
        ∀ o ∈ outs, let ins := s.matInputs c 1 o.b
         (reference (ins.map (·.2)) = none → o.data = [] ∧ o.record = noReference 2 v.desc) ∧
         ∀ ref, reference (ins.map (·.2)) = some ref →
          o.record = (applyRule s (ins.map (·.2)) ref { keepRule 16 ref with scale := firstScales ins [0, 1] }).1 ∧
          (o.flags = 0 → ∀ e, e ∈ o.data ↔ ∃ p k j, s.pset ref.r.pset = some p ∧ k ∈ v.matRowsIn ∧ j < v.desc.matCols ∧
            inBatch v.desc o.b (v.desc.matAt k j) = true ∧ e.1 = v.desc.matAt k j ∧ e.2 =
            (s.readWord (side.base + 8 * k) * total ((List.range x.desc.matRows).map fun i =>
              modWeight p.lwe.q (s.weight c w side k i x.desc.matRows v.desc.matRows) * s.readElem x (x.desc.matAt i j)) +
              (if j + 1 = v.desc.matCols then s.readWord (side.base + 8 * k + 4) else 0)) % p.lwe.q)) ∧
      (s.workable t seq (fun m => m.family == 16 && m.mmode == 1) c → ∃ (u : State) (outs : List BatchOut),
        exec (.mxpClear t seq) s = .next (u.commitOut c v outs) ∧ u.mem = s.mem ∧ outs.map (·.b) = v.outBatches ∧
        ∀ o ∈ outs, o.record = plainOut c.w.pset 0 (firstScales (s.matInputs c 1 o.b) [0, 1]) ∧
          (o.flags = 0 → ∀ e, e ∈ o.data ↔ ∃ k j, k ∈ v.matRowsIn ∧ j < v.desc.matCols ∧
            inBatch v.desc o.b (v.desc.matAt k j) = true ∧ e.1 = v.desc.matAt k j ∧ e.2 =
            (mxClearWord c side s (mxAccum c x w side s k j x.desc.matRows v.desc.matRows) k (k * v.desc.matCols + j)).1))) ∧
    (∀ w side, c.view 1 = some w → c.view 3 = some side →
      (s.workable t seq (fun m => m.family == 16 && m.mmode == 2) c → ∃ (u : State) (outs : List BatchOut),
        exec (.mxpExpand t seq) s = .next (u.commitOut c v outs) ∧ u.mem = s.mem ∧ outs.map (·.b) = v.outBatches ∧
        ∀ o ∈ outs, ∀ p, s.pset c.w.pset = some p →
          o.record = plainOut c.w.pset (min c.w.mxRows p.chain - 1) (firstScales (s.matInputs c 1 o.b) [1]) ∧
          (o.flags = 0 → ∀ e, e ∈ o.data ↔ ∃ r i, r < c.w.mxRows ∧ v.holdsRole Role.row r = true ∧ i < p.n ∧
            inBatch v.desc o.b (v.desc.place i r 0 0) = true ∧ e.1 = v.desc.place i r 0 0 ∧
            e.2 = modWeight (p.q (p.rowIndex (min c.w.mxRows p.chain - 1) r)) (s.weight c w side 0 i p.n 1))))

/-- VPROG. A started program whose turn has come and whose read ranges hold no uncorrectable word runs: its effect is taken and the
step's free values are used up; a poisoned line of a program on which an unpoisoned output depends stops it instead. Instruction
0 issues in cycle 6 and each next one when the last has run, 16 cycles later before a broadcast; the latency is the end plus 16.
A modular instruction gives exact residues of the row's modulus (a free word where the entry names none, log 5), a word
instruction words modulo 2^32, a clear-domain one binary32 values, each row landing in its cycle after its depth; sums along a
row or down a column, compressions and expansions under a mask, and conversions, where a NaN gives 0 and is reported. NOP does
nothing, LD and LDK land rows of the scratchpad, ST stores rows to it. Programs in order are the model's choice, log 37. -/
def Obligations.VprogRuns : Prop :=
  (∀ (s : State) (t seq : Nat) (c : Ctx), s.workable t seq (fun w => w.family == 14) c → s.vprogTurn c = true →
    (s.badProgram c = none →
      ∃ u, exec (.vprog t seq) s = .next u ∧ (u.mopOf t seq).map (·.done) = some true ∧ u.freeCount = s.freeCount + 1) ∧
    (∀ a, s.badProgram c = some a → exec (.vprog t seq) s = .next (s.stopMop c (.memLine a)))) ∧
  (∀ (slots : Slots) (g : Program), (vIssue slots g).length = g.words.length + 1 ∧ (vIssue slots g).getD 0 0 = 6 ∧
    (vTiming slots g).1 = (vIssue slots g).getD g.words.length 0 + 16 ∧
    ∀ i, i < g.words.length → (vIssue slots g).getD (i + 1) 0 = (vIssue slots g).getD i 0 + vDuration slots (g.words.getD i 0) +
      (if i + 1 < g.words.length ∧ vMem (g.words.getD (i + 1) 0) = false ∧ vBc (g.words.getD (i + 1) 0) ≠ 0 then 16 else 0)) ∧
  (∀ (x : VCtx) (ls : List Landing) (i w c r k : Nat), r < 32 → k < 128 →
    let va := fun r k => (x.tile.readRow ls (vA w) r (c + r)).getD k 0
    let a := va r k
    let b := if vBc w = 0 then (x.tile.readRow ls (vB w) r (c + r)).getD k 0
      else if vBc w = 1 then if vSel w < 32 then (x.tile.readRow ls (vB w) (vSel w) c).getD k 0 else 0
      else if vBc w = 2 then (x.tile.readRow ls (vB w) r c).getD (vSel w) 0
      else (x.tile.readRow ls (vB w) 0 c).getD (vSel w) 0
    let d := (x.tile.readRow ls (vC w) r (c + r)).getD k 0
    let m := (List.range 128).filter fun i => (x.tile.readRow ls (maskReg (vC w)) r (c + r)).getD i 0 ≠ 0
    let lands := fun (e : Nat × Nat) => ∃ row, ((x.compute ls i w c).1)[r]? = some (r, c + r + e.1, row) ∧ row.getD k 0 = e.2
    (∀ q, x.q r = some q → 0 < q → q ≤ 2 ^ 32 →
      (vOp w = 1 → lands (3, (a + b) % q)) ∧
      (vOp w = 2 → ∃ z, lands (3, z) ∧ z < q ∧ (z + b) % q = a % q) ∧
      (vOp w = 3 → a < 2 * q → ∃ z, lands (3, z) ∧ z < q ∧ (z + a) % q = 0) ∧
      (vOp w = 4 → lands (11, a * b % q)) ∧ (vOp w = 5 → lands (12, (a * b + d) % q)) ∧
      (vOp w = 6 → a < 2 * q → lands (3, a % q)) ∧
      (vOp w = 0x18 → lands (10, if k = 0 then total ((List.range 128).map (va r)) % q else 0))) ∧
    (x.q r = none → (vOp w ∈ [1, 2, 3, 6] → lands (3, (Config.freeLane x.free (x.pos + 4096 * i + 128 * r + k)).toNat)) ∧
      (vOp w = 4 → lands (11, (Config.freeLane x.free (x.pos + 4096 * i + 128 * r + k)).toNat)) ∧
      (vOp w = 5 → lands (12, (Config.freeLane x.free (x.pos + 4096 * i + 128 * r + k)).toNat))) ∧
    (∀ e, (vOp w = 8 ∧ e = (2, (a + b) % 2 ^ 32)) ∨ (vOp w = 9 ∧ e = (2, (a + 2 ^ 32 - b) % 2 ^ 32)) ∨
      (vOp w = 0xA ∧ e = (4, a * b % 2 ^ 32)) ∨ (vOp w = 0xB ∧ e = (2, a &&& b)) ∨ (vOp w = 0xC ∧ e = (2, a ||| b)) ∨
      (vOp w = 0xD ∧ e = (2, a ^^^ b)) ∨ (vOp w = 0xE ∧ e = (2, a * 2 ^ (vSel w % 32) % 2 ^ 32)) ∨
      (vOp w = 0xF ∧ e = (2, a / 2 ^ (vSel w % 32))) ∨ (vOp w = 0x10 ∧ e = (1, a)) ∨
      (vOp w = 0x1A ∧ e = (10, if k = 0 then total ((List.range 128).map (va r)) % 2 ^ 32 else 0)) ∨
      (vOp w = 0x1C ∧ e = (4, if k < m.length then va r (m.getD k 0) else 0)) ∨
      (vOp w = 0x1D ∧ k ∉ m ∧ e = (4, 0)) ∨ (vOp w = 0x1D ∧ (∃ j, m[j]? = some k ∧ e = (4, va r j))) ∨
      (vOp w = 0x28 ∧ e = (4, (toFixed x.round (srcVal (vC w) a) (signed 7 (vSel w))
        (draw x.seed x.t x.seq (x.pos + 4096 * i + 128 * r + k))).getD 0)) ∨
      (vOp w = 0x29 ∧ ∃ n p z, intVal (signed 32 a) = .fin n p z ∧ e = (4, toF32 (.fin n p (z - signed 7 (vSel w))))) ∨
      (vOp w = 0x2A ∧ e = (2, if f32 a = .nan ∨ f32 b = .nan then 0x7FC00000 else if ltVal (f32 b) (f32 a) then b else a)) ∨
      (vOp w = 0x2B ∧ e = (2, if f32 a = .nan ∨ f32 b = .nan then 0x7FC00000 else if ltVal (f32 a) (f32 b) then b else a)) ∨
      (vOp w = 0x2C ∧ e = (4, toF32 (addVal (f32 a) (f32 b)))) ∨ (vOp w = 0x2D ∧ e = (4, toF32 (mulVal (f32 a) (f32 b)))) →
      lands e) ∧
    (∀ y, (∃ q, x.q 0 = some q ∧ vOp w = 0x19 ∧ y = total ((List.range 32).map fun r => va r k) % q) ∨
        (vOp w = 0x1B ∧ y = total ((List.range 32).map fun r => va r k) % 2 ^ 32) →
      ∃ row, (x.compute ls i w c).1 = [(0, c + 35, row)] ∧ row.getD k 0 = y) ∧
    ((x.compute ls i w c).2 = true ↔ vOp w = 0x28 ∧ ∃ r k, r < 32 ∧ k < 128 ∧ toFixed x.round (srcVal (vC w) (va r k))
      (signed 7 (vSel w)) (draw x.seed x.t x.seq (x.pos + 4096 * i + 128 * r + k)) = none)) ∧
  (∀ (x : VCtx) (i w c : Nat) (run : VRun) (s : State),
    let o := x.instr i w c (run, s)
    let a := (vTransfer x.slots w).1
    (vOp w = 0 → o = (run, s)) ∧
    (vOp w = 0x20 ∨ vOp w = 0x22 → o.2 = s ∧ ∃ new, o.1.lands = run.lands ++ new ∧ new.length = vCount w ∧
      ∀ k, k < vCount w → ∃ l, new[k]? = some l ∧ l.row = vFirst w + k ∧ l.writer = x.seq ∧
        l.cycle = x.start + c + 32 * rowGroup a (512 * vCount w) k + 31 ∧
        (vOp w = 0x20 → l.reg = vD w ∧ ∀ j, j < 128 → Tab.at l.value 0 j = BitVec.ofNat 32 (s.readWord (a + 512 * k + 4 * j))) ∧
        (vOp w = 0x22 → l.reg = maskReg (vD w) ∧ ∀ j, j < 128 →
          Tab.at l.value 0 j = if s.readWord (a + 512 * k + 4 * j) = 0 then 0 else 1)) ∧
    (vOp w = 0x21 → o.1.lands = run.lands ∧ (x.zeros = [] → o.2 = s.store a ((List.range (vCount w)).flatMap fun k =>
      (x.tile.readRow (x.older ++ run.lands) (vD w) (vFirst w + k) (x.start + c + k)).flatMap (leBytes 4)))) ∧
    (vOp w ≠ 0 → vMem w = false → o.2 = s ∧ o.1.lands = run.lands ++
      (x.compute (x.older ++ run.lands) i w (x.start + c)).1.map fun r =>
        { cycle := r.2.1, reg := vD w, row := r.1, value := vecOf r.2.2, writer := x.seq }))

/-- KSW and PBS act as a group. On a member of a complete, started group: while its verdict, its key words or an object is missing
it holds and writes nothing, and a member that has all it needs waits for the others. Once every member can go on, an
uncorrectable scratchpad word aside, STAGE 2 of a split LWE_KS stops at a poisoned key header and a PBS at a poisoned table block
on which an unpoisoned output depends; otherwise every set's, and every member's, outputs are written and the group's run ends.
An output inherits its inputs' flags; a KSW that streams its key raises the verdict's, one with a marked member FAULTED, one
whose record has other COMPONENTS than its KIND asks RANGE. The last stage writes the KSW row of Table CT.5 with the header's
KEYTAG_OUT, a stage before keeps the reference record. A PBS writes LEVEL 0, the table's SCALE, POST_PBS noise and LWE_N + 1
components. The words of an output without poison are the stage's, or the bootstrap's. One effect for the group is the
model's choice, log 22; the header of a split LWE_KS is read as log 79 says, its split operands as log 47 says; the batches of a
PBS, log 46. -/
def Obligations.GroupCommandsActTogether : Prop :=
  (∀ (s : State) (t seq : Nat) (c : Ctx) (g : GroupRun) (p : Machine.PSet), s.runOf c.ring t seq = some g → s.pset c.w.pset = some p →
    g.allStarted = true →
    (∀ e : Nat × Instr, e ∈ [(1, Instr.kswRelin t seq), (2, .kswGalois t seq), (3, .kswLweKs t seq)] →
      s.readyCtx t seq (fun w => w.family == 7 && w.kswKind == e.1) = some c →
      (s.kswWaits g p t ≠ .none → ∃ u, exec e.2 s = .next u ∧ u.mopOf t seq = some { c.mop with hold := s.kswWaits g p t } ∧
        u.mem = s.mem ∧ (s.kswWaits g p t ≠ .keyRing → u.groups = s.groups)) ∧
      (s.kswWaits g p t = .none →
        ((∃ x ∈ g.tiles, s.kswWaits g p x ≠ .none) → ∃ u, exec e.2 s = .next u ∧
          u.mopOf t seq = some { c.mop with hold := .none } ∧ u.mem = s.mem ∧ u.groups = s.groups) ∧
        ((∀ x ∈ g.tiles, s.kswWaits g p x = .none) → (∀ x ∈ g.tiles, ∀ d, s.memberCtx g x = some d → s.badWord d = none) →
          (∀ a, s.kswBadHeader c = some a → ∃ u, exec e.2 s = .next u ∧
            (u.mopOf t seq).map (·.stop) = some (some (.memLine a)) ∧ u.mem = s.mem) ∧
          (s.kswBadHeader c = none → ∃ w u : State, exec e.2 s = .next u ∧ w.mem = s.mem ∧ w.linePoison = s.linePoison ∧
            u = w.commitGroup c g ((List.range g.sets).map fun k => (k, s.kswSet g k p)) ∧
            (∀ r ∈ u.groups, r.same g = false) ∧
            ∀ x ∈ g.tiles, ∀ d, s.memberCtx g x = some d → (u.mopOf x d.mop.seq).map (·.done) = some true)))) ∧
    (s.readyCtx t seq (fun w => w.family == 17) = some c →
      (s.pbsWaits g p t ≠ .none → ∃ u, exec (.pbs t seq) s = .next u ∧ u.mopOf t seq = some { c.mop with hold := s.pbsWaits g p t } ∧
        u.mem = s.mem) ∧
      (s.pbsWaits g p t = .none →
        ((∃ x ∈ g.tiles, s.pbsWaits g p x ≠ .none) → ∃ u, exec (.pbs t seq) s = .next u ∧
          u.mopOf t seq = some { c.mop with hold := .none } ∧ u.mem = s.mem) ∧
        ((∀ x ∈ g.tiles, s.pbsWaits g p x = .none) → (∀ x ∈ g.tiles, ∀ d, s.memberCtx g x = some d → s.badWord d = none) →
          let outs := s.pbsOuts g p
          (∀ a, (∃ k ∈ outs, ∃ o ∈ k.2, o.flags = 0) → s.badLine c.pbsTables = some a → ∃ u, exec (.pbs t seq) s = .next u ∧
            (u.mopOf t seq).map (·.stop) = some (some (.memLine a)) ∧ u.mem = s.mem) ∧
          ((∀ k ∈ outs, ∀ o ∈ k.2, o.flags ≠ 0) ∨ s.badLine c.pbsTables = none → ∃ w u : State, exec (.pbs t seq) s = .next u ∧
            (c.w.normalises = false → w.mem = s.mem ∧ w.linePoison = s.linePoison) ∧
            u = w.commitGroup c g outs ∧ (∀ r ∈ u.groups, r.same g = false) ∧
            ∀ x ∈ g.tiles, ∀ d, s.memberCtx g x = some d → (u.mopOf x d.mop.seq).map (·.done) = some true))))) ∧
  (∀ (s : State) (g : GroupRun) (k : Nat) (p : Machine.PSet) (c : Ctx) (src dst : View) (v : Verdict),
    s.memberCtx g (g.setLeader k) = some c → c.view 0 = some src → c.view 2 = some dst →
    (c.w.kswStreams = true → (g.member c.t).bind (·.verdict) = some v) →
    let out := s.kswSet g k p
    let base := (c.view 1).elim 0 View.base
    let bl := if c.w.kswStreams then v.baseLog else s.splitBase c base p
    out.map (·.b) = dst.outBatches ∧
    ∀ o ∈ out, let ins := s.inputs c o.b
      (∀ x ∈ ins, x.2.r.flags ||| o.flags = o.flags) ∧ o.newFlags ||| o.flags = o.flags ∧ (o.flags ≠ 0 → o.data = []) ∧
      (c.w.kswStreams = true → v.flags ||| o.newFlags = o.newFlags) ∧
      ((∃ t ∈ g.setTiles k, ∃ d, s.memberCtx g t = some d ∧ d.mop.marked ≠ []) → 4 ||| o.newFlags = o.newFlags) ∧
      (reference (ins.map (·.2)) = none → o.data = [] ∧ o.record = noReference (if c.w.kswKind = 3 then 2 else 1) dst.desc) ∧
      (∀ ref, reference (ins.map (·.2)) = some ref →
        let tag := if c.w.kswStreams ∧ v.flags = 0 then v.keytagOut else ref.r.keytag
        (ref.outside = false → ref.r.comps ≠ kswComps c.w.kswKind p.n → 1 ||| o.newFlags = o.newFlags) ∧
        (c.w.kswLast = false → o.record = { ref.r with keytag := (if c.w.kswStage = 5 then tag else ref.r.keytag) }) ∧
        (∀ q, c.w.kswLast = true → ref.outside = false → ref.cipher = true → s.pset ref.r.pset = some q → o.record =
          { domain := ref.r.domain, pset := ref.r.pset, level := ref.r.level, flags := 0, keytag := tag,
            scale := low 16 ref.r.scaleInt, noise := clampNoise (maxNoise (ins.map (·.2)) + q.inc 7),
            comps := if c.w.kswKind = 3 then q.lweN + 1 else 2 }) ∧
        (o.flags = 0 → o.data = s.kswData c.w src dst (c.view 1) (s.runKey g c p base 0) (max bl 1) o.b ref.r.level))) ∧
  (∀ (s : State) (g : GroupRun) (c : Ctx) (p : Machine.PSet) (src dst : View), c.view 0 = some src → c.view 2 = some dst →
    let out := s.pbsMember g c p
    let v := (g.verdictOf c.t).against (s.inputTag c)
    let block := s.tableBlock c.job.image c.w.pbsTable
    out.map (·.b) = dst.outBatches ∧
    ∀ o ∈ out, let ins := s.matInputs c block.mv o.b
      (∀ x ∈ ins, x.2.r.flags ||| o.flags = o.flags) ∧ o.newFlags ||| o.flags = o.flags ∧ v.flags ||| o.newFlags = o.newFlags ∧
      (reference (ins.map (·.2)) = none → o.record = noReference 2 dst.desc) ∧
      (∀ ref q, reference (ins.map (·.2)) = some ref → ref.outside = false → ref.cipher = true → s.pset ref.r.pset = some q →
        (ref.r.comps ≠ p.lweN + 1 → 1 ||| o.newFlags = o.newFlags) ∧
        o.record =
        { domain := 2, pset := ref.r.pset, level := 0, flags := 0,
          keytag := if v.flags = 0 then v.keytagOut else ref.r.keytag, scale := low 16 block.outScale,
          noise := clampNoise q.postPbs, comps := q.lweN + 1 }) ∧
      (o.flags = 0 → ∀ e, e ∈ o.data ↔ ∃ i m j x, src.matRowsIn[i]? = some m ∧
        (((s.pbsRow g c p v.baseLog block (i / max c.w.wave 1) ((List.range src.desc.matCols).map fun j =>
          s.readElem src (src.desc.matAt m j)))[j]?).bind (·[x]?)) = some e.2 ∧
        e.1 = dst.desc.matAt (dst.matRowsIn.getD (i * block.mv + j) 0) x ∧ inBatch dst.desc o.b e.1 = true))

/-- Key delivery. A verdict reaches a set leader, or a PBS member, as Table KS.8 and Table RF.3 judge the headers that the stream
has read, and releases the members of its set that hold on it. Key words fill a member's ring up to 64 KiB, a member that holds
on them takes them at once, and refresh objects fill its buffers; one that held on what comes is released after the held cycles,
which also delay the first unit of its intermediate where they come before it. A poisoned line among those read stops the
macro-operation instead. Nothing comes while the stream has no place at its Bobbins, or while the service pool is spent; a
waiting stream takes a free one of a Bobbin's four places. The verdict on a key header: FAULTED for a damaged header;
KEYMISMATCH for another kind, form, set, digit count, Galois element or, last and per shard set, another KEYTAG than the record's;
no flag otherwise. So too for the two headers of a PBS; in FC6 its record is compared when the KSW has written it. The place of a
stream at its Bobbins is the model's choice, log 71; waiting for the pool, log 55. -/
def Obligations.KeysAreDelivered : Prop :=
  ((∀ (s : State) (t seq : Nat) (c : Ctx) (g : GroupRun) (m : GMember) (p : Machine.PSet) (v : View), s.feeds t seq c →
     s.runOf c.ring t seq = some g → g.allStarted = true → s.streaming g = true → g.member t = some m → m.seq = seq →
     s.pset c.w.pset = some p → c.view 1 = some v →
     (c.w.family = 7 → c.w.kswStreams = true → g.setLeader (g.setOf t) = t → m.verdict = none →
       (∀ a, s.poisonedLine (g.unread 0 [(v.base, 64)]) = some a → ∃ u, exec (.keyVerdict t seq) s = .next u ∧
         (u.mopOf t seq).map (·.stop) = some (some (.memLine a))) ∧
       (s.poisonedLine (g.unread 0 [(v.base, 64)]) = none → ∃ u g', exec (.keyVerdict t seq) s = .next u ∧ u.runOf c.ring t seq = some g' ∧
         (g'.member t).map (·.verdict) = some (some (kswVerdict (s.streamHeader g v.base) c.w (keyfeedForm c.job.mode.keyfeed) (s.inputTag c) p)) ∧
         (∀ x ∈ g.setTiles (g.setOf t), ∀ d, s.memberCtx g x = some d → d.mop.hold = .verdict →
           (u.mopOf x d.mop.seq).map (·.hold) = some .none) ∧ u.mem = s.mem)) ∧
     (c.w.family = 17 → m.verdict = none →
       let k := c.pbsImage p
       (∀ a, s.poisonedLine (g.unread 0 [(v.base, 64), (k, 64)]) = some a → ∃ u, exec (.pbsKeyVerdict t seq) s = .next u ∧
         (u.mopOf t seq).map (·.stop) = some (some (.memLine a))) ∧
       (s.poisonedLine (g.unread 0 [(v.base, 64), (k, 64)]) = none → ∃ u g', exec (.pbsKeyVerdict t seq) s = .next u ∧
         u.runOf c.ring t seq = some g' ∧
         (g'.member t).map (·.verdict) = some (some (
           let h := pbsVerdict (s.streamHeader g v.base) (s.streamHeader g k) c.w (keyfeedForm c.job.mode.keyfeed) p
           if c.mop.start.isSome then h.against (s.inputTag c) else h)) ∧
         (c.mop.hold = .verdict → (u.mopOf t seq).map (·.hold) = some .none) ∧ u.mem = s.mem)) ∧
     (∀ (mine : List KeyPiece) (pass at0 base bytes cycles n : Nat),
       (c.w.family = 7 ∧ c.w.kswStreams = true ∧ mine = s.kswPieces g c p ∧ pass = 0 ∧ at0 = m.got ∧ base = v.base) ∨
         (c.w.family = 17 ∧ mine = s.pbsPieces g c p ∧ pass = m.got / max (piecesSize mine) 1 ∧
           at0 = m.got % max (piecesSize mine) 1 ∧ (pass + 1) * p.lweN ≤ m.objects ∧ pass < c.waves ∧ base = c.pbsImage p) →
       (∀ x ∈ g.members, x.tile ≠ t → x.ring < 65536) →
       n = min (if c.mop.hold = .keyRing then bytes else min bytes (65536 - m.ring)) (piecesSize mine - at0) →
       let lines := g.unread 0 [(base, 64)] ++ g.unread pass (storedRanges (slicePieces mine at0 n))
       (n = 0 → exec (.keyRingArrival t seq bytes cycles) s = .next s) ∧
       (∀ a, n ≠ 0 → s.poisonedLine lines = some a → exec (.keyRingArrival t seq bytes cycles) s = .next (s.stopMop c (.memLine a))) ∧
       (n ≠ 0 → s.poisonedLine lines = none → ∃ u g', exec (.keyRingArrival t seq bytes cycles) s = .next u ∧
         u.runOf c.ring t seq = some g' ∧
         g'.member t = some { m with got := m.got + n, ring := if c.mop.hold = .keyRing then 0 else m.ring + n } ∧
         u.mopOf t seq = some (if c.mop.hold = .keyRing then { c.mop.delayed cycles (c.early pass) with
           hold := if at0 + n = piecesSize mine then .none else .keyRing } else c.mop))) ∧
     (∀ cycles, c.w.family = 17 → s.objectFits g c p m.objects = true →
       let size := objectSize p (2 ^ c.w.ringLog) (c.job.mode.keyfeed == .seeded)
       let lines := g.unread 0 [(v.base, 64)] ++
         g.unread (m.objects / max p.lweN 1) [(v.base + 64 + m.objects % max p.lweN 1 * size, size)]
       (∀ a, s.poisonedLine lines = some a → exec (.pbsObjectArrival t seq cycles) s = .next (s.stopMop c (.memLine a))) ∧
       (s.poisonedLine lines = none → ∃ u g', exec (.pbsObjectArrival t seq cycles) s = .next u ∧ u.runOf c.ring t seq = some g' ∧
         g'.member t = some { m with objects := m.objects + 1 } ∧
         u.mopOf t seq = some (if c.mop.hold = .object then
           { c.mop.delayed cycles (c.early (m.objects / max p.lweN 1)) with hold := .none } else c.mop)))) ∧
   (∀ (m : Mop) (cycles : Nat) (early : Bool), (m.delayed cycles early).held = m.held + cycles ∧
     (m.delayed cycles early).unitAfter = if early then m.unitAfter.map (· + cycles) else m.unitAfter) ∧
   (∀ (s : State) (t seq bytes cycles : Nat) (c : Ctx) (g : GroupRun), s.ctx t seq = some c → s.runOf c.ring t seq = some g →
     s.streaming g = false ∨ s.poolOpen = false →
     ∀ e ∈ [Instr.keyVerdict t seq, .pbsKeyVerdict t seq, .keyRingArrival t seq bytes cycles, .pbsObjectArrival t seq cycles],
       exec e s = .next s) ∧
   (∀ (s : State) (k : Nat), k < 12 →
     (∀ x rest, (s.stack k).bobbinWaiting = x :: rest → (s.stack k).bobbinActive.length < 4 → ∃ u, exec (.bobbinStreamStart k) s = .next u ∧
       (u.stack k).bobbinActive = (s.stack k).bobbinActive ++ [x] ∧ (u.stack k).bobbinWaiting = rest ∧
       ∀ j, j ≠ k → u.stack j = s.stack j) ∧
     (4 ≤ (s.stack k).bobbinActive.length → exec (.bobbinStreamStart k) s = .next s))) ∧
  (∀ (h : KeyHeader) (w : MopWord) (form keytag : Nat) (p : Machine.PSet),
     let v := kswVerdict h w form keytag p
     (h.sound = false → v.flags = 4) ∧
     (h.sound = true →
       (h.kind ≠ w.kswKind ∨ h.form ≠ form ∨ h.pset ≠ w.pset ∨ h.galois ≠ w.kswGalois → v.flags = 2 ∧ v.perSet = false) ∧
       (w.kswKind ≠ 3 → h.digits ≠ ceilDiv p.chain (alphaOf p.chain p.dnum) ∨ h.keytagOut ≠ h.keytag → v.flags = 2 ∧ v.perSet = false) ∧
       (w.kswKind = 3 → h.digits ≠ p.pbsLevels ∨ h.baseLog = 0 ∨ 32 < h.baseLog * h.digits → v.flags = 2 ∧ v.perSet = false) ∧
       (h.keytag ≠ keytag → v.flags = 2) ∧
       (h.kind = w.kswKind → h.form = form → h.pset = w.pset → h.galois = w.kswGalois →
         (if w.kswKind = 3 then h.digits = p.pbsLevels ∧ h.baseLog ≠ 0 ∧ h.baseLog * h.digits ≤ 32
           else h.digits = ceilDiv p.chain (alphaOf p.chain p.dnum) ∧ h.keytagOut = h.keytag) →
         (h.keytag ≠ keytag → v.perSet = true) ∧
         (h.keytag = keytag → v.flags = 0 ∧ v.keytagOut = h.keytagOut ∧ v.baseLog = h.baseLog)))) ∧
  (∀ (r k : KeyHeader) (w : MopWord) (form keytag : Nat) (p : Machine.PSet),
     let v := pbsVerdict r k w form p
     let fits := r.kind = 4 ∧ r.form = form ∧ r.pset = w.pset ∧ r.digits = p.pbsLevels ∧ r.baseLog = p.pbsBaseLog ∧ r.galois = 0 ∧
       k.kind = 3 ∧ k.form = form ∧ k.pset = w.pset ∧ k.digits = p.pbsLevels ∧ k.baseLog ≠ 0 ∧ k.baseLog * k.digits ≤ 32 ∧
       k.galois = 0 ∧ k.keytag = r.keytagOut
     (r.sound = false ∨ k.sound = false → v.flags = 4) ∧
     (r.sound = true → k.sound = true → (¬ fits → v.flags = 2) ∧
       (fits → v.flags = 0 ∧ v.keytagOut = k.keytagOut ∧ v.baseLog = k.baseLog ∧
         (v.against keytag).flags = if r.keytag = keytag then 0 else 2)))

/-- LOAD, STORE, GATHER and SCATTER. Until every host request has its translation, or while the transfer's first line finds no
memory tokens or reaches the scratchpad of a frozen tile, the command changes nothing. An uncorrectable scratchpad word, a source
record or data in another tile's scratchpad that reads as FAULTED, or a poisoned line on which an output without poison depends
stops the macro-operation with that cause, nothing written; a source record whose complement pairs disagree is spoilt first, where
CHECK compares them. Otherwise its effect is taken, and after a move between unmarked operands without records every destination
element, where no two share a byte, holds its source element as it stood before, or 0 for an index at or above the source's
length. Effects at once are the model's choice, log 22; pairs on moves, log 81; what waits for tokens and frozen tiles, log 55. -/
def Obligations.DmaMovesData : Prop :=
  ∀ (s : State) (t seq : Nat) (c : Ctx) (src dst : View) (e : Nat × Instr),
    e ∈ [(19, Instr.load t seq), (20, .store t seq), (21, .gather t seq), (22, .scatter t seq)] →
    s.readyCtx t seq (fun w => w.family == e.1) = some c → c.view 0 = some src → c.view 2 = some dst →
    (s.dmaReady c = false ∨ s.dmaOpen c = false → exec e.2 s = .next s) ∧
    (s.dmaReady c = true → s.dmaOpen c = true → ∀ o, s.badWord c = some o →
      exec e.2 s = .next ((s.markGranule t (o / 4096)).stopMop c (.scratchWord o))) ∧
    (s.dmaReady c = true → s.dmaOpen c = true → s.badWord c = none →
      let m := s.movePairs c src dst
      let outs := m.copyOuts c src dst
      let records := if src.desc.recorded then outs.map (fun o => (src.recordRead o.b, 64)) else []
      let reads := c.indexExtents ++ ((m.moves c).filter (fun m => flagsAt dst.desc outs m.1 == 0)).filterMap (fun m => m.2.map src.extent)
      (c.job.mode.check = .word ∨ e.1 ∈ [21, 22] ∨ (∀ r ∈ (c.w.movedRecords src dst).1, brokenRecord [0] (s.readRaw r.1 64) = none) →
        m = s) ∧
      ((m.badRemote t records).isSome = true → ∃ u, exec e.2 s = .next u ∧ (u.mopOf t seq).map (·.stop) = some (some .remote) ∧
        u.mem = m.mem) ∧
      (m.badRemote t records = none → ∀ a, m.badLine reads = some a → ∃ u, exec e.2 s = .next u ∧
        (u.mopOf t seq).map (·.stop) = some (some (.memLine a)) ∧ u.mem = m.mem) ∧
      (m.badRemote t records = none → m.badLine reads = none → (m.badRemote t reads).isSome = true → ∃ u, exec e.2 s = .next u ∧
        (u.mopOf t seq).map (·.stop) = some (some .remote) ∧ u.mem = m.mem) ∧
      (m.badRemote t records = none → m.badLine reads = none → m.badRemote t reads = none → ∃ u, exec e.2 s = .next u ∧
        (u.mopOf t seq).map (·.done) = some true ∧
        (src.desc.recorded = false → dst.desc.recorded = false → c.plainMarks = 0 →
          s.wcbOk = true → Memory.wf s.mem = true → dst.buf = none → dst.desc.elemBits ∈ [8, 16, 32, 64] →
          ((s.moves c).map (·.1)).Nodup →
          (∀ m ∈ s.moves c, ∀ i, i < (dst.extent m.1).2 → s.plainTarget t ((dst.extent m.1).1 + i)) →
          (∀ m ∈ s.moves c, ∀ n ∈ s.moves c, m.1 ≠ n.1 → apart (dst.extent m.1) (dst.extent n.1)) →
          ∀ m ∈ s.moves c, u.readElem dst m.1 = (match m.2 with | some i => s.readElem src i | none => 0) % 2 ^ dst.desc.elemBits)))

/-- Host translations of a stream queue (R351 to R353). A translation that is present lets the queue issue up to its next host
request, at most LIMIT outstanding, each issue with the cycle in which its data are there; one that is absent halts the queue at
that request, with the address kept, the halt counted and a page request made; what was issued before completes. An event is
posted or, where the event ring cannot take it, counted there, its SEQ used up (log 25). RESUME puts a halted queue back to
running and is discarded on any other. The order and number of line requests and their issue are the model's reading, log 39. -/
def Obligations.TranslationsHaltAndResume : Prop :=
  (∀ (s : State) (t k : Nat) (c : Ctx) (i : Nat), s.streamCtx t k = some c → ((s.tile t).stream k).state = .running →
    (s.hostRequests c)[((s.tile t).stream k).translated]? = some i →
    let q := (s.tile t).stream k
    let a := ((s.requests c).getD i (0, false)).1
    let next := s.streamPos c (q.translated + 1)
    (∃ u, exec (.translationComplete t k true) s = .next u ∧ (u.tile t).stream k =
      { q with translated := q.translated + 1, released := next,
               issues := (s.issueOn c (s.tile t).cycle q.issues ((s.releasedLines c (q.translated + 1)).drop i)).issues }) ∧
    (∃ u, exec (.translationComplete t k false) s = .next u ∧ (u.tile t).stream k =
      { q with state := .halted, pos := i, faultAddr := a, halts := q.halts + 1, haltedAt := (s.tile t).cycle } ∧
      u.pageRequests = s.pageRequests ++ [(t, k, a)] ∧ u.evq = if s.evq.hasRoom then s.evq.taken else s.evq.dropped)) ∧
  (∀ (limit share first path : Nat) (i : Issue), 0 < limit → 0 < share → (∀ p ∈ i.issues, p.1 ≤ (i.issues.headD (0, 0)).1) →
    (∀ n, (i.issues.filter fun p => decide (p.1 ≤ n) && decide (n < p.2)).length ≤ limit) →
    let j := i.next limit share first path
    ∃ x, j.issues = (x, x + path) :: i.issues ∧ first ≤ x ∧ (∀ p ∈ i.issues, p.1 ≤ x) ∧
      ∀ n, (j.issues.filter fun p => decide (p.1 ≤ n) && decide (n < p.2)).length ≤ limit) ∧
  (∀ (s : State) (q : Requester), s.reaches q 0x030104 = true → (s.selects q).tile < 208 →
    let t := (s.selects q).tile
    let k := (s.selects q).queue
    (((s.tile t).stream k).state = .halted → ∃ u, exec (.streamResume q) s = .next u ∧
      (u.tile t).stream k = { (s.tile t).stream k with state := .running, faultAddr := 0 }) ∧
    (((s.tile t).stream k).state ≠ .halted → ∃ u, exec (.streamResume q) s = .next u ∧
      (u.tile t).streams = (s.tile t).streams ∧ Recorded s u (Err.plain .deferred 3 6 (requesterNum q) 0x030104 1)))

/-- SEND. It posts its descriptor while fewer than 32 of that sender's queue are outstanding, else waits for a slot and posts when
one is free. A damaged descriptor is sent again and recorded as CONTAINED, three times; then it stops its SEND. At the
receiver a closed queue answers CLOSED, another epoch STALE, otherwise the descriptor takes the next slot. The answer retires the
SEND, STALE with its event, which is recorded at once where the job is not guarded. A post waits for the tile's memory tokens, an
arrival for a frozen receiver. A resend as a damaged arrival of its own and the frozen receiver are the model's choices, log 38;
what waits for tokens, log 55. -/
def Obligations.SendsAreDelivered : Prop :=
  ∀ (s : State) (t seq : Nat) (c : Ctx),
    (s.readyCtx t seq isSend = some c →
      (s.covers t c.sendTokens = false → c.mop.send = .idle ∨ c.mop.send = .waitSlot →
        exec (.send t seq) s = .next s ∧ exec (.shuttleSlotFree t seq) s = .next s) ∧
      (s.covers t c.sendTokens = true → c.mop.send = .idle → s.slotFree c = true → ∃ u, exec (.send t seq) s = .next u ∧ u.mopOf t seq = some { c.mop with send := .inFlight }) ∧
      (s.covers t c.sendTokens = true → c.mop.send = .idle → s.slotFree c = false → ∃ u, exec (.send t seq) s = .next u ∧
        u.mopOf t seq = some { c.mop with send := .waitSlot, waitSince := s.clock }) ∧
      (s.covers t c.sendTokens = true → c.mop.send = .waitSlot → s.slotFree c = true → ∃ u,
        exec (.shuttleSlotFree t seq) s = .next u ∧ u.mopOf t seq = some { c.mop with send := .inFlight }) ∧
      (c.mop.send = .waitSlot → s.slotFree c = false → exec (.shuttleSlotFree t seq) s = .next s) ∧
      (c.mop.send = .inFlight → s.letsIn c.w.peer = false → ∀ b, exec (.shuttleDescriptorArrive t seq b) s = .next s) ∧
      (c.mop.send = .inFlight → s.letsIn c.w.peer = true →
        let q := (s.tile c.w.peer).queue c.w.queue
        (c.mop.resends < 3 → ∃ u, exec (.shuttleDescriptorArrive t seq true) s = .next u ∧
          u.mopOf t seq = some { c.mop with resends := c.mop.resends + 1 } ∧
          Recorded s u (Err.ofJob .contained 0x21 1 c.w.peer c.job seq 0 1)) ∧
        (3 ≤ c.mop.resends → exec (.shuttleDescriptorArrive t seq true) s = .next (s.stopMop c .transit)) ∧
        (q.isOpen = false → ∃ u, exec (.shuttleDescriptorArrive t seq false) s = .next u ∧ u.mopOf t seq = some { c.mop with send := .closedDue }) ∧
        (q.isOpen = true → c.descriptor.epoch ≠ q.epoch → ∃ u, exec (.shuttleDescriptorArrive t seq false) s = .next u ∧
          u.mopOf t seq = some { c.mop with send := .staleDue c.descriptor.epoch q.epoch }) ∧
        (q.isOpen = true → c.descriptor.epoch = q.epoch → c.w.peer < 208 → ∃ u, exec (.shuttleDescriptorArrive t seq false) s = .next u ∧
          u.mopOf t seq = some { c.mop with send := .accepted } ∧
          (u.tile c.w.peer).queue c.w.queue = { q with slots := q.slots ++ [c.descriptor] }))) ∧
    (s.ctx t seq = some c → s.tileRuns t = true → isSend c.w = true →
      (c.mop.send = .ackDue → ∃ u, exec (.shuttleAck t seq) s = .next u ∧ u.mopOf t seq = none) ∧
      (c.mop.send = .closedDue → ∃ u, exec (.sendCompletion t seq) s = .next u ∧ u.mopOf t seq = none) ∧
      (∀ e q, c.mop.send = .staleDue e q → ∃ u, exec (.sendCompletion t seq) s = .next u ∧ u.mopOf t seq = none ∧
        (c.mop.events = [] → c.job.mode.guard = .off → Recorded s u (c.staleEvent e q))))

/-- RECV. A poll of an empty queue takes nothing; one that finds a descriptor of another epoch frees its slot and answers its SEND
STALE; any other descriptor, or one whose slot cannot be read, is taken, once the tile's memory tokens cover its first line. A
RECV that has taken a descriptor of the right length, without a record, whose payload reads well, leaves the payload's bytes in
its destination, and zeros where the slot or the payload could not be read; in another tile's scratchpad only through its
windows. One that has taken none, or whose source lies in a frozen tile, waits. SHQ_CTRL.RESET advances the selected queue's epoch
and empties it. Which descriptors are still to be taken is read as log 38 says; what waits for tokens, log 55. -/
def Obligations.ReceivesTakeInOrder : Prop :=
  (∀ (s : State) (t seq : Nat) (c : Ctx), s.readyCtx t seq isRecv = some c →
    let k := c.w.queue
    let q := (s.tile t).queue k
    (c.mop.taken = none → exec (.recv t seq) s = .next s ∧
      ((s.tile t).headOf k = none → ∃ u, exec (.recvPoll t seq) s = .next u ∧ u.mopOf t seq = some c.mop ∧ (u.tile t).queue k = q) ∧
      let bad := s.remoteBad t ((s.tile t).headSlot k) 32
      let tokens := fun (d : ShuttleDesc) => requestTokens t (c.job.mode.check == .full)
        ((linesOf d.src d.length ++ (if d.recAddr = 1 then [] else linesOf d.recAddr 64)).take 1)
      (∀ d, (s.tile t).headOf k = some d → s.covers t (tokens d) = false → ∃ u, exec (.recvPoll t seq) s = .next u ∧
        u.mopOf t seq = some c.mop ∧ (u.tile t).queue k = q) ∧
      (∀ d, (s.tile t).headOf k = some d → s.covers t (tokens d) = true → bad = false → d.epoch ≠ q.epoch → ∃ u, exec (.recvPoll t seq) s = .next u ∧
        (u.tile t).queue k = { q with slots := q.slots.filter (fun x => x.seq != d.seq), head := (q.head + 1) % 32 } ∧
        ∀ m, s.mopOf d.sender d.seq = some m → m.word.family = 23 →
          u.mopOf d.sender d.seq = some { m with send := .staleDue d.epoch q.epoch }) ∧
      (∀ d, (s.tile t).headOf k = some d → s.covers t (tokens d) = true → (bad = true ∨ d.epoch = q.epoch) → ∃ u m, exec (.recvPoll t seq) s = .next u ∧
        u.mopOf t seq = some m ∧ m.badHead = bad ∧
        m.taken = some (pollCycle (c.mop.start.getD 0) (s.tile t).cycle + 1, d) ∧
        (u.tile t).queue k = { q with taken := (q.taken + 1) % 2 ^ 32 })) ∧
    (∀ n d v, c.mop.taken = some (n, d) → c.view 2 = some v → s.openTo t d.src = false → exec (.recv t seq) s = .next s) ∧
    (∀ n d v, c.mop.taken = some (n, d) → c.view 2 = some v → s.openTo t d.src = true → ∃ u, exec (.recv t seq) s = .next u ∧
      (u.mopOf t seq).map (·.done) = some true ∧
      (v.desc.recorded = false → s.wcbOk = true → Memory.wf s.mem = true →
        (∀ i, i < v.dataRange.2 - v.dataRange.1 → s.plainTarget t (v.dataRange.1 + i)) →
        (c.mop.badHead = false → d.recAddr = 1 → d.length = v.dataRange.2 - v.dataRange.1 → s.payloadBad d.src d.length = false →
          ∀ i, i < d.length → u.readByte (v.dataRange.1 + i) = (s.readZeroed d.src d.length).getD i 0) ∧
        (c.mop.badHead = true ∨ s.payloadBad d.src d.length = true →
          ∀ i, i < v.dataRange.2 - v.dataRange.1 → u.readByte (v.dataRange.1 + i) = 0)) ∧
      (∀ x off, home v.dataRange.1 = .scratch x off → x ≠ t → v.desc.recorded = false → s.wcbOk = true → Memory.wf s.mem = true →
        c.mop.badHead = false → d.recAddr = 1 → d.length = v.dataRange.2 - v.dataRange.1 → s.payloadBad d.src d.length = false →
        ∀ i, i < d.length → off + i < 0x600000 → u.readByte (v.dataRange.1 + i) = if ((s.tile x).windowFor t (off + i)).isSome then
          (s.readZeroed d.src d.length).getD i 0 else s.readByte (v.dataRange.1 + i)))) ∧
  (∀ (s : State) (q : Requester), s.reaches q 0x030124 = true → (s.selects q).tile < 208 → (s.selects q).queue < 8 →
    let t := (s.selects q).tile
    let k := (s.selects q).queue
    ∃ u, exec (.shqReset q) s = .next u ∧
      (u.tile t).queue k = { (s.tile t).queue k with epoch := (((s.tile t).queue k).epoch + 1) % 65536, slots := [] } ∧
      (∀ j, j ≠ k → (u.tile t).queue j = (s.tile t).queue j) ∧ ∀ x, x ≠ t → (u.tile x).queues = (s.tile x).queues)

/-- Windows. WIN opens or replaces the window its word names, over the operand's range and for the writers of its map, with the next
epoch; an empty map closes it; a map that cannot be read stops it, and one on a marked granule is reported as FAULTED and closes
it. A remote write lands each byte that an open window of the target covers for the writer and drops every other; outside the
scratchpad it faults. A remote read answers the bytes, or zeros and FAULTED where a granule is marked or a word uncorrectable.
Both wait while the target is frozen or a rail is down. The fault outside the scratchpad is the model's choice, log 32; that the
closed window keeps its range, that a poisoned map counts as zeros and that bytes land one by one, log 40. -/
def Obligations.WindowsGuardScratchpads : Prop :=
  (∀ (s : State) (t seq : Nat) (c : Ctx) (v m : View), s.readyCtx t seq (fun w => w.family == 25) = some c → c.view 0 = some v →
    c.view 1 = some m →
    (∀ o, s.badWord c = some o → exec (.win t seq) s = .next ((s.markGranule t (o / 4096)).stopMop c (.scratchWord o))) ∧
    (∀ x, s.badWord c = none → c.plainMarks = 0 → s.winStop c m.base = some x → exec (.win t seq) s = .next (s.stopMop c x)) ∧
    (s.badWord c = none → c.plainMarks ≠ 0 ∨ s.winStop c m.base = none → ∃ u, exec (.win t seq) s = .next u ∧
      (u.mopOf t seq).map (fun m => (m.done, m.events)) = some (true, c.mop.events ++
        if c.plainMarks = 0 then [] else [Err.ofJob .deferred 0x01 1 t c.job seq (4 + 256 * 25 + 65536) 0]) ∧
      (let map := if c.plainMarks = 0 then BitVec.ofNat 208 (leNat (s.readZeroed m.base 26)) else 0
       (u.tile t).winAt (c.w.immBits 2 0) =
        { isOpen := map != 0, lo := v.dataRange.1 / 64 * 64 - scratchAddr t 0,
          hi := (v.dataRange.2 + 63) / 64 * 64 - scratchAddr t 0, writers := map,
          epoch := (((s.tile t).winAt (c.w.immBits 2 0)).epoch + 1) % 65536 }) ∧
      ∀ k, k ≠ c.w.immBits 2 0 → (u.tile t).winAt k = (s.tile t).winAt k)) ∧
  (∀ (s : State) (w t off : Nat) (data : List Byte),
    (208 ≤ t ∨ 0x600000 < off + data.length → exec (.remoteWrite w t off data) s = .fault (.unmapped (scratchAddr t off))) ∧
    (t < 208 → off + data.length ≤ 0x600000 → s.pins.allGood = false ∨ s.letsIn t = false → exec (.remoteWrite w t off data) s = .next s) ∧
    (t < 208 → off + data.length ≤ 0x600000 → s.pins.allGood = true → s.letsIn t = true → s.wcbOk = true → Memory.wf s.mem = true → ∃ u, exec (.remoteWrite w t off data) s = .next u ∧
      (∀ i, i < data.length → u.readByte (scratchAddr t (off + i)) =
        if ((s.tile t).windowFor w (off + i)).isSome then data.getD i 0 else s.readByte (scratchAddr t (off + i))) ∧
      (∀ o, o < off ∨ off + data.length ≤ o → o < 0x600000 → u.readByte (scratchAddr t o) = s.readByte (scratchAddr t o)) ∧
      (u.tile t).windows = (s.tile t).windows)) ∧
  (∀ (s : State) (r t off len : Nat),
    (208 ≤ t ∨ 0x600000 < off + len → exec (.remoteRead r t off len) s = .fault (.unmapped (scratchAddr t off))) ∧
    (t < 208 → off + len ≤ 0x600000 → s.pins.allGood = false ∨ s.letsIn t = false → exec (.remoteRead r t off len) s = .next s) ∧
    (t < 208 → off + len ≤ 0x600000 → s.pins.allGood = true → s.letsIn t = true → ∃ u, exec (.remoteRead r t off len) s = .next u ∧ u.mem = s.mem ∧
      u.resp = if s.remoteBad t off len then .status (List.replicate len 0) true else .status (s.readRaw (scratchAddr t off) len) false))

/-- Barriers and stalls. A BAR arrives at its barrier and changes no other. A barrier with a member still to come, or of a job that
ends, recovers or commits, does not resolve. Otherwise it does: its BARs are done, its use is over and, where it is not
device-wide, every write-combining entry is written back; a device-wide one closes its members' windows and counts an epoch. In a
guarded job such a barrier leaves its BARs and its use as they are and begins a commit, which resolves it at its end; or, where a
shard cannot be copied, a recovery. A macro-operation that has waited for the watchdog's interval raises one stall event. BARs of
an unguarded barrier are done at the resolution by the model's choice, log 72; what the write-backs meet is an operand, log 28; a
commit's copies stand at its start, log 48. -/
def Obligations.BarriersResolve : Prop :=
  (∀ (s : State) (t seq : Nat) (c : Ctx), s.readyCtx t seq isBar = some c → ∃ u j, exec (.bar t seq) s = .next u ∧
    u.job c.ring = some j ∧ j.barriers.length = c.job.barriers.length ∧ ∀ b x, c.job.barriers[b]? = some x → ∃ y, j.barriers[b]? = some y ∧
      y.members = x.members ∧ y.uses = x.uses ∧ (b = c.w.barrier → y.arrived.contains t = true ∧ ∀ z, z ≠ t → y.arrived.contains z = x.arrived.contains z) ∧
      (b ≠ c.w.barrier → y = x)) ∧
  (∀ (s : State) (ring barrier : Nat) (merges : List (Nat × ReadError)) (j : Job) (b : Barrier), s.job ring = some j →
    j.barriers[barrier]? = some b →
    let ok := s.errs.fatal = false ∧ j.ending = none ∧ j.recovery = none ∧ j.committing = false ∧ b.members ≠ [] ∧ ∀ t ∈ b.members, t ∈ b.arrived
    (¬ ok → exec (.barrierResolve ⟨ring, merges⟩ barrier) s = .next s) ∧
    (ok → ∃ u, exec (.barrierResolve ⟨ring, merges⟩ barrier) s = .next u ∧
      (j.deviceWide b = false → ∀ k, k < 12 → (u.stack k).wcb = []) ∧
      (j.deviceWide b = true → ∀ t ∈ b.members, ∀ k, ((u.tile t).winAt k).isOpen = false) ∧
      (j.deviceWide b = false ∨ j.mode.guard = .off → (∃ j' y, u.job ring = some j' ∧ j'.barriers[barrier]? = some y ∧
          y.members = b.members ∧ y.arrived = [] ∧ y.uses = b.uses + 1) ∧
        ∀ t ∈ b.members, ∀ m ∈ (u.tile t).window, m.word.family = 26 → m.word.barrier = barrier → m.start.isSome = true → m.done = true) ∧
      (j.deviceWide b = true → j.mode.guard ≠ .off → ∃ j', u.job ring = some j' ∧ j'.epoch = j.epoch + 1 ∧
        ((j'.committing = true ∧ j'.resolving = some barrier ∧ j'.taking.isSome = true ∧ j'.saved = j.saved ∧ j'.recovery = none ∧
            j'.barriers = j.barriers ∧ ∀ t, (u.tile t).window = (s.tile t).window) ∨
          (j'.committing = false ∧ j'.recovery.isSome = true ∧ j'.resolving = none ∧ ∀ y ∈ j'.barriers, y.arrived = [])) ∧
        (merges = [] → s.linePoison = [] → (∀ t, (s.tile t).marks = [] ∧ (s.tile t).eccDouble = []) → j.mode.check = .word →
          j'.committing = true)))) ∧
  (∀ (s : State) (t seq : Nat) (c : Ctx), s.ctx t seq = some c → s.tileRuns t = true →
    (c.stallable = true → c.mop.stalled = false → s.wdog ≠ 0 → ∃ u, exec (.stallWatchdog t seq) s = .next u ∧
      u.mopOf t seq = some { c.mop with stalled := true } ∧ c.mop.waitSince + 1000 * s.wdog ≤ u.clock ∧
      Recorded s u c.stallEvent) ∧
    (c.stallable = false ∨ c.mop.stalled = true ∨ s.wdog = 0 → exec (.stallWatchdog t seq) s = .next s))

/-- Failures, spares, commits and restores. A tile that fails outside a job hands its place to a spare of its die, whose scratchpad
is zeros, or the module stops where none is left; in a job without guard it is marked failed with a DEFERRED record; under guard a
recovery with its takeover begins, beside those still due, unless a shard has now lost both its tile and the tile that mirrors it
since the last commit: then the module stops. The spare takes over only for a recovery that waits for it or once the job is over.
A commit that finishes switches the copied shards' slots and the saved state together, forgets the ranges written before it began
and resolves its barrier; one whose copies differ, or whose state reads badly twice or not at all, starts a recovery instead. A
recovery that ends counts, and its tiles stand where the last commit left them; it does not end while a poison request of its
tiles or a takeover is outstanding. Both ends wait for the service pool. Copies at the start of a commit are the model's choice,
log 48; the takeover of a tile outside any job and a spare's zeros, log 44; RECOVERIES counted when the recovery ends, log 7; what
two readings that disagree do, log 81. -/
def Obligations.RecoveriesFollowTheirSteps : Prop :=
  (∀ (s : State) (t : Nat) (cause : FailCause), exec (.tileFailure t cause) s = exec (.tilePollTimeout t) s ∧
    ((s.tile t).failed = true ∨ s.errs.fatal = true ∨ s.pins.allGood = false → exec (.tilePollTimeout t) s = .next s) ∧
    (t < 208 → (s.tile t).failed = false → s.errs.fatal = false → s.pins.allGood = true →
      (s.runningJob t = none →
        (∀ site rest, Tab.at s.spares [] (dieOfTile t) = site :: rest → ∃ u, exec (.tilePollTimeout t) s = .next u ∧
          (u.tile t).site = site ∧ (u.tile t).failed = false ∧ (u.tile t).marks = [] ∧ Tab.at u.spares [] (dieOfTile t) = rest ∧
          u.errs = s.errs ∧ ∀ o, o < 0x600000 → u.readByte (scratchAddr t o) = 0) ∧
        (Tab.at s.spares [] (dieOfTile t) = [] → ∃ u, exec (.tilePollTimeout t) s = .next u ∧ u.errs.fatal = true)) ∧
      (∀ j, s.runningJob t = some j → j.mode.guard = .off → ∃ u, exec (.tilePollTimeout t) s = .next u ∧ (u.tile t).failed = true ∧
        (u.tile t).window = [] ∧ Recorded s u (Err.ofJob .deferred 0x0A 1 t j 0 0 4)) ∧
      (∀ j, s.runningJob t = some j → j.mode.guard ≠ .off →
        let lost := j.saved ≠ none ∧ ∃ g ∈ j.shards, ∃ a b, g.tile = some a ∧ g.holder = some b ∧
          ((a = t ∧ b ∈ j.fallen) ∨ (b = t ∧ a ∈ j.fallen))
        (lost → ∃ u, exec (.tilePollTimeout t) s = .next u ∧ (u.tile t).failed = true ∧ u.errs.fatal = true) ∧
        (¬ lost → ∃ u j', exec (.tilePollTimeout t) s = .next u ∧ (u.tile t).failed = true ∧ u.job j.ring = some j' ∧
          (∀ g ∈ j'.shards, g.holder = some t → g.current = none) ∧
          (j'.recovery.map (·.takeovers)) = some (t :: (j.recovery.elim [] (·.takeovers)).filter (· ≠ t)))))) ∧
  (∀ (s : State) (t : Nat), t < 208 → (s.tile t).failed = true → s.errs.fatal = false → s.pins.allGood = true →
    (∀ j, s.runningJob t = some j → j.recovery.any (fun r => r.takeovers.contains t) = false → exec (.spareTakeover t) s = .next s) ∧
    (∀ site rest, Tab.at s.spares [] (dieOfTile t) = site :: rest →
      (∀ j, s.runningJob t = some j → j.recovery.any (fun r => r.takeovers.contains t) = true) → ∃ u, exec (.spareTakeover t) s = .next u ∧
      (u.tile t).site = site ∧ (u.tile t).failed = false ∧ Tab.at u.spares [] (dieOfTile t) = rest)) ∧
  (∀ (s : State) (ring n : Nat) (e : ReadError) (j : Job), s.job ring = some j →
    (j.committing = false ∨ s.errs.fatal = true ∨ s.poolOpen = false → exec (.commitFinish ⟨ring, n, e⟩) s = .next s) ∧
    (j.committing = true → s.errs.fatal = false → s.poolOpen = true → ∃ u j', exec (.commitFinish ⟨ring, n, e⟩) s = .next u ∧
      u.job ring = some j' ∧
      let fails := (j.mode.guard = .mirrorVerify ∧ s.mismatches j ≠ []) ∨ (j.mode.check ≠ .word ∧ 2 ≤ n) ∨
        (∃ k, e = .uncorrectable k ∧ k ≠ 0)
      (fails → j'.recovery.isSome = true ∧ j'.saved = j.saved ∧ j'.generation = j.generation) ∧
      (¬ fails → j'.committing = false ∧ j'.saved = j.taking ∧ j'.written = j.written.take (j.written.length - j.writtenAt) ∧
        j'.heldErrs = [] ∧ j'.generation = j.generation + 1 ∧
        j'.shards = j.numbered.map (fun x => if j.copied.contains x.1 then x.2.switch (j.nextGen x.2.entry) else x.2) ∧
        (∀ b y, j.resolving = some b → j.barriers[b]? = some y →
          (∃ z, j'.barriers[b]? = some z ∧ z.arrived = [] ∧ z.uses = y.uses + 1) ∧
          ∀ t ∈ y.members, ∀ m ∈ (u.tile t).window, m.word.family = 26 → m.word.barrier = b → m.start.isSome = true → m.done = true)))) ∧
  (∀ (s : State) (ring n : Nat) (e : ReadError) (j : Job) (r : Recovery), s.job ring = some j → s.errs.fatal = false →
    (j.recovery = none → exec (.restoreDone ⟨ring, n, e⟩) s = .next s) ∧
    (j.recovery = some r → (s.poisonDue j = true ∨ s.poolOpen = false ∨ ∃ t ∈ r.takeovers, (s.tile t).failed = true) →
      exec (.restoreDone ⟨ring, n, e⟩) s = .next s) ∧
    (j.recovery = some r → s.poisonDue j = false → s.poolOpen = true → (∀ t ∈ r.takeovers, (s.tile t).failed = false) →
     ∃ u, exec (.restoreDone ⟨ring, n, e⟩) s = .next u ∧
      (∀ k, e = .uncorrectable k → k ≠ 0 → j.saved ≠ none → u.errs.fatal = true) ∧
      (u.errs.fatal = false → ∀ v, j.saved = some v → ∃ j', u.job ring = some j' ∧ j'.recovery = none ∧
        j'.recoveries = min 0xFFFF (j.recoveries + 1) ∧ ((v.tiles.map (·.tile)).Nodup →
          ∀ x ∈ v.tiles, x.tile < 208 → (u.tile x.tile).next = x.next ∧ (u.tile x.tile).window = [] ∧ (u.tile x.tile).offer = none))))

/-- Sealed blocks. A unit whose next counter and stream are those of the sealing unit accepts a block and gives its payload back;
any other counter is refused by its order, another stream or check value by its reason. At the last counter the sealing unit
breaks and its block is accepted by nobody. CHK and CVU_RX. COMPUTE leaves the check value of the bytes read in eight bytes of
its destination and the unit as it was; APPEND and CHECK_STRIP pass their blocks through the unit in order and leave it as the
last block does; one that leaves it BROKEN is reported with the block and the REASON. Marked operands give zeros with FAULTED and
leave the unit alone; a source that cannot be read, or holds a record whose complement pairs disagree, stops them. They wait for
frozen tiles. A write of CVU_RX sets the counter and clears BROKEN and REASON, and is discarded while a job is admitted.
Acceptance while BROKEN is the model's choice, log 54; the marks, log 52; pairs on these moves, log 81; frozen tiles, log 55. -/
def Obligations.CheckUnits : Prop :=
  (∀ (u : Cvu) (p : List Byte), p.length = 4096 → 1 ≤ u.width → u.width ≤ 64 → u.stream < 2 ^ 16 → u.broken = false →
     let b := (u.seal p).2
     b.length = 4160 ∧
     (u.tx < lastCounter →
       (u.seal p).1 = { u with tx := u.tx + 1 } ∧
       (∀ v : Cvu, v = { u with rx := u.tx, tx := v.tx } → v.accept b = ({ v with rx := (v.rx + 1) % 2 ^ 48 }, p)) ∧
       (∀ rx, u.tx < rx → ({ u with rx := rx } : Cvu).fault b = 3) ∧ (∀ rx, rx < u.tx → ({ u with rx := rx } : Cvu).fault b = 4) ∧
       (∀ n, n ≠ u.stream → ({ u with stream := n } : Cvu).fault b = 2)) ∧
     (lastCounter ≤ u.tx → (u.seal p).1 = { u with broken := true, reason := 5 } ∧ ∀ rx n, ({ u with rx := rx, stream := n } : Cvu).fault b = 1) ∧
     (∀ (c : List Byte) (v : Cvu), v.fault c ≠ 0 → v.broken = false → v.accept c =
       ({ v with broken := true, reason := v.fault c }, List.replicate 4096 0))) ∧
  ((∀ (s : State) (t seq : Nat) (c : Ctx) (src dst : View) (e : Nat × Instr),
     e ∈ [(0, Instr.chkCompute t seq), (1, .chkAppend t seq), (2, .chkCheckStrip t seq)] →
     s.workable t seq (fun w => w.family == 27 && w.chkAction == e.1) c → c.view 0 = some src → c.view 2 = some dst →
     let p := c.w.chkSpans src dst
     let w := (s.cvu c.w.chkUnit).work c (s.readRaw p.1.1 p.1.2) p.2.2
     (s.chkOpen c = false → exec e.2 s = .next s) ∧
     (s.chkOpen c = true → c.plainMarks ≠ 0 → ∃ u, exec e.2 s = .next u ∧ (u.mopOf t seq).map (·.done) = some true ∧ u.cvus = s.cvus ∧
       (u.mopOf t seq).map (·.events) = some (c.mop.events ++ [c.poisonEvent t seq 4 1]) ∧
       (s.wcbOk = true → Memory.wf s.mem = true → (∀ i, i < p.2.2 → s.plainTarget t (p.2.1 + i)) →
         ∀ i, i < p.2.2 → u.readByte (p.2.1 + i) = 0)) ∧
     (s.chkOpen c = true → c.plainMarks = 0 → s.badLine [p.1] = none → (s.badRemote t [p.1]).isSome = true → ∃ u, exec e.2 s = .next u ∧
       (u.mopOf t seq).map (·.stop) = some (some .remote) ∧ u.cvus = s.cvus) ∧
     (∀ a, s.chkOpen c = true → c.plainMarks = 0 → s.badLine [p.1] = some a → ∃ u, exec e.2 s = .next u ∧ (u.mopOf t seq).map (·.stop) = some (some (.memLine a)) ∧ u.cvus = s.cvus) ∧
     (∀ a k, s.chkOpen c = true → c.plainMarks = 0 → s.badLine [p.1] = none → s.badRemote t [p.1] = none →
       s.chkPair c src dst = some a → c.wordCause a = some k → exec e.2 s = .next ((s.spoilSource a).stopMop c k)) ∧
     (s.chkOpen c = true → c.plainMarks = 0 → s.badLine [p.1] = none → s.badRemote t [p.1] = none →
       (∀ a, s.chkPair c src dst = some a → c.wordCause a = none) →
      ∃ u, exec e.2 s = .next u ∧ (u.mopOf t seq).map (·.done) = some true ∧ (u.mopOf t seq).map (·.events) = some (c.mop.events ++ w.2.2) ∧
       (e.1 = 0 → w.2.2 = []) ∧
       ((e.1 = 1 ∧ p.1.2 ≠ 0) ∨ (e.1 = 2 ∧ p.2.2 ≠ 0) → if w.1.broken then
         ∃ b, w.2.2 = [Err.ofJob .deferred 0x09 9 c.w.chkUnit c.job seq b w.1.reason] else w.2.2 = []) ∧
       u.cvu c.w.chkUnit = w.1 ∧ (e.1 = 0 → w.1 = s.cvu c.w.chkUnit ∧ w.2.1 = leBytes 8 (cvuCheck (s.cvu c.w.chkUnit) (s.readRaw p.1.1 p.1.2))) ∧
       (s.wcbOk = true → Memory.wf s.mem = true → (∀ i, i < w.2.1.length → s.plainTarget t (p.2.1 + i)) →
         ∀ i, i < w.2.1.length → u.readByte (p.2.1 + i) = w.2.1.getD i 0))) ∧
   (∀ (s : State) (q : Requester) (k : Nat) (v : DWord), s.reaches q (0x070020 + 0x40 * k) = true → k < 8 →
     (s.jobs = [] → ∃ u, exec (.cvuRxWrite q k v) s = .next u ∧
       u.cvu k = { s.cvu k with rx := v.toNat % 2 ^ 48, broken := false, reason := 0 } ∧ ∀ j, j ≠ k → u.cvu j = s.cvu j) ∧
     (s.jobs ≠ [] → ∃ u, exec (.cvuRxWrite q k v) s = .next u ∧ u.cvus = s.cvus ∧
       Recorded s u (Err.plain .deferred 3 6 (requesterNum q) (0x070020 + 0x40 * k) (v.toNat % 2 ^ 32)))))

/-- Modular operations of the Bodkin. With operands and modulus in ℓ = ⌈M_BITS/64⌉ limbs and an odd modulus m ≥ 3 they give x + y, x
− y, x·y, x^e and x^(m − 2) modulo m, the last with NO_INVERSE for 0; an even modulus or one below 3 gives 0 and BAD_OPERAND
after the same time; a length out of range gives none of them a computation, and ends in 20 cycles. The duration depends on the lengths alone. The
command ends when that time has passed: its result and status stand, and the Bodkin is free. A Bodkin that is busy or in reset
is the model's choice, log 61. -/
def Obligations.BodkinComputesModulo : Prop :=
  (∀ (s : State) (mBits eBits x y e m : Nat), s.bodkinFree → mBits ≤ 4096 →
    let l := (mBits + 63) / 64
    let b := 2 ^ (64 * l)
    let tmm := l * l + 2 * l + 10
    x < b → y < b → m < b →
    (m % 2 = 1 → 3 ≤ m →
      Started s (exec (.modadd mBits x y m) s) [(x + y) % m] .ok (20 + (l + 4)) none ∧
      (∃ d, Started s (exec (.modsub mBits x y m) s) [d] .ok (20 + (l + 4)) none ∧ d < m ∧ (d + y) % m = x % m) ∧
      Started s (exec (.modmul mBits x y m) s) [x * y % m] .ok (20 + tmm) none ∧
      (1 ≤ eBits → eBits ≤ 4096 → e < 2 ^ eBits →
        Started s (exec (.modexp mBits eBits x e m) s) [x ^ e % m] .ok (20 + (2 * eBits + 2) * tmm) none) ∧
      (x % m ≠ 0 → Started s (exec (.modinvP mBits x m) s) [x ^ (m - 2) % m] .ok (20 + (2 * mBits + 2) * tmm) none) ∧
      (x % m = 0 → Started s (exec (.modinvP mBits x m) s) [0] .noInverse (20 + (2 * mBits + 2) * tmm) none)) ∧
    (m % 2 = 0 ∨ m < 3 →
      Started s (exec (.modadd mBits x y m) s) [0] .badOperand (20 + (l + 4)) none ∧
      Started s (exec (.modsub mBits x y m) s) [0] .badOperand (20 + (l + 4)) none ∧
      Started s (exec (.modmul mBits x y m) s) [0] .badOperand (20 + tmm) none ∧
      (1 ≤ eBits → eBits ≤ 4096 → Started s (exec (.modexp mBits eBits x e m) s) [0] .badOperand (20 + (2 * eBits + 2) * tmm) none) ∧
      Started s (exec (.modinvP mBits x m) s) [0] .badOperand (20 + (2 * mBits + 2) * tmm) none)) ∧
  (∀ (s : State) (mBits eBits x y e m : Nat), s.bodkinFree → 4096 < mBits ∨ eBits = 0 ∨ 4096 < eBits →
    Started s (exec (.modexp mBits eBits x e m) s) [] .badOperand 20 none ∧
    (4096 < mBits → Started s (exec (.modadd mBits x y m) s) [] .badOperand 20 none ∧
      Started s (exec (.modsub mBits x y m) s) [] .badOperand 20 none ∧ Started s (exec (.modmul mBits x y m) s) [] .badOperand 20 none ∧
      Started s (exec (.modinvP mBits x m) s) [] .badOperand 20 none)) ∧
  (∀ (s : State) (o : BodkinOp), s.bodkin.op = some o → ∃ u, exec .bodkinDone s = .next u ∧ u.bodkin.op = none ∧
    u.bodkin.result = o.result ∧ u.bodkin.status = o.status ∧ o.since + o.cycles ≤ u.clock ∧ s.clock ≤ u.clock ∧
    u.bodkin.curves = match o.loads with | some p => Tab.put s.bodkin.curves p.1 (some p.2) | none => s.bodkin.curves)

/-- Curve operations of the Bodkin on a valid slot. Points off the curve give NOT_ON_CURVE and zeros, points at infinity INFINITY;
otherwise ECMULG, ECMUL and ECADD give k·G, k·P and P + Q, ECDH the x-coordinate, ECDSA_SIGN a signature that ECDSA_VERIFY's
rule judges, or RETRY. A scalar counts modulo the order. CURVE_LOAD makes a slot valid only when every check of its table
passes, and never slot 0. The durations depend on the curve alone. CURVE_LOAD on slot 0 and a failing load are the model's
choice, log 61. -/
def Obligations.BodkinComputesOnCurves : Prop :=
  (∀ (s : State) (slot k e d z : Nat) (p q : Point) (c : Curve), s.bodkinFree → s.curve slot = some c →
    let b := bitLength c.p
    let l := (b + 63) / 64
    let tmm := l * l + 2 * l + 10
    let te := 40 + bitLength c.n * (13 * tmm + 8 * (l + 4)) + (2 * b + 9) * tmm
    let ta := 20 + 8 * (l + 4) + (2 * b + 18) * tmm
    let ts := (2 * bitLength c.n + 6) * tmm
    let res := fun (x : Point) => match x with | some (x, y) => ([x, y, 0], BodkinStatus.ok) | none => ([0, 0, 1], BodkinStatus.infinity)
    Started s (exec (.ecmulg slot k) s) (res (c.mul (k % c.n) (some (c.gx, c.gy)))).1 (res (c.mul (k % c.n) (some (c.gx, c.gy)))).2 te none ∧
    (c.off p = true →
      Started s (exec (.ecmul slot k p) s) [0, 0, 0] .notOnCurve te none ∧ Started s (exec (.ecdh slot k p) s) [0] .notOnCurve te none ∧
      Started s (exec (.ecadd slot p q) s) [0, 0, 0] .notOnCurve ta none ∧ Started s (exec (.ecadd slot q p) s) [0, 0, 0] .notOnCurve ta none) ∧
    (p = none → Started s (exec (.ecmul slot k p) s) [0, 0, 1] .infinity te none ∧ Started s (exec (.ecdh slot k p) s) [0] .infinity te none) ∧
    (p ≠ none → c.off p = false →
      Started s (exec (.ecmul slot k p) s) (res (c.mul (k % c.n) p)).1 (res (c.mul (k % c.n) p)).2 te none ∧
      (∀ x y, c.mul (k % c.n) p = some (x, y) → Started s (exec (.ecdh slot k p) s) [x] .ok te none) ∧
      (c.mul (k % c.n) p = none → Started s (exec (.ecdh slot k p) s) [0] .infinity te none) ∧
      (q ≠ none → c.off q = false → Started s (exec (.ecadd slot p q) s) (res (c.add p q)).1 (res (c.add p q)).2 ta none)) ∧
    (∀ r w, c.sign e d k = some (r, w) → Started s (exec (.ecdsaSign slot e d k) s) [r, w] .ok (60 + te + ts) none) ∧
    (c.sign e d k = none → Started s (exec (.ecdsaSign slot e d k) s) [0, 0] .retry (60 + te + ts) none) ∧
    (ecdsaOk c e d z q = true → Started s (exec (.ecdsaVerify slot e d z q) s) [1] .ok (80 + 2 * te + ts) none) ∧
    (ecdsaOk c e d z q = false → Started s (exec (.ecdsaVerify slot e d z q) s) [0] .reject (80 + 2 * te + ts) none) ∧
    (0 = d ∨ 0 = z ∨ c.n ≤ d ∨ c.n ≤ z ∨ q = none ∨ c.off q = true → ecdsaOk c e d z q = false) ∧
    c.mul 0 p = none ∧ c.mul 1 p = p) ∧
  (∀ (s : State) (slot k : Nat) (p : Point), s.bodkinFree → s.curve slot = none →
    Started s (exec (.ecmul slot k p) s) [] .badOperand 20 none ∧ Started s (exec (.ecmulg slot k) s) [] .badOperand 20 none) ∧
  (∀ (s : State) (slot p a b gx gy n : Nat), s.bodkinFree →
    let c : Curve := { p := p, a := a, b := b, gx := gx, gy := gy, n := n }
    (slot = 0 ∨ 3 < slot → Started s (exec (.curveLoad slot p a b gx gy n) s) [] .badOperand 20 none) ∧
    (1 ≤ slot → slot ≤ 3 →
      (c.loadCode = 0 → Started s (exec (.curveLoad slot p a b gx gy n) s) [] .ok (200 + c.te) (some (slot - 1, c))) ∧
      (c.loadCode ≠ 0 → Started s (exec (.curveLoad slot p a b gx gy n) s) [] (.curveCode c.loadCode) (200 + c.te) none)) ∧
    (c.loadCode = 0 ↔ (160 ≤ bitLength p ∧ bitLength p ≤ 521) ∧ p % 2 = 1 ∧ a < p ∧ b < p ∧ (4 * a * a * a + 27 * b * b) % p ≠ 0 ∧
      c.on gx gy = true ∧ (n % 2 = 1 ∧ ((n : Int) - (p + 1)) * ((n : Int) - (p + 1)) ≤ 4 * p) ∧ c.mul n (some (gx, gy)) = none))

/-- The sequencer of a tile that runs a job. A segment whose check value agrees becomes usable with the words of its bytes; the
first disagreement has it fetched again, the second ends the job with status PROGRAM_FAULT. The next word is offered in the
later of its cycle by R91 and the cycle after its segment, and those that the stages of a chain head may stand in, are usable; a
failing issue check ends the job with status ISSUE_REFUSED and one DEFERRED event. What is offered, a word or a chain's stages, is admitted in the first cycle in which every
condition holds, one stage a cycle, and not at all while one fails. The admission cycle from engine bounds is the model's
choice, log 34. -/
def Obligations.SequencerOffersAndAdmits : Prop :=
  ∀ (s : State) (t : Nat) (j : Job) (e : TileEntry), s.activeJob t = some j → (s.tile t).entry = some e →
    let u := s.tile t
    (∀ (g : Segment) (cycles : Nat), u.store.find? (fun g => g.usable.isNone) = some g →
      let bs := s.segmentBytes j e g.index
      (crc32c bs = s.segmentCheck j e g.index → ∃ v, exec (.segmentFetchDone t cycles) s = .next v ∧ ∃ x ∈ (v.tile t).store,
        x.index = g.index ∧ x.usable = some (u.cycle + cycles) ∧ x.words.length = e.segWords g.index ∧
        ∀ i, i < e.segWords g.index → x.words[i]? = some (MopWord.parse (slice bs (32 * i) 32))) ∧
      (crc32c bs ≠ s.segmentCheck j e g.index → g.fetches = 0 → ∃ v, exec (.segmentFetchDone t cycles) s = .next v ∧
        v.jobs = s.jobs ∧ ∃ x ∈ (v.tile t).store, x.index = g.index ∧ x.fetches = 1) ∧
      (crc32c bs ≠ s.segmentCheck j e g.index → g.fetches ≠ 0 → ∃ v, exec (.segmentFetchDone t cycles) s = .next v ∧
        (j.ring < 32 → j.heldErrs = [] → JobEnds s v j { status := 0x11, tile := t, code := 0, seq := g.index }) ∧
        (j.heldErrs = [] → Recorded s v (Err.ofJob .deferred 0x05 1 t j 0 g.index 0)))) ∧
    (∀ (g : Segment) (ready : Nat) (w : MopWord), u.store.find? (fun g => g.index == u.next / 4096) = some g →
      u.usableFrom (chainReach e u.next w) = some ready → g.words[u.next % 4096]? = some w → u.offer = none → u.next < e.words →
      (j.committing = false ∨ j.resolving ≠ none) →
      let due := match u.lastAdmit with | some a => max (a + w.issue + 1) (ready + 1) | none => ready + 1
      (s.refusal j t u.next (s.chainWords t e u.next w) = none → ∃ v, exec (.macroOffer t) s = .next v ∧
        (v.tile t).offer = some { word := w, cycle := due, counted := due } ∧ (v.tile t).next = u.next + 1 ∧
        (v.tile t).window = u.window ∧ v.jobs = s.jobs ∧ v.errs = s.errs) ∧
      (∀ seq code creation, s.refusal j t u.next (s.chainWords t e u.next w) = some (seq, code, creation) →
        ∃ v, exec (.macroOffer t) s = .next v ∧ (v.tile t).offer = none ∧
        (j.ring < 32 → j.heldErrs = [] → JobEnds s v j { status := 0x10, tile := t, code := code, seq := seq }) ∧
        (j.heldErrs = [] → Recorded s v (Err.ofJob .deferred 0x04 1 t j seq (code + 256 * creation) 0)))) ∧
    (∀ (o : Offer) (c : Ctx) (rest : List Ctx), u.offer = some o → s.offered t = c :: rest →
      (∀ x, u.staticBlock (c :: rest) = none → u.engineCycle (c :: rest) = some x → u.chainBlock (c :: rest) = false →
        ∃ v new, exec (.macroAdmit t) s = .next v ∧ (v.tile t).offer = none ∧ (v.tile t).next = c.mop.seq + (rest.length + 1) ∧
          (v.tile t).lastAdmit = some (max o.counted x + rest.length) ∧ (v.tile t).window = u.window ++ new ∧
          new.map (·.seq) = (c :: rest).map (·.mop.seq) ∧ new.map (·.word) = (c :: rest).map (·.w) ∧
          new.map (·.admitted) = List.range' (max o.counted x) (rest.length + 1)) ∧
      (u.staticBlock (c :: rest) ≠ none ∨ u.engineCycle (c :: rest) = none ∨ u.chainBlock (c :: rest) = true →
        exec (.macroAdmit t) s = .next s))

/-- Starts, held cycles and ends. A group's signal reaches a member once the last has admitted the macro-operation, 8 cycles after
that on the group leader's die, on another at most 8 and twice the crossing latency. A NOP has no effect. A macro-operation whose
effect is taken leaves the window in its cycle L, later by its held cycles; a BAR in its held cycles; of memory, only its tile's
control page changes. One that has met an abort cause leaves it too: with a recovery under GUARD, with a DEFERRED ABORT without it,
which is held where it is repeated in the replay; of memory, only control pages change. A corrected word is only counted. A held chain stage has the held cycles added. A packet that does not
reach the macro-operation changes nothing; a single-bit error in one is only counted; one resent up to three times is one
CONTAINED error, and after that the macro-operation meets an abort cause. How late a member's own admission is before the last is
the model's choice, log 53, a packet whose resends all fail log 21, what an abort spoils log 20, the held cycles of a tile DMA log
39, of a BAR log 72, which packets reach a macro-operation log 80. -/
def Obligations.MacroOperationsEnd : Prop :=
  ∀ (s : State) (t seq : Nat),
    (∀ c, s.readyCtx t seq (fun w => w.family == 28) = some c → ∃ v, exec (.nop t seq) s = .next v ∧
      (v.mopOf t seq).map (·.done) = some true ∧ v.mem = s.mem ∧ v.errs = s.errs) ∧
    (∀ off, ∃ v, exec (.scratchEccWriteback t off) s = .next v ∧ v.mem = s.mem ∧ v.tiles = s.tiles ∧ v.errs.queue = s.errs.queue ∧
      (s.errs.fatal = false → v.errs = s.errs)) ∧
    ∀ c, s.ctx t seq = some c → s.tileRuns t = true →
      (∀ (g : GroupRun) (delay : Nat), s.runOf c.ring t seq = some g →
        (g.complete = false ∨ (g.member t).any (·.started) = true → exec (.groupStart t seq delay) s = .next s) ∧
        (g.complete = true → (g.member t).any (·.started) = false →
          let last := (g.members.getLast?).any (fun m => m.tile == t)
          let hops := dieHops (dieOfTile (g.tiles.headD 0)) (dieOfTile t)
          ∃ v m h n, exec (.groupStart t seq delay) s = .next v ∧ v.mopOf t seq = some m ∧ m.ready0 = some n ∧
            c.mop.admitted ≤ n ∧ (hops = 0 → last = true → n = c.mop.admitted + 8) ∧
            (hops = 0 → last = false → n = c.mop.admitted + 8 + delay) ∧
            (hops ≠ 0 → last = true → n ≤ c.mop.admitted + (8 + s.pathCycles t (24 * hops))) ∧
            (hops ≠ 0 → last = false → n = c.mop.admitted + delay) ∧
            (c.chain = none ∨ c.w.cstage = 0 → m.start = some (n + 1)) ∧
            v.runOf c.ring t seq = some h ∧ (h.member t).any (·.started) = true)) ∧
      (∀ held : HeldCycles,
        let free := c.mop.done = true ∧ c.mop.stop = none ∧ isSend c.w = false ∧ (isRecv c.w = true → s.recvFirst c = true)
        let n := if c.w.heldCounters = [] then 0 else if isBar c.w then max 1 held.total else held.total
        let last := c.mop.start.getD 0 + (if isBar c.w then 0 else c.mop.latency) + c.mop.held + n
        (¬ free → exec (.macroRetire t seq held) s = .next s) ∧
        (free → ∃ v, exec (.macroRetire t seq held) s = .next v ∧ v.mopOf t seq = none ∧ (v.tile t).cycle = max (s.tile t).cycle last ∧
          (Memory.wf s.mem = true → ∀ a, (∀ o, home a = .scratch t o → o < 0x5FC000) → Memory.get v.mem a = Memory.get s.mem a) ∧
          ∀ x, c.mop.events = [x] → x.cls = .deferred → c.job.mode.guard = .off → Recorded s v x)) ∧
      (∀ cause k, c.job.ending = none → (c.mop.stop = some k ∨ c.mop.stop = none ∧ s.meets c cause = true ∧ k = cause) →
        (∀ ch, c.chain = some ch → c.w.cstage < ch.stages) →
        ∃ v, exec (.macroAbort t seq cause) s = .next v ∧ v.mopOf t seq = none ∧
          (Memory.wf s.mem = true → ∀ a, (∀ x o, home a = .scratch x o → o < 0x5FC000) → Memory.get v.mem a = Memory.get s.mem a) ∧
          let e := Err.ofJob .deferred 0x0A 1 t c.job seq (abortAddress k) (abortCode k)
          (c.job.mode.guard = .off → Recorded s v e) ∧
          (c.job.mode.guard ≠ .off → (t, seq, abortCode k) ∈ c.job.aborted →
            ∃ j, v.job c.ring = some j ∧ j.heldErrs = c.job.heldErrs ++ [e] ∧ v.errs.queue = s.errs.queue) ∧
          (c.job.mode.guard ≠ .off → (t, seq, abortCode k) ∉ c.job.aborted →
            ∃ j, v.job c.ring = some j ∧ j.recovery.isSome = true ∧ (t, seq, abortCode k) ∈ j.aborted)) ∧
      (∀ cause, c.job.ending ≠ none ∨ c.mop.stop = none ∧ s.meets c cause = false → exec (.macroAbort t seq cause) s = .next s) ∧
      (∀ ch cycles full, c.chain = some ch → c.mop.start.isSome = true → c.mop.stop = none →
        let waits := if full = true then ch.fills c.w.cstage else c.w.cstage != 0
        (waits = true → ∃ v, exec (.chainStageResume t seq cycles full) s = .next v ∧
          v.mopOf t seq = some { c.mop with held := c.mop.held + cycles }) ∧
        (waits = false → exec (.chainStageResume t seq cycles full) s = .next s)) ∧
      (∀ path error, c.mop.start.isSome = true → c.mop.done = false →
        (s.onPath c path = false ∨ error = .clean ∨ error = .uncorrectable 0 → exec (.packetReceive path t seq error) s = .next s) ∧
        (s.onPath c path = true → error = .single → ∃ v, exec (.packetReceive path t seq error) s = .next v ∧ v.tiles = s.tiles ∧
          v.mem = s.mem ∧ v.errs.queue = s.errs.queue) ∧
        (∀ n, s.onPath c path = true → error = .uncorrectable n → 1 ≤ n → n ≤ 3 → ∃ v, exec (.packetReceive path t seq error) s = .next v ∧
          v.tiles = s.tiles ∧ Recorded s v (Err.ofJob .contained 0x21 (packetSource path t).1 (packetSource path t).2 c.job seq 0 n)) ∧
        (∀ n, s.onPath c path = true → error = .uncorrectable n → 3 < n → ∃ v, exec (.packetReceive path t seq error) s = .next v ∧
          v.mopOf t seq = some { c.mop with stop := some .transit } ∧ v.mem = s.mem))
end

