-- ==== Sys2Proof/Laws/Memory.lean ====
section
/-!
SUPPORT. Memory as a list of cells: every memory operation keeps the canonical form, a read gives back what was written,
and a write leaves every other address alone.
-/
namespace Sys2Proof.Machine

/-! ## The canonical form is kept -/

theorem Memory.wfFrom_weaken {lo lo' : Nat} {m : Memory} (h : lo' ≤ lo) (w : Memory.wfFrom lo m = true) :
    Memory.wfFrom lo' m = true := by
  cases m with
  | nil => rfl
  | cons c m =>
    simp only [Memory.wfFrom, Bool.and_eq_true, decide_eq_true_eq] at w ⊢
    exact ⟨⟨Nat.le_trans h w.1.1, w.1.2⟩, w.2⟩

theorem Memory.wfFrom_put {lo a : Nat} {b : Byte} {m : Memory} (h : lo ≤ a) (w : Memory.wfFrom lo m = true) :
    Memory.wfFrom lo (Memory.put m a b) = true := by
  induction m generalizing lo with
  | nil => by_cases hb : b = 0 <;> simp_all [Memory.put, Memory.wfFrom]
  | cons c m ih =>
    obtain ⟨k, v⟩ := c
    simp only [Memory.wfFrom, Bool.and_eq_true, decide_eq_true_eq] at w
    obtain ⟨⟨h1, h2⟩, h3⟩ := w
    simp only [Memory.put]
    split
    · split
      · simp_all [Memory.wfFrom]
      · simp only [Memory.wfFrom, Bool.and_eq_true, decide_eq_true_eq]
        exact ⟨⟨h, ‹_›⟩, ⟨by omega, h2⟩, h3⟩
    · split
      · split
        · exact Memory.wfFrom_weaken (by omega) h3
        · subst a
          simp only [Memory.wfFrom, Bool.and_eq_true, decide_eq_true_eq]
          exact ⟨⟨h, ‹_›⟩, h3⟩
      · simp only [Memory.wfFrom, Bool.and_eq_true, decide_eq_true_eq]
        exact ⟨⟨h1, h2⟩, ih (by omega) h3⟩

theorem Memory.wf_put {m : Memory} (a : Nat) (b : Byte) (w : Memory.wf m = true) :
    Memory.wf (Memory.put m a b) = true := Memory.wfFrom_put (Nat.zero_le a) w

theorem Memory.wf_putAll {m : Memory} (a : Nat) (bs : List Byte) (w : Memory.wf m = true) :
    Memory.wf (Memory.putAll m a bs) = true := by
  induction bs generalizing m a with
  | nil => exact w
  | cons b bs ih => exact ih (a + 1) (Memory.wf_put a b w)

theorem Memory.wf_putMasked {m : Memory} (line mask i : Nat) (bs : List Byte) (w : Memory.wf m = true) :
    Memory.wf (Memory.putMasked m line mask i bs) = true := by
  induction bs generalizing m i with
  | nil => exact w
  | cons b bs ih =>
    simp only [Memory.putMasked]
    split
    · exact ih (i + 1) (Memory.wf_put _ _ w)
    · exact ih (i + 1) w

theorem Memory.wfFrom_filter {lo : Nat} {m : Memory} (p : Host.Cell → Bool) (w : Memory.wfFrom lo m = true) :
    Memory.wfFrom lo (m.filter p) = true := by
  induction m generalizing lo with
  | nil => exact w
  | cons c m ih =>
    obtain ⟨k, v⟩ := c
    simp only [Memory.wfFrom, Bool.and_eq_true, decide_eq_true_eq] at w
    simp only [List.filter_cons]
    split
    · simp only [Memory.wfFrom, Bool.and_eq_true, decide_eq_true_eq]
      exact ⟨w.1, ih w.2⟩
    · exact Memory.wfFrom_weaken (by omega) (ih w.2)

theorem Memory.wf_filter {m : Memory} (p : Host.Cell → Bool) (w : Memory.wf m = true) :
    Memory.wf (m.filter p) = true := Memory.wfFrom_filter p w

theorem Memory.wf_clear {m : Memory} (lo hi : Nat) (w : Memory.wf m = true) :
    Memory.wf (Memory.clear m lo hi) = true := Memory.wf_filter _ w

/-! ## Reading what was written -/

theorem Memory.get_below {lo a : Nat} {m : Memory} (w : Memory.wfFrom lo m = true) (h : a < lo) :
    Memory.get m a = 0 := by
  cases m with
  | nil => rfl
  | cons c m =>
    simp only [Memory.wfFrom, Bool.and_eq_true, decide_eq_true_eq] at w
    simp only [Memory.get]
    rw [if_pos (by omega)]

theorem Memory.get_put_from {lo : Nat} {m : Memory} (w : Memory.wfFrom lo m = true) (a x : Nat) (b : Byte) :
    Memory.get (Memory.put m a b) x = if x = a then b else Memory.get m x := by
  induction m generalizing lo with
  | nil =>
    simp only [Memory.put]
    by_cases hb : b = 0
    · rw [if_pos hb]
      by_cases hx : x = a
      · rw [if_pos hx, hb]
        rfl
      · rw [if_neg hx]
    · rw [if_neg hb]
      simp only [Memory.get]
      by_cases hx : x = a
      · rw [if_neg (by omega), if_pos hx]
      · rw [if_neg hx]
        split <;> rfl
  | cons c m ih =>
    obtain ⟨k, v⟩ := c
    simp only [Memory.wfFrom, Bool.and_eq_true, decide_eq_true_eq] at w
    obtain ⟨⟨h1, h2⟩, h3⟩ := w
    simp only [Memory.put]
    by_cases hak : a < k
    · rw [if_pos hak]
      by_cases hb : b = 0
      · rw [if_pos hb]
        by_cases hx : x = a
        · subst hx
          simp [Memory.get, hak, hb]
        · rw [if_neg hx]
      · rw [if_neg hb]
        by_cases hx : x = a
        · subst hx
          simp [Memory.get]
        · simp only [Memory.get, if_neg hx]
          by_cases hxa : x < a
          · rw [if_pos hxa, if_pos (by omega)]
          · rw [if_neg hxa]
    · rw [if_neg hak]
      by_cases hk : a = k
      · subst hk
        rw [if_pos rfl]
        by_cases hb : b = 0
        · rw [if_pos hb]
          by_cases hx : x = a
          · subst hx
            rw [if_pos rfl, hb]
            exact Memory.get_below h3 (by omega)
          · rw [if_neg hx]
            simp only [Memory.get]
            by_cases hxa : x < a
            · rw [if_pos hxa]
              exact Memory.get_below h3 (by omega)
            · rw [if_neg hxa, if_neg hx]
        · rw [if_neg hb]
          by_cases hx : x = a
          · subst hx
            simp [Memory.get]
          · simp only [Memory.get, if_neg hx]
      · rw [if_neg hk]
        simp only [Memory.get]
        rw [ih h3]
        by_cases hx : x = a
        · subst hx
          rw [if_neg hak, if_neg hk, if_pos rfl, if_pos rfl]
        · rw [if_neg hx]
          simp [hx]

/-- A read after a write of one byte. -/
theorem Memory.get_put {m : Memory} (w : Memory.wf m = true) (a x : Nat) (b : Byte) :
    Memory.get (Memory.put m a b) x = if x = a then b else Memory.get m x := Memory.get_put_from w a x b

/-- Writing bytes leaves every address outside them alone. -/
theorem Memory.get_putAll_outside {m : Memory} (w : Memory.wf m = true) (a x : Nat) (bs : List Byte)
    (h : x < a ∨ a + bs.length ≤ x) : Memory.get (Memory.putAll m a bs) x = Memory.get m x := by
  induction bs generalizing m a with
  | nil => rfl
  | cons b bs ih =>
    simp only [List.length_cons] at h
    simp only [Memory.putAll]
    rw [ih (Memory.wf_put a b w) (a + 1) (by omega), Memory.get_put w, if_neg (by omega)]

/-- A read of what a write of bytes stored. -/
theorem Memory.get_putAll_inside {m : Memory} (w : Memory.wf m = true) (a : Nat) (bs : List Byte) (i : Nat)
    (h : i < bs.length) : Memory.get (Memory.putAll m a bs) (a + i) = bs[i] := by
  induction bs generalizing m a i with
  | nil => simp at h
  | cons b bs ih =>
    simp only [Memory.putAll]
    cases i with
    | zero =>
      rw [Memory.get_putAll_outside (Memory.wf_put a b w) _ _ _ (by omega), Memory.get_put w]
      simp
    | succ i =>
      have h' : i < bs.length := by simpa using h
      have e : a + (i + 1) = a + 1 + i := by omega
      rw [e, ih (Memory.wf_put a b w) (a + 1) i h']
      simp

/-- A masked write leaves every address outside its bytes alone. -/
theorem Memory.get_putMasked_outside {m : Memory} (w : Memory.wf m = true) (line mask i x : Nat) (bs : List Byte)
    (h : x < line + i ∨ line + i + bs.length ≤ x) :
    Memory.get (Memory.putMasked m line mask i bs) x = Memory.get m x := by
  induction bs generalizing m i with
  | nil => rfl
  | cons b bs ih =>
    simp only [List.length_cons] at h
    simp only [Memory.putMasked]
    split
    · rw [ih (Memory.wf_put _ _ w) (i + 1) (by omega), Memory.get_put w, if_neg (by omega)]
    · exact ih w (i + 1) (by omega)

/-- A masked write leaves the bytes its mask does not name alone. -/
theorem Memory.get_putMasked_unmasked {m : Memory} (w : Memory.wf m = true) (line mask i x : Nat) (bs : List Byte)
    (h : bit mask x = false) : Memory.get (Memory.putMasked m line mask i bs) (line + x) = Memory.get m (line + x) := by
  induction bs generalizing m i with
  | nil => rfl
  | cons b bs ih =>
    simp only [Memory.putMasked]
    split
    · rename_i hb
      have : x ≠ i := by rintro rfl; simp [h] at hb
      rw [ih (Memory.wf_put _ _ w) (i + 1), Memory.get_put w, if_neg (by omega)]
    · exact ih w (i + 1)

/-- Clearing a range leaves every address outside it alone. -/
theorem Memory.get_clear_outside {lo : Nat} {m : Memory} (w : Memory.wfFrom lo m = true) (l h x : Nat)
    (hx : x < l ∨ h ≤ x) : Memory.get (Memory.clear m l h) x = Memory.get m x := by
  induction m generalizing lo with
  | nil => rfl
  | cons c m ih =>
    obtain ⟨k, v⟩ := c
    simp only [Memory.wfFrom, Bool.and_eq_true, decide_eq_true_eq] at w
    have e := ih w.2
    simp only [Memory.clear, List.filter_cons] at e ⊢
    split
    · simp only [Memory.get]
      rw [e]
    · rename_i hp
      simp only [Bool.not_eq_true, Bool.not_eq_false', Bool.and_eq_true, decide_eq_true_eq] at hp
      rw [e]
      simp only [Memory.get]
      by_cases hk : x < k
      · rw [if_pos hk]
        exact Memory.get_below w.2 (by omega)
      · rw [if_neg hk, if_neg (by omega)]

end Sys2Proof.Machine
end

