-- ==== Sys2Proof/Laws/Evolves.lean ====
section
/-!
SUPPORT. What an operation can do, said once: a relation between the state before and the state after. The parts of the
state it may not change stay; memory stays canonical, the waiting commands and the boot flash stay, time does not go back,
the error queue stays within its 64 entries (R528), FATAL stays but for a reset (R532), the fuses never go back (R494), the
write-combining buffers stay as R322 says, and no ring gets a second admitted job (R406).
-/
namespace Sys2Proof.Machine

class MayClock (F : Part → Bool) : Prop where
  mayClock : F .clock = true
class MayFreeCount (F : Part → Bool) : Prop where
  mayFreeCount : F .freeCount = true
class MayResp (F : Part → Bool) : Prop where
  mayResp : F .resp = true
class MayMsix (F : Part → Bool) : Prop where
  mayMsix : F .msix = true
class MayPageRequests (F : Part → Bool) : Prop where
  mayPageRequests : F .pageRequests = true
class MaySel (F : Part → Bool) : Prop where
  maySel : F .sel = true
class MayReadLatch (F : Part → Bool) : Prop where
  mayReadLatch : F .readLatch = true
class MayLowHeld (F : Part → Bool) : Prop where
  mayLowHeld : F .lowHeld = true
class MayMode (F : Part → Bool) : Prop where
  mayMode : F .mode = true
class MayWdog (F : Part → Bool) : Prop where
  mayWdog : F .wdog = true
class MayCancelTag (F : Part → Bool) : Prop where
  mayCancelTag : F .cancelTag = true
class MayCancelRing (F : Part → Bool) : Prop where
  mayCancelRing : F .cancelRing = true
class MayCancelResult (F : Part → Bool) : Prop where
  mayCancelResult : F .cancelResult = true
class MayJobAge (F : Part → Bool) : Prop where
  mayJobAge : F .jobAge = true
class MayHalt (F : Part → Bool) : Prop where
  mayHalt : F .halt = true
class MayTelemSel (F : Part → Bool) : Prop where
  mayTelemSel : F .telemSel = true
class MayTele (F : Part → Bool) : Prop where
  mayTele : F .tele = true
class MayPsetLoader (F : Part → Bool) : Prop where
  mayPsetLoader : F .psetLoader = true
class MayPsets (F : Part → Bool) : Prop where
  mayPsets : F .psets = true
class MayPrkLoader (F : Part → Bool) : Prop where
  mayPrkLoader : F .prkLoader = true
class MayPrks (F : Part → Bool) : Prop where
  mayPrks : F .prks = true
class MayRings (F : Part → Bool) : Prop where
  mayRings : F .rings = true
class MayEvq (F : Part → Bool) : Prop where
  mayEvq : F .evq = true
class MayRrNext (F : Part → Bool) : Prop where
  mayRrNext : F .rrNext = true
class MayJobs (F : Part → Bool) : Prop where
  mayJobs : F .jobs = true
class MayGroups (F : Part → Bool) : Prop where
  mayGroups : F .groups = true
class MaySpares (F : Part → Bool) : Prop where
  maySpares : F .spares = true
class MayMem (F : Part → Bool) : Prop where
  mayMem : F .mem = true
class MayLinePoison (F : Part → Bool) : Prop where
  mayLinePoison : F .linePoison = true
class MayHbm (F : Part → Bool) : Prop where
  mayHbm : F .hbm = true
class MayPoisonRequests (F : Part → Bool) : Prop where
  mayPoisonRequests : F .poisonRequests = true
class MayNearScrub (F : Part → Bool) : Prop where
  mayNearScrub : F .nearScrub = true
class MayLink (F : Part → Bool) : Prop where
  mayLink : F .link = true
class MayErrs (F : Part → Bool) : Prop where
  mayErrs : F .errs = true
class MayDies (F : Part → Bool) : Prop where
  mayDies : F .dies = true
class MayPower (F : Part → Bool) : Prop where
  mayPower : F .power = true
class MayPins (F : Part → Bool) : Prop where
  mayPins : F .pins = true
class MayTrust (F : Part → Bool) : Prop where
  mayTrust : F .trust = true
class MayMbx (F : Part → Bool) : Prop where
  mayMbx : F .mbx = true
class MayBodkin (F : Part → Bool) : Prop where
  mayBodkin : F .bodkin = true
class MayCvus (F : Part → Bool) : Prop where
  mayCvus : F .cvus = true
class MayBoot (F : Part → Bool) : Prop where
  mayBoot : F .boot = true
class MayJtag (F : Part → Bool) : Prop where
  mayJtag : F .jtag = true
class MayTVregs (F : Part → Bool) : Prop where
  mayTVregs : F .tVregs = true
class MayTMarks (F : Part → Bool) : Prop where
  mayTMarks : F .tMarks = true
class MayTPlace (F : Part → Bool) : Prop where
  mayTPlace : F .tPlace = true
class MayTProgram (F : Part → Bool) : Prop where
  mayTProgram : F .tProgram = true
class MayTWindow (F : Part → Bool) : Prop where
  mayTWindow : F .tWindow = true
class MayTStreams (F : Part → Bool) : Prop where
  mayTStreams : F .tStreams = true
class MayTQueues (F : Part → Bool) : Prop where
  mayTQueues : F .tQueues = true
class MayTWindows (F : Part → Bool) : Prop where
  mayTWindows : F .tWindows = true
class MayTDrop (F : Part → Bool) : Prop where
  mayTDrop : F .tDrop = true
class MayTTemp (F : Part → Bool) : Prop where
  mayTTemp : F .tTemp = true
class MayFuses (F : Part → Bool) : Prop where
  mayFuses : F .fuses = true
class MayFatal (F : Part → Bool) : Prop where
  mayFatal : F .fatal = true

/-- What a write of a memory line may change. -/
class Stores (F : Part → Bool) : Prop extends MayMem F, MayLinePoison F, MayHbm F, MayTele F, MayTMarks F

/-- What an error raised may change. -/
class Raises (F : Part → Bool) : Prop extends MayErrs F, MayJobs F, MayDies F, MayPins F, MayHbm F, MayTele F

/-- Every part but the fuses may change. -/
class MayAll (F : Part → Bool) : Prop extends Stores F, Raises F,
    MayClock F, MayFreeCount F, MayResp F, MayMsix F, MayPageRequests F, MaySel F, MayReadLatch F, MayLowHeld F,
    MayMode F, MayWdog F, MayCancelTag F, MayCancelRing F, MayCancelResult F, MayJobAge F, MayHalt F,
    MayTelemSel F, MayPsetLoader F, MayPsets F, MayPrkLoader F, MayPrks F, MayRings F, MayEvq F, MayRrNext F,
    MayGroups F, MaySpares F, MayPoisonRequests F, MayNearScrub F, MayLink F, MayPower F, MayTrust F, MayMbx F,
    MayBodkin F, MayCvus F, MayBoot F, MayJtag F, MayTVregs F, MayTPlace F, MayTProgram F, MayTWindow F,
    MayTStreams F, MayTQueues F, MayTWindows F, MayTDrop F, MayTTemp F, MayFatal F

/-- The fuses of R494 only go up. -/
structure FusesUp (a b : Trust) : Prop where
  trusted : a.svnTrusted ≤ b.svnTrusted
  service : a.svnService ≤ b.svnService
  revoked : a.revoked ||| b.revoked = b.revoked

/-- An update of trust that leaves the fuses alone. -/
structure FusesSame (a b : Trust) : Prop where
  trusted : b.svnTrusted = a.svnTrusted
  service : b.svnService = a.svnService
  revoked : b.revoked = a.revoked

/-- What a list of operations does that may change the parts `F` and no others. -/
structure Evolves (F : Part → Bool) (s t : State) : Prop where
  kept : ∀ p, F p = false → p.same s t
  mem : Memory.wf s.mem = true → Memory.wf t.mem = true
  flash : t.flash = s.flash
  pending : t.pending = s.pending
  clock : s.clock ≤ t.clock
  queue : s.errs.queue.length ≤ 64 → t.errs.queue.length ≤ 64
  fuses : FusesUp s.trust t.trust
  wcb : wcbsOk s.hbm = true → wcbsOk t.hbm = true
  jobs : ringsOnce s.jobs = true → ringsOnce t.jobs = true

/-- A tile before and after an operation that may change the parts `F`. -/
def TKept (F : Part → Bool) (u v : Tile) : Prop :=
  (F .tVregs = false → v.regs = u.regs) ∧
  (F .tMarks = false → v.faults = u.faults) ∧
  (F .tPlace = false → v.place = u.place) ∧
  (F .tProgram = false → v.program = u.program) ∧
  (F .tWindow = false → v.sequencer = u.sequencer) ∧
  (F .tStreams = false → v.streams = u.streams) ∧
  (F .tQueues = false → v.queues = u.queues) ∧
  (F .tWindows = false → v.windows = u.windows) ∧
  (F .tDrop = false → v.drops = u.drops) ∧
  (F .tTemp = false → v.budget = u.budget)

theorem FusesUp.refl (a : Trust) : FusesUp a a := ⟨Nat.le_refl _, Nat.le_refl _, by simp⟩

theorem FusesUp.trans {a b c : Trust} (h : FusesUp a b) (g : FusesUp b c) : FusesUp a c where
  trusted := Nat.le_trans h.trusted g.trusted
  service := Nat.le_trans h.service g.service
  revoked := by rw [← g.revoked, ← BitVec.or_assoc, h.revoked]

theorem FusesSame.up {a b : Trust} (h : FusesSame a b) : FusesUp a b :=
  ⟨Nat.le_of_eq h.trusted.symm, Nat.le_of_eq h.service.symm, by rw [h.revoked]; simp⟩

theorem Part.same_refl (s : State) (p : Part) : p.same s s := by
  cases p <;> first | exact rfl | exact fun _ => rfl | exact ⟨rfl, rfl, rfl⟩ | exact id

theorem Part.same_trans {s t u : State} {p : Part} (h : p.same s t) (g : p.same t u) : p.same s u := by
  cases p
  case fuses => exact ⟨g.1.trans h.1, g.2.1.trans h.2.1, g.2.2.trans h.2.2⟩
  case fatal => exact fun e => g (h e)
  all_goals first
    | exact Eq.trans g h
    | exact fun x => (g x).trans (h x)

/-- A part that is not in `F` is not one that may change. -/
theorem not_may {F : Part → Bool} {p : Part} {a : Prop} (h : F p = true) (g : F p = false) : a := by
  rw [h] at g
  cases g

namespace Evolves

variable {F : Part → Bool} {s t u a b : State}

theorem refl (F : Part → Bool) (s : State) : Evolves F s s :=
  ⟨fun p _ => p.same_refl s, id, rfl, rfl, Nat.le_refl _, id, FusesUp.refl _, id, id⟩

theorem trans (h : Evolves F s t) (g : Evolves F t u) : Evolves F s u :=
  ⟨fun p e => Part.same_trans (h.kept p e) (g.kept p e), g.mem ∘ h.mem, g.flash.trans h.flash, g.pending.trans h.pending,
    Nat.le_trans h.clock g.clock, g.queue ∘ h.queue, h.fuses.trans g.fuses, g.wcb ∘ h.wcb, g.jobs ∘ h.jobs⟩

theorem set_freeCount [MayFreeCount F] (h : Evolves F s t) {x : Nat} : Evolves F s { t with freeCount := x } := by
  refine ⟨fun p e => ?_, h.mem, h.flash, h.pending, h.clock, h.queue, h.fuses, h.wcb, h.jobs⟩
  have g := h.kept p e
  cases p
  case freeCount => exact not_may MayFreeCount.mayFreeCount e
  all_goals exact g

theorem set_resp [MayResp F] (h : Evolves F s t) {x : Response} : Evolves F s { t with resp := x } := by
  refine ⟨fun p e => ?_, h.mem, h.flash, h.pending, h.clock, h.queue, h.fuses, h.wcb, h.jobs⟩
  have g := h.kept p e
  cases p
  case resp => exact not_may MayResp.mayResp e
  all_goals exact g

theorem set_msix [MayMsix F] (h : Evolves F s t) {x : List Nat} : Evolves F s { t with msix := x } := by
  refine ⟨fun p e => ?_, h.mem, h.flash, h.pending, h.clock, h.queue, h.fuses, h.wcb, h.jobs⟩
  have g := h.kept p e
  cases p
  case msix => exact not_may MayMsix.mayMsix e
  all_goals exact g

theorem set_pageRequests [MayPageRequests F] (h : Evolves F s t) {x : List (Nat × Nat × Nat)} : Evolves F s { t with pageRequests := x } := by
  refine ⟨fun p e => ?_, h.mem, h.flash, h.pending, h.clock, h.queue, h.fuses, h.wcb, h.jobs⟩
  have g := h.kept p e
  cases p
  case pageRequests => exact not_may MayPageRequests.mayPageRequests e
  all_goals exact g

theorem set_sel [MaySel F] (h : Evolves F s t) {x : Tab 4 Selects} : Evolves F s { t with sel := x } := by
  refine ⟨fun p e => ?_, h.mem, h.flash, h.pending, h.clock, h.queue, h.fuses, h.wcb, h.jobs⟩
  have g := h.kept p e
  cases p
  case sel => exact not_may MaySel.maySel e
  all_goals exact g

theorem set_readLatch [MayReadLatch F] (h : Evolves F s t) {x : Option (Nat × Word)} : Evolves F s { t with readLatch := x } := by
  refine ⟨fun p e => ?_, h.mem, h.flash, h.pending, h.clock, h.queue, h.fuses, h.wcb, h.jobs⟩
  have g := h.kept p e
  cases p
  case readLatch => exact not_may MayReadLatch.mayReadLatch e
  all_goals exact g

theorem set_lowHeld [MayLowHeld F] (h : Evolves F s t) {x : List (Nat × Word)} : Evolves F s { t with lowHeld := x } := by
  refine ⟨fun p e => ?_, h.mem, h.flash, h.pending, h.clock, h.queue, h.fuses, h.wcb, h.jobs⟩
  have g := h.kept p e
  cases p
  case lowHeld => exact not_may MayLowHeld.mayLowHeld e
  all_goals exact g

theorem set_mode [MayMode F] (h : Evolves F s t) {x : Mode} : Evolves F s { t with mode := x } := by
  refine ⟨fun p e => ?_, h.mem, h.flash, h.pending, h.clock, h.queue, h.fuses, h.wcb, h.jobs⟩
  have g := h.kept p e
  cases p
  case mode => exact not_may MayMode.mayMode e
  all_goals exact g

theorem set_wdog [MayWdog F] (h : Evolves F s t) {x : Nat} : Evolves F s { t with wdog := x } := by
  refine ⟨fun p e => ?_, h.mem, h.flash, h.pending, h.clock, h.queue, h.fuses, h.wcb, h.jobs⟩
  have g := h.kept p e
  cases p
  case wdog => exact not_may MayWdog.mayWdog e
  all_goals exact g

theorem set_cancelTag [MayCancelTag F] (h : Evolves F s t) {x : Word} : Evolves F s { t with cancelTag := x } := by
  refine ⟨fun p e => ?_, h.mem, h.flash, h.pending, h.clock, h.queue, h.fuses, h.wcb, h.jobs⟩
  have g := h.kept p e
  cases p
  case cancelTag => exact not_may MayCancelTag.mayCancelTag e
  all_goals exact g

theorem set_cancelRing [MayCancelRing F] (h : Evolves F s t) {x : Nat} : Evolves F s { t with cancelRing := x } := by
  refine ⟨fun p e => ?_, h.mem, h.flash, h.pending, h.clock, h.queue, h.fuses, h.wcb, h.jobs⟩
  have g := h.kept p e
  cases p
  case cancelRing => exact not_may MayCancelRing.mayCancelRing e
  all_goals exact g

theorem set_cancelResult [MayCancelResult F] (h : Evolves F s t) {x : Nat} : Evolves F s { t with cancelResult := x } := by
  refine ⟨fun p e => ?_, h.mem, h.flash, h.pending, h.clock, h.queue, h.fuses, h.wcb, h.jobs⟩
  have g := h.kept p e
  cases p
  case cancelResult => exact not_may MayCancelResult.mayCancelResult e
  all_goals exact g

theorem set_jobAge [MayJobAge F] (h : Evolves F s t) {x : Nat} : Evolves F s { t with jobAge := x } := by
  refine ⟨fun p e => ?_, h.mem, h.flash, h.pending, h.clock, h.queue, h.fuses, h.wcb, h.jobs⟩
  have g := h.kept p e
  cases p
  case jobAge => exact not_may MayJobAge.mayJobAge e
  all_goals exact g

theorem set_halt [MayHalt F] (h : Evolves F s t) {x : HaltState} : Evolves F s { t with halt := x } := by
  refine ⟨fun p e => ?_, h.mem, h.flash, h.pending, h.clock, h.queue, h.fuses, h.wcb, h.jobs⟩
  have g := h.kept p e
  cases p
  case halt => exact not_may MayHalt.mayHalt e
  all_goals exact g

theorem set_telemSel [MayTelemSel F] (h : Evolves F s t) {x : TelemSel} : Evolves F s { t with telemSel := x } := by
  refine ⟨fun p e => ?_, h.mem, h.flash, h.pending, h.clock, h.queue, h.fuses, h.wcb, h.jobs⟩
  have g := h.kept p e
  cases p
  case telemSel => exact not_may MayTelemSel.mayTelemSel e
  all_goals exact g

theorem set_tele [MayTele F] (h : Evolves F s t) {x : Telemetry} : Evolves F s { t with tele := x } := by
  refine ⟨fun p e => ?_, h.mem, h.flash, h.pending, h.clock, h.queue, h.fuses, h.wcb, h.jobs⟩
  have g := h.kept p e
  cases p
  case tele => exact not_may MayTele.mayTele e
  all_goals exact g

theorem set_psetLoader [MayPsetLoader F] (h : Evolves F s t) {x : Loader} : Evolves F s { t with psetLoader := x } := by
  refine ⟨fun p e => ?_, h.mem, h.flash, h.pending, h.clock, h.queue, h.fuses, h.wcb, h.jobs⟩
  have g := h.kept p e
  cases p
  case psetLoader => exact not_may MayPsetLoader.mayPsetLoader e
  all_goals exact g

theorem set_psets [MayPsets F] (h : Evolves F s t) {x : Tab 64 (Option PSet)} : Evolves F s { t with psets := x } := by
  refine ⟨fun p e => ?_, h.mem, h.flash, h.pending, h.clock, h.queue, h.fuses, h.wcb, h.jobs⟩
  have g := h.kept p e
  cases p
  case psets => exact not_may MayPsets.mayPsets e
  all_goals exact g

theorem set_prkLoader [MayPrkLoader F] (h : Evolves F s t) {x : Loader} : Evolves F s { t with prkLoader := x } := by
  refine ⟨fun p e => ?_, h.mem, h.flash, h.pending, h.clock, h.queue, h.fuses, h.wcb, h.jobs⟩
  have g := h.kept p e
  cases p
  case prkLoader => exact not_may MayPrkLoader.mayPrkLoader e
  all_goals exact g

theorem set_prks [MayPrks F] (h : Evolves F s t) {x : Tab 16 (Option PrkInfo)} : Evolves F s { t with prks := x } := by
  refine ⟨fun p e => ?_, h.mem, h.flash, h.pending, h.clock, h.queue, h.fuses, h.wcb, h.jobs⟩
  have g := h.kept p e
  cases p
  case prks => exact not_may MayPrks.mayPrks e
  all_goals exact g

theorem set_rings [MayRings F] (h : Evolves F s t) {x : Tab 32 Ring} : Evolves F s { t with rings := x } := by
  refine ⟨fun p e => ?_, h.mem, h.flash, h.pending, h.clock, h.queue, h.fuses, h.wcb, h.jobs⟩
  have g := h.kept p e
  cases p
  case rings => exact not_may MayRings.mayRings e
  all_goals exact g

theorem set_evq [MayEvq F] (h : Evolves F s t) {x : EventRing} : Evolves F s { t with evq := x } := by
  refine ⟨fun p e => ?_, h.mem, h.flash, h.pending, h.clock, h.queue, h.fuses, h.wcb, h.jobs⟩
  have g := h.kept p e
  cases p
  case evq => exact not_may MayEvq.mayEvq e
  all_goals exact g

theorem set_rrNext [MayRrNext F] (h : Evolves F s t) {x : Nat} : Evolves F s { t with rrNext := x } := by
  refine ⟨fun p e => ?_, h.mem, h.flash, h.pending, h.clock, h.queue, h.fuses, h.wcb, h.jobs⟩
  have g := h.kept p e
  cases p
  case rrNext => exact not_may MayRrNext.mayRrNext e
  all_goals exact g

theorem set_groups [MayGroups F] (h : Evolves F s t) {x : List GroupRun} : Evolves F s { t with groups := x } := by
  refine ⟨fun p e => ?_, h.mem, h.flash, h.pending, h.clock, h.queue, h.fuses, h.wcb, h.jobs⟩
  have g := h.kept p e
  cases p
  case groups => exact not_may MayGroups.mayGroups e
  all_goals exact g

theorem set_spares [MaySpares F] (h : Evolves F s t) {x : Tab 4 (List Nat)} : Evolves F s { t with spares := x } := by
  refine ⟨fun p e => ?_, h.mem, h.flash, h.pending, h.clock, h.queue, h.fuses, h.wcb, h.jobs⟩
  have g := h.kept p e
  cases p
  case spares => exact not_may MaySpares.maySpares e
  all_goals exact g

theorem set_linePoison [MayLinePoison F] (h : Evolves F s t) {x : List Nat} : Evolves F s { t with linePoison := x } := by
  refine ⟨fun p e => ?_, h.mem, h.flash, h.pending, h.clock, h.queue, h.fuses, h.wcb, h.jobs⟩
  have g := h.kept p e
  cases p
  case linePoison => exact not_may MayLinePoison.mayLinePoison e
  all_goals exact g

theorem set_poisonRequests [MayPoisonRequests F] (h : Evolves F s t) {x : List PoisonRequest} : Evolves F s { t with poisonRequests := x } := by
  refine ⟨fun p e => ?_, h.mem, h.flash, h.pending, h.clock, h.queue, h.fuses, h.wcb, h.jobs⟩
  have g := h.kept p e
  cases p
  case poisonRequests => exact not_may MayPoisonRequests.mayPoisonRequests e
  all_goals exact g

theorem set_nearScrub [MayNearScrub F] (h : Evolves F s t) {x : Tab 4 Nat} : Evolves F s { t with nearScrub := x } := by
  refine ⟨fun p e => ?_, h.mem, h.flash, h.pending, h.clock, h.queue, h.fuses, h.wcb, h.jobs⟩
  have g := h.kept p e
  cases p
  case nearScrub => exact not_may MayNearScrub.mayNearScrub e
  all_goals exact g

theorem set_link [MayLink F] (h : Evolves F s t) {x : Link} : Evolves F s { t with link := x } := by
  refine ⟨fun p e => ?_, h.mem, h.flash, h.pending, h.clock, h.queue, h.fuses, h.wcb, h.jobs⟩
  have g := h.kept p e
  cases p
  case link => exact not_may MayLink.mayLink e
  all_goals exact g

theorem set_dies [MayDies F] (h : Evolves F s t) {x : Tab 4 Die} : Evolves F s { t with dies := x } := by
  refine ⟨fun p e => ?_, h.mem, h.flash, h.pending, h.clock, h.queue, h.fuses, h.wcb, h.jobs⟩
  have g := h.kept p e
  cases p
  case dies => exact not_may MayDies.mayDies e
  all_goals exact g

theorem set_power [MayPower F] (h : Evolves F s t) {x : Power} : Evolves F s { t with power := x } := by
  refine ⟨fun p e => ?_, h.mem, h.flash, h.pending, h.clock, h.queue, h.fuses, h.wcb, h.jobs⟩
  have g := h.kept p e
  cases p
  case power => exact not_may MayPower.mayPower e
  all_goals exact g

theorem set_pins [MayPins F] (h : Evolves F s t) {x : Pins} : Evolves F s { t with pins := x } := by
  refine ⟨fun p e => ?_, h.mem, h.flash, h.pending, h.clock, h.queue, h.fuses, h.wcb, h.jobs⟩
  have g := h.kept p e
  cases p
  case pins => exact not_may MayPins.mayPins e
  all_goals exact g

theorem set_mbx [MayMbx F] (h : Evolves F s t) {x : Mailbox} : Evolves F s { t with mbx := x } := by
  refine ⟨fun p e => ?_, h.mem, h.flash, h.pending, h.clock, h.queue, h.fuses, h.wcb, h.jobs⟩
  have g := h.kept p e
  cases p
  case mbx => exact not_may MayMbx.mayMbx e
  all_goals exact g

theorem set_bodkin [MayBodkin F] (h : Evolves F s t) {x : Bodkin} : Evolves F s { t with bodkin := x } := by
  refine ⟨fun p e => ?_, h.mem, h.flash, h.pending, h.clock, h.queue, h.fuses, h.wcb, h.jobs⟩
  have g := h.kept p e
  cases p
  case bodkin => exact not_may MayBodkin.mayBodkin e
  all_goals exact g

theorem set_cvus [MayCvus F] (h : Evolves F s t) {x : Tab 8 Cvu} : Evolves F s { t with cvus := x } := by
  refine ⟨fun p e => ?_, h.mem, h.flash, h.pending, h.clock, h.queue, h.fuses, h.wcb, h.jobs⟩
  have g := h.kept p e
  cases p
  case cvus => exact not_may MayCvus.mayCvus e
  all_goals exact g

theorem set_boot [MayBoot F] (h : Evolves F s t) {x : Boot} : Evolves F s { t with boot := x } := by
  refine ⟨fun p e => ?_, h.mem, h.flash, h.pending, h.clock, h.queue, h.fuses, h.wcb, h.jobs⟩
  have g := h.kept p e
  cases p
  case boot => exact not_may MayBoot.mayBoot e
  all_goals exact g

theorem set_jtag [MayJtag F] (h : Evolves F s t) {x : Jtag} : Evolves F s { t with jtag := x } := by
  refine ⟨fun p e => ?_, h.mem, h.flash, h.pending, h.clock, h.queue, h.fuses, h.wcb, h.jobs⟩
  have g := h.kept p e
  cases p
  case jtag => exact not_may MayJtag.mayJtag e
  all_goals exact g

theorem set_clock [MayClock F] (h : Evolves F s t) {x : Nat} (hx : t.clock ≤ x) : Evolves F s { t with clock := x } := by
  refine ⟨fun p e => ?_, h.mem, h.flash, h.pending, Nat.le_trans h.clock hx, h.queue, h.fuses, h.wcb, h.jobs⟩
  have g := h.kept p e
  cases p
  case clock => exact not_may MayClock.mayClock e
  all_goals exact g

theorem set_mem [MayMem F] (h : Evolves F s t) {x : Memory} (hx : Memory.wf t.mem = true → Memory.wf x = true) : Evolves F s { t with mem := x } := by
  refine ⟨fun p e => ?_, hx ∘ h.mem, h.flash, h.pending, h.clock, h.queue, h.fuses, h.wcb, h.jobs⟩
  have g := h.kept p e
  cases p
  case mem => exact not_may MayMem.mayMem e
  all_goals exact g

theorem set_hbm [MayHbm F] (h : Evolves F s t) {x : Tab 12 Stack} (hx : wcbsOk t.hbm = true → wcbsOk x = true) : Evolves F s { t with hbm := x } := by
  refine ⟨fun p e => ?_, h.mem, h.flash, h.pending, h.clock, h.queue, h.fuses, hx ∘ h.wcb, h.jobs⟩
  have g := h.kept p e
  cases p
  case hbm => exact not_may MayHbm.mayHbm e
  all_goals exact g

/-- The same, from what the buffers were at the start. -/
theorem set_hbmFrom [MayHbm F] (h : Evolves F s t) {x : Tab 12 Stack} (hx : wcbsOk s.hbm = true → wcbsOk x = true) : Evolves F s { t with hbm := x } := by
  refine ⟨fun p e => ?_, h.mem, h.flash, h.pending, h.clock, h.queue, h.fuses, hx, h.jobs⟩
  have g := h.kept p e
  cases p
  case hbm => exact not_may MayHbm.mayHbm e
  all_goals exact g

theorem set_jobs [MayJobs F] (h : Evolves F s t) {x : List Job} (hx : ringsOnce t.jobs = true → ringsOnce x = true) : Evolves F s { t with jobs := x } := by
  refine ⟨fun p e => ?_, h.mem, h.flash, h.pending, h.clock, h.queue, h.fuses, h.wcb, hx ∘ h.jobs⟩
  have g := h.kept p e
  cases p
  case jobs => exact not_may MayJobs.mayJobs e
  all_goals exact g

theorem set_errs [MayErrs F] (h : Evolves F s t) {x : ErrUnit} (hq : t.errs.queue.length ≤ 64 → x.queue.length ≤ 64)
    (hf : t.errs.fatal = true → x.fatal = true) : Evolves F s { t with errs := x } := by
  refine ⟨fun p e => ?_, h.mem, h.flash, h.pending, h.clock, hq ∘ h.queue, h.fuses, h.wcb, h.jobs⟩
  have g := h.kept p e
  cases p
  case errs => exact not_may MayErrs.mayErrs e
  case fatal => exact fun z => hf (g z)
  all_goals exact g

theorem set_trust [MayTrust F] (h : Evolves F s t) {x : Trust} (hx : FusesSame t.trust x) : Evolves F s { t with trust := x } := by
  refine ⟨fun p e => ?_, h.mem, h.flash, h.pending, h.clock, h.queue, h.fuses.trans hx.up, h.wcb, h.jobs⟩
  have g := h.kept p e
  cases p
  case trust => exact not_may MayTrust.mayTrust e
  case fuses => exact ⟨hx.trusted.trans g.1, hx.service.trans g.2.1, hx.revoked.trans g.2.2⟩
  all_goals exact g

/-- Fuses blown. -/
theorem set_fuses [MayTrust F] [MayFuses F] (h : Evolves F s t) {x : Trust} (hx : FusesUp t.trust x) :
    Evolves F s { t with trust := x } := by
  refine ⟨fun p e => ?_, h.mem, h.flash, h.pending, h.clock, h.queue, h.fuses.trans hx, h.wcb, h.jobs⟩
  have g := h.kept p e
  cases p
  case trust => exact not_may MayTrust.mayTrust e
  case fuses => exact not_may MayFuses.mayFuses e
  all_goals exact g

/-- The table of tiles replaced. -/
theorem set_tiles (h : Evolves F s t) {x : Tab 208 Tile} (hx : ∀ i, TKept F (t.tile i) (Tab.at x Tile.reset i)) :
    Evolves F s { t with tiles := x } := by
  refine ⟨fun p e => ?_, h.mem, h.flash, h.pending, h.clock, h.queue, h.fuses, h.wcb, h.jobs⟩
  have g := h.kept p e
  cases p
  case tVregs => exact fun i => ((hx i).1 e).trans (g i)
  case tMarks => exact fun i => ((hx i).2.1 e).trans (g i)
  case tPlace => exact fun i => ((hx i).2.2.1 e).trans (g i)
  case tProgram => exact fun i => ((hx i).2.2.2.1 e).trans (g i)
  case tWindow => exact fun i => ((hx i).2.2.2.2.1 e).trans (g i)
  case tStreams => exact fun i => ((hx i).2.2.2.2.2.1 e).trans (g i)
  case tQueues => exact fun i => ((hx i).2.2.2.2.2.2.1 e).trans (g i)
  case tWindows => exact fun i => ((hx i).2.2.2.2.2.2.2.1 e).trans (g i)
  case tDrop => exact fun i => ((hx i).2.2.2.2.2.2.2.2.1 e).trans (g i)
  case tTemp => exact fun i => ((hx i).2.2.2.2.2.2.2.2.2 e).trans (g i)
  all_goals exact g

theorem ite {c : Prop} [Decidable c] (ha : Evolves F s a) (hb : Evolves F s b) : Evolves F s (if c then a else b) := by
  split
  · exact ha
  · exact hb

theorem foldl {α : Type} {f : State → α → State} {l : List α} (h : Evolves F s t)
    (hf : ∀ u x, Evolves F s u → Evolves F s (f u x)) : Evolves F s (l.foldl f t) := by
  induction l generalizing t with
  | nil => exact h
  | cons x l ih => exact ih (hf t x h)

/-- A fold that carries a value beside the state. -/
theorem foldlPair {α β : Type} {f : State × β → α → State × β} {l : List α} {p : State × β} (h : Evolves F s p.1)
    (hf : ∀ q x, Evolves F s q.1 → Evolves F s (f q x).1) : Evolves F s (l.foldl f p).1 := by
  induction l generalizing p with
  | nil => exact h
  | cons x l ih => exact ih (hf p x h)

/-- A fold that carries a value before the state. -/
theorem foldlSnd {α β : Type} {f : β × State → α → β × State} {l : List α} {p : β × State} (h : Evolves F s p.2)
    (hf : ∀ q x, Evolves F s q.2 → Evolves F s (f q x).2) : Evolves F s (l.foldl f p).2 := by
  induction l generalizing p with
  | nil => exact h
  | cons x l ih => exact ih (hf p x h)

/-- The second part of a pair. -/
theorem snd {β : Type} {x : β} (h : Evolves F s t) : Evolves F s (x, t).2 := h

/-- The first part of a pair. -/
theorem fst {β : Type} {x : β} (h : Evolves F s t) : Evolves F s (t, x).1 := h

/-! Updates of more than one field. -/

theorem set_mem_linePoison [MayMem F] [MayLinePoison F] (h : Evolves F s t)
    {x0 : Memory} {x1 : List Nat} (hm : Memory.wf t.mem = true → Memory.wf x0 = true) :
    Evolves F s { t with mem := x0, linePoison := x1 } :=
  Evolves.set_linePoison (x := x1) (Evolves.set_mem (x := x0) h hm)

theorem set_jobs_tiles [MayJobs F] (h : Evolves F s t)
    {x0 : List Job} {x1 : Tab 208 Tile} (hj : ringsOnce t.jobs = true → ringsOnce x0 = true) (hi : ∀ i, TKept F (t.tile i) (Tab.at x1 Tile.reset i)) :
    Evolves F s { t with jobs := x0, tiles := x1 } :=
  Evolves.set_tiles (x := x1) (Evolves.set_jobs (x := x0) h hj) hi

theorem set_spares_mem [MaySpares F] [MayMem F] (h : Evolves F s t)
    {x0 : Tab 4 (List Nat)} {x1 : Memory} (hm : Memory.wf t.mem = true → Memory.wf x1 = true) :
    Evolves F s { t with spares := x0, mem := x1 } :=
  Evolves.set_mem (x := x1) (Evolves.set_spares (x := x0) h) hm

theorem set_dies_power [MayDies F] [MayPower F] (h : Evolves F s t)
    {x0 : Tab 4 Die} {x1 : Power} :
    Evolves F s { t with dies := x0, power := x1 } :=
  Evolves.set_power (x := x1) (Evolves.set_dies (x := x0) h)

theorem set_mode_tele_psets_prks_link_bodkin_cvus [MayMode F] [MayTele F] [MayPsets F] [MayPrks F] [MayLink F] [MayBodkin F] [MayCvus F] (h : Evolves F s t)
    {x0 : Mode} {x1 : Telemetry} {x2 : Tab 64 (Option PSet)} {x3 : Tab 16 (Option PrkInfo)} {x4 : Link} {x5 : Bodkin} {x6 : Tab 8 Cvu} :
    Evolves F s { t with mode := x0, tele := x1, psets := x2, prks := x3, link := x4, bodkin := x5, cvus := x6 } :=
  Evolves.set_cvus (x := x6) (Evolves.set_bodkin (x := x5) (Evolves.set_link (x := x4) (Evolves.set_prks (x := x3) (Evolves.set_psets (x := x2) (Evolves.set_tele (x := x1) (Evolves.set_mode (x := x0) h))))))

theorem set_resp_trust [MayResp F] [MayTrust F] (h : Evolves F s t)
    {x0 : Response} {x1 : Trust} (ht : FusesSame t.trust x1) :
    Evolves F s { t with resp := x0, trust := x1 } :=
  Evolves.set_trust (x := x1) (Evolves.set_resp (x := x0) h) ht

theorem set_dies_pins [MayDies F] [MayPins F] (h : Evolves F s t)
    {x0 : Tab 4 Die} {x1 : Pins} :
    Evolves F s { t with dies := x0, pins := x1 } :=
  Evolves.set_pins (x := x1) (Evolves.set_dies (x := x0) h)

theorem set_prkLoader_prks [MayPrkLoader F] [MayPrks F] (h : Evolves F s t)
    {x0 : Loader} {x1 : Tab 16 (Option PrkInfo)} :
    Evolves F s { t with prkLoader := x0, prks := x1 } :=
  Evolves.set_prks (x := x1) (Evolves.set_prkLoader (x := x0) h)

theorem set_resp_pins [MayResp F] [MayPins F] (h : Evolves F s t)
    {x0 : Response} {x1 : Pins} :
    Evolves F s { t with resp := x0, pins := x1 } :=
  Evolves.set_pins (x := x1) (Evolves.set_resp (x := x0) h)

theorem set_freeCount_trust [MayFreeCount F] [MayTrust F] (h : Evolves F s t)
    {x0 : Nat} {x1 : Trust} (ht : FusesSame t.trust x1) :
    Evolves F s { t with freeCount := x0, trust := x1 } :=
  Evolves.set_trust (x := x1) (Evolves.set_freeCount (x := x0) h) ht

theorem set_resp_readLatch [MayResp F] [MayReadLatch F] (h : Evolves F s t)
    {x0 : Response} {x1 : Option (Nat × Word)} :
    Evolves F s { t with resp := x0, readLatch := x1 } :=
  Evolves.set_readLatch (x := x1) (Evolves.set_resp (x := x0) h)

theorem set_power_pins [MayPower F] [MayPins F] (h : Evolves F s t)
    {x0 : Power} {x1 : Pins} :
    Evolves F s { t with power := x0, pins := x1 } :=
  Evolves.set_pins (x := x1) (Evolves.set_power (x := x0) h)

theorem set_trust_mbx [MayTrust F] [MayMbx F] (h : Evolves F s t)
    {x0 : Trust} {x1 : Mailbox} (ht : FusesSame t.trust x0) :
    Evolves F s { t with trust := x0, mbx := x1 } :=
  Evolves.set_mbx (x := x1) (Evolves.set_trust (x := x0) h ht)

theorem set_power_pins_boot [MayPower F] [MayPins F] [MayBoot F] (h : Evolves F s t)
    {x0 : Power} {x1 : Pins} {x2 : Boot} :
    Evolves F s { t with power := x0, pins := x1, boot := x2 } :=
  Evolves.set_boot (x := x2) (Evolves.set_pins (x := x1) (Evolves.set_power (x := x0) h))

theorem set_resp_link [MayResp F] [MayLink F] (h : Evolves F s t)
    {x0 : Response} {x1 : Link} :
    Evolves F s { t with resp := x0, link := x1 } :=
  Evolves.set_link (x := x1) (Evolves.set_resp (x := x0) h)

theorem set_tiles_spares [MaySpares F] (h : Evolves F s t)
    {x0 : Tab 208 Tile} {x1 : Tab 4 (List Nat)} (hi : ∀ i, TKept F (t.tile i) (Tab.at x0 Tile.reset i)) :
    Evolves F s { t with tiles := x0, spares := x1 } :=
  Evolves.set_spares (x := x1) (Evolves.set_tiles (x := x0) h hi)

theorem set_psetLoader_psets [MayPsetLoader F] [MayPsets F] (h : Evolves F s t)
    {x0 : Loader} {x1 : Tab 64 (Option PSet)} :
    Evolves F s { t with psetLoader := x0, psets := x1 } :=
  Evolves.set_psets (x := x1) (Evolves.set_psetLoader (x := x0) h)

theorem set_halt_rings [MayHalt F] [MayRings F] (h : Evolves F s t)
    {x0 : HaltState} {x1 : Tab 32 Ring} :
    Evolves F s { t with halt := x0, rings := x1 } :=
  Evolves.set_rings (x := x1) (Evolves.set_halt (x := x0) h)

theorem set_tele_trust [MayTele F] [MayTrust F] (h : Evolves F s t)
    {x0 : Telemetry} {x1 : Trust} (ht : FusesSame t.trust x1) :
    Evolves F s { t with tele := x0, trust := x1 } :=
  Evolves.set_trust (x := x1) (Evolves.set_tele (x := x0) h) ht

end Evolves

namespace TKept

variable {F : Part → Bool} {u v w : Tile}

theorem refl (F : Part → Bool) (u : Tile) : TKept F u u :=
  ⟨fun _ => rfl, fun _ => rfl, fun _ => rfl, fun _ => rfl, fun _ => rfl, fun _ => rfl, fun _ => rfl, fun _ => rfl, fun _ => rfl, fun _ => rfl⟩

theorem trans (h : TKept F u v) (g : TKept F v w) : TKept F u w := by
  obtain ⟨h0, h1, h2, h3, h4, h5, h6, h7, h8, h9⟩ := h
  obtain ⟨g0, g1, g2, g3, g4, g5, g6, g7, g8, g9⟩ := g
  exact ⟨fun e => (g0 e).trans (h0 e), fun e => (g1 e).trans (h1 e), fun e => (g2 e).trans (h2 e), fun e => (g3 e).trans (h3 e), fun e => (g4 e).trans (h4 e), fun e => (g5 e).trans (h5 e), fun e => (g6 e).trans (h6 e), fun e => (g7 e).trans (h7 e), fun e => (g8 e).trans (h8 e), fun e => (g9 e).trans (h9 e)⟩

/-- A change of one group only. -/
theorem only_tVregs [MayTVregs F] (h : (v.faults, v.place, v.program, v.sequencer, v.streams, v.queues, v.windows, v.drops, v.budget) = (u.faults, u.place, u.program, u.sequencer, u.streams, u.queues, u.windows, u.drops, u.budget)) : TKept F u v := by
  simp only [Prod.mk.injEq] at h
  obtain ⟨h1, h2, h3, h4, h5, h6, h7, h8, h9⟩ := h
  exact ⟨fun e => not_may MayTVregs.mayTVregs e, fun _ => h1, fun _ => h2, fun _ => h3, fun _ => h4, fun _ => h5, fun _ => h6, fun _ => h7, fun _ => h8, fun _ => h9⟩

/-- A change of one group only. -/
theorem only_tMarks [MayTMarks F] (h : (v.regs, v.place, v.program, v.sequencer, v.streams, v.queues, v.windows, v.drops, v.budget) = (u.regs, u.place, u.program, u.sequencer, u.streams, u.queues, u.windows, u.drops, u.budget)) : TKept F u v := by
  simp only [Prod.mk.injEq] at h
  obtain ⟨h0, h2, h3, h4, h5, h6, h7, h8, h9⟩ := h
  exact ⟨fun _ => h0, fun e => not_may MayTMarks.mayTMarks e, fun _ => h2, fun _ => h3, fun _ => h4, fun _ => h5, fun _ => h6, fun _ => h7, fun _ => h8, fun _ => h9⟩

/-- A change of one group only. -/
theorem only_tPlace [MayTPlace F] (h : (v.regs, v.faults, v.program, v.sequencer, v.streams, v.queues, v.windows, v.drops, v.budget) = (u.regs, u.faults, u.program, u.sequencer, u.streams, u.queues, u.windows, u.drops, u.budget)) : TKept F u v := by
  simp only [Prod.mk.injEq] at h
  obtain ⟨h0, h1, h3, h4, h5, h6, h7, h8, h9⟩ := h
  exact ⟨fun _ => h0, fun _ => h1, fun e => not_may MayTPlace.mayTPlace e, fun _ => h3, fun _ => h4, fun _ => h5, fun _ => h6, fun _ => h7, fun _ => h8, fun _ => h9⟩

/-- A change of one group only. -/
theorem only_tProgram [MayTProgram F] (h : (v.regs, v.faults, v.place, v.sequencer, v.streams, v.queues, v.windows, v.drops, v.budget) = (u.regs, u.faults, u.place, u.sequencer, u.streams, u.queues, u.windows, u.drops, u.budget)) : TKept F u v := by
  simp only [Prod.mk.injEq] at h
  obtain ⟨h0, h1, h2, h4, h5, h6, h7, h8, h9⟩ := h
  exact ⟨fun _ => h0, fun _ => h1, fun _ => h2, fun e => not_may MayTProgram.mayTProgram e, fun _ => h4, fun _ => h5, fun _ => h6, fun _ => h7, fun _ => h8, fun _ => h9⟩

/-- A change of one group only. -/
theorem only_tWindow [MayTWindow F] (h : (v.regs, v.faults, v.place, v.program, v.streams, v.queues, v.windows, v.drops, v.budget) = (u.regs, u.faults, u.place, u.program, u.streams, u.queues, u.windows, u.drops, u.budget)) : TKept F u v := by
  simp only [Prod.mk.injEq] at h
  obtain ⟨h0, h1, h2, h3, h5, h6, h7, h8, h9⟩ := h
  exact ⟨fun _ => h0, fun _ => h1, fun _ => h2, fun _ => h3, fun e => not_may MayTWindow.mayTWindow e, fun _ => h5, fun _ => h6, fun _ => h7, fun _ => h8, fun _ => h9⟩

/-- A change of one group only. -/
theorem only_tStreams [MayTStreams F] (h : (v.regs, v.faults, v.place, v.program, v.sequencer, v.queues, v.windows, v.drops, v.budget) = (u.regs, u.faults, u.place, u.program, u.sequencer, u.queues, u.windows, u.drops, u.budget)) : TKept F u v := by
  simp only [Prod.mk.injEq] at h
  obtain ⟨h0, h1, h2, h3, h4, h6, h7, h8, h9⟩ := h
  exact ⟨fun _ => h0, fun _ => h1, fun _ => h2, fun _ => h3, fun _ => h4, fun e => not_may MayTStreams.mayTStreams e, fun _ => h6, fun _ => h7, fun _ => h8, fun _ => h9⟩

/-- A change of one group only. -/
theorem only_tQueues [MayTQueues F] (h : (v.regs, v.faults, v.place, v.program, v.sequencer, v.streams, v.windows, v.drops, v.budget) = (u.regs, u.faults, u.place, u.program, u.sequencer, u.streams, u.windows, u.drops, u.budget)) : TKept F u v := by
  simp only [Prod.mk.injEq] at h
  obtain ⟨h0, h1, h2, h3, h4, h5, h7, h8, h9⟩ := h
  exact ⟨fun _ => h0, fun _ => h1, fun _ => h2, fun _ => h3, fun _ => h4, fun _ => h5, fun e => not_may MayTQueues.mayTQueues e, fun _ => h7, fun _ => h8, fun _ => h9⟩

/-- A change of one group only. -/
theorem only_tWindows [MayTWindows F] (h : (v.regs, v.faults, v.place, v.program, v.sequencer, v.streams, v.queues, v.drops, v.budget) = (u.regs, u.faults, u.place, u.program, u.sequencer, u.streams, u.queues, u.drops, u.budget)) : TKept F u v := by
  simp only [Prod.mk.injEq] at h
  obtain ⟨h0, h1, h2, h3, h4, h5, h6, h8, h9⟩ := h
  exact ⟨fun _ => h0, fun _ => h1, fun _ => h2, fun _ => h3, fun _ => h4, fun _ => h5, fun _ => h6, fun e => not_may MayTWindows.mayTWindows e, fun _ => h8, fun _ => h9⟩

/-- A change of one group only. -/
theorem only_tDrop [MayTDrop F] (h : (v.regs, v.faults, v.place, v.program, v.sequencer, v.streams, v.queues, v.windows, v.budget) = (u.regs, u.faults, u.place, u.program, u.sequencer, u.streams, u.queues, u.windows, u.budget)) : TKept F u v := by
  simp only [Prod.mk.injEq] at h
  obtain ⟨h0, h1, h2, h3, h4, h5, h6, h7, h9⟩ := h
  exact ⟨fun _ => h0, fun _ => h1, fun _ => h2, fun _ => h3, fun _ => h4, fun _ => h5, fun _ => h6, fun _ => h7, fun e => not_may MayTDrop.mayTDrop e, fun _ => h9⟩

/-- A change of one group only. -/
theorem only_tTemp [MayTTemp F] (h : (v.regs, v.faults, v.place, v.program, v.sequencer, v.streams, v.queues, v.windows, v.drops) = (u.regs, u.faults, u.place, u.program, u.sequencer, u.streams, u.queues, u.windows, u.drops)) : TKept F u v := by
  simp only [Prod.mk.injEq] at h
  obtain ⟨h0, h1, h2, h3, h4, h5, h6, h7, h8⟩ := h
  exact ⟨fun _ => h0, fun _ => h1, fun _ => h2, fun _ => h3, fun _ => h4, fun _ => h5, fun _ => h6, fun _ => h7, fun _ => h8, fun e => not_may MayTTemp.mayTTemp e⟩

theorem ite {c : Prop} [Decidable c] (ha : TKept F u v) (hb : TKept F u w) : TKept F u (if c then v else w) := by
  split
  · exact ha
  · exact hb

end TKept

/-- What a command does if it goes on. -/
def Ran (F : Part → Bool) (s : State) (o : Out) : Prop := ∀ t, o = .next t → Evolves F s t

theorem Ran.next {F : Part → Bool} {s t : State} (h : Evolves F s t) : Ran F s (.next t) := by
  intro u e
  cases e
  exact h

theorem Ran.stop {F : Part → Bool} {s : State} {o : Out} (h : ∀ t, o ≠ .next t) : Ran F s o := fun t e => absurd e (h t)

end Sys2Proof.Machine
end

