-- ==== Sys2Proof/Laws/Parts.lean ====
section
/-!
SUPPORT. The parts of the state: what a table reads after a write, the write-combining buffers (R322), the admitted jobs
(R406) and the error queue (R524-R528) under the operations on them.
-/
namespace Sys2Proof.Machine

/-! ## Tables -/

theorem Tab.at_put {α : Type} {n : Nat} (v : Vector α n) (d : α) (i j : Nat) (x : α) :
    Tab.at (Tab.put v i x) d j = if j = i ∧ j < n then x else Tab.at v d j := by
  unfold Tab.at Tab.put
  by_cases hj : j < n
  · by_cases e : i = j
    · subst e; simp [hj]
    · have e' : ¬ j = i := fun h => e h.symm
      simp [hj, e, e']
  · simp [hj]

theorem Tab.put_ge {α : Type} {n i : Nat} {v : Vector α n} {x : α} (h : ¬ i < n) : Tab.put v i x = v := by
  unfold Tab.put
  apply Vector.ext
  intro j hj
  have e : i ≠ j := by omega
  exact Vector.getElem_setIfInBounds_ne hj e

theorem Tab.at_map {α β : Type} {n : Nat} (v : Vector α n) (d : α) (e : β) (f : α → β) (j : Nat) (h : j < n) :
    Tab.at (v.map f) e j = f (Tab.at v d j) := by
  simp [Tab.at, h]

theorem Tab.at_build {α : Type} {n : Nat} (f : Nat → α) (d : α) (j : Nat) (h : j < n) :
    Tab.at (Tab.build n f) d j = f j := by
  simp [Tab.at, Tab.build, h]

theorem Tab.at_fill {α : Type} {n : Nat} (x d : α) (j : Nat) (h : j < n) : Tab.at (Tab.fill n x) d j = x := by
  simp [Tab.at, Tab.fill, h]

/-! ## Write-combining buffers -/

/-- Every tile of a table changed alike. -/
theorem TKept.map {F : Part → Bool} {t : State} {f : Tile → Tile} (hf : ∀ u, TKept F u (f u)) (i : Nat) :
    TKept F (t.tile i) (Tab.at (t.tiles.map f) Tile.reset i) := by
  by_cases h : i < 208
  · rw [Tab.at_map t.tiles Tile.reset Tile.reset f i h]
    exact hf _
  · have e : t.tile i = Tab.at (t.tiles.map f) Tile.reset i := by simp [State.tile, Tab.at, h]
    rw [← e]
    exact TKept.refl F _

/-- A new table of tiles, each from the old one. -/
theorem TKept.build {F : Part → Bool} {t : State} {f : Nat → Tile} (hf : ∀ i, TKept F (t.tile i) (f i)) (i : Nat) :
    TKept F (t.tile i) (Tab.at (Tab.build 208 f) Tile.reset i) := by
  by_cases h : i < 208
  · rw [Tab.at_build f Tile.reset i h]
    exact hf i
  · have e : t.tile i = Tab.at (Tab.build 208 f) Tile.reset i := by simp [State.tile, Tab.at, h]
    rw [← e]
    exact TKept.refl F _

theorem noRepeats_nodup (l : List Nat) : noRepeats l = true ↔ l.Nodup := by
  induction l with
  | nil => simp [noRepeats]
  | cons x l ih => simp [noRepeats, ih]

theorem wcbsOk_iff (v : Tab 12 Stack) :
    wcbsOk v = true ↔ ∀ k, k < 12 → (Tab.at v Stack.reset k).wcbOk k = true := by
  simp [wcbsOk, List.all_eq_true]

theorem wcbsOk_put {v : Tab 12 Stack} {k : Nat} {u : Stack} (hv : wcbsOk v = true) (hu : u.wcbOk k = true) :
    wcbsOk (Tab.put v k u) = true := by
  rw [wcbsOk_iff] at *
  intro j hj
  rw [Tab.at_put]
  split
  · rename_i e; rw [e.1]; exact hu
  · exact hv j hj

theorem wcbsOk_at {v : Tab 12 Stack} (hv : wcbsOk v = true) (k : Nat) : (Tab.at v Stack.reset k).wcbOk k = true := by
  by_cases h : k < 12
  · exact (wcbsOk_iff v).1 hv k h
  · simp [Tab.at, h, Stack.wcbOk, Stack.reset, noRepeats]

theorem wcbsOk_map {v : Tab 12 Stack} {f : Stack → Stack} (hv : wcbsOk v = true)
    (hf : ∀ k u, u.wcbOk k = true → (f u).wcbOk k = true) : wcbsOk (v.map f) = true := by
  rw [wcbsOk_iff] at *
  intro j hj
  rw [Tab.at_map v Stack.reset Stack.reset f j hj]
  exact hf j _ (hv j hj)

theorem Stack.wcbOk_congr {k : Nat} {a b : Stack} (h : a.wcb = b.wcb) : a.wcbOk k = b.wcbOk k := by
  unfold Stack.wcbOk
  rw [h]

theorem Stack.wcbOk_iff {k : Nat} {u : Stack} : u.wcbOk k = true ↔
    u.wcb.length ≤ 256 ∧ (∀ e ∈ u.wcb, e.ok k = true) ∧ (u.wcb.map (·.line)).Nodup := by
  simp [Stack.wcbOk, noRepeats_nodup, and_assoc]

/-- Fewer entries keep the buffer as R322 says. -/
theorem Stack.wcbOk_sublist {k : Nat} {u w : Stack} (hu : u.wcbOk k = true) (h : w.wcb.Sublist u.wcb) :
    w.wcbOk k = true := by
  rw [Stack.wcbOk_iff] at *
  exact ⟨Nat.le_trans h.length_le hu.1, fun e he => hu.2.1 e (h.subset he), hu.2.2.sublist (h.map _)⟩

/-- One entry replaced in its line. -/
theorem Stack.wcbOk_replace {k : Nat} {u : Stack} {e : WcbEntry} (hu : u.wcbOk k = true) (he : e.ok k = true) :
    ({ u with wcb := u.wcb.map (fun x => if x.line == e.line then e else x) } : Stack).wcbOk k = true := by
  rw [Stack.wcbOk_iff] at *
  refine ⟨by simpa using hu.1, ?_, ?_⟩
  · intro x hx
    simp only [List.mem_map] at hx
    obtain ⟨y, hy, rfl⟩ := hx
    split
    · exact he
    · exact hu.2.1 y hy
  · have : (u.wcb.map (fun x => if x.line == e.line then e else x)).map (·.line) = u.wcb.map (·.line) := by
      rw [List.map_map]
      apply List.map_congr_left
      intro x _
      simp only [Function.comp]
      split
      · rename_i h; simp at h; exact h.symm
      · rfl
    rw [this]
    exact hu.2.2

/-- One entry more, for a line that has none, where there is room. -/
theorem Stack.wcbOk_append {k : Nat} {u : Stack} {e : WcbEntry} (hu : u.wcbOk k = true) (he : e.ok k = true)
    (hn : u.wcb.length < 256) (hl : ∀ x ∈ u.wcb, x.line ≠ e.line) :
    ({ u with wcb := u.wcb ++ [e] } : Stack).wcbOk k = true := by
  rw [Stack.wcbOk_iff] at *
  refine ⟨by simp; omega, ?_, ?_⟩
  · intro x hx
    simp only [List.mem_append, List.mem_singleton] at hx
    rcases hx with hx | rfl
    · exact hu.2.1 x hx
    · exact he
  · simp only [List.map_append, List.map_cons, List.map_nil]
    rw [List.nodup_append]
    refine ⟨hu.2.2, by simp, ?_⟩
    intro a ha b hb
    simp only [List.mem_map] at ha
    obtain ⟨x, hx, rfl⟩ := ha
    simp only [List.mem_singleton] at hb
    rw [hb]
    exact hl x hx

/-! ## Admitted jobs -/

theorem ringsOnce_map {l : List Job} {f : Job → Job} (hf : ∀ j, (f j).ring = j.ring) :
    ringsOnce (l.map f) = ringsOnce l := by
  unfold ringsOnce
  rw [List.map_map]
  congr 1
  apply List.map_congr_left
  intro j _
  exact hf j

theorem ringsOnce_filter {l : List Job} {p : Job → Bool} (h : ringsOnce l = true) : ringsOnce (l.filter p) = true := by
  unfold ringsOnce at *
  rw [noRepeats_nodup] at *
  exact h.sublist (List.filter_sublist.map _)

theorem ringsOnce_append {l : List Job} {j : Job} (h : ringsOnce l = true) (hj : ∀ x ∈ l, x.ring ≠ j.ring) :
    ringsOnce (l ++ [j]) = true := by
  unfold ringsOnce at *
  rw [noRepeats_nodup] at *
  simp only [List.map_append, List.map_cons, List.map_nil]
  rw [List.nodup_append]
  refine ⟨h, by simp, ?_⟩
  intro a ha b hb
  simp only [List.mem_map] at ha
  obtain ⟨x, hx, rfl⟩ := ha
  simp only [List.mem_singleton] at hb
  rw [hb]
  exact hj x hx

/-! ## The error queue -/

theorem ErrUnit.append_length (u : ErrUnit) (e : Err) : (u.append e).queue.length = u.queue.length + 1 := by
  unfold ErrUnit.append
  simp only [List.length_append, List.length_cons, List.length_nil]
  split <;> simp

theorem ErrUnit.append_fatal (u : ErrUnit) (e : Err) : (u.append e).fatal = u.fatal := rfl

/-- The entry a FATAL error displaces is an entry of the queue. -/
theorem ErrUnit.victim_mem {u : ErrUnit} {v : ErrEntry} (h : u.victim = some v) : v ∈ u.queue := by
  unfold ErrUnit.victim at h
  suffices H : ∀ (l : List ErrEntry) (best : Option ErrEntry), (∀ x ∈ l, x ∈ u.queue) →
      (∀ b, best = some b → b ∈ u.queue) → ∀ w, l.foldl (fun best x =>
        match best with
        | none => some x
        | some b => if x.err.cls.rank < b.err.cls.rank ∨ (x.err.cls.rank = b.err.cls.rank ∧ b.order < x.order)
          then some x else some b) best = some w → w ∈ u.queue by
    exact H _ none (fun x hx => (List.mem_filter.1 hx).1) (fun b hb => by cases hb) v h
  intro l
  induction l with
  | nil => intro best _ hb w hw; exact hb w hw
  | cons x l ih =>
    intro best hl hb w hw
    refine ih _ (fun y hy => hl y (List.mem_cons_of_mem _ hy)) ?_ w hw
    intro b hb'
    cases best with
    | none => cases hb'; exact hl x (List.mem_cons_self ..)
    | some c =>
      dsimp only at hb'
      split at hb'
      · cases hb'; exact hl x (List.mem_cons_self ..)
      · exact hb b hb'

theorem filter_lt {α : Type} {p : α → Bool} {l : List α} {x : α} (hx : x ∈ l) (hp : p x = false) :
    (l.filter p).length < l.length := by
  rw [← List.countP_eq_length_filter]
  have := List.length_eq_countP_add_countP p (l := l)
  have h : 0 < l.countP (fun a => decide ¬p a = true) := by
    rw [List.countP_pos_iff]
    exact ⟨x, hx, by simp [hp]⟩
  omega

/-- An error that enters leaves at most 64 entries (R528). -/
theorem ErrUnit.enter_length (u : ErrUnit) (e : Err) (h : u.queue.length ≤ 64) : (u.enter e).queue.length ≤ 64 := by
  unfold ErrUnit.enter
  split
  · simpa using h
  · split
    · rw [ErrUnit.append_length]; omega
    · dsimp only
      split
      · rename_i v hv
        split
        · rw [ErrUnit.append_length]
          have := filter_lt (p := fun x => x.order != v.order) (ErrUnit.victim_mem hv) (by simp)
          dsimp only
          omega
        · exact h
      · exact h

theorem ErrUnit.enter_fatal (u : ErrUnit) (e : Err) : (u.enter e).fatal = u.fatal := by
  unfold ErrUnit.enter
  split
  · rfl
  · split
    · rfl
    · dsimp only
      split
      · split <;> rfl
      · rfl

theorem ErrUnit.free_length (u : ErrUnit) (x : ErrEntry) : (u.free x).queue.length ≤ u.queue.length :=
  List.length_filter_le _ _

end Sys2Proof.Machine
end

