-- ==== Sys2Proof/Laws/EvTelemetry.lean ====
section
/-!
SUPPORT. What the operations of Machine/Telemetry.lean keep (Laws/Evolves.lean), one lemma for each.
-/
namespace Sys2Proof.Machine

theorem Evolves.count {F : Part → Bool} [MayTele F] {σ : State} {c : Ctr} {i n : Nat} {s : State} (hs : Evolves F σ
    s) :
    Evolves F σ (State.count c i n s) := by
  unfold State.count
  refine Evolves.ite ?_ ?_
  · exact hs
  · exact hs.set_tele

theorem Evolves.countMax {F : Part → Bool} [MayTele F] {σ : State} {c : Ctr} {i v : Nat} {s : State} (hs : Evolves F
    σ s) :
    Evolves F σ (State.countMax c i v s) := by
  unfold State.countMax
  exact hs.set_tele

theorem Evolves.countSet {F : Part → Bool} [MayTele F] {σ : State} {c : Ctr} {i v : Nat} {s : State} (hs : Evolves F
    σ s) :
    Evolves F σ (State.countSet c i v s) := by
  unfold State.countSet
  exact hs.set_tele

theorem Evolves.telemCleared {F : Part → Bool} [MayTele F] {σ s : State} {x : Selects} (h : Evolves F σ s) :
    Evolves F σ (State.telemCleared s x) := by
  unfold State.telemCleared
  generalize Ctr.named _ _ = o
  cases o with
  | none => exact h
  | some v =>
    refine Evolves.ite h.set_tele (Evolves.ite ?_ h)
    generalize Selects.telem _ _ = i
    cases i with
    | none => exact h
    | some i => exact h.set_tele

end Sys2Proof.Machine
end

