-- ==== Sys2Proof/Laws/EvOps.lean ====
section
/-!
SUPPORT. What the operations of Machine/Ops.lean keep (Laws/Evolves.lean), one lemma for each.
-/
namespace Sys2Proof.Machine

/-- A change of one tile. -/
theorem Evolves.mapTile {F : Part → Bool} {σ : State} {t : Nat} {f : Tile → Tile} {s : State} (h : Evolves F σ s)
    (hf : ∀ u, TKept F u (f u)) : Evolves F σ (State.mapTile t f s) :=
  h.set_tiles fun i => by
    rw [Tab.at_put]
    split
    · rename_i e
      rw [e.1]
      exact hf _
    · exact TKept.refl F _

/-- A change of a stack that keeps its write-combining buffer as R322 says. -/
theorem Evolves.mapStackOk {F : Part → Bool} [MayHbm F] {σ : State} {k : Nat} {f : Stack → Stack} {s : State} (h : Evolves F σ s)
    (hf : ∀ u : Stack, u.wcbOk k = true → (f u).wcbOk k = true) : Evolves F σ (State.mapStack k f s) :=
  h.set_hbm fun e => wcbsOk_put e (hf _ (wcbsOk_at e k))

/-- A change of a stack but for its write-combining buffer. -/
theorem Evolves.mapStack {F : Part → Bool} [MayHbm F] {σ : State} {k : Nat} {f : Stack → Stack} {s : State} (h :
    Evolves F σ s)
    (hf : ∀ u, (f u).wcb = u.wcb) : Evolves F σ (State.mapStack k f s) :=
  h.mapStackOk fun u e => by rwa [Stack.wcbOk_congr (hf u)]

theorem Evolves.mapRing {F : Part → Bool} [MayRings F] {σ : State} {r : Nat} {f : Ring → Ring} {s : State} (hs :
    Evolves F σ s) :
    Evolves F σ (State.mapRing r f s) := by
  unfold State.mapRing
  exact hs.set_rings

theorem Evolves.mapDie {F : Part → Bool} [MayDies F] {σ : State} {d : Nat} {f : Die → Die} {s : State} (hs : Evolves
    F σ s) :
    Evolves F σ (State.mapDie d f s) := by
  unfold State.mapDie
  exact hs.set_dies

theorem Evolves.mapCvu {F : Part → Bool} [MayCvus F] {σ : State} {u : Nat} {f : Cvu → Cvu} {s : State} (hs : Evolves
    F σ s) :
    Evolves F σ (State.mapCvu u f s) := by
  unfold State.mapCvu
  exact hs.set_cvus

theorem Evolves.mapSelects {F : Part → Bool} [MaySel F] {σ : State} {q : Requester} {f : Selects → Selects} {s :
    State} (hs : Evolves F σ s) :
    Evolves F σ (State.mapSelects q f s) := by
  unfold State.mapSelects
  exact hs.set_sel

/-- A change of a job but for its ring. -/
theorem Evolves.mapJob {F : Part → Bool} [MayJobs F] {σ : State} {r : Nat} {f : Job → Job} {s : State} (h : Evolves F
    σ s)
    (hf : ∀ j, (f j).ring = j.ring) : Evolves F σ (State.mapJob r f s) :=
  h.set_jobs fun e => by
    rw [ringsOnce_map]
    · exact e
    · intro j
      split
      · exact hf j
      · rfl

theorem Evolves.askService {F : Part → Bool} [MayPower F] {σ : State} {n : Nat} {s : State} (hs : Evolves F σ s) :
    Evolves F σ (State.askService n s) := by
  unfold State.askService
  exact hs.set_power

theorem Evolves.markPoison {F : Part → Bool} [MayTele F] [MayLinePoison F] {σ : State} {line : Nat} {s : State} (hs :
    Evolves F σ s) :
    Evolves F σ (State.markPoison line s) := by
  unfold State.markPoison
  extract_lets +onlyGivenNames s1
  have h1 : Evolves F σ s1 := by
    refine Evolves.ite ?_ ?_
    · exact hs
    · exact hs.count
  clear_value s1
  exact h1.set_linePoison

theorem Evolves.poisonLine {F : Part → Bool} [MayTele F] [MayLinePoison F] [MayHbm F] {σ : State} {line : Nat} {s :
    State} (h : Evolves F σ s) :
    Evolves F σ (State.poisonLine line s) := by
  unfold State.poisonLine
  extract_lets +onlyGivenNames s1
  have h1 : Evolves F σ s1 := h.markPoison
  clear_value s1
  split
  · exact h1.mapStackOk fun u e => Stack.wcbOk_sublist e List.filter_sublist
  · exact h1

theorem Evolves.writeBack {F : Part → Bool} [MayTele F] [MayMem F] [MayLinePoison F] [MayHbm F] {σ : State} {k : Nat}
    {e : WcbEntry} {s : State} (h : Evolves F σ s) :
    Evolves F σ (State.writeBack k e s) := by
  unfold State.writeBack
  extract_lets +onlyGivenNames s1
  have h1 : Evolves F σ s1 := h.mapStackOk fun u e => Stack.wcbOk_sublist e List.filter_sublist
  clear_value s1
  refine Evolves.ite (h1.set_mem_linePoison fun e => Memory.wf_putAll _ _ e) ?_
  extract_lets +onlyGivenNames s2
  have h2 : Evolves F σ s2 := h1.count.count
  clear_value s2
  exact Evolves.ite h2.count (h2.set_mem fun e => Memory.wf_putMasked _ _ _ _ e)

/-- A write-back takes the entry out of its buffer. -/
theorem State.writeBack_wcb (s : State) (k : Nat) (e : WcbEntry) (hk : k < 12) :
    ((s.writeBack k e).stack k).wcb = (s.stack k).wcb.filter (fun x => x.line != e.line) := by
  have H : ∀ (u : State) (c : Ctr) (i n j : Nat), (u.count c i n).stack j = u.stack j := by
    intro u c i n j
    unfold State.count
    split <;> rfl
  have G : ((s.mapStack k (fun u => { u with wcb := u.wcb.filter (fun x => x.line != e.line) })).stack k).wcb =
      (s.stack k).wcb.filter (fun x => x.line != e.line) := by
    simp [State.mapStack, State.stack, Tab.at_put, hk]
  unfold State.writeBack
  extract_lets +onlyGivenNames s1
  change (s1.stack k).wcb = _ at G
  clear_value s1
  split
  · exact G
  · extract_lets +onlyGivenNames s2
    have G2 : (s2.stack k).wcb = (s.stack k).wcb.filter (fun x => x.line != e.line) := by
      rw [← G]
      exact congrArg Stack.wcb ((H _ _ _ _ _).trans (H _ _ _ _ _))
    clear_value s2
    split
    · rw [H]; exact G2
    · exact G2

theorem Evolves.writeBackAll {F : Part → Bool} [MayTele F] [MayMem F] [MayLinePoison F] [MayHbm F] {σ : State} {s :
    State} (hs : Evolves F σ s) :
    Evolves F σ (State.writeBackAll s) := by
  unfold State.writeBackAll
  refine Evolves.foldl ?_ ?_
  · exact hs
  · intro x1 x2 h3
    refine Evolves.foldl ?_ ?_
    · exact h3
    · intro x4 x5 h6
      exact h6.writeBack

theorem mergeBytes_length (old new : List Byte) (mask : Nat) : (mergeBytes old new mask).length = 64 := by
  simp [mergeBytes]

/-- A new entry as R322 says, of an aligned line of the stack with an incomplete mask. -/
theorem WcbEntry.ok_new {k a line since : Nat} {data : List Byte} {mask : DWord} (hl : home line = .hbm k a)
    (ha : line % 64 = 0) (hd : data.length = 64) (hm : mask.toNat ≠ fullMask) :
    ({ line := line, data := data, mask := mask, since := since } : WcbEntry).ok k = true := by
  simp [WcbEntry.ok, hl, ha, hd, hm]

/-- A partial write that joins an entry of its line. -/
theorem Evolves.mergeEntry {F : Part → Bool} [Stores F] {σ : State} {k : Nat} {e : WcbEntry} {s : State} (h : Evolves F σ s)
    (he : e.mask.toNat ≠ fullMask → e.ok k = true) :
    Evolves F σ (if e.mask.toNat = fullMask then
        (s.mapStack k (fun u => { u with wcb := u.wcb.map (fun x => if x.line == e.line then e else x) })).writeBack k e
      else s.mapStack k (fun u => { u with wcb := u.wcb.map (fun x => if x.line == e.line then e else x) })) := by
  by_cases hm : e.mask.toNat = fullMask
  · rw [if_pos hm]
    have : (s.mapStack k (fun u => { u with wcb := u.wcb.map (fun x => if x.line == e.line then e else x) })).writeBack
        k e = s.writeBack k e := by
      have F : ∀ l : List WcbEntry, (l.map (fun x => if x.line == e.line then e else x)).filter
          (fun x => x.line != e.line) = l.filter (fun x => x.line != e.line) := by
        intro l
        induction l with
        | nil => rfl
        | cons x l ih =>
          by_cases hx : x.line = e.line
          · simp [hx]
            simpa using ih
          · simp [hx]
            simpa using ih
      have G : (s.mapStack k (fun u => { u with wcb := u.wcb.map (fun x => if x.line == e.line then e else x) })).mapStack
          k (fun u => { u with wcb := u.wcb.filter (fun x => x.line != e.line) }) =
          s.mapStack k (fun u => { u with wcb := u.wcb.filter (fun x => x.line != e.line) }) := by
        unfold State.mapStack State.stack
        dsimp only
        congr 1
        rw [Tab.at_put]
        by_cases hk : k < 12
        · simp only [hk, and_self, if_true, F]
          simp [Tab.put]
        · simp only [hk, and_false, if_false]
          rw [Tab.put_ge hk, Tab.put_ge hk, Tab.put_ge hk]
      unfold State.writeBack
      rw [G]
    rw [this]
    exact h.writeBack
  · rw [if_neg hm]
    exact h.mapStackOk fun u hu => Stack.wcbOk_replace hu (he hm)

/-- A partial write that takes a new entry; a full buffer writes its oldest entry back first. -/
theorem Evolves.newEntry {F : Part → Bool} [Stores F] {σ : State} {k : Nat} {e : WcbEntry} {w : WcbEntry → Nat} {s : State}
    (h : Evolves F σ s) (he : e.ok k = true) (hn : (s.stack k).entryOf e.line = none) :
    Evolves F σ ((match (s.stack k).wcb with
        | old :: _ => if (s.stack k).wcb.length ≥ 256 then (s.writeBack k old).count .wcbFullCycles k (w old) else s
        | [] => s).mapStack k (fun u => { u with wcb := u.wcb ++ [e] })) := by
  have hl : ∀ x ∈ (s.stack k).wcb, x.line ≠ e.line := by
    intro x hx
    have := (List.find?_eq_none.1 hn) x hx
    simpa using this
  have hC : ∀ (u : State) (c : Ctr) (i n j : Nat), (u.count c i n).stack j = u.stack j := by
    intro u c i n j
    unfold State.count
    split <;> rfl
  have step : ∀ u : State, Evolves F σ u → (wcbsOk u.hbm = true → (u.stack k).wcb.length < 256) →
      (∀ x ∈ (u.stack k).wcb, x.line ≠ e.line) →
      Evolves F σ (u.mapStack k (fun u => { u with wcb := u.wcb ++ [e] })) := by
    intro u hu hlen hline
    exact hu.set_hbmFrom fun g => wcbsOk_put (hu.wcb g) (Stack.wcbOk_append (wcbsOk_at (hu.wcb g) k) he (hlen (hu.wcb g)) hline)
  by_cases hk : k < 12
  · split
    · rename_i old rest hw
      split
      · rename_i hfull
        have hst : ((s.writeBack k old).count .wcbFullCycles k (w old)).stack k = (s.writeBack k old).stack k := hC _ _ _ _ _
        have hwb := State.writeBack_wcb s k old hk
        have E : Evolves F σ ((s.writeBack k old).count .wcbFullCycles k (w old)) := h.writeBack.count
        refine E.set_hbmFrom fun g => wcbsOk_put (E.wcb g) (Stack.wcbOk_append (wcbsOk_at (E.wcb g) k) he ?_ ?_)
        · have h1 : (s.stack k).wcb.length ≤ 256 := (Stack.wcbOk_iff.1 (wcbsOk_at (h.wcb g) k)).1
          have h2 := filter_lt (p := fun x : WcbEntry => x.line != old.line) (l := (s.stack k).wcb) (x := old)
            (by rw [hw]; exact List.mem_cons_self ..) (by simp)
          rw [← hwb, ← hst] at h2
          exact Nat.lt_of_lt_of_le h2 h1
        · intro x hx
          have hx' : x ∈ ((s.writeBack k old).stack k).wcb := by rw [← hst]; exact hx
          rw [hwb] at hx'
          exact hl x (List.mem_filter.1 hx').1
      · exact step s h (fun _ => by omega) hl
    · rename_i hw
      exact step s h (fun _ => by simp [hw]) hl
  · have : (s.stack k).wcb = [] := by simp [State.stack, Tab.at, hk, Stack.reset]
    rw [this]
    exact step s h (fun _ => by simp [this]) hl

theorem Evolves.acceptLine {F : Part → Bool} [Stores F] {σ : State} {line mask : Nat} {data : List Byte} {s : State}
    (h : Evolves F σ s)
    (ha : line % 64 = 0) (hm : mask < 2 ^ 64) : Evolves F σ (State.acceptLine line mask data s) := by
  unfold State.acceptLine
  refine Evolves.ite h ?_
  split
  · rename_i k a hl
    split
    · extract_lets +onlyGivenNames s1
      have h1 : Evolves F σ s1 := h.mapStackOk fun u e => Stack.wcbOk_sublist e List.filter_sublist
      clear_value s1
      exact h1.set_mem_linePoison fun e => Memory.wf_putAll _ _ e
    · rename_i hfull
      extract_lets +onlyGivenNames s1
      have h1 : Evolves F σ s1 := h.count
      clear_value s1
      split
      · rename_i e he
        have hline : e.line = line := by
          have := List.find?_some he
          simpa using this
        subst hline
        exact h1.mergeEntry (fun hne => WcbEntry.ok_new (since := e.since) hl ha (mergeBytes_length _ _ _) hne)
      · rename_i hnone
        exact h1.newEntry (WcbEntry.ok_new hl ha (mergeBytes_length _ _ _)
          (by rw [BitVec.toNat_ofNat, Nat.mod_eq_of_lt hm]; exact hfull)) hnone
  · refine Evolves.ite (h.set_mem_linePoison fun e => Memory.wf_putAll _ _ e) (Evolves.ite h.count (h.set_mem fun e =>
    Memory.wf_putMasked _ _ _ _ e))
  · exact (h.set_mem fun e => Memory.wf_putMasked _ _ _ _ e).mapTile (fun _ => TKept.only_tMarks rfl)
  · exact h
  · exact h.set_mem fun e => Memory.wf_putMasked _ _ _ _ e

theorem lineMask_lt (line a n : Nat) : lineMask line a n < 2 ^ 64 := by
  unfold lineMask
  extract_lets +onlyGivenNames lo hi
  have hh : hi ≤ 64 := by omega
  clear_value lo hi
  split
  · decide
  · have h2 : 2 ^ (hi - lo) * 2 ^ lo ≤ 2 ^ 64 := by
      rw [← Nat.pow_add]
      exact Nat.pow_le_pow_right (by decide) (by omega)
    have h3 : 0 < 2 ^ lo := Nat.pow_pos (by decide)
    have h4 : 0 < 2 ^ (hi - lo) := Nat.pow_pos (by decide)
    calc (2 ^ (hi - lo) - 1) * 2 ^ lo < 2 ^ (hi - lo) * 2 ^ lo := Nat.mul_lt_mul_of_pos_right (by omega) h3
      _ ≤ 2 ^ 64 := h2

theorem linesOf_aligned {a n l : Nat} (h : l ∈ linesOf a n) : l % 64 = 0 := by
  unfold linesOf at h
  split at h
  · simp at h
  · simp only [List.mem_map] at h
    obtain ⟨i, _, rfl⟩ := h
    simp

/-- A fold over lines, each of which is aligned. -/
theorem Evolves.foldlMem {F : Part → Bool} {σ t : State} {α : Type} {f : State → α → State} {l : List α} (h : Evolves F σ t)
    (hf : ∀ u x, x ∈ l → Evolves F σ u → Evolves F σ (f u x)) : Evolves F σ (l.foldl f t) := by
  induction l generalizing t with
  | nil => exact h
  | cons x l ih =>
    exact ih (hf t x (List.mem_cons_self ..) h) (fun u y hy => hf u y (List.mem_cons_of_mem _ hy))

theorem Evolves.store {F : Part → Bool} [Stores F] {σ : State} {a : Nat} {bs : List Byte} {s : State} (h : Evolves F
    σ s) :
    Evolves F σ (State.store a bs s) :=
  h.foldlMem fun _ _ hx hu => hu.acceptLine (linesOf_aligned hx) (lineMask_lt _ _ _)

theorem Evolves.storeHost {F : Part → Bool} [Stores F] {σ : State} {h : Nat} {bs : List Byte} {s : State} (hs :
    Evolves F σ s) :
    Evolves F σ (State.storeHost h bs s) := by
  unfold State.storeHost
  exact hs.store

theorem Evolves.assertAlert {F : Part → Bool} [MayPins F] {σ : State} {s : State} (hs : Evolves F σ s) :
    Evolves F σ (State.assertAlert s) := by
  unfold State.assertAlert
  refine Evolves.ite ?_ ?_
  · exact hs.set_pins
  · exact hs

theorem Evolves.enterFatal {F : Part → Bool} [MayHbm F] [MayErrs F] [MayDies F] [MayPins F] {σ : State} {e : Err} {s
    : State} (h : Evolves F σ s) :
    Evolves F σ (State.enterFatal e s) := by
  have h1 : Evolves F σ s.assertAlert := h.assertAlert
  have h2 := h1.set_errs (x := { s.errs with fatal := true, fatalRec := some e })
    (by have : s.assertAlert.errs = s.errs := by unfold State.assertAlert; split <;> rfl
        rw [this]; exact id) (fun _ => rfl)
  have h3 := h2.set_hbm (x := s.hbm.map (fun k => { k with wcb := [] }))
    (by have : s.assertAlert.hbm = s.hbm := by unfold State.assertAlert; split <;> rfl
        dsimp only
        rw [this]
        exact fun w => wcbsOk_map w fun k _ _ => by simp [Stack.wcbOk, noRepeats])
  exact h3.set_dies

theorem Evolves.countEvent {F : Part → Bool} [MayJobs F] {σ : State} {e : Err} {s : State} (h : Evolves F σ s) :
    Evolves F σ (State.countEvent e s) := by
  unfold State.countEvent
  split
  · exact Evolves.ite (h.mapJob fun j => by split <;> rfl) h
  · exact h

theorem Evolves.enterQueue {F : Part → Bool} [MayTele F] [MayErrs F] {σ : State} {e : Err} {s : State} (h : Evolves F
    σ s) :
    Evolves F σ (State.enterQueue e s) := by
  unfold State.enterQueue
  extract_lets +onlyGivenNames s1 s2
  have h1 : Evolves F σ s1 := Evolves.ite h.count h
  clear_value s1
  have h2 : Evolves F σ s2 := h1.set_errs (ErrUnit.enter_length _ _) (fun f => (ErrUnit.enter_fatal _ _).trans f)
  clear_value s2
  exact h2.countMax

theorem Evolves.enterErr {F : Part → Bool} [MayTele F] [MayJobs F] [MayHbm F] [MayErrs F] [MayDies F] [MayPins F] {σ
    : State} {e : Err} {s : State} (hs : Evolves F σ s) :
    Evolves F σ (State.enterErr e s) := by
  unfold State.enterErr
  split
  · exact hs.count
  · exact hs.enterQueue.count
  · exact hs.enterQueue.count.countEvent
  · refine Evolves.enterQueue ?_
    refine Evolves.ite ?_ ?_
    · exact hs
    · exact hs.enterFatal

theorem Evolves.raise {F : Part → Bool} [Raises F] {σ : State} {l : List Err} {s : State} (hs : Evolves F σ s) :
    Evolves F σ (State.raise l s) := by
  unfold State.raise
  refine Evolves.ite ?_ ?_
  · refine Evolves.set_errs ?_ id id
    exact hs
  · refine Evolves.foldl ?_ ?_
    · exact hs
    · intro x1 x2 h3
      exact h3.enterErr

theorem Evolves.raiseMop {F : Part → Bool} [Raises F] {σ : State} {r : Nat} {l : List Err} {s : State} (hs : Evolves
    F σ s) :
    Evolves F σ (State.raiseMop r l s) := by
  unfold State.raiseMop
  split
  · refine Evolves.ite ?_ ?_
    · exact hs.raise
    · exact Evolves.mapJob (Evolves.raise hs) (fun _ => rfl)
  · exact hs.raise

theorem Evolves.noteWrite {F : Part → Bool} [MayJobs F] {σ : State} {lo hi : Nat} {s : State} (h : Evolves F σ s) :
    Evolves F σ (State.noteWrite lo hi s) :=
  h.set_jobs fun e => by
    rw [ringsOnce_map]
    · exact e
    · intro j
      split <;> rfl

theorem Evolves.discard {F : Part → Bool} [Raises F] {σ : State} {q : Requester} {addr value : Nat} {s : State} (hs :
    Evolves F σ s) :
    Evolves F σ (State.discard q addr value s) := by
  unfold State.discard
  exact hs.raise

theorem Evolves.idle {F : Part → Bool} [MayClock F] {σ s : State} (h : Evolves F σ s) : Evolves F σ (State.idle s) :=
  h.set_clock (Nat.le_add_right _ _)

theorem Evolves.until {F : Part → Bool} [MayClock F] {σ : State} {t : Nat} {s : State} (h : Evolves F σ s) :
    Evolves F σ (State.until t s) :=
  h.set_clock (Nat.le_max_left _ _)

theorem Evolves.denied {F : Part → Bool} [Raises F] {σ : State} {a : Nat} {s : State} (hs : Evolves F σ s) :
    Evolves F σ (State.denied a s) := by
  unfold State.denied
  exact hs.count.raise

theorem Evolves.gated {F : Part → Bool} [Raises F] {σ s : State} {q : Requester} {a : Nat} {f : State → State}
    (h : Evolves F σ s) (hf : ∀ u, Evolves F σ u → Evolves F σ (f u)) : Evolves F σ (State.gated s q a f) :=
  Evolves.ite h (Evolves.ite (hf s h) h.denied)

theorem Evolves.unlatch {F : Part → Bool} [MayReadLatch F] {σ : State} {s : State} (hs : Evolves F σ s) :
    Evolves F σ (State.unlatch s) := by
  unfold State.unlatch
  exact hs.set_readLatch

theorem Evolves.interrupt {F : Part → Bool} [MayMsix F] {σ : State} {v : Nat} {s : State} (hs : Evolves F σ s) :
    Evolves F σ (State.interrupt v s) := by
  unfold State.interrupt
  exact hs.set_msix

theorem Evolves.dropEvent {F : Part → Bool} [MayEvq F] {σ : State} {s : State} (hs : Evolves F σ s) :
    Evolves F σ (State.dropEvent s) := by
  unfold State.dropEvent
  exact hs.set_evq

theorem Evolves.postEvent {F : Part → Bool} [Stores F] [MayMsix F] [MayEvq F] {σ : State} {kind : Nat} {payload :
    List Byte} {s : State} (hs : Evolves F σ s) :
    Evolves F σ (State.postEvent kind payload s) := by
  unfold State.postEvent
  extract_lets +onlyGivenNames v1
  clear_value v1
  refine Evolves.ite ?_ ?_
  · refine Evolves.interrupt ?_
    extract_lets +onlyGivenNames s2
    have h2 : Evolves F σ s2 := hs.storeHost
    clear_value s2
    exact h2.set_evq
  · exact hs.dropEvent

theorem Evolves.dropJob {F : Part → Bool} [MayJobs F] [MayTProgram F] {σ : State} {k : Nat} {s : State} (h : Evolves
    F σ s) :
    Evolves F σ (State.dropJob k s) :=
  h.set_jobs_tiles (fun e => ringsOnce_filter e) (TKept.map fun u => TKept.ite (TKept.only_tProgram rfl) (TKept.refl
    _ _))

theorem Evolves.writeCompletion {F : Part → Bool} [Stores F] [MayMsix F] [MayRings F] [MayJobs F] [MayTProgram F] {σ
    : State} {k : Nat} {c : Completion} {s : State} (hs : Evolves F σ s) :
    Evolves F σ (State.writeCompletion k c s) := by
  unfold State.writeCompletion
  extract_lets +onlyGivenNames v1
  clear_value v1
  extract_lets +onlyGivenNames s2
  have h2 : Evolves F σ s2 := hs.storeHost
  clear_value s2
  extract_lets +onlyGivenNames v3 v4
  clear_value v3 v4
  extract_lets +onlyGivenNames s5
  have h5 : Evolves F σ s5 := h2.mapRing
  clear_value s5
  extract_lets +onlyGivenNames s6
  have h6 : Evolves F σ s6 := by
    refine Evolves.ite ?_ ?_
    · exact h5.dropJob
    · exact h5
  clear_value s6
  refine Evolves.ite ?_ ?_
  · exact h6.interrupt
  · exact h6

theorem Evolves.holdRecord {F : Part → Bool} [MayRings F] {σ : State} {k : Nat} {c : Completion} {s : State}
    (hs : Evolves F σ s) : Evolves F σ (State.holdRecord k c s) := by
  unfold State.holdRecord
  exact hs.mapRing

theorem Evolves.complete {F : Part → Bool} [Stores F] [MayMsix F] [MayRings F] [MayJobs F] [MayTProgram F] {σ :
    State} {k : Nat} {c : Completion} {s : State} (hs : Evolves F σ s) :
    Evolves F σ (State.complete k c s) := by
  unfold State.complete
  refine Evolves.ite ?_ ?_
  · exact hs
  · refine Evolves.ite ?_ ?_
    · exact hs.writeCompletion
    · exact hs.holdRecord

theorem Evolves.flushOne {F : Part → Bool} [Stores F] [MayMsix F] [MayRings F] [MayJobs F] [MayTProgram F] {σ :
    State} {k : Nat} {s : State} (hs : Evolves F σ s) :
    Evolves F σ (State.flushOne k s) := by
  unfold State.flushOne
  split
  · refine Evolves.ite ?_ ?_
    · extract_lets +onlyGivenNames s1
      have h1 : Evolves F σ s1 := hs.mapRing.writeCompletion
      clear_value s1
      split
      · exact h1.count.mapRing
      · exact h1
    · exact hs
  · exact hs

end Sys2Proof.Machine
end

