-- ==== Sys2Proof/Laws/EvOperands.lean ====
section
/-!
SUPPORT. What the operations of Machine/Operands.lean keep (Laws/Evolves.lean), one lemma for each.
-/
namespace Sys2Proof.Machine

theorem Evolves.setChainWord {F : Part → Bool} [MayTWindow F] {σ : State} {t head stage : Nat} {ix : List Nat} {x :
    Nat} {s : State}
    (hs : Evolves F σ s) : Evolves F σ (State.setChainWord t head stage ix x s) := hs.mapTile (fun _ =>
    TKept.only_tWindow rfl)

theorem Evolves.writeElem {F : Part → Bool} [Stores F] [MayTWindow F] {σ : State} {v : View} {ix : List Nat} {x :
    Nat} {s : State} (hs : Evolves F σ s) :
    Evolves F σ (State.writeElem v ix x s) := by
  unfold State.writeElem
  split
  · exact hs.setChainWord
  · extract_lets +onlyGivenNames v1
    clear_value v1
    refine Evolves.ite ?_ ?_
    · extract_lets +onlyGivenNames v2
      clear_value v2
      extract_lets +onlyGivenNames v3
      clear_value v3
      exact hs.store
    · exact hs.store

theorem Evolves.writeRow {F : Part → Bool} [Stores F] [MayTWindow F] {σ : State} {v : View} {r c b : Nat} {row : List
    Nat} {s : State} (hs : Evolves F σ s) :
    Evolves F σ (State.writeRow v r c b row s) := by
  unfold State.writeRow
  refine Evolves.foldl ?_ ?_
  · exact hs
  · intro x1 x2 h3
    extract_lets +onlyGivenNames v4
    clear_value v4
    refine Evolves.ite ?_ ?_
    · exact h3.writeElem
    · exact h3

end Sys2Proof.Machine
end

