-- ==== Sys2Proof/Laws/EvTyped.lean ====
section
/-!
SUPPORT. What the operations of Machine/Typed.lean keep (Laws/Evolves.lean), one lemma for each.
-/
namespace Sys2Proof.Machine

theorem Evolves.setEngine {F : Part → Bool} [MayTWindow F] {σ : State} {t e : Nat} {x : Option Nat} {s : State} (hs :
    Evolves F σ s) :
    Evolves F σ (State.setEngine t e x s) := by
  unfold State.setEngine
  exact Evolves.mapTile hs (fun _ => TKept.only_tWindow rfl)

theorem Evolves.mapMop {F : Part → Bool} [MayTWindow F] {σ : State} {t seq : Nat} {f : Mop → Mop} {s : State} (hs :
    Evolves F σ s) :
    Evolves F σ (State.mapMop t seq f s) := by
  unfold State.mapMop
  exact Evolves.mapTile hs (fun _ => TKept.only_tWindow rfl)

theorem Ran.withReady {F : Part → Bool} {σ s : State} {t seq : Nat} {kind : MopWord → Bool} {f : Ctx → State}
    (hs : Evolves F σ s) (hf : ∀ c, Evolves F σ (f c)) : Ran F σ (State.withReady s t seq kind f) := by
  unfold State.withReady
  split
  · exact Ran.next (hf _)
  · exact Ran.next hs

theorem Evolves.unitDone {F : Part → Bool} [MayTWindow F] {σ : State} {c : Ctx} {cycle : Nat} {s : State} (hs :
    Evolves F σ s) :
    Evolves F σ (State.unitDone c cycle s) := by
  unfold State.unitDone
  split
  · exact hs
  · extract_lets +onlyGivenNames v1
    clear_value v1
    extract_lets +onlyGivenNames s2
    have h2 : Evolves F σ s2 := Evolves.mapTile hs (fun _ => TKept.only_tWindow rfl)
    clear_value s2
    split
    · refine Evolves.ite ?_ ?_
      · extract_lets +onlyGivenNames v3
        clear_value v3
        extract_lets +onlyGivenNames s4
        have h4 : Evolves F σ s4 := h2.mapMop
        clear_value s4
        split
        · refine Evolves.foldl ?_ ?_
          · exact h4
          · intro x5 x6 h7
            refine Evolves.ite ?_ ?_
            · exact h7
            · exact h7.setEngine
        · exact h4
      · exact h2
    · exact h2

theorem Evolves.markDone {F : Part → Bool} [MayTWindow F] {σ : State} {c : Ctx} {s : State} (hs : Evolves F σ s) :
    Evolves F σ (State.markDone c s) := by
  unfold State.markDone
  extract_lets +onlyGivenNames s1
  have h1 : Evolves F σ s1 := hs.mapMop
  clear_value s1
  split
  · exact h1.unitDone
  · exact h1

theorem Evolves.markGranule {F : Part → Bool} [MayTele F] [MayTMarks F] {σ : State} {t g : Nat} {s : State} (hs :
    Evolves F σ s) :
    Evolves F σ (State.markGranule t g s) := by
  unfold State.markGranule
  refine Evolves.ite ?_ ?_
  · exact hs
  · exact Evolves.count (Evolves.mapTile hs (fun _ => TKept.only_tMarks rfl))

theorem Evolves.clearGranules {F : Part → Bool} [MayTMarks F] {σ : State} {t : Nat} {gs : List Nat} {s : State} (hs :
    Evolves F σ s) :
    Evolves F σ (State.clearGranules t gs s) := by
  unfold State.clearGranules
  exact Evolves.mapTile hs (fun _ => TKept.only_tMarks rfl)

theorem Evolves.stopMop {F : Part → Bool} [MayTWindow F] {σ : State} {c : Ctx} {cause : AbortCause} {s : State} (hs :
    Evolves F σ s) :
    Evolves F σ (State.stopMop c cause s) := by
  unfold State.stopMop
  exact hs.mapMop

theorem Evolves.guarded {F : Part → Bool} [MayTele F] [MayTMarks F] [MayTWindow F] {σ s : State} {c : Ctx} {f : State
    → State} (hs : Evolves F σ s)
    (hf : ∀ u, Evolves F σ u → Evolves F σ (f u)) : Evolves F σ (State.guarded c f s) := by
  unfold State.guarded
  split
  · exact hs.markGranule.stopMop
  · exact hf s hs

theorem Evolves.writeOut {F : Part → Bool} [Stores F] [MayTWindow F] {σ : State} {v : View} {l : List ElemOut} {s :
    State} (hs : Evolves F σ s) :
    Evolves F σ (State.writeOut v l s) := by
  unfold State.writeOut
  refine Evolves.foldl ?_ ?_
  · exact hs
  · intro x1 x2 h3
    refine Evolves.ite ?_ ?_
    · exact h3.writeElem
    · exact h3

theorem Evolves.writeRecord {F : Part → Bool} [Stores F] {σ : State} {v : View} {b : Nat} {r : Rec} {s : State} (hs :
    Evolves F σ s) :
    Evolves F σ (State.writeRecord v b r s) := by
  unfold State.writeRecord
  refine Evolves.foldl ?_ ?_
  · exact hs
  · intro x1 x2 h3
    exact h3.store

theorem Evolves.commitOut {F : Part → Bool} [Stores F] [MayTWindow F] {σ : State} {c : Ctx} {v : View} {outs : List
    BatchOut} {s : State} (hs : Evolves F σ s) :
    Evolves F σ (State.commitOut c v outs s) := by
  unfold State.commitOut
  extract_lets +onlyGivenNames s1
  have h1 : Evolves F σ s1 := by
    refine Evolves.foldl ?_ ?_
    · exact hs
    · intro x2 x3 h4
      exact h4.writeOut
  clear_value s1
  extract_lets +onlyGivenNames s5
  have h5 : Evolves F σ s5 := by
    refine Evolves.ite ?_ ?_
    · refine Evolves.foldl ?_ ?_
      · exact h1
      · intro x6 x7 h8
        exact h8.writeRecord
    · exact h1
  clear_value s5
  extract_lets +onlyGivenNames v9
  clear_value v9
  extract_lets +onlyGivenNames s10
  have h10 : Evolves F σ s10 := by
    refine Evolves.ite ?_ ?_
    · exact h5
    · exact h5.mapMop
  clear_value s10
  exact h10.markDone

theorem Evolves.typedOp {F : Part → Bool} [Stores F] [MayTWindow F] {σ : State} {c : Ctx} {rule : List (Nat × RecIn)
    → RecIn → RecRule} {extra : Option RecIn → Nat} {data : State → View → Nat → RecIn → PSet → List ElemOut} {s :
    State} (hs : Evolves F σ s) :
    Evolves F σ (State.typedOp c rule extra data s) := by
  unfold State.typedOp
  split
  · exact hs.markDone
  · exact hs.commitOut

end Sys2Proof.Machine
end

