-- ==== Sys2Proof/Laws/EvPoly.lean ====
section
/-!
SUPPORT. What the operations of Machine/Poly.lean keep (Laws/Evolves.lean), one lemma for each.
-/
namespace Sys2Proof.Machine

theorem Ran.unary {F : Part → Bool} [Stores F] [MayTWindow F] {σ : State} {s : State} {t seq : Nat} {kind : MopWord →
    Bool} {rule : Ctx → List (Nat × RecIn) → RecIn → RecRule} {extra : Ctx → Option RecIn → Nat} {data : Ctx → View →
    State → View → Nat → RecIn → PSet → List ElemOut} (hs : Evolves F σ s) :
    Ran F σ (State.unary s t seq kind rule extra data) := by
  unfold State.unary
  refine Ran.withReady ?_ ?_
  · exact hs
  · intro x1
    refine Evolves.guarded ?_ ?_
    · exact hs
    · intro x2 h3
      split
      · exact h3.typedOp
      · exact h3.markDone

theorem execNtt_ran {F : Part → Bool} [Stores F] [MayTWindow F] {σ : State} {t seq : Nat} {s : State} (hs : Evolves F
    σ s) :
    Ran F σ (execNtt t seq s) := by
  unfold execNtt
  refine Ran.unary ?_
  exact hs

theorem execIntt_ran {F : Part → Bool} [Stores F] [MayTWindow F] {σ : State} {t seq : Nat} {s : State} (hs : Evolves
    F σ s) :
    Ran F σ (execIntt t seq s) := by
  unfold execIntt
  refine Ran.unary ?_
  exact hs

theorem execAutoCoefficient_ran {F : Part → Bool} [Stores F] [MayTWindow F] {σ : State} {t seq : Nat} {s : State} (hs
    : Evolves F σ s) :
    Ran F σ (execAutoCoefficient t seq s) := by
  unfold execAutoCoefficient
  refine Ran.unary ?_
  exact hs

theorem execAutoEvaluation_ran {F : Part → Bool} [Stores F] [MayTWindow F] {σ : State} {t seq : Nat} {s : State} (hs
    : Evolves F σ s) :
    Ran F σ (execAutoEvaluation t seq s) := by
  unfold execAutoEvaluation
  split
  · refine Ran.withReady ?_ ?_
    · exact hs
    · intro x1
      refine Evolves.guarded ?_ ?_
      · exact hs
      · intro x2 h3
        split
        · exact h3.commitOut
        · exact h3.markDone
  · refine Ran.unary ?_
    exact hs

theorem execAutoIndex_ran {F : Part → Bool} [Stores F] [MayTWindow F] {σ : State} {t seq : Nat} {s : State} (hs :
    Evolves F σ s) :
    Ran F σ (execAutoIndex t seq s) := by
  unfold execAutoIndex
  refine Ran.withReady ?_ ?_
  · exact hs
  · intro x1
    refine Evolves.guarded ?_ ?_
    · exact hs
    · intro x2 h3
      split
      · extract_lets +onlyGivenNames v4
        clear_value v4
        extract_lets +onlyGivenNames v5
        clear_value v5
        split
        · exact h3.stopMop
        · exact h3.commitOut
      · exact h3.markDone

theorem execExtract_ran {F : Part → Bool} [Stores F] [MayTWindow F] {σ : State} {t seq : Nat} {s : State} (hs :
    Evolves F σ s) :
    Ran F σ (execExtract t seq s) := by
  unfold execExtract
  refine Ran.unary ?_
  exact hs

theorem execModup_ran {F : Part → Bool} [Stores F] [MayTWindow F] {σ : State} {t seq : Nat} {s : State} (hs : Evolves
    F σ s) :
    Ran F σ (execModup t seq s) := by
  unfold execModup
  refine Ran.unary ?_
  exact hs

theorem execModdown_ran {F : Part → Bool} [Stores F] [MayTWindow F] {σ : State} {t seq : Nat} {s : State} (hs :
    Evolves F σ s) :
    Ran F σ (execModdown t seq s) := by
  unfold execModdown
  refine Ran.unary ?_
  exact hs

theorem execRescale_ran {F : Part → Bool} [Stores F] [MayTWindow F] {σ : State} {t seq : Nat} {s : State} (hs :
    Evolves F σ s) :
    Ran F σ (execRescale t seq s) := by
  unfold execRescale
  refine Ran.unary ?_
  exact hs

theorem execHmul_ran {F : Part → Bool} [Stores F] [MayTWindow F] {σ : State} {t seq : Nat} {s : State} (hs : Evolves
    F σ s) :
    Ran F σ (execHmul t seq s) := by
  unfold execHmul
  refine Ran.unary ?_
  exact hs

theorem execPmul_ran {F : Part → Bool} [Stores F] [MayTWindow F] {σ : State} {t seq : Nat} {s : State} (hs : Evolves
    F σ s) :
    Ran F σ (execPmul t seq s) := by
  unfold execPmul
  refine Ran.unary ?_
  exact hs

theorem execAdd_ran {F : Part → Bool} [Stores F] [MayTWindow F] {σ : State} {t seq : Nat} {s : State} (hs : Evolves F
    σ s) :
    Ran F σ (execAdd t seq s) := by
  unfold execAdd
  refine Ran.unary ?_
  exact hs

theorem execSub_ran {F : Part → Bool} [Stores F] [MayTWindow F] {σ : State} {t seq : Nat} {s : State} (hs : Evolves F
    σ s) :
    Ran F σ (execSub t seq s) := by
  unfold execSub
  refine Ran.unary ?_
  exact hs

theorem execNeg_ran {F : Part → Bool} [Stores F] [MayTWindow F] {σ : State} {t seq : Nat} {s : State} (hs : Evolves F
    σ s) :
    Ran F σ (execNeg t seq s) := by
  unfold execNeg
  refine Ran.unary ?_
  exact hs

theorem execCmul_ran {F : Part → Bool} [Stores F] [MayTWindow F] {σ : State} {t seq : Nat} {s : State} (hs : Evolves
    F σ s) :
    Ran F σ (execCmul t seq s) := by
  unfold execCmul
  refine Ran.unary ?_
  exact hs

end Sys2Proof.Machine
end

