-- ==== Sys2Proof/Laws/EvQueues.lean ====
section
/-!
SUPPORT. What the operations of Machine/Queues.lean keep (Laws/Evolves.lean), one lemma for each.
-/
namespace Sys2Proof.Machine

theorem Evolves.mapStream {F : Part → Bool} [Stores F] [MayTStreams F] {σ : State} {t k : Nat} {f : StreamQueue →
    StreamQueue} {s : State} (hs : Evolves F σ s) :
    Evolves F σ (State.mapStream t k f s) := by
  unfold State.mapStream
  extract_lets +onlyGivenNames s1
  have h1 : Evolves F σ s1 := Evolves.mapTile hs (fun _ => TKept.only_tStreams rfl)
  clear_value s1
  exact h1.store

theorem Evolves.mapQueue {F : Part → Bool} [Stores F] [MayTQueues F] {σ : State} {t k : Nat} {f : ShuttleQueue →
    ShuttleQueue} {s : State} (hs : Evolves F σ s) :
    Evolves F σ (State.mapQueue t k f s) := by
  unfold State.mapQueue
  extract_lets +onlyGivenNames s1
  have h1 : Evolves F σ s1 := Evolves.mapTile hs (fun _ => TKept.only_tQueues rfl)
  clear_value s1
  exact h1.store

theorem Evolves.writeSlot {F : Part → Bool} [Stores F] {σ : State} {t k i : Nat} {d : ShuttleDesc} {s : State} (hs :
    Evolves F σ s) :
    Evolves F σ (State.writeSlot t k i d s) := by
  unfold State.writeSlot
  exact hs.store

theorem Evolves.writeControlPage {F : Part → Bool} [Stores F] [MayTStreams F] [MayTQueues F] {σ : State} {t : Nat} {s
    : State} (hs : Evolves F σ s) :
    Evolves F σ (State.writeControlPage t s) := by
  unfold State.writeControlPage
  extract_lets +onlyGivenNames s1
  have h1 : Evolves F σ s1 := hs.store
  clear_value s1
  extract_lets +onlyGivenNames s2
  have h2 : Evolves F σ s2 := by
    refine Evolves.foldl ?_ ?_
    · exact h1
    · intro x3 x4 h5
      exact h5.mapStream.mapQueue
  clear_value s2
  exact h2.clearGranules

theorem Evolves.endSend {F : Part → Bool} [MayTWindow F] {σ : State} {d : ShuttleDesc} {x : SendState} {s : State}
    (hs : Evolves F σ s) :
    Evolves F σ (State.endSend d x s) := by
  unfold State.endSend
  exact hs.mapMop

theorem Evolves.closeQueue {F : Part → Bool} [Stores F] [MayTWindow F] [MayTQueues F] {σ : State} {t k : Nat} {s :
    State} (hs : Evolves F σ s) :
    Evolves F σ (State.closeQueue t k s) := by
  unfold State.closeQueue
  extract_lets +onlyGivenNames v1
  clear_value v1
  extract_lets +onlyGivenNames s2
  have h2 : Evolves F σ s2 := by
    refine Evolves.foldl ?_ ?_
    · exact hs
    · intro x3 x4 h5
      exact h5.endSend.count
  clear_value s2
  exact h2.mapQueue

theorem Evolves.advanceEpoch {F : Part → Bool} [Stores F] [MayTWindow F] [MayTQueues F] {σ : State} {t k : Nat} {s :
    State} (hs : Evolves F σ s) :
    Evolves F σ (State.advanceEpoch t k s) := by
  unfold State.advanceEpoch
  extract_lets +onlyGivenNames v1 v2
  clear_value v1 v2
  extract_lets +onlyGivenNames s3
  have h3 : Evolves F σ s3 := by
    refine Evolves.foldl ?_ ?_
    · exact hs
    · intro x4 x5 h6
      exact h6.endSend.count
  clear_value s3
  exact h3.mapQueue

theorem Evolves.freeSlot {F : Part → Bool} [Stores F] [MayTQueues F] {σ : State} {t k : Nat} {d : ShuttleDesc} {s :
    State} (hs : Evolves F σ s) :
    Evolves F σ (State.freeSlot t k d s) := by
  unfold State.freeSlot
  exact hs.mapQueue

theorem Evolves.giveBack {F : Part → Bool} [Stores F] [MayTWindow F] [MayTQueues F] {σ : State} {t k : Nat} {d :
    ShuttleDesc} {s : State} (hs : Evolves F σ s) :
    Evolves F σ (State.giveBack t k d s) := by
  unfold State.giveBack
  refine Evolves.ite ?_ ?_
  · exact hs.freeSlot.endSend
  · exact hs

theorem Evolves.closeQueues {F : Part → Bool} [Stores F] [MayTWindow F] [MayTQueues F] {σ : State} {t : Nat} {s :
    State} (hs : Evolves F σ s) :
    Evolves F σ (State.closeQueues t s) := by
  unfold State.closeQueues
  refine Evolves.foldl ?_ ?_
  · exact hs
  · intro x1 x2 h3
    exact h3.closeQueue

theorem Evolves.advanceEpochs {F : Part → Bool} [Stores F] [MayTWindow F] [MayTQueues F] {σ : State} {t : Nat} {s :
    State} (hs : Evolves F σ s) :
    Evolves F σ (State.advanceEpochs t s) := by
  unfold State.advanceEpochs
  refine Evolves.foldl ?_ ?_
  · exact hs
  · intro x1 x2 h3
    exact h3.advanceEpoch

theorem Evolves.openQueues {F : Part → Bool} [Stores F] [MayTQueues F] {σ : State} {t : Nat} {senders : Nat → Nat} {s
    : State} (hs : Evolves F σ s) :
    Evolves F σ (State.openQueues t senders s) := by
  unfold State.openQueues
  refine Evolves.foldl ?_ ?_
  · exact hs
  · intro x1 x2 h3
    exact h3.mapQueue

theorem Evolves.closeWindows {F : Part → Bool} [MayTWindows F] {σ : State} {t : Nat} {s : State} (hs : Evolves F σ s)
    :
    Evolves F σ (State.closeWindows t s) := by
  unfold State.closeWindows
  exact Evolves.mapTile hs (fun _ => TKept.only_tWindows rfl)

theorem Evolves.admitStreams {F : Part → Bool} [Stores F] [MayTStreams F] {σ : State} {t : Nat} {s : State} (hs :
    Evolves F σ s) :
    Evolves F σ (State.admitStreams t s) := by
  unfold State.admitStreams
  refine Evolves.foldl ?_ ?_
  · exact hs
  · intro x1 x2 h3
    exact h3.mapStream

theorem Evolves.idleStreams {F : Part → Bool} [Stores F] [MayTStreams F] {σ : State} {t : Nat} {s : State} (hs :
    Evolves F σ s) :
    Evolves F σ (State.idleStreams t s) := by
  unfold State.idleStreams
  refine Evolves.foldl ?_ ?_
  · exact hs
  · intro x1 x2 h3
    exact h3.mapStream

theorem Evolves.remoteByte {F : Part → Bool} [Stores F] [MayJobs F] {σ : State} {writer target off : Nat} {b : Byte}
    {s : State} (hs : Evolves F σ s) :
    Evolves F σ (State.remoteByte writer target off b s).1 := by
  unfold State.remoteByte
  split
  · refine Evolves.fst ?_
    exact hs.store.noteWrite
  · exact hs.fst

theorem Evolves.remoteStore {F : Part → Bool} [Stores F] [MayJobs F] {σ : State} {writer target off : Nat} {bs : List
    Byte} {s : State} (hs : Evolves F σ s) :
    Evolves F σ (State.remoteStore writer target off bs s).1 := by
  unfold State.remoteStore
  refine Evolves.foldlPair ?_ ?_
  · exact hs.fst
  · intro x1 x2 h3
    extract_lets +onlyGivenNames v4
    clear_value v4
    extract_lets +onlyGivenNames p5
    have h5 : Evolves F σ p5.1 := h3.remoteByte
    clear_value p5
    split
    · refine Evolves.fst ?_
      exact h5.count
    · refine Evolves.fst ?_
      exact h5.count

theorem Evolves.remoteRead {F : Part → Bool} [MayTele F] [MayTMarks F] {σ : State} {target off n : Nat} {s : State}
    (hs : Evolves F σ s) :
    Evolves F σ (State.remoteRead target off n s).1 := by
  unfold State.remoteRead
  split
  · extract_lets +onlyGivenNames v1
    clear_value v1
    refine Evolves.fst ?_
    refine Evolves.foldl ?_ ?_
    · exact hs
    · intro x2 x3 h4
      exact h4.markGranule
  · exact hs.fst

theorem Evolves.spoilSource {F : Part → Bool} [MayTele F] [MayLinePoison F] [MayTMarks F] {σ : State} {a : Nat} {s : State}
    (hs : Evolves F σ s) : Evolves F σ (State.spoilSource a s) := by
  unfold State.spoilSource
  extract_lets +onlyGivenNames s1
  have h1 : Evolves F σ s1 := hs.count
  clear_value s1
  split
  · exact h1.markGranule
  · exact h1.markPoison
  · exact h1.markPoison
  · exact h1

theorem Evolves.drawTokens {F : Part → Bool} [MayTele F] [MayTWindow F] {σ : State} {t n : Nat} {s : State}
    (hs : Evolves F σ s) : Evolves F σ (State.drawTokens t n s) := by
  unfold State.drawTokens
  refine Evolves.count ?_
  exact Evolves.mapTile hs (fun _ => TKept.only_tWindow rfl)

theorem Evolves.repace {F : Part → Bool} [MayTWindow F] {σ : State} {t : Nat} {s : State} (hs : Evolves F σ s) :
    Evolves F σ (State.repace t s) := by
  unfold State.repace
  exact Evolves.mapTile hs (fun _ => TKept.only_tWindow rfl)

theorem Evolves.runCycles {F : Part → Bool} [MayTWindow F] {σ : State} {t n : Nat} {s : State} (hs : Evolves F σ s) :
    Evolves F σ (State.runCycles t n s) := by
  unfold State.runCycles
  exact Evolves.mapTile hs (fun _ => TKept.only_tWindow rfl)

end Sys2Proof.Machine
end

