-- ==== Sys2Proof/Laws/EvDma.lean ====
section
/-!
SUPPORT. What the operations of Machine/Dma.lean keep (Laws/Evolves.lean), one lemma for each.
-/
namespace Sys2Proof.Machine

theorem Evolves.creditWait {F : Part → Bool} [MayTele F] [MayTWindow F] {σ : State} {c : Ctx} {n : Nat} {s : State}
    (hs : Evolves F σ s) : Evolves F σ (State.creditWait c n s) := by
  unfold State.creditWait
  exact hs.count.count.mapMop

theorem Evolves.beginDma {F : Part → Bool} [Stores F] [MayTWindow F] [MayTStreams F] {σ : State} {c : Ctx} {s : State}
    (hs : Evolves F σ s) : Evolves F σ (State.beginDma c s) := by
  unfold State.beginDma
  extract_lets +onlyGivenNames v1 s2
  have h2 : Evolves F σ s2 := hs.mapStream
  clear_value v1 s2
  exact h2.creditWait

theorem mem_insertNat {x a : Nat} {l : List Nat} (h : x ∈ insertNat a l) : x = a ∨ x ∈ l := by
  induction l with
  | nil => exact Or.inl (by simpa [insertNat] using h)
  | cons y l ih =>
    unfold insertNat at h
    split at h
    · simpa using h
    · split at h
      · exact Or.inr h
      · rcases List.mem_cons.1 h with e | g
        · exact Or.inr (e ▸ List.mem_cons_self ..)
        · exact (ih g).imp id (List.mem_cons_of_mem _)

/-- A fold keeps a property that each of its steps keeps. -/
theorem foldl_keeps {α β : Type} {p : β → Prop} {f : β → α → β} {l : List α} {b : β} (hb : p b)
    (hf : ∀ b a, a ∈ l → p b → p (f b a)) : p (l.foldl f b) := by
  induction l generalizing b with
  | nil => exact hb
  | cons a l ih =>
    exact ih (hf b a (List.mem_cons_self ..) hb) (fun b x hx => hf b x (List.mem_cons_of_mem _ hx))

theorem lineSet_aligned {ps : List (Nat × Nat)} {l : Nat} (h : l ∈ lineSet ps) : l % 64 = 0 := by
  have H : ∀ x ∈ lineSet ps, x % 64 = 0 := by
    unfold lineSet
    refine foldl_keeps (p := fun r : List Nat => ∀ x ∈ r, x % 64 = 0) (by simp) fun r q _ hr => ?_
    refine foldl_keeps (p := fun r : List Nat => ∀ x ∈ r, x % 64 = 0) hr fun r y hy hr x hx => ?_
    rcases mem_insertNat hx with e | g
    · exact e ▸ linesOf_aligned hy
    · exact hr x g
  exact H l h

/-- A sum of powers of two below 2^n. -/
theorem bitSum_lt (p : Nat → Prop) [DecidablePred p] (n : Nat) :
    (List.range n).foldl (fun m i => if p i then m else m + 2 ^ i) 0 < 2 ^ n := by
  induction n with
  | zero => simp
  | succ n ih =>
    rw [List.range_succ, List.foldl_append]
    simp only [List.foldl_cons, List.foldl_nil]
    rw [Nat.pow_succ]
    split <;> omega

theorem State.lineWrite_lt (s : State) (v : View) (l : Nat) (es : List ElemOut) : (s.lineWrite v l es).1 < 2 ^ 64 :=
    by
  simp only [State.lineWrite]
  exact bitSum_lt _ 64

theorem Evolves.dmaLine {F : Part → Bool} [Stores F] [MayJobs F] {σ : State} {c : Ctx} {l mask : Nat} {data : List
    Byte} {acc : State × Option Drop}
    (hs : Evolves F σ acc.1) (hl : l % 64 = 0) (hm : mask < 2 ^ 64) : Evolves F σ (State.dmaLine c l mask data acc).1
    := by
  unfold State.dmaLine
  split
  · split
    · exact hs.acceptLine hl hm
    · refine hs.foldlPair fun q i hq => ?_
      split
      · exact hq.remoteStore
      · exact hq
  · exact hs.acceptLine hl hm

/-- A fold over lines that carries a value beside the state. -/
theorem Evolves.foldlPairMem {F : Part → Bool} {σ : State} {α β : Type} {f : State × β → α → State × β} {l : List α}
    {p : State × β} (h : Evolves F σ p.1) (hf : ∀ q x, x ∈ l → Evolves F σ q.1 → Evolves F σ (f q x).1) :
    Evolves F σ (l.foldl f p).1 :=
  foldl_keeps (p := fun q : State × β => Evolves F σ q.1) h hf

theorem Evolves.dmaWrite {F : Part → Bool} [Stores F] [MayJobs F] {σ : State} {c : Ctx} {v : View} {es : List
    ElemOut} {acc : State × Option Drop}
    (hs : Evolves F σ acc.1) : Evolves F σ (State.dmaWrite c v es acc).1 := by
  unfold State.dmaWrite
  extract_lets +onlyGivenNames put
  have hput : ∀ es p l, l % 64 = 0 → Evolves F σ p.1 → Evolves F σ (put es p l).1 := fun _ _ _ hl hp =>
    hp.dmaLine hl (State.lineWrite_lt _ _ _ _)
  clear_value put
  split
  · exact hs.foldlPairMem fun _ _ hx hq => hput _ _ _ (lineSet_aligned hx) hq
  · exact hs.foldlPair fun _ _ hq => hq.foldlPairMem fun _ _ hx hr => hput _ _ _ (linesOf_aligned hx) hr

theorem Evolves.dmaRecord {F : Part → Bool} [Stores F] [MayJobs F] {σ : State} {c : Ctx} {v : View} {o : BatchOut}
    {acc : State × Option Drop}
    (hs : Evolves F σ acc.1) : Evolves F σ (State.dmaRecord c v o acc).1 := by
  unfold State.dmaRecord
  exact hs.foldlPair fun _ _ hq => hq.foldlPairMem fun _ _ hx hr => hr.dmaLine (linesOf_aligned hx) (lineMask_lt _ _
    _)

theorem Evolves.noteDrop {F : Part → Bool} [MayTWindow F] [MayTDrop F] {σ : State} {c : Ctx} {d : Option Drop} {s :
    State} (hs : Evolves F σ s) :
    Evolves F σ (State.noteDrop c d s) := by
  unfold State.noteDrop
  split
  · exact hs
  · extract_lets +onlyGivenNames s1
    have h1 : Evolves F σ s1 := Evolves.mapTile hs (fun _ => TKept.only_tDrop rfl)
    clear_value s1
    exact h1.mapMop

theorem Evolves.dmaPrefix {F : Part → Bool} [Stores F] [MayJobs F] [MayTWindow F] [MayTDrop F] {σ : State} {c : Ctx}
    {k : Nat} {s : State} (hs : Evolves F σ s) :
    Evolves F σ (State.dmaPrefix c k s) := by
  unfold State.dmaPrefix
  split
  · extract_lets +onlyGivenNames v1
    clear_value v1
    extract_lets +onlyGivenNames v2 v3
    clear_value v2 v3
    refine Evolves.ite ?_ ?_
    · exact hs
    · extract_lets +onlyGivenNames p4
      have h4 : Evolves F σ p4.1 := hs.fst.dmaWrite
      clear_value p4
      exact h4.noteDrop
  · exact hs

theorem execTranslationComplete_ran {F : Part → Bool} [Stores F] [MayMsix F] [MayPageRequests F] [MayEvq F]
    [MayJobs F] [MayTWindow F] [MayTStreams F] [MayTDrop F] {σ : State} {t k : Nat} {present : Bool} {s : State} (hs : Evolves
    F σ s) :
    Ran F σ (execTranslationComplete t k present s) := by
  unfold execTranslationComplete
  split
  · refine Ran.next ?_
    exact hs
  · extract_lets +onlyGivenNames v1
    clear_value v1
    split
    · refine Ran.next ?_
      exact hs
    · split
      · refine Ran.next ?_
        exact hs
      · extract_lets +onlyGivenNames s2
        have h2 : Evolves F σ s2 := hs.count
        clear_value s2
        split
        · extract_lets +onlyGivenNames v3 v4 s4
          have h4 : Evolves F σ s4 := h2.mapStream
          clear_value v3 v4 s4
          extract_lets +onlyGivenNames s5
          have h5 : Evolves F σ s5 := h4.creditWait
          clear_value s5
          refine Ran.next (Evolves.ite ?_ ?_)
          · exact h5.setEngine
          · exact h5
        · extract_lets +onlyGivenNames s5
          have h5 : Evolves F σ s5 := h2.dmaPrefix
          clear_value s5
          extract_lets +onlyGivenNames v6
          clear_value v6
          extract_lets +onlyGivenNames s7
          have h7 : Evolves F σ s7 := h5.mapStream
          clear_value s7
          extract_lets +onlyGivenNames s8
          have h8 : Evolves F σ s8 := h7.count
          clear_value s8
          extract_lets +onlyGivenNames s9
          have h9 : Evolves F σ s9 := h8.set_pageRequests
          clear_value s9
          refine Ran.next ?_
          exact h9.postEvent

theorem Evolves.streamResume {F : Part → Bool} [Stores F] [Raises F] [MayTStreams F] {σ : State} {q : Requester} {s :
    State} (hs : Evolves F σ s) :
    Evolves F σ (State.streamResume q s) := by
  unfold State.streamResume
  extract_lets +onlyGivenNames v1 v2
  clear_value v1 v2
  refine Evolves.ite ?_ ?_
  · exact hs
  · refine Evolves.ite ?_ ?_
    · extract_lets +onlyGivenNames v3
      clear_value v3
      exact hs.mapStream.count
    · exact hs.discard

theorem execStreamResume_ran {F : Part → Bool} [Stores F] [Raises F] [MayReadLatch F] [MayTStreams F] {σ : State} {q
    : Requester} {s : State} (hs : Evolves F σ s) :
    Ran F σ (execStreamResume q s) := by
  unfold execStreamResume
  refine Ran.next ?_
  refine Evolves.gated ?_ ?_
  · exact hs.unlatch
  · intro x1 h2
    exact h2.streamResume

/-- A transfer that reads an unreadable record, line or granule stops. -/
theorem Evolves.dmaStop {F : Part → Bool} [MayTele F] [MayTMarks F] [MayTWindow F] {σ s u : State} {c : Ctx} {records
    reads : List (Nat × Nat)} (hs : Evolves F σ s)
    (e : State.dmaStop s c records reads = some u) : Evolves F σ u := by
  unfold State.dmaStop at e
  split at e
  · cases e
    exact hs.remoteRead.stopMop
  · split at e
    · cases e
      exact hs.stopMop
    · split at e
      · cases e
        exact hs.remoteRead.stopMop
      · cases e

theorem Evolves.countDma {F : Part → Bool} [MayTele F] [MayTWindow F] {σ : State} {c : Ctx} {src : View} {ms : List Move} {s :
    State} (hs : Evolves F σ s) :
    Evolves F σ (State.countDma c src ms s) := by
  unfold State.countDma
  extract_lets +onlyGivenNames v1 v2 v3 v4 v5
  clear_value v1 v2 v3 v4 v5
  exact hs.count.count.count.count.count.drawTokens

theorem Evolves.movePairs {F : Part → Bool} [MayTele F] [MayLinePoison F] [MayTMarks F] {σ : State} {c : Ctx} {src dst : View}
    {s : State} (hs : Evolves F σ s) : Evolves F σ (State.movePairs c src dst s) := by
  unfold State.movePairs
  refine Evolves.ite hs (hs.foldl fun u r hu => ?_)
  exact Evolves.ite hu.spoilSource hu

theorem Evolves.tileStore {F : Part → Bool} [Stores F] [MayJobs F] {σ : State} {c : Ctx} {a : Nat} {bs : List Byte}
    {acc : State × Option Drop} (hs : Evolves F σ acc.1) : Evolves F σ (State.tileStore c a bs acc).1 := by
  unfold State.tileStore
  split
  · split
    · exact hs.store
    · exact hs.remoteStore
  · exact hs.store

theorem Evolves.tileWrite {F : Part → Bool} [Stores F] [MayJobs F] [MayTWindow F] [MayTDrop F] {σ : State} {c : Ctx}
    {a : Nat} {bs : List Byte} {s : State} (hs : Evolves F σ s) : Evolves F σ (State.tileWrite c a bs s) := by
  unfold State.tileWrite
  extract_lets +onlyGivenNames r
  have hr : Evolves F σ r.1 := Evolves.tileStore hs
  clear_value r
  exact hr.noteDrop

theorem Evolves.dma {F : Part → Bool} [Stores F] [MayJobs F] [MayTWindow F] [MayTStreams F] [MayTDrop F] {σ : State}
    {c : Ctx} {s : State} (hs : Evolves F σ s) :
    Evolves F σ (State.dma c s) := by
  unfold State.dma
  split
  · extract_lets +onlyGivenNames s0
    have hs : Evolves F σ s0 := hs.movePairs
    clear_value s0
    extract_lets +onlyGivenNames v1 v2 v3 v4
    clear_value v1 v2 v3 v4
    split
    · rename_i e
      exact hs.dmaStop e
    · extract_lets +onlyGivenNames v1 v2 v3
      clear_value v1 v2 v3
      extract_lets +onlyGivenNames p4
      have h4 : Evolves F σ p4.1 := by
        refine Evolves.dmaWrite ?_
        refine Evolves.fst ?_
        exact hs.countDma
      clear_value p4
      extract_lets +onlyGivenNames p5
      have h5 : Evolves F σ p5.1 := by
        unfold p5
        split
        · refine Evolves.foldlPair ?_ ?_
          · exact h4
          · intro x6 x7 h8
            exact h8.dmaRecord
        · exact h4
      clear_value p5
      extract_lets +onlyGivenNames s9
      have h9 : Evolves F σ s9 := h5.noteDrop
      clear_value s9
      extract_lets +onlyGivenNames s10
      have h10 : Evolves F σ s10 := h9.clearGranules
      clear_value s10
      extract_lets +onlyGivenNames v11
      clear_value v11
      extract_lets +onlyGivenNames s12
      have h12 : Evolves F σ s12 := by
        refine Evolves.ite ?_ ?_
        · exact h10
        · exact h10.mapMop
      clear_value s12
      extract_lets +onlyGivenNames s13
      have h13 : Evolves F σ s13 := h12.mapStream
      clear_value s13
      extract_lets +onlyGivenNames s14
      have h14 : Evolves F σ s14 := by
        refine Evolves.ite ?_ ?_
        · exact h13.unitDone
        · exact h13
      clear_value s14
      exact h14.markDone
  · exact hs.markDone

theorem Ran.dmaOp {F : Part → Bool} [Stores F] [MayJobs F] [MayTWindow F] [MayTStreams F] [MayTDrop F] {σ : State} {s
    : State} {t seq fam : Nat} (hs : Evolves F σ s) :
    Ran F σ (State.dmaOp s t seq fam) := by
  unfold State.dmaOp
  refine Ran.withReady ?_ ?_
  · exact hs
  · intro x1
    refine Evolves.ite ?_ ?_
    · refine Evolves.guarded ?_ ?_
      · exact hs
      · intro x2 h3
        exact h3.dma
    · exact hs

theorem execLoad_ran {F : Part → Bool} [Stores F] [MayJobs F] [MayTWindow F] [MayTStreams F] [MayTDrop F] {σ : State}
    {t seq : Nat} {s : State} (hs : Evolves F σ s) :
    Ran F σ (execLoad t seq s) := by
  unfold execLoad
  refine Ran.dmaOp ?_
  exact hs

theorem execStore_ran {F : Part → Bool} [Stores F] [MayJobs F] [MayTWindow F] [MayTStreams F] [MayTDrop F] {σ :
    State} {t seq : Nat} {s : State} (hs : Evolves F σ s) :
    Ran F σ (execStore t seq s) := by
  unfold execStore
  refine Ran.dmaOp ?_
  exact hs

theorem execGather_ran {F : Part → Bool} [Stores F] [MayJobs F] [MayTWindow F] [MayTStreams F] [MayTDrop F] {σ :
    State} {t seq : Nat} {s : State} (hs : Evolves F σ s) :
    Ran F σ (execGather t seq s) := by
  unfold execGather
  refine Ran.dmaOp ?_
  exact hs

theorem execScatter_ran {F : Part → Bool} [Stores F] [MayJobs F] [MayTWindow F] [MayTStreams F] [MayTDrop F] {σ :
    State} {t seq : Nat} {s : State} (hs : Evolves F σ s) :
    Ran F σ (execScatter t seq s) := by
  unfold execScatter
  refine Ran.dmaOp ?_
  exact hs

theorem execRemoteRead_ran {F : Part → Bool} [MayResp F] [MayTele F] [MayTMarks F] {σ : State} {reader target off len
    : Nat} {s : State} (hs : Evolves F σ s) :
    Ran F σ (execRemoteRead reader target off len s) := by
  unfold execRemoteRead
  split
  · exact Ran.stop (by simp)
  split
  · exact Ran.next hs
  · extract_lets +onlyGivenNames p1
    have h1 : Evolves F σ p1.1 := hs.remoteRead
    clear_value p1
    refine Ran.next ?_
    extract_lets +onlyGivenNames s2
    have h2 : Evolves F σ s2 := h1.count
    clear_value s2
    exact h2.set_resp

theorem execRemoteWrite_ran {F : Part → Bool} [Stores F] [MayJobs F] {σ : State} {writer target off : Nat} {data :
    List Byte} {s : State} (hs : Evolves F σ s) :
    Ran F σ (execRemoteWrite writer target off data s) := by
  unfold execRemoteWrite
  split
  · exact Ran.stop (by simp)
  split
  · exact Ran.next hs
  · refine Ran.next ?_
    exact hs.remoteStore

end Sys2Proof.Machine
end

