-- ==== Sys2Proof/Laws/EvCheckUnit.lean ====
section
/-!
SUPPORT. What the operations of Machine/CheckUnit.lean keep (Laws/Evolves.lean), one lemma for each.
-/
namespace Sys2Proof.Machine

theorem Evolves.countChk {F : Part → Bool} [MayTele F] {σ : State} {c : Ctx} {u v : Cvu} {read out : Nat} {s : State}
    (hs : Evolves F σ s) :
    Evolves F σ (State.countChk c u v read out s) := by
  unfold State.countChk
  extract_lets +onlyGivenNames v1
  clear_value v1
  refine Evolves.ite ?_ ?_
  · exact hs.count
  · extract_lets +onlyGivenNames s2
    have h2 : Evolves F σ s2 := hs.count
    clear_value s2
    refine Evolves.ite ?_ ?_
    · exact h2.count
    · exact h2.count.count

theorem Evolves.chk {F : Part → Bool} [Stores F] [MayJobs F] [MayCvus F] [MayTWindow F] [MayTDrop F] {σ : State} {c :
    Ctx} {s : State} (hs : Evolves F σ s) :
    Evolves F σ (State.chk c s) := by
  unfold State.chk
  split
  · extract_lets +onlyGivenNames v1 v2
    clear_value v1 v2
    refine Evolves.ite ?_ ?_
    · extract_lets +onlyGivenNames s2
      have h2 : Evolves F σ s2 := hs.count.tileWrite
      clear_value s2
      exact h2.mapMop.markDone
    · split
      · exact hs.stopMop
      · split
        · exact hs.remoteRead.stopMop
        · extract_lets +onlyGivenNames v3
          clear_value v3
          extract_lets +onlyGivenNames s4
          have h4 : Evolves F σ s4 := by
            unfold s4
            split
            · exact hs.spoilSource
            · exact hs
          clear_value s4
          split
          · exact h4.stopMop
          · extract_lets +onlyGivenNames v5 v6
            clear_value v5 v6
            extract_lets +onlyGivenNames s7
            have h7 : Evolves F σ s7 := h4.mapCvu
            clear_value s7
            extract_lets +onlyGivenNames s8
            have h8 : Evolves F σ s8 := h7.countChk.count.tileWrite
            clear_value s8
            extract_lets +onlyGivenNames s9
            have h9 : Evolves F σ s9 := by
              refine Evolves.ite ?_ ?_
              · exact h8
              · exact h8.mapMop
            clear_value s9
            exact h9.markDone
  · exact hs.markDone

theorem Ran.chkOp {F : Part → Bool} [Stores F] [MayJobs F] [MayCvus F] [MayTWindow F] [MayTDrop F] {σ : State} {s :
    State} {t seq action : Nat} (hs : Evolves F σ s) :
    Ran F σ (State.chkOp s t seq action) := by
  unfold State.chkOp
  refine Ran.withReady ?_ ?_
  · exact hs
  · intro x1
    exact Evolves.ite (Evolves.guarded hs (fun _ h => h.chk)) hs

theorem execChkCompute_ran {F : Part → Bool} [Stores F] [MayJobs F] [MayCvus F] [MayTWindow F] [MayTDrop F] {σ :
    State} {t seq : Nat} {s : State} (hs : Evolves F σ s) :
    Ran F σ (execChkCompute t seq s) := by
  unfold execChkCompute
  refine Ran.chkOp ?_
  exact hs

theorem execChkAppend_ran {F : Part → Bool} [Stores F] [MayJobs F] [MayCvus F] [MayTWindow F] [MayTDrop F] {σ :
    State} {t seq : Nat} {s : State} (hs : Evolves F σ s) :
    Ran F σ (execChkAppend t seq s) := by
  unfold execChkAppend
  refine Ran.chkOp ?_
  exact hs

theorem execChkCheckStrip_ran {F : Part → Bool} [Stores F] [MayJobs F] [MayCvus F] [MayTWindow F] [MayTDrop F] {σ :
    State} {t seq : Nat} {s : State} (hs : Evolves F σ s) :
    Ran F σ (execChkCheckStrip t seq s) := by
  unfold execChkCheckStrip
  refine Ran.chkOp ?_
  exact hs

theorem Evolves.writeCvuRx {F : Part → Bool} [Raises F] [MayCvus F] {σ : State} {q : Requester} {u v : Nat} {s :
    State} (hs : Evolves F σ s) :
    Evolves F σ (State.writeCvuRx q u v s) := by
  unfold State.writeCvuRx
  refine Evolves.ite ?_ ?_
  · exact hs.discard
  · exact hs.mapCvu

theorem execCvuRxWrite_ran {F : Part → Bool} [Raises F] [MayReadLatch F] [MayCvus F] {σ : State} {q : Requester} {u :
    Nat} {value : DWord} {s : State} (hs : Evolves F σ s) :
    Ran F σ (execCvuRxWrite q u value s) := by
  unfold execCvuRxWrite
  refine Ran.next ?_
  refine Evolves.gated ?_ ?_
  · exact hs.unlatch
  · intro x1 h2
    exact h2.writeCvuRx

end Sys2Proof.Machine
end

