-- ==== Sys2Proof/Laws/EvVprog.lean ====
section
/-!
SUPPORT. What the operations of Machine/Vprog.lean keep (Laws/Evolves.lean), one lemma for each.
-/
namespace Sys2Proof.Machine

theorem Evolves.audit {F : Part → Bool} [Stores F] [MayTWindow F] {σ : State} {t : Nat} {j : Job} {es : List (List
    Byte)} {s : State} (hs : Evolves F σ s) :
    Evolves F σ (State.audit t j es s) := by
  unfold State.audit
  refine Evolves.foldl ?_ ?_
  · exact hs
  · intro x1 x2 h3
    extract_lets +onlyGivenNames v4
    clear_value v4
    extract_lets +onlyGivenNames s5
    have h5 : Evolves F σ s5 := h3.count
    clear_value s5
    refine Evolves.ite ?_ ?_
    · exact Evolves.mapTile (Evolves.store (Evolves.count h5)) (fun _ => TKept.only_tWindow rfl)
    · exact h5.count

theorem Evolves.instr {F : Part → Bool} [Stores F] {σ : State} {x : VCtx} {i w c : Nat} {p : VRun × State} (hs :
    Evolves F σ p.2) :
    Evolves F σ (VCtx.instr x i w c p).2 := by
  unfold Sys2Proof.Machine.VCtx.instr
  extract_lets +onlyGivenNames v1
  clear_value v1
  extract_lets +onlyGivenNames s2
  have h2 : Evolves F σ s2 := hs
  clear_value s2
  extract_lets +onlyGivenNames v3 v4 v5
  clear_value v3 v4 v5
  split
  · exact h2.snd
  · split
    · extract_lets +onlyGivenNames v6
      clear_value v6
      exact h2.store.snd
    · split
      · extract_lets +onlyGivenNames v7
        clear_value v7
        extract_lets +onlyGivenNames v8
        clear_value v8
        exact h2.snd
      · extract_lets +onlyGivenNames v9
        clear_value v9
        extract_lets +onlyGivenNames v10
        clear_value v10
        exact h2.snd

theorem Evolves.run {F : Part → Bool} [Stores F] {σ : State} {x : VCtx} {p : Program} {acc : VRun × State} (hs :
    Evolves F σ acc.2) :
    Evolves F σ (VCtx.run x p acc).2 := by
  unfold Sys2Proof.Machine.VCtx.run
  refine Evolves.foldlSnd ?_ ?_
  · exact hs
  · intro x1 x2 h3
    exact h3.instr

theorem TKept.setRow {F : Part → Bool} [MayTVregs F] (u : Tile) (reg row : Nat) (v : Tab 128 Word) :
    TKept F u (u.setRow reg row v) := TKept.ite (TKept.only_tVregs rfl) (TKept.only_tVregs rfl)

theorem TKept.land {F : Part → Bool} [MayTVregs F] (u : Tile) (c : Nat) : TKept F u (u.land c) := by
  have H : ∀ (l : List Landing) (u : Tile), TKept F u (l.foldl (fun u l => u.setRow l.reg l.row l.value) u) := by
    intro l
    induction l with
    | nil => exact fun u => TKept.refl F u
    | cons x l ih => exact fun u => (TKept.setRow u _ _ _).trans (ih _)
  exact (H _ u).trans (TKept.only_tVregs rfl)

/-- A fold over passes keeps what each pass keeps of their state. -/
theorem Evolves.foldlPass {F : Part → Bool} {σ : State} {f : VPass → Nat → VPass} {l : List Nat} {acc : VPass}
    (h : Evolves F σ acc.state) (hf : ∀ a u, Evolves F σ a.state → Evolves F σ (f a u).state) :
    Evolves F σ (l.foldl f acc).state := by
  induction l generalizing acc with
  | nil => exact h
  | cons u l ih => exact ih (hf acc u h)

theorem Evolves.pass {F : Part → Bool} [Stores F] {σ : State} {x : VCtx} {c : Ctx} {g : Program} {acc : VPass}
    (hs : Evolves F σ acc.state) : Evolves F σ (VCtx.pass x c g acc).state := by
  unfold VCtx.pass
  extract_lets +onlyGivenNames s1
  have h1 : Evolves F σ s1 := hs
  clear_value s1
  extract_lets +onlyGivenNames v2 v3 v4 v5
  clear_value v2 v3 v4 v5
  extract_lets +onlyGivenNames p6
  have h6 : Evolves F σ p6.2 := h1.snd.run
  clear_value p6
  extract_lets +onlyGivenNames v7
  clear_value v7
  extract_lets +onlyGivenNames s8
  have h8 : Evolves F σ s8 := Evolves.ite (h6.foldl (fun _ _ hu => hu.store)) h6
  clear_value s8
  extract_lets +onlyGivenNames s9
  have h9 : Evolves F σ s9 := by
    unfold s9
    split
    · exact Evolves.ite (h8.foldl (fun _ _ hu => hu.writeRecord)) h8
    · exact h8
  exact h9

theorem Evolves.passUnits {F : Part → Bool} [Stores F] {σ : State} {x : VCtx} {c : Ctx} {g : Program} {ch : ChainRun}
    {i : Inter} {acc : VPass} (hs : Evolves F σ acc.state) : Evolves F σ (VCtx.passUnits x c g ch i acc).state := by
  unfold VCtx.passUnits
  exact Evolves.foldlPass hs (fun a u ha => Evolves.pass (Evolves.store ha))

theorem Evolves.runVprog {F : Part → Bool} [Stores F] [MayFreeCount F] [MayTVregs F] [MayTWindow F] {σ : State} {c :
    Ctx} {s0 : State} (hs : Evolves F σ s0) :
    Evolves F σ (State.runVprog c s0) := by
  unfold State.runVprog
  extract_lets +onlyGivenNames v1 v2
  clear_value v1 v2
  extract_lets +onlyGivenNames s3
  have h3 : Evolves F σ s3 := hs.mapTile (fun _ => TKept.land _ _)
  clear_value s3
  extract_lets +onlyGivenNames v4
  clear_value v4
  extract_lets +onlyGivenNames p5
  have h5 : Evolves F σ p5.state := h3
  clear_value p5
  extract_lets +onlyGivenNames p6
  have h6 : Evolves F σ p6.state := by
    unfold p6
    split
    · split
      · exact h5.passUnits
      · exact h5.pass
    · exact h5.pass
  clear_value p6
  extract_lets +onlyGivenNames s0 s7
  have h7 : Evolves F σ s7 := Evolves.set_freeCount (t := s0) h6
  clear_value s0 s7
  extract_lets +onlyGivenNames s8
  have h8 : Evolves F σ s8 := by
    refine Evolves.ite ?_ ?_
    · exact h7.count
    · exact h7
  clear_value s8
  extract_lets +onlyGivenNames s9
  have h9 : Evolves F σ s9 := Evolves.mapTile h8 (fun _ => TKept.only_tVregs rfl)
  clear_value s9
  extract_lets +onlyGivenNames s10
  have h10 : Evolves F σ s10 := by
    refine Evolves.ite ?_ ?_
    · exact h9
    · exact h9.mapMop
  clear_value s10
  extract_lets +onlyGivenNames s11
  have h11 : Evolves F σ s11 := by
    refine Evolves.ite ?_ ?_
    · exact h10.audit
    · exact h10
  clear_value s11
  exact h11.markDone

theorem execVprog_ran {F : Part → Bool} [Stores F] [MayFreeCount F] [MayTVregs F] [MayTWindow F] {σ : State} {t seq :
    Nat} {s : State} (hs : Evolves F σ s) :
    Ran F σ (execVprog t seq s) := by
  unfold execVprog
  refine Ran.withReady ?_ ?_
  · exact hs
  · intro x1
    refine Evolves.ite ?_ ?_
    · refine Evolves.guarded ?_ ?_
      · exact hs
      · intro x2 h3
        split
        · exact h3.stopMop
        · exact h3.runVprog
    · exact hs

end Sys2Proof.Machine
end

