-- ==== Sys2Proof/Laws/EvGroup.lean ====
section
/-!
SUPPORT. What the operations of Machine/Group.lean keep (Laws/Evolves.lean), one lemma for each.
-/
namespace Sys2Proof.Machine

theorem Evolves.mapRun {F : Part → Bool} [MayGroups F] {σ : State} {g : GroupRun} {f : GroupRun → GroupRun} {s :
    State} (hs : Evolves F σ s) :
    Evolves F σ (State.mapRun g f s) := by
  unfold State.mapRun
  exact hs.set_groups

theorem Evolves.mapMember {F : Part → Bool} [MayGroups F] {σ : State} {g : GroupRun} {t : Nat} {f : GMember →
    GMember} {s : State} (hs : Evolves F σ s) :
    Evolves F σ (State.mapMember g t f s) := by
  unfold State.mapMember
  exact hs.mapRun

theorem Evolves.beginStream {F : Part → Bool} [MayTele F] [MayHbm F] {σ : State} {k : Nat} {x : KeyStream} {s :
    State} (hs : Evolves F σ s) :
    Evolves F σ (State.beginStream k x s) := by
  unfold State.beginStream
  refine Evolves.ite ?_ ?_
  · exact Evolves.count (Evolves.mapStack hs (fun _ => rfl))
  · exact Evolves.mapStack hs (fun _ => rfl)

theorem Evolves.endStream {F : Part → Bool} [MayHbm F] {σ : State} {x : KeyStream} {s : State} (hs : Evolves F σ s) :
    Evolves F σ (State.endStream x s) := by
  unfold State.endStream
  refine Evolves.foldl ?_ ?_
  · exact hs
  · intro x1 x2 h3
    exact Evolves.mapStack h3 (fun _ => rfl)

theorem execBobbinStreamStart_ran {F : Part → Bool} [MayTele F] [MayHbm F] {σ : State} {k : Nat} {s : State} (hs :
    Evolves F σ s) :
    Ran F σ (execBobbinStreamStart k s) := by
  unfold execBobbinStreamStart
  split
  · split
    · refine Ran.next ?_
      exact Evolves.count (Evolves.mapStack hs (fun _ => rfl))
    · refine Ran.next ?_
      exact hs
  · refine Ran.next ?_
    exact hs

theorem Evolves.readKeyLine {F : Part → Bool} [MayTele F] [MayGroups F] [MayPower F] {σ : State} {g : GroupRun} {full
    : Bool} {pass a : Nat} {dests dies : List Nat} {s : State} (hs : Evolves F σ s) :
    Evolves F σ (State.readKeyLine g full pass a dests dies s) := by
  unfold State.readKeyLine
  extract_lets +onlyGivenNames v1
  clear_value v1
  extract_lets +onlyGivenNames s2
  have h2 : Evolves F σ s2 := hs.count.count
  clear_value s2
  extract_lets +onlyGivenNames s3
  have h3 : Evolves F σ s3 := h2.askService
  clear_value s3
  exact h3.mapRun

theorem Evolves.readKeyLines {F : Part → Bool} [MayTele F] [MayGroups F] [MayPower F] {σ : State} {g : GroupRun}
    {full : Bool} {pass : Nat} {holders : Nat → List Nat} {l : List Nat} {s : State} (hs : Evolves F σ s) :
    Evolves F σ (State.readKeyLines g full pass holders l s) := by
  unfold State.readKeyLines
  refine Evolves.foldl ?_ ?_
  · exact hs
  · intro x1 x2 h3
    exact h3.readKeyLine

theorem Evolves.readHeaders {F : Part → Bool} [MayTele F] [MayGroups F] [MayPower F] {σ : State} {g : GroupRun} {full
    : Bool} {bases : List Nat} {s : State} (hs : Evolves F σ s) :
    Evolves F σ (State.readHeaders g full bases s) := by
  unfold State.readHeaders
  refine Evolves.foldl ?_ ?_
  · exact hs
  · intro x1 x2 h3
    exact h3.readKeyLine

theorem Ran.withStream {F : Part → Bool} {σ s : State} {t seq : Nat} {kind : MopWord → Bool} {f : Ctx → State}
    (hs : Evolves F σ s) (hf : ∀ c, Evolves F σ (f c)) : Ran F σ (State.withStream s t seq kind f) := by
  unfold State.withStream
  split
  · split
    · exact Ran.next (hf _)
    · exact Ran.next hs
  · exact Ran.next hs

theorem Evolves.release {F : Part → Bool} [MayTWindow F] {σ : State} {t seq cycles : Nat} {early : Bool} {s : State}
    (hs : Evolves F σ s) :
    Evolves F σ (State.release t seq cycles early s) := by
  unfold State.release
  exact hs.mapMop

theorem Evolves.closeRun {F : Part → Bool} [MayGroups F] [MayHbm F] {σ : State} {g : GroupRun} {s : State} (hs :
    Evolves F σ s) :
    Evolves F σ (State.closeRun g s) := by
  unfold State.closeRun
  extract_lets +onlyGivenNames s1
  have h1 : Evolves F σ s1 := hs.endStream
  clear_value s1
  exact h1.set_groups

theorem Evolves.zeroRange {F : Part → Bool} [Stores F] {σ : State} {lo hi : Nat} {s : State} (hs : Evolves F σ s) :
    Evolves F σ (State.zeroRange lo hi s) := by
  unfold State.zeroRange
  exact hs.store

end Sys2Proof.Machine
end

