-- ==== Sys2Proof/Laws/EvKeySwitch.lean ====
section
/-!
SUPPORT. What the operations of Machine/KeySwitch.lean keep (Laws/Evolves.lean), one lemma for each.
-/
namespace Sys2Proof.Machine

theorem execKeyVerdict_ran {F : Part → Bool} [MayTele F] [MayGroups F] [MayPower F] [MayTWindow F] {σ : State} {t seq
    : Nat} {s : State} (hs : Evolves F σ s) :
    Ran F σ (execKeyVerdict t seq s) := by
  unfold execKeyVerdict
  refine Ran.withStream ?_ ?_
  · exact hs
  · intro x1
    split
    · refine Evolves.ite ?_ ?_
      · exact hs
      · split
        · exact hs.stopMop
        · extract_lets +onlyGivenNames v2
          clear_value v2
          extract_lets +onlyGivenNames s3
          have h3 : Evolves F σ s3 := hs.readHeaders
          clear_value s3
          extract_lets +onlyGivenNames s4
          have h4 : Evolves F σ s4 := by
            refine Evolves.ite ?_ ?_
            · exact h3.count
            · exact h3
          clear_value s4
          extract_lets +onlyGivenNames s5
          have h5 : Evolves F σ s5 := by
            refine Evolves.ite ?_ ?_
            · exact h4.count
            · exact h4
          clear_value s5
          extract_lets +onlyGivenNames s6
          have h6 : Evolves F σ s6 := h5.mapMember
          clear_value s6
          refine Evolves.foldl ?_ ?_
          · exact h6
          · intro x7 x8 h9
            split
            · refine Evolves.ite ?_ ?_
              · exact h9.release
              · exact h9
            · exact h9
    · exact hs

theorem Evolves.fillKeyRing {F : Part → Bool} [Stores F] {σ : State} {c : Ctx} {got : Nat} {bs : List Byte} {s :
    State} (hs : Evolves F σ s) :
    Evolves F σ (State.fillKeyRing c got bs s) := by
  unfold State.fillKeyRing
  split
  · extract_lets +onlyGivenNames v1
    clear_value v1
    refine Evolves.foldl ?_ ?_
    · exact hs
    · intro x2 x3 h4
      exact h4.store
  · exact hs

theorem Evolves.ringArrival {F : Part → Bool} [Stores F] [MayGroups F] [MayPower F] [MayTWindow F] {σ : State} {s :
    State} {g : GroupRun} {c : Ctx} {k : Key} {theirs : Nat → List KeyPiece} {at0 bytes cycles : Nat} {ctr : Ctr} (hs
    : Evolves F σ s) :
    Evolves F σ (State.ringArrival s g c k theirs at0 bytes cycles ctr) := by
  unfold State.ringArrival
  extract_lets +onlyGivenNames v1 v2 v3 v4 v5 v6 v7 v8
  clear_value v1 v2 v3 v4 v5 v6 v7 v8
  refine Evolves.ite ?_ ?_
  · exact hs
  · split
    · exact hs.stopMop
    · extract_lets +onlyGivenNames v9
      clear_value v9
      extract_lets +onlyGivenNames v10
      clear_value v10
      extract_lets +onlyGivenNames s11
      have h11 : Evolves F σ s11 := hs.readHeaders.readKeyLines
      clear_value s11
      extract_lets +onlyGivenNames s12
      have h12 : Evolves F σ s12 := h11.fillKeyRing
      clear_value s12
      extract_lets +onlyGivenNames s13
      have h13 : Evolves F σ s13 := h12.mapMember
      clear_value s13
      refine Evolves.ite ?_ ?_
      · extract_lets +onlyGivenNames s14
        have h14 : Evolves F σ s14 := h13.count
        clear_value s14
        refine Evolves.ite ?_ ?_
        · exact h14.release
        · exact h14.mapMop
      · exact h13

theorem Ran.kswRing {F : Part → Bool} [Stores F] [MayGroups F] [MayPower F] [MayTWindow F] {σ : State} {s : State} {t
    seq bytes cycles : Nat} (hs : Evolves F σ s) :
    Ran F σ (State.kswRing s t seq bytes cycles) := by
  unfold State.kswRing
  refine Ran.withStream ?_ ?_
  · exact hs
  · intro x1
    split
    · refine Evolves.ite ?_ ?_
      · exact hs
      · extract_lets +onlyGivenNames v2
        clear_value v2
        extract_lets +onlyGivenNames v3
        clear_value v3
        exact hs.ringArrival
    · exact hs

theorem Evolves.commitMember {F : Part → Bool} [Stores F] [MayTWindow F] {σ : State} {g : GroupRun} {set t : Nat}
    {outs : List BatchOut} {s : State} (hs : Evolves F σ s) :
    Evolves F σ (State.commitMember g set t outs s) := by
  unfold State.commitMember
  split
  · extract_lets +onlyGivenNames s1
    have h1 : Evolves F σ s1 := Evolves.ite hs (hs.foldl (fun _ _ h => h.writeOut))
    clear_value s1
    exact Evolves.ite (h1.foldl (fun _ _ h => h.writeRecord)) h1
  · exact hs

theorem Evolves.commitGroup {F : Part → Bool} [Stores F] [MayGroups F] [MayTWindow F] {σ : State} {c : Ctx} {g :
    GroupRun} {outs : List (Nat × List BatchOut)} {s : State} (hs : Evolves F σ s) :
    Evolves F σ (State.commitGroup c g outs s) := by
  unfold State.commitGroup
  extract_lets +onlyGivenNames s1
  have h1 : Evolves F σ s1 := by
    refine Evolves.foldl ?_ ?_
    · exact hs
    · intro x2 x3 h4
      refine Evolves.foldl ?_ ?_
      · exact h4
      · intro x5 x6 h7
        exact h7.commitMember
  clear_value s1
  extract_lets +onlyGivenNames s8
  have h8 : Evolves F σ s8 := by
    refine Evolves.foldl ?_ ?_
    · exact h1
    · intro x9 x10 h11
      split
      · split
        · exact h11.zeroRange
        · assumption
      · assumption
  clear_value s8
  extract_lets +onlyGivenNames v12 v13
  clear_value v12 v13
  extract_lets +onlyGivenNames s14
  have h14 : Evolves F σ s14 := by
    unfold s14
    split
    · exact h8
    · extract_lets +onlyGivenNames v15
      clear_value v15
      split
      · extract_lets +onlyGivenNames v16
        clear_value v16
        exact h8.mapMop
      · exact h8
  clear_value s14
  extract_lets +onlyGivenNames s17
  have h17 : Evolves F σ s17 := by
    refine Evolves.foldl ?_ ?_
    · exact h14
    · intro x18 x19 h20
      split
      · exact h20.markDone
      · assumption
  clear_value s17
  exact h17.closeRun

theorem Evolves.permute {F : Part → Bool} [MayTele F] [MayPower F] {σ : State} {k n : Nat} {s : State} (hs : Evolves
    F σ s) :
    Evolves F σ (State.permute k n s) := by
  unfold State.permute
  exact hs.count.askService

theorem Evolves.countPermutations {F : Part → Bool} [MayTele F] [MayPower F] {σ : State} {c : Ctx} {g : GroupRun} {p
    : PSet} {rho n : Nat} {s : State} (hs : Evolves F σ s) :
    Evolves F σ (State.countPermutations c g p rho n s) := by
  unfold State.countPermutations
  refine Evolves.ite ?_ ?_
  · exact hs
  · refine Evolves.foldl ?_ ?_
    · exact hs
    · intro x1 x2 h3
      refine Evolves.ite ?_ ?_
      · refine Evolves.ite ?_ ?_
        · refine Evolves.foldl ?_ ?_
          · exact h3
          · intro x4 x5 h6
            exact h6.permute
        · refine Evolves.foldl ?_ ?_
          · exact h3
          · intro x7 x8 h9
            exact h9.permute
      · exact h3

theorem Evolves.holdAt {F : Part → Bool} [MayGroups F] [MayTWindow F] {σ : State} {g : GroupRun} {t seq : Nat} {h :
    Hold} {s : State} (hs : Evolves F σ s) :
    Evolves F σ (State.holdAt g t seq h s) := by
  unfold State.holdAt
  extract_lets +onlyGivenNames s1
  have h1 : Evolves F σ s1 := hs.mapMop
  clear_value s1
  refine Evolves.ite ?_ ?_
  · exact h1.mapMember
  · exact h1

theorem Ran.ksw {F : Part → Bool} [Stores F] [MayGroups F] [MayPower F] [MayTWindow F] {σ : State} {s : State} {t seq
    kind : Nat} (hs : Evolves F σ s) :
    Ran F σ (State.ksw s t seq kind) := by
  unfold State.ksw
  refine Ran.withReady ?_ ?_
  · exact hs
  · intro x1
    split
    · refine Evolves.ite ?_ ?_
      · exact hs
      · refine Evolves.ite ?_ ?_
        · exact hs.holdAt
        · refine Evolves.ite ?_ ?_
          · exact hs.mapMop
          · extract_lets +onlyGivenNames v1
            clear_value v1
            extract_lets +onlyGivenNames s2
            have h2 : Evolves F σ s2 := hs.mapMop
            clear_value s2
            split
            · exact h2.markGranule.stopMop
            · split
              · exact h2.stopMop
              · extract_lets +onlyGivenNames v3
                clear_value v3
                extract_lets +onlyGivenNames s4
                have h4 : Evolves F σ s4 := by
                  refine Evolves.ite ?_ ?_
                  · exact h2.countPermutations
                  · exact h2
                clear_value s4
                exact h4.commitGroup
    · exact hs

theorem execKswRelin_ran {F : Part → Bool} [Stores F] [MayGroups F] [MayPower F] [MayTWindow F] {σ : State} {t seq :
    Nat} {s : State} (hs : Evolves F σ s) :
    Ran F σ (execKswRelin t seq s) := by
  unfold execKswRelin
  refine Ran.ksw ?_
  exact hs

theorem execKswGalois_ran {F : Part → Bool} [Stores F] [MayGroups F] [MayPower F] [MayTWindow F] {σ : State} {t seq :
    Nat} {s : State} (hs : Evolves F σ s) :
    Ran F σ (execKswGalois t seq s) := by
  unfold execKswGalois
  refine Ran.ksw ?_
  exact hs

theorem execKswLweKs_ran {F : Part → Bool} [Stores F] [MayGroups F] [MayPower F] [MayTWindow F] {σ : State} {t seq :
    Nat} {s : State} (hs : Evolves F σ s) :
    Ran F σ (execKswLweKs t seq s) := by
  unfold execKswLweKs
  refine Ran.ksw ?_
  exact hs

end Sys2Proof.Machine
end

