-- ==== Sys2Proof/Laws/EvMatrix.lean ====
section
/-!
SUPPORT. What the operations of Machine/Matrix.lean keep (Laws/Evolves.lean), one lemma for each.
-/
namespace Sys2Proof.Machine

theorem Evolves.mxCount {F : Part → Bool} [MayTele F] {σ : State} {c : Ctx} {v : View} {m : Nat} {s : State} (hs :
    Evolves F σ s) :
    Evolves F σ (mxCount c v m s) := by
  unfold Sys2Proof.Machine.mxCount
  exact hs.count.count

theorem Evolves.storeRows {F : Part → Bool} [Stores F] {σ : State} {a : Nat} {rows : List (List Nat)} {s : State} (hs
    : Evolves F σ s) :
    Evolves F σ (State.storeRows a rows s) := by
  unfold State.storeRows
  exact hs.store

theorem Evolves.fillRing {F : Part → Bool} [Stores F] {σ : State} {ch : ChainRun} {t : Nat} {s : State} (hs : Evolves
    F σ s) :
    Evolves F σ (State.fillRing ch t s) := by
  unfold State.fillRing
  extract_lets +onlyGivenNames v1 v2 v3
  clear_value v1 v2 v3
  refine Evolves.foldl ?_ ?_
  · exact hs
  · intro x4 x5 h6
    exact h6.storeRows

theorem Evolves.fc3Stage2 {F : Part → Bool} [Stores F] {σ : State} {c : Ctx} {partials : List (List Nat)} {s : State}
    (hs : Evolves F σ s) :
    Evolves F σ (State.fc3Stage2 c partials s) := by
  unfold State.fc3Stage2
  split
  · refine Evolves.ite ?_ ?_
    · exact hs.fillRing.storeRows
    · exact hs
  · exact hs

theorem execMxpModular_ran {F : Part → Bool} [Stores F] [MayTWindow F] {σ : State} {t seq : Nat} {s : State} (hs :
    Evolves F σ s) :
    Ran F σ (execMxpModular t seq s) := by
  unfold execMxpModular
  refine Ran.withReady ?_ ?_
  · exact hs
  · intro x1
    refine Evolves.guarded ?_ ?_
    · exact hs
    · intro x2 h3
      split
      · extract_lets +onlyGivenNames v5 v6 v7
        clear_value v5 v6 v7
        exact h3.mxCount.fc3Stage2.commitOut
      · exact h3.markDone

theorem execMxpClear_ran {F : Part → Bool} [Stores F] [MayTWindow F] {σ : State} {t seq : Nat} {s : State} (hs :
    Evolves F σ s) :
    Ran F σ (execMxpClear t seq s) := by
  unfold execMxpClear
  refine Ran.withReady ?_ ?_
  · exact hs
  · intro x1
    refine Evolves.guarded ?_ ?_
    · exact hs
    · intro x2 h3
      split
      · extract_lets +onlyGivenNames v5
        clear_value v5
        extract_lets +onlyGivenNames s4
        have h4 : Evolves F σ s4 := h3.mxCount
        clear_value s4
        extract_lets +onlyGivenNames s6
        have h6 : Evolves F σ s6 := by
          refine Evolves.ite ?_ ?_
          · exact h4.count
          · exact h4
        clear_value s6
        exact h6.commitOut
      · exact h3.markDone

theorem execMxpExpand_ran {F : Part → Bool} [Stores F] [MayTWindow F] {σ : State} {t seq : Nat} {s : State} (hs :
    Evolves F σ s) :
    Ran F σ (execMxpExpand t seq s) := by
  unfold execMxpExpand
  refine Ran.withReady ?_ ?_
  · exact hs
  · intro x1
    refine Evolves.guarded ?_ ?_
    · exact hs
    · intro x2 h3
      split
      · exact h3.mxCount.commitOut
      · exact h3.markDone

theorem execVcvt_ran {F : Part → Bool} [Stores F] [MayTWindow F] {σ : State} {t seq : Nat} {s : State} (hs : Evolves
    F σ s) :
    Ran F σ (execVcvt t seq s) := by
  unfold execVcvt
  refine Ran.withReady ?_ ?_
  · exact hs
  · intro x1
    refine Evolves.guarded ?_ ?_
    · exact hs
    · intro x2 h3
      split
      · extract_lets +onlyGivenNames v4
        clear_value v4
        extract_lets +onlyGivenNames v5
        clear_value v5
        extract_lets +onlyGivenNames s6
        have h6 : Evolves F σ s6 := h3.count
        clear_value s6
        extract_lets +onlyGivenNames s7
        have h7 : Evolves F σ s7 := by
          refine Evolves.ite ?_ ?_
          · exact h6.count
          · exact h6
        clear_value s7
        exact h7.commitOut
      · exact h3.markDone

end Sys2Proof.Machine
end

