-- ==== Sys2Proof/Laws/EvRefresh.lean ====
section
/-!
SUPPORT. What the operations of Machine/Refresh.lean keep (Laws/Evolves.lean), one lemma for each.
-/
namespace Sys2Proof.Machine

theorem execPbsKeyVerdict_ran {F : Part → Bool} [MayTele F] [MayGroups F] [MayPower F] [MayTWindow F] {σ : State} {t
    seq : Nat} {s : State} (hs : Evolves F σ s) :
    Ran F σ (execPbsKeyVerdict t seq s) := by
  unfold execPbsKeyVerdict
  refine Ran.withStream ?_ ?_
  · exact hs
  · intro x1
    split
    · refine Evolves.ite ?_ ?_
      · exact hs
      · extract_lets +onlyGivenNames v2
        clear_value v2
        split
        · exact hs.stopMop
        · extract_lets +onlyGivenNames v3 v4
          clear_value v3 v4
          extract_lets +onlyGivenNames s4
          have h4 : Evolves F σ s4 := hs.readHeaders
          clear_value s4
          extract_lets +onlyGivenNames s5
          have h5 : Evolves F σ s5 := by
            refine Evolves.ite ?_ ?_
            · exact h4.count
            · exact h4
          clear_value s5
          extract_lets +onlyGivenNames s6
          have h6 : Evolves F σ s6 := by
            refine Evolves.ite ?_ ?_
            · exact h5.count
            · exact h5
          clear_value s6
          extract_lets +onlyGivenNames s7
          have h7 : Evolves F σ s7 := h6.mapMember
          clear_value s7
          refine Evolves.ite ?_ ?_
          · exact h7.release
          · exact h7
    · exact hs

theorem execPbsObjectArrival_ran {F : Part → Bool} [MayTele F] [MayGroups F] [MayPower F] [MayTWindow F] {σ : State}
    {t seq cycles : Nat} {s : State} (hs : Evolves F σ s) :
    Ran F σ (execPbsObjectArrival t seq cycles s) := by
  unfold execPbsObjectArrival
  refine Ran.withStream ?_ ?_
  · exact hs
  · intro x1
    split
    · extract_lets +onlyGivenNames v2
      clear_value v2
      refine Evolves.ite ?_ ?_
      · exact hs
      · extract_lets +onlyGivenNames v3
        clear_value v3
        extract_lets +onlyGivenNames v4 v5
        clear_value v4 v5
        split
        · exact hs.stopMop
        · extract_lets +onlyGivenNames s6
          have h6 : Evolves F σ s6 := hs.readHeaders.readKeyLines
          clear_value s6
          extract_lets +onlyGivenNames s7
          have h7 : Evolves F σ s7 := h6.mapMember
          clear_value s7
          refine Evolves.ite ?_ ?_
          · exact h7.release.count
          · exact h7
    · exact hs

theorem Ran.pbsRing {F : Part → Bool} [Stores F] [MayGroups F] [MayPower F] [MayTWindow F] {σ : State} {s : State} {t
    seq bytes cycles : Nat} (hs : Evolves F σ s) :
    Ran F σ (State.pbsRing s t seq bytes cycles) := by
  unfold State.pbsRing
  refine Ran.withStream ?_ ?_
  · exact hs
  · intro x1
    split
    · extract_lets +onlyGivenNames v2
      clear_value v2
      extract_lets +onlyGivenNames v3 v4
      clear_value v3 v4
      refine Evolves.ite ?_ ?_
      · exact hs
      · exact hs.ringArrival
    · exact hs

theorem execKeyRingArrival_ran {F : Part → Bool} [Stores F] [MayGroups F] [MayPower F] [MayTWindow F] {σ : State} {t
    seq bytes cycles : Nat} {s : State} (hs : Evolves F σ s) :
    Ran F σ (execKeyRingArrival t seq bytes cycles s) := by
  unfold execKeyRingArrival
  split
  · split
    · refine Ran.pbsRing ?_
      exact hs
    · refine Ran.kswRing ?_
      exact hs
  · refine Ran.next ?_
    exact hs

theorem Evolves.storeNormal {F : Part → Bool} [Stores F] {σ : State} {g : GroupRun} {c : Ctx} {p : PSet} {s : State}
    (hs : Evolves F σ s) :
    Evolves F σ (State.storeNormal g c p s) := by
  unfold State.storeNormal
  split
  · extract_lets +onlyGivenNames v1
    clear_value v1
    extract_lets +onlyGivenNames v2 v3 v4 v5 v6
    clear_value v2 v3 v4 v5 v6
    refine Evolves.ite ?_ ?_
    · extract_lets +onlyGivenNames v7
      clear_value v7
      exact hs.storeRows
    · exact hs.storeRows
  · exact hs

theorem Evolves.countRefresh {F : Part → Bool} [MayTele F] [MayPower F] {σ : State} {c : Ctx} {g : GroupRun} {p :
    PSet} {s : State} (hs : Evolves F σ s) :
    Evolves F σ (State.countRefresh c g p s) := by
  unfold State.countRefresh
  refine Evolves.ite ?_ ?_
  · exact hs
  · extract_lets +onlyGivenNames v1
    clear_value v1
    extract_lets +onlyGivenNames v2
    clear_value v2
    refine Evolves.foldl ?_ ?_
    · exact hs
    · intro x3 x4 h5
      refine Evolves.ite ?_ ?_
      · refine Evolves.foldl ?_ ?_
        · exact h5
        · intro x6 x7 h8
          exact h8.permute
      · exact h5

theorem Evolves.countPbs {F : Part → Bool} [MayTele F] {σ : State} {c : Ctx} {g : GroupRun} {p : PSet} {s : State}
    (hs : Evolves F σ s) : Evolves F σ (State.countPbs c g p s) := by
  unfold State.countPbs
  refine hs.foldl fun u x hu => ?_
  extract_lets +onlyGivenNames v2 s3
  have h3 : Evolves F σ s3 := hu.count.count
  clear_value s3
  exact Evolves.ite h3.count h3

theorem execPbs_ran {F : Part → Bool} [Stores F] [MayGroups F] [MayPower F] [MayTWindow F] {σ : State} {t seq : Nat}
    {s : State} (hs : Evolves F σ s) :
    Ran F σ (execPbs t seq s) := by
  unfold execPbs
  refine Ran.withReady ?_ ?_
  · exact hs
  · intro x1
    split
    · refine Evolves.ite ?_ ?_
      · exact hs
      · refine Evolves.ite ?_ ?_
        · exact hs.holdAt.mapMember
        · refine Evolves.ite ?_ ?_
          · exact hs.mapMop.mapMember
          · extract_lets +onlyGivenNames v1
            clear_value v1
            extract_lets +onlyGivenNames s2
            have h2 : Evolves F σ s2 := hs.mapMop
            clear_value s2
            split
            · exact h2.markGranule.stopMop
            · split
              · exact h2.stopMop
              extract_lets +onlyGivenNames s8
              have h8 : Evolves F σ s8 := h2.countPbs.countRefresh
              clear_value s8
              extract_lets +onlyGivenNames s10
              have h10 : Evolves F σ s10 := by
                refine Evolves.ite ?_ ?_
                · refine Evolves.foldl ?_ ?_
                  · exact h8
                  · intro x11 x12 h13
                    split
                    · exact h13.storeNormal
                    · assumption
                · exact h8
              clear_value s10
              exact h10.commitGroup
    · exact hs

theorem Ran.packOp {F : Part → Bool} [Stores F] [MayTWindow F] {σ s : State} {t seq srcBit : Nat}
    {data : Ctx → View → State → View → Nat → RecIn → PSet → List ElemOut} (hs : Evolves F σ s) :
    Ran F σ (State.packOp s t seq srcBit data) := by
  unfold State.packOp
  split
  · rename_i u e
    have h : Evolves F σ u := Ran.unary hs _ e
    exact Ran.next (Evolves.ite h.count h)
  · rename_i ho
    exact Ran.stop fun u e => ho u e

theorem execPackRaise_ran {F : Part → Bool} [Stores F] [MayTWindow F] {σ : State} {t seq : Nat} {s : State} (hs :
    Evolves F σ s) :
    Ran F σ (execPackRaise t seq s) := by
  unfold execPackRaise
  refine Ran.packOp ?_
  exact hs

theorem execPackLwe_ran {F : Part → Bool} [Stores F] [MayTWindow F] {σ : State} {t seq : Nat} {s : State} (hs :
    Evolves F σ s) :
    Ran F σ (execPackLwe t seq s) := by
  unfold execPackLwe
  refine Ran.packOp ?_
  exact hs

end Sys2Proof.Machine
end

