-- ==== Sys2Proof/Laws/EvAdmit.lean ====
section
/-!
SUPPORT. What the operations of Machine/Admit.lean keep (Laws/Evolves.lean), one lemma for each.
-/
namespace Sys2Proof.Machine

theorem Evolves.tileAt {F : Part → Bool} [MayTele F] [MayTWindow F] {σ : State} {t cycle : Nat} {s : State} (hs :
    Evolves F σ s) :
    Evolves F σ (State.tileAt t cycle s) := by
  unfold State.tileAt
  extract_lets +onlyGivenNames v1
  clear_value v1
  extract_lets +onlyGivenNames s1
  have h1 : Evolves F σ s1 := hs.runCycles
  clear_value s1
  extract_lets +onlyGivenNames s2
  have h2 : Evolves F σ s2 := by
    refine Evolves.ite ?_ ?_
    · exact h1.count
    · exact h1
  clear_value s2
  exact Evolves.mapTile h2 (fun _ => TKept.only_tWindow rfl)

theorem Evolves.accountWait {F : Part → Bool} [MayTele F] [MayTWindow F] {σ : State} {t upto : Nat} {s : State} (hs :
    Evolves F σ s) :
    Evolves F σ (State.accountWait t upto s) := by
  unfold State.accountWait
  split
  · exact hs
  · refine Evolves.ite hs ?_
    extract_lets +onlyGivenNames v1 put
    clear_value v1
    have hput : ∀ n u, Evolves F σ u → Evolves F σ (put n u) := fun n u hu => hu.mapTile (fun _ => TKept.only_tWindow
    rfl)
    clear_value put
    split
    · exact hput _ _ hs.count
    · split
      · exact hput _ _ hs.count
      · extract_lets +onlyGivenNames v2 s3
        clear_value v2
        have h3 : Evolves F σ s3 := hs.count
        clear_value s3
        exact Evolves.ite (hput _ _ h3.count) (hput _ _ h3)

end Sys2Proof.Machine
end

