-- ==== Sys2Proof/Laws/EvBodkin.lean ====
section
/-!
SUPPORT. What the operations of Machine/Bodkin.lean keep (Laws/Evolves.lean), one lemma for each.
-/
namespace Sys2Proof.Machine

theorem Ran.bodkinRun {F : Part → Bool} [MayBodkin F] {σ : State} {s : State} {l : Nat} {vs : List Nat} {result :
    List Nat} {st : BodkinStatus} {cycles : Nat} {loads : Option (Nat × Curve)} (hs : Evolves F σ s) :
    Ran F σ (State.bodkinRun s l vs result st cycles loads) := by
  unfold State.bodkinRun
  split
  · refine Ran.next ?_
    exact hs
  · refine Ran.next ?_
    exact hs.set_bodkin

theorem Ran.bodkinBad {F : Part → Bool} [MayBodkin F] {σ : State} {s : State} (hs : Evolves F σ s) :
    Ran F σ (State.bodkinBad s) := by
  unfold State.bodkinBad
  refine Ran.bodkinRun ?_
  exact hs

theorem Ran.bodkinMod {F : Part → Bool} [MayBodkin F] {σ : State} {s : State} {mBits cycles m : Nat} {vs : List Nat}
    {f : Nat → List Nat → Nat × BodkinStatus} (hs : Evolves F σ s) :
    Ran F σ (State.bodkinMod s mBits cycles m vs f) := by
  unfold State.bodkinMod
  split
  · refine Ran.bodkinBad ?_
    exact hs
  · extract_lets +onlyGivenNames v1
    clear_value v1
    extract_lets +onlyGivenNames v2 v3
    clear_value v2 v3
    refine Ran.bodkinRun ?_
    exact hs

theorem execModadd_ran {F : Part → Bool} [MayBodkin F] {σ : State} {mBits x y m : Nat} {s : State} (hs : Evolves F σ
    s) :
    Ran F σ (execModadd mBits x y m s) := by
  unfold execModadd
  refine Ran.bodkinMod ?_
  exact hs

theorem execModsub_ran {F : Part → Bool} [MayBodkin F] {σ : State} {mBits x y m : Nat} {s : State} (hs : Evolves F σ
    s) :
    Ran F σ (execModsub mBits x y m s) := by
  unfold execModsub
  refine Ran.bodkinMod ?_
  exact hs

theorem execModmul_ran {F : Part → Bool} [MayBodkin F] {σ : State} {mBits x y m : Nat} {s : State} (hs : Evolves F σ
    s) :
    Ran F σ (execModmul mBits x y m s) := by
  unfold execModmul
  refine Ran.bodkinMod ?_
  exact hs

theorem execModexp_ran {F : Part → Bool} [MayBodkin F] {σ : State} {mBits eBits x e m : Nat} {s : State} (hs :
    Evolves F σ s) :
    Ran F σ (execModexp mBits eBits x e m s) := by
  unfold execModexp
  split
  · refine Ran.bodkinBad ?_
    exact hs
  · refine Ran.bodkinMod ?_
    exact hs

theorem execModinvP_ran {F : Part → Bool} [MayBodkin F] {σ : State} {mBits x m : Nat} {s : State} (hs : Evolves F σ
    s) :
    Ran F σ (execModinvP mBits x m s) := by
  unfold execModinvP
  refine Ran.bodkinMod ?_
  exact hs

theorem Ran.bodkinCurve {F : Part → Bool} [MayBodkin F] {σ : State} {s : State} {slot : Nat} {scalars : List Nat}
    {points : List Point} {zero : List Nat} {cycles : Curve → Nat} {atInf : List Nat} {f : Curve → List Nat ×
    BodkinStatus} (hs : Evolves F σ s) :
    Ran F σ (State.bodkinCurve s slot scalars points zero cycles atInf f) := by
  unfold State.bodkinCurve
  split
  · refine Ran.bodkinBad ?_
    exact hs
  · extract_lets +onlyGivenNames v1
    clear_value v1
    refine Ran.bodkinRun ?_
    exact hs

theorem execEcmulg_ran {F : Part → Bool} [MayBodkin F] {σ : State} {slot k : Nat} {s : State} (hs : Evolves F σ s) :
    Ran F σ (execEcmulg slot k s) := by
  unfold execEcmulg
  refine Ran.bodkinCurve ?_
  exact hs

theorem execEcmul_ran {F : Part → Bool} [MayBodkin F] {σ : State} {slot k : Nat} {p : Point} {s : State} (hs :
    Evolves F σ s) :
    Ran F σ (execEcmul slot k p s) := by
  unfold execEcmul
  refine Ran.bodkinCurve ?_
  exact hs

theorem execEcdh_ran {F : Part → Bool} [MayBodkin F] {σ : State} {slot k : Nat} {q : Point} {s : State} (hs : Evolves
    F σ s) :
    Ran F σ (execEcdh slot k q s) := by
  unfold execEcdh
  refine Ran.bodkinCurve ?_
  exact hs

theorem execEcadd_ran {F : Part → Bool} [MayBodkin F] {σ : State} {slot : Nat} {p q : Point} {s : State} (hs :
    Evolves F σ s) :
    Ran F σ (execEcadd slot p q s) := by
  unfold execEcadd
  refine Ran.bodkinCurve ?_
  exact hs

theorem execEcdsaSign_ran {F : Part → Bool} [MayBodkin F] {σ : State} {slot e d k : Nat} {s : State} (hs : Evolves F
    σ s) :
    Ran F σ (execEcdsaSign slot e d k s) := by
  unfold execEcdsaSign
  refine Ran.bodkinCurve ?_
  exact hs

theorem execEcdsaVerify_ran {F : Part → Bool} [MayBodkin F] {σ : State} {slot e r z : Nat} {q : Point} {s : State}
    (hs : Evolves F σ s) :
    Ran F σ (execEcdsaVerify slot e r z q s) := by
  unfold execEcdsaVerify
  refine Ran.bodkinCurve ?_
  exact hs

theorem execCurveLoad_ran {F : Part → Bool} [MayBodkin F] {σ : State} {slot p a b gx gy n : Nat} {s : State} (hs :
    Evolves F σ s) :
    Ran F σ (execCurveLoad slot p a b gx gy n s) := by
  unfold execCurveLoad
  extract_lets +onlyGivenNames v1
  clear_value v1
  split
  · refine Ran.bodkinBad ?_
    exact hs
  · extract_lets +onlyGivenNames v2
    clear_value v2
    refine Ran.bodkinRun ?_
    exact hs

theorem execBodkinDone_ran {F : Part → Bool} [MayClock F] [MayTele F] [MayBodkin F] {σ : State} {s : State} (hs :
    Evolves F σ s) :
    Ran F σ (execBodkinDone s) := by
  unfold execBodkinDone
  split
  · refine Ran.next ?_
    exact hs
  · extract_lets +onlyGivenNames s1
    have h1 : Evolves F σ s1 := hs.until.count.count
    clear_value s1
    refine Ran.next ?_
    exact h1.set_bodkin

end Sys2Proof.Machine
end

