-- ==== Sys2Proof/Laws/EvErrQueue.lean ====
section
/-!
SUPPORT. What the operations of Machine/ErrQueue.lean keep (Laws/Evolves.lean), one lemma for each.
-/
namespace Sys2Proof.Machine

theorem Evolves.handleErr {F : Part → Bool} [MayErrs F] {σ s : State} (hs : Evolves F σ s) :
    Evolves F σ (State.handleErr s) := by
  unfold State.handleErr
  split
  · split
    · exact hs.set_errs (fun e => Nat.le_trans (ErrUnit.free_length _ _) e) id
    · exact hs
  · split
    · exact hs.set_errs (fun e => by simpa using e) id
    · exact hs

theorem Evolves.hoopStep {F : Part → Bool} [Raises F] {σ s : State} {error : ReadError} (hs : Evolves F σ s) :
    Evolves F σ (State.hoopStep error s) := by
  unfold State.hoopStep
  split
  · exact hs.handleErr
  · exact hs.raise.handleErr
  · exact hs.handleErr.ite hs.raise

theorem execErrorHandle_ran {F : Part → Bool} [Raises F] [MayFreeCount F] {σ s : State} (hs : Evolves F σ s) :
    Ran F σ (execErrorHandle s) := Ran.next hs.set_freeCount.hoopStep

theorem execErrorPosted_ran {F : Part → Bool} [Stores F] [MayMsix F] [MayEvq F] [MayErrs F] {σ s : State}
    (hs : Evolves F σ s) : Ran F σ (execErrorPosted s) := by
  unfold execErrorPosted
  split
  · refine Ran.next (hs.ite ?_)
    extract_lets +onlyGivenNames t
    have ht : Evolves F σ t := hs.set_errs (fun e => Nat.le_trans (ErrUnit.free_length _ _) e) id
    clear_value t
    exact ht.dropEvent.ite ht.postEvent
  · exact Ran.next hs

end Sys2Proof.Machine
end

