-- ==== Sys2Proof/Laws/EvMemCtl.lean ====
section
/-!
SUPPORT. What the operations of Machine/MemCtl.lean keep (Laws/Evolves.lean), one lemma for each.
-/
namespace Sys2Proof.Machine

theorem Evolves.lineRead {F : Part → Bool} [Raises F] [MayLinePoison F] {σ : State} {line : Nat} {e : ReadError} {s :
    State} (hs : Evolves F σ s) :
    Evolves F σ (State.lineRead line e s) := by
  unfold State.lineRead
  refine Evolves.ite ?_ ?_
  · exact hs
  · split
    · exact hs
    · exact hs.count.raise
    · refine Evolves.ite ?_ ?_
      · exact hs
      · refine Evolves.ite ?_ ?_
        · extract_lets +onlyGivenNames v1
          clear_value v1
          exact hs.count.raise
        · exact hs.markPoison

theorem Evolves.wordRead {F : Part → Bool} [Raises F] [MayTMarks F] {σ : State} {t off : Nat} {e : ReadError} {s :
    State} (hs : Evolves F σ s) :
    Evolves F σ (State.wordRead t off e s) := by
  unfold State.wordRead
  split
  · exact hs
  · exact hs.count.raise
  · refine Evolves.ite ?_ ?_
    · exact hs
    · exact Evolves.mapTile hs (fun _ => TKept.only_tMarks rfl)

theorem execMemReadRequest_ran {F : Part → Bool} [Raises F] [MayResp F] [MayLinePoison F] [MayTMarks F] {σ : State}
    {addr : Nat} {error : ReadError} {s : State} (hs : Evolves F σ s) :
    Ran F σ (execMemReadRequest addr error s) := by
  unfold execMemReadRequest
  split
  · exact Ran.next hs
  · split
    · exact Ran.stop (by simp)
    · exact Ran.next hs.lineRead.set_resp
    · exact Ran.next hs.lineRead.set_resp
    · rename_i t off _
      have h : Evolves F σ ((s.wordRead t off error).remoteRead t (off / 64 * 64) 64).1 := hs.wordRead.remoteRead
      exact Ran.next h.set_resp
    · exact Ran.next hs.set_resp

theorem lineOf_aligned (a : Nat) : lineOf a % 64 = 0 := Nat.mul_mod_left _ _

theorem execMemWriteRequest_ran {F : Part → Bool} [Stores F] [MayJobs F] {σ : State} {line : Nat} {mask : DWord}
    {data : List Byte} {s : State}
    (hs : Evolves F σ s) : Ran F σ (execMemWriteRequest line mask data s) := by
  unfold execMemWriteRequest
  split
  · exact Ran.next hs
  · have h : Evolves F σ (s.acceptLine (lineOf line) mask.toNat (slice data 0 64)) :=
      hs.acceptLine (lineOf_aligned _) mask.isLt
    split
    · exact Ran.stop (by simp)
    · exact Ran.next (Evolves.ite h h.noteWrite)

theorem execMemPoisonRequest_ran {F : Part → Bool} [MayTele F] [MayLinePoison F] [MayHbm F] [MayPoisonRequests F] {σ
    : State} {s : State} (hs : Evolves F σ s) :
    Ran F σ (execMemPoisonRequest s) := by
  unfold execMemPoisonRequest
  split
  · refine Ran.next ?_
    exact hs
  · split
    · refine Ran.next ?_
      exact hs
    · refine Ran.next ?_
      refine Evolves.foldl ?_ ?_
      · exact hs.set_poisonRequests
      · intro x1 x2 h3
        exact h3.poisonLine

theorem execWcbResidencyTimeout_ran {F : Part → Bool} [Raises F] [MayClock F] [MayMem F] [MayLinePoison F] {σ :
    State} {oldest : EntryRead} {s : State} (hs : Evolves F σ s) :
    Ran F σ (execWcbResidencyTimeout oldest s) := by
  unfold execWcbResidencyTimeout
  extract_lets +onlyGivenNames v1
  clear_value v1
  split
  · refine Ran.next ?_
    exact hs
  · split
    · refine Ran.next ?_
      exact hs
    · extract_lets +onlyGivenNames s2
      have h2 : Evolves F σ s2 := hs.until
      clear_value s2
      refine Ran.next ?_
      refine Evolves.writeBack ?_
      refine Evolves.ite ?_ ?_
      · exact h2
      · exact h2.lineRead

theorem Evolves.mergeReads {F : Part → Bool} [Raises F] [MayLinePoison F] {σ : State} {merges : List (Nat × ReadError)}
    {s : State} (hs : Evolves F σ s) : Evolves F σ (State.mergeReads merges s) := by
  unfold State.mergeReads
  exact hs.foldl fun _ _ hu => hu.foldl fun _ _ hv => Evolves.ite hv hv.lineRead

theorem execPatrolScrub_ran {F : Part → Bool} [Raises F] [MayLinePoison F] [MayNearScrub F] [MayPower F] {σ : State}
    {unit : ScrubUnit} {error : ReadError} {s : State} (hs : Evolves F σ s) :
    Ran F σ (execPatrolScrub unit error s) := by
  unfold execPatrolScrub
  split
  · refine Ran.next ?_
    exact hs
  · split
    · split
      · extract_lets +onlyGivenNames v1
        clear_value v1
        extract_lets +onlyGivenNames s2
        have h2 : Evolves F σ s2 := hs.lineRead.askService
        clear_value s2
        extract_lets +onlyGivenNames v3
        clear_value v3
        extract_lets +onlyGivenNames s4
        have h4 : Evolves F σ s4 := Evolves.mapStack h2 (fun _ => rfl)
        clear_value s4
        refine Ran.next ?_
        refine Evolves.ite ?_ ?_
        · exact h4.count
        · exact h4
      · refine Ran.next ?_
        exact hs
    · extract_lets +onlyGivenNames v5
      clear_value v5
      extract_lets +onlyGivenNames s6
      have h6 : Evolves F σ s6 := hs.lineRead.askService
      clear_value s6
      refine Ran.next ?_
      exact h6.set_nearScrub

theorem execHostMemRead_ran {F : Part → Bool} [Raises F] [MayResp F] [MayPower F] {σ : State} {offset len : Nat} {s :
    State} (hs : Evolves F σ s) :
    Ran F σ (execHostMemRead offset len s) := by
  unfold execHostMemRead
  split
  · refine Ran.next ?_
    exact hs
  · split
    · refine Ran.next ?_
      exact hs.set_resp
    · extract_lets +onlyGivenNames v1
      clear_value v1
      extract_lets +onlyGivenNames v2
      clear_value v2
      extract_lets +onlyGivenNames s3
      have h3 : Evolves F σ s3 := hs.raise
      clear_value s3
      extract_lets +onlyGivenNames s4
      have h4 : Evolves F σ s4 := h3.askService
      clear_value s4
      refine Ran.next ?_
      exact h4.set_resp

theorem execHostMemWrite_ran {F : Part → Bool} [Stores F] [MayJobs F] [MayPower F] {σ : State} {offset : Nat} {data :
    List Byte} {s : State} (hs : Evolves F σ s) :
    Ran F σ (execHostMemWrite offset data s) := by
  unfold execHostMemWrite
  split
  · refine Ran.next ?_
    exact hs
  · extract_lets +onlyGivenNames v1
    clear_value v1
    refine Ran.next ?_
    exact hs.store.noteWrite.askService

end Sys2Proof.Machine
end

