-- ==== Sys2Proof/Laws/EvSchedule.lean ====
section
/-!
SUPPORT. What the operations of Machine/Schedule.lean keep (Laws/Evolves.lean), one lemma for each.
-/
namespace Sys2Proof.Machine

theorem Evolves.putSched {F : Part → Bool} [Stores F] [MayJobs F] {σ : State} {j : Job} {e : SchedEntry} {die h : Nat}
    {s : State} (hs : Evolves F σ s) : Evolves F σ (State.putSched j e die h s) := by
  unfold State.putSched
  split
  · refine Evolves.ite hs ?_
    extract_lets +onlyGivenNames v1
    clear_value v1
    refine hs.foldl fun u t hu => ?_
    extract_lets +onlyGivenNames v2
    clear_value v2
    exact hu.store.noteWrite
  · exact hs

theorem Evolves.putScheds {F : Part → Bool} [Stores F] [MayJobs F] {σ : State} {ring : Nat} {s : State}
    (hs : Evolves F σ s) : Evolves F σ (State.putScheds ring s) := by
  unfold State.putScheds
  split
  · exact hs
  · extract_lets +onlyGivenNames v1
    clear_value v1
    exact hs.foldl fun u x hu => hu.putSched

theorem Evolves.runSched {F : Part → Bool} [Stores F] [MayJobs F] {σ : State} {ring : Nat} {x : Schedule} {s : State}
    (hs : Evolves F σ s) :
    Evolves F σ (State.runSched ring x s) := by
  unfold State.runSched
  split
  · exact hs
  · extract_lets +onlyGivenNames v1
    clear_value v1
    extract_lets +onlyGivenNames v2 v3
    clear_value v2 v3
    extract_lets +onlyGivenNames s4
    have h4 : Evolves F σ s4 := Evolves.mapJob hs (fun _ => rfl)
    clear_value s4
    exact h4.putSched

theorem Evolves.startScheds {F : Part → Bool} [Stores F] [Raises F] {σ : State} {ring : Nat} {s : State} (hs :
    Evolves F σ s) :
    Evolves F σ (State.startScheds ring s) := by
  unfold State.startScheds
  split
  · exact hs
  · extract_lets +onlyGivenNames v1
    clear_value v1
    extract_lets +onlyGivenNames v2
    clear_value v2
    refine Evolves.foldl ?_ ?_
    · exact hs
    · intro x3 x4 h5
      extract_lets +onlyGivenNames v6 v7 v8
      clear_value v6 v7 v8
      extract_lets +onlyGivenNames s9
      have h9 : Evolves F σ s9 := by
        refine Evolves.ite ?_ ?_
        · exact h5
        · exact h5.raise
      clear_value s9
      extract_lets +onlyGivenNames v10
      clear_value v10
      exact Evolves.runSched (Evolves.mapJob h9 (fun _ => rfl))

theorem Evolves.stepScheds {F : Part → Bool} [Stores F] [MayJobs F] {σ : State} {ring barrier : Nat} {s : State} (hs
    : Evolves F σ s) :
    Evolves F σ (State.stepScheds ring barrier s) := by
  unfold State.stepScheds
  split
  · exact hs
  · extract_lets +onlyGivenNames v1
    clear_value v1
    extract_lets +onlyGivenNames v2
    clear_value v2
    extract_lets +onlyGivenNames s3
    have h3 : Evolves F σ s3 := hs.count
    clear_value s3
    refine Evolves.foldl ?_ ?_
    · exact h3
    · intro x4 x5 h6
      exact h6.runSched

theorem Evolves.endScheds {F : Part → Bool} [Stores F] {σ : State} {ring : Nat} {s : State} (hs : Evolves F σ s) :
    Evolves F σ (State.endScheds ring s) := by
  unfold State.endScheds
  split
  · exact hs
  · extract_lets +onlyGivenNames v1
    clear_value v1
    refine Evolves.foldl ?_ ?_
    · exact hs
    · intro x2 x3 h4
      split
      · exact h4.store
      · exact h4

end Sys2Proof.Machine
end

