-- ==== Sys2Proof/Laws/EvLoaders.lean ====
section
/-!
SUPPORT. What the operations of Machine/Loaders.lean keep (Laws/Evolves.lean), one lemma for each.
-/
namespace Sys2Proof.Machine

theorem Evolves.writePsetCtrl {F : Part → Bool} [Raises F] [MayPsetLoader F] {σ : State} {q : Requester} {v : Nat} {s
    : State} (hs : Evolves F σ s) :
    Evolves F σ (State.writePsetCtrl q v s) := by
  unfold State.writePsetCtrl
  split
  · exact hs.set_psetLoader
  · exact hs.discard

theorem Evolves.writePrkCtrl {F : Part → Bool} [Raises F] [MayPrkLoader F] {σ : State} {q : Requester} {v : Nat} {s :
    State} (hs : Evolves F σ s) :
    Evolves F σ (State.writePrkCtrl q v s) := by
  unfold State.writePrkCtrl
  split
  · exact hs.set_prkLoader
  · exact hs.discard

theorem execPsetLoad_ran {F : Part → Bool} [Raises F] [MayReadLatch F] [MayPsetLoader F] {σ : State} {q : Requester}
    {index : Nat} {s : State} (hs : Evolves F σ s) :
    Ran F σ (execPsetLoad q index s) := by
  unfold execPsetLoad
  refine Ran.next ?_
  refine Evolves.gated ?_ ?_
  · exact hs.unlatch
  · intro x1 h2
    exact h2.writePsetCtrl

theorem execPsetUnload_ran {F : Part → Bool} [Raises F] [MayReadLatch F] [MayPsetLoader F] {σ : State} {q :
    Requester} {index : Nat} {s : State} (hs : Evolves F σ s) :
    Ran F σ (execPsetUnload q index s) := by
  unfold execPsetUnload
  refine Ran.next ?_
  refine Evolves.gated ?_ ?_
  · exact hs.unlatch
  · intro x1 h2
    exact h2.writePsetCtrl

theorem execPrkLoad_ran {F : Part → Bool} [Raises F] [MayReadLatch F] [MayPrkLoader F] {σ : State} {q : Requester}
    {index : Nat} {s : State} (hs : Evolves F σ s) :
    Ran F σ (execPrkLoad q index s) := by
  unfold execPrkLoad
  refine Ran.next ?_
  refine Evolves.gated ?_ ?_
  · exact hs.unlatch
  · intro x1 h2
    exact h2.writePrkCtrl

theorem execPrkUnload_ran {F : Part → Bool} [Raises F] [MayReadLatch F] [MayPrkLoader F] {σ : State} {q : Requester}
    {index : Nat} {s : State} (hs : Evolves F σ s) :
    Ran F σ (execPrkUnload q index s) := by
  unfold execPrkUnload
  refine Ran.next ?_
  refine Evolves.gated ?_ ?_
  · exact hs.unlatch
  · intro x1 h2
    exact h2.writePrkCtrl

theorem execPsetLoadComplete_ran {F : Part → Bool} [MayPsetLoader F] [MayPsets F] {σ : State} {s : State} (hs :
    Evolves F σ s) :
    Ran F σ (execPsetLoadComplete s) := by
  unfold execPsetLoadComplete
  split
  · refine Ran.next ?_
    exact hs
  · extract_lets +onlyGivenNames v1
    clear_value v1
    refine Ran.next ?_
    exact hs.set_psetLoader_psets

theorem execPrkLoadComplete_ran {F : Part → Bool} [MayPrkLoader F] [MayPrks F] {σ : State} {s : State} (hs : Evolves
    F σ s) :
    Ran F σ (execPrkLoadComplete s) := by
  unfold execPrkLoadComplete
  split
  · refine Ran.next ?_
    exact hs
  · extract_lets +onlyGivenNames v1
    clear_value v1
    refine Ran.next ?_
    exact hs.set_prkLoader_prks

end Sys2Proof.Machine
end

