-- ==== Sys2Proof/Laws/EvRetire.lean ====
section
/-!
SUPPORT. What the operations of Machine/Retire.lean keep (Laws/Evolves.lean), one lemma for each.
-/
namespace Sys2Proof.Machine

theorem Evolves.freeEngines {F : Part → Bool} [MayTWindow F] {σ : State} {c : Ctx} {cycle : Nat} {s : State} (hs :
    Evolves F σ s) :
    Evolves F σ (State.freeEngines c cycle s) := by
  unfold State.freeEngines
  refine Evolves.foldl ?_ ?_
  · exact hs
  · intro x1 x2 h3
    refine Evolves.ite ?_ ?_
    · exact h3
    · split
      · exact h3.setEngine
      · exact h3

theorem Evolves.delayEngines {F : Part → Bool} [MayTWindow F] {σ : State} {c : Ctx} {held : Nat} {s : State} (hs :
    Evolves F σ s) :
    Evolves F σ (State.delayEngines c held s) := by
  unfold State.delayEngines
  extract_lets +onlyGivenNames s0
  have h0 : Evolves F σ s0 := hs.mapTile (fun _ => TKept.only_tWindow rfl)
  clear_value s0
  refine Evolves.foldl ?_ ?_
  · exact h0
  · intro x1 x2 h3
    split
    · exact h3.setEngine
    · exact h3

theorem Evolves.closeChains {F : Part → Bool} [MayTWindow F] {σ : State} {t : Nat} {s : State} (hs : Evolves F σ s) :
    Evolves F σ (State.closeChains t s) := by
  unfold State.closeChains
  exact Evolves.mapTile hs (fun _ => TKept.only_tWindow rfl)

theorem Evolves.leaveStream {F : Part → Bool} [Stores F] [MayTStreams F] {σ : State} {c : Ctx} {s : State} (hs :
    Evolves F σ s) :
    Evolves F σ (State.leaveStream c s) := by
  unfold State.leaveStream
  extract_lets +onlyGivenNames v1
  clear_value v1
  refine Evolves.ite ?_ ?_
  · exact hs
  · extract_lets +onlyGivenNames s2
    have h2 : Evolves F σ s2 := by
      refine Evolves.ite ?_ ?_
      · exact hs.count
      · exact hs
    clear_value s2
    exact h2.mapStream

theorem Evolves.retireMop {F : Part → Bool} [Stores F] [Raises F] [MayTWindow F] [MayTStreams F] [MayTQueues F] {σ :
    State} {c : Ctx} {cycle : Nat} {s : State} (hs : Evolves F σ s) :
    Evolves F σ (State.retireMop c cycle s) := by
  unfold State.retireMop
  extract_lets +onlyGivenNames s1
  have h1 : Evolves F σ s1 := hs.tileAt.accountWait
  clear_value s1
  extract_lets +onlyGivenNames v2
  clear_value v2
  extract_lets +onlyGivenNames s3
  have h3 : Evolves F σ s3 := h1.clearGranules
  clear_value s3
  extract_lets +onlyGivenNames s4
  have h4 : Evolves F σ s4 := by
    refine Evolves.foldl ?_ ?_
    · exact h3
    · intro x5 x6 h7
      exact h7.noteWrite
  clear_value s4
  extract_lets +onlyGivenNames s8
  have h8 : Evolves F σ s8 := h4.raiseMop.leaveStream
  clear_value s8
  extract_lets +onlyGivenNames s9
  have h9 : Evolves F σ s9 := by
    refine Evolves.ite ?_ ?_
    · exact h8.unitDone
    · exact h8
  clear_value s9
  extract_lets +onlyGivenNames s10
  have h10 : Evolves F σ s10 := by
    refine Evolves.repace ?_
    exact Evolves.mapTile h9 (fun _ => TKept.only_tWindow rfl)
  clear_value s10
  extract_lets +onlyGivenNames s11
  have h11 : Evolves F σ s11 := h10.freeEngines.closeChains
  clear_value s11
  refine Evolves.ite ?_ ?_
  · exact h11.closeQueues
  · exact h11

theorem Evolves.requestPoison {F : Part → Bool} [MayPoisonRequests F] {σ : State} {t : Nat} {lines : List Nat} {s :
    State} (hs : Evolves F σ s) :
    Evolves F σ (State.requestPoison t lines s) := by
  unfold State.requestPoison
  extract_lets +onlyGivenNames v1
  clear_value v1
  exact hs.set_poisonRequests

theorem Evolves.markRange {F : Part → Bool} [MayTele F] [MayTMarks F] {σ : State} {r : Nat × Nat} {s : State} (hs :
    Evolves F σ s) :
    Evolves F σ (State.markRange r s) := by
  unfold State.markRange
  refine Evolves.foldl ?_ ?_
  · exact hs
  · intro x1 x2 h3
    refine Evolves.foldl ?_ ?_
    · exact h3
    · intro x4 x5 h6
      exact h6.markGranule

theorem Evolves.abortMop {F : Part → Bool} [Stores F] [MayJobs F] [MayGroups F] [MayPoisonRequests F] [MayTVregs F]
    [MayTWindow F] [MayTStreams F] [MayTQueues F] {σ : State} {c : Ctx} {s : State} (hs : Evolves F σ s) :
    Evolves F σ (State.abortMop c s) := by
  unfold State.abortMop
  extract_lets +onlyGivenNames s1
  have h1 : Evolves F σ s1 := hs.accountWait
  clear_value s1
  extract_lets +onlyGivenNames v2 v3
  clear_value v2 v3
  extract_lets +onlyGivenNames s4
  have h4 : Evolves F σ s4 := by
    refine Evolves.foldl ?_ ?_
    · exact h1
    · intro x5 x6 h7
      exact h7.markRange
  clear_value s4
  extract_lets +onlyGivenNames s8
  have h8 : Evolves F σ s8 := h4.requestPoison
  clear_value s8
  extract_lets +onlyGivenNames s9
  have h9 : Evolves F σ s9 := by
    refine Evolves.foldl ?_ ?_
    · exact h8
    · intro x10 x11 h12
      exact h12.noteWrite
  clear_value s9
  extract_lets +onlyGivenNames s13
  have h13 : Evolves F σ s13 := h9.count
  clear_value s13
  extract_lets +onlyGivenNames s14
  have h14 : Evolves F σ s14 := by
    unfold s14
    split
    · exact h13.giveBack
    · exact h13
  clear_value s14
  extract_lets +onlyGivenNames s15
  have h15 : Evolves F σ s15 := by
    unfold s15
    split
    · exact h14.closeRun
    · assumption
  clear_value s15
  extract_lets +onlyGivenNames s16
  have h16 : Evolves F σ s16 := h15.leaveStream
  clear_value s16
  extract_lets +onlyGivenNames s17
  have h17 : Evolves F σ s17 := by
    refine Evolves.repace (Evolves.mapTile ?_ ?_)
    · exact h16
    · intro x18
      exact ⟨fun e => not_may MayTVregs.mayTVregs e, fun _ => rfl, fun _ => rfl, fun _ => rfl, fun e => not_may MayTWindow.mayTWindow e, fun _ => rfl, fun _ => rfl, fun _ => rfl, fun _ => rfl, fun _ => rfl⟩
  clear_value s17
  refine Evolves.closeChains ?_
  refine Evolves.foldl ?_ ?_
  · exact h17
  · intro x19 x20 h21
    exact h21.setEngine

theorem Evolves.abortAll {F : Part → Bool} [Stores F] [MayJobs F] [MayGroups F] [MayPoisonRequests F] [MayTVregs F]
    [MayTWindow F] [MayTStreams F] [MayTQueues F] {σ : State} {cs : List Ctx} {s : State} (hs : Evolves F σ s) :
    Evolves F σ (State.abortAll cs s) := by
  unfold State.abortAll
  refine Evolves.foldl ?_ ?_
  · exact hs
  · intro x1 x2 h3
    exact h3.abortMop

theorem Evolves.abortTile {F : Part → Bool} [Stores F] [MayJobs F] [MayGroups F] [MayPoisonRequests F] [MayTVregs F]
    [MayTWindow F] [MayTStreams F] [MayTQueues F] {σ : State} {t : Nat} {s : State} (hs : Evolves F σ s) :
    Evolves F σ (State.abortTile t s) := by
  unfold State.abortTile
  extract_lets +onlyGivenNames s1
  have h1 : Evolves F σ s1 := hs.abortAll
  clear_value s1
  refine Evolves.repace ?_
  exact Evolves.mapTile h1 (fun _ => TKept.only_tWindow rfl)

theorem Evolves.settleTile {F : Part → Bool} [Stores F] [MayTWindow F] [MayTStreams F] [MayTQueues F] [MayTWindows F]
    {σ : State} {advance : Bool} {t : Nat} {s : State} (hs : Evolves F σ s) :
    Evolves F σ (State.settleTile advance t s) := by
  unfold State.settleTile
  extract_lets +onlyGivenNames s1
  have h1 : Evolves F σ s1 := hs.closeQueues
  clear_value s1
  extract_lets +onlyGivenNames s2
  have h2 : Evolves F σ s2 := by
    refine Evolves.ite ?_ ?_
    · exact h1.advanceEpochs
    · exact h1
  clear_value s2
  exact h2.closeWindows.idleStreams

theorem Evolves.finishJob {F : Part → Bool} [Stores F] [MayMsix F] [MayRings F] [MayJobs F] [MayTProgram F] {σ :
    State} {r : Nat} {e : Ending} {s : State} (hs : Evolves F σ s) :
    Evolves F σ (State.finishJob r e s) := by
  unfold State.finishJob
  split
  · extract_lets +onlyGivenNames s1
    have h1 : Evolves F σ s1 := Evolves.mapJob hs (fun _ => rfl)
    clear_value s1
    exact h1.complete
  · exact hs

theorem Evolves.stopJob {F : Part → Bool} [Stores F] [Raises F] [MayMsix F] [MayRings F] [MayGroups F]
    [MayPoisonRequests F] [MayTVregs F] [MayTProgram F] [MayTWindow F] [MayTStreams F] [MayTQueues F] [MayTWindows F]
    {σ : State} {r : Nat} {e : Ending} {s : State} (hs : Evolves F σ s) :
    Evolves F σ (State.stopJob r e s) := by
  unfold State.stopJob
  split
  · refine Evolves.ite ?_ ?_
    · exact hs
    · extract_lets +onlyGivenNames s1
      have h1 : Evolves F σ s1 := by
        refine Evolves.foldl ?_ ?_
        · exact hs
        · intro x2 x3 h4
          exact h4.abortTile
      clear_value s1
      extract_lets +onlyGivenNames s5
      have h5 : Evolves F σ s5 := by
        refine Evolves.foldl ?_ ?_
        · exact h1
        · intro x6 x7 h8
          exact h8.settleTile
      clear_value s5
      extract_lets +onlyGivenNames s9
      have h9 : Evolves F σ s9 := Evolves.raise (Evolves.mapJob h5 (fun _ => rfl))
      clear_value s9
      exact h9.set_groups.finishJob
  · exact hs

end Sys2Proof.Machine
end

