-- ==== Sys2Proof/Laws/EvRecovery.lean ====
section
/-!
SUPPORT. What the operations of Machine/Recovery.lean keep (Laws/Evolves.lean), one lemma for each.
-/
namespace Sys2Proof.Machine

theorem Evolves.startTile {F : Part → Bool} [MayTProgram F] [MayTWindow F] {σ : State} {t next : Nat} {s : State} (hs
    : Evolves F σ s) :
    Evolves F σ (State.startTile t next s) := by
  unfold State.startTile
  refine Evolves.repace (Evolves.mapTile ?_ ?_)
  · exact hs
  · intro x1
    exact ⟨fun _ => rfl, fun _ => rfl, fun _ => rfl, fun e => not_may MayTProgram.mayTProgram e, fun e => not_may
    MayTWindow.mayTWindow e, fun _ => rfl, fun _ => rfl, fun _ => rfl, fun _ => rfl, fun _ => rfl⟩

theorem Evolves.abortTiles {F : Part → Bool} [Stores F] [MayJobs F] [MayGroups F] [MayPoisonRequests F] [MayTVregs F]
    [MayTWindow F] [MayTStreams F] [MayTQueues F] {σ : State} {ts : List Nat} {s : State} (hs : Evolves F σ s) :
    Evolves F σ (State.abortTiles ts s) := by
  unfold State.abortTiles
  extract_lets +onlyGivenNames v1
  clear_value v1
  refine Evolves.foldl ?_ ?_
  · exact hs.abortAll
  · intro x2 x3 h4
    exact h4.abortTile

theorem Evolves.stopTiles {F : Part → Bool} [Stores F] [MayJobs F] [MayGroups F] [MayPoisonRequests F] [MayTVregs F]
    [MayTWindow F] [MayTStreams F] [MayTQueues F] [MayTWindows F] {σ : State} {ring : Nat} {s : State} (hs : Evolves
    F σ s) :
    Evolves F σ (State.stopTiles ring s) := by
  unfold State.stopTiles
  split
  · exact hs
  · extract_lets +onlyGivenNames s1
    have h1 : Evolves F σ s1 := hs.abortTiles
    clear_value s1
    extract_lets +onlyGivenNames s2
    have h2 : Evolves F σ s2 := by
      refine Evolves.foldl ?_ ?_
      · exact h1
      · intro x3 x4 h5
        exact h5.closeWindows.idleStreams
    clear_value s2
    extract_lets +onlyGivenNames s6
    have h6 : Evolves F σ s6 := Evolves.mapJob h2 (fun _ => rfl)
    clear_value s6
    exact h6.set_groups

theorem Evolves.startRecovery {F : Part → Bool} [Stores F] [Raises F] [MayGroups F] [MayPoisonRequests F]
    [MayTVregs F] [MayTWindow F] [MayTStreams F] [MayTQueues F] [MayTWindows F] {σ : State} {ring : Nat} {takeover : Option Nat}
    {arg : Nat} {named : List Nat} {s : State} (hs : Evolves F σ s) :
    Evolves F σ (State.startRecovery ring takeover arg named s) := by
  unfold State.startRecovery
  split
  · exact hs
  · extract_lets +onlyGivenNames s1
    have h1 : Evolves F σ s1 := hs.stopTiles
    clear_value s1
    extract_lets +onlyGivenNames v2 v3 v4 v5
    clear_value v2 v3 v4 v5
    extract_lets +onlyGivenNames s5
    have h5 : Evolves F σ s5 := Evolves.mapJob h1 (fun _ => rfl)
    clear_value s5
    refine Evolves.ite ?_ ?_
    · exact h5.raise
    · exact h5

theorem Evolves.putBack {F : Part → Bool} [Stores F] {σ : State} {a : Nat} {bs : List Byte} {s : State} (hs : Evolves
    F σ s) :
    Evolves F σ (State.putBack a bs s) := by
  unfold State.putBack
  extract_lets +onlyGivenNames s1
  have h1 : Evolves F σ s1 := hs.set_linePoison.store
  clear_value s1
  split
  · exact h1.clearGranules
  · exact h1

theorem Evolves.restoreShard {F : Part → Bool} [Stores F] [Raises F] [MayPower F] {σ : State} {j : Job} {g :
    GuardShard} {s : State} (hs : Evolves F σ s) :
    Evolves F σ (State.restoreShard j g s) := by
  unfold State.restoreShard
  split
  · exact Evolves.ite hs.raise hs
  · extract_lets +onlyGivenNames s1
    have h1 : Evolves F σ s1 := hs.askService
    clear_value s1
    split
    · extract_lets +onlyGivenNames s2
      have h2 : Evolves F σ s2 := by
        unfold s2
        split
        · exact h1.spoilSource
        · assumption
      clear_value s2
      exact h2.raise
    · exact h1.putBack.count.askService

theorem Evolves.restoreTile {F : Part → Bool} [Stores F] [MayTProgram F] [MayTWindow F] [MayTStreams F] [MayTQueues F]
    {σ : State} {x : SavedTile} {s : State} (hs : Evolves F σ s) :
    Evolves F σ (State.restoreTile x s) := by
  unfold State.restoreTile
  extract_lets +onlyGivenNames v1
  clear_value v1
  extract_lets +onlyGivenNames s2
  have h2 : Evolves F σ s2 := hs.countSet
  clear_value s2
  extract_lets +onlyGivenNames s3
  have h3 : Evolves F σ s3 := Evolves.startTile (Evolves.mapTile h2 (fun _ => TKept.only_tWindow rfl))
  clear_value s3
  refine Evolves.foldl ?_ ?_
  · exact h3
  · intro x4 x5 h6
    exact h6.mapQueue.mapStream

theorem Evolves.restoreShared {F : Part → Bool} [MayJobs F] [MayCvus F] {σ : State} {ring : Nat} {v : Saved} {s :
    State} (hs : Evolves F σ s) :
    Evolves F σ (State.restoreShared ring v s) := by
  unfold State.restoreShared
  extract_lets +onlyGivenNames s1
  have h1 : Evolves F σ s1 := Evolves.mapJob hs (fun _ => rfl)
  clear_value s1
  refine Evolves.foldl ?_ ?_
  · exact h1
  · intro x2 x3 h4
    exact h4.mapCvu

theorem Evolves.copyShard {F : Part → Bool} [Stores F] [MayPower F] {σ : State} {j : Job} {g : GuardShard} {s :
    State} (hs : Evolves F σ s) :
    Evolves F σ (State.copyShard j g s) := by
  unfold State.copyShard
  extract_lets +onlyGivenNames v1
  clear_value v1
  extract_lets +onlyGivenNames s2
  have h2 : Evolves F σ s2 := hs.askService
  clear_value s2
  refine Evolves.ite ?_ ?_
  · exact h2.store.count
  · extract_lets +onlyGivenNames v3
    clear_value v3
    exact h2.store.count

theorem Evolves.beginCommit {F : Part → Bool} [Stores F] [Raises F] [MayGroups F] [MayPoisonRequests F] [MayPower F]
    [MayTVregs F] [MayTWindow F] [MayTStreams F] [MayTQueues F] [MayTWindows F] {σ : State} {ring : Nat} {s : State}
    (hs : Evolves F σ s) :
    Evolves F σ (State.beginCommit ring s) := by
  unfold State.beginCommit
  split
  · exact hs
  · refine Evolves.ite ?_ ?_
    · exact hs
    · extract_lets +onlyGivenNames v1
      clear_value v1
      split
      · refine Evolves.startRecovery ?_
        split
        · exact hs.spoilSource
        · exact hs
      · extract_lets +onlyGivenNames s2
        have h2 : Evolves F σ s2 := by
          refine Evolves.foldl ?_ ?_
          · exact hs
          · intro x3 x4 h5
            exact h5.copyShard
        clear_value s2
        exact Evolves.mapJob h2 (fun _ => rfl)

theorem Evolves.compareShards {F : Part → Bool} [MayTele F] [MayLinePoison F] [MayPower F] [MayTMarks F] {σ : State}
    {j : Job} {s : State} (hs : Evolves F σ s) :
    Evolves F σ (State.compareShards j s) := by
  unfold State.compareShards
  refine Evolves.foldl ?_ ?_
  · exact hs
  · intro x1 x2 h3
    split
    · exact h3
    · extract_lets +onlyGivenNames s4
      have h4 : Evolves F σ s4 := h3.askService
      clear_value s4
      split
      · exact h4.spoilSource
      · exact h4

theorem Evolves.releaseBars {F : Part → Bool} [MayJobs F] [MayTWindow F] {σ : State} {ring barrier : Nat} {s : State}
    (hs : Evolves F σ s) :
    Evolves F σ (State.releaseBars ring barrier s) := by
  unfold State.releaseBars
  split
  · exact hs
  · extract_lets +onlyGivenNames v1
    clear_value v1
    extract_lets +onlyGivenNames s2
    have h2 : Evolves F σ s2 := by
      refine Evolves.foldl ?_ ?_
      · exact hs
      · intro x3 x4 h5
        exact Evolves.mapTile h5 (fun _ => TKept.only_tWindow rfl)
    clear_value s2
    exact Evolves.mapJob h2 (fun _ => rfl)

theorem Evolves.statePairs {F : Part → Bool} [Raises F] {σ : State} {j : Job} {reads : PairReads} {s : State}
    (hs : Evolves F σ s) : Evolves F σ (State.statePairs j reads s).1 := by
  unfold State.statePairs
  extract_lets +onlyGivenNames s1
  have h1 : Evolves F σ s1 := by
    unfold s1
    split
    · exact hs.raise
    · exact hs
  clear_value s1
  extract_lets +onlyGivenNames v2
  clear_value v2
  split
  · exact h1.fst
  · exact Evolves.fst (Evolves.count h1)

theorem execCommitFinish_ran {F : Part → Bool} [Stores F] [Raises F] [MayGroups F] [MayPoisonRequests F] [MayPower F]
    [MayTVregs F] [MayTWindow F] [MayTStreams F] [MayTQueues F] [MayTWindows F] {σ : State} {reads : PairReads} {s :
    State} (hs : Evolves F σ s) :
    Ran F σ (execCommitFinish reads s) := by
  unfold execCommitFinish
  extract_lets +onlyGivenNames v1
  clear_value v1
  split
  · refine Ran.next ?_
    exact hs
  · split
    · refine Ran.next ?_
      exact hs
    · extract_lets +onlyGivenNames v2
      clear_value v2
      extract_lets +onlyGivenNames v3
      clear_value v3
      extract_lets +onlyGivenNames s4
      have h4 : Evolves F σ s4 := by
        refine Evolves.ite ?_ ?_
        · exact hs.compareShards
        · exact hs
      clear_value s4
      extract_lets +onlyGivenNames p5
      have h5 : Evolves F σ p5.1 := h4.statePairs
      clear_value p5
      split
      · refine Ran.next ?_
        exact h5.count.startRecovery
      · split
        · refine Ran.next ?_
          exact h5.startRecovery
        · extract_lets +onlyGivenNames s6
          have h6 : Evolves F σ s6 := Evolves.mapJob h5 (fun _ => rfl)
          clear_value s6
          extract_lets +onlyGivenNames s7
          have h7 : Evolves F σ s7 := h6.count.count
          clear_value s7
          extract_lets +onlyGivenNames s8
          have h8 : Evolves F σ s8 := h7.raise
          clear_value s8
          split
          · refine Ran.next ?_
            exact h8.releaseBars
          · refine Ran.next ?_
            exact h8

theorem execRestoreDone_ran {F : Part → Bool} [Stores F] [Raises F] [MayGroups F] [MayPoisonRequests F] [MayPower F]
    [MayCvus F] [MayTVregs F] [MayTProgram F] [MayTWindow F] [MayTStreams F] [MayTQueues F] [MayTWindows F] {σ :
    State} {reads : PairReads} {s : State} (hs : Evolves F σ s) :
    Ran F σ (execRestoreDone reads s) := by
  unfold execRestoreDone
  extract_lets +onlyGivenNames v1
  clear_value v1
  split
  · exact Ran.next hs
  split
  · exact Ran.next hs
  split
  · exact Ran.next hs
  extract_lets +onlyGivenNames s2
  have h2 : Evolves F σ s2 := hs.foldl fun _ _ hu => hu.restoreShard
  clear_value s2
  extract_lets +onlyGivenNames p3
  have h3 : Evolves F σ p3.1 := h2.statePairs
  clear_value p3
  extract_lets +onlyGivenNames s4
  have h4 : Evolves F σ s4 := by
    refine Evolves.ite ?_ ?_
    · exact h3.raise
    · exact h3
  clear_value s4
  split
  · exact Ran.next h4
  extract_lets +onlyGivenNames v5
  clear_value v5
  extract_lets +onlyGivenNames s6
  have h6 : Evolves F σ s6 := h4.raise
  clear_value s6
  extract_lets +onlyGivenNames s7
  have h7 : Evolves F σ s7 := h6.count.count
  clear_value s7
  extract_lets +onlyGivenNames s8
  have h8 : Evolves F σ s8 := Evolves.mapJob h7 (fun _ => rfl)
  clear_value s8
  split
  · exact Ran.next (h8.restoreShared.foldl fun _ _ hu => hu.restoreTile)
  · extract_lets +onlyGivenNames s9
    have h9 : Evolves F σ s9 := h8.foldl fun _ _ hu => hu.writeControlPage
    clear_value s9
    extract_lets +onlyGivenNames s10
    have h10 : Evolves F σ s10 := by
      refine Evolves.ite ?_ ?_
      · exact h9
      · exact h9.putScheds
    clear_value s10
    exact Ran.next (Evolves.beginCommit (h10.foldl fun _ _ hu => hu.startTile))

theorem Evolves.takeover {F : Part → Bool} [Raises F] [MaySpares F] [MayMem F] [MayTVregs F] [MayTMarks F]
    [MayTPlace F] {σ : State} {t : Nat} {s : State} (hs : Evolves F σ s) :
    Evolves F σ (State.takeover t s) := by
  unfold State.takeover
  extract_lets +onlyGivenNames v1
  clear_value v1
  split
  · exact Evolves.raise (Evolves.mapTile hs fun _ => TKept.only_tPlace rfl)
  · extract_lets +onlyGivenNames s2
    have h2 : Evolves F σ s2 :=
      hs.set_spares_mem fun e => Memory.wf_clear (scratchAddr t 0) (scratchAddr t 0x600000) e
    clear_value s2
    exact Evolves.count (Evolves.mapTile h2 fun _ => ⟨fun e => not_may MayTVregs.mayTVregs e, fun e => not_may
    MayTMarks.mayTMarks e,
      fun e => not_may MayTPlace.mayTPlace e, fun _ => rfl, fun _ => rfl, fun _ => rfl, fun _ => rfl, fun _ => rfl,
      fun _ => rfl, fun _ => rfl⟩)

theorem Evolves.guardedFailure {F : Part → Bool} [Stores F] [Raises F] [MayGroups F] [MayPoisonRequests F]
    [MayTVregs F] [MayTWindow F] [MayTStreams F] [MayTQueues F] [MayTWindows F] {σ : State} {j : Job} {t : Nat} {s : State} (hs
    : Evolves F σ s) :
    Evolves F σ (State.guardedFailure j t s) := by
  unfold State.guardedFailure
  split
  · exact hs.raise
  · extract_lets +onlyGivenNames s1
    have h1 : Evolves F σ s1 := Evolves.mapJob hs (fun _ => rfl)
    clear_value s1
    exact h1.startRecovery

theorem Evolves.plainFailure {F : Part → Bool} [Stores F] [Raises F] [MayGroups F] [MayPoisonRequests F] [MayTVregs F]
    [MayTWindow F] [MayTStreams F] [MayTQueues F] [MayTWindows F] {σ : State} {j : Job} {t : Nat} {s : State} (hs
    : Evolves F σ s) :
    Evolves F σ (State.plainFailure j t s) := by
  unfold State.plainFailure
  extract_lets +onlyGivenNames s1
  have h1 : Evolves F σ s1 := hs.abortTiles
  clear_value s1
  extract_lets +onlyGivenNames s2
  have h2 : Evolves F σ s2 := h1.advanceEpochs.closeQueues.closeWindows.idleStreams
  clear_value s2
  exact h2.raise

theorem Evolves.tileFails {F : Part → Bool} [Stores F] [Raises F] [MayGroups F] [MaySpares F] [MayPoisonRequests F]
    [MayTVregs F] [MayTPlace F] [MayTWindow F] [MayTStreams F] [MayTQueues F] [MayTWindows F] {σ : State} {t : Nat}
    {s : State} (hs : Evolves F σ s) :
    Evolves F σ (State.tileFails t s) := by
  unfold State.tileFails
  refine Evolves.ite ?_ ?_
  · exact hs
  · split
    · extract_lets +onlyGivenNames s1
      have h1 : Evolves F σ s1 := Evolves.mapTile hs (fun _ => TKept.only_tPlace rfl)
      clear_value s1
      refine Evolves.ite ?_ ?_
      · exact h1.plainFailure
      · exact h1.guardedFailure
    · exact hs.takeover.raise

theorem execTileFailure_ran {F : Part → Bool} [Stores F] [Raises F] [MayGroups F] [MaySpares F] [MayPoisonRequests F]
    [MayTVregs F] [MayTPlace F] [MayTWindow F] [MayTStreams F] [MayTQueues F] [MayTWindows F] {σ : State} {t : Nat}
    {y1 : FailCause} {s : State} (hs : Evolves F σ s) :
    Ran F σ (execTileFailure t y1 s) := by
  unfold execTileFailure
  refine Ran.next ?_
  exact hs.tileFails

theorem execTilePollTimeout_ran {F : Part → Bool} [Stores F] [Raises F] [MayGroups F] [MaySpares F]
    [MayPoisonRequests F] [MayTVregs F] [MayTPlace F] [MayTWindow F] [MayTStreams F] [MayTQueues F] [MayTWindows F]
    {σ : State} {t : Nat} {s : State} (hs : Evolves F σ s) :
    Ran F σ (execTilePollTimeout t s) := by
  unfold execTilePollTimeout
  refine Ran.next ?_
  exact hs.tileFails

theorem execSpareTakeover_ran {F : Part → Bool} [Raises F] [MaySpares F] [MayMem F] [MayTVregs F] [MayTMarks F]
    [MayTPlace F] {σ : State} {t : Nat} {s : State} (hs : Evolves F σ s) :
    Ran F σ (execSpareTakeover t s) := by
  unfold execSpareTakeover
  split
  · refine Ran.next ?_
    exact hs
  · split
    · split
      · extract_lets +onlyGivenNames s1
        have h1 : Evolves F σ s1 := hs.takeover
        clear_value s1
        refine Ran.next ?_
        exact Evolves.mapJob h1 (fun _ => rfl)
      · refine Ran.next ?_
        exact hs
    · refine Ran.next ?_
      exact hs.takeover

end Sys2Proof.Machine
end

