-- ==== Sys2Proof/Laws/EvRings.lean ====
section
/-!
SUPPORT. What the operations of Machine/Rings.lean keep (Laws/Evolves.lean), one lemma for each.
-/
namespace Sys2Proof.Machine

theorem Evolves.cancel {F : Part → Bool} [Stores F] [Raises F] [MayMsix F] [MayRings F] [MayGroups F]
    [MayPoisonRequests F] [MayTVregs F] [MayTProgram F] [MayTWindow F] [MayTStreams F] [MayTQueues F] [MayTWindows F]
    {σ : State} {ring tag : Nat} {s : State} (hs : Evolves F σ s) :
    Evolves F σ (State.cancel ring tag s).1 := by
  unfold State.cancel
  split
  · refine Evolves.fst ?_
    exact hs.stopJob.count
  · split
    · split
      · extract_lets +onlyGivenNames s1
        have h1 : Evolves F σ s1 := hs.mapRing
        clear_value s1
        refine Evolves.fst ?_
        exact h1.complete.count
      · exact hs.fst
    · exact hs.fst

theorem Evolves.cancelEntry {F : Part → Bool} [Stores F] [Raises F] [MayMsix F] [MayRings F] [MayGroups F]
    [MayPoisonRequests F] [MayTVregs F] [MayTProgram F] [MayTWindow F] [MayTStreams F] [MayTQueues F] [MayTWindows F]
    {σ : State} {k : Nat} {b : List Byte} {s : State} (hs : Evolves F σ s) :
    Evolves F σ (State.cancelEntry k b s) := by
  unfold State.cancelEntry
  extract_lets +onlyGivenNames p1
  have h1 : Evolves F σ p1.1 := by
    unfold p1
    split
    · exact hs.cancel
    · exact hs.fst
  clear_value p1
  exact h1.complete

theorem Evolves.cancelGo {F : Part → Bool} [Stores F] [Raises F] [MayMsix F] [MayCancelRing F] [MayCancelResult F]
    [MayRings F] [MayGroups F] [MayPoisonRequests F] [MayTVregs F] [MayTProgram F] [MayTWindow F] [MayTStreams F]
    [MayTQueues F] [MayTWindows F] {σ : State} {ring : Nat} {s : State} (hs : Evolves F σ s) :
    Evolves F σ (State.cancelGo ring s) := by
  unfold State.cancelGo
  extract_lets +onlyGivenNames p1
  have h1 : Evolves F σ p1.1 := hs.set_cancelRing.cancel
  clear_value p1
  extract_lets +onlyGivenNames s2
  have h2 : Evolves F σ s2 := h1
  clear_value s2
  exact h2.set_cancelResult

theorem execJobCancelGo_ran {F : Part → Bool} [Stores F] [Raises F] [MayMsix F] [MayReadLatch F] [MayCancelRing F]
    [MayCancelResult F] [MayRings F] [MayGroups F] [MayPoisonRequests F] [MayTVregs F] [MayTProgram F] [MayTWindow F]
    [MayTStreams F] [MayTQueues F] [MayTWindows F] {σ : State} {q : Requester} {ring : Nat} {s : State} (hs : Evolves
    F σ s) :
    Ran F σ (execJobCancelGo q ring s) := by
  unfold execJobCancelGo
  refine Ran.next ?_
  refine Evolves.gated ?_ ?_
  · exact hs.unlatch
  · intro x1 h2
    exact h2.cancelGo

theorem Evolves.writeSqDb {F : Part → Bool} [Raises F] [MayRings F] {σ : State} {q : Requester} {r v : Nat} {s :
    State} (hs : Evolves F σ s) :
    Evolves F σ (State.writeSqDb q r v s) := by
  unfold State.writeSqDb
  extract_lets +onlyGivenNames v1
  clear_value v1
  refine Evolves.ite ?_ ?_
  · exact hs.mapRing
  · exact hs.discard

theorem Evolves.writeCqDb {F : Part → Bool} [Raises F] [MayRings F] {σ : State} {q : Requester} {r v : Nat} {s :
    State} (hs : Evolves F σ s) :
    Evolves F σ (State.writeCqDb q r v s) := by
  unfold State.writeCqDb
  extract_lets +onlyGivenNames v1
  clear_value v1
  refine Evolves.ite ?_ ?_
  · exact hs.mapRing
  · exact hs.discard

theorem Evolves.writeEvqDb {F : Part → Bool} [Raises F] [MayEvq F] {σ : State} {q : Requester} {v : Nat} {s : State}
    (hs : Evolves F σ s) :
    Evolves F σ (State.writeEvqDb q v s) := by
  unfold State.writeEvqDb
  extract_lets +onlyGivenNames v1
  clear_value v1
  refine Evolves.ite ?_ ?_
  · exact hs.set_evq
  · exact hs.discard

theorem execSqDoorbell_ran {F : Part → Bool} [Raises F] [MayReadLatch F] [MayRings F] {σ : State} {q : Requester}
    {ring : Nat} {tail : Word} {s : State} (hs : Evolves F σ s) :
    Ran F σ (execSqDoorbell q ring tail s) := by
  unfold execSqDoorbell
  refine Ran.next ?_
  refine Evolves.gated ?_ ?_
  · exact hs.unlatch
  · intro x1 h2
    exact h2.writeSqDb

theorem execCqDoorbell_ran {F : Part → Bool} [Raises F] [MayReadLatch F] [MayRings F] {σ : State} {q : Requester}
    {ring : Nat} {head : Word} {s : State} (hs : Evolves F σ s) :
    Ran F σ (execCqDoorbell q ring head s) := by
  unfold execCqDoorbell
  refine Ran.next ?_
  refine Evolves.gated ?_ ?_
  · exact hs.unlatch
  · intro x1 h2
    exact h2.writeCqDb

theorem execEvqDoorbell_ran {F : Part → Bool} [Raises F] [MayReadLatch F] [MayEvq F] {σ : State} {q : Requester}
    {head : Word} {s : State} (hs : Evolves F σ s) :
    Ran F σ (execEvqDoorbell q head s) := by
  unfold execEvqDoorbell
  refine Ran.next ?_
  refine Evolves.gated ?_ ?_
  · exact hs.unlatch
  · intro x1 h2
    exact h2.writeEvqDb

theorem Evolves.fetchOne {F : Part → Bool} [Stores F] [Raises F] [MayMsix F] [MayRings F] [MayGroups F]
    [MayPoisonRequests F] [MayTVregs F] [MayTProgram F] [MayTWindow F] [MayTStreams F] [MayTQueues F] [MayTWindows F]
    {σ : State} {k : Nat} {s : State} (hs : Evolves F σ s) :
    Evolves F σ (State.fetchOne k s) := by
  unfold State.fetchOne
  extract_lets +onlyGivenNames v1 v2
  clear_value v1 v2
  extract_lets +onlyGivenNames s3
  have h3 : Evolves F σ s3 := hs.mapRing.count
  clear_value s3
  refine Evolves.ite ?_ ?_
  · exact h3.cancelEntry
  · exact h3.mapRing

theorem Evolves.fetchAll {F : Part → Bool} [Stores F] [Raises F] [MayMsix F] [MayRings F] [MayGroups F]
    [MayPoisonRequests F] [MayTVregs F] [MayTProgram F] [MayTWindow F] [MayTStreams F] [MayTQueues F] [MayTWindows F]
    {σ : State} {k n : Nat} {s : State} (hs : Evolves F σ s) :
    Evolves F σ (State.fetchAll k n s) := by
  induction n generalizing s with
  | zero => exact hs
  | succ n ih =>
    unfold State.fetchAll
    exact Evolves.ite hs (ih hs.fetchOne)

theorem execRingFetch_ran {F : Part → Bool} [Stores F] [Raises F] [MayMsix F] [MayRings F] [MayGroups F]
    [MayPoisonRequests F] [MayTVregs F] [MayTProgram F] [MayTWindow F] [MayTStreams F] [MayTQueues F] [MayTWindows F]
    {σ : State} {ring : Nat} {s : State} (hs : Evolves F σ s) :
    Ran F σ (execRingFetch ring s) := by
  unfold execRingFetch
  split
  · refine Ran.next ?_
    exact hs.fetchAll
  · refine Ran.next ?_
    exact hs

theorem execRingError_ran {F : Part → Bool} [Stores F] [MayMsix F] [MayRings F] [MayEvq F] {σ : State} {ring : Nat}
    {completion : Bool} {addr : DWord} {s : State} (hs : Evolves F σ s) :
    Ran F σ (execRingError ring completion addr s) := by
  unfold execRingError
  split
  · refine Ran.next ?_
    exact hs
  · refine Ran.next ?_
    exact hs.mapRing.postEvent

theorem Evolves.flushAll {F : Part → Bool} [Stores F] [MayMsix F] [MayRings F] [MayJobs F] [MayTProgram F] {σ :
    State} {k n : Nat} {s : State} (hs : Evolves F σ s) :
    Evolves F σ (State.flushAll k n s) := by
  induction n generalizing s with
  | zero => exact hs
  | succ n ih =>
    unfold State.flushAll
    exact ih hs.flushOne

theorem execCompletionRecordWrite_ran {F : Part → Bool} [Stores F] [MayMsix F] [MayRings F] [MayJobs F]
    [MayTProgram F] {σ : State} {ring : Nat} {s : State} (hs : Evolves F σ s) :
    Ran F σ (execCompletionRecordWrite ring s) := by
  unfold execCompletionRecordWrite
  refine Ran.next ?_
  exact hs.flushOne

theorem execCqCoalesceTimeout_ran {F : Part → Bool} [MayClock F] [MayMsix F] [MayRings F] {σ : State} {ring : Nat} {s
    : State} (hs : Evolves F σ s) :
    Ran F σ (execCqCoalesceTimeout ring s) := by
  unfold execCqCoalesceTimeout
  extract_lets +onlyGivenNames v1
  clear_value v1
  split
  · split
    · refine Ran.next ?_
      exact hs
    · refine Ran.next ?_
      exact hs.until.interrupt.mapRing
  · refine Ran.next ?_
    exact hs

theorem Evolves.writeRingCtrl {F : Part → Bool} [Stores F] [Raises F] [MayMsix F] [MayRings F] [MayTProgram F] {σ :
    State} {q : Requester} {v : Nat} {s : State} (hs : Evolves F σ s) :
    Evolves F σ (State.writeRingCtrl q v s) := by
  unfold State.writeRingCtrl
  extract_lets +onlyGivenNames v1 v2
  clear_value v1 v2
  extract_lets +onlyGivenNames s3
  have h3 : Evolves F σ s3 := hs.discard
  clear_value s3
  refine Evolves.ite ?_ ?_
  · refine Evolves.ite ?_ ?_
    · exact h3
    · exact hs.mapRing
  · refine Evolves.ite ?_ ?_
    · extract_lets +onlyGivenNames s4
      have h4 : Evolves F σ s4 := hs.mapRing
      clear_value s4
      exact h4.flushAll
    · refine Evolves.ite ?_ ?_
      · exact h3
      · exact hs.mapRing

theorem execRingEnable_ran {F : Part → Bool} [Stores F] [Raises F] [MayMsix F] [MayReadLatch F] [MayRings F]
    [MayTProgram F] {σ : State} {q : Requester} {s : State} (hs : Evolves F σ s) :
    Ran F σ (execRingEnable q s) := by
  unfold execRingEnable
  refine Ran.next ?_
  refine Evolves.gated ?_ ?_
  · exact hs.unlatch
  · intro x1 h2
    exact h2.writeRingCtrl

theorem execRingDisable_ran {F : Part → Bool} [Stores F] [Raises F] [MayMsix F] [MayReadLatch F] [MayRings F]
    [MayTProgram F] {σ : State} {q : Requester} {s : State} (hs : Evolves F σ s) :
    Ran F σ (execRingDisable q s) := by
  unfold execRingDisable
  refine Ran.next ?_
  refine Evolves.gated ?_ ?_
  · exact hs.unlatch
  · intro x1 h2
    exact h2.writeRingCtrl

theorem execRingReset_ran {F : Part → Bool} [Stores F] [Raises F] [MayMsix F] [MayReadLatch F] [MayRings F]
    [MayTProgram F] {σ : State} {q : Requester} {s : State} (hs : Evolves F σ s) :
    Ran F σ (execRingReset q s) := by
  unfold execRingReset
  refine Ran.next ?_
  refine Evolves.gated ?_ ?_
  · exact hs.unlatch
  · intro x1 h2
    exact h2.writeRingCtrl

theorem Evolves.halting {F : Part → Bool} [Stores F] [Raises F] [MayMsix F] [MayHalt F] [MayRings F] [MayGroups F]
    [MayPoisonRequests F] [MayTVregs F] [MayTProgram F] [MayTWindow F] [MayTStreams F] [MayTQueues F] [MayTWindows F]
    {σ : State} {s : State} (hs : Evolves F σ s) :
    Evolves F σ (State.halting s) := by
  unfold State.halting
  refine Evolves.ite ?_ ?_
  · exact hs
  · extract_lets +onlyGivenNames s1
    have h1 : Evolves F σ s1 := hs.set_halt_rings
    clear_value s1
    refine Evolves.foldl ?_ ?_
    · exact h1
    · intro x2 x3 h4
      exact h4.stopJob

theorem Evolves.writeHaltCtrl {F : Part → Bool} [Stores F] [Raises F] [MayMsix F] [MayHalt F] [MayRings F]
    [MayGroups F] [MayPoisonRequests F] [MayTVregs F] [MayTProgram F] [MayTWindow F] [MayTStreams F] [MayTQueues F]
    [MayTWindows F] {σ : State} {q : Requester} {v : Nat} {s : State} (hs : Evolves F σ s) :
    Evolves F σ (State.writeHaltCtrl q v s) := by
  unfold State.writeHaltCtrl
  refine Evolves.ite ?_ ?_
  · exact hs.halting
  · refine Evolves.ite ?_ ?_
    · refine Evolves.ite ?_ ?_
      · exact hs.set_halt
      · exact hs.discard
    · exact hs

theorem execHalt_ran {F : Part → Bool} [Stores F] [Raises F] [MayMsix F] [MayReadLatch F] [MayHalt F] [MayRings F]
    [MayGroups F] [MayPoisonRequests F] [MayTVregs F] [MayTProgram F] [MayTWindow F] [MayTStreams F] [MayTQueues F]
    [MayTWindows F] {σ : State} {q : Requester} {s : State} (hs : Evolves F σ s) :
    Ran F σ (execHalt q s) := by
  unfold execHalt
  refine Ran.next ?_
  refine Evolves.gated ?_ ?_
  · exact hs.unlatch
  · intro x1 h2
    exact h2.writeHaltCtrl

theorem execRelease_ran {F : Part → Bool} [Stores F] [Raises F] [MayMsix F] [MayReadLatch F] [MayHalt F] [MayRings F]
    [MayGroups F] [MayPoisonRequests F] [MayTVregs F] [MayTProgram F] [MayTWindow F] [MayTStreams F] [MayTQueues F]
    [MayTWindows F] {σ : State} {q : Requester} {s : State} (hs : Evolves F σ s) :
    Ran F σ (execRelease q s) := by
  unfold execRelease
  refine Ran.next ?_
  refine Evolves.gated ?_ ?_
  · exact hs.unlatch
  · intro x1 h2
    exact h2.writeHaltCtrl

theorem execHaltComplete_ran {F : Part → Bool} [MayHalt F] {σ : State} {s : State} (hs : Evolves F σ s) :
    Ran F σ (execHaltComplete s) := by
  unfold execHaltComplete
  split
  · refine Ran.next ?_
    exact hs.set_halt
  · refine Ran.next ?_
    exact hs

end Sys2Proof.Machine
end

