-- ==== Sys2Proof/Laws/EvJobs.lean ====
section
/-!
SUPPORT. What the operations of Machine/Jobs.lean keep (Laws/Evolves.lean), one lemma for each.
-/
namespace Sys2Proof.Machine

theorem Evolves.refuseJob {F : Part → Bool} [Stores F] [MayMsix F] [MayRings F] [MayJobs F] [MayTProgram F] {σ :
    State} {ring : Nat} {e : PendingEntry} {code : Nat × Nat} {s : State} (hs : Evolves F σ s) :
    Evolves F σ (State.refuseJob ring e code s) := by
  unfold State.refuseJob
  extract_lets +onlyGivenNames s1
  have h1 : Evolves F σ s1 := hs.mapRing.count
  clear_value s1
  exact h1.complete

theorem execJobAdmissionCheck_ran {F : Part → Bool} [Stores F] [MayMsix F] [MayRings F] [MayJobs F] [MayTProgram F]
    {σ : State} {reads : AdmissionReads} {s : State} (hs : Evolves F σ s) :
    Ran F σ (execJobAdmissionCheck reads s) := by
  unfold execJobAdmissionCheck
  extract_lets +onlyGivenNames v1
  clear_value v1
  split
  · split
    · refine Ran.next ?_
      exact hs
    · extract_lets +onlyGivenNames v2
      clear_value v2
      split
      · refine Ran.next ?_
        exact hs.mapRing
      · refine Ran.next ?_
        exact hs.refuseJob
  · refine Ran.next ?_
    exact hs

theorem Evolves.joinTile {F : Part → Bool} [Stores F] [MayTProgram F] [MayTWindow F] [MayTStreams F] [MayTQueues F]
    [MayTWindows F] {σ : State} {j : Job} {ws : List StreamWord} {e : TileEntry} {s : State} (hs : Evolves F σ s) :
    Evolves F σ (State.joinTile j ws e s) := by
  unfold State.joinTile
  extract_lets +onlyGivenNames v1
  clear_value v1
  extract_lets +onlyGivenNames s2
  have h2 : Evolves F σ s2 := by
    refine Evolves.mapTile ?_ ?_
    · exact hs
    · intro x3
      exact ⟨fun _ => rfl, fun _ => rfl, fun _ => rfl, fun e => not_may MayTProgram.mayTProgram e, fun e => not_may
    MayTWindow.mayTWindow e, fun _ => rfl, fun _ => rfl, fun _ => rfl, fun _ => rfl, fun _ => rfl⟩
  clear_value s2
  exact h2.writeControlPage.openQueues.closeWindows.admitStreams.startTile

theorem State.job_none {s : State} {r : Nat} (h : s.job r = none) : ∀ x ∈ s.jobs, x.ring ≠ r := by
  intro x hx e
  have := (List.find?_eq_none.1 h) x hx
  exact this (by simp [e])

/-- A job admitted on a ring that has none (R406). -/
theorem Evolves.admitJob {F : Part → Bool} [Stores F] [Raises F] [MayGroups F] [MayPoisonRequests F] [MayPower F]
    [MayTVregs F] [MayTProgram F] [MayTWindow F] [MayTStreams F] [MayTQueues F] [MayTWindows F] {σ : State} {j : Job}
    {s : State} (hs : Evolves F σ s) (hj : s.job j.ring = none) :
    Evolves F σ (State.admitJob j s) := by
  unfold State.admitJob
  extract_lets +onlyGivenNames j' s1
  have h1 : Evolves F σ s1 := hs.set_jobs fun e => ringsOnce_append e (State.job_none hj)
  clear_value j' s1
  extract_lets +onlyGivenNames v2 s2
  have h2 : Evolves F σ s2 := h1.count
  clear_value v2 s2
  extract_lets +onlyGivenNames s3
  have h3 : Evolves F σ s3 := h2.count
  clear_value s3
  extract_lets +onlyGivenNames s4
  have h4 : Evolves F σ s4 := h3.count
  clear_value s4
  extract_lets +onlyGivenNames v5 s5
  have h5 : Evolves F σ s5 := h4.foldl fun u x hu => hu.joinTile
  clear_value v5 s5
  exact h5.startScheds.beginCommit

theorem State.jobs_count (c : Ctr) (i n : Nat) (s : State) : (s.count c i n).jobs = s.jobs := by
  unfold State.count
  split <;> rfl

@[simp] theorem Job.distributed_ring (j : Job) (damaged lost : List Nat) : (j.distributed damaged lost).ring = j.ring := rfl

theorem Evolves.admitFront {F : Part → Bool} [Stores F] [Raises F] [MayMsix F] [MayRings F] [MayGroups F]
    [MayPoisonRequests F] [MayPower F] [MayTVregs F] [MayTProgram F] [MayTWindow F] [MayTStreams F] [MayTQueues F]
    [MayTWindows F] {σ : State} {ring : Nat} {s : State} (hs : Evolves F σ s)
    (hj : s.job ring = none) : Evolves F σ (State.admitFront ring s) := by
  unfold State.admitFront
  split
  · rename_i x _ _
    extract_lets +onlyGivenNames c
    clear_value c
    split
    · refine Evolves.ite hs.refuseJob ?_
      extract_lets +onlyGivenNames j s1
      have hr : (j.distributed x.damaged x.lost).ring = ring := Job.distributed_ring j x.damaged x.lost
      have h1 : Evolves F σ s1 := hs.mapRing
      have j1 : s1.job (j.distributed x.damaged x.lost).ring = none := hr ▸ hj
      clear_value s1
      extract_lets +onlyGivenNames s2
      have h2 : Evolves F σ s2 := Evolves.ite h1.count h1
      have j2 : s2.job (j.distributed x.damaged x.lost).ring = none := by
        unfold s2
        split
        · unfold State.job
          rw [State.jobs_count]
          exact j1
        · exact j1
      clear_value s2
      refine h2.count.admitJob ?_
      unfold State.job
      rw [State.jobs_count]
      exact j2
    · exact hs.refuseJob
  · exact hs

theorem execJobAdmit_ran {F : Part → Bool} [Stores F] [Raises F] [MayMsix F] [MayRings F] [MayRrNext F] [MayGroups F]
    [MayPoisonRequests F] [MayPower F] [MayTVregs F] [MayTProgram F] [MayTWindow F] [MayTStreams F] [MayTQueues F]
    [MayTWindows F] {σ s : State} (hs : Evolves F σ s) :
    Ran F σ (execJobAdmit s) := by
  unfold execJobAdmit
  split
  · exact Ran.next hs
  · split
    · rename_i r hr
      have ha : s.admissible r = true := List.find?_some hr
      have hj : s.job r = none := by
        unfold State.admissible at ha
        split at ha
        · simp only [Bool.and_eq_true, Option.isNone_iff_eq_none] at ha
          exact ha.1.1.1.2
        · cases ha
      exact Ran.next (Evolves.admitFront hs.set_rrNext hj)
    · exact Ran.next hs

theorem execJobAged_ran {F : Part → Bool} [MayClock F] [MayRings F] {σ : State} {ring : Nat} {s : State} (hs :
    Evolves F σ s) :
    Ran F σ (execJobAged ring s) := by
  unfold execJobAged
  split
  · split
    · refine Ran.next ?_
      exact hs
    · refine Ran.next ?_
      exact hs.until.mapRing
  · refine Ran.next ?_
    exact hs

theorem execJobComplete_ran {F : Part → Bool} [Stores F] [Raises F] [MayMsix F] [MayRings F] [MayGroups F]
    [MayTProgram F] [MayTWindow F] [MayTStreams F] [MayTQueues F] [MayTWindows F] {σ : State} {d : RingDrain}
    {s : State} (hs : Evolves F σ s) :
    Ran F σ (execJobComplete d s) := by
  unfold execJobComplete
  split
  · refine Ran.next ?_
    exact hs
  · split
    · refine Ran.next ?_
      exact hs
    · extract_lets +onlyGivenNames s1
      have h1 : Evolves F σ s1 := hs.endScheds.mergeReads.writeBackAll
      clear_value s1
      extract_lets +onlyGivenNames s2
      have h2 : Evolves F σ s2 := by
        refine Evolves.foldl ?_ ?_
        · exact h1
        · intro x3 x4 h5
          exact h5.settleTile
      clear_value s2
      extract_lets +onlyGivenNames s6
      have h6 : Evolves F σ s6 := Evolves.raise (Evolves.mapJob h2 (fun _ => rfl))
      clear_value s6
      refine Ran.next ?_
      exact h6.set_groups.finishJob

end Sys2Proof.Machine
end

