-- ==== Sys2Proof/Laws/EvLink.lean ====
section
/-!
SUPPORT. What the operations of Machine/Link.lean keep (Laws/Evolves.lean), one lemma for each.
-/
namespace Sys2Proof.Machine

theorem Evolves.trained {F : Part → Bool} [Stores F] [MayMsix F] [MayEvq F] [MayLink F] {σ : State} {a b : Bool}
    {repaired : Nat} {s : State} (hs : Evolves F σ s) :
    Evolves F σ (State.trained a b repaired s) := by
  unfold State.trained
  extract_lets +onlyGivenNames v1 v2 v3
  clear_value v1 v2 v3
  extract_lets +onlyGivenNames s4
  have h4 : Evolves F σ s4 := hs.set_link
  clear_value s4
  refine Evolves.ite ?_ ?_
  · exact h4
  · exact h4.postEvent

theorem Evolves.writeLinkCtrl {F : Part → Bool} [Raises F] [MayLink F] {σ : State} {q : Requester} {v : Nat} {s :
    State} (hs : Evolves F σ s) :
    Evolves F σ (State.writeLinkCtrl q v s) := by
  unfold State.writeLinkCtrl
  extract_lets +onlyGivenNames v1
  clear_value v1
  refine Evolves.ite ?_ ?_
  · exact hs.discard
  · exact hs.set_link

theorem execLinkRetrain_ran {F : Part → Bool} [Raises F] [MayReadLatch F] [MayLink F] {σ : State} {q : Requester}
    {rate : Nat} {s : State} (hs : Evolves F σ s) :
    Ran F σ (execLinkRetrain q rate s) := by
  unfold execLinkRetrain
  refine Ran.next ?_
  refine Evolves.gated ?_ ?_
  · exact hs.unlatch
  · intro x1 h2
    exact h2.writeLinkCtrl

theorem execLinkTrainingDone_ran {F : Part → Bool} [Stores F] [MayMsix F] [MayEvq F] [MayLink F] {σ : State} {a b :
    Bool} {repaired : Nat} {s : State} (hs : Evolves F σ s) :
    Ran F σ (execLinkTrainingDone a b repaired s) := by
  unfold execLinkTrainingDone
  split
  · refine Ran.next ?_
    exact hs.trained
  · refine Ran.next ?_
    exact hs

theorem execLinkRecalibration_ran {F : Part → Bool} [MayClock F] [MayTele F] [MayLink F] {σ : State} {s : State} (hs
    : Evolves F σ s) :
    Ran F σ (execLinkRecalibration s) := by
  unfold execLinkRecalibration
  split
  · refine Ran.next ?_
    exact hs
  · extract_lets +onlyGivenNames s1
    have h1 : Evolves F σ s1 := by
      unfold s1
      split
      · exact hs.until
      · exact hs
    clear_value s1
    refine Ran.next ?_
    exact h1.set_link.count

theorem execLinkRecalibrationDone_ran {F : Part → Bool} [MayLink F] {σ : State} {s : State} (hs : Evolves F σ s) :
    Ran F σ (execLinkRecalibrationDone s) := by
  unfold execLinkRecalibrationDone
  split
  · refine Ran.next ?_
    exact hs.set_link
  · refine Ran.next ?_
    exact hs

theorem Evolves.writeHdmMap {F : Part → Bool} [Raises F] [MayLink F] {σ : State} {q : Requester} {v : Nat} {s :
    State} (hs : Evolves F σ s) :
    Evolves F σ (State.writeHdmMap q v s) :=
  Evolves.ite hs.discard hs.set_link

theorem execHdmMapWrite_ran {F : Part → Bool} [Raises F] [MayReadLatch F] [MayLink F] {σ : State} {q : Requester}
    {value : DWord} {s : State} (hs : Evolves F σ s) :
    Ran F σ (execHdmMapWrite q value s) := by
  unfold execHdmMapWrite
  refine Ran.next ?_
  refine Evolves.gated ?_ ?_
  · exact hs.unlatch
  · intro x1 h2
    exact h2.writeHdmMap

theorem execCxlConfigRequest_ran {F : Part → Bool} [MayResp F] [MayLink F] {σ : State} {commit : Option Bool} {s :
    State} (hs : Evolves F σ s) :
    Ran F σ (execCxlConfigRequest commit s) := by
  unfold execCxlConfigRequest
  split
  · exact Ran.next hs
  split
  · refine Ran.next ?_
    exact hs.set_resp
  · extract_lets +onlyGivenNames v1
    clear_value v1
    extract_lets +onlyGivenNames v2
    clear_value v2
    refine Ran.next ?_
    exact hs.set_resp_link

end Sys2Proof.Machine
end

