-- ==== Sys2Proof/Laws/EvShuttle.lean ====
section
/-!
SUPPORT. What the operations of Machine/Shuttle.lean keep (Laws/Evolves.lean), one lemma for each.
-/
namespace Sys2Proof.Machine

theorem Evolves.setSend {F : Part → Bool} [MayTWindow F] {σ : State} {c : Ctx} {x : SendState} {s : State} (hs :
    Evolves F σ s) :
    Evolves F σ (State.setSend c x s) := by
  unfold State.setSend
  exact hs.mapMop

theorem Evolves.postSend {F : Part → Bool} [MayTele F] [MayTWindow F] {σ : State} {c : Ctx} {s : State} (hs : Evolves
    F σ s) :
    Evolves F σ (State.postSend c s) := by
  unfold State.postSend
  exact hs.setSend.count.drawTokens

theorem execSend_ran {F : Part → Bool} [MayTele F] [MayTWindow F] {σ : State} {t seq : Nat} {s : State} (hs : Evolves
    F σ s) :
    Ran F σ (execSend t seq s) := by
  unfold execSend
  refine Ran.withReady ?_ ?_
  · exact hs
  · intro x1
    refine Evolves.ite ?_ ?_
    · exact hs
    · refine Evolves.ite ?_ ?_
      · exact hs.postSend
      · exact hs.setSend.mapMop

theorem execShuttleSlotFree_ran {F : Part → Bool} [MayTele F] [MayTWindow F] {σ : State} {t seq : Nat} {s : State}
    (hs : Evolves F σ s) :
    Ran F σ (execShuttleSlotFree t seq s) := by
  unfold execShuttleSlotFree
  refine Ran.withReady ?_ ?_
  · exact hs
  · intro x1
    refine Evolves.ite ?_ ?_
    · exact hs.postSend
    · exact hs

theorem execShuttleDescriptorArrive_ran {F : Part → Bool} [Stores F] [Raises F] [MayTWindow F] [MayTQueues F] {σ :
    State} {t seq : Nat} {damaged : Bool} {s : State} (hs : Evolves F σ s) :
    Ran F σ (execShuttleDescriptorArrive t seq damaged s) := by
  unfold execShuttleDescriptorArrive
  refine Ran.withReady ?_ ?_
  · exact hs
  · intro x1
    extract_lets +onlyGivenNames v2 v3
    clear_value v2 v3
    refine Evolves.ite ?_ ?_
    · exact hs
    · refine Evolves.ite ?_ ?_
      · refine Evolves.ite ?_ ?_
        · exact hs.mapMop.count.raise
        · exact hs.stopMop
      · refine Evolves.ite ?_ ?_
        · exact hs.setSend.count
        · refine Evolves.ite ?_ ?_
          · exact hs.setSend.count
          · extract_lets +onlyGivenNames s4
            have h4 : Evolves F σ s4 := hs.freeEngines.writeSlot
            clear_value s4
            exact h4.mapQueue.setSend

theorem Evolves.retireSend {F : Part → Bool} [Stores F] [Raises F] [MayTWindow F] [MayTStreams F] [MayTQueues F] {σ :
    State} {c :
    Ctx} {s : State} (hs : Evolves F σ s) :
    Evolves F σ (State.retireSend c s) := by
  unfold State.retireSend
  exact hs.retireMop

theorem execShuttleAck_ran {F : Part → Bool} [Stores F] [Raises F] [MayTWindow F] [MayTStreams F] [MayTQueues F] {σ :
    State} {t seq :
    Nat} {s : State} (hs : Evolves F σ s) :
    Ran F σ (execShuttleAck t seq s) := by
  unfold execShuttleAck
  split
  · split
    · refine Ran.next ?_
      exact hs.retireSend
    · refine Ran.next ?_
      exact hs
  · refine Ran.next ?_
    exact hs

theorem execSendCompletion_ran {F : Part → Bool} [Stores F] [Raises F] [MayTWindow F] [MayTStreams F] [MayTQueues F]
    {σ : State} {t
    seq : Nat} {s : State} (hs : Evolves F σ s) :
    Ran F σ (execSendCompletion t seq s) := by
  unfold execSendCompletion
  split
  · split
    · refine Ran.next ?_
      exact hs
    · split
      · refine Ran.next ?_
        exact hs.retireSend
      · refine Ran.next ?_
        exact hs.retireSend.raiseMop
      · refine Ran.next ?_
        exact hs
  · refine Ran.next ?_
    exact hs

theorem execRecvPoll_ran {F : Part → Bool} [Stores F] [MayTWindow F] [MayTQueues F] {σ : State} {t seq : Nat} {s :
    State} (hs : Evolves F σ s) :
    Ran F σ (execRecvPoll t seq s) := by
  unfold execRecvPoll
  refine Ran.withReady ?_ ?_
  · exact hs
  · intro x1
    refine Evolves.ite ?_ ?_
    · exact hs
    · extract_lets +onlyGivenNames v2
      clear_value v2
      extract_lets +onlyGivenNames v3 v4
      clear_value v3 v4
      split
      · exact hs.tileAt
      · extract_lets +onlyGivenNames v5
        clear_value v5
        extract_lets +onlyGivenNames s6
        have h6 : Evolves F σ s6 := hs.tileAt
        clear_value s6
        extract_lets +onlyGivenNames v7 v8 v9 v10
        clear_value v7 v8 v9 v10
        refine Evolves.ite h6 ?_
        extract_lets +onlyGivenNames s9
        have h9 : Evolves F σ s9 := h6.remoteRead
        clear_value s9
        refine Evolves.ite ?_ ?_
        · exact h9.freeSlot.endSend.count
        · extract_lets +onlyGivenNames s10
          have h10 : Evolves F σ s10 := h9.mapQueue
          clear_value s10
          extract_lets +onlyGivenNames s11
          have h11 : Evolves F σ s11 := h10.mapMop
          clear_value s11
          exact h11.freeEngines.count.drawTokens

theorem Evolves.markSource {F : Part → Bool} [MayTele F] [MayTMarks F] {σ : State} {a n : Nat} {s : State} (hs :
    Evolves F σ s) :
    Evolves F σ (State.markSource a n s) := by
  unfold State.markSource
  split
  · exact hs.remoteRead
  · exact hs

theorem Evolves.recvWrite {F : Part → Bool} [Stores F] [MayJobs F] [MayTWindow F] [MayTDrop F] {σ : State} {c : Ctx}
    {v : View} {bytes : List Byte} {outs : List BatchOut} {s : State} (hs : Evolves F σ s) :
    Evolves F σ (State.recvWrite c v bytes outs s) := by
  unfold State.recvWrite
  extract_lets +onlyGivenNames r1
  have h1 : Evolves F σ r1.1 := Evolves.tileStore hs
  clear_value r1
  extract_lets +onlyGivenNames r2
  have h2 : Evolves F σ r2.1 := h1.foldlPair fun _ _ hq => hq.dmaRecord
  clear_value r2
  exact h2.noteDrop

theorem execRecv_ran {F : Part → Bool} [Stores F] [MayJobs F] [MayTWindow F] [MayTDrop F] {σ : State} {t seq : Nat} {s : State} (hs : Evolves
    F σ s) :
    Ran F σ (execRecv t seq s) := by
  unfold execRecv
  refine Ran.withReady ?_ ?_
  · exact hs
  · intro x1
    split
    · refine Evolves.ite hs ?_
      extract_lets +onlyGivenNames v2
      clear_value v2
      extract_lets +onlyGivenNames v3 v4 v5 v6 v7 v8 v9
      clear_value v3 v4 v5 v6 v7 v8 v9
      extract_lets +onlyGivenNames s10
      have h10 : Evolves F σ s10 := hs.markSource
      clear_value s10
      extract_lets +onlyGivenNames s11
      have h11 : Evolves F σ s11 := by
        refine Evolves.ite ?_ ?_
        · exact h10.markSource
        · exact h10
      clear_value s11
      extract_lets +onlyGivenNames s12
      have h14 : Evolves F σ s12 := h11.recvWrite
      clear_value s12
      extract_lets +onlyGivenNames s18
      have h18 : Evolves F σ s18 := by
        refine Evolves.ite ?_ ?_
        · exact h14
        · exact h14.mapMop
      clear_value s18
      extract_lets +onlyGivenNames s19
      have h19 : Evolves F σ s19 := by
        unfold s19
        split
        · refine Evolves.ite ?_ ?_
          · exact h18
          · exact h18.count
        · assumption
      clear_value s19
      extract_lets +onlyGivenNames s20
      have h20 : Evolves F σ s20 := by
        refine Evolves.ite ?_ ?_
        · exact h19.unitDone
        · exact h19
      clear_value s20
      exact h20.markDone
    · exact hs

theorem Evolves.ackRecv {F : Part → Bool} [Stores F] [MayTWindow F] [MayTQueues F] {σ : State} {c : Ctx} {s : State}
    (hs : Evolves F σ s) :
    Evolves F σ (State.ackRecv c s) := by
  unfold State.ackRecv
  split
  · exact hs.giveBack.drawTokens
  · exact hs

theorem Evolves.shqReset {F : Part → Bool} [Stores F] [MayTWindow F] [MayTQueues F] {σ : State} {q : Requester} {s :
    State} (hs : Evolves F σ s) :
    Evolves F σ (State.shqReset q s) := by
  unfold State.shqReset
  extract_lets +onlyGivenNames v1
  clear_value v1
  refine Evolves.ite ?_ ?_
  · exact hs
  · exact hs.advanceEpoch

theorem execShqReset_ran {F : Part → Bool} [Stores F] [Raises F] [MayReadLatch F] [MayTWindow F] [MayTQueues F] {σ : State} {q :
    Requester} {s : State} (hs : Evolves F σ s) :
    Ran F σ (execShqReset q s) := by
  unfold execShqReset
  refine Ran.next ?_
  refine Evolves.gated ?_ ?_
  · exact hs.unlatch
  · intro x1 h2
    exact h2.shqReset

theorem execWin_ran {F : Part → Bool} [MayTele F] [MayTMarks F] [MayTWindow F] [MayTWindows F] {σ : State} {t seq :
    Nat} {s : State} (hs : Evolves F σ s) :
    Ran F σ (execWin t seq s) := by
  unfold execWin
  refine Ran.withReady ?_ ?_
  · exact hs
  · intro x1
    refine Evolves.guarded ?_ ?_
    · exact hs
    · intro x2 h3
      split
      · split
        · exact h3.stopMop
        · extract_lets +onlyGivenNames v4
          clear_value v4
          extract_lets +onlyGivenNames v5
          clear_value v5
          extract_lets +onlyGivenNames s6
          have h6 : Evolves F σ s6 := by
            refine Evolves.mapTile ?_ ?_
            · exact h3
            · intro x7
              extract_lets +onlyGivenNames v8
              exact TKept.only_tWindows rfl
          clear_value s6
          extract_lets +onlyGivenNames s7
          have h7 : Evolves F σ s7 := Evolves.ite h6 h6.mapMop
          clear_value s7
          exact h7.markDone
      · exact h3.markDone

theorem execBar_ran {F : Part → Bool} [MayJobs F] [MayTWindow F] {σ : State} {t seq : Nat} {s : State} (hs : Evolves
    F σ s) :
    Ran F σ (execBar t seq s) := by
  unfold execBar
  refine Ran.withReady ?_ ?_
  · exact hs
  · intro x1
    exact Evolves.mapJob (Evolves.mapMop hs) (fun _ => rfl)

theorem execStallWatchdog_ran {F : Part → Bool} [Raises F] [MayClock F] [MayTWindow F] {σ : State} {t seq : Nat} {s :
    State} (hs : Evolves F σ s) :
    Ran F σ (execStallWatchdog t seq s) := by
  unfold execStallWatchdog
  split
  · split
    · extract_lets +onlyGivenNames s1
      have h1 : Evolves F σ s1 := hs.until
      clear_value s1
      refine Ran.next ?_
      exact h1.mapMop.count.raise
    · refine Ran.next ?_
      exact hs
  · refine Ran.next ?_
    exact hs

end Sys2Proof.Machine
end

