-- ==== Sys2Proof/Laws/EvMops.lean ====
section
/-!
SUPPORT. What the operations of Machine/Mops.lean keep (Laws/Evolves.lean), one lemma for each.
-/
namespace Sys2Proof.Machine

theorem TKept.nextFetch {F : Part → Bool} [MayTProgram F] (u : Tile) (i : Nat) : TKept F u (u.nextFetch i) := by
  unfold Tile.nextFetch
  split
  · exact TKept.ite (TKept.only_tProgram rfl) (TKept.refl F u)
  · exact TKept.refl F u

theorem execSegmentFetchDone_ran {F : Part → Bool} [Stores F] [Raises F] [MayMsix F] [MayRings F] [MayGroups F]
    [MayPoisonRequests F] [MayTVregs F] [MayTProgram F] [MayTWindow F] [MayTStreams F] [MayTQueues F] [MayTWindows F]
    {σ : State} {t cycles : Nat} {s : State} (hs : Evolves F σ s) :
    Ran F σ (execSegmentFetchDone t cycles s) := by
  unfold execSegmentFetchDone
  split
  · extract_lets +onlyGivenNames bs put
    have hput : ∀ f u, Evolves F σ u → Evolves F σ (put f u) := fun f u hu => hu.mapTile (fun _ =>
    TKept.only_tProgram rfl)
    clear_value bs put
    split
    · exact Ran.next (hput _ _ hs.count)
    · split
      · exact Ran.next (hput _ _ hs.count)
      · exact Ran.next hs.raise.stopJob
  · exact Ran.next hs

/-- A word offered, with what its offer fetches. -/
theorem TKept.offered {F : Part → Bool} [MayTProgram F] [MayTWindow F] (u v : Tile) (n : Nat) (o : Option Offer)
    (h : TKept F u v) : TKept F u { v with next := n, offer := o } := h.trans (TKept.only_tWindow rfl)

theorem execMacroOffer_ran {F : Part → Bool} [Stores F] [Raises F] [MayMsix F] [MayRings F] [MayGroups F]
    [MayPoisonRequests F] [MayTVregs F] [MayTProgram F] [MayTWindow F] [MayTStreams F] [MayTQueues F] [MayTWindows F]
    {σ : State} {t : Nat} {s : State} (hs : Evolves F σ s) :
    Ran F σ (execMacroOffer t s) := by
  unfold execMacroOffer
  extract_lets +onlyGivenNames v1
  clear_value v1
  split
  · split
    · split
      · exact Ran.next hs
      · extract_lets +onlyGivenNames v2 v3 s4
        have h4 : Evolves F σ s4 := hs.count.count
        clear_value s4 v3 v2
        split
        · extract_lets +onlyGivenNames s5
          have h5 : Evolves F σ s5 := h4.count.raise
          clear_value s5
          exact Ran.next h5.stopJob
        · extract_lets +onlyGivenNames v6
          exact Ran.next (Evolves.mapTile h4 fun u => TKept.offered _ _ _ _ (TKept.nextFetch u _))
    · exact Ran.next hs
  · exact Ran.next hs

theorem Evolves.joinRun {F : Part → Bool} [MayGroups F] {σ : State} {c : Ctx} {g : GroupEntry} {k : Nat} {s : State}
    (hs : Evolves F σ s) :
    Evolves F σ (State.joinRun c g k s) := by
  unfold State.joinRun
  extract_lets +onlyGivenNames v1
  clear_value v1
  split
  · exact hs.mapRun
  · extract_lets +onlyGivenNames v2
    clear_value v2
    exact hs.set_groups

theorem Evolves.admitOne {F : Part → Bool} [Stores F] [MayGroups F] [MayTWindow F] [MayTStreams F] {σ : State} {c :
    Ctx} {cycle : Nat} {s : State} (hs : Evolves F σ s) :
    Evolves F σ (State.admitOne c cycle s) := by
  unfold State.admitOne
  extract_lets +onlyGivenNames v1 v2 v3 v4 v5 v6
  clear_value v1 v2 v3 v4 v5 v6
  extract_lets +onlyGivenNames s7
  have h7 : Evolves F σ s7 := by
    refine Evolves.repace ?_
    exact Evolves.mapTile hs (fun _ => TKept.only_tWindow rfl)
  clear_value s7
  extract_lets +onlyGivenNames s8
  have h8 : Evolves F σ s8 := by
    refine Evolves.foldl ?_ ?_
    · exact h7
    · intro x9 x10 h11
      exact h11.setEngine
  clear_value s8
  extract_lets +onlyGivenNames s12
  have h12 : Evolves F σ s12 := by
    unfold s12
    split
    · exact h8.joinRun
    · exact h8
  clear_value s12
  refine Evolves.ite ?_ ?_
  · exact h12.beginDma
  · exact h12

theorem execMacroAdmit_ran {F : Part → Bool} [Stores F] [MayGroups F] [MayTProgram F] [MayTWindow F] [MayTStreams F]
    {σ : State} {t : Nat} {s : State} (hs : Evolves F σ s) :
    Ran F σ (execMacroAdmit t s) := by
  unfold execMacroAdmit
  split
  · extract_lets +onlyGivenNames v1
    clear_value v1
    split
    · split
      · exact Ran.next hs
      · extract_lets +onlyGivenNames v2
        clear_value v2
        extract_lets +onlyGivenNames s3
        have h3 : Evolves F σ s3 := hs.count.tileAt
        clear_value s3
        extract_lets +onlyGivenNames s4
        have h4 : Evolves F σ s4 := by
          unfold s4
          split
          · exact Evolves.countMax (Evolves.count (Evolves.mapTile h3 (fun _ => TKept.only_tWindow rfl)))
          · exact h3
        clear_value s4
        extract_lets +onlyGivenNames s5
        have h5 : Evolves F σ s5 := h4.count
        clear_value s5
        extract_lets +onlyGivenNames s6
        have h6 : Evolves F σ s6 := h5.foldl fun u x hu => hu.admitOne
        clear_value s6
        refine Ran.next (h6.mapTile fun u => ?_)
        exact TKept.trans (foldl_keeps (p := TKept F u) (TKept.refl F u) fun _ _ _ hu => hu.trans (TKept.nextFetch _
    _))
          (TKept.only_tWindow rfl)
    · exact Ran.next hs
  · exact Ran.next hs

theorem execGroupStart_ran {F : Part → Bool} [MayTele F] [MayGroups F] [MayHbm F] [MayTWindow F] {σ : State} {t seq
    delay : Nat} {s : State} (hs : Evolves F σ s) :
    Ran F σ (execGroupStart t seq delay s) := by
  unfold execGroupStart
  split
  · refine Ran.next ?_
    exact hs
  · split
    · refine Ran.next ?_
      exact hs
    · split
      · refine Ran.next ?_
        exact hs
      · extract_lets +onlyGivenNames v1
        clear_value v1
        extract_lets +onlyGivenNames v2
        clear_value v2
        extract_lets +onlyGivenNames s3
        have h3 : Evolves F σ s3 := hs.mapMop
        clear_value s3
        extract_lets +onlyGivenNames s4
        have h4 : Evolves F σ s4 := h3.mapMember
        clear_value s4
        split
        · extract_lets +onlyGivenNames v5
          clear_value v5
          refine Ran.next ?_
          refine Evolves.ite ?_ ?_
          · refine Evolves.foldl ?_ ?_
            · exact h4
            · intro x6 x7 h8
              exact h8.beginStream
          · exact h4
        · refine Ran.next ?_
          exact h4

theorem execMacroRetire_ran {F : Part → Bool} [Stores F] [Raises F] [MayTWindow F] [MayTStreams F] [MayTQueues F] {σ
    : State} {t seq : Nat} {held : HeldCycles} {s : State} (hs : Evolves F σ s) :
    Ran F σ (execMacroRetire t seq held s) := by
  unfold execMacroRetire
  split
  · refine Ran.next ?_
    exact hs
  · split
    · refine Ran.next ?_
      exact hs
    · extract_lets +onlyGivenNames v1
      clear_value v1
      extract_lets +onlyGivenNames v2 v3
      clear_value v2 v3
      extract_lets +onlyGivenNames s4
      have h4 : Evolves F σ s4 := hs.foldl fun _ _ hu => hu.count
      clear_value s4
      extract_lets +onlyGivenNames s5
      have h5 : Evolves F σ s5 := by
        refine Evolves.ite ?_ ?_
        · exact h4.count
        · exact h4
      clear_value s5
      extract_lets +onlyGivenNames s6
      have h6 : Evolves F σ s6 := h5.delayEngines
      clear_value s6
      extract_lets +onlyGivenNames s7
      have h7 : Evolves F σ s7 := by
        refine Evolves.ite ?_ ?_
        · exact h6.count
        · exact h6
      clear_value s7
      extract_lets +onlyGivenNames s8
      have h8 : Evolves F σ s8 := by
        refine Evolves.ite ?_ ?_
        · exact h7.ackRecv
        · exact h7
      clear_value s8
      exact Ran.next h8.retireMop

theorem Evolves.abortBy {F : Part → Bool} [Stores F] [Raises F] [MayGroups F] [MayPoisonRequests F] [MayTVregs F]
    [MayTWindow F] [MayTStreams F] [MayTQueues F] [MayTWindows F] {σ : State} {c : Ctx} {cause : AbortCause} {s :
    State} (hs : Evolves F σ s) :
    Evolves F σ (State.abortBy c cause s) := by
  unfold State.abortBy
  extract_lets +onlyGivenNames s1
  have h1 : Evolves F σ s1 := hs.abortAll
  clear_value s1
  extract_lets +onlyGivenNames v2
  clear_value v2
  refine Evolves.ite ?_ ?_
  · exact h1.raiseMop
  · exact Evolves.startRecovery (Evolves.mapJob h1 (fun _ => rfl))

theorem execMacroAbort_ran {F : Part → Bool} [Stores F] [Raises F] [MayGroups F] [MayPoisonRequests F] [MayTVregs F]
    [MayTWindow F] [MayTStreams F] [MayTQueues F] [MayTWindows F] {σ : State} {t seq : Nat} {cause : AbortCause} {s :
    State} (hs : Evolves F σ s) :
    Ran F σ (execMacroAbort t seq cause s) := by
  unfold execMacroAbort
  split
  · refine Ran.next ?_
    exact hs
  · split
    · refine Ran.next ?_
      exact hs
    · split
      · refine Ran.next ?_
        exact hs.abortBy
      · split
        · refine Ran.next ?_
          exact hs
        · split
          · extract_lets +onlyGivenNames s1
            have h1 : Evolves F σ s1 := hs.markGranule
            clear_value s1
            extract_lets +onlyGivenNames s2
            have h2 : Evolves F σ s2 := Evolves.mapTile h1 (fun _ => TKept.only_tMarks rfl)
            clear_value s2
            refine Ran.next ?_
            exact h2.abortBy
          · refine Ran.next ?_
            exact hs.abortBy

theorem execScratchEccWriteback_ran {F : Part → Bool} [Raises F] {σ : State} {t _off : Nat} {s : State} (hs : Evolves
    F σ s) :
    Ran F σ (execScratchEccWriteback t _off s) := by
  unfold execScratchEccWriteback
  split
  · exact Ran.next hs
  · exact Ran.next hs.count.raise

theorem execPacketReceive_ran {F : Part → Bool} [Raises F] [MayTWindow F] {σ : State} {path : PacketPath} {t seq :
    Nat} {error : ReadError} {s : State} (hs : Evolves F σ s) :
    Ran F σ (execPacketReceive path t seq error s) := by
  unfold execPacketReceive
  split
  · refine Ran.next ?_
    exact hs
  · split
    · refine Ran.next ?_
      exact hs
    · split
      · refine Ran.next ?_
        exact hs
      · refine Ran.next ?_
        exact hs.count.raise
      · split
        · refine Ran.next ?_
          exact hs
        · split
          · extract_lets +onlyGivenNames v1
            clear_value v1
            refine Ran.next ?_
            exact hs.count.raise
          · refine Ran.next ?_
            exact hs.count.stopMop

theorem execNop_ran {F : Part → Bool} [MayTWindow F] {σ : State} {t seq : Nat} {s : State} (hs : Evolves F σ s) :
    Ran F σ (execNop t seq s) := by
  unfold execNop
  refine Ran.withReady ?_ ?_
  · exact hs
  · intro x1
    exact hs.markDone

theorem execChainStageResume_ran {F : Part → Bool} [MayTele F] [MayTWindow F] {σ : State} {t seq cycles : Nat}
    {ringFull : Bool} {s : State} (hs : Evolves F σ s) :
    Ran F σ (execChainStageResume t seq cycles ringFull s) := by
  unfold execChainStageResume
  split
  · refine Ran.next ?_
    exact hs
  · split
    · refine Ran.next ?_
      exact hs
    · split
      · refine Ran.next ?_
        exact hs
      · split
        · split
          · extract_lets +onlyGivenNames s1
            have h1 : Evolves F σ s1 := hs.count
            clear_value s1
            extract_lets +onlyGivenNames s2
            have h2 : Evolves F σ s2 := h1.delayEngines
            clear_value s2
            refine Ran.next ?_
            exact h2.mapMop
          · refine Ran.next ?_
            exact hs
        · split
          · extract_lets +onlyGivenNames s3
            have h3 : Evolves F σ s3 := hs.count
            clear_value s3
            extract_lets +onlyGivenNames s4
            have h4 : Evolves F σ s4 := h3.delayEngines
            clear_value s4
            refine Ran.next ?_
            exact h4.mapMop
          · refine Ran.next ?_
            exact hs

theorem execBarrierResolve_ran {F : Part → Bool} [Stores F] [Raises F] [MayGroups F] [MayPoisonRequests F]
    [MayPower F] [MayTVregs F] [MayTWindow F] [MayTStreams F] [MayTQueues F] [MayTWindows F] {σ : State} {d : RingDrain}
    {barrier : Nat} {s : State} (hs : Evolves F σ s) :
    Ran F σ (execBarrierResolve d barrier s) := by
  unfold execBarrierResolve
  split
  · refine Ran.next ?_
    exact hs
  · split
    · refine Ran.next ?_
      exact hs
    · split
      · refine Ran.next ?_
        exact hs
      · extract_lets +onlyGivenNames s1
        have h1 : Evolves F σ s1 := by
          refine Evolves.foldl ?_ ?_
          · exact hs.mergeReads.writeBackAll
          · intro x2 x3 h4
            exact h4.count
        clear_value s1
        split
        · extract_lets +onlyGivenNames s5
          have h5 : Evolves F σ s5 := by
            refine Evolves.foldl ?_ ?_
            · exact h1
            · intro x6 x7 h8
              exact h8.closeWindows
          clear_value s5
          extract_lets +onlyGivenNames s9
          have h9 : Evolves F σ s9 := Evolves.stepScheds (Evolves.mapJob h5 (fun _ => rfl))
          clear_value s9
          split
          · refine Ran.next ?_
            exact h9.releaseBars
          · refine Ran.next ?_
            exact Evolves.beginCommit (Evolves.mapJob h9 (fun _ => rfl))
        · refine Ran.next ?_
          exact h1.releaseBars

end Sys2Proof.Machine
end

