-- ==== Sys2Proof/Laws/EvPower.lean ====
section
/-!
SUPPORT. What the operations of Machine/Power.lean keep (Laws/Evolves.lean), one lemma for each.
-/
namespace Sys2Proof.Machine

theorem Evolves.slotDie {F : Part → Bool} [MayTele F] [MayDies F] [MayPower F] {σ : State} {d : Nat}
    {s : State} (hs : Evolves F σ s) :
    Evolves F σ (State.slotDie d s) := by
  unfold State.slotDie
  extract_lets +onlyGivenNames v1 v2 v3 v4 v5
  clear_value v1 v2 v3 v4 v5
  extract_lets +onlyGivenNames s6
  have h6 : Evolves F σ s6 := hs.mapDie
  clear_value s6
  extract_lets +onlyGivenNames p7 s7
  have h7 : Evolves F σ s7 := h6.set_power
  clear_value p7 s7
  extract_lets +onlyGivenNames s8
  have h8 : Evolves F σ s8 := h7.count.count
  clear_value s8
  exact h8.foldl fun _ _ hu => Evolves.ite hu.count hu

theorem Evolves.slotMarks {F : Part → Bool} [MayTele F] [MayDies F] [MayPower F] {σ : State} {l : List Allot} {d : Nat}
    {s : State} (hs : Evolves F σ s) :
    Evolves F σ (State.slotMarks l d s) := by
  unfold State.slotMarks
  extract_lets +onlyGivenNames v1 v2 s3
  have h3 : Evolves F σ s3 := hs.mapDie
  clear_value v1 v2 s3
  extract_lets +onlyGivenNames p4 s4
  have h4 : Evolves F σ s4 := h3.set_power
  clear_value p4 s4
  extract_lets +onlyGivenNames s5
  have h5 : Evolves F σ s5 := h4.count
  clear_value s5
  exact h5.count

/-- A change of a tile's sequencer and budget. -/
theorem TKept.pace {F : Part → Bool} [MayTWindow F] [MayTTemp F] {u v : Tile}
    (h : (v.regs, v.faults, v.place, v.program, v.streams, v.queues, v.windows, v.drops) =
      (u.regs, u.faults, u.place, u.program, u.streams, u.queues, u.windows, u.drops)) : TKept F u v := by
  simp only [Prod.mk.injEq] at h
  obtain ⟨h0, h1, h2, h3, h5, h6, h7, h8⟩ := h
  exact ⟨fun _ => h0, fun _ => h1, fun _ => h2, fun _ => h3, fun e => not_may MayTWindow.mayTWindow e, fun _ => h5,
    fun _ => h6, fun _ => h7, fun _ => h8, fun e => not_may MayTTemp.mayTTemp e⟩

theorem Evolves.allot {F : Part → Bool} [MayTWindow F] [MayTTemp F] {σ : State} {l : List Allot} {s : State} (hs :
    Evolves F σ s) :
    Evolves F σ (State.allot l s) := by
  unfold State.allot
  refine hs.foldl fun u a hu => ?_
  extract_lets +onlyGivenNames n
  clear_value n
  exact Evolves.repace (Evolves.mapTile hu (fun _ => TKept.pace rfl))

theorem execPacerSlot_ran {F : Part → Bool} [MayClock F] [MayTele F] [MayDies F] [MayPower F] [MayTWindow F] [MayTTemp F]
    {σ : State} {s : State} (hs : Evolves F σ s) :
    Ran F σ (execPacerSlot s) := by
  unfold execPacerSlot
  split
  · refine Ran.next ?_
    exact hs
  · extract_lets +onlyGivenNames s1
    have h1 : Evolves F σ s1 := hs.until
    clear_value s1
    extract_lets +onlyGivenNames s2
    have h2 : Evolves F σ s2 := h1.foldl fun _ _ hu => hu.slotDie
    clear_value s2
    extract_lets +onlyGivenNames v3 v4 v5 v6 v7 v8
    clear_value v3 v4 v5 v6 v7 v8
    extract_lets +onlyGivenNames s9
    have h9 : Evolves F σ s9 := h2.allot
    clear_value s9
    extract_lets +onlyGivenNames s10
    have h10 : Evolves F σ s10 := h9.foldl fun _ _ hu => hu.slotMarks
    clear_value s10
    exact Ran.next (Evolves.count (Evolves.set_power h10))

theorem execPacerWindow_ran {F : Part → Bool} [MayClock F] [MayTele F] [MayDies F] [MayPower F] {σ : State} {s :
    State} (hs : Evolves F σ s) :
    Ran F σ (execPacerWindow s) := by
  unfold execPacerWindow
  split
  · refine Ran.next ?_
    exact hs
  · extract_lets +onlyGivenNames s1
    have h1 : Evolves F σ s1 := hs.until
    clear_value s1
    extract_lets +onlyGivenNames v2
    clear_value v2
    extract_lets +onlyGivenNames s3
    have h3 : Evolves F σ s3 := h1.count.count
    clear_value s3
    refine Ran.next ?_
    exact h3.set_dies_power

theorem Evolves.repaceDie {F : Part → Bool} [MayTWindow F] {σ : State} {d : Nat} {s : State} (hs : Evolves F σ s) :
    Evolves F σ (State.repaceDie d s) := by
  unfold State.repaceDie
  exact hs.foldl fun _ _ hu => hu.repace

theorem Evolves.freezeDie {F : Part → Bool} [MayDies F] [MayTWindow F] {σ : State} {d : Nat} {q : Dvfs} {s : State}
    (hs : Evolves F σ s) : Evolves F σ (State.freezeDie d q s) := by
  unfold State.freezeDie
  extract_lets +onlyGivenNames s1
  have h1 : Evolves F σ s1 := hs.mapDie
  clear_value s1
  refine Evolves.ite (Evolves.foldl h1.mapDie fun u t hu => ?_) h1
  exact Evolves.mapTile hu (fun _ => TKept.only_tWindow rfl)

theorem execDvfsStart_ran {F : Part → Bool} [MayClock F] [MayDies F] [MayTWindow F] {σ : State} {d : Nat} {s : State}
    (hs : Evolves F σ s) :
    Ran F σ (execDvfsStart d s) := by
  unfold execDvfsStart
  split
  · refine Ran.next ?_
    exact hs
  · extract_lets +onlyGivenNames v1
    clear_value v1
    split
    · exact Ran.next hs.mapDie.repaceDie
    · exact Ran.next hs.until.freezeDie

theorem execAvsStatusPoll_ran {F : Part → Bool} [MayClock F] [MayDies F] [MayTWindow F] {σ : State} {d : Nat}
    {reached : Bool} {s : State} (hs : Evolves F σ s) :
    Ran F σ (execAvsStatusPoll d reached s) := by
  unfold execAvsStatusPoll
  split
  · refine Ran.next ?_
    exact hs
  · extract_lets +onlyGivenNames v0 v1
    clear_value v0 v1
    split
    · refine Ran.next ?_
      exact hs
    · extract_lets +onlyGivenNames s2
      have h2 : Evolves F σ s2 := hs.until
      clear_value s2
      split
      · refine Ran.next ?_
        exact h2
      · split
        · refine Ran.next ?_
          exact h2.mapDie
        · exact Ran.next h2.mapDie.repaceDie

theorem execDvfsSettleEnd_ran {F : Part → Bool} [MayClock F] [MayDies F] [MayTWindow F] {σ : State} {d : Nat} {s : State}
    (hs : Evolves F σ s) :
    Ran F σ (execDvfsSettleEnd d s) := by
  unfold execDvfsSettleEnd
  split
  · refine Ran.next ?_
    exact hs
  · extract_lets +onlyGivenNames s1
    have h1 : Evolves F σ s1 := hs.until
    clear_value s1
    exact Ran.next h1.until.freezeDie

theorem execDvfsFreezeEnd_ran {F : Part → Bool} [MayClock F] [MayTele F] [MayDies F] {σ : State} {d : Nat} {s :
    State} (hs : Evolves F σ s) :
    Ran F σ (execDvfsFreezeEnd d s) := by
  unfold execDvfsFreezeEnd
  split
  · refine Ran.next ?_
    exact hs
  · extract_lets +onlyGivenNames s1
    have h1 : Evolves F σ s1 := hs.until.count
    clear_value s1
    split
    · refine Ran.next ?_
      exact h1.mapDie
    · refine Ran.next ?_
      exact h1.mapDie

theorem Evolves.realert {F : Part → Bool} [MayPins F] {σ : State} {s : State} (hs : Evolves F σ s) :
    Evolves F σ (State.realert s) := by
  unfold State.realert
  refine Evolves.ite ?_ ?_
  · exact hs.assertAlert
  · exact hs.set_pins

theorem execAvsTimeout_ran {F : Part → Bool} [Raises F] [MayClock F] {σ : State} {d : Nat} {s : State} (hs : Evolves
    F σ s) :
    Ran F σ (execAvsTimeout d s) := by
  unfold execAvsTimeout
  split
  · refine Ran.next ?_
    exact hs
  · extract_lets +onlyGivenNames s1
    have h1 : Evolves F σ s1 := hs.until.count
    clear_value s1
    extract_lets +onlyGivenNames s2
    have h2 : Evolves F σ s2 := h1.mapDie
    clear_value s2
    refine Ran.next ?_
    exact h2.raise.realert

theorem Evolves.trip {F : Part → Bool} [Raises F] {σ : State} {l : List ((Nat × Nat) × Nat)} {s : State} (hs :
    Evolves F σ s) :
    Evolves F σ (State.trip l s) := by
  unfold State.trip
  refine Evolves.ite ?_ ?_
  · exact hs
  · extract_lets +onlyGivenNames s1
    have h1 : Evolves F σ s1 := hs.raise
    clear_value s1
    exact h1.set_dies_pins

theorem execThermalSample_ran {F : Part → Bool} [Raises F] [MayClock F] [MayPower F] [MayTTemp F] {σ : State} {tiles
    hbm : List Nat} {hub : Nat} {s : State}
    (hs : Evolves F σ s) : Ran F σ (execThermalSample tiles hbm hub s) := by
  unfold execThermalSample
  split
  · exact Ran.next hs
  · extract_lets +onlyGivenNames s1
    have h1 : Evolves F σ s1 := hs.until
    clear_value s1
    extract_lets +onlyGivenNames v2 v3 v4 s4
    have h4 : Evolves F σ s4 :=
      ((h1.set_tiles (x := Tab.build 208 (fun t => { s1.tile t with temp := tiles.getD t 0 }))
        (TKept.build fun _ => TKept.only_tTemp rfl)).set_hbm
        (x := Tab.build 12 (fun k => { s1.stack k with temp := hbm.getD k 0 })) fun e => by
        rw [wcbsOk_iff] at *
        intro k hk
        rw [Tab.at_build _ _ _ hk]
        exact (Stack.wcbOk_congr (b := s1.stack k) rfl).trans (e k hk)).set_dies_power
    clear_value s4 v4 v3 v2
    extract_lets +onlyGivenNames s5
    have h5 : Evolves F σ s5 := h4.foldl fun u x hu => hu.countMax
    clear_value s5
    exact Ran.next h5.trip.realert

theorem execThermalFloorRise_ran {F : Part → Bool} [MayClock F] [MayDies F] {σ : State} {d : Nat} {s : State} (hs :
    Evolves F σ s) :
    Ran F σ (execThermalFloorRise d s) := by
  unfold execThermalFloorRise
  split
  · extract_lets +onlyGivenNames s1
    have h1 : Evolves F σ s1 := hs.until
    clear_value s1
    refine Ran.next ?_
    exact h1.mapDie
  · refine Ran.next ?_
    exact hs

theorem execThermalFloorFall_ran {F : Part → Bool} [MayClock F] [MayDies F] {σ : State} {d : Nat} {s : State} (hs :
    Evolves F σ s) :
    Ran F σ (execThermalFloorFall d s) := by
  unfold execThermalFloorFall
  split
  · split
    · extract_lets +onlyGivenNames s1
      have h1 : Evolves F σ s1 := hs.until
      clear_value s1
      refine Ran.next ?_
      exact h1.mapDie
    · refine Ran.next ?_
      exact hs
  · refine Ran.next ?_
    exact hs

theorem Evolves.writePwrCtrl {F : Part → Bool} [Raises F] [MayPower F] {σ : State} {q : Requester} {v : Nat} {s :
    State} (hs : Evolves F σ s) :
    Evolves F σ (State.writePwrCtrl q v s) := by
  unfold State.writePwrCtrl
  refine Evolves.ite ?_ ?_
  · exact hs
  · refine Evolves.ite ?_ ?_
    · exact hs.set_dies_power
    · exact hs.discard

theorem execPowerOff_ran {F : Part → Bool} [Raises F] [MayReadLatch F] [MayPower F] {σ : State} {q : Requester} {s :
    State} (hs : Evolves F σ s) :
    Ran F σ (execPowerOff q s) := by
  unfold execPowerOff
  refine Ran.next ?_
  refine Evolves.gated ?_ ?_
  · exact hs.unlatch
  · intro x1 h2
    exact h2.writePwrCtrl

theorem Evolves.rampDies {F : Part → Bool} [MayClock F] [MayTele F] [MayDies F] {σ : State} {ds : List Nat} {s : State}
    (hs : Evolves F σ s) : Evolves F σ (State.rampDies ds s) := by
  unfold State.rampDies
  extract_lets +onlyGivenNames v1 s2
  have h2 : Evolves F σ s2 := hs.set_clock (Nat.le_add_right _ _)
  clear_value v1 s2
  refine h2.foldl fun u d hu => ?_
  extract_lets +onlyGivenNames v3 v4
  clear_value v3 v4
  exact hu.mapDie.count

theorem execSafeOff_ran {F : Part → Bool} [MayClock F] [MayTele F] [MayDies F] [MayPower F] {σ : State} {s : State}
    (hs : Evolves F σ s) :
    Ran F σ (execSafeOff s) := by
  unfold execSafeOff
  split
  · exact Ran.next hs
  · extract_lets +onlyGivenNames s2
    have h2 : Evolves F σ s2 := hs.rampDies
    clear_value s2
    exact Ran.next h2.set_dies_power

theorem Evolves.writeClkout {F : Part → Bool} [Raises F] [MayPower F] {σ : State} {q : Requester} {v : Nat} {s :
    State} (hs : Evolves F σ s) :
    Evolves F σ (State.writeClkout q v s) := by
  unfold State.writeClkout
  extract_lets +onlyGivenNames v1 v2 v3
  clear_value v1 v2 v3
  refine Evolves.ite ?_ ?_
  · exact hs.discard
  · exact hs.set_power

theorem execClkoutSelect_ran {F : Part → Bool} [Raises F] [MayReadLatch F] [MayPower F] {σ : State} {q : Requester}
    {value : Word} {s : State} (hs : Evolves F σ s) :
    Ran F σ (execClkoutSelect q value s) := by
  unfold execClkoutSelect
  refine Ran.next ?_
  refine Evolves.gated ?_ ?_
  · exact hs.unlatch
  · intro x1 h2
    exact h2.writeClkout

end Sys2Proof.Machine
end

