-- ==== Sys2Proof/Laws/EvTrust.lean ====
section
/-!
SUPPORT. What the operations of Machine/Trust.lean keep (Laws/Evolves.lean), one lemma for each.
-/
namespace Sys2Proof.Machine

theorem Evolves.startService {F : Part → Bool} [MayTrust F] {σ : State} {runs : Bool} {s : State} (hs : Evolves F σ s) :
    Evolves F σ (State.startService runs s) := by
  unfold State.startService
  refine Evolves.set_trust ?_ ⟨rfl, rfl, rfl⟩
  exact hs

theorem Evolves.restartService {F : Part → Bool} [MayTrust F] {σ : State} {s : State} (hs : Evolves F σ s) :
    Evolves F σ (State.restartService s) := by
  unfold State.restartService
  exact hs.startService

theorem Evolves.reidentify {F : Part → Bool} [MayFreeCount F] [MayTrust F] {σ : State} {s : State} (hs : Evolves F σ s) :
    Evolves F σ (State.reidentify s) := by
  unfold State.reidentify
  exact hs.set_freeCount_trust ⟨rfl, rfl, rfl⟩

theorem execSvcHeartbeat_ran {F : Part → Bool} [MayTrust F] {σ : State} {s : State} (hs : Evolves F σ s) :
    Ran F σ (execSvcHeartbeat s) := by
  unfold execSvcHeartbeat
  split
  · refine Ran.next ?_
    refine Evolves.set_trust ?_ ⟨rfl, rfl, rfl⟩
    exact hs
  · refine Ran.next ?_
    exact hs

theorem Evolves.acceptPoison {F : Part → Bool} [MayTele F] [MayLinePoison F] [MayHbm F] [MayPoisonRequests F] {σ :
    State} {s : State} (hs : Evolves F σ s) :
    Evolves F σ (State.acceptPoison s) := by
  unfold State.acceptPoison
  refine Evolves.foldl ?_ ?_
  · exact hs.set_poisonRequests
  · intro x1 x2 h3
    refine Evolves.foldl ?_ ?_
    · exact h3
    · intro x4 x5 h6
      exact h6.poisonLine

theorem execHeartbeatMissed_ran {F : Part → Bool} [Stores F] [Raises F] [MayClock F] [MayMsix F] [MayHalt F]
    [MayRings F] [MayGroups F] [MayPoisonRequests F] [MayTrust F] [MayTVregs F] [MayTProgram F] [MayTWindow F]
    [MayTStreams F] [MayTQueues F] [MayTWindows F] {σ : State} {s : State} (hs : Evolves F σ s) :
    Ran F σ (execHeartbeatMissed s) := by
  unfold execHeartbeatMissed
  split
  · refine Ran.next ?_
    exact hs
  · extract_lets +onlyGivenNames s1
    have h1 : Evolves F σ s1 := hs.until.halting.acceptPoison
    clear_value s1
    extract_lets +onlyGivenNames s2
    have h2 : Evolves F σ s2 := h1.set_halt.restartService.count
    clear_value s2
    refine Ran.next ?_
    extract_lets +onlyGivenNames s3
    have h3 : Evolves F σ s3 := h2.raise
    clear_value s3
    exact h3.set_halt

theorem execSvcDenied_ran {F : Part → Bool} [Raises F] [MayResp F] {σ : State} {write : Bool} {addr : DWord} {y1 :
    Word} {s : State} (hs : Evolves F σ s) :
    Ran F σ (execSvcDenied write addr y1 s) := by
  unfold execSvcDenied
  split
  · refine Ran.next ?_
    exact hs
  · extract_lets +onlyGivenNames s1
    have h1 : Evolves F σ s1 := hs.count.raise
    clear_value s1
    refine Ran.next ?_
    refine Evolves.ite ?_ ?_
    · exact h1
    · exact h1.set_resp

theorem TKept.wiped {F : Part → Bool} [MayTVregs F] [MayTMarks F] [MayTProgram F] [MayTQueues F] (u : Tile) :
    TKept F u u.wiped :=
  ⟨fun e => not_may MayTVregs.mayTVregs e, fun e => not_may MayTMarks.mayTMarks e, fun _ => rfl,
    fun e => not_may MayTProgram.mayTProgram e, fun _ => rfl, fun _ => rfl, fun e => not_may MayTQueues.mayTQueues e,
    fun _ => rfl, fun _ => rfl, fun _ => rfl⟩

theorem Evolves.wipe {F : Part → Bool} [MayMode F] [MayTele F] [MayPsets F] [MayPrks F] [MayMem F] [MayLinePoison F]
    [MayHbm F] [MayLink F] [MayTrust F] [MayBodkin F] [MayCvus F] [MayTVregs F] [MayTMarks F] [MayTProgram F]
    [MayTQueues F] {σ s : State} (hs : Evolves F σ s) : Evolves F σ (State.wipe s) := by
  have h1 := hs.set_mem_linePoison (x1 := []) (fun e => Memory.wf_clear 0 (2 ^ 63) e)
  have h2 := h1.set_tiles (x := s.tiles.map Tile.wiped) (TKept.map fun u => TKept.wiped u)
  have h3 := h2.set_hbm (x := s.hbm.map (fun k => { k with wcb := [] }))
    (fun e => wcbsOk_map e fun k u _ => by simp [Stack.wcbOk, noRepeats])
  exact (h3.set_trust (x := { s.trust with sessions := [] }) ⟨rfl, rfl,
    rfl⟩).set_mode_tele_psets_prks_link_bodkin_cvus

theorem Evolves.setOwner {F : Part → Bool} [MayFreeCount F] [MayTrust F] {σ : State} {owner : List Byte} {s : State}
    (hs : Evolves F σ s) :
    Evolves F σ (State.setOwner owner s) := by
  unfold State.setOwner
  refine Evolves.reidentify ?_
  refine Evolves.set_trust ?_ ⟨rfl, rfl, rfl⟩
  exact hs

theorem Evolves.beginChange {F : Part → Bool} [MayFreeCount F] [MayMode F] [MayTele F] [MayPsets F] [MayPrks F] [MayMem F]
    [MayLinePoison F] [MayHbm F] [MayLink F] [MayTrust F] [MayMbx F] [MayBodkin F] [MayCvus F] [MayTVregs F]
    [MayTMarks F] [MayTProgram F] [MayTQueues F] {σ : State} {owner : List Byte} {debug : Bool} {s : State} (hs :
    Evolves F σ s) :
    Evolves F σ (State.beginChange owner debug s) := by
  unfold State.beginChange
  extract_lets +onlyGivenNames s1
  have h1 : Evolves F σ s1 := hs.wipe
  clear_value s1
  extract_lets +onlyGivenNames s2 s3
  have h3 : Evolves F σ s3 := by
    refine Evolves.setOwner ?_
    refine Evolves.set_trust ?_ ⟨rfl, rfl, rfl⟩
    exact h1
  clear_value s3
  refine Evolves.set_trust_mbx ?_ ⟨rfl, rfl, rfl⟩
  exact h3

theorem execOwnerChangeDone_ran {F : Part → Bool} [MayTele F] [MayTrust F] [MayMbx F] {σ : State} {s : State} (hs :
    Evolves F σ s) :
    Ran F σ (execOwnerChangeDone s) := by
  unfold execOwnerChangeDone
  split
  · refine Ran.next ?_
    exact hs
  · extract_lets +onlyGivenNames s1
    have h1 : Evolves F σ s1 := hs.restartService
    clear_value s1
    extract_lets +onlyGivenNames s2 s3
    have h3 : Evolves F σ s3 := h1.set_mbx
    clear_value s3
    refine Ran.next ?_
    refine Evolves.set_tele_trust ?_ ⟨rfl, rfl, rfl⟩
    exact h3

theorem Evolves.mbxResult {F : Part → Bool} [MayMbx F] {σ : State} {code : Nat} {s : State} (hs : Evolves F σ s) :
    Evolves F σ (State.mbxResult code s) := by
  unfold State.mbxResult
  exact hs.set_mbx

theorem Evolves.mbxOut {F : Part → Bool} [MayMbx F] {σ : State} {out : List Byte} {s : State} (hs : Evolves F σ s) :
    Evolves F σ (State.mbxOut out s) := by
  unfold State.mbxOut
  exact hs.set_mbx

theorem Evolves.mailbox {F : Part → Bool} [Raises F] [MayReadLatch F] [MayMbx F] {σ : State} {q : Requester} {cmd :
    Nat} {run : State → State} {s : State}
    (hs : Evolves F σ s) (hf : ∀ u, Evolves F σ u → Evolves F σ (run u)) : Evolves F σ (State.mailbox q cmd run s) :=
    by
  unfold State.mailbox
  extract_lets +onlyGivenNames s1
  have h1 : Evolves F σ s1 := hs.unlatch
  clear_value s1
  refine Evolves.ite h1 (Evolves.ite (Evolves.ite h1 h1.denied) (Evolves.ite (Evolves.ite h1 h1.discard) ?_))
  extract_lets +onlyGivenNames m s2
  have h2 : Evolves F σ s2 := h1.set_mbx
  clear_value s2
  exact Evolves.ite h2.mbxResult (hf s2 h2)

theorem Evolves.runOwnerChange {F : Part → Bool} [MayFreeCount F] [MayMode F] [MayTele F] [MayPsets F] [MayPrks F] [MayMem F]
    [MayLinePoison F] [MayHbm F] [MayLink F] [MayTrust F] [MayMbx F] [MayBodkin F] [MayCvus F] [MayTVregs F]
    [MayTMarks F] [MayTProgram F] [MayTQueues F] {σ : State} {s : State} (hs : Evolves F σ s) :
    Evolves F σ (State.runOwnerChange s) := by
  unfold State.runOwnerChange
  refine Evolves.ite ?_ ?_
  · exact hs.beginChange
  · exact hs.mbxResult

theorem Evolves.runDebugNonce {F : Part → Bool} [MayFreeCount F] [MayTrust F] [MayMbx F] {σ : State} {s : State} (hs
    : Evolves F σ s) :
    Evolves F σ (State.runDebugNonce s) := by
  unfold State.runDebugNonce
  extract_lets +onlyGivenNames v1
  clear_value v1
  refine Evolves.mbxOut ?_
  refine Evolves.set_freeCount_trust ?_ ⟨rfl, rfl, rfl⟩
  exact hs

theorem Evolves.runDebugUnlock {F : Part → Bool} [MayFreeCount F] [MayMode F] [MayTele F] [MayPsets F] [MayPrks F] [MayMem F]
    [MayLinePoison F] [MayHbm F] [MayLink F] [MayTrust F] [MayMbx F] [MayBodkin F] [MayCvus F] [MayTVregs F]
    [MayTMarks F] [MayTProgram F] [MayTQueues F] {σ : State} {s : State} (hs : Evolves F σ s) :
    Evolves F σ (State.runDebugUnlock s) := by
  unfold State.runDebugUnlock
  refine Evolves.ite ?_ ?_
  · exact hs.mbxResult
  · extract_lets +onlyGivenNames v1
    clear_value v1
    extract_lets +onlyGivenNames s2 s3
    have h3 : Evolves F σ s3 := by
      refine Evolves.set_trust ?_ ⟨rfl, rfl, rfl⟩
      exact hs
    clear_value s3
    refine Evolves.ite ?_ ?_
    · exact h3.beginChange
    · exact h3.mbxResult

theorem Evolves.runSvnCommit {F : Part → Bool} [MayTrust F] [MayMbx F] [MayFuses F] {σ : State} {blown : Bool} {s :
    State} (hs : Evolves F σ s) :
    Evolves F σ (State.runSvnCommit blown s) := by
  unfold State.runSvnCommit
  refine Evolves.ite hs.mbxResult (Evolves.ite hs.mbxResult ?_)
  extract_lets t svn low t'
  have h1 : Evolves F σ { s with trust := t' } := by
    refine hs.set_fuses ⟨?_, ?_, ?_⟩
    · change s.trust.svnTrusted ≤ svn s.trust.trusted s.trust.svnTrusted
      unfold svn
      split
      · exact Nat.le_max_left _ _
      · exact Nat.le_refl _
    · change s.trust.svnService ≤ svn s.trust.service s.trust.svnService
      unfold svn
      split
      · exact Nat.le_max_left _ _
      · exact Nat.le_refl _
    · change s.trust.revoked ||| (s.trust.revoked ||| BitVec.ofNat 4 low) = s.trust.revoked ||| BitVec.ofNat 4 low
      rw [← BitVec.or_assoc, BitVec.or_self]
  exact h1.mbxOut

theorem Evolves.runIdentity {F : Part → Bool} [MayMbx F] {σ : State} {s : State} (hs : Evolves F σ s) :
    Evolves F σ (State.runIdentity s) := by
  unfold State.runIdentity
  exact hs.mbxOut

theorem execOwnerChange_ran {F : Part → Bool} [Raises F] [MayFreeCount F] [MayReadLatch F] [MayMode F] [MayPsets F] [MayPrks F]
    [MayMem F] [MayLinePoison F] [MayLink F] [MayTrust F] [MayMbx F] [MayBodkin F] [MayCvus F] [MayTVregs F]
    [MayTMarks F] [MayTProgram F] [MayTQueues F] {σ : State} {q : Requester} {s : State} (hs : Evolves F σ s) :
    Ran F σ (execOwnerChange q s) := by
  unfold execOwnerChange
  refine Ran.next ?_
  refine Evolves.mailbox ?_ ?_
  · exact hs
  · intro x1 h2
    exact h2.runOwnerChange

theorem execDebugNonce_ran {F : Part → Bool} [Raises F] [MayFreeCount F] [MayReadLatch F] [MayTrust F] [MayMbx F] {σ
    : State} {q : Requester} {s : State} (hs : Evolves F σ s) :
    Ran F σ (execDebugNonce q s) := by
  unfold execDebugNonce
  refine Ran.next ?_
  refine Evolves.mailbox ?_ ?_
  · exact hs
  · intro x1 h2
    exact h2.runDebugNonce

theorem execDebugUnlock_ran {F : Part → Bool} [Raises F] [MayFreeCount F] [MayReadLatch F] [MayMode F] [MayPsets F] [MayPrks F]
    [MayMem F] [MayLinePoison F] [MayLink F] [MayTrust F] [MayMbx F] [MayBodkin F] [MayCvus F] [MayTVregs F]
    [MayTMarks F] [MayTProgram F] [MayTQueues F] {σ : State} {q : Requester} {s : State} (hs : Evolves F σ s) :
    Ran F σ (execDebugUnlock q s) := by
  unfold execDebugUnlock
  refine Ran.next ?_
  refine Evolves.mailbox ?_ ?_
  · exact hs
  · intro x1 h2
    exact h2.runDebugUnlock

theorem execSvnCommit_ran {F : Part → Bool} [Raises F] [MayReadLatch F] [MayTrust F] [MayMbx F] [MayFuses F] {σ :
    State} {q : Requester} {blown : Bool} {s : State} (hs : Evolves F σ s) :
    Ran F σ (execSvnCommit q blown s) := by
  unfold execSvnCommit
  refine Ran.next ?_
  refine Evolves.mailbox ?_ ?_
  · exact hs
  · intro x1 h2
    exact h2.runSvnCommit

theorem execIdentity_ran {F : Part → Bool} [Raises F] [MayReadLatch F] [MayMbx F] {σ : State} {q : Requester} {s :
    State} (hs : Evolves F σ s) :
    Ran F σ (execIdentity q s) := by
  unfold execIdentity
  refine Ran.next ?_
  refine Evolves.mailbox ?_ ?_
  · exact hs
  · intro x1 h2
    exact h2.runIdentity

theorem execMailboxBadCmd_ran {F : Part → Bool} [Raises F] [MayReadLatch F] [MayMbx F] {σ : State} {q : Requester}
    {cmd : Nat} {s : State} (hs : Evolves F σ s) :
    Ran F σ (execMailboxBadCmd q cmd s) := by
  unfold execMailboxBadCmd
  split
  · refine Ran.next ?_
    exact hs
  · refine Ran.next ?_
    refine Evolves.mailbox ?_ ?_
    · exact hs
    · intro x1 h2
      exact h2.mbxResult

theorem Evolves.mailboxGo {F : Part → Bool} [Raises F] [MayFreeCount F] [MayReadLatch F] [MayMode F] [MayPsets F]
    [MayPrks F] [MayMem F] [MayLinePoison F] [MayLink F] [MayTrust F] [MayMbx F] [MayBodkin F] [MayCvus F]
    [MayTVregs F] [MayTMarks F] [MayTProgram F] [MayTQueues F] [MayFuses F] {σ : State} {q : Requester} {cmd : Nat} {s : State}
    (hs : Evolves F σ s) :
    Evolves F σ (State.mailboxGo q cmd s) := by
  unfold State.mailboxGo
  split
  · refine Evolves.mailbox ?_ ?_
    · exact hs
    · intro x1 h2
      exact h2.runOwnerChange
  · refine Evolves.mailbox ?_ ?_
    · exact hs
    · intro x3 h4
      exact h4.runDebugNonce
  · refine Evolves.mailbox ?_ ?_
    · exact hs
    · intro x5 h6
      exact h6.runDebugUnlock
  · refine Evolves.mailbox ?_ ?_
    · exact hs.set_freeCount
    · intro x7 h8
      exact h8.runSvnCommit
  · refine Evolves.mailbox ?_ ?_
    · exact hs
    · intro x9 h10
      exact h10.runIdentity
  · refine Evolves.mailbox ?_ ?_
    · exact hs
    · intro x11 h12
      exact h12.mbxResult

theorem Evolves.inSession {F : Part → Bool} [MayResp F] [MayTrust F] {σ s : State} {id : Nat} {f : State → State} (hs
    : Evolves F σ s)
    (hf : ∀ u, Evolves F σ u → Evolves F σ (f u)) : Evolves F σ (State.inSession s id f) := by
  unfold State.inSession
  split
  · have h1 : Evolves F σ { s with trust := { s.trust with
        sessions := s.trust.sessions.map (fun x => if x.id == id then { x with lastMessage := s.clock } else x) } } :=
      hs.set_trust (⟨rfl, rfl, rfl⟩)
    exact (hf _ h1).set_resp
  · exact hs.set_resp

theorem State.trust_count (c : Ctr) (i n : Nat) (s : State) : (s.count c i n).trust = s.trust := by
  unfold State.count
  split <;> rfl

theorem Evolves.openSession {F : Part → Bool} [MayResp F] [MayTele F] [MayTrust F] {σ s : State} {heartbeat : Bool}
    (hs : Evolves F σ s) :
    Evolves F σ (State.openSession s heartbeat) := by
  unfold State.openSession
  split
  · have h1 : Evolves F σ (s.count .spdmSessions 0 1) := hs.count
    have e := State.trust_count .spdmSessions 0 1 s
    exact h1.set_resp_trust ⟨by rw [e], by rw [e], by rw [e]⟩
  · exact hs.set_resp

theorem Evolves.endSession {F : Part → Bool} [MayTrust F] {σ : State} {id : Nat} {s : State} (hs : Evolves F σ s) :
    Evolves F σ (State.endSession id s) := by
  unfold State.endSession
  refine Evolves.set_trust ?_ ⟨rfl, rfl, rfl⟩
  exact hs

theorem execSpdmRequest_ran {F : Part → Bool} [MayFreeCount F] [MayResp F] [MayTele F] [MayLink F] [MayTrust F] {σ : State} {r :
    SpdmRequest} {s : State} (hs : Evolves F σ s) :
    Ran F σ (execSpdmRequest r s) := by
  unfold execSpdmRequest
  split
  · exact Ran.next hs
  · split
    · exact Ran.next hs.set_resp
    · split
      · exact Ran.next hs.set_resp
      · extract_lets say free sign
        have hsay : ∀ x, Ran F σ (say x) := fun x => Ran.next hs.set_resp
        have hsign : ∀ x, Ran F σ (sign x) := fun x =>
          Ran.next ((hs.set_resp (x := .spdm x)).set_freeCount (x := free + 1))
        clear_value say sign
        split
        all_goals first
          | exact hsay _
          | exact Ran.next (hs.inSession fun u hu => hu)
          | exact Ran.next (hs.inSession fun u hu => hu.set_link)
          | exact Ran.next (hs.inSession fun u hu => hu.endSession)
          | skip
        all_goals split
        all_goals first
          | exact hsay _
          | exact hsign _
          | exact Ran.next hs.openSession

theorem execSpdmHeartbeatTimeout_ran {F : Part → Bool} [MayTrust F] {σ : State} {id : Nat} {s : State} (hs : Evolves
    F σ s) :
    Ran F σ (execSpdmHeartbeatTimeout id s) := by
  unfold execSpdmHeartbeatTimeout
  split
  · refine Ran.next ?_
    exact hs.endSession
  · refine Ran.next ?_
    exact hs

end Sys2Proof.Machine
end

