-- ==== Sys2Proof/Laws/EvStartup.lean ====
section
/-!
SUPPORT. What the operations of Machine/Startup.lean keep (Laws/Evolves.lean), one lemma for each.
-/
namespace Sys2Proof.Machine

theorem may_all {F : Part → Bool} [MayAll F] (p : Part) (hp : p ≠ .fuses) : F p = true := by
  cases p
  case fuses => exact absurd rfl hp
  case clock => exact MayClock.mayClock
  case freeCount => exact MayFreeCount.mayFreeCount
  case resp => exact MayResp.mayResp
  case msix => exact MayMsix.mayMsix
  case pageRequests => exact MayPageRequests.mayPageRequests
  case sel => exact MaySel.maySel
  case readLatch => exact MayReadLatch.mayReadLatch
  case lowHeld => exact MayLowHeld.mayLowHeld
  case mode => exact MayMode.mayMode
  case wdog => exact MayWdog.mayWdog
  case cancelTag => exact MayCancelTag.mayCancelTag
  case cancelRing => exact MayCancelRing.mayCancelRing
  case cancelResult => exact MayCancelResult.mayCancelResult
  case jobAge => exact MayJobAge.mayJobAge
  case halt => exact MayHalt.mayHalt
  case telemSel => exact MayTelemSel.mayTelemSel
  case tele => exact MayTele.mayTele
  case psetLoader => exact MayPsetLoader.mayPsetLoader
  case psets => exact MayPsets.mayPsets
  case prkLoader => exact MayPrkLoader.mayPrkLoader
  case prks => exact MayPrks.mayPrks
  case rings => exact MayRings.mayRings
  case evq => exact MayEvq.mayEvq
  case rrNext => exact MayRrNext.mayRrNext
  case jobs => exact MayJobs.mayJobs
  case groups => exact MayGroups.mayGroups
  case spares => exact MaySpares.maySpares
  case mem => exact MayMem.mayMem
  case linePoison => exact MayLinePoison.mayLinePoison
  case hbm => exact MayHbm.mayHbm
  case poisonRequests => exact MayPoisonRequests.mayPoisonRequests
  case nearScrub => exact MayNearScrub.mayNearScrub
  case link => exact MayLink.mayLink
  case errs => exact MayErrs.mayErrs
  case dies => exact MayDies.mayDies
  case power => exact MayPower.mayPower
  case pins => exact MayPins.mayPins
  case trust => exact MayTrust.mayTrust
  case mbx => exact MayMbx.mayMbx
  case bodkin => exact MayBodkin.mayBodkin
  case cvus => exact MayCvus.mayCvus
  case boot => exact MayBoot.mayBoot
  case jtag => exact MayJtag.mayJtag
  case tVregs => exact MayTVregs.mayTVregs
  case tMarks => exact MayTMarks.mayTMarks
  case tPlace => exact MayTPlace.mayTPlace
  case tProgram => exact MayTProgram.mayTProgram
  case tWindow => exact MayTWindow.mayTWindow
  case tStreams => exact MayTStreams.mayTStreams
  case tQueues => exact MayTQueues.mayTQueues
  case tWindows => exact MayTWindows.mayTWindows
  case tDrop => exact MayTDrop.mayTDrop
  case tTemp => exact MayTTemp.mayTTemp
  case fatal => exact MayFatal.mayFatal

theorem Evolves.moduleReset {F : Part → Bool} [MayAll F] {σ s : State} (hs : Evolves F σ s) :
    Evolves F σ (State.moduleReset s) where
  kept := fun p e => by
    by_cases hp : p = .fuses
    · subst hp
      exact hs.kept .fuses e
    · exact not_may (may_all p hp) e
  mem := fun e => Memory.wf_filter _ (hs.mem e)
  flash := hs.flash
  pending := hs.pending
  clock := hs.clock
  queue := fun _ => Nat.zero_le _
  fuses := hs.fuses.trans ⟨Nat.le_refl _, Nat.le_refl _, by simp [State.moduleReset]⟩
  wcb := fun e => wcbsOk_map (hs.wcb e) fun k u _ => by simp [Stack.wcbOk, Stack.reset, noRepeats]
  jobs := fun _ => rfl

theorem Evolves.awaitRefclk {F : Part → Bool} [MayBoot F] {σ s : State} (hs : Evolves F σ s) :
    Evolves F σ (State.awaitRefclk s) := by
  unfold State.awaitRefclk
  exact hs.set_boot

theorem execRailGood_ran {F : Part → Bool} [MayPins F] [MayBoot F] {σ : State} {rail : Nat} {s : State} (hs : Evolves F σ s) :
    Ran F σ (execRailGood rail s) := by
  unfold execRailGood
  extract_lets +onlyGivenNames v1 v2
  clear_value v1 v2
  exact Ran.next (Evolves.awaitRefclk hs.set_pins)

theorem execRailLost_ran {F : Part → Bool} [MayAll F] {σ : State} {rail : Nat} {s : State} (hs : Evolves F σ s) :
    Ran F σ (execRailLost rail s) := by
  unfold execRailLost
  split
  · exact Ran.next hs
  · extract_lets +onlyGivenNames v1 v2
    clear_value v1 v2
    exact Ran.next (Evolves.moduleReset (Evolves.rampDies hs.set_pins))

theorem execMresetAssert_ran {F : Part → Bool} [MayAll F] {σ : State} {s : State} (hs : Evolves F σ s) :
    Ran F σ (execMresetAssert s) := by
  unfold execMresetAssert
  extract_lets +onlyGivenNames s1
  have h1 : Evolves F σ s1 := hs.rampDies.moduleReset
  clear_value s1
  refine Ran.next ?_
  exact h1.set_pins

theorem execMresetRelease_ran {F : Part → Bool} [MayTele F] [MayPins F] [MayBoot F] [MayJtag F] {σ : State} {s : State}
    (hs : Evolves F σ s) :
    Ran F σ (execMresetRelease s) := by
  unfold execMresetRelease
  split
  · exact Ran.next hs.count
  · exact Ran.next (Evolves.awaitRefclk ((hs.set_pins (x := { s.pins with mreset := false, xspiHighZ := false })).set_jtag
      (x := s.jtag.released)))

theorem execRefclkLost_ran {F : Part → Bool} [Raises F] [MayPower F] [MayBoot F] {σ : State} {s : State} (hs :
    Evolves F σ s) :
    Ran F σ (execRefclkLost s) := by
  unfold execRefclkLost
  extract_lets +onlyGivenNames s1 s2 s3
  have h3 : Evolves F σ s3 := hs.set_power_pins
  clear_value s3
  split
  · refine Ran.next ?_
    exact h3
  · split
    · refine Ran.next ?_
      exact h3.set_power.raise.realert
    · refine Ran.next ?_
      exact h3.awaitRefclk

theorem Evolves.honour {F : Part → Bool} [MayTele F] [MayPins F] {σ : State} {s : State} (hs : Evolves F σ s) :
    Evolves F σ (State.honour s) := by
  unfold State.honour
  refine Evolves.ite ?_ ?_
  · exact hs
  · exact hs.set_pins.count

theorem execThrottleFilter_ran {F : Part → Bool} [MayTele F] [MayPins F] {σ : State} {active : Bool} {s : State} (hs
    : Evolves F σ s) :
    Ran F σ (execThrottleFilter active s) := by
  unfold execThrottleFilter
  extract_lets +onlyGivenNames s1 s2
  have h2 : Evolves F σ s2 := hs.set_pins
  clear_value s2
  split
  · refine Ran.next ?_
    refine Evolves.ite ?_ ?_
    · exact h2.honour
    · exact h2
  · refine Ran.next ?_
    exact h2.honour

theorem execThrottleHonour_ran {F : Part → Bool} [MayClock F] [MayTele F] [MayPins F] {σ : State} {s : State} (hs :
    Evolves F σ s) :
    Ran F σ (execThrottleHonour s) := by
  unfold execThrottleHonour
  split
  · refine Ran.next ?_
    exact hs.until.honour
  · refine Ran.next ?_
    exact hs.honour

theorem execStartupBegin_ran {F : Part → Bool} [MayClock F] [MayTele F] [MayPower F] [MayPins F] [MayBoot F] {σ :
    State} {s : State} (hs : Evolves F σ s) :
    Ran F σ (execStartupBegin s) := by
  unfold execStartupBegin
  split
  · refine Ran.next ?_
    exact hs
  · extract_lets +onlyGivenNames s1
    have h1 : Evolves F σ s1 := hs.until.count
    clear_value s1
    refine Ran.next ?_
    exact h1.set_power_pins_boot

theorem Evolves.enterStage {F : Part → Bool} [MayBoot F] {σ : State} {k : Nat} {s : State} (hs : Evolves F σ s) :
    Evolves F σ (State.enterStage k s) := by
  unfold State.enterStage
  exact hs.set_boot

theorem Evolves.stopStartup {F : Part → Bool} [MayPins F] [MayBoot F] {σ : State} {code detail : Nat} {s : State} (hs
    : Evolves F σ s) :
    Evolves F σ (State.stopStartup code detail s) := by
  unfold State.stopStartup
  exact hs.set_boot.realert

theorem execStageRom_ran {F : Part → Bool} [MayPower F] [MayPins F] [MayBoot F] {σ : State} {badFuseRow : Option Nat}
    {s : State} (hs : Evolves F σ s) :
    Ran F σ (execStageRom badFuseRow s) := by
  unfold execStageRom
  split
  · refine Ran.next ?_
    exact hs
  · split
    · refine Ran.next ?_
      exact hs.stopStartup
    · refine Ran.next ?_
      exact hs.set_power.enterStage

theorem Evolves.bootResult {F : Part → Bool} [MayBoot F] {σ : State} {code source : Nat} {s : State} (hs : Evolves F
    σ s) :
    Evolves F σ (State.bootResult code source s) := by
  unfold State.bootResult
  exact hs.set_boot

theorem Evolves.runTrusted {F : Part → Bool} [MayTrust F] [MayBoot F] {σ : State} {m : List Byte} {s : State} (hs :
    Evolves F σ s) :
    Evolves F σ (State.runTrusted m s) := by
  unfold State.runTrusted
  extract_lets +onlyGivenNames v1
  clear_value v1
  refine Evolves.enterStage (hs.set_trust ⟨?_, ?_, ?_⟩)
  all_goals
    unfold Trust.layer0
    split <;> rfl

theorem Evolves.runService {F : Part → Bool} [MayFreeCount F] [MayTrust F] [MayBoot F] {σ : State} {m : List Byte}
    {s : State} (hs : Evolves F σ s) :
    Evolves F σ (State.runService m s) := by
  unfold State.runService
  refine Evolves.enterStage ?_
  refine Evolves.startService ?_
  refine Evolves.reidentify ?_
  refine Evolves.set_trust ?_ ⟨rfl, rfl, rfl⟩
  exact hs

theorem Evolves.loadStage {F : Part → Bool} [MayBoot F] {σ : State} {kind : Nat} {run : List Byte → State → State} {s :
    State}
    (hs : Evolves F σ s) (hf : ∀ i u, Evolves F σ u → Evolves F σ (run i u)) :
    Evolves F σ (State.loadStage kind run s) := by
  unfold State.loadStage
  extract_lets +onlyGivenNames r s1
  have h1 : Evolves F σ s1 := hs.bootResult
  clear_value r s1
  split
  · exact hf _ _ h1
  · exact h1.set_boot

theorem execStageTrusted_ran {F : Part → Bool} [MayTrust F] [MayBoot F] {σ : State} {s : State} (hs : Evolves F σ s) :
    Ran F σ (execStageTrusted s) := by
  unfold execStageTrusted
  split
  · refine Ran.next ?_
    refine Evolves.loadStage ?_ ?_
    · exact hs
    · intro x1 x2 h3
      exact h3.runTrusted
  · refine Ran.next ?_
    exact hs

theorem execStageService_ran {F : Part → Bool} [MayFreeCount F] [MayTrust F] [MayBoot F] {σ : State} {s : State} (hs : Evolves F σ s) :
    Ran F σ (execStageService s) := by
  unfold execStageService
  split
  · refine Ran.next ?_
    refine Evolves.loadStage ?_ ?_
    · exact hs
    · intro x1 x2 h3
      exact h3.runService
  · refine Ran.next ?_
    exact hs

theorem Evolves.repairStacks {F : Part → Bool} [MayTele F] [MayHbm F] [MayPins F] [MayBoot F] {σ : State} {l : List
    (Nat × StackReport)} {s : State} (hs : Evolves F σ s) :
    Evolves F σ (State.repairStacks l s) := by
  induction l generalizing s with
  | nil => exact hs.enterStage
  | cons p l ih =>
    unfold State.repairStacks
    extract_lets +onlyGivenNames s1
    have h1 : Evolves F σ s1 := by
      refine hs.mapStack fun u => ?_
      unfold Stack.repaired
      split
      · rfl
      · split <;> rfl
    clear_value s1
    have h2 := h1.count (c := .hbmSoftRepairs) (i := 0) (n := (s1.stack p.1).soft)
    exact Evolves.ite h2.stopStartup (Evolves.ite h2.stopStartup (ih h2))

theorem execStageHbm_ran {F : Part → Bool} [MayTele F] [MayHbm F] [MayPins F] [MayBoot F] {σ : State} {reports : List
    StackReport} {s : State} (hs : Evolves F σ s) :
    Ran F σ (execStageHbm reports s) := by
  unfold execStageHbm
  split
  · refine Ran.next ?_
    exact hs.repairStacks
  · refine Ran.next ?_
    exact hs

theorem Evolves.assignSites {F : Part → Bool} [MaySpares F] [MayTPlace F] {σ s : State} {failing : List (List Nat)}
    (hs : Evolves F σ s) :
    Evolves F σ (State.assignSites failing s) :=
  hs.set_tiles_spares (TKept.build fun _ => TKept.only_tPlace rfl)

theorem execStageTiles_ran {F : Part → Bool} [MaySpares F] [MayPins F] [MayBoot F] [MayTPlace F] {σ : State} {failing
    : List (List Nat)} {bridge : Option Nat} {s : State} (hs : Evolves F σ s) :
    Ran F σ (execStageTiles failing bridge s) := by
  unfold execStageTiles
  split
  · refine Ran.next ?_
    exact hs
  · split
    · refine Ran.next ?_
      exact hs.stopStartup
    · split
      · refine Ran.next ?_
        exact hs.stopStartup
      · refine Ran.next ?_
        exact hs.assignSites.enterStage

theorem execStageWipe_ran {F : Part → Bool} [MayFreeCount F] [MayMode F] [MayTele F] [MayPsets F] [MayPrks F] [MayMem F]
    [MayLinePoison F] [MayHbm F] [MayLink F] [MayTrust F] [MayBodkin F] [MayCvus F] [MayBoot F] [MayTVregs F]
    [MayTMarks F] [MayTProgram F] [MayTQueues F] {σ : State} {s : State} (hs : Evolves F σ s) :
    Ran F σ (execStageWipe s) := by
  unfold execStageWipe
  split
  · refine Ran.next ?_
    exact hs
  · refine Ran.next ?_
    exact hs.wipe.setOwner.enterStage

theorem execStageUcie_ran {F : Part → Bool} [Stores F] [MayMsix F] [MayEvq F] [MayLink F] [MayPins F] [MayBoot F] {σ
    : State} {a b : Bool} {repaired : Nat} {s : State} (hs : Evolves F σ s) :
    Ran F σ (execStageUcie a b repaired s) := by
  unfold execStageUcie
  split
  · refine Ran.next ?_
    exact hs
  · split
    · refine Ran.next ?_
      exact hs.stopStartup
    · refine Ran.next ?_
      exact hs.trained.enterStage

theorem execStageCxl_ran {F : Part → Bool} [MayTele F] [MayBoot F] {σ : State} {s : State} (hs : Evolves F σ s) :
    Ran F σ (execStageCxl s) := by
  unfold execStageCxl
  split
  · refine Ran.next ?_
    exact hs
  · refine Ran.next ?_
    extract_lets +onlyGivenNames s1
    have h1 : Evolves F σ s1 := hs.enterStage
    clear_value s1
    exact h1.set_tele

theorem Evolves.checkImage {F : Part → Bool} [MayFreeCount F] [MayTrust F] [MayBoot F] {σ : State} {img : List Byte} {s : State} (hs :
    Evolves F σ s) :
    Evolves F σ (State.checkImage img s) := by
  unfold State.checkImage
  extract_lets +onlyGivenNames v1 v2
  clear_value v1 v2
  extract_lets +onlyGivenNames s3 s4
  have h4 : Evolves F σ s4 := hs.set_boot
  clear_value s4
  refine Evolves.ite ?_ ?_
  · exact h4
  · extract_lets +onlyGivenNames s5 s6
    have h6 : Evolves F σ s6 := h4.set_boot
    clear_value s6
    refine Evolves.ite ?_ ?_
    · exact h6.runTrusted
    · exact h6.runService

theorem Evolves.bootAppend {F : Part → Bool} [MayFreeCount F] [MayTrust F] [MayBoot F] {σ : State} {got : List Byte} {s : State} (hs :
    Evolves F σ s) :
    Evolves F σ (State.bootAppend got s) := by
  unfold State.bootAppend
  extract_lets +onlyGivenNames v1 v2
  clear_value v1 v2
  extract_lets +onlyGivenNames s3 s4
  have h4 : Evolves F σ s4 := hs.set_boot
  clear_value s4
  refine Evolves.ite ?_ ?_
  · exact h4.checkImage
  · exact h4

theorem Evolves.writeBootCtrl {F : Part → Bool} [Raises F] [MayFreeCount F] [MayTrust F] [MayBoot F] {σ : State} {q : Requester} {v :
    Nat} {s : State} (hs : Evolves F σ s) :
    Evolves F σ (State.writeBootCtrl q v s) := by
  unfold State.writeBootCtrl
  refine Evolves.ite hs.discard ?_
  extract_lets +onlyGivenNames p1 s1
  have h1 : Evolves F σ s1 := hs.set_boot
  clear_value p1 s1
  extract_lets +onlyGivenNames p2 s2
  have h2 : Evolves F σ s2 := by
    refine Evolves.ite ?_ ?_
    · exact h1.set_boot
    · exact h1
  clear_value p2 s2
  extract_lets +onlyGivenNames p3 s3
  have h3 : Evolves F σ s3 := by
    refine Evolves.ite ?_ ?_
    · exact h2.set_boot
    · exact h2
  clear_value p3 s3
  refine Evolves.ite ?_ ?_
  · exact h3.bootAppend
  · exact h3

theorem execBootStart_ran {F : Part → Bool} [Raises F] [MayFreeCount F] [MayReadLatch F] [MayTrust F] [MayBoot F] {σ : State} {kind :
    Nat} {s : State} (hs : Evolves F σ s) :
    Ran F σ (execBootStart kind s) := by
  unfold execBootStart
  refine Ran.next ?_
  refine Evolves.gated ?_ ?_
  · exact hs.unlatch
  · intro x1 h2
    exact h2.writeBootCtrl

theorem execBootPush_ran {F : Part → Bool} [Raises F] [MayFreeCount F] [MayReadLatch F] [MayTrust F] [MayBoot F] {σ : State} {s :
    State} (hs : Evolves F σ s) :
    Ran F σ (execBootPush s) := by
  unfold execBootPush
  refine Ran.next ?_
  refine Evolves.gated ?_ ?_
  · exact hs.unlatch
  · intro x1 h2
    exact h2.writeBootCtrl

theorem execBootAbort_ran {F : Part → Bool} [Raises F] [MayFreeCount F] [MayReadLatch F] [MayTrust F] [MayBoot F] {σ : State} {s :
    State} (hs : Evolves F σ s) :
    Ran F σ (execBootAbort s) := by
  unfold execBootAbort
  refine Ran.next ?_
  refine Evolves.gated ?_ ?_
  · exact hs.unlatch
  · intro x1 h2
    exact h2.writeBootCtrl

end Sys2Proof.Machine
end

