-- ==== Sys2Proof/Laws/EvStreamer.lean ====
section
/-!
SUPPORT. What the operations of Machine/Streamer.lean keep (Laws/Evolves.lean), one lemma for each.
-/
namespace Sys2Proof.Machine

theorem strmAddr_aligned (k : Nat) (l : Int) : strmAddr k l % 64 = 0 := by
  unfold strmAddr stackToDevice
  extract_lets base r
  have hb : base % 64 = 0 := by omega
  clear_value base
  split <;> omega

theorem Evolves.strmGo {F : Part → Bool} [Stores F] [Raises F] [MayPower F] {σ : State} {q : Requester} {k : Nat} {op
    : StrmOp} {pattern : Nat} {value : Nat}
    {s : State} (hs : Evolves F σ s) :
    Evolves F σ (State.strmGo q k op pattern value s) := by
  unfold State.strmGo
  refine Evolves.ite ?_ ?_
  · exact hs.discard
  · extract_lets +onlyGivenNames s1
    have h1 : Evolves F σ s1 := Evolves.mapStack hs (fun _ => rfl)
    clear_value s1
    extract_lets +onlyGivenNames v2 v3
    clear_value v2 v3
    refine Evolves.ite ?_ ?_
    · exact Evolves.mapStack h1 (fun _ => rfl)
    · extract_lets +onlyGivenNames v4
      clear_value v4
      extract_lets +onlyGivenNames v5
      clear_value v5
      extract_lets +onlyGivenNames s6
      have h6 : Evolves F σ s6 := by
        refine Evolves.ite ?_ ?_
        · refine Evolves.foldl ?_ ?_
          · exact h1
          · intro x7 x8 h9
            refine Evolves.acceptLine ?_ ?_ ?_
            · exact h9
            · exact strmAddr_aligned _ _
            · decide
        · exact h1
      clear_value s6
      extract_lets +onlyGivenNames v10
      clear_value v10
      exact Evolves.mapStack (Evolves.askService h6) (fun _ => rfl)

theorem Evolves.strmCommand {F : Part → Bool} [Stores F] [Raises F] [MayReadLatch F] [MayPower F] {σ : State} {q :
    Requester} {op : StrmOp} {pattern : Nat} {s : State} (hs : Evolves F σ s) :
    Evolves F σ (State.strmCommand q op pattern s) := by
  unfold State.strmCommand
  refine Evolves.gated ?_ ?_
  · exact hs.unlatch
  · intro x1 h2
    extract_lets +onlyGivenNames v3
    clear_value v3
    refine Evolves.ite ?_ ?_
    · exact h2.strmGo
    · exact h2

theorem execStrmReadCheck_ran {F : Part → Bool} [Stores F] [Raises F] [MayReadLatch F] [MayPower F] {σ : State} {q :
    Requester} {pattern : Nat} {s : State} (hs : Evolves F σ s) :
    Ran F σ (execStrmReadCheck q pattern s) := by
  unfold execStrmReadCheck
  refine Ran.next ?_
  exact hs.strmCommand

theorem execStrmFill_ran {F : Part → Bool} [Stores F] [Raises F] [MayReadLatch F] [MayPower F] {σ : State} {q :
    Requester} {pattern : Nat} {s : State} (hs : Evolves F σ s) :
    Ran F σ (execStrmFill q pattern s) := by
  unfold execStrmFill
  refine Ran.next ?_
  exact hs.strmCommand

theorem execStrmCompare_ran {F : Part → Bool} [Stores F] [Raises F] [MayReadLatch F] [MayPower F] {σ : State} {q :
    Requester} {pattern : Nat} {s : State} (hs : Evolves F σ s) :
    Ran F σ (execStrmCompare q pattern s) := by
  unfold execStrmCompare
  refine Ran.next ?_
  exact hs.strmCommand

theorem execStrmRead_ran {F : Part → Bool} [Stores F] [Raises F] [MayReadLatch F] [MayPower F] {σ : State} {q :
    Requester} {pattern : Nat} {s : State} (hs : Evolves F σ s) :
    Ran F σ (execStrmRead q pattern s) := by
  unfold execStrmRead
  refine Ran.next ?_
  exact hs.strmCommand

theorem execStreamerDone_ran {F : Part → Bool} [Raises F] [MayLinePoison F] {σ : State} {k : Nat} {errors : List (Nat
    × ReadError)} {s : State} (hs : Evolves F σ s) :
    Ran F σ (execStreamerDone k errors s) := by
  unfold execStreamerDone
  split
  · refine Ran.next ?_
    exact hs
  · split
    · exact Ran.next hs
    extract_lets +onlyGivenNames s1
    have h1 : Evolves F σ s1 := by
      refine Evolves.ite ?_ ?_
      · exact hs
      · refine Evolves.foldl ?_ ?_
        · exact hs
        · intro x2 x3 h4
          exact h4.lineRead
    clear_value s1
    refine Ran.next ?_
    exact Evolves.mapStack h1 (fun _ => rfl)

end Sys2Proof.Machine
end

