-- ==== Sys2Proof/Laws/EvRegisters.lean ====
section
/-!
SUPPORT. What the operations of Machine/Registers.lean keep (Laws/Evolves.lean), one lemma for each.
-/
namespace Sys2Proof.Machine

theorem execReg64LowRead_ran {F : Part → Bool} [Raises F] [MayResp F] [MayReadLatch F] {σ : State} {q : Requester} {r
    : RegRead} {s : State} (hs : Evolves F σ s) :
    Ran F σ (execReg64LowRead q r s) := by
  unfold execReg64LowRead
  extract_lets +onlyGivenNames v1
  clear_value v1
  split
  · refine Ran.next ?_
    exact hs
  · split
    · refine Ran.next ?_
      extract_lets +onlyGivenNames s2
      have h2 : Evolves F σ s2 := hs.unlatch
      clear_value s2
      exact h2.set_resp
    · split
      · refine Ran.next ?_
        extract_lets +onlyGivenNames s3
        have h3 : Evolves F σ s3 := hs.unlatch.denied
        clear_value s3
        exact h3.set_resp
      · extract_lets +onlyGivenNames s4
        have h4 : Evolves F σ s4 := by
          refine Evolves.ite ?_ ?_
          · exact hs
          · exact hs.count
        clear_value s4
        refine Ran.next ?_
        exact h4.set_resp_readLatch

theorem Evolves.holdLow {F : Part → Bool} [MayLowHeld F] {σ : State} {a v : Nat} {s : State} (hs : Evolves F σ s) :
    Evolves F σ (State.holdLow a v s) := by
  unfold State.holdLow
  exact hs.set_lowHeld

theorem Evolves.setRing {F : Part → Bool} [Raises F] [MayRings F] {σ : State} {q : Requester} {a v : Nat} {f : Ring →
    Ring} {s : State} (hs : Evolves F σ s) :
    Evolves F σ (State.setRing q a v f s) := by
  unfold State.setRing
  extract_lets +onlyGivenNames v1
  clear_value v1
  refine Evolves.ite ?_ ?_
  · exact hs.discard
  · exact hs.mapRing

theorem Evolves.setCvu {F : Part → Bool} [Raises F] [MayCvus F] {σ : State} {q : Requester} {a v : Nat} {f : Cvu →
    Cvu} {s : State} (hs : Evolves F σ s) :
    Evolves F σ (State.setCvu q a v f s) := by
  unfold State.setCvu
  refine Evolves.ite ?_ ?_
  · exact hs.discard
  · exact hs.mapCvu

theorem Evolves.write64 {F : Part → Bool} [Raises F] [MayPsetLoader F] [MayPrkLoader F] [MayRings F] [MayEvq F]
    [MayLink F] [MayCvus F] {σ : State} {q : Requester} {a v : Nat} {s : State} (hs : Evolves F σ s) :
    Evolves F σ (State.write64 q a v s) := by
  unfold State.write64
  extract_lets +onlyGivenNames v1
  clear_value v1
  refine Evolves.ite ?_ ?_
  · split
    · exact hs.setCvu
    · exact hs.setCvu
    · exact hs.setCvu
    · exact hs.writeCvuRx
  · split
    · exact hs.set_psetLoader
    · exact hs.set_prkLoader
    · exact hs.writeHdmMap
    · exact hs.setRing
    · exact hs.setRing
    · exact hs.set_evq
    · extract_lets +onlyGivenNames v2
      clear_value v2
      refine Evolves.ite ?_ ?_
      · exact Evolves.mapStack hs (fun _ => rfl)
      · exact hs
    · exact hs

theorem Evolves.commitHigh {F : Part → Bool} [Raises F] [MayFreeCount F] [MayLowHeld F] [MayPsetLoader F]
    [MayPrkLoader F] [MayRings F] [MayEvq F] [MayLink F] [MayCvus F] {σ : State} {q : Requester} {a v : Nat} {s :
    State} (hs : Evolves F σ s) :
    Evolves F σ (State.commitHigh q a v s) := by
  unfold State.commitHigh
  split
  · exact hs.set_lowHeld.write64
  · exact hs.set_freeCount.write64

theorem Evolves.writeMode {F : Part → Bool} [Raises F] [MayMode F] {σ : State} {q : Requester} {v : Nat} {s : State}
    (hs : Evolves F σ s) :
    Evolves F σ (State.writeMode q v s) := by
  unfold State.writeMode
  split
  · exact hs.set_mode
  · exact hs.discard

theorem Evolves.writeCancelCtrl {F : Part → Bool} [Stores F] [Raises F] [MayMsix F] [MayCancelRing F]
    [MayCancelResult F] [MayRings F] [MayGroups F] [MayPoisonRequests F] [MayTVregs F] [MayTProgram F] [MayTWindow F]
    [MayTStreams F] [MayTQueues F] [MayTWindows F] {σ : State} {v : Nat} {s : State} (hs : Evolves F σ s) :
    Evolves F σ (State.writeCancelCtrl v s) := by
  unfold State.writeCancelCtrl
  refine Evolves.ite ?_ ?_
  · exact hs.cancelGo
  · exact hs.set_cancelRing

theorem Evolves.writeMain {F : Part → Bool} [Stores F] [Raises F] [MayMsix F] [MayMode F] [MayWdog F] [MayCancelTag F]
    [MayCancelRing F] [MayCancelResult F] [MayJobAge F] [MayHalt F] [MayPsetLoader F] [MayPrkLoader F] [MayRings F]
    [MayGroups F] [MayPoisonRequests F] [MayLink F] [MayTVregs F] [MayTProgram F] [MayTWindow F] [MayTStreams F]
    [MayTQueues F] [MayTWindows F] {σ : State} {q : Requester} {a v : Nat} {s : State} (hs : Evolves F σ s) :
    Evolves F σ (State.writeMain q a v s) := by
  unfold State.writeMain
  split
  · exact hs.writeMode
  · exact hs.writePsetCtrl
  · exact hs.writePrkCtrl
  · exact hs.set_wdog
  · exact hs.writeHaltCtrl
  · exact hs.set_cancelTag
  · exact hs.writeCancelCtrl
  · exact hs.set_jobAge
  · exact hs.writeLinkCtrl
  · refine Evolves.ite ?_ ?_
    · exact hs
    · exact hs.discard

theorem Evolves.writeRings {F : Part → Bool} [Stores F] [Raises F] [MayMsix F] [MaySel F] [MayRings F] [MayEvq F]
    [MayTProgram F] {σ : State} {q : Requester} {a v : Nat} {s : State} (hs : Evolves F σ s) :
    Evolves F σ (State.writeRings q a v s) := by
  unfold State.writeRings
  split
  · exact hs.mapSelects
  · refine Evolves.ite ?_ ?_
    · exact hs.setRing
    · exact hs.discard
  · refine Evolves.ite ?_ ?_
    · exact hs.setRing
    · exact hs.discard
  · exact hs.writeRingCtrl
  · refine Evolves.ite ?_ ?_
    · exact hs.set_evq
    · exact hs.discard
  · exact hs.set_evq
  · refine Evolves.ite ?_ ?_
    · exact hs
    · exact hs.discard

theorem Evolves.writeTiles {F : Part → Bool} [Stores F] [Raises F] [MaySel F] [MayTWindow F] [MayTStreams F]
    [MayTQueues F] [MayTDrop F] {σ : State} {q : Requester} {a v : Nat} {s : State} (hs : Evolves F σ s) :
    Evolves F σ (State.writeTiles q a v s) := by
  unfold State.writeTiles
  extract_lets +onlyGivenNames v1
  clear_value v1
  refine Evolves.ite ?_ ?_
  · exact hs.mapSelects
  · refine Evolves.ite ?_ ?_
    · exact hs.mapSelects
    · refine Evolves.ite ?_ ?_
      · exact hs.discard
      · refine Evolves.ite ?_ ?_
        · exact hs
        · split
          · refine Evolves.ite ?_ ?_
            · exact hs.mapStream
            · exact hs.discard
          · refine Evolves.ite ?_ ?_
            · exact hs.streamResume
            · exact hs
          · refine Evolves.ite ?_ ?_
            · exact hs.shqReset
            · exact hs
          · exact Evolves.mapTile hs (fun _ => TKept.only_tDrop rfl)
          · exact hs

theorem Evolves.writeStacks {F : Part → Bool} [Stores F] [Raises F] [MaySel F] [MayPower F] {σ : State} {q :
    Requester} {a v : Nat} {s : State} (hs : Evolves F σ s) :
    Evolves F σ (State.writeStacks q a v s) := by
  unfold State.writeStacks
  extract_lets +onlyGivenNames v1
  clear_value v1
  refine Evolves.ite ?_ ?_
  · exact hs.mapSelects
  · refine Evolves.ite ?_ ?_
    · exact hs.discard
    · refine Evolves.ite ?_ ?_
      · exact hs
      · split
        · refine Evolves.ite ?_ ?_
          · exact hs.discard
          · exact Evolves.mapStack hs (fun _ => rfl)
        · exact Evolves.mapStack hs (fun _ => rfl)
        · exact Evolves.mapStack hs (fun _ => rfl)
        · refine Evolves.ite ?_ ?_
          · exact hs.strmGo
          · exact Evolves.mapStack hs (fun _ => rfl)
        · exact Evolves.mapStack hs (fun _ => rfl)
        · exact hs

theorem Evolves.writeDie {F : Part → Bool} [Raises F] {σ : State} {q : Requester} {a v : Nat} {s : State} (hs :
    Evolves F σ s) :
    Evolves F σ (State.writeDie q a v s) := by
  unfold State.writeDie
  extract_lets +onlyGivenNames v1
  clear_value v1
  refine Evolves.ite ?_ ?_
  · exact hs
  · split
    · exact hs.mapDie
    · refine Evolves.ite ?_ ?_
      · exact hs.mapDie.realert
      · exact hs
    · refine Evolves.ite ?_ ?_
      · exact hs.mapDie
      · exact hs.discard
    · refine Evolves.ite ?_ ?_
      · exact hs.mapDie
      · exact hs.discard
    · exact hs

theorem Evolves.writeCeil {F : Part → Bool} [Raises F] [MayPower F] {σ : State} {q : Requester} {a v : Nat} {s :
    State} (hs : Evolves F σ s) :
    Evolves F σ (State.writeCeil q a v s) := by
  unfold State.writeCeil
  refine Evolves.ite ?_ ?_
  · exact hs.set_power
  · exact hs.discard

theorem Evolves.writePower {F : Part → Bool} [Raises F] [MaySel F] [MayPower F] {σ : State} {q : Requester} {a v :
    Nat} {s : State} (hs : Evolves F σ s) :
    Evolves F σ (State.writePower q a v s) := by
  unfold State.writePower
  refine Evolves.ite ?_ ?_
  · exact hs.mapSelects
  · refine Evolves.ite ?_ ?_
    · exact hs.writeDie
    · refine Evolves.ite ?_ ?_
      · exact hs.writeCeil
      · split
        · exact hs.writePwrCtrl
        · exact hs.writeClkout
        · refine Evolves.ite ?_ ?_
          · exact hs
          · exact hs.discard

theorem Evolves.writeMailbox {F : Part → Bool} [Raises F] [MayFreeCount F] [MayReadLatch F] [MayMode F] [MayPsets F]
    [MayPrks F] [MayMem F] [MayLinePoison F] [MayLink F] [MayTrust F] [MayMbx F] [MayBodkin F] [MayCvus F]
    [MayTVregs F] [MayTMarks F] [MayTProgram F] [MayTQueues F] [MayFuses F] {σ : State} {q : Requester} {a v : Nat} {s : State}
    (hs : Evolves F σ s) :
    Evolves F σ (State.writeMailbox q a v s) := by
  unfold State.writeMailbox
  refine Evolves.ite ?_ ?_
  · exact hs.discard
  · refine Evolves.ite ?_ ?_
    · exact hs.set_mbx
    · split
      · refine Evolves.ite ?_ ?_
        · exact hs.mailboxGo
        · exact hs.set_mbx
      · exact hs.set_mbx
      · exact hs
      · exact hs.discard

theorem Evolves.writeCvus {F : Part → Bool} [Raises F] [MayCvus F] {σ : State} {q : Requester} {a v : Nat} {s :
    State} (hs : Evolves F σ s) :
    Evolves F σ (State.writeCvus q a v s) := by
  unfold State.writeCvus
  split
  · refine Evolves.ite ?_ ?_
    · exact hs.setCvu
    · exact hs.discard
  · exact hs.setCvu
  · refine Evolves.ite ?_ ?_
    · exact hs.discard
    · exact hs
  · exact hs.discard

theorem Evolves.writeDoorbell {F : Part → Bool} [Raises F] [MayRings F] [MayEvq F] {σ : State} {q : Requester} {a v :
    Nat} {s : State} (hs : Evolves F σ s) :
    Evolves F σ (State.writeDoorbell q a v s) := by
  unfold State.writeDoorbell
  refine Evolves.ite ?_ ?_
  · refine Evolves.ite ?_ ?_
    · exact hs.writeSqDb
    · exact hs.writeCqDb
  · refine Evolves.ite ?_ ?_
    · exact hs.writeEvqDb
    · exact hs.discard

theorem Evolves.writeErrStatus {F : Part → Bool} [MayErrs F] {σ : State} {v : Nat} {s : State} (hs : Evolves F σ s) :
    Evolves F σ (State.writeErrStatus v s) := by
  unfold State.writeErrStatus
  refine Evolves.set_errs ?_ id id
  exact hs

theorem Evolves.writeTelemSel {F : Part → Bool} [MayTelemSel F] {σ : State} {v : Nat} {s : State} (hs : Evolves F σ
    s) :
    Evolves F σ (State.writeTelemSel v s) := by
  unfold State.writeTelemSel
  exact hs.set_telemSel

theorem Evolves.writeTelemCtrl {F : Part → Bool} [MayTele F] {σ : State} {q : Requester} {v : Nat} {s : State} (hs :
    Evolves F σ s) :
    Evolves F σ (State.writeTelemCtrl q v s) := by
  unfold State.writeTelemCtrl
  refine Evolves.ite ?_ ?_
  · exact hs.telemCleared
  · exact hs

theorem Evolves.writeRest {F : Part → Bool} [Raises F] [MayTelemSel F] {σ : State} {q : Requester} {a v : Nat} {s :
    State} (hs : Evolves F σ s) :
    Evolves F σ (State.writeRest q a v s) := by
  unfold State.writeRest
  split
  · exact hs.writeErrStatus
  · exact hs.writeTelemSel
  · exact hs.writeTelemCtrl
  · refine Evolves.ite ?_ ?_
    · exact hs
    · exact hs.discard

theorem Evolves.writeBar0 {F : Part → Bool} [Stores F] [Raises F] [MayFreeCount F] [MayMsix F] [MaySel F]
    [MayReadLatch F] [MayLowHeld F] [MayMode F] [MayWdog F] [MayCancelTag F] [MayCancelRing F] [MayCancelResult F]
    [MayJobAge F] [MayHalt F] [MayTelemSel F] [MayPsetLoader F] [MayPsets F] [MayPrkLoader F] [MayPrks F] [MayRings F]
    [MayEvq F] [MayGroups F] [MayPoisonRequests F] [MayLink F] [MayPower F] [MayTrust F] [MayMbx F] [MayBodkin F]
    [MayCvus F] [MayTVregs F] [MayTProgram F] [MayTWindow F] [MayTStreams F] [MayTQueues F] [MayTWindows F]
    [MayTDrop F] [MayFuses F] {σ : State} {q : Requester} {a v : Nat} {s : State} (hs : Evolves F σ s) :
    Evolves F σ (State.writeBar0 q a v s) := by
  unfold State.writeBar0
  refine Evolves.ite ?_ ?_
  · refine Evolves.ite ?_ ?_
    · exact hs.discard
    · exact hs.holdLow
  · refine Evolves.ite ?_ ?_
    · exact hs.commitHigh
    · refine Evolves.ite ?_ ?_
      · exact hs.writeCvus
      · split
        · exact hs.writeMain
        · exact hs.writeMain
        · exact hs.writeRings
        · exact hs.writeTiles
        · exact hs.writeStacks
        · exact hs.writePower
        · exact hs.writeMailbox
        · exact hs.writeDoorbell
        · exact hs.writeRest

theorem Evolves.writeBootLen {F : Part → Bool} [Raises F] [MayBoot F] {σ : State} {q : Requester} {v : Nat} {s :
    State} (hs : Evolves F σ s) :
    Evolves F σ (State.writeBootLen q v s) := by
  unfold State.writeBootLen
  extract_lets +onlyGivenNames v1
  clear_value v1
  refine Evolves.ite ?_ ?_
  · exact hs.discard
  · exact hs.set_boot

theorem Evolves.writeSideband {F : Part → Bool} [Stores F] [Raises F] [MayFreeCount F] [MayMsix F] [MayHalt F]
    [MayRings F] [MayGroups F] [MayPoisonRequests F] [MayTrust F] [MayBoot F] [MayTVregs F] [MayTProgram F]
    [MayTWindow F] [MayTStreams F] [MayTQueues F] [MayTWindows F] {σ : State} {q : Requester} {a v : Nat} {s : State} (hs : Evolves F σ s) :
    Evolves F σ (State.writeSideband q a v s) := by
  unfold State.writeSideband
  refine Evolves.ite ?_ ?_
  · exact hs.set_boot
  · split
    · exact hs.writeHaltCtrl
    · exact hs.writeBootCtrl
    · exact hs.writeBootLen
    · refine Evolves.ite ?_ ?_
      · exact hs
      · exact hs.discard

theorem execRegWrite_ran {F : Part → Bool} [Stores F] [Raises F] [MayFreeCount F] [MayMsix F] [MaySel F]
    [MayReadLatch F] [MayLowHeld F] [MayMode F] [MayWdog F] [MayCancelTag F] [MayCancelRing F] [MayCancelResult F]
    [MayJobAge F] [MayHalt F] [MayTelemSel F] [MayPsetLoader F] [MayPsets F] [MayPrkLoader F] [MayPrks F] [MayRings F]
    [MayEvq F] [MayGroups F] [MayPoisonRequests F] [MayLink F] [MayPower F] [MayTrust F] [MayMbx F] [MayBodkin F]
    [MayCvus F] [MayBoot F] [MayTVregs F] [MayTProgram F] [MayTWindow F] [MayTStreams F] [MayTQueues F]
    [MayTWindows F] [MayTDrop F] [MayFuses F] {σ : State} {q : Requester} {a size : Nat} {value : DWord} {s : State} (hs : Evolves
    F σ s) :
    Ran F σ (execRegWrite q a size value s) := by
  unfold execRegWrite
  extract_lets +onlyGivenNames s1
  have h1 : Evolves F σ s1 := hs.unlatch
  clear_value s1
  extract_lets +onlyGivenNames v2
  clear_value v2
  split
  · split
    · refine Ran.next ?_
      exact h1.writeBar0
    · refine Ran.next ?_
      exact h1
  · split
    · refine Ran.next ?_
      exact h1
    · split
      · refine Ran.next ?_
        exact h1.discard
      · split
        · refine Ran.next ?_
          exact h1.writeSideband
        · split
          · refine Ran.next ?_
            exact h1.denied
          · refine Ran.next ?_
            exact h1.writeBar0

theorem execModeWrite_ran {F : Part → Bool} [Raises F] [MayReadLatch F] [MayMode F] {σ : State} {q : Requester}
    {value : Word} {s : State} (hs : Evolves F σ s) :
    Ran F σ (execModeWrite q value s) := by
  unfold execModeWrite
  refine Ran.next ?_
  refine Evolves.gated ?_ ?_
  · exact hs.unlatch
  · intro x1 h2
    exact h2.writeMode

theorem execTelemClear_ran {F : Part → Bool} [Raises F] [MayReadLatch F] {σ : State} {q : Requester} {s : State} (hs
    : Evolves F σ s) :
    Ran F σ (execTelemClear q s) := by
  unfold execTelemClear
  refine Ran.next ?_
  refine Evolves.gated ?_ ?_
  · exact hs.unlatch
  · intro x1 h2
    exact h2.writeTelemCtrl

end Sys2Proof.Machine
end

