-- ==== Sys2Proof/Laws/EvTestAccess.lean ====
section
/-!
SUPPORT. What the operations of Machine/TestAccess.lean keep (Laws/Evolves.lean), one lemma for each.
-/
namespace Sys2Proof.Machine

theorem execI3cStatusRead_ran {F : Part → Bool} [MayResp F] [MayPins F] {σ : State} {s : State} (hs : Evolves F σ s) :
    Ran F σ (execI3cStatusRead s) := by
  unfold execI3cStatusRead
  split
  · refine Ran.next ?_
    exact hs.set_resp_pins
  · refine Ran.next ?_
    exact hs

theorem execI3cPrivateWrite_ran {F : Part → Bool} [MayResp F] {σ : State} {y1 : List Byte} {s : State} (hs : Evolves
    F σ s) :
    Ran F σ (execI3cPrivateWrite y1 s) := by
  unfold execI3cPrivateWrite
  refine Ran.next ?_
  exact hs.set_resp

theorem execI3cDynamicAddressAssignment_ran {F : Part → Bool} [MayPins F] {σ : State} {addr : Nat} {s : State} (hs :
    Evolves F σ s) :
    Ran F σ (execI3cDynamicAddressAssignment addr s) := by
  unfold execI3cDynamicAddressAssignment
  split
  · refine Ran.next ?_
    exact hs.set_pins
  · refine Ran.next ?_
    exact hs

theorem Ran.jtagTake {F : Part → Bool} [MayJtag F] {σ : State} {allowed : Bool} {i : JtagInstr} {f : State → State}
    {s : State}
    (hs : Evolves F σ s) (hf : ∀ u, Evolves F σ u → Evolves F σ (f u)) :
    Ran F σ (State.jtagTake s allowed i f) := by
  unfold State.jtagTake
  split
  · exact Ran.next (hf _ hs.set_jtag)
  · exact Ran.next hs.set_jtag

theorem execJtagIdcode_ran {F : Part → Bool} [MayResp F] [MayJtag F] {σ : State} {s : State} (hs : Evolves F σ s) :
    Ran F σ (execJtagIdcode s) := by
  unfold execJtagIdcode
  refine Ran.jtagTake ?_ ?_
  · exact hs
  · intro x1 h2
    exact h2.set_resp

theorem execJtagBypass_ran {F : Part → Bool} [MayJtag F] {σ : State} {s : State} (hs : Evolves F σ s) :
    Ran F σ (execJtagBypass s) := by
  unfold execJtagBypass
  refine Ran.jtagTake ?_ ?_
  · exact hs
  · intro x1 h2
    exact h2.set_jtag

theorem execJtagSamplePreload_ran {F : Part → Bool} [MayFreeCount F] [MayResp F] [MayJtag F] {σ : State} {bits : List Bool} {s : State} (hs :
    Evolves F σ s) :
    Ran F σ (execJtagSamplePreload bits s) := by
  unfold execJtagSamplePreload
  refine Ran.jtagTake ?_ ?_
  · exact hs
  · intro x1 h2
    exact ((h2.set_freeCount (x := x1.freeCount + 1)).set_resp (x := .pins x1.pinLevels)).set_jtag
      (x := { x1.jtag with boundary := boundaryOf bits })

theorem execJtagExtest_ran {F : Part → Bool} [MayJtag F] {σ : State} {bits : List Bool} {s : State} (hs : Evolves F σ
    s) :
    Ran F σ (execJtagExtest bits s) := by
  unfold execJtagExtest
  refine Ran.jtagTake ?_ ?_
  · exact hs
  · intro x1 h2
    exact h2.set_jtag

theorem execJtagIeee1838Access_ran {F : Part → Bool} [MayJtag F] {σ : State} {dieCode : Nat} {s : State} (hs :
    Evolves F σ s) :
    Ran F σ (execJtagIeee1838Access dieCode s) := by
  unfold execJtagIeee1838Access
  refine Ran.jtagTake ?_ ?_
  · exact hs
  · intro x1 h2
    exact h2

theorem execJtagIeee1687Access_ran {F : Part → Bool} [MayJtag F] {σ : State} {network : Nat} {s : State} (hs :
    Evolves F σ s) :
    Ran F σ (execJtagIeee1687Access network s) := by
  unfold execJtagIeee1687Access
  refine Ran.jtagTake ?_ ?_
  · exact hs
  · intro x1 h2
    exact h2

end Sys2Proof.Machine
end

