-- ==== Sys2Proof/Laws/State.lean ====
section
/-!
SUPPORT. One lemma for each field of the state under each plain update, so that no proof unfolds a record update; and
what a table entry reads as after an update of one entry.
-/
namespace Sys2Proof.Machine

variable (s : State)

/-! ## State.mapTile -/

@[simp] theorem State.mapTile_pending (t : Nat) (f : Tile → Tile) : (s.mapTile t f).pending = s.pending := rfl
@[simp] theorem State.mapTile_clock (t : Nat) (f : Tile → Tile) : (s.mapTile t f).clock = s.clock := rfl
@[simp] theorem State.mapTile_freeCount (t : Nat) (f : Tile → Tile) : (s.mapTile t f).freeCount = s.freeCount := rfl
@[simp] theorem State.mapTile_resp (t : Nat) (f : Tile → Tile) : (s.mapTile t f).resp = s.resp := rfl
@[simp] theorem State.mapTile_msix (t : Nat) (f : Tile → Tile) : (s.mapTile t f).msix = s.msix := rfl
@[simp] theorem State.mapTile_pageRequests (t : Nat) (f : Tile → Tile) : (s.mapTile t f).pageRequests =
    s.pageRequests := rfl
@[simp] theorem State.mapTile_sel (t : Nat) (f : Tile → Tile) : (s.mapTile t f).sel = s.sel := rfl
@[simp] theorem State.mapTile_readLatch (t : Nat) (f : Tile → Tile) : (s.mapTile t f).readLatch = s.readLatch := rfl
@[simp] theorem State.mapTile_lowHeld (t : Nat) (f : Tile → Tile) : (s.mapTile t f).lowHeld = s.lowHeld := rfl
@[simp] theorem State.mapTile_mode (t : Nat) (f : Tile → Tile) : (s.mapTile t f).mode = s.mode := rfl
@[simp] theorem State.mapTile_wdog (t : Nat) (f : Tile → Tile) : (s.mapTile t f).wdog = s.wdog := rfl
@[simp] theorem State.mapTile_cancelTag (t : Nat) (f : Tile → Tile) : (s.mapTile t f).cancelTag = s.cancelTag := rfl
@[simp] theorem State.mapTile_cancelRing (t : Nat) (f : Tile → Tile) : (s.mapTile t f).cancelRing =
    s.cancelRing := rfl
@[simp] theorem State.mapTile_cancelResult (t : Nat) (f : Tile → Tile) : (s.mapTile t f).cancelResult =
    s.cancelResult := rfl
@[simp] theorem State.mapTile_jobAge (t : Nat) (f : Tile → Tile) : (s.mapTile t f).jobAge = s.jobAge := rfl
@[simp] theorem State.mapTile_halt (t : Nat) (f : Tile → Tile) : (s.mapTile t f).halt = s.halt := rfl
@[simp] theorem State.mapTile_telemSel (t : Nat) (f : Tile → Tile) : (s.mapTile t f).telemSel = s.telemSel := rfl
@[simp] theorem State.mapTile_tele (t : Nat) (f : Tile → Tile) : (s.mapTile t f).tele = s.tele := rfl
@[simp] theorem State.mapTile_psetLoader (t : Nat) (f : Tile → Tile) : (s.mapTile t f).psetLoader =
    s.psetLoader := rfl
@[simp] theorem State.mapTile_psets (t : Nat) (f : Tile → Tile) : (s.mapTile t f).psets = s.psets := rfl
@[simp] theorem State.mapTile_prkLoader (t : Nat) (f : Tile → Tile) : (s.mapTile t f).prkLoader = s.prkLoader := rfl
@[simp] theorem State.mapTile_prks (t : Nat) (f : Tile → Tile) : (s.mapTile t f).prks = s.prks := rfl
@[simp] theorem State.mapTile_rings (t : Nat) (f : Tile → Tile) : (s.mapTile t f).rings = s.rings := rfl
@[simp] theorem State.mapTile_evq (t : Nat) (f : Tile → Tile) : (s.mapTile t f).evq = s.evq := rfl
@[simp] theorem State.mapTile_rrNext (t : Nat) (f : Tile → Tile) : (s.mapTile t f).rrNext = s.rrNext := rfl
@[simp] theorem State.mapTile_jobs (t : Nat) (f : Tile → Tile) : (s.mapTile t f).jobs = s.jobs := rfl
@[simp] theorem State.mapTile_groups (t : Nat) (f : Tile → Tile) : (s.mapTile t f).groups = s.groups := rfl
@[simp] theorem State.mapTile_tiles (t : Nat) (f : Tile → Tile) : (s.mapTile t f).tiles =
    Tab.put s.tiles t (f (s.tile t)) := rfl
@[simp] theorem State.mapTile_spares (t : Nat) (f : Tile → Tile) : (s.mapTile t f).spares = s.spares := rfl
@[simp] theorem State.mapTile_mem (t : Nat) (f : Tile → Tile) : (s.mapTile t f).mem = s.mem := rfl
@[simp] theorem State.mapTile_linePoison (t : Nat) (f : Tile → Tile) : (s.mapTile t f).linePoison =
    s.linePoison := rfl
@[simp] theorem State.mapTile_hbm (t : Nat) (f : Tile → Tile) : (s.mapTile t f).hbm = s.hbm := rfl
@[simp] theorem State.mapTile_poisonRequests (t : Nat) (f : Tile → Tile) : (s.mapTile t f).poisonRequests =
    s.poisonRequests := rfl
@[simp] theorem State.mapTile_nearScrub (t : Nat) (f : Tile → Tile) : (s.mapTile t f).nearScrub = s.nearScrub := rfl
@[simp] theorem State.mapTile_link (t : Nat) (f : Tile → Tile) : (s.mapTile t f).link = s.link := rfl
@[simp] theorem State.mapTile_errs (t : Nat) (f : Tile → Tile) : (s.mapTile t f).errs = s.errs := rfl
@[simp] theorem State.mapTile_dies (t : Nat) (f : Tile → Tile) : (s.mapTile t f).dies = s.dies := rfl
@[simp] theorem State.mapTile_power (t : Nat) (f : Tile → Tile) : (s.mapTile t f).power = s.power := rfl
@[simp] theorem State.mapTile_pins (t : Nat) (f : Tile → Tile) : (s.mapTile t f).pins = s.pins := rfl
@[simp] theorem State.mapTile_trust (t : Nat) (f : Tile → Tile) : (s.mapTile t f).trust = s.trust := rfl
@[simp] theorem State.mapTile_mbx (t : Nat) (f : Tile → Tile) : (s.mapTile t f).mbx = s.mbx := rfl
@[simp] theorem State.mapTile_bodkin (t : Nat) (f : Tile → Tile) : (s.mapTile t f).bodkin = s.bodkin := rfl
@[simp] theorem State.mapTile_cvus (t : Nat) (f : Tile → Tile) : (s.mapTile t f).cvus = s.cvus := rfl
@[simp] theorem State.mapTile_boot (t : Nat) (f : Tile → Tile) : (s.mapTile t f).boot = s.boot := rfl
@[simp] theorem State.mapTile_flash (t : Nat) (f : Tile → Tile) : (s.mapTile t f).flash = s.flash := rfl
@[simp] theorem State.mapTile_jtag (t : Nat) (f : Tile → Tile) : (s.mapTile t f).jtag = s.jtag := rfl

/-! ## State.mapStack -/

@[simp] theorem State.mapStack_pending (k : Nat) (f : Stack → Stack) : (s.mapStack k f).pending = s.pending := rfl
@[simp] theorem State.mapStack_clock (k : Nat) (f : Stack → Stack) : (s.mapStack k f).clock = s.clock := rfl
@[simp] theorem State.mapStack_freeCount (k : Nat) (f : Stack → Stack) : (s.mapStack k f).freeCount =
    s.freeCount := rfl
@[simp] theorem State.mapStack_resp (k : Nat) (f : Stack → Stack) : (s.mapStack k f).resp = s.resp := rfl
@[simp] theorem State.mapStack_msix (k : Nat) (f : Stack → Stack) : (s.mapStack k f).msix = s.msix := rfl
@[simp] theorem State.mapStack_pageRequests (k : Nat) (f : Stack → Stack) : (s.mapStack k f).pageRequests =
    s.pageRequests := rfl
@[simp] theorem State.mapStack_sel (k : Nat) (f : Stack → Stack) : (s.mapStack k f).sel = s.sel := rfl
@[simp] theorem State.mapStack_readLatch (k : Nat) (f : Stack → Stack) : (s.mapStack k f).readLatch =
    s.readLatch := rfl
@[simp] theorem State.mapStack_lowHeld (k : Nat) (f : Stack → Stack) : (s.mapStack k f).lowHeld = s.lowHeld := rfl
@[simp] theorem State.mapStack_mode (k : Nat) (f : Stack → Stack) : (s.mapStack k f).mode = s.mode := rfl
@[simp] theorem State.mapStack_wdog (k : Nat) (f : Stack → Stack) : (s.mapStack k f).wdog = s.wdog := rfl
@[simp] theorem State.mapStack_cancelTag (k : Nat) (f : Stack → Stack) : (s.mapStack k f).cancelTag =
    s.cancelTag := rfl
@[simp] theorem State.mapStack_cancelRing (k : Nat) (f : Stack → Stack) : (s.mapStack k f).cancelRing =
    s.cancelRing := rfl
@[simp] theorem State.mapStack_cancelResult (k : Nat) (f : Stack → Stack) : (s.mapStack k f).cancelResult =
    s.cancelResult := rfl
@[simp] theorem State.mapStack_jobAge (k : Nat) (f : Stack → Stack) : (s.mapStack k f).jobAge = s.jobAge := rfl
@[simp] theorem State.mapStack_halt (k : Nat) (f : Stack → Stack) : (s.mapStack k f).halt = s.halt := rfl
@[simp] theorem State.mapStack_telemSel (k : Nat) (f : Stack → Stack) : (s.mapStack k f).telemSel = s.telemSel := rfl
@[simp] theorem State.mapStack_tele (k : Nat) (f : Stack → Stack) : (s.mapStack k f).tele = s.tele := rfl
@[simp] theorem State.mapStack_psetLoader (k : Nat) (f : Stack → Stack) : (s.mapStack k f).psetLoader =
    s.psetLoader := rfl
@[simp] theorem State.mapStack_psets (k : Nat) (f : Stack → Stack) : (s.mapStack k f).psets = s.psets := rfl
@[simp] theorem State.mapStack_prkLoader (k : Nat) (f : Stack → Stack) : (s.mapStack k f).prkLoader =
    s.prkLoader := rfl
@[simp] theorem State.mapStack_prks (k : Nat) (f : Stack → Stack) : (s.mapStack k f).prks = s.prks := rfl
@[simp] theorem State.mapStack_rings (k : Nat) (f : Stack → Stack) : (s.mapStack k f).rings = s.rings := rfl
@[simp] theorem State.mapStack_evq (k : Nat) (f : Stack → Stack) : (s.mapStack k f).evq = s.evq := rfl
@[simp] theorem State.mapStack_rrNext (k : Nat) (f : Stack → Stack) : (s.mapStack k f).rrNext = s.rrNext := rfl
@[simp] theorem State.mapStack_jobs (k : Nat) (f : Stack → Stack) : (s.mapStack k f).jobs = s.jobs := rfl
@[simp] theorem State.mapStack_groups (k : Nat) (f : Stack → Stack) : (s.mapStack k f).groups = s.groups := rfl
@[simp] theorem State.mapStack_tiles (k : Nat) (f : Stack → Stack) : (s.mapStack k f).tiles = s.tiles := rfl
@[simp] theorem State.mapStack_spares (k : Nat) (f : Stack → Stack) : (s.mapStack k f).spares = s.spares := rfl
@[simp] theorem State.mapStack_mem (k : Nat) (f : Stack → Stack) : (s.mapStack k f).mem = s.mem := rfl
@[simp] theorem State.mapStack_linePoison (k : Nat) (f : Stack → Stack) : (s.mapStack k f).linePoison =
    s.linePoison := rfl
@[simp] theorem State.mapStack_hbm (k : Nat) (f : Stack → Stack) : (s.mapStack k f).hbm =
    Tab.put s.hbm k (f (s.stack k)) := rfl
@[simp] theorem State.mapStack_poisonRequests (k : Nat) (f : Stack → Stack) : (s.mapStack k f).poisonRequests =
    s.poisonRequests := rfl
@[simp] theorem State.mapStack_nearScrub (k : Nat) (f : Stack → Stack) : (s.mapStack k f).nearScrub =
    s.nearScrub := rfl
@[simp] theorem State.mapStack_link (k : Nat) (f : Stack → Stack) : (s.mapStack k f).link = s.link := rfl
@[simp] theorem State.mapStack_errs (k : Nat) (f : Stack → Stack) : (s.mapStack k f).errs = s.errs := rfl
@[simp] theorem State.mapStack_dies (k : Nat) (f : Stack → Stack) : (s.mapStack k f).dies = s.dies := rfl
@[simp] theorem State.mapStack_power (k : Nat) (f : Stack → Stack) : (s.mapStack k f).power = s.power := rfl
@[simp] theorem State.mapStack_pins (k : Nat) (f : Stack → Stack) : (s.mapStack k f).pins = s.pins := rfl
@[simp] theorem State.mapStack_trust (k : Nat) (f : Stack → Stack) : (s.mapStack k f).trust = s.trust := rfl
@[simp] theorem State.mapStack_mbx (k : Nat) (f : Stack → Stack) : (s.mapStack k f).mbx = s.mbx := rfl
@[simp] theorem State.mapStack_bodkin (k : Nat) (f : Stack → Stack) : (s.mapStack k f).bodkin = s.bodkin := rfl
@[simp] theorem State.mapStack_cvus (k : Nat) (f : Stack → Stack) : (s.mapStack k f).cvus = s.cvus := rfl
@[simp] theorem State.mapStack_boot (k : Nat) (f : Stack → Stack) : (s.mapStack k f).boot = s.boot := rfl
@[simp] theorem State.mapStack_flash (k : Nat) (f : Stack → Stack) : (s.mapStack k f).flash = s.flash := rfl
@[simp] theorem State.mapStack_jtag (k : Nat) (f : Stack → Stack) : (s.mapStack k f).jtag = s.jtag := rfl

/-! ## State.mapRing -/

@[simp] theorem State.mapRing_pending (r : Nat) (f : Ring → Ring) : (s.mapRing r f).pending = s.pending := rfl
@[simp] theorem State.mapRing_clock (r : Nat) (f : Ring → Ring) : (s.mapRing r f).clock = s.clock := rfl
@[simp] theorem State.mapRing_freeCount (r : Nat) (f : Ring → Ring) : (s.mapRing r f).freeCount = s.freeCount := rfl
@[simp] theorem State.mapRing_resp (r : Nat) (f : Ring → Ring) : (s.mapRing r f).resp = s.resp := rfl
@[simp] theorem State.mapRing_msix (r : Nat) (f : Ring → Ring) : (s.mapRing r f).msix = s.msix := rfl
@[simp] theorem State.mapRing_pageRequests (r : Nat) (f : Ring → Ring) : (s.mapRing r f).pageRequests =
    s.pageRequests := rfl
@[simp] theorem State.mapRing_sel (r : Nat) (f : Ring → Ring) : (s.mapRing r f).sel = s.sel := rfl
@[simp] theorem State.mapRing_readLatch (r : Nat) (f : Ring → Ring) : (s.mapRing r f).readLatch = s.readLatch := rfl
@[simp] theorem State.mapRing_lowHeld (r : Nat) (f : Ring → Ring) : (s.mapRing r f).lowHeld = s.lowHeld := rfl
@[simp] theorem State.mapRing_mode (r : Nat) (f : Ring → Ring) : (s.mapRing r f).mode = s.mode := rfl
@[simp] theorem State.mapRing_wdog (r : Nat) (f : Ring → Ring) : (s.mapRing r f).wdog = s.wdog := rfl
@[simp] theorem State.mapRing_cancelTag (r : Nat) (f : Ring → Ring) : (s.mapRing r f).cancelTag = s.cancelTag := rfl
@[simp] theorem State.mapRing_cancelRing (r : Nat) (f : Ring → Ring) : (s.mapRing r f).cancelRing =
    s.cancelRing := rfl
@[simp] theorem State.mapRing_cancelResult (r : Nat) (f : Ring → Ring) : (s.mapRing r f).cancelResult =
    s.cancelResult := rfl
@[simp] theorem State.mapRing_jobAge (r : Nat) (f : Ring → Ring) : (s.mapRing r f).jobAge = s.jobAge := rfl
@[simp] theorem State.mapRing_halt (r : Nat) (f : Ring → Ring) : (s.mapRing r f).halt = s.halt := rfl
@[simp] theorem State.mapRing_telemSel (r : Nat) (f : Ring → Ring) : (s.mapRing r f).telemSel = s.telemSel := rfl
@[simp] theorem State.mapRing_tele (r : Nat) (f : Ring → Ring) : (s.mapRing r f).tele = s.tele := rfl
@[simp] theorem State.mapRing_psetLoader (r : Nat) (f : Ring → Ring) : (s.mapRing r f).psetLoader =
    s.psetLoader := rfl
@[simp] theorem State.mapRing_psets (r : Nat) (f : Ring → Ring) : (s.mapRing r f).psets = s.psets := rfl
@[simp] theorem State.mapRing_prkLoader (r : Nat) (f : Ring → Ring) : (s.mapRing r f).prkLoader = s.prkLoader := rfl
@[simp] theorem State.mapRing_prks (r : Nat) (f : Ring → Ring) : (s.mapRing r f).prks = s.prks := rfl
@[simp] theorem State.mapRing_rings (r : Nat) (f : Ring → Ring) : (s.mapRing r f).rings =
    Tab.put s.rings r (f (s.ring r)) := rfl
@[simp] theorem State.mapRing_evq (r : Nat) (f : Ring → Ring) : (s.mapRing r f).evq = s.evq := rfl
@[simp] theorem State.mapRing_rrNext (r : Nat) (f : Ring → Ring) : (s.mapRing r f).rrNext = s.rrNext := rfl
@[simp] theorem State.mapRing_jobs (r : Nat) (f : Ring → Ring) : (s.mapRing r f).jobs = s.jobs := rfl
@[simp] theorem State.mapRing_groups (r : Nat) (f : Ring → Ring) : (s.mapRing r f).groups = s.groups := rfl
@[simp] theorem State.mapRing_tiles (r : Nat) (f : Ring → Ring) : (s.mapRing r f).tiles = s.tiles := rfl
@[simp] theorem State.mapRing_spares (r : Nat) (f : Ring → Ring) : (s.mapRing r f).spares = s.spares := rfl
@[simp] theorem State.mapRing_mem (r : Nat) (f : Ring → Ring) : (s.mapRing r f).mem = s.mem := rfl
@[simp] theorem State.mapRing_linePoison (r : Nat) (f : Ring → Ring) : (s.mapRing r f).linePoison =
    s.linePoison := rfl
@[simp] theorem State.mapRing_hbm (r : Nat) (f : Ring → Ring) : (s.mapRing r f).hbm = s.hbm := rfl
@[simp] theorem State.mapRing_poisonRequests (r : Nat) (f : Ring → Ring) : (s.mapRing r f).poisonRequests =
    s.poisonRequests := rfl
@[simp] theorem State.mapRing_nearScrub (r : Nat) (f : Ring → Ring) : (s.mapRing r f).nearScrub = s.nearScrub := rfl
@[simp] theorem State.mapRing_link (r : Nat) (f : Ring → Ring) : (s.mapRing r f).link = s.link := rfl
@[simp] theorem State.mapRing_errs (r : Nat) (f : Ring → Ring) : (s.mapRing r f).errs = s.errs := rfl
@[simp] theorem State.mapRing_dies (r : Nat) (f : Ring → Ring) : (s.mapRing r f).dies = s.dies := rfl
@[simp] theorem State.mapRing_power (r : Nat) (f : Ring → Ring) : (s.mapRing r f).power = s.power := rfl
@[simp] theorem State.mapRing_pins (r : Nat) (f : Ring → Ring) : (s.mapRing r f).pins = s.pins := rfl
@[simp] theorem State.mapRing_trust (r : Nat) (f : Ring → Ring) : (s.mapRing r f).trust = s.trust := rfl
@[simp] theorem State.mapRing_mbx (r : Nat) (f : Ring → Ring) : (s.mapRing r f).mbx = s.mbx := rfl
@[simp] theorem State.mapRing_bodkin (r : Nat) (f : Ring → Ring) : (s.mapRing r f).bodkin = s.bodkin := rfl
@[simp] theorem State.mapRing_cvus (r : Nat) (f : Ring → Ring) : (s.mapRing r f).cvus = s.cvus := rfl
@[simp] theorem State.mapRing_boot (r : Nat) (f : Ring → Ring) : (s.mapRing r f).boot = s.boot := rfl
@[simp] theorem State.mapRing_flash (r : Nat) (f : Ring → Ring) : (s.mapRing r f).flash = s.flash := rfl
@[simp] theorem State.mapRing_jtag (r : Nat) (f : Ring → Ring) : (s.mapRing r f).jtag = s.jtag := rfl

/-! ## State.mapDie -/

@[simp] theorem State.mapDie_pending (d : Nat) (f : Die → Die) : (s.mapDie d f).pending = s.pending := rfl
@[simp] theorem State.mapDie_clock (d : Nat) (f : Die → Die) : (s.mapDie d f).clock = s.clock := rfl
@[simp] theorem State.mapDie_freeCount (d : Nat) (f : Die → Die) : (s.mapDie d f).freeCount = s.freeCount := rfl
@[simp] theorem State.mapDie_resp (d : Nat) (f : Die → Die) : (s.mapDie d f).resp = s.resp := rfl
@[simp] theorem State.mapDie_msix (d : Nat) (f : Die → Die) : (s.mapDie d f).msix = s.msix := rfl
@[simp] theorem State.mapDie_pageRequests (d : Nat) (f : Die → Die) : (s.mapDie d f).pageRequests =
    s.pageRequests := rfl
@[simp] theorem State.mapDie_sel (d : Nat) (f : Die → Die) : (s.mapDie d f).sel = s.sel := rfl
@[simp] theorem State.mapDie_readLatch (d : Nat) (f : Die → Die) : (s.mapDie d f).readLatch = s.readLatch := rfl
@[simp] theorem State.mapDie_lowHeld (d : Nat) (f : Die → Die) : (s.mapDie d f).lowHeld = s.lowHeld := rfl
@[simp] theorem State.mapDie_mode (d : Nat) (f : Die → Die) : (s.mapDie d f).mode = s.mode := rfl
@[simp] theorem State.mapDie_wdog (d : Nat) (f : Die → Die) : (s.mapDie d f).wdog = s.wdog := rfl
@[simp] theorem State.mapDie_cancelTag (d : Nat) (f : Die → Die) : (s.mapDie d f).cancelTag = s.cancelTag := rfl
@[simp] theorem State.mapDie_cancelRing (d : Nat) (f : Die → Die) : (s.mapDie d f).cancelRing = s.cancelRing := rfl
@[simp] theorem State.mapDie_cancelResult (d : Nat) (f : Die → Die) : (s.mapDie d f).cancelResult =
    s.cancelResult := rfl
@[simp] theorem State.mapDie_jobAge (d : Nat) (f : Die → Die) : (s.mapDie d f).jobAge = s.jobAge := rfl
@[simp] theorem State.mapDie_halt (d : Nat) (f : Die → Die) : (s.mapDie d f).halt = s.halt := rfl
@[simp] theorem State.mapDie_telemSel (d : Nat) (f : Die → Die) : (s.mapDie d f).telemSel = s.telemSel := rfl
@[simp] theorem State.mapDie_tele (d : Nat) (f : Die → Die) : (s.mapDie d f).tele = s.tele := rfl
@[simp] theorem State.mapDie_psetLoader (d : Nat) (f : Die → Die) : (s.mapDie d f).psetLoader = s.psetLoader := rfl
@[simp] theorem State.mapDie_psets (d : Nat) (f : Die → Die) : (s.mapDie d f).psets = s.psets := rfl
@[simp] theorem State.mapDie_prkLoader (d : Nat) (f : Die → Die) : (s.mapDie d f).prkLoader = s.prkLoader := rfl
@[simp] theorem State.mapDie_prks (d : Nat) (f : Die → Die) : (s.mapDie d f).prks = s.prks := rfl
@[simp] theorem State.mapDie_rings (d : Nat) (f : Die → Die) : (s.mapDie d f).rings = s.rings := rfl
@[simp] theorem State.mapDie_evq (d : Nat) (f : Die → Die) : (s.mapDie d f).evq = s.evq := rfl
@[simp] theorem State.mapDie_rrNext (d : Nat) (f : Die → Die) : (s.mapDie d f).rrNext = s.rrNext := rfl
@[simp] theorem State.mapDie_jobs (d : Nat) (f : Die → Die) : (s.mapDie d f).jobs = s.jobs := rfl
@[simp] theorem State.mapDie_groups (d : Nat) (f : Die → Die) : (s.mapDie d f).groups = s.groups := rfl
@[simp] theorem State.mapDie_tiles (d : Nat) (f : Die → Die) : (s.mapDie d f).tiles = s.tiles := rfl
@[simp] theorem State.mapDie_spares (d : Nat) (f : Die → Die) : (s.mapDie d f).spares = s.spares := rfl
@[simp] theorem State.mapDie_mem (d : Nat) (f : Die → Die) : (s.mapDie d f).mem = s.mem := rfl
@[simp] theorem State.mapDie_linePoison (d : Nat) (f : Die → Die) : (s.mapDie d f).linePoison = s.linePoison := rfl
@[simp] theorem State.mapDie_hbm (d : Nat) (f : Die → Die) : (s.mapDie d f).hbm = s.hbm := rfl
@[simp] theorem State.mapDie_poisonRequests (d : Nat) (f : Die → Die) : (s.mapDie d f).poisonRequests =
    s.poisonRequests := rfl
@[simp] theorem State.mapDie_nearScrub (d : Nat) (f : Die → Die) : (s.mapDie d f).nearScrub = s.nearScrub := rfl
@[simp] theorem State.mapDie_link (d : Nat) (f : Die → Die) : (s.mapDie d f).link = s.link := rfl
@[simp] theorem State.mapDie_errs (d : Nat) (f : Die → Die) : (s.mapDie d f).errs = s.errs := rfl
@[simp] theorem State.mapDie_dies (d : Nat) (f : Die → Die) : (s.mapDie d f).dies =
    Tab.put s.dies d (f (s.die d)) := rfl
@[simp] theorem State.mapDie_power (d : Nat) (f : Die → Die) : (s.mapDie d f).power = s.power := rfl
@[simp] theorem State.mapDie_pins (d : Nat) (f : Die → Die) : (s.mapDie d f).pins = s.pins := rfl
@[simp] theorem State.mapDie_trust (d : Nat) (f : Die → Die) : (s.mapDie d f).trust = s.trust := rfl
@[simp] theorem State.mapDie_mbx (d : Nat) (f : Die → Die) : (s.mapDie d f).mbx = s.mbx := rfl
@[simp] theorem State.mapDie_bodkin (d : Nat) (f : Die → Die) : (s.mapDie d f).bodkin = s.bodkin := rfl
@[simp] theorem State.mapDie_cvus (d : Nat) (f : Die → Die) : (s.mapDie d f).cvus = s.cvus := rfl
@[simp] theorem State.mapDie_boot (d : Nat) (f : Die → Die) : (s.mapDie d f).boot = s.boot := rfl
@[simp] theorem State.mapDie_flash (d : Nat) (f : Die → Die) : (s.mapDie d f).flash = s.flash := rfl
@[simp] theorem State.mapDie_jtag (d : Nat) (f : Die → Die) : (s.mapDie d f).jtag = s.jtag := rfl

/-! ## State.mapCvu -/

@[simp] theorem State.mapCvu_pending (u : Nat) (f : Cvu → Cvu) : (s.mapCvu u f).pending = s.pending := rfl
@[simp] theorem State.mapCvu_clock (u : Nat) (f : Cvu → Cvu) : (s.mapCvu u f).clock = s.clock := rfl
@[simp] theorem State.mapCvu_freeCount (u : Nat) (f : Cvu → Cvu) : (s.mapCvu u f).freeCount = s.freeCount := rfl
@[simp] theorem State.mapCvu_resp (u : Nat) (f : Cvu → Cvu) : (s.mapCvu u f).resp = s.resp := rfl
@[simp] theorem State.mapCvu_msix (u : Nat) (f : Cvu → Cvu) : (s.mapCvu u f).msix = s.msix := rfl
@[simp] theorem State.mapCvu_pageRequests (u : Nat) (f : Cvu → Cvu) : (s.mapCvu u f).pageRequests =
    s.pageRequests := rfl
@[simp] theorem State.mapCvu_sel (u : Nat) (f : Cvu → Cvu) : (s.mapCvu u f).sel = s.sel := rfl
@[simp] theorem State.mapCvu_readLatch (u : Nat) (f : Cvu → Cvu) : (s.mapCvu u f).readLatch = s.readLatch := rfl
@[simp] theorem State.mapCvu_lowHeld (u : Nat) (f : Cvu → Cvu) : (s.mapCvu u f).lowHeld = s.lowHeld := rfl
@[simp] theorem State.mapCvu_mode (u : Nat) (f : Cvu → Cvu) : (s.mapCvu u f).mode = s.mode := rfl
@[simp] theorem State.mapCvu_wdog (u : Nat) (f : Cvu → Cvu) : (s.mapCvu u f).wdog = s.wdog := rfl
@[simp] theorem State.mapCvu_cancelTag (u : Nat) (f : Cvu → Cvu) : (s.mapCvu u f).cancelTag = s.cancelTag := rfl
@[simp] theorem State.mapCvu_cancelRing (u : Nat) (f : Cvu → Cvu) : (s.mapCvu u f).cancelRing = s.cancelRing := rfl
@[simp] theorem State.mapCvu_cancelResult (u : Nat) (f : Cvu → Cvu) : (s.mapCvu u f).cancelResult =
    s.cancelResult := rfl
@[simp] theorem State.mapCvu_jobAge (u : Nat) (f : Cvu → Cvu) : (s.mapCvu u f).jobAge = s.jobAge := rfl
@[simp] theorem State.mapCvu_halt (u : Nat) (f : Cvu → Cvu) : (s.mapCvu u f).halt = s.halt := rfl
@[simp] theorem State.mapCvu_telemSel (u : Nat) (f : Cvu → Cvu) : (s.mapCvu u f).telemSel = s.telemSel := rfl
@[simp] theorem State.mapCvu_tele (u : Nat) (f : Cvu → Cvu) : (s.mapCvu u f).tele = s.tele := rfl
@[simp] theorem State.mapCvu_psetLoader (u : Nat) (f : Cvu → Cvu) : (s.mapCvu u f).psetLoader = s.psetLoader := rfl
@[simp] theorem State.mapCvu_psets (u : Nat) (f : Cvu → Cvu) : (s.mapCvu u f).psets = s.psets := rfl
@[simp] theorem State.mapCvu_prkLoader (u : Nat) (f : Cvu → Cvu) : (s.mapCvu u f).prkLoader = s.prkLoader := rfl
@[simp] theorem State.mapCvu_prks (u : Nat) (f : Cvu → Cvu) : (s.mapCvu u f).prks = s.prks := rfl
@[simp] theorem State.mapCvu_rings (u : Nat) (f : Cvu → Cvu) : (s.mapCvu u f).rings = s.rings := rfl
@[simp] theorem State.mapCvu_evq (u : Nat) (f : Cvu → Cvu) : (s.mapCvu u f).evq = s.evq := rfl
@[simp] theorem State.mapCvu_rrNext (u : Nat) (f : Cvu → Cvu) : (s.mapCvu u f).rrNext = s.rrNext := rfl
@[simp] theorem State.mapCvu_jobs (u : Nat) (f : Cvu → Cvu) : (s.mapCvu u f).jobs = s.jobs := rfl
@[simp] theorem State.mapCvu_groups (u : Nat) (f : Cvu → Cvu) : (s.mapCvu u f).groups = s.groups := rfl
@[simp] theorem State.mapCvu_tiles (u : Nat) (f : Cvu → Cvu) : (s.mapCvu u f).tiles = s.tiles := rfl
@[simp] theorem State.mapCvu_spares (u : Nat) (f : Cvu → Cvu) : (s.mapCvu u f).spares = s.spares := rfl
@[simp] theorem State.mapCvu_mem (u : Nat) (f : Cvu → Cvu) : (s.mapCvu u f).mem = s.mem := rfl
@[simp] theorem State.mapCvu_linePoison (u : Nat) (f : Cvu → Cvu) : (s.mapCvu u f).linePoison = s.linePoison := rfl
@[simp] theorem State.mapCvu_hbm (u : Nat) (f : Cvu → Cvu) : (s.mapCvu u f).hbm = s.hbm := rfl
@[simp] theorem State.mapCvu_poisonRequests (u : Nat) (f : Cvu → Cvu) : (s.mapCvu u f).poisonRequests =
    s.poisonRequests := rfl
@[simp] theorem State.mapCvu_nearScrub (u : Nat) (f : Cvu → Cvu) : (s.mapCvu u f).nearScrub = s.nearScrub := rfl
@[simp] theorem State.mapCvu_link (u : Nat) (f : Cvu → Cvu) : (s.mapCvu u f).link = s.link := rfl
@[simp] theorem State.mapCvu_errs (u : Nat) (f : Cvu → Cvu) : (s.mapCvu u f).errs = s.errs := rfl
@[simp] theorem State.mapCvu_dies (u : Nat) (f : Cvu → Cvu) : (s.mapCvu u f).dies = s.dies := rfl
@[simp] theorem State.mapCvu_power (u : Nat) (f : Cvu → Cvu) : (s.mapCvu u f).power = s.power := rfl
@[simp] theorem State.mapCvu_pins (u : Nat) (f : Cvu → Cvu) : (s.mapCvu u f).pins = s.pins := rfl
@[simp] theorem State.mapCvu_trust (u : Nat) (f : Cvu → Cvu) : (s.mapCvu u f).trust = s.trust := rfl
@[simp] theorem State.mapCvu_mbx (u : Nat) (f : Cvu → Cvu) : (s.mapCvu u f).mbx = s.mbx := rfl
@[simp] theorem State.mapCvu_bodkin (u : Nat) (f : Cvu → Cvu) : (s.mapCvu u f).bodkin = s.bodkin := rfl
@[simp] theorem State.mapCvu_cvus (u : Nat) (f : Cvu → Cvu) : (s.mapCvu u f).cvus =
    Tab.put s.cvus u (f (s.cvu u)) := rfl
@[simp] theorem State.mapCvu_boot (u : Nat) (f : Cvu → Cvu) : (s.mapCvu u f).boot = s.boot := rfl
@[simp] theorem State.mapCvu_flash (u : Nat) (f : Cvu → Cvu) : (s.mapCvu u f).flash = s.flash := rfl
@[simp] theorem State.mapCvu_jtag (u : Nat) (f : Cvu → Cvu) : (s.mapCvu u f).jtag = s.jtag := rfl

/-! ## State.mapSelects -/

@[simp] theorem State.mapSelects_pending (q : Requester) (f : Selects → Selects) : (s.mapSelects q f).pending =
    s.pending := rfl
@[simp] theorem State.mapSelects_clock (q : Requester) (f : Selects → Selects) : (s.mapSelects q f).clock =
    s.clock := rfl
@[simp] theorem State.mapSelects_freeCount (q : Requester) (f : Selects → Selects) : (s.mapSelects q f).freeCount =
    s.freeCount := rfl
@[simp] theorem State.mapSelects_resp (q : Requester) (f : Selects → Selects) : (s.mapSelects q f).resp =
    s.resp := rfl
@[simp] theorem State.mapSelects_msix (q : Requester) (f : Selects → Selects) : (s.mapSelects q f).msix =
    s.msix := rfl
@[simp] theorem State.mapSelects_pageRequests (q : Requester) (f : Selects → Selects) : (s.mapSelects q f).pageRequests =
    s.pageRequests := rfl
@[simp] theorem State.mapSelects_sel (q : Requester) (f : Selects → Selects) : (s.mapSelects q f).sel =
    Tab.put s.sel (requesterNum q) (f (s.selects q)) := rfl
@[simp] theorem State.mapSelects_readLatch (q : Requester) (f : Selects → Selects) : (s.mapSelects q f).readLatch =
    s.readLatch := rfl
@[simp] theorem State.mapSelects_lowHeld (q : Requester) (f : Selects → Selects) : (s.mapSelects q f).lowHeld =
    s.lowHeld := rfl
@[simp] theorem State.mapSelects_mode (q : Requester) (f : Selects → Selects) : (s.mapSelects q f).mode =
    s.mode := rfl
@[simp] theorem State.mapSelects_wdog (q : Requester) (f : Selects → Selects) : (s.mapSelects q f).wdog =
    s.wdog := rfl
@[simp] theorem State.mapSelects_cancelTag (q : Requester) (f : Selects → Selects) : (s.mapSelects q f).cancelTag =
    s.cancelTag := rfl
@[simp] theorem State.mapSelects_cancelRing (q : Requester) (f : Selects → Selects) : (s.mapSelects q f).cancelRing =
    s.cancelRing := rfl
@[simp] theorem State.mapSelects_cancelResult (q : Requester) (f : Selects → Selects) : (s.mapSelects q f).cancelResult =
    s.cancelResult := rfl
@[simp] theorem State.mapSelects_jobAge (q : Requester) (f : Selects → Selects) : (s.mapSelects q f).jobAge =
    s.jobAge := rfl
@[simp] theorem State.mapSelects_halt (q : Requester) (f : Selects → Selects) : (s.mapSelects q f).halt =
    s.halt := rfl
@[simp] theorem State.mapSelects_telemSel (q : Requester) (f : Selects → Selects) : (s.mapSelects q f).telemSel =
    s.telemSel := rfl
@[simp] theorem State.mapSelects_tele (q : Requester) (f : Selects → Selects) : (s.mapSelects q f).tele =
    s.tele := rfl
@[simp] theorem State.mapSelects_psetLoader (q : Requester) (f : Selects → Selects) : (s.mapSelects q f).psetLoader =
    s.psetLoader := rfl
@[simp] theorem State.mapSelects_psets (q : Requester) (f : Selects → Selects) : (s.mapSelects q f).psets =
    s.psets := rfl
@[simp] theorem State.mapSelects_prkLoader (q : Requester) (f : Selects → Selects) : (s.mapSelects q f).prkLoader =
    s.prkLoader := rfl
@[simp] theorem State.mapSelects_prks (q : Requester) (f : Selects → Selects) : (s.mapSelects q f).prks =
    s.prks := rfl
@[simp] theorem State.mapSelects_rings (q : Requester) (f : Selects → Selects) : (s.mapSelects q f).rings =
    s.rings := rfl
@[simp] theorem State.mapSelects_evq (q : Requester) (f : Selects → Selects) : (s.mapSelects q f).evq = s.evq := rfl
@[simp] theorem State.mapSelects_rrNext (q : Requester) (f : Selects → Selects) : (s.mapSelects q f).rrNext =
    s.rrNext := rfl
@[simp] theorem State.mapSelects_jobs (q : Requester) (f : Selects → Selects) : (s.mapSelects q f).jobs =
    s.jobs := rfl
@[simp] theorem State.mapSelects_groups (q : Requester) (f : Selects → Selects) : (s.mapSelects q f).groups =
    s.groups := rfl
@[simp] theorem State.mapSelects_tiles (q : Requester) (f : Selects → Selects) : (s.mapSelects q f).tiles =
    s.tiles := rfl
@[simp] theorem State.mapSelects_spares (q : Requester) (f : Selects → Selects) : (s.mapSelects q f).spares =
    s.spares := rfl
@[simp] theorem State.mapSelects_mem (q : Requester) (f : Selects → Selects) : (s.mapSelects q f).mem = s.mem := rfl
@[simp] theorem State.mapSelects_linePoison (q : Requester) (f : Selects → Selects) : (s.mapSelects q f).linePoison =
    s.linePoison := rfl
@[simp] theorem State.mapSelects_hbm (q : Requester) (f : Selects → Selects) : (s.mapSelects q f).hbm = s.hbm := rfl
@[simp] theorem State.mapSelects_poisonRequests (q : Requester) (f : Selects → Selects) : (s.mapSelects q f).poisonRequests =
    s.poisonRequests := rfl
@[simp] theorem State.mapSelects_nearScrub (q : Requester) (f : Selects → Selects) : (s.mapSelects q f).nearScrub =
    s.nearScrub := rfl
@[simp] theorem State.mapSelects_link (q : Requester) (f : Selects → Selects) : (s.mapSelects q f).link =
    s.link := rfl
@[simp] theorem State.mapSelects_errs (q : Requester) (f : Selects → Selects) : (s.mapSelects q f).errs =
    s.errs := rfl
@[simp] theorem State.mapSelects_dies (q : Requester) (f : Selects → Selects) : (s.mapSelects q f).dies =
    s.dies := rfl
@[simp] theorem State.mapSelects_power (q : Requester) (f : Selects → Selects) : (s.mapSelects q f).power =
    s.power := rfl
@[simp] theorem State.mapSelects_pins (q : Requester) (f : Selects → Selects) : (s.mapSelects q f).pins =
    s.pins := rfl
@[simp] theorem State.mapSelects_trust (q : Requester) (f : Selects → Selects) : (s.mapSelects q f).trust =
    s.trust := rfl
@[simp] theorem State.mapSelects_mbx (q : Requester) (f : Selects → Selects) : (s.mapSelects q f).mbx = s.mbx := rfl
@[simp] theorem State.mapSelects_bodkin (q : Requester) (f : Selects → Selects) : (s.mapSelects q f).bodkin =
    s.bodkin := rfl
@[simp] theorem State.mapSelects_cvus (q : Requester) (f : Selects → Selects) : (s.mapSelects q f).cvus =
    s.cvus := rfl
@[simp] theorem State.mapSelects_boot (q : Requester) (f : Selects → Selects) : (s.mapSelects q f).boot =
    s.boot := rfl
@[simp] theorem State.mapSelects_flash (q : Requester) (f : Selects → Selects) : (s.mapSelects q f).flash =
    s.flash := rfl
@[simp] theorem State.mapSelects_jtag (q : Requester) (f : Selects → Selects) : (s.mapSelects q f).jtag =
    s.jtag := rfl

/-! ## State.mapJob -/

@[simp] theorem State.mapJob_pending (r : Nat) (f : Job → Job) : (s.mapJob r f).pending = s.pending := rfl
@[simp] theorem State.mapJob_clock (r : Nat) (f : Job → Job) : (s.mapJob r f).clock = s.clock := rfl
@[simp] theorem State.mapJob_freeCount (r : Nat) (f : Job → Job) : (s.mapJob r f).freeCount = s.freeCount := rfl
@[simp] theorem State.mapJob_resp (r : Nat) (f : Job → Job) : (s.mapJob r f).resp = s.resp := rfl
@[simp] theorem State.mapJob_msix (r : Nat) (f : Job → Job) : (s.mapJob r f).msix = s.msix := rfl
@[simp] theorem State.mapJob_pageRequests (r : Nat) (f : Job → Job) : (s.mapJob r f).pageRequests =
    s.pageRequests := rfl
@[simp] theorem State.mapJob_sel (r : Nat) (f : Job → Job) : (s.mapJob r f).sel = s.sel := rfl
@[simp] theorem State.mapJob_readLatch (r : Nat) (f : Job → Job) : (s.mapJob r f).readLatch = s.readLatch := rfl
@[simp] theorem State.mapJob_lowHeld (r : Nat) (f : Job → Job) : (s.mapJob r f).lowHeld = s.lowHeld := rfl
@[simp] theorem State.mapJob_mode (r : Nat) (f : Job → Job) : (s.mapJob r f).mode = s.mode := rfl
@[simp] theorem State.mapJob_wdog (r : Nat) (f : Job → Job) : (s.mapJob r f).wdog = s.wdog := rfl
@[simp] theorem State.mapJob_cancelTag (r : Nat) (f : Job → Job) : (s.mapJob r f).cancelTag = s.cancelTag := rfl
@[simp] theorem State.mapJob_cancelRing (r : Nat) (f : Job → Job) : (s.mapJob r f).cancelRing = s.cancelRing := rfl
@[simp] theorem State.mapJob_cancelResult (r : Nat) (f : Job → Job) : (s.mapJob r f).cancelResult =
    s.cancelResult := rfl
@[simp] theorem State.mapJob_jobAge (r : Nat) (f : Job → Job) : (s.mapJob r f).jobAge = s.jobAge := rfl
@[simp] theorem State.mapJob_halt (r : Nat) (f : Job → Job) : (s.mapJob r f).halt = s.halt := rfl
@[simp] theorem State.mapJob_telemSel (r : Nat) (f : Job → Job) : (s.mapJob r f).telemSel = s.telemSel := rfl
@[simp] theorem State.mapJob_tele (r : Nat) (f : Job → Job) : (s.mapJob r f).tele = s.tele := rfl
@[simp] theorem State.mapJob_psetLoader (r : Nat) (f : Job → Job) : (s.mapJob r f).psetLoader = s.psetLoader := rfl
@[simp] theorem State.mapJob_psets (r : Nat) (f : Job → Job) : (s.mapJob r f).psets = s.psets := rfl
@[simp] theorem State.mapJob_prkLoader (r : Nat) (f : Job → Job) : (s.mapJob r f).prkLoader = s.prkLoader := rfl
@[simp] theorem State.mapJob_prks (r : Nat) (f : Job → Job) : (s.mapJob r f).prks = s.prks := rfl
@[simp] theorem State.mapJob_rings (r : Nat) (f : Job → Job) : (s.mapJob r f).rings = s.rings := rfl
@[simp] theorem State.mapJob_evq (r : Nat) (f : Job → Job) : (s.mapJob r f).evq = s.evq := rfl
@[simp] theorem State.mapJob_rrNext (r : Nat) (f : Job → Job) : (s.mapJob r f).rrNext = s.rrNext := rfl
@[simp] theorem State.mapJob_jobs (r : Nat) (f : Job → Job) : (s.mapJob r f).jobs =
    s.jobs.map (fun j => if j.ring == r then f j else j) := rfl
@[simp] theorem State.mapJob_groups (r : Nat) (f : Job → Job) : (s.mapJob r f).groups = s.groups := rfl
@[simp] theorem State.mapJob_tiles (r : Nat) (f : Job → Job) : (s.mapJob r f).tiles = s.tiles := rfl
@[simp] theorem State.mapJob_spares (r : Nat) (f : Job → Job) : (s.mapJob r f).spares = s.spares := rfl
@[simp] theorem State.mapJob_mem (r : Nat) (f : Job → Job) : (s.mapJob r f).mem = s.mem := rfl
@[simp] theorem State.mapJob_linePoison (r : Nat) (f : Job → Job) : (s.mapJob r f).linePoison = s.linePoison := rfl
@[simp] theorem State.mapJob_hbm (r : Nat) (f : Job → Job) : (s.mapJob r f).hbm = s.hbm := rfl
@[simp] theorem State.mapJob_poisonRequests (r : Nat) (f : Job → Job) : (s.mapJob r f).poisonRequests =
    s.poisonRequests := rfl
@[simp] theorem State.mapJob_nearScrub (r : Nat) (f : Job → Job) : (s.mapJob r f).nearScrub = s.nearScrub := rfl
@[simp] theorem State.mapJob_link (r : Nat) (f : Job → Job) : (s.mapJob r f).link = s.link := rfl
@[simp] theorem State.mapJob_errs (r : Nat) (f : Job → Job) : (s.mapJob r f).errs = s.errs := rfl
@[simp] theorem State.mapJob_dies (r : Nat) (f : Job → Job) : (s.mapJob r f).dies = s.dies := rfl
@[simp] theorem State.mapJob_power (r : Nat) (f : Job → Job) : (s.mapJob r f).power = s.power := rfl
@[simp] theorem State.mapJob_pins (r : Nat) (f : Job → Job) : (s.mapJob r f).pins = s.pins := rfl
@[simp] theorem State.mapJob_trust (r : Nat) (f : Job → Job) : (s.mapJob r f).trust = s.trust := rfl
@[simp] theorem State.mapJob_mbx (r : Nat) (f : Job → Job) : (s.mapJob r f).mbx = s.mbx := rfl
@[simp] theorem State.mapJob_bodkin (r : Nat) (f : Job → Job) : (s.mapJob r f).bodkin = s.bodkin := rfl
@[simp] theorem State.mapJob_cvus (r : Nat) (f : Job → Job) : (s.mapJob r f).cvus = s.cvus := rfl
@[simp] theorem State.mapJob_boot (r : Nat) (f : Job → Job) : (s.mapJob r f).boot = s.boot := rfl
@[simp] theorem State.mapJob_flash (r : Nat) (f : Job → Job) : (s.mapJob r f).flash = s.flash := rfl
@[simp] theorem State.mapJob_jtag (r : Nat) (f : Job → Job) : (s.mapJob r f).jtag = s.jtag := rfl

/-! ## State.until -/

@[simp] theorem State.until_pending (n : Nat) : (s.until n).pending = s.pending := rfl
@[simp] theorem State.until_clock (n : Nat) : (s.until n).clock = max s.clock n := rfl
@[simp] theorem State.until_freeCount (n : Nat) : (s.until n).freeCount = s.freeCount := rfl
@[simp] theorem State.until_resp (n : Nat) : (s.until n).resp = s.resp := rfl
@[simp] theorem State.until_msix (n : Nat) : (s.until n).msix = s.msix := rfl
@[simp] theorem State.until_pageRequests (n : Nat) : (s.until n).pageRequests = s.pageRequests := rfl
@[simp] theorem State.until_sel (n : Nat) : (s.until n).sel = s.sel := rfl
@[simp] theorem State.until_readLatch (n : Nat) : (s.until n).readLatch = s.readLatch := rfl
@[simp] theorem State.until_lowHeld (n : Nat) : (s.until n).lowHeld = s.lowHeld := rfl
@[simp] theorem State.until_mode (n : Nat) : (s.until n).mode = s.mode := rfl
@[simp] theorem State.until_wdog (n : Nat) : (s.until n).wdog = s.wdog := rfl
@[simp] theorem State.until_cancelTag (n : Nat) : (s.until n).cancelTag = s.cancelTag := rfl
@[simp] theorem State.until_cancelRing (n : Nat) : (s.until n).cancelRing = s.cancelRing := rfl
@[simp] theorem State.until_cancelResult (n : Nat) : (s.until n).cancelResult = s.cancelResult := rfl
@[simp] theorem State.until_jobAge (n : Nat) : (s.until n).jobAge = s.jobAge := rfl
@[simp] theorem State.until_halt (n : Nat) : (s.until n).halt = s.halt := rfl
@[simp] theorem State.until_telemSel (n : Nat) : (s.until n).telemSel = s.telemSel := rfl
@[simp] theorem State.until_tele (n : Nat) : (s.until n).tele = s.tele := rfl
@[simp] theorem State.until_psetLoader (n : Nat) : (s.until n).psetLoader = s.psetLoader := rfl
@[simp] theorem State.until_psets (n : Nat) : (s.until n).psets = s.psets := rfl
@[simp] theorem State.until_prkLoader (n : Nat) : (s.until n).prkLoader = s.prkLoader := rfl
@[simp] theorem State.until_prks (n : Nat) : (s.until n).prks = s.prks := rfl
@[simp] theorem State.until_rings (n : Nat) : (s.until n).rings = s.rings := rfl
@[simp] theorem State.until_evq (n : Nat) : (s.until n).evq = s.evq := rfl
@[simp] theorem State.until_rrNext (n : Nat) : (s.until n).rrNext = s.rrNext := rfl
@[simp] theorem State.until_jobs (n : Nat) : (s.until n).jobs = s.jobs := rfl
@[simp] theorem State.until_groups (n : Nat) : (s.until n).groups = s.groups := rfl
@[simp] theorem State.until_tiles (n : Nat) : (s.until n).tiles = s.tiles := rfl
@[simp] theorem State.until_spares (n : Nat) : (s.until n).spares = s.spares := rfl
@[simp] theorem State.until_mem (n : Nat) : (s.until n).mem = s.mem := rfl
@[simp] theorem State.until_linePoison (n : Nat) : (s.until n).linePoison = s.linePoison := rfl
@[simp] theorem State.until_hbm (n : Nat) : (s.until n).hbm = s.hbm := rfl
@[simp] theorem State.until_poisonRequests (n : Nat) : (s.until n).poisonRequests = s.poisonRequests := rfl
@[simp] theorem State.until_nearScrub (n : Nat) : (s.until n).nearScrub = s.nearScrub := rfl
@[simp] theorem State.until_link (n : Nat) : (s.until n).link = s.link := rfl
@[simp] theorem State.until_errs (n : Nat) : (s.until n).errs = s.errs := rfl
@[simp] theorem State.until_dies (n : Nat) : (s.until n).dies = s.dies := rfl
@[simp] theorem State.until_power (n : Nat) : (s.until n).power = s.power := rfl
@[simp] theorem State.until_pins (n : Nat) : (s.until n).pins = s.pins := rfl
@[simp] theorem State.until_trust (n : Nat) : (s.until n).trust = s.trust := rfl
@[simp] theorem State.until_mbx (n : Nat) : (s.until n).mbx = s.mbx := rfl
@[simp] theorem State.until_bodkin (n : Nat) : (s.until n).bodkin = s.bodkin := rfl
@[simp] theorem State.until_cvus (n : Nat) : (s.until n).cvus = s.cvus := rfl
@[simp] theorem State.until_boot (n : Nat) : (s.until n).boot = s.boot := rfl
@[simp] theorem State.until_flash (n : Nat) : (s.until n).flash = s.flash := rfl
@[simp] theorem State.until_jtag (n : Nat) : (s.until n).jtag = s.jtag := rfl

/-! ## State.idle -/

@[simp] theorem State.idle_pending : s.idle.pending = s.pending := rfl
@[simp] theorem State.idle_clock : s.idle.clock = s.clock + 10 := rfl
@[simp] theorem State.idle_freeCount : s.idle.freeCount = s.freeCount := rfl
@[simp] theorem State.idle_resp : s.idle.resp = s.resp := rfl
@[simp] theorem State.idle_msix : s.idle.msix = s.msix := rfl
@[simp] theorem State.idle_pageRequests : s.idle.pageRequests = s.pageRequests := rfl
@[simp] theorem State.idle_sel : s.idle.sel = s.sel := rfl
@[simp] theorem State.idle_readLatch : s.idle.readLatch = s.readLatch := rfl
@[simp] theorem State.idle_lowHeld : s.idle.lowHeld = s.lowHeld := rfl
@[simp] theorem State.idle_mode : s.idle.mode = s.mode := rfl
@[simp] theorem State.idle_wdog : s.idle.wdog = s.wdog := rfl
@[simp] theorem State.idle_cancelTag : s.idle.cancelTag = s.cancelTag := rfl
@[simp] theorem State.idle_cancelRing : s.idle.cancelRing = s.cancelRing := rfl
@[simp] theorem State.idle_cancelResult : s.idle.cancelResult = s.cancelResult := rfl
@[simp] theorem State.idle_jobAge : s.idle.jobAge = s.jobAge := rfl
@[simp] theorem State.idle_halt : s.idle.halt = s.halt := rfl
@[simp] theorem State.idle_telemSel : s.idle.telemSel = s.telemSel := rfl
@[simp] theorem State.idle_tele : s.idle.tele = s.tele := rfl
@[simp] theorem State.idle_psetLoader : s.idle.psetLoader = s.psetLoader := rfl
@[simp] theorem State.idle_psets : s.idle.psets = s.psets := rfl
@[simp] theorem State.idle_prkLoader : s.idle.prkLoader = s.prkLoader := rfl
@[simp] theorem State.idle_prks : s.idle.prks = s.prks := rfl
@[simp] theorem State.idle_rings : s.idle.rings = s.rings := rfl
@[simp] theorem State.idle_evq : s.idle.evq = s.evq := rfl
@[simp] theorem State.idle_rrNext : s.idle.rrNext = s.rrNext := rfl
@[simp] theorem State.idle_jobs : s.idle.jobs = s.jobs := rfl
@[simp] theorem State.idle_groups : s.idle.groups = s.groups := rfl
@[simp] theorem State.idle_tiles : s.idle.tiles = s.tiles := rfl
@[simp] theorem State.idle_spares : s.idle.spares = s.spares := rfl
@[simp] theorem State.idle_mem : s.idle.mem = s.mem := rfl
@[simp] theorem State.idle_linePoison : s.idle.linePoison = s.linePoison := rfl
@[simp] theorem State.idle_hbm : s.idle.hbm = s.hbm := rfl
@[simp] theorem State.idle_poisonRequests : s.idle.poisonRequests = s.poisonRequests := rfl
@[simp] theorem State.idle_nearScrub : s.idle.nearScrub = s.nearScrub := rfl
@[simp] theorem State.idle_link : s.idle.link = s.link := rfl
@[simp] theorem State.idle_errs : s.idle.errs = s.errs := rfl
@[simp] theorem State.idle_dies : s.idle.dies = s.dies := rfl
@[simp] theorem State.idle_power : s.idle.power = s.power := rfl
@[simp] theorem State.idle_pins : s.idle.pins = s.pins := rfl
@[simp] theorem State.idle_trust : s.idle.trust = s.trust := rfl
@[simp] theorem State.idle_mbx : s.idle.mbx = s.mbx := rfl
@[simp] theorem State.idle_bodkin : s.idle.bodkin = s.bodkin := rfl
@[simp] theorem State.idle_cvus : s.idle.cvus = s.cvus := rfl
@[simp] theorem State.idle_boot : s.idle.boot = s.boot := rfl
@[simp] theorem State.idle_flash : s.idle.flash = s.flash := rfl
@[simp] theorem State.idle_jtag : s.idle.jtag = s.jtag := rfl

/-! ## State.unlatch -/

@[simp] theorem State.unlatch_pending : s.unlatch.pending = s.pending := rfl
@[simp] theorem State.unlatch_clock : s.unlatch.clock = s.clock := rfl
@[simp] theorem State.unlatch_freeCount : s.unlatch.freeCount = s.freeCount := rfl
@[simp] theorem State.unlatch_resp : s.unlatch.resp = s.resp := rfl
@[simp] theorem State.unlatch_msix : s.unlatch.msix = s.msix := rfl
@[simp] theorem State.unlatch_pageRequests : s.unlatch.pageRequests = s.pageRequests := rfl
@[simp] theorem State.unlatch_sel : s.unlatch.sel = s.sel := rfl
@[simp] theorem State.unlatch_readLatch : s.unlatch.readLatch = none := rfl
@[simp] theorem State.unlatch_lowHeld : s.unlatch.lowHeld = s.lowHeld := rfl
@[simp] theorem State.unlatch_mode : s.unlatch.mode = s.mode := rfl
@[simp] theorem State.unlatch_wdog : s.unlatch.wdog = s.wdog := rfl
@[simp] theorem State.unlatch_cancelTag : s.unlatch.cancelTag = s.cancelTag := rfl
@[simp] theorem State.unlatch_cancelRing : s.unlatch.cancelRing = s.cancelRing := rfl
@[simp] theorem State.unlatch_cancelResult : s.unlatch.cancelResult = s.cancelResult := rfl
@[simp] theorem State.unlatch_jobAge : s.unlatch.jobAge = s.jobAge := rfl
@[simp] theorem State.unlatch_halt : s.unlatch.halt = s.halt := rfl
@[simp] theorem State.unlatch_telemSel : s.unlatch.telemSel = s.telemSel := rfl
@[simp] theorem State.unlatch_tele : s.unlatch.tele = s.tele := rfl
@[simp] theorem State.unlatch_psetLoader : s.unlatch.psetLoader = s.psetLoader := rfl
@[simp] theorem State.unlatch_psets : s.unlatch.psets = s.psets := rfl
@[simp] theorem State.unlatch_prkLoader : s.unlatch.prkLoader = s.prkLoader := rfl
@[simp] theorem State.unlatch_prks : s.unlatch.prks = s.prks := rfl
@[simp] theorem State.unlatch_rings : s.unlatch.rings = s.rings := rfl
@[simp] theorem State.unlatch_evq : s.unlatch.evq = s.evq := rfl
@[simp] theorem State.unlatch_rrNext : s.unlatch.rrNext = s.rrNext := rfl
@[simp] theorem State.unlatch_jobs : s.unlatch.jobs = s.jobs := rfl
@[simp] theorem State.unlatch_groups : s.unlatch.groups = s.groups := rfl
@[simp] theorem State.unlatch_tiles : s.unlatch.tiles = s.tiles := rfl
@[simp] theorem State.unlatch_spares : s.unlatch.spares = s.spares := rfl
@[simp] theorem State.unlatch_mem : s.unlatch.mem = s.mem := rfl
@[simp] theorem State.unlatch_linePoison : s.unlatch.linePoison = s.linePoison := rfl
@[simp] theorem State.unlatch_hbm : s.unlatch.hbm = s.hbm := rfl
@[simp] theorem State.unlatch_poisonRequests : s.unlatch.poisonRequests = s.poisonRequests := rfl
@[simp] theorem State.unlatch_nearScrub : s.unlatch.nearScrub = s.nearScrub := rfl
@[simp] theorem State.unlatch_link : s.unlatch.link = s.link := rfl
@[simp] theorem State.unlatch_errs : s.unlatch.errs = s.errs := rfl
@[simp] theorem State.unlatch_dies : s.unlatch.dies = s.dies := rfl
@[simp] theorem State.unlatch_power : s.unlatch.power = s.power := rfl
@[simp] theorem State.unlatch_pins : s.unlatch.pins = s.pins := rfl
@[simp] theorem State.unlatch_trust : s.unlatch.trust = s.trust := rfl
@[simp] theorem State.unlatch_mbx : s.unlatch.mbx = s.mbx := rfl
@[simp] theorem State.unlatch_bodkin : s.unlatch.bodkin = s.bodkin := rfl
@[simp] theorem State.unlatch_cvus : s.unlatch.cvus = s.cvus := rfl
@[simp] theorem State.unlatch_boot : s.unlatch.boot = s.boot := rfl
@[simp] theorem State.unlatch_flash : s.unlatch.flash = s.flash := rfl
@[simp] theorem State.unlatch_jtag : s.unlatch.jtag = s.jtag := rfl

/-! ## State.interrupt -/

@[simp] theorem State.interrupt_pending (v : Nat) : (s.interrupt v).pending = s.pending := rfl
@[simp] theorem State.interrupt_clock (v : Nat) : (s.interrupt v).clock = s.clock := rfl
@[simp] theorem State.interrupt_freeCount (v : Nat) : (s.interrupt v).freeCount = s.freeCount := rfl
@[simp] theorem State.interrupt_resp (v : Nat) : (s.interrupt v).resp = s.resp := rfl
@[simp] theorem State.interrupt_msix (v : Nat) : (s.interrupt v).msix = s.msix ++ [v] := rfl
@[simp] theorem State.interrupt_pageRequests (v : Nat) : (s.interrupt v).pageRequests = s.pageRequests := rfl
@[simp] theorem State.interrupt_sel (v : Nat) : (s.interrupt v).sel = s.sel := rfl
@[simp] theorem State.interrupt_readLatch (v : Nat) : (s.interrupt v).readLatch = s.readLatch := rfl
@[simp] theorem State.interrupt_lowHeld (v : Nat) : (s.interrupt v).lowHeld = s.lowHeld := rfl
@[simp] theorem State.interrupt_mode (v : Nat) : (s.interrupt v).mode = s.mode := rfl
@[simp] theorem State.interrupt_wdog (v : Nat) : (s.interrupt v).wdog = s.wdog := rfl
@[simp] theorem State.interrupt_cancelTag (v : Nat) : (s.interrupt v).cancelTag = s.cancelTag := rfl
@[simp] theorem State.interrupt_cancelRing (v : Nat) : (s.interrupt v).cancelRing = s.cancelRing := rfl
@[simp] theorem State.interrupt_cancelResult (v : Nat) : (s.interrupt v).cancelResult = s.cancelResult := rfl
@[simp] theorem State.interrupt_jobAge (v : Nat) : (s.interrupt v).jobAge = s.jobAge := rfl
@[simp] theorem State.interrupt_halt (v : Nat) : (s.interrupt v).halt = s.halt := rfl
@[simp] theorem State.interrupt_telemSel (v : Nat) : (s.interrupt v).telemSel = s.telemSel := rfl
@[simp] theorem State.interrupt_tele (v : Nat) : (s.interrupt v).tele = s.tele := rfl
@[simp] theorem State.interrupt_psetLoader (v : Nat) : (s.interrupt v).psetLoader = s.psetLoader := rfl
@[simp] theorem State.interrupt_psets (v : Nat) : (s.interrupt v).psets = s.psets := rfl
@[simp] theorem State.interrupt_prkLoader (v : Nat) : (s.interrupt v).prkLoader = s.prkLoader := rfl
@[simp] theorem State.interrupt_prks (v : Nat) : (s.interrupt v).prks = s.prks := rfl
@[simp] theorem State.interrupt_rings (v : Nat) : (s.interrupt v).rings = s.rings := rfl
@[simp] theorem State.interrupt_evq (v : Nat) : (s.interrupt v).evq = s.evq := rfl
@[simp] theorem State.interrupt_rrNext (v : Nat) : (s.interrupt v).rrNext = s.rrNext := rfl
@[simp] theorem State.interrupt_jobs (v : Nat) : (s.interrupt v).jobs = s.jobs := rfl
@[simp] theorem State.interrupt_groups (v : Nat) : (s.interrupt v).groups = s.groups := rfl
@[simp] theorem State.interrupt_tiles (v : Nat) : (s.interrupt v).tiles = s.tiles := rfl
@[simp] theorem State.interrupt_spares (v : Nat) : (s.interrupt v).spares = s.spares := rfl
@[simp] theorem State.interrupt_mem (v : Nat) : (s.interrupt v).mem = s.mem := rfl
@[simp] theorem State.interrupt_linePoison (v : Nat) : (s.interrupt v).linePoison = s.linePoison := rfl
@[simp] theorem State.interrupt_hbm (v : Nat) : (s.interrupt v).hbm = s.hbm := rfl
@[simp] theorem State.interrupt_poisonRequests (v : Nat) : (s.interrupt v).poisonRequests = s.poisonRequests := rfl
@[simp] theorem State.interrupt_nearScrub (v : Nat) : (s.interrupt v).nearScrub = s.nearScrub := rfl
@[simp] theorem State.interrupt_link (v : Nat) : (s.interrupt v).link = s.link := rfl
@[simp] theorem State.interrupt_errs (v : Nat) : (s.interrupt v).errs = s.errs := rfl
@[simp] theorem State.interrupt_dies (v : Nat) : (s.interrupt v).dies = s.dies := rfl
@[simp] theorem State.interrupt_power (v : Nat) : (s.interrupt v).power = s.power := rfl
@[simp] theorem State.interrupt_pins (v : Nat) : (s.interrupt v).pins = s.pins := rfl
@[simp] theorem State.interrupt_trust (v : Nat) : (s.interrupt v).trust = s.trust := rfl
@[simp] theorem State.interrupt_mbx (v : Nat) : (s.interrupt v).mbx = s.mbx := rfl
@[simp] theorem State.interrupt_bodkin (v : Nat) : (s.interrupt v).bodkin = s.bodkin := rfl
@[simp] theorem State.interrupt_cvus (v : Nat) : (s.interrupt v).cvus = s.cvus := rfl
@[simp] theorem State.interrupt_boot (v : Nat) : (s.interrupt v).boot = s.boot := rfl
@[simp] theorem State.interrupt_flash (v : Nat) : (s.interrupt v).flash = s.flash := rfl
@[simp] theorem State.interrupt_jtag (v : Nat) : (s.interrupt v).jtag = s.jtag := rfl

/-! ## State.countMax -/

@[simp] theorem State.countMax_pending (c : Ctr) (i v : Nat) : (s.countMax c i v).pending = s.pending := rfl
@[simp] theorem State.countMax_clock (c : Ctr) (i v : Nat) : (s.countMax c i v).clock = s.clock := rfl
@[simp] theorem State.countMax_freeCount (c : Ctr) (i v : Nat) : (s.countMax c i v).freeCount = s.freeCount := rfl
@[simp] theorem State.countMax_resp (c : Ctr) (i v : Nat) : (s.countMax c i v).resp = s.resp := rfl
@[simp] theorem State.countMax_msix (c : Ctr) (i v : Nat) : (s.countMax c i v).msix = s.msix := rfl
@[simp] theorem State.countMax_pageRequests (c : Ctr) (i v : Nat) : (s.countMax c i v).pageRequests =
    s.pageRequests := rfl
@[simp] theorem State.countMax_sel (c : Ctr) (i v : Nat) : (s.countMax c i v).sel = s.sel := rfl
@[simp] theorem State.countMax_readLatch (c : Ctr) (i v : Nat) : (s.countMax c i v).readLatch = s.readLatch := rfl
@[simp] theorem State.countMax_lowHeld (c : Ctr) (i v : Nat) : (s.countMax c i v).lowHeld = s.lowHeld := rfl
@[simp] theorem State.countMax_mode (c : Ctr) (i v : Nat) : (s.countMax c i v).mode = s.mode := rfl
@[simp] theorem State.countMax_wdog (c : Ctr) (i v : Nat) : (s.countMax c i v).wdog = s.wdog := rfl
@[simp] theorem State.countMax_cancelTag (c : Ctr) (i v : Nat) : (s.countMax c i v).cancelTag = s.cancelTag := rfl
@[simp] theorem State.countMax_cancelRing (c : Ctr) (i v : Nat) : (s.countMax c i v).cancelRing = s.cancelRing := rfl
@[simp] theorem State.countMax_cancelResult (c : Ctr) (i v : Nat) : (s.countMax c i v).cancelResult =
    s.cancelResult := rfl
@[simp] theorem State.countMax_jobAge (c : Ctr) (i v : Nat) : (s.countMax c i v).jobAge = s.jobAge := rfl
@[simp] theorem State.countMax_halt (c : Ctr) (i v : Nat) : (s.countMax c i v).halt = s.halt := rfl
@[simp] theorem State.countMax_telemSel (c : Ctr) (i v : Nat) : (s.countMax c i v).telemSel = s.telemSel := rfl
@[simp] theorem State.countMax_tele (c : Ctr) (i v : Nat) : (s.countMax c i v).tele =
    Telemetry.set s.tele c i (max (Telemetry.get s.tele c i) (sat c.width v)) := rfl
@[simp] theorem State.countMax_psetLoader (c : Ctr) (i v : Nat) : (s.countMax c i v).psetLoader = s.psetLoader := rfl
@[simp] theorem State.countMax_psets (c : Ctr) (i v : Nat) : (s.countMax c i v).psets = s.psets := rfl
@[simp] theorem State.countMax_prkLoader (c : Ctr) (i v : Nat) : (s.countMax c i v).prkLoader = s.prkLoader := rfl
@[simp] theorem State.countMax_prks (c : Ctr) (i v : Nat) : (s.countMax c i v).prks = s.prks := rfl
@[simp] theorem State.countMax_rings (c : Ctr) (i v : Nat) : (s.countMax c i v).rings = s.rings := rfl
@[simp] theorem State.countMax_evq (c : Ctr) (i v : Nat) : (s.countMax c i v).evq = s.evq := rfl
@[simp] theorem State.countMax_rrNext (c : Ctr) (i v : Nat) : (s.countMax c i v).rrNext = s.rrNext := rfl
@[simp] theorem State.countMax_jobs (c : Ctr) (i v : Nat) : (s.countMax c i v).jobs = s.jobs := rfl
@[simp] theorem State.countMax_groups (c : Ctr) (i v : Nat) : (s.countMax c i v).groups = s.groups := rfl
@[simp] theorem State.countMax_tiles (c : Ctr) (i v : Nat) : (s.countMax c i v).tiles = s.tiles := rfl
@[simp] theorem State.countMax_spares (c : Ctr) (i v : Nat) : (s.countMax c i v).spares = s.spares := rfl
@[simp] theorem State.countMax_mem (c : Ctr) (i v : Nat) : (s.countMax c i v).mem = s.mem := rfl
@[simp] theorem State.countMax_linePoison (c : Ctr) (i v : Nat) : (s.countMax c i v).linePoison = s.linePoison := rfl
@[simp] theorem State.countMax_hbm (c : Ctr) (i v : Nat) : (s.countMax c i v).hbm = s.hbm := rfl
@[simp] theorem State.countMax_poisonRequests (c : Ctr) (i v : Nat) : (s.countMax c i v).poisonRequests =
    s.poisonRequests := rfl
@[simp] theorem State.countMax_nearScrub (c : Ctr) (i v : Nat) : (s.countMax c i v).nearScrub = s.nearScrub := rfl
@[simp] theorem State.countMax_link (c : Ctr) (i v : Nat) : (s.countMax c i v).link = s.link := rfl
@[simp] theorem State.countMax_errs (c : Ctr) (i v : Nat) : (s.countMax c i v).errs = s.errs := rfl
@[simp] theorem State.countMax_dies (c : Ctr) (i v : Nat) : (s.countMax c i v).dies = s.dies := rfl
@[simp] theorem State.countMax_power (c : Ctr) (i v : Nat) : (s.countMax c i v).power = s.power := rfl
@[simp] theorem State.countMax_pins (c : Ctr) (i v : Nat) : (s.countMax c i v).pins = s.pins := rfl
@[simp] theorem State.countMax_trust (c : Ctr) (i v : Nat) : (s.countMax c i v).trust = s.trust := rfl
@[simp] theorem State.countMax_mbx (c : Ctr) (i v : Nat) : (s.countMax c i v).mbx = s.mbx := rfl
@[simp] theorem State.countMax_bodkin (c : Ctr) (i v : Nat) : (s.countMax c i v).bodkin = s.bodkin := rfl
@[simp] theorem State.countMax_cvus (c : Ctr) (i v : Nat) : (s.countMax c i v).cvus = s.cvus := rfl
@[simp] theorem State.countMax_boot (c : Ctr) (i v : Nat) : (s.countMax c i v).boot = s.boot := rfl
@[simp] theorem State.countMax_flash (c : Ctr) (i v : Nat) : (s.countMax c i v).flash = s.flash := rfl
@[simp] theorem State.countMax_jtag (c : Ctr) (i v : Nat) : (s.countMax c i v).jtag = s.jtag := rfl

/-! ## State.countSet -/

@[simp] theorem State.countSet_pending (c : Ctr) (i v : Nat) : (s.countSet c i v).pending = s.pending := rfl
@[simp] theorem State.countSet_clock (c : Ctr) (i v : Nat) : (s.countSet c i v).clock = s.clock := rfl
@[simp] theorem State.countSet_freeCount (c : Ctr) (i v : Nat) : (s.countSet c i v).freeCount = s.freeCount := rfl
@[simp] theorem State.countSet_resp (c : Ctr) (i v : Nat) : (s.countSet c i v).resp = s.resp := rfl
@[simp] theorem State.countSet_msix (c : Ctr) (i v : Nat) : (s.countSet c i v).msix = s.msix := rfl
@[simp] theorem State.countSet_pageRequests (c : Ctr) (i v : Nat) : (s.countSet c i v).pageRequests =
    s.pageRequests := rfl
@[simp] theorem State.countSet_sel (c : Ctr) (i v : Nat) : (s.countSet c i v).sel = s.sel := rfl
@[simp] theorem State.countSet_readLatch (c : Ctr) (i v : Nat) : (s.countSet c i v).readLatch = s.readLatch := rfl
@[simp] theorem State.countSet_lowHeld (c : Ctr) (i v : Nat) : (s.countSet c i v).lowHeld = s.lowHeld := rfl
@[simp] theorem State.countSet_mode (c : Ctr) (i v : Nat) : (s.countSet c i v).mode = s.mode := rfl
@[simp] theorem State.countSet_wdog (c : Ctr) (i v : Nat) : (s.countSet c i v).wdog = s.wdog := rfl
@[simp] theorem State.countSet_cancelTag (c : Ctr) (i v : Nat) : (s.countSet c i v).cancelTag = s.cancelTag := rfl
@[simp] theorem State.countSet_cancelRing (c : Ctr) (i v : Nat) : (s.countSet c i v).cancelRing = s.cancelRing := rfl
@[simp] theorem State.countSet_cancelResult (c : Ctr) (i v : Nat) : (s.countSet c i v).cancelResult =
    s.cancelResult := rfl
@[simp] theorem State.countSet_jobAge (c : Ctr) (i v : Nat) : (s.countSet c i v).jobAge = s.jobAge := rfl
@[simp] theorem State.countSet_halt (c : Ctr) (i v : Nat) : (s.countSet c i v).halt = s.halt := rfl
@[simp] theorem State.countSet_telemSel (c : Ctr) (i v : Nat) : (s.countSet c i v).telemSel = s.telemSel := rfl
@[simp] theorem State.countSet_tele (c : Ctr) (i v : Nat) : (s.countSet c i v).tele =
    Telemetry.set s.tele c i (sat c.width v) := rfl
@[simp] theorem State.countSet_psetLoader (c : Ctr) (i v : Nat) : (s.countSet c i v).psetLoader = s.psetLoader := rfl
@[simp] theorem State.countSet_psets (c : Ctr) (i v : Nat) : (s.countSet c i v).psets = s.psets := rfl
@[simp] theorem State.countSet_prkLoader (c : Ctr) (i v : Nat) : (s.countSet c i v).prkLoader = s.prkLoader := rfl
@[simp] theorem State.countSet_prks (c : Ctr) (i v : Nat) : (s.countSet c i v).prks = s.prks := rfl
@[simp] theorem State.countSet_rings (c : Ctr) (i v : Nat) : (s.countSet c i v).rings = s.rings := rfl
@[simp] theorem State.countSet_evq (c : Ctr) (i v : Nat) : (s.countSet c i v).evq = s.evq := rfl
@[simp] theorem State.countSet_rrNext (c : Ctr) (i v : Nat) : (s.countSet c i v).rrNext = s.rrNext := rfl
@[simp] theorem State.countSet_jobs (c : Ctr) (i v : Nat) : (s.countSet c i v).jobs = s.jobs := rfl
@[simp] theorem State.countSet_groups (c : Ctr) (i v : Nat) : (s.countSet c i v).groups = s.groups := rfl
@[simp] theorem State.countSet_tiles (c : Ctr) (i v : Nat) : (s.countSet c i v).tiles = s.tiles := rfl
@[simp] theorem State.countSet_spares (c : Ctr) (i v : Nat) : (s.countSet c i v).spares = s.spares := rfl
@[simp] theorem State.countSet_mem (c : Ctr) (i v : Nat) : (s.countSet c i v).mem = s.mem := rfl
@[simp] theorem State.countSet_linePoison (c : Ctr) (i v : Nat) : (s.countSet c i v).linePoison = s.linePoison := rfl
@[simp] theorem State.countSet_hbm (c : Ctr) (i v : Nat) : (s.countSet c i v).hbm = s.hbm := rfl
@[simp] theorem State.countSet_poisonRequests (c : Ctr) (i v : Nat) : (s.countSet c i v).poisonRequests =
    s.poisonRequests := rfl
@[simp] theorem State.countSet_nearScrub (c : Ctr) (i v : Nat) : (s.countSet c i v).nearScrub = s.nearScrub := rfl
@[simp] theorem State.countSet_link (c : Ctr) (i v : Nat) : (s.countSet c i v).link = s.link := rfl
@[simp] theorem State.countSet_errs (c : Ctr) (i v : Nat) : (s.countSet c i v).errs = s.errs := rfl
@[simp] theorem State.countSet_dies (c : Ctr) (i v : Nat) : (s.countSet c i v).dies = s.dies := rfl
@[simp] theorem State.countSet_power (c : Ctr) (i v : Nat) : (s.countSet c i v).power = s.power := rfl
@[simp] theorem State.countSet_pins (c : Ctr) (i v : Nat) : (s.countSet c i v).pins = s.pins := rfl
@[simp] theorem State.countSet_trust (c : Ctr) (i v : Nat) : (s.countSet c i v).trust = s.trust := rfl
@[simp] theorem State.countSet_mbx (c : Ctr) (i v : Nat) : (s.countSet c i v).mbx = s.mbx := rfl
@[simp] theorem State.countSet_bodkin (c : Ctr) (i v : Nat) : (s.countSet c i v).bodkin = s.bodkin := rfl
@[simp] theorem State.countSet_cvus (c : Ctr) (i v : Nat) : (s.countSet c i v).cvus = s.cvus := rfl
@[simp] theorem State.countSet_boot (c : Ctr) (i v : Nat) : (s.countSet c i v).boot = s.boot := rfl
@[simp] theorem State.countSet_flash (c : Ctr) (i v : Nat) : (s.countSet c i v).flash = s.flash := rfl
@[simp] theorem State.countSet_jtag (c : Ctr) (i v : Nat) : (s.countSet c i v).jtag = s.jtag := rfl

/-! ## State.count -/

@[simp] theorem State.count_pending (c : Ctr) (i n : Nat) : (s.count c i n).pending = s.pending := by
  unfold State.count; split <;> rfl
@[simp] theorem State.count_clock (c : Ctr) (i n : Nat) : (s.count c i n).clock = s.clock := by
  unfold State.count; split <;> rfl
@[simp] theorem State.count_freeCount (c : Ctr) (i n : Nat) : (s.count c i n).freeCount = s.freeCount := by
  unfold State.count; split <;> rfl
@[simp] theorem State.count_resp (c : Ctr) (i n : Nat) : (s.count c i n).resp = s.resp := by
  unfold State.count; split <;> rfl
@[simp] theorem State.count_msix (c : Ctr) (i n : Nat) : (s.count c i n).msix = s.msix := by
  unfold State.count; split <;> rfl
@[simp] theorem State.count_pageRequests (c : Ctr) (i n : Nat) : (s.count c i n).pageRequests = s.pageRequests := by
  unfold State.count; split <;> rfl
@[simp] theorem State.count_sel (c : Ctr) (i n : Nat) : (s.count c i n).sel = s.sel := by
  unfold State.count; split <;> rfl
@[simp] theorem State.count_readLatch (c : Ctr) (i n : Nat) : (s.count c i n).readLatch = s.readLatch := by
  unfold State.count; split <;> rfl
@[simp] theorem State.count_lowHeld (c : Ctr) (i n : Nat) : (s.count c i n).lowHeld = s.lowHeld := by
  unfold State.count; split <;> rfl
@[simp] theorem State.count_mode (c : Ctr) (i n : Nat) : (s.count c i n).mode = s.mode := by
  unfold State.count; split <;> rfl
@[simp] theorem State.count_wdog (c : Ctr) (i n : Nat) : (s.count c i n).wdog = s.wdog := by
  unfold State.count; split <;> rfl
@[simp] theorem State.count_cancelTag (c : Ctr) (i n : Nat) : (s.count c i n).cancelTag = s.cancelTag := by
  unfold State.count; split <;> rfl
@[simp] theorem State.count_cancelRing (c : Ctr) (i n : Nat) : (s.count c i n).cancelRing = s.cancelRing := by
  unfold State.count; split <;> rfl
@[simp] theorem State.count_cancelResult (c : Ctr) (i n : Nat) : (s.count c i n).cancelResult = s.cancelResult := by
  unfold State.count; split <;> rfl
@[simp] theorem State.count_jobAge (c : Ctr) (i n : Nat) : (s.count c i n).jobAge = s.jobAge := by
  unfold State.count; split <;> rfl
@[simp] theorem State.count_halt (c : Ctr) (i n : Nat) : (s.count c i n).halt = s.halt := by
  unfold State.count; split <;> rfl
@[simp] theorem State.count_telemSel (c : Ctr) (i n : Nat) : (s.count c i n).telemSel = s.telemSel := by
  unfold State.count; split <;> rfl
@[simp] theorem State.count_psetLoader (c : Ctr) (i n : Nat) : (s.count c i n).psetLoader = s.psetLoader := by
  unfold State.count; split <;> rfl
@[simp] theorem State.count_psets (c : Ctr) (i n : Nat) : (s.count c i n).psets = s.psets := by
  unfold State.count; split <;> rfl
@[simp] theorem State.count_prkLoader (c : Ctr) (i n : Nat) : (s.count c i n).prkLoader = s.prkLoader := by
  unfold State.count; split <;> rfl
@[simp] theorem State.count_prks (c : Ctr) (i n : Nat) : (s.count c i n).prks = s.prks := by
  unfold State.count; split <;> rfl
@[simp] theorem State.count_rings (c : Ctr) (i n : Nat) : (s.count c i n).rings = s.rings := by
  unfold State.count; split <;> rfl
@[simp] theorem State.count_evq (c : Ctr) (i n : Nat) : (s.count c i n).evq = s.evq := by
  unfold State.count; split <;> rfl
@[simp] theorem State.count_rrNext (c : Ctr) (i n : Nat) : (s.count c i n).rrNext = s.rrNext := by
  unfold State.count; split <;> rfl
@[simp] theorem State.count_jobs (c : Ctr) (i n : Nat) : (s.count c i n).jobs = s.jobs := by
  unfold State.count; split <;> rfl
@[simp] theorem State.count_groups (c : Ctr) (i n : Nat) : (s.count c i n).groups = s.groups := by
  unfold State.count; split <;> rfl
@[simp] theorem State.count_tiles (c : Ctr) (i n : Nat) : (s.count c i n).tiles = s.tiles := by
  unfold State.count; split <;> rfl
@[simp] theorem State.count_spares (c : Ctr) (i n : Nat) : (s.count c i n).spares = s.spares := by
  unfold State.count; split <;> rfl
@[simp] theorem State.count_mem (c : Ctr) (i n : Nat) : (s.count c i n).mem = s.mem := by
  unfold State.count; split <;> rfl
@[simp] theorem State.count_linePoison (c : Ctr) (i n : Nat) : (s.count c i n).linePoison = s.linePoison := by
  unfold State.count; split <;> rfl
@[simp] theorem State.count_hbm (c : Ctr) (i n : Nat) : (s.count c i n).hbm = s.hbm := by
  unfold State.count; split <;> rfl
@[simp] theorem State.count_poisonRequests (c : Ctr) (i n : Nat) : (s.count c i n).poisonRequests = s.poisonRequests := by
  unfold State.count; split <;> rfl
@[simp] theorem State.count_nearScrub (c : Ctr) (i n : Nat) : (s.count c i n).nearScrub = s.nearScrub := by
  unfold State.count; split <;> rfl
@[simp] theorem State.count_link (c : Ctr) (i n : Nat) : (s.count c i n).link = s.link := by
  unfold State.count; split <;> rfl
@[simp] theorem State.count_errs (c : Ctr) (i n : Nat) : (s.count c i n).errs = s.errs := by
  unfold State.count; split <;> rfl
@[simp] theorem State.count_dies (c : Ctr) (i n : Nat) : (s.count c i n).dies = s.dies := by
  unfold State.count; split <;> rfl
@[simp] theorem State.count_power (c : Ctr) (i n : Nat) : (s.count c i n).power = s.power := by
  unfold State.count; split <;> rfl
@[simp] theorem State.count_pins (c : Ctr) (i n : Nat) : (s.count c i n).pins = s.pins := by
  unfold State.count; split <;> rfl
@[simp] theorem State.count_trust (c : Ctr) (i n : Nat) : (s.count c i n).trust = s.trust := by
  unfold State.count; split <;> rfl
@[simp] theorem State.count_mbx (c : Ctr) (i n : Nat) : (s.count c i n).mbx = s.mbx := by
  unfold State.count; split <;> rfl
@[simp] theorem State.count_bodkin (c : Ctr) (i n : Nat) : (s.count c i n).bodkin = s.bodkin := by
  unfold State.count; split <;> rfl
@[simp] theorem State.count_cvus (c : Ctr) (i n : Nat) : (s.count c i n).cvus = s.cvus := by
  unfold State.count; split <;> rfl
@[simp] theorem State.count_boot (c : Ctr) (i n : Nat) : (s.count c i n).boot = s.boot := by
  unfold State.count; split <;> rfl
@[simp] theorem State.count_flash (c : Ctr) (i n : Nat) : (s.count c i n).flash = s.flash := by
  unfold State.count; split <;> rfl
@[simp] theorem State.count_jtag (c : Ctr) (i n : Nat) : (s.count c i n).jtag = s.jtag := by
  unfold State.count; split <;> rfl
/-! ## Entries -/

/-- Entry `j` after an update of entry `i`. -/
theorem State.tile_mapTile (i j : Nat) (f : Tile → Tile) :
    (s.mapTile i f).tile j = if j = i ∧ j < 208 then f (s.tile i) else s.tile j := by
  simp only [State.mapTile, State.tile, Tab.at_put]

@[simp] theorem State.tile_mapTile_self {i : Nat} (h : i < 208) (f : Tile → Tile) :
    (s.mapTile i f).tile i = f (s.tile i) := by simp [State.tile_mapTile, h]

@[simp] theorem State.tile_mapTile_other {i j : Nat} (h : j ≠ i) (f : Tile → Tile) :
    (s.mapTile i f).tile j = s.tile j := by simp [State.tile_mapTile, h]

/-- Entry `j` after an update of entry `i`. -/
theorem State.stack_mapStack (i j : Nat) (f : Stack → Stack) :
    (s.mapStack i f).stack j = if j = i ∧ j < 12 then f (s.stack i) else s.stack j := by
  simp only [State.mapStack, State.stack, Tab.at_put]

@[simp] theorem State.stack_mapStack_self {i : Nat} (h : i < 12) (f : Stack → Stack) :
    (s.mapStack i f).stack i = f (s.stack i) := by simp [State.stack_mapStack, h]

@[simp] theorem State.stack_mapStack_other {i j : Nat} (h : j ≠ i) (f : Stack → Stack) :
    (s.mapStack i f).stack j = s.stack j := by simp [State.stack_mapStack, h]

/-- Entry `j` after an update of entry `i`. -/
theorem State.ring_mapRing (i j : Nat) (f : Ring → Ring) :
    (s.mapRing i f).ring j = if j = i ∧ j < 32 then f (s.ring i) else s.ring j := by
  simp only [State.mapRing, State.ring, Tab.at_put]

@[simp] theorem State.ring_mapRing_self {i : Nat} (h : i < 32) (f : Ring → Ring) :
    (s.mapRing i f).ring i = f (s.ring i) := by simp [State.ring_mapRing, h]

@[simp] theorem State.ring_mapRing_other {i j : Nat} (h : j ≠ i) (f : Ring → Ring) :
    (s.mapRing i f).ring j = s.ring j := by simp [State.ring_mapRing, h]

/-- Entry `j` after an update of entry `i`. -/
theorem State.die_mapDie (i j : Nat) (f : Die → Die) :
    (s.mapDie i f).die j = if j = i ∧ j < 4 then f (s.die i) else s.die j := by
  simp only [State.mapDie, State.die, Tab.at_put]

@[simp] theorem State.die_mapDie_self {i : Nat} (h : i < 4) (f : Die → Die) :
    (s.mapDie i f).die i = f (s.die i) := by simp [State.die_mapDie, h]

@[simp] theorem State.die_mapDie_other {i j : Nat} (h : j ≠ i) (f : Die → Die) :
    (s.mapDie i f).die j = s.die j := by simp [State.die_mapDie, h]

/-- Entry `j` after an update of entry `i`. -/
theorem State.cvu_mapCvu (i j : Nat) (f : Cvu → Cvu) :
    (s.mapCvu i f).cvu j = if j = i ∧ j < 8 then f (s.cvu i) else s.cvu j := by
  simp only [State.mapCvu, State.cvu, Tab.at_put]

@[simp] theorem State.cvu_mapCvu_self {i : Nat} (h : i < 8) (f : Cvu → Cvu) :
    (s.mapCvu i f).cvu i = f (s.cvu i) := by simp [State.cvu_mapCvu, h]

@[simp] theorem State.cvu_mapCvu_other {i j : Nat} (h : j ≠ i) (f : Cvu → Cvu) :
    (s.mapCvu i f).cvu j = s.cvu j := by simp [State.cvu_mapCvu, h]

end Sys2Proof.Machine
end

