-- ==== Sys2Proof/Laws/Store.lean ====
section
/-!
SUPPORT. What a reader gets after a store (R322, R323): the bytes stored, and at every other address what was there
before, wherever the line is not poisoned.
-/
namespace Sys2Proof.Machine

/-! ## Lines and their homes -/

theorem stackOfOffset_line (x i : Nat) (h : x % 64 = 0) (hi : i < 64) :
    (stackOfOffset (x + i)).1 = (stackOfOffset x).1 := by
  unfold stackOfOffset
  simp only [Nat.shiftRight_eq_div_pow]
  have e : (x + i) / 2 ^ 11 = x / 2 ^ 11 := by omega
  have h1 : (x + i < 0x2400000000) ↔ (x < 0x2400000000) := by omega
  by_cases h2 : x < 0x2400000000
  · rw [if_pos (h1.2 h2), if_pos h2, e]
  · rw [if_neg (fun h3 => h2 (h1.1 h3)), if_neg h2]
    show (x + i - 0x2400000000) / 0x400000000 = (x - 0x2400000000) / 0x400000000
    omega

/-- The stack that holds an address. -/
def stackAt (a : Nat) : Option Nat := match home a with | .hbm k _ => some k | _ => none

theorem stackAt_high {a : Nat} (h : ¬ a < 0xC000000000) : stackAt a = none := by
  unfold stackAt
  split
  · rename_i k x hk
    exfalso
    unfold home at hk
    rw [if_neg h] at hk
    split at hk
    · cases hk
    · split at hk
      · dsimp only at hk
        split at hk <;> cases hk
      · split at hk <;> cases hk
  · rfl

theorem stackAt_line (a : Nat) : stackAt (lineOf a) = stackAt a := by
  have hl : lineOf a = a / 64 * 64 := rfl
  by_cases h1 : a < 0xC000000000
  · have h1' : lineOf a < 0xC000000000 := by omega
    unfold stackAt home
    rw [if_pos h1, if_pos h1']
    have e : a % 0x3000000000 = lineOf a % 0x3000000000 + a % 64 := by omega
    have ed : lineOf a / 0x3000000000 = a / 0x3000000000 := by omega
    simp only [e, ed]
    rw [stackOfOffset_line _ _ (by omega) (by omega)]
  · rw [stackAt_high h1, stackAt_high (by omega)]

theorem unmapped_line (a : Nat) : home (lineOf a) = .unmapped ↔ home a = .unmapped := by
  have hl : lineOf a = a / 64 * 64 := rfl
  unfold home
  by_cases h1 : a < 0xC000000000
  · have h1' : lineOf a < 0xC000000000 := by omega
    simp [h1, h1']
  · have h1' : ¬ lineOf a < 0xC000000000 := by omega
    rw [if_neg h1, if_neg h1']
    by_cases h2 : 0x10000000000 ≤ a ∧ a < 0x10100000000
    · have h2' : 0x10000000000 ≤ lineOf a ∧ lineOf a < 0x10100000000 := by omega
      simp [h2, h2']
    · have h2' : ¬ (0x10000000000 ≤ lineOf a ∧ lineOf a < 0x10100000000) := by omega
      rw [if_neg h2, if_neg h2']
      by_cases h3 : 0x20000000000 ≤ a ∧ a < 0x20068000000
      · have h3' : 0x20000000000 ≤ lineOf a ∧ lineOf a < 0x20068000000 := by omega
        rw [if_pos h3, if_pos h3']
        have e : a % 0x800000 = lineOf a % 0x800000 + a % 64 := by omega
        by_cases h4 : a % 0x800000 < 0x600000
        · have h4' : lineOf a % 0x800000 < 0x600000 := by omega
          simp [h4, h4']
        · have h4' : ¬ lineOf a % 0x800000 < 0x600000 := by omega
          simp [h4, h4']
      · have h3' : ¬ (0x20000000000 ≤ lineOf a ∧ lineOf a < 0x20068000000) := by omega
        rw [if_neg h3, if_neg h3']
        by_cases h4 : 2 ^ 63 ≤ a ∧ a < 2 ^ 64
        · have h4' : 2 ^ 63 ≤ lineOf a ∧ lineOf a < 2 ^ 64 := by omega
          rw [if_pos h4, if_pos h4']
        · have h4' : ¬ (2 ^ 63 ≤ lineOf a ∧ lineOf a < 2 ^ 64) := by omega
          rw [if_neg h4, if_neg h4']

theorem stackAt_lt {a k : Nat} (h : stackAt a = some k) : k < 12 := by
  by_cases h1 : a < 0xC000000000
  · unfold stackAt home at h
    rw [if_pos h1] at h
    simp only [Option.some.injEq] at h
    unfold stackOfOffset at h
    split at h
    · simp only [Nat.shiftRight_eq_div_pow] at h; omega
    · simp only at h; omega
  · rw [stackAt_high h1] at h; cases h

theorem lineOf_line (a : Nat) : lineOf (lineOf a) = lineOf a := by unfold lineOf; omega

/-! ## The byte a reader gets -/

theorem State.readByte_eq (s : State) (a : Nat) : s.readByte a =
    match stackAt a with
    | some k => (match (s.stack k).entryOf (lineOf a) with
      | some e => if bit e.mask.toNat (a % 64) then e.data.getD (a % 64) 0 else Memory.get s.mem a
      | none => Memory.get s.mem a)
    | none => if home a = .unmapped then 0 else Memory.get s.mem a := by
  unfold State.readByte stackAt
  split
  · rename_i k x hk
    rw [hk]
    all_goals dsimp only
    all_goals cases (s.stack k).entryOf (lineOf a) <;> rfl
  · rename_i hk
    rw [hk]
    all_goals rfl
  · rename_i h1 h2
    have : (match home a with | .hbm k _ => some k | _ => none : Option Nat) = none := by
      split
      · exact absurd ‹_› (h1 _ _)
      · rfl
    rw [this]
    dsimp only
    rw [if_neg h2]

theorem poisoned_line (s : State) (a : Nat) : s.poisoned (lineOf a) = s.poisoned a := by
  unfold State.poisoned; rw [lineOf_line]

/-- Masked bytes as a reader of memory gets them. -/
theorem Memory.get_putMasked {m : Memory} (w : Memory.wf m = true) (line mask i : Nat) (bs : List Byte) (x : Nat) :
    Memory.get (Memory.putMasked m line mask i bs) x =
      if line + i ≤ x ∧ x < line + i + bs.length ∧ bit mask (x - line) = true then bs.getD (x - line - i) 0
      else Memory.get m x := by
  induction bs generalizing m i with
  | nil => rw [if_neg (by simp only [List.length_nil]; omega)]; rfl
  | cons b bs ih =>
    simp only [Memory.putMasked]
    by_cases hb : bit mask i = true
    · rw [if_pos hb, ih (Memory.wf_put _ _ w), Memory.get_put w]
      by_cases hx : x = line + i
      · subst hx
        rw [if_neg (by omega), if_pos rfl, if_pos (by simp [hb])]
        simp
      · rw [if_neg hx]
        by_cases hc : line + i ≤ x ∧ x < line + i + (b :: bs).length ∧ bit mask (x - line) = true
        · rw [if_pos hc, if_pos (by simp only [List.length_cons] at hc; exact ⟨by omega, by omega, hc.2.2⟩)]
          have : x - line - i = (x - line - (i + 1)) + 1 := by omega
          rw [this]; simp
        · rw [if_neg hc, if_neg]
          intro h2; exact hc ⟨by omega, by simp only [List.length_cons]; omega, h2.2.2⟩
    · rw [if_neg hb, ih w]
      by_cases hc : line + i ≤ x ∧ x < line + i + (b :: bs).length ∧ bit mask (x - line) = true
      · have hx : x ≠ line + i := by rintro rfl; apply hb; simpa using hc.2.2
        rw [if_pos hc, if_pos (by simp only [List.length_cons] at hc; exact ⟨by omega, by omega, hc.2.2⟩)]
        have : x - line - i = (x - line - (i + 1)) + 1 := by omega
        rw [this]; simp
      · rw [if_neg hc, if_neg]
        intro h2; exact hc ⟨by omega, by simp only [List.length_cons]; omega, h2.2.2⟩

theorem Memory.get_putAll {m : Memory} (w : Memory.wf m = true) (a : Nat) (bs : List Byte) (x : Nat) :
    Memory.get (Memory.putAll m a bs) x = if a ≤ x ∧ x < a + bs.length then bs.getD (x - a) 0 else Memory.get m x := by
  by_cases h : a ≤ x ∧ x < a + bs.length
  · have e : x = a + (x - a) := by omega
    rw [if_pos h]
    conv => lhs; rw [e]
    rw [Memory.get_putAll_inside w a bs (x - a) (by omega)]
    simp [List.getD, show x - a < bs.length by omega]
  · rw [if_neg h, Memory.get_putAll_outside w _ _ _ (by omega)]

theorem entryOf_filter (u : Stack) (l x : Nat) (h : x ≠ l) :
    Stack.entryOf { u with wcb := u.wcb.filter (fun e => e.line != l) } x = u.entryOf x := by
  unfold Stack.entryOf
  dsimp only
  induction u.wcb with
  | nil => rfl
  | cons e w ih =>
    by_cases he : e.line = l
    · rw [List.filter_cons_of_neg (by simp [he]), ih, List.find?_cons]
      have : (e.line == x) = false := by rw [he]; simp; exact fun h2 => h h2.symm
      rw [this]
    · rw [List.filter_cons_of_pos (by simp [he]), List.find?_cons, List.find?_cons, ih]

theorem entryOf_filter_gone (u : Stack) (l : Nat) :
    Stack.entryOf { u with wcb := u.wcb.filter (fun e => e.line != l) } l = none := by
  unfold Stack.entryOf
  rw [List.find?_eq_none]
  intro e he
  dsimp only at he
  rw [List.mem_filter] at he
  simpa using he.2

theorem entryOf_mem {u : Stack} {k : Nat} {e : WcbEntry} (hu : u.wcbOk k = true) (he : e ∈ u.wcb) :
    u.entryOf e.line = some e := by
  rw [Stack.wcbOk_iff] at hu
  unfold Stack.entryOf
  have hn := hu.2.2
  clear hu
  generalize u.wcb = w at *
  induction w with
  | nil => cases he
  | cons x w ih =>
    rw [List.find?_cons]
    rcases List.mem_cons.1 he with rfl | h
    · simp
    · simp only [List.map_cons, List.nodup_cons] at hn
      have : x.line ≠ e.line := fun h2 => hn.1 (by rw [h2]; exact List.mem_map_of_mem h)
      rw [beq_false_of_ne this]
      exact ih h hn.2

theorem entryOf_line {u : Stack} {l : Nat} {e : WcbEntry} (h : u.entryOf l = some e) : e ∈ u.wcb ∧ e.line = l := by
  unfold Stack.entryOf at h
  exact ⟨List.mem_of_find?_eq_some h, by simpa using List.find?_some h⟩

theorem wcbOk_stack {s : State} (h : s.wcbOk = true) (k : Nat) : (s.stack k).wcbOk k = true := wcbsOk_at h k

theorem entry_ok {s : State} {k : Nat} {e : WcbEntry} (hw : s.wcbOk = true) (he : e ∈ (s.stack k).wcb) :
    stackAt e.line = some k ∧ e.line % 64 = 0 ∧ e.data.length = 64 := by
  have h := (Stack.wcbOk_iff.1 (wcbOk_stack hw k)).2.1 e he
  unfold WcbEntry.ok at h
  simp only [Bool.and_eq_true, beq_iff_eq] at h
  obtain ⟨⟨⟨h1, h2⟩, h3⟩, _⟩ := h
  refine ⟨?_, h2, h3⟩
  unfold stackAt
  split at h1
  · simp_all
  · simp at h1

theorem stack_mapStack_ne {s : State} {k j : Nat} {f : Stack → Stack} (h : j ≠ k) : (s.mapStack k f).stack j = s.stack j := by
  unfold State.mapStack State.stack; rw [Tab.at_put, if_neg (fun h2 => h h2.1)]

theorem stack_mapStack_same {s : State} {k : Nat} {f : Stack → Stack} (h : k < 12) : (s.mapStack k f).stack k = f (s.stack k) := by
  unfold State.mapStack State.stack; rw [Tab.at_put, if_pos ⟨rfl, h⟩]

theorem bit_full (i : Nat) (h : i < 64) : bit fullMask i = true := by
  have : ∀ i : Fin 64, bit fullMask i.1 = true := by decide
  exact this ⟨i, h⟩

theorem line_facts (a l : Nat) (h : l % 64 = 0) : lineOf a = l ↔ l ≤ a ∧ a < l + 64 := by
  unfold lineOf; omega

/-! ## Write-back of an entry -/

theorem State.readByte_congr {s t : State} {a : Nat} (h1 : ∀ k, stackAt a = some k → t.stack k = s.stack k)
    (h2 : t.mem = s.mem) : t.readByte a = s.readByte a := by
  rw [State.readByte_eq, State.readByte_eq, h2]
  cases h : stackAt a with
  | none => rfl
  | some k => dsimp only; rw [h1 k h]

/-- What the write-combining buffer of the stack of an address holds for it, apart from the stored byte. -/
theorem State.readByte_none {s : State} {a k : Nat} (h : stackAt a = some k) (h2 : (s.stack k).entryOf (lineOf a) = none) :
    s.readByte a = Memory.get s.mem a := by
  rw [State.readByte_eq, h]; dsimp only; rw [h2]

theorem State.readByte_some {s : State} {a k : Nat} {e : WcbEntry} (h : stackAt a = some k)
    (h2 : (s.stack k).entryOf (lineOf a) = some e) :
    s.readByte a = if bit e.mask.toNat (a % 64) then e.data.getD (a % 64) 0 else Memory.get s.mem a := by
  rw [State.readByte_eq, h]; dsimp only; rw [h2]

theorem State.readByte_high {s : State} {a : Nat} (h : stackAt a = none) :
    s.readByte a = if home a = .unmapped then 0 else Memory.get s.mem a := by
  rw [State.readByte_eq, h]

/-- An entry gone whose bytes memory holds. -/
theorem readByte_merged {s t : State} {k : Nat} {e : WcbEntry} (h1 : stackAt e.line = some k)
    (hent : (s.stack k).entryOf e.line = some e) (a : Nat)
    (t1 : ∀ j, j ≠ k → t.stack j = s.stack j)
    (t2 : (t.stack k).wcb = (s.stack k).wcb.filter (fun x => x.line != e.line))
    (t3 : Memory.get t.mem a = if lineOf a = e.line ∧ bit e.mask.toNat (a % 64) = true then e.data.getD (a % 64) 0
      else Memory.get s.mem a) : t.readByte a = s.readByte a := by
  by_cases hl : lineOf a = e.line
  · have hs : stackAt a = some k := by rw [← stackAt_line, hl, h1]
    have hn : (t.stack k).entryOf (lineOf a) = none := by
      have := entryOf_filter_gone (s.stack k) e.line
      unfold Stack.entryOf at *
      rw [t2, hl]; exact this
    rw [State.readByte_none hs hn, State.readByte_some hs (by rw [hl]; exact hent), t3]
    simp [hl]
  · rw [if_neg (fun h => hl h.1)] at t3
    rw [State.readByte_eq, State.readByte_eq, t3]
    cases hs : stackAt a with
    | none => rfl
    | some j =>
      dsimp only
      by_cases hj : j = k
      · subst hj
        have := entryOf_filter (s.stack j) e.line (lineOf a) hl
        have : (t.stack j).entryOf (lineOf a) = (s.stack j).entryOf (lineOf a) := by
          unfold Stack.entryOf at *
          rw [t2]; exact this
        rw [this]
      · rw [t1 j hj]

theorem get_line_putMasked {m : Memory} (w : Memory.wf m = true) {line mask : Nat} {data : List Byte} (hl : line % 64 = 0)
    (hd : data.length = 64) (a : Nat) : Memory.get (Memory.putMasked m line mask 0 data) a =
      if lineOf a = line ∧ bit mask (a % 64) = true then data.getD (a % 64) 0 else Memory.get m a := by
  rw [Memory.get_putMasked w]
  by_cases h : lineOf a = line
  · have hr := (line_facts a line hl).1 h
    have ha : a - line = a % 64 := by omega
    rw [ha]
    by_cases hb : bit mask (a % 64) = true
    · rw [if_pos ⟨by omega, by omega, hb⟩, if_pos ⟨h, hb⟩]; rfl
    · rw [if_neg (fun h => hb h.2.2), if_neg (fun h => hb h.2)]
  · have hr : ¬ (line ≤ a ∧ a < line + 64) := fun h2 => h ((line_facts a line hl).2 h2)
    rw [if_neg (by omega), if_neg (fun h2 => h h2.1)]

theorem get_line_putAll {m : Memory} (w : Memory.wf m = true) {line mask : Nat} {data : List Byte} (hl : line % 64 = 0)
    (hd : data.length = 64) (hf : mask = fullMask) (a : Nat) : Memory.get (Memory.putAll m line data) a =
      if lineOf a = line ∧ bit mask (a % 64) = true then data.getD (a % 64) 0 else Memory.get m a := by
  rw [Memory.get_putAll w, hf]
  have hb := bit_full (a % 64) (by omega)
  by_cases h : lineOf a = line
  · have hr := (line_facts a line hl).1 h
    have ha : a - line = a % 64 := by omega
    rw [ha, if_pos ⟨by omega, by omega⟩, if_pos ⟨h, hb⟩]
  · have hr : ¬ (line ≤ a ∧ a < line + 64) := fun h2 => h ((line_facts a line hl).2 h2)
    rw [if_neg (by omega), if_neg (fun h2 => h h2.1)]

/-- The write-back of an entry (R323) leaves what a reader gets alone. -/
theorem State.writeBack_read {s : State} {k : Nat} {e : WcbEntry} (h1 : stackAt e.line = some k) (h2 : e.line % 64 = 0)
    (h3 : e.data.length = 64) (hent : (s.stack k).entryOf e.line = some e) (hm : Memory.wf s.mem = true)
    (a : Nat) (hp : s.poisoned a = false) : (s.writeBack k e).readByte a = s.readByte a := by
  have hk : k < 12 := stackAt_lt h1
  unfold State.writeBack
  generalize hs1 : s.mapStack k (fun u => { u with wcb := u.wcb.filter (fun x => x.line != e.line) }) = s1
  have e1 : s1.mem = s.mem := by rw [← hs1]; simp
  have e2 : s1.linePoison = s.linePoison := by rw [← hs1]; simp
  have e3 : ∀ j, j ≠ k → s1.stack j = s.stack j := fun j hj => by rw [← hs1]; exact stack_mapStack_ne hj
  have e4 : (s1.stack k).wcb = (s.stack k).wcb.filter (fun x => x.line != e.line) := by
    rw [← hs1, stack_mapStack_same hk]
  dsimp only
  split
  · rename_i hf
    refine readByte_merged h1 hent a e3 e4 ?_
    show Memory.get (Memory.putAll s1.mem e.line e.data) a = _
    rw [e1]
    exact get_line_putAll hm h2 h3 hf a
  · generalize hs2 : State.count .memTokens 0 82 (State.count .wcbRmw k 1 s1) = s2
    have f1 : s2.mem = s.mem := by rw [← hs2]; simp [e1]
    have f2 : s2.linePoison = s.linePoison := by rw [← hs2]; simp [e2]
    have f0 : s2.hbm = s1.hbm := by rw [← hs2]; simp
    have f3 : ∀ j, j ≠ k → s2.stack j = s.stack j := fun j hj => by unfold State.stack; rw [f0]; exact e3 j hj
    have f4 : (s2.stack k).wcb = (s.stack k).wcb.filter (fun x => x.line != e.line) := by
      unfold State.stack; rw [f0]; exact e4
    split
    · rename_i hq
      refine readByte_merged h1 hent a (fun j hj => ?_) ?_ ?_
      · unfold State.stack; simp; exact f3 j hj
      · unfold State.stack; simp; exact f4
      · simp [f1]
        intro hl _
        exfalso
        have : s.poisoned e.line = true := by simpa [State.poisoned, f2] using hq
        rw [← hl, poisoned_line, hp] at this
        cases this
    · refine readByte_merged h1 hent a f3 f4 ?_
      show Memory.get (Memory.putMasked s2.mem e.line e.mask.toNat 0 e.data) a = _
      rw [f1]
      exact get_line_putMasked hm h2 h3 a

/-! ## One line accepted -/

theorem bit_or (x y i : Nat) : bit (x ||| y) i = (bit x i || bit y i) := by
  have h : ∀ v, bit v i = v.testBit i := by
    intro v
    rw [Nat.testBit_eq_decide_div_mod_eq]
    unfold bit
    rw [Nat.shiftRight_eq_div_pow]
    by_cases h : v / 2 ^ i % 2 = 1 <;> simp [h]
  rw [h, h, h, Nat.testBit_or]

theorem bit_zero (i : Nat) : bit 0 i = false := by
  unfold bit; simp

theorem mergeBytes_getD (old new : List Byte) (mask i : Nat) (h : i < 64) :
    (mergeBytes old new mask).getD i 0 = if bit mask i then new.getD i 0 else old.getD i 0 := by
  unfold mergeBytes
  simp [List.getD, h]

/-- Another table of write-combining entries in one stack, the rest as before: what a reader gets. -/
theorem readByte_entry {s t : State} {k line : Nat} {d : Nat → Byte} {m : Nat → Bool} (h1 : stackAt line = some k) (a : Nat)
    (t1 : ∀ j, j ≠ k → t.stack j = s.stack j)
    (t2 : ∀ l, l ≠ line → (t.stack k).entryOf l = (s.stack k).entryOf l)
    (t3 : lineOf a ≠ line → Memory.get t.mem a = Memory.get s.mem a)
    (t4 : lineOf a = line → (match (t.stack k).entryOf line with
      | some e => if bit e.mask.toNat (a % 64) then e.data.getD (a % 64) 0 else Memory.get t.mem a
      | none => Memory.get t.mem a) = if m (a % 64) then d (a % 64) else s.readByte a) :
    t.readByte a = if lineOf a = line ∧ m (a % 64) = true then d (a % 64) else s.readByte a := by
  by_cases hl : lineOf a = line
  · have hs : stackAt a = some k := by rw [← stackAt_line, hl, h1]
    rw [State.readByte_eq, hs]
    dsimp only
    rw [hl, t4 hl]
    by_cases hb : m (a % 64) = true
    · rw [if_pos hb, if_pos ⟨rfl, hb⟩]
    · rw [if_neg hb, if_neg (fun h => hb h.2)]
  · rw [if_neg (fun h => hl h.1), State.readByte_eq, State.readByte_eq, t3 hl]
    cases hs : stackAt a with
    | none => rfl
    | some j =>
      dsimp only
      by_cases hj : j = k
      · subst hj; rw [t2 _ hl]
      · rw [t1 j hj]

theorem readByte_noEntry {s t : State} {k line : Nat} {d : Nat → Byte} {m : Nat → Bool} (h1 : stackAt line = some k) (a : Nat)
    (t1 : ∀ j, j ≠ k → t.stack j = s.stack j)
    (t2 : ∀ l, l ≠ line → (t.stack k).entryOf l = (s.stack k).entryOf l)
    (t3 : lineOf a ≠ line → Memory.get t.mem a = Memory.get s.mem a)
    (t5 : (t.stack k).entryOf line = none)
    (t6 : lineOf a = line → Memory.get t.mem a = if m (a % 64) then d (a % 64) else s.readByte a) :
    t.readByte a = if lineOf a = line ∧ m (a % 64) = true then d (a % 64) else s.readByte a :=
  readByte_entry h1 a t1 t2 t3 (fun he => by rw [t5]; exact t6 he)

theorem entryOf_replace (u : Stack) (e' : WcbEntry) (l : Nat) :
    Stack.entryOf { u with wcb := u.wcb.map (fun x => if x.line == e'.line then e' else x) } l =
      if l = e'.line ∧ (u.entryOf l).isSome = true then some e' else u.entryOf l := by
  unfold Stack.entryOf
  dsimp only
  induction u.wcb with
  | nil => simp
  | cons x w ih =>
    rw [List.map_cons, List.find?_cons, List.find?_cons, ih]
    by_cases hx : x.line = e'.line
    · by_cases hl : l = e'.line
      · subst hl; simp [hx]
      · have h1 : (e'.line == l) = false := by simp; exact fun h => hl h.symm
        have h2 : (x.line == l) = false := by rw [hx]; exact h1
        simp [hx, h1, hl]
    · by_cases hl : x.line = l
      · have : l ≠ e'.line := by rw [← hl]; exact hx
        simp [hl, this]
      · have h2 : (x.line == l) = false := by simp [hl]
        simp [hx, h2]

theorem entryOf_append (u : Stack) (e : WcbEntry) (l : Nat) :
    Stack.entryOf { u with wcb := u.wcb ++ [e] } l = match u.entryOf l with
      | some x => some x
      | none => if e.line = l then some e else none := by
  unfold Stack.entryOf
  dsimp only
  rw [List.find?_append]
  cases u.wcb.find? (fun e => e.line == l) with
  | some x => rfl
  | none => by_cases h : e.line = l <;> simp [h]

/-- A line accepted (R322, Table MS.3): a reader gets the bytes its mask names, and at every other address what was there
before, wherever the line was not poisoned; a full line is not asked for that. -/
theorem State.acceptLine_read {s : State} {line mask : Nat} {data : List Byte} (hw : s.wcbOk = true)
    (hm : Memory.wf s.mem = true) (hl : line % 64 = 0) (hh : home line ≠ .unmapped) (hd : data.length = 64)
    (hk : mask < 2 ^ 64) (a : Nat) (hp : mask = fullMask ∨ s.poisoned a = false) :
    (s.acceptLine line mask data).readByte a =
      if lineOf a = line ∧ bit mask (a % 64) = true then data.getD (a % 64) 0 else s.readByte a := by
  unfold State.acceptLine
  by_cases h0 : mask = 0
  · rw [if_pos h0, h0, if_neg (fun h => by rw [bit_zero] at h; cases h.2)]
  rw [if_neg h0]
  have hline : ∀ t : State, (∀ j, t.stack j = s.stack j) → stackAt line = none →
      (Memory.get t.mem a = if lineOf a = line ∧ bit mask (a % 64) = true then data.getD (a % 64) 0
        else Memory.get s.mem a) →
      t.readByte a = if lineOf a = line ∧ bit mask (a % 64) = true then data.getD (a % 64) 0 else s.readByte a := by
    intro t ht hs hg
    by_cases hla : lineOf a = line
    · have hs' : stackAt a = none := by rw [← stackAt_line, hla, hs]
      have hu : home a ≠ .unmapped := by rw [← hla] at hh; exact fun h => hh ((unmapped_line a).2 h)
      rw [State.readByte_high hs', State.readByte_high hs', if_neg hu, if_neg hu, hg]
    · rw [if_neg (fun h => hla h.1)] at hg
      rw [if_neg (fun h => hla h.1)]
      rw [State.readByte_eq, State.readByte_eq, hg]
      cases stackAt a with
      | none => rfl
      | some k => dsimp only; rw [ht k]
  split
  · rename_i k x hhome
    have hs : stackAt line = some k := by unfold stackAt; rw [hhome]
    have hk12 := stackAt_lt hs
    split
    · rename_i hf
      generalize hs1 : s.mapStack k (fun u => { u with wcb := u.wcb.filter (fun x => x.line != line) }) = s1
      have e1 : s1.mem = s.mem := by rw [← hs1]; simp
      have e3 : ∀ j, j ≠ k → s1.stack j = s.stack j := fun j hj => by rw [← hs1]; exact stack_mapStack_ne hj
      have e4 : ∀ l, l ≠ line → (s1.stack k).entryOf l = (s.stack k).entryOf l := by
        intro l hne; rw [← hs1, stack_mapStack_same hk12]; exact entryOf_filter _ _ _ hne
      have e5 : (s1.stack k).entryOf line = none := by
        rw [← hs1, stack_mapStack_same hk12]; exact entryOf_filter_gone _ _
      refine readByte_noEntry (t := { s1 with mem := Memory.putAll s1.mem line data, linePoison := s1.linePoison.filter (· != line) })
        (d := fun i => data.getD i 0) (m := bit mask) hs a e3 e4 ?_ e5 ?_
      · intro hne
        show Memory.get (Memory.putAll s1.mem line data) a = _
        rw [e1, get_line_putAll hm hl hd hf, if_neg (fun h => hne h.1)]
      · intro he
        show Memory.get (Memory.putAll s1.mem line data) a = _
        rw [e1, get_line_putAll hm hl hd hf]
        simp only [he, hf, bit_full (a % 64) (by omega)]
        simp
    · rename_i hf
      replace hp := hp.resolve_left hf
      generalize hs1 : State.count .wcbMerges k 1 s = s1
      have e1 : s1.mem = s.mem := by rw [← hs1]; simp
      have e2 : s1.linePoison = s.linePoison := by rw [← hs1]; simp
      have e3 : s1.hbm = s.hbm := by rw [← hs1]; simp
      have e4 : ∀ j, s1.stack j = s.stack j := fun j => by unfold State.stack; rw [e3]
      have er : s1.readByte a = s.readByte a := State.readByte_congr (fun k _ => e4 k) e1
      have hw1 : s1.wcbOk = true := by unfold State.wcbOk; rw [e3]; exact hw
      have hm1 : Memory.wf s1.mem = true := by rw [e1]; exact hm
      have hp1 : s1.poisoned a = false := by unfold State.poisoned; rw [e2]; exact hp
      rw [← er]
      clear er e1 e2 e3 e4 hs1 hm hp hw hline
      dsimp only
      split
      · rename_i e hent
        obtain ⟨hmem, hel⟩ := entryOf_line hent
        obtain ⟨g1, g2, g3⟩ := entry_ok hw1 hmem
        have key : ∀ e' : WcbEntry, e'.line = line → e'.mask.toNat = (e.mask.toNat ||| mask) →
            e'.data = mergeBytes e.data data mask →
            (s1.mapStack k (fun u => { u with wcb := u.wcb.map (fun x => if x.line == line then e' else x) })).readByte a =
              (if lineOf a = line ∧ bit mask (a % 64) = true then data.getD (a % 64) 0 else s1.readByte a) ∧
            (State.writeBack k e' (s1.mapStack k (fun u =>
              { u with wcb := u.wcb.map (fun x => if x.line == line then e' else x) }))).readByte a =
              (if lineOf a = line ∧ bit mask (a % 64) = true then data.getD (a % 64) 0 else s1.readByte a) := by
          intro e' hel' hm' hd'
          generalize hs2 : s1.mapStack k (fun u => { u with wcb := u.wcb.map (fun x => if x.line == line then e' else x) }) = s2
          have f1 : s2.mem = s1.mem := by rw [← hs2]; simp
          have f2 : s2.linePoison = s1.linePoison := by rw [← hs2]; simp
          have f3 : ∀ j, j ≠ k → s2.stack j = s1.stack j := fun j hj => by rw [← hs2]; exact stack_mapStack_ne hj
          have f4 : ∀ l, (s2.stack k).entryOf l = if l = line ∧ ((s1.stack k).entryOf l).isSome = true then some e' else (s1.stack k).entryOf l := by
            intro l
            have := entryOf_replace (s1.stack k) e' l
            rw [hel'] at this
            rw [← hs2, stack_mapStack_same hk12, this]
          have hent2 : (s2.stack k).entryOf line = some e' := by rw [f4, if_pos ⟨rfl, by rw [hent]; rfl⟩]
          have hr : s2.readByte a = if lineOf a = line ∧ bit mask (a % 64) = true then data.getD (a % 64) 0 else s1.readByte a := by
            refine readByte_entry (d := fun i => data.getD i 0) (m := bit mask) hs a f3 ?_ ?_ ?_
            · intro l hne; rw [f4, if_neg (fun h => hne h.1)]
            · intro _; rw [f1]
            · intro he
              rw [hent2]
              dsimp only
              rw [hm', hd', bit_or, mergeBytes_getD _ _ _ _ (by omega), f1]
              have hsa : stackAt a = some k := by rw [← stackAt_line, he, hs]
              rw [State.readByte_some hsa (by rw [he]; exact hent)]
              by_cases hb : bit mask (a % 64) = true
              · simp [hb]
              · simp [hb]
          refine ⟨hr, ?_⟩
          rw [State.writeBack_read (by rw [hel']; exact hs) (by rw [hel']; exact hl) (by rw [hd']; simp [mergeBytes])
            (by rw [hel']; exact hent2) (by rw [f1]; exact hm1) a (by unfold State.poisoned; rw [f2]; exact hp1)]
          exact hr
        have hmk : (e.mask ||| BitVec.ofNat 64 mask).toNat = (e.mask.toNat ||| mask) := by
          rw [BitVec.toNat_or, BitVec.toNat_ofNat, Nat.mod_eq_of_lt hk]
        split
        · exact (key { e with data := mergeBytes e.data data mask, mask := e.mask ||| BitVec.ofNat 64 mask } hel hmk rfl).2
        · exact (key { e with data := mergeBytes e.data data mask, mask := e.mask ||| BitVec.ofNat 64 mask } hel hmk rfl).1
      · rename_i hent
        have happ : ∀ s3 : State, (s3.stack k).entryOf line = none → s3.readByte a = s1.readByte a →
            ∀ since, (s3.mapStack k (fun u => { u with wcb := u.wcb ++ [{ line := line, data := mergeBytes [] data mask, mask := BitVec.ofNat 64 mask, since := since }] })).readByte a
              = if lineOf a = line ∧ bit mask (a % 64) = true then data.getD (a % 64) 0 else s1.readByte a := by
          intro s3 hn hr3 since
          rw [← hr3]
          refine readByte_entry (d := fun i => data.getD i 0) (m := bit mask) hs a ?_ ?_ ?_ ?_
          · intro j hj; exact stack_mapStack_ne hj
          · intro l hne
            rw [stack_mapStack_same hk12, entryOf_append]
            cases (s3.stack k).entryOf l with
            | some x => rfl
            | none => dsimp only; rw [if_neg (fun h => hne h.symm)]
          · intro _; simp
          · intro he
            rw [stack_mapStack_same hk12, entryOf_append, hn]
            dsimp only
            rw [if_pos rfl]
            dsimp only
            have hsa : stackAt a = some k := by rw [← stackAt_line, he, hs]
            rw [State.readByte_none hsa (by rw [he]; exact hn), mergeBytes_getD _ _ _ _ (by omega)]
            rw [show (BitVec.ofNat 64 mask).toNat = mask by rw [BitVec.toNat_ofNat, Nat.mod_eq_of_lt hk]]
            by_cases hb : bit mask (a % 64) = true
            · simp [hb]
            · simp [hb]
        cases hwl : (s1.stack k).wcb with
        | nil => exact happ s1 hent rfl _
        | cons old rest =>
          dsimp only
          split
          · have hold : old ∈ (s1.stack k).wcb := by rw [hwl]; simp
            obtain ⟨g1, g2, g3⟩ := entry_ok hw1 hold
            refine happ _ ?_ ?_ _
            · have hsub := State.writeBack_wcb s1 k old hk12
              have hx : ∀ t : State, t.hbm = (s1.writeBack k old).hbm → (t.stack k).entryOf line = none := by
                intro t ht
                unfold Stack.entryOf State.stack at *
                rw [ht, hsub, List.find?_eq_none]
                intro x hx
                rw [List.mem_filter] at hx
                exact List.find?_eq_none.1 hent x hx.1
              exact hx _ (by simp)
            · have : ∀ n, (State.count .wcbFullCycles k n (s1.writeBack k old)).readByte a = (s1.writeBack k old).readByte a := fun n =>
                State.readByte_congr (fun j _ => by unfold State.stack; simp) (by simp)
              rw [this]
              exact State.writeBack_read g1 g2 g3 (entryOf_mem (wcbOk_stack hw1 k) hold) hm1 a hp1
          · exact happ s1 hent rfl _
  · rename_i d _ hhome
    have hs : stackAt line = none := by unfold stackAt; rw [hhome]
    split
    · rename_i hf
      exact hline _ (fun j => rfl) hs (get_line_putAll hm hl hd hf a)
    · rename_i hf
      replace hp := hp.resolve_left hf
      split
      · rename_i hq
        have hc : (State.count .wcbPoisonDrop (12 + d) 1 s).readByte a = s.readByte a :=
          State.readByte_congr (fun j _ => by unfold State.stack; simp) (by simp)
        rw [if_neg]
        · exact hc
        intro h
        rw [← h.1, poisoned_line, hp] at hq
        cases hq
      · exact hline _ (fun j => rfl) hs (get_line_putMasked hm hl hd a)
  · rename_i hhome
    have hs : stackAt line = none := by unfold stackAt; rw [hhome]
    exact hline _ (fun j => by unfold State.stack; simp) hs (by simp only [State.mapTile_mem]; exact get_line_putMasked hm hl hd a)
  · rename_i hhome; exact absurd hhome hh
  · rename_i hhome
    have hs : stackAt line = none := by unfold stackAt; rw [hhome]
    exact hline _ (fun j => rfl) hs (get_line_putMasked hm hl hd a)

/-! ## Stores -/

theorem poisoned_filter {s t : State} {l : Nat} (h : t.linePoison = s.linePoison.filter (· != l)) (a : Nat)
    (hp : s.poisoned a = false) : t.poisoned a = false := by
  unfold State.poisoned at *
  rw [h]
  simp only [List.contains_eq_mem, decide_eq_false_iff_not, List.mem_filter] at *
  exact fun h2 => hp h2.1

/-- A write-back poisons no line. -/
theorem State.writeBack_poison {s : State} {k : Nat} {e : WcbEntry} (a : Nat) (hp : s.poisoned a = false) :
    (s.writeBack k e).poisoned a = false := by
  unfold State.writeBack
  dsimp only
  split
  · apply poisoned_filter (s := s) (l := e.line) _ a hp
    simp
  · split
    · simpa [State.poisoned] using hp
    · show (State.count .memTokens 0 82 (State.count .wcbRmw k 1 _)).poisoned a = false
      simpa [State.poisoned] using hp

/-- A line accepted poisons no line. -/
theorem State.acceptLine_poison {s : State} {line mask : Nat} {data : List Byte} (a : Nat) (hp : s.poisoned a = false) :
    (s.acceptLine line mask data).poisoned a = false := by
  unfold State.acceptLine
  have hc : ∀ k, (State.count .wcbMerges k 1 s).poisoned a = false := fun k => by simpa [State.poisoned] using hp
  have hwb : ∀ (k n : Nat) (e : WcbEntry) (s : State), s.poisoned a = false →
      (State.count .wcbFullCycles k n (s.writeBack k e)).poisoned a = false := fun k n e s h => by
    have := State.writeBack_poison (k := k) (e := e) a h
    simpa [State.poisoned] using this
  have hmap : ∀ (s : State) k f, s.poisoned a = false → (s.mapStack k f).poisoned a = false := fun s k f h => by
    simpa [State.poisoned] using h
  split
  · exact hp
  · split
    · split
      · apply poisoned_filter (s := s) (l := line) _ a hp
        simp
      · dsimp only
        split
        · split
          · exact State.writeBack_poison a (hmap _ _ _ (hc _))
          · exact hmap _ _ _ (hc _)
        · apply hmap
          split
          · split
            · exact hwb _ _ _ _ (hc _)
            · exact hc _
          · exact hc _
    · split
      · exact poisoned_filter (s := s) (l := line) rfl a hp
      · split
        · simpa [State.poisoned] using hp
        · exact hp
    · simpa [State.poisoned] using hp
    · exact hp
    · exact hp

theorem bit_lineMask (l a n i : Nat) (h : i < 64) : bit (lineMask l a n) i = decide (a ≤ l + i ∧ l + i < a + n) := by
  have ht : ∀ v, bit v i = v.testBit i := by
    intro v
    rw [Nat.testBit_eq_decide_div_mod_eq]
    unfold bit
    rw [Nat.shiftRight_eq_div_pow]
    by_cases h : v / 2 ^ i % 2 = 1 <;> simp [h]
  rw [ht]
  unfold lineMask
  dsimp only
  split
  · simp; omega
  · rw [Nat.testBit_mul_two_pow, Nat.testBit_two_pow_sub_one]
    by_cases h1 : a ≤ l + i ∧ l + i < a + n
    · rw [decide_eq_true h1]
      simp; omega
    · rw [decide_eq_false h1]
      simp; omega

theorem lineData_getD (l a : Nat) (bs : List Byte) (i : Nat) (h : i < 64) (h2 : a ≤ l + i) :
    (lineData l a bs).getD i 0 = bs.getD (l + i - a) 0 := by
  unfold lineData
  simp [List.getD, h, h2]

theorem linesOf_mem {a n b : Nat} (h1 : a ≤ b) (h2 : b < a + n) : lineOf b ∈ linesOf a n := by
  unfold linesOf lineOf
  rw [if_neg (by omega)]
  rw [List.mem_map]
  exact ⟨b / 64 - a / 64, by rw [List.mem_range]; omega, by congr 1; omega⟩

theorem linesOf_facts {a n l : Nat} (h : l ∈ linesOf a n) : l % 64 = 0 ∧ ∃ i, i < n ∧ lineOf (a + i) = l := by
  unfold linesOf at h
  split at h
  · cases h
  · rw [List.mem_map] at h
    obtain ⟨i, hi, rfl⟩ := h
    rw [List.mem_range] at hi
    refine ⟨by omega, ?_⟩
    by_cases h0 : i = 0
    · exact ⟨0, by omega, by unfold lineOf; subst h0; simp⟩
    · exact ⟨(a / 64 + i) * 64 - a, by omega, by unfold lineOf; omega⟩

/-- Bytes stored are what a reader then gets, and every other address reads as before, wherever the line was not
poisoned. -/
theorem State.store_read {s : State} {a : Nat} {bs : List Byte} (hw : s.wcbOk = true) (hm : Memory.wf s.mem = true)
    (hh : ∀ i, i < bs.length → home (a + i) ≠ .unmapped) (b : Nat) (hp : s.poisoned b = false) :
    (s.store a bs).poisoned b = false ∧
    (s.store a bs).readByte b = if a ≤ b ∧ b < a + bs.length then bs.getD (b - a) 0 else s.readByte b := by
  unfold State.store
  have hL : ∀ l ∈ linesOf a bs.length, l % 64 = 0 ∧ home l ≠ .unmapped := by
    intro l hl
    obtain ⟨h1, i, hi, h2⟩ := linesOf_facts hl
    exact ⟨h1, fun h => hh i hi ((unmapped_line _).1 (h2 ▸ h))⟩
  have key : ∀ (L : List Nat) (s : State), s.wcbOk = true → Memory.wf s.mem = true → s.poisoned b = false →
      (∀ l ∈ L, l % 64 = 0 ∧ home l ≠ .unmapped) →
      (L.foldl (fun s l => s.acceptLine l (lineMask l a bs.length) (lineData l a bs)) s).poisoned b = false ∧
      (L.foldl (fun s l => s.acceptLine l (lineMask l a bs.length) (lineData l a bs)) s).readByte b =
        if lineOf b ∈ L ∧ a ≤ b ∧ b < a + bs.length then bs.getD (b - a) 0 else s.readByte b := by
    intro L
    induction L with
    | nil => intro s _ _ hp _; exact ⟨hp, by simp⟩
    | cons l L ih =>
      intro s hw hm hp hL
      obtain ⟨g1, g2⟩ := hL l (by simp)
      have : Stores (fun _ : Part => true) :=
        { mayMem := rfl, mayLinePoison := rfl, mayHbm := rfl, mayTele := rfl, mayTMarks := rfl }
      have e := Evolves.acceptLine (F := fun _ : Part => true) (line := l) (mask := lineMask l a bs.length)
        (data := lineData l a bs) (σ := s) (Evolves.refl _ _) g1 (lineMask_lt _ _ _)
      rw [List.foldl_cons]
      have ih' := ih (s.acceptLine l (lineMask l a bs.length) (lineData l a bs)) (e.wcb hw) (e.mem hm)
        (State.acceptLine_poison b hp) (fun l hl => hL l (by simp [hl]))
      refine ⟨ih'.1, ?_⟩
      rw [ih'.2, State.acceptLine_read hw hm g1 g2 (by simp [lineData]) (lineMask_lt _ _ _) b (.inr hp), bit_lineMask _ _ _ _ (by omega)]
      by_cases h1 : lineOf b = l
      · have hr := (line_facts b l g1).1 h1
        have hb : l + b % 64 = b := by omega
        by_cases h2 : a ≤ b ∧ b < a + bs.length
        · rw [if_pos (show lineOf b ∈ l :: L ∧ a ≤ b ∧ b < a + bs.length by exact ⟨by simp [h1], h2⟩)]
          split
          · rfl
          · rw [if_pos ⟨h1, decide_eq_true (by rw [hb]; exact h2)⟩, lineData_getD _ _ _ _ (by omega) (by omega), hb]
        · rw [if_neg (fun h => h2 h.2), if_neg
            (fun h => by have := of_decide_eq_true h.2; rw [hb] at this; exact h2 this), if_neg (fun h => h2 h.2)]
      · rw [if_neg (show ¬(lineOf b = l ∧ _) from fun h => h1 h.1)]
        by_cases h2 : lineOf b ∈ L ∧ a ≤ b ∧ b < a + bs.length
        · rw [if_pos h2, if_pos ⟨by simp [h2.1], h2.2⟩]
        · rw [if_neg h2, if_neg]
          intro h
          rcases List.mem_cons.1 h.1 with h3 | h3
          · exact h1 h3
          · exact h2 ⟨h3, h.2⟩
  obtain ⟨k1, k2⟩ := key _ s hw hm hp hL
  refine ⟨k1, ?_⟩
  rw [k2]
  by_cases h : a ≤ b ∧ b < a + bs.length
  · rw [if_pos h, if_pos ⟨linesOf_mem h.1 h.2, h⟩]
  · rw [if_neg h, if_neg (fun h2 => h h2.2)]

end Sys2Proof.Machine
end

