-- ==== Sys2Proof/Laws/Events.lean ====
section
/-!
SUPPORT. What a write of host memory leaves, and an event entry with it.
-/
namespace Sys2Proof.Machine

theorem leBytes_length (n v : Nat) : (leBytes n v).length = n := by
  induction n generalizing v with
  | zero => rfl
  | succ n ih => simp [leBytes, ih]

theorem slice_length (bs : List Byte) (off n : Nat) : (slice bs off n).length = n := by
  simp only [slice, List.length_append, List.length_replicate, List.length_take, List.length_drop]
  omega

theorem EventRing.entry_length (v : EventRing) (kind : Nat) (payload : List Byte) : (v.entry kind payload).length = 64 := by
  simp [EventRing.entry, withCrc, leBytes_length, slice_length]

theorem home_host {a : Nat} (h : 2 ^ 63 ≤ a) (g : a < 2 ^ 64) : home a = .host := by
  unfold home
  rw [if_neg (by omega), if_neg (by omega), if_neg (by omega), if_pos ⟨h, g⟩]

theorem State.readRaw_eq {s : State} {a : Nat} {bs : List Byte} (h : ∀ i, i < bs.length → s.readByte (a + i) = bs.getD i 0) :
    s.readRaw a bs.length = bs := by
  apply List.ext_getElem
  · simp [State.readRaw]
  · intro i h1 h2
    simp only [State.readRaw, List.getElem_map, List.getElem_range]
    rw [h i h2]
    simp [List.getD, h2]

/-- A store to sound host memory is read back. -/
theorem State.storeHost_readRaw {s : State} {h : Nat} {bs : List Byte} (hs : s.hostSound h bs.length) :
    (s.storeHost h bs).readRaw (hostAddr h) bs.length = bs := by
  obtain ⟨hw, hm, hl, hp⟩ := hs
  have hm' : Memory.wf s.mem = true := by
    simp only [State.memoryOk, Bool.and_eq_true] at hm
    exact hm.1
  refine State.readRaw_eq fun i hi => ?_
  have ha : hostAddr h = 2 ^ 63 + h := by
    unfold hostAddr
    rw [Nat.mod_eq_of_lt (by omega)]
  have hh : ∀ j, j < bs.length → home (hostAddr h + j) ≠ .unmapped := fun j hj => by
    rw [ha, home_host (by omega) (by omega)]
    simp
  have := (State.store_read (a := hostAddr h) hw hm' hh (hostAddr h + i) (hp _ (by omega))).2
  unfold State.storeHost
  rw [this, if_pos (by omega), Nat.add_sub_cancel_left]

/-- A write of memory changes no part but those that a store may change. -/
theorem State.storeHost_same {s : State} {h : Nat} {bs : List Byte} {p : Part} (hp : Part.stored.contains p = false) :
    p.same s (s.storeHost h bs) :=
  have : Stores Part.stored.contains := { mayMem := rfl, mayLinePoison := rfl, mayHbm := rfl, mayTele := rfl, mayTMarks := rfl }
  (Evolves.refl _ s).storeHost.kept p hp

theorem State.readRaw_congr {s t : State} (hm : t.mem = s.mem) (hw : t.hbm = s.hbm) (a n : Nat) :
    t.readRaw a n = s.readRaw a n := by
  unfold State.readRaw State.readByte State.stack
  rw [hm, hw]

/-- An event entry is posted or dropped. -/
theorem State.postEvent_posted (s : State) (kind : Nat) (payload : List Byte) :
    Posted s (s.postEvent kind payload) kind payload := by
  constructor
  · intro h
    have e : s.postEvent kind payload = { s.storeHost (s.evq.base.toNat + 64 * s.evq.tail) (s.evq.entry kind payload) with
        evq := s.evq.taken }.interrupt 32 := by
      unfold State.postEvent
      simp [h]
    rw [e]
    refine ⟨rfl, ?_, fun hs => ?_⟩
    · show (s.storeHost _ _).msix ++ [32] = s.msix ++ [32]
      rw [State.storeHost_same (p := .msix) rfl]
    · have := State.storeHost_readRaw (s := s) (bs := s.evq.entry kind payload) (by rw [EventRing.entry_length]; exact hs)
      rw [EventRing.entry_length] at this
      exact (State.readRaw_congr rfl rfl _ _).trans this
  · intro h
    unfold State.postEvent
    simp [h, State.dropEvent]

end Sys2Proof.Machine
end

