-- ==== Sys2Proof/Laws/Exec.lean ====
section
/-!
SUPPORT. What any command and any step can do, from the lemma of each command.
-/
namespace Sys2Proof.Machine

theorem stores_of {F : Part → Bool} (h : Part.stored.all F = true) : Stores F := by
  simp only [Part.stored, List.all_cons, List.all_nil, Bool.and_true, Bool.and_eq_true] at h
  exact { mayMem := h.1, mayLinePoison := h.2.1, mayHbm := h.2.2.1, mayTele := h.2.2.2.1, mayTMarks := h.2.2.2.2 }

theorem raises_of {F : Part → Bool} (h : Part.raised.all F = true) : Raises F := by
  simp only [Part.raised, List.all_cons, List.all_nil, Bool.and_true, Bool.and_eq_true] at h
  exact { mayErrs := h.1, mayJobs := h.2.1, mayDies := h.2.2.1, mayPins := h.2.2.2.1, mayHbm := h.2.2.2.2.1,
          mayTele := h.2.2.2.2.2 }

theorem may_every {F : Part → Bool} (h : Part.every.all F = true) : MayAll F := by
  have g : ∀ p, p ≠ .fuses → F p = true := fun p hp =>
    (List.all_eq_true.1 h) p (by cases p <;> first | exact absurd rfl hp | decide)
  exact {
    mayClock := g _ (by decide), mayFreeCount := g _ (by decide), mayResp := g _ (by decide),
    mayMsix := g _ (by decide), mayPageRequests := g _ (by decide), maySel := g _ (by decide),
    mayReadLatch := g _ (by decide), mayLowHeld := g _ (by decide), mayMode := g _ (by decide),
    mayWdog := g _ (by decide), mayCancelTag := g _ (by decide), mayCancelRing := g _ (by decide),
    mayCancelResult := g _ (by decide), mayJobAge := g _ (by decide), mayHalt := g _ (by decide),
    mayTelemSel := g _ (by decide), mayTele := g _ (by decide), mayPsetLoader := g _ (by decide),
    mayPsets := g _ (by decide), mayPrkLoader := g _ (by decide), mayPrks := g _ (by decide),
    mayRings := g _ (by decide), mayEvq := g _ (by decide), mayRrNext := g _ (by decide),
    mayJobs := g _ (by decide), mayGroups := g _ (by decide), maySpares := g _ (by decide),
    mayMem := g _ (by decide), mayLinePoison := g _ (by decide), mayHbm := g _ (by decide),
    mayPoisonRequests := g _ (by decide), mayNearScrub := g _ (by decide), mayLink := g _ (by decide),
    mayErrs := g _ (by decide), mayDies := g _ (by decide), mayPower := g _ (by decide),
    mayPins := g _ (by decide), mayTrust := g _ (by decide), mayMbx := g _ (by decide),
    mayBodkin := g _ (by decide), mayCvus := g _ (by decide), mayBoot := g _ (by decide),
    mayJtag := g _ (by decide), mayTVregs := g _ (by decide), mayTMarks := g _ (by decide),
    mayTPlace := g _ (by decide), mayTProgram := g _ (by decide), mayTWindow := g _ (by decide),
    mayTStreams := g _ (by decide), mayTQueues := g _ (by decide), mayTWindows := g _ (by decide),
    mayTDrop := g _ (by decide), mayTTemp := g _ (by decide), mayFatal := g _ (by decide) }

/-- Any command: nothing outside its footprint changes. -/
theorem exec_ran (c : Instr) (s : State) : Ran (footprint c).contains s (exec c s) := by
  cases c with
  | regWrite req addr size value =>
    have i0 : Stores (footprint (.regWrite req addr size value)).contains := stores_of rfl
    have i1 : Raises (footprint (.regWrite req addr size value)).contains := raises_of rfl
    have i2 : MayFreeCount (footprint (.regWrite req addr size value)).contains := ⟨rfl⟩
    have i3 : MayMsix (footprint (.regWrite req addr size value)).contains := ⟨rfl⟩
    have i4 : MaySel (footprint (.regWrite req addr size value)).contains := ⟨rfl⟩
    have i5 : MayReadLatch (footprint (.regWrite req addr size value)).contains := ⟨rfl⟩
    have i6 : MayLowHeld (footprint (.regWrite req addr size value)).contains := ⟨rfl⟩
    have i7 : MayMode (footprint (.regWrite req addr size value)).contains := ⟨rfl⟩
    have i8 : MayWdog (footprint (.regWrite req addr size value)).contains := ⟨rfl⟩
    have i9 : MayCancelTag (footprint (.regWrite req addr size value)).contains := ⟨rfl⟩
    have i10 : MayCancelRing (footprint (.regWrite req addr size value)).contains := ⟨rfl⟩
    have i11 : MayCancelResult (footprint (.regWrite req addr size value)).contains := ⟨rfl⟩
    have i12 : MayJobAge (footprint (.regWrite req addr size value)).contains := ⟨rfl⟩
    have i13 : MayHalt (footprint (.regWrite req addr size value)).contains := ⟨rfl⟩
    have i14 : MayTelemSel (footprint (.regWrite req addr size value)).contains := ⟨rfl⟩
    have i15 : MayPsetLoader (footprint (.regWrite req addr size value)).contains := ⟨rfl⟩
    have i16 : MayPsets (footprint (.regWrite req addr size value)).contains := ⟨rfl⟩
    have i17 : MayPrkLoader (footprint (.regWrite req addr size value)).contains := ⟨rfl⟩
    have i18 : MayPrks (footprint (.regWrite req addr size value)).contains := ⟨rfl⟩
    have i19 : MayRings (footprint (.regWrite req addr size value)).contains := ⟨rfl⟩
    have i20 : MayEvq (footprint (.regWrite req addr size value)).contains := ⟨rfl⟩
    have i21 : MayGroups (footprint (.regWrite req addr size value)).contains := ⟨rfl⟩
    have i22 : MayPoisonRequests (footprint (.regWrite req addr size value)).contains := ⟨rfl⟩
    have i23 : MayLink (footprint (.regWrite req addr size value)).contains := ⟨rfl⟩
    have i24 : MayPower (footprint (.regWrite req addr size value)).contains := ⟨rfl⟩
    have i25 : MayTrust (footprint (.regWrite req addr size value)).contains := ⟨rfl⟩
    have i26 : MayMbx (footprint (.regWrite req addr size value)).contains := ⟨rfl⟩
    have i27 : MayBodkin (footprint (.regWrite req addr size value)).contains := ⟨rfl⟩
    have i28 : MayCvus (footprint (.regWrite req addr size value)).contains := ⟨rfl⟩
    have i29 : MayBoot (footprint (.regWrite req addr size value)).contains := ⟨rfl⟩
    have i30 : MayTVregs (footprint (.regWrite req addr size value)).contains := ⟨rfl⟩
    have i31 : MayTProgram (footprint (.regWrite req addr size value)).contains := ⟨rfl⟩
    have i32 : MayTWindow (footprint (.regWrite req addr size value)).contains := ⟨rfl⟩
    have i33 : MayTStreams (footprint (.regWrite req addr size value)).contains := ⟨rfl⟩
    have i34 : MayTQueues (footprint (.regWrite req addr size value)).contains := ⟨rfl⟩
    have i35 : MayTWindows (footprint (.regWrite req addr size value)).contains := ⟨rfl⟩
    have i36 : MayTDrop (footprint (.regWrite req addr size value)).contains := ⟨rfl⟩
    have i37 : MayFuses (footprint (.regWrite req addr size value)).contains := ⟨rfl⟩
    exact execRegWrite_ran (Evolves.refl _ s)
  | reg64LowRead req read =>
    have i0 : Raises (footprint (.reg64LowRead req read)).contains := raises_of rfl
    have i1 : MayResp (footprint (.reg64LowRead req read)).contains := ⟨rfl⟩
    have i2 : MayReadLatch (footprint (.reg64LowRead req read)).contains := ⟨rfl⟩
    exact execReg64LowRead_ran (Evolves.refl _ s)
  | modeWrite req value =>
    have i0 : Raises (footprint (.modeWrite req value)).contains := raises_of rfl
    have i1 : MayReadLatch (footprint (.modeWrite req value)).contains := ⟨rfl⟩
    have i2 : MayMode (footprint (.modeWrite req value)).contains := ⟨rfl⟩
    exact execModeWrite_ran (Evolves.refl _ s)
  | psetLoad req index =>
    have i0 : Raises (footprint (.psetLoad req index)).contains := raises_of rfl
    have i1 : MayReadLatch (footprint (.psetLoad req index)).contains := ⟨rfl⟩
    have i2 : MayPsetLoader (footprint (.psetLoad req index)).contains := ⟨rfl⟩
    exact execPsetLoad_ran (Evolves.refl _ s)
  | psetUnload req index =>
    have i0 : Raises (footprint (.psetUnload req index)).contains := raises_of rfl
    have i1 : MayReadLatch (footprint (.psetUnload req index)).contains := ⟨rfl⟩
    have i2 : MayPsetLoader (footprint (.psetUnload req index)).contains := ⟨rfl⟩
    exact execPsetUnload_ran (Evolves.refl _ s)
  | psetLoadComplete =>
    have i0 : MayPsetLoader (footprint .psetLoadComplete).contains := ⟨rfl⟩
    have i1 : MayPsets (footprint .psetLoadComplete).contains := ⟨rfl⟩
    exact execPsetLoadComplete_ran (Evolves.refl _ s)
  | prkLoad req index =>
    have i0 : Raises (footprint (.prkLoad req index)).contains := raises_of rfl
    have i1 : MayReadLatch (footprint (.prkLoad req index)).contains := ⟨rfl⟩
    have i2 : MayPrkLoader (footprint (.prkLoad req index)).contains := ⟨rfl⟩
    exact execPrkLoad_ran (Evolves.refl _ s)
  | prkUnload req index =>
    have i0 : Raises (footprint (.prkUnload req index)).contains := raises_of rfl
    have i1 : MayReadLatch (footprint (.prkUnload req index)).contains := ⟨rfl⟩
    have i2 : MayPrkLoader (footprint (.prkUnload req index)).contains := ⟨rfl⟩
    exact execPrkUnload_ran (Evolves.refl _ s)
  | prkLoadComplete =>
    have i0 : MayPrkLoader (footprint .prkLoadComplete).contains := ⟨rfl⟩
    have i1 : MayPrks (footprint .prkLoadComplete).contains := ⟨rfl⟩
    exact execPrkLoadComplete_ran (Evolves.refl _ s)
  | sqDoorbell req ring tail =>
    have i0 : Raises (footprint (.sqDoorbell req ring tail)).contains := raises_of rfl
    have i1 : MayReadLatch (footprint (.sqDoorbell req ring tail)).contains := ⟨rfl⟩
    have i2 : MayRings (footprint (.sqDoorbell req ring tail)).contains := ⟨rfl⟩
    exact execSqDoorbell_ran (Evolves.refl _ s)
  | ringFetch ring =>
    have i0 : Stores (footprint (.ringFetch ring)).contains := stores_of rfl
    have i1 : Raises (footprint (.ringFetch ring)).contains := raises_of rfl
    have i2 : MayMsix (footprint (.ringFetch ring)).contains := ⟨rfl⟩
    have i3 : MayRings (footprint (.ringFetch ring)).contains := ⟨rfl⟩
    have i4 : MayGroups (footprint (.ringFetch ring)).contains := ⟨rfl⟩
    have i5 : MayPoisonRequests (footprint (.ringFetch ring)).contains := ⟨rfl⟩
    have i6 : MayTVregs (footprint (.ringFetch ring)).contains := ⟨rfl⟩
    have i7 : MayTProgram (footprint (.ringFetch ring)).contains := ⟨rfl⟩
    have i8 : MayTWindow (footprint (.ringFetch ring)).contains := ⟨rfl⟩
    have i9 : MayTStreams (footprint (.ringFetch ring)).contains := ⟨rfl⟩
    have i10 : MayTQueues (footprint (.ringFetch ring)).contains := ⟨rfl⟩
    have i11 : MayTWindows (footprint (.ringFetch ring)).contains := ⟨rfl⟩
    exact execRingFetch_ran (Evolves.refl _ s)
  | ringError ring completion addr =>
    have i0 : Stores (footprint (.ringError ring completion addr)).contains := stores_of rfl
    have i1 : MayMsix (footprint (.ringError ring completion addr)).contains := ⟨rfl⟩
    have i2 : MayRings (footprint (.ringError ring completion addr)).contains := ⟨rfl⟩
    have i3 : MayEvq (footprint (.ringError ring completion addr)).contains := ⟨rfl⟩
    exact execRingError_ran (Evolves.refl _ s)
  | cqDoorbell req ring head =>
    have i0 : Raises (footprint (.cqDoorbell req ring head)).contains := raises_of rfl
    have i1 : MayReadLatch (footprint (.cqDoorbell req ring head)).contains := ⟨rfl⟩
    have i2 : MayRings (footprint (.cqDoorbell req ring head)).contains := ⟨rfl⟩
    exact execCqDoorbell_ran (Evolves.refl _ s)
  | evqDoorbell req head =>
    have i0 : Raises (footprint (.evqDoorbell req head)).contains := raises_of rfl
    have i1 : MayReadLatch (footprint (.evqDoorbell req head)).contains := ⟨rfl⟩
    have i2 : MayEvq (footprint (.evqDoorbell req head)).contains := ⟨rfl⟩
    exact execEvqDoorbell_ran (Evolves.refl _ s)
  | ringEnable req =>
    have i0 : Stores (footprint (.ringEnable req)).contains := stores_of rfl
    have i1 : Raises (footprint (.ringEnable req)).contains := raises_of rfl
    have i2 : MayMsix (footprint (.ringEnable req)).contains := ⟨rfl⟩
    have i3 : MayReadLatch (footprint (.ringEnable req)).contains := ⟨rfl⟩
    have i4 : MayRings (footprint (.ringEnable req)).contains := ⟨rfl⟩
    have i5 : MayTProgram (footprint (.ringEnable req)).contains := ⟨rfl⟩
    exact execRingEnable_ran (Evolves.refl _ s)
  | ringDisable req =>
    have i0 : Stores (footprint (.ringDisable req)).contains := stores_of rfl
    have i1 : Raises (footprint (.ringDisable req)).contains := raises_of rfl
    have i2 : MayMsix (footprint (.ringDisable req)).contains := ⟨rfl⟩
    have i3 : MayReadLatch (footprint (.ringDisable req)).contains := ⟨rfl⟩
    have i4 : MayRings (footprint (.ringDisable req)).contains := ⟨rfl⟩
    have i5 : MayTProgram (footprint (.ringDisable req)).contains := ⟨rfl⟩
    exact execRingDisable_ran (Evolves.refl _ s)
  | ringReset req =>
    have i0 : Stores (footprint (.ringReset req)).contains := stores_of rfl
    have i1 : Raises (footprint (.ringReset req)).contains := raises_of rfl
    have i2 : MayMsix (footprint (.ringReset req)).contains := ⟨rfl⟩
    have i3 : MayReadLatch (footprint (.ringReset req)).contains := ⟨rfl⟩
    have i4 : MayRings (footprint (.ringReset req)).contains := ⟨rfl⟩
    have i5 : MayTProgram (footprint (.ringReset req)).contains := ⟨rfl⟩
    exact execRingReset_ran (Evolves.refl _ s)
  | jobAdmissionCheck reads =>
    have i0 : Stores (footprint (.jobAdmissionCheck reads)).contains := stores_of rfl
    have i1 : MayMsix (footprint (.jobAdmissionCheck reads)).contains := ⟨rfl⟩
    have i2 : MayRings (footprint (.jobAdmissionCheck reads)).contains := ⟨rfl⟩
    have i3 : MayJobs (footprint (.jobAdmissionCheck reads)).contains := ⟨rfl⟩
    have i4 : MayTProgram (footprint (.jobAdmissionCheck reads)).contains := ⟨rfl⟩
    exact execJobAdmissionCheck_ran (Evolves.refl _ s)
  | jobAdmit =>
    have i0 : Stores (footprint .jobAdmit).contains := stores_of rfl
    have i1 : Raises (footprint .jobAdmit).contains := raises_of rfl
    have i2 : MayMsix (footprint .jobAdmit).contains := ⟨rfl⟩
    have i3 : MayRings (footprint .jobAdmit).contains := ⟨rfl⟩
    have i4 : MayRrNext (footprint .jobAdmit).contains := ⟨rfl⟩
    have i5 : MayGroups (footprint .jobAdmit).contains := ⟨rfl⟩
    have i6 : MayPoisonRequests (footprint .jobAdmit).contains := ⟨rfl⟩
    have i7 : MayPower (footprint .jobAdmit).contains := ⟨rfl⟩
    have i8 : MayTVregs (footprint .jobAdmit).contains := ⟨rfl⟩
    have i9 : MayTProgram (footprint .jobAdmit).contains := ⟨rfl⟩
    have i10 : MayTWindow (footprint .jobAdmit).contains := ⟨rfl⟩
    have i11 : MayTStreams (footprint .jobAdmit).contains := ⟨rfl⟩
    have i12 : MayTQueues (footprint .jobAdmit).contains := ⟨rfl⟩
    have i13 : MayTWindows (footprint .jobAdmit).contains := ⟨rfl⟩
    exact execJobAdmit_ran (Evolves.refl _ s)
  | jobAged ring =>
    have i0 : MayClock (footprint (.jobAged ring)).contains := ⟨rfl⟩
    have i1 : MayRings (footprint (.jobAged ring)).contains := ⟨rfl⟩
    exact execJobAged_ran (Evolves.refl _ s)
  | jobCancelGo req ring =>
    have i0 : Stores (footprint (.jobCancelGo req ring)).contains := stores_of rfl
    have i1 : Raises (footprint (.jobCancelGo req ring)).contains := raises_of rfl
    have i2 : MayMsix (footprint (.jobCancelGo req ring)).contains := ⟨rfl⟩
    have i3 : MayReadLatch (footprint (.jobCancelGo req ring)).contains := ⟨rfl⟩
    have i4 : MayCancelRing (footprint (.jobCancelGo req ring)).contains := ⟨rfl⟩
    have i5 : MayCancelResult (footprint (.jobCancelGo req ring)).contains := ⟨rfl⟩
    have i6 : MayRings (footprint (.jobCancelGo req ring)).contains := ⟨rfl⟩
    have i7 : MayGroups (footprint (.jobCancelGo req ring)).contains := ⟨rfl⟩
    have i8 : MayPoisonRequests (footprint (.jobCancelGo req ring)).contains := ⟨rfl⟩
    have i9 : MayTVregs (footprint (.jobCancelGo req ring)).contains := ⟨rfl⟩
    have i10 : MayTProgram (footprint (.jobCancelGo req ring)).contains := ⟨rfl⟩
    have i11 : MayTWindow (footprint (.jobCancelGo req ring)).contains := ⟨rfl⟩
    have i12 : MayTStreams (footprint (.jobCancelGo req ring)).contains := ⟨rfl⟩
    have i13 : MayTQueues (footprint (.jobCancelGo req ring)).contains := ⟨rfl⟩
    have i14 : MayTWindows (footprint (.jobCancelGo req ring)).contains := ⟨rfl⟩
    exact execJobCancelGo_ran (Evolves.refl _ s)
  | jobComplete ring =>
    have i0 : Stores (footprint (.jobComplete ring)).contains := stores_of rfl
    have i1 : Raises (footprint (.jobComplete ring)).contains := raises_of rfl
    have i2 : MayMsix (footprint (.jobComplete ring)).contains := ⟨rfl⟩
    have i3 : MayRings (footprint (.jobComplete ring)).contains := ⟨rfl⟩
    have i4 : MayGroups (footprint (.jobComplete ring)).contains := ⟨rfl⟩
    have i5 : MayTProgram (footprint (.jobComplete ring)).contains := ⟨rfl⟩
    have i6 : MayTWindow (footprint (.jobComplete ring)).contains := ⟨rfl⟩
    have i7 : MayTStreams (footprint (.jobComplete ring)).contains := ⟨rfl⟩
    have i8 : MayTQueues (footprint (.jobComplete ring)).contains := ⟨rfl⟩
    have i9 : MayTWindows (footprint (.jobComplete ring)).contains := ⟨rfl⟩
    exact execJobComplete_ran (Evolves.refl _ s)
  | completionRecordWrite ring =>
    have i0 : Stores (footprint (.completionRecordWrite ring)).contains := stores_of rfl
    have i1 : MayMsix (footprint (.completionRecordWrite ring)).contains := ⟨rfl⟩
    have i2 : MayRings (footprint (.completionRecordWrite ring)).contains := ⟨rfl⟩
    have i3 : MayJobs (footprint (.completionRecordWrite ring)).contains := ⟨rfl⟩
    have i4 : MayTProgram (footprint (.completionRecordWrite ring)).contains := ⟨rfl⟩
    exact execCompletionRecordWrite_ran (Evolves.refl _ s)
  | cqCoalesceTimeout ring =>
    have i0 : MayClock (footprint (.cqCoalesceTimeout ring)).contains := ⟨rfl⟩
    have i1 : MayMsix (footprint (.cqCoalesceTimeout ring)).contains := ⟨rfl⟩
    have i2 : MayRings (footprint (.cqCoalesceTimeout ring)).contains := ⟨rfl⟩
    exact execCqCoalesceTimeout_ran (Evolves.refl _ s)
  | halt req =>
    have i0 : Stores (footprint (.halt req)).contains := stores_of rfl
    have i1 : Raises (footprint (.halt req)).contains := raises_of rfl
    have i2 : MayMsix (footprint (.halt req)).contains := ⟨rfl⟩
    have i3 : MayReadLatch (footprint (.halt req)).contains := ⟨rfl⟩
    have i4 : MayHalt (footprint (.halt req)).contains := ⟨rfl⟩
    have i5 : MayRings (footprint (.halt req)).contains := ⟨rfl⟩
    have i6 : MayGroups (footprint (.halt req)).contains := ⟨rfl⟩
    have i7 : MayPoisonRequests (footprint (.halt req)).contains := ⟨rfl⟩
    have i8 : MayTVregs (footprint (.halt req)).contains := ⟨rfl⟩
    have i9 : MayTProgram (footprint (.halt req)).contains := ⟨rfl⟩
    have i10 : MayTWindow (footprint (.halt req)).contains := ⟨rfl⟩
    have i11 : MayTStreams (footprint (.halt req)).contains := ⟨rfl⟩
    have i12 : MayTQueues (footprint (.halt req)).contains := ⟨rfl⟩
    have i13 : MayTWindows (footprint (.halt req)).contains := ⟨rfl⟩
    exact execHalt_ran (Evolves.refl _ s)
  | haltComplete =>
    have i0 : MayHalt (footprint .haltComplete).contains := ⟨rfl⟩
    exact execHaltComplete_ran (Evolves.refl _ s)
  | release req =>
    have i0 : Stores (footprint (.release req)).contains := stores_of rfl
    have i1 : Raises (footprint (.release req)).contains := raises_of rfl
    have i2 : MayMsix (footprint (.release req)).contains := ⟨rfl⟩
    have i3 : MayReadLatch (footprint (.release req)).contains := ⟨rfl⟩
    have i4 : MayHalt (footprint (.release req)).contains := ⟨rfl⟩
    have i5 : MayRings (footprint (.release req)).contains := ⟨rfl⟩
    have i6 : MayGroups (footprint (.release req)).contains := ⟨rfl⟩
    have i7 : MayPoisonRequests (footprint (.release req)).contains := ⟨rfl⟩
    have i8 : MayTVregs (footprint (.release req)).contains := ⟨rfl⟩
    have i9 : MayTProgram (footprint (.release req)).contains := ⟨rfl⟩
    have i10 : MayTWindow (footprint (.release req)).contains := ⟨rfl⟩
    have i11 : MayTStreams (footprint (.release req)).contains := ⟨rfl⟩
    have i12 : MayTQueues (footprint (.release req)).contains := ⟨rfl⟩
    have i13 : MayTWindows (footprint (.release req)).contains := ⟨rfl⟩
    exact execRelease_ran (Evolves.refl _ s)
  | linkRetrain req rate =>
    have i0 : Raises (footprint (.linkRetrain req rate)).contains := raises_of rfl
    have i1 : MayReadLatch (footprint (.linkRetrain req rate)).contains := ⟨rfl⟩
    have i2 : MayLink (footprint (.linkRetrain req rate)).contains := ⟨rfl⟩
    exact execLinkRetrain_ran (Evolves.refl _ s)
  | linkTrainingDone moduleA moduleB repaired =>
    have i0 : Stores (footprint (.linkTrainingDone moduleA moduleB repaired)).contains := stores_of rfl
    have i1 : MayMsix (footprint (.linkTrainingDone moduleA moduleB repaired)).contains := ⟨rfl⟩
    have i2 : MayEvq (footprint (.linkTrainingDone moduleA moduleB repaired)).contains := ⟨rfl⟩
    have i3 : MayLink (footprint (.linkTrainingDone moduleA moduleB repaired)).contains := ⟨rfl⟩
    exact execLinkTrainingDone_ran (Evolves.refl _ s)
  | linkRecalibration =>
    have i0 : MayClock (footprint .linkRecalibration).contains := ⟨rfl⟩
    have i1 : MayTele (footprint .linkRecalibration).contains := ⟨rfl⟩
    have i2 : MayLink (footprint .linkRecalibration).contains := ⟨rfl⟩
    exact execLinkRecalibration_ran (Evolves.refl _ s)
  | linkRecalibrationDone =>
    have i0 : MayLink (footprint .linkRecalibrationDone).contains := ⟨rfl⟩
    exact execLinkRecalibrationDone_ran (Evolves.refl _ s)
  | hdmMapWrite req value =>
    have i0 : Raises (footprint (.hdmMapWrite req value)).contains := raises_of rfl
    have i1 : MayReadLatch (footprint (.hdmMapWrite req value)).contains := ⟨rfl⟩
    have i2 : MayLink (footprint (.hdmMapWrite req value)).contains := ⟨rfl⟩
    exact execHdmMapWrite_ran (Evolves.refl _ s)
  | hostMemRead offset len =>
    have i0 : Raises (footprint (.hostMemRead offset len)).contains := raises_of rfl
    have i1 : MayResp (footprint (.hostMemRead offset len)).contains := ⟨rfl⟩
    have i2 : MayPower (footprint (.hostMemRead offset len)).contains := ⟨rfl⟩
    exact execHostMemRead_ran (Evolves.refl _ s)
  | hostMemWrite offset data =>
    have i0 : Stores (footprint (.hostMemWrite offset data)).contains := stores_of rfl
    have i1 : MayJobs (footprint (.hostMemWrite offset data)).contains := ⟨rfl⟩
    have i2 : MayPower (footprint (.hostMemWrite offset data)).contains := ⟨rfl⟩
    exact execHostMemWrite_ran (Evolves.refl _ s)
  | cxlConfigRequest commit =>
    have i0 : MayResp (footprint (.cxlConfigRequest commit)).contains := ⟨rfl⟩
    have i1 : MayLink (footprint (.cxlConfigRequest commit)).contains := ⟨rfl⟩
    exact execCxlConfigRequest_ran (Evolves.refl _ s)
  | telemClear req =>
    have i0 : MayReadLatch (footprint (.telemClear req)).contains := ⟨rfl⟩
    have i1 : MayTele (footprint (.telemClear req)).contains := ⟨rfl⟩
    have i2 : Raises (footprint (.telemClear req)).contains := raises_of rfl
    exact execTelemClear_ran (Evolves.refl _ s)
  | macroOffer tile =>
    have i0 : Stores (footprint (.macroOffer tile)).contains := stores_of rfl
    have i1 : Raises (footprint (.macroOffer tile)).contains := raises_of rfl
    have i2 : MayMsix (footprint (.macroOffer tile)).contains := ⟨rfl⟩
    have i3 : MayRings (footprint (.macroOffer tile)).contains := ⟨rfl⟩
    have i4 : MayGroups (footprint (.macroOffer tile)).contains := ⟨rfl⟩
    have i5 : MayPoisonRequests (footprint (.macroOffer tile)).contains := ⟨rfl⟩
    have i6 : MayTVregs (footprint (.macroOffer tile)).contains := ⟨rfl⟩
    have i7 : MayTProgram (footprint (.macroOffer tile)).contains := ⟨rfl⟩
    have i8 : MayTWindow (footprint (.macroOffer tile)).contains := ⟨rfl⟩
    have i9 : MayTStreams (footprint (.macroOffer tile)).contains := ⟨rfl⟩
    have i10 : MayTQueues (footprint (.macroOffer tile)).contains := ⟨rfl⟩
    have i11 : MayTWindows (footprint (.macroOffer tile)).contains := ⟨rfl⟩
    exact execMacroOffer_ran (Evolves.refl _ s)
  | macroAdmit tile =>
    have i0 : Stores (footprint (.macroAdmit tile)).contains := stores_of rfl
    have i1 : MayGroups (footprint (.macroAdmit tile)).contains := ⟨rfl⟩
    have i2 : MayTProgram (footprint (.macroAdmit tile)).contains := ⟨rfl⟩
    have i3 : MayTWindow (footprint (.macroAdmit tile)).contains := ⟨rfl⟩
    have i4 : MayTStreams (footprint (.macroAdmit tile)).contains := ⟨rfl⟩
    exact execMacroAdmit_ran (Evolves.refl _ s)
  | groupStart tile seq delay =>
    have i0 : MayTele (footprint (.groupStart tile seq delay)).contains := ⟨rfl⟩
    have i1 : MayGroups (footprint (.groupStart tile seq delay)).contains := ⟨rfl⟩
    have i2 : MayHbm (footprint (.groupStart tile seq delay)).contains := ⟨rfl⟩
    have i3 : MayTWindow (footprint (.groupStart tile seq delay)).contains := ⟨rfl⟩
    exact execGroupStart_ran (Evolves.refl _ s)
  | macroRetire tile seq held =>
    have i0 : Stores (footprint (.macroRetire tile seq held)).contains := stores_of rfl
    have i1 : Raises (footprint (.macroRetire tile seq held)).contains := raises_of rfl
    have i2 : MayTWindow (footprint (.macroRetire tile seq held)).contains := ⟨rfl⟩
    have i3 : MayTStreams (footprint (.macroRetire tile seq held)).contains := ⟨rfl⟩
    have i4 : MayTQueues (footprint (.macroRetire tile seq held)).contains := ⟨rfl⟩
    exact execMacroRetire_ran (Evolves.refl _ s)
  | macroAbort tile seq cause =>
    have i0 : Stores (footprint (.macroAbort tile seq cause)).contains := stores_of rfl
    have i1 : Raises (footprint (.macroAbort tile seq cause)).contains := raises_of rfl
    have i2 : MayGroups (footprint (.macroAbort tile seq cause)).contains := ⟨rfl⟩
    have i3 : MayPoisonRequests (footprint (.macroAbort tile seq cause)).contains := ⟨rfl⟩
    have i4 : MayTVregs (footprint (.macroAbort tile seq cause)).contains := ⟨rfl⟩
    have i5 : MayTWindow (footprint (.macroAbort tile seq cause)).contains := ⟨rfl⟩
    have i6 : MayTStreams (footprint (.macroAbort tile seq cause)).contains := ⟨rfl⟩
    have i7 : MayTQueues (footprint (.macroAbort tile seq cause)).contains := ⟨rfl⟩
    have i8 : MayTWindows (footprint (.macroAbort tile seq cause)).contains := ⟨rfl⟩
    exact execMacroAbort_ran (Evolves.refl _ s)
  | segmentFetchDone tile cycles =>
    have i0 : Stores (footprint (.segmentFetchDone tile cycles)).contains := stores_of rfl
    have i1 : Raises (footprint (.segmentFetchDone tile cycles)).contains := raises_of rfl
    have i2 : MayMsix (footprint (.segmentFetchDone tile cycles)).contains := ⟨rfl⟩
    have i3 : MayRings (footprint (.segmentFetchDone tile cycles)).contains := ⟨rfl⟩
    have i4 : MayGroups (footprint (.segmentFetchDone tile cycles)).contains := ⟨rfl⟩
    have i5 : MayPoisonRequests (footprint (.segmentFetchDone tile cycles)).contains := ⟨rfl⟩
    have i6 : MayTVregs (footprint (.segmentFetchDone tile cycles)).contains := ⟨rfl⟩
    have i7 : MayTProgram (footprint (.segmentFetchDone tile cycles)).contains := ⟨rfl⟩
    have i8 : MayTWindow (footprint (.segmentFetchDone tile cycles)).contains := ⟨rfl⟩
    have i9 : MayTStreams (footprint (.segmentFetchDone tile cycles)).contains := ⟨rfl⟩
    have i10 : MayTQueues (footprint (.segmentFetchDone tile cycles)).contains := ⟨rfl⟩
    have i11 : MayTWindows (footprint (.segmentFetchDone tile cycles)).contains := ⟨rfl⟩
    exact execSegmentFetchDone_ran (Evolves.refl _ s)
  | scratchEccWriteback tile offset =>
    have i0 : Raises (footprint (.scratchEccWriteback tile offset)).contains := raises_of rfl
    exact execScratchEccWriteback_ran (_off := offset) (Evolves.refl _ s)
  | ntt tile seq =>
    have i0 : Stores (footprint (.ntt tile seq)).contains := stores_of rfl
    have i1 : MayTWindow (footprint (.ntt tile seq)).contains := ⟨rfl⟩
    exact execNtt_ran (Evolves.refl _ s)
  | intt tile seq =>
    have i0 : Stores (footprint (.intt tile seq)).contains := stores_of rfl
    have i1 : MayTWindow (footprint (.intt tile seq)).contains := ⟨rfl⟩
    exact execIntt_ran (Evolves.refl _ s)
  | autoCoefficient tile seq =>
    have i0 : Stores (footprint (.autoCoefficient tile seq)).contains := stores_of rfl
    have i1 : MayTWindow (footprint (.autoCoefficient tile seq)).contains := ⟨rfl⟩
    exact execAutoCoefficient_ran (Evolves.refl _ s)
  | autoEvaluation tile seq =>
    have i0 : Stores (footprint (.autoEvaluation tile seq)).contains := stores_of rfl
    have i1 : MayTWindow (footprint (.autoEvaluation tile seq)).contains := ⟨rfl⟩
    exact execAutoEvaluation_ran (Evolves.refl _ s)
  | autoIndex tile seq =>
    have i0 : Stores (footprint (.autoIndex tile seq)).contains := stores_of rfl
    have i1 : MayTWindow (footprint (.autoIndex tile seq)).contains := ⟨rfl⟩
    exact execAutoIndex_ran (Evolves.refl _ s)
  | extract tile seq =>
    have i0 : Stores (footprint (.extract tile seq)).contains := stores_of rfl
    have i1 : MayTWindow (footprint (.extract tile seq)).contains := ⟨rfl⟩
    exact execExtract_ran (Evolves.refl _ s)
  | modup tile seq =>
    have i0 : Stores (footprint (.modup tile seq)).contains := stores_of rfl
    have i1 : MayTWindow (footprint (.modup tile seq)).contains := ⟨rfl⟩
    exact execModup_ran (Evolves.refl _ s)
  | moddown tile seq =>
    have i0 : Stores (footprint (.moddown tile seq)).contains := stores_of rfl
    have i1 : MayTWindow (footprint (.moddown tile seq)).contains := ⟨rfl⟩
    exact execModdown_ran (Evolves.refl _ s)
  | rescale tile seq =>
    have i0 : Stores (footprint (.rescale tile seq)).contains := stores_of rfl
    have i1 : MayTWindow (footprint (.rescale tile seq)).contains := ⟨rfl⟩
    exact execRescale_ran (Evolves.refl _ s)
  | kswRelin tile seq =>
    have i0 : Stores (footprint (.kswRelin tile seq)).contains := stores_of rfl
    have i1 : MayGroups (footprint (.kswRelin tile seq)).contains := ⟨rfl⟩
    have i2 : MayPower (footprint (.kswRelin tile seq)).contains := ⟨rfl⟩
    have i3 : MayTWindow (footprint (.kswRelin tile seq)).contains := ⟨rfl⟩
    exact execKswRelin_ran (Evolves.refl _ s)
  | kswGalois tile seq =>
    have i0 : Stores (footprint (.kswGalois tile seq)).contains := stores_of rfl
    have i1 : MayGroups (footprint (.kswGalois tile seq)).contains := ⟨rfl⟩
    have i2 : MayPower (footprint (.kswGalois tile seq)).contains := ⟨rfl⟩
    have i3 : MayTWindow (footprint (.kswGalois tile seq)).contains := ⟨rfl⟩
    exact execKswGalois_ran (Evolves.refl _ s)
  | kswLweKs tile seq =>
    have i0 : Stores (footprint (.kswLweKs tile seq)).contains := stores_of rfl
    have i1 : MayGroups (footprint (.kswLweKs tile seq)).contains := ⟨rfl⟩
    have i2 : MayPower (footprint (.kswLweKs tile seq)).contains := ⟨rfl⟩
    have i3 : MayTWindow (footprint (.kswLweKs tile seq)).contains := ⟨rfl⟩
    exact execKswLweKs_ran (Evolves.refl _ s)
  | keyVerdict tile seq =>
    have i0 : MayTele (footprint (.keyVerdict tile seq)).contains := ⟨rfl⟩
    have i1 : MayGroups (footprint (.keyVerdict tile seq)).contains := ⟨rfl⟩
    have i2 : MayPower (footprint (.keyVerdict tile seq)).contains := ⟨rfl⟩
    have i3 : MayTWindow (footprint (.keyVerdict tile seq)).contains := ⟨rfl⟩
    exact execKeyVerdict_ran (Evolves.refl _ s)
  | bobbinStreamStart stack =>
    have i0 : MayTele (footprint (.bobbinStreamStart stack)).contains := ⟨rfl⟩
    have i1 : MayHbm (footprint (.bobbinStreamStart stack)).contains := ⟨rfl⟩
    exact execBobbinStreamStart_ran (Evolves.refl _ s)
  | keyRingArrival tile seq bytes cycles =>
    have i0 : Stores (footprint (.keyRingArrival tile seq bytes cycles)).contains := stores_of rfl
    have i1 : MayGroups (footprint (.keyRingArrival tile seq bytes cycles)).contains := ⟨rfl⟩
    have i2 : MayPower (footprint (.keyRingArrival tile seq bytes cycles)).contains := ⟨rfl⟩
    have i3 : MayTWindow (footprint (.keyRingArrival tile seq bytes cycles)).contains := ⟨rfl⟩
    exact execKeyRingArrival_ran (Evolves.refl _ s)
  | hmul tile seq =>
    have i0 : Stores (footprint (.hmul tile seq)).contains := stores_of rfl
    have i1 : MayTWindow (footprint (.hmul tile seq)).contains := ⟨rfl⟩
    exact execHmul_ran (Evolves.refl _ s)
  | pmul tile seq =>
    have i0 : Stores (footprint (.pmul tile seq)).contains := stores_of rfl
    have i1 : MayTWindow (footprint (.pmul tile seq)).contains := ⟨rfl⟩
    exact execPmul_ran (Evolves.refl _ s)
  | add tile seq =>
    have i0 : Stores (footprint (.add tile seq)).contains := stores_of rfl
    have i1 : MayTWindow (footprint (.add tile seq)).contains := ⟨rfl⟩
    exact execAdd_ran (Evolves.refl _ s)
  | sub tile seq =>
    have i0 : Stores (footprint (.sub tile seq)).contains := stores_of rfl
    have i1 : MayTWindow (footprint (.sub tile seq)).contains := ⟨rfl⟩
    exact execSub_ran (Evolves.refl _ s)
  | neg tile seq =>
    have i0 : Stores (footprint (.neg tile seq)).contains := stores_of rfl
    have i1 : MayTWindow (footprint (.neg tile seq)).contains := ⟨rfl⟩
    exact execNeg_ran (Evolves.refl _ s)
  | cmul tile seq =>
    have i0 : Stores (footprint (.cmul tile seq)).contains := stores_of rfl
    have i1 : MayTWindow (footprint (.cmul tile seq)).contains := ⟨rfl⟩
    exact execCmul_ran (Evolves.refl _ s)
  | vprog tile seq =>
    have i0 : Stores (footprint (.vprog tile seq)).contains := stores_of rfl
    have i1 : MayFreeCount (footprint (.vprog tile seq)).contains := ⟨rfl⟩
    have i2 : MayTVregs (footprint (.vprog tile seq)).contains := ⟨rfl⟩
    have i3 : MayTWindow (footprint (.vprog tile seq)).contains := ⟨rfl⟩
    exact execVprog_ran (Evolves.refl _ s)
  | vcvt tile seq =>
    have i0 : Stores (footprint (.vcvt tile seq)).contains := stores_of rfl
    have i1 : MayTWindow (footprint (.vcvt tile seq)).contains := ⟨rfl⟩
    exact execVcvt_ran (Evolves.refl _ s)
  | mxpModular tile seq =>
    have i0 : Stores (footprint (.mxpModular tile seq)).contains := stores_of rfl
    have i1 : MayTWindow (footprint (.mxpModular tile seq)).contains := ⟨rfl⟩
    exact execMxpModular_ran (Evolves.refl _ s)
  | mxpClear tile seq =>
    have i0 : Stores (footprint (.mxpClear tile seq)).contains := stores_of rfl
    have i1 : MayTWindow (footprint (.mxpClear tile seq)).contains := ⟨rfl⟩
    exact execMxpClear_ran (Evolves.refl _ s)
  | mxpExpand tile seq =>
    have i0 : Stores (footprint (.mxpExpand tile seq)).contains := stores_of rfl
    have i1 : MayTWindow (footprint (.mxpExpand tile seq)).contains := ⟨rfl⟩
    exact execMxpExpand_ran (Evolves.refl _ s)
  | pbs tile seq =>
    have i0 : Stores (footprint (.pbs tile seq)).contains := stores_of rfl
    have i1 : MayGroups (footprint (.pbs tile seq)).contains := ⟨rfl⟩
    have i2 : MayPower (footprint (.pbs tile seq)).contains := ⟨rfl⟩
    have i3 : MayTWindow (footprint (.pbs tile seq)).contains := ⟨rfl⟩
    exact execPbs_ran (Evolves.refl _ s)
  | pbsKeyVerdict tile seq =>
    have i0 : MayTele (footprint (.pbsKeyVerdict tile seq)).contains := ⟨rfl⟩
    have i1 : MayGroups (footprint (.pbsKeyVerdict tile seq)).contains := ⟨rfl⟩
    have i2 : MayPower (footprint (.pbsKeyVerdict tile seq)).contains := ⟨rfl⟩
    have i3 : MayTWindow (footprint (.pbsKeyVerdict tile seq)).contains := ⟨rfl⟩
    exact execPbsKeyVerdict_ran (Evolves.refl _ s)
  | pbsObjectArrival tile seq cycles =>
    have i0 : MayTele (footprint (.pbsObjectArrival tile seq cycles)).contains := ⟨rfl⟩
    have i1 : MayGroups (footprint (.pbsObjectArrival tile seq cycles)).contains := ⟨rfl⟩
    have i2 : MayPower (footprint (.pbsObjectArrival tile seq cycles)).contains := ⟨rfl⟩
    have i3 : MayTWindow (footprint (.pbsObjectArrival tile seq cycles)).contains := ⟨rfl⟩
    exact execPbsObjectArrival_ran (Evolves.refl _ s)
  | packRaise tile seq =>
    have i0 : Stores (footprint (.packRaise tile seq)).contains := stores_of rfl
    have i1 : MayTWindow (footprint (.packRaise tile seq)).contains := ⟨rfl⟩
    exact execPackRaise_ran (Evolves.refl _ s)
  | packLwe tile seq =>
    have i0 : Stores (footprint (.packLwe tile seq)).contains := stores_of rfl
    have i1 : MayTWindow (footprint (.packLwe tile seq)).contains := ⟨rfl⟩
    exact execPackLwe_ran (Evolves.refl _ s)
  | load tile seq =>
    have i0 : Stores (footprint (.load tile seq)).contains := stores_of rfl
    have i1 : MayJobs (footprint (.load tile seq)).contains := ⟨rfl⟩
    have i2 : MayTWindow (footprint (.load tile seq)).contains := ⟨rfl⟩
    have i3 : MayTStreams (footprint (.load tile seq)).contains := ⟨rfl⟩
    have i4 : MayTDrop (footprint (.load tile seq)).contains := ⟨rfl⟩
    exact execLoad_ran (Evolves.refl _ s)
  | store tile seq =>
    have i0 : Stores (footprint (.store tile seq)).contains := stores_of rfl
    have i1 : MayJobs (footprint (.store tile seq)).contains := ⟨rfl⟩
    have i2 : MayTWindow (footprint (.store tile seq)).contains := ⟨rfl⟩
    have i3 : MayTStreams (footprint (.store tile seq)).contains := ⟨rfl⟩
    have i4 : MayTDrop (footprint (.store tile seq)).contains := ⟨rfl⟩
    exact execStore_ran (Evolves.refl _ s)
  | gather tile seq =>
    have i0 : Stores (footprint (.gather tile seq)).contains := stores_of rfl
    have i1 : MayJobs (footprint (.gather tile seq)).contains := ⟨rfl⟩
    have i2 : MayTWindow (footprint (.gather tile seq)).contains := ⟨rfl⟩
    have i3 : MayTStreams (footprint (.gather tile seq)).contains := ⟨rfl⟩
    have i4 : MayTDrop (footprint (.gather tile seq)).contains := ⟨rfl⟩
    exact execGather_ran (Evolves.refl _ s)
  | scatter tile seq =>
    have i0 : Stores (footprint (.scatter tile seq)).contains := stores_of rfl
    have i1 : MayJobs (footprint (.scatter tile seq)).contains := ⟨rfl⟩
    have i2 : MayTWindow (footprint (.scatter tile seq)).contains := ⟨rfl⟩
    have i3 : MayTStreams (footprint (.scatter tile seq)).contains := ⟨rfl⟩
    have i4 : MayTDrop (footprint (.scatter tile seq)).contains := ⟨rfl⟩
    exact execScatter_ran (Evolves.refl _ s)
  | send tile seq =>
    have i0 : MayTele (footprint (.send tile seq)).contains := ⟨rfl⟩
    have i1 : MayTWindow (footprint (.send tile seq)).contains := ⟨rfl⟩
    exact execSend_ran (Evolves.refl _ s)
  | shuttleSlotFree tile seq =>
    have i0 : MayTele (footprint (.shuttleSlotFree tile seq)).contains := ⟨rfl⟩
    have i1 : MayTWindow (footprint (.shuttleSlotFree tile seq)).contains := ⟨rfl⟩
    exact execShuttleSlotFree_ran (Evolves.refl _ s)
  | shuttleDescriptorArrive tile seq damaged =>
    have i0 : Stores (footprint (.shuttleDescriptorArrive tile seq damaged)).contains := stores_of rfl
    have i1 : Raises (footprint (.shuttleDescriptorArrive tile seq damaged)).contains := raises_of rfl
    have i2 : MayTWindow (footprint (.shuttleDescriptorArrive tile seq damaged)).contains := ⟨rfl⟩
    have i3 : MayTQueues (footprint (.shuttleDescriptorArrive tile seq damaged)).contains := ⟨rfl⟩
    exact execShuttleDescriptorArrive_ran (Evolves.refl _ s)
  | shuttleAck tile seq =>
    have i0 : Stores (footprint (.shuttleAck tile seq)).contains := stores_of rfl
    have i1 : Raises (footprint (.shuttleAck tile seq)).contains := raises_of rfl
    have i2 : MayTWindow (footprint (.shuttleAck tile seq)).contains := ⟨rfl⟩
    have i3 : MayTStreams (footprint (.shuttleAck tile seq)).contains := ⟨rfl⟩
    have i4 : MayTQueues (footprint (.shuttleAck tile seq)).contains := ⟨rfl⟩
    exact execShuttleAck_ran (Evolves.refl _ s)
  | sendCompletion tile seq =>
    have i0 : Stores (footprint (.sendCompletion tile seq)).contains := stores_of rfl
    have i1 : Raises (footprint (.sendCompletion tile seq)).contains := raises_of rfl
    have i2 : MayTWindow (footprint (.sendCompletion tile seq)).contains := ⟨rfl⟩
    have i3 : MayTStreams (footprint (.sendCompletion tile seq)).contains := ⟨rfl⟩
    have i4 : MayTQueues (footprint (.sendCompletion tile seq)).contains := ⟨rfl⟩
    exact execSendCompletion_ran (Evolves.refl _ s)
  | recv tile seq =>
    have i0 : Stores (footprint (.recv tile seq)).contains := stores_of rfl
    have i1 : MayTWindow (footprint (.recv tile seq)).contains := ⟨rfl⟩
    have i2 : MayJobs (footprint (.recv tile seq)).contains := ⟨rfl⟩
    have i3 : MayTDrop (footprint (.recv tile seq)).contains := ⟨rfl⟩
    exact execRecv_ran (Evolves.refl _ s)
  | recvPoll tile seq =>
    have i0 : Stores (footprint (.recvPoll tile seq)).contains := stores_of rfl
    have i1 : MayTWindow (footprint (.recvPoll tile seq)).contains := ⟨rfl⟩
    have i2 : MayTQueues (footprint (.recvPoll tile seq)).contains := ⟨rfl⟩
    exact execRecvPoll_ran (Evolves.refl _ s)
  | shqReset req =>
    have i0 : Stores (footprint (.shqReset req)).contains := stores_of rfl
    have i1 : MayReadLatch (footprint (.shqReset req)).contains := ⟨rfl⟩
    have i2 : MayTWindow (footprint (.shqReset req)).contains := ⟨rfl⟩
    have i3 : MayTQueues (footprint (.shqReset req)).contains := ⟨rfl⟩
    have i4 : Raises (footprint (.shqReset req)).contains := raises_of rfl
    exact execShqReset_ran (Evolves.refl _ s)
  | win tile seq =>
    have i0 : MayTele (footprint (.win tile seq)).contains := ⟨rfl⟩
    have i1 : MayTMarks (footprint (.win tile seq)).contains := ⟨rfl⟩
    have i2 : MayTWindow (footprint (.win tile seq)).contains := ⟨rfl⟩
    have i3 : MayTWindows (footprint (.win tile seq)).contains := ⟨rfl⟩
    exact execWin_ran (Evolves.refl _ s)
  | remoteWrite writer target offset data =>
    have i0 : Stores (footprint (.remoteWrite writer target offset data)).contains := stores_of rfl
    have i1 : MayJobs (footprint (.remoteWrite writer target offset data)).contains := ⟨rfl⟩
    exact execRemoteWrite_ran (Evolves.refl _ s)
  | remoteRead reader target offset len =>
    have i0 : MayResp (footprint (.remoteRead reader target offset len)).contains := ⟨rfl⟩
    have i1 : MayTele (footprint (.remoteRead reader target offset len)).contains := ⟨rfl⟩
    have i2 : MayTMarks (footprint (.remoteRead reader target offset len)).contains := ⟨rfl⟩
    exact execRemoteRead_ran (Evolves.refl _ s)
  | bar tile seq =>
    have i0 : MayJobs (footprint (.bar tile seq)).contains := ⟨rfl⟩
    have i1 : MayTWindow (footprint (.bar tile seq)).contains := ⟨rfl⟩
    exact execBar_ran (Evolves.refl _ s)
  | barrierResolve ring barrier =>
    have i0 : Stores (footprint (.barrierResolve ring barrier)).contains := stores_of rfl
    have i1 : Raises (footprint (.barrierResolve ring barrier)).contains := raises_of rfl
    have i2 : MayGroups (footprint (.barrierResolve ring barrier)).contains := ⟨rfl⟩
    have i3 : MayPoisonRequests (footprint (.barrierResolve ring barrier)).contains := ⟨rfl⟩
    have i4 : MayPower (footprint (.barrierResolve ring barrier)).contains := ⟨rfl⟩
    have i5 : MayTVregs (footprint (.barrierResolve ring barrier)).contains := ⟨rfl⟩
    have i6 : MayTWindow (footprint (.barrierResolve ring barrier)).contains := ⟨rfl⟩
    have i7 : MayTStreams (footprint (.barrierResolve ring barrier)).contains := ⟨rfl⟩
    have i8 : MayTQueues (footprint (.barrierResolve ring barrier)).contains := ⟨rfl⟩
    have i9 : MayTWindows (footprint (.barrierResolve ring barrier)).contains := ⟨rfl⟩
    exact execBarrierResolve_ran (Evolves.refl _ s)
  | chkCompute tile seq =>
    have i0 : Stores (footprint (.chkCompute tile seq)).contains := stores_of rfl
    have i1 : MayJobs (footprint (.chkCompute tile seq)).contains := ⟨rfl⟩
    have i2 : MayCvus (footprint (.chkCompute tile seq)).contains := ⟨rfl⟩
    have i3 : MayTWindow (footprint (.chkCompute tile seq)).contains := ⟨rfl⟩
    have i4 : MayTDrop (footprint (.chkCompute tile seq)).contains := ⟨rfl⟩
    exact execChkCompute_ran (Evolves.refl _ s)
  | chkAppend tile seq =>
    have i0 : Stores (footprint (.chkAppend tile seq)).contains := stores_of rfl
    have i1 : MayJobs (footprint (.chkAppend tile seq)).contains := ⟨rfl⟩
    have i2 : MayCvus (footprint (.chkAppend tile seq)).contains := ⟨rfl⟩
    have i3 : MayTWindow (footprint (.chkAppend tile seq)).contains := ⟨rfl⟩
    have i4 : MayTDrop (footprint (.chkAppend tile seq)).contains := ⟨rfl⟩
    exact execChkAppend_ran (Evolves.refl _ s)
  | chkCheckStrip tile seq =>
    have i0 : Stores (footprint (.chkCheckStrip tile seq)).contains := stores_of rfl
    have i1 : MayJobs (footprint (.chkCheckStrip tile seq)).contains := ⟨rfl⟩
    have i2 : MayCvus (footprint (.chkCheckStrip tile seq)).contains := ⟨rfl⟩
    have i3 : MayTWindow (footprint (.chkCheckStrip tile seq)).contains := ⟨rfl⟩
    have i4 : MayTDrop (footprint (.chkCheckStrip tile seq)).contains := ⟨rfl⟩
    exact execChkCheckStrip_ran (Evolves.refl _ s)
  | nop tile seq =>
    have i0 : MayTWindow (footprint (.nop tile seq)).contains := ⟨rfl⟩
    exact execNop_ran (Evolves.refl _ s)
  | chainStageResume tile seq cycles ringFull =>
    have i0 : MayTele (footprint (.chainStageResume tile seq cycles ringFull)).contains := ⟨rfl⟩
    have i1 : MayTWindow (footprint (.chainStageResume tile seq cycles ringFull)).contains := ⟨rfl⟩
    exact execChainStageResume_ran (Evolves.refl _ s)
  | cvuRxWrite req unit value =>
    have i0 : Raises (footprint (.cvuRxWrite req unit value)).contains := raises_of rfl
    have i1 : MayReadLatch (footprint (.cvuRxWrite req unit value)).contains := ⟨rfl⟩
    have i2 : MayCvus (footprint (.cvuRxWrite req unit value)).contains := ⟨rfl⟩
    exact execCvuRxWrite_ran (Evolves.refl _ s)
  | memReadRequest addr error =>
    have i0 : Raises (footprint (.memReadRequest addr error)).contains := raises_of rfl
    have i1 : MayResp (footprint (.memReadRequest addr error)).contains := ⟨rfl⟩
    have i2 : MayLinePoison (footprint (.memReadRequest addr error)).contains := ⟨rfl⟩
    have i3 : MayTMarks (footprint (.memReadRequest addr error)).contains := ⟨rfl⟩
    exact execMemReadRequest_ran (Evolves.refl _ s)
  | memWriteRequest line mask data =>
    have i0 : Stores (footprint (.memWriteRequest line mask data)).contains := stores_of rfl
    have i1 : MayJobs (footprint (.memWriteRequest line mask data)).contains := ⟨rfl⟩
    exact execMemWriteRequest_ran (Evolves.refl _ s)
  | memPoisonRequest =>
    have i0 : MayTele (footprint .memPoisonRequest).contains := ⟨rfl⟩
    have i1 : MayLinePoison (footprint .memPoisonRequest).contains := ⟨rfl⟩
    have i2 : MayHbm (footprint .memPoisonRequest).contains := ⟨rfl⟩
    have i3 : MayPoisonRequests (footprint .memPoisonRequest).contains := ⟨rfl⟩
    exact execMemPoisonRequest_ran (Evolves.refl _ s)
  | wcbResidencyTimeout oldest =>
    have i0 : Raises (footprint (.wcbResidencyTimeout oldest)).contains := raises_of rfl
    have i1 : MayClock (footprint (.wcbResidencyTimeout oldest)).contains := ⟨rfl⟩
    have i2 : MayMem (footprint (.wcbResidencyTimeout oldest)).contains := ⟨rfl⟩
    have i3 : MayLinePoison (footprint (.wcbResidencyTimeout oldest)).contains := ⟨rfl⟩
    exact execWcbResidencyTimeout_ran (Evolves.refl _ s)
  | packetReceive path tile seq error =>
    have i0 : Raises (footprint (.packetReceive path tile seq error)).contains := raises_of rfl
    have i1 : MayTWindow (footprint (.packetReceive path tile seq error)).contains := ⟨rfl⟩
    exact execPacketReceive_ran (Evolves.refl _ s)
  | translationComplete tile queue present =>
    have i0 : Stores (footprint (.translationComplete tile queue present)).contains := stores_of rfl
    have i1 : MayMsix (footprint (.translationComplete tile queue present)).contains := ⟨rfl⟩
    have i2 : MayPageRequests (footprint (.translationComplete tile queue present)).contains := ⟨rfl⟩
    have i3 : MayEvq (footprint (.translationComplete tile queue present)).contains := ⟨rfl⟩
    have i4 : MayJobs (footprint (.translationComplete tile queue present)).contains := ⟨rfl⟩
    have i5 : MayTWindow (footprint (.translationComplete tile queue present)).contains := ⟨rfl⟩
    have i6 : MayTStreams (footprint (.translationComplete tile queue present)).contains := ⟨rfl⟩
    have i7 : MayTDrop (footprint (.translationComplete tile queue present)).contains := ⟨rfl⟩
    exact execTranslationComplete_ran (Evolves.refl _ s)
  | streamResume req =>
    have i0 : Stores (footprint (.streamResume req)).contains := stores_of rfl
    have i1 : Raises (footprint (.streamResume req)).contains := raises_of rfl
    have i2 : MayReadLatch (footprint (.streamResume req)).contains := ⟨rfl⟩
    have i3 : MayTStreams (footprint (.streamResume req)).contains := ⟨rfl⟩
    exact execStreamResume_ran (Evolves.refl _ s)
  | stallWatchdog tile seq =>
    have i0 : Raises (footprint (.stallWatchdog tile seq)).contains := raises_of rfl
    have i1 : MayClock (footprint (.stallWatchdog tile seq)).contains := ⟨rfl⟩
    have i2 : MayTWindow (footprint (.stallWatchdog tile seq)).contains := ⟨rfl⟩
    exact execStallWatchdog_ran (Evolves.refl _ s)
  | strmReadCheck req pattern =>
    have i0 : Stores (footprint (.strmReadCheck req pattern)).contains := stores_of rfl
    have i1 : Raises (footprint (.strmReadCheck req pattern)).contains := raises_of rfl
    have i2 : MayReadLatch (footprint (.strmReadCheck req pattern)).contains := ⟨rfl⟩
    have i3 : MayPower (footprint (.strmReadCheck req pattern)).contains := ⟨rfl⟩
    exact execStrmReadCheck_ran (Evolves.refl _ s)
  | strmFill req pattern =>
    have i0 : Stores (footprint (.strmFill req pattern)).contains := stores_of rfl
    have i1 : Raises (footprint (.strmFill req pattern)).contains := raises_of rfl
    have i2 : MayReadLatch (footprint (.strmFill req pattern)).contains := ⟨rfl⟩
    have i3 : MayPower (footprint (.strmFill req pattern)).contains := ⟨rfl⟩
    exact execStrmFill_ran (Evolves.refl _ s)
  | strmCompare req pattern =>
    have i0 : Stores (footprint (.strmCompare req pattern)).contains := stores_of rfl
    have i1 : Raises (footprint (.strmCompare req pattern)).contains := raises_of rfl
    have i2 : MayReadLatch (footprint (.strmCompare req pattern)).contains := ⟨rfl⟩
    have i3 : MayPower (footprint (.strmCompare req pattern)).contains := ⟨rfl⟩
    exact execStrmCompare_ran (Evolves.refl _ s)
  | strmRead req pattern =>
    have i0 : Stores (footprint (.strmRead req pattern)).contains := stores_of rfl
    have i1 : Raises (footprint (.strmRead req pattern)).contains := raises_of rfl
    have i2 : MayReadLatch (footprint (.strmRead req pattern)).contains := ⟨rfl⟩
    have i3 : MayPower (footprint (.strmRead req pattern)).contains := ⟨rfl⟩
    exact execStrmRead_ran (Evolves.refl _ s)
  | streamerDone stack errors =>
    have i0 : Raises (footprint (.streamerDone stack errors)).contains := raises_of rfl
    have i1 : MayLinePoison (footprint (.streamerDone stack errors)).contains := ⟨rfl⟩
    exact execStreamerDone_ran (Evolves.refl _ s)
  | patrolScrub unit error =>
    have i0 : Raises (footprint (.patrolScrub unit error)).contains := raises_of rfl
    have i1 : MayLinePoison (footprint (.patrolScrub unit error)).contains := ⟨rfl⟩
    have i2 : MayNearScrub (footprint (.patrolScrub unit error)).contains := ⟨rfl⟩
    have i3 : MayPower (footprint (.patrolScrub unit error)).contains := ⟨rfl⟩
    exact execPatrolScrub_ran (Evolves.refl _ s)
  | commitFinish reads =>
    have i0 : Stores (footprint (.commitFinish reads)).contains := stores_of rfl
    have i1 : Raises (footprint (.commitFinish reads)).contains := raises_of rfl
    have i2 : MayGroups (footprint (.commitFinish reads)).contains := ⟨rfl⟩
    have i3 : MayPoisonRequests (footprint (.commitFinish reads)).contains := ⟨rfl⟩
    have i4 : MayPower (footprint (.commitFinish reads)).contains := ⟨rfl⟩
    have i5 : MayTVregs (footprint (.commitFinish reads)).contains := ⟨rfl⟩
    have i6 : MayTWindow (footprint (.commitFinish reads)).contains := ⟨rfl⟩
    have i7 : MayTStreams (footprint (.commitFinish reads)).contains := ⟨rfl⟩
    have i8 : MayTQueues (footprint (.commitFinish reads)).contains := ⟨rfl⟩
    have i9 : MayTWindows (footprint (.commitFinish reads)).contains := ⟨rfl⟩
    exact execCommitFinish_ran (Evolves.refl _ s)
  | tilePollTimeout tile =>
    have i0 : Stores (footprint (.tilePollTimeout tile)).contains := stores_of rfl
    have i1 : Raises (footprint (.tilePollTimeout tile)).contains := raises_of rfl
    have i2 : MayGroups (footprint (.tilePollTimeout tile)).contains := ⟨rfl⟩
    have i3 : MaySpares (footprint (.tilePollTimeout tile)).contains := ⟨rfl⟩
    have i4 : MayPoisonRequests (footprint (.tilePollTimeout tile)).contains := ⟨rfl⟩
    have i5 : MayTVregs (footprint (.tilePollTimeout tile)).contains := ⟨rfl⟩
    have i6 : MayTPlace (footprint (.tilePollTimeout tile)).contains := ⟨rfl⟩
    have i7 : MayTWindow (footprint (.tilePollTimeout tile)).contains := ⟨rfl⟩
    have i8 : MayTStreams (footprint (.tilePollTimeout tile)).contains := ⟨rfl⟩
    have i9 : MayTQueues (footprint (.tilePollTimeout tile)).contains := ⟨rfl⟩
    have i10 : MayTWindows (footprint (.tilePollTimeout tile)).contains := ⟨rfl⟩
    exact execTilePollTimeout_ran (Evolves.refl _ s)
  | tileFailure tile cause =>
    have i0 : Stores (footprint (.tileFailure tile cause)).contains := stores_of rfl
    have i1 : Raises (footprint (.tileFailure tile cause)).contains := raises_of rfl
    have i2 : MayGroups (footprint (.tileFailure tile cause)).contains := ⟨rfl⟩
    have i3 : MaySpares (footprint (.tileFailure tile cause)).contains := ⟨rfl⟩
    have i4 : MayPoisonRequests (footprint (.tileFailure tile cause)).contains := ⟨rfl⟩
    have i5 : MayTVregs (footprint (.tileFailure tile cause)).contains := ⟨rfl⟩
    have i6 : MayTPlace (footprint (.tileFailure tile cause)).contains := ⟨rfl⟩
    have i7 : MayTWindow (footprint (.tileFailure tile cause)).contains := ⟨rfl⟩
    have i8 : MayTStreams (footprint (.tileFailure tile cause)).contains := ⟨rfl⟩
    have i9 : MayTQueues (footprint (.tileFailure tile cause)).contains := ⟨rfl⟩
    have i10 : MayTWindows (footprint (.tileFailure tile cause)).contains := ⟨rfl⟩
    exact execTileFailure_ran (y1 := cause) (Evolves.refl _ s)
  | restoreDone reads =>
    have i0 : Stores (footprint (.restoreDone reads)).contains := stores_of rfl
    have i1 : Raises (footprint (.restoreDone reads)).contains := raises_of rfl
    have i2 : MayGroups (footprint (.restoreDone reads)).contains := ⟨rfl⟩
    have i3 : MayPoisonRequests (footprint (.restoreDone reads)).contains := ⟨rfl⟩
    have i4 : MayPower (footprint (.restoreDone reads)).contains := ⟨rfl⟩
    have i5 : MayCvus (footprint (.restoreDone reads)).contains := ⟨rfl⟩
    have i6 : MayTVregs (footprint (.restoreDone reads)).contains := ⟨rfl⟩
    have i7 : MayTProgram (footprint (.restoreDone reads)).contains := ⟨rfl⟩
    have i8 : MayTWindow (footprint (.restoreDone reads)).contains := ⟨rfl⟩
    have i9 : MayTStreams (footprint (.restoreDone reads)).contains := ⟨rfl⟩
    have i10 : MayTQueues (footprint (.restoreDone reads)).contains := ⟨rfl⟩
    have i11 : MayTWindows (footprint (.restoreDone reads)).contains := ⟨rfl⟩
    exact execRestoreDone_ran (Evolves.refl _ s)
  | spareTakeover tile =>
    have i0 : Raises (footprint (.spareTakeover tile)).contains := raises_of rfl
    have i1 : MaySpares (footprint (.spareTakeover tile)).contains := ⟨rfl⟩
    have i2 : MayMem (footprint (.spareTakeover tile)).contains := ⟨rfl⟩
    have i3 : MayTVregs (footprint (.spareTakeover tile)).contains := ⟨rfl⟩
    have i4 : MayTMarks (footprint (.spareTakeover tile)).contains := ⟨rfl⟩
    have i5 : MayTPlace (footprint (.spareTakeover tile)).contains := ⟨rfl⟩
    exact execSpareTakeover_ran (Evolves.refl _ s)
  | errorHandle =>
    have i0 : MayErrs (footprint .errorHandle).contains := ⟨rfl⟩
    have i1 : Raises (footprint .errorHandle).contains := raises_of rfl
    have i2 : MayFreeCount (footprint .errorHandle).contains := ⟨rfl⟩
    exact execErrorHandle_ran (Evolves.refl _ s)
  | errorPosted =>
    have i0 : Stores (footprint .errorPosted).contains := stores_of rfl
    have i1 : MayMsix (footprint .errorPosted).contains := ⟨rfl⟩
    have i2 : MayEvq (footprint .errorPosted).contains := ⟨rfl⟩
    have i3 : MayErrs (footprint .errorPosted).contains := ⟨rfl⟩
    exact execErrorPosted_ran (Evolves.refl _ s)
  | pacerSlot =>
    have i0 : MayClock (footprint .pacerSlot).contains := ⟨rfl⟩
    have i1 : MayTele (footprint .pacerSlot).contains := ⟨rfl⟩
    have i2 : MayDies (footprint .pacerSlot).contains := ⟨rfl⟩
    have i3 : MayPower (footprint .pacerSlot).contains := ⟨rfl⟩
    have i4 : MayTTemp (footprint .pacerSlot).contains := ⟨rfl⟩
    have i5 : MayTWindow (footprint .pacerSlot).contains := ⟨rfl⟩
    exact execPacerSlot_ran (Evolves.refl _ s)
  | pacerWindow =>
    have i0 : MayClock (footprint .pacerWindow).contains := ⟨rfl⟩
    have i1 : MayTele (footprint .pacerWindow).contains := ⟨rfl⟩
    have i2 : MayDies (footprint .pacerWindow).contains := ⟨rfl⟩
    have i3 : MayPower (footprint .pacerWindow).contains := ⟨rfl⟩
    exact execPacerWindow_ran (Evolves.refl _ s)
  | dvfsStart die =>
    have i0 : MayClock (footprint (.dvfsStart die)).contains := ⟨rfl⟩
    have i1 : MayDies (footprint (.dvfsStart die)).contains := ⟨rfl⟩
    have i2 : MayTWindow (footprint (.dvfsStart die)).contains := ⟨rfl⟩
    exact execDvfsStart_ran (Evolves.refl _ s)
  | avsStatusPoll die reached =>
    have i0 : MayClock (footprint (.avsStatusPoll die reached)).contains := ⟨rfl⟩
    have i1 : MayDies (footprint (.avsStatusPoll die reached)).contains := ⟨rfl⟩
    have i2 : MayTWindow (footprint (.avsStatusPoll die reached)).contains := ⟨rfl⟩
    exact execAvsStatusPoll_ran (Evolves.refl _ s)
  | dvfsSettleEnd die =>
    have i0 : MayClock (footprint (.dvfsSettleEnd die)).contains := ⟨rfl⟩
    have i1 : MayDies (footprint (.dvfsSettleEnd die)).contains := ⟨rfl⟩
    have i2 : MayTWindow (footprint (.dvfsSettleEnd die)).contains := ⟨rfl⟩
    exact execDvfsSettleEnd_ran (Evolves.refl _ s)
  | dvfsFreezeEnd die =>
    have i0 : MayClock (footprint (.dvfsFreezeEnd die)).contains := ⟨rfl⟩
    have i1 : MayTele (footprint (.dvfsFreezeEnd die)).contains := ⟨rfl⟩
    have i2 : MayDies (footprint (.dvfsFreezeEnd die)).contains := ⟨rfl⟩
    exact execDvfsFreezeEnd_ran (Evolves.refl _ s)
  | avsTimeout die =>
    have i0 : Raises (footprint (.avsTimeout die)).contains := raises_of rfl
    have i1 : MayClock (footprint (.avsTimeout die)).contains := ⟨rfl⟩
    exact execAvsTimeout_ran (Evolves.refl _ s)
  | thermalSample tiles hbm hub =>
    have i0 : Raises (footprint (.thermalSample tiles hbm hub)).contains := raises_of rfl
    have i1 : MayClock (footprint (.thermalSample tiles hbm hub)).contains := ⟨rfl⟩
    have i2 : MayPower (footprint (.thermalSample tiles hbm hub)).contains := ⟨rfl⟩
    have i3 : MayTTemp (footprint (.thermalSample tiles hbm hub)).contains := ⟨rfl⟩
    exact execThermalSample_ran (Evolves.refl _ s)
  | thermalFloorRise die =>
    have i0 : MayClock (footprint (.thermalFloorRise die)).contains := ⟨rfl⟩
    have i1 : MayDies (footprint (.thermalFloorRise die)).contains := ⟨rfl⟩
    exact execThermalFloorRise_ran (Evolves.refl _ s)
  | thermalFloorFall die =>
    have i0 : MayClock (footprint (.thermalFloorFall die)).contains := ⟨rfl⟩
    have i1 : MayDies (footprint (.thermalFloorFall die)).contains := ⟨rfl⟩
    exact execThermalFloorFall_ran (Evolves.refl _ s)
  | powerOff req =>
    have i0 : Raises (footprint (.powerOff req)).contains := raises_of rfl
    have i1 : MayReadLatch (footprint (.powerOff req)).contains := ⟨rfl⟩
    have i2 : MayPower (footprint (.powerOff req)).contains := ⟨rfl⟩
    exact execPowerOff_ran (Evolves.refl _ s)
  | safeOff =>
    have i0 : MayClock (footprint .safeOff).contains := ⟨rfl⟩
    have i1 : MayDies (footprint .safeOff).contains := ⟨rfl⟩
    have i2 : MayPower (footprint .safeOff).contains := ⟨rfl⟩
    have i3 : MayTele (footprint .safeOff).contains := ⟨rfl⟩
    exact execSafeOff_ran (Evolves.refl _ s)
  | clkoutSelect req value =>
    have i0 : Raises (footprint (.clkoutSelect req value)).contains := raises_of rfl
    have i1 : MayReadLatch (footprint (.clkoutSelect req value)).contains := ⟨rfl⟩
    have i2 : MayPower (footprint (.clkoutSelect req value)).contains := ⟨rfl⟩
    exact execClkoutSelect_ran (Evolves.refl _ s)
  | railGood rail =>
    have i0 : MayPins (footprint (.railGood rail)).contains := ⟨rfl⟩
    have i1 : MayBoot (footprint (.railGood rail)).contains := ⟨rfl⟩
    exact execRailGood_ran (Evolves.refl _ s)
  | railLost rail =>
    have i0 : MayAll (footprint (.railLost rail)).contains := may_every rfl
    exact execRailLost_ran (Evolves.refl _ s)
  | refclkLost =>
    have i0 : Raises (footprint .refclkLost).contains := raises_of rfl
    have i1 : MayPower (footprint .refclkLost).contains := ⟨rfl⟩
    have i2 : MayBoot (footprint .refclkLost).contains := ⟨rfl⟩
    exact execRefclkLost_ran (Evolves.refl _ s)
  | mresetAssert =>
    have i0 : MayAll (footprint .mresetAssert).contains := may_every rfl
    exact execMresetAssert_ran (Evolves.refl _ s)
  | mresetRelease =>
    have i0 : MayPins (footprint .mresetRelease).contains := ⟨rfl⟩
    have i1 : MayTele (footprint .mresetRelease).contains := ⟨rfl⟩
    have i2 : MayBoot (footprint .mresetRelease).contains := ⟨rfl⟩
    have i3 : MayJtag (footprint .mresetRelease).contains := ⟨rfl⟩
    exact execMresetRelease_ran (Evolves.refl _ s)
  | throttleFilter active =>
    have i0 : MayTele (footprint (.throttleFilter active)).contains := ⟨rfl⟩
    have i1 : MayPins (footprint (.throttleFilter active)).contains := ⟨rfl⟩
    exact execThrottleFilter_ran (Evolves.refl _ s)
  | throttleHonour =>
    have i0 : MayClock (footprint .throttleHonour).contains := ⟨rfl⟩
    have i1 : MayTele (footprint .throttleHonour).contains := ⟨rfl⟩
    have i2 : MayPins (footprint .throttleHonour).contains := ⟨rfl⟩
    exact execThrottleHonour_ran (Evolves.refl _ s)
  | startupBegin =>
    have i0 : MayClock (footprint .startupBegin).contains := ⟨rfl⟩
    have i1 : MayTele (footprint .startupBegin).contains := ⟨rfl⟩
    have i2 : MayPower (footprint .startupBegin).contains := ⟨rfl⟩
    have i3 : MayPins (footprint .startupBegin).contains := ⟨rfl⟩
    have i4 : MayBoot (footprint .startupBegin).contains := ⟨rfl⟩
    exact execStartupBegin_ran (Evolves.refl _ s)
  | stageRom badFuseRow =>
    have i0 : MayPower (footprint (.stageRom badFuseRow)).contains := ⟨rfl⟩
    have i1 : MayPins (footprint (.stageRom badFuseRow)).contains := ⟨rfl⟩
    have i2 : MayBoot (footprint (.stageRom badFuseRow)).contains := ⟨rfl⟩
    exact execStageRom_ran (Evolves.refl _ s)
  | stageTrusted =>
    have i0 : MayTrust (footprint .stageTrusted).contains := ⟨rfl⟩
    have i1 : MayBoot (footprint .stageTrusted).contains := ⟨rfl⟩
    exact execStageTrusted_ran (Evolves.refl _ s)
  | stageHbm reports =>
    have i0 : MayTele (footprint (.stageHbm reports)).contains := ⟨rfl⟩
    have i1 : MayHbm (footprint (.stageHbm reports)).contains := ⟨rfl⟩
    have i2 : MayPins (footprint (.stageHbm reports)).contains := ⟨rfl⟩
    have i3 : MayBoot (footprint (.stageHbm reports)).contains := ⟨rfl⟩
    exact execStageHbm_ran (Evolves.refl _ s)
  | stageTiles failingSites failingBridge =>
    have i0 : MaySpares (footprint (.stageTiles failingSites failingBridge)).contains := ⟨rfl⟩
    have i1 : MayPins (footprint (.stageTiles failingSites failingBridge)).contains := ⟨rfl⟩
    have i2 : MayBoot (footprint (.stageTiles failingSites failingBridge)).contains := ⟨rfl⟩
    have i3 : MayTPlace (footprint (.stageTiles failingSites failingBridge)).contains := ⟨rfl⟩
    exact execStageTiles_ran (Evolves.refl _ s)
  | stageWipe =>
    have i0 : MayMode (footprint .stageWipe).contains := ⟨rfl⟩
    have i1 : MayTele (footprint .stageWipe).contains := ⟨rfl⟩
    have i2 : MayPsets (footprint .stageWipe).contains := ⟨rfl⟩
    have i3 : MayPrks (footprint .stageWipe).contains := ⟨rfl⟩
    have i4 : MayMem (footprint .stageWipe).contains := ⟨rfl⟩
    have i5 : MayLinePoison (footprint .stageWipe).contains := ⟨rfl⟩
    have i6 : MayHbm (footprint .stageWipe).contains := ⟨rfl⟩
    have i7 : MayLink (footprint .stageWipe).contains := ⟨rfl⟩
    have i8 : MayTrust (footprint .stageWipe).contains := ⟨rfl⟩
    have i9 : MayBodkin (footprint .stageWipe).contains := ⟨rfl⟩
    have i10 : MayCvus (footprint .stageWipe).contains := ⟨rfl⟩
    have i11 : MayBoot (footprint .stageWipe).contains := ⟨rfl⟩
    have i12 : MayTVregs (footprint .stageWipe).contains := ⟨rfl⟩
    have i13 : MayTMarks (footprint .stageWipe).contains := ⟨rfl⟩
    have i14 : MayTProgram (footprint .stageWipe).contains := ⟨rfl⟩
    have i15 : MayTQueues (footprint .stageWipe).contains := ⟨rfl⟩
    have i16 : MayFreeCount (footprint .stageWipe).contains := ⟨rfl⟩
    exact execStageWipe_ran (Evolves.refl _ s)
  | stageService =>
    have i0 : MayTrust (footprint .stageService).contains := ⟨rfl⟩
    have i1 : MayBoot (footprint .stageService).contains := ⟨rfl⟩
    have i2 : MayFreeCount (footprint .stageService).contains := ⟨rfl⟩
    exact execStageService_ran (Evolves.refl _ s)
  | stageUcie moduleA moduleB repaired =>
    have i0 : Stores (footprint (.stageUcie moduleA moduleB repaired)).contains := stores_of rfl
    have i1 : MayMsix (footprint (.stageUcie moduleA moduleB repaired)).contains := ⟨rfl⟩
    have i2 : MayEvq (footprint (.stageUcie moduleA moduleB repaired)).contains := ⟨rfl⟩
    have i3 : MayLink (footprint (.stageUcie moduleA moduleB repaired)).contains := ⟨rfl⟩
    have i4 : MayPins (footprint (.stageUcie moduleA moduleB repaired)).contains := ⟨rfl⟩
    have i5 : MayBoot (footprint (.stageUcie moduleA moduleB repaired)).contains := ⟨rfl⟩
    exact execStageUcie_ran (Evolves.refl _ s)
  | stageCxl =>
    have i0 : MayTele (footprint .stageCxl).contains := ⟨rfl⟩
    have i1 : MayBoot (footprint .stageCxl).contains := ⟨rfl⟩
    exact execStageCxl_ran (Evolves.refl _ s)
  | bootStart kind =>
    have i0 : Raises (footprint (.bootStart kind)).contains := raises_of rfl
    have i1 : MayReadLatch (footprint (.bootStart kind)).contains := ⟨rfl⟩
    have i2 : MayTrust (footprint (.bootStart kind)).contains := ⟨rfl⟩
    have i3 : MayBoot (footprint (.bootStart kind)).contains := ⟨rfl⟩
    have i4 : MayFreeCount (footprint (.bootStart kind)).contains := ⟨rfl⟩
    exact execBootStart_ran (Evolves.refl _ s)
  | bootPush =>
    have i0 : Raises (footprint .bootPush).contains := raises_of rfl
    have i1 : MayReadLatch (footprint .bootPush).contains := ⟨rfl⟩
    have i2 : MayTrust (footprint .bootPush).contains := ⟨rfl⟩
    have i3 : MayBoot (footprint .bootPush).contains := ⟨rfl⟩
    have i4 : MayFreeCount (footprint .bootPush).contains := ⟨rfl⟩
    exact execBootPush_ran (Evolves.refl _ s)
  | bootAbort =>
    have i0 : Raises (footprint .bootAbort).contains := raises_of rfl
    have i1 : MayReadLatch (footprint .bootAbort).contains := ⟨rfl⟩
    have i2 : MayTrust (footprint .bootAbort).contains := ⟨rfl⟩
    have i3 : MayBoot (footprint .bootAbort).contains := ⟨rfl⟩
    have i4 : MayFreeCount (footprint .bootAbort).contains := ⟨rfl⟩
    exact execBootAbort_ran (Evolves.refl _ s)
  | ownerChange req =>
    have i0 : Raises (footprint (.ownerChange req)).contains := raises_of rfl
    have i1 : MayReadLatch (footprint (.ownerChange req)).contains := ⟨rfl⟩
    have i2 : MayMode (footprint (.ownerChange req)).contains := ⟨rfl⟩
    have i3 : MayPsets (footprint (.ownerChange req)).contains := ⟨rfl⟩
    have i4 : MayPrks (footprint (.ownerChange req)).contains := ⟨rfl⟩
    have i5 : MayMem (footprint (.ownerChange req)).contains := ⟨rfl⟩
    have i6 : MayLinePoison (footprint (.ownerChange req)).contains := ⟨rfl⟩
    have i7 : MayLink (footprint (.ownerChange req)).contains := ⟨rfl⟩
    have i8 : MayTrust (footprint (.ownerChange req)).contains := ⟨rfl⟩
    have i9 : MayMbx (footprint (.ownerChange req)).contains := ⟨rfl⟩
    have i10 : MayBodkin (footprint (.ownerChange req)).contains := ⟨rfl⟩
    have i11 : MayCvus (footprint (.ownerChange req)).contains := ⟨rfl⟩
    have i12 : MayTVregs (footprint (.ownerChange req)).contains := ⟨rfl⟩
    have i13 : MayTMarks (footprint (.ownerChange req)).contains := ⟨rfl⟩
    have i14 : MayTProgram (footprint (.ownerChange req)).contains := ⟨rfl⟩
    have i15 : MayTQueues (footprint (.ownerChange req)).contains := ⟨rfl⟩
    have i16 : MayFreeCount (footprint (.ownerChange req)).contains := ⟨rfl⟩
    exact execOwnerChange_ran (Evolves.refl _ s)
  | ownerChangeDone =>
    have i0 : MayTele (footprint .ownerChangeDone).contains := ⟨rfl⟩
    have i1 : MayTrust (footprint .ownerChangeDone).contains := ⟨rfl⟩
    have i2 : MayMbx (footprint .ownerChangeDone).contains := ⟨rfl⟩
    exact execOwnerChangeDone_ran (Evolves.refl _ s)
  | debugNonce req =>
    have i0 : Raises (footprint (.debugNonce req)).contains := raises_of rfl
    have i1 : MayFreeCount (footprint (.debugNonce req)).contains := ⟨rfl⟩
    have i2 : MayReadLatch (footprint (.debugNonce req)).contains := ⟨rfl⟩
    have i3 : MayTrust (footprint (.debugNonce req)).contains := ⟨rfl⟩
    have i4 : MayMbx (footprint (.debugNonce req)).contains := ⟨rfl⟩
    exact execDebugNonce_ran (Evolves.refl _ s)
  | debugUnlock req =>
    have i0 : Raises (footprint (.debugUnlock req)).contains := raises_of rfl
    have i1 : MayReadLatch (footprint (.debugUnlock req)).contains := ⟨rfl⟩
    have i2 : MayMode (footprint (.debugUnlock req)).contains := ⟨rfl⟩
    have i3 : MayPsets (footprint (.debugUnlock req)).contains := ⟨rfl⟩
    have i4 : MayPrks (footprint (.debugUnlock req)).contains := ⟨rfl⟩
    have i5 : MayMem (footprint (.debugUnlock req)).contains := ⟨rfl⟩
    have i6 : MayLinePoison (footprint (.debugUnlock req)).contains := ⟨rfl⟩
    have i7 : MayLink (footprint (.debugUnlock req)).contains := ⟨rfl⟩
    have i8 : MayTrust (footprint (.debugUnlock req)).contains := ⟨rfl⟩
    have i9 : MayMbx (footprint (.debugUnlock req)).contains := ⟨rfl⟩
    have i10 : MayBodkin (footprint (.debugUnlock req)).contains := ⟨rfl⟩
    have i11 : MayCvus (footprint (.debugUnlock req)).contains := ⟨rfl⟩
    have i12 : MayTVregs (footprint (.debugUnlock req)).contains := ⟨rfl⟩
    have i13 : MayTMarks (footprint (.debugUnlock req)).contains := ⟨rfl⟩
    have i14 : MayTProgram (footprint (.debugUnlock req)).contains := ⟨rfl⟩
    have i15 : MayTQueues (footprint (.debugUnlock req)).contains := ⟨rfl⟩
    have i16 : MayFreeCount (footprint (.debugUnlock req)).contains := ⟨rfl⟩
    exact execDebugUnlock_ran (Evolves.refl _ s)
  | svnCommit req fusesBlown =>
    have i0 : Raises (footprint (.svnCommit req fusesBlown)).contains := raises_of rfl
    have i1 : MayReadLatch (footprint (.svnCommit req fusesBlown)).contains := ⟨rfl⟩
    have i2 : MayTrust (footprint (.svnCommit req fusesBlown)).contains := ⟨rfl⟩
    have i3 : MayMbx (footprint (.svnCommit req fusesBlown)).contains := ⟨rfl⟩
    have i4 : MayFuses (footprint (.svnCommit req fusesBlown)).contains := ⟨rfl⟩
    exact execSvnCommit_ran (Evolves.refl _ s)
  | identity req =>
    have i0 : Raises (footprint (.identity req)).contains := raises_of rfl
    have i1 : MayReadLatch (footprint (.identity req)).contains := ⟨rfl⟩
    have i2 : MayMbx (footprint (.identity req)).contains := ⟨rfl⟩
    exact execIdentity_ran (Evolves.refl _ s)
  | spdmRequest request =>
    have i0 : MayResp (footprint (.spdmRequest request)).contains := ⟨rfl⟩
    have i1 : MayTele (footprint (.spdmRequest request)).contains := ⟨rfl⟩
    have i2 : MayLink (footprint (.spdmRequest request)).contains := ⟨rfl⟩
    have i3 : MayTrust (footprint (.spdmRequest request)).contains := ⟨rfl⟩
    have i4 : MayFreeCount (footprint (.spdmRequest request)).contains := ⟨rfl⟩
    exact execSpdmRequest_ran (Evolves.refl _ s)
  | svcHeartbeat =>
    have i0 : MayTrust (footprint .svcHeartbeat).contains := ⟨rfl⟩
    exact execSvcHeartbeat_ran (Evolves.refl _ s)
  | heartbeatMissed =>
    have i0 : Stores (footprint .heartbeatMissed).contains := stores_of rfl
    have i1 : Raises (footprint .heartbeatMissed).contains := raises_of rfl
    have i2 : MayClock (footprint .heartbeatMissed).contains := ⟨rfl⟩
    have i3 : MayMsix (footprint .heartbeatMissed).contains := ⟨rfl⟩
    have i4 : MayHalt (footprint .heartbeatMissed).contains := ⟨rfl⟩
    have i5 : MayRings (footprint .heartbeatMissed).contains := ⟨rfl⟩
    have i6 : MayGroups (footprint .heartbeatMissed).contains := ⟨rfl⟩
    have i7 : MayPoisonRequests (footprint .heartbeatMissed).contains := ⟨rfl⟩
    have i8 : MayTrust (footprint .heartbeatMissed).contains := ⟨rfl⟩
    have i9 : MayTVregs (footprint .heartbeatMissed).contains := ⟨rfl⟩
    have i10 : MayTProgram (footprint .heartbeatMissed).contains := ⟨rfl⟩
    have i11 : MayTWindow (footprint .heartbeatMissed).contains := ⟨rfl⟩
    have i12 : MayTStreams (footprint .heartbeatMissed).contains := ⟨rfl⟩
    have i13 : MayTQueues (footprint .heartbeatMissed).contains := ⟨rfl⟩
    have i14 : MayTWindows (footprint .heartbeatMissed).contains := ⟨rfl⟩
    exact execHeartbeatMissed_ran (Evolves.refl _ s)
  | svcDenied write addr value =>
    have i0 : Raises (footprint (.svcDenied write addr value)).contains := raises_of rfl
    have i1 : MayResp (footprint (.svcDenied write addr value)).contains := ⟨rfl⟩
    exact execSvcDenied_ran (y1 := value) (Evolves.refl _ s)
  | modadd mBits x y m =>
    have i0 : MayBodkin (footprint (.modadd mBits x y m)).contains := ⟨rfl⟩
    exact execModadd_ran (Evolves.refl _ s)
  | modsub mBits x y m =>
    have i0 : MayBodkin (footprint (.modsub mBits x y m)).contains := ⟨rfl⟩
    exact execModsub_ran (Evolves.refl _ s)
  | modmul mBits x y m =>
    have i0 : MayBodkin (footprint (.modmul mBits x y m)).contains := ⟨rfl⟩
    exact execModmul_ran (Evolves.refl _ s)
  | modexp mBits eBits x e m =>
    have i0 : MayBodkin (footprint (.modexp mBits eBits x e m)).contains := ⟨rfl⟩
    exact execModexp_ran (Evolves.refl _ s)
  | modinvP mBits x m =>
    have i0 : MayBodkin (footprint (.modinvP mBits x m)).contains := ⟨rfl⟩
    exact execModinvP_ran (Evolves.refl _ s)
  | ecmulg slot k =>
    have i0 : MayBodkin (footprint (.ecmulg slot k)).contains := ⟨rfl⟩
    exact execEcmulg_ran (Evolves.refl _ s)
  | ecmul slot k p =>
    have i0 : MayBodkin (footprint (.ecmul slot k p)).contains := ⟨rfl⟩
    exact execEcmul_ran (Evolves.refl _ s)
  | ecdh slot k q =>
    have i0 : MayBodkin (footprint (.ecdh slot k q)).contains := ⟨rfl⟩
    exact execEcdh_ran (Evolves.refl _ s)
  | ecadd slot p q =>
    have i0 : MayBodkin (footprint (.ecadd slot p q)).contains := ⟨rfl⟩
    exact execEcadd_ran (Evolves.refl _ s)
  | ecdsaSign slot e d k =>
    have i0 : MayBodkin (footprint (.ecdsaSign slot e d k)).contains := ⟨rfl⟩
    exact execEcdsaSign_ran (Evolves.refl _ s)
  | ecdsaVerify slot e r sigS q =>
    have i0 : MayBodkin (footprint (.ecdsaVerify slot e r sigS q)).contains := ⟨rfl⟩
    exact execEcdsaVerify_ran (Evolves.refl _ s)
  | curveLoad slot p a b gx gy n =>
    have i0 : MayBodkin (footprint (.curveLoad slot p a b gx gy n)).contains := ⟨rfl⟩
    exact execCurveLoad_ran (Evolves.refl _ s)
  | bodkinDone =>
    have i0 : MayClock (footprint .bodkinDone).contains := ⟨rfl⟩
    have i1 : MayTele (footprint .bodkinDone).contains := ⟨rfl⟩
    have i2 : MayBodkin (footprint .bodkinDone).contains := ⟨rfl⟩
    exact execBodkinDone_ran (Evolves.refl _ s)
  | i3cStatusRead =>
    have i0 : MayResp (footprint .i3cStatusRead).contains := ⟨rfl⟩
    have i1 : MayPins (footprint .i3cStatusRead).contains := ⟨rfl⟩
    exact execI3cStatusRead_ran (Evolves.refl _ s)
  | i3cPrivateWrite data =>
    have i0 : MayResp (footprint (.i3cPrivateWrite data)).contains := ⟨rfl⟩
    exact execI3cPrivateWrite_ran (y1 := data) (Evolves.refl _ s)
  | jtagIdcode =>
    have i0 : MayResp (footprint .jtagIdcode).contains := ⟨rfl⟩
    have i1 : MayJtag (footprint .jtagIdcode).contains := ⟨rfl⟩
    exact execJtagIdcode_ran (Evolves.refl _ s)
  | jtagBypass =>
    have i0 : MayJtag (footprint .jtagBypass).contains := ⟨rfl⟩
    exact execJtagBypass_ran (Evolves.refl _ s)
  | jtagSamplePreload bits =>
    have i0 : MayJtag (footprint (.jtagSamplePreload bits)).contains := ⟨rfl⟩
    have i1 : MayFreeCount (footprint (.jtagSamplePreload bits)).contains := ⟨rfl⟩
    have i2 : MayResp (footprint (.jtagSamplePreload bits)).contains := ⟨rfl⟩
    exact execJtagSamplePreload_ran (Evolves.refl _ s)
  | jtagExtest bits =>
    have i0 : MayJtag (footprint (.jtagExtest bits)).contains := ⟨rfl⟩
    exact execJtagExtest_ran (Evolves.refl _ s)
  | jtagIeee1838Access dieCode =>
    have i0 : MayJtag (footprint (.jtagIeee1838Access dieCode)).contains := ⟨rfl⟩
    exact execJtagIeee1838Access_ran (Evolves.refl _ s)
  | jtagIeee1687Access network =>
    have i0 : MayJtag (footprint (.jtagIeee1687Access network)).contains := ⟨rfl⟩
    exact execJtagIeee1687Access_ran (Evolves.refl _ s)
  | i3cDynamicAddressAssignment addr =>
    have i0 : MayPins (footprint (.i3cDynamicAddressAssignment addr)).contains := ⟨rfl⟩
    exact execI3cDynamicAddressAssignment_ran (Evolves.refl _ s)
  | spdmHeartbeatTimeout session =>
    have i0 : MayTrust (footprint (.spdmHeartbeatTimeout session)).contains := ⟨rfl⟩
    exact execSpdmHeartbeatTimeout_ran (Evolves.refl _ s)
  | mailboxBadCmd req cmd =>
    have i0 : Raises (footprint (.mailboxBadCmd req cmd)).contains := raises_of rfl
    have i1 : MayReadLatch (footprint (.mailboxBadCmd req cmd)).contains := ⟨rfl⟩
    have i2 : MayMbx (footprint (.mailboxBadCmd req cmd)).contains := ⟨rfl⟩
    exact execMailboxBadCmd_ran (Evolves.refl _ s)

/-- The front command of a step that goes on. -/
theorem step_ran {c : Instr} {rest : List Instr} {s t : State} (hp : s.pending = c :: rest) (h : step s = .next t) :
    Evolves (footprint c).contains { s with pending := rest } t := by
  unfold step at h
  rw [hp] at h
  exact exec_ran c _ t h

/-- The step of an empty queue. -/
theorem step_idle {s t : State} (hp : s.pending = []) (h : step s = .next t) : t = s.idle := by
  unfold step at h
  rw [hp] at h
  exact (Host.Outcome.next.inj h).symm

end Sys2Proof.Machine
end

