-- ==== Sys2Proof/Tests/Slice0.lean ====
section
/-!
SUPPORT. The author's tests: refusals of ill-formed commands, worked examples of the manual, and for the hypotheses of each
statement a state and operands that meet them.
-/
namespace Sys2Proof.Tests

set_option Elab.async false
open Sys2Proof.Machine

/-! ## Small states -/

/-- A module that is Ready, with an up link and both firmwares running. -/
def up : State :=
  { State.reset with
    boot := { Boot.reset with begun := true, stage := 9 }
    link := { Link.reset with state := .up, memPresent := true }
    trust := { Trust.reset with
      svnTrusted := 3, svnService := 4, revoked := 0, serviceRunning := true,
      trusted := some { keyIndex := 1, svn := 5, eccPub := [], measure := [] },
      service := some { keyIndex := 0, svn := 4, eccPub := [], measure := [] } } }

/-- A parameter set with N = 4, two chain moduli, one special modulus and LWE samples of four words. -/
def pset0 : Machine.PSet :=
  let m (q : Nat) : Modulus := { q := q, root := 2, w := 5, c := 0, u := 3, scaleStep := 0 }
  { logN := 2, chain := 2, special := 1, dnum := 2, lweN := 4, noiseLimit := 1000, postPbs := 1, postRlwe := 1, pbsLevels := 2,
    pbsBaseLog := 4, domainSep := [], lwe := m 17, noiseInc := List.replicate 32 0, moduli := [m 17, m 41, m 73] }

/-- A descriptor of `n` words of 32 bits in a tile's scratchpad from offset `off` on, without records. -/
def words (off n : Nat) : Desc :=
  { code := 0, elemBits := 32, space := 0, recorded := false, index := false, blocked := false, specialRows := 0, tileset := 0xFF,
    dieMask := 0, stackMask := 0, base := off, allocSize := 4096, pitch := 0, recordOffset := 0,
    dims := [{ extent := n, stride := 4, role := 1, axis := 0, parts := 1, block := 0 }], members := [] }

/-- A job of ring 0 on tiles 0 and 1 under GUARD `g`. -/
def job0 (g : Guard) : Job :=
  { ring := 0, tag := 5, prk := 0,
    image := { base := 0, bindings := 0, tiles := 0, descs := 0, groups := 0, tables := 0, vprogs := 0, psetRef := 0,
               imageSize := 0, sections := List.replicate 12 (0, 0) },
    notify := false, pasid := 0, bindTable := 0, roundSeed := 0, auditBase := 0, auditPerTile := 0, snapBase := 0, snapSize := 0,
    mode := { Mode.reset with guard := g }, tiles := [⟨0, 0, 9, 0⟩, ⟨1, 0, 9, 0⟩],
    descs := [words 0 4, words 0x1000 4, words 0x2000 4], barriers := [{ members := [0, 1], arrived := [0, 1], uses := 0 }], epoch := 0,
    epochs0 := [], shards := [], written := [], writtenAt := 0, generation := 0, committing := false, commitSince := 0, resolving := none,
    copied := [], crcs := [], taking := none, saved := none, fallen := [], scheds := [], recovery := none, epochRecoveries := 0, aborted := [],
    recoveries := 0, events := 0, heldErrs := [], admitted := 0, ending := none }

/-- A word of an opcode family with operands 0, 1 and 2. -/
def word (fam imm : Nat) : MopWord :=
  { opcode := 0x100 + fam, engine := 0, issue := 0, chain := 0, cstage := 0, pset := 0, hold := 0xFFF, o0 := ⟨0, 0⟩,
    o1 := ⟨1, 0⟩, o2 := ⟨2, 0⟩, o3 := ⟨0xFFF, 0⟩, imm := imm }

/-- A started macro-operation with sequence number 3. -/
def mop (w : MopWord) : Mop := { Mop.fresh 3 w with start := some 1, ready0 := some 0 }

/-- `up` with a job, whose tile 0 has one macro-operation in its window. -/
def run (g : Guard) (m : Mop) : State :=
  let s := { up with jobs := [job0 g], psets := Tab.put up.psets 0 (some pset0) }
  (s.mapTile 0 (fun u => { u with job := some 0, entry := some ⟨0, 0, 9, 0⟩, next := 4, window := [m], runs := 24000, slotLeft := 24000, memAllot := 9000 })).mapTile 1
    (fun u => { u with job := some 0, entry := some ⟨1, 0, 9, 0⟩, runs := 24000, slotLeft := 24000, memAllot := 9000 })

/-- The outcome of a command is a next state with a property. -/
def goes (o : Out) (p : State → Bool) : Bool :=
  match o with
  | .next t => p t
  | _ => false

/-! ## Ill-formed commands -/

theorem test_wf_tile : Instr.wf (.macroOffer 208) = false := by decide
theorem test_wf_seq : Instr.wf (.ntt 0 (2 ^ 32)) = false := by decide
theorem test_wf_ring : Instr.wf (.ringFetch 32) = false := by decide
theorem test_wf_stack : Instr.wf (.wcbResidencyTimeout ⟨12, .clean⟩) = false := by decide
theorem test_wf_die : Instr.wf (.dvfsStart 4) = false := by decide
theorem test_wf_near_die : Instr.wf (.patrolScrub (.near 4) .clean) = false := by decide
theorem test_wf_length : Instr.wf (.modadd (2 ^ 16) 0 0 0) = false := by decide
theorem test_wf_exponent_length : Instr.wf (.modexp 64 (2 ^ 16) 0 0 0) = false := by decide
theorem test_wf_slot : Instr.wf (.ecmulg 4 1) = false := by decide
theorem test_wf_point : Instr.wf (.ecmul 0 1 (some (2 ^ 4096, 0))) = false := by decide +kernel
theorem test_wf_register_address : Instr.wf (.regWrite .mainband (2 ^ 24) 4 0) = false := by decide
theorem test_wf_register_size : Instr.wf (.regWrite .mainband 0 3 0) = false := by decide
theorem test_wf_read_address : Instr.wf (.reg64LowRead .mainband ⟨2 ^ 24, 4⟩) = false := by decide
theorem test_wf_pset_index : Instr.wf (.psetLoad .mainband 64) = false := by decide
theorem test_wf_pricking_index : Instr.wf (.prkUnload .mainband 16) = false := by decide
theorem test_wf_rate : Instr.wf (.linkRetrain .mainband 4) = false := by decide
theorem test_wf_repaired_lanes : Instr.wf (.linkTrainingDone true true 256) = false := by decide
theorem test_wf_host_length : Instr.wf (.hostMemRead 0 65) = false := by decide
theorem test_wf_scratch_offset : Instr.wf (.scratchEccWriteback 0 0x600000) = false := by decide
theorem test_wf_ring_bytes : Instr.wf (.keyRingArrival 0 0 65537 0) = false := by decide
theorem test_wf_remote_range : Instr.wf (.remoteRead 0 1 (2 ^ 23) 1) = false := by decide
theorem test_wf_unit : Instr.wf (.cvuRxWrite .mainband 8 0) = false := by decide
theorem test_wf_line : Instr.wf (.memWriteRequest 1 0 (List.replicate 64 0)) = false := by decide
theorem test_wf_line_data : Instr.wf (.memWriteRequest 0 0 []) = false := by decide
theorem test_wf_queue : Instr.wf (.translationComplete 0 8 true) = false := by decide
theorem test_wf_pattern : Instr.wf (.strmFill .mainband 4) = false := by decide
theorem test_wf_samples : Instr.wf (.thermalSample [] [] 0) = false := by decide
theorem test_wf_rail : Instr.wf (.railLost 11) = false := by decide
theorem test_wf_reports : Instr.wf (.stageHbm []) = false := by decide
theorem test_wf_sites : Instr.wf (.stageTiles [[56], [], [], []] none) = false := by decide
theorem test_wf_boot_kind : Instr.wf (.bootStart 4) = false := by decide
theorem test_no_word_spells_a_command : decodeTableWord 32 0 = none := rfl

/-! ## Worked examples of the manual -/

/-- The example after R312: device address 0x31_0000_1A40 is stack address 0x5555_1A40 of S4. -/
theorem test_address_example : home 0x3100001A40 = .hbm 4 0x55551A40 := by decide
/-- The durations of the examples after Table SE.10 on P-384 and for 4,096-bit moduli. -/
theorem test_bodkin_durations : p384.te = 365362 ∧ 80 + 2 * p384.te + p384.scalarCycles = 775696 := by decide +kernel

/-! ## Steps and invariants -/

theorem test_idle_hyps : State.reset.pending = [] := rfl
theorem test_step_goes_on : up.memoryOk = true ∧ up.wcbOk = true ∧ up.jobsOk = true ∧ up.errorsOk = true ∧ up.goesOn = true := by
  decide +kernel
theorem test_command_goes_on : goes (exec .haltComplete up) (fun _ => true) = true ∧ Part.mem ∉ footprint .haltComplete := by
  decide +kernel

/-- `up` after a FATAL error. -/
def down : State := { up with errs := { up.errs with fatal := true } }

theorem test_fatal_left : down.errs.fatal = true ∧ goes (exec .mresetAssert down) (fun t => !t.errs.fatal) = true ∧
    goes (exec (.railLost 10) down) (fun t => !t.errs.fatal) = true := by decide +kernel
theorem test_svn_hyps : up.mbxServes = true ∧ up.errs.fatal = false ∧ up.mbx.busy = false ∧ up.mbx.len = 0 ∧
    up.trust.trusted.isSome = true ∧ up.trust.service.isSome = true ∧ up.jobs = [] := by decide +kernel
theorem test_svn_commit : goes (exec (.svnCommit .mainband true) up) (fun t =>
    t.trust.svnTrusted == 5 && t.trust.svnService == 4 && t.trust.revoked == 1) = true := by decide +kernel
theorem test_no_home : home 0x200005FFFFF ≠ .unmapped ∧ home (2 ^ 62) = .unmapped := by decide
theorem test_map_hyps : home 0xBFFFFFFFFF = .hbm 11 0xFFFFFFFFF ∧ home 0 = .hbm 0 0 := by decide

/-! ## Registers -/

theorem test_windows_open (a : Nat) : up.windowOpen .mainband a = true := rfl
theorem test_wide_hyps : wideReg 0x010100 = true ∧ wideReg 0x0701E0 = true ∧ up.servesRead .mainband 0x010100 = true ∧
    up.serves .mainband = true ∧ up.windowOpen .mainband 0x010100 = true ∧ up.windowOpen .mainband 0x010104 = true := by
  decide +kernel
theorem test_wide_read : goes (exec (.reg64LowRead .mainband ⟨0x010104, 4⟩)
    { up with readLatch := some (0x010104, 7) }) (fun t => t.resp == .word 7) = true := by decide +kernel
/-- `up` with selects at the ends of their tables. -/
def far : State := up.mapSelects .mainband (fun _ => { tile := 207, queue := 7, ring := 31, stack := 11, die := 3 })

theorem test_select_hyps : far.serves .mainband = true ∧ (far.selects .mainband).die = 3 ∧ (far.selects .mainband).stack = 11 ∧
    (far.selects .sideband).die = 0 := by decide +kernel
theorem test_odd_hyps : up.serves .sideband = true ∧ ((2 : Nat) ≠ 4 ∨ 0x010000 % 4 ≠ 0) := by decide +kernel
theorem test_odd_read_hyps : up.servesRead .sideband 0x010002 = true ∧ (⟨0x010002, 4⟩ : RegRead).addr % 4 ≠ 0 ∧ (⟨0, 8⟩ : RegRead).size ≠ 4 := by decide +kernel
theorem test_unassigned_hyps : up.serves .mainband = true ∧ up.windowOpen .mainband 0x1FFFFC = true := by decide +kernel
theorem test_mode_hyps : bits 0x00201001 1 0 ≠ 3 ∧ bits 0x00201001 13 12 ≠ 3 ∧ bits 0x00201001 21 20 ≠ 3 ∧
    bits 3 1 0 = 3 ∧ bits 0x3000 13 12 = 3 ∧ bits 0x300000 21 20 = 3 := by decide
theorem test_telem_hyps : Ctr.named 15 63 = none ∧ (Ctr.named 1 0).isSome = true := by decide

/-- `up` with both loaders busy. -/
def loading (load : Bool) : State :=
  { up with psetLoader := { up.psetLoader with op := some { load := load, index := 63, addr := 0 } },
            prkLoader := { up.prkLoader with op := some { load := load, index := 15, addr := 0 } } }

theorem test_loader_start_hyps : up.serves .mainband = true ∧ up.psetLoader.op = none ∧ up.prkLoader.op = none := by decide +kernel
theorem test_loader_discard_hyps : (loading true).serves .mainband = true ∧ (loading true).psetLoader.op.isSome = true ∧
    (loading true).prkLoader.op.isSome = true ∧ bit 0x300 8 = true ∧ bit 0x300 9 = true := by decide +kernel
theorem test_load_hyps : (loading true).psetHeld 63 = false ∧ (loading true).pset 63 = none ∧ (loading true).pricking 15 = none ∧
    (loading true).jobs = [] := by decide +kernel
/-- The same with the indices valid, and with a job that holds them. -/
def valid (load : Bool) : State :=
  { loading load with psets := Tab.put up.psets 63 (some pset0), prks := Tab.put up.prks 15 (some (job0 .off).image) }

theorem test_load_valid_hyps : ((valid true).pset 63).isSome = true ∧ ((valid false).pricking 15).isSome = true ∧
    (valid false).psetHeld 63 = false := by decide +kernel
theorem test_load_held_hyps : ({ valid false with jobs := [{ job0 .off with prk := 15, image := { (job0 .off).image with psetRef := 2 ^ 63 } }] } : State).psetHeld 63
    = true ∧ (job0 .off).prk ≠ 15 := by decide +kernel

/-- The water levels of slots 1 and 2 in the example after R474: 52 tiles of 50,400 tokens under 180,000 and 354,720. -/
theorem test_water_levels : waterLevel (List.replicate 52 50400) 180000 = 3461 ∧ waterLevel (List.replicate 52 50400) 354720 = 6821 := by
  decide +kernel

/-! ## Memory, streamers, the link and its window -/

theorem test_memory_hyps : up.wcbOk = true ∧ up.memoryOk = true ∧ home 0xBFFFFFFFC0 ≠ .unmapped ∧ up.poisoned 0xBFFFFFFFFF = false ∧
    (BitVec.ofNat 64 fullMask).toNat = fullMask ∧ poisonable 0xBFFFFFFFC0 = true := by decide +kernel
/-- The last line of tile 3's first granule, and the same marked. -/
theorem test_scratch_read_hyps : up.pins.allGood = true ∧ home (scratchAddr 3 0xFC7) = .scratch 3 0xFC7 ∧ up.remoteBad 3 (0xFC7 / 64 * 64) 64 = false ∧
    ((up.mapTile 3 (fun u => { u with marks := [0] })).tile 3).marks.contains (0xFC7 / 4096) = true := by decide +kernel
theorem test_memory_poisoned_hyps : ({ up with linePoison := [0xBFFFFFFFC0] } : State).poisoned 0xBFFFFFFFFF = true := by decide +kernel
theorem test_memory_write : goes (exec (.memWriteRequest 0xBFFFFFFFC0 (BitVec.ofNat 64 (2 ^ 63)) (List.replicate 64 9)) up) (fun t =>
    t.readByte 0xBFFFFFFFFF == 9 && t.readByte 0xBFFFFFFFFE == 0) = true := by decide +kernel

/-- `up` with a poison request, and with a partly written line in the buffer of stack 11. -/
def lines : State :=
  { up.mapStack 11 (fun k => { k with wcb := [{ line := 0xBFFFFFFFC0, data := List.replicate 64 1, mask := 1, since := 0 }] }) with
    poisonRequests := [{ tile := 0, lines := [0xBFFFFFFFC0] }] }

theorem test_request_hyps : lines.poisonRequests.length = 1 ∧ stackOf 0xBFFFFFFFC0 = some 11 ∧ lines.wcbOk = true ∧
    lines.memoryOk = true ∧ (lines.stack 11).wcb.length = 1 ∧ lines.poisoned 0xBFFFFFFFC0 = false := by decide +kernel
theorem test_scrub_hyps : (up.stack 11).scrubEnable = true ∧ (up.stack 11).scrubNext + 1 < 2 ^ 30 ∧ Tab.at up.nearScrub 0 3 + 1 < 2 ^ 28 ∧
    ((up.mapStack 11 (fun k => { k with scrubNext := 2 ^ 30 - 1 })).stack 11).scrubNext + 1 = 2 ^ 30 := by decide +kernel

/-- `far` with a streamer descriptor at the end of stack 11 that counts `n` lines. -/
def stream (n : Nat) : State :=
  far.mapStack 11 (fun k => { k with strmStart := 2 ^ 30 - 1, strmCount := n, strmRun := some ⟨.compare, 5, 1, 1, 0⟩ })

theorem test_streamer_hyps : (stream 1).serves .mainband = true ∧ (stream 1).jobs = [] ∧ ((stream 1).selects .mainband).stack = 11 ∧
    (stream 1).wcbOk = true ∧ (stream 1).memoryOk = true ∧
    strmInside ((stream 1).stack 11).strmStart (signed 32 ((stream 1).stack 11).strmStride.toNat) ((stream 1).stack 11).strmCount = true := by
  decide +kernel
theorem test_streamer_refused_hyps :
    strmInside ((stream 2).stack 11).strmStart (signed 32 ((stream 2).stack 11).strmStride.toNat) ((stream 2).stack 11).strmCount = false := by
  decide +kernel
theorem test_streamer_busy_hyps : (run .off (mop (word 0 0))).jobs ≠ [] ∧ (run .off (mop (word 0 0))).serves .mainband = true := by
  decide +kernel
theorem test_streamer_end_hyps : ((stream 1).stack 11).strmRun = some ⟨.compare, 5, 1, 1, 0⟩ ∧ (⟨.compare, 5, 1, 1, 0⟩ : StrmRun).addresses 5 = true ∧
    StrmOp.compare ≠ .fill := by decide +kernel

/-- `up` with the window at HBM's last block. -/
def window : State := { up with link := { up.link with hdmBase := 11 } }

theorem test_window_hyps : window.link.memPresent = true ∧ window.boot.stopped = false ∧ window.pins.mreset = false ∧
    window.errs.fatal = false ∧ window.trust.changing = none ∧ window.wcbOk = true ∧ window.memoryOk = true ∧
    2 ^ 36 - 8 + (List.replicate 8 (1 : Byte)).length ≤ 2 ^ 36 ∧ window.link.hdmBase * 2 ^ 36 + 2 ^ 36 ≤ 0xC000000000 := by decide +kernel
theorem test_window_read_hyps : ∀ l ∈ linesOf (window.link.hdmBase * 2 ^ 36 + (2 ^ 36 - 8)) 8, window.linePoison.contains l = false := by
  decide +kernel
theorem test_window_poison_hyps : linesOf (window.link.hdmBase * 2 ^ 36 + (2 ^ 36 - 8)) 8 = [0xBFFFFFFFC0] ∧
    ({ window with linePoison := [0xBFFFFFFFC0] } : State).linePoison.contains 0xBFFFFFFFC0 = true ∧ (2 ^ 36 - 8) + 8 ≤ 2 ^ 36 := by decide +kernel
theorem test_retrain_hyps : up.serves .mainband = true ∧ up.jobs = [] ∧ up.link.state = .up ∧
    ({ up with link := { up.link with state := .training } } : State).link.state = .training := by decide +kernel
theorem test_map_write_hyps : (11 * 2 ^ 36) / 2 ^ 36 % 2 ^ 28 < 12 ∧ 12 ≤ (12 * 2 ^ 36) / 2 ^ 36 % 2 ^ 28 ∧ up.link.decoderCommitted = false := by
  decide +kernel
theorem test_config_hyps : State.reset.boot.stage < 9 ∧ 9 ≤ up.boot.stage ∧ up.pins.mreset = false ∧ up.boot.stopped = false := by
  decide +kernel

/-! ## Rings and jobs -/

/-- A completion record. -/
def record : Completion := Completion.plain 5 0 0 true

/-- `far` with ring 31 in use, with records held and entries pending. -/
def ringS (held : List Completion) (pending : List PendingEntry) : State :=
  far.mapRing 31 (fun r => { r with enable := true, held := held, pending := pending, cqBase := 0x1000, sqBase := 0x4000 })

theorem test_doorbell_hyps : (ringS [] []).serves .mainband = true ∧ 15 % 4096 < 2 ^ ((ringS [] []).ring 31).sqSizeLog ∧
    2 ^ ((ringS [] []).ring 31).sqSizeLog ≤ 16 % 4096 ∧ 15 % 4096 < 2 ^ ((ringS [] []).ring 31).cqSizeLog ∧
    63 % 4096 < 2 ^ up.evq.sizeLog ∧ 2 ^ up.evq.sizeLog ≤ 64 % 4096 := by decide +kernel
theorem test_ring_control_hyps : (far.selects .mainband).ring = 31 ∧ (far.ring 31).held = [] ∧ (far.ring 31).enable = false ∧
    far.ringBusy 31 = false ∧ ((ringS [record] []).ring 31).held = [record] ∧ ((ringS [record] []).ring 31).cqFull = false ∧
    ((ringS [record] []).ring 31).error = false ∧ (ringS [record] []).awaits record = false ∧ (ringS [record] [⟨[], 0, false, false, [], []⟩]).ringBusy 31 = true := by decide +kernel
theorem test_record_hyps : (ringS [record] []).wcbOk = true ∧ (ringS [record] []).memoryOk = true ∧ (ringS [record] []).linePoison = [] ∧
    (ringS [record] []).canComplete 31 = true ∧ ((ringS [record] []).ring 31).cqBase.toNat + 32 * ((ringS [record] []).ring 31).cqTail + 32 ≤ 2 ^ 63 := by
  decide +kernel
theorem test_coalesce_hyps : ((far.mapRing 31 (fun r => { r with firstUnacked := some 7, coalUs := 4095 })).ring 31).firstUnacked = some 7 := by
  decide +kernel
/-- Ring 31 with 15 entries to fetch. -/
def fetchS : State := (ringS [] []).mapRing 31 (fun r => { r with sqTail := 15 })

theorem test_fetch_hyps : fetchS.errs.fatal = false ∧ fetchS.halt = .running ∧ fetchS.pins.mreset = false ∧ (fetchS.ring 31).inUse = true ∧
    (fetchS.ring 31).sqHead < 2 ^ (fetchS.ring 31).sqSizeLog ∧ (fetchS.ring 31).sqTail < 2 ^ (fetchS.ring 31).sqSizeLog ∧
    (fetchS.ring 31).fetchable = 15 ∧ ((List.range 15).all fun i => !jdIsCancel (fetchS.sqEntry 31 i)) = true ∧ fetchS.evq.enable = false := by
  decide +kernel

/-- A CANCEL entry of tag 5 on ring `r`, and ring 31 with that entry to fetch. -/
def cancelBytes (r : Nat) : List Byte :=
  withCrc (leBytes 2 0xC7F8 ++ [2, 0] ++ leBytes 4 5 ++ List.replicate 60 0 ++ [BitVec.ofNat 8 r] ++ List.replicate 55 0)
def cancelS (full : Bool) : State :=
  ((ringS (if full then [record] else []) []).store (hostAddr 0x4000) (cancelBytes 30)).mapRing 31 (fun r => { r with sqTail := 1 })

theorem test_cancel_fetch_hyps : jdIsCancel ((cancelS false).sqEntry 31 0) = true ∧ jdTargetRing ((cancelS false).sqEntry 31 0) = 30 ∧
    (cancelS false).job 30 = none ∧ ((cancelS false).ring 30).pending = [] ∧ ((cancelS false).ring 31).held = [] ∧
    ((cancelS false).ring 31).cqFull = false ∧ ((cancelS false).ring 31).inUse = true ∧ (cancelS false).halt = .running ∧
    ((cancelS true).ring 31).held ≠ [] ∧ 0 < ((cancelS true).ring 31).sqSizeLog := by decide +kernel

/-- A RUN entry of pricking 0 with tag 5, and a state in which it passes every check. -/
def jobBytes : List Byte := withCrc (leBytes 2 0xC7F8 ++ [1, 0] ++ leBytes 4 5 ++ List.replicate 116 0)
def admitS (checked : Bool) : State :=
  { (ringS [] [⟨jobBytes, 0, false, checked, [], []⟩]) with
    mode := { Mode.reset with guard := .off }, prks := Tab.put up.prks 0 (some (job0 .off).image) }

theorem test_admission_hyps : (admitS false).admits = true ∧ ((admitS false).ring 31).inUse = true ∧
    ((admitS false).admissionCode 31 jobBytes true).1 = 0 ∧ ((ringS [] [⟨[], 0, false, false, [], []⟩]).admissionCode 31 [] true).1 ≠ 0 ∧
    ((ringS [] []).ring 31).cqFull = false := by decide +kernel
theorem test_admission_full_hyps :
    ((far.mapRing 31 (fun r => { r with enable := true, cqTail := 15, fullSince := some 0 })).ring 31).cqFull = true := by decide +kernel
theorem test_admit_hyps : (admitS true).admits = true ∧
    ((List.range 32).map (fun i => ((admitS true).rrNext + i) % 32)).find? (admitS true).admissible = some 31 ∧
    ((admitS true).pricking (jdPricking jobBytes)).isSome = true ∧
    (({ admitS true with rrNext := (31 + 1) % 32 } : State).admissionCode 31 jobBytes true).1 = 0 := by decide +kernel
theorem test_not_admitting_hyps : ({ up with halt := .halting } : State).admits = false := by decide +kernel

/-- A job that has retired everything, with its ring in use. -/
def ended (full : Bool) : State :=
  let s := run .off (mop (word 28 0))
  (({ s with jobs := [{ job0 .off with tiles := [⟨0, 0, 4, 0⟩, ⟨1, 0, 0, 0⟩] }] } : State).mapRing 0 (fun r =>
    { r with enable := true, cqTail := if full then 15 else 0 })).mapTile 0 (fun u => { u with window := [], entry := some ⟨0, 0, 4, 0⟩ }) |>.mapTile 1
    (fun u => { u with entry := some ⟨1, 0, 0, 0⟩ })

theorem test_end_hyps : (ended false).errs.fatal = false ∧ ((ended false).job 0).isSome = true ∧
    ((ended false).job 0).any (fun j => j.ending.isNone && !j.committing && j.recovery.isNone && (ended false).jobFinished j &&
      j.heldErrs.all (fun e => e.cls == .deferred)) = true ∧ ((ended false).ring 0).inUse = true ∧ ((ended false).ring 0).cqFull = false ∧
    ((ended false).ring 0).held = [] ∧ ((ended true).ring 0).cqFull = true := by decide +kernel
theorem test_cancel_hyps : ((far.job 31).all (fun j => j.tag != far.cancelTag.toNat)) = true ∧
    (((ringS [] [⟨jobBytes, 0, false, false, [], []⟩]).ring 31).pending.all (fun e => jdTag e.bytes != far.cancelTag.toNat)) = true ∧
    (({ run .off (mop (word 28 0)) with cancelTag := 5 } : State).job 0).any (fun j => j.tag == 5 && j.ending.isNone &&
      !(run .off (mop (word 28 0))).jobFinished j) = true := by decide +kernel
theorem test_halt_hyps : up.serves .mainband = true ∧ up.halt = .running ∧
    ({ up with halt := .halting } : State).jobs.all (fun j => j.ending.isSome || up.jobFinished j) = true ∧ up.poisonRequests = [] ∧
    lines.poisonRequests ≠ [] ∧ up.trust.changing = none := by decide +kernel

/-! ## Errors -/

/-- An error queue with `n` entries, and errors that repeat one or none of them. -/
def queueOf (n : Nat) : ErrUnit :=
  { ErrUnit.reset with queue := (List.range n).map (fun i => ⟨Err.plain .deferred 3 6 i 0 0, 1, i, .waiting⟩) }

theorem test_queue_hyps : (queueOf 64).queue.length = 64 ∧ (queueOf 64).queue.any (fun x => x.repeats (Err.plain .deferred 3 6 63 9 9)) = true ∧
    (queueOf 63).queue.any (fun x => x.repeats (Err.plain .deferred 3 6 63 0 0)) = false ∧
    (queueOf 64).queue.any (fun x => x.repeats (Err.plain .fatal 0x30 8 0 0 0)) = false ∧ ((queueOf 64).victim).isSome = true := by decide +kernel
theorem test_fatal_hyps : up.errs.fatal = false ∧ (Err.plain .fatal 0x30 8 0 0 0).cls = .fatal ∧ down.errs.fatal = true := by decide +kernel
theorem test_handling_hyps : (queueOf 2).active = none ∧ (queueOf 2).queue ≠ [] ∧
    ({ ErrUnit.reset with queue := [⟨Err.plain .deferred 3 6 0 0 0, 1, 0, .active⟩] } : ErrUnit).active.isSome = true ∧ up.evq.enable = false ∧
    (up.evq.tail + 1) % 2 ^ up.evq.sizeLog ≠ up.evq.head % 2 ^ up.evq.sizeLog := by decide +kernel

/-! ## Power, heat, pins and start-up -/

theorem test_pacing_hyps : up.pacing = true ∧ (up.die 3).frozen = false := by decide +kernel
/-- `up` with die 3 at point 5 and a goal of `p`. -/
def point (p : Nat) : State := up.mapDie 3 (fun d => { d with point := 5, target := p })

theorem test_dvfs_hyps : (point 2).dvfsMay 3 = true ∧ (point 2).goal 3 < ((point 2).die 3).point ∧ (point 7).dvfsMay 3 = true ∧
    ((point 7).die 3).point < (point 7).goal 3 ∧ ((up.mapDie 3 (fun d => { d with avsFault := true })).die 3).avsFault = true := by
  decide +kernel
/-- `up` with a performance change of die 3 in phase `p`, begun 97,999 ns ago. -/
def changing (p : DvfsPhase) (faster : Bool) : State :=
  { up with clock := 97999 }.mapDie 3 (fun d => { d with seq := some ⟨faster, 0, p, 0⟩ })

theorem test_change_hyps : ((changing .polling true).die 3).seq = some ⟨true, 0, .polling, 0⟩ ∧ (changing .polling true).clock < 0 + 98000 ∧
    ((changing .settling true).die 3).seq = some ⟨true, 0, .settling, 0⟩ ∧ ((changing .frozen false).die 3).seq = some ⟨false, 0, .frozen, 0⟩ ∧
    (changing .polling true).pins.mreset = false ∧ (changing .polling true).errs.fatal = false := by decide +kernel
/-- Readings of the tiles: `v` everywhere. -/
def temps (v : Nat) : List Nat := List.replicate 224 v

theorem test_heat_hyps : ((hotSensors (temps 115) [] 0).all (fun x => !up.power.hot.contains x.1)) = true ∧
    ((hotSensors (temps 114) [] 0).all (fun x => !up.power.hot.contains x.1)) = true ∧ (temps 104).length = 224 ∧
    ((List.range 52).all fun i => decide ((temps 104).getD (52 * 3 + i) 0 < (up.die 3).tAlert)) = true ∧
    (up.die 3).tAlert ≤ (temps 105).getD (52 * 3 + 51) 0 ∧ (up.die 3).alertFlag = false := by decide +kernel
theorem test_cool_hyps : (up.die 3).tSlow ≤ (temps 104).getD (52 * 3) 0 ∧ ((List.range 52).all fun i => decide ((temps 0).getD (52 * 3 + i) 0 < (up.die 3).tSlow)) = true := by
  decide +kernel
theorem test_trip_hyps : ((hotSensors [] [] 115).any fun x => ({ up with power := { up.power with hot := [(8, 0)] } } : State).power.hot.contains x.1)
    = true ∧ up.errs.fatal = false := by decide +kernel
theorem test_trip : goes (exec (.thermalSample (temps 0) [] 115) { up with power := { up.power with hot := [(8, 0)] } })
    (fun t => t.errs.fatal && !t.pins.thermtripN) = true := by decide +kernel
theorem test_floor_hyps : ((up.mapDie 3 (fun d => { d with alertFlag := true, belowSince := some 5 })).die 3).alertFlag = true ∧
    ((up.mapDie 3 (fun d => { d with alertFlag := true, belowSince := some 5 })).die 3).belowSince = some 5 := by decide +kernel
theorem test_off_hyps : ({ up with halt := .halted } : State).serves .mainband = true ∧ up.halt ≠ .halted ∧
    ({ up with power := { up.power with offRamp := true } } : State).power.offRamp = true := by decide +kernel
theorem test_clkout_hyps : bits 0x70038 3 0 ≤ 8 ∧ clkoutMHz (bits 0x70038 3 0) ≤ 200 * (bits 0x70038 15 4 + 1) ∧ bits 0xCF0071 23 16 < 208 ∧
    clkoutMHz (bits 0xCF0071 3 0) ≤ 200 * (bits 0xCF0071 15 4 + 1) ∧ 8 < bits 9 3 0 ∧ 200 * (bits 3 15 4 + 1) < clkoutMHz (bits 3 3 0) ∧
    208 ≤ bits 0xD00071 23 16 := by decide

theorem test_rail_hyps : (State.reset.pins.allGood) = true ∧ State.reset.boot.begun = false ∧ State.reset.pins.mreset = false ∧
    up.boot.begun = true ∧ up.pins.allGood = true ∧
    ({ up with pins := { up.pins with railsGood := Tab.put up.pins.railsGood 10 false } } : State).pins.allGood = false := by decide +kernel
theorem test_throttle_hyps : up.pins.throttleChanged = none ∧ (50000 + 0 : Nat) ≤ 50000 ∧ (49999 : Nat) < 0 + 50000 ∧
    ({ up with pins := { up.pins with throttle := true } } : State).goal 3 = 7 := by decide +kernel

/-- A start-up in stage `k`. -/
def stage (k : Nat) : State := { up with boot := { up.boot with stage := k } }

theorem test_stage_turn_hyps : [1, 2, 3, 4, 5, 6, 7, 8].all (fun k => !(stage 9).inStage k) = true := by decide +kernel
theorem test_stage_hyps : [1, 2, 3, 4, 5, 6, 7, 8].all (fun k => (stage k).inStage k) = true := by decide +kernel
/-- An image of no body, KIND 1, is refused. -/
theorem test_image_hyps : firmwareCode (stage 2).trust 1 ((stage 2).flashImage 1 0) ≠ 0 := by decide +kernel
theorem test_site_hyps : (passingSites [0, 1, 2, 3]).length = 52 ∧ (passingSites [0, 1, 2, 3, 4]).length = 51 ∧
    ((List.replicate 12 (⟨true, 0, [], true, 0⟩ : StackReport)).all fun r => r.trained && r.sparesEnough) = true := by decide +kernel
/-- A boot mailbox that waits for KIND 1 and has taken `n` of 129 bytes. -/
def mailbox (n : Nat) : State :=
  { stage 2 with boot := { (stage 2).boot with waiting := true, len := 129, ctrlKind := 1, image := some (List.replicate n 0) } }

theorem test_boot_hyps : (mailbox 0).serves .sideband = true ∧ (mailbox 0).boot.awaited = 1 ∧ (mailbox 0).boot.image = some [] ∧
    ([] ++ (mailbox 0).boot.data.take (min 128 (129 - 0)) : List Byte).length < 129 ∧
    129 ≤ (List.replicate 128 0 ++ (mailbox 128).boot.data.take (min 128 (129 - 128)) : List Byte).length ∧
    firmwareCode (mailbox 128).trust (mailbox 128).boot.awaited (List.replicate 128 0 ++ (mailbox 128).boot.data.take 1) ≠ 0 ∧
    up.boot.waiting = false ∧ up.boot.image = none := by decide +kernel

/-! ## Trust -/

/-- `up` halted, with `n` bytes of mailbox input. -/
def mbx (n : Nat) (h : HaltState) : State := { up with halt := h, mbx := { up.mbx with len := n } }

theorem test_mailbox_hyps : (mbx 48 .halted).mbxServes = true ∧ (mbx 48 .halted).errs.fatal = false ∧ (mbx 48 .halted).mbx.busy = false ∧
    (mbx 144 .halted).tokenOk (slice (mbx 144 .halted).mbx.data 0 144) = false ∧ (run .off (mop (word 28 0))).jobs ≠ [] ∧
    mailboxLen 0 = none ∧ mailboxLen 6 = none := by decide +kernel
theorem test_mailbox_go : goes (exec (.ownerChange .mainband) (mbx 48 .halted)) (fun t => t.mbx.busy && t.trust.changing.isSome) = true ∧
    goes (exec (.ownerChange .mainband) (mbx 48 .running)) (fun t => t.mbx.result == 2) = true := by decide +kernel

/-- `up` with a session that asked for heartbeats and one that did not. -/
def sessions : State := { up with trust := { up.trust with sessions := [⟨7, true, 0⟩, ⟨8, false, 0⟩], nextSession := 9 } }

theorem test_spdm_hyps : up.mbxServes = true ∧ State.reset.boot.stage < 9 ∧ 9 ≤ up.boot.stage ∧ up.trust.changing = none ∧
    ({ up with trust := { up.trust with changing := some [] } } : State).trust.changing.isSome = true ∧ up.trust.sessions.length < 4 ∧
    (sessions.trust.sessions.any fun x => x.id == 8) = true ∧ (sessions.trust.sessions.any fun x => x.id == 7 && x.heartbeat) = true ∧
    (sessions.trust.sessions.any fun x => x.id == 8 && x.heartbeat) = false := by decide +kernel
/-- Four open sessions, of which none is number 9. -/
theorem test_session_hyps :
    let s : State := { up with trust := { up.trust with sessions := [⟨5, true, 0⟩, ⟨6, true, 0⟩, ⟨7, true, 0⟩, ⟨8, false, 0⟩] } }
    4 ≤ s.trust.sessions.length ∧ (s.trust.sessions.any fun x => x.id == 9) = false ∧ s.mbxServes = true := by decide +kernel
theorem test_service_hyps : up.trust.serviceRunning = true ∧ up.errs.fatal = false ∧ up.trust.changing = none ∧ up.jobs = [] ∧
    (up.trust.windows.all fun x => decide (9 < x.1) || decide (x.2 ≤ 9)) = true ∧
    ([(8, 16)].any fun (x : Nat × Nat) => decide (x.1 ≤ 15) && decide (15 < x.2)) = true := by decide +kernel
theorem test_access_hyps : up.i3cServed = true ∧ up.pins.i3cAddr = none ∧ up.pins.allGood = true ∧
    ({ up with pins := { up.pins with i3cAddr := some 127 } } : State).pins.i3cAddr.isSome = true ∧
    ({ up with pins := { up.pins with railsGood := Tab.put up.pins.railsGood 10 false } } : State).pins.allGood = false := by decide +kernel

/-! ## Engines -/

/-- `run` with a macro-operation of an opcode family that meets nothing in its way. -/
def works (s : State) (kind : MopWord → Bool) : Bool :=
  (s.readyCtx 0 3 kind).any fun c => (s.badWord c).isNone && (c.view 0).isSome && (c.view 2).isSome

theorem test_engine_hyps : [0, 1, 3, 4, 5, 6, 8, 9, 10, 11, 12, 13, 14, 15].all
    (fun f => works (run .off (mop (word f 0))) (fun w => w.family == f)) = true := by decide +kernel
theorem test_auto_hyps : [0, 1, 2].all (fun f => (List.range 8).any fun i => works (run .off (mop (word 2 i))) (isAuto f)) = true ∧
    ((run .off (mop (word 2 0))).readyCtx 0 3 (fun w => w.family == 2)).any (fun c => c.w.chain != 4 && c.chain.isNone) = true := by decide +kernel
/-- The same as the second stage of a chain of kind 4. -/
theorem test_auto_chain_hyps : works (run .off (mop { word 2 1 with chain := 4, cstage := 1 })) (isAuto 1) = true := by decide +kernel
/-- AUTO by an index tensor in HBM, with the poisoned lines `bad`. -/
def autoIx (bad : List Nat) : State :=
  let ix : Desc := { words 0x10000 4 with space := 1, dieMask := 1, stackMask := 1, allocSize := 2 ^ 20, index := true }
  { run .off (mop (word 2 2)) with linePoison := bad, jobs := [{ job0 .off with descs := [words 0 4, ix, words 0x2000 4] }] }

theorem test_auto_index_hyps : [([], none), ([0x10000], some 0x10000)].all (fun p => works (autoIx p.1) (isAuto 2) &&
    ((autoIx p.1).readyCtx 0 3 (isAuto 2)).any (fun c => (c.view 0).any fun a => (c.view 1).any fun ix => (c.view 2).any fun v =>
      (autoIx p.1).badLine ((List.range ix.desc.count).map (fun i => ix.extent (ix.desc.unlinear i))) == p.2 &&
      v.outBatches.any (fun b => ((autoIx p.1).batchOut c v b (fun _ => keepRule 2) noExtra (autoIndexData c a (autoIx p.1) v b)).flags == 0))) = true := by
  decide +kernel
theorem test_pack_hyps : works (run .off (mop (word 18 0))) (fun w => w.family == 18 && w.packSrc == 0) = true ∧
    works (run .off (mop (word 18 1))) (fun w => w.family == 18 && w.packSrc == 1) = true := by decide +kernel
theorem test_mxp_hyps : [0, 1, 2].all (fun m => works (run .off (mop { word 16 m with o3 := ⟨1, 1⟩ }))
    (fun w => w.family == 16 && w.mmode == m)) = true := by decide +kernel
theorem test_wait_hyps : ((run .off { mop (word 0 0) with done := true }).readyCtx 0 3 (fun w => w.family == 0)) = none ∧
    (((run .off (mop (word 0 0))).mapTile 0 (fun u => { u with eccDouble := [8] })).readyCtx 0 3 (fun w => w.family == 0)).any
      (fun c => ((run .off (mop (word 0 0))).mapTile 0 (fun u => { u with eccDouble := [8] })).badWord c == some 8) = true := by decide +kernel
theorem test_uncorrectable_word : goes (exec (.ntt 0 3) ((run .off (mop (word 0 0))).mapTile 0 (fun u => { u with eccDouble := [8] })))
    (fun t => (t.mopOf 0 3).any (fun m => m.stop == some (.scratchWord 8)) && (t.tile 0).marks == [0]) = true := by decide +kernel
theorem test_vprog_hyps : ((run .off (mop (word 14 0))).readyCtx 0 3 (fun w => w.family == 14)).any
    (fun c => (run .off (mop (word 14 0))).vprogTurn c) = true := by decide +kernel
/-- A vector program's context whose registers hold 30 everywhere, with modulus 41 in every row. -/
def vctx : VCtx :=
  { t := 0, seq := 0, start := 0, tile := { Tile.reset with vregs := Tab.build 16 (fun _ => Tab.build 32 (fun _ => Tab.build 128 (fun _ => 30))) },
    older := [], moduli := List.replicate 32 (some 41), round := .nearestEven, seed := 0, free := 0, slots := default, pos := 0, zeros := [] }

/-- Operation VMADD (0x01) of the registers 1 and 2 into 3, and its other operations, in the last row and column. -/
theorem test_vprog_words : vctx.q 31 = some 41 ∧ [1, 4, 5, 8, 10, 11, 14, 15].map (fun o =>
    (((vctx.compute [] 0 (o + 64 * 3 + 2 ^ 10 * 1 + 2 ^ 14 * 2 + 2 ^ 18 * 4 + 2 ^ 24 * 1) 50).1)[31]?).map (fun x => (x.2.1, x.2.2.getD 127 0))) =
      [some (84, 19), some (92, 39), some (93, 28), some (83, 60), some (85, 900), some (83, 30), some (83, 60), some (83, 15)] := by decide +kernel

/-- A batch whose input carries flags: the macro-operation's record is damaged. -/
theorem test_poison_hyps : (run .off (mop (word 10 0))).wcbOk = true ∧ Memory.wf (run .off (mop (word 10 0))).mem = true ∧
    ((run .off (mop (word 10 0))).mopOf 0 3).isSome = true := by decide +kernel
theorem test_auto_numbers : autoCoeff 17 3 [1, 2, 3, 4] = [1, 4, 14, 2] := by decide
theorem test_auto_numbers_hyps : (3 : Nat) % 2 = 1 ∧ ([33, 2, 3, 4] : List Nat).length = 2 ^ 2 ∧ ∀ x ∈ ([33, 2, 3, 4] : List Nat), x < 2 * 17 := by decide
theorem test_extract_hyps : (3 : Nat) < ([5, 6, 7, 33] : List Nat).length ∧ ∀ x ∈ ([5, 6, 7, 33] : List Nat), x < 2 * 17 := by decide
/-- ψ = 2 has ψ^4 = −1 modulo 17; 9 and 13 are the inverses of 2 and 4. -/
theorem test_transform_hyps : 2 ^ 2 ^ 2 % 17 = 17 - 1 ∧ 2 * invMod 2 17 % 17 = 1 ∧ 2 ^ 2 * invMod (2 ^ 2) 17 % 17 = 1 ∧
    ∀ x ∈ ([33, 2, 3, 4] : List Nat), x < 2 * 17 ∧ x < 2 ^ 32 := by decide
theorem test_transform_numbers : inttRow 17 2 2 (nttRow 17 2 2 false [1, 2, 3, 4]) = [1, 2, 3, 4] := by decide
theorem test_rescale_hyps : 41 * invMod (41 % 17) 17 % 17 = 1 ∧ ([17, 41] : List Nat).length = 1 + 1 ∧ ∀ q ∈ ([17, 41] : List Nat), 1 < q := by decide
theorem test_rescale_numbers : dropRound [(41, 200 % 41)] 17 (200 % 17) = 5 := by decide
theorem test_lwe_digit_numbers : lweDigits 17 4 2 5 = [4, 11] := by decide
theorem test_stream_hyps : (3 : Nat) < 4 ∧ (0 : Nat) < 17 ∧ (17 : Nat) ≤ 2 ^ 32 := by decide

/-! ## Groups -/

/-- A group of opcode family `fam` on tiles 0 and 1; all members have `ring` key bytes, `objs` objects and verdict `v`. -/
def group (fam ring objs : Nat) (v : Option Verdict) (started : Bool) : GroupRun :=
  { ring := 0, group := 0, use := 0, opcode := 0x100 + fam, gsLog := 0, sets := 2, tiles := [0, 1],
    members := [0, 1].map fun t => { tile := t, seq := 3, started := started, verdict := v, ring := ring, got := ring, objects := objs, fin := objs }, lines := [] }
def verdict : Verdict := { flags := 2, keytag := 0, keytagOut := 0, baseLog := 4, perSet := false }

/-- Both tiles run the group's macro-operation, with a key image in HBM and a place at Bobbin 0. -/
def grouped (fam imm : Nat) (g : GroupRun) : State :=
  let key : Desc := { words 0 4 with space := 1, base := 0x10000, dieMask := 1, stackMask := 1, allocSize := 2 ^ 20 }
  let s := { run .off (mop (word fam imm)) with jobs := [{ job0 .off with descs := [words 0 4, key, words 0x2000 4] }], groups := [g] }
  (s.mapTile 1 (fun u => { u with window := [mop (word fam imm)] })).mapStack 0 (fun k => { k with bobbinActive := [g.stream] })

/-- Every member may go on: with `ring` key bytes, `objs` objects and a verdict. -/
def allGo (fam imm ring objs : Nat) : Bool :=
  let g := group fam ring objs (some verdict) true
  let s := grouped fam imm g
  s.runOf 0 0 3 == some g && g.allStarted && s.pset 0 == some pset0 && g.tiles.all (fun x =>
    (s.memberCtx g x).any (fun d => s.badWord d == none) && (if fam = 7 then s.kswWaits g pset0 x else s.pbsWaits g pset0 x) == .none)
/-- What tile 0 waits for, where all members have `ring` key bytes, `objs` objects and verdict `v`. -/
def waits (fam imm ring objs : Nat) (v : Option Verdict) : Hold :=
  let g := group fam ring objs v true
  if fam = 7 then (grouped fam imm g).kswWaits g pset0 0 else (grouped fam imm g).pbsWaits g pset0 0

theorem test_ksw_hyps : [1, 2, 3].all (fun k => allGo 7 k 160 0 && waits 7 k 0 0 none == .verdict && waits 7 k 0 0 (some verdict) == .keyRing &&
    ((grouped 7 k (group 7 160 0 (some verdict) true)).readyCtx 0 3 (fun w => w.family == 7 && w.kswKind == k)).any (fun c =>
      (grouped 7 k (group 7 160 0 (some verdict) true)).kswBadHeader c == none)) = true := by decide +kernel
/-- One member has its key words, the other has not: the first waits for it. -/
def uneven (fam ring objs : Nat) : GroupRun :=
  let g := group fam ring objs (some verdict) true
  { g with members := g.members.map fun m => if m.tile = 1 then { m with got := 0, objects := 0 } else m }

theorem test_uneven_hyps : (grouped 7 1 (uneven 7 160 0)).kswWaits (uneven 7 160 0) pset0 0 = .none ∧
    (grouped 7 1 (uneven 7 160 0)).kswWaits (uneven 7 160 0) pset0 1 = .keyRing ∧
    (grouped 17 0 (uneven 17 40 4)).pbsWaits (uneven 17 40 4) pset0 0 = .none ∧
    (grouped 17 0 (uneven 17 40 4)).pbsWaits (uneven 17 40 4) pset0 1 = .object := by decide +kernel
/-- STAGE 2 of a split LWE_KS with a poisoned header. -/
theorem test_split_hyps :
    let g := group 7 0 0 none true
    let s : State := { grouped 7 11 g with linePoison := [0x10000] }
    (s.readyCtx 0 3 (fun w => w.family == 7 && w.kswKind == 3)).any (fun c => s.kswBadHeader c == some 0x10000) = true ∧
      allGo 7 11 0 0 = true := by decide +kernel
theorem test_ksw : goes (exec (.kswRelin 0 3) (grouped 7 1 (group 7 160 0 (some verdict) true))) (fun t =>
    emptyList t.groups && (t.mopOf 0 3).any (·.done) && (t.mopOf 1 3).any (·.done)) = true := by decide +kernel
theorem test_pbs_hyps : allGo 17 0 40 4 = true ∧ waits 17 0 0 0 none = .object ∧ waits 17 0 0 4 none = .verdict ∧
    waits 17 0 0 4 (some verdict) = .keyRing ∧
    ((grouped 17 0 (group 17 40 4 (some verdict) true)).readyCtx 0 3 (fun w => w.family == 17)).any (fun c => (c.view 1).isSome) = true := by
  decide +kernel
/-- A stream that has read nothing yet, and its headers: clean or poisoned. -/
def fed (fam imm : Nat) (bad : List Nat) : State :=
  { grouped fam imm (group fam 0 0 none true) with linePoison := bad }

/-- The macro-operation of tile 0 takes what its key stream brings. -/
def served (s : State) (p : Ctx → Bool) : Bool :=
  (s.ctx 0 3).any fun c => s.tileRuns 0 && c.mop.start.isSome && !c.mop.done && c.mop.stop == none && !s.poisonWaits c && p c

theorem test_verdict_hyps :
    let g := group 7 0 0 none true
    served (fed 7 1 []) (fun c => (c.view 1).any (fun v => v.base == 0x10000)) = true ∧ (fed 7 1 []).streaming g = true ∧
      g.setLeader (g.setOf 0) = 0 ∧ (g.member 0).map (·.verdict) = some none ∧ (g.member 0).map (·.seq) = some 3 ∧
      g.unread 0 [(0x10000, 64)] = [0x10000] ∧ (fed 7 1 []).poisonedLine [0x10000] = none ∧
      (fed 7 1 [0x10000]).poisonedLine [0x10000] = some 0x10000 := by
  decide +kernel
theorem test_pbs_verdict_hyps :
    let g := group 17 0 0 none true
    served (fed 17 0 []) (fun c => c.pbsImage pset0 == 65664) = true ∧ (fed 17 0 []).streaming g = true ∧
      g.unread 0 [(0x10000, 64), (65664, 64)] = [0x10000, 65664] ∧ (fed 17 0 []).poisonedLine [0x10000, 65664] = none ∧
      (fed 17 0 [65664]).poisonedLine [0x10000, 65664] = some 65664 := by
  decide +kernel
/-- Key words and objects that arrive: what is left of the member's words, and a place for the next object. -/
theorem test_arrival_hyps :
    let g := group 7 0 0 none true
    let h := group 17 0 4 none true
    ((fed 7 1 []).ctx 0 3).any (fun c => (fed 7 1 []).streaming g && piecesSize ((fed 7 1 []).kswPieces g c pset0) == 64 &&
      !emptyList (g.unread 0 (storedRanges (slicePieces ((fed 7 1 []).kswPieces g c pset0) 0 64)))) = true ∧
    ((grouped 17 0 h).ctx 0 3).any (fun c => (grouped 17 0 h).streaming h && piecesSize ((grouped 17 0 h).pbsPieces h c pset0) == 40 &&
      decide (0 < c.waves) && decide ((0 + 1) * pset0.lweN ≤ 4)) = true ∧
    ((fed 17 0 []).ctx 0 3).any (fun c => (fed 17 0 []).objectFits (group 17 0 0 none true) c pset0 0) = true := by decide +kernel
theorem test_arrival : goes (exec (.keyRingArrival 0 3 64 5) (fed 7 1 [])) (fun t =>
      t.groups.map (fun g => (g.member 0).map (fun m => (m.got, m.ring))) == [some (64, 64)]) = true ∧
    goes (exec (.pbsObjectArrival 0 3 5) (fed 17 0 [])) (fun t => t.groups.map (fun g => (g.member 0).map (·.objects)) == [some 1]) = true := by
  decide +kernel
theorem test_no_place_hyps : ({ fed 7 1 [] with hbm := up.hbm } : State).streaming (group 7 0 0 none true) = false := by decide +kernel
theorem test_bobbin_hyps : ((up.mapStack 11 (fun k => { k with bobbinWaiting := [⟨0, 0, 0⟩] })).stack 11).bobbinWaiting = [⟨0, 0, 0⟩] ∧
    (up.stack 11).bobbinActive.length < 4 ∧
    4 ≤ ((up.mapStack 11 (fun k => { k with bobbinActive := List.replicate 4 ⟨0, 0, 0⟩ })).stack 11).bobbinActive.length := by decide +kernel
/-- A key header of a KIND with DIGITS and BASELOG, form 1, parameter set 0 and key tag 0, and its seed. -/
def header (kind digits baseLog : Nat) : KeyHeader :=
  let seed : List Byte := List.replicate 32 0
  KeyHeader.parse (withCrc (leBytes 2 0xC7F3 ++ [BitVec.ofNat 8 kind, 1] ++ leBytes 4 0 ++ leBytes 4 0xFFFFFFFF ++
    [0, 0xFF, BitVec.ofNat 8 digits, BitVec.ofNat 8 baseLog] ++ leBytes 4 0 ++ leBytes 4 0 ++ leBytes 4 (crc32c seed))) seed

theorem test_header_hyps : (header 1 2 0).sound = true ∧ (header 3 2 4).sound = true ∧
    kswVerdict (header 1 2 0) (word 7 1) (keyfeedForm .seeded) 0 pset0 = { verdict with flags := 0, baseLog := 0 } ∧
    kswVerdict (header 3 2 4) (word 7 3) (keyfeedForm .seeded) 0 pset0 = { verdict with flags := 0 } ∧
    (kswVerdict (header 3 2 17) (word 7 3) (keyfeedForm .seeded) 0 pset0).flags = 2 := by decide +kernel
theorem test_header_damaged : (KeyHeader.parse (List.replicate 32 0) (List.replicate 32 0)).sound = false := by decide +kernel


/-! ## Data movement -/

/-- A descriptor of `n` words in HBM. -/
def hbmWords (base n : Nat) : Desc := { words 0 n with space := 1, base := base, dieMask := 1, stackMask := 1, allocSize := 2 ^ 20 }
/-- Tile 0 runs a move of family `fam` between the operands 0 and 2, which are the first and last of `ds`; operand 1 is there where `ix`. -/
def move (fam : Nat) (ix : Bool) (ds : List Desc) : State :=
  { run .off (mop { word fam 0 with o1 := if ix then ⟨1, 0⟩ else ⟨0xFFF, 0⟩ }) with jobs := [{ job0 .off with descs := ds }] }
/-- What the statement asks of a move that meets nothing in its way. -/
def moves (s : State) (fam : Nat) : Bool :=
  (s.readyCtx 0 3 (fun w => w.family == fam)).any fun c => s.dmaReady c && s.badWord c == none && decide (c.plainMarks = 0) &&
    (c.view 0).any (fun src => (c.view 2).any fun dst =>
      let reads := c.indexExtents ++ ((s.moves c).filter (fun m => flagsAt dst.desc (s.copyOuts c src dst) m.1 == 0)).filterMap (fun m => m.2.map src.extent)
      !src.desc.recorded && !dst.desc.recorded && s.badLine reads == none && s.badRemote 0 reads == none && dst.buf.isNone &&
        !emptyList (s.moves c) && decide ((s.moves c).map (·.1)).Nodup && noRepeats ((s.moves c).map (fun m => (dst.extent m.1).1)) &&
        (s.moves c).all (fun m => decide ((dst.extent m.1).2 = 4) &&
          (match home (dst.extent m.1).1 with | .scratch x _ => x == 0 | .hbm _ _ => true | _ => false)))

def load0 : State := move 19 false [hbmWords 0x10000 4, words 0x1000 4, words 0x2000 4]
def gather0 (fam : Nat) : State :=
  (move fam true [words 0 4, { words 0x1000 4 with index := true }, words 0x2000 4]).store (scratchAddr 0 0x1000)
    (leBytes 4 3 ++ leBytes 4 9 ++ leBytes 4 0 ++ leBytes 4 1)

theorem test_move_hyps : moves load0 19 = true ∧ moves (move 20 false [words 0 4, words 0x1000 4, hbmWords 0x10000 4]) 20 = true ∧
    moves (gather0 21) 21 = true ∧ moves (gather0 22) 22 = true ∧ (gather0 22).wcbOk = true ∧ Memory.wf (gather0 22).mem = true := by decide +kernel
/-- A LOAD from the scratchpad of tile 1, whose first granule is marked, without and with records. -/
def farLoad (rec0 : Bool) : State :=
  (move 19 false [{ hbmWords (scratchAddr 1 0) 4 with space := 2, recorded := rec0 }, words 0x1000 4, words 0x2000 4]).mapTile 1 (fun u => { u with marks := [0] })
theorem test_move_stop_hyps :
    ((farLoad false).readyCtx 0 3 (fun w => w.family == 19)).any (fun c => (farLoad false).dmaReady c && (farLoad false).badWord c == none &&
      (c.view 0).any (fun v => ((farLoad false).badRemote 0 [v.extent [3]]).isSome)) = true ∧
    ((farLoad true).readyCtx 0 3 (fun w => w.family == 19)).any (fun c => (farLoad true).dmaReady c && (farLoad true).badWord c == none &&
      (c.view 0).any (fun v => v.desc.recorded && ((farLoad true).badRemote 0 [(v.recordRead 0, 64)]).isSome)) = true ∧
    (((move 20 false [words 0 4, words 0x1000 4, hbmWords 0x10000 4]).mapTile 0 (fun u => { u with eccDouble := [8] })).readyCtx 0 3 (fun w => w.family == 20)).any
      (fun c => ((move 20 false [words 0 4, words 0x1000 4, hbmWords 0x10000 4]).mapTile 0 (fun u => { u with eccDouble := [8] })).badWord c == some 8) = true := by decide +kernel
theorem test_move_poison_hyps : (({ load0 with linePoison := [0x10000] } : State).readyCtx 0 3 (fun w => w.family == 19)).any
    (fun c => (c.view 0).any (fun v => (({ load0 with linePoison := [0x10000] } : State).badLine [v.extent [3]]) == some 0x10000)) = true := by decide +kernel
/-- An index of 9, at or beyond the source's four words, gathers 0. -/
theorem test_gather : goes (exec (.gather 0 3) ((gather0 21).store (scratchAddr 0 0) (leBytes 4 11 ++ leBytes 4 12 ++ leBytes 4 13 ++ leBytes 4 14)))
    (fun t => t.readRaw (scratchAddr 0 0x2000) 16 == leBytes 4 14 ++ leBytes 4 0 ++ leBytes 4 11 ++ leBytes 4 12) = true := by decide +kernel

/-- A LOAD from host memory whose stream queue is in state `st`. -/
def streams (st : StreamState) : State :=
  (move 19 false [{ hbmWords (2 ^ 63) 64 with space := 2 }, words 0x1000 4, words 0x2000 64]).mapTile 0 fun u =>
    { u with streams := u.streams.map (fun (q : StreamQueue) => { q with state := st, seq := 3, limit := 16 }) }

theorem test_translation_hyps : ((streams .running).streamCtx 0 0).any (fun c => ((streams .running).hostRequests c).length == 4 &&
    !(streams .running).dmaReady c) = true ∧ (((streams .running).tile 0).stream 0).translated = 0 ∧
    (streams .running).serves .mainband = true ∧ (((streams .halted).tile 0).stream 0).state = .halted ∧
    ((streams .running).selects .mainband).tile = 0 := by decide +kernel
theorem test_translation : goes (exec (.translationComplete 0 0 false) (streams .running))
    (fun t => ((t.tile 0).stream 0).state == .halted && t.pageRequests == [(0, 0, 2 ^ 63)]) = true := by decide +kernel

/-! ## Queues, windows and barriers -/

/-- Tile 0 sends to queue 0 of tile 1 and has come to `st`; the queue is open where `o`. -/
def sending (st : SendState) (o : Bool) : State :=
  (run .off { mop (word 23 8) with send := st }).mapTile 1
    (fun u => { u with queues := u.queues.map (fun (q : ShuttleQueue) => { q with isOpen := o }) })
def fullQueue : State := (sending .idle true).mapTile 1 fun u => { u with queues := u.queues.map (fun (q : ShuttleQueue) =>
  { q with slots := (List.range 32).map (fun i => { queue := 0, sender := 0, epoch := 0, length := 0, src := 0, recAddr := 1, seq := 100 + i }) }) }

theorem test_send_hyps : ((sending .idle true).readyCtx 0 3 isSend).any (fun c => (sending .idle true).slotFree c && c.w.peer == 1 && c.w.queue == 0) = true ∧
    (fullQueue.readyCtx 0 3 isSend).any (fun c => !fullQueue.slotFree c && c.mop.send == .idle) = true ∧
    ((sending .waitSlot true).readyCtx 0 3 isSend).any (fun c => (sending .waitSlot true).slotFree c && c.mop.send == .waitSlot) = true ∧
    ((fullQueue.mapMop 0 3 (fun m => { m with send := .waitSlot })).readyCtx 0 3 isSend).any (fun c => !fullQueue.slotFree c) = true := by decide +kernel
theorem test_arrive_hyps : ((sending .inFlight true).readyCtx 0 3 isSend).any (fun c => c.mop.send == .inFlight && c.descriptor.epoch == 0) = true ∧
    (((sending .inFlight true).tile 1).queue 0).isOpen = true ∧ (((sending .inFlight true).tile 1).queue 0).epoch = 0 ∧
    (((sending .inFlight false).tile 1).queue 0).isOpen = false := by decide +kernel
theorem test_arrive : goes (exec (.shuttleDescriptorArrive 0 3 false) (sending .inFlight true)) (fun t => ((t.tile 1).queue 0).slots.length == 1) = true ∧
    goes (exec (.shuttleDescriptorArrive 0 3 false) (sending .inFlight false)) (fun t => (t.mopOf 0 3).any (fun m => m.send == .closedDue)) = true := by
  decide +kernel
theorem test_resend_hyps : ((run .off { mop (word 23 8) with send := .inFlight, resends := 3 }).readyCtx 0 3 isSend).any (fun c => decide (3 ≤ c.mop.resends)) = true := by
  decide +kernel
theorem test_resend : goes (exec (.shuttleDescriptorArrive 0 3 true) (sending .inFlight true)) (fun t => (t.mopOf 0 3).any (fun m => m.resends == 1 && m.stop == none)) = true ∧
    goes (exec (.shuttleDescriptorArrive 0 3 true) (run .off { mop (word 23 8) with send := .inFlight, resends := 3 })) (fun t =>
      (t.mopOf 0 3).any (fun m => m.stop == some .transit)) = true := by decide +kernel
theorem test_answer_hyps : [SendState.ackDue, .closedDue, .staleDue 1 2].all (fun st => ((sending st true).ctx 0 3).any (fun c =>
    isSend c.w && emptyList c.mop.events && c.job.mode.guard == .off) && (sending st true).tileRuns 0) = true := by decide +kernel

/-- A descriptor of 16 bytes from tile 1, epoch 0. -/
def sent : ShuttleDesc := { queue := 0, sender := 1, epoch := 0, length := 16, src := scratchAddr 1 0x40, recAddr := 1, seq := 3 }
/-- Tile 0 receives from queue 0 of epoch `e`, which holds `l`. -/
def receiving (m : Mop) (e : Nat) (l : List ShuttleDesc) : State :=
  ((run .off m).mapTile 0 fun u => { u with cycle := 20, queues := u.queues.map (fun (q : ShuttleQueue) => { q with isOpen := true, epoch := e, slots := l }) }).mapTile 1
    fun u => { u with window := [{ mop (word 23 0) with send := .accepted }] }

theorem test_receive_hyps : [(0, []), (0, [sent]), (2, [sent])].all (fun p => ((receiving (mop (word 24 0)) p.1 p.2).readyCtx 0 3 isRecv).any
      (fun c => c.mop.taken.isNone && c.w.queue == 0)) = true ∧
    ((receiving (mop (word 24 0)) 2 [sent]).tile 0).headOf 0 = some sent ∧ ((receiving (mop (word 24 0)) 2 []).tile 0).headOf 0 = none ∧
    ((receiving (mop (word 24 0)) 2 [sent]).mopOf 1 3).any (fun m => m.word.family == 23) = true ∧
    ((receiving { mop (word 24 0) with taken := some (10, sent) } 0 [sent]).readyCtx 0 3 isRecv).any (fun c => (c.view 2).any (fun v =>
      !v.desc.recorded && v.dataRange == (scratchAddr 0 0x2000, scratchAddr 0 0x2010) && v.dataRange.2 - v.dataRange.1 == 16 &&
      !(receiving { mop (word 24 0) with taken := some (10, sent) } 0 [sent]).payloadBad sent.src 16)) = true := by decide +kernel
/-- The same where the granule of the head slot is marked. -/
def badHead : State := (receiving (mop (word 24 0)) 2 [sent]).mapTile 0 fun u => { u with marks := [controlPage / 4096] }
theorem test_bad_head_hyps : badHead.remoteBad 0 ((badHead.tile 0).headSlot 0) 32 = true ∧
    (receiving (mop (word 24 0)) 2 [sent]).remoteBad 0 (((receiving (mop (word 24 0)) 2 [sent]).tile 0).headSlot 0) 32 = false ∧
    ((receiving { mop (word 24 0) with taken := some (10, sent), badHead := true } 0 [sent]).readyCtx 0 3 isRecv).any (fun c => c.mop.badHead) = true ∧
    ((receiving { mop (word 24 0) with taken := some (10, sent) } 0 [sent]).mapTile 1 (fun u => { u with marks := [0] })).payloadBad sent.src 16 = true := by
  decide +kernel
theorem test_bad_head : goes (exec (.recvPoll 0 3) badHead) (fun t => (t.mopOf 0 3).any (fun m => m.taken.isSome && m.badHead)) = true := by decide +kernel
theorem test_receive : goes (exec (.recvPoll 0 3) (receiving (mop (word 24 0)) 0 [sent])) (fun t => (t.mopOf 0 3).any (fun m => m.taken.isSome)) = true ∧
    goes (exec (.recvPoll 0 3) (receiving (mop (word 24 0)) 2 [sent])) (fun t => (t.mopOf 1 3).any (fun m => m.send == .staleDue 0 2)) = true := by
  decide +kernel
theorem test_shq_hyps : up.serves .mainband = true ∧ (up.selects .mainband).tile = 0 ∧ (far.selects .mainband).tile = 207 ∧ (far.selects .mainband).queue = 7 := by
  decide +kernel

theorem test_win_hyps : ((run .off (mop (word 25 7))).readyCtx 0 3 (fun w => w.family == 25)).any
    (fun c => (c.view 0).isSome && (c.view 1).isSome && c.w.immBits 2 0 == 7) = true ∧ 0x5FFFFF + ([1] : List Byte).length ≤ 0x600000 ∧
    0x600000 < 0x5FFFFF + ([1, 2] : List Byte).length := by decide +kernel
theorem test_win_stop_hyps :
    let s : State := { run .off (mop (word 25 7)) with linePoison := [0x10000], jobs := [{ job0 .off with descs := [words 0 4, hbmWords 0x10000 8, words 0x2000 4] }] }
    (s.readyCtx 0 3 (fun w => w.family == 25)).any (fun c => s.badWord c == none && (c.view 1).any (fun m => s.winStop c m.base == some (.memLine 0x10000))) = true ∧
    (((run .off (mop (word 25 7))).mapTile 0 (fun u => { u with eccDouble := [0x1000] })).readyCtx 0 3 (fun w => w.family == 25)).any (fun c =>
      ((run .off (mop (word 25 7))).mapTile 0 (fun u => { u with eccDouble := [0x1000] })).badWord c == some 0x1000) = true ∧
    ((run .off (mop (word 25 7))).readyCtx 0 3 (fun w => w.family == 25)).any (fun c => (run .off (mop (word 25 7))).badWord c == none &&
      (c.view 1).any (fun m => (run .off (mop (word 25 7))).winStop c m.base == none)) = true := by decide +kernel
/-- Tile 1 may write the first 64 bytes of tile 0. -/
theorem test_window : goes (exec (.win 0 3) ((run .off (mop (word 25 7))).store (scratchAddr 0 0x1000) [2])) (fun t =>
    goes (exec (.remoteWrite 1 0 63 [5, 6]) t) (fun u => u.readRaw (scratchAddr 0 63) 2 == [5, 0] && (t.tile 0).windows == (u.tile 0).windows) &&
    goes (exec (.remoteWrite 2 0 63 [5]) t) (fun u => u.readRaw (scratchAddr 0 63) 1 == [0])) = true := by decide +kernel

/-- Tile 0 stands at a barrier of `ms`, of whom `as` have arrived. -/
def barred (g : Guard) (ms as : List Nat) : State :=
  { run g (mop (word 26 0)) with jobs := [{ job0 g with barriers := [{ members := ms, arrived := as, uses := 7 }] }] }

theorem test_barrier_hyps : ((barred .off [0, 1] [1]).readyCtx 0 3 isBar).any (fun c => c.w.barrier == 0) = true ∧
    [(Guard.off, [0, 1]), (.mirror, [0]), (.mirror, [0, 1])].map (fun p => ((barred p.1 p.2 p.2).job 0).map (fun j =>
      j.deviceWide { members := p.2, arrived := p.2, uses := 7 })) = [some true, some false, some true] ∧
    ((barred .off [0] [0]).job 0).map (fun j => (j.deviceWide { members := [0], arrived := [0], uses := 7 }, j.ending.isNone, j.recovery.isNone)) =
      some (false, true, true) := by decide +kernel
theorem test_barrier : goes (exec (.barrierResolve ⟨0, []⟩ 0) (barred .off [0] [0])) (fun t => (t.mopOf 0 3).any (·.done)) = true ∧
    goes (exec (.barrierResolve ⟨0, []⟩ 0) (barred .mirror [0, 1] [0, 1])) (fun t => (t.job 0).any (·.committing)) = true := by decide +kernel
theorem test_stall_hyps : ((barred .off [0, 1] [0]).ctx 0 3).any (fun c => c.stallable && !c.mop.stalled) = true ∧ up.wdog ≠ 0 ∧
    (barred .off [0, 1] [0]).tileRuns 0 = true ∧ ((run .off (mop (word 0 0))).ctx 0 3).any (fun c => !c.stallable) = true := by decide +kernel

/-! ## Failures and commits -/

/-- A job under `g`, with two spares on die 0. -/
def spared (g : Guard) : State := { run g (mop (word 26 0)) with spares := Tab.put up.spares 0 [60, 61] }

theorem test_failure_hyps : (spared .off).runningJob 5 = none ∧ Tab.at (spared .off).spares [] (dieOfTile 5) = [60, 61] ∧
    Tab.at (spared .off).spares [] (dieOfTile 60) = [] ∧ ((spared .off).runningJob 0).isSome = true ∧
    ((spared .mirror).runningJob 0).any (fun j => j.shards.all (fun g => g.current == none)) = true := by decide +kernel
theorem test_failure : goes (exec (.tilePollTimeout 5) (spared .off)) (fun t => (t.tile 5).site == 60 && Tab.at t.spares [] 0 == [61]) = true ∧
    goes (exec (.tilePollTimeout 0) (spared .mirror)) (fun t => (t.tile 0).failed &&
      (t.runningJob 0).any (fun j => j.recovery.any (fun r => r.takeovers == [0])) &&
      goes (exec (.spareTakeover 0) t) (fun v => !(v.tile 0).failed &&
        (v.job 0).any (fun j => j.recovery.isSome && j.recovery.all (fun r => r.takeovers.all (fun x => !(v.tile x).failed))))) = true := by decide +kernel
/-- A saved state of tile 0 that stood before word 2. -/
def saved0 : Saved :=
  { tiles := [⟨0, 2, 0, 0, List.replicate 8 0, List.replicate 8 255, List.replicate 8 StreamQueue.reset⟩], scheds := [],
    cvus := (List.range 8).map (fun _ => (0, 0, false, 0)) }
def committing0 (g : Guard) : State := { run g (mop (word 26 0)) with jobs := [{ job0 g with committing := true, taking := some saved0, resolving := some 0 }] }
def restoring : State := { run .mirror (mop (word 26 0)) with
  jobs := [{ job0 .mirror with saved := some saved0, recovery := some { takeovers := [], arg := 0, site := 0, since := 0, named := [] } }] }
theorem test_commit_hyps : ((committing0 .mirror).job 0).any (·.committing) = true ∧ (restoring.job 0).any (fun j => j.recovery.any (fun r => emptyList r.takeovers)) = true ∧
    (saved0.tiles.map (·.tile)).Nodup ∧ ((run .mirror (mop (word 26 0))).job 0).any (fun j => !j.committing && j.recovery.isNone) = true := by decide +kernel
/-- A module whose checks are WORD_PAIR, and a recovery with a poison request of one of its tiles outstanding. -/
theorem test_pair_hyps : (({ committing0 .mirror with jobs := [{ job0 .mirror with mode := { Mode.reset with guard := .mirror, check := .wordPair }, committing := true, taking := some saved0 }] } : State).job 0).any
      (fun j => j.committing && j.mode.check != .word) = true ∧
    ({ restoring with poisonRequests := [{ tile := 1, lines := [0x10000] }] } : State).poisonDue (job0 .mirror) = true ∧ restoring.poisonDue (job0 .mirror) = false := by
  decide +kernel
/-- A shard of 16 bytes with its two copies under VERIFY. -/
def shard0 : GuardShard :=
  { entry := 0, tile := none, base := 0x10000, size := 16, mirror := true, slot0 := 0x20000, slot1 := 0x30000, recOff := 0, recCount := 0, current := some false, gen0 := 0, gen1 := 0 }
def verifying : State := { (committing0 .mirrorVerify).store 0x10000 [7] with
  jobs := [{ job0 .mirrorVerify with committing := true, taking := some saved0, resolving := some 0, shards := [shard0] }] }
theorem test_verify_hyps : (verifying.job 0).any (fun j => verifying.mismatches j == [(0, shard0)] && j.committing && j.mode.guard == .mirrorVerify) = true ∧
    ((committing0 .mirrorVerify).job 0).any (fun j => emptyList ((committing0 .mirrorVerify).mismatches j)) = true := by decide +kernel
theorem test_verify : goes (exec (.commitFinish ⟨0, 0, .clean⟩) verifying) (fun t => (t.job 0).any (fun j => j.recovery.isSome && j.generation == 0)) = true := by decide +kernel
theorem test_commit : goes (exec (.commitFinish ⟨0, 0, .clean⟩) (committing0 .mirror)) (fun t => (t.job 0).any (fun j => !j.committing && j.saved == some saved0 && j.generation == 1)) = true ∧
    goes (exec (.restoreDone ⟨0, 0, .clean⟩) restoring) (fun t => (t.tile 0).next == 2 && (t.job 0).any (fun j => j.recovery.isNone && j.recoveries == 1)) = true := by
  decide +kernel

/-! ## Check units -/

/-- A CHK of ACTION `a` on blocks of bytes. -/
def checking (a m n : Nat) : State :=
  { run .off (mop { word 27 (8 * a) with o1 := ⟨0xFFF, 0⟩ }) with
    jobs := [{ job0 .off with descs := [{ words 0 m with allocSize := 9000 }, words 0x2000 4, { words 0x2000 n with allocSize := 9000 }] }] }

theorem test_chk_hyps : [(0, 1024, 1024), (1, 1024, 1040), (2, 1040, 1024)].all (fun p =>
    works (checking p.1 p.2.1 p.2.2) (fun w => w.family == 27 && w.chkAction == p.1) &&
    ((checking p.1 p.2.1 p.2.2).ctx 0 3).any (fun c => decide (c.plainMarks = 0) && (c.view 0).any (fun v => (c.view 2).any (fun d =>
      (checking p.1 p.2.1 p.2.2).badLine [(c.w.chkSpans v d).1] == none && (checking p.1 p.2.1 p.2.2).badRemote 0 [(c.w.chkSpans v d).1] == none)))) = true := by
  decide +kernel
/-- The same from memory, where a line read is poisoned. -/
theorem test_chk_poison_hyps :
    let s := { checking 0 1024 1024 with linePoison := [0x10040], jobs := [{ job0 .off with descs := [{ hbmWords 0x10000 1024 with allocSize := 9000 }, words 0x2000 4, words 0x2000 1024] }] }
    (s.ctx 0 3).any (fun c => (c.view 0).any (fun v => (c.view 2).any (fun d => s.badLine [(c.w.chkSpans v d).1] == some 0x10040))) = true := by decide +kernel
/-- The same where the source's granule is marked, and from another tile's marked scratchpad. -/
theorem test_chk_stop_hyps :
    let s := { checking 0 1024 1024 with jobs := [{ job0 .off with descs := [{ hbmWords (scratchAddr 1 0) 1024 with space := 2, allocSize := 9000 }, words 0x2000 4, words 0x2000 1024] }] }.mapTile 1
      (fun u => { u with marks := [0] })
    let m := run .off (mop { word 27 0 with o1 := ⟨0xFFF, 0⟩ })
    (s.ctx 0 3).any (fun c => c.plainMarks == 0 && (c.view 0).any (fun v => (c.view 2).any (fun d => s.badLine [(c.w.chkSpans v d).1] == none &&
      (s.badRemote 0 [(c.w.chkSpans v d).1]).isSome))) = true ∧
    ((m.mapMop 0 3 (fun x => { x with marked := [0] })).ctx 0 3).any (fun c => c.plainMarks != 0) = true := by decide +kernel
theorem test_cvu_hyps : (List.replicate 4096 0 : List Byte).length = 4096 ∧ 1 ≤ Cvu.reset.width ∧ Cvu.reset.width ≤ 64 ∧ Cvu.reset.stream < 2 ^ 16 ∧
    Cvu.reset.broken = false ∧ Cvu.reset.tx < lastCounter ∧ ({ Cvu.reset with rx := 1 } : Cvu).tx < 1 ∧ lastCounter ≤ ({ Cvu.reset with tx := lastCounter } : Cvu).tx ∧
    up.jobs = [] ∧ (run .off (mop (word 28 0))).jobs ≠ [] ∧ up.serves .sideband = true := by decide +kernel
theorem test_cvu_fault_hyps : ({ Cvu.reset with stream := 1 } : Cvu).fault [] ≠ 0 := by
  unfold Cvu.fault; split <;> simp [fld, leNat]

/-! ## The Bodkin -/

/-- The result, status and duration of the command that `o` leaves on the Bodkin. -/
def starts (o : Out) (result : List Nat) (st : BodkinStatus) (cycles : Nat) : Bool :=
  goes o (fun t => t.bodkin.op.any fun p => p.result == result && p.status == st && p.cycles == cycles)

theorem test_bodkin_free : up.bodkinFree := ⟨rfl, by decide +kernel⟩
/-- 100 + 200, 100 · 200 and 100^3 modulo 17 and 100^15, its inverse; ℓ = 1. -/
theorem test_modular : starts (exec (.modadd 8 100 200 17) up) [11] .ok 25 && starts (exec (.modmul 8 100 200 17) up) [8] .ok 33 &&
    starts (exec (.modsub 8 100 200 17) up) [2] .ok 25 && starts (exec (.modexp 8 2 100 3 17) up) [9] .ok 98 &&
    starts (exec (.modinvP 8 100 17) up) [8] .ok 254 && starts (exec (.modinvP 8 17 17) up) [0] .noInverse 254 &&
    starts (exec (.modadd 8 1 2 16) up) [0] .badOperand 25 && starts (exec (.modadd 4097 1 2 17) up) [] .badOperand 20 &&
    starts (exec (.modexp 4096 0 1 2 17) up) [] .badOperand 20 = true := by decide +kernel
/-- Worked example: MODEXP with E_BITS = 17 at 4,096 bits takes 152,444 cycles. -/
theorem test_modexp_time : starts (exec (.modexp 4096 17 1 1 3) up) [1] .ok 152444 = true := by decide +kernel
/-- y² = x³ + x + 1 modulo 23, with the generator (17, 3) of order 7. -/
def small : Curve := { p := 23, a := 1, b := 1, gx := 17, gy := 3, n := 7 }
def curved : State := { up with bodkin := { up.bodkin with curves := Tab.put up.bodkin.curves 0 (some small) } }

theorem test_curve_hyps : curved.curve 1 = some small ∧ curved.curve 2 = none ∧ small.off (some (9, 7)) = false ∧ small.off (some (1, 1)) = true ∧
    curved.bodkin.op = none ∧ small.mul 7 (some (17, 3)) = none ∧ (small.sign 5 3 2).isSome = true ∧ (small.sign 5 3 0).isNone = true := by decide +kernel
/-- Doubling (3, 10) gives (7, 12), and (3, 10) + (7, 12) = (19, 5). -/
theorem test_curve : small.mul 2 (some (3, 10)) = some (7, 12) ∧ small.add (some (3, 10)) (some (7, 12)) = some (19, 5) ∧
    small.mul 3 (some (3, 10)) = some (19, 5) := by decide +kernel
theorem test_p384_checks : p384.on p384.gx p384.gy = true ∧ bitLength p384.p = 384 := by decide +kernel
theorem test_curve_load_hyps : ({ small with p := 24 } : Curve).loadCode ≠ 0 ∧ starts (exec (.curveLoad 0 23 1 1 3 10 7) up) [] .badOperand 20 = true := by decide +kernel
theorem test_bodkin_done : goes (exec (.modadd 8 100 200 17) up) (fun t => goes (exec .bodkinDone t) (fun v => v.bodkin.op.isNone && v.bodkin.result == [11])) = true := by
  decide +kernel

/-! ## The sequencer -/

/-- Tile 0 at the start of a program of one NOP, whose segment is usable from cycle `u` on or still being fetched. -/
def program (u : Option Nat) (w : MopWord) : State :=
  { run .off (mop w) with jobs := [{ job0 .off with tiles := [⟨0, 0x1000, 1, 0x800⟩] }] }.mapTile 0 fun x =>
    { x with entry := some ⟨0, 0x1000, 1, 0x800⟩, window := [], next := 0, cycle := 50,
             store := [{ index := 0, words := if u.isSome then [w] else [], usable := u, fetches := 0 }] }

theorem test_segment : goes (exec (.segmentFetchDone 0 100) ((program none (word 28 0)).store 0x800 (leBytes 4 (crc32c (List.replicate 32 0)))))
      (fun t => (t.tile 0).store.map (fun g => (g.usable, g.words.length)) == [(some 150, 1)]) = true ∧
    goes (exec (.segmentFetchDone 0 100) (program none (word 28 0))) (fun t => (t.tile 0).store.map (·.fetches) == [1] && !emptyList t.jobs &&
      goes (exec (.segmentFetchDone 0 100) t) (fun v => emptyList v.jobs || v.jobs.all (·.ending.isSome))) = true := by decide +kernel
theorem test_sequencer_hyps : ((program (some 60) (word 28 0)).activeJob 0).any (fun j =>
      (program (some 60) (word 28 0)).refusal j 0 0 [word 28 0] == none && !j.committing && emptyList j.heldErrs) = true ∧
    ((program (some 60) (word 10 0)).activeJob 0).any (fun j => ((program (some 60) (word 10 0)).refusal j 0 0 [word 10 0]).isSome) = true := by decide +kernel
theorem test_sequencer : goes (exec (.macroOffer 0) (program (some 60) (word 28 0))) (fun t => (t.tile 0).offer.map (·.cycle) == some 61 &&
    (t.offered 0).length == 1 && (t.tile 0).staticBlock (t.offered 0) == none && !(t.tile 0).chainBlock (t.offered 0) && (t.tile 0).engineCycle (t.offered 0) != none &&
    goes (exec (.macroAdmit 0) t) (fun v => (v.tile 0).window.map (·.seq) == [0] && (v.tile 0).lastAdmit == some 61)) = true := by decide +kernel

/-! ## Starts, held cycles and ends -/

theorem test_start_hyps : (group 7 0 0 none false).complete = true ∧ ((group 7 0 0 none false).member 0).any (·.started) = false ∧
    ((group 7 0 0 none true).member 0).any (·.started) = true ∧ ((grouped 7 1 (group 7 0 0 none false)).runOf 0 0 3).isSome = true := by decide +kernel
/-- On the leader's die tile 1 is the last to admit and tile 0 is not; tile 60 lies on another. -/
theorem test_signal_hyps : ((group 7 0 0 none false).members.getLast?).any (fun m => m.tile == 1) = true ∧
    ((group 7 0 0 none false).members.getLast?).any (fun m => m.tile == 0) = false ∧ dieHops (dieOfTile 0) (dieOfTile 1) = 0 ∧
    dieHops (dieOfTile 0) (dieOfTile 60) = 1 := by decide +kernel
theorem test_packet_hyps : ((run .off (mop (word 0 0))).ctx 0 3).any (fun c => (run .off (mop (word 0 0))).onPath c .ground &&
    !(run .off (mop (word 0 0))).onPath c (.bridge 0)) = true ∧ load0.serves .mainband = true ∧
    (load0.ctx 0 3).any (fun c => decide ((load0.issueOf c).waited = 0) && c.w.isDma) = true := by decide +kernel
theorem test_packet : goes (exec (.packetReceive .ground 0 3 (.uncorrectable 2)) (run .off (mop (word 0 0)))) (fun t =>
      t.errs.queue.map (fun x => x.err.code) == [0x21]) = true ∧
    goes (exec (.packetReceive .ground 0 3 (.uncorrectable 4)) (run .off (mop (word 0 0)))) (fun t => (t.mopOf 0 3).any (fun m => m.stop == some .transit)) = true := by
  decide +kernel
theorem test_retire_hyps : ((run .off { mop (word 0 0) with done := true }).ctx 0 3).any (fun c => c.mop.done && c.mop.stop == none && !isSend c.w) = true ∧
    ((run .off { mop (word 0 0) with stop := some .transit }).ctx 0 3).any (fun c => c.mop.stop == some .transit && c.job.ending.isNone && c.chain.isNone) = true ∧
    ((run .off (mop (word 0 0))).ctx 0 3).any (fun c => (run .off (mop (word 0 0))).meets c (.scratchWord 4)) = true ∧
    (run .off (mop (word 28 0))).tileRuns 0 = true ∧ ((run .off (mop (word 28 0))).readyCtx 0 3 (fun w => w.family == 28)).isSome = true := by decide +kernel
/-- Started in cycle 1, with a latency of 20 and 3 held cycles: the last cycle is 24. -/
theorem test_retire : goes (exec (.macroRetire 0 3 ⟨0, 0⟩) (run .off { mop (word 0 0) with done := true, held := 3, latency := 20 }))
    (fun t => (t.mopOf 0 3).isNone && (t.tile 0).cycle == 24) = true := by decide +kernel
theorem test_abort : goes (exec (.macroAbort 0 3 .remote) (run .off { mop (word 0 0) with stop := some .transit })) (fun t =>
      t.errs.queue.map (·.err) == [Err.ofJob .deferred 0x0A 1 0 (job0 .off) 3 0 2]) = true ∧
    goes (exec (.macroAbort 0 3 .remote) (run .mirror { mop (word 0 0) with stop := some (.memLine 64) })) (fun t => (t.job 0).any (·.recovery.isSome)) = true := by
  decide +kernel
/-- Tile 0 runs stage 1 of a chain whose intermediates pass through rings. -/
def chained : State := (run .off (mop { word 2 1 with chain := 4, cstage := 1 })).mapTile 0 fun u => { u with
  chains := [{ head := 2, kind := 4, stages := 2, hold := 0, base := 0, size := 0, inters := [⟨words 0 4, 1, true⟩, ⟨words 0 4, 1, true⟩], units := [], buffers := [] }] }

theorem test_chain_hyps : (chained.ctx 0 3).any (fun c => c.chain.any (fun ch => decide (c.w.cstage < ch.stages) && ch.fills 1)) = true ∧
    ((run .off (mop (word 0 0))).ctx 0 3).any (fun c => c.mop.start.isSome && !c.mop.done) = true := by decide +kernel
theorem test_chain : goes (exec (.chainStageResume 0 3 5 true) chained) (fun t => (t.mopOf 0 3).any (fun m => m.held == 5)) = true := by decide +kernel

/-! ## Rails, the service pool and tokens -/

/-- `s` with a rail down, and with the service pool's slot spent. -/
def railless (s : State) : State := { s with pins := { s.pins with railsGood := Tab.put s.pins.railsGood 10 false } }
def spent (s : State) : State := { s with power := { s.power with fixed := 250, serviceDemand := 12500000 } }

theorem test_pool_hyps : up.poolOpen = true ∧ up.pins.allGood = true ∧ (spent up).poolOpen = false ∧ (railless up).pins.allGood = false ∧
    (up.reaches .mainband 0x010300 && far.reaches .mainband 0x020030 && up.reaches .sideband (haltAddr .sideband)) = true := by decide +kernel
theorem test_waits_for_pool : goes (exec (.hostMemRead 0 64) (spent window)) (fun t => t.resp == window.resp) = true ∧
    goes (exec (.patrolScrub (.stack 11) .clean) (spent up)) (fun t => (t.stack 11).scrubNext == 0) = true := by decide +kernel
theorem test_go_hyps : up.serves .mainband = true ∧ bit 0x104 8 = true ∧ 0x104 % 256 = 4 ∧ bit 0x101 8 = true ∧ 0x101 % 256 = 1 ∧
    mailboxLen (0x106 % 256) = none ∧ ¬ (bit 0x004 8 = true ∧ 0x004 % 256 = 4) := by decide +kernel
theorem test_cvu_words_hyps : inCvu 0x0701E0 = true ∧ inCvu 0x010100 = false ∧ up.jobs = [] ∧
    ((run .off (mop (word 28 0))).reaches .mainband 0x0701E0 && (run .off (mop (word 28 0))).reaches .mainband 0x0701E4) = true ∧
    (run .off (mop (word 28 0))).jobs ≠ [] := by decide +kernel
theorem test_unassigned : up.reaches .mainband 0x1FFFFC = true ∧ bar0Assigned 0x1FFFFC = false ∧ bar0Assigned 0x000008 = false ∧
    bar0Assigned 0x080104 = false ∧ bar0Assigned 0x080100 = true := by decide +kernel

/-- Ring 31 with two records held and its completion tail at `tail` of 16. -/
def twoHeld (tail : Nat) : State := (ringS [record, record] []).mapRing 31 (fun r => { r with cqTail := tail })
theorem test_held_hyps : ((twoHeld 14).ring 31).held.length = 2 ∧ 2 ^ ((twoHeld 14).ring 31).cqSizeLog = 16 ∧ (0 + 16 - 1 - 14) % 16 = 1 ∧ (0 + 16 - 1 - 0) % 16 = 15 ∧
    (twoHeld 14).awaits record = false ∧ ((twoHeld 0).ring 31).error = false ∧ (twoHeld 0).errs.fatal = false := by decide +kernel
theorem test_held : goes (exec (.ringEnable .mainband) (twoHeld 14)) (fun t => (t.ring 31).held == [record] && (t.ring 31).cqTail == 15) = true ∧
    goes (exec (.ringEnable .mainband) (twoHeld 0)) (fun t => (t.ring 31).held == [] && (t.ring 31).cqTail == 2) = true := by decide +kernel
/-- A cancelled job's record is still held when HALT comes. -/
def cancelled : Completion := { record with status := 0x12, endsJob := true }
theorem test_halt_cancelled : ((ringS [cancelled] []).ring 31).held = [cancelled] ∧ (ringS [cancelled] []).halt = .running ∧
    ({ run .off (mop (word 28 0)) with halt := .halting } : State).jobs.any (fun j => j.ending.isNone && !(run .off (mop (word 28 0))).jobFinished j) = true := by
  decide +kernel
theorem test_halt_holds : goes (exec (.halt .mainband) (ringS [cancelled] [])) (fun t => (t.ring 31).held.map (·.status) == [0x13]) = true := by decide +kernel
/-- An error queue whose entry in handling is CONTAINED, and DEFERRED. -/
def handling (cls : ErrClass) : State :=
  { up with errs := { ErrUnit.reset with queue := [⟨Err.plain cls 3 6 0 0 0, 1, 0, .active⟩] } }
theorem test_contained_hyps : ((handling .contained).errs.active).any (fun x => x.err.cls == .contained) = true ∧
    ((handling .deferred).errs.active).any (fun x => x.err.cls == .deferred) = true ∧ ErrClass.contained.rank < ErrClass.deferred.rank ∧
    (handling .deferred).errs.queue.any (fun y => y.repeats (Err.plain .fatal 0x30 8 0 0 0)) = false ∧ (handling .contained).errs.fatal = false := by decide +kernel
theorem test_contained : emptyList ((handling .contained).hoopStep .clean).errs.queue = true ∧
    ((handling .deferred).hoopStep .clean).errs.queue.length = 1 ∧ (up.hoopStep (.uncorrectable 1)).errs.fatal = true := by decide +kernel
/-- One entry waits and none is in handling. -/
theorem test_waiting_hyps : let s : State := { up with errs := { ErrUnit.reset with queue := [⟨Err.plain .contained 3 6 0 0 0, 1, 0, .waiting⟩] } }
    s.errs.active = none ∧ s.errs.queue ≠ [] ∧ (s.hoopStep .clean).errs.active.isSome = true := by decide +kernel
/-- A FATAL module whose link carries nothing, then one whose link does; each with a DEFERRED entry in handling. -/
def linked (l : LinkState) : State :=
  { handling .deferred with errs := { (handling .deferred).errs with fatal := true }, link := { up.link with state := l } }
theorem test_unwritable : ((linked .down).errs.active).any (fun x => x.err.cls == .deferred) = true ∧
    (linked .down).link.carries = false ∧ (linked .up).link.carries = true ∧ (linked .down).errs.fatal = true ∧
    goes (exec .errorPosted (linked .down)) (fun t => t.evq.lost == (linked .down).evq.lost + 1) = true := by decide +kernel
theorem test_still_hyps : ((up.mapDie 3 (fun d => { d with still := true })).die 3).still = true ∧ (up.die 3).still = false ∧
    up.dieSpending 3 = 0 := by decide +kernel
theorem test_slew_hyps : 0 < up.slewStep 3 := by
  show 0 < 60 * (600 + Config.fusedVoltageOffset 3 7 % 251) * 4
  omega
theorem test_spare_sensor_hyps : 208 ≤ (temps 105).length ∧ (up.die (15 / 4)).tAlert ≤ (temps 105).getD (208 + 15) 0 := by decide +kernel
theorem test_clock_out : let s : State := { up with power := { up.power with clkEnable := true, clkDiv := 2, clkLowUntil := 20 } }
    (s.clkoutHigh 19 = false ∧ s.clkoutHigh 20 = true ∧ s.clkoutHigh 39 = true ∧ s.clkoutHigh 40 = false ∧ s.clkoutHigh 50 = true) := by decide +kernel
theorem test_extest_hyps : let s : State := { State.reset with pins := { State.reset.pins with mreset := true }, jtag := { State.reset.jtag with instr := .extest } }
    (s.pins.mreset = true ∧ s.jtag.instr = .extest ∧ goes (exec .mresetRelease s) (fun t => t.jtag.instr == .bypass) = true) := by decide +kernel
theorem test_no_refclk_hyps : State.reset.boot.begun = false ∧ State.reset.pins.mreset = false ∧ State.reset.pins.allGood = true := by decide +kernel
theorem test_alias_hyps : ({ up with trust := { up.trust with aliasCert := some ⟨[1], [2]⟩ } } : State).trust.aliasCert.isSome = true := by decide +kernel

/-! ## Records, programs and tables -/

/-- The job of `s` with operand 0 recorded: `n` words with the record `r`, or zeros where it has none. -/
def recorded (s : State) (n : Nat) (r : Option Rec) : State :=
  let s := { s with jobs := s.jobs.map fun j => { j with
    image := { j.image with psetRef := 1 }
    descs := j.descs.set 0 { words 0 n with recorded := true, recordOffset := 0x800 } } }
  match r with
  | some x => s.store (scratchAddr 0 0x800) (x.bytes 0 [])
  | none => s
/-- A sound LWE record of five components. -/
def lweRec : Rec := { Rec.zero with domain := 2, keytag := 7, scale := 3, comps := 5 }

/-- Sound, damaged and of another component count. -/
theorem test_record_inputs : let s := fun r => recorded (run .off (mop (word 10 0))) 5 r
    ((((s (some lweRec)).ctx 0 3).map fun c => ((s (some lweRec)).inputs c 0).map (·.2)) = some [⟨lweRec, 0, true, false⟩]) ∧
    ((((s none).ctx 0 3).map fun c => ((s none).inputs c 0).map (fun x => (x.2.newFlags, x.2.sound))) = some [(4, false)]) := by decide +kernel
/-- A damaged input makes the macro-operation's output poisoned. -/
theorem test_poison_flags : let s := recorded (run .off (mop (word 10 0))) 5 none
    (s.ctx 0 3).any (fun c => (c.view 0).any fun a => (c.view 2).any fun v => v.outBatches == [0] && v.buf.isNone && v.desc.elemBits == 32 &&
      (s.batchOut c v 0 (fun _ => keepRule 10) noExtra (streamData 10 c a s v 0)).flags != 0 && v.holds [0]) = true := by decide +kernel
theorem test_matrix_inputs : let w := { word 16 0 with o3 := ⟨1, 1⟩ }
    let s := recorded (run .off (mop w)) 5 (some lweRec)
    works s (fun w => w.family == 16 && w.mmode == 0) = true ∧
    (s.ctx 0 3).any (fun c => (reference ((s.matInputs c 1 0).map (·.2))).isSome) = true ∧
    ((run .off (mop w)).ctx 0 3).any (fun c => (reference (((run .off (mop w)).matInputs c 1 0).map (·.2))).isNone) = true := by decide +kernel
/-- The image of the program lies at 0x10000, clean or in a poisoned line. -/
def programmed (bad : List Nat) : State :=
  { run .off (mop (word 14 0)) with linePoison := bad, jobs := [{ job0 .off with image := { (job0 .off).image with base := 0x10000 } }] }
theorem test_program_hyps : [([], none), ([0x10000], some 0x10000)].all (fun p => works (programmed p.1) (fun w => w.family == 14) &&
    ((programmed p.1).readyCtx 0 3 (fun w => w.family == 14)).any (fun c => (programmed p.1).vprogTurn c && (programmed p.1).badProgram c == p.2)) = true := by
  decide +kernel
/-- Rows without a modulus, and with one, in the last row. -/
theorem test_vector_hyps : vctx.q 31 = some 41 ∧ ({ vctx with moduli := [] } : VCtx).q 31 = none ∧ vctx.zeros = [] ∧
    [0, 1, 2].map (fun o => decide (vOp (o + 0x1E) = 0x20)) = [false, false, true] ∧ vMem 0x20 = true ∧ vMem 0x19 = false := by decide +kernel
/-- A group in which every member may go on, whose leader's operand 0 holds the record `r`. -/
def keyed (imm : Nat) (r : Option Rec) : State := recorded (grouped 7 imm (group 7 160 0 (some verdict) true)) 5 r
theorem test_ksw_outs : let g := group 7 160 0 (some verdict) true
    [some lweRec, none].all (fun r => ((keyed 3 r).memberCtx g (g.setLeader 0)).any (fun c => (c.view 0).isSome && (c.view 2).isSome && c.w.kswStreams && c.w.kswLast &&
      ((reference (((keyed 3 r).inputs c 0).map (·.2))).isSome == r.isSome) &&
      ((reference (((keyed 3 r).inputs c 0).map (·.2))).all (fun x => !x.outside && x.cipher && x.r.comps == kswComps c.w.kswKind pset0.n)))) = true ∧
    ((g.member 0).bind (·.verdict)) = some verdict := by decide +kernel
/-- A stage before the last of a split key switch, which streams no key, and its stage 5, which does. -/
theorem test_ksw_split : [(3, 0, false), (3, 5, true)].all (fun p => let g := group 7 160 0 (some verdict) true
    ((keyed (p.1 + 4 * p.2.1) (some lweRec)).memberCtx g 0).isSome) = true := by decide +kernel
def good : Verdict := { verdict with flags := 0 }
/-- A PBS group with the line of the table block poisoned or clean. -/
def tabled (bad : List Nat) : State :=
  let s := grouped 17 0 (group 17 40 4 (some good) true)
  { s with linePoison := bad, jobs := s.jobs.map fun j => { j with image := { j.image with base := 0x40000 } } }
theorem test_pbs_outs : [([], none), ([0x40000], some 0x40000)].all (fun p => ((tabled p.1).readyCtx 0 3 (fun w => w.family == 17)).any (fun c =>
      (tabled p.1).badLine c.pbsTables == p.2 && (c.view 0).isSome && (c.view 2).isSome && !c.w.normalises &&
      ((tabled p.1).pbsOuts (group 17 40 4 (some good) true) pset0).any (fun k => k.2.any (fun o => o.flags == 0)))) = true := by decide +kernel
theorem test_pbs_record : let g := group 17 40 4 (some verdict) true
    let s := recorded (grouped 17 0 g) 5 (some lweRec)
    (s.memberCtx g 0).any (fun c => (reference ((s.matInputs c (s.tableBlock c.job.image c.w.pbsTable).mv 0).map (·.2))).any (fun x =>
      !x.outside && x.cipher && x.r.comps == pset0.lweN + 1)) = true := by decide +kernel

/-! ## What waits -/

/-- The service pool is spent while a key stream has a place. -/
theorem test_key_pool_hyps : (spent (fed 7 1 [])).poolOpen = false ∧ (fed 7 1 []).poolOpen = true ∧ ((spent (fed 7 1 [])).ctx 0 3).isSome = true ∧
    ((spent (fed 7 1 [])).runOf 0 0 3).isSome = true := by decide +kernel
/-- Tile 0 has `n` memory tokens left; tile 1 has none of its cycles. -/
def tokens (n : Nat) (s : State) : State := s.mapTile 0 (fun u => { u with memAllot := n })
def frozen1 (s : State) : State := s.mapTile 1 (fun u => { u with runs := 0 })
theorem test_dma_waits_hyps : ((load0.readyCtx 0 3 (fun w => w.family == 19)).any (fun c => load0.dmaOpen c && !(tokens 0 load0).dmaOpen c)) = true ∧
    (((farLoad false).readyCtx 0 3 (fun w => w.family == 19)).any (fun c => (farLoad false).dmaOpen c && !(frozen1 (farLoad false)).dmaOpen c)) = true := by decide +kernel
theorem test_dma_waits : goes (exec (.load 0 3) (tokens 0 load0)) (fun t => (t.mopOf 0 3).any (fun m => !m.done)) = true ∧
    goes (exec (.load 0 3) load0) (fun t => (t.mopOf 0 3).any (·.done)) = true := by decide +kernel
/-- Two requests at once, then the third waits for the first's data. -/
theorem test_issue_hyps : (({ issues := [(5, 9), (5, 8)], waited := 0 } : Issue).next 2 4 0 10).issues = [(8, 18), (5, 9), (5, 8)] ∧
    (∀ p ∈ ([(5, 9), (5, 8)] : List (Nat × Nat)), p.1 ≤ 5) := by decide +kernel
theorem test_send_waits_hyps : ((sending .idle true).readyCtx 0 3 isSend).any (fun c => (sending .idle true).covers 0 c.sendTokens &&
      !(tokens 0 (sending .idle true)).covers 0 c.sendTokens && c.w.peer == 1) = true ∧ (frozen1 (sending .inFlight true)).letsIn 1 = false ∧
    (sending .inFlight true).letsIn 1 = true ∧ (up.letsIn 1) = true := by decide +kernel
theorem test_send_waits : goes (exec (.shuttleDescriptorArrive 0 3 false) (frozen1 (sending .inFlight true))) (fun t => ((t.tile 1).queue 0).slots.length == 0) = true ∧
    goes (exec (.send 0 3) (tokens 0 (sending .idle true))) (fun t => (t.mopOf 0 3).any (fun m => m.send == .idle)) = true := by decide +kernel
theorem test_receive_waits_hyps : let s := receiving (mop (word 24 0)) 0 [sent]
    s.covers 0 (requestTokens 0 false ((linesOf sent.src sent.length).take 1)) = true ∧
    (tokens 0 s).covers 0 (requestTokens 0 false ((linesOf sent.src sent.length).take 1)) = false ∧
    s.openTo 0 sent.src = true ∧ (frozen1 s).openTo 0 sent.src = false := by decide +kernel
/-- A marked map, and the same without marks. -/
theorem test_window_marks_hyps : let s := run .off { mop (word 25 7) with marked := [1] }
    (s.readyCtx 0 3 (fun w => w.family == 25)).any (fun c => c.plainMarks != 0 && s.badWord c == none) = true ∧
    ((run .off (mop (word 25 7))).readyCtx 0 3 (fun w => w.family == 25)).any (fun c => c.plainMarks == 0) = true ∧
    (railless up).pins.allGood = false ∧ (frozen1 (run .off (mop (word 25 7)))).letsIn 1 = false := by decide +kernel
theorem test_window_marks : goes (exec (.win 0 3) (run .off { mop (word 25 7) with marked := [1] })) (fun t =>
    (t.mopOf 0 3).any (fun m => m.done && m.events.length == 1) && !((t.tile 0).winAt 7).isOpen) = true := by decide +kernel
/-- A device-wide barrier under guard commits at once. -/
def barredWord : State :=
  let s := barred .mirror [0, 1] [0, 1]
  { s with jobs := s.jobs.map fun j => { j with mode := { j.mode with check := .word } } }
theorem test_guarded_barrier_hyps : let s := barredWord
    s.linePoison = [] ∧ s.errs.fatal = false ∧ (s.tile 207).marks = [] ∧ (s.tile 0).eccDouble = [] ∧ (s.job 0).any (fun j => decide (j.mode.check = .word) &&
      j.deviceWide { members := [0, 1], arrived := [0, 1], uses := 7 } && j.ending.isNone && j.recovery.isNone && !j.committing) = true := by decide +kernel

/-- A mirrored shard of tile 0 whose slots lie with tile 1, which has failed since the last commit where `down`. -/
def shard1 : GuardShard :=
  { entry := 0, tile := some 0, base := scratchAddr 0 0, size := 16, mirror := true, slot0 := scratchAddr 1 0x2000, slot1 := scratchAddr 1 0x3000,
    recOff := 0, recCount := 0, current := some false, gen0 := 0, gen1 := 0 }
def mirrored (lost : Bool) : State := { run .mirror (mop (word 26 0)) with
  jobs := [{ job0 .mirror with saved := some saved0, shards := [shard1], fallen := if lost then [1] else [] }] }
theorem test_lost_hyps : shard1.holder = some 1 ∧ ((mirrored true).runningJob 0).any (fun j => j.saved.isSome && j.fallen.contains 1) = true ∧
    ((mirrored false).runningJob 0).any (fun j => emptyList j.fallen) = true := by decide +kernel
theorem test_lost : goes (exec (.tilePollTimeout 0) (mirrored true)) (fun t => t.errs.fatal) = true ∧
    goes (exec (.tilePollTimeout 0) (mirrored false)) (fun t => !t.errs.fatal && (t.job 0).any (fun j => j.recovery.any (fun r => r.takeovers == [0]))) = true := by
  decide +kernel
theorem test_hub_fault : (committing0 .mirror).poolOpen = true ∧ (spent (committing0 .mirror)).poolOpen = false ∧
    goes (exec (.commitFinish ⟨0, 0, .uncorrectable 1⟩) (committing0 .mirror)) (fun t => (t.job 0).any (fun j => j.recovery.isSome)) = true ∧
    goes (exec (.restoreDone ⟨0, 0, .uncorrectable 1⟩) restoring) (fun t => t.errs.fatal) = true ∧
    goes (exec (.restoreDone ⟨0, 0, .clean⟩) (spent restoring)) (fun t => (t.job 0).any (fun j => j.recovery.isSome)) = true := by decide +kernel
/-- A takeover that is still due. -/
theorem test_takeover_hyps : let s : State := (restoring.mapTile 0 (fun u => { u with failed := true })).mapJob 0 (fun j =>
      { j with recovery := j.recovery.map (fun r => { r with takeovers := [0] }) })
    (s.job 0).any (fun j => j.recovery.any (fun r => r.takeovers.any (fun t => (s.tile t).failed))) = true ∧
    (s.runningJob 0).any (fun j => j.recovery.any (fun r => r.takeovers.contains 0)) = true := by decide +kernel
/-- A repeated abort under guard is held for its recovery. -/
theorem test_repeated_abort : goes (exec (.macroAbort 0 3 .remote)
      (let s := run .mirror { mop (word 0 0) with stop := some .transit }
       { s with jobs := s.jobs.map (fun j => { j with aborted := [(0, 3, 2)] }) }))
    (fun t => (t.job 0).any (fun j => j.heldErrs.length == 1) && emptyList t.errs.queue) = true := by decide +kernel
/-- Appending bytes in which a record lies whose complement pairs disagree; the block also where the other tile stands still. -/
def appending (far1 : Bool) : State :=
  let d : Desc := if far1 then { hbmWords (scratchAddr 1 0) 1024 with space := 2, allocSize := 9000 } else { words 0 1024 with allocSize := 9000 }
  { (run .off (mop { word 27 8 with o1 := ⟨0xFFF, 0⟩ })).store (scratchAddr 0 0x800) (leBytes 2 0xC7F1) with
    jobs := [{ job0 .off with descs := [d, words 0x2000 4, { words 0x3000 1040 with allocSize := 9000 }, { words 0 4 with recorded := true, recordOffset := 0x800 }] }] }
theorem test_chk_pair_hyps : ((appending false).ctx 0 3).any (fun c => (c.view 0).any fun a => (c.view 2).any fun v =>
      (appending false).chkOpen c && (appending false).chkPair c a v == some (scratchAddr 0 0x800) && c.wordCause (scratchAddr 0 0x800) == some (.scratchWord 0x800)) = true ∧
    ((appending true).ctx 0 3).any (fun c => (appending true).chkOpen c && !(frozen1 (appending true)).chkOpen c) = true := by decide +kernel
theorem test_chk_pair : goes (exec (.chkAppend 0 3) (appending false)) (fun t => (t.mopOf 0 3).any (fun m => m.stop == some (.scratchWord 0x800))) = true := by
  decide +kernel
theorem test_modexp_lengths : starts (exec (.modexp 8 2 1 3 16) up) [0] .badOperand 98 && starts (exec (.modexp 8 0 1 3 17) up) [] .badOperand 20 &&
    starts (exec (.modsub 4097 1 2 17) up) [] .badOperand 20 && starts (exec (.modinvP 4097 1 17) up) [] .badOperand 20 = true := by decide +kernel
theorem test_abort_hyps : ((run .off (mop (word 28 0))).ctx 0 3).any (fun c => !(run .off (mop (word 28 0))).meets c (.memLine 0) && c.mop.stop.isNone) = true := by
  decide +kernel
/-- A RECV that writes into the scratchpad of tile 1. -/
def receiveFar : State :=
  let s := receiving { mop (word 24 0) with taken := some (10, { sent with src := scratchAddr 0 0x40 }) } 0 [sent]
  { s with jobs := s.jobs.map fun j => { j with descs := j.descs.set 2 { words 0 4 with space := 2, base := scratchAddr 1 0x2000 } } }
theorem test_receive_far_hyps : (receiveFar.readyCtx 0 3 isRecv).any (fun c => (c.view 2).any fun v => home v.dataRange.1 == .scratch 1 0x2000 &&
    v.dataRange.2 - v.dataRange.1 == 16 && receiveFar.openTo 0 (scratchAddr 0 0x40)) = true := by decide +kernel
/-- The PBS of FC6 before it starts takes its header verdict without the record. -/
theorem test_early_verdict_hyps : let s := run .off { mop { word 17 0 with chain := 6, cstage := 1 } with start := none }
    (s.ctx 0 3).any (fun c => c.mop.start.isNone && c.w.chain == 6 && s.tileRuns 0 && !c.mop.done && c.mop.stop.isNone && !s.poisonWaits c) = true := by
  decide +kernel

end Sys2Proof.Tests
end

section
/-!
PROOFS. The two words of a 64-bit register (00_scope, R8 and R9): the latch of a read, the low word held until the high word is
written, and the discard at the check-value units (R510).
-/
namespace Sys2Proof.Machine

/-! ## A recorded error -/

theorem ErrUnit.takes_running {u : ErrUnit} {e : Err} (h : u.takes e = true) : u.fatal = false := by
  simp only [ErrUnit.takes, Bool.and_eq_true, Bool.not_eq_true'] at h
  obtain ⟨⟨running, -⟩, -⟩ := h
  exact running

theorem ErrUnit.enter_of_takes {u : ErrUnit} {e : Err} (h : u.takes e = true) : u.enter e = u.append e := by
  simp only [ErrUnit.takes, Bool.and_eq_true, Bool.not_eq_true', decide_eq_true_eq] at h
  obtain ⟨⟨-, room⟩, new⟩ := h
  unfold ErrUnit.enter
  rw [if_neg (by simp [new]), if_pos room]

theorem ErrUnit.append_getLast (u : ErrUnit) (e : Err) :
    ∃ x, (u.append e).queue.getLast? = some x ∧ x.err = e ∧ x.count = 1 :=
  ⟨_, List.getLast?_concat .., rfl, rfl⟩

@[simp] theorem State.enterQueue_errs (e : Err) (s : State) : (s.enterQueue e).errs = s.errs.enter e := by
  unfold State.enterQueue
  split <;> simp

@[simp] theorem State.countEvent_errs (e : Err) (s : State) : (s.countEvent e).errs = s.errs := by
  unfold State.countEvent
  split
  · split <;> simp
  · rfl

theorem State.raise_deferred_errs {e : Err} {s : State} (he : e.cls = .deferred) (hs : s.errs.fatal = false) :
    (s.raise [e]).errs = s.errs.enter e := by
  simp [State.raise, hs, Err.sorted, Err.insertSorted, State.enterErr, he]

theorem State.raise_deferred_recorded {e : Err} (s : State) (he : e.cls = .deferred) : Recorded s (s.raise [e]) e := by
  intro takes
  have running : s.errs.fatal = false := ErrUnit.takes_running takes
  rw [State.raise_deferred_errs he running, ErrUnit.enter_of_takes takes]
  exact ErrUnit.append_getLast ..

theorem State.discard_recorded (q : Requester) (a v : Nat) (s : State) :
    Recorded s (s.discard q a v) (Err.plain .deferred 0x03 6 (requesterNum q) a (v % 2 ^ 32)) :=
  State.raise_deferred_recorded s rfl

/-- A discarded write changes no part but those that an error may change. -/
theorem State.discard_same {q : Requester} {a v : Nat} {s : State} {p : Part} (hp : Part.raised.contains p = false) :
    p.same s (s.discard q a v) :=
  have : Raises Part.raised.contains := raises_of rfl
  (Evolves.refl _ s).discard.kept p hp

/-! ## Addresses of 64-bit registers -/

theorem wideReg_mod_eight {a : Nat} (h : wideReg a = true) : a % 8 = 0 := by
  simp only [wideReg, Bool.or_eq_true, Bool.and_eq_true, List.contains_iff_mem, List.mem_cons, List.not_mem_nil, or_false] at h
  omega

theorem wideReg_high {a : Nat} (h : wideReg a = true) : wideReg (a + 4) = false := by
  have low := wideReg_mod_eight h
  refine Bool.eq_false_iff.2 fun high => ?_
  have := wideReg_mod_eight high
  omega

/-! ## The two commands -/

theorem exec_regWrite (q : Requester) (a size : Nat) (v : DWord) (s : State) :
    exec (.regWrite q a size v) s = execRegWrite q a size v s := rfl

theorem exec_reg64LowRead (q : Requester) (r : RegRead) (s : State) :
    exec (.reg64LowRead q r) s = execReg64LowRead q r s := rfl

/-! ## Reads through the latch (R9) -/

/-- A word-sized read of BAR0 that is served, within the requester's windows. -/
theorem exec_wordRead {q : Requester} {a : Nat} {s : State} (hq : q ≠ .sideband) (ha : a % 4 = 0) (hs : s.servesRead q a = true)
    (hw : s.windowOpen q a = true) : exec (.reg64LowRead q ⟨a, 4⟩) s = .next { s.unlatch.count .bar0Reads 0 1 with
      resp := .word (BitVec.ofNat 32 (s.readWord32 q a)), readLatch := s.latchOf q a } := by
  simp only [exec_reg64LowRead, execReg64LowRead]
  rw [if_neg (by simp [hs]), if_neg (by simp [ha]), if_neg (by simp [hw]), if_neg hq]
  rfl

theorem State.readWord32_low {q : Requester} {a : Nat} {s : State} (hq : q ≠ .sideband) (h : wideReg a = true) :
    s.readWord32 q a = s.read64 q a % 2 ^ 32 := by
  simp [State.readWord32, hq, h]

/-- The high word is the latched one, whatever the register holds by now. -/
theorem State.readWord32_latched {q : Requester} {a : Nat} {w : Word} {s : State} (hq : q ≠ .sideband) (h : wideReg a = true)
    (hl : s.readLatch = some (a + 4, w)) : s.readWord32 q (a + 4) = w.toNat := by
  simp [State.readWord32, hq, h, wideReg_high h, hl]

theorem State.latchOf_low {q : Requester} {a : Nat} {s : State} (hq : q ≠ .sideband) (h : wideReg a = true) :
    s.latchOf q a = some (a + 4, BitVec.ofNat 32 (s.read64 q a / 2 ^ 32)) := by
  simp [State.latchOf, hq, h]

theorem State.latchOf_high {q : Requester} {a : Nat} {s : State} (h : wideReg a = true) : s.latchOf q (a + 4) = none := by
  simp [State.latchOf, wideReg_high h]

theorem exec_lowRead {q : Requester} {a : Nat} {s : State} (hq : q ≠ .sideband) (h : wideReg a = true)
    (hs : s.servesRead q a = true) (hw : s.windowOpen q a = true) :
    exec (.reg64LowRead q ⟨a, 4⟩) s = .next { s.unlatch.count .bar0Reads 0 1 with
      resp := .word (BitVec.ofNat 32 (s.read64 q a % 2 ^ 32)),
      readLatch := some (a + 4, BitVec.ofNat 32 (s.read64 q a / 2 ^ 32)) } := by
  have aligned := wideReg_mod_eight h
  rw [exec_wordRead hq (by omega) hs hw, State.readWord32_low hq h, State.latchOf_low hq h]

theorem exec_latchedRead {q : Requester} {a : Nat} {w : Word} {s : State} (hq : q ≠ .sideband) (h : wideReg a = true)
    (hl : s.readLatch = some (a + 4, w)) (hs : s.servesRead q (a + 4) = true) (hw : s.windowOpen q (a + 4) = true) :
    exec (.reg64LowRead q ⟨a + 4, 4⟩) s = .next { s.unlatch.count .bar0Reads 0 1 with resp := .word w } := by
  have aligned := wideReg_mod_eight h
  rw [exec_wordRead hq (by omega) hs hw, State.readWord32_latched hq h hl, State.latchOf_high h, BitVec.ofNat_toNat,
    BitVec.setWidth_eq]
  rfl

/-! ## Writes of the two words (R8) -/

/-- No register write is served in FATAL (R531). -/
theorem State.serves_running {q : Requester} {s : State} (h : s.serves q = true) : s.errs.fatal = false := by
  simp only [State.serves, Bool.and_eq_true, Bool.not_eq_true'] at h
  obtain ⟨⟨⟨running, -⟩, -⟩, -⟩ := h
  exact running

/-- A word-sized write of BAR0 that reaches its register. -/
theorem exec_wordWrite {q : Requester} {a : Nat} {v : DWord} {s : State} (hq : q ≠ .sideband) (ha : a % 4 = 0)
    (hr : s.reaches q a = true) : exec (.regWrite q a 4 v) s = .next (s.unlatch.writeBar0 q a (v.toNat % 2 ^ 32)) := by
  simp only [State.reaches, Bool.and_eq_true] at hr
  obtain ⟨serves, window⟩ := hr
  have serves' : s.unlatch.serves q = true := serves
  have window' : s.unlatch.windowOpen q a = true := window
  have running : s.unlatch.errs.fatal = false := State.serves_running serves'
  simp only [exec_regWrite, execRegWrite]
  rw [if_neg (Bool.eq_false_iff.1 running), if_neg (by simp [serves']), if_neg (by simp [ha]), if_neg hq, if_neg (by simp [window'])]

/-- The low word is held where the address is no check-value unit's or no job is admitted (R8). -/
theorem State.writeBar0_low {q : Requester} {a v : Nat} {s : State} (h : wideReg a = true) (free : inCvu a = false ∨ s.jobs = []) :
    s.writeBar0 q a v = s.holdLow a v := by
  have writable : ¬ (inCvu a && !emptyList s.jobs) = true := by
    obtain outside | idle := free
    · simp [outside]
    · simp [idle, emptyList]
  unfold State.writeBar0
  rw [if_pos h, if_neg writable]

/-- The low word of a check-value unit's 64-bit register is discarded, not held, while a job is admitted (R510). -/
theorem State.writeBar0_low_busy {q : Requester} {a v : Nat} {s : State} (h : wideReg a = true) (hc : inCvu a = true)
    (busy : s.jobs ≠ []) : s.writeBar0 q a v = s.discard q a v := by
  have full : emptyList s.jobs = false := by
    cases hj : s.jobs with
    | nil => exact absurd hj busy
    | cons j js => rfl
  unfold State.writeBar0
  rw [if_pos h, if_pos (by simp [hc, full])]

theorem State.writeBar0_high {q : Requester} {a v : Nat} {s : State} (h : wideReg a = true) :
    s.writeBar0 q (a + 4) v = s.commitHigh q a v := by
  unfold State.writeBar0
  rw [if_neg (by simp [wideReg_high h]), if_pos ⟨by omega, by simpa using h⟩, Nat.add_sub_cancel]

/-- The high word commits the low word that was just held, and no low word of the register is held any more. -/
theorem State.commitHigh_holdLow (q : Requester) (a lo hi : Nat) (s : State) :
    (s.holdLow a lo).commitHigh q a hi =
      { s with lowHeld := s.lowHeld.filter (fun p => p.1 != a) }.write64 q a (lo % 2 ^ 32 + 2 ^ 32 * hi) := by
  simp [State.commitHigh, State.holdLow]

theorem exec_lowWrite {q : Requester} {a : Nat} {lo : DWord} {s : State} (hq : q ≠ .sideband) (h : wideReg a = true)
    (hr : s.reaches q a = true) (free : inCvu a = false ∨ s.jobs = []) :
    exec (.regWrite q a 4 lo) s = .next (s.unlatch.holdLow a (lo.toNat % 2 ^ 32)) := by
  have aligned := wideReg_mod_eight h
  rw [exec_wordWrite hq (by omega) hr, State.writeBar0_low (s := s.unlatch) h free]

theorem exec_highWrite {q : Requester} {a lo : Nat} {hi : DWord} {s : State} (hq : q ≠ .sideband) (h : wideReg a = true)
    (hr : s.reaches q (a + 4) = true) :
    exec (.regWrite q (a + 4) 4 hi) (s.unlatch.holdLow a lo) =
      .next ({ s.unlatch with lowHeld := s.lowHeld.filter (fun p => p.1 != a) }.write64 q a
        (lo % 2 ^ 32 + 2 ^ 32 * (hi.toNat % 2 ^ 32))) := by
  have aligned := wideReg_mod_eight h
  have hr' : (s.unlatch.holdLow a lo).reaches q (a + 4) = true := hr
  have unlatched : (s.unlatch.holdLow a lo).unlatch = s.unlatch.holdLow a lo := rfl
  rw [exec_wordWrite hq (by omega) hr', unlatched, State.writeBar0_high h, State.commitHigh_holdLow, State.unlatch_lowHeld]

/-- A discarded low word leaves the check-value units and the held words, and its event names its address. -/
theorem exec_busyCvuWrite {q : Requester} {a : Nat} {v : DWord} {s : State} (hq : q ≠ .sideband) (h : wideReg a = true)
    (hc : inCvu a = true) (busy : s.jobs ≠ []) (hr : s.reaches q a = true) :
    ∃ t, exec (.regWrite q a 4 v) s = .next t ∧ t.cvus = s.cvus ∧ t.lowHeld = s.lowHeld ∧
      Recorded s t (Err.plain .deferred 0x03 6 (requesterNum q) a (v.toNat % 2 ^ 32)) := by
  have aligned := wideReg_mod_eight h
  have recorded := s.unlatch.discard_recorded q a (v.toNat % 2 ^ 32)
  rw [Nat.mod_mod] at recorded
  refine ⟨s.unlatch.discard q a (v.toNat % 2 ^ 32), ?_, ?_, ?_, recorded⟩
  · rw [exec_wordWrite hq (by omega) hr, State.writeBar0_low_busy (s := s.unlatch) h hc busy]
  · exact State.discard_same (p := .cvus) rfl
  · exact State.discard_same (p := .lowHeld) rfl

/-- Settles O11: the latch of a low word's read answers the high word (R9), the high word's write commits the held low word (R8),
and a busy check-value unit discards (R510). -/
theorem wideRegisters : Obligations.WideRegisters := by
  unfold Obligations.WideRegisters
  refine ⟨fun q a s hq h hs hw _ => ⟨exec_lowRead hq h hs hw, fun t latched => exec_latchedRead hq h latched⟩,
    fun q a lo hi s hq h low high free => ⟨exec_lowWrite hq h low free, ?_⟩,
    fun q a v s hq h hc busy hr => exec_busyCvuWrite hq h hc busy hr⟩
  rw [exec_highWrite hq h high, Nat.mod_mod]

end Sys2Proof.Machine
end

section
/-!
PROOFS. MODE (01_device, R21 and R22): which words it takes, and what it keeps of them. TELEM_CTRL.CLEAR (12_host_port, R423): which
counters it sets to 0, and which it leaves.
-/
namespace Sys2Proof.Machine

/-! ## Writes behind the gate -/

/-- A write that reaches its register has the register's effect, not the gate's. -/
theorem State.gated_of_reaches {q : Requester} {a : Nat} {s : State} (f : State → State) (h : s.reaches q a = true) :
    s.gated q a f = f s := by
  simp only [State.reaches, Bool.and_eq_true] at h
  obtain ⟨serves, window⟩ := h
  unfold State.gated
  rw [if_neg (by simp [serves]), if_pos window]

theorem exec_modeWrite {q : Requester} {v : Word} {s : State} (h : s.reaches q 0x010000 = true) :
    exec (.modeWrite q v) s = .next (s.unlatch.writeMode q v.toNat) :=
  have h' : s.unlatch.reaches q 0x010000 = true := h
  congrArg Host.Outcome.next (State.gated_of_reaches (State.writeMode q v.toNat) h')

theorem exec_telemClear {q : Requester} {s : State} (h : s.reaches q 0x180010 = true) :
    exec (.telemClear q) s = .next (s.unlatch.telemCleared (s.selects q)) :=
  have h' : s.unlatch.reaches q 0x180010 = true := h
  congrArg Host.Outcome.next (State.gated_of_reaches (State.writeTelemCtrl q 1) h')

/-! ## Bit fields -/

theorem bits_lt (v hi lo : Nat) : bits v hi lo < 2 ^ (hi + 1 - lo) :=
  Nat.mod_lt _ (Nat.two_pow_pos _)

theorem bits_single (v i : Nat) : bits v i i = flag (bit v i) := by
  have two : v >>> i % 2 = 0 ∨ v >>> i % 2 = 1 := Nat.mod_two_eq_zero_or_one _
  obtain h | h := two <;> simp [bits, bit, flag, h]

/-! ## The fields of MODE and their encodings (Table DV.4) -/

/-- The encoding of GUARD. -/
def Guard.code : Guard → Nat
  | .off => 0
  | .mirror => 1
  | .mirrorVerify => 2

/-- The GUARD an encoding is assigned to. -/
def Guard.ofCode : Nat → Option Guard
  | 0 => some .off
  | 1 => some .mirror
  | 2 => some .mirrorVerify
  | _ => none

/-- The encoding of CHECK. -/
def CheckMode.code : CheckMode → Nat
  | .word => 0
  | .wordPair => 1
  | .full => 2

/-- The CHECK an encoding is assigned to. -/
def CheckMode.ofCode : Nat → Option CheckMode
  | 0 => some .word
  | 1 => some .wordPair
  | 2 => some .full
  | _ => none

/-- The encoding of ROUND. -/
def Rounding.code : Rounding → Nat
  | .nearestEven => 0
  | .towardZero => 1
  | .stochastic => 2

/-- The ROUND an encoding is assigned to. -/
def Rounding.ofCode : Nat → Option Rounding
  | 0 => some .nearestEven
  | 1 => some .towardZero
  | 2 => some .stochastic
  | _ => none

/-- The encoding of KEYFEED. -/
def Keyfeed.code : Keyfeed → Nat
  | .stored => 0
  | .seeded => 1

theorem Guard.ofCode_assigned {n : Nat} (h : n < 3) : ∃ g, Guard.ofCode n = some g ∧ g.code = n := by
  obtain rfl | rfl | rfl : n = 0 ∨ n = 1 ∨ n = 2 := by omega
  · exact ⟨.off, rfl, rfl⟩
  · exact ⟨.mirror, rfl, rfl⟩
  · exact ⟨.mirrorVerify, rfl, rfl⟩

theorem CheckMode.ofCode_assigned {n : Nat} (h : n < 3) : ∃ c, CheckMode.ofCode n = some c ∧ c.code = n := by
  obtain rfl | rfl | rfl : n = 0 ∨ n = 1 ∨ n = 2 := by omega
  · exact ⟨.word, rfl, rfl⟩
  · exact ⟨.wordPair, rfl, rfl⟩
  · exact ⟨.full, rfl, rfl⟩

theorem Rounding.ofCode_assigned {n : Nat} (h : n < 3) : ∃ r, Rounding.ofCode n = some r ∧ r.code = n := by
  obtain rfl | rfl | rfl : n = 0 ∨ n = 1 ∨ n = 2 := by omega
  · exact ⟨.nearestEven, rfl, rfl⟩
  · exact ⟨.towardZero, rfl, rfl⟩
  · exact ⟨.stochastic, rfl, rfl⟩

theorem Keyfeed.code_of_bit (b : Bool) : Keyfeed.code (if b then .seeded else .stored) = flag b := by
  cases b <;> rfl

theorem Mode.word_eq (m : Mode) : m.word = m.guard.code + 16 * m.keyfeed.code + 256 * m.pace + 4096 * m.check.code +
    65536 * flag m.audit + 2 ^ 20 * m.round.code := by
  obtain ⟨g, k, p, c, a, r⟩ := m
  cases k <;> rfl

/-- A word encodes a mode where GUARD, CHECK and ROUND each hold an assigned encoding; the other fields have no other. -/
theorem Mode.ofWord_eq (v : Nat) : Mode.ofWord v =
    (Guard.ofCode (bits v 1 0)).bind fun g => (CheckMode.ofCode (bits v 13 12)).bind fun c =>
      (Rounding.ofCode (bits v 21 20)).map fun r =>
        { guard := g, keyfeed := if bit v 4 then .seeded else .stored, pace := bits v 10 8, check := c, audit := bit v 16,
          round := r } := by
  change (match Guard.ofCode (bits v 1 0), CheckMode.ofCode (bits v 13 12), Rounding.ofCode (bits v 21 20) with
    | some g, some c, some r => some (Mode.mk g (if bit v 4 then .seeded else .stored) (bits v 10 8) c (bit v 16) r)
    | _, _, _ => none) = _
  cases Guard.ofCode (bits v 1 0) with
  | none => rfl
  | some g =>
    cases CheckMode.ofCode (bits v 13 12) with
    | none => rfl
    | some c => cases Rounding.ofCode (bits v 21 20) <;> rfl

theorem Mode.ofWord_assigned {v : Nat} (guard : bits v 1 0 ≠ 3) (check : bits v 13 12 ≠ 3) (round : bits v 21 20 ≠ 3) :
    ∃ m, Mode.ofWord v = some m ∧ m.word = bits v 1 0 + 16 * bits v 4 4 + 256 * bits v 10 8 + 4096 * bits v 13 12 +
      65536 * bits v 16 16 + 2 ^ 20 * bits v 21 20 := by
  have guard4 : bits v 1 0 < 4 := bits_lt v 1 0
  have check4 : bits v 13 12 < 4 := bits_lt v 13 12
  have round4 : bits v 21 20 < 4 := bits_lt v 21 20
  obtain ⟨g, hg, gcode⟩ := Guard.ofCode_assigned (n := bits v 1 0) (by omega)
  obtain ⟨c, hc, ccode⟩ := CheckMode.ofCode_assigned (n := bits v 13 12) (by omega)
  obtain ⟨r, hr, rcode⟩ := Rounding.ofCode_assigned (n := bits v 21 20) (by omega)
  refine ⟨_, by rw [Mode.ofWord_eq, hg, hc, hr]; rfl, ?_⟩
  rw [Mode.word_eq, Keyfeed.code_of_bit, gcode, ccode, rcode, bits_single, bits_single]

theorem Mode.ofWord_unassigned {v : Nat} (h : bits v 1 0 = 3 ∨ bits v 13 12 = 3 ∨ bits v 21 20 = 3) : Mode.ofWord v = none := by
  rw [Mode.ofWord_eq]
  obtain guard | check | round := h
  · simp [guard, Guard.ofCode]
  · simp [check, CheckMode.ofCode]
  · simp [round, Rounding.ofCode]

/-! ## Writes of MODE -/

theorem State.writeMode_of_mode {q : Requester} {v : Nat} {m : Mode} {s : State} (h : Mode.ofWord v = some m) :
    s.writeMode q v = { s with mode := m } := by
  simp [State.writeMode, h]

theorem State.writeMode_of_unassigned {q : Requester} {v : Nat} {s : State} (h : Mode.ofWord v = none) :
    s.writeMode q v = s.discard q 0x010000 v := by
  simp [State.writeMode, h]

theorem exec_modeWrite_assigned {q : Requester} {v : Word} {s : State} (hr : s.reaches q 0x010000 = true)
    (guard : bits v.toNat 1 0 ≠ 3) (check : bits v.toNat 13 12 ≠ 3) (round : bits v.toNat 21 20 ≠ 3) :
    ∃ m : Mode, m.word = bits v.toNat 1 0 + 16 * bits v.toNat 4 4 + 256 * bits v.toNat 10 8 + 4096 * bits v.toNat 13 12 +
        65536 * bits v.toNat 16 16 + 2 ^ 20 * bits v.toNat 21 20 ∧
      exec (.modeWrite q v) s = .next { s.unlatch with mode := m } := by
  obtain ⟨m, decoded, word⟩ := Mode.ofWord_assigned guard check round
  exact ⟨m, word, by rw [exec_modeWrite hr, State.writeMode_of_mode decoded]⟩

theorem exec_modeWrite_unassigned {q : Requester} {v : Word} {s : State} (hr : s.reaches q 0x010000 = true)
    (h : bits v.toNat 1 0 = 3 ∨ bits v.toNat 13 12 = 3 ∨ bits v.toNat 21 20 = 3) :
    ∃ t, exec (.modeWrite q v) s = .next t ∧ t.mode = s.mode ∧
      Recorded s t (Err.plain .deferred 0x03 6 (requesterNum q) 0x010000 v.toNat) := by
  have recorded := s.unlatch.discard_recorded q 0x010000 v.toNat
  rw [Nat.mod_eq_of_lt v.isLt] at recorded
  refine ⟨s.unlatch.discard q 0x010000 v.toNat, ?_, State.discard_same (p := .mode) rfl, recorded⟩
  rw [exec_modeWrite hr, State.writeMode_of_unassigned (Mode.ofWord_unassigned h)]

/-! ## Counters taken out -/

theorem Telemetry.get_filter_of_true {m : Telemetry} {keep : (Ctr × Nat) × Nat → Bool} {c : Ctr} {i : Nat}
    (h : ∀ n, keep ((c, i), n) = true) : Telemetry.get (m.filter keep) c i = Telemetry.get m c i := by
  have same : (m.filter keep).find? (fun p => p.1 == (c, i)) = m.find? (fun p => p.1 == (c, i)) := by
    rw [List.find?_filter]
    congr 1
    funext ⟨k, n⟩
    by_cases hk : k = (c, i)
    · simp [hk, h]
    · simp [hk]
  unfold Telemetry.get
  rw [same]

theorem Telemetry.get_filter_of_false {m : Telemetry} {keep : (Ctr × Nat) × Nat → Bool} {c : Ctr} {i : Nat}
    (h : ∀ n, keep ((c, i), n) = false) : Telemetry.get (m.filter keep) c i = 0 := by
  have absent : (m.filter keep).find? (fun p => p.1 == (c, i)) = none := by
    simp only [List.find?_eq_none, List.mem_filter, beq_iff_eq]
    rintro ⟨k, n⟩ ⟨-, kept⟩ rfl
    simp [h] at kept
  unfold Telemetry.get
  rw [absent]

theorem foldl_replicate_zero {f : Nat → Nat → Nat} (hf : f 0 0 = 0) (n : Nat) : (List.replicate n 0).foldl f 0 = 0 := by
  induction n with
  | zero => rfl
  | succ n ih => rw [List.replicate_succ, List.foldl_cons, hf, ih]

/-- The module value of a counter that is 0 at every place. -/
theorem Telemetry.total_of_get_zero {m : Telemetry} {c : Ctr} (w : Nat) (sc : Scope) (h : ∀ i, Telemetry.get m c i = 0) :
    Telemetry.total m c w sc = 0 := by
  have values : (List.range (c.instances sc)).map (Telemetry.get m c) = List.replicate (c.instances sc) 0 := by
    rw [funext h, List.map_const', List.length_range]
  unfold Telemetry.total
  simp [values, foldl_replicate_zero, sat]

/-! ## TELEM_CTRL.CLEAR (R423) -/

/-- CLEAR reaches counter `c` at place `i`: TELEM_SEL names the counter, at SCOPE 0 or at the counter's own scope, where the
requester's select register names the place. -/
def State.Clears (s : State) (x : Selects) (c : Ctr) (i : Nat) : Prop :=
  ∃ w sc, Ctr.named s.telemSel.group s.telemSel.index = some (c, w, sc) ∧
    (s.telemSel.scope = 0 ∨ s.telemSel.scope = sc.code ∧ x.telem sc = some i)

theorem State.Clears.iff_of_named {s : State} {x : Selects} {c c' : Ctr} {w i : Nat} {sc : Scope}
    (named : Ctr.named s.telemSel.group s.telemSel.index = some (c', w, sc)) :
    s.Clears x c i ↔ c = c' ∧ (s.telemSel.scope = 0 ∨ s.telemSel.scope = sc.code ∧ x.telem sc = some i) := by
  simp only [State.Clears, named, Option.some.injEq, Prod.mk.injEq]
  constructor
  · rintro ⟨_, _, ⟨rfl, rfl, rfl⟩, reach⟩
    exact ⟨rfl, reach⟩
  · rintro ⟨rfl, reach⟩
    exact ⟨w, sc, ⟨rfl, rfl, rfl⟩, reach⟩

/-- What CLEAR does, said once: it takes out the counters it reaches, and changes nothing else. -/
theorem State.telemCleared_eq (s : State) (x : Selects) :
    ∃ keep : (Ctr × Nat) × Nat → Bool, s.telemCleared x = { s with tele := s.tele.filter keep } ∧
      ∀ c i n, keep ((c, i), n) = false ↔ s.Clears x c i := by
  have all : s = { s with tele := s.tele.filter (fun _ => true) } := by rw [List.filter_eq_self.2 fun _ _ => rfl]
  unfold State.telemCleared
  split
  case h_1 named => exact ⟨fun _ => true, all, by simp [State.Clears, named]⟩
  case h_2 c' w sc named =>
    simp only [State.Clears.iff_of_named named]
    by_cases total : s.telemSel.scope = 0
    · rw [if_pos total]
      exact ⟨fun p => p.1.1 != c', rfl, by simp [total]⟩
    rw [if_neg total]
    by_cases own : s.telemSel.scope = sc.code
    · rw [if_pos own]
      cases selected : x.telem sc with
      | none => exact ⟨fun _ => true, all, by simp [total]⟩
      | some k => exact ⟨fun p => p.1 != (c', k), rfl, by simp [own, own ▸ total, @eq_comm _ k]⟩
    · rw [if_neg own]
      exact ⟨fun _ => true, all, by simp [total, own]⟩

theorem State.telemCleared_tele_only (s : State) (x : Selects) :
    s.telemCleared x = { s with tele := (s.telemCleared x).tele } := by
  obtain ⟨keep, cleared, -⟩ := s.telemCleared_eq x
  rw [cleared]

theorem State.telemCleared_get_of_clears {s : State} {x : Selects} {c : Ctr} {i : Nat} (h : s.Clears x c i) :
    Telemetry.get (s.telemCleared x).tele c i = 0 := by
  obtain ⟨keep, cleared, reach⟩ := s.telemCleared_eq x
  rw [cleared]
  exact Telemetry.get_filter_of_false fun n => (reach c i n).2 h

theorem State.telemCleared_get_of_not_clears {s : State} {x : Selects} {c : Ctr} {i : Nat} (h : ¬ s.Clears x c i) :
    Telemetry.get (s.telemCleared x).tele c i = Telemetry.get s.tele c i := by
  obtain ⟨keep, cleared, reach⟩ := s.telemCleared_eq x
  rw [cleared]
  exact Telemetry.get_filter_of_true fun n => Bool.of_not_eq_false fun out => h ((reach c i n).1 out)

/-- After CLEAR, TELEM_VAL reads 0 for the requester that wrote it. -/
theorem State.telemCleared_value (s : State) (x : Selects) : { s with tele := (s.telemCleared x).tele }.telemValue x = 0 := by
  simp only [State.telemValue]
  split
  case h_1 => rfl
  case h_2 c w sc named =>
    by_cases total : s.telemSel.scope = 0
    · rw [if_pos total]
      exact Telemetry.total_of_get_zero w sc fun i => State.telemCleared_get_of_clears ⟨w, sc, named, .inl total⟩
    rw [if_neg total]
    by_cases own : s.telemSel.scope = sc.code
    · rw [if_pos own]
      cases selected : x.telem sc with
      | none => rfl
      | some i => exact State.telemCleared_get_of_clears ⟨w, sc, named, .inr ⟨own, selected⟩⟩
    · rw [if_neg own]

theorem State.not_clears_of_other_counter {s : State} {x : Selects} {c : Ctr} {i : Nat}
    (h : ∀ w sc, Ctr.named s.telemSel.group s.telemSel.index ≠ some (c, w, sc)) : ¬ s.Clears x c i :=
  fun ⟨w, sc, named, _⟩ => h w sc named

theorem State.not_clears_of_other_place {s : State} {x : Selects} {c : Ctr} {w i : Nat} {sc : Scope}
    (named : Ctr.named s.telemSel.group s.telemSel.index = some (c, w, sc)) (scope : s.telemSel.scope ≠ 0)
    (other : x.telem sc ≠ some i) : ¬ s.Clears x c i := by
  simp [State.Clears.iff_of_named named, scope, other]

/-- Settles O14: MODE by the encodings of its three fields that leave one unassigned (R22), CLEAR by the counters it reaches. -/
theorem modeWriteAndTelemClear : Obligations.ModeWriteAndTelemClear := by
  unfold Obligations.ModeWriteAndTelemClear
  refine ⟨fun q v s hr => ⟨exec_modeWrite_assigned hr, exec_modeWrite_unassigned hr⟩,
    fun q s hr => ⟨(s.unlatch.telemCleared (s.selects q)).tele, ?_, s.unlatch.telemCleared_value (s.selects q), ?_, ?_⟩⟩
  · rw [exec_telemClear hr, ← State.telemCleared_tele_only]
  · exact fun c i other => State.telemCleared_get_of_not_clears (s := s.unlatch) (State.not_clears_of_other_counter other)
  · exact fun c w sc named scope i other => State.telemCleared_get_of_not_clears (s := s.unlatch)
      (State.not_clears_of_other_place named scope other)

end Sys2Proof.Machine
end

section
/-!
PROOFS. PSET_CTRL and PRK_CTRL (02_ciphertext_records, R44 to R46; R298): a load or unload starts on a free loader, and is discarded
on a busy one or beside the other.
-/
namespace Sys2Proof.Machine

/-! ## The words of a load and of an unload (Tables CT.7 and OP.13) -/

theorem bit_load {k : Nat} (hk : k < 2 ^ 8) : bit (k + 0x100) 8 = true ∧ bit (k + 0x100) 9 = false := by
  simp only [bit, Nat.shiftRight_eq_div_pow, beq_iff_eq, beq_eq_false_iff_ne]
  omega

theorem bit_unload {k : Nat} (hk : k < 2 ^ 8) : bit (k + 0x200) 8 = false ∧ bit (k + 0x200) 9 = true := by
  simp only [bit, Nat.shiftRight_eq_div_pow, beq_iff_eq, beq_eq_false_iff_ne]
  omega

/-- INDEX lies below LOAD and UNLOAD, so it is read from a command's word as it was given. -/
theorem index_of_command {k c n : Nat} (hn : n ≤ 8) (hk : k < 2 ^ n) (hc : 2 ^ 8 ∣ c) : (k + c) % 2 ^ n = k := by
  obtain ⟨d, rfl⟩ := (pow_dvd_pow 2 hn).trans hc
  rw [Nat.add_mul_mod_self_left, Nat.mod_eq_of_lt hk]

/-- A register write takes 32 bits of the value, and LOAD and UNLOAD are among them. -/
theorem bit_word (v : Nat) : bit (v % 2 ^ 32) 8 = bit v 8 ∧ bit (v % 2 ^ 32) 9 = bit v 9 := by
  simp only [bit, Nat.shiftRight_eq_div_pow, beq_eq_beq]
  omega

/-! ## What a loader makes of a word -/

/-- The loader once a load (`load`) or an unload of index `k` has started: BUSY is 1, and the operation holds PSET_ADDR or PRK_ADDR and
the index as they stand (R46). -/
def Loader.started (l : Loader) (load : Bool) (k : Nat) : Loader :=
  { l with index := k, op := some { load := load, index := k, addr := l.addr.toNat } }

theorem Loader.control_one {l : Loader} {v : Nat} (indexBits : Nat) (free : l.op = none) (one : bit v 8 = !bit v 9) :
    l.control v indexBits = some (l.started (bit v 8) (v % 2 ^ indexBits)) := by
  cases unload : bit v 9 <;> simp [Loader.control, Loader.started, free, one, unload]

theorem Loader.control_load {l : Loader} {k n : Nat} (hn : n ≤ 8) (hk : k < 2 ^ n) (free : l.op = none) :
    l.control (k + 0x100) n = some (l.started true k) := by
  obtain ⟨load, unload⟩ := bit_load (hk.trans_le (Nat.pow_le_pow_right two_pos hn))
  rw [Loader.control_one n free (by simp [load, unload]), load, index_of_command hn hk (by decide)]

theorem Loader.control_unload {l : Loader} {k n : Nat} (hn : n ≤ 8) (hk : k < 2 ^ n) (free : l.op = none) :
    l.control (k + 0x200) n = some (l.started false k) := by
  obtain ⟨load, unload⟩ := bit_unload (hk.trans_le (Nat.pow_le_pow_right two_pos hn))
  rw [Loader.control_one n free (by simp [load, unload]), load, index_of_command hn hk (by decide)]

/-- A word that the loader discards: LOAD and UNLOAD both set (R44), or either set while BUSY is 1 (R45). -/
def Loader.Discards (l : Loader) (v : Nat) : Prop :=
  bit v 8 = true ∧ bit v 9 = true ∨ l.op.isSome = true ∧ (bit v 8 = true ∨ bit v 9 = true)

theorem Loader.control_discards {l : Loader} {v : Nat} (indexBits : Nat) (h : l.Discards v) : l.control v indexBits = none := by
  unfold Loader.control
  obtain ⟨load, unload⟩ | ⟨busy, load | unload⟩ := h
  · simp [load, unload]
  · simp [busy, load]
  · simp [busy, unload]

theorem Loader.Discards.word {l : Loader} {v : Nat} (h : l.Discards v) : l.Discards (v % 2 ^ 32) := by
  obtain ⟨load, unload⟩ := bit_word v
  unfold Loader.Discards
  rwa [load, unload]

theorem Loader.Discards.load {l : Loader} {k : Nat} (hk : k < 2 ^ 8) (busy : l.op.isSome = true) : l.Discards (k + 0x100) :=
  .inr ⟨busy, .inl (bit_load hk).1⟩

theorem Loader.Discards.unload {l : Loader} {k : Nat} (hk : k < 2 ^ 8) (busy : l.op.isSome = true) : l.Discards (k + 0x200) :=
  .inr ⟨busy, .inr (bit_unload hk).2⟩

/-! ## Writes of the two registers -/

theorem State.writePsetCtrl_some {q : Requester} {v : Nat} {l : Loader} {s : State} (h : s.psetLoader.control v 6 = some l) :
    s.writePsetCtrl q v = { s with psetLoader := l } := by
  simp [State.writePsetCtrl, h]

theorem State.writePrkCtrl_some {q : Requester} {v : Nat} {l : Loader} {s : State} (h : s.prkLoader.control v 4 = some l) :
    s.writePrkCtrl q v = { s with prkLoader := l } := by
  simp [State.writePrkCtrl, h]

theorem State.writePsetCtrl_discards {q : Requester} {v : Nat} {s : State} (h : s.psetLoader.Discards v) :
    s.writePsetCtrl q v = s.discard q 0x010108 v := by
  simp [State.writePsetCtrl, Loader.control_discards 6 h]

theorem State.writePrkCtrl_discards {q : Requester} {v : Nat} {s : State} (h : s.prkLoader.Discards v) :
    s.writePrkCtrl q v = s.discard q 0x010208 v := by
  simp [State.writePrkCtrl, Loader.control_discards 4 h]

/-! ## The commands are writes of the two registers -/

theorem exec_psetLoad {q : Requester} {s : State} (k : Nat) (h : s.reaches q 0x010108 = true) :
    exec (.psetLoad q k) s = .next (s.unlatch.writePsetCtrl q (k % 64 + 0x100)) :=
  have h' : s.unlatch.reaches q 0x010108 = true := h
  congrArg Host.Outcome.next (State.gated_of_reaches (State.writePsetCtrl q (k % 64 + 0x100)) h')

theorem exec_psetUnload {q : Requester} {s : State} (k : Nat) (h : s.reaches q 0x010108 = true) :
    exec (.psetUnload q k) s = .next (s.unlatch.writePsetCtrl q (k % 64 + 0x200)) :=
  have h' : s.unlatch.reaches q 0x010108 = true := h
  congrArg Host.Outcome.next (State.gated_of_reaches (State.writePsetCtrl q (k % 64 + 0x200)) h')

theorem exec_prkLoad {q : Requester} {s : State} (k : Nat) (h : s.reaches q 0x010208 = true) :
    exec (.prkLoad q k) s = .next (s.unlatch.writePrkCtrl q (k % 16 + 0x100)) :=
  have h' : s.unlatch.reaches q 0x010208 = true := h
  congrArg Host.Outcome.next (State.gated_of_reaches (State.writePrkCtrl q (k % 16 + 0x100)) h')

theorem exec_prkUnload {q : Requester} {s : State} (k : Nat) (h : s.reaches q 0x010208 = true) :
    exec (.prkUnload q k) s = .next (s.unlatch.writePrkCtrl q (k % 16 + 0x200)) :=
  have h' : s.unlatch.reaches q 0x010208 = true := h
  congrArg Host.Outcome.next (State.gated_of_reaches (State.writePrkCtrl q (k % 16 + 0x200)) h')

theorem exec_psetCtrlWrite {q : Requester} {v : DWord} {s : State} (hq : q ≠ .sideband) (h : s.reaches q 0x010108 = true) :
    exec (.regWrite q 0x010108 4 v) s = .next (s.unlatch.writePsetCtrl q (v.toNat % 2 ^ 32)) :=
  exec_wordWrite hq rfl h

theorem exec_prkCtrlWrite {q : Requester} {v : DWord} {s : State} (hq : q ≠ .sideband) (h : s.reaches q 0x010208 = true) :
    exec (.regWrite q 0x010208 4 v) s = .next (s.unlatch.writePrkCtrl q (v.toNat % 2 ^ 32)) :=
  exec_wordWrite hq rfl h

/-! ## Starts on a free loader -/

theorem exec_pset_starts {q : Requester} {k : Nat} {s : State} (hr : s.reaches q 0x010108 = true) (free : s.psetLoader.op = none)
    (hk : k < 64) :
    exec (.psetLoad q k) s = .next { s.unlatch with psetLoader := s.psetLoader.started true k } ∧
      exec (.psetUnload q k) s = .next { s.unlatch with psetLoader := s.psetLoader.started false k } := by
  have free' : s.unlatch.psetLoader.op = none := free
  rw [exec_psetLoad k hr, exec_psetUnload k hr, Nat.mod_eq_of_lt hk,
    State.writePsetCtrl_some (Loader.control_load (by decide) hk free'),
    State.writePsetCtrl_some (Loader.control_unload (by decide) hk free')]
  exact ⟨rfl, rfl⟩

theorem exec_prk_starts {q : Requester} {k : Nat} {s : State} (hr : s.reaches q 0x010208 = true) (free : s.prkLoader.op = none)
    (hk : k < 16) :
    exec (.prkLoad q k) s = .next { s.unlatch with prkLoader := s.prkLoader.started true k } ∧
      exec (.prkUnload q k) s = .next { s.unlatch with prkLoader := s.prkLoader.started false k } := by
  have free' : s.unlatch.prkLoader.op = none := free
  rw [exec_prkLoad k hr, exec_prkUnload k hr, Nat.mod_eq_of_lt hk,
    State.writePrkCtrl_some (Loader.control_load (by decide) hk free'),
    State.writePrkCtrl_some (Loader.control_unload (by decide) hk free')]
  exact ⟨rfl, rfl⟩

/-! ## Discards -/

/-- A command that does nothing but discard a 32-bit word keeps every part that an error does not change, and its event names the
address and the word. -/
theorem exec_discards {c : Instr} {q : Requester} {a v : Nat} {s : State} (p p' : Part)
    (h : exec c s = .next (s.unlatch.discard q a v)) (hv : v < 2 ^ 32) (hp : Part.raised.contains p = false)
    (hp' : Part.raised.contains p' = false) :
    ∃ t, exec c s = .next t ∧ p.same s.unlatch t ∧ p'.same s.unlatch t ∧
      Recorded s t (Err.plain .deferred 0x03 6 (requesterNum q) a v) := by
  have recorded := s.unlatch.discard_recorded q a v
  rw [Nat.mod_eq_of_lt hv] at recorded
  exact ⟨_, h, State.discard_same hp, State.discard_same hp', recorded⟩

theorem exec_pset_discards {c : Instr} {q : Requester} {v : Nat} {s : State} (h : exec c s = .next (s.unlatch.writePsetCtrl q v))
    (hv : v < 2 ^ 32) (discards : s.psetLoader.Discards v) :
    ∃ t, exec c s = .next t ∧ t.psetLoader = s.psetLoader ∧ t.psets = s.psets ∧
      Recorded s t (Err.plain .deferred 0x03 6 (requesterNum q) 0x010108 v) := by
  rw [State.writePsetCtrl_discards (s := s.unlatch) discards] at h
  exact exec_discards .psetLoader .psets h hv rfl rfl

theorem exec_prk_discards {c : Instr} {q : Requester} {v : Nat} {s : State} (h : exec c s = .next (s.unlatch.writePrkCtrl q v))
    (hv : v < 2 ^ 32) (discards : s.prkLoader.Discards v) :
    ∃ t, exec c s = .next t ∧ t.prkLoader = s.prkLoader ∧ t.prks = s.prks ∧
      Recorded s t (Err.plain .deferred 0x03 6 (requesterNum q) 0x010208 v) := by
  rw [State.writePrkCtrl_discards (s := s.unlatch) discards] at h
  exact exec_discards .prkLoader .prks h hv rfl rfl

/-- Settles O15: a loader's answer to a word is decided by LOAD, UNLOAD and BUSY (R44, R45), and each command is a write of such a
word. -/
theorem loadersStartOrDiscard : Obligations.LoadersStartOrDiscard := by
  unfold Obligations.LoadersStartOrDiscard
  refine ⟨fun q k s => ⟨exec_pset_starts, exec_prk_starts⟩, fun q k v s hq pset prk =>
    ⟨fun discards => exec_pset_discards (exec_psetCtrlWrite hq pset) (Nat.mod_lt _ (by decide)) (Loader.Discards.word discards),
      fun discards => exec_prk_discards (exec_prkCtrlWrite hq prk) (Nat.mod_lt _ (by decide)) (Loader.Discards.word discards),
      fun busy => List.forall_mem_cons.2 ⟨?_, List.forall_mem_singleton.2 ?_⟩,
      fun busy => List.forall_mem_cons.2 ⟨?_, List.forall_mem_singleton.2 ?_⟩⟩⟩
  · exact exec_pset_discards (exec_psetLoad k pset) (by omega) (.load (by omega) busy)
  · exact exec_pset_discards (exec_psetUnload k pset) (by omega) (.unload (by omega) busy)
  · exact exec_prk_discards (exec_prkLoad k prk) (by omega) (.load (by omega) busy)
  · exact exec_prk_discards (exec_prkUnload k prk) (by omega) (.unload (by omega) busy)

end Sys2Proof.Machine
end

section
/-!
PROOFS. The word arithmetic of R122 to R126 and R130 as residues: each selection of words names the residue it computes and keeps its
range.
-/
namespace Sys2Proof.Machine

/-! ## Sums over the words of a row -/

theorem foldl_add_range {M : Type} [AddCommMonoid M] (f : Nat → M) (n : Nat) :
    ((List.range n).map f).foldl (· + ·) 0 = ∑ i ∈ Finset.range n, f i := by
  rw [← List.sum_eq_foldl]
  rfl

theorem total_range (f : Nat → Nat) (n : Nat) : total ((List.range n).map f) = ∑ i ∈ Finset.range n, f i := foldl_add_range f n

theorem sum_range_two_mul {M : Type} [AddCommMonoid M] (f : Nat → M) (n : Nat) :
    ∑ c ∈ Finset.range (2 * n), f c = ∑ c ∈ Finset.range n, (f (2 * c) + f (2 * c + 1)) := by
  induction n with
  | zero => rfl
  | succ n ih => rw [Nat.mul_succ, Finset.sum_range_succ, Finset.sum_range_succ, ih, Finset.sum_range_succ, add_assoc]

/-! ## The selections of R125, R126 and R130 -/

theorem red_lt {q x : Nat} (hx : x < 2 * q) : red q x < q := by
  unfold red
  split <;> omega

theorem red_zero (q : Nat) : red q 0 = 0 := by
  unfold red
  split <;> omega

theorem red_cast (q x : Nat) : ((red q x : Nat) : ZMod q) = x := by
  unfold red
  split
  case isTrue h => rw [Nat.cast_sub h, ZMod.natCast_self, sub_zero]
  case isFalse => rfl

/-- The range of what a butterfly of NTT writes: lazy below 2^31, reduced from there on. -/
def lazyEnd (q : Nat) : Nat := if q < 2 ^ 31 then 2 * q else q

theorem lazyEnd_le (q : Nat) : lazyEnd q ≤ 2 * q := by
  unfold lazyEnd
  split <;> omega

/-- Below 2q the low 32 bits lose nothing: where 2q could pass them, lz has reduced. -/
theorem lz_eq {q x : Nat} (hq : q < 2 ^ 32) (hx : x < 2 * q) : lz q x = if q < 2 ^ 31 then x else red q x := by
  have hred := red_lt hx
  unfold lz word32
  by_cases h : q < 2 ^ 31
  · rw [if_pos h, if_neg (by omega), Nat.mod_eq_of_lt (by omega)]
  · rw [if_neg h, ← Nat.mod_eq_of_lt (show red q x < 2 ^ 32 by omega)]
    simp only [red, not_lt.1 h, true_and]

theorem lz_lt {q x : Nat} (hq : q < 2 ^ 32) (hx : x < 2 * q) : lz q x < lazyEnd q := by
  rw [lz_eq hq hx, lazyEnd]
  split
  · exact hx
  · exact red_lt hx

theorem lz_cast {q x : Nat} (hq : q < 2 ^ 32) (hx : x < 2 * q) : ((lz q x : Nat) : ZMod q) = x := by
  rw [lz_eq hq hx]
  split
  · rfl
  · exact red_cast q x

theorem subSel_cast {q x y : Nat} (hq : q < 2 ^ 32) (hy : y < q) : ((subSel q x y : Nat) : ZMod q) = x - y := by
  unfold subSel word32
  split
  case isTrue h => rw [Nat.cast_sub h]
  case isFalse h =>
    rw [show (x + q + 2 ^ 32 - y) % 2 ^ 32 = x + q - y by omega, Nat.cast_sub (by omega), Nat.cast_add, ZMod.natCast_self, add_zero]

theorem negSel_eq {q x : Nat} (hq : q ≤ 2 ^ 32) (hx : x < 2 * q) : negSel q x = if red q x = 0 then 0 else q - red q x := by
  have hred := red_lt hx
  unfold negSel word32
  split <;> omega

theorem negSel_lt {q x : Nat} (hq : q ≤ 2 ^ 32) (hx : x < 2 * q) : negSel q x < q := by
  have hred := red_lt hx
  rw [negSel_eq hq hx]
  split <;> omega

theorem negSel_cast {q x : Nat} (hq : q ≤ 2 ^ 32) (hx : x < 2 * q) : ((negSel q x : Nat) : ZMod q) = -x := by
  rw [negSel_eq hq hx, ← red_cast q x]
  split
  case isTrue h => rw [h, Nat.cast_zero, neg_zero]
  case isFalse => rw [Nat.cast_sub (red_lt hx).le, ZMod.natCast_self, zero_sub]

/-! ## Modular powers -/

theorem powGo_cast {m f b e acc : Nat} (he : e < 2 ^ f) : ((powGo m f b e acc : Nat) : ZMod m) = acc * b ^ e := by
  induction f generalizing b e acc with
  | zero => obtain rfl : e = 0 := by omega
            simp [powGo]
  | succ f ih =>
    unfold powGo
    split
    case isTrue h => simp [h]
    case isFalse =>
      rw [ih (by omega), ZMod.natCast_mod, Nat.cast_mul, ← pow_two, ← pow_mul]
      rcases Nat.mod_two_eq_zero_or_one e with even | odd
      · rw [if_neg (by omega), show 2 * (e / 2) = e by omega]
      · rw [if_pos odd, ZMod.natCast_mod, Nat.cast_mul, mul_assoc, ← pow_succ', show 2 * (e / 2) + 1 = e by omega]

theorem powMod_cast (b e m : Nat) : ((powMod b e m : Nat) : ZMod m) = b ^ e := by
  rw [powMod, powGo_cast Nat.lt_log2_self, ZMod.natCast_mod, ZMod.natCast_mod, Nat.cast_one, one_mul]

/-- ψ^N = −1 modulo q, in the residues. -/
theorem pow_cast_eq_neg_one {q psi n : Nat} (hq : 1 < q) (h : psi ^ n % q = q - 1) : (psi : ZMod q) ^ n = -1 := by
  rw [← Nat.cast_pow, ← ZMod.natCast_mod, h, Nat.cast_sub hq.le, ZMod.natCast_self, Nat.cast_one, zero_sub]

theorem mul_cast_eq_one {q a b : Nat} (h : a * b % q = 1) : (a : ZMod q) * b = 1 := by
  rw [← Nat.cast_mul, ← ZMod.natCast_mod, h, Nat.cast_one]

/-! ## Rows of words -/

theorem getD_of_forall_mem {P : Nat → Prop} {l : List Nat} (zero : P 0) (h : ∀ x ∈ l, P x) (n : Nat) : P (l.getD n 0) := by
  by_cases hn : n < l.length
  · rw [List.getD_eq_getElem l 0 hn]
    exact h _ (List.getElem_mem hn)
  · rwa [List.getD_eq_default l 0 (not_lt.1 hn)]

/-- Reduced rows are equal when their words are congruent. -/
theorem eq_of_reduced_of_cast_eq {q : Nat} {l m : List Nat} (len : l.length = m.length) (hl : ∀ x ∈ l, x < q) (hm : ∀ x ∈ m, x < q)
    (h : ∀ n, n < l.length → ((l.getD n 0 : Nat) : ZMod q) = (m.getD n 0 : Nat)) : l = m := by
  refine List.ext_getElem len fun n hn hn' => ?_
  have congruent := (ZMod.natCast_eq_natCast_iff' _ _ q).1 (h n hn)
  rwa [List.getD_eq_getElem l 0 hn, List.getD_eq_getElem m 0 hn', Nat.mod_eq_of_lt (hl _ (List.getElem_mem hn)),
    Nat.mod_eq_of_lt (hm _ (List.getElem_mem hn'))] at congruent

theorem getD_map_of_zero {f : Nat → Nat} (zero : f 0 = 0) (l : List Nat) (n : Nat) : (l.map f).getD n 0 = f (l.getD n 0) := by
  rw [← List.getD_map l 0 f, zero]

end Sys2Proof.Machine
end

section
/-!
PROOFS. The stages of NTT and INTT (R124 to R126): what each butterfly writes, and that a stage of INTT undoes the stage of NTT with the
same blocks, up to a factor of 2.
-/
namespace Sys2Proof.Machine

/-! ## Bit reversal -/

theorem brv_succ (l k : Nat) : brv (l + 1) k = k % 2 * 2 ^ l + brv l (k / 2) := rfl

theorem brv_zero (l : Nat) : brv l 0 = 0 := by
  induction l with
  | zero => rfl
  | succ l ih => rw [brv_succ, ih, Nat.zero_mod, Nat.zero_mul]

theorem brv_two_mul (l k : Nat) : brv (l + 1) (2 * k) = brv l k := by
  rw [brv_succ, Nat.mul_mod_right, Nat.zero_mul, Nat.zero_add, Nat.mul_div_cancel_left k (by decide)]

theorem brv_two_mul_add_one (l k : Nat) : brv (l + 1) (2 * k + 1) = 2 ^ l + brv l k := by
  rw [brv_succ, show (2 * k + 1) % 2 = 1 by omega, show (2 * k + 1) / 2 = k by omega, Nat.one_mul]

theorem brv_lt (l k : Nat) : brv l k < 2 ^ l := by
  induction l generalizing k with
  | zero => exact Nat.one_pos
  | succ l ih =>
    have rest := ih (k / 2)
    rw [brv_succ, pow_succ]
    rcases Nat.mod_two_eq_zero_or_one k with even | odd
    · rw [even]; omega
    · rw [odd]; omega

/-- The highest of l + 1 bits becomes the lowest. -/
theorem brv_add_high {l u : Nat} (hu : u < 2 ^ l) (c : Nat) : brv (l + 1) (c * 2 ^ l + u) = 2 * brv l u + c % 2 := by
  induction l generalizing u with
  | zero => obtain rfl : u = 0 := by omega
            simp [brv, reflect]
  | succ l ih =>
    rw [pow_succ] at hu
    rw [brv_succ (l + 1), brv_succ l u, pow_succ, ← Nat.mul_assoc c, show (c * 2 ^ l * 2 + u) % 2 = u % 2 by omega,
      show (c * 2 ^ l * 2 + u) / 2 = c * 2 ^ l + u / 2 by omega, ih (by omega)]
    ring

theorem brv_brv {l k : Nat} (hk : k < 2 ^ l) : brv l (brv l k) = k := by
  induction l generalizing k with
  | zero => exact (Nat.lt_one_iff.1 hk).symm
  | succ l ih =>
    rw [brv_succ l k, brv_add_high (brv_lt l _), ih (by omega)]
    omega

/-- The twiddle's exponent of block i among 2^k: the bit of 2^k and the block's own reversed. -/
theorem brv_pow_add {d k i l : Nat} (h : d + k + 1 = l) (hi : i < 2 ^ k) : brv l (2 ^ k + i) = 2 ^ d * (2 * brv k i + 1) := by
  subst h
  induction k generalizing i with
  | zero =>
    obtain rfl : i = 0 := by omega
    rw [brv_succ]
    simp [brv_zero]
  | succ k ih =>
    have low : (2 ^ (k + 1) + i) % 2 = i % 2 ∧ (2 ^ (k + 1) + i) / 2 = 2 ^ k + i / 2 := by rw [pow_succ]; omega
    rw [brv_succ, low.1, low.2, ← Nat.add_assoc, ih (by omega), brv_succ k i]
    ring

/-! ## Blocks of 2t words -/

/-- The first t words of block i, of 2t words. -/
def lowerHalf (t i : Nat) (a : List Nat) : List Nat := ((a.drop (2 * i * t)).take (2 * t)).take t

/-- The last t words of block i. -/
def upperHalf (t i : Nat) (a : List Nat) : List Nat := ((a.drop (2 * i * t)).take (2 * t)).drop t

/-- What a stage of either transform writes over block i: `lo` of each pair of words t apart, then `hi` of each. -/
def blockOut (lo hi : Nat → Nat → Nat) (t i : Nat) (a : List Nat) : List Nat :=
  List.zipWith lo (lowerHalf t i a) (upperHalf t i a) ++ List.zipWith hi (lowerHalf t i a) (upperHalf t i a)

/-- A stage of either transform: m blocks of 2t words. -/
def blockStage (lo hi : Nat → Nat → Nat → Nat) (m t : Nat) (a : List Nat) : List Nat :=
  ((List.range m).map fun i => blockOut (lo i) (hi i) t i a).flatten

theorem nttStage_eq (q psi logN m t : Nat) (a : List Nat) :
    nttStage q psi logN m t a =
      blockStage (fun i => bflyLo q (psiBrv psi q logN (m + i))) (fun i => bflyHi q (psiBrv psi q logN (m + i))) m t a := rfl

/-- The two words of a butterfly of INTT (R126). -/
def inttLo (q x y : Nat) : Nat := lz q (red q x + red q y)
def inttHi (q w x y : Nat) : Nat := subSel q (red q x) (red q y) * w % q

theorem inttStage_eq (q psi logN m t : Nat) (a : List Nat) :
    inttStage q psi logN m t a = blockStage (fun _ => inttLo q) (fun i => inttHi q (psiInvBrv psi q logN (m + i))) m t a := rfl

theorem length_flatten_blocks {f : Nat → List Nat} {m len : Nat} (h : ∀ i, i < m → (f i).length = len) :
    (((List.range m).map f).flatten).length = m * len := by
  induction m with
  | zero => simp
  | succ m ih =>
    rw [List.range_succ, List.map_append, List.flatten_append, List.length_append, ih fun i hi => h i (by omega), Nat.succ_mul]
    simp [h m (by omega)]

theorem getD_flatten_blocks {f : Nat → List Nat} {m len i j : Nat} (h : ∀ i, i < m → (f i).length = len) (hi : i < m) (hj : j < len) :
    (((List.range m).map f).flatten).getD (i * len + j) 0 = (f i).getD j 0 := by
  induction m with
  | zero => omega
  | succ m ih =>
    have before := length_flatten_blocks (f := f) (m := m) fun i hi => h i (by omega)
    rw [List.range_succ, List.map_append, List.flatten_append]
    rcases Nat.lt_succ_iff_lt_or_eq.1 hi with earlier | rfl
    · rw [List.getD_append _ _ _ _ (by rw [before]; nlinarith), ih (fun i hi => h i (by omega)) earlier]
    · rw [List.getD_append_right _ _ _ _ (by rw [before]; omega), before, Nat.add_sub_cancel_left]
      simp

theorem getD_zipWith {f : Nat → Nat → Nat} {l l' : List Nat} {n : Nat} (h : n < l.length) (h' : n < l'.length) :
    (List.zipWith f l l').getD n 0 = f (l.getD n 0) (l'.getD n 0) := by
  simp [h, h']

theorem exists_of_mem_zipWith {f : Nat → Nat → Nat} {l l' : List Nat} {z : Nat} (h : z ∈ List.zipWith f l l') :
    ∃ x ∈ l, ∃ y ∈ l', z = f x y := by
  rw [← List.map_uncurry_zip_eq_zipWith, List.mem_map] at h
  obtain ⟨⟨x, y⟩, pair, rfl⟩ := h
  exact ⟨x, (List.of_mem_zip pair).1, y, (List.of_mem_zip pair).2, rfl⟩

section
variable {lo hi : Nat → Nat → Nat → Nat} {m t i j : Nat} {a : List Nat}

/-- A place in the row, as a place in one half of one block. -/
theorem exists_block {n : Nat} (hn : n < m * (2 * t)) : ∃ i j, i < m ∧ j < t ∧ (n = i * (2 * t) + j ∨ n = i * (2 * t) + (t + j)) := by
  have pos : 0 < 2 * t := Nat.pos_of_ne_zero fun h => by simp [h] at hn
  have place := Nat.div_add_mod' n (2 * t)
  have within := Nat.mod_lt n pos
  have block := Nat.div_lt_of_lt_mul (Nat.mul_comm m _ ▸ hn)
  by_cases h : n % (2 * t) < t
  · exact ⟨_, _, block, h, .inl place.symm⟩
  · exact ⟨_, n % (2 * t) - t, block, by omega, .inr (by omega)⟩

theorem length_lowerHalf (len : a.length = m * (2 * t)) (hi : i < m) : (lowerHalf t i a).length = t := by
  have within : (i + 1) * (2 * t) ≤ a.length := len ▸ Nat.mul_le_mul_right _ hi
  have place : 2 * i * t = i * (2 * t) := by ring
  simp only [lowerHalf, List.length_take, List.length_drop]
  rw [Nat.succ_mul] at within
  omega

theorem length_upperHalf (len : a.length = m * (2 * t)) (hi : i < m) : (upperHalf t i a).length = t := by
  have within : (i + 1) * (2 * t) ≤ a.length := len ▸ Nat.mul_le_mul_right _ hi
  have place : 2 * i * t = i * (2 * t) := by ring
  simp only [upperHalf, List.length_take, List.length_drop]
  rw [Nat.succ_mul] at within
  omega

theorem getD_lowerHalf (a : List Nat) (i : Nat) (hj : j < t) : (lowerHalf t i a).getD j 0 = a.getD (i * (2 * t) + j) 0 := by
  simp only [lowerHalf, List.getD_eq_getElem?_getD, List.getElem?_take, List.getElem?_drop, if_pos hj,
    if_pos (show j < 2 * t by omega), show 2 * i * t = i * (2 * t) by ring]

theorem getD_upperHalf (a : List Nat) (i : Nat) (hj : j < t) : (upperHalf t i a).getD j 0 = a.getD (i * (2 * t) + (t + j)) 0 := by
  simp only [upperHalf, List.getD_eq_getElem?_getD, List.getElem?_take, List.getElem?_drop,
    if_pos (show t + j < 2 * t by omega), show 2 * i * t = i * (2 * t) by ring]

theorem length_blockOut (len : a.length = m * (2 * t)) (hi : i < m) (f g : Nat → Nat → Nat) : (blockOut f g t i a).length = 2 * t := by
  simp [blockOut, length_lowerHalf len hi, length_upperHalf len hi, two_mul]

theorem length_blockStage (len : a.length = m * (2 * t)) : (blockStage lo hi m t a).length = m * (2 * t) :=
  length_flatten_blocks fun _ hi => length_blockOut len hi _ _

theorem getD_blockStage_lower (len : a.length = m * (2 * t)) (him : i < m) (hj : j < t) :
    (blockStage lo hi m t a).getD (i * (2 * t) + j) 0 = lo i (a.getD (i * (2 * t) + j) 0) (a.getD (i * (2 * t) + (t + j)) 0) := by
  have lower := length_lowerHalf len him
  have upper := length_upperHalf len him
  rw [blockStage, getD_flatten_blocks (fun _ hi => length_blockOut len hi _ _) him (by omega), blockOut,
    List.getD_append _ _ _ _ (by simp [lower, upper, hj]), getD_zipWith (by omega) (by omega), getD_lowerHalf a i hj,
    getD_upperHalf a i hj]

theorem getD_blockStage_upper (len : a.length = m * (2 * t)) (him : i < m) (hj : j < t) :
    (blockStage lo hi m t a).getD (i * (2 * t) + (t + j)) 0 = hi i (a.getD (i * (2 * t) + j) 0) (a.getD (i * (2 * t) + (t + j)) 0) := by
  have lower := length_lowerHalf len him
  have upper := length_upperHalf len him
  have written : (List.zipWith (lo i) (lowerHalf t i a) (upperHalf t i a)).length = t := by simp [lower, upper]
  rw [blockStage, getD_flatten_blocks (fun _ hi => length_blockOut len hi _ _) him (by omega), blockOut,
    List.getD_append_right _ _ _ _ (by omega), written, Nat.add_sub_cancel_left, getD_zipWith (by omega) (by omega),
    getD_lowerHalf a i hj, getD_upperHalf a i hj]

/-- Whatever both butterflies make of words of the row holds of every word of the stage's output. -/
theorem forall_mem_blockStage {P : Nat → Prop} (h : ∀ i, ∀ x ∈ a, ∀ y ∈ a, P (lo i x y) ∧ P (hi i x y)) :
    ∀ z ∈ blockStage lo hi m t a, P z := by
  intro z hz
  obtain ⟨out, hout, hz⟩ := List.mem_flatten.1 hz
  obtain ⟨i, -, rfl⟩ := List.mem_map.1 hout
  have lower : ∀ x ∈ lowerHalf t i a, x ∈ a := fun x hx => List.mem_of_mem_drop (List.mem_of_mem_take (List.mem_of_mem_take hx))
  have upper : ∀ x ∈ upperHalf t i a, x ∈ a := fun x hx => List.mem_of_mem_drop (List.mem_of_mem_take (List.mem_of_mem_drop hx))
  rcases List.mem_append.1 hz with hz | hz
  · obtain ⟨x, hx, y, hy, rfl⟩ := exists_of_mem_zipWith hz
    exact (h i x (lower x hx) y (upper y hy)).1
  · obtain ⟨x, hx, y, hy, rfl⟩ := exists_of_mem_zipWith hz
    exact (h i x (lower x hx) y (upper y hy)).2

end

/-! ## What a stage writes, as residues -/

/-- The residue of word n of a row. -/
def residue (q : Nat) (a : List Nat) (n : Nat) : ZMod q := (a.getD n 0 : Nat)

/-- The words of a row all lie below 2q: the range that the engines accept (R125). -/
def LazyRow (q : Nat) (a : List Nat) : Prop := ∀ x ∈ a, x < 2 * q

section
variable {q psi logN m t i j : Nat} {a : List Nat}

theorem LazyRow.getD (hq : 0 < q) (ha : LazyRow q a) (n : Nat) : a.getD n 0 < 2 * q :=
  getD_of_forall_mem (P := (· < 2 * q)) (by omega) ha n

theorem bfly_below (hq0 : 0 < q) {x : Nat} (hx : x < 2 * q) (w y : Nat) :
    red q x + w * y % q < 2 * q ∧ red q x + q - w * y % q < 2 * q ∧ w * y % q ≤ red q x + q := by
  have := red_lt hx
  have := Nat.mod_lt (w * y) hq0
  rcases Nat.eq_zero_or_pos (w * y % q) with h | h <;> omega

theorem bflyLo_cast (hq0 : 0 < q) (hq : q < 2 ^ 32) {x : Nat} (hx : x < 2 * q) (w y : Nat) :
    ((bflyLo q w x y : Nat) : ZMod q) = x + w * y := by
  rw [bflyLo, lz_cast hq (bfly_below hq0 hx w y).1, Nat.cast_add, red_cast, ZMod.natCast_mod, Nat.cast_mul]

theorem bflyHi_cast (hq0 : 0 < q) (hq : q < 2 ^ 32) {x : Nat} (hx : x < 2 * q) (w y : Nat) :
    ((bflyHi q w x y : Nat) : ZMod q) = x - w * y := by
  obtain ⟨-, below, le⟩ := bfly_below hq0 hx w y
  rw [bflyHi, lz_cast hq below, Nat.cast_sub le, Nat.cast_add, red_cast, ZMod.natCast_self, add_zero, ZMod.natCast_mod, Nat.cast_mul]

theorem length_nttStage (len : a.length = m * (2 * t)) : (nttStage q psi logN m t a).length = m * (2 * t) := by
  rw [nttStage_eq]
  exact length_blockStage len

theorem nttStage_lt (hq0 : 0 < q) (hq : q < 2 ^ 32) (ha : LazyRow q a) : ∀ z ∈ nttStage q psi logN m t a, z < lazyEnd q := by
  rw [nttStage_eq]
  refine forall_mem_blockStage fun i x hx y _ => ?_
  obtain ⟨lo, hi, -⟩ := bfly_below hq0 (ha x hx) (psiBrv psi q logN (m + i)) y
  exact ⟨lz_lt hq lo, lz_lt hq hi⟩

/-- A butterfly of NTT on the residues: x + w·y and x − w·y, where w is the block's power of ψ. -/
theorem residue_nttStage (hq0 : 0 < q) (hq : q < 2 ^ 32) (len : a.length = m * (2 * t)) (ha : LazyRow q a) (hi : i < m) (hj : j < t) :
    residue q (nttStage q psi logN m t a) (i * (2 * t) + j) =
        residue q a (i * (2 * t) + j) + psi ^ brv logN (m + i) * residue q a (i * (2 * t) + (t + j)) ∧
      residue q (nttStage q psi logN m t a) (i * (2 * t) + (t + j)) =
        residue q a (i * (2 * t) + j) - psi ^ brv logN (m + i) * residue q a (i * (2 * t) + (t + j)) := by
  have below := ha.getD hq0 (i * (2 * t) + j)
  unfold residue
  rw [nttStage_eq, getD_blockStage_lower len hi hj, getD_blockStage_upper len hi hj, bflyLo_cast hq0 hq below,
    bflyHi_cast hq0 hq below, psiBrv, powMod_cast]
  exact ⟨rfl, rfl⟩

theorem length_inttStage (len : a.length = m * (2 * t)) : (inttStage q psi logN m t a).length = m * (2 * t) := by
  rw [inttStage_eq]
  exact length_blockStage len

theorem inttStage_lazy (hq0 : 0 < q) (hq : q < 2 ^ 32) (ha : LazyRow q a) : LazyRow q (inttStage q psi logN m t a) := by
  unfold LazyRow
  rw [inttStage_eq]
  refine forall_mem_blockStage fun i x hx y hy => ?_
  have hx := red_lt (ha x hx)
  have hy := red_lt (ha y hy)
  have product := Nat.mod_lt (subSel q (red q x) (red q y) * psiInvBrv psi q logN (m + i)) hq0
  exact ⟨(lz_lt hq (by omega)).trans_le (lazyEnd_le q), product.trans (by omega)⟩

/-- A butterfly of INTT on the residues: x + y and (x − y)·w, where w is the block's power of the inverse of ψ. -/
theorem residue_inttStage (hq0 : 0 < q) (hq : q < 2 ^ 32) (len : a.length = m * (2 * t)) (ha : LazyRow q a) (hi : i < m) (hj : j < t) :
    residue q (inttStage q psi logN m t a) (i * (2 * t) + j) = residue q a (i * (2 * t) + j) + residue q a (i * (2 * t) + (t + j)) ∧
      residue q (inttStage q psi logN m t a) (i * (2 * t) + (t + j)) =
        (residue q a (i * (2 * t) + j) - residue q a (i * (2 * t) + (t + j))) * (invMod psi q : Nat) ^ brv logN (m + i) := by
  have hx := red_lt (ha.getD hq0 (i * (2 * t) + j))
  have hy := red_lt (ha.getD hq0 (i * (2 * t) + (t + j)))
  unfold residue
  rw [inttStage_eq, getD_blockStage_lower len hi hj, getD_blockStage_upper len hi hj, inttLo, lz_cast hq (by omega), inttHi,
    ZMod.natCast_mod, Nat.cast_mul, subSel_cast hq hy, psiInvBrv, powMod_cast, Nat.cast_add, red_cast, red_cast]
  exact ⟨rfl, rfl⟩

/-- Where a row b holds c times the residues of a stage of NTT on a, the stage of INTT on the same blocks makes of it 2c times the
residues of a. -/
theorem inttStage_undoes_nttStage (hq0 : 0 < q) (hq : q < 2 ^ 32) (inv : (psi : ZMod q) * (invMod psi q : Nat) = 1)
    (len : a.length = m * (2 * t)) (ha : LazyRow q a) {b : List Nat} (lenb : b.length = m * (2 * t)) (hb : LazyRow q b) {c : ZMod q}
    (h : ∀ n, n < m * (2 * t) → residue q b n = c * residue q (nttStage q psi logN m t a) n) {n : Nat} (hn : n < m * (2 * t)) :
    residue q (inttStage q psi logN m t b) n = 2 * c * residue q a n := by
  obtain ⟨i, j, hi, hj, place⟩ := exists_block hn
  have within : (i + 1) * (2 * t) ≤ m * (2 * t) := Nat.mul_le_mul_right _ hi
  rw [Nat.succ_mul] at within
  have twiddles : (psi : ZMod q) ^ brv logN (m + i) * (invMod psi q : Nat) ^ brv logN (m + i) = 1 := by
    rw [← mul_pow, inv, one_pow]
  obtain ⟨lower, upper⟩ := residue_nttStage (psi := psi) (logN := logN) hq0 hq len ha hi hj
  obtain ⟨lower', upper'⟩ := residue_inttStage (psi := psi) (logN := logN) hq0 hq lenb hb hi hj
  rw [h _ (by omega), h _ (by omega), lower, upper] at lower' upper'
  rcases place with rfl | rfl
  · rw [lower']
    ring
  · rw [upper']
    linear_combination 2 * c * residue q a (i * (2 * t) + (t + j)) * twiddles

end

end Sys2Proof.Machine
end

section
/-!
PROOFS. The rounds of the transforms (R125 to R127). After k stages of NTT, block i holds the row's polynomial modulo X^T − z, where T is
the block's length and z its power of ψ; after all of them, the values at the odd powers of ψ. The rounds of INTT take the stages back.
-/
namespace Sys2Proof.Machine

/-! ## A polynomial modulo X^T − x -/

section
variable {R : Type} [CommRing R]

/-- Coefficient j of the polynomial with coefficients f, of degree below T·2^k, modulo X^T − x. -/
def piece (f : Nat → R) (T k : Nat) (x : R) (j : Nat) : R := ∑ c ∈ Finset.range (2 ^ k), f (j + c * T) * x ^ c

/-- Since X^2T − w² is a multiple of X^T − w, the coefficients modulo the first give those modulo the second. -/
theorem piece_succ (f : Nat → R) (T k : Nat) (w : R) (j : Nat) :
    piece f T (k + 1) w j = piece f (2 * T) k (w ^ 2) j + w * piece f (2 * T) k (w ^ 2) (T + j) := by
  unfold piece
  rw [pow_succ', sum_range_two_mul, Finset.sum_add_distrib, Finset.mul_sum]
  congr 1
  · refine Finset.sum_congr rfl fun c _ => ?_
    rw [show j + 2 * c * T = j + c * (2 * T) by ring, pow_mul]
  · refine Finset.sum_congr rfl fun c _ => ?_
    rw [show j + (2 * c + 1) * T = T + j + c * (2 * T) by ring, pow_succ, pow_mul]
    ring

/-- The z of block i among 2^k blocks of 2^d words, in the block's modulus X^(2^d) − z. -/
def blockPoint (psi : R) (d k i : Nat) : R := psi ^ (2 ^ d * (2 * brv k i + 1))

theorem blockPoint_two_mul (psi : R) (d k i : Nat) : blockPoint psi d (k + 1) (2 * i) = psi ^ (2 ^ d * (2 * brv k i + 1)) := by
  rw [blockPoint, brv_two_mul]

theorem blockPoint_two_mul_add_one {psi : R} {d k : Nat} (root : psi ^ 2 ^ (d + k + 1) = -1) (i : Nat) :
    blockPoint psi d (k + 1) (2 * i + 1) = -psi ^ (2 ^ d * (2 * brv k i + 1)) := by
  rw [blockPoint, brv_two_mul_add_one,
    show 2 ^ d * (2 * (2 ^ k + brv k i) + 1) = 2 ^ (d + k + 1) + 2 ^ d * (2 * brv k i + 1) by ring, pow_add, root, neg_one_mul]

theorem blockPoint_succ (psi : R) (d k i : Nat) : blockPoint psi (d + 1) k i = (psi ^ (2 ^ d * (2 * brv k i + 1))) ^ 2 := by
  rw [blockPoint, ← pow_mul]
  congr 1
  ring

end

/-! ## The rounds of NTT -/

/-- A row after k stages of NTT. -/
def nttPass (q psi logN k : Nat) (a : List Nat) : List Nat :=
  (List.range k).foldl (fun a k => nttStage q psi logN (2 ^ k) (2 ^ logN / 2 ^ (k + 1)) a) a

/-- A row after k stages of INTT. -/
def inttPass (q psi logN k : Nat) (a : List Nat) : List Nat :=
  (List.range k).foldl (fun a k => inttStage q psi logN (2 ^ logN / 2 ^ (k + 1)) (2 ^ k) a) a

section
variable {q psi logN d k : Nat} {a : List Nat}

theorem nttRow_eq (q psi logN : Nat) (keepLazy : Bool) (a : List Nat) :
    nttRow q psi logN keepLazy a = if keepLazy then nttPass q psi logN logN a else (nttPass q psi logN logN a).map (red q) := rfl

theorem inttRow_eq (q psi logN : Nat) (a : List Nat) :
    inttRow q psi logN a = (inttPass q psi logN logN a).map fun x => x * invMod (2 ^ logN) q % q := rfl

theorem rest_div (h : d + k + 1 = logN) : 2 ^ logN / 2 ^ (k + 1) = 2 ^ d := by
  rw [← h, Nat.add_assoc, pow_add, Nat.mul_div_cancel _ (by positivity)]

theorem nttPass_succ (h : d + k + 1 = logN) (a : List Nat) :
    nttPass q psi logN (k + 1) a = nttStage q psi logN (2 ^ k) (2 ^ d) (nttPass q psi logN k a) := by
  rw [nttPass, List.range_succ, List.foldl_append, List.foldl_cons, List.foldl_nil, rest_div h]
  rfl

theorem inttPass_succ (h : d + k + 1 = logN) (a : List Nat) :
    inttPass q psi logN (k + 1) a = inttStage q psi logN (2 ^ d) (2 ^ k) (inttPass q psi logN k a) := by
  rw [inttPass, List.range_succ, List.foldl_append, List.foldl_cons, List.foldl_nil, rest_div h]
  rfl

theorem blocks_of_row (h : d + k + 1 = logN) : 2 ^ logN = 2 ^ k * (2 * 2 ^ d) := by
  rw [← h]
  ring

theorem length_nttPass (len : a.length = 2 ^ logN) (h : d + k = logN) : (nttPass q psi logN k a).length = 2 ^ logN := by
  induction k generalizing d with
  | zero => exact len
  | succ k ih =>
    rw [nttPass_succ h, blocks_of_row h]
    exact length_nttStage ((ih (d := d + 1) (by omega)).trans (blocks_of_row h))

theorem nttPass_lazy (hq0 : 0 < q) (hq : q < 2 ^ 32) (ha : LazyRow q a) (h : d + k = logN) : LazyRow q (nttPass q psi logN k a) := by
  induction k generalizing d with
  | zero => exact ha
  | succ k ih =>
    rw [nttPass_succ h]
    exact fun x hx => (nttStage_lt hq0 hq (ih (d := d + 1) (by omega)) x hx).trans_le (lazyEnd_le q)

theorem nttPass_lt (hq0 : 0 < q) (hq : q < 2 ^ 32) (ha : LazyRow q a) (hN : 1 ≤ logN) :
    ∀ x ∈ nttPass q psi logN logN a, x < lazyEnd q := by
  obtain ⟨k, rfl⟩ := Nat.exists_eq_add_of_le' hN
  rw [nttPass_succ (d := 0) (by omega)]
  exact nttStage_lt hq0 hq (nttPass_lazy (d := 1) hq0 hq ha (by omega))

/-- After k stages of NTT, block i holds the row's polynomial modulo X^(2^d) − z. -/
theorem residue_nttPass (hq0 : 0 < q) (hq : q < 2 ^ 32) (root : (psi : ZMod q) ^ 2 ^ logN = -1) (len : a.length = 2 ^ logN) (ha : LazyRow q a)
    (h : d + k = logN) {i j : Nat} (hi : i < 2 ^ k) (hj : j < 2 ^ d) :
    residue q (nttPass q psi logN k a) (i * 2 ^ d + j) = piece (residue q a) (2 ^ d) k (blockPoint psi d k i) j := by
  induction k generalizing d i j with
  | zero =>
    obtain rfl : i = 0 := by omega
    simp [piece, nttPass]
  | succ k ih =>
    have h' : d + 1 + k = logN := by omega
    have lazy := nttPass_lazy (psi := psi) hq0 hq ha h'
    have blocks := (length_nttPass (q := q) (psi := psi) len h').trans (blocks_of_row h)
    obtain ⟨p, child⟩ := Nat.even_or_odd' i
    have hp : p < 2 ^ k := by omega
    have words {j} := ih (i := p) (j := j) h' hp
    rw [pow_succ', blockPoint_succ] at words
    obtain ⟨lower, upper⟩ := residue_nttStage (psi := psi) (logN := logN) hq0 hq blocks lazy hp hj
    rw [← nttPass_succ h, words (by omega), words (by omega), brv_pow_add h hp] at lower upper
    rcases child with rfl | rfl
    · rw [show 2 * p * 2 ^ d = p * (2 * 2 ^ d) by ring, lower, piece_succ, blockPoint_two_mul]
    · rw [show (2 * p + 1) * 2 ^ d + j = p * (2 * 2 ^ d) + (2 ^ d + j) by ring, upper, piece_succ,
        blockPoint_two_mul_add_one (by rw [Nat.add_assoc, h, root]), neg_sq, neg_mul, ← sub_eq_add_neg]

/-- Taken from a row that holds the residues of NTT, k stages of INTT leave 2^k times what NTT held k stages before its end. -/
theorem inttPass_spec (hq0 : 0 < q) (hq : q < 2 ^ 32) (inv : (psi : ZMod q) * (invMod psi q : Nat) = 1) (len : a.length = 2 ^ logN)
    (ha : LazyRow q a) {b : List Nat} (lenb : b.length = 2 ^ logN) (hb : LazyRow q b)
    (same : ∀ n, n < 2 ^ logN → residue q b n = residue q (nttPass q psi logN logN a) n) (h : d + k = logN) :
    (inttPass q psi logN k b).length = 2 ^ logN ∧ LazyRow q (inttPass q psi logN k b) ∧
      ∀ n, n < 2 ^ logN → residue q (inttPass q psi logN k b) n = 2 ^ k * residue q (nttPass q psi logN d a) n := by
  induction k generalizing d with
  | zero =>
    obtain rfl : d = logN := h
    refine ⟨lenb, hb, fun n hn => ?_⟩
    rw [pow_zero, one_mul]
    exact same n hn
  | succ k ih =>
    obtain ⟨length, lazy, words⟩ := ih (d := d + 1) (by omega)
    have rest : k + d + 1 = logN := by omega
    have blocks := blocks_of_row rest
    have rest' : k + 1 + d = logN := by omega
    rw [inttPass_succ h]
    rw [nttPass_succ rest, blocks] at words
    rw [blocks] at length ⊢
    refine ⟨length_inttStage length, inttStage_lazy hq0 hq lazy, fun n hn => ?_⟩
    rw [inttStage_undoes_nttStage hq0 hq inv ((length_nttPass len rest').trans blocks) (nttPass_lazy hq0 hq ha rest') length lazy words
      hn, pow_succ']

end

/-! ## The rows -/

section
variable {q psi logN : Nat} {keepLazy : Bool} {a : List Nat}

theorem length_nttRow (len : a.length = 2 ^ logN) : (nttRow q psi logN keepLazy a).length = 2 ^ logN := by
  have := length_nttPass (q := q) (psi := psi) len (Nat.zero_add logN)
  rw [nttRow_eq]
  split
  · exact this
  · rwa [List.length_map]

theorem nttRow_lt (hq0 : 0 < q) (hq : q < 2 ^ 32) (hN : 1 ≤ logN) (ha : LazyRow q a) :
    ∀ x ∈ nttRow q psi logN keepLazy a, x < if keepLazy ∧ q < 2 ^ 31 then 2 * q else q := by
  have below := nttPass_lt (psi := psi) hq0 hq ha hN
  rw [nttRow_eq]
  cases keepLazy with
  | true => simpa [lazyEnd] using below
  | false =>
    simp only [Bool.false_eq_true, if_false, false_and, List.forall_mem_map]
    exact fun x hx => red_lt ((below x hx).trans_le (lazyEnd_le q))

theorem nttRow_lazy (hq0 : 0 < q) (hq : q < 2 ^ 32) (hN : 1 ≤ logN) (ha : LazyRow q a) : LazyRow q (nttRow q psi logN keepLazy a) := by
  intro x hx
  have := nttRow_lt hq0 hq hN ha x hx
  split at this <;> omega

/-- The last reduction, which LAZY leaves out, does not change residues. -/
theorem residue_nttRow_eq (n : Nat) : residue q (nttRow q psi logN keepLazy a) n = residue q (nttPass q psi logN logN a) n := by
  rw [nttRow_eq]
  split
  · rfl
  · rw [residue, getD_map_of_zero (red_zero q), red_cast, residue]

/-- R127: word i of NTT is the value at an odd power of ψ. -/
theorem residue_nttRow (hq0 : 0 < q) (hq : q < 2 ^ 32) (root : (psi : ZMod q) ^ 2 ^ logN = -1) (len : a.length = 2 ^ logN) (ha : LazyRow q a)
    {i : Nat} (hi : i < 2 ^ logN) :
    residue q (nttRow q psi logN keepLazy a) i =
      ∑ j ∈ Finset.range (2 ^ logN), residue q a j * (psi : ZMod q) ^ ((2 * brv logN i + 1) * j) := by
  have value := residue_nttPass hq0 hq root len ha (Nat.zero_add logN) hi Nat.one_pos
  rw [residue_nttRow_eq]
  simpa [piece, blockPoint, pow_mul] using value

/-- R127: INTT takes any row that holds NTT's residues back to the input, reduced. -/
theorem inttRow_nttRow (hq0 : 0 < q) (hq : q < 2 ^ 32) (hN : 1 ≤ logN) (inv : (psi : ZMod q) * (invMod psi q : Nat) = 1)
    (scale : (2 : ZMod q) ^ logN * (invMod (2 ^ logN) q : Nat) = 1) (len : a.length = 2 ^ logN) (ha : LazyRow q a) :
    inttRow q psi logN (nttRow q psi logN keepLazy a) = a.map (· % q) := by
  obtain ⟨length, -, words⟩ := inttPass_spec hq0 hq inv len ha (length_nttRow len) (nttRow_lazy (keepLazy := keepLazy) hq0 hq hN ha)
    (fun n _ => residue_nttRow_eq n) (Nat.zero_add logN)
  have reduced (l : List Nat) (f : Nat → Nat) : ∀ x ∈ l.map (f · % q), x < q := by simpa using fun x _ => Nat.mod_lt (f x) hq0
  rw [inttRow_eq]
  refine eq_of_reduced_of_cast_eq (by simp [length, len]) (reduced _ _) (reduced a id) fun n hn => ?_
  rw [List.length_map, length] at hn
  have word : ((inttPass q psi logN logN _).getD n 0 : ZMod q) = 2 ^ logN * (a.getD n 0 : Nat) := words n hn
  rw [getD_map_of_zero (by simp), getD_map_of_zero (by simp), ZMod.natCast_mod, Nat.cast_mul, word, ZMod.natCast_mod]
  linear_combination (a.getD n 0 : Nat) * scale

end

end Sys2Proof.Machine
end

section
/-!
PROOFS. Automorphisms and extraction (R130, R131, R133): AUTO sends coefficient j to place j·g modulo N with its sign, which permutes the
places; on NTT's values that is a permutation of the odd powers of ψ. EXTRACT keeps a coefficient of the phase.
-/
namespace Sys2Proof.Machine

/-! ## A row filled place by place -/

section
variable {p v : Nat → Nat} {n k : Nat}

/-- Word v(j) set at place p(j), for each j below k, in a row of n zeros. -/
def scatter (p v : Nat → Nat) (n k : Nat) : List Nat :=
  (List.range k).foldl (fun b j => b.set (p j) (v j)) (List.replicate n 0)

theorem scatter_succ (p v : Nat → Nat) (n k : Nat) : scatter p v n (k + 1) = (scatter p v n k).set (p k) (v k) := by
  rw [scatter, List.range_succ, List.foldl_append]
  rfl

theorem length_scatter (p v : Nat → Nat) (n k : Nat) : (scatter p v n k).length = n := by
  induction k with
  | zero => exact List.length_replicate
  | succ k ih => rw [scatter_succ, List.length_set, ih]

theorem forall_mem_scatter {P : Nat → Prop} (zero : P 0) (h : ∀ j, P (v j)) : ∀ x ∈ scatter p v n k, P x := by
  induction k with
  | zero => exact fun x hx => (List.eq_of_mem_replicate hx).symm ▸ zero
  | succ k ih =>
    rw [scatter_succ]
    intro x hx
    rcases List.mem_or_eq_of_mem_set hx with old | rfl
    · exact ih x old
    · exact h k

/-- No later word is set at the place of word j when the places differ. -/
theorem getD_scatter (places : ∀ j, j < k → p j < n) (distinct : Set.InjOn p (Set.Iio k)) {j : Nat} (hj : j < k) :
    (scatter p v n k).getD (p j) 0 = v j := by
  induction k with
  | zero => omega
  | succ k ih =>
    rw [scatter_succ]
    rcases Nat.lt_succ_iff_lt_or_eq.1 hj with earlier | rfl
    · have other : p k ≠ p j := fun h => earlier.ne' (distinct (Set.mem_Iio.2 k.lt_succ_self) (Set.mem_Iio.2 hj) h)
      rw [List.getD_eq_getElem?_getD, List.getElem?_set_ne other, ← List.getD_eq_getElem?_getD]
      exact ih (fun j h => places j (by omega)) (distinct.mono (Set.Iio_subset_Iio k.le_succ)) earlier
    · simp [length_scatter, places j hj]

end

/-! ## AUTO in coefficient form (R130) -/

/-- The word that AUTO writes for coefficient j: reduced, and negated where j·g mod 2N passes N. -/
def autoWord (q g : Nat) (a : List Nat) (j : Nat) : Nat :=
  if j * g % (2 * a.length) < a.length then red q (a.getD j 0) else negSel q (a.getD j 0)

section
variable {q g n logN j : Nat} {a : List Nat}

theorem place_of_lt (h : j * g % (2 * n) < n) : j * g % n = j * g % (2 * n) := by
  rw [← Nat.mod_mod_of_dvd (j * g) (Nat.dvd_mul_left n 2), Nat.mod_eq_of_lt h]

theorem place_of_le (h : n ≤ j * g % (2 * n)) (hn : 0 < n) : j * g % n = j * g % (2 * n) - n := by
  have below := Nat.mod_lt (j * g) (show 0 < 2 * n by omega)
  rw [← Nat.mod_mod_of_dvd (j * g) (Nat.dvd_mul_left n 2), Nat.mod_eq_sub_mod h, Nat.mod_eq_of_lt (by omega)]

theorem autoCoeff_eq (hn : 0 < a.length) : autoCoeff q g a = scatter (fun j => j * g % a.length) (autoWord q g a) a.length a.length := by
  refine List.foldl_ext _ _ _ fun b j _ => ?_
  dsimp only [autoWord]
  split
  case isTrue h => rw [place_of_lt h]
  case isFalse h => rw [place_of_le (not_lt.1 h) hn]

/-- An odd g permutes the places of a row of 2^logN words. -/
theorem places_injOn (hg : g % 2 = 1) : Set.InjOn (fun j => j * g % 2 ^ logN) (Set.Iio (2 ^ logN)) := by
  intro j hj j' hj' h
  have coprime : (2 ^ logN).gcd g = 1 := (Nat.coprime_two_left.2 (Nat.odd_iff.2 hg)).pow_left logN
  exact (Nat.ModEq.cancel_right_of_coprime coprime h).eq_of_lt_of_lt hj hj'

theorem image_places (hg : g % 2 = 1) :
    (Finset.range (2 ^ logN)).image (fun j => j * g % 2 ^ logN) = Finset.range (2 ^ logN) := by
  refine Finset.eq_of_subset_of_card_le ?_ ?_
  · intro e he
    obtain ⟨j, -, rfl⟩ := Finset.mem_image.1 he
    exact Finset.mem_range.2 (Nat.mod_lt _ (by positivity))
  · rw [Finset.card_image_of_injOn (by simpa using places_injOn hg)]

theorem length_autoCoeff (len : a.length = 2 ^ logN) : (autoCoeff q g a).length = 2 ^ logN := by
  rw [autoCoeff_eq (len ▸ by positivity), length_scatter, len]

theorem getD_autoCoeff (hg : g % 2 = 1) (len : a.length = 2 ^ logN) (hj : j < 2 ^ logN) :
    (autoCoeff q g a).getD (j * g % 2 ^ logN) 0 = autoWord q g a j := by
  rw [autoCoeff_eq (len ▸ by positivity), len]
  exact getD_scatter (p := fun j => j * g % 2 ^ logN) (fun j _ => Nat.mod_lt _ (by positivity)) (places_injOn hg) hj

theorem autoWord_lt (hq0 : 0 < q) (hq : q ≤ 2 ^ 32) (ha : LazyRow q a) (j : Nat) : autoWord q g a j < q := by
  have below := ha.getD hq0 j
  unfold autoWord
  split
  · exact red_lt below
  · exact negSel_lt hq below

theorem autoCoeff_lt (hq0 : 0 < q) (hq : q ≤ 2 ^ 32) (len : a.length = 2 ^ logN) (ha : LazyRow q a) : ∀ x ∈ autoCoeff q g a, x < q := by
  rw [autoCoeff_eq (len ▸ by positivity)]
  exact forall_mem_scatter hq0 (autoWord_lt hq0 hq ha)

/-! ## AUTO on the values of a polynomial -/

/-- Where y^N = −1, the word that AUTO writes for coefficient j weighs at its place what a_j weighs at j·g. -/
theorem autoWord_mul_pow (hq0 : 0 < q) (hq : q ≤ 2 ^ 32) (len : a.length = n) (hn : 0 < n)
    (ha : LazyRow q a) {y : ZMod q} (root : y ^ n = -1) :
    (autoWord q g a j : Nat) * y ^ (j * g % n) = residue q a j * y ^ (j * g) := by
  have below := ha.getD hq0 j
  have order : y ^ (2 * n) = 1 := by rw [mul_comm, pow_mul, root, neg_one_sq]
  rw [pow_eq_pow_mod (j * g) order, autoWord, len]
  split
  case isTrue h => rw [red_cast, place_of_lt h, residue]
  case isFalse h =>
    have wrapped : j * g % (2 * n) = j * g % (2 * n) - n + n := by omega
    rw [negSel_cast hq below, place_of_le (by omega) hn, residue]
    nth_rw 2 [wrapped]
    rw [pow_add, root]
    ring

/-- The value of AUTO's output at y is the value of its input at y^g. -/
theorem value_autoCoeff (hq0 : 0 < q) (hq : q ≤ 2 ^ 32) (hg : g % 2 = 1) (len : a.length = 2 ^ logN) (ha : LazyRow q a)
    {y : ZMod q} (root : y ^ 2 ^ logN = -1) :
    ∑ e ∈ Finset.range (2 ^ logN), residue q (autoCoeff q g a) e * y ^ e =
      ∑ j ∈ Finset.range (2 ^ logN), residue q a j * y ^ (j * g) := by
  conv_lhs => rw [← image_places hg]
  rw [Finset.sum_image (by simpa using places_injOn hg)]
  refine Finset.sum_congr rfl fun j hj => ?_
  rw [residue, getD_autoCoeff hg len (Finset.mem_range.1 hj), autoWord_mul_pow hq0 hq len (by positivity) ha root]

/-! ## AUTO in evaluation form (R131) -/

theorem autoPi_lt (logN g i : Nat) : autoPi logN g i < 2 ^ logN := brv_lt _ _

/-- Place π(i) holds the value at the power g·(2·brv(i) + 1) of ψ. -/
theorem autoPi_point (hg : g % 2 = 1) (logN i : Nat) : 2 * brv logN (autoPi logN g i) + 1 = g * (2 * brv logN i + 1) % 2 ^ (logN + 1) := by
  have odd : g * (2 * brv logN i + 1) % 2 = 1 := by rw [Nat.mul_mod, hg]; omega
  have below := Nat.mod_lt (g * (2 * brv logN i + 1)) (show 0 < 2 ^ (logN + 1) by positivity)
  have odd' := Nat.mod_mod_of_dvd (g * (2 * brv logN i + 1)) (Dvd.intro_left (2 ^ logN) (pow_succ 2 logN).symm)
  rw [pow_succ] at below odd' ⊢
  rw [autoPi, brv_brv (by rw [pow_succ]; omega), pow_succ]
  omega

theorem getD_autoEval {i : Nat} (hi : i < a.length) : (autoEval logN g a).getD i 0 = a.getD (autoPi logN g i) 0 := by
  simp [autoEval, hi]

end

/-- R131: AUTO in evaluation form is AUTO in coefficient form seen through NTT. -/
theorem autoEval_nttRow {q psi logN g : Nat} {a : List Nat} (hq0 : 0 < q) (hq : q < 2 ^ 32) (hN : 1 ≤ logN) (hg : g % 2 = 1)
    (root : (psi : ZMod q) ^ 2 ^ logN = -1) (len : a.length = 2 ^ logN) (ha : LazyRow q a) :
    autoEval logN g (nttRow q psi logN false a) = nttRow q psi logN false (autoCoeff q g a) := by
  have lazy : LazyRow q (autoCoeff q g a) := fun x hx => (autoCoeff_lt hq0 hq.le len ha x hx).trans (by omega)
  have reduced {c : List Nat} (hc : LazyRow q c) : ∀ x ∈ nttRow q psi logN false c, x < q := by
    simpa using nttRow_lt (psi := psi) (keepLazy := false) hq0 hq hN hc
  have length := length_nttRow (q := q) (psi := psi) (keepLazy := false) len
  have length' := length_nttRow (q := q) (psi := psi) (keepLazy := false) (length_autoCoeff (q := q) (g := g) len)
  have order : (psi : ZMod q) ^ 2 ^ (logN + 1) = 1 := by rw [pow_succ, pow_mul, root, neg_one_sq]
  refine eq_of_reduced_of_cast_eq (by simp [autoEval, length, length']) ?_ (reduced lazy) fun i hi => ?_
  · intro x hx
    obtain ⟨i, -, rfl⟩ := List.mem_map.1 hx
    exact getD_of_forall_mem (P := (· < q)) hq0 (reduced ha) _
  · have hi : i < 2 ^ logN := by simpa [autoEval, length] using hi
    have rootI : ((psi : ZMod q) ^ (2 * brv logN i + 1)) ^ 2 ^ logN = -1 := by
      rw [pow_right_comm, root, Odd.neg_one_pow (odd_two_mul_add_one _)]
    rw [getD_autoEval (by omega)]
    calc residue q (nttRow q psi logN false a) (autoPi logN g i)
        = ∑ j ∈ Finset.range (2 ^ logN), residue q a j * ((psi : ZMod q) ^ (2 * brv logN i + 1)) ^ (j * g) := by
          rw [residue_nttRow hq0 hq root len ha (autoPi_lt logN g i), autoPi_point hg]
          refine Finset.sum_congr rfl fun j _ => ?_
          rw [pow_mul, ← pow_eq_pow_mod _ order, ← pow_mul, ← pow_mul]
          congr 2
          ring
      _ = residue q (nttRow q psi logN false (autoCoeff q g a)) i := by
          rw [← value_autoCoeff hq0 hq.le hg len ha rootI, residue_nttRow hq0 hq root (length_autoCoeff len) lazy hi]
          simp only [pow_mul]

/-! ## EXTRACT (R133) -/

section
variable {q k j : Nat} {a0 a1 : List Nat}

theorem length_extractLwe (q k : Nat) (a0 a1 : List Nat) : (extractLwe q k a0 a1).length = a1.length + 1 := by
  simp [extractLwe]

theorem getD_extractLwe_body (q k : Nat) (a0 a1 : List Nat) : (extractLwe q k a0 a1).getD a1.length 0 = red q (a0.getD k 0) := by
  simp [extractLwe]

theorem getD_extractLwe_mask (hj : j < a1.length) :
    (extractLwe q k a0 a1).getD j 0 = if j ≤ k then red q (a1.getD (k - j) 0) else negSel q (a1.getD (a1.length + k - j) 0) := by
  simp [extractLwe, List.getElem?_append, hj]

/-- Mask word j has the sign of the wrap at X^N = −1. -/
theorem extractLwe_mask_cast (hq0 : 0 < q) (hq : q ≤ 2 ^ 32) (ha : LazyRow q a1) (hj : j < a1.length) :
    (((extractLwe q k a0 a1).getD j 0 : Nat) : ZMod q) = if j ≤ k then residue q a1 (k - j) else -residue q a1 (a1.length + k - j) := by
  rw [getD_extractLwe_mask hj]
  split
  · exact red_cast q _
  · exact negSel_cast hq (ha.getD hq0 _)

end

/-- EXTRACT keeps coefficient k of the phase c0 + c1·s modulo q and X^N + 1. -/
theorem extractLwe_phase {q k : Nat} {a0 a1 sk : List Nat} (hq0 : 0 < q) (hq : q ≤ 2 ^ 32) (ha : LazyRow q a1) :
    (((extractLwe q k a0 a1).getD a1.length 0 : Int) +
        ((List.range a1.length).map fun j => ((extractLwe q k a0 a1).getD j 0 : Int) * sk.getD j 0).foldl (· + ·) 0) % q =
      ((a0.getD k 0 : Int) + ((List.range a1.length).map fun j => if j ≤ k then (a1.getD (k - j) 0 : Int) * sk.getD j 0
        else -((a1.getD (a1.length + k - j) 0 : Int) * sk.getD j 0)).foldl (· + ·) 0) % q := by
  refine (ZMod.intCast_eq_intCast_iff' _ _ q).1 ?_
  rw [foldl_add_range, foldl_add_range]
  push_cast
  rw [getD_extractLwe_body, red_cast]
  congr 1
  refine Finset.sum_congr rfl fun j hj => ?_
  rw [extractLwe_mask_cast hq0 hq ha (Finset.mem_range.1 hj)]
  split
  · rw [residue]
  · rw [residue, neg_mul]

/-! ## The obligations -/

/-- Settles O43: AUTO writes each word at a place of its own, since g is prime to 2N, and EXTRACT's mask words are the coefficients of c1
with the sign of the wrap. -/
theorem automorphismAndExtract : Obligations.AutomorphismAndExtract := by
  unfold Obligations.AutomorphismAndExtract
  refine ⟨fun q g logN a hq0 hq hg len ha => ⟨length_autoCoeff len, autoCoeff_lt hq0 hq len ha,
      fun j hj => ⟨fun h => ?_, fun h => ?_⟩⟩,
    fun q k a0 a1 sk hq0 hq _ _ _ _ ha => ⟨length_extractLwe q k a0 a1, extractLwe_phase hq0 hq ha⟩⟩
  · rw [← place_of_lt h, getD_autoCoeff hg len hj, autoWord, len, if_pos h, red]
  · rw [← place_of_le h (by positivity), getD_autoCoeff hg len hj, autoWord, len, if_neg (not_lt.2 h),
      negSel_eq hq (LazyRow.getD hq0 ha j), red]

/-- Settles O44: NTT's stages split X^N + 1 = X^N − ψ^N into its linear factors, INTT takes them back one by one, and AUTO permutes the
factors. -/
theorem transformsEvaluateAndInvert : Obligations.TransformsEvaluateAndInvert := by
  unfold Obligations.TransformsEvaluateAndInvert
  intro q psi logN g keepLazy a hq1 hq hN len range hpsi
  have hq0 : 0 < q := by omega
  have ha : LazyRow q a := fun x hx => (range x hx).1
  have root := pow_cast_eq_neg_one hq1 hpsi
  refine ⟨length_nttRow len, nttRow_lt hq0 hq hN ha, fun i hi => ?_, fun inv scale => ?_,
    fun hg => autoEval_nttRow hq0 hq hN hg root len ha⟩
  · refine (ZMod.natCast_eq_natCast_iff' _ _ q).1 ?_
    rw [total_range]
    push_cast
    exact residue_nttRow hq0 hq root len ha hi
  · have scale := mul_cast_eq_one scale
    push_cast at scale
    exact inttRow_nttRow hq0 hq hN (mul_cast_eq_one inv) scale len ha

end Sys2Proof.Machine
end

section
/-!
PROOFS. The fuses (15_trust, R494; Tables SE.5 and SE.6): which command blows them, what SVN_COMMIT blows, and which command a GO
through MBX_CTRL is.
-/
namespace Sys2Proof.Machine

/-! ## A GO through the mailbox -/

/-- A latch already cleared changes nothing for a command of the mailbox. -/
theorem State.mailbox_unlatch (q : Requester) (cmd : Nat) (run : State → State) (s : State) :
    s.unlatch.mailbox q cmd run = s.mailbox q cmd run := rfl

/-- A GO of the host with the right length, while the mailbox is free and the module not FATAL, runs its command. -/
theorem State.mailbox_runs {cmd : Nat} {s : State} (run : State → State) (served : s.mbxServes = true) (running : s.errs.fatal = false)
    (free : s.mbx.busy = false) (len : mailboxLen cmd = some s.mbx.len) :
    s.mailbox .mainband cmd run = run { s.unlatch with mbx := { s.mbx with cmd := cmd % 256 } } := by
  have served' : s.unlatch.mbxServes = true := served
  have window : s.unlatch.windowOpen .mainband 0x060000 = true := rfl
  simp [State.mailbox, served', window, running, free, len]

/-- The commands of Table SE.6 apart from SVN_COMMIT, by their codes. -/
theorem State.mailboxGo_command {cmd : Nat} {c : Instr} (s : State) (h : (cmd, c) ∈ [(1, Instr.ownerChange .mainband),
      (2, .debugNonce .mainband), (3, .debugUnlock .mainband), (5, .identity .mainband)]) :
    .next (s.unlatch.mailboxGo .mainband cmd) = exec c s := by
  simp only [List.mem_cons, Prod.mk.injEq, List.not_mem_nil, or_false] at h
  obtain ⟨rfl, rfl⟩ | ⟨rfl, rfl⟩ | ⟨rfl, rfl⟩ | ⟨rfl, rfl⟩ := h <;> rfl

/-- A GO of SVN_COMMIT takes a free value, whose low bit says whether every fuse blows (log 5). -/
theorem State.mailboxGo_svnCommit (s : State) : .next (s.unlatch.mailboxGo .mainband 4) =
    exec (.svnCommit .mainband ((Config.freeWord s.freeCount).toNat % 2 == 1)) { s with freeCount := s.freeCount + 1 } := rfl

/-- A code outside Table SE.6 is BAD_CMD. -/
theorem State.mailboxGo_unknown {cmd : Nat} (q : Requester) (s : State) (h : mailboxLen cmd = none) :
    s.mailboxGo q cmd = s.mailbox q cmd (State.mbxResult 1) := by
  unfold State.mailboxGo
  split
  case h_6 => rfl
  all_goals cases h

theorem exec_mailboxBadCmd {q : Requester} {cmd : Nat} {s : State} (h : mailboxLen cmd = none) :
    exec (.mailboxBadCmd q cmd) s = .next (s.mailbox q cmd (State.mbxResult 1)) := by
  change execMailboxBadCmd q cmd s = _
  unfold execMailboxBadCmd
  rw [if_neg (by simp [h])]

theorem State.writeMailbox_go {v : Nat} {s : State} (go : bit v 8 = true) :
    s.writeMailbox .mainband 0x060000 v = s.mailboxGo .mainband (v % 256) := by
  simp [State.writeMailbox, go]

/-- The host's write of MBX_CTRL with GO: the code of the command is the word's low byte. -/
theorem exec_mbxCtrlGo {v : DWord} {s : State} (serves : s.serves .mainband = true) (go : bit v.toNat 8 = true) :
    exec (.regWrite .mainband 0x060000 4 v) s = .next (s.unlatch.mailboxGo .mainband (v.toNat % 256)) := by
  have reaches : s.reaches .mainband 0x060000 = true := by simp [State.reaches, serves, State.windowOpen]
  have word : s.unlatch.writeBar0 .mainband 0x060000 (v.toNat % 2 ^ 32) =
    s.unlatch.writeMailbox .mainband 0x060000 (v.toNat % 2 ^ 32) := rfl
  rw [exec_wordWrite (by decide) rfl reaches, word, State.writeMailbox_go ((bit_word v.toNat).1.trans go),
    Nat.mod_mod_of_dvd _ (by decide)]

/-! ## What SVN_COMMIT blows -/

/-- SVN_COMMIT with no job admitted and every fuse blown. -/
theorem State.runSvnCommit_blown {a b : Image} {s : State} (trusted : s.trust.trusted = some a) (service : s.trust.service = some b)
    (idle : s.jobs = []) : (s.runSvnCommit true).trust = { s.trust with
      svnTrusted := max s.trust.svnTrusted a.svn, svnService := max s.trust.svnService b.svn
      revoked := s.trust.revoked ||| BitVec.ofNat 4 (2 ^ a.keyIndex - 1) } := by
  simp [State.runSvnCommit, State.mbxOut, idle, emptyList, trusted, service]

/-! ## No other write blows a fuse -/

/-- The host's write that starts SVN_COMMIT through MBX_CTRL. -/
def startsSvnCommit (q : Requester) (a v : Nat) : Prop := q = .mainband ∧ a = 0x060000 ∧ bit v 8 = true ∧ v % 256 = 4

/-- What a register write leaves: the latch cleared and no more, an event, the sideband's write or a word written in BAR0. -/
theorem execRegWrite_cases (q : Requester) (a size : Nat) (value : DWord) (s : State) :
    ∃ t, execRegWrite q a size value s = .next t ∧ (t = s.unlatch ∨ t = s.unlatch.discard q a (value.toNat % 2 ^ 32) ∨
      t = s.unlatch.denied a ∨ t = s.unlatch.writeSideband q a (value.toNat % 2 ^ 32) ∨
      (size = 4 ∧ t = s.unlatch.writeBar0 q a (value.toNat % 2 ^ 32))) := by
  unfold execRegWrite
  extract_lets u v
  split
  · split
    next served =>
      simp only [Bool.and_eq_true, beq_iff_eq] at served
      obtain ⟨⟨⟨-, word⟩, -⟩, -⟩ := served
      exact ⟨_, rfl, .inr (.inr (.inr (.inr ⟨word, rfl⟩)))⟩
    · exact ⟨_, rfl, .inl rfl⟩
  · split
    · exact ⟨_, rfl, .inl rfl⟩
    · split
      · exact ⟨_, rfl, .inr (.inl rfl)⟩
      next word =>
        have word : size = 4 := by omega
        split
        · exact ⟨_, rfl, .inr (.inr (.inr (.inl rfl)))⟩
        · split
          · exact ⟨_, rfl, .inr (.inr (.inl rfl))⟩
          · exact ⟨_, rfl, .inr (.inr (.inr (.inr ⟨word, rfl⟩)))⟩

section
variable {F : Part → Bool} [MayAll F] {σ s : State} {q : Requester} {a v cmd : Nat}

/-- Of the mailbox's commands, only SVN_COMMIT needs the fuses. -/
theorem Evolves.mailboxGo_of_ne (hs : Evolves F σ s) (other : cmd ≠ 4) : Evolves F σ (s.mailboxGo q cmd) := by
  unfold State.mailboxGo
  split
  · exact hs.mailbox fun _ h => h.runOwnerChange
  · exact hs.mailbox fun _ h => h.runDebugNonce
  · exact hs.mailbox fun _ h => h.runDebugUnlock
  · exact absurd rfl other
  · exact hs.mailbox fun _ h => h.runIdentity
  · exact hs.mailbox fun _ h => h.mbxResult

theorem Evolves.writeMailbox_of_not_commit (hs : Evolves F σ s) (other : ¬ startsSvnCommit q a v) :
    Evolves F σ (s.writeMailbox q a v) := by
  unfold State.writeMailbox
  split
  · exact hs.discard
  next host =>
    refine Evolves.ite hs.set_mbx ?_
    split
    · split
      next go => exact hs.mailboxGo_of_ne fun commit => other ⟨not_not.1 host, rfl, go, commit⟩
      · exact hs.set_mbx
    · exact hs.set_mbx
    · exact hs
    · exact hs.discard

/-- In BAR0 only the mailbox's registers need the fuses. -/
theorem Evolves.writeBar0_of_mailbox (hs : Evolves F σ s) (mailbox : Evolves F σ (s.writeMailbox q a v)) :
    Evolves F σ (s.writeBar0 q a v) := by
  unfold State.writeBar0
  refine Evolves.ite (Evolves.ite hs.discard hs.holdLow) (Evolves.ite hs.commitHigh (Evolves.ite hs.writeCvus ?_))
  split
  · exact hs.writeMain
  · exact hs.writeMain
  · exact hs.writeRings
  · exact hs.writeTiles
  · exact hs.writeStacks
  · exact hs.writePower
  · exact mailbox
  · exact hs.writeDoorbell
  · exact hs.writeRest

theorem execRegWrite_ran_of_not_commit {size : Nat} {value : DWord} (hs : Evolves F σ s)
    (other : size = 4 → ¬ startsSvnCommit q a value.toNat) : Ran F σ (execRegWrite q a size value s) := by
  obtain ⟨t, ht, left⟩ := execRegWrite_cases q a size value s
  rw [ht]
  refine Ran.next ?_
  have hu : Evolves F σ s.unlatch := hs.unlatch
  obtain rfl | rfl | rfl | rfl | ⟨word, rfl⟩ := left
  · exact hu
  · exact hu.discard
  · exact hu.denied
  · exact hu.writeSideband
  · refine hu.writeBar0_of_mailbox (hu.writeMailbox_of_not_commit ?_)
    rintro ⟨host, ctrl, go, commit⟩
    rw [(bit_word _).1] at go
    rw [Nat.mod_mod_of_dvd _ (by decide)] at commit
    exact other word ⟨host, ctrl, go, commit⟩

end

/-- No footprint but those of SVN_COMMIT and of a register write names the fuses. -/
theorem fuses_not_in_footprint {c : Instr} (notCommit : ∀ q b, c ≠ .svnCommit q b) (notWrite : ∀ q a n v, c ≠ .regWrite q a n v) :
    (footprint c).contains .fuses = false := by
  cases c with
  | svnCommit q b => exact absurd rfl (notCommit q b)
  | regWrite q a n v => exact absurd rfl (notWrite q a n v)
  | _ => rfl

/-- R494's first half: a command that is neither SVN_COMMIT nor the write that starts it leaves the fuses as they are. -/
theorem exec_keeps_fuses {c : Instr} {s t : State} (h : exec c s = .next t) (notCommit : ∀ q b, c ≠ .svnCommit q b)
    (notWrite : ∀ v, c = .regWrite .mainband 0x060000 4 v → ¬ (bit v.toNat 8 = true ∧ v.toNat % 256 = 4)) :
    Part.fuses.same s t := by
  by_cases write : ∃ q a n v, c = .regWrite q a n v
  · obtain ⟨q, a, n, v, rfl⟩ := write
    have : MayAll Part.every.contains := may_every rfl
    refine (execRegWrite_ran_of_not_commit (Evolves.refl Part.every.contains s) ?_ t h).kept .fuses rfl
    rintro rfl ⟨rfl, rfl, go, commit⟩
    exact notWrite v rfl ⟨go, commit⟩
  · push Not at write
    exact (exec_ran c s t h).kept .fuses (fuses_not_in_footprint notCommit write)

/-- A slot once revoked stays revoked. -/
theorem FusesUp.revoked_stays {a b : Trust} (h : FusesUp a b) {k : Nat} (revoked : a.revoked.getLsbD k = true) :
    b.revoked.getLsbD k = true := by
  rw [← h.revoked, BitVec.getLsbD_or, revoked, Bool.true_or]

/-- Settles O7: no command takes a fuse back, only SVN_COMMIT and the write that starts it need one blown (R494), and a GO is the
command its CMD names (Table SE.5). -/
theorem fusesOnlyGoUp : Obligations.FusesOnlyGoUp := by
  unfold Obligations.FusesOnlyGoUp
  refine ⟨fun c s t h => ?_, fun s a b served running free len trusted service idle => ?_,
    fun s v serves go => ⟨fun commit => ?_, fun p hp named => ?_, fun unknown => ?_⟩⟩
  · have up : FusesUp s.trust t.trust := (exec_ran c s t h).fuses
    exact ⟨up.trusted, up.service, fun k => up.revoked_stays, exec_keeps_fuses h⟩
  · have blown := State.runSvnCommit_blown (s := { s.unlatch with mbx := { s.mbx with cmd := 4 } }) trusted service idle
    have runs := State.mailbox_runs (cmd := 4) (State.runSvnCommit true) served running free (congrArg some len.symm)
    refine ⟨_, congrArg Host.Outcome.next runs, ?_⟩
    rw [blown]
    exact ⟨rfl, rfl, rfl⟩
  · rw [exec_mbxCtrlGo serves go, commit, State.mailboxGo_svnCommit]
  · rw [exec_mbxCtrlGo serves go, named]
    exact State.mailboxGo_command s hp
  · rw [exec_mbxCtrlGo serves go, State.mailboxGo_unknown _ _ unknown, State.mailbox_unlatch, exec_mailboxBadCmd unknown]

end Sys2Proof.Machine
end

section
/-!
PROOFS. How errors enter the queue (16_errors_startup, R526 and R528), and what the first FATAL error does (R529, R530).
-/
namespace Sys2Proof.Machine

/-! ## The four ways into the queue -/

section
variable {u : ErrUnit} {e : Err}

/-- R526: a repeat adds one to COUNT and takes no entry. -/
theorem ErrUnit.enter_of_repeat (repeated : u.queue.any (fun x => x.repeats e) = true) :
    u.enter e =
      { u with queue := u.queue.map (fun x => if x.repeats e then { x with count := min 255 (x.count + 1) } else x) } :=
  if_pos repeated

theorem ErrUnit.enter_of_room (new : u.queue.any (fun x => x.repeats e) = false) (room : u.queue.length < 64) :
    u.enter e = u.append e := by
  unfold ErrUnit.enter
  rw [if_neg (Bool.eq_false_iff.1 new), if_pos room]

/-- R528: a full queue loses an error that displaces nothing. -/
theorem ErrUnit.enter_of_full (new : u.queue.any (fun x => x.repeats e) = false) (full : u.queue.length = 64)
    (stays : e.cls ≠ .fatal ∨ u.victim = none) :
    u.enter e = { u with overflow := sat 32 (u.overflow + 1), lost := true } := by
  unfold ErrUnit.enter
  rw [if_neg (Bool.eq_false_iff.1 new), if_neg (by omega)]
  cases victim : u.victim with
  | none => rfl
  | some v => exact if_neg (stays.resolve_right (by simp [victim]))

/-- R528: a FATAL error takes the place of the victim, which is the one that counts as lost. -/
theorem ErrUnit.enter_of_displace {v : ErrEntry} (new : u.queue.any (fun x => x.repeats e) = false)
    (full : u.queue.length = 64) (fatal : e.cls = .fatal) (victim : u.victim = some v) :
    u.enter e = { u with
      overflow := sat 32 (u.overflow + 1), lost := true
      queue := u.queue.filter (fun x => x.order != v.order) : ErrUnit }.append e := by
  unfold ErrUnit.enter
  rw [if_neg (Bool.eq_false_iff.1 new), if_neg (by omega), victim]
  exact if_pos fatal

/-- A full queue counts one error as lost, whichever it is. -/
theorem ErrUnit.enter_full_counts (new : u.queue.any (fun x => x.repeats e) = false) (full : u.queue.length = 64) :
    (u.enter e).lost = true ∧ (u.enter e).overflow = sat 32 (u.overflow + 1) := by
  by_cases stays : e.cls ≠ .fatal ∨ u.victim = none
  · rw [ErrUnit.enter_of_full new full stays]
    exact ⟨rfl, rfl⟩
  · push Not at stays
    obtain ⟨fatal, displaces⟩ := stays
    obtain ⟨v, victim⟩ := Option.ne_none_iff_exists'.1 displaces
    rw [ErrUnit.enter_of_displace new full fatal victim]
    exact ⟨rfl, rfl⟩

/-- An error that enters changes neither the record of the stop nor the count of errors after it. -/
theorem ErrUnit.enter_keeps_stop (u : ErrUnit) (e : Err) :
    (u.enter e).fatalRec = u.fatalRec ∧ (u.enter e).afterFatal = u.afterFatal := by
  unfold ErrUnit.enter
  split
  · exact ⟨rfl, rfl⟩
  · split
    · exact ⟨rfl, rfl⟩
    · dsimp only
      split
      · split <;> exact ⟨rfl, rfl⟩
      · exact ⟨rfl, rfl⟩

/-! ## The entry that is appended -/

/-- Suspending the entry in handling moves no entry: the orders are those of before, then the next one. -/
theorem ErrUnit.append_orders (u : ErrUnit) (e : Err) :
    (u.append e).queue.map (·.order) = u.queue.map (·.order) ++ [u.nextOrder] := by
  have suspended : ∀ x : ErrEntry, (if x.phase = .active then { x with phase := .suspended } else x).order = x.order :=
    fun x => by split <;> rfl
  simp only [ErrUnit.append, List.map_append, List.map_cons, List.map_nil]
  split
  · simp [suspended]
  · rfl

/-- If no entry has the order `o`, then after an error is appended only its own entry, the last, can have it. -/
theorem ErrUnit.append_only_new {o : Nat} (gone : ∀ y ∈ u.queue, y.order ≠ o) :
    ∃ x, (u.append e).queue.getLast? = some x ∧ x.err = e ∧
      (u.append e).queue.all (fun y => y.order != o || y.order == x.order) = true := by
  refine ⟨_, List.getLast?_concat .., rfl, List.all_eq_true.2 fun y hy => ?_⟩
  have known : y.order ∈ u.queue.map (·.order) ++ [u.nextOrder] := ErrUnit.append_orders u e ▸ List.mem_map_of_mem hy
  obtain old | mine := List.mem_append.1 known
  · obtain ⟨z, hz, same⟩ := List.mem_map.1 old
    simp [← same, gone z hz]
  · simp [List.mem_singleton.1 mine]

/-- A displaced entry is gone: an entry with its order can only be the new one. -/
theorem ErrUnit.enter_displaces {v : ErrEntry} (new : u.queue.any (fun x => x.repeats e) = false)
    (full : u.queue.length = 64) (fatal : e.cls = .fatal) (victim : u.victim = some v) :
    ∃ x, (u.enter e).queue.getLast? = some x ∧ x.err = e ∧
      (u.enter e).queue.all (fun y => y.order != v.order || y.order == x.order) = true := by
  rw [ErrUnit.enter_of_displace new full fatal victim]
  exact ErrUnit.append_only_new fun y hy => bne_iff_ne.1 (List.mem_filter.1 hy).2

end

/-! ## The stop of the module -/

section
variable {e : Err} {s : State}

/-- R529: once the module is FATAL, errors are only counted. -/
theorem State.raise_of_fatal {l : List Err} (stopped : s.errs.fatal = true) :
    s.raise l = { s with errs := { s.errs with afterFatal := sat 32 (s.errs.afterFatal + l.length) } } :=
  if_pos stopped

/-- R530: the first FATAL error stops the module, then enters the queue. -/
theorem State.raise_first_fatal (running : s.errs.fatal = false) (fatal : e.cls = .fatal) :
    s.raise [e] = (s.enterFatal e).enterQueue e := by
  simp [State.raise, running, Err.sorted, Err.insertSorted, State.enterErr, fatal]

/-- Entering the queue changes no part but the queue and its counters. -/
theorem State.enterQueue_same {p : Part} (hp : [Part.errs, Part.tele].contains p = false) : p.same s (s.enterQueue e) :=
  have : MayTele [Part.errs, Part.tele].contains := ⟨rfl⟩
  have : MayErrs [Part.errs, Part.tele].contains := ⟨rfl⟩
  (Evolves.refl _ s).enterQueue.kept p hp

@[simp] theorem State.enterQueue_dies (e : Err) (s : State) : (s.enterQueue e).dies = s.dies :=
  State.enterQueue_same (p := .dies) rfl

@[simp] theorem State.enterQueue_pins (e : Err) (s : State) : (s.enterQueue e).pins = s.pins :=
  State.enterQueue_same (p := .pins) rfl

@[simp] theorem State.enterQueue_stack (e : Err) (s : State) (k : Nat) : (s.enterQueue e).stack k = s.stack k :=
  congrArg (Tab.at · Stack.reset k) (State.enterQueue_same (p := .hbm) rfl)

/-- An error raised changes no part but those that an error may change. -/
theorem State.raise_same {l : List Err} {p : Part} (hp : Part.raised.contains p = false) : p.same s (s.raise l) :=
  have : Raises Part.raised.contains := raises_of rfl
  (Evolves.refl _ s).raise.kept p hp

theorem State.assertAlert_alertN (s : State) : s.assertAlert.pins.alertN = false := by
  unfold State.assertAlert
  split
  · rfl
  next low => exact Bool.eq_false_iff.2 low

/-- R325: the stop loses every write-combining buffer. -/
theorem State.enterFatal_wcb (e : Err) (s : State) (k : Nat) : ((s.enterFatal e).stack k).wcb = [] := by
  by_cases hk : k < 12
  · have emptied : (s.enterFatal e).stack k = { s.stack k with wcb := [] } :=
      Tab.at_map s.hbm Stack.reset Stack.reset (fun k => { k with wcb := [] }) k hk
    rw [emptied]
  · rw [State.stack, Tab.at, dif_neg hk]
    rfl

theorem State.enterFatal_ramping (e : Err) (s : State) : (s.enterFatal e).dies.toList.all (fun d => d.ramping) = true := by
  simp [State.enterFatal]

end

/-- Settles O28: the ways into the queue (R526, R528), and the one stop of the module (R529, R530). -/
theorem errorsEnterTheQueue : Obligations.ErrorsEnterTheQueue := by
  unfold Obligations.ErrorsEnterTheQueue
  refine ⟨fun e u _ => ⟨ErrUnit.enter_of_repeat, fun new room => ?_, fun new full => ?_⟩,
    fun l s => State.raise_of_fatal, fun e s running fatal => ?_⟩
  · obtain ⟨x, last, err, count⟩ := ErrUnit.append_getLast u e
    rw [ErrUnit.enter_of_room new room]
    exact ⟨x, last, err, count, ErrUnit.append_length u e, rfl, rfl⟩
  · obtain ⟨lost, overflow⟩ := ErrUnit.enter_full_counts new full
    refine ⟨lost, overflow, fun notFatal => ?_, fun fatal v victim => ErrUnit.enter_displaces new full fatal victim⟩
    rw [ErrUnit.enter_of_full new full (.inl notFatal)]
  · have rings : (s.raise [e]).rings = s.rings := State.raise_same (p := .rings) rfl
    have mem : (s.raise [e]).mem = s.mem := State.raise_same (p := .mem) rfl
    obtain ⟨record, after⟩ := ErrUnit.enter_keeps_stop (s.enterFatal e).errs e
    rw [State.raise_first_fatal running fatal] at rings mem ⊢
    simp only [State.enterQueue_errs, State.enterQueue_pins, State.enterQueue_dies, State.enterQueue_stack]
    exact ⟨ErrUnit.enter_fatal .., record, State.assertAlert_alertN s, State.enterFatal_wcb e s, State.enterFatal_ramping e s,
      after, rings, mem⟩

end Sys2Proof.Machine
end

section
/-!
PROOFS. What every step and every command keeps: the invariants of the data, the frame, and FATAL. All of it follows from `exec_ran`, which
says of each command what it can do.
-/
namespace Sys2Proof.Machine

/-! ## A step is the front command, or an idle period -/

/-- A property of states that ignores the queue and the clock, and that every command keeps, is kept by every step. -/
theorem step_keeps {P : State → Prop} (idle : ∀ s, P s → P s.idle) (rest : ∀ s l, P s → P { s with pending := l })
    (command : ∀ c s t, exec c s = .next t → P s → P t) {s t : State} (hs : P s) (h : step s = .next t) : P t := by
  cases hp : s.pending with
  | nil => exact step_idle hp h ▸ idle s hs
  | cons c l =>
    have front : exec c { s with pending := l } = .next t := by
      unfold step at h
      rwa [hp] at h
    exact command c _ t front (rest s l hs)

theorem exec_keeps_memory (c : Instr) (s t : State) (h : exec c s = .next t) (hs : s.memoryOk = true) : t.memoryOk = true := by
  have ev := exec_ran c s t h
  simp only [State.memoryOk, Bool.and_eq_true] at hs ⊢
  obtain ⟨mem, flash⟩ := hs
  exact ⟨ev.mem mem, ev.flash ▸ flash⟩

theorem exec_keeps_errorsOk (c : Instr) (s t : State) (h : exec c s = .next t) (hs : s.errorsOk = true) : t.errorsOk = true := by
  simp only [State.errorsOk, decide_eq_true_eq] at hs ⊢
  exact (exec_ran c s t h).queue hs

/-- FATAL is a part of the state that only the two resets may end (R532). -/
theorem fatal_notMem_footprint {c : Instr} (reset : c ≠ .mresetAssert) (rail : ∀ r, c ≠ .railLost r) : Part.fatal ∉ footprint c := by
  cases c
  case mresetAssert => exact absurd rfl reset
  case railLost r => exact absurd rfl (rail r)
  all_goals exact of_decide_eq_true rfl

theorem exec_keeps_frame {c : Instr} {s t : State} (h : exec c s = .next t) {p : Part} (hp : p ∉ footprint c) : p.same s t :=
  (exec_ran c s t h).kept p (by simpa using hp)

/-- Settles O3: no command breaks the canonical form of memory, and none changes the flash. -/
theorem stepKeepsMemory : Obligations.StepKeepsMemory := by
  unfold Obligations.StepKeepsMemory
  intro s t hs h
  exact step_keeps (P := fun s => s.memoryOk = true) (fun _ => id) (fun _ _ => id) exec_keeps_memory hs h

/-- Settles O4: each of the three invariants is kept by every command. -/
theorem stepKeepsQueuesAndBuffers : Obligations.StepKeepsQueuesAndBuffers := by
  unfold Obligations.StepKeepsQueuesAndBuffers
  refine ⟨fun s t hs h => ?_, fun s t hs h => ?_, fun s t hs h => ?_⟩
  · exact step_keeps (P := fun s => s.wcbOk = true) (fun _ => id) (fun _ _ => id) (fun c s t h => (exec_ran c s t h).wcb) hs h
  · exact step_keeps (P := fun s => s.jobsOk = true) (fun _ => id) (fun _ _ => id) (fun c s t h => (exec_ran c s t h).jobs) hs h
  · exact step_keeps (P := fun s => s.errorsOk = true) (fun _ => id) (fun _ _ => id) exec_keeps_errorsOk hs h

/-- Settles O6: FATAL lies outside the footprint of every command but the two resets. -/
theorem fatalLeftOnlyByReset : Obligations.FatalLeftOnlyByReset := by
  unfold Obligations.FatalLeftOnlyByReset
  intro c s t fatal h left
  by_contra other
  obtain ⟨reset, rail⟩ := not_or.1 other
  have kept := exec_keeps_frame h (fatal_notMem_footprint reset fun r hr => rail ⟨r, hr⟩) fatal
  exact Bool.noConfusion (left.symm.trans kept)

/-- Settles O8: `exec_ran`, read part by part. -/
theorem commandsKeepTheirFrame : Obligations.CommandsKeepTheirFrame := by
  unfold Obligations.CommandsKeepTheirFrame
  exact fun c s t h p hp => exec_keeps_frame h hp

/-- Settles O2: what every command keeps of the queue, the flash and the clock. -/
theorem commandsKeepQueueFlashTime : Obligations.CommandsKeepQueueFlashTime := by
  unfold Obligations.CommandsKeepQueueFlashTime
  intro c s t h
  have ev := exec_ran c s t h
  exact ⟨ev.pending, ev.flash, ev.clock⟩

/-- Settles O1: the two arms of `step`. -/
theorem stepRunsFront : Obligations.StepRunsFront := by
  unfold Obligations.StepRunsFront
  refine ⟨fun c rest s => rfl, fun s hp => ?_⟩
  cases s
  cases hp
  rfl

/-- Settles O5: nothing waits, nothing is admitted and no memory cell is listed after reset (log 7). -/
theorem resetHoldsInvariants : Obligations.ResetHoldsInvariants := by
  unfold Obligations.ResetHoldsInvariants
  exact ⟨rfl, by decide +kernel, rfl, rfl, rfl, rfl, rfl⟩

end Sys2Proof.Machine
end

section
/-!
PROOFS. Which commands stop the model (log 32): only a bus agent's request at an address that Table MS.1 calls unmapped. Every other command
is built from tests, of which each arm goes on.
-/
namespace Sys2Proof.Machine

/-- A command goes on. -/
def GoesOn (o : Out) : Prop := ∃ t, o = .next t

theorem goesOn_next (t : State) : GoesOn (.next t) := ⟨t, rfl⟩

/-! ## The frames that commands share -/

theorem State.withReady_goesOn (s : State) (t seq : Nat) (kind : MopWord → Bool) (f : Ctx → State) :
    GoesOn (s.withReady t seq kind f) := by
  unfold State.withReady
  split <;> exact goesOn_next _

theorem State.withStream_goesOn (s : State) (t seq : Nat) (kind : MopWord → Bool) (f : Ctx → State) :
    GoesOn (s.withStream t seq kind f) := by
  unfold State.withStream
  (repeat' split) <;> exact goesOn_next _

theorem State.bodkinRun_goesOn (s : State) (l : Nat) (vs result : List Nat) (st : BodkinStatus) (cycles : Nat)
    (loads : Option (Nat × Curve)) : GoesOn (s.bodkinRun l vs result st cycles loads) := by
  unfold State.bodkinRun
  split <;> exact goesOn_next _

theorem State.bodkinMod_goesOn (s : State) (mBits cycles m : Nat) (vs : List Nat) (f : Nat → List Nat → Nat × BodkinStatus) :
    GoesOn (s.bodkinMod mBits cycles m vs f) := by
  unfold State.bodkinMod
  split <;> exact State.bodkinRun_goesOn ..

theorem State.bodkinCurve_goesOn (s : State) (slot : Nat) (scalars : List Nat) (points : List Point) (zero : List Nat)
    (cycles : Curve → Nat) (atInf : List Nat) (f : Curve → List Nat × BodkinStatus) :
    GoesOn (s.bodkinCurve slot scalars points zero cycles atInf f) := by
  unfold State.bodkinCurve
  split <;> exact State.bodkinRun_goesOn ..

theorem State.packOp_goesOn (s : State) (t seq srcBit : Nat)
    (data : Ctx → View → State → View → Nat → RecIn → PSet → List ElemOut) : GoesOn (s.packOp t seq srcBit data) := by
  obtain ⟨u, hu⟩ : GoesOn (s.unary t seq (fun w => w.family == Fam.pack && w.packSrc == srcBit) (fun c _ => packRule c)
    (fun c r => packRange s c.w r) data) := State.withReady_goesOn ..
  unfold State.packOp
  rw [hu]
  exact goesOn_next _

theorem State.jtagTake_goesOn (s : State) (allowed : Bool) (i : JtagInstr) (f : State → State) : GoesOn (s.jtagTake allowed i f) := by
  unfold State.jtagTake
  split <;> exact goesOn_next _

theorem execModexp_goesOn (mBits eBits x e m : Nat) (s : State) : GoesOn (execModexp mBits eBits x e m s) := by
  unfold execModexp
  split
  · exact State.bodkinRun_goesOn ..
  · exact State.bodkinMod_goesOn ..

theorem execCurveLoad_goesOn (slot p a b gx gy n : Nat) (s : State) : GoesOn (execCurveLoad slot p a b gx gy n s) := by
  dsimp only [execCurveLoad]
  split <;> exact State.bodkinRun_goesOn ..

theorem execAutoEvaluation_goesOn (t seq : Nat) (s : State) : GoesOn (execAutoEvaluation t seq s) := by
  unfold execAutoEvaluation
  split <;> exact State.withReady_goesOn ..

theorem execKeyRingArrival_goesOn (t seq bytes cycles : Nat) (s : State) : GoesOn (execKeyRingArrival t seq bytes cycles s) := by
  unfold execKeyRingArrival
  split
  · split <;> exact State.withStream_goesOn ..
  · exact goesOn_next _

/-! ## Every command but the four requests -/

theorem exec_goesOn (c : Instr) (s : State) (read : ∀ a e, c ≠ .memReadRequest a e) (write : ∀ a m d, c ≠ .memWriteRequest a m d)
    (remoteRead : ∀ r t o n, c ≠ .remoteRead r t o n) (remoteWrite : ∀ w t o d, c ≠ .remoteWrite w t o d) : GoesOn (exec c s) := by
  cases c
  case memReadRequest a e => exact absurd rfl (read a e)
  case memWriteRequest a m d => exact absurd rfl (write a m d)
  case remoteRead r t o n => exact absurd rfl (remoteRead r t o n)
  case remoteWrite w t o d => exact absurd rfl (remoteWrite w t o d)
  case ntt | intt | autoCoefficient | autoIndex | extract | modup | moddown | rescale | kswRelin | kswGalois | kswLweKs | hmul |
      pmul | add | sub | neg | cmul | vprog | vcvt | mxpModular | mxpClear | mxpExpand | pbs | load | store | gather | scatter |
      send | shuttleSlotFree | shuttleDescriptorArrive | recv | recvPoll | win | bar | chkCompute | chkAppend | chkCheckStrip |
      nop =>
    dsimp only [exec, execNtt, execIntt, execAutoCoefficient, execAutoIndex, execExtract, execModup, execModdown, execRescale, execKswRelin,
      execKswGalois, execKswLweKs, execHmul, execPmul, execAdd, execSub, execNeg, execCmul, execVprog, execVcvt,
      execMxpModular, execMxpClear, execMxpExpand, execPbs, execLoad, execStore, execGather, execScatter, execSend,
      execShuttleSlotFree, execShuttleDescriptorArrive, execRecv, execRecvPoll, execWin, execBar, execChkCompute,
      execChkAppend, execChkCheckStrip, execNop]
    exact State.withReady_goesOn ..
  case keyVerdict | pbsKeyVerdict | pbsObjectArrival =>
    dsimp only [exec, execKeyVerdict, execPbsKeyVerdict, execPbsObjectArrival]
    exact State.withStream_goesOn ..
  case modadd | modsub | modmul | modinvP =>
    dsimp only [exec, execModadd, execModsub, execModmul, execModinvP]
    exact State.bodkinMod_goesOn ..
  case ecmulg | ecmul | ecdh | ecadd | ecdsaSign | ecdsaVerify =>
    dsimp only [exec, execEcmulg, execEcmul, execEcdh, execEcadd, execEcdsaSign, execEcdsaVerify]
    exact State.bodkinCurve_goesOn ..
  case packRaise | packLwe =>
    dsimp only [exec, execPackRaise, execPackLwe]
    exact State.packOp_goesOn ..
  case jtagIdcode | jtagBypass | jtagSamplePreload | jtagExtest | jtagIeee1838Access | jtagIeee1687Access =>
    dsimp only [exec, execJtagIdcode, execJtagBypass, execJtagSamplePreload, execJtagExtest, execJtagIeee1838Access, execJtagIeee1687Access]
    exact State.jtagTake_goesOn ..
  case keyRingArrival => exact execKeyRingArrival_goesOn ..
  case modexp => exact execModexp_goesOn ..
  case curveLoad => exact execCurveLoad_goesOn ..
  case autoEvaluation => exact execAutoEvaluation_goesOn ..
  case modeWrite | psetLoad | psetUnload | prkLoad | prkUnload | sqDoorbell | cqDoorbell | evqDoorbell | ringEnable |
      ringDisable | ringReset | jobCancelGo | completionRecordWrite | halt | release | linkRetrain | hdmMapWrite | telemClear |
      shqReset | cvuRxWrite | streamResume | strmReadCheck | strmFill | strmCompare | strmRead | tilePollTimeout | tileFailure |
      errorHandle | powerOff | clkoutSelect | railGood | mresetAssert | bootStart | bootPush | bootAbort | ownerChange |
      debugNonce | debugUnlock | svnCommit | identity | i3cPrivateWrite =>
    exact goesOn_next _
  case regWrite | reg64LowRead | psetLoadComplete | prkLoadComplete | ringFetch | ringError | jobAdmissionCheck | jobAdmit |
      jobAged | jobComplete | cqCoalesceTimeout | haltComplete | linkTrainingDone | linkRecalibration | linkRecalibrationDone |
      hostMemRead | hostMemWrite | cxlConfigRequest | macroOffer | macroAdmit | groupStart | macroRetire | macroAbort |
      segmentFetchDone | scratchEccWriteback | bobbinStreamStart | shuttleAck | sendCompletion | barrierResolve |
      chainStageResume | memPoisonRequest | wcbResidencyTimeout | packetReceive | translationComplete | stallWatchdog |
      streamerDone | patrolScrub | commitFinish | restoreDone | spareTakeover | errorPosted | pacerSlot | pacerWindow |
      dvfsStart | avsStatusPoll | dvfsSettleEnd | dvfsFreezeEnd | avsTimeout | thermalSample | thermalFloorRise |
      thermalFloorFall | safeOff | railLost | refclkLost | mresetRelease | throttleFilter | throttleHonour | startupBegin |
      stageRom | stageTrusted | stageHbm | stageTiles | stageWipe | stageService | stageUcie | stageCxl | ownerChangeDone |
      spdmRequest | svcHeartbeat | heartbeatMissed | svcDenied | bodkinDone | i3cStatusRead | i3cDynamicAddressAssignment |
      spdmHeartbeatTimeout | mailboxBadCmd =>
    dsimp only [exec, execRegWrite, execReg64LowRead, execPsetLoadComplete, execPrkLoadComplete, execRingFetch, execRingError,
      execJobAdmissionCheck, execJobAdmit, execJobAged, execJobComplete, execCqCoalesceTimeout, execHaltComplete,
      execLinkTrainingDone, execLinkRecalibration, execLinkRecalibrationDone, execHostMemRead, execHostMemWrite,
      execCxlConfigRequest, execMacroOffer, execMacroAdmit, execGroupStart, execMacroRetire, execMacroAbort,
      execSegmentFetchDone, execScratchEccWriteback, execBobbinStreamStart, execShuttleAck, execSendCompletion,
      execBarrierResolve, execChainStageResume, execMemPoisonRequest, execWcbResidencyTimeout, execPacketReceive,
      execTranslationComplete, execStallWatchdog, execStreamerDone, execPatrolScrub, execCommitFinish,
      execRestoreDone, execSpareTakeover, execErrorPosted, execPacerSlot, execPacerWindow, execDvfsStart,
      execAvsStatusPoll, execDvfsSettleEnd, execDvfsFreezeEnd, execAvsTimeout, execThermalSample,
      execThermalFloorRise, execThermalFloorFall, execSafeOff, execRailLost, execRefclkLost, execMresetRelease,
      execThrottleFilter, execThrottleHonour, execStartupBegin, execStageRom, execStageTrusted, execStageHbm,
      execStageTiles, execStageWipe, execStageService, execStageUcie, execStageCxl, execOwnerChangeDone,
      execSpdmRequest, execSvcHeartbeat, execHeartbeatMissed, execSvcDenied, execBodkinDone, execI3cStatusRead,
      execI3cDynamicAddressAssignment, execSpdmHeartbeatTimeout, execMailboxBadCmd]
    (repeat' split) <;> exact goesOn_next _

/-! ## The four requests of a bus agent -/

theorem execMemReadRequest_goesOn_or (a : Nat) (e : ReadError) (s : State) :
    GoesOn (exec (.memReadRequest a e) s) ∨ home a = .unmapped ∧ exec (.memReadRequest a e) s = .fault (.unmapped a) := by
  dsimp only [exec, execMemReadRequest]
  split
  · exact .inl (goesOn_next _)
  · split
    next away => exact .inr ⟨away, rfl⟩
    all_goals exact .inl (goesOn_next _)

theorem execMemWriteRequest_goesOn_or (a : Nat) (m : DWord) (d : List Byte) (s : State) :
    GoesOn (exec (.memWriteRequest a m d) s) ∨ home a = .unmapped ∧ exec (.memWriteRequest a m d) s = .fault (.unmapped a) := by
  dsimp only [exec, execMemWriteRequest]
  split
  · exact .inl (goesOn_next _)
  · split
    next away => exact .inr ⟨away, rfl⟩
    all_goals exact .inl (goesOn_next _)

theorem execRemoteRead_goesOn_or (r t o n : Nat) (s : State) : GoesOn (exec (.remoteRead r t o n) s) ∨
    (208 ≤ t ∨ 0x600000 < o + n) ∧ exec (.remoteRead r t o n) s = .fault (.unmapped (scratchAddr t o)) := by
  dsimp only [exec, execRemoteRead]
  split
  next outside => exact .inr ⟨outside, rfl⟩
  · split <;> exact .inl (goesOn_next _)

theorem execRemoteWrite_goesOn_or (w t o : Nat) (d : List Byte) (s : State) : GoesOn (exec (.remoteWrite w t o d) s) ∨
    (208 ≤ t ∨ 0x600000 < o + d.length) ∧ exec (.remoteWrite w t o d) s = .fault (.unmapped (scratchAddr t o)) := by
  dsimp only [exec, execRemoteWrite]
  split
  next outside => exact .inr ⟨outside, rfl⟩
  · split <;> exact .inl (goesOn_next _)

/-- Settles O9: every command but the four requests of a bus agent goes on, and each of those unless its address has no home. -/
theorem onlyUnmappedStops : Obligations.OnlyUnmappedStops := by
  unfold Obligations.OnlyUnmappedStops
  intro c s
  by_cases read : ∃ a e, c = .memReadRequest a e
  · obtain ⟨a, e, rfl⟩ := read
    exact (execMemReadRequest_goesOn_or a e s).imp id fun ⟨away, stop⟩ => ⟨a, stop, .inl ⟨e, rfl, away⟩⟩
  by_cases write : ∃ a m d, c = .memWriteRequest a m d
  · obtain ⟨a, m, d, rfl⟩ := write
    exact (execMemWriteRequest_goesOn_or a m d s).imp id fun ⟨away, stop⟩ => ⟨a, stop, .inr (.inl ⟨m, d, rfl, away⟩)⟩
  by_cases remoteRead : ∃ r t o n, c = .remoteRead r t o n
  · obtain ⟨r, t, o, n, rfl⟩ := remoteRead
    exact (execRemoteRead_goesOn_or r t o n s).imp id fun ⟨away, stop⟩ =>
      ⟨_, stop, .inr (.inr (.inl ⟨r, t, o, n, rfl, away⟩))⟩
  by_cases remoteWrite : ∃ w t o d, c = .remoteWrite w t o d
  · obtain ⟨w, t, o, d, rfl⟩ := remoteWrite
    exact (execRemoteWrite_goesOn_or w t o d s).imp id fun ⟨away, stop⟩ =>
      ⟨_, stop, .inr (.inr (.inr ⟨w, t, o, d, rfl, away⟩))⟩
  push Not at read write remoteRead remoteWrite
  exact .inl (exec_goesOn c s read write remoteRead remoteWrite)

end Sys2Proof.Machine
end

section
/-!
PROOFS. The address map of HBM (R311, R312): `home` and `stackToDevice` are inverse to each other.
-/
namespace Sys2Proof.Machine

/-- An address below 768 GiB lies in HBM: 192 GiB for the three stacks of each die. -/
theorem home_hbm {a : Nat} (h : a < 0xC000000000) :
    home a = .hbm (3 * (a / 0x3000000000) + (stackOfOffset (a % 0x3000000000)).1) (stackOfOffset (a % 0x3000000000)).2 := by
  unfold home
  rw [if_pos h]

theorem lt_of_home_hbm {a k sa : Nat} (h : home a = .hbm k sa) : a < 0xC000000000 := by
  by_contra high
  have none := stackAt_high high
  simp [stackAt, h] at none

/-- The offset within its die's HBM of a stack's address (R312). -/
def dieOffset (j sa : Nat) : Nat :=
  if sa < 0xC00000000 then (sa / 2048 / 32 * 96 + (j * 32 + sa / 2048 % 32)) * 2048 + sa % 2048
  else 0x2400000000 + j * 0x400000000 + (sa - 0xC00000000)

theorem stackToDevice_eq (k sa : Nat) : stackToDevice k sa = 0x3000000000 * (k / 3) + dieOffset (k % 3) sa := by
  unfold stackToDevice dieOffset
  dsimp only
  split <;> omega

/-- Interleaved chunks of 2 KiB, 32 to a stack in turn, below 144 GiB; above, each stack's last 16 GiB in one piece. -/
theorem stackOfOffset_dieOffset {j sa : Nat} (hj : j < 3) (hsa : sa < 2 ^ 36) : stackOfOffset (dieOffset j sa) = (j, sa) := by
  unfold stackOfOffset dieOffset
  simp only [Nat.shiftRight_eq_div_pow]
  by_cases low : sa < 0xC00000000
  · rw [if_pos low, if_pos (by omega)]
    ext <;> dsimp only <;> omega
  · rw [if_neg low, if_neg (by omega)]
    ext <;> dsimp only <;> omega

theorem dieOffset_stackOfOffset {x : Nat} (hx : x < 0x3000000000) :
    (stackOfOffset x).1 < 3 ∧ (stackOfOffset x).2 < 2 ^ 36 ∧ dieOffset (stackOfOffset x).1 (stackOfOffset x).2 = x := by
  unfold stackOfOffset
  simp only [Nat.shiftRight_eq_div_pow]
  by_cases low : x < 0x2400000000
  · rw [if_pos low]
    refine ⟨by dsimp only; omega, by dsimp only; omega, ?_⟩
    unfold dieOffset
    rw [if_pos (by dsimp only; omega)]
    dsimp only
    omega
  · rw [if_neg low]
    refine ⟨by dsimp only; omega, by dsimp only; omega, ?_⟩
    unfold dieOffset
    rw [if_neg (by dsimp only; omega)]
    dsimp only
    omega

theorem dieOffset_lt {j sa : Nat} (hj : j < 3) (hsa : sa < 2 ^ 36) : dieOffset j sa < 0x3000000000 := by
  unfold dieOffset
  split <;> omega

/-- Settles O10: within a die the two maps of R312 are inverse, and the dies' ranges follow each other. -/
theorem addressMapRoundTrip : Obligations.AddressMapRoundTrip := by
  unfold Obligations.AddressMapRoundTrip
  refine ⟨fun k sa hk hsa => ?_, fun a k sa h => ?_⟩
  · have bound := dieOffset_lt (Nat.mod_lt k (by decide : 0 < 3)) hsa
    have die : stackToDevice k sa / 0x3000000000 = k / 3 := by rw [stackToDevice_eq]; omega
    have offset : stackToDevice k sa % 0x3000000000 = dieOffset (k % 3) sa := by rw [stackToDevice_eq]; omega
    rw [home_hbm (by rw [stackToDevice_eq]; omega), die, offset, stackOfOffset_dieOffset (Nat.mod_lt k (by decide)) hsa]
    exact congrArg (Home.hbm · sa) (Nat.div_add_mod k 3)
  · have low := lt_of_home_hbm h
    rw [home_hbm low, Home.hbm.injEq] at h
    obtain ⟨rfl, rfl⟩ := h
    obtain ⟨die, bound, back⟩ := dieOffset_stackOfOffset (Nat.mod_lt a (by decide : 0 < 0x3000000000))
    refine ⟨by omega, bound, ?_⟩
    have quotient : (3 * (a / 0x3000000000) + (stackOfOffset (a % 0x3000000000)).1) / 3 = a / 0x3000000000 := by omega
    have remainder : (3 * (a / 0x3000000000) + (stackOfOffset (a % 0x3000000000)).1) % 3 = (stackOfOffset (a % 0x3000000000)).1 := by
      omega
    rw [stackToDevice_eq, quotient, remainder, back]
    exact Nat.div_add_mod a _

end Sys2Proof.Machine
end

section
/-!
PROOFS. The plain registers (00_scope, 12_host_port R391): a word-sized write reaches the register that its address names, with the low 32
bits of the value.
-/
namespace Sys2Proof.Machine

/-! ## Fields of a word cut to 32 bits -/

theorem bits_mod_word {v hi : Nat} (lo : Nat) (h : hi < 32) : bits (v % 2 ^ 32) hi lo = bits v hi lo := by
  unfold bits
  refine Nat.eq_of_testBit_eq fun i => ?_
  simp only [Nat.testBit_mod_two_pow, Nat.testBit_shiftRight]
  by_cases inside : i < hi + 1 - lo
  · rw [decide_eq_true (show lo + i < 32 by omega), Bool.true_and]
  · simp [inside]

theorem bit_mod_word {v i : Nat} (h : i < 32) : bit (v % 2 ^ 32) i = bit v i := by
  have whole := bits_mod_word (v := v) i h
  simp only [bits, Nat.add_sub_cancel_left, pow_one] at whole
  rw [bit, bit, whole]

theorem mod_mod_word {v n : Nat} (h : n ∣ 2 ^ 32) : v % 2 ^ 32 % n = v % n := Nat.mod_mod_of_dvd v h

theorem wordOf_mod_word (v : Nat) : BitVec.ofNat 32 (v % 2 ^ 32) = BitVec.ofNat 32 v := BitVec.eq_of_toNat_eq (by simp)

/-! ## The registers -/

theorem State.writeBar0_wdog (q : Requester) (v : Nat) (s : State) :
    s.writeBar0 q 0x010300 v = { s with wdog := v % 2 ^ 20 } := rfl

theorem State.writeBar0_cancelTag (q : Requester) (v : Nat) (s : State) :
    s.writeBar0 q 0x010420 v = { s with cancelTag := BitVec.ofNat 32 v } := rfl

theorem State.writeBar0_jobAge (q : Requester) (v : Nat) (s : State) :
    s.writeBar0 q 0x010430 v = { s with jobAge := max 1 (v % 65536) } := rfl

theorem State.writeBar0_errStatus (q : Requester) (v : Nat) (s : State) : s.writeBar0 q 0x100000 v = s.writeErrStatus v := rfl

theorem State.writeBar0_telemSel (q : Requester) (v : Nat) (s : State) : s.writeBar0 q 0x180000 v = s.writeTelemSel v := rfl

theorem State.writeBar0_perfTarget {q : Requester} {v : Nat} {s : State} (h : (s.selects q).die < 4) :
    s.writeBar0 q 0x050010 v = s.mapDie (s.selects q).die (fun d => { d with target := v % 8 }) := if_neg (Nat.not_le.2 h)

theorem State.writeBar0_strmCount {q : Requester} {v : Nat} {s : State} (h : (s.selects q).stack < 12) :
    s.writeBar0 q 0x04002C v = s.mapStack (s.selects q).stack (fun u => { u with strmCount := v % 2 ^ 31 }) :=
  if_neg (Nat.not_le.2 h)

theorem State.writeBar0_tileSel (q : Requester) (v : Nat) (s : State) :
    s.writeBar0 q 0x030000 v = s.mapSelects q (fun x => { x with tile := v % 256 }) := rfl

theorem State.writeBar0_queueSel (q : Requester) (v : Nat) (s : State) :
    s.writeBar0 q 0x030004 v = s.mapSelects q (fun x => { x with queue := v % 8 }) := rfl

theorem State.writeBar0_ringSel (q : Requester) (v : Nat) (s : State) :
    s.writeBar0 q 0x020000 v = s.mapSelects q (fun x => { x with ring := v % 32 }) := rfl

theorem State.writeBar0_stackSel (q : Requester) (v : Nat) (s : State) :
    s.writeBar0 q 0x040000 v = s.mapSelects q (fun x => { x with stack := v % 16 }) := rfl

theorem State.writeBar0_dieSel (q : Requester) (v : Nat) (s : State) :
    s.writeBar0 q 0x050000 v = s.mapSelects q (fun x => { x with die := v % 8 }) := rfl

/-! ## Copies of the selects (R391) -/

theorem requesterNum_lt (q : Requester) : requesterNum q < 4 := by cases q <;> decide

theorem requesterNum_injective : Function.Injective requesterNum := by
  intro p q h
  cases p <;> cases q <;> revert h <;> decide

theorem State.selects_mapSelects_self (q : Requester) (f : Selects → Selects) (s : State) :
    (s.mapSelects q f).selects q = f (s.selects q) := by
  simp [State.selects, State.mapSelects, Tab.at_put, requesterNum_lt]

theorem State.selects_mapSelects_other {q q' : Requester} (h : q' ≠ q) (f : Selects → Selects) (s : State) :
    (s.mapSelects q f).selects q' = s.selects q' := by
  simp [State.selects, State.mapSelects, Tab.at_put, requesterNum_injective.ne h]

/-- A write that sets one field of the writer's copy. -/
theorem exec_selectWrite {q : Requester} {a : Nat} {v : DWord} {s : State} {f : Selects → Selects} (hq : q ≠ .sideband)
    (ha : a % 4 = 0) (hr : s.reaches q a = true) (hf : s.unlatch.writeBar0 q a (v.toNat % 2 ^ 32) = s.unlatch.mapSelects q f) :
    ∃ t, exec (.regWrite q a 4 v) s = .next t ∧ t.selects q = f (s.selects q) ∧ ∀ q', q' ≠ q → t.selects q' = s.selects q' :=
  ⟨s.unlatch.mapSelects q f, by rw [exec_wordWrite hq ha hr, hf], State.selects_mapSelects_self q f s.unlatch,
    fun _ other => State.selects_mapSelects_other other f s.unlatch⟩

/-- Settles O12: each address's register, with its field of the value's low word. -/
theorem registerWritesAndSelects : Obligations.RegisterWritesAndSelects := by
  unfold Obligations.RegisterWritesAndSelects
  refine ⟨fun q v s hq => ⟨fun hr => ?_, fun hr => ?_, fun hr => ?_, fun hr => ?_, fun hr => ?_, fun hr hd => ?_, fun hr hk => ?_⟩,
    fun q v s hq p hp hr => ?_⟩
  · rw [exec_wordWrite hq (by decide) hr, State.writeBar0_wdog, mod_mod_word (by decide)]
  · rw [exec_wordWrite hq (by decide) hr, State.writeBar0_cancelTag, wordOf_mod_word]
  · rw [exec_wordWrite hq (by decide) hr, State.writeBar0_jobAge, mod_mod_word (by decide)]
  · rw [exec_wordWrite hq (by decide) hr, State.writeBar0_errStatus, State.writeErrStatus, bit_mod_word (by decide)]
    rfl
  · rw [exec_wordWrite hq (by decide) hr, State.writeBar0_telemSel, State.writeTelemSel, bits_mod_word _ (by decide),
      bits_mod_word _ (by decide), bits_mod_word _ (by decide)]
  · rw [exec_wordWrite hq (by decide) hr, State.writeBar0_perfTarget (s := s.unlatch) hd, mod_mod_word (by decide)]
    rfl
  · rw [exec_wordWrite hq (by decide) hr, State.writeBar0_strmCount (s := s.unlatch) hk, mod_mod_word (by decide)]
    rfl
  · simp only [List.mem_cons, List.not_mem_nil, or_false] at hp
    have field {n : Nat} (h : n ∣ 2 ^ 32) : v.toNat % 2 ^ 32 % n = v.toNat % n := mod_mod_word h
    obtain rfl | rfl | rfl | rfl | rfl := hp
    · exact exec_selectWrite (a := 0x030000) hq (by decide) hr (by rw [State.writeBar0_tileSel, field (by decide)])
    · exact exec_selectWrite (a := 0x030004) hq (by decide) hr (by rw [State.writeBar0_queueSel, field (by decide)])
    · exact exec_selectWrite (a := 0x020000) hq (by decide) hr (by rw [State.writeBar0_ringSel, field (by decide)])
    · exact exec_selectWrite (a := 0x040000) hq (by decide) hr (by rw [State.writeBar0_stackSel, field (by decide)])
    · exact exec_selectWrite (a := 0x050000) hq (by decide) hr (by rw [State.writeBar0_dieSel, field (by decide)])

end Sys2Proof.Machine
end

section
/-!
PROOFS. Accesses that no register takes (R7, R392): odd sizes and alignments, and the addresses of BAR0 that no register table assigns.
-/
namespace Sys2Proof.Machine

/-! ## Unassigned addresses -/

section
variable {a : Nat} (h : bar0Assigned a = false)
include h

theorem not_contains_of_unassigned {l : List Nat} (hl : l.all bar0Assigned = true) : l.contains a = false := by
  refine Bool.eq_false_iff.2 fun mem => ?_
  have assigned := List.all_eq_true.1 hl a (List.contains_iff_mem.1 mem)
  exact Bool.noConfusion (h.symm.trans assigned)

theorem not_wide_of_unassigned : wideReg a = false ∧ ¬ (4 ≤ a ∧ wideReg (a - 4) = true) := by
  refine ⟨Bool.eq_false_iff.2 fun low => ?_, fun ⟨four, high⟩ => ?_⟩
  · simp [bar0Assigned, low] at h
  · simp [bar0Assigned, high, four] at h

theorem not_mailbox_of_unassigned : ¬ (0x061000 ≤ a ∧ a < 0x062000) := fun ⟨lo, hi⟩ => by simp [bar0Assigned, lo, hi] at h
theorem not_volts_of_unassigned : ¬ (0x050040 ≤ a ∧ a < 0x050060) := fun ⟨lo, hi⟩ => by simp [bar0Assigned, lo, hi] at h
theorem not_ceilings_of_unassigned : ¬ (0x050800 ≤ a ∧ a < 0x050820) := fun ⟨lo, hi⟩ => by simp [bar0Assigned, lo, hi] at h
theorem not_fatalRecord_of_unassigned : ¬ (0x100020 ≤ a ∧ a < 0x100040) := fun ⟨lo, hi⟩ => by simp [bar0Assigned, lo, hi] at h
theorem not_doorbells_of_unassigned : ¬ (0x080000 ≤ a ∧ a < 0x080104) := fun ⟨lo, hi⟩ => by simp [bar0Assigned, lo, hi] at h

theorem not_cvu_of_unassigned (c : inCvu a = true) : (cvuOf a).2 ≠ 0x10 ∧ (cvuOf a).2 ≠ 0x14 ∧ (cvuOf a).2 ≠ 0x28 := by
  have offset : (cvuOf a).2 = a % 64 := rfl
  rw [offset]
  exact ⟨fun e => by simp [bar0Assigned, c, e] at h, fun e => by simp [bar0Assigned, c, e] at h,
    fun e => by simp [bar0Assigned, c, e] at h⟩

/-! ## Reads -/

theorem State.readMain_unassigned (s : State) : s.readMain a = 0 := by
  unfold State.readMain
  split
  pick_goal -1
  · rfl
  all_goals exact absurd h (by decide)

theorem State.readRings_unassigned (s : State) (x : Selects) : s.readRings x a = 0 := by
  unfold State.readRings
  dsimp only
  split
  pick_goal -1
  · rfl
  all_goals exact absurd h (by decide)

theorem State.readTiles_unassigned (s : State) (x : Selects) : s.readTiles x a = 0 := by
  unfold State.readTiles
  dsimp only
  rw [if_neg (by rintro rfl; exact absurd h (by decide)), if_neg (by rintro rfl; exact absurd h (by decide))]
  split
  · rfl
  · split
    pick_goal -1
    · rfl
    all_goals exact absurd h (by decide)

theorem State.readStacks_unassigned (s : State) (x : Selects) : s.readStacks x a = 0 := by
  unfold State.readStacks
  dsimp only
  rw [if_neg (by rintro rfl; exact absurd h (by decide))]
  split
  · rfl
  · split
    pick_goal -1
    · rfl
    all_goals exact absurd h (by decide)

theorem State.readPower_unassigned (s : State) (x : Selects) : s.readPower x a = 0 := by
  have ceil := not_ceilings_of_unassigned h
  have volts := not_volts_of_unassigned h
  unfold State.readPower
  dsimp only
  rw [if_neg (by rintro rfl; exact absurd h (by decide))]
  split
  next high =>
    split
    pick_goal -1
    · exact if_neg fun low => ceil ⟨high, low⟩
    all_goals exact absurd h (by decide)
  · split
    · rfl
    · split
      pick_goal -1
      · rfl
      all_goals exact absurd h (by decide)

theorem State.readRest_unassigned (s : State) : s.readRest a = 0 := by
  unfold State.readRest
  rw [if_neg (not_mailbox_of_unassigned h)]
  split
  next cvu =>
    obtain ⟨width, stream, state⟩ := not_cvu_of_unassigned h cvu
    dsimp only
    split
    next e => exact absurd e width
    next e => exact absurd e stream
    next e => exact absurd e state
    next => rfl
  · rw [if_neg (not_fatalRecord_of_unassigned h)]
    split
    pick_goal -1
    · rfl
    all_goals exact absurd h (by decide)

theorem State.readBar0_unassigned (s : State) (q : Requester) : s.readBar0 q a = 0 := by
  unfold State.readBar0
  split
  · rfl
  · split
    · exact State.readMain_unassigned h s
    · exact State.readMain_unassigned h s
    · exact State.readRings_unassigned h s _
    · exact State.readTiles_unassigned h s _
    · exact State.readStacks_unassigned h s _
    · exact State.readPower_unassigned h s _
    · exact State.readRest_unassigned h s

theorem State.readWord32_unassigned {q : Requester} (s : State) (hq : q ≠ .sideband) : s.readWord32 q a = 0 := by
  obtain ⟨low, high⟩ := not_wide_of_unassigned h
  unfold State.readWord32
  rw [if_neg hq, if_neg (by simp [low]), if_neg high]
  exact State.readBar0_unassigned h s q

/-! ## Writes -/

theorem State.writeMain_unassigned (q : Requester) (v : Nat) (s : State) : s.writeMain q a v = s.discard q a v := by
  unfold State.writeMain
  split
  pick_goal -1
  · exact if_neg (by rw [not_contains_of_unassigned h (by decide)]; decide)
  all_goals exact absurd h (by decide)

theorem State.writeRings_unassigned (q : Requester) (v : Nat) (s : State) : s.writeRings q a v = s.discard q a v := by
  unfold State.writeRings
  split
  pick_goal -1
  · exact if_neg (by rw [not_contains_of_unassigned h (by decide)]; decide)
  all_goals exact absurd h (by decide)

theorem State.writeTiles_unassigned (q : Requester) (v : Nat) (s : State) : s.writeTiles q a v = s.discard q a v := by
  unfold State.writeTiles
  dsimp only
  rw [if_neg (by rintro rfl; exact absurd h (by decide)), if_neg (by rintro rfl; exact absurd h (by decide)),
    if_pos (by rw [not_contains_of_unassigned h (by decide)]; rfl)]

theorem State.writeStacks_unassigned (q : Requester) (v : Nat) (s : State) : s.writeStacks q a v = s.discard q a v := by
  unfold State.writeStacks
  dsimp only
  rw [if_neg (by rintro rfl; exact absurd h (by decide)), if_pos (by rw [not_contains_of_unassigned h (by decide)]; rfl)]

theorem State.writePower_unassigned (q : Requester) (v : Nat) (s : State) : s.writePower q a v = s.discard q a v := by
  have volts : (decide (0x050040 ≤ a) && decide (a < 0x050060)) = false := by simpa using not_volts_of_unassigned h
  unfold State.writePower
  rw [if_neg (by rintro rfl; exact absurd h (by decide)), if_neg (by rw [not_contains_of_unassigned h (by decide), volts]; decide),
    if_neg (not_ceilings_of_unassigned h)]
  split
  pick_goal -1
  · exact if_neg (by rw [not_contains_of_unassigned h (by decide)]; decide)
  all_goals exact absurd h (by decide)

theorem State.writeMailbox_unassigned (q : Requester) (v : Nat) (s : State) : s.writeMailbox q a v = s.discard q a v := by
  unfold State.writeMailbox
  split
  · rfl
  · rw [if_neg (not_mailbox_of_unassigned h)]
    split
    pick_goal -1
    · rfl
    all_goals exact absurd h (by decide)

theorem State.writeCvus_unassigned (q : Requester) (v : Nat) (s : State) (cvu : inCvu a = true) :
    s.writeCvus q a v = s.discard q a v := by
  obtain ⟨width, stream, state⟩ := not_cvu_of_unassigned h cvu
  unfold State.writeCvus
  split
  next e => exact absurd e width
  next e => exact absurd e stream
  next e => exact absurd e state
  next => rfl

theorem State.writeDoorbell_unassigned (q : Requester) (v : Nat) (s : State) (page : a / 0x10000 = 8) :
    s.writeDoorbell q a v = s.discard q a v := by
  have outside := not_doorbells_of_unassigned h
  unfold State.writeDoorbell
  rw [if_neg (by omega), if_neg (by omega)]

theorem State.writeRest_unassigned (q : Requester) (v : Nat) (s : State) : s.writeRest q a v = s.discard q a v := by
  have record : (decide (0x100020 ≤ a) && decide (a < 0x100040)) = false := by simpa using not_fatalRecord_of_unassigned h
  unfold State.writeRest
  split
  pick_goal -1
  · exact if_neg (by rw [not_contains_of_unassigned h (by decide), record]; decide)
  all_goals exact absurd h (by decide)

theorem State.writeBar0_unassigned (q : Requester) (v : Nat) (s : State) : s.writeBar0 q a v = s.discard q a v := by
  obtain ⟨low, high⟩ := not_wide_of_unassigned h
  unfold State.writeBar0
  rw [if_neg (by simp [low]), if_neg high]
  split
  next cvu => exact State.writeCvus_unassigned h q v s cvu
  · split
    · exact State.writeMain_unassigned h q v s
    · exact State.writeMain_unassigned h q v s
    · exact State.writeRings_unassigned h q v s
    · exact State.writeTiles_unassigned h q v s
    · exact State.writeStacks_unassigned h q v s
    · exact State.writePower_unassigned h q v s
    · exact State.writeMailbox_unassigned h q v s
    next page => exact State.writeDoorbell_unassigned h q v s page
    · exact State.writeRest_unassigned h q v s

end

/-! ## The gate -/

theorem State.servesRead_of_serves {q : Requester} {s : State} (a : Nat) (h : s.serves q = true) : s.servesRead q a = true := by
  simp only [State.serves, State.servesRead, Bool.and_eq_true, Bool.or_eq_true] at *
  obtain ⟨⟨⟨-, reset⟩, rails⟩, stopped⟩ := h
  exact ⟨⟨reset, rails⟩, .inl stopped⟩

/-- A discarded write of any requester changes what an event may change, and clears the latch of R9. -/
theorem State.unlatch_discard_same {q : Requester} {a v : Nat} {s : State} {p : Part} (hp : p ∉ Part.raised ++ [.readLatch]) :
    p.same s (s.unlatch.discard q a v) := by
  have : Raises (Part.raised ++ [Part.readLatch]).contains := raises_of rfl
  have : MayReadLatch (Part.raised ++ [Part.readLatch]).contains := ⟨rfl⟩
  have ev : Evolves (Part.raised ++ [Part.readLatch]).contains s (s.unlatch.discard q a v) := (Evolves.refl _ s).unlatch.discard
  exact ev.kept p (by simpa using hp)

/-- What the discard of the word `v` leaves. -/
theorem exec_discarded {c : Instr} {q : Requester} {a v : Nat} {s : State} (h : exec c s = .next (s.unlatch.discard q a (v % 2 ^ 32))) :
    ∃ t, exec c s = .next t ∧ Recorded s t (Err.plain .deferred 0x03 6 (requesterNum q) a (v % 2 ^ 32)) ∧
      ∀ p, p ∉ Part.raised ++ [.readLatch] → p.same s t := by
  have recorded := State.discard_recorded q a (v % 2 ^ 32) s.unlatch
  rw [Nat.mod_mod] at recorded
  exact ⟨_, h, recorded, fun _ => State.unlatch_discard_same⟩

theorem exec_oddRead {q : Requester} {r : RegRead} {s : State} (hs : s.servesRead q r.addr = true) (odd : r.size ≠ 4 ∨ r.addr % 4 ≠ 0) :
    exec (.reg64LowRead q r) s = .next { s with readLatch := none, resp := .data (List.replicate r.size 0) false } := by
  simp only [exec_reg64LowRead, execReg64LowRead]
  rw [if_neg (by simp [hs]), if_pos odd]
  rfl

theorem exec_oddWrite {q : Requester} {a size : Nat} {v : DWord} {s : State} (hs : s.serves q = true) (odd : size ≠ 4 ∨ a % 4 ≠ 0) :
    exec (.regWrite q a size v) s = .next (s.unlatch.discard q a (v.toNat % 2 ^ 32)) := by
  have serves : s.unlatch.serves q = true := hs
  have running : s.unlatch.errs.fatal = false := State.serves_running serves
  simp only [exec_regWrite, execRegWrite]
  rw [if_neg (Bool.eq_false_iff.1 running), if_neg (by simp [serves]), if_pos odd]

/-- A read changes its answer, the latch of R9 and the counter of reads. -/
theorem State.read_same {s : State} {x : Response} {l : Option (Nat × Word)} {p : Part} (hp : p ∉ [Part.resp, .readLatch, .tele]) :
    p.same s { s.unlatch.count .bar0Reads 0 1 with resp := x, readLatch := l } := by
  have : MayResp [Part.resp, .readLatch, .tele].contains := ⟨rfl⟩
  have : MayReadLatch [Part.resp, .readLatch, .tele].contains := ⟨rfl⟩
  have : MayTele [Part.resp, .readLatch, .tele].contains := ⟨rfl⟩
  have ev : Evolves [Part.resp, .readLatch, .tele].contains s { s.unlatch.count .bar0Reads 0 1 with resp := x, readLatch := l } :=
    (Evolves.refl _ s).unlatch.count.set_resp_readLatch
  exact ev.kept p (by simpa using hp)

/-- Settles O13: the tests of size and alignment come first (log 62), and the tables of reads and writes have no other arm for an
unassigned address. -/
theorem oddAndUnassignedAccesses : Obligations.OddAndUnassignedAccesses := by
  unfold Obligations.OddAndUnassignedAccesses
  refine ⟨fun q r s => exec_oddRead, fun q a size v s hs odd => exec_discarded (exec_oddWrite hs odd),
    fun q a v s hq hr _ aligned unassigned => ⟨?_, ?_⟩⟩
  · obtain ⟨serves, window⟩ := Bool.and_eq_true_iff.1 hr
    refine ⟨_, exec_wordRead hq aligned (State.servesRead_of_serves a serves) window, ?_, fun _ => State.read_same⟩
    rw [State.readWord32_unassigned unassigned s hq]
    rfl
  · refine exec_discarded ?_
    rw [exec_wordWrite hq aligned hr, State.writeBar0_unassigned unassigned]

end Sys2Proof.Machine
end

section
/-!
PROOFS. The completion of a load or unload of a parameter set (R42, R46-R49) and of a pricking (R298-R301): the outcome, case by case, is all
that changes.
-/
namespace Sys2Proof.Machine

theorem exec_psetLoadComplete {s : State} {o : LoadOp} (h : s.psetLoader.op = some o) : exec .psetLoadComplete s = .next { s with
    psets := Tab.put s.psets o.index (s.psetOutcome o).2, psetLoader := s.psetLoader.finish o.index (s.psetOutcome o).1 0 } := by
  dsimp only [exec, execPsetLoadComplete]
  rw [h]

theorem exec_prkLoadComplete {s : State} {o : LoadOp} (h : s.prkLoader.op = some o) : exec .prkLoadComplete s = .next { s with
    prks := Tab.put s.prks o.index (s.prkOutcome o).2.2
    prkLoader := s.prkLoader.finish o.index (s.prkOutcome o).1 (s.prkOutcome o).2.1 } := by
  dsimp only [exec, execPrkLoadComplete]
  rw [h]

section
variable {s : State} {o : LoadOp}

theorem State.psetOutcome_held (h : s.psetHeld o.index = true) : s.psetOutcome o = (0x10, s.pset o.index) := by
  simp [State.psetOutcome, h]

theorem State.psetOutcome_valid (h : s.psetHeld o.index = false) (load : o.load = true) (valid : (s.pset o.index).isSome = true) :
    s.psetOutcome o = (0x11, s.pset o.index) := by
  simp [State.psetOutcome, h, load, valid]

theorem State.psetOutcome_load (h : s.psetHeld o.index = false) (load : o.load = true) (invalid : s.pset o.index = none) :
    s.psetOutcome o = (blockCode (s.readZeroed o.addr 2048),
      if blockCode (s.readZeroed o.addr 2048) = 0 then some (PSet.parse (s.readZeroed o.addr 2048)) else none) := by
  simp [State.psetOutcome, h, load, invalid]

theorem State.psetOutcome_unload (h : s.psetHeld o.index = false) (unload : o.load = false) (valid : (s.pset o.index).isSome = true) :
    s.psetOutcome o = (0, none) := by
  have := Option.isSome_iff_ne_none.1 valid
  simp [State.psetOutcome, h, unload, this]

theorem State.prkOutcome_held (h : ∃ j ∈ s.jobs, j.prk = o.index) : s.prkOutcome o = (0x10, 0, s.pricking o.index) := by
  have held : s.jobs.any (fun j => j.prk == o.index) = true := by simpa [List.any_eq_true] using h
  simp only [State.prkOutcome, held, if_true]

theorem free_of_no_job (h : ∀ j ∈ s.jobs, j.prk ≠ o.index) : s.jobs.any (fun j => j.prk == o.index) = false := by
  simpa [List.any_eq_false] using h

theorem State.prkOutcome_valid (h : ∀ j ∈ s.jobs, j.prk ≠ o.index) (load : o.load = true) (valid : (s.pricking o.index).isSome = true) :
    s.prkOutcome o = (0x11, 0, s.pricking o.index) := by
  simp [State.prkOutcome, free_of_no_job h, load, valid]

theorem State.prkOutcome_load (h : ∀ j ∈ s.jobs, j.prk ≠ o.index) (load : o.load = true) (invalid : s.pricking o.index = none) :
    ∃ code detail, s.imageCode (PrkInfo.parse o.addr (s.readZeroed o.addr 256)) (s.readZeroed o.addr 256) = (code, detail) ∧
      s.prkOutcome o = (code, detail, if code = 0 then some (PrkInfo.parse o.addr (s.readZeroed o.addr 256)) else none) := by
  refine ⟨_, _, rfl, ?_⟩
  simp only [State.prkOutcome, free_of_no_job h, load, invalid]
  rfl

theorem State.prkOutcome_unload (h : ∀ j ∈ s.jobs, j.prk ≠ o.index) (unload : o.load = false)
    (valid : (s.pricking o.index).isSome = true) : s.prkOutcome o = (0, 0, none) := by
  have := Option.isSome_iff_ne_none.1 valid
  simp [State.prkOutcome, free_of_no_job h, unload, this]

end

/-- A table of optional entries after a write. -/
theorem Tab.at_put_self {α : Type} {n i : Nat} (v : Vector α n) (d x : α) (h : i < n) : Tab.at (Tab.put v i x) d i = x := by
  simp [Tab.at_put, h]

theorem Tab.at_put_other {α : Type} {n i j : Nat} (v : Vector α n) (d x : α) (h : j ≠ i) : Tab.at (Tab.put v i x) d j = Tab.at v d j := by
  simp [Tab.at_put, h]

theorem isSome_ite_iff {α : Type} (code : Nat) (x : α) : (if code = 0 then some x else none).isSome = true ↔ code = 0 := by
  split <;> simp_all

/-- Settles O16: what the outcome holds in each case is what the index holds after. -/
theorem loadsComplete : Obligations.LoadsComplete := by
  unfold Obligations.LoadsComplete
  refine ⟨fun s o ho bound => ⟨_, _, exec_psetLoadComplete ho, rfl, fun k other => Tab.at_put_other _ _ _ other, fun held => ?_, fun free =>
      ⟨fun load valid => ?_, fun load invalid => ?_, fun unload valid => ?_⟩⟩,
    fun s o ho bound => ⟨_, _, _, exec_prkLoadComplete ho, rfl, fun k other => Tab.at_put_other _ _ _ other, fun held => ?_, fun free =>
      ⟨fun load valid => ?_, fun load invalid => ?_, fun unload valid => ?_⟩⟩⟩
  · simp only [State.pset, Tab.at_put_self _ _ _ bound, State.psetOutcome_held held, and_self]
  · simp only [State.pset, Tab.at_put_self _ _ _ bound, State.psetOutcome_valid free load valid, and_self]
  · simp only [State.pset, Tab.at_put_self _ _ _ bound, State.psetOutcome_load free load invalid, isSome_ite_iff, and_self]
  · simp only [State.pset, Tab.at_put_self _ _ _ bound, State.psetOutcome_unload free unload valid, and_self]
  · simp only [State.pricking, Tab.at_put_self _ _ _ bound, State.prkOutcome_held held, and_self]
  · simp only [State.pricking, Tab.at_put_self _ _ _ bound, State.prkOutcome_valid free load valid, and_self]
  · obtain ⟨code, detail, image, outcome⟩ := State.prkOutcome_load free load invalid
    simp only [State.pricking, Tab.at_put_self _ _ _ bound, outcome, image, isSome_ite_iff, and_self]
  · simp only [State.pricking, Tab.at_put_self _ _ _ bound, State.prkOutcome_unload free unload valid, and_self]

end Sys2Proof.Machine
end


section
/-!
PROOFS. An error that is not FATAL: it enters the queue, and neither ramps a die, nor touches a pin or a write-combining buffer (R524-R530).
-/
namespace Sys2Proof.Machine

theorem Err.mem_insertSorted {e x : Err} {l : List Err} (h : x ∈ Err.insertSorted e l) : x = e ∨ x ∈ l := by
  induction l with
  | nil => exact .inl (List.mem_singleton.1 h)
  | cons y l ih =>
    unfold Err.insertSorted at h
    split at h
    · exact List.mem_cons.1 h
    · obtain rfl | rest := List.mem_cons.1 h
      · exact .inr (List.mem_cons_self ..)
      · exact (ih rest).imp id (List.mem_cons_of_mem _)

theorem Err.mem_of_mem_sorted {x : Err} {l : List Err} (h : x ∈ Err.sorted l) : x ∈ l := by
  induction l with
  | nil => exact h
  | cons e l ih =>
    obtain rfl | rest := Err.mem_insertSorted h
    · exact List.mem_cons_self ..
    · exact List.mem_cons_of_mem _ (ih rest)

theorem Evolves.enterErr_of_mild {F : Part → Bool} [MayErrs F] [MayJobs F] [MayTele F] {σ s : State} {e : Err} (mild : e.cls ≠ .fatal)
    (hs : Evolves F σ s) : Evolves F σ (s.enterErr e) := by
  unfold State.enterErr
  split
  · exact hs.count
  · exact hs.enterQueue.count
  · exact hs.enterQueue.count.countEvent
  next fatal => exact absurd fatal mild

/-- Errors below FATAL change the error unit, the counters and the jobs that they name. -/
theorem Evolves.raise_of_mild {F : Part → Bool} [MayErrs F] [MayJobs F] [MayTele F] {σ s : State} {l : List Err}
    (mild : ∀ e ∈ l, e.cls ≠ .fatal) (hs : Evolves F σ s) : Evolves F σ (s.raise l) := by
  have fold : ∀ (m : List Err) (u : State), (∀ e ∈ m, e.cls ≠ .fatal) → Evolves F σ u →
      Evolves F σ (m.foldl (fun s e => State.enterErr e s) u) := by
    intro m
    induction m with
    | nil => exact fun u _ hu => hu
    | cons e m ih =>
      exact fun u hm hu => ih _ (fun x hx => hm x (List.mem_cons_of_mem _ hx)) (hu.enterErr_of_mild (hm e (List.mem_cons_self ..)))
  unfold State.raise
  exact Evolves.ite (hs.set_errs id id) (fold _ s (fun e he => mild e (Err.mem_of_mem_sorted he)) hs)

/-- The parts that an error below FATAL may change. -/
def Part.mild : List Part := [.errs, .jobs, .tele]

theorem State.raise_mild_same {l : List Err} {s : State} {p : Part} (mild : ∀ e ∈ l, e.cls ≠ .fatal) (hp : Part.mild.contains p = false) :
    p.same s (s.raise l) :=
  have : MayErrs Part.mild.contains := ⟨rfl⟩
  have : MayJobs Part.mild.contains := ⟨rfl⟩
  have : MayTele Part.mild.contains := ⟨rfl⟩
  ((Evolves.refl _ s).raise_of_mild mild).kept p hp

theorem State.raise_one_mild_same {e : Err} {s : State} {p : Part} (mild : e.cls ≠ .fatal) (hp : Part.mild.contains p = false) :
    p.same s (s.raise [e]) :=
  State.raise_mild_same (fun x hx => by rwa [List.mem_singleton.1 hx]) hp

theorem State.enterErr_tiles (e : Err) (s : State) : (s.enterErr e).tiles = s.tiles := by
  have queue (u : State) : (u.enterQueue e).tiles = u.tiles := by
    unfold State.enterQueue
    dsimp only
    split <;> rfl
  have event (u : State) : (u.countEvent e).tiles = u.tiles := by
    unfold State.countEvent
    split
    · split <;> rfl
    · rfl
  have alert : (if s.errs.fatal then s else s.enterFatal e).tiles = s.tiles := by
    unfold State.enterFatal State.assertAlert
    split
    · rfl
    · dsimp only
      split <;> rfl
  unfold State.enterErr
  split
  · rfl
  · exact queue s
  · exact (event _).trans (queue s)
  · exact (queue _).trans alert

@[simp] theorem State.raise_tiles (l : List Err) (s : State) : (s.raise l).tiles = s.tiles := by
  have fold : ∀ (m : List Err) (u : State), (m.foldl (fun s e => State.enterErr e s) u).tiles = u.tiles := by
    intro m
    induction m with
    | nil => exact fun _ => rfl
    | cons e m ih => exact fun u => (ih _).trans (State.enterErr_tiles e u)
  unfold State.raise
  split
  · rfl
  · exact fold _ s

theorem State.raise_mild_mem {e : Err} (s : State) (mild : e.cls ≠ .fatal) : (s.raise [e]).mem = s.mem :=
  State.raise_one_mild_same (s := s) (p := .mem) mild (by decide)

theorem State.raise_mild_hbm {e : Err} (s : State) (mild : e.cls ≠ .fatal) : (s.raise [e]).hbm = s.hbm :=
  State.raise_one_mild_same (s := s) (p := .hbm) mild (by decide)

theorem State.raise_mild_linePoison {e : Err} (s : State) (mild : e.cls ≠ .fatal) : (s.raise [e]).linePoison = s.linePoison :=
  State.raise_one_mild_same (s := s) (p := .linePoison) mild (by decide)

/-- Once running, any error that is recorded at all enters the queue. -/
theorem State.raise_queue {e : Err} {s : State} (he : e.cls ≠ .corrected) (running : s.errs.fatal = false) :
    ∃ u : ErrUnit, (s.raise [e]).errs = u.enter e ∧ u.queue = s.errs.queue ∧ u.nextOrder = s.errs.nextOrder ∧ u.overflow = s.errs.overflow := by
  cases cls : e.cls with
  | corrected => exact absurd cls he
  | contained => exact ⟨s.errs, by simp [State.raise, running, Err.sorted, Err.insertSorted, State.enterErr, cls], rfl, rfl, rfl⟩
  | deferred => exact ⟨s.errs, State.raise_deferred_errs cls running, rfl, rfl, rfl⟩
  | fatal => exact ⟨(s.enterFatal e).errs, by rw [State.raise_first_fatal running cls, State.enterQueue_errs], rfl, rfl, rfl⟩

theorem State.raise_recorded {e : Err} (s : State) (he : e.cls ≠ .corrected) : Recorded s (s.raise [e]) e := by
  intro takes
  obtain ⟨u, errs, queue, -, -⟩ := State.raise_queue he (ErrUnit.takes_running takes)
  simp only [ErrUnit.takes, Bool.and_eq_true, Bool.not_eq_true', decide_eq_true_eq] at takes
  obtain ⟨⟨-, room⟩, new⟩ := takes
  rw [errs, ErrUnit.enter_of_room (queue ▸ new) (queue ▸ room)]
  exact ErrUnit.append_getLast ..

end Sys2Proof.Machine
end

section
/-!
PROOFS. O17: what write requests leave in memory, and what read requests answer (R321, R322, Tables MS.5 and MS.6).
-/
namespace Sys2Proof.Machine

theorem home_line_hbm {a k x : Nat} (h : home a = .hbm k x) : ∃ y, home (lineOf a) = .hbm k y := by
  have at_line : stackAt (lineOf a) = some k := by rw [stackAt_line, stackAt, h]
  unfold stackAt at at_line
  split at at_line
  next j y hj => exact ⟨y, hj.trans (by rw [Option.some.inj at_line])⟩
  next => cases at_line

theorem home_near_iff {a d x : Nat} :
    home a = .near d x ↔ (0x10000000000 ≤ a ∧ a < 0x10100000000) ∧ (a - 0x10000000000) / 0x40000000 = d ∧
      (a - 0x10000000000) % 0x40000000 = x := by
  unfold home
  dsimp only
  split
  · exact ⟨nofun, fun h => by omega⟩
  · split
    next range => simp [range]
    next range =>
      refine ⟨fun h => ?_, fun h => absurd h.1 range⟩
      split at h <;> split at h <;> cases h

theorem home_line_near {a d x : Nat} (h : home a = .near d x) : ∃ y, home (lineOf a) = .near d y := by
  rw [home_near_iff] at h
  refine ⟨_, home_near_iff.2 ⟨?_, ?_, rfl⟩⟩ <;> unfold lineOf <;> omega

theorem poisonable_cases {a : Nat} (h : poisonable a = true) : (∃ k x, home a = .hbm k x) ∨ ∃ d x, home a = .near d x := by
  unfold poisonable at h
  split at h
  next k x hk => exact .inl ⟨k, x, hk⟩
  next d x hd => exact .inr ⟨d, x, hd⟩
  next => cases h

theorem controllerOf_line {a : Nat} (h : poisonable a = true) : controllerOf (lineOf a) = controllerOf a := by
  obtain ⟨k, x, hk⟩ | ⟨d, x, hd⟩ := poisonable_cases h
  · obtain ⟨y, hy⟩ := home_line_hbm hk
    simp only [controllerOf, hk, hy]
  · obtain ⟨y, hy⟩ := home_line_near hd
    simp only [controllerOf, hd, hy]

theorem State.poisoned_of_filtered {s t : State} {l a : Nat} (h : t.linePoison = s.linePoison.filter (· != l)) (ha : lineOf a = l) :
    t.poisoned a = false := by
  unfold State.poisoned
  rw [h, ha]
  simp

/-- A full line clears the poison of its line (R322, Table MS.6). -/
theorem State.acceptLine_full_clears {a : Nat} {data : List Byte} {s : State} (h : poisonable a = true) :
    (s.acceptLine (lineOf a) fullMask data).poisoned a = false := by
  unfold State.acceptLine
  rw [if_neg (by decide)]
  obtain ⟨k, x, hk⟩ | ⟨d, x, hd⟩ := poisonable_cases h
  · obtain ⟨y, hy⟩ := home_line_hbm hk
    rw [hy]
    exact State.poisoned_of_filtered (s := s) (by simp) rfl
  · obtain ⟨y, hy⟩ := home_line_near hd
    rw [hy]
    exact State.poisoned_of_filtered (s := s) rfl rfl

@[simp] theorem State.poisoned_noteWrite (lo hi a : Nat) (s : State) : (s.noteWrite lo hi).poisoned a = s.poisoned a := rfl

@[simp] theorem State.readByte_noteWrite (lo hi a : Nat) (s : State) : (s.noteWrite lo hi).readByte a = s.readByte a := rfl

/-- A write request leaves what accepting its line leaves, for every reader of memory. -/
theorem exec_memWriteRequest {a : Nat} {mask : DWord} {data : List Byte} {s : State} (up : s.pins.allGood = true)
    (h : home a ≠ .unmapped) : ∃ t, exec (.memWriteRequest a mask data) s = .next t ∧
      (∀ b, t.readByte b = (s.acceptLine (lineOf a) mask.toNat (slice data 0 64)).readByte b) ∧
      ∀ b, t.poisoned b = (s.acceptLine (lineOf a) mask.toNat (slice data 0 64)).poisoned b := by
  change ∃ t, execMemWriteRequest a mask data s = .next t ∧ _
  unfold execMemWriteRequest
  rw [up, if_neg (by decide)]
  split
  next unmapped => exact absurd unmapped h
  next =>
    dsimp only
    split
    · exact ⟨_, rfl, fun _ => rfl, fun _ => rfl⟩
    · exact ⟨_, rfl, fun _ => rfl, fun _ => rfl⟩

theorem mem_granulesOf {x lo hi o : Nat} (h1 : lo ≤ scratchAddr x o) (h2 : scratchAddr x o < hi) (h3 : o < 0x600000) :
    o / 4096 ∈ granulesOf x lo hi := by
  unfold granulesOf scratchAddr at *
  dsimp only
  rw [if_neg (by omega), List.mem_map]
  exact ⟨o / 4096 - (max lo (2199023255552 + 8388608 * x + 0) - (2199023255552 + 8388608 * x + 0)) / 4096,
    List.mem_range.2 (by omega), by omega⟩

theorem scratch_off_lt {a x off : Nat} (h : home a = .scratch x off) : off < 0x600000 := by
  unfold home at h
  dsimp only at h
  split at h
  · cases h
  · split at h
    · cases h
    · split at h
      · split at h
        next lt =>
          cases h
          exact lt
        · cases h
      · split at h <;> cases h

theorem State.remoteBad_of_mark {s : State} {x off n o : Nat} (mark : (s.tile x).marks.contains (o / 4096) = true)
    (h1 : off ≤ o) (h2 : o < off + n) (h3 : o < 0x600000) : s.remoteBad x off n = true := by
  unfold State.remoteBad
  refine Bool.or_eq_true_iff.2 (.inl (List.any_eq_true.2 ⟨o / 4096, mem_granulesOf ?_ ?_ h3, mark⟩))
  · unfold scratchAddr
    omega
  · unfold scratchAddr
    omega

@[simp] theorem State.markGranule_mem (t g : Nat) (s : State) : (s.markGranule t g).mem = s.mem := by
  unfold State.markGranule
  split <;> rfl

theorem State.markGranules_mem (t : Nat) (l : List Nat) (s : State) :
    (l.foldl (fun s o => s.markGranule t (o / 4096)) s).mem = s.mem := by
  induction l generalizing s with
  | nil => rfl
  | cons o l ih => exact (ih _).trans (State.markGranule_mem ..)

theorem State.remoteRead_of_bad {s : State} {x off n : Nat} (bad : s.remoteBad x off n = true) :
    (s.remoteRead x off n).2 = (List.replicate n 0, true) ∧ (s.remoteRead x off n).1.mem = s.mem := by
  unfold State.remoteRead
  rw [if_pos bad]
  exact ⟨rfl, State.markGranules_mem ..⟩

theorem State.wordRead_mem (t off : Nat) (e : ReadError) (s : State) : (s.wordRead t off e).mem = s.mem := by
  unfold State.wordRead
  split
  · rfl
  · exact (State.raise_mild_mem _ (by decide)).trans (State.count_mem ..)
  · split <;> rfl

theorem State.wordRead_marks (t off : Nat) (e : ReadError) (s : State) (x : Nat) :
    ((s.wordRead t off e).tile x).marks = (s.tile x).marks := by
  unfold State.wordRead
  split
  · rfl
  · simp [State.tile]
  · split
    · rfl
    · rw [State.tile_mapTile]
      split
      next same => rw [← same.1]
      next => rfl

theorem State.lineRead_clean (l : Nat) (s : State) : s.lineRead l .clean = s := by
  unfold State.lineRead
  split <;> rfl

theorem State.lineRead_of_poisoned {a : Nat} {e : ReadError} {s : State} (h : s.poisoned a = true) : s.lineRead (lineOf a) e = s :=
  if_pos h

theorem State.readZeroed_poisoned {a : Nat} {s : State} (h : s.poisoned a = true) : s.readZeroed (lineOf a) 64 = List.replicate 64 0 := by
  refine List.eq_replicate_iff.2 ⟨by simp [State.readZeroed], fun b hb => ?_⟩
  obtain ⟨i, hi, rfl⟩ := List.mem_map.1 hb
  refine if_pos ?_
  have same : lineOf (lineOf a + i) = lineOf a := by
    have := List.mem_range.1 hi
    unfold lineOf
    omega
  rw [State.poisoned, same]
  exact h

theorem State.readZeroed_sound {a : Nat} {s : State} (h : s.poisoned a = false) : s.readZeroed (lineOf a) 64 = s.readRaw (lineOf a) 64 := by
  refine List.map_congr_left fun i hi => if_neg ?_
  have same : lineOf (lineOf a + i) = lineOf a := by
    have := List.mem_range.1 hi
    unfold lineOf
    omega
  rw [State.poisoned, same]
  exact Bool.not_eq_true _ ▸ h

/-- A read request of HBM or of near memory reads its line and answers it (Table MS.6). -/
theorem exec_memReadRequest {a : Nat} {e : ReadError} {s : State} (up : s.pins.allGood = true) (h : poisonable a = true) :
    exec (.memReadRequest a e) s = .next { s.lineRead (lineOf a) e with
      resp := .data ((s.lineRead (lineOf a) e).readZeroed (lineOf a) 64) ((s.lineRead (lineOf a) e).poisoned a) } := by
  change execMemReadRequest a e s = _
  unfold execMemReadRequest
  rw [up, if_neg (by decide)]
  obtain ⟨k, x, hk⟩ | ⟨d, x, hd⟩ := poisonable_cases h
  · rw [hk]
  · rw [hd]

theorem mem_insertNat_self (n : Nat) (l : List Nat) : n ∈ insertNat n l := by
  induction l with
  | nil => exact List.mem_singleton_self n
  | cons m l ih =>
    unfold insertNat
    split
    · exact List.mem_cons_self ..
    · split
      next same => exact same ▸ List.mem_cons_self ..
      next => exact List.mem_cons_of_mem _ ih

theorem State.markPoison_poisoned (a : Nat) (s : State) : (s.markPoison (lineOf a)).poisoned a = true := by
  unfold State.markPoison State.poisoned
  exact List.contains_iff_mem.2 (mem_insertNat_self ..)

theorem State.markPoison_mem (l : Nat) (s : State) : (s.markPoison l).mem = s.mem := by
  unfold State.markPoison
  dsimp only
  split <;> rfl

theorem State.markPoison_hbm (l : Nat) (s : State) : (s.markPoison l).hbm = s.hbm := by
  unfold State.markPoison
  dsimp only
  split <;> rfl

/-- One or two uncorrectable reads of a sound line (Table MS.5): a CONTAINED error, and nothing that a reader of memory sees. -/
theorem State.lineRead_reread {a n : Nat} {s : State} (h : poisonable a = true) (sound : s.poisoned a = false) (hn : n = 1 ∨ n = 2) :
    (s.lineRead (lineOf a) (.uncorrectable n)).mem = s.mem ∧ (s.lineRead (lineOf a) (.uncorrectable n)).hbm = s.hbm ∧
    (s.lineRead (lineOf a) (.uncorrectable n)).linePoison = s.linePoison ∧
    Recorded s (s.lineRead (lineOf a) (.uncorrectable n)) (Err.plain .contained 0x20 (controllerOf a).1 (controllerOf a).2 (lineOf a) (n + 1)) := by
  have step : s.lineRead (lineOf a) (.uncorrectable n) = (s.count .memRereadClean 0 1).raise
      [Err.plain .contained 0x20 (controllerOf a).1 (controllerOf a).2 (lineOf a) (n + 1)] := by
    unfold State.lineRead
    rw [if_neg (Bool.not_eq_true _ ▸ sound), ← controllerOf_line h]
    dsimp only
    rw [if_neg (by omega), if_pos (by omega)]
  rw [step]
  exact ⟨(State.raise_mild_mem _ ErrClass.noConfusion).trans (State.count_mem ..), (State.raise_mild_hbm _ ErrClass.noConfusion).trans (State.count_hbm ..),
    (State.raise_mild_linePoison _ ErrClass.noConfusion).trans (State.count_linePoison ..), State.raise_recorded (s.count .memRereadClean 0 1) ErrClass.noConfusion⟩

theorem State.lineRead_third {a n : Nat} {s : State} (sound : s.poisoned a = false) (hn : 3 ≤ n) :
    s.lineRead (lineOf a) (.uncorrectable n) = s.markPoison (lineOf a) := by
  unfold State.lineRead
  rw [if_neg (Bool.not_eq_true _ ▸ sound)]
  dsimp only
  rw [if_neg (by omega), if_neg (by omega)]

theorem readRaw_of_readByte {s t : State} (h : ∀ b, t.readByte b = s.readByte b) (a n : Nat) : t.readRaw a n = s.readRaw a n :=
  List.map_congr_left fun i _ => h (a + i)

theorem State.poisoned_congr {s t : State} (h : t.linePoison = s.linePoison) (a : Nat) : t.poisoned a = s.poisoned a := by
  unfold State.poisoned
  rw [h]

theorem State.readByte_of_same {s t : State} (mem : t.mem = s.mem) (hbm : t.hbm = s.hbm) (b : Nat) : t.readByte b = s.readByte b :=
  State.readByte_congr (fun k _ => by rw [State.stack, State.stack, hbm]) mem

theorem State.answer_mem (r : Response) (s : State) : { s with resp := r }.mem = s.mem := rfl

/-- A read request of a scratchpad reads its word and then its line, as another tile would (R89, R103). -/
theorem exec_memReadRequest_scratch {a x off : Nat} {e : ReadError} {s : State} (up : s.pins.allGood = true) (h : home a = .scratch x off) :
    exec (.memReadRequest a e) s = .next { ((s.wordRead x off e).remoteRead x (off / 64 * 64) 64).1 with
      resp := .data ((s.wordRead x off e).remoteRead x (off / 64 * 64) 64).2.1 ((s.wordRead x off e).remoteRead x (off / 64 * 64) 64).2.2 } := by
  change execMemReadRequest a e s = _
  unfold execMemReadRequest
  rw [up, if_neg (by decide), h]

/-- Settles O17. -/
theorem memoryWritesAndReads : Obligations.MemoryWritesAndReads := by
  refine ⟨fun a mask data s wcb mem up mapped => ?write, fun a s up unmapped => ?unmapped,
    fun a x off s up scratch => ⟨fun sound => ?clean, fun mark e => ?marked⟩,
    fun a s up line => ⟨fun sound => ⟨?sound, fun n hn => ?reread, fun n hn => ?third⟩, fun poisoned e => ?poisoned⟩⟩
  case write =>
    obtain ⟨t, run, read, poison⟩ := exec_memWriteRequest (mask := mask) (data := data) up mapped
    refine ⟨t, run, fun b hb => ?_, fun b hb => ?_, fun full hp => ?_⟩
    · rw [read]
      exact State.acceptLine_read wcb (Bool.and_eq_true_iff.1 mem).1 (by unfold lineOf; omega) (fun h => mapped ((unmapped_line a).1 h))
        (slice_length ..) mask.isLt b hb
    · rw [poison]
      exact State.acceptLine_poison b hb
    · rw [poison, full]
      exact State.acceptLine_full_clears hp
  case unmapped =>
    refine ⟨fun e => ?_, fun mask data => ?_⟩
    · change execMemReadRequest a e s = _
      unfold execMemReadRequest
      rw [up, if_neg (by decide), unmapped]
    · change execMemWriteRequest a mask data s = _
      unfold execMemWriteRequest
      rw [up, if_neg (by decide), unmapped]
  case clean =>
    change execMemReadRequest a .clean s = _
    unfold execMemReadRequest
    rw [up, if_neg (by decide), scratch]
    dsimp only [State.wordRead, State.remoteRead]
    rw [if_neg (Bool.not_eq_true _ ▸ sound)]
  case marked =>
    have bad : (s.wordRead x off e).remoteBad x (off / 64 * 64) 64 = true :=
      State.remoteBad_of_mark (o := off) (by rwa [State.wordRead_marks]) (by omega) (by omega) (scratch_off_lt scratch)
    obtain ⟨answer, kept⟩ := State.remoteRead_of_bad bad
    exact ⟨_, exec_memReadRequest_scratch up scratch, congrArg (fun p => Response.data p.1 p.2) answer, (State.answer_mem ..).trans (kept.trans (State.wordRead_mem ..))⟩
  case sound => rw [exec_memReadRequest up line, State.lineRead_clean, State.readZeroed_sound sound, sound]
  case reread =>
    obtain ⟨mem, hbm, poison, recorded⟩ := State.lineRead_reread line sound hn
    have sound' := (State.poisoned_congr poison a).trans sound
    refine ⟨_, exec_memReadRequest up line, ?_, mem, poison, recorded⟩
    rw [State.readZeroed_sound sound', sound', readRaw_of_readByte (State.readByte_of_same mem hbm)]
  case third =>
    refine ⟨_, exec_memReadRequest up line, ?_, ?_, ?_, ?_⟩ <;> rw [State.lineRead_third sound hn]
    · rw [State.readZeroed_poisoned (State.markPoison_poisoned a s), State.markPoison_poisoned]
    · exact State.markPoison_poisoned a s
    · exact State.markPoison_mem ..
    · exact State.markPoison_hbm ..
  case poisoned =>
    rw [exec_memReadRequest up line, State.lineRead_of_poisoned poisoned, State.readZeroed_poisoned poisoned, poisoned]

end Sys2Proof.Machine
end


section
/-!
PROOFS. O18: the poison requests, the residency limit of the write-combining buffer and the patrol scrub (R323, R330, R340).
-/
namespace Sys2Proof.Machine

theorem mem_insertNat_of_mem {x n : Nat} {l : List Nat} (h : x ∈ l) : x ∈ insertNat n l := by
  induction l with
  | nil => cases h
  | cons m l ih =>
    unfold insertNat
    split
    · exact List.mem_cons_of_mem _ h
    · split
      · exact h
      · obtain rfl | rest := List.mem_cons.1 h
        · exact List.mem_cons_self ..
        · exact List.mem_cons_of_mem _ (ih rest)

theorem insertNat_contains (n : Nat) (l : List Nat) (x : Nat) : (insertNat n l).contains x = (l.contains x || x == n) := by
  refine Bool.eq_iff_iff.2 ?_
  simp only [List.contains_iff_mem, Bool.or_eq_true, beq_iff_eq]
  refine ⟨fun h => (mem_insertNat h).symm, ?_⟩
  rintro (h | rfl)
  · exact mem_insertNat_of_mem h
  · exact mem_insertNat_self ..

@[simp] theorem State.markPoison_linePoison (l : Nat) (s : State) : (s.markPoison l).linePoison = insertNat l s.linePoison := by
  unfold State.markPoison
  dsimp only
  split
  · rfl
  · rw [State.count_linePoison]

@[simp] theorem State.markPoison_poisonRequests (l : Nat) (s : State) : (s.markPoison l).poisonRequests = s.poisonRequests := by
  unfold State.markPoison
  dsimp only
  split
  · rfl
  · exact State.count_poisonRequests ..

@[simp] theorem State.markPoison_stack (l k : Nat) (s : State) : (s.markPoison l).stack k = s.stack k := by
  rw [State.stack, State.stack, State.markPoison_hbm]

/-- One line poisoned, and its resident entry discarded. -/
theorem State.poisonLine_facts (l : Nat) (s : State) : (s.poisonLine l).poisonRequests = s.poisonRequests ∧ (s.poisonLine l).mem = s.mem ∧
    (s.poisonLine l).linePoison = insertNat l s.linePoison := by
  unfold State.poisonLine
  dsimp only
  split
  · simp [State.markPoison_mem]
  · simp [State.markPoison_mem]

theorem State.poisonLine_keeps_gone {l k x : Nat} {s : State} (h : (s.stack k).entryOf x = none) :
    ((s.poisonLine l).stack k).entryOf x = none := by
  unfold State.poisonLine
  dsimp only
  split
  next j y hj =>
    rw [State.stack_mapStack]
    split
    next same =>
      obtain ⟨rfl, -⟩ := same
      rw [State.markPoison_stack]
      by_cases hx : x = l
      · exact hx ▸ entryOf_filter_gone ..
      · exact (entryOf_filter _ _ _ hx).trans h
    next => rwa [State.markPoison_stack]
  next => rwa [State.markPoison_stack]

theorem State.poisonLine_gone {l k : Nat} {s : State} (hk : k < 12) (h : stackOf l = some k) :
    ((s.poisonLine l).stack k).entryOf l = none := by
  unfold stackOf at h
  unfold State.poisonLine
  cases place : home l with
  | hbm j y =>
    rw [place] at h
    cases h
    dsimp only
    rw [State.stack_mapStack_self _ hk]
    exact entryOf_filter_gone ..
  | _ =>
    rw [place] at h
    cases h

theorem State.poisonLines_facts (ls : List Nat) (s : State) :
    (ls.foldl (fun s l => s.poisonLine l) s).poisonRequests = s.poisonRequests ∧ (ls.foldl (fun s l => s.poisonLine l) s).mem = s.mem ∧
    ∀ x, (ls.foldl (fun s l => s.poisonLine l) s).linePoison.contains x = (s.linePoison.contains x || ls.contains x) := by
  induction ls generalizing s with
  | nil => exact ⟨rfl, rfl, fun x => (Bool.or_false _).symm⟩
  | cons l ls ih =>
    obtain ⟨requests, mem, poison⟩ := State.poisonLine_facts l s
    obtain ⟨requests', mem', poison'⟩ := ih (s.poisonLine l)
    refine ⟨requests'.trans requests, mem'.trans mem, fun x => ?_⟩
    rw [List.foldl_cons, poison', poison, insertNat_contains, List.contains_cons, Bool.or_assoc]

theorem State.poisonLines_keep_gone {ls : List Nat} {k x : Nat} {s : State} (h : (s.stack k).entryOf x = none) :
    ((ls.foldl (fun s l => s.poisonLine l) s).stack k).entryOf x = none := by
  induction ls generalizing s with
  | nil => exact h
  | cons l ls ih => exact ih (State.poisonLine_keeps_gone h)

theorem State.poisonLines_gone {ls : List Nat} {k x : Nat} {s : State} (hk : k < 12) (hx : stackOf x = some k) (mem : x ∈ ls) :
    ((ls.foldl (fun s l => s.poisonLine l) s).stack k).entryOf x = none := by
  induction ls generalizing s with
  | nil => cases mem
  | cons l ls ih =>
    obtain rfl | rest := List.mem_cons.1 mem
    · exact State.poisonLines_keep_gone (ls := ls) (State.poisonLine_gone hk hx)
    · exact ih rest

/-- The oldest entry written back leaves the others. -/
theorem Stack.filter_oldest {u : Stack} {k : Nat} {e : WcbEntry} {rest : List WcbEntry} (hu : u.wcbOk k = true) (h : u.wcb = e :: rest) :
    u.wcb.filter (fun x => x.line != e.line) = rest := by
  obtain ⟨-, -, distinct⟩ := Stack.wcbOk_iff.1 hu
  rw [h] at distinct ⊢
  rw [List.map_cons, List.nodup_cons] at distinct
  rw [List.filter_cons_of_neg (by simp), List.filter_eq_self]
  intro x hx
  exact bne_iff_ne.2 fun same => distinct.1 (same ▸ List.mem_map_of_mem hx)

@[simp] theorem State.writeBack_clock {s : State} {k : Nat} (e : WcbEntry) : (s.writeBack k e).clock = s.clock := by
  unfold State.writeBack
  dsimp only
  split
  · rfl
  · split <;> simp

/-- An incomplete entry of a poisoned line is lost. -/
theorem State.writeBack_lost {s : State} {k : Nat} {e : WcbEntry} (incomplete : e.mask.toNat ≠ fullMask) (aligned : lineOf e.line = e.line)
    (poison : s.linePoison.contains e.line = true) :
    (s.writeBack k e).mem = s.mem ∧ (s.writeBack k e).linePoison = s.linePoison := by
  unfold State.writeBack
  dsimp only
  rw [if_neg incomplete, if_pos (by simpa [State.poisoned, aligned] using poison)]
  simp

theorem WcbEntry.ok_incomplete {k : Nat} {e : WcbEntry} (h : e.ok k = true) : e.mask.toNat ≠ fullMask := by
  unfold WcbEntry.ok at h
  exact bne_iff_ne.1 (Bool.and_eq_true_iff.1 h).2

/-- A third uncorrectable read poisons its line, if it was not poisoned. -/
theorem State.lineRead_third_poisons {l n : Nat} (s : State) (hn : 3 ≤ n) :
    (s.lineRead l (.uncorrectable n)).linePoison.contains l = true ∧ (s.lineRead l (.uncorrectable n)).mem = s.mem ∧
    (s.lineRead l (.uncorrectable n)).hbm = s.hbm := by
  unfold State.lineRead
  split
  next poisoned => exact ⟨poisoned, rfl, rfl⟩
  next =>
    dsimp only
    rw [if_neg (by omega), if_neg (by omega)]
    refine ⟨?_, State.markPoison_mem .., State.markPoison_hbm ..⟩
    rw [State.markPoison_linePoison, insertNat_contains, BEq.rfl, Bool.or_true]

@[simp] theorem State.lineRead_hbm (l : Nat) (e : ReadError) (s : State) : (s.lineRead l e).hbm = s.hbm := by
  unfold State.lineRead
  split
  · rfl
  · split
    · rfl
    · exact (State.raise_mild_hbm _ (by decide)).trans (State.count_hbm ..)
    · split
      · rfl
      · split
        · exact (State.raise_mild_hbm _ ErrClass.noConfusion).trans (State.count_hbm ..)
        · exact State.markPoison_hbm ..

@[simp] theorem State.lineRead_clock (l : Nat) (e : ReadError) (s : State) : (s.lineRead l e).clock = s.clock := by
  have raised (e : Err) (mild : e.cls ≠ .fatal) (u : State) : (u.raise [e]).clock = u.clock :=
    State.raise_one_mild_same (s := u) (p := .clock) mild (by decide)
  unfold State.lineRead
  split
  · rfl
  · split
    · rfl
    · exact (raised _ (by decide) _).trans (State.count_clock ..)
    · split
      · rfl
      · split
        · exact (raised _ ErrClass.noConfusion _).trans (State.count_clock ..)
        · unfold State.markPoison
          dsimp only
          split <;> simp

theorem State.stack_of_hbm {s t : State} (h : t.hbm = s.hbm) (k : Nat) : t.stack k = s.stack k := by rw [State.stack, State.stack, h]

/-- The residency limit (R323): 4 µs after it came, the oldest entry is read and written back. -/
theorem exec_wcbResidencyTimeout {k : Nat} {error : ReadError} {s : State} {e : WcbEntry} {rest : List WcbEntry}
    (up : s.pins.allGood = true) (wcb : s.wcbOk = true) (oldest : (s.stack k).wcb = e :: rest) :
    exec (.wcbResidencyTimeout ⟨k, error⟩) s = .next (((s.until (e.since + 4000)).lineRead e.line error).writeBack k e) := by
  change execWcbResidencyTimeout ⟨k, error⟩ s = _
  have ok := (Stack.wcbOk_iff.1 (wcbOk_stack wcb k)).2.1 e (oldest ▸ List.mem_cons_self ..)
  unfold execWcbResidencyTimeout
  dsimp only
  rw [up, if_neg (by decide), oldest]
  dsimp only
  rw [if_neg (WcbEntry.ok_incomplete ok)]

theorem exec_patrolScrub_stack {k : Nat} {error : ReadError} {s : State} (up : s.pins.allGood = true) (pool : s.poolOpen = true)
    (on : (s.stack k).scrubEnable = true) {t : State}
    (read : t = (s.lineRead (stackToDevice k (64 * (s.stack k).scrubNext)) error).askService 82) :
    exec (.patrolScrub (.stack k) error) s = .next (if 2 ^ 30 ≤ (s.stack k).scrubNext + 1 then
      (t.mapStack k (fun u => { u with scrubNext := 0 })).count .scrubPasses k 1
      else t.mapStack k (fun u => { u with scrubNext := (s.stack k).scrubNext + 1 })) := by
  change execPatrolScrub (.stack k) error s = _
  subst read
  unfold execPatrolScrub
  rw [up, pool, if_neg (by decide)]
  dsimp only
  rw [if_pos on]
  by_cases wraps : 2 ^ 30 ≤ (s.stack k).scrubNext + 1
  · rw [if_pos wraps, decide_eq_true wraps]
    rfl
  · rw [if_neg wraps, decide_eq_false wraps]
    rfl

theorem exec_patrolScrub_near {d : Nat} {error : ReadError} {s : State} (up : s.pins.allGood = true) (pool : s.poolOpen = true) :
    exec (.patrolScrub (.near d) error) s = .next
      { (s.lineRead (0x10000000000 + 0x40000000 * d + lineOf (4 * Tab.at s.nearScrub 0 d)) error).askService 7 with
        nearScrub := Tab.put ((s.lineRead (0x10000000000 + 0x40000000 * d + lineOf (4 * Tab.at s.nearScrub 0 d)) error).askService 7).nearScrub d
          (if Tab.at s.nearScrub 0 d + 1 ≥ 2 ^ 28 then 0 else Tab.at s.nearScrub 0 d + 1) } := by
  change execPatrolScrub (.near d) error s = _
  unfold execPatrolScrub
  rw [up, pool, if_neg (by decide)]

/-- Settles O18. -/
theorem linesArePoisonedAndWrittenBack : Obligations.LinesArePoisonedAndWrittenBack := by
  refine ⟨fun s r rest up requests => ?request, fun k e rest s wcb mem up oldest => ⟨?written, fun n hn => ?lost⟩,
    fun k s up pool hk on inside => ?scrub, fun u e s spent => ?waits, fun k n s up pool hk on hn => ?scrubPoison,
    fun k s up pool hk on wraps => ?wrap, fun d s up pool hd => ⟨?near, fun n hn => ?nearPoison⟩⟩
  case request =>
    obtain ⟨left, mem, poison⟩ := State.poisonLines_facts r.lines { s with poisonRequests := rest }
    refine ⟨_, ?_, left, mem, poison, fun k l hk stack inside => State.poisonLines_gone hk stack inside⟩
    change execMemPoisonRequest s = _
    unfold execMemPoisonRequest
    rw [up, if_neg (by decide), requests]
  case written =>
    obtain ⟨stack, aligned, length⟩ := entry_ok wcb (oldest ▸ List.mem_cons_self .. : e ∈ (s.stack k).wcb)
    have entry : (s.stack k).entryOf e.line = some e := entryOf_mem (wcbOk_stack wcb k) (oldest ▸ List.mem_cons_self ..)
    refine ⟨_, exec_wcbResidencyTimeout up wcb oldest, ?_, ?_, fun b hb => ⟨?_, ?_⟩⟩ <;> rw [State.lineRead_clean]
    · exact (State.writeBack_wcb _ _ _ (stackAt_lt stack)).trans (Stack.filter_oldest (wcbOk_stack wcb k) oldest)
    · rw [State.writeBack_clock]
      exact Nat.le_max_right ..
    · exact State.writeBack_poison b hb
    · exact (State.writeBack_read (s := s.until (e.since + 4000)) stack aligned length entry (Bool.and_eq_true_iff.1 mem).1 b hb).trans rfl
  case lost =>
    have ok := (Stack.wcbOk_iff.1 (wcbOk_stack wcb k)).2.1 e (oldest ▸ List.mem_cons_self ..)
    obtain ⟨stack, aligned, -⟩ := entry_ok wcb (oldest ▸ List.mem_cons_self .. : e ∈ (s.stack k).wcb)
    obtain ⟨poison, mem', hbm⟩ := State.lineRead_third_poisons (l := e.line) (s.until (e.since + 4000)) hn
    obtain ⟨kept, poison'⟩ := State.writeBack_lost (k := k) (WcbEntry.ok_incomplete ok) (by unfold lineOf; omega) poison
    refine ⟨_, exec_wcbResidencyTimeout up wcb oldest, ?_, poison' ▸ poison, kept.trans mem'⟩
    rw [State.writeBack_wcb _ _ _ (stackAt_lt stack), State.stack_of_hbm hbm]
    exact Stack.filter_oldest (wcbOk_stack wcb k) oldest
  case scrub =>
    refine ⟨_, (exec_patrolScrub_stack up pool on rfl).trans (congrArg Host.Outcome.next (if_neg (by omega))), ?_, ?_, ?_, ?_⟩ <;>
      rw [State.lineRead_clean]
    · rw [State.stack_mapStack_self _ hk]
      rfl
    · rfl
    · rfl
    · rfl
  case waits =>
    change execPatrolScrub u e s = _
    unfold execPatrolScrub
    rw [spent, if_pos (by simp)]
  case scrubPoison =>
    obtain ⟨poison, mem, -⟩ := State.lineRead_third_poisons (l := stackToDevice k (64 * (s.stack k).scrubNext)) s hn
    refine ⟨_, exec_patrolScrub_stack up pool on rfl, ?_, ?_⟩
    · split
      · rw [State.count_linePoison]
        exact poison
      · exact poison
    · split
      · rw [State.count_mem]
        exact mem
      · exact mem
  case wrap =>
    refine ⟨_, (exec_patrolScrub_stack up pool on rfl).trans (congrArg Host.Outcome.next (if_pos (by omega))), ?_⟩
    rw [State.stack_of_hbm (State.count_hbm ..), State.stack_mapStack_self _ hk]
  case near =>
    refine ⟨_, exec_patrolScrub_near up pool, ?_, ?_, ?_⟩ <;> rw [State.lineRead_clean]
    · rfl
    · rfl
    · exact (Tab.at_put ..).trans (if_pos ⟨rfl, hd⟩)
  case nearPoison =>
    obtain ⟨poison, mem, -⟩ :=
      State.lineRead_third_poisons (l := 0x10000000000 + 0x40000000 * d + lineOf (4 * Tab.at s.nearScrub 0 d)) s hn
    exact ⟨_, exec_patrolScrub_near up pool, poison, mem⟩

end Sys2Proof.Machine
end


section
/-!
PROOFS. O19 and O20: the base-die streamers (R335-R338).
-/
namespace Sys2Proof.Machine

theorem State.strmCommand_of_reaches {q : Requester} {op : StrmOp} {p : Nat} {s : State} (reaches : s.reaches q 0x040030 = true)
    (hk : (s.selects q).stack < 12) : s.strmCommand q op p = s.unlatch.strmGo q (s.selects q).stack op p (strmCtrlWord op p) :=
  have reaches' : s.unlatch.reaches q 0x040030 = true := reaches
  (State.gated_of_reaches _ reaches').trans (if_pos hk)

/-- A descriptor with its operation and pattern noted. -/
def State.strmNoted (k : Nat) (op : StrmOp) (p : Nat) (s : State) : State := s.mapStack k (fun u => { u with strmOp := op, strmPattern := p })

/-- The lines of the descriptor of a stack. -/
def Stack.strmLines (u : Stack) : List Int := (List.range u.strmCount).map (strmLine u.strmStart (signed 32 u.strmStride.toNat))

/-- The pattern written over lines of a stack. -/
def State.fillLines (k p v : Nat) (ls : List Int) (s : State) : State :=
  ls.foldl (fun s l => s.acceptLine (strmAddr k l) fullMask (patternLine p v l.toNat)) s

/-- The lines of a descriptor of COMPARE that differ from the pattern. -/
def State.strmDiffer (k p v : Nat) (ls : List Int) (s : State) : Nat :=
  (ls.filter (fun l => s.readZeroed (strmAddr k l) 64 != patternLine p v l.toNat)).length

/-- A descriptor under way, with the count of differing lines. -/
def State.strmStarted (k : Nat) (op : StrmOp) (u : Stack) (differing : Nat) (s : State) : State :=
  (s.askService (82 * u.strmLines.length)).mapStack k (fun w =>
    { w with strmRefused := false,
             strmRun := some { op := op, start := w.strmStart, stride := signed 32 u.strmStride.toNat, count := w.strmCount,
                               differing := differing } })

theorem State.strmNoted_stack {k op p} (s : State) (hk : k < 12) :
    (s.strmNoted k op p).stack k = { s.stack k with strmOp := op, strmPattern := p } := State.stack_mapStack_self _ hk _

theorem State.strmGo_of_jobs {q : Requester} {k : Nat} {op : StrmOp} {p v : Nat} {s : State} (jobs : s.jobs ≠ []) :
    s.strmGo q k op p v = s.discard q 0x040030 v := by
  unfold State.strmGo
  cases h : s.jobs with
  | nil => exact absurd h jobs
  | cons j js => rfl

theorem State.strmGo_refuses {q : Requester} {k : Nat} {op : StrmOp} {p v : Nat} {s : State} (jobs : s.jobs = []) (hk : k < 12)
    (refused : op = .read ∨ strmInside (s.stack k).strmStart (signed 32 (s.stack k).strmStride.toNat) (s.stack k).strmCount = false) :
    s.strmGo q k op p v = (s.strmNoted k op p).mapStack k (fun u => { u with strmRefused := true }) := by
  unfold State.strmGo
  rw [jobs, if_neg (by decide)]
  dsimp only
  rw [State.stack_mapStack_self _ hk]
  exact if_pos (by
    dsimp only
    obtain h | h := refused <;> simp [h])

theorem State.strmGo_fills {q : Requester} {k : Nat} {p v : Nat} {s : State} (jobs : s.jobs = []) (hk : k < 12)
    (inside : strmInside (s.stack k).strmStart (signed 32 (s.stack k).strmStride.toNat) (s.stack k).strmCount = true) :
    s.strmGo q k .fill p v =
      ((s.strmNoted k .fill p).fillLines k p (s.stack k).strmValue.toNat (s.stack k).strmLines).strmStarted k .fill (s.stack k) 0 := by
  unfold State.strmGo
  rw [jobs, if_neg (by decide)]
  dsimp only
  rw [State.stack_mapStack_self _ hk]
  dsimp only
  rw [inside]
  rfl

theorem State.strmGo_reads {q : Requester} {k : Nat} {op : StrmOp} {p v : Nat} {s : State} (jobs : s.jobs = []) (hk : k < 12)
    (inside : strmInside (s.stack k).strmStart (signed 32 (s.stack k).strmStride.toNat) (s.stack k).strmCount = true)
    (hop : op = .readCheck ∨ op = .compare) :
    s.strmGo q k op p v = (s.strmNoted k op p).strmStarted k op (s.stack k)
      (if op = .compare then (s.strmNoted k op p).strmDiffer k p (s.stack k).strmValue.toNat (s.stack k).strmLines else 0) := by
  unfold State.strmGo
  rw [jobs, if_neg (by decide)]
  dsimp only
  rw [State.stack_mapStack_self _ hk]
  dsimp only
  rw [inside]
  obtain rfl | rfl := hop
  · rfl
  · rfl

theorem strmInside_line {start count i : Nat} {stride : Int} (inside : strmInside start stride count = true) (hi : i < count) :
    0 ≤ strmLine start stride i ∧ strmLine start stride i < 2 ^ 30 := by
  have last : ((count - 1 : Nat) : Int) = (count : Int) - 1 := by omega
  simp only [strmInside, Bool.and_eq_true, decide_eq_true_eq, strmLine, last] at inside ⊢
  obtain ⟨⟨⟨-, low⟩, high⟩, first⟩ := inside
  obtain up | down := Int.le_total 0 stride
  · have grows : (i : Int) * stride ≤ ((count : Int) - 1) * stride := Int.mul_le_mul_of_nonneg_right (by omega) up
    have positive : 0 ≤ (i : Int) * stride := Int.mul_nonneg (by omega) up
    omega
  · have falls : ((count : Int) - 1) * stride ≤ (i : Int) * stride := Int.mul_le_mul_of_nonpos_right (by omega) down
    have negative : (i : Int) * stride ≤ 0 := Int.mul_nonpos_of_nonneg_of_nonpos (by omega) down
    omega

theorem home_strmAddr {k : Nat} {l : Int} (hk : k < 12) (hl : l < 2 ^ 30) : home (strmAddr k l) = .hbm k (64 * l.toNat) :=
  addressMapRoundTrip.1 _ _ hk (by omega)

theorem strmAddr_injective {k : Nat} {l x : Int} (hk : k < 12) (hl : 0 ≤ l ∧ l < 2 ^ 30) (hx : 0 ≤ x ∧ x < 2 ^ 30)
    (same : strmAddr k l = strmAddr k x) : l = x := by
  have homes := (home_strmAddr hk hl.2).symm.trans ((congrArg home same).trans (home_strmAddr hk hx.2))
  simp only [Home.hbm.injEq] at homes
  omega

theorem patternLine_length (p v l : Nat) : (patternLine p v l).length = 64 := by
  simp [patternLine, List.length_flatMap, leBytes_length]

theorem State.acceptLine_ok {line mask : Nat} {data : List Byte} {s : State} (aligned : line % 64 = 0) (hm : mask < 2 ^ 64)
    (wcb : s.wcbOk = true) (mem : Memory.wf s.mem = true) :
    (s.acceptLine line mask data).wcbOk = true ∧ Memory.wf (s.acceptLine line mask data).mem = true :=
  have : Stores Part.stored.contains := stores_of rfl
  have evolves : Evolves Part.stored.contains s (s.acceptLine line mask data) := (Evolves.refl _ s).acceptLine aligned hm
  ⟨evolves.wcb wcb, evolves.mem mem⟩

theorem lineOf_add {a b : Nat} (ha : a % 64 = 0) (hb : b < 64) : lineOf (a + b) = a := by
  unfold lineOf
  omega

/-- What a reader of memory gets after the pattern is written over lines of a stack. -/
theorem State.fillLines_read {k p v : Nat} (hk : k < 12) (ls : List Int) (inside : ∀ l ∈ ls, 0 ≤ l ∧ l < 2 ^ 30) {s : State}
    (wcb : s.wcbOk = true) (mem : Memory.wf s.mem = true) :
    ((s.fillLines k p v ls).wcbOk = true ∧ Memory.wf (s.fillLines k p v ls).mem = true) ∧
    (∀ l ∈ ls, ∀ b, b < 64 → (s.fillLines k p v ls).poisoned (strmAddr k l + b) = false ∧
      (s.fillLines k p v ls).readByte (strmAddr k l + b) = (patternLine p v l.toNat).getD b 0) ∧
    ∀ a, (∀ l ∈ ls, lineOf a ≠ strmAddr k l) → s.poisoned a = false →
      (s.fillLines k p v ls).poisoned a = false ∧ (s.fillLines k p v ls).readByte a = s.readByte a := by
  induction ls using List.reverseRecOn with
  | nil => exact ⟨⟨wcb, mem⟩, nofun, fun a _ hp => ⟨hp, rfl⟩⟩
  | append_singleton ls x ih =>
    obtain ⟨⟨wcb', mem'⟩, filled, others⟩ := ih fun l hl => inside l (List.mem_append_left _ hl)
    have hx := inside x (List.mem_append_right _ (List.mem_singleton_self x))
    have aligned := strmAddr_aligned k x
    have last : s.fillLines k p v (ls ++ [x]) = (s.fillLines k p v ls).acceptLine (strmAddr k x) fullMask (patternLine p v x.toNat) := by
      simp [State.fillLines]
    have read (a : Nat) := State.acceptLine_read (mask := fullMask) (data := patternLine p v x.toNat) wcb' mem' aligned
      (by rw [home_strmAddr hk hx.2]; exact nofun) (patternLine_length ..) (by decide) a (.inl rfl)
    rw [last]
    refine ⟨State.acceptLine_ok aligned (by decide) wcb' mem', fun l hl b hb => ?_, fun a ha hp => ?_⟩
    · by_cases same : l = x
      · subst same
        refine ⟨?_, ?_⟩
        · rw [State.poisoned, lineOf_add aligned hb]
          have clears := State.acceptLine_full_clears (a := strmAddr k l) (data := patternLine p v l.toNat) (s := s.fillLines k p v ls)
            (by rw [poisonable, home_strmAddr hk hx.2])
          have line : lineOf (strmAddr k l) = strmAddr k l := lineOf_add (b := 0) aligned (by decide)
          rwa [State.poisoned, line] at clears
        · rw [read, if_pos ⟨lineOf_add aligned hb, bit_full _ (Nat.mod_lt _ (by decide))⟩]
          congr 1
          omega
      · have old : l ∈ ls := (List.mem_append.1 hl).resolve_right fun h => same (List.mem_singleton.1 h)
        obtain ⟨poison, byte⟩ := filled l old b hb
        refine ⟨State.acceptLine_poison _ poison, ?_⟩
        rw [read, lineOf_add (strmAddr_aligned k l) hb, if_neg fun h => same (strmAddr_injective hk (inside l hl) hx h.1), byte]
    · obtain ⟨poison, byte⟩ := others a (fun l hl => ha l (List.mem_append_left _ hl)) hp
      refine ⟨State.acceptLine_poison _ poison, ?_⟩
      rw [read, if_neg fun h => ha x (List.mem_append_right _ (List.mem_singleton_self x)) h.1, byte]

/-- A change of a stack that leaves its write-combining buffer is not seen by a reader of memory. -/
theorem State.readByte_mapStack_of_wcb {k : Nat} {f : Stack → Stack} (hf : ∀ u, (f u).wcb = u.wcb) (s : State) (a : Nat) :
    (s.mapStack k f).readByte a = s.readByte a := by
  have entry (j l : Nat) : ((s.mapStack k f).stack j).entryOf l = (s.stack j).entryOf l := by
    rw [State.stack_mapStack]
    split
    next same => rw [Stack.entryOf, Stack.entryOf, hf, same.1]
    next => rfl
  rw [State.readByte_eq, State.readByte_eq]
  simp only [entry, State.mapStack_mem]

theorem State.strmStarted_read {k : Nat} {op : StrmOp} {u : Stack} {n : Nat} (s : State) (a : Nat) :
    (s.strmStarted k op u n).poisoned a = s.poisoned a ∧ (s.strmStarted k op u n).readByte a = s.readByte a := by
  refine ⟨State.poisoned_congr rfl a, ?_⟩
  unfold State.strmStarted
  rw [State.readByte_mapStack_of_wcb]
  · exact State.readByte_of_same rfl rfl a
  · exact fun _ => rfl

theorem State.strmNoted_read {k : Nat} {op : StrmOp} {p : Nat} (s : State) (a : Nat) :
    (s.strmNoted k op p).poisoned a = s.poisoned a ∧ (s.strmNoted k op p).readByte a = s.readByte a := by
  refine ⟨State.poisoned_congr rfl a, ?_⟩
  unfold State.strmNoted
  rw [State.readByte_mapStack_of_wcb]
  exact fun _ => rfl

@[simp] theorem State.readByte_unlatch (s : State) (a : Nat) : s.unlatch.readByte a = s.readByte a := State.readByte_of_same rfl rfl a

theorem State.strmStarted_stack {k : Nat} {op : StrmOp} {u : Stack} {n : Nat} (s : State) (hk : k < 12) :
    (s.strmStarted k op u n).stack k = { s.stack k with
      strmRefused := false,
      strmRun := some { op := op, start := (s.stack k).strmStart, stride := signed 32 u.strmStride.toNat, count := (s.stack k).strmCount,
                        differing := n } } := State.stack_mapStack_self _ hk _

theorem State.strmNoted_wcbOk {k : Nat} {op : StrmOp} {p : Nat} {s : State} (h : s.wcbOk = true) : (s.strmNoted k op p).wcbOk = true :=
  have : MayHbm [Part.hbm].contains := ⟨rfl⟩
  have evolves : Evolves [Part.hbm].contains s (s.strmNoted k op p) := Evolves.mapStack (Evolves.refl _ s) (fun _ => rfl)
  evolves.wcb h

theorem Stack.mem_strmLines {u : Stack} (inside : strmInside u.strmStart (signed 32 u.strmStride.toNat) u.strmCount = true) :
    ∀ l ∈ u.strmLines, 0 ≤ l ∧ l < 2 ^ 30 := by
  intro l hl
  obtain ⟨i, hi, rfl⟩ := List.mem_map.1 hl
  exact strmInside_line inside (List.mem_range.1 hi)

/-- Settles O19. -/
theorem streamerFills : Obligations.StreamerFills := by
  intro q p k s reaches jobs sel hk wcb mem inside
  subst sel
  have run : exec (.strmFill q p) s = .next _ := congrArg Host.Outcome.next ((State.strmCommand_of_reaches reaches hk).trans
    (State.strmGo_fills (s := s.unlatch) jobs hk inside))
  have noted : (s.unlatch.strmNoted (s.selects q).stack .fill p).wcbOk = true := State.strmNoted_wcbOk wcb
  obtain ⟨-, filled, others⟩ := State.fillLines_read (p := p) (v := (s.stack (s.selects q).stack).strmValue.toNat) hk _ (Stack.mem_strmLines inside)
    noted (Bool.and_eq_true_iff.1 mem).1
  refine ⟨_, run, ?_, ?_, fun i hi => ?_, fun a ha hp => ?_⟩
  · rw [State.strmStarted_stack _ hk]
  · rw [State.strmStarted_stack _ hk]
    rfl
  · obtain ⟨low, high⟩ := strmInside_line inside hi
    refine ⟨_, Int.toNat_of_nonneg low, by omega, fun b hb => ?_⟩
    obtain ⟨poison, byte⟩ := State.strmStarted_read (k := (s.selects q).stack) (op := .fill) (u := s.stack (s.selects q).stack) (n := 0)
      ((s.unlatch.strmNoted (s.selects q).stack .fill p).fillLines (s.selects q).stack p (s.stack (s.selects q).stack).strmValue.toNat
        (s.stack (s.selects q).stack).strmLines)
      (stackToDevice (s.selects q).stack (64 * (strmLine (s.stack (s.selects q).stack).strmStart
        (signed 32 (s.stack (s.selects q).stack).strmStride.toNat) i).toNat) + b)
    obtain ⟨poison', byte'⟩ := filled _ (List.mem_map_of_mem (List.mem_range.2 hi)) b hb
    exact ⟨poison.trans poison', byte.trans byte'⟩
  · obtain ⟨poison, byte⟩ := State.strmStarted_read (k := (s.selects q).stack) (op := .fill) (u := s.stack (s.selects q).stack) (n := 0)
      ((s.unlatch.strmNoted (s.selects q).stack .fill p).fillLines (s.selects q).stack p (s.stack (s.selects q).stack).strmValue.toNat
        (s.stack (s.selects q).stack).strmLines) a
    obtain ⟨poison', byte'⟩ := others a (fun l hl => by
      obtain ⟨i, hi, rfl⟩ := List.mem_map.1 hl
      exact ha i (List.mem_range.1 hi)) hp
    exact ⟨poison.trans poison', (byte.trans byte').trans ((State.strmNoted_read s.unlatch a).2.trans (State.readByte_unlatch s a))⟩

theorem State.strmStarted_noted {k : Nat} {op : StrmOp} {p n : Nat} (s : State) (hk : k < 12) :
    ((s.strmNoted k op p).strmStarted k op (s.stack k) n).mem = s.mem ∧
    ((s.strmNoted k op p).strmStarted k op (s.stack k) n).linePoison = s.linePoison ∧
    ((s.strmNoted k op p).strmStarted k op (s.stack k) n).stack k = { s.stack k with
      strmOp := op, strmPattern := p, strmRefused := false,
      strmRun := some { op := op, start := (s.stack k).strmStart, stride := signed 32 (s.stack k).strmStride.toNat, count := (s.stack k).strmCount,
                        differing := n } } :=
  ⟨rfl, rfl, by rw [State.strmStarted_stack _ hk, State.strmNoted_stack _ hk]⟩

theorem State.strmDiffer_noted (k : Nat) (op : StrmOp) (p p' v : Nat) (ls : List Int) (s : State) :
    (s.strmNoted k op p).strmDiffer k p' v ls = s.strmDiffer k p' v ls := by
  have read (a : Nat) : (s.strmNoted k op p).readZeroed a 64 = s.readZeroed a 64 := by
    refine List.map_congr_left fun i _ => ?_
    rw [(State.strmNoted_read s _).1, (State.strmNoted_read s _).2]
  unfold State.strmDiffer
  simp only [read]

/-- The four commands of a streamer, with the word that each writes to STRM_CTRL. -/
theorem exec_strm {q : Requester} {p : Nat} {s : State} (reaches : s.reaches q 0x040030 = true) (hk : (s.selects q).stack < 12) :
    exec (.strmReadCheck q p) s = .next (s.unlatch.strmGo q (s.selects q).stack .readCheck p (strmCtrlWord .readCheck p)) ∧
    exec (.strmFill q p) s = .next (s.unlatch.strmGo q (s.selects q).stack .fill p (strmCtrlWord .fill p)) ∧
    exec (.strmCompare q p) s = .next (s.unlatch.strmGo q (s.selects q).stack .compare p (strmCtrlWord .compare p)) ∧
    exec (.strmRead q p) s = .next (s.unlatch.strmGo q (s.selects q).stack .read p (strmCtrlWord .read p)) :=
  ⟨congrArg Host.Outcome.next (State.strmCommand_of_reaches reaches hk), congrArg Host.Outcome.next (State.strmCommand_of_reaches reaches hk),
    congrArg Host.Outcome.next (State.strmCommand_of_reaches reaches hk), congrArg Host.Outcome.next (State.strmCommand_of_reaches reaches hk)⟩

/-- A descriptor refused. -/
theorem exec_strm_refused {c : Instr} {q : Requester} {op : StrmOp} {p v : Nat} {s : State}
    (run : exec c s = .next (s.unlatch.strmGo q (s.selects q).stack op p v)) (hk : (s.selects q).stack < 12) (jobs : s.jobs = [])
    (refused : op = .read ∨ strmInside (s.stack (s.selects q).stack).strmStart (signed 32 (s.stack (s.selects q).stack).strmStride.toNat)
      (s.stack (s.selects q).stack).strmCount = false) :
    ∃ t, exec c s = .next t ∧ t.mem = s.mem ∧ t.linePoison = s.linePoison ∧
      t.stack (s.selects q).stack = { s.stack (s.selects q).stack with strmOp := op, strmPattern := p, strmRefused := true } := by
  refine ⟨_, run.trans (congrArg Host.Outcome.next (State.strmGo_refuses (s := s.unlatch) jobs hk refused)), rfl, rfl, ?_⟩
  rw [State.stack_mapStack_self _ hk, State.strmNoted_stack _ hk]
  rfl

/-- A GO discarded while a job is admitted. -/
theorem exec_strm_discarded {c : Instr} {q : Requester} {op : StrmOp} {p v w : Nat} {s : State}
    (run : exec c s = .next (s.unlatch.strmGo q (s.selects q).stack op p w)) (jobs : s.jobs ≠ []) (word : w = v + 4 * p) :
    ∃ t, exec c s = .next t ∧ t.mem = s.mem ∧ t.linePoison = s.linePoison ∧
      Recorded s t (Err.plain .deferred 0x03 6 (requesterNum q) 0x040030 ((v + 4 * p) % 2 ^ 32)) := by
  rw [State.strmGo_of_jobs (s := s.unlatch) jobs, word] at run
  exact ⟨_, run, State.discard_same (p := .mem) rfl, State.discard_same (p := .linePoison) rfl, s.unlatch.discard_recorded q 0x040030 (v + 4 * p)⟩

/-- Settles O20. -/
theorem streamerStartsAndEnds : Obligations.StreamerStartsAndEnds := by
  refine ⟨fun q p k s reaches sel hk => ?_, fun k l s waits => ?waits, fun k r s up pool hk run => ⟨?ends, fun l n hop addressed hn => ?poisons⟩⟩
  · subst sel
    obtain ⟨check, fill, compare, read⟩ := exec_strm (p := p) reaches hk
    refine ⟨fun jobs inside => ⟨?_, ?_⟩, fun jobs => exec_strm_refused read hk jobs (.inl rfl), fun jobs outside c hc => ?_, fun jobs x hx => ?_⟩
    · obtain ⟨mem, poison, stack⟩ := State.strmStarted_noted (op := .readCheck) (p := p) (n := 0) s.unlatch hk
      exact ⟨_, check.trans (congrArg Host.Outcome.next (State.strmGo_reads (s := s.unlatch) jobs hk inside (.inl rfl))), mem, poison, stack⟩
    · have go := State.strmGo_reads (q := q) (p := p) (v := strmCtrlWord .compare p) (s := s.unlatch) jobs hk inside (.inr rfl)
      rw [State.strmDiffer_noted, if_pos rfl] at go
      obtain ⟨mem, poison, stack⟩ := State.strmStarted_noted (op := .compare) (p := p)
        (n := s.unlatch.strmDiffer (s.selects q).stack p (s.stack (s.selects q).stack).strmValue.toNat (s.stack (s.selects q).stack).strmLines)
        s.unlatch hk
      exact ⟨_, compare.trans (congrArg Host.Outcome.next go), mem, poison, stack⟩
    · have refuse {c : Instr} {op : StrmOp} {v : Nat} (run : exec c s = .next (s.unlatch.strmGo q (s.selects q).stack op p v)) :
          ∃ t, exec c s = .next t ∧ t.mem = s.mem ∧ t.linePoison = s.linePoison ∧ (t.stack (s.selects q).stack).strmRefused = true ∧
            (t.stack (s.selects q).stack).strmRun = (s.stack (s.selects q).stack).strmRun := by
        obtain ⟨t, next, mem, poison, stack⟩ := exec_strm_refused run hk jobs (.inr outside)
        exact ⟨t, next, mem, poison, by rw [stack], by rw [stack]⟩
      simp only [List.mem_cons, List.not_mem_nil, or_false] at hc
      obtain rfl | rfl | rfl | rfl := hc
      · exact refuse check
      · exact refuse fill
      · exact refuse compare
      · exact refuse read
    · simp only [List.mem_cons, List.not_mem_nil, or_false] at hx
      obtain rfl | rfl | rfl | rfl := hx
      · exact exec_strm_discarded check jobs (by dsimp only [strmCtrlWord]; omega)
      · exact exec_strm_discarded fill jobs (by dsimp only [strmCtrlWord]; omega)
      · exact exec_strm_discarded compare jobs (by dsimp only [strmCtrlWord]; omega)
      · exact exec_strm_discarded read jobs (by dsimp only [strmCtrlWord]; omega)
  case waits =>
    change execStreamerDone k l s = _
    unfold execStreamerDone
    split
    · rfl
    · rw [if_pos (by obtain h | h := waits <;> simp [h])]
  case ends =>
    change execStreamerDone k [] s = _
    unfold execStreamerDone
    rw [run]
    dsimp only
    rw [up, pool, if_neg (by decide)]
    dsimp only [List.filter_nil, List.foldl_nil]
    rw [ite_self]
  case poisons =>
    have done : exec (.streamerDone k [(l, .uncorrectable n)]) s = .next ((s.lineRead (stackToDevice k (64 * l)) (.uncorrectable n)).mapStack k (fun u =>
        { u with strmRun := none, strmMismatch := if r.op = .compare then sat 24 r.differing else u.strmMismatch })) := by
      change execStreamerDone k [(l, .uncorrectable n)] s = _
      unfold execStreamerDone
      rw [run]
      dsimp only
      rw [up, pool, if_neg (by decide), if_neg hop, List.filter_cons_of_pos (by exact addressed)]
      rfl
    obtain ⟨poison, mem, -⟩ := State.lineRead_third_poisons (l := stackToDevice k (64 * l)) s hn
    refine ⟨_, done, poison, mem, ?_⟩
    rw [State.stack_mapStack_self _ hk]

end Sys2Proof.Machine
end


section
/-!
PROOFS. O21: the host's window over HBM, the link, HDM_MAP and configuration requests (R382-R390, R536).
-/
namespace Sys2Proof.Machine

theorem home_of_lt_hbm {a : Nat} (h : a < 0xC000000000) : ∃ k x, home a = .hbm k x := by
  unfold home
  rw [if_pos h]
  exact ⟨_, _, rfl⟩

theorem mapped_of_lt_hbm {a : Nat} (h : a < 0xC000000000) : home a ≠ .unmapped := by
  obtain ⟨k, x, hk⟩ := home_of_lt_hbm h
  rw [hk]
  exact nofun

/-- A write or a read that the module serves (R389). -/
theorem State.memAccess_eq {s : State} {off n : Nat} (present : s.link.memPresent = true) (going : s.boot.stopped = false)
    (out : s.pins.mreset = false) (up : s.pins.allGood = true) (pool : s.poolOpen = true) (inside : off + n ≤ 2 ^ 36) :
    s.memAccess off n = true := by
  simp only [State.memAccess, present, going, out, up, pool, inside, Bool.not_false, Bool.and_self, decide_true]

theorem State.memServed_eq {s : State} (running : s.errs.fatal = false) (steady : s.trust.changing = none) : s.memServed = true := by
  simp [State.memServed, running, steady]

theorem exec_hostMemWrite {off : Nat} {data : List Byte} {s : State} (access : s.memAccess off data.length = true) (serves : s.memServed = true) :
    exec (.hostMemWrite off data) s = .next (((s.store (s.link.hdmBase * 2 ^ 36 + off) data).noteWrite (s.link.hdmBase * 2 ^ 36 + off)
      (s.link.hdmBase * 2 ^ 36 + off + data.length)).askService (82 * (linesOf (s.link.hdmBase * 2 ^ 36 + off) data.length).length)) := by
  change execHostMemWrite off data s = _
  unfold execHostMemWrite
  rw [access, serves, if_neg (by decide)]

/-- The poisoned lines of a range. -/
def State.badLines (s : State) (a n : Nat) : List Nat := (linesOf a n).filter (fun l => s.linePoison.contains l)

/-- The error that a host read leaves for a poisoned line. -/
def hostPoison (l : Nat) : Err := Err.plain .deferred 0x0E (controllerOf l).1 (controllerOf l).2 l 0

theorem exec_hostMemRead {off len : Nat} {s : State} (access : s.memAccess off len = true) (serves : s.memServed = true) :
    ∃ n, exec (.hostMemRead off len) s = .next
      { (s.raise ((s.badLines (s.link.hdmBase * 2 ^ 36 + off) len).map hostPoison)).askService n with
        resp := .data (((s.raise ((s.badLines (s.link.hdmBase * 2 ^ 36 + off) len).map hostPoison)).askService n).readZeroed
          (s.link.hdmBase * 2 ^ 36 + off) len) (!emptyList (s.badLines (s.link.hdmBase * 2 ^ 36 + off) len)) } := by
  change ∃ n, execHostMemRead off len s = _
  unfold execHostMemRead
  rw [access, serves, if_neg (by decide), if_neg (by decide)]
  exact ⟨_, rfl⟩

theorem State.readZeroed_of_same {s t : State} (mem : t.mem = s.mem) (hbm : t.hbm = s.hbm) (poison : t.linePoison = s.linePoison) (a n : Nat) :
    t.readZeroed a n = s.readZeroed a n := by
  refine List.map_congr_left fun i _ => ?_
  rw [State.poisoned_congr poison, State.readByte_of_same mem hbm]

theorem State.raise_nil {s : State} (running : s.errs.fatal = false) : s.raise [] = s := by
  unfold State.raise
  rw [running, if_neg (by decide)]
  rfl

theorem mem_linesOf {a n i : Nat} (hi : i < n) : lineOf (a + i) ∈ linesOf a n := linesOf_mem (by omega) (by omega)

/-- Zeros where every line that a read touches is poisoned. -/
theorem State.readZeroed_all_poisoned {s : State} {a n : Nat} (h : ∀ l ∈ linesOf a n, s.linePoison.contains l = true) :
    s.readZeroed a n = List.replicate n 0 := by
  refine List.eq_replicate_iff.2 ⟨by simp [State.readZeroed], fun b hb => ?_⟩
  obtain ⟨i, hi, rfl⟩ := List.mem_map.1 hb
  exact if_pos (h _ (mem_linesOf (List.mem_range.1 hi)))

theorem exec_hostMem_waits {off len : Nat} {data : List Byte} {s : State} (h : s.pins.allGood = false ∨ s.poolOpen = false) :
    exec (.hostMemWrite off data) s = .next s ∧ exec (.hostMemRead off len) s = .next s := by
  have closed (n : Nat) : s.memAccess off n = false := by
    obtain h | h := h <;> simp [State.memAccess, h]
  constructor
  · change execHostMemWrite off data s = _
    unfold execHostMemWrite
    rw [closed, if_pos (by simp)]
  · change execHostMemRead off len s = _
    unfold execHostMemRead
    rw [closed, if_pos (by simp)]

theorem exec_linkRetrain {q : Requester} {rate : Nat} {s : State} (h : s.reaches q 0x010500 = true) (hr : rate < 4) :
    exec (.linkRetrain q rate) s = .next (s.unlatch.writeLinkCtrl q (rate + 4)) := by
  have h' : s.unlatch.reaches q 0x010500 = true := h
  have word : exec (.linkRetrain q rate) s = .next (s.unlatch.writeLinkCtrl q (rate % 4 + 4)) :=
    congrArg Host.Outcome.next (State.gated_of_reaches (State.writeLinkCtrl q (rate % 4 + 4)) h')
  rwa [Nat.mod_eq_of_lt hr] at word

theorem linkCtrl_fields {rate : Nat} (h : rate < 4) : bits (rate + 4) 1 0 = rate ∧ bit (rate + 4) 2 = true := by
  interval_cases rate <;> decide

theorem emptyList_iff {α : Type} {l : List α} : emptyList l = true ↔ l = [] := by
  cases l with
  | nil => exact ⟨fun _ => rfl, fun _ => rfl⟩
  | cons x l => exact ⟨nofun, nofun⟩

theorem State.writeLinkCtrl_trains {q : Requester} {rate : Nat} {s : State} (h : rate < 3) (jobs : s.jobs = []) :
    s.writeLinkCtrl q (rate + 4) = { s with link := { s.link with ctrlRate := rate, state := .training } } := by
  obtain ⟨low, go⟩ := linkCtrl_fields (rate := rate) (by omega)
  unfold State.writeLinkCtrl
  rw [low, go, emptyList_iff.2 jobs]
  dsimp only
  rw [if_neg (by simp; omega), if_pos rfl]

theorem State.writeLinkCtrl_discards {q : Requester} {rate : Nat} {s : State} (hr : rate < 4) (h : rate = 3 ∨ s.jobs ≠ []) :
    s.writeLinkCtrl q (rate + 4) = s.discard q 0x010500 (rate + 4) := by
  obtain ⟨low, go⟩ := linkCtrl_fields hr
  unfold State.writeLinkCtrl
  rw [low, go]
  refine if_pos ?_
  obtain h | h := h
  · simp [h]
  · have full : emptyList s.jobs = false := Bool.eq_false_iff.2 fun e => h (emptyList_iff.1 e)
    simp [full]

theorem State.writeHdmMap_moves {q : Requester} {v : Nat} {s : State} (h : v / 2 ^ 36 % 2 ^ 28 < 12) (free : s.link.decoderCommitted = false)
    (jobs : s.jobs = []) : s.writeHdmMap q v = { s with link := { s.link with hdmBase := v / 2 ^ 36 % 2 ^ 28 } } := by
  unfold State.writeHdmMap
  rw [free, emptyList_iff.2 jobs]
  exact if_neg (by simp; omega)

theorem State.writeHdmMap_discards {q : Requester} {v : Nat} {s : State}
    (h : 12 ≤ v / 2 ^ 36 % 2 ^ 28 ∨ s.link.decoderCommitted = true ∨ s.jobs ≠ []) : s.writeHdmMap q v = s.discard q 0x010600 v := by
  unfold State.writeHdmMap
  refine if_pos ?_
  obtain h | h | h := h
  · simp
    omega
  · simp [h]
  · have full : emptyList s.jobs = false := Bool.eq_false_iff.2 fun e => h (emptyList_iff.1 e)
    simp [full]

theorem exec_hdmMapWrite {q : Requester} {v : DWord} {s : State} (h : s.reaches q 0x010600 = true) :
    exec (.hdmMapWrite q v) s = .next (s.unlatch.writeHdmMap q v.toNat) :=
  have h' : s.unlatch.reaches q 0x010600 = true := h
  congrArg Host.Outcome.next (State.gated_of_reaches (State.writeHdmMap q v.toNat) h')

/-- What posting an event may change. -/
def Part.posted : List Part := Part.stored ++ [.msix, .evq]

theorem State.postEvent_same {kind : Nat} {payload : List Byte} {s : State} {p : Part} (hp : Part.posted.contains p = false) :
    p.same s (s.postEvent kind payload) :=
  have : Stores Part.posted.contains := stores_of rfl
  have : MayMsix Part.posted.contains := ⟨rfl⟩
  have : MayEvq Part.posted.contains := ⟨rfl⟩
  (Evolves.refl _ s).postEvent.kept p hp

/-- A training that both modules end at full width posts nothing; any other posts a LINK entry (R384). -/
theorem exec_linkTrainingDone {a b : Bool} {n : Nat} {s : State} (h : s.link.state = .training) (hn : n < 256) {l : Link}
    (hl : l = { s.link with state := if a || b then .up else .down, rate := s.link.ctrlRate, width := flag a + flag b, repaired := n }) :
    exec (.linkTrainingDone a b n) s = .next (if flag a + flag b = 2 then { s with link := l }
      else { s with link := l }.postEvent 4 (leBytes 1 s.link.ctrlRate ++ leBytes 1 (flag a + flag b) ++ leBytes 2 n)) := by
  change execLinkTrainingDone a b n s = _
  unfold execLinkTrainingDone State.trained
  rw [if_pos h, Nat.mod_eq_of_lt hn, hl]
  cases a <;> cases b <;> rfl

theorem exec_linkRecalibration {s : State} (h : s.link.state = .up) : ∃ t, exec .linkRecalibration s = .next t ∧
    t.link = { s.link with state := .recalibrating, lastRecal := some t.clock } ∧
    ∀ u, s.link.lastRecal = some u → u + 100000000 ≤ t.clock := by
  refine ⟨_, show execLinkRecalibration s = _ from if_neg (not_not_intro h), ?_, ?_⟩
  · cases last : s.link.lastRecal <;> simp
  · intro u hu
    rw [hu]
    simp

theorem exec_linkRecalibrationDone {s : State} (h : s.link.state = .recalibrating) :
    exec .linkRecalibrationDone s = .next { s with link := { s.link with state := .up } } := if_pos h

theorem State.posted_of_link {s t : State} {l : Link} {kind : Nat} {payload : List Byte} (h : Posted { s with link := l } t kind payload) :
    Posted s t kind payload := h

/-- Settles O21. -/
theorem linkAndHostWindow : Obligations.LinkAndHostWindow := by
  refine ⟨fun off len data s waits => exec_hostMem_waits waits,
    fun off data s present going out up pool running steady wcb mem inside window => ⟨?write, fun len fits sound => ?read, fun len l fits line poison => ?poisoned⟩,
    fun q rate s reaches hr => ⟨fun hr3 jobs => ?train, fun h => ?noTrain⟩, fun a b n s training hn => ?trained, fun s linkUp => ?recal,
    fun q v s reaches => ⟨fun hv free jobs => ?map, fun h => ?noMap⟩, fun c s => ⟨fun down => if_pos (by simp [down]), fun up early => ?early, fun up late out going => ?late⟩⟩
  case write =>
    have access := State.memAccess_eq present going out up pool inside
    refine ⟨_, exec_hostMemWrite access (State.memServed_eq running steady), ?_, fun b hb => ?_⟩
    · have : Stores Part.stored.contains := stores_of rfl
      have stored : Evolves Part.stored.contains s (s.store (s.link.hdmBase * 2 ^ 36 + off) data) := (Evolves.refl _ s).store
      exact stored.kept .link rfl
    · have read := State.store_read (a := s.link.hdmBase * 2 ^ 36 + off) (bs := data) wcb (Bool.and_eq_true_iff.1 mem).1
        (fun i hi => mapped_of_lt_hbm (by omega)) b hb
      exact read
  case read =>
    have access := State.memAccess_eq present going out up pool fits
    have none : s.badLines (s.link.hdmBase * 2 ^ 36 + off) len = [] := List.filter_eq_nil_iff.2 fun l hl => ne_true_of_eq_false (sound l hl)
    obtain ⟨n, run⟩ := exec_hostMemRead access (State.memServed_eq running steady)
    rw [none, List.map_nil, State.raise_nil running, State.readZeroed_of_same (s := s) (t := s.askService n) rfl rfl rfl] at run
    refine ⟨_, run, ?_, ?_, ?_, ?_⟩
    · rfl
    · rfl
    · rfl
    · rfl
  case poisoned =>
    have access := State.memAccess_eq present going out up pool fits
    have bad : s.badLines (s.link.hdmBase * 2 ^ 36 + off) len = [l] := by rw [State.badLines, line, List.filter_cons_of_pos poison, List.filter_nil]
    have same := State.raise_mild_linePoison (e := hostPoison l) s ErrClass.noConfusion
    obtain ⟨n, run⟩ := exec_hostMemRead access (State.memServed_eq running steady)
    rw [bad, List.map_singleton] at run
    refine ⟨_, run, ?_, ?_, ?_⟩
    · refine congrArg₂ Response.data (State.readZeroed_all_poisoned fun x hx => ?_) rfl
      rw [line] at hx
      rw [List.mem_singleton.1 hx]
      exact (congrArg (List.contains · l) same).trans poison
    · exact State.raise_mild_mem (e := hostPoison l) s ErrClass.noConfusion
    · exact State.raise_recorded s ErrClass.noConfusion
  case train => exact (exec_linkRetrain reaches hr).trans (congrArg Host.Outcome.next (State.writeLinkCtrl_trains (s := s.unlatch) hr3 jobs))
  case noTrain =>
    have run := exec_linkRetrain reaches hr
    rw [State.writeLinkCtrl_discards (s := s.unlatch) hr h] at run
    obtain ⟨t, next, link, -, recorded⟩ := exec_discards .link .link run (by omega) rfl rfl
    exact ⟨t, next, link, recorded⟩
  case trained =>
    refine ⟨_, exec_linkTrainingDone training hn rfl, ?_, fun ha hb => ?_, fun h => ?_⟩
    · split
      · rfl
      · exact State.postEvent_same (p := .link) rfl
    · rw [ha, hb]
      exact ⟨rfl, rfl⟩
    · have half : ¬ flag a + flag b = 2 := by
        intro two
        refine h ?_
        match a, b, two with
        | true, true, _ => exact ⟨rfl, rfl⟩
      rw [if_neg half]
      exact State.posted_of_link (State.postEvent_posted ..)
  case recal =>
    obtain ⟨t, run, link, since⟩ := exec_linkRecalibration linkUp
    exact ⟨t, run, by rw [link], by rw [link], since, _, exec_linkRecalibrationDone (by rw [link]), rfl⟩
  case map => exact (exec_hdmMapWrite reaches).trans (congrArg Host.Outcome.next (State.writeHdmMap_moves (s := s.unlatch) hv free jobs))
  case noMap =>
    have run := exec_hdmMapWrite (v := v) reaches
    rw [State.writeHdmMap_discards (s := s.unlatch) h] at run
    exact ⟨_, run, State.discard_same (p := .link) rfl, s.unlatch.discard_recorded q 0x010600 v.toNat⟩
  case early =>
    change execCxlConfigRequest c s = _
    unfold execCxlConfigRequest
    rw [up, if_neg (by decide), if_pos (.inl early)]
  case late =>
    have go : ∀ l, execCxlConfigRequest l s = .next { s with
        resp := .completed, link := { s.link with decoderCommitted := l.getD s.link.decoderCommitted } } := by
      intro l
      unfold execCxlConfigRequest
      rw [up, if_neg (by decide), if_neg (by simp [out, going]; omega)]
      cases l <;> rfl
    exact ⟨_, go c, rfl, rfl, rfl⟩

end Sys2Proof.Machine
end


section
/-!
PROOFS. Completion records as operations on a ring: what a record written or held leaves (R400, R401, R414).
-/
namespace Sys2Proof.Machine

/-- What a completion record written may change. -/
def Part.completes : List Part := Part.stored ++ [.msix, .rings, .jobs, .tProgram]

theorem State.writeCompletion_same {k : Nat} {c : Completion} {s : State} {p : Part} (hp : Part.completes.contains p = false) :
    p.same s (s.writeCompletion k c) :=
  have : Stores Part.completes.contains := stores_of rfl
  have : MayMsix Part.completes.contains := ⟨rfl⟩
  have : MayRings Part.completes.contains := ⟨rfl⟩
  have : MayJobs Part.completes.contains := ⟨rfl⟩
  have : MayTProgram Part.completes.contains := ⟨rfl⟩
  (Evolves.refl _ s).writeCompletion.kept p hp

/-- A ring with one record more at its tail. -/
def Ring.written (r : Ring) (now : Nat) : Ring :=
  { r with
    cqTail := (r.cqTail + 1) % 2 ^ r.cqSizeLog
    phase := if (r.cqTail + 1) % 2 ^ r.cqSizeLog = 0 then !r.phase else r.phase
    unacked := r.unacked + 1
    firstUnacked := if r.unacked = 0 ∧ r.coalUs ≠ 0 then some now else r.firstUnacked }

/-- A record written: its bytes in host memory, the ring moved on, the job that it ends gone, and the vector raised where due. -/
theorem State.writeCompletion_eq (k : Nat) (c : Completion) (s : State) : s.writeCompletion k c =
    (fun u : State => if c.notify || (s.ring k).unacked + 1 == max (s.ring k).coalCount 1 then u.interrupt (s.ring k).vector else u)
      ((fun u : State => if c.endsJob then u.dropJob k else u)
        ((s.storeHost ((s.ring k).cqBase.toNat + 32 * (s.ring k).cqTail) (c.bytes k (s.ring k))).mapRing k (fun _ =>
          (s.ring k).written (s.storeHost ((s.ring k).cqBase.toNat + 32 * (s.ring k).cqTail) (c.bytes k (s.ring k))).clock))) := rfl

theorem State.storeHost_clock (h : Nat) (bs : List Byte) (s : State) : (s.storeHost h bs).clock = s.clock :=
  State.storeHost_same (p := .clock) rfl

theorem State.storeHost_rings (h : Nat) (bs : List Byte) (s : State) : (s.storeHost h bs).rings = s.rings :=
  State.storeHost_same (p := .rings) rfl

theorem State.writeCompletion_rings (k : Nat) (c : Completion) (s : State) :
    (s.writeCompletion k c).rings = (s.mapRing k (fun r => r.written s.clock)).rings := by
  rw [State.writeCompletion_eq, State.storeHost_clock]
  have stored : ((s.storeHost ((s.ring k).cqBase.toNat + 32 * (s.ring k).cqTail) (c.bytes k (s.ring k))).mapRing k (fun _ =>
      (s.ring k).written s.clock)).rings = (s.mapRing k (fun r => r.written s.clock)).rings := by
    unfold State.mapRing
    dsimp only
    rw [State.storeHost_rings]
  dsimp only
  split <;> split <;> exact stored

theorem State.writeCompletion_ring (k j : Nat) (c : Completion) (s : State) :
    (s.writeCompletion k c).ring j = if j = k ∧ j < 32 then (s.ring k).written s.clock else s.ring j := by
  rw [State.ring, State.writeCompletion_rings, ← State.ring, State.ring_mapRing]

theorem State.writeCompletion_jobs (k : Nat) (c : Completion) (s : State) :
    (s.writeCompletion k c).jobs = if c.endsJob then s.jobs.filter (fun j => j.ring != k) else s.jobs := by
  have stored (u : State) (h : u = s.storeHost ((s.ring k).cqBase.toNat + 32 * (s.ring k).cqTail) (c.bytes k (s.ring k))) : u.jobs = s.jobs :=
    h ▸ State.storeHost_same (p := .jobs) rfl
  rw [State.writeCompletion_eq]
  dsimp only
  generalize hu : s.storeHost ((s.ring k).cqBase.toNat + 32 * (s.ring k).cqTail) (c.bytes k (s.ring k)) = u
  rw [← stored u hu.symm]
  split <;> split <;> rfl

theorem State.writeCompletion_read (k : Nat) (c : Completion) (s : State) (a n : Nat) :
    (s.writeCompletion k c).readRaw a n =
      (s.storeHost ((s.ring k).cqBase.toNat + 32 * (s.ring k).cqTail) (c.bytes k (s.ring k))).readRaw a n := by
  rw [State.writeCompletion_eq]
  generalize s.storeHost ((s.ring k).cqBase.toNat + 32 * (s.ring k).cqTail) (c.bytes k (s.ring k)) = u
  refine State.readRaw_congr ?_ ?_ a n
  · dsimp only
    split <;> split <;> rfl
  · dsimp only
    split <;> split <;> rfl

theorem State.writeCompletion_msix {k : Nat} {c : Completion} {s : State} (notify : c.notify = true) :
    (s.writeCompletion k c).msix = s.msix ++ [(s.ring k).vector] := by
  have stored (u : State) (h : u = s.storeHost ((s.ring k).cqBase.toNat + 32 * (s.ring k).cqTail) (c.bytes k (s.ring k))) : u.msix = s.msix :=
    h ▸ State.storeHost_same (p := .msix) rfl
  rw [State.writeCompletion_eq]
  dsimp only
  rw [notify, Bool.true_or, if_pos rfl]
  generalize hu : s.storeHost ((s.ring k).cqBase.toNat + 32 * (s.ring k).cqTail) (c.bytes k (s.ring k)) = u
  rw [← stored u hu.symm]
  split <;> rfl

theorem State.canComplete_eq {s : State} {k : Nat} : s.canComplete k = true ↔
    s.errs.fatal = false ∧ (s.ring k).enable = true ∧ (s.ring k).error = false ∧ (s.ring k).cqFull = false := by
  simp [State.canComplete, Ring.inUse, and_assoc]

/-- A held record written, the others left. -/
def State.flushed (k : Nat) (c : Completion) (rest : List Completion) (s : State) : State :=
  (s.mapRing k (fun r => { r with held := rest })).writeCompletion k c

theorem State.flushOne_cases {k : Nat} {s : State} {c : Completion} {rest : List Completion} (held : (s.ring k).held = c :: rest)
    (can : s.canComplete k = true) (free : s.awaits c = false) :
    s.flushOne k = s.flushed k c rest ∨
      ∃ n, s.flushOne k = ((s.flushed k c rest).count .cqFullCycles 0 n).mapRing k (fun r => { r with fullSince := none }) := by
  unfold State.flushOne
  rw [held]
  dsimp only
  rw [can, free, if_pos (by decide)]
  split
  · exact .inr ⟨_, rfl⟩
  · exact .inl rfl

theorem State.flushed_ring {k : Nat} {c : Completion} {rest : List Completion} {s : State} (hk : k < 32) :
    (s.flushed k c rest).ring k = { (s.ring k).written s.clock with held := rest } := by
  rw [State.flushed, State.writeCompletion_ring, if_pos ⟨rfl, hk⟩, State.ring_mapRing, if_pos ⟨rfl, hk⟩]
  rfl

theorem State.flushed_ring_other {k j : Nat} {c : Completion} {rest : List Completion} {s : State} (hj : j ≠ k) :
    (s.flushed k c rest).ring j = s.ring j := by
  rw [State.flushed, State.writeCompletion_ring, if_neg fun h => hj h.1, State.ring_mapRing, if_neg fun h => hj h.1]

/-- The oldest held record written where its ring has a slot: the ring, the other rings, the errors, host memory and the vectors. -/
theorem State.flushOne_facts {k : Nat} {s : State} {c : Completion} {rest : List Completion} (hk : k < 32)
    (held : (s.ring k).held = c :: rest) (can : s.canComplete k = true) (free : s.awaits c = false) :
    (∃ full, (s.flushOne k).ring k = { (s.ring k).written s.clock with held := rest, fullSince := full }) ∧
    (∀ j, j ≠ k → (s.flushOne k).ring j = s.ring j) ∧ (s.flushOne k).errs = s.errs ∧ (s.flushOne k).msix = (s.flushed k c rest).msix ∧
    ∀ a n, (s.flushOne k).readRaw a n = (s.flushed k c rest).readRaw a n := by
  have errs : (s.flushed k c rest).errs = s.errs := State.writeCompletion_same (p := .errs) rfl
  obtain once | ⟨n, once⟩ := State.flushOne_cases held can free
  · rw [once]
    exact ⟨⟨_, State.flushed_ring hk⟩, fun j hj => State.flushed_ring_other hj, errs, rfl, fun _ _ => rfl⟩
  · rw [once]
    have ring (j : Nat) : ((s.flushed k c rest).count .cqFullCycles 0 n).ring j = (s.flushed k c rest).ring j := by
      rw [State.ring, State.count_rings, State.ring]
    refine ⟨⟨none, ?_⟩, fun j hj => ?_, ?_, ?_, fun a m => State.readRaw_congr ?_ ?_ a m⟩
    · rw [State.ring_mapRing, if_pos ⟨rfl, hk⟩, ring, State.flushed_ring hk]
    · rw [State.ring_mapRing, if_neg fun h => hj h.1, ring, State.flushed_ring_other hj]
    · rw [State.mapRing_errs, State.count_errs, errs]
    · rw [State.mapRing_msix, State.count_msix]
    · rw [State.mapRing_mem, State.count_mem]
    · rw [State.mapRing_hbm, State.count_hbm]

theorem State.flushOne_idle {k : Nat} {s : State} (h : (s.ring k).held = [] ∨ s.canComplete k = false) : s.flushOne k = s := by
  unfold State.flushOne
  split
  next c rest held =>
    obtain h | h := h
    · rw [held] at h
      cases h
    · rw [h, if_neg (by simp)]
  next => rfl

/-- Slots of a completion queue that the host has not filled. -/
def Ring.free (r : Ring) : Nat := (r.cqHead + 2 ^ r.cqSizeLog - 1 - r.cqTail) % 2 ^ r.cqSizeLog

theorem Ring.cqFull_iff_free {r : Ring} (tail : r.cqTail < 2 ^ r.cqSizeLog) (head : r.cqHead < 2 ^ r.cqSizeLog) :
    r.cqFull = true ↔ r.free = 0 := by
  unfold Ring.cqFull Ring.free
  rw [beq_iff_eq, Nat.mod_eq_of_lt head]
  generalize 2 ^ r.cqSizeLog = n at *
  obtain last | more : r.cqTail + 1 = n ∨ r.cqTail + 1 < n := by omega
  · rw [last, Nat.mod_self]
    have e : r.cqHead + n - 1 - r.cqTail = r.cqHead := by omega
    rw [e, Nat.mod_eq_of_lt head, eq_comm]
  · rw [Nat.mod_eq_of_lt more]
    obtain below | above : r.cqHead ≤ r.cqTail ∨ r.cqTail + 1 ≤ r.cqHead := by omega
    · rw [Nat.mod_eq_of_lt (by omega)]
      omega
    · have e : r.cqHead + n - 1 - r.cqTail = (r.cqHead - 1 - r.cqTail) + n := by omega
      rw [e, Nat.add_mod_right, Nat.mod_eq_of_lt (by omega)]
      omega

theorem Ring.free_written {r : Ring} {now n : Nat} (tail : r.cqTail < 2 ^ r.cqSizeLog) (head : r.cqHead < 2 ^ r.cqSizeLog)
    (free : r.free = n + 1) : (r.written now).free = n := by
  unfold Ring.free Ring.written at *
  dsimp only
  generalize 2 ^ r.cqSizeLog = m at *
  obtain last | more : r.cqTail + 1 = m ∨ r.cqTail + 1 < m := by omega
  · rw [last, Nat.mod_self]
    have e : r.cqHead + m - 1 - r.cqTail = r.cqHead := by omega
    rw [e, Nat.mod_eq_of_lt head] at free
    have e' : r.cqHead + m - 1 - 0 = n + m := by omega
    rw [e', Nat.add_mod_right, Nat.mod_eq_of_lt (by omega)]
  · rw [Nat.mod_eq_of_lt more]
    obtain below | above : r.cqHead ≤ r.cqTail ∨ r.cqTail + 1 ≤ r.cqHead := by omega
    · rw [Nat.mod_eq_of_lt (by omega)] at free
      rw [Nat.mod_eq_of_lt (by omega)]
      omega
    · have e : r.cqHead + m - 1 - r.cqTail = (r.cqHead - 1 - r.cqTail) + m := by omega
      rw [e, Nat.add_mod_right, Nat.mod_eq_of_lt (by omega)] at free
      have e' : r.cqHead + m - 1 - (r.cqTail + 1) = n + m := by omega
      rw [e', Nat.add_mod_right, Nat.mod_eq_of_lt (by omega)]

theorem State.flushAll_idle {k : Nat} {s : State} (h : (s.ring k).held = [] ∨ s.canComplete k = false) (f : Nat) : s.flushAll k f = s := by
  induction f with
  | zero => rfl
  | succ f ih => rw [State.flushAll, State.flushOne_idle h, ih]

theorem State.awaits_flushOne {k : Nat} {s : State} {c d : Completion} {rest : List Completion} (hk : k < 32)
    (held : (s.ring k).held = c :: rest) (can : s.canComplete k = true) (free : s.awaits c = false) (h : s.awaits d = false) :
    (s.flushOne k).awaits d = false := by
  obtain ⟨⟨full, ring⟩, others, -⟩ := State.flushOne_facts hk held can free
  unfold State.awaits at h ⊢
  cases after : d.after with
  | none => rfl
  | some x =>
    rw [after, Option.any_some] at h
    rw [Option.any_some]
    by_cases same : x.1 = k
    · rw [same, held, List.any_cons, Bool.or_eq_false_iff] at h
      rw [same, ring]
      exact h.2
    · rw [others _ same]
      exact h

/-- Held records written while there are slots. -/
theorem State.flushAll_writes {k : Nat} (hk : k < 32) (held : List Completion) {s : State} (hh : (s.ring k).held = held)
    (tail : (s.ring k).cqTail < 2 ^ (s.ring k).cqSizeLog) (head : (s.ring k).cqHead < 2 ^ (s.ring k).cqSizeLog)
    (ready : ∀ c ∈ held, s.awaits c = false) (on : (s.ring k).enable = true) (sound : (s.ring k).error = false) (running : s.errs.fatal = false) :
    ((s.flushAll k held.length).ring k).enable = true ∧
    ((s.flushAll k held.length).ring k).held = held.drop (min held.length (s.ring k).free) ∧
    ((s.flushAll k held.length).ring k).cqTail = ((s.ring k).cqTail + min held.length (s.ring k).free) % 2 ^ (s.ring k).cqSizeLog := by
  induction held generalizing s with
  | nil =>
    rw [List.length_nil, Nat.zero_min, Nat.add_zero, Nat.mod_eq_of_lt tail]
    exact ⟨on, hh, rfl⟩
  | cons c rest ih =>
    cases slots : (s.ring k).free with
    | zero =>
      have full : s.canComplete k = false := by
        rw [← Bool.not_eq_true, State.canComplete_eq]
        exact fun h => absurd ((Ring.cqFull_iff_free tail head).2 slots) (by rw [h.2.2.2]; decide)
      rw [State.flushAll_idle (.inr full), Nat.min_zero, Nat.add_zero, Nat.mod_eq_of_lt tail]
      exact ⟨on, hh, rfl⟩
    | succ n =>
      have can : s.canComplete k = true :=
        State.canComplete_eq.2 ⟨running, on, sound, by rw [← Bool.not_eq_true, Ring.cqFull_iff_free tail head]; omega⟩
      have next : s.flushAll k (c :: rest).length = (s.flushOne k).flushAll k rest.length := rfl
      have c_ready := ready c (List.mem_cons_self ..)
      obtain ⟨⟨full, ring⟩, -, errs, -⟩ := State.flushOne_facts hk hh can c_ready
      have step := ih (s := s.flushOne k) (by rw [ring]) (by rw [ring]; exact Nat.mod_lt _ (Nat.two_pow_pos _)) (by rw [ring]; exact head)
        (fun d hd => State.awaits_flushOne hk hh can c_ready (ready d (List.mem_cons_of_mem _ hd))) (by rw [ring]; exact on)
        (by rw [ring]; exact sound) (by rw [errs]; exact running)
      have left : ((s.flushOne k).ring k).free = n := by
        rw [ring]
        exact Ring.free_written (now := s.clock) tail head slots
      rw [left] at step
      obtain ⟨enable, dropped, moved⟩ := step
      rw [next, List.length_cons, Nat.add_min_add_right, List.drop_succ_cons]
      refine ⟨enable, dropped, moved.trans ?_⟩
      rw [ring]
      change ((_ + 1) % 2 ^ (s.ring k).cqSizeLog + _) % 2 ^ (s.ring k).cqSizeLog = _
      rw [Nat.mod_add_mod, Nat.add_assoc, Nat.add_comm 1]

end Sys2Proof.Machine
end

section
/-!
PROOFS. O22 and O23: doorbells, RING_CTRL and held completion records (R396-R401, R414).
-/
namespace Sys2Proof.Machine

theorem exec_sqDoorbell {q : Requester} {r : Nat} {v : Word} {s : State} (h : s.reaches q (sqDbAddr r) = true) :
    exec (.sqDoorbell q r v) s = .next (s.unlatch.writeSqDb q r v.toNat) :=
  have h' : s.unlatch.reaches q (sqDbAddr r) = true := h
  congrArg Host.Outcome.next (State.gated_of_reaches (State.writeSqDb q r v.toNat) h')

theorem exec_cqDoorbell {q : Requester} {r : Nat} {v : Word} {s : State} (h : s.reaches q (cqDbAddr r) = true) :
    exec (.cqDoorbell q r v) s = .next (s.unlatch.writeCqDb q r v.toNat) :=
  have h' : s.unlatch.reaches q (cqDbAddr r) = true := h
  congrArg Host.Outcome.next (State.gated_of_reaches (State.writeCqDb q r v.toNat) h')

theorem exec_evqDoorbell {q : Requester} {v : Word} {s : State} (h : s.reaches q 0x080100 = true) :
    exec (.evqDoorbell q v) s = .next (s.unlatch.writeEvqDb q v.toNat) :=
  have h' : s.unlatch.reaches q 0x080100 = true := h
  congrArg Host.Outcome.next (State.gated_of_reaches (State.writeEvqDb q v.toNat) h')

theorem exec_ringCtrl {q : Requester} {s : State} (h : s.reaches q 0x020030 = true) :
    exec (.ringEnable q) s = .next (s.unlatch.writeRingCtrl q 1) ∧ exec (.ringDisable q) s = .next (s.unlatch.writeRingCtrl q 0) ∧
    exec (.ringReset q) s = .next (s.unlatch.writeRingCtrl q 2) :=
  have h' : s.unlatch.reaches q 0x020030 = true := h
  ⟨congrArg Host.Outcome.next (State.gated_of_reaches (State.writeRingCtrl q 1) h'),
    congrArg Host.Outcome.next (State.gated_of_reaches (State.writeRingCtrl q 0) h'),
    congrArg Host.Outcome.next (State.gated_of_reaches (State.writeRingCtrl q 2) h')⟩

/-- A ring with its completion head moved (R400, R414). -/
def Ring.acked (g : Ring) (x : Nat) : Ring :=
  { g with
    cqHead := x
    unacked := Ring.outstanding { g with cqHead := x }
    firstUnacked := if Ring.outstanding { g with cqHead := x } = 0 then none else g.firstUnacked }

theorem Ring.acked_all {g : Ring} {x : Nat} (h : x = g.cqTail) (tail : g.cqTail < 2 ^ g.cqSizeLog) :
    (g.acked x).unacked = 0 ∧ (g.acked x).firstUnacked = none := by
  have none_left : Ring.outstanding { g with cqHead := x } = 0 := by
    unfold Ring.outstanding
    dsimp only
    have e : g.cqTail + 2 ^ g.cqSizeLog - x = 2 ^ g.cqSizeLog := by omega
    rw [e, Nat.mod_self]
  exact ⟨none_left, if_pos none_left⟩

theorem State.writeRingCtrl_disables {q : Requester} {s : State} (h : (s.ring (s.selects q).ring).error = true ∨ s.ringBusy (s.selects q).ring = false) :
    s.writeRingCtrl q 0 = s.mapRing (s.selects q).ring (fun g => { g with enable := false }) := by
  unfold State.writeRingCtrl
  dsimp only
  rw [if_neg (by decide), if_neg (by decide), if_neg (by obtain h | h := h <;> simp [h])]

theorem State.writeRingCtrl_keeps {q : Requester} {s : State} (sound : (s.ring (s.selects q).ring).error = false)
    (busy : s.ringBusy (s.selects q).ring = true) : s.writeRingCtrl q 0 = s.discard q 0x020030 0 := by
  unfold State.writeRingCtrl
  dsimp only
  rw [if_neg (by decide), if_neg (by decide), if_pos (by simp [sound, busy])]

theorem State.writeRingCtrl_resets {q : Requester} {s : State} (off : (s.ring (s.selects q).ring).enable = false) :
    s.writeRingCtrl q 2 = s.mapRing (s.selects q).ring Ring.cleared := by
  unfold State.writeRingCtrl
  dsimp only
  rw [if_pos (by decide), if_neg (by simp [off]; decide)]

/-- The ring of a requester's RING_SEL in use. -/
def State.ringEnabled (k : Nat) (s : State) : State := s.mapRing k (fun g => { g with enable := true })

theorem State.writeRingCtrl_enables {q : Requester} {s : State} :
    s.writeRingCtrl q 1 = (s.ringEnabled (s.selects q).ring).flushAll (s.selects q).ring ((s.ringEnabled (s.selects q).ring).ring (s.selects q).ring).held.length := by
  unfold State.writeRingCtrl
  dsimp only
  rw [if_neg (by decide), if_pos (by decide)]
  rfl

theorem State.ringEnabled_ring {k : Nat} {s : State} (hk : k < 32) : (s.ringEnabled k).ring k = { s.ring k with enable := true } :=
  State.ring_mapRing_self _ hk _

theorem State.ringEnabled_awaits {k : Nat} {s : State} {c : Completion} (hk : k < 32) : (s.ringEnabled k).awaits c = s.awaits c := by
  have held (j : Nat) : ((s.ringEnabled k).ring j).held = (s.ring j).held := by
    by_cases same : j = k
    · rw [same, State.ringEnabled_ring hk]
    · rw [State.ringEnabled, State.ring_mapRing, if_neg fun h => same h.1]
  unfold State.awaits
  simp only [held]

/-- RING_CTRL.ENABLE: the ring in use, and its held records written while there are slots (R401). -/
theorem exec_ringEnable {q : Requester} {s : State} (h : s.reaches q 0x020030 = true) (hk : (s.selects q).ring < 32) :
    exec (.ringEnable q) s = .next ((s.unlatch.ringEnabled (s.selects q).ring).flushAll (s.selects q).ring (s.ring (s.selects q).ring).held.length) := by
  have run := (exec_ringCtrl h).1
  rw [State.writeRingCtrl_enables] at run
  refine run.trans (congrArg (fun n => Host.Outcome.next ((s.unlatch.ringEnabled (s.selects q).ring).flushAll (s.selects q).ring n)) ?_)
  have ring := congrArg (fun r : Ring => r.held.length) (State.ringEnabled_ring (s := s.unlatch) hk)
  exact ring

/-- Settles O22. -/
theorem doorbellsAndRingControls : Obligations.DoorbellsAndRingControls := by
  refine ⟨fun q r v s sq cq ev hr => ⟨fun h => ?sq, fun h => ?sqOut, fun h => ?cq, fun h => ?cqOut, fun h => ?ev, fun h => ?evOut⟩,
    fun q s reaches hr => ⟨fun held => ?none, fun c held ready slot sound running => ?one,
      fun size free n hsize tail head hfree hn ready sound running => ?many, fun h => ?disable, fun sound busy => ?busy, fun off => ?reset⟩⟩
  case sq => exact (exec_sqDoorbell sq).trans (congrArg Host.Outcome.next (if_pos ⟨hr, h⟩))
  case sqOut =>
    have run : exec (.sqDoorbell q r v) s = .next (s.unlatch.discard q (sqDbAddr r) v.toNat) :=
      (exec_sqDoorbell sq).trans (congrArg Host.Outcome.next (if_neg fun ok => absurd ok.2 (Nat.not_lt.2 h)))
    obtain ⟨t, next, rings, -, recorded⟩ := exec_discards .rings .rings run v.isLt rfl rfl
    exact ⟨t, next, rings, recorded⟩
  case cq =>
    have run : exec (.cqDoorbell q r v) s = .next (s.unlatch.mapRing r (fun g => g.acked (v.toNat % 4096))) :=
      (exec_cqDoorbell cq).trans (congrArg Host.Outcome.next (if_pos ⟨hr, h⟩))
    have ring : (s.unlatch.mapRing r (fun g => g.acked (v.toNat % 4096))).ring r = (s.ring r).acked (v.toNat % 4096) := State.ring_mapRing_self _ hr _
    refine ⟨_, run, fun k hk => State.ring_mapRing_other _ hk _, ?_, fun all inside => ?_, ?_, ?_, ?_⟩
    · rw [ring]
      rfl
    · rw [ring] at all ⊢
      exact Ring.acked_all all inside
    · rw [ring]
      rfl
    · rw [ring]
      rfl
    · rw [ring]
      rfl
  case cqOut =>
    have run : exec (.cqDoorbell q r v) s = .next (s.unlatch.discard q (cqDbAddr r) v.toNat) :=
      (exec_cqDoorbell cq).trans (congrArg Host.Outcome.next (if_neg fun ok => absurd ok.2 (Nat.not_lt.2 h)))
    obtain ⟨t, next, rings, -, recorded⟩ := exec_discards .rings .rings run v.isLt rfl rfl
    exact ⟨t, next, rings, recorded⟩
  case ev => exact (exec_evqDoorbell ev).trans (congrArg Host.Outcome.next (if_pos h))
  case evOut =>
    have run : exec (.evqDoorbell q v) s = .next (s.unlatch.discard q 0x080100 v.toNat) :=
      (exec_evqDoorbell ev).trans (congrArg Host.Outcome.next (if_neg (Nat.not_lt.2 h)))
    obtain ⟨t, next, evq, -, recorded⟩ := exec_discards .evq .evq run v.isLt rfl rfl
    exact ⟨t, next, evq, recorded⟩
  case none =>
    refine (exec_ringEnable reaches hr).trans ?_
    rw [held]
    rfl
  case one =>
    have run := exec_ringEnable reaches hr
    rw [held] at run
    have ring := State.ringEnabled_ring (s := s.unlatch) hr
    have held' : ((s.unlatch.ringEnabled (s.selects q).ring).ring (s.selects q).ring).held = [c] := by
      rw [ring]
      exact held
    have can : (s.unlatch.ringEnabled (s.selects q).ring).canComplete (s.selects q).ring = true :=
      State.canComplete_eq.2 ⟨running, by rw [ring], by rw [ring]; exact sound, by rw [ring]; exact slot⟩
    obtain ⟨⟨full, written⟩, -⟩ := State.flushOne_facts hr held' can ((State.ringEnabled_awaits (s := s.unlatch) hr).trans ready)
    have once : (s.unlatch.ringEnabled (s.selects q).ring).flushAll (s.selects q).ring [c].length =
        (s.unlatch.ringEnabled (s.selects q).ring).flushOne (s.selects q).ring := rfl
    rw [once] at run
    refine ⟨_, run, ?_, ?_, ?_⟩ <;> rw [written]
    · rw [ring]
      rfl
    · rw [ring]
      rfl
  case many =>
    have ring := State.ringEnabled_ring (s := s.unlatch) hr
    subst hsize hfree hn
    obtain ⟨enable, left, moved⟩ := State.flushAll_writes (s := s.unlatch.ringEnabled (s.selects q).ring) hr (s.ring (s.selects q).ring).held
      (by rw [ring]; rfl) (by rw [ring]; exact tail) (by rw [ring]; exact head)
      (fun c hc => (State.ringEnabled_awaits (s := s.unlatch) hr).trans (ready c hc)) (by rw [ring]) (by rw [ring]; exact sound) running
    rw [ring] at left moved
    exact ⟨_, exec_ringEnable reaches hr, enable, left, moved⟩
  case disable => exact (exec_ringCtrl reaches).2.1.trans (congrArg Host.Outcome.next (State.writeRingCtrl_disables (s := s.unlatch) h))
  case busy =>
    have run := (exec_ringCtrl reaches).2.1
    rw [State.writeRingCtrl_keeps (s := s.unlatch) sound busy] at run
    obtain ⟨t, next, rings, -, recorded⟩ := exec_discards .rings .rings run (by decide) rfl rfl
    exact ⟨t, next, rings, recorded⟩
  case reset => exact (exec_ringCtrl reaches).2.2.trans (congrArg Host.Outcome.next (State.writeRingCtrl_resets (s := s.unlatch) off))

theorem Completion.bytes_length (c : Completion) (k : Nat) (r : Ring) : (c.bytes k r).length = 32 := by
  simp [Completion.bytes, withCrc, leBytes_length]

theorem State.flushed_read {k : Nat} {c : Completion} {rest : List Completion} {s : State} (hk : k < 32) (wcb : s.wcbOk = true)
    (mem : s.memoryOk = true) (sound : ∀ a, 2 ^ 63 ≤ a → s.poisoned a = false)
    (fits : (s.ring k).cqBase.toNat + 32 * (s.ring k).cqTail + 32 ≤ 2 ^ 63) :
    (s.flushed k c rest).readRaw (hostAddr ((s.ring k).cqBase.toNat + 32 * (s.ring k).cqTail)) 32 = c.bytes k (s.ring k) := by
  have ring : (s.mapRing k (fun r => { r with held := rest })).ring k = { s.ring k with held := rest } := State.ring_mapRing_self _ hk _
  rw [State.flushed, State.writeCompletion_read, ring]
  have read := State.storeHost_readRaw (s := s.mapRing k (fun r => { r with held := rest }))
    (h := (s.ring k).cqBase.toNat + 32 * (s.ring k).cqTail) (bs := c.bytes k { s.ring k with held := rest })
    (by rw [Completion.bytes_length]; exact ⟨wcb, mem, fits, sound⟩)
  rw [Completion.bytes_length] at read
  exact read

theorem State.flushed_msix {k : Nat} {c : Completion} {rest : List Completion} {s : State} (hk : k < 32) (notify : c.notify = true) :
    (s.flushed k c rest).msix = s.msix ++ [(s.ring k).vector] := by
  rw [State.flushed, State.writeCompletion_msix notify, State.ring_mapRing_self _ hk]
  rfl

/-- Settles O23. -/
theorem completionRecordsWritten : Obligations.CompletionRecordsWritten := by
  refine fun k s hk wcb mem sound => ⟨fun c rest held ready can fits => ?_, fun t0 since coal => ?_⟩
  · obtain ⟨⟨full, ring⟩, -, -, msix, read⟩ := State.flushOne_facts hk held can ready
    refine ⟨s.flushOne k, rfl, ?_, ?_, ?_, (read _ _).trans (State.flushed_read hk wcb mem sound fits),
      fun notify => msix.trans (State.flushed_msix hk notify)⟩ <;> rw [ring]
    · rfl
    · rfl
  · change execCqCoalesceTimeout k s = _
    unfold execCqCoalesceTimeout
    dsimp only
    rw [since]
    exact if_neg coal

end Sys2Proof.Machine
end

section
/-!
PROOFS. O24: fetching of ring entries (R396, R399, R415).
-/
namespace Sys2Proof.Machine

/-- A ring with one entry more fetched. -/
def Ring.advanced (r : Ring) : Ring := { r with sqHead := (r.sqHead + 1) % 2 ^ r.sqSizeLog }

/-- SQ_HEAD advanced by one, and the fetch counted. -/
def State.fetchedOne (k : Nat) (s : State) : State := (s.mapRing k Ring.advanced).count .ringFetches 0 1

@[simp] theorem State.ring_count (c : Ctr) (i n j : Nat) (s : State) : (s.count c i n).ring j = s.ring j := by
  rw [State.ring, State.count_rings, State.ring]

theorem State.fetchedOne_ring {k : Nat} {s : State} (hk : k < 32) : (s.fetchedOne k).ring k = (s.ring k).advanced := by
  rw [State.fetchedOne, State.ring_count, State.ring_mapRing_self _ hk]

theorem State.fetchedOne_ring_other {k j : Nat} {s : State} (hj : j ≠ k) : (s.fetchedOne k).ring j = s.ring j := by
  rw [State.fetchedOne, State.ring_count, State.ring_mapRing_other _ hj]

theorem State.fetchOne_cancel {k : Nat} {s : State} (h : jdIsCancel (s.sqEntry k 0) = true) (head : (s.ring k).sqHead < 2 ^ (s.ring k).sqSizeLog) :
    s.fetchOne k = (s.fetchedOne k).cancelEntry k (s.sqEntry k 0) := by
  have entry : s.readRaw (hostAddr ((s.ring k).sqBase.toNat + 128 * (s.ring k).sqHead)) 128 = s.sqEntry k 0 := by
    rw [State.sqEntry, Nat.add_zero, Nat.mod_eq_of_lt head]
  unfold State.fetchOne
  dsimp only
  rw [entry, if_pos h]
  rfl

/-- An entry that joins the pending list. -/
def Ring.joined (r : Ring) (b : List Byte) (now : Nat) : Ring :=
  { r with pending := r.pending ++ [{ bytes := b, since := now, aged := false, checked := false, damaged := [], lost := [] }] }

theorem State.fetchOne_joins {k : Nat} {s : State} (h : jdIsCancel (s.sqEntry k 0) = false) (head : (s.ring k).sqHead < 2 ^ (s.ring k).sqSizeLog) :
    s.fetchOne k = (s.fetchedOne k).mapRing k (fun r => r.joined (s.sqEntry k 0) (s.fetchedOne k).clock) := by
  have entry : s.readRaw (hostAddr ((s.ring k).sqBase.toNat + 128 * (s.ring k).sqHead)) 128 = s.sqEntry k 0 := by
    rw [State.sqEntry, Nat.add_zero, Nat.mod_eq_of_lt head]
  unfold State.fetchOne
  dsimp only
  rw [entry, h]
  rfl

theorem Ring.entries_zero_iff {r : Ring} (head : r.sqHead < 2 ^ r.sqSizeLog) (tail : r.sqTail < 2 ^ r.sqSizeLog) :
    r.fetchable = 0 ↔ r.sqHead = r.sqTail ∨ 64 ≤ r.pending.length := by
  unfold Ring.fetchable
  generalize 2 ^ r.sqSizeLog = n at *
  obtain below | above : r.sqHead ≤ r.sqTail ∨ r.sqTail < r.sqHead := by omega
  · have e : r.sqTail + n - r.sqHead = (r.sqTail - r.sqHead) + n := by omega
    rw [e, Nat.add_mod_right, Nat.mod_eq_of_lt (by omega)]
    omega
  · rw [Nat.mod_eq_of_lt (by omega)]
    omega

theorem Ring.fetchable_advanced {r : Ring} {b : List Byte} {now n : Nat} (head : r.sqHead < 2 ^ r.sqSizeLog) (tail : r.sqTail < 2 ^ r.sqSizeLog)
    (h : r.fetchable = n + 1) : (r.advanced.joined b now).fetchable = n := by
  unfold Ring.fetchable Ring.advanced Ring.joined at *
  dsimp only
  rw [List.length_append, List.length_singleton]
  generalize 2 ^ r.sqSizeLog = m at *
  have entries : (r.sqTail + m - r.sqHead) % m = (r.sqTail + m - (r.sqHead + 1) % m) % m + 1 := by
    obtain last | more : r.sqHead + 1 = m ∨ r.sqHead + 1 < m := by omega
    · rw [last, Nat.mod_self, Nat.sub_zero, Nat.add_mod_right, Nat.mod_eq_of_lt tail]
      have e : r.sqTail + m - r.sqHead = r.sqTail + 1 := by omega
      rw [e] at h ⊢
      refine Nat.mod_eq_of_lt (Nat.lt_of_le_of_ne tail fun all => ?_)
      rw [all, Nat.mod_self] at h
      omega
    · rw [Nat.mod_eq_of_lt more]
      obtain below | above : r.sqHead + 1 ≤ r.sqTail ∨ r.sqTail < r.sqHead + 1 := by omega
      · have e : r.sqTail + m - r.sqHead = (r.sqTail - r.sqHead) + m := by omega
        have e' : r.sqTail + m - (r.sqHead + 1) = (r.sqTail - (r.sqHead + 1)) + m := by omega
        rw [e, e', Nat.add_mod_right, Nat.add_mod_right, Nat.mod_eq_of_lt (by omega), Nat.mod_eq_of_lt (by omega)]
        omega
      · have ne : r.sqTail ≠ r.sqHead := by
          intro same
          rw [same, Nat.add_sub_cancel_left, Nat.mod_self] at h
          omega
        rw [Nat.mod_eq_of_lt (by omega), Nat.mod_eq_of_lt (by omega)]
        omega
  omega

theorem State.fetchAll_stops {k : Nat} {s : State} (h : (s.ring k).sqHead = (s.ring k).sqTail ∨ 64 ≤ (s.ring k).pending.length) (f : Nat) :
    s.fetchAll k f = s := by
  cases f with
  | zero => rfl
  | succ f => exact if_pos h

theorem State.fetchOne_facts {k : Nat} {s : State} (hk : k < 32) (run : jdIsCancel (s.sqEntry k 0) = false)
    (head : (s.ring k).sqHead < 2 ^ (s.ring k).sqSizeLog) :
    (s.fetchOne k).mem = s.mem ∧ (s.fetchOne k).hbm = s.hbm ∧ (∀ j, j ≠ k → (s.fetchOne k).ring j = s.ring j) ∧
    ∃ now, (s.fetchOne k).ring k = (s.ring k).advanced.joined (s.sqEntry k 0) now := by
  rw [State.fetchOne_joins run head]
  refine ⟨?_, ?_, fun j hj => ?_, (s.fetchedOne k).clock, ?_⟩
  · rw [State.mapRing_mem, State.fetchedOne, State.count_mem, State.mapRing_mem]
  · rw [State.mapRing_hbm, State.fetchedOne, State.count_hbm, State.mapRing_hbm]
  · rw [State.ring_mapRing_other _ hj, State.fetchedOne_ring_other hj]
  · rw [State.ring_mapRing_self _ hk, State.fetchedOne_ring hk]

theorem State.sqEntry_fetchOne {k i : Nat} {s : State} (hk : k < 32) (run : jdIsCancel (s.sqEntry k 0) = false)
    (head : (s.ring k).sqHead < 2 ^ (s.ring k).sqSizeLog) : (s.fetchOne k).sqEntry k i = s.sqEntry k (i + 1) := by
  obtain ⟨mem, hbm, -, now, ring⟩ := State.fetchOne_facts hk run head
  unfold State.sqEntry
  rw [ring, State.readRaw_congr mem hbm]
  have slot : (((s.ring k).sqHead + 1) % 2 ^ (s.ring k).sqSizeLog + i) % 2 ^ (s.ring k).sqSizeLog =
      ((s.ring k).sqHead + (i + 1)) % 2 ^ (s.ring k).sqSizeLog := by rw [Nat.mod_add_mod, Nat.add_assoc, Nat.add_comm 1]
  rw [← slot]
  rfl

/-- A fetch of entries that are no CANCEL (R399). -/
theorem State.fetchAll_facts {k : Nat} (hk : k < 32) (n : Nat) {f : Nat} {s : State} (hn : (s.ring k).fetchable = n) (enough : n ≤ f)
    (head : (s.ring k).sqHead < 2 ^ (s.ring k).sqSizeLog) (tail : (s.ring k).sqTail < 2 ^ (s.ring k).sqSizeLog)
    (run : ∀ i, i < n → jdIsCancel (s.sqEntry k i) = false) :
    (s.fetchAll k f).mem = s.mem ∧ (∀ j, j ≠ k → (s.fetchAll k f).ring j = s.ring j) ∧
    ((s.fetchAll k f).ring k).pending.map (·.bytes) = (s.ring k).pending.map (·.bytes) ++ (List.range n).map (s.sqEntry k) ∧
    ((s.fetchAll k f).ring k).sqHead = ((s.ring k).sqHead + n) % 2 ^ (s.ring k).sqSizeLog := by
  induction n generalizing s f with
  | zero =>
    rw [State.fetchAll_stops ((Ring.entries_zero_iff head tail).1 hn), Nat.add_zero, Nat.mod_eq_of_lt head]
    simp
  | succ n ih =>
    obtain ⟨f, rfl⟩ : ∃ g, f = g + 1 := ⟨f - 1, by omega⟩
    have go : s.fetchAll k (f + 1) = (s.fetchOne k).fetchAll k f :=
      if_neg fun stop => by rw [(Ring.entries_zero_iff head tail).2 stop] at hn; cases hn
    have first := run 0 (by omega)
    obtain ⟨mem, -, others, now, ring⟩ := State.fetchOne_facts hk first head
    obtain ⟨mem', others', pending, moved⟩ := ih (s := s.fetchOne k) (f := f) (by rw [ring]; exact Ring.fetchable_advanced head tail hn) (by omega)
      (by rw [ring]; exact Nat.mod_lt _ (Nat.two_pow_pos _)) (by rw [ring]; exact tail)
      (fun i hi => by rw [State.sqEntry_fetchOne hk first head]; exact run (i + 1) (by omega))
    rw [go]
    refine ⟨mem'.trans mem, fun j hj => (others' j hj).trans (others j hj), pending.trans ?_, moved.trans ?_⟩
    · rw [ring, List.range_succ_eq_map, List.map_cons, List.map_map]
      have entries : (List.range n).map ((s.fetchOne k).sqEntry k) = (List.range n).map (s.sqEntry k ∘ Nat.succ) :=
        List.map_congr_left fun i _ => State.sqEntry_fetchOne hk first head
      rw [entries]
      simp [Ring.joined, Ring.advanced]
    · rw [ring]
      change ((_ + 1) % 2 ^ (s.ring k).sqSizeLog + n) % 2 ^ (s.ring k).sqSizeLog = _
      rw [Nat.mod_add_mod, Nat.add_assoc, Nat.add_comm 1]

/-- A CANCEL that matches nothing leaves the state (R415). -/
theorem State.cancel_misses {r tag : Nat} {s : State} (job : s.job r = none) (pending : (s.ring r).pending = []) :
    s.cancel r tag = (s, false) := by
  unfold State.cancel
  rw [job, pending]
  rfl

theorem State.cancelEntry_misses {k : Nat} {b : List Byte} {s : State}
    (h : jdTargetRing b < 32 → s.job (jdTargetRing b) = none ∧ (s.ring (jdTargetRing b)).pending = []) :
    s.cancelEntry k b = s.complete k (Completion.plain (jdTag b) 0x15 0 false) := by
  unfold State.cancelEntry
  split
  next inside => rw [State.cancel_misses (h inside).1 (h inside).2]; rfl
  next => rfl

/-- A record that ends no job: written at once where its ring has a slot and holds nothing back, else held last (R401). -/
theorem State.complete_plain {k tag status code : Nat} {notify : Bool} {s : State} (running : s.errs.fatal = false) (use : (s.ring k).inUse = true) :
    ((s.ring k).cqFull = false → (s.ring k).held = [] →
      s.complete k (Completion.plain tag status code notify) = s.writeCompletion k (Completion.plain tag status code notify)) ∧
    ((s.ring k).cqFull = true ∨ (s.ring k).held ≠ [] →
      s.complete k (Completion.plain tag status code notify) = s.holdRecord k (Completion.plain tag status code notify)) := by
  unfold State.complete
  rw [running, if_neg (by decide)]
  refine ⟨fun slot none => if_pos ?_, fun h => if_neg ?_⟩
  · rw [none]
    simp [State.canComplete, running, use, slot, Completion.plain, State.awaits, emptyList]
  · obtain full | some := h
    · simp [State.canComplete, full]
    · have held : emptyList (s.ring k).held = false := Bool.eq_false_iff.2 fun e => some (emptyList_iff.1 e)
      simp [held]

/-- What the record of a CANCEL that matches nothing leaves of its ring. -/
theorem State.complete_plain_facts {k tag status code : Nat} {notify : Bool} {s : State} (hk : k < 32) (running : s.errs.fatal = false) (use : (s.ring k).inUse = true)
    {t : State} (ht : t = s.complete k (Completion.plain tag status code notify)) :
    (t.ring k).pending = (s.ring k).pending ∧ (t.ring k).sqHead = (s.ring k).sqHead ∧ (t.ring k).sqTail = (s.ring k).sqTail ∧ t.jobs = s.jobs ∧
    ((s.ring k).cqFull = false → (s.ring k).held = [] → (t.ring k).held = [] ∧
      (t.ring k).cqTail = ((s.ring k).cqTail + 1) % 2 ^ (s.ring k).cqSizeLog) ∧
    ((s.ring k).cqFull = true ∨ (s.ring k).held ≠ [] →
      (t.ring k).held = (s.ring k).held ++ [Completion.plain tag status code notify] ∧ (t.ring k).cqTail = (s.ring k).cqTail) := by
  obtain ⟨writes, holds⟩ := State.complete_plain (tag := tag) (status := status) (code := code) (notify := notify) running use
  by_cases now : (s.ring k).cqFull = false ∧ (s.ring k).held = []
  · obtain ⟨slot, none⟩ := now
    have ring : (s.writeCompletion k (Completion.plain tag status code notify)).ring k = (s.ring k).written s.clock := by
      rw [State.writeCompletion_ring, if_pos ⟨rfl, hk⟩]
    rw [ht, writes slot none, ring]
    refine ⟨rfl, rfl, rfl, State.writeCompletion_jobs .., fun _ _ => ⟨none, rfl⟩, fun h => ?_⟩
    obtain full | some := h
    · rw [full] at slot
      cases slot
    · exact absurd none some
  · have later : (s.ring k).cqFull = true ∨ (s.ring k).held ≠ [] := by
      cases full : (s.ring k).cqFull with
      | true => exact .inl rfl
      | false => exact .inr fun none => now ⟨full, none⟩
    rw [ht, holds later, State.holdRecord, State.ring_mapRing_self _ hk]
    exact ⟨rfl, rfl, rfl, rfl, fun slot none => absurd ⟨slot, none⟩ now, fun _ => ⟨rfl, rfl⟩⟩

theorem State.fetchedOne_job {k r : Nat} {s : State} : (s.fetchedOne k).job r = s.job r := by
  rw [State.job, State.fetchedOne, State.count_jobs, State.job, State.mapRing_jobs]

/-- What advancing SQ_HEAD leaves of a ring. -/
theorem State.fetchedOne_pending {k j : Nat} {s : State} (hk : k < 32) : ((s.fetchedOne k).ring j).pending = (s.ring j).pending := by
  by_cases same : j = k
  · rw [same, State.fetchedOne_ring hk]
    rfl
  · rw [State.fetchedOne_ring_other same]

theorem exec_ringFetch {k : Nat} {s : State} (hk : k < 32) (running : s.errs.fatal = false) (on : s.halt = .running) (out : s.pins.mreset = false)
    (up : s.pins.allGood = true) (use : (s.ring k).inUse = true) : exec (.ringFetch k) s = .next (s.fetchAll k 4096) :=
  if_pos (by simp [State.admits, hk, running, on, out, up, use])

theorem State.posted_of_mapRing {s t : State} {k kind : Nat} {f : Ring → Ring} {payload : List Byte} (h : Posted (s.mapRing k f) t kind payload) :
    Posted s t kind payload := h

/-- Settles O24. -/
theorem entriesFetchedInOrder : Obligations.EntriesFetchedInOrder := by
  refine fun k s hk running on out up use => ⟨fun head tail run => ?_, fun head tail two room cancel misses => ?_, fun completion a => ?_⟩
  · have few : (s.ring k).fetchable ≤ 4096 := (Nat.min_le_left ..).trans (by omega)
    obtain ⟨mem, others, pending, moved⟩ := State.fetchAll_facts hk _ rfl few head tail run
    exact ⟨_, exec_ringFetch hk running on out up use, mem, others, pending, moved⟩
  · have ring := State.fetchedOne_ring (s := s) hk
    have errs : (s.fetchedOne k).errs = s.errs := by rw [State.fetchedOne, State.count_errs, State.mapRing_errs]
    have step : s.fetchOne k = (s.fetchedOne k).complete k (Completion.plain (jdTag (s.sqEntry k 0)) 0x15 0 false) :=
      (State.fetchOne_cancel cancel head).trans (State.cancelEntry_misses fun inside => by
        rw [State.fetchedOne_job, State.fetchedOne_pending hk]
        exact misses inside)
    obtain ⟨pending, headNow, tailNow, jobs, writes, holds⟩ :=
      State.complete_plain_facts (s := s.fetchedOne k) hk (by rw [errs]; exact running) (by rw [ring]; exact use) step
    have apart : ¬ ((s.ring k).sqHead = (s.ring k).sqTail ∨ 64 ≤ (s.ring k).pending.length) := by
      rintro (same | full)
      · have big : 2 ≤ 2 ^ (s.ring k).sqSizeLog := (Nat.pow_le_pow_right (n := 2) (by decide) two : 2 ^ 1 ≤ _)
        generalize 2 ^ (s.ring k).sqSizeLog = n at *
        rw [same] at head
        obtain last | more : (s.ring k).sqHead + 1 = n ∨ (s.ring k).sqHead + 1 < n := by omega
        · rw [last, Nat.mod_self] at tail
          omega
        · rw [Nat.mod_eq_of_lt more] at tail
          omega
      · omega
    have go : s.fetchAll k 4096 = s.fetchOne k := by
      refine (if_neg apart : s.fetchAll k (4095 + 1) = (s.fetchOne k).fetchAll k 4095).trans (State.fetchAll_stops (.inl ?_) _)
      rw [headNow, tailNow, ring]
      exact tail.symm
    have run := exec_ringFetch hk running on out up use
    rw [go] at run
    rw [ring] at pending headNow writes holds
    refine ⟨_, run, pending, headNow.trans tail.symm, jobs.trans ?_, writes, holds⟩
    rw [State.fetchedOne, State.count_jobs, State.mapRing_jobs]
  · have run : exec (.ringError k completion a) s = .next ((s.mapRing k (fun r => { r with error := true })).postEvent 3
        (leBytes 1 k ++ leBytes 1 (flag completion) ++ leBytes 2 0 ++ leBytes 8 a.toNat)) := if_neg (by simp [hk, running, use])
    have rings (kind : Nat) (payload : List Byte) (u : State) : (u.postEvent kind payload).rings = u.rings := State.postEvent_same (p := .rings) rfl
    have ring (j : Nat) : (((s.mapRing k (fun r => { r with error := true })).postEvent 3
        (leBytes 1 k ++ leBytes 1 (flag completion) ++ leBytes 2 0 ++ leBytes 8 a.toNat)).ring j) =
        (s.mapRing k (fun r => { r with error := true })).ring j := by rw [State.ring, rings, State.ring]
    refine ⟨_, run, ?_, ?_, State.postEvent_same (p := .jobs) rfl, fun j hj => ?_, State.posted_of_mapRing (State.postEvent_posted ..), ?_⟩
    · rw [ring, State.ring_mapRing_self _ hk]
    · rw [ring, State.ring_mapRing_self _ hk]
    · rw [ring, State.ring_mapRing_other _ hj]
    · refine if_neg ?_
      rw [ring, State.ring_mapRing_self _ hk]
      simp [Ring.inUse]

end Sys2Proof.Machine
end


section
/-!
PROOFS. O25: the check, the ageing and the admission of jobs (R406-R408).
-/
namespace Sys2Proof.Machine

theorem State.running_of_admits {s : State} (h : s.admits = true) : s.errs.fatal = false := by
  simp only [State.admits, Bool.and_eq_true, Bool.not_eq_true'] at h
  exact h.1.1.1

/-- The ring of a refused entry before its record. -/
theorem State.refuseJob_eq {r : Nat} {e : PendingEntry} {code : Nat × Nat} {s : State} : s.refuseJob r e code =
    ((s.mapRing r (fun g => { g with pending := g.pending.drop 1 })).count .jobsRefused 0 1).complete r
      (Completion.plain (jdTag e.bytes) code.1 code.2 (jdNotify e.bytes)) := rfl

theorem exec_jobAdmissionCheck {r : Nat} {e : PendingEntry} {rest : List PendingEntry} {found : Bool} {damaged lost : List Nat} {s : State}
    (pending : (s.ring r).pending = e :: rest) (admits : s.admits = true) (use : (s.ring r).inUse = true) (new : e.checked = false) :
    exec (.jobAdmissionCheck ⟨r, found, damaged, lost⟩) s = if (s.admissionCode r e.bytes found).1 = 0 then
      .next (s.mapRing r (fun g => { g with pending := { e with checked := true, damaged := damaged, lost := lost } :: rest }))
      else .next (s.refuseJob r e (s.admissionCode r e.bytes found)) := by
  change execJobAdmissionCheck ⟨r, found, damaged, lost⟩ s = _
  unfold execJobAdmissionCheck
  dsimp only
  rw [pending]
  dsimp only
  rw [if_neg (by simp [new, admits, use])]

theorem State.refused_ring {r : Nat} {e : PendingEntry} {rest : List PendingEntry} {s : State} (hr : r < 32) (pending : (s.ring r).pending = e :: rest) :
    ((s.mapRing r (fun g => { g with pending := g.pending.drop 1 })).count .jobsRefused 0 1).ring r = { s.ring r with pending := rest } := by
  rw [State.ring_count, State.ring_mapRing_self _ hr, pending]
  rfl

theorem Ring.full_since {r : Ring} {now : Nat} (since : r.fullSince.isSome = true) :
    (if r.cqFull && r.fullSince.isNone then some now else r.fullSince) = r.fullSince := by
  cases h : r.fullSince with
  | none => rw [h] at since; cases since
  | some t => simp

theorem exec_jobAged {r : Nat} {e : PendingEntry} {rest : List PendingEntry} {s : State} (pending : (s.ring r).pending = e :: rest)
    (young : e.aged = false) : exec (.jobAged r) s = .next ((s.until (e.since + 1000 * s.jobAge)).mapRing r
      (fun g => { g with pending := { e with aged := true } :: rest })) := by
  change execJobAged r s = _
  unfold execJobAged
  rw [pending]
  dsimp only
  rw [if_neg (by simp [young])]

theorem State.admitFront_admits {r : Nat} {e : PendingEntry} {rest : List PendingEntry} {p : PrkInfo} {s : State}
    (pending : (s.ring r).pending = e :: rest) (young : e.aged = false) (prk : s.pricking (jdPricking e.bytes) = some p)
    (passes : (s.admissionCode r e.bytes true).1 = 0) :
    s.admitFront r = (((s.mapRing r (fun g => { g with pending := rest })).count .pairCheckFailed 0
      (2 * (s.newJob r e.bytes p).damagedCount e.damaged)).admitJob ((s.newJob r e.bytes p).distributed e.damaged e.lost)) := by
  unfold State.admitFront
  rw [pending]
  dsimp only
  rw [prk]
  dsimp only
  rw [if_neg (not_not_intro passes), young]
  rfl

/-- Settles O25. -/
theorem jobsEnter : Obligations.JobsEnter := by
  refine ⟨fun r e rest s hr pending admits use new found damaged lost => ⟨fun passes => ?_, fun fails full since => ?_, fun fails slot none => ?_⟩,
    fun r e rest s _ pending young => exec_jobAged pending young, fun r e rest p s admits next pending young prk passes => ?_, fun s closed => ?_⟩
  · rw [exec_jobAdmissionCheck pending admits use new, if_pos passes]
  · have run := exec_jobAdmissionCheck (found := found) (damaged := damaged) (lost := lost) pending admits use new
    rw [if_neg fails, State.refuseJob_eq] at run
    have ring := State.refused_ring hr pending
    have hold := (State.complete_plain (tag := jdTag e.bytes) (status := (s.admissionCode r e.bytes found).1) (code := (s.admissionCode r e.bytes found).2)
      (notify := jdNotify e.bytes) (s := (s.mapRing r (fun g => { g with pending := g.pending.drop 1 })).count .jobsRefused 0 1) (k := r)
      (by rw [State.count_errs, State.mapRing_errs]; exact State.running_of_admits admits) (by rw [ring]; exact use)).2
      (.inl (by rw [ring]; exact full))
    rw [hold] at run
    refine ⟨_, run, by rw [State.holdRecord, State.mapRing_jobs, State.count_jobs, State.mapRing_jobs], ?_⟩
    rw [State.holdRecord, State.ring_mapRing_self _ hr, ring]
    dsimp only
    rw [Ring.full_since (r := { s.ring r with pending := rest }) since]
  · have run := exec_jobAdmissionCheck (found := found) (damaged := damaged) (lost := lost) pending admits use new
    rw [if_neg fails, State.refuseJob_eq] at run
    have ring := State.refused_ring hr pending
    obtain ⟨pending', -, -, jobs, writes, -⟩ := State.complete_plain_facts (tag := jdTag e.bytes) (status := (s.admissionCode r e.bytes found).1)
      (code := (s.admissionCode r e.bytes found).2) (notify := jdNotify e.bytes)
      (s := (s.mapRing r (fun g => { g with pending := g.pending.drop 1 })).count .jobsRefused 0 1) hr
      (by rw [State.count_errs, State.mapRing_errs]; exact State.running_of_admits admits) (by rw [ring]; exact use) rfl
    rw [ring] at pending' writes
    obtain ⟨held, moved⟩ := writes slot none
    exact ⟨_, run, jobs.trans (by rw [State.count_jobs, State.mapRing_jobs]), pending', held, moved⟩
  · have front := State.admitFront_admits (s := { s with rrNext := (r + 1) % 32 }) pending young prk passes
    refine ⟨State.newJob { s with rrNext := (r + 1) % 32 } r e.bytes p, rfl, rfl, rfl, rfl, rfl, rfl, ?_⟩
    rw [← front]
    change execJobAdmit s = _
    unfold execJobAdmit
    rw [admits, if_neg (by decide), next]
  · change execJobAdmit s = _
    unfold execJobAdmit
    rw [closed, if_pos (by decide)]

end Sys2Proof.Machine
end


section
/-!
PROOFS. Jobs keep their rings and tags through everything that stops them, and what a job's end leaves (R407, R410, Table HI.6).
-/
namespace Sys2Proof.Machine

/-- What names the jobs: their rings and tags, in order. -/
def State.jobNames (s : State) : List (Nat × Nat) := s.jobs.map (fun j => (j.ring, j.tag))

theorem State.jobNames_of_jobs {s t : State} (h : t.jobs = s.jobs) : t.jobNames = s.jobNames := by rw [State.jobNames, h, State.jobNames]

/-- Operations that change no job. -/
theorem Evolves.jobNames {F : Part → Bool} {s t : State} (h : Evolves F s t) (hF : F .jobs = false) : t.jobNames = s.jobNames :=
  State.jobNames_of_jobs (h.kept .jobs hF)

theorem State.jobNames_map {s t : State} {f : Job → Job} (h : t.jobs = s.jobs.map f) (hf : ∀ j, (f j).ring = j.ring ∧ (f j).tag = j.tag) :
    t.jobNames = s.jobNames := by
  rw [State.jobNames, h, List.map_map, State.jobNames]
  exact List.map_congr_left fun j _ => by rw [Function.comp_apply, (hf j).1, (hf j).2]

theorem State.jobNames_mapJob {r : Nat} {f : Job → Job} (hf : ∀ j, (f j).ring = j.ring ∧ (f j).tag = j.tag) (s : State) :
    (s.mapJob r f).jobNames = s.jobNames :=
  State.jobNames_map rfl fun j => by
    split
    · exact hf j
    · exact ⟨rfl, rfl⟩

@[simp] theorem State.jobNames_noteWrite (lo hi : Nat) (s : State) : (s.noteWrite lo hi).jobNames = s.jobNames :=
  State.jobNames_map rfl fun j => by split <;> exact ⟨rfl, rfl⟩

theorem List.foldl_keeps {α β γ : Type} {f : β → α → β} {g : β → γ} (h : ∀ b a, g (f b a) = g b) (l : List α) (b : β) :
    g (l.foldl f b) = g b := by
  induction l generalizing b with
  | nil => rfl
  | cons a l ih => exact (ih (f b a)).trans (h b a)

/-- A job found by its ring where the names stand. -/
theorem State.job_of_jobNames {s t : State} (h : t.jobNames = s.jobNames) {r : Nat} {j : Job} (job : s.job r = some j) :
    ∃ j', t.job r = some j' ∧ j'.tag = j.tag := by
  have find : ∀ l m : List Job, l.map (fun j => (j.ring, j.tag)) = m.map (fun j => (j.ring, j.tag)) →
      m.find? (fun j => j.ring == r) = some j → ∃ j', l.find? (fun j => j.ring == r) = some j' ∧ j'.tag = j.tag := by
    intro l
    induction l with
    | nil =>
      rintro (_ | ⟨y, m⟩) names found
      · cases found
      · cases names
    | cons x l ih =>
      rintro (_ | ⟨y, m⟩) names found
      · cases names
      · obtain ⟨head, tail⟩ := List.cons.inj names
        obtain ⟨ring, tag⟩ := Prod.mk.inj head
        rw [List.find?_cons] at found ⊢
        rw [ring]
        by_cases here : (y.ring == r) = true
        · rw [here] at found ⊢
          exact ⟨x, rfl, tag.trans (congrArg Job.tag (Option.some.inj found))⟩
        · rw [Bool.not_eq_true] at here
          rw [here] at found ⊢
          exact ih m tail found
  exact find _ _ h job

theorem State.enterErr_jobNames (e : Err) (s : State) : (s.enterErr e).jobNames = s.jobNames := by
  have queue (u : State) : (u.enterQueue e).jobs = u.jobs := by
    unfold State.enterQueue
    dsimp only
    split
    · exact (State.countMax_jobs ..).trans (State.count_jobs ..)
    · exact State.countMax_jobs ..
  have event (u : State) : (u.countEvent e).jobNames = u.jobNames := by
    unfold State.countEvent
    split
    · split
      · refine State.jobNames_mapJob (fun j => ?_) u
        split <;> exact ⟨rfl, rfl⟩
      · rfl
    · rfl
  have alert : (if s.errs.fatal then s else s.enterFatal e).jobs = s.jobs := by
    unfold State.enterFatal State.assertAlert
    split
    · rfl
    · dsimp only
      split <;> rfl
  unfold State.enterErr
  split
  · exact State.jobNames_of_jobs (State.count_jobs ..)
  · exact State.jobNames_of_jobs ((State.count_jobs ..).trans (queue s))
  · exact (event _).trans (State.jobNames_of_jobs ((State.count_jobs ..).trans (queue s)))
  · exact State.jobNames_of_jobs ((queue _).trans alert)

@[simp] theorem State.raise_jobNames (l : List Err) (s : State) : (s.raise l).jobNames = s.jobNames := by
  unfold State.raise
  split
  · rfl
  · exact List.foldl_keeps (f := fun s e => State.enterErr e s) (fun u e => State.enterErr_jobNames e u) _ s

/-- What an abort may change beside the ranges that jobs have written. -/
def Part.aborts : List Part := Part.stored ++ [.groups, .poisonRequests, .tVregs, .tWindow, .tStreams, .tQueues]

theorem State.abortMop_jobNames (c : Ctx) (s : State) : (s.abortMop c).jobNames = s.jobNames := by
  have : Stores Part.aborts.contains := stores_of rfl
  have : MayGroups Part.aborts.contains := ⟨rfl⟩
  have : MayPoisonRequests Part.aborts.contains := ⟨rfl⟩
  have : MayTVregs Part.aborts.contains := ⟨rfl⟩
  have : MayTWindow Part.aborts.contains := ⟨rfl⟩
  have : MayTStreams Part.aborts.contains := ⟨rfl⟩
  have : MayTQueues Part.aborts.contains := ⟨rfl⟩
  unfold State.abortMop
  extract_lets +onlyGivenNames s1
  have h1 : s1.jobNames = s.jobNames := Evolves.jobNames (F := Part.aborts.contains) (Evolves.refl _ s).accountWait rfl
  clear_value s1
  extract_lets +onlyGivenNames v2 v3
  clear_value v2 v3
  extract_lets +onlyGivenNames s4
  have h4 : s4.jobNames = s1.jobNames :=
    Evolves.jobNames (F := Part.aborts.contains) ((Evolves.refl _ s1).foldl fun _ _ hu => hu.markRange) rfl
  clear_value s4
  extract_lets +onlyGivenNames s8
  have h8 : s8.jobNames = s4.jobNames := Evolves.jobNames (F := Part.aborts.contains) (Evolves.refl _ s4).requestPoison rfl
  clear_value s8
  extract_lets +onlyGivenNames s9
  have h9 : s9.jobNames = s8.jobNames := List.foldl_keeps (f := fun (s : State) (r : Nat × Nat) => State.noteWrite r.1 r.2 s) (fun u r => State.jobNames_noteWrite ..) _ s8
  clear_value s9
  refine Eq.trans (Evolves.jobNames (F := Part.aborts.contains) (s := s9) ?_ rfl) (h9.trans (h8.trans (h4.trans h1)))
  extract_lets +onlyGivenNames s13
  have h13 : Evolves Part.aborts.contains s9 s13 := (Evolves.refl _ s9).count
  clear_value s13
  extract_lets +onlyGivenNames s14
  have h14 : Evolves Part.aborts.contains s9 s14 := by
    unfold s14
    split
    · exact h13.giveBack
    · exact h13
  clear_value s14
  extract_lets +onlyGivenNames s15
  have h15 : Evolves Part.aborts.contains s9 s15 := by
    unfold s15
    split
    · exact h14.closeRun
    · exact h14
  clear_value s15
  extract_lets +onlyGivenNames s16
  have h16 : Evolves Part.aborts.contains s9 s16 := h15.leaveStream
  clear_value s16
  extract_lets +onlyGivenNames s17
  have h17 : Evolves Part.aborts.contains s9 s17 := Evolves.repace (Evolves.mapTile h16 fun x =>
    ⟨fun e => not_may MayTVregs.mayTVregs e, fun _ => rfl, fun _ => rfl, fun _ => rfl, fun e => not_may MayTWindow.mayTWindow e,
      fun _ => rfl, fun _ => rfl, fun _ => rfl, fun _ => rfl, fun _ => rfl⟩)
  clear_value s17
  exact Evolves.closeChains (h17.foldl fun _ _ hu => hu.setEngine)

theorem State.abortTile_jobNames (t : Nat) (s : State) : (s.abortTile t).jobNames = s.jobNames := by
  have : MayTWindow Part.aborts.contains := ⟨rfl⟩
  unfold State.abortTile
  extract_lets +onlyGivenNames s1
  have h1 : s1.jobNames = s.jobNames := List.foldl_keeps (f := fun s c => State.abortMop c s) (fun u c => State.abortMop_jobNames c u) _ s
  clear_value s1
  refine Eq.trans (Evolves.jobNames (F := Part.aborts.contains) (Evolves.repace ?_) rfl) h1
  exact Evolves.mapTile (Evolves.refl _ s1) fun _ => TKept.only_tWindow rfl

/-- What settling a tile may change. -/
def Part.settles : List Part := Part.stored ++ [.tWindow, .tStreams, .tQueues, .tWindows]

theorem State.settleTile_same {advance : Bool} {t : Nat} {s : State} {p : Part} (hp : Part.settles.contains p = false) :
    p.same s (s.settleTile advance t) :=
  have : Stores Part.settles.contains := stores_of rfl
  have : MayTWindow Part.settles.contains := ⟨rfl⟩
  have : MayTStreams Part.settles.contains := ⟨rfl⟩
  have : MayTQueues Part.settles.contains := ⟨rfl⟩
  have : MayTWindows Part.settles.contains := ⟨rfl⟩
  (Evolves.refl _ s).settleTile.kept p hp

theorem State.settleTile_jobNames (advance : Bool) (t : Nat) (s : State) : (s.settleTile advance t).jobNames = s.jobNames :=
  State.jobNames_of_jobs (State.settleTile_same (p := .jobs) rfl)

/-- The barriers of a job empty and its held errors let go. -/
def Job.disarmed (j : Job) : Job := { j with barriers := j.barriers.map (fun b => { b with arrived := [] }), heldErrs := [] }

/-- The groups of a ring gone. -/
def State.ungrouped (r : Nat) (s : State) : State := { s with groups := s.groups.filter (fun g => g.ring != r) }

/-- A job stopped, before its record is made. -/
def State.halted (r : Nat) (j : Job) (s : State) : State :=
  (((j.tileIds.foldl (fun s t => s.settleTile true t) (j.tileIds.foldl (fun s t => s.abortTile t) s)).mapJob r Job.disarmed).raise j.heldErrs).ungrouped r

theorem State.stopJob_eq {r : Nat} {e : Ending} {j : Job} {s : State} (job : s.job r = some j) (open_ : j.ending = none) :
    s.stopJob r e = (s.halted r j).finishJob r e := by
  unfold State.stopJob
  rw [job]
  dsimp only
  rw [open_, if_neg (by decide)]
  rfl

/-- What a job stopped may change before its record is made. -/
def Part.halts : List Part := Part.aborts ++ Part.raised ++ [.tWindows]

theorem Evolves.halted {s : State} {r : Nat} {j : Job} : Evolves Part.halts.contains s (s.halted r j) :=
  have : Stores Part.halts.contains := stores_of rfl
  have : Raises Part.halts.contains := raises_of rfl
  have : MayGroups Part.halts.contains := ⟨rfl⟩
  have : MayPoisonRequests Part.halts.contains := ⟨rfl⟩
  have : MayTVregs Part.halts.contains := ⟨rfl⟩
  have : MayTWindow Part.halts.contains := ⟨rfl⟩
  have : MayTStreams Part.halts.contains := ⟨rfl⟩
  have : MayTQueues Part.halts.contains := ⟨rfl⟩
  have : MayTWindows Part.halts.contains := ⟨rfl⟩
  have aborted : Evolves Part.halts.contains s (j.tileIds.foldl (fun s t => s.abortTile t) s) :=
    (Evolves.refl _ s).foldl fun _ _ hu => hu.abortTile
  have settled := aborted.foldl (l := j.tileIds) (f := fun s t => s.settleTile true t) fun _ _ hu => hu.settleTile
  have disarmed : Evolves Part.halts.contains s ((j.tileIds.foldl (fun s t => s.settleTile true t)
      (j.tileIds.foldl (fun s t => s.abortTile t) s)).mapJob r Job.disarmed) := Evolves.mapJob settled fun _ => rfl
  disarmed.raise.set_groups

theorem State.halted_rings (r : Nat) (j : Job) (s : State) : (s.halted r j).rings = s.rings := Evolves.halted.kept .rings rfl

theorem State.halted_jobNames (r : Nat) (j : Job) (s : State) : (s.halted r j).jobNames = s.jobNames := by
  refine (show _ = _ from (State.raise_jobNames ..)).trans ((State.jobNames_mapJob (f := Job.disarmed) (fun _ => ⟨rfl, rfl⟩) _).trans ?_)
  exact (List.foldl_keeps (fun u t => State.settleTile_jobNames true t u) _ _).trans (List.foldl_keeps (fun u t => State.abortTile_jobNames t u) _ s)

/-- A job that has ended, its record to be made. -/
def State.ended (r : Nat) (e : Ending) (s : State) : State :=
  s.mapJob r (fun j => { j with ending := some e, recovery := none, committing := false, taking := none })

/-- The completion record of a job (Table HI.6). -/
def State.jobRecord (s : State) (r : Nat) (j : Job) (e : Ending) : Completion :=
  { tag := j.tag, status := e.status, tile := e.tile, code := e.code, seq := e.seq, recoveries := j.recoveries,
    events := ((s.job r).elim 0 (fun j => j.events)), elapsed := sat 32 ((s.clock - j.admitted) / 1000),
    notify := j.notify, endsJob := true, after := none }

theorem State.finishJob_eq {r : Nat} {e : Ending} {j : Job} {s : State} (job : s.job r = some j) :
    s.finishJob r e = (s.ended r e).complete r ((s.ended r e).jobRecord r j e) := by
  unfold State.finishJob
  rw [job]
  rfl

/-- The record of a job's end: written at once where its ring has room and holds nothing back, and it is not a cancelled job's; else
held last (R401, log 23). -/
theorem State.complete_ends {r : Nat} {c : Completion} {s : State} (running : s.errs.fatal = false) (ends : c.endsJob = true) (after : c.after = none) :
    (s.canComplete r = true → (s.ring r).held = [] → c.status ≠ 0x12 → s.complete r c = s.writeCompletion r c) ∧
    (s.canComplete r = false ∨ (s.ring r).held ≠ [] ∨ c.status = 0x12 → s.complete r c = s.holdRecord r c) := by
  have awaits : s.awaits c = false := by rw [State.awaits, after]; rfl
  unfold State.complete
  rw [running, if_neg (by decide), ends, awaits]
  refine ⟨fun can none status => if_pos (by simp [can, none, status, emptyList]), fun h => if_neg ?_⟩
  obtain can | some | status := h
  · simp [can]
  · have held : emptyList (s.ring r).held = false := Bool.eq_false_iff.2 fun e => some (emptyList_iff.1 e)
    simp [held]
  · simp [status]

theorem State.dropJob_job (r : Nat) (s : State) : (s.dropJob r).job r = none :=
  List.find?_eq_none.2 fun j hj => by simpa using (List.mem_filter.1 hj).2

theorem State.dropJob_tile (r x : Nat) (s : State) : ((s.dropJob r).tile x).job ≠ some r := by
  unfold State.tile State.dropJob
  by_cases hx : x < 208
  · rw [Tab.at_map _ Tile.reset _ _ _ hx]
    split
    · exact nofun
    next other => exact other
  · rw [Tab.at, dif_neg hx]
    exact nofun

theorem State.writeCompletion_ends {r : Nat} {c : Completion} {s : State} (ends : c.endsJob = true) :
    (s.writeCompletion r c).job r = none ∧ ∀ x, ((s.writeCompletion r c).tile x).job ≠ some r := by
  rw [State.writeCompletion_eq, ends]
  dsimp only
  rw [if_pos rfl]
  generalize State.mapRing r _ _ = u
  have vector (v : Nat) : ((u.dropJob r).interrupt v).job r = (u.dropJob r).job r ∧ ((u.dropJob r).interrupt v).tiles = (u.dropJob r).tiles := ⟨rfl, rfl⟩
  split
  · exact ⟨(vector _).1.trans (State.dropJob_job r u), fun x => by
      rw [State.tile, (vector _).2]
      exact State.dropJob_tile r x u⟩
  · exact ⟨State.dropJob_job r u, fun x => State.dropJob_tile r x u⟩

theorem State.ended_job {r : Nat} {e : Ending} {j : Job} {s : State} (job : s.job r = some j) : ((s.ended r e).job r).isSome = true := by
  obtain ⟨j', found, -⟩ := State.job_of_jobNames (State.jobNames_mapJob (r := r)
    (f := fun j => { j with ending := some e, recovery := none, committing := false, taking := none }) (fun _ => ⟨rfl, rfl⟩) s) job
  exact Option.isSome_iff_exists.2 ⟨j', found⟩

/-- What a job's end leaves: its record written, and the job gone with its tiles; or held, and the job still there. -/
theorem State.finishJob_facts {r : Nat} {e : Ending} {j : Job} {s : State} (hr : r < 32) (job : s.job r = some j) (running : s.errs.fatal = false) :
    (s.canComplete r = true → (s.ring r).held = [] → e.status ≠ 0x12 →
      (s.finishJob r e).job r = none ∧ (∀ x, ((s.finishJob r e).tile x).job ≠ some r) ∧ ((s.finishJob r e).ring r).held = [] ∧
      ((s.finishJob r e).ring r).cqTail = ((s.ring r).cqTail + 1) % 2 ^ (s.ring r).cqSizeLog) ∧
    (s.canComplete r = false ∨ (s.ring r).held ≠ [] ∨ e.status = 0x12 → ∃ c : Completion,
      ((s.finishJob r e).ring r).held = (s.ring r).held ++ [c] ∧ c.tag = j.tag ∧ c.status = e.status ∧ c.tile = e.tile ∧ c.code = e.code ∧
      c.seq = e.seq ∧ c.endsJob = true ∧ ((s.finishJob r e).ring r).cqTail = (s.ring r).cqTail ∧ ((s.finishJob r e).job r).isSome = true ∧
      (s.finishJob r e).tiles = s.tiles) := by
  obtain ⟨writes, holds⟩ := State.complete_ends (r := r) (c := (s.ended r e).jobRecord r j e) (s := s.ended r e) running rfl rfl
  rw [State.finishJob_eq job]
  refine ⟨fun can none status => ?_, fun h => ?_⟩
  · rw [writes can none status]
    obtain ⟨gone, tiles⟩ := State.writeCompletion_ends (r := r) (c := (s.ended r e).jobRecord r j e) (s := s.ended r e) rfl
    refine ⟨gone, tiles, ?_, ?_⟩ <;> rw [State.writeCompletion_ring, if_pos ⟨rfl, hr⟩]
    · exact none
    · rfl
  · rw [holds h]
    refine ⟨(s.ended r e).jobRecord r j e, ?_, rfl, rfl, rfl, rfl, rfl, rfl, ?_, State.ended_job job, rfl⟩
    · rw [State.holdRecord, State.ring_mapRing_self _ hr]
      rfl
    · rw [State.holdRecord, State.ring_mapRing_self _ hr]
      rfl

theorem State.canComplete_of_same {s t : State} (rings : t.rings = s.rings) (errs : t.errs.fatal = s.errs.fatal) (k : Nat) :
    t.canComplete k = s.canComplete k := by
  unfold State.canComplete State.ring
  rw [rings, errs]

theorem State.ring_of_rings {s t : State} (h : t.rings = s.rings) (k : Nat) : t.ring k = s.ring k := by rw [State.ring, h, State.ring]

theorem State.abortTile_errs (t : Nat) (s : State) : (s.abortTile t).errs = s.errs :=
  have : Stores (Part.aborts ++ [Part.jobs]).contains := stores_of rfl
  have : MayJobs (Part.aborts ++ [Part.jobs]).contains := ⟨rfl⟩
  have : MayGroups (Part.aborts ++ [Part.jobs]).contains := ⟨rfl⟩
  have : MayPoisonRequests (Part.aborts ++ [Part.jobs]).contains := ⟨rfl⟩
  have : MayTVregs (Part.aborts ++ [Part.jobs]).contains := ⟨rfl⟩
  have : MayTWindow (Part.aborts ++ [Part.jobs]).contains := ⟨rfl⟩
  have : MayTStreams (Part.aborts ++ [Part.jobs]).contains := ⟨rfl⟩
  have : MayTQueues (Part.aborts ++ [Part.jobs]).contains := ⟨rfl⟩
  have evolves : Evolves (Part.aborts ++ [Part.jobs]).contains s (s.abortTile t) := (Evolves.refl _ s).abortTile
  evolves.kept .errs rfl

theorem State.abortTiles_errs (ts : List Nat) (s : State) : (ts.foldl (fun s t => s.abortTile t) s).errs = s.errs :=
  List.foldl_keeps (g := State.errs) (f := fun s t => State.abortTile t s) (fun u t => State.abortTile_errs t u) ts s

theorem State.settleTiles_same {advance : Bool} {ts : List Nat} {s : State} {p : Part} (hp : Part.settles.contains p = false) :
    p.same s (ts.foldl (fun s t => s.settleTile advance t) s) :=
  have : Stores Part.settles.contains := stores_of rfl
  have : MayTWindow Part.settles.contains := ⟨rfl⟩
  have : MayTStreams Part.settles.contains := ⟨rfl⟩
  have : MayTQueues Part.settles.contains := ⟨rfl⟩
  have : MayTWindows Part.settles.contains := ⟨rfl⟩
  have evolves : Evolves Part.settles.contains s (ts.foldl (fun s t => s.settleTile advance t) s) :=
    (Evolves.refl _ s).foldl fun _ _ hu => hu.settleTile
  evolves.kept p hp

theorem State.settleTiles_errs (advance : Bool) (ts : List Nat) (s : State) : (ts.foldl (fun s t => s.settleTile advance t) s).errs = s.errs :=
  State.settleTiles_same (p := .errs) rfl

@[simp] theorem State.ungrouped_errs (r : Nat) (s : State) : (s.ungrouped r).errs = s.errs := rfl

theorem State.halted_errs {r : Nat} {j : Job} {s : State} (none : j.heldErrs = []) (running : s.errs.fatal = false) :
    (s.halted r j).errs = s.errs := by
  have before : ((j.tileIds.foldl (fun s t => s.settleTile true t) (j.tileIds.foldl (fun s t => s.abortTile t) s)).mapJob r Job.disarmed).errs = s.errs := by
    rw [State.mapJob_errs, State.settleTiles_errs, State.abortTiles_errs]
  rw [State.halted, none, State.raise_nil (by rw [before]; exact running), State.ungrouped_errs, before]

/-- A job stopped while the module runs and nothing of it is held back (Table TL.6). -/
theorem State.stopJob_ends {j : Job} {e : Ending} {s : State} (hr : j.ring < 32) (job : s.job j.ring = some j) (open_ : j.ending = none)
    (running : s.errs.fatal = false) (none : j.heldErrs = []) : JobEnds s (s.stopJob j.ring e) j e := by
  obtain ⟨j', job', tag⟩ := State.job_of_jobNames (State.halted_jobNames j.ring j s) job
  have errs := State.halted_errs (r := j.ring) none running
  have rings := State.halted_rings j.ring j s
  have can := State.canComplete_of_same rings (congrArg ErrUnit.fatal errs) j.ring
  have ring := State.ring_of_rings rings j.ring
  obtain ⟨writes, holds⟩ := State.finishJob_facts (e := e) hr job' (by rw [errs]; exact running)
  rw [can, ring] at writes holds
  rw [State.stopJob_eq job open_]
  refine ⟨fun hc hh hs => ?_, fun h => ?_⟩
  · obtain ⟨gone, -, held, moved⟩ := writes hc hh hs
    exact ⟨gone, held, moved⟩
  · obtain ⟨c, held, ctag, status, tile, code, seq, ends, -⟩ := holds h
    exact ⟨c, held, ctag.trans tag, status, tile, code, seq, ends⟩

end Sys2Proof.Machine
end

section
/-!
PROOFS. O26 and O27: how jobs end, CANCEL by register, HALT and RELEASE (R410, R415-R418).
-/
namespace Sys2Proof.Machine

theorem State.raise_mild_fatal {l : List Err} {s : State} (mild : ∀ e ∈ l, e.cls ≠ .fatal) : (s.raise l).errs.fatal = s.errs.fatal := by
  have queue (e : Err) (u : State) : (u.enterQueue e).errs.fatal = u.errs.fatal := by rw [State.enterQueue_errs, ErrUnit.enter_fatal]
  have one (e : Err) (u : State) (he : e.cls ≠ .fatal) : (u.enterErr e).errs.fatal = u.errs.fatal := by
    unfold State.enterErr
    split
    · rw [State.count_errs]
    · rw [State.count_errs, queue]
    · rw [State.countEvent_errs, State.count_errs, queue]
    next fatal => exact absurd fatal he
  have fold : ∀ (m : List Err) (u : State), (∀ e ∈ m, e.cls ≠ .fatal) → (m.foldl (fun s e => State.enterErr e s) u).errs.fatal = u.errs.fatal := by
    intro m
    induction m with
    | nil => exact fun _ _ => rfl
    | cons e m ih =>
      exact fun u hm => (ih _ fun x hx => hm x (List.mem_cons_of_mem _ hx)).trans (one e u (hm e (List.mem_cons_self ..)))
  unfold State.raise
  split
  · rfl
  · exact fold _ s fun e he => mild e (Err.mem_of_mem_sorted he)

theorem State.lineRead_fatal (l : Nat) (e : ReadError) (s : State) : (s.lineRead l e).errs.fatal = s.errs.fatal := by
  have raised (e : Err) (mild : e.cls ≠ .fatal) (u : State) : (u.raise [e]).errs.fatal = u.errs.fatal :=
    State.raise_mild_fatal fun x hx => by rwa [List.mem_singleton.1 hx]
  unfold State.lineRead
  split
  · rfl
  · split
    · rfl
    · rw [raised _ (by decide), State.count_errs]
    · split
      · rfl
      · split
        · rw [raised _ ErrClass.noConfusion, State.count_errs]
        · unfold State.markPoison
          dsimp only
          split <;> simp

theorem State.mergeReads_fatal (merges : List (Nat × ReadError)) (s : State) : (s.mergeReads merges).errs.fatal = s.errs.fatal := by
  unfold State.mergeReads
  refine List.foldl_keeps (g := fun u : State => u.errs.fatal) (fun u k => ?_) _ s
  refine List.foldl_keeps (g := fun u : State => u.errs.fatal) (fun v e => ?_) _ u
  split
  · rfl
  · exact State.lineRead_fatal ..

theorem State.lineRead_jobNames (l : Nat) (e : ReadError) (s : State) : (s.lineRead l e).jobNames = s.jobNames := by
  unfold State.lineRead
  split
  · rfl
  · split
    · rfl
    · rw [State.raise_jobNames]
      exact State.jobNames_of_jobs (State.count_jobs ..)
    · split
      · rfl
      · split
        · rw [State.raise_jobNames]
          exact State.jobNames_of_jobs (State.count_jobs ..)
        · unfold State.markPoison
          dsimp only
          split
          · rfl
          · exact State.jobNames_of_jobs (State.count_jobs ..)

theorem State.mergeReads_jobNames (merges : List (Nat × ReadError)) (s : State) : (s.mergeReads merges).jobNames = s.jobNames := by
  unfold State.mergeReads
  refine List.foldl_keeps (g := State.jobNames) (fun u k => ?_) _ s
  refine List.foldl_keeps (g := State.jobNames) (fun v e => ?_) _ u
  split
  · rfl
  · exact State.lineRead_jobNames ..

/-- A job that has retired everything, its queues and windows closed and what it held written back, before its record is made. -/
def State.drained (r : Nat) (j : Job) (merges : List (Nat × ReadError)) (s : State) : State :=
  ((((j.tileIds.foldl (fun s t => s.settleTile false t) (((s.endScheds r).mergeReads merges).writeBackAll))).mapJob r (fun j =>
    { j with heldErrs := [] })).raise j.heldErrs).ungrouped r

theorem exec_jobComplete {r : Nat} {j : Job} {merges : List (Nat × ReadError)} {s : State} (job : s.job r = some j) (running : s.errs.fatal = false)
    (open_ : j.ending = none) (idle : j.committing = false) (steady : j.recovery = none) (done : s.jobFinished j = true) :
    exec (.jobComplete ⟨r, merges⟩) s = .next ((s.drained r j merges).finishJob r (Ending.plain 0x00)) := by
  change execJobComplete ⟨r, merges⟩ s = _
  unfold execJobComplete
  dsimp only
  rw [job]
  dsimp only
  rw [if_neg (by simp [running, open_, idle, steady, done])]
  rfl

theorem Evolves.drained {s : State} {r : Nat} {j : Job} {merges : List (Nat × ReadError)} : Evolves Part.halts.contains s (s.drained r j merges) :=
  have : Stores Part.halts.contains := stores_of rfl
  have : Raises Part.halts.contains := raises_of rfl
  have : MayGroups Part.halts.contains := ⟨rfl⟩
  have : MayTWindow Part.halts.contains := ⟨rfl⟩
  have : MayTStreams Part.halts.contains := ⟨rfl⟩
  have : MayTQueues Part.halts.contains := ⟨rfl⟩
  have : MayTWindows Part.halts.contains := ⟨rfl⟩
  have settled : Evolves Part.halts.contains s (j.tileIds.foldl (fun s t => s.settleTile false t) (((s.endScheds r).mergeReads merges).writeBackAll)) :=
    (Evolves.refl _ s).endScheds.mergeReads.writeBackAll.foldl fun _ _ hu => hu.settleTile
  have released : Evolves Part.halts.contains s ((j.tileIds.foldl (fun s t => s.settleTile false t)
      (((s.endScheds r).mergeReads merges).writeBackAll)).mapJob r (fun j => { j with heldErrs := [] })) := Evolves.mapJob settled fun _ => rfl
  released.raise.set_groups

theorem State.stored_same_jobs {s t : State} (h : Evolves Part.stored.contains s t) : t.jobNames = s.jobNames ∧ t.errs = s.errs :=
  ⟨State.jobNames_of_jobs (h.kept .jobs rfl), h.kept .errs rfl⟩

theorem State.endScheds_same (r : Nat) (s : State) : (s.endScheds r).jobNames = s.jobNames ∧ (s.endScheds r).errs = s.errs :=
  have : Stores Part.stored.contains := stores_of rfl
  State.stored_same_jobs (Evolves.refl _ s).endScheds

theorem State.writeBackAll_same (s : State) : s.writeBackAll.jobNames = s.jobNames ∧ s.writeBackAll.errs = s.errs :=
  have : Stores Part.stored.contains := stores_of rfl
  State.stored_same_jobs (Evolves.refl _ s).writeBackAll

theorem State.drained_jobNames (r : Nat) (j : Job) (merges : List (Nat × ReadError)) (s : State) : (s.drained r j merges).jobNames = s.jobNames := by
  refine (show _ = _ from State.raise_jobNames ..).trans ((State.jobNames_mapJob (f := fun j => { j with heldErrs := [] }) (fun _ => ⟨rfl, rfl⟩) _).trans ?_)
  rw [State.jobNames_of_jobs (State.settleTiles_same (p := .jobs) rfl), (State.writeBackAll_same _).1, State.mergeReads_jobNames, (State.endScheds_same r s).1]

theorem State.drained_fatal {r : Nat} {j : Job} {merges : List (Nat × ReadError)} {s : State} (mild : ∀ e ∈ j.heldErrs, e.cls ≠ .fatal) :
    (s.drained r j merges).errs.fatal = s.errs.fatal := by
  rw [State.drained, State.ungrouped_errs, State.raise_mild_fatal mild, State.mapJob_errs, State.settleTiles_errs, (State.writeBackAll_same _).2,
    State.mergeReads_fatal, (State.endScheds_same r s).2]

theorem exec_jobCancelGo {q : Requester} {r : Nat} {s : State} (h : s.reaches q 0x010424 = true) (hr : r < 32) :
    exec (.jobCancelGo q r) s = .next (s.unlatch.cancelGo r) := by
  have h' : s.unlatch.reaches q 0x010424 = true := h
  have run : exec (.jobCancelGo q r) s = .next (s.unlatch.cancelGo (r % 32)) :=
    congrArg Host.Outcome.next (State.gated_of_reaches (State.cancelGo (r % 32)) h')
  rwa [Nat.mod_eq_of_lt hr] at run

theorem State.cancel_other {r tag : Nat} {s : State} (job : (s.job r).all (fun j => j.tag != tag) = true)
    (pending : (s.ring r).pending.all (fun e => jdTag e.bytes != tag) = true) : s.cancel r tag = (s, false) := by
  have noJob : (s.job r).filter (fun j => j.tag == tag && j.ending.isNone && !s.jobFinished j) = none := by
    cases h : s.job r with
    | none => rfl
    | some j =>
      rw [h, Option.all_some, bne_iff_ne] at job
      exact Option.filter_eq_none_iff.2 fun x hx => by
        cases hx
        simp [job]
  have noEntry : (s.ring r).pending.findIdx? (fun e => jdOp e.bytes == 1 && jdTag e.bytes == tag) = none := by
    rw [List.findIdx?_eq_none_iff]
    intro e he
    have other := bne_iff_ne.1 (List.all_eq_true.1 pending e he)
    simp [other]
  unfold State.cancel
  rw [noJob]
  dsimp only
  rw [noEntry]

theorem State.cancel_job {r : Nat} {j : Job} {s : State} (job : s.job r = some j) (open_ : j.ending = none) (busy : s.jobFinished j = false) :
    s.cancel r j.tag = ((s.stopJob r (Ending.plain 0x12)).count .jobsCancelled 0 1, true) := by
  have found : (s.job r).filter (fun x => x.tag == j.tag && x.ending.isNone && !s.jobFinished x) = some j := by
    rw [job, Option.filter_some, if_pos (by simp [open_, busy])]
  unfold State.cancel
  rw [found]

theorem State.job_ring {r : Nat} {j : Job} {s : State} (job : s.job r = some j) : j.ring = r := by
  simpa using List.find?_some job

theorem State.cancelGo_eq {r : Nat} {b : Bool} {s t : State} (h : ({ s with cancelRing := r } : State).cancel r s.cancelTag.toNat = (t, b)) :
    s.cancelGo r = { t with cancelResult := if b then 2 else 3 } :=
  congrArg (fun p : State × Bool => { p.1 with cancelResult := if p.2 then 2 else 3 }) h

/-- What a job stopped may change. -/
def Part.stops : List Part := Part.halts ++ [.msix, .rings, .tProgram]

theorem Evolves.stopped {r : Nat} {e : Ending} {σ s : State} (h : Evolves Part.stops.contains σ s) :
    Evolves Part.stops.contains σ (s.stopJob r e) :=
  have : Stores Part.stops.contains := stores_of rfl
  have : Raises Part.stops.contains := raises_of rfl
  have : MayMsix Part.stops.contains := ⟨rfl⟩
  have : MayRings Part.stops.contains := ⟨rfl⟩
  have : MayGroups Part.stops.contains := ⟨rfl⟩
  have : MayPoisonRequests Part.stops.contains := ⟨rfl⟩
  have : MayTVregs Part.stops.contains := ⟨rfl⟩
  have : MayTProgram Part.stops.contains := ⟨rfl⟩
  have : MayTWindow Part.stops.contains := ⟨rfl⟩
  have : MayTStreams Part.stops.contains := ⟨rfl⟩
  have : MayTQueues Part.stops.contains := ⟨rfl⟩
  have : MayTWindows Part.stops.contains := ⟨rfl⟩
  h.stopJob

/-- Settles O26. -/
theorem jobsEnd : Obligations.JobsEnd := by
  refine ⟨fun r j s hr job running open_ idle steady done deferred use merges => ?_,
    fun q r s reaches hr => ⟨fun noJob noEntry => ?_, fun j job tag open_ busy => ?_⟩⟩
  · have mild : ∀ e ∈ j.heldErrs, e.cls ≠ .fatal := fun e he => by
      rw [beq_iff_eq.1 (List.all_eq_true.1 deferred e he)]
      decide
    have run := exec_jobComplete (merges := merges) job running open_ idle steady done
    have drained := Evolves.drained (s := s) (r := r) (j := j) (merges := merges)
    have rings : (s.drained r j merges).rings = s.rings := drained.kept .rings rfl
    have programs : ∀ x, ((s.drained r j merges).tile x).program = (s.tile x).program := drained.kept .tProgram rfl
    have ring := State.ring_of_rings rings r
    have fatal := State.drained_fatal (r := r) (merges := merges) (s := s) mild
    obtain ⟨j', job', tag⟩ := State.job_of_jobNames (State.drained_jobNames r j merges s) job
    obtain ⟨writes, holds⟩ := State.finishJob_facts (e := Ending.plain 0x00) hr job' (fatal.trans running)
    have can : (s.drained r j merges).canComplete r = true ↔ (s.ring r).cqFull = false := by
      rw [State.canComplete_of_same rings fatal, State.canComplete, running, use]
      cases (s.ring r).cqFull <;> decide
    rw [ring] at writes holds
    refine ⟨fun slot none => ⟨_, run, writes (can.2 slot) none (by decide)⟩, fun h => ?_⟩
    have later : (s.drained r j merges).canComplete r = false ∨ (s.ring r).held ≠ [] ∨ (Ending.plain 0x00).status = 0x12 := by
      obtain full | some := h
      · refine .inl ((Bool.not_eq_true _).mp fun yes => ?_)
        rw [can.1 yes] at full
        cases full
      · exact .inr (.inl some)
    obtain ⟨c, held, ctag, status, tile, -, -, ends, tail, there, tiles⟩ := holds later
    refine ⟨_, c, run, held, tail, ctag.trans tag, status, tile, ends, there, fun x => ?_⟩
    have same := congrArg Prod.fst (programs x)
    rw [State.tile, tiles]
    exact same
  · have miss := State.cancel_other (s := { s.unlatch with cancelRing := r }) noJob noEntry
    have go := State.cancelGo_eq (s := s.unlatch) miss
    exact (exec_jobCancelGo reaches hr).trans (congrArg Host.Outcome.next go)
  · have hit := State.cancel_job (s := { s.unlatch with cancelRing := r }) job open_ busy
    have ring := State.job_ring job
    have run : exec (.jobCancelGo q r) s = .next
        { (({ s.unlatch with cancelRing := r } : State).stopJob r (Ending.plain 0x12)).count .jobsCancelled 0 1 with cancelResult := 2 } := by
      rw [tag] at hit
      exact (exec_jobCancelGo reaches hr).trans (congrArg Host.Outcome.next (State.cancelGo_eq (s := s.unlatch) hit))
    have stopped : Evolves Part.stops.contains { s.unlatch with cancelRing := r }
      (({ s.unlatch with cancelRing := r } : State).stopJob r (Ending.plain 0x12)) := (Evolves.refl _ _).stopped
    refine ⟨_, run, (State.count_cancelRing ..).trans (stopped.kept .cancelRing rfl), rfl, fun none => ?_⟩
    have serves : s.errs.fatal = false := State.serves_running (Bool.and_eq_true_iff.1 reaches).1
    subst ring
    obtain ⟨c, held, ctag, status, -, -, -, ends⟩ :=
      (State.stopJob_ends (s := { s.unlatch with cancelRing := j.ring }) (e := Ending.plain 0x12) hr job open_ serves none).2 (.inr (.inr rfl))
    refine ⟨c, ?_, ctag, status, ends⟩
    exact (congrArg Ring.held (State.ring_count ..)).trans held

theorem exec_haltCtrl {q : Requester} {s : State} (h : s.reaches q (haltAddr q) = true) :
    exec (.halt q) s = .next s.unlatch.halting ∧ exec (.release q) s = .next (s.unlatch.writeHaltCtrl q 2) :=
  have h' : s.unlatch.reaches q (haltAddr q) = true := h
  ⟨congrArg Host.Outcome.next (State.gated_of_reaches (State.writeHaltCtrl q 1) h'),
    congrArg Host.Outcome.next (State.gated_of_reaches (State.writeHaltCtrl q 2) h')⟩

/-- What HALT does before it stops the jobs. -/
def State.haltMarked (s : State) : State := { s with halt := .halting, rings := s.rings.map Ring.haltedHeld }

/-- The jobs that HALT stops: those that have not retired everything. -/
def State.haltStops (s : State) : List Job := s.jobs.filter (fun j => j.ending.isNone && !s.jobFinished j)

theorem State.halting_eq {s : State} (running : s.halt = .running) :
    s.halting = (s.haltMarked.haltStops).foldl (fun s j => s.stopJob j.ring (Ending.plain 0x13)) s.haltMarked := if_neg (not_not_intro running)

/-- A held record stays first while others are made. -/
theorem State.complete_head {k r : Nat} {x c : Completion} {s : State} (h : (s.ring k).held.head? = some c) :
    ((s.complete r x).ring k).held.head? = some c := by
  have full : (s.ring k).held ≠ [] := fun none => by
    rw [none] at h
    cases h
  unfold State.complete
  split
  · exact h
  · split
    next now =>
      rw [State.writeCompletion_ring]
      split
      next same =>
        obtain ⟨rfl, -⟩ := same
        simp only [Bool.and_eq_true] at now
        exact absurd (emptyList_iff.1 now.1.1.2) full
      next => exact h
    next =>
      rw [State.holdRecord, State.ring_mapRing]
      split
      next same =>
        obtain ⟨rfl, -⟩ := same
        exact (List.head?_append_of_ne_nil _ full).trans h
      next => exact h

theorem State.stopJob_head {k r : Nat} {e : Ending} {c : Completion} {s : State} (h : (s.ring k).held.head? = some c) :
    ((s.stopJob r e).ring k).held.head? = some c := by
  cases job : s.job r with
  | none =>
    unfold State.stopJob
    rw [job]
    exact h
  | some j =>
    cases open_ : j.ending with
    | some x =>
      unfold State.stopJob
      rw [job]
      dsimp only
      rw [open_]
      exact h
    | none =>
      obtain ⟨j', job', -⟩ := State.job_of_jobNames (State.halted_jobNames r j s) job
      have ring := State.ring_of_rings (State.halted_rings r j s) k
      rw [State.stopJob_eq job open_, State.finishJob_eq job']
      exact State.complete_head ((congrArg (fun g : Ring => g.held.head?) ring).trans h)

theorem State.stopJobs_head {k : Nat} {c : Completion} {js : List Job} {s : State} (h : (s.ring k).held.head? = some c) :
    ((js.foldl (fun s j => s.stopJob j.ring (Ending.plain 0x13)) s).ring k).held.head? = some c := by
  induction js generalizing s with
  | nil => exact h
  | cons j js ih => exact ih (State.stopJob_head h)

theorem State.haltMarked_held {k : Nat} {s : State} (hk : k < 32) : (s.haltMarked.ring k).held = (s.ring k).held.map Completion.halted := by
  unfold State.haltMarked State.ring
  dsimp only
  rw [Tab.at_map _ (Ring.reset k) _ _ _ hk]
  rfl

/-- Settles O27. -/
theorem haltAndRelease : Obligations.HaltAndRelease := by
  intro q s reaches
  obtain ⟨halt, release⟩ := exec_haltCtrl reaches
  refine ⟨fun running => ?_, fun stopped => ⟨?_, ?_, fun r => ?_⟩, fun halting requests done => ?_, fun halting waits => ?_, fun halted steady => ?_, fun h => ?_⟩
  · have stops : Evolves Part.stops.contains s.unlatch.haltMarked s.unlatch.halting := by
      rw [State.halting_eq (s := s.unlatch) running]
      exact (Evolves.refl _ _).foldl fun _ _ hu => hu.stopped
    refine ⟨_, halt, stops.kept .halt rfl, stops.kept .mode rfl, stops.kept .link rfl, fun k c rest hk held => ?_⟩
    rw [State.halting_eq (s := s.unlatch) running]
    refine State.stopJobs_head ?_
    rw [State.haltMarked_held (s := s.unlatch) hk]
    exact (congrArg (fun l : List Completion => (l.map Completion.halted).head?) held).trans rfl
  · exact halt.trans (congrArg Host.Outcome.next (if_pos stopped))
  · change execJobAdmit s = _
    unfold execJobAdmit
    rw [if_pos (by simp [State.admits, stopped])]
  · exact if_neg (by simp [State.admits, stopped])
  · exact if_pos (by simp [halting, requests, done, emptyList])
  · refine if_neg fun all => ?_
    simp only [Bool.and_eq_true, List.all_eq_true] at all
    obtain ⟨⟨-, none⟩, ended⟩ := all
    obtain some | ⟨j, hj, open_, busy⟩ := waits
    · exact some (emptyList_iff.1 none)
    · have := ended j hj
      rw [open_, busy] at this
      cases this
  · refine release.trans (congrArg Host.Outcome.next ?_)
    unfold State.writeHaltCtrl
    rw [if_neg (by decide), if_pos (by decide)]
    exact if_pos ⟨halted, by rw [Option.isNone_iff_eq_none]; exact steady⟩
  · have discard : s.unlatch.writeHaltCtrl q 2 = s.unlatch.discard q (haltAddr q) 2 := by
      unfold State.writeHaltCtrl
      rw [if_neg (by decide), if_pos (by decide)]
      refine if_neg fun ok => ?_
      obtain other | changing := h
      · exact other ok.1
      · have none : s.trust.changing.isNone = true := ok.2
        rw [Option.isNone_iff_eq_none] at none
        rw [none] at changing
        cases changing
    rw [discard] at release
    obtain ⟨t, next, halt', rings, recorded⟩ := exec_discards .halt .rings release (by decide) rfl rfl
    exact ⟨t, next, halt', rings, recorded⟩

end Sys2Proof.Machine
end


section
/-!
PROOFS. O29: the Hoop handles one entry of the error queue at a time, the highest class first (R527, R530).
-/
namespace Sys2Proof.Machine

theorem ErrEntry.ahead_iff {a b : ErrEntry} : a.ahead b = true ↔ b.err.cls.rank < a.err.cls.rank ∨ (a.err.cls.rank = b.err.cls.rank ∧
    ((a.phase = .suspended ∧ b.phase ≠ .suspended) ∨ ((a.phase = .suspended ↔ b.phase = .suspended) ∧ a.order < b.order))) := by
  unfold ErrEntry.ahead
  simp only [Bool.or_eq_true, Bool.and_eq_true, decide_eq_true_eq, beq_iff_eq, bne_iff_ne, gt_iff_lt]
  have same : ((a.phase == Handling.suspended) = (b.phase == Handling.suspended)) ↔ (a.phase = .suspended ↔ b.phase = .suspended) := by
    rw [Bool.eq_iff_iff, beq_iff_eq, beq_iff_eq]
  rw [same]

/-- An entry that is behind another or beside it: the other may be taken first. -/
theorem ErrEntry.not_ahead_iff {a b : ErrEntry} : a.ahead b = false ↔ a.err.cls.rank < b.err.cls.rank ∨ (a.err.cls.rank = b.err.cls.rank ∧
    ((b.phase = .suspended ∧ a.phase ≠ .suspended) ∨ ((a.phase = .suspended ↔ b.phase = .suspended) ∧ b.order ≤ a.order))) := by
  rw [← Bool.not_eq_true, ErrEntry.ahead_iff]
  grind

theorem ErrEntry.not_ahead_trans {a b c : ErrEntry} (hab : a.ahead b = false) (hbc : b.ahead c = false) : a.ahead c = false := by
  rw [ErrEntry.not_ahead_iff] at *
  grind

theorem ErrEntry.not_ahead_of_ahead {a b : ErrEntry} (h : a.ahead b = true) : b.ahead a = false := by
  rw [ErrEntry.ahead_iff] at h
  rw [ErrEntry.not_ahead_iff]
  obtain h | ⟨rank, h | ⟨same, order⟩⟩ := h
  · exact .inl h
  · exact .inr ⟨rank.symm, .inl h⟩
  · exact .inr ⟨rank.symm, .inr ⟨same.symm, Nat.le_of_lt order⟩⟩

theorem ErrEntry.not_ahead_self (a : ErrEntry) : a.ahead a = false :=
  ErrEntry.not_ahead_iff.2 (.inr ⟨rfl, .inr ⟨Iff.rfl, Nat.le_refl _⟩⟩)

/-- The better of two entries, as the Hoop chooses. -/
def ErrEntry.better (best : Option ErrEntry) (x : ErrEntry) : Option ErrEntry :=
  match best with
  | none => some x
  | some b => if x.ahead b then some x else some b

/-- The first of a list in the Hoop's order. -/
theorem ErrEntry.foldl_better (l : List ErrEntry) (b : ErrEntry) :
    ∃ x, l.foldl ErrEntry.better (some b) = some x ∧ x ∈ b :: l ∧ ∀ y ∈ b :: l, y.ahead x = false := by
  induction l generalizing b with
  | nil => exact ⟨b, rfl, List.mem_singleton_self b, fun y hy => by rw [List.mem_singleton.1 hy]; exact ErrEntry.not_ahead_self b⟩
  | cons a l ih =>
    rw [List.foldl_cons]
    by_cases ahead : a.ahead b = true
    · obtain ⟨x, fold, mem, first⟩ := ih a
      refine ⟨x, ?_, List.mem_cons_of_mem _ mem, fun y hy => ?_⟩
      · rw [ErrEntry.better, if_pos ahead]
        exact fold
      · obtain rfl | hy := List.mem_cons.1 hy
        · exact ErrEntry.not_ahead_trans (ErrEntry.not_ahead_of_ahead ahead) (first a (List.mem_cons_self ..))
        · exact first y hy
    · obtain ⟨x, fold, mem, first⟩ := ih b
      refine ⟨x, ?_, ?_, fun y hy => ?_⟩
      · rw [ErrEntry.better, if_neg ahead]
        exact fold
      · obtain rfl | mem := List.mem_cons.1 mem
        · exact List.mem_cons_self ..
        · exact List.mem_cons_of_mem _ (List.mem_cons_of_mem _ mem)
      · obtain rfl | hy := List.mem_cons.1 hy
        · exact first _ (List.mem_cons_self ..)
        · obtain rfl | hy := List.mem_cons.1 hy
          · exact ErrEntry.not_ahead_trans (Bool.not_eq_true _ ▸ ahead) (first b (List.mem_cons_self ..))
          · exact first y (List.mem_cons_of_mem _ hy)

theorem ErrUnit.next_first {u : ErrUnit} (some : u.queue ≠ []) : ∃ x, u.next = Option.some x ∧ x ∈ u.queue ∧ ∀ y ∈ u.queue, y.ahead x = false := by
  cases h : u.queue with
  | nil => exact absurd h some
  | cons b l =>
    obtain ⟨x, fold, mem, first⟩ := ErrEntry.foldl_better l b
    refine ⟨x, ?_, mem, first⟩
    have better : u.next = u.queue.foldl ErrEntry.better none := rfl
    rw [better, h]
    exact fold

/-- An entry taken into handling. -/
def ErrUnit.taken (u : ErrUnit) (x : ErrEntry) : ErrUnit :=
  { u with queue := u.queue.map (fun y => if y.order = x.order then { y with phase := .active } else y) }

theorem State.handleErr_takes {s : State} {x : ErrEntry} (idle : s.errs.active = none) (next : s.errs.next = some x) :
    s.handleErr = { s with errs := s.errs.taken x } := by
  unfold State.handleErr
  rw [idle, next]
  rfl

theorem ErrUnit.taken_orders (u : ErrUnit) (x : ErrEntry) : (u.taken x).queue.map (·.order) = u.queue.map (·.order) := by
  rw [ErrUnit.taken, List.map_map]
  refine List.map_congr_left fun y _ => ?_
  rw [Function.comp_apply]
  split <;> rfl

theorem ErrUnit.taken_active {u : ErrUnit} {x : ErrEntry} (idle : u.active = none) (mem : x ∈ u.queue) :
    ∃ y, (u.taken x).active = some y ∧ y.order = x.order := by
  have there : { x with phase := Handling.active } ∈ (u.taken x).queue := List.mem_map.2 ⟨x, mem, if_pos rfl⟩
  obtain ⟨y, found⟩ := Option.isSome_iff_exists.1 (List.find?_isSome.2 ⟨_, there, rfl⟩ : (u.taken x).active.isSome = true)
  refine ⟨y, found, ?_⟩
  obtain ⟨z, hz, rfl⟩ := List.mem_map.1 (List.mem_of_find?_eq_some found)
  have active := List.find?_some found
  by_cases same : z.order = x.order
  · rw [if_pos same]
    exact same
  · rw [if_neg same] at active
    exact absurd active (List.find?_eq_none.1 idle z hz)

theorem ErrUnit.activeRank_eq {u : ErrUnit} {x : ErrEntry} (active : u.active = some x) : u.activeRank = x.err.cls.rank := by
  unfold ErrUnit.activeRank
  unfold ErrUnit.active at active
  rw [active]

theorem ErrUnit.append_above {u : ErrUnit} {x : ErrEntry} {e : Err} (active : u.active = some x) (above : x.err.cls.rank < e.cls.rank) :
    (u.append e).queue = u.queue.map (fun y => if y.phase = .active then { y with phase := .suspended } else y) ++
      [{ err := e, count := 1, order := u.nextOrder, phase := .active }] := by
  unfold ErrUnit.append
  rw [ErrUnit.activeRank_eq active, decide_eq_true above]
  rfl

theorem ErrUnit.append_suspends {u : ErrUnit} {x : ErrEntry} {e : Err} (active : u.active = some x) (above : x.err.cls.rank < e.cls.rank) :
    ∃ y z, (u.append e).active = some y ∧ y.err = e ∧ z ∈ (u.append e).queue ∧ z.order = x.order ∧ z.phase = .suspended := by
  have phase : x.phase = .active := by simpa using List.find?_some active
  refine ⟨{ err := e, count := 1, order := u.nextOrder, phase := .active }, { x with phase := .suspended }, ?_, rfl, ?_, rfl, rfl⟩
  · rw [ErrUnit.active, ErrUnit.append_above active above, List.find?_append, List.find?_eq_none.2, Option.none_or, List.find?_singleton]
    · rfl
    · intro y hy
      obtain ⟨z, -, rfl⟩ := List.mem_map.1 hy
      split
      · exact Bool.false_ne_true
      next other => simpa using other
  · rw [ErrUnit.append_above active above]
    exact List.mem_append_left _ (List.mem_map.2 ⟨x, List.mem_of_find?_eq_some active, if_pos phase⟩)

theorem State.handleErr_active {s : State} {x : ErrEntry} (active : s.errs.active = some x) :
    s.handleErr = if x.err.cls.rank ≤ 2 then { s with errs := s.errs.free x } else s := by
  unfold State.handleErr
  rw [active]

theorem exec_errorPosted {s : State} {x : ErrEntry} (active : s.errs.active = some x) : exec .errorPosted s = .next (if x.err.cls.rank ≤ 2 then s
    else if s.errs.fatal && !s.link.carries then { s with errs := s.errs.free x }.dropEvent
    else { s with errs := s.errs.free x }.postEvent 1 (x.err.bytes x.count)) := by
  change execErrorPosted s = _
  unfold execErrorPosted
  rw [active]

theorem State.posted_of_errs {s t : State} {u : ErrUnit} {kind : Nat} {payload : List Byte} (h : Posted { s with errs := u } t kind payload) :
    Posted s t kind payload := h

/-- Settles O29. -/
theorem errorsHandled : Obligations.ErrorsHandled := by
  refine ⟨fun s => rfl, fun s idle some => ?_, fun s x active cls => ?_, fun s x active cls => ?_, fun u x e active above room new => ?_, fun s n hn running => ?_⟩
  · obtain ⟨x, next, mem, first⟩ := ErrUnit.next_first some
    have takes := State.handleErr_takes idle next
    refine ⟨x, next, mem, fun y hy => ?_, fun y hy rank waiting waiting' => ?_, ?_⟩
    · obtain below | ⟨same, -⟩ := ErrEntry.not_ahead_iff.1 (first y hy)
      · exact Nat.le_of_lt below
      · exact Nat.le_of_eq same
    · obtain below | ⟨-, ⟨suspended, -⟩ | ⟨-, order⟩⟩ := ErrEntry.not_ahead_iff.1 (first y hy)
      · omega
      · rw [waiting'] at suspended
        cases suspended
      · exact order
    · have step : s.hoopStep .clean = { s with errs := s.errs.taken x } := takes
      dsimp only
      rw [step]
      exact ⟨rfl, ErrUnit.taken_orders s.errs x, ErrUnit.taken_active idle mem⟩
  · refine ⟨(State.handleErr_active active).trans (if_pos (by rw [cls]; decide)), ?_⟩
    rw [exec_errorPosted active, if_pos (by rw [cls]; decide)]
  · have high : ¬ x.err.cls.rank ≤ 2 := by obtain cls | cls := cls <;> rw [cls] <;> decide
    refine ⟨(State.handleErr_active active).trans (if_neg high), ?_⟩
    rw [exec_errorPosted active, if_neg high]
    by_cases lost : (s.errs.fatal && !s.link.carries) = true
    · rw [if_pos lost]
      obtain ⟨fatal, down⟩ := Bool.and_eq_true_iff.1 lost
      rw [Bool.not_eq_true'] at down
      refine ⟨_, rfl, rfl, rfl, rfl, fun h => ?_, fun _ _ => rfl⟩
      rw [down, fatal] at h
      obtain h | h := h <;> cases h
    · rw [if_neg lost]
      refine ⟨_, rfl, State.postEvent_same (p := .errs) rfl, State.postEvent_same (p := .rings) rfl, State.postEvent_same (p := .jobs) rfl,
        fun _ => State.posted_of_errs (State.postEvent_posted ..), fun down fatal => ?_⟩
      rw [down, fatal] at lost
      exact absurd rfl lost
  · rw [ErrUnit.enter_of_room new room]
    exact ErrUnit.append_suspends active above
  · have step : s.hoopStep (.uncorrectable n) = s.raise [Err.plain .fatal 0x36 8 0 0 0] := if_neg (by omega)
    obtain ⟨fatal, -⟩ : (s.raise [Err.plain .fatal 0x36 8 0 0 0]).errs.fatal = true ∧ True := by
      rw [State.raise_first_fatal running rfl, State.enterQueue_errs, ErrUnit.enter_fatal]
      exact ⟨rfl, trivial⟩
    dsimp only
    rw [step]
    refine ⟨fatal, ?_, State.raise_recorded s ErrClass.noConfusion⟩
    rw [State.raise_first_fatal running rfl, State.enterQueue_pins]
    exact State.assertAlert_alertN s

end Sys2Proof.Machine
end


section
/-!
PROOFS. O33: orderly power-down and CLKOUT (R478, R479, R483, Tables PW.8 and PW.10).
-/
namespace Sys2Proof.Machine

@[simp] theorem State.die_count (c : Ctr) (i n d : Nat) (s : State) : (s.count c i n).die d = s.die d := by
  rw [State.die, State.count_dies, State.die]

/-- One die ramped down to no core current. -/
def Die.quiet (x : Die) : Die := { x with spent := 0, spending := 0, ramping := false }

/-- One die of a ramp, with the tokens that its ballast draws. -/
def State.rampDie (s : State) (d : Nat) : State :=
  (s.mapDie d Die.quiet).count .ballastTokens d
    (total ((List.range ((s.die d).spent / s.slewStep d)).map (fun i => (s.die d).spent - (i + 1) * s.slewStep d)))

theorem State.rampDies_eq (ds : List Nat) (s : State) : ∃ n, s.rampDies ds = ds.foldl State.rampDie { s with clock := s.clock + n } := ⟨_, rfl⟩

theorem State.rampDie_die {d e : Nat} {s : State} : (s.rampDie e).die d = if d = e ∧ d < 4 then (s.die e).quiet else s.die d := by
  rw [State.rampDie, State.die_count, State.die_mapDie]

theorem State.rampDies_quiet {d : Nat} (hd : d < 4) (ds : List Nat) {s : State} (h : d ∈ ds ∨ ((s.die d).spent = 0 ∧ (s.die d).ramping = false)) :
    ((ds.foldl State.rampDie s).die d).spent = 0 ∧ ((ds.foldl State.rampDie s).die d).ramping = false := by
  induction ds generalizing s with
  | nil => exact h.resolve_left List.not_mem_nil
  | cons e ds ih =>
    refine ih ?_
    rw [State.rampDie_die]
    by_cases same : d = e
    · rw [if_pos ⟨same, hd⟩]
      exact .inr ⟨rfl, rfl⟩
    · rw [if_neg fun here => same here.1]
      exact h.imp (fun mem => (List.mem_cons.1 mem).resolve_left same) id

theorem State.rampDies_clock (ds : List Nat) (s : State) : (ds.foldl State.rampDie s).clock = s.clock := by
  induction ds generalizing s with
  | nil => rfl
  | cons e ds ih => rw [List.foldl_cons, ih, State.rampDie, State.count_clock, State.mapDie_clock]

theorem exec_powerOff {q : Requester} {s : State} (h : s.reaches q 0x050830 = true) : exec (.powerOff q) s = .next (s.unlatch.writePwrCtrl q 1) :=
  have h' : s.unlatch.reaches q 0x050830 = true := h
  congrArg Host.Outcome.next (State.gated_of_reaches (State.writePwrCtrl q 1) h')

theorem exec_clkoutSelect {q : Requester} {v : Word} {s : State} (h : s.reaches q 0x050900 = true) :
    exec (.clkoutSelect q v) s = .next (s.unlatch.writeClkout q v.toNat) :=
  have h' : s.unlatch.reaches q 0x050900 = true := h
  congrArg Host.Outcome.next (State.gated_of_reaches (State.writeClkout q v.toNat) h')

theorem State.clkoutHigh_refclk {n r : Nat} {s : State} (on : s.power.clkEnable = true) (src : s.power.clkSrc = 0) (divides : 0 < s.power.clkDiv)
    (hr : r < 10) : s.clkoutHigh (s.power.clkLowUntil + 10 * n + r) = decide (n % (s.power.clkDiv + 1) < (s.power.clkDiv + 2) / 2) := by
  have cycle : (s.power.clkLowUntil + 10 * n + r - s.power.clkLowUntil) * 100 / 1000 = n := by omega
  have later : ¬ (s.power.clkLowUntil + 10 * n + r < s.power.clkLowUntil) := by omega
  have refclk : s.clkoutSource = 100 := by
    rw [State.clkoutSource, if_neg (by omega), src]
    rfl
  unfold State.clkoutHigh
  dsimp only
  rw [if_neg (by simp [on, later]), if_neg (by omega), if_neg (by omega), if_neg (by omega), refclk, cycle]
  rfl

/-- Settles O33. -/
theorem powerOffAndClockOut : Obligations.PowerOffAndClockOut := by
  refine fun q s reachesOff reachesClk => ⟨fun halted => ?_, fun awake => ?_, fun ramp => ?_, fun v src freq tile => ?_, fun v bad => ?_,
    fun now low => ?_, fun n r on src divides hr => State.clkoutHigh_refclk on src divides hr⟩
  · refine (exec_powerOff reachesOff).trans (congrArg Host.Outcome.next ?_)
    unfold State.writePwrCtrl
    rw [if_neg (by decide)]
    exact if_pos halted
  · have discard : s.unlatch.writePwrCtrl q 1 = s.unlatch.discard q 0x050830 1 := by
      unfold State.writePwrCtrl
      rw [if_neg (by decide)]
      exact if_neg awake
    obtain ⟨t, next, power, -, recorded⟩ :=
      exec_discards .power .power ((exec_powerOff reachesOff).trans (congrArg Host.Outcome.next discard)) (by decide) rfl rfl
    exact ⟨t, next, power, recorded⟩
  · obtain ⟨n, ramped⟩ := State.rampDies_eq [0, 1, 2, 3] s
    have run : exec .safeOff s = .next { s.rampDies [0, 1, 2, 3] with
        dies := Tab.build 4 (fun d => ((s.rampDies [0, 1, 2, 3]).die d).vout (Config.perfVolt d 7)),
        power := { (s.rampDies [0, 1, 2, 3]).power with offRamp := false, safeOff := true } } := if_neg (by simp [ramp])
    rw [ramped] at run
    refine ⟨_, run, rfl, rfl, ?_, fun d hd => ?_⟩
    · dsimp only
      rw [State.rampDies_clock]
      exact Nat.le_add_right ..
    · obtain ⟨spent, ramping⟩ := State.rampDies_quiet (s := { s with clock := s.clock + n }) hd [0, 1, 2, 3] (.inl (by interval_cases d <;> decide))
      rw [State.die, Tab.at_build _ _ _ hd]
      exact ⟨spent, ramping, rfl⟩
  · refine (exec_clkoutSelect reachesClk).trans (congrArg Host.Outcome.next ?_)
    unfold State.writeClkout
    dsimp only
    rw [if_neg (by simp; omega)]
    rfl
  · have discard : s.unlatch.writeClkout q v.toNat = s.unlatch.discard q 0x050900 v.toNat := by
      unfold State.writeClkout
      dsimp only
      rw [if_pos (by simp; omega)]
    obtain ⟨t, next, power, -, recorded⟩ :=
      exec_discards .power .power ((exec_clkoutSelect reachesClk).trans (congrArg Host.Outcome.next discard)) v.isLt rfl rfl
    exact ⟨t, next, power, recorded⟩
  · unfold State.clkoutHigh
    dsimp only
    rw [if_pos (by obtain low | off := low <;> simp [*])]

end Sys2Proof.Machine
end


section
/-!
PROOFS. O31: pacer windows and performance changes (R458-R464, R473, Table PW.3).
-/
namespace Sys2Proof.Machine

/-! ## The cycles that follow from a new charge (R459, R465) -/

/-- A tile's remaining cycles at a rate. -/
def Tile.atRate (u : Tile) (r : Nat) : Tile := { u with runs := min u.slotLeft (u.coreAllot / max 1 r) }

theorem State.repace_tile (t x : Nat) (s : State) : (s.repace t).tile x = if x = t ∧ x < 208 then (s.tile t).atRate (s.rate t) else s.tile x := by
  rw [State.repace, State.tile_mapTile]
  rfl

theorem State.repace_rate (t x : Nat) (s : State) : (s.repace t).rate x = s.rate x := by
  have classes : ((s.repace t).tile x).classes = (s.tile x).classes := by
    rw [State.repace_tile]
    split
    next same =>
      obtain ⟨rfl, -⟩ := same
      rfl
    next => rfl
  rw [State.rate, State.rate, classes]
  rfl

theorem State.repaces_tile (ts : List Nat) (x : Nat) (s : State) : (ts.foldl (fun s t => State.repace t s) s).tile x =
    if x ∈ ts ∧ x < 208 then (s.tile x).atRate (s.rate x) else s.tile x := by
  induction ts generalizing s with
  | nil => simp
  | cons t ts ih =>
    rw [List.foldl_cons, ih, State.repace_rate, State.repace_tile]
    by_cases same : x = t ∧ x < 208
    · obtain ⟨rfl, hx⟩ := same
      rw [if_pos (⟨rfl, hx⟩ : x = x ∧ x < 208), if_pos (⟨List.mem_cons_self .., hx⟩ : x ∈ x :: ts ∧ x < 208)]
      split <;> rfl
    · rw [if_neg same]
      have mem : (x ∈ t :: ts ∧ x < 208) ↔ (x ∈ ts ∧ x < 208) :=
        ⟨fun h => ⟨(List.mem_cons.1 h.1).resolve_left fun e => same ⟨e, h.2⟩, h.2⟩, fun h => ⟨List.mem_cons_of_mem _ h.1, h.2⟩⟩
      simp only [mem]

theorem State.repaces_rate (ts : List Nat) (x : Nat) (s : State) : (ts.foldl (fun s t => State.repace t s) s).rate x = s.rate x := by
  induction ts generalizing s with
  | nil => rfl
  | cons t ts ih => rw [List.foldl_cons, ih, State.repace_rate]

theorem mem_dieTiles {d x : Nat} : x ∈ (List.range 52).map (52 * d + ·) ↔ dieOfTile x = d := by
  rw [List.mem_map, dieOfTile]
  refine ⟨?_, fun h => ⟨x % 52, List.mem_range.2 (Nat.mod_lt _ (by decide)), by omega⟩⟩
  rintro ⟨i, hi, rfl⟩
  have := List.mem_range.1 hi
  omega

theorem State.repaceDie_tile (d x : Nat) (s : State) (hx : x < 208) :
    (s.repaceDie d).tile x = if dieOfTile x = d then (s.tile x).atRate (s.rate x) else s.tile x := by
  rw [State.repaceDie, State.repaces_tile]
  simp only [mem_dieTiles, hx, and_true]

/-- A die repaced differs in its tiles only. -/
theorem State.repaces_same (ts : List Nat) (s : State) : (ts.foldl (fun s t => State.repace t s) s).dies = s.dies ∧
    (ts.foldl (fun s t => State.repace t s) s).clock = s.clock := by
  induction ts generalizing s with
  | nil => exact ⟨rfl, rfl⟩
  | cons t ts ih => exact ih (s.repace t)

theorem State.repaceDie_die (d e : Nat) (s : State) : (s.repaceDie d).die e = s.die e := by
  rw [State.die, State.repaceDie, (State.repaces_same _ s).1, State.die]

theorem State.repaceDie_clock (d : Nat) (s : State) : (s.repaceDie d).clock = s.clock := (State.repaces_same _ s).2

/-- A change of a die's charge, with the cycles that follow from it. -/
theorem State.repaced_mapDie {d : Nat} {f : Die → Die} {s u : State} (tiles : u.tiles = s.tiles) :
    Repaced s ((u.mapDie d f).repaceDie d) d := by
  intro x hx
  have same (y : Nat) : (u.mapDie d f).tile y = s.tile y := by rw [State.tile, State.mapDie_tiles, tiles, State.tile]
  have rate : ((u.mapDie d f).repaceDie d).rate x = (u.mapDie d f).rate x := State.repaces_rate ..
  rw [State.repaceDie_tile _ _ _ hx, rate, same]
  rfl

/-! ## Slot boundaries and freezes -/

theorem State.slotBoundary_facts (s : State) : s.clock ≤ s.slotBoundary ∧ s.slotBoundary < s.clock + 200 ∧ s.slotBoundary % 200 = s.power.nextSlot % 200 := by
  unfold State.slotBoundary
  omega

/-- The tiles of a die stand still in the slot that has been allotted. -/
theorem State.stills_tile (ts : List Nat) (x : Nat) (s : State) :
    (ts.foldl (fun s t => s.mapTile t (fun u => { u with slotLeft := 0, runs := 0 })) s).tile x =
      if x ∈ ts ∧ x < 208 then { s.tile x with slotLeft := 0, runs := 0 } else s.tile x := by
  induction ts generalizing s with
  | nil => simp
  | cons t ts ih =>
    rw [List.foldl_cons, ih, State.tile_mapTile]
    by_cases same : x = t ∧ x < 208
    · obtain ⟨rfl, hx⟩ := same
      rw [if_pos (⟨rfl, hx⟩ : x = x ∧ x < 208), if_pos (⟨List.mem_cons_self .., hx⟩ : x ∈ x :: ts ∧ x < 208)]
      split <;> rfl
    · rw [if_neg same]
      have mem : (x ∈ t :: ts ∧ x < 208) ↔ (x ∈ ts ∧ x < 208) :=
        ⟨fun h => ⟨(List.mem_cons.1 h.1).resolve_left fun e => same ⟨e, h.2⟩, h.2⟩, fun h => ⟨List.mem_cons_of_mem _ h.1, h.2⟩⟩
      simp only [mem]

theorem State.stills_same (ts : List Nat) (s : State) :
    (ts.foldl (fun s t => s.mapTile t (fun u => { u with slotLeft := 0, runs := 0 })) s).dies = s.dies ∧
    (ts.foldl (fun s t => s.mapTile t (fun u => { u with slotLeft := 0, runs := 0 })) s).clock = s.clock := by
  induction ts generalizing s with
  | nil => exact ⟨rfl, rfl⟩
  | cons t ts ih => exact ih (s.mapTile t _)

theorem State.freezeDie_facts {d : Nat} {q : Dvfs} {s : State} (hd : d < 4) :
    (s.freezeDie d q).clock = s.clock ∧ (∀ e, e ≠ d → (s.freezeDie d q).die e = s.die e) ∧
    (s.freezeDie d q).die d = { s.die d with
      seq := some { q with phase := .frozen, since := s.clock }
      still := (s.die d).still || decide (s.clock < s.power.nextSlot) } ∧
    (s.clock < s.power.nextSlot → ∀ x, x < 208 → dieOfTile x = d → ((s.freezeDie d q).tile x).runs = 0) := by
  unfold State.freezeDie
  dsimp only
  by_cases running : s.clock < s.power.nextSlot
  · rw [if_pos (by exact running), decide_eq_true running, Bool.or_true]
    refine ⟨(State.stills_same _ _).2, fun e he => ?_, ?_, fun _ x hx die => ?_⟩
    · rw [State.die, (State.stills_same _ _).1, ← State.die, State.die_mapDie_other _ he, State.die_mapDie_other _ he]
    · rw [State.die, (State.stills_same _ _).1, ← State.die, State.die_mapDie_self _ hd, State.die_mapDie_self _ hd]
    · rw [State.stills_tile, if_pos ⟨mem_dieTiles.2 die, hx⟩]
  · rw [if_neg (by exact running), decide_eq_false running, Bool.or_false]
    refine ⟨rfl, fun e he => State.die_mapDie_other _ he _, State.die_mapDie_self _ hd _, fun now => absurd now running⟩

/-! ## The sequence (Table PW.3) -/

theorem State.dvfsIn_eq {d : Nat} {q : Dvfs} {s : State} (hd : d < 4) (out : s.pins.mreset = false) (seq : (s.die d).seq = some q) :
    s.dvfsIn d q.phase = some q := by
  unfold State.dvfsIn
  rw [if_pos (by simp [hd, out]), seq]
  exact if_pos rfl

/-- The time at which the status of a regulator is read next (R460). -/
def Dvfs.pollAt (q : Dvfs) (now : Nat) : Nat := q.since + 1600 + 2000 * ((now - (q.since + 1600)) / 2000 + 1)

theorem Dvfs.pollAt_facts {q : Dvfs} {now : Nat} (begun : q.since ≤ now) (early : now < q.since + 99600) :
    now < q.pollAt now ∧ q.pollAt now ≤ now + 3600 ∧ q.since + 3600 ≤ q.pollAt now ∧ q.pollAt now ≤ q.since + 100000 ∧
    (q.pollAt now - (q.since + 1600)) % 2000 = 0 := by
  unfold Dvfs.pollAt
  omega

theorem exec_avsStatusPoll {d : Nat} {q : Dvfs} {reached : Bool} {s : State} (phase : s.dvfsIn d .polling = some q)
    (begun : q.since ≤ s.clock) (early : s.clock < q.since + 99600) :
    exec (.avsStatusPoll d reached) s = .next (if !reached then { s with clock := q.pollAt s.clock }
      else if q.faster then ({ s with clock := q.pollAt s.clock } : State).mapDie d (fun x =>
        { x with seq := some { q with phase := .settling, since := q.pollAt s.clock } })
      else (({ s with clock := q.pollAt s.clock } : State).mapDie d (fun x => { x with seq := none, charged := q.point })).repaceDie d) := by
  obtain ⟨later, -, -, inTime, -⟩ := Dvfs.pollAt_facts begun early
  have time : s.until (q.pollAt s.clock) = { s with clock := q.pollAt s.clock } := by rw [State.until, Nat.max_eq_right (Nat.le_of_lt later)]
  change execAvsStatusPoll d reached s = _
  unfold execAvsStatusPoll
  rw [phase]
  change (if q.since + 100000 < q.pollAt s.clock then _ else if !reached then Host.Outcome.next (s.until (q.pollAt s.clock))
    else if q.faster then Host.Outcome.next ((s.until (q.pollAt s.clock)).mapDie d _) else Host.Outcome.next (((s.until (q.pollAt s.clock)).mapDie d _).repaceDie d)) = _
  rw [if_neg (Nat.not_lt.2 inTime), time]
  cases reached
  · rfl
  · cases q.faster <;> rfl

theorem State.realert_same (s : State) : s.realert.errs = s.errs ∧ s.realert.dies = s.dies ∧ s.realert.clock = s.clock ∧ s.realert.power = s.power ∧
    s.realert.tiles = s.tiles ∧ s.realert.hbm = s.hbm ∧ s.realert.pins.thermtripN = s.pins.thermtripN := by
  unfold State.realert State.assertAlert
  split
  · split <;> exact ⟨rfl, rfl, rfl, rfl, rfl, rfl, rfl⟩
  · exact ⟨rfl, rfl, rfl, rfl, rfl, rfl, rfl⟩

theorem State.realert_alerts {s : State} (h : s.alertCause = true) : s.realert.pins.alertN = false := by
  rw [State.realert, if_pos h]
  exact State.assertAlert_alertN s

theorem State.alertCause_of_avsFault {d : Nat} {s : State} (hd : d < 4) (h : (s.die d).avsFault = true) : s.alertCause = true := by
  unfold State.alertCause
  rw [Bool.or_eq_true, Bool.or_eq_true, List.any_eq_true]
  exact .inl (.inr ⟨d, List.mem_range.2 hd, h⟩)

theorem State.raise_mild_dies {e : Err} (s : State) (mild : e.cls ≠ .fatal) : (s.raise [e]).dies = s.dies :=
  State.raise_one_mild_same (s := s) (p := .dies) mild (by decide)

theorem State.raise_mild_clock {e : Err} (s : State) (mild : e.cls ≠ .fatal) : (s.raise [e]).clock = s.clock :=
  State.raise_one_mild_same (s := s) (p := .clock) mild (by decide)

/-- The regulator has not reported in time (R464). -/
theorem exec_avsTimeout {d : Nat} {q : Dvfs} {s : State} (hd : d < 4) (phase : s.dvfsIn d .polling = some q) :
    ∃ t, exec (.avsTimeout d) s = .next t ∧ t.clock = max s.clock (q.since + 100000) ∧ t.die d = { s.die d with seq := none, avsFault := true } ∧
      t.pins.alertN = false ∧ Recorded s t (Err.plain .deferred 0x0B 5 d q.point 0) := by
  have run : exec (.avsTimeout d) s = .next ((((s.until (q.since + 100000)).count .avsFaults d 1).mapDie d (fun x =>
      { x with seq := none, avsFault := true })).raise [Err.plain .deferred 0x0B 5 d q.point 0]).realert := by
    change execAvsTimeout d s = _
    unfold execAvsTimeout
    rw [phase]
  generalize hu : ((s.until (q.since + 100000)).count .avsFaults d 1).mapDie d (fun x => { x with seq := none, avsFault := true }) = u at run
  have die : u.die d = { s.die d with seq := none, avsFault := true } := by
    rw [← hu, State.die_mapDie_self _ hd, State.die_count]
    rfl
  have errs : u.errs = s.errs := by rw [← hu, State.mapDie_errs, State.count_errs, State.until_errs]
  have clock : u.clock = max s.clock (q.since + 100000) := by
    rw [← hu, State.mapDie_clock, State.count_clock]
    rfl
  obtain ⟨errs', dies', clock', -⟩ := State.realert_same (u.raise [Err.plain .deferred 0x0B 5 d q.point 0])
  have raised : (u.raise [Err.plain .deferred 0x0B 5 d q.point 0]).die d = u.die d := by
    rw [State.die, State.raise_mild_dies u ErrClass.noConfusion, State.die]
  refine ⟨_, run, ?_, ?_, State.realert_alerts (State.alertCause_of_avsFault hd (by rw [raised, die])), ?_⟩
  · rw [clock', State.raise_mild_clock u ErrClass.noConfusion, clock]
  · rw [State.die, dies', ← State.die, raised, die]
  · have recorded := State.raise_recorded (e := Err.plain .deferred 0x0B 5 d q.point 0) u ErrClass.noConfusion
    unfold Recorded at recorded ⊢
    rw [errs', ← errs]
    exact recorded

theorem State.dvfsMay_lt {d : Nat} {s : State} (h : s.dvfsMay d = true) : d < 4 := by
  simp only [State.dvfsMay, Bool.and_eq_true, decide_eq_true_eq] at h
  obtain ⟨⟨⟨⟨⟨⟨⟨hd, -⟩, -⟩, -⟩, -⟩, -⟩, -⟩, -⟩ := h
  exact hd

theorem exec_dvfsStart {d : Nat} {s : State} (may : s.dvfsMay d = true) : exec (.dvfsStart d) s = .next (if s.goal d < (s.die d).point then
      (s.mapDie d (fun x => { x.vout (Config.perfVolt d (s.goal d)) with
        charged := s.goal d, seq := some { faster := true, point := s.goal d, phase := .polling, since := s.clock } })).repaceDie d
      else (s.until s.slotBoundary).freezeDie d { faster := false, point := s.goal d, phase := .frozen, since := s.clock }) := by
  change execDvfsStart d s = _
  unfold execDvfsStart
  rw [may, if_neg (by decide)]
  dsimp only
  split <;> rfl

theorem exec_pacerWindow {s : State} (on : s.pacing = true) : ∃ t, exec .pacerWindow s = .next t ∧
    t.power.inForce = min 1500 (Tab.at s.power.ceil 1500 s.mode.pace) ∧
    t.power.limited = s.power.winLimited ∧ t.power.slewing = s.power.winSlewing ∧ t.power.ballast = s.power.winBallast ∧
    t.power.nextWindow = s.power.nextWindow + 1000 ∧ t.tiles = s.tiles := by
  refine ⟨_, show execPacerWindow s = _ from if_neg (by simp [on]), ?_, ?_, ?_, ?_, ?_, ?_⟩
  · dsimp only [State.ceiling]
    rw [State.count_power, State.count_power, State.count_mode, State.count_mode]
    rfl
  · rfl
  · dsimp only
    rw [State.count_power, State.count_power]
    rfl
  · dsimp only
    rw [State.count_power, State.count_power]
    rfl
  · dsimp only
    rw [State.count_power, State.count_power]
    rfl
  · dsimp only
    rw [State.count_tiles, State.count_tiles]
    rfl

/-- Settles O31. -/
theorem performanceChanges : Obligations.PerformanceChanges := by
  refine ⟨fun s on => exec_pacerWindow on, fun d s may => ⟨fun faster => ?_, fun slower => ?_⟩, fun d s fault => ?_,
    fun d q s hd out seq => ⟨fun phase begun early => ?_, fun phase => ?_, fun phase => ?_, fun phase running => ?_⟩⟩
  · have hd := State.dvfsMay_lt may
    have run := exec_dvfsStart may
    rw [if_pos faster] at run
    refine ⟨_, run, State.repaceDie_clock .., State.repaced_mapDie rfl, ?_, fun e he => ?_⟩
    · rw [State.repaceDie_die, State.die_mapDie_self _ hd]
      rfl
    · rw [State.repaceDie_die, State.die_mapDie_other _ he]
  · have hd := State.dvfsMay_lt may
    have run := exec_dvfsStart may
    rw [if_neg (by omega)] at run
    obtain ⟨low, high, edge⟩ := State.slotBoundary_facts s
    obtain ⟨clock, others, die, still⟩ := State.freezeDie_facts (s := s.until s.slotBoundary)
      (q := { faster := false, point := s.goal d, phase := .frozen, since := s.clock }) hd
    have time : (s.until s.slotBoundary).clock = s.slotBoundary := Nat.max_eq_right low
    rw [time] at clock die still
    refine ⟨_, run, by rw [clock]; exact low, by rw [clock]; exact high, by rw [clock]; exact edge, others, ?_, ?_⟩
    · rw [clock]
      exact die
    · rw [clock]
      exact still
  · have stuck : s.dvfsMay d = false := by simp [State.dvfsMay, fault]
    change execDvfsStart d s = _
    unfold execDvfsStart
    rw [stuck, if_pos (by decide)]
  · have polling := State.dvfsIn_eq hd out seq
    rw [phase] at polling
    obtain ⟨later, soon, first, inTime, grid⟩ := Dvfs.pollAt_facts begun early
    refine ⟨q.pollAt s.clock, _, later, soon, first, inTime, grid, exec_avsStatusPoll polling begun early, exec_avsStatusPoll polling begun early, ?_, fun faster => ?_, fun slower => ?_⟩
    · rw [if_neg (by decide)]
      split
      · rfl
      · exact State.repaceDie_clock ..
    · rw [if_neg (by decide), if_pos faster]
    · rw [if_neg (by decide), if_neg (by rw [slower]; decide)]
      refine ⟨?_, State.repaced_mapDie rfl⟩
      rw [State.repaceDie_die, State.die_mapDie_self _ hd]
      rfl
  · have settling := State.dvfsIn_eq hd out seq
    rw [phase] at settling
    have run : exec (.dvfsSettleEnd d) s = .next (((s.until (q.since + 2000)).until (s.until (q.since + 2000)).slotBoundary).freezeDie d q) := by
      change execDvfsSettleEnd d s = _
      unfold execDvfsSettleEnd
      rw [settling]
    obtain ⟨low, -, edge⟩ := State.slotBoundary_facts (s.until (q.since + 2000))
    obtain ⟨clock, -, die, -⟩ := State.freezeDie_facts (s := (s.until (q.since + 2000)).until (s.until (q.since + 2000)).slotBoundary) (q := q) hd
    have time : ((s.until (q.since + 2000)).until (s.until (q.since + 2000)).slotBoundary).clock = (s.until (q.since + 2000)).slotBoundary :=
      Nat.max_eq_right low
    rw [time] at clock die
    refine ⟨_, run, ?_, ?_, ?_, ?_⟩
    · rw [clock]
      exact (Nat.le_max_right ..).trans low
    · rw [clock]
      exact edge
    · rw [die, clock]
    · rw [die]
      rfl
  · have frozen := State.dvfsIn_eq hd out seq
    rw [phase] at frozen
    have run : exec (.dvfsFreezeEnd d) s = .next (if q.faster then ((s.until (q.since + 2000)).count .perfChanges d 1).mapDie d (fun x =>
          { x with point := q.point, seq := none })
        else ((s.until (q.since + 2000)).count .perfChanges d 1).mapDie d (fun x => { x.vout (Config.perfVolt d q.point) with
          point := q.point, seq := some { q with phase := .polling, since := ((s.until (q.since + 2000)).count .perfChanges d 1).clock } })) := by
      change execDvfsFreezeEnd d s = _
      unfold execDvfsFreezeEnd
      rw [frozen]
      dsimp only
      split <;> rfl
    have clock : ((s.until (q.since + 2000)).count .perfChanges d 1).clock = max s.clock (q.since + 2000) := State.count_clock ..
    refine ⟨_, run, ?_, ?_, fun faster => ?_, fun slower => ?_⟩
    · split <;> rw [State.mapDie_clock, clock] <;> exact Nat.le_max_right ..
    · split <;> rw [State.die_mapDie_self _ hd]
    · rw [if_pos faster, State.die_mapDie_self _ hd]
    · rw [if_neg (by rw [slower]; decide), State.die_mapDie_self _ hd, State.die_count, State.mapDie_clock]
      exact ⟨rfl, rfl, rfl⟩
  · have polling := State.dvfsIn_eq hd out seq
    rw [phase] at polling
    obtain ⟨t, run, clock, die, alert, recorded⟩ := exec_avsTimeout hd polling
    exact ⟨t, run, by rw [clock]; exact Nat.le_max_right .., by rw [die], by rw [die], by rw [die], by rw [die], alert, recorded⟩

end Sys2Proof.Machine
end


section
/-!
PROOFS. O32: temperatures, the thermal floor and the thermal trip (R475, R476).
-/
namespace Sys2Proof.Machine

/-! ## The hottest of a list -/

/-- The better of two places. -/
def hotter (b p : Nat × Nat) : Nat × Nat := if b.1 < p.1 then p else b

theorem foldl_hotter (l : List (Nat × Nat)) (b : Nat × Nat) :
    (l.foldl hotter b = b ∨ l.foldl hotter b ∈ l) ∧ b.1 ≤ (l.foldl hotter b).1 ∧ ∀ p ∈ l, p.1 ≤ (l.foldl hotter b).1 := by
  induction l generalizing b with
  | nil => exact ⟨.inl rfl, Nat.le_refl _, nofun⟩
  | cons p l ih =>
    obtain ⟨where_, low, high⟩ := ih (hotter b p)
    have step : b.1 ≤ (hotter b p).1 ∧ p.1 ≤ (hotter b p).1 ∧ (hotter b p = b ∨ hotter b p = p) := by
      unfold hotter
      split
      next less => exact ⟨Nat.le_of_lt less, Nat.le_refl _, .inr rfl⟩
      next more => exact ⟨Nat.le_refl _, Nat.le_of_not_lt more, .inl rfl⟩
    obtain ⟨hb, hp, pick⟩ := step
    refine ⟨?_, hb.trans low, fun x hx => ?_⟩
    · obtain same | mem := where_
      · obtain first | second := pick
        · exact .inl (same.trans first)
        · rw [List.foldl_cons, same, second]
          exact .inr (List.mem_cons_self ..)
      · exact .inr (List.mem_cons_of_mem _ mem)
    · obtain rfl | hx := List.mem_cons.1 hx
      · exact hp.trans low
      · exact high x hx

theorem hottest_eq (l : List Nat) : hottest l = (List.zip l (List.range l.length)).foldl hotter (l.headD 0, 0) := rfl

theorem le_hottest {l : List Nat} {x : Nat} (h : x ∈ l) : x ≤ (hottest l).1 := by
  obtain ⟨i, hi, rfl⟩ := List.mem_iff_getElem.1 h
  rw [hottest_eq]
  refine (foldl_hotter _ _).2.2 (l[i], i) ?_
  exact List.mem_iff_getElem.2 ⟨i, by simpa using hi, by simp⟩

theorem hottest_mem {l : List Nat} (some : l ≠ []) : (hottest l).1 ∈ l := by
  rw [hottest_eq]
  obtain first | mem := (foldl_hotter (List.zip l (List.range l.length)) (l.headD 0, 0)).1
  · rw [first]
    cases l with
    | nil => exact absurd rfl some
    | cons x l => exact List.mem_cons_self ..
  · exact (List.of_mem_zip mem).1

/-! ## A die's sample -/

/-- The samples of a die's 52 tiles. -/
def dieSamples (tiles : List Nat) (d : Nat) : List Nat := (tiles.drop (52 * d)).take 52

theorem mem_dieSamples {tiles : List Nat} {d x : Nat} (hd : d < 4) (length : 208 ≤ tiles.length) :
    x ∈ dieSamples tiles d ↔ ∃ i, i < 52 ∧ x = tiles.getD (52 * d + i) 0 := by
  have size : (dieSamples tiles d).length = 52 := by
    unfold dieSamples
    rw [List.length_take, List.length_drop]
    omega
  have entry (i : Nat) (hi : i < 52) (h : i < (dieSamples tiles d).length) : (dieSamples tiles d)[i] = tiles.getD (52 * d + i) 0 := by
    rw [List.getD_eq_getElem?_getD, List.getElem?_eq_getElem (by omega), Option.getD_some]
    simp [dieSamples]
  rw [List.mem_iff_getElem]
  constructor
  · rintro ⟨i, hi, rfl⟩
    rw [size] at hi
    exact ⟨i, hi, entry i hi _⟩
  · rintro ⟨i, hi, rfl⟩
    exact ⟨i, by rw [size]; exact hi, entry i hi _⟩

theorem hottest_reaches {tiles : List Nat} {d bound : Nat} (hd : d < 4) (length : 208 ≤ tiles.length) :
    bound ≤ (hottest (dieSamples tiles d)).1 ↔ ∃ i, i < 52 ∧ bound ≤ tiles.getD (52 * d + i) 0 := by
  have some : dieSamples tiles d ≠ [] := List.ne_nil_of_mem ((mem_dieSamples hd length).2 ⟨0, by decide, rfl⟩)
  constructor
  · intro h
    obtain ⟨i, hi, at_i⟩ := (mem_dieSamples hd length).1 (hottest_mem some)
    exact ⟨i, hi, at_i ▸ h⟩
  · rintro ⟨i, hi, h⟩
    exact h.trans (le_hottest ((mem_dieSamples hd length).2 ⟨i, hi, rfl⟩))

theorem Die.sampled_below (x : Die) (now : Nat) (ts : List Nat) :
    (x.sampled now ts).belowSince = if x.tSlow ≤ (hottest ts).1 then none else some (x.belowSince.getD now) := by
  unfold Die.sampled
  dsimp only
  by_cases slow : x.tSlow ≤ (hottest ts).1 <;> simp [slow]

theorem Die.sampled_floor (x : Die) (now : Nat) (ts : List Nat) :
    (x.sampled now ts).floor = if x.tAlert ≤ (hottest ts).1 ∧ x.alertFlag = false then min 7 (x.floor + 1) else x.floor := by
  unfold Die.sampled
  dsimp only
  cases x.alertFlag <;> by_cases hot : x.tAlert ≤ (hottest ts).1 <;> simp [hot]

theorem Die.sampled_tAlert (x : Die) (now : Nat) (ts : List Nat) : (x.sampled now ts).tAlert = x.tAlert := rfl

theorem Die.sampled_alert (x : Die) (now : Nat) (ts : List Nat) : (x.sampled now ts).alertFlag = decide (x.tAlert ≤ (hottest ts).1) := rfl

/-! ## The trip -/

theorem Err.insertSorted_ne_nil (e : Err) (l : List Err) : Err.insertSorted e l ≠ [] := by
  unfold Err.insertSorted
  split
  · exact nofun
  · split <;> exact nofun

theorem Err.sorted_ne_nil {l : List Err} (h : l ≠ []) : Err.sorted l ≠ [] := by
  cases l with
  | nil => exact absurd rfl h
  | cons e l => exact Err.insertSorted_ne_nil e (Err.sorted l)

theorem State.enterErr_fatal {e : Err} {s : State} (h : e.cls = .fatal ∨ s.errs.fatal = true) : (s.enterErr e).errs.fatal = true := by
  unfold State.enterErr
  split
  next cls =>
    rw [State.count_errs]
    exact h.resolve_left (by rw [cls]; decide)
  next cls =>
    rw [State.count_errs, State.enterQueue_errs, ErrUnit.enter_fatal]
    exact h.resolve_left (by rw [cls]; decide)
  next cls =>
    rw [State.countEvent_errs, State.count_errs, State.enterQueue_errs, ErrUnit.enter_fatal]
    exact h.resolve_left (by rw [cls]; decide)
  next =>
    rw [State.enterQueue_errs, ErrUnit.enter_fatal]
    split
    next already => exact already
    next => rfl

/-- Several FATAL errors in one cycle stop the module (R530). -/
theorem State.raise_fatals {l : List Err} {s : State} (some : l ≠ []) (fatal : ∀ e ∈ l, e.cls = .fatal) : (s.raise l).errs.fatal = true := by
  unfold State.raise
  split
  next already => exact already
  next =>
    have sorted := Err.sorted_ne_nil some
    have cls : ∀ e ∈ Err.sorted l, e.cls = .fatal := fun e he => fatal e (Err.mem_of_mem_sorted he)
    cases order : Err.sorted l with
    | nil => exact absurd order sorted
    | cons e m =>
      rw [order] at cls
      have keeps : ∀ (m : List Err) (u : State), u.errs.fatal = true → (m.foldl (fun s e => State.enterErr e s) u).errs.fatal = true := by
        intro m
        induction m with
        | nil => exact fun _ h => h
        | cons x m ih => exact fun u h => ih _ (State.enterErr_fatal (.inr h))
      exact keeps m _ (State.enterErr_fatal (.inl (cls e (List.mem_cons_self ..))))

theorem Tab.at_map_field {α β : Type} {n : Nat} (v : Vector α n) (d : α) (f : α → α) (g : α → β) (h : ∀ x, g (f x) = g x) (i : Nat) :
    g (Tab.at (v.map f) d i) = g (Tab.at v d i) := by
  by_cases hi : i < n
  · rw [Tab.at_map v d d f i hi, h]
  · rw [Tab.at, dif_neg hi, Tab.at, dif_neg hi]

/-- A die's threshold, and since when every tile of it has been below T_SLOW. -/
def Die.watch (x : Die) : Nat × Option Nat := (x.tAlert, x.belowSince)

/-- What errors leave alone of the stacks and dies: their temperatures, and what watches them. -/
def State.heat (s : State) : (Nat → Nat) × (Nat → Nat × Option Nat) := (fun k => (s.stack k).temp, fun d => (s.die d).watch)

theorem State.enterErr_heat (e : Err) (s : State) : (s.enterErr e).heat = s.heat := by
  have same (u v : State) (hbm : v.hbm = u.hbm) (dies : v.dies = u.dies) : v.heat = u.heat := by
    unfold State.heat State.stack State.die
    rw [hbm, dies]
  have queue (u : State) : (u.enterQueue e).heat = u.heat := same _ _ (State.enterQueue_same (p := .hbm) rfl) (State.enterQueue_same (p := .dies) rfl)
  have event (u : State) : (u.countEvent e).heat = u.heat := by
    unfold State.countEvent
    split
    · split <;> rfl
    · rfl
  have fatal : (s.enterFatal e).heat = s.heat := by
    have alert : s.assertAlert.heat = s.heat := by
      unfold State.assertAlert
      split <;> rfl
    refine Eq.trans ?_ alert
    have hbm : s.assertAlert.hbm = s.hbm := by
      unfold State.assertAlert
      split <;> rfl
    have dies : s.assertAlert.dies = s.dies := by
      unfold State.assertAlert
      split <;> rfl
    unfold State.enterFatal
    refine Prod.ext (funext fun k => ?_) (funext fun d => ?_)
    · exact (Tab.at_map_field s.hbm Stack.reset (fun k => { k with wcb := [] }) Stack.temp (fun _ => rfl) k).trans (congrArg (fun h => (Tab.at h Stack.reset k).temp) hbm.symm)
    · exact (Tab.at_map_field s.dies Die.reset (fun d => { d with ramping := true }) Die.watch (fun _ => rfl) d).trans (congrArg (fun h => (Tab.at h Die.reset d).watch) dies.symm)
  unfold State.enterErr
  split
  · exact same _ _ (State.count_hbm ..) (State.count_dies ..)
  · exact (same _ _ (State.count_hbm ..) (State.count_dies ..)).trans (queue s)
  · exact (event _).trans ((same _ _ (State.count_hbm ..) (State.count_dies ..)).trans (queue s))
  · refine (queue _).trans ?_
    split
    · rfl
    · exact fatal

theorem State.raise_heat (l : List Err) (s : State) : (s.raise l).heat = s.heat := by
  have fold : ∀ (m : List Err) (u : State), (m.foldl (fun s e => State.enterErr e s) u).heat = u.heat := by
    intro m
    induction m with
    | nil => exact fun _ => rfl
    | cons e m ih => exact fun u => (ih _).trans (State.enterErr_heat e u)
  unfold State.raise
  split
  · rfl
  · exact fold _ s

theorem State.raise_temp (l : List Err) (s : State) (k : Nat) : ((s.raise l).stack k).temp = (s.stack k).temp :=
  congrFun (congrArg Prod.fst (State.raise_heat l s)) k

theorem State.raise_watch (l : List Err) (s : State) (d : Nat) : ((s.raise l).die d).watch = (s.die d).watch :=
  congrFun (congrArg Prod.snd (State.raise_heat l s)) d

/-! ## A sample -/

/-- The state with a sample's temperatures, before what they call for. -/
def State.sensed (tiles hbm : List Nat) (hub : Nat) (s : State) : State := { s with
  tiles := Tab.build 208 (fun t => { s.tile t with temp := tiles.getD t 0 }),
  hbm := Tab.build 12 (fun k => { s.stack k with temp := hbm.getD k 0 }),
  dies := Tab.build 4 (fun d => (s.die d).sampled s.clock (dieSamples tiles d)),
  power := { s.power with
    hubTemp := hub, spareTemps := Tab.build 16 (fun i => tiles.getD (208 + i) 0), hot := (hotSensors tiles hbm hub).map (·.1),
    nextSample := s.power.nextSample + 10000 } }

theorem State.countMaxes_tele (ds : List Nat) (s : State) :
    ∃ x, ds.foldl (fun (s : State) d => s.countMax .tMaxSeen d (s.die d).tMax) s = { s with tele := x } := by
  induction ds generalizing s with
  | nil => exact ⟨s.tele, rfl⟩
  | cons d ds ih =>
    obtain ⟨x, h⟩ := ih (s.countMax .tMaxSeen d (s.die d).tMax)
    exact ⟨x, h⟩

/-- The sensors at 115 °C or more in two samples running. -/
def State.tripping (tiles hbm : List Nat) (hub : Nat) (s : State) : List ((Nat × Nat) × Nat) :=
  (hotSensors tiles hbm hub).filter (fun x => s.power.hot.contains x.1)

theorem exec_thermalSample {tiles hbm : List Nat} {hub : Nat} {s : State} (on : s.pacing = true) :
    ∃ x, exec (.thermalSample tiles hbm hub) s = .next
      ({ (s.until s.power.nextSample).sensed tiles hbm hub with tele := x }.trip (s.tripping tiles hbm hub)).realert := by
  obtain ⟨x, counted⟩ := State.countMaxes_tele (List.range 4) ((s.until s.power.nextSample).sensed tiles hbm hub)
  refine ⟨x, ?_⟩
  rw [← counted]
  exact if_neg (by simp [on])

/-- The trip's stop: what it leaves of a state. -/
theorem State.trip_facts {l : List ((Nat × Nat) × Nat)} (some : l ≠ []) (s : State) :
    (s.trip l).errs.fatal = true ∧ (s.trip l).pins.thermtripN = false ∧
    (∀ d, d < 4 → ((s.trip l).die d).ramping = true ∧ ((s.trip l).die d).voutMv = Config.perfVolt d 7) := by
  have go : s.trip l = { s.raise (l.map (fun x => Err.plain .fatal 0x30 (sensorSource x.1).1 (sensorSource x.1).2 (x.2 % 256) 0)) with
      pins := { (s.raise (l.map (fun x => Err.plain .fatal 0x30 (sensorSource x.1).1 (sensorSource x.1).2 (x.2 % 256) 0))).pins with thermtripN := false },
      dies := Tab.build 4 (fun d => { ((s.raise (l.map (fun x => Err.plain .fatal 0x30 (sensorSource x.1).1 (sensorSource x.1).2 (x.2 % 256) 0))).die d).vout
        (Config.perfVolt d 7) with ramping := true }) } := if_neg fun none => some (emptyList_iff.1 none)
  rw [go]
  refine ⟨State.raise_fatals (fun none => some (List.map_eq_nil_iff.1 none)) fun e he => ?_, rfl, fun d hd => ?_⟩
  · obtain ⟨x, -, rfl⟩ := List.mem_map.1 he
    rfl
  · rw [State.die, Tab.at_build _ _ _ hd]
    exact ⟨rfl, rfl⟩

/-- What a trip leaves alone, if there is one. -/
theorem State.trip_keeps (l : List ((Nat × Nat) × Nat)) (s : State) : (s.trip l).tiles = s.tiles ∧ (s.trip l).power = s.power ∧
    (∀ k, ((s.trip l).stack k).temp = (s.stack k).temp) ∧ (∀ d, d < 4 → ((s.trip l).die d).watch = (s.die d).watch) := by
  unfold State.trip
  split
  · exact ⟨rfl, rfl, fun _ => rfl, fun _ _ => rfl⟩
  · refine ⟨State.raise_tiles .., State.raise_same (p := .power) rfl, fun k => State.raise_temp _ s k, fun d hd => ?_⟩
    rw [State.die, Tab.at_build _ _ _ hd]
    exact State.raise_watch _ s d

theorem State.alertCause_of_fatal {s : State} (h : s.errs.fatal = true) : s.alertCause = true := by simp [State.alertCause, h]

theorem State.alertCause_of_tile {d : Nat} {s : State} (hd : d < 4) (h : (s.die d).alertFlag = true) : s.alertCause = true := by
  have tile : (List.range 4).any (fun d => (s.die d).alertFlag) = true := List.any_eq_true.2 ⟨d, List.mem_range.2 hd, h⟩
  simp [State.alertCause, State.sensorAlert, tile]

theorem State.alertCause_of_spare {i : Nat} {s : State} (hi : i < 16) (h : (s.die (i / 4)).tAlert ≤ Tab.at s.power.spareTemps 0 i) :
    s.alertCause = true := by
  have spare : (List.range 16).any (fun i => decide ((s.die (i / 4)).tAlert ≤ Tab.at s.power.spareTemps 0 i)) = true :=
    List.any_eq_true.2 ⟨i, List.mem_range.2 hi, decide_eq_true h⟩
  simp [State.alertCause, State.sensorAlert, spare]

theorem State.sensed_die {tiles hbm : List Nat} {hub d : Nat} {s : State} (hd : d < 4) :
    (s.sensed tiles hbm hub).die d = (s.die d).sampled s.clock (dieSamples tiles d) := Tab.at_build _ _ _ hd

/-- Settles O32. -/
theorem heatTrips : Obligations.HeatTrips := by
  refine ⟨fun tiles hbm hub s on length => ?_, fun d s hd alert => ?_, fun d u s hd below => ?_⟩
  · obtain ⟨x, run⟩ := exec_thermalSample (tiles := tiles) (hbm := hbm) (hub := hub) on
    generalize hu : ({ (s.until s.power.nextSample).sensed tiles hbm hub with tele := x } : State) = u at run
    have die (d : Nat) (hd : d < 4) : u.die d = (s.die d).sampled (max s.clock s.power.nextSample) (dieSamples tiles d) := by
      rw [← hu]
      exact State.sensed_die (tiles := tiles) (hbm := hbm) (hub := hub) (s := s.until s.power.nextSample) hd
    have power : u.power = { s.power with
        hubTemp := hub, spareTemps := Tab.build 16 (fun i => tiles.getD (208 + i) 0), hot := (hotSensors tiles hbm hub).map (·.1),
        nextSample := s.power.nextSample + 10000 } := by rw [← hu]; rfl
    have errs : u.errs = s.errs := by rw [← hu]; rfl
    have pins : u.pins = s.pins := by rw [← hu]; rfl
    obtain ⟨tiles', power', temps, alerts⟩ := State.trip_keeps (s.tripping tiles hbm hub) u
    obtain ⟨errs'', dies'', -, power'', tiles'', hbm'', trip''⟩ := State.realert_same (u.trip (s.tripping tiles hbm hub))
    have spare (i : Nat) (hi : i < 16) : Tab.at (Tab.build 16 (fun i => tiles.getD (208 + i) 0)) 0 i = tiles.getD (208 + i) 0 := Tab.at_build _ _ _ hi
    have die'' (d : Nat) : ((u.trip (s.tripping tiles hbm hub)).realert).die d = (u.trip (s.tripping tiles hbm hub)).die d := by
      rw [State.die, dies'', State.die]
    refine ⟨_, run, fun y hy => ?_, fun k hk => ?_, ?_, fun i hi => ?_, fun hot => ?_, ?_, fun d hd => ?_, ?_, fun cool => ?_, fun running both => ?_⟩
    · rw [State.tile, tiles'', tiles', ← hu]
      exact congrArg Tile.temp (Tab.at_build _ _ _ hy)
    · rw [State.stack, hbm'', ← State.stack, temps, ← hu]
      exact congrArg Stack.temp (Tab.at_build _ _ _ hk)
    · rw [power'', power', power]
    · rw [power'', power', power]
      exact spare i hi
    · obtain ⟨i, hi, hot⟩ := hot
      refine State.realert_alerts (State.alertCause_of_spare hi ?_)
      have threshold : ((u.trip (s.tripping tiles hbm hub)).die (i / 4)).tAlert = (s.die (i / 4)).tAlert :=
        (congrArg Prod.fst (alerts (i / 4) (by omega))).trans ((congrArg Die.tAlert (die (i / 4) (by omega))).trans (Die.sampled_tAlert ..))
      rw [threshold, power', power]
      exact hot.trans (Nat.le_of_eq (spare i hi).symm)
    · rw [power'', power', power]
    · have below : (((u.trip (s.tripping tiles hbm hub)).realert).die d).belowSince =
          if (s.die d).tSlow ≤ (hottest (dieSamples tiles d)).1 then none else some ((s.die d).belowSince.getD (max s.clock s.power.nextSample)) := by
        rw [die'']
        exact (congrArg Prod.snd (alerts d hd)).trans ((congrArg Die.belowSince (die d hd)).trans (Die.sampled_below ..))
      rw [below]
      refine ⟨fun hot => if_pos ((hottest_reaches hd length).2 hot), fun cool => if_neg fun hot => ?_⟩
      obtain ⟨i, hi, reaches⟩ := (hottest_reaches hd length).1 hot
      exact absurd reaches (Nat.not_le.2 (cool i hi))
    · rw [power'', power', power]
    · have none : s.tripping tiles hbm hub = [] := List.filter_eq_nil_iff.2 fun y hy again => by
        have new := List.all_eq_true.1 cool y hy
        rw [again] at new
        cases new
      have still : u.trip (s.tripping tiles hbm hub) = u := by rw [none]; rfl
      rw [still] at errs'' trip'' die'' ⊢
      refine ⟨by rw [errs'', errs], by rw [trip'', pins], fun d hd cold => ?_, fun d i hd hi hot calm => ⟨?_, ?_⟩⟩
      · rw [die'', die d hd, Die.sampled_floor, if_neg]
        rintro ⟨hot, -⟩
        obtain ⟨i, hi, reaches⟩ := (hottest_reaches hd length).1 hot
        exact absurd reaches (Nat.not_le.2 (cold i hi))
      · rw [die'', die d hd, Die.sampled_floor, if_pos ⟨(hottest_reaches hd length).2 ⟨i, hi, hot⟩, calm⟩]
      · refine State.realert_alerts (State.alertCause_of_tile hd ?_)
        rw [die d hd, Die.sampled_alert]
        exact decide_eq_true ((hottest_reaches hd length).2 ⟨i, hi, hot⟩)
    · have some : s.tripping tiles hbm hub ≠ [] := fun none => by
        obtain ⟨y, hy, again⟩ := List.any_eq_true.1 both
        exact absurd again (List.filter_eq_nil_iff.1 none y hy)
      obtain ⟨fatal, low, dies⟩ := State.trip_facts some u
      refine ⟨by rw [errs'']; exact fatal, by rw [trip'']; exact low, State.realert_alerts (State.alertCause_of_fatal fatal), fun d hd => ?_⟩
      rw [die'']
      exact dies d hd
  · have run : exec (.thermalFloorRise d) s = .next ((s.until (s.die d).floorRose).mapDie d (fun x => { x with
        floor := min 7 (x.floor + 1), floorRose := (s.until (s.die d).floorRose).clock + 1000000 })) := if_pos ⟨hd, alert⟩
    exact ⟨_, run, rfl⟩
  · have run : exec (.thermalFloorFall d) s = .next ((s.until (u + 10000000)).mapDie d (fun x => { x with
        floor := x.floor - 1, belowSince := some (s.until (u + 10000000)).clock })) := by
      change execThermalFloorFall d s = _
      unfold execThermalFloorFall
      rw [below]
      exact if_pos hd
    exact ⟨_, run, rfl⟩

end Sys2Proof.Machine
end

section
/-!
PROOFS. O30: the pacer's slot stays within the module's budget and each die's slew limit (R465-R472, Tables PW.6 and PW.7).
-/
namespace Sys2Proof.Machine

/-! ## Sums -/

theorem total_nil : total [] = 0 := rfl

theorem total_cons (x : Nat) (l : List Nat) : total (x :: l) = x + total l := by
  have shift (l : List Nat) (a : Nat) : l.foldl (· + ·) a = a + l.foldl (· + ·) 0 := by
    induction l generalizing a with
    | nil => rfl
    | cons y l ih => rw [List.foldl_cons, List.foldl_cons, ih, ih (0 + y)]; omega
  rw [total, List.foldl_cons, shift, total]
  omega

theorem total_map_le {α : Type} {f g : α → Nat} {l : List α} (h : ∀ a ∈ l, f a ≤ g a) : total (l.map f) ≤ total (l.map g) := by
  induction l with
  | nil => exact Nat.le_refl _
  | cons a l ih =>
    rw [List.map_cons, List.map_cons, total_cons, total_cons]
    exact Nat.add_le_add (h a (List.mem_cons_self ..)) (ih fun b hb => h b (List.mem_cons_of_mem _ hb))

/-- A sum in which the elements that meet a test are raised by the same amount. -/
theorem total_map_raise {α : Type} (f : α → Nat) (p : α → Bool) (n : Nat) (l : List α) :
    total (l.map fun a => if p a then f a + n else f a) = total (l.map f) + n * (l.filter p).length := by
  induction l with
  | nil => rfl
  | cons a l ih =>
    rw [List.map_cons, List.map_cons, total_cons, total_cons, ih]
    cases h : p a with
    | true => rw [List.filter_cons_of_pos h, List.length_cons, Nat.mul_succ, if_pos rfl]; omega
    | false => rw [List.filter_cons_of_neg (by simp [h]), if_neg Bool.false_ne_true]; omega

/-! ## Levels -/

theorem levelBits_cost {cost : Nat → Nat} {bound acc : Nat} (h : cost acc ≤ bound) (b : Nat) : cost (levelBits cost bound b acc) ≤ bound := by
  induction b generalizing acc with
  | zero => exact h
  | succ b ih =>
    rw [levelBits]
    refine ih ?_
    split
    next fits => exact fits
    next => exact h

/-- What a level serves stays within its bound. -/
theorem waterLevel_serves (ds : List Nat) (bound : Nat) : total (ds.map (min (waterLevel ds bound))) ≤ bound := by
  refine levelBits_cost (cost := fun l => total (ds.map (min l))) ?_ 18
  have none (ds : List Nat) : total (ds.map (min 0)) = 0 := by
    induction ds with
    | nil => rfl
    | cons d ds ih => rw [List.map_cons, total_cons, ih, Nat.zero_min]
  exact (none ds).trans_le (Nat.zero_le _)

/-! ## The slot that ends (R465, R472) -/

/-- A die after a slot in which its tiles spent `spending`. -/
def Die.settled (x : Die) (spending step : Nat) : Die :=
  { x with
    spending := spending, spent := spending + ((if x.still then x.spent else x.spent - step) - spending),
    ramping := x.ramping && decide (spending + ((if x.still then x.spent else x.spent - step) - spending) ≠ 0) }

theorem Die.settled_spent (x : Die) (spending step : Nat) :
    (x.settled spending step).spent = max spending (if x.still then x.spent else x.spent - step) := by
  change spending + (_ - spending) = _
  omega

/-- What the end of a slot keeps: all but the dies' consumption, the mark of the ballast and the counters. -/
structure SlotKeeps (s u : State) : Prop where
  tiles : u.tiles = s.tiles
  errs : u.errs = s.errs
  clock : u.clock = s.clock
  inForce : u.power.inForce = s.power.inForce
  fixed : u.power.fixed = s.power.fixed
  nextSlot : u.power.nextSlot = s.power.nextSlot
  die : ∀ e, (u.die e).charged = (s.die e).charged ∧ (u.die e).slew = (s.die e).slew ∧ (u.die e).point = (s.die e).point

theorem SlotKeeps.trans {s u v : State} (h : SlotKeeps s u) (k : SlotKeeps u v) : SlotKeeps s v where
  tiles := k.tiles.trans h.tiles
  errs := k.errs.trans h.errs
  clock := k.clock.trans h.clock
  inForce := k.inForce.trans h.inForce
  fixed := k.fixed.trans h.fixed
  nextSlot := k.nextSlot.trans h.nextSlot
  die e := ⟨(k.die e).1.trans (h.die e).1, (k.die e).2.1.trans (h.die e).2.1, (k.die e).2.2.trans (h.die e).2.2⟩

theorem SlotKeeps.rate {s u : State} (h : SlotKeeps s u) (t : Nat) : u.rate t = s.rate t := by
  rw [State.rate, State.rate, State.kappaOf, State.kappaOf, (h.die _).1, State.tile, h.tiles, State.tile]

theorem SlotKeeps.dieSpending {s u : State} (h : SlotKeeps s u) (d : Nat) : u.dieSpending d = s.dieSpending d := by
  have spent (t : Nat) : u.slotSpent t = s.slotSpent t := by
    rw [State.slotSpent, State.slotSpent, h.rate, State.paced, State.paced, h.errs, State.tile, h.tiles, State.tile]
  simp only [State.dieSpending, spent]

theorem SlotKeeps.slewStep {s u : State} (h : SlotKeeps s u) (d : Nat) : u.slewStep d = s.slewStep d := by
  obtain ⟨-, slew, point⟩ := h.die d
  rw [State.slewStep, State.slewStep, slew, point]

/-- The fields that the end of a slot could touch, but for the counters. -/
def State.slotView (s : State) : Tab 208 Tile × ErrUnit × Nat × Power × Tab 4 Die := (s.tiles, s.errs, s.clock, s.power, s.dies)

theorem State.count_slotView (c : Ctr) (i n : Nat) (s : State) : (s.count c i n).slotView = s.slotView := by
  simp only [State.slotView, State.count_tiles, State.count_errs, State.count_clock, State.count_power, State.count_dies]

/-- The die settled, with a mark of the ballast and counters. -/
theorem State.slotDie_view (d : Nat) (s : State) : ∃ b, (s.slotDie d).slotView =
    (s.tiles, s.errs, s.clock, { s.power with winBallast := b }, (s.mapDie d (·.settled (s.dieSpending d) (s.slewStep d))).dies) := by
  have same : total (((List.range 52).map (52 * d + ·)).map s.slotSpent) = s.dieSpending d := by
    rw [List.map_map]; rfl
  unfold State.slotDie
  dsimp only
  rw [same, List.foldl_keeps (g := State.slotView), State.count_slotView, State.count_slotView]
  · exact ⟨_, rfl⟩
  · intro s t
    split
    · exact State.count_slotView ..
    · rfl

theorem State.slotDie_die (d e : Nat) (s : State) :
    (s.slotDie d).die e = if e = d ∧ e < 4 then (s.die d).settled (s.dieSpending d) (s.slewStep d) else s.die e := by
  obtain ⟨b, h⟩ := s.slotDie_view d
  have dies : (s.slotDie d).dies = (s.mapDie d (·.settled (s.dieSpending d) (s.slewStep d))).dies := congrArg (·.2.2.2.2) h
  rw [State.die, dies]
  exact State.die_mapDie _ d e _

theorem State.slotDie_keeps (d : Nat) (s : State) : SlotKeeps s (s.slotDie d) := by
  obtain ⟨b, h⟩ := s.slotDie_view d
  have power : (s.slotDie d).power = { s.power with winBallast := b } := congrArg (·.2.2.2.1) h
  refine ⟨congrArg (·.1) h, congrArg (·.2.1) h, congrArg (·.2.2.1) h, by rw [power], by rw [power], by rw [power], fun e => ?_⟩
  rw [State.slotDie_die]
  split
  next same =>
    obtain ⟨rfl, -⟩ := same
    exact ⟨rfl, rfl, rfl⟩
  next => exact ⟨rfl, rfl, rfl⟩

theorem State.slotDies_keeps (ds : List Nat) (s : State) : SlotKeeps s (ds.foldl (fun s d => State.slotDie d s) s) := by
  induction ds generalizing s with
  | nil => exact ⟨rfl, rfl, rfl, rfl, rfl, rfl, fun _ => ⟨rfl, rfl, rfl⟩⟩
  | cons d ds ih => exact (State.slotDie_keeps d s).trans (ih _)

theorem State.slotDies_die {ds : List Nat} (once : ds.Nodup) {e : Nat} (he : e < 4) (s : State) :
    (ds.foldl (fun s d => State.slotDie d s) s).die e =
      if e ∈ ds then (s.die e).settled (s.dieSpending e) (s.slewStep e) else s.die e := by
  induction ds generalizing s with
  | nil => rfl
  | cons d ds ih =>
    obtain ⟨out, once⟩ := List.nodup_cons.1 once
    have keeps := State.slotDie_keeps d s
    rw [List.foldl_cons, ih once, keeps.dieSpending, keeps.slewStep, State.slotDie_die]
    by_cases same : e = d
    · subst same
      rw [if_neg out, if_pos (⟨rfl, he⟩ : e = e ∧ e < 4), if_pos (List.mem_cons_self ..)]
    · simp [same]

/-! ## The shares (Table PW.7) -/

/-- The shares of one die. -/
def dieShares (d : Nat) (l : List Allot) : List Allot := l.filter (fun a => dieOfTile a.tile == d)

/-- Shares for every tile once, the module's part `module` of them given with what is left, and no die above its cap. -/
structure Shared (cap : Nat → Nat) (module : Nat) (r : List Allot × Nat) : Prop where
  tiles : r.1.map (·.tile) = List.range 208
  module : total (r.1.map Allot.core) + r.2 = module
  die : ∀ d, d < 4 → total ((dieShares d r.1).map Allot.core) ≤ cap d

theorem dieTiles_eq {d : Nat} (hd : d < 4) : (List.range 208).filter (fun t => dieOfTile t == d) = (List.range 52).map (52 * d + ·) := by
  interval_cases d <;> decide

/-- A field of the tiles of a die, summed over the shares. -/
theorem total_dieShares {l : List Allot} (tiles : l.map (·.tile) = List.range 208) {d : Nat} (hd : d < 4) (f : Nat → Nat) :
    total ((dieShares d l).map (fun a => f a.tile)) = total ((List.range 52).map (fun i => f (52 * d + i))) := by
  have : (dieShares d l).map (·.tile) = (List.range 52).map (52 * d + ·) := by
    rw [← dieTiles_eq hd, ← tiles, List.filter_map]
    rfl
  have := congrArg (fun l => total (List.map f l)) this
  simpa only [List.map_map, Function.comp_def] using this

/-- A die's demands, each with what its slew limit leaves of it. -/
def State.dieCapped (s : State) (d : Nat) : List (Nat × Nat × Nat) :=
  let ts := (List.range 52).map (52 * d + ·)
  let l := waterLevel (ts.map s.coreDemand) ((s.die d).spent + s.slewStep d)
  ts.map (fun t => (t, s.coreDemand t, min (s.coreDemand t) l))

/-- The shares of Table PW.7's steps 2 and 3 at a module level. -/
def sharesAt (capped : List (Nat × Nat × Nat)) (l : Nat) : List Allot :=
  capped.map (fun x => { tile := x.1, demand := x.2.1, capped := x.2.2, core := min x.2.2 l, mem := 0 })

theorem State.shares_eq (s : State) (module : Nat) : s.shares module = sharesAt ((List.range 4).flatMap s.dieCapped)
    (waterLevel (((List.range 4).flatMap s.dieCapped).map (·.2.2)) module) := rfl

theorem State.dieCapped_tiles (s : State) (d : Nat) : (s.dieCapped d).map (·.1) = (List.range 52).map (52 * d + ·) := by
  rw [State.dieCapped, List.map_map, List.map_map]
  rfl

theorem State.dieCapped_total (s : State) (d : Nat) : total ((s.dieCapped d).map (·.2.2)) ≤ (s.die d).spent + s.slewStep d := by
  refine Nat.le_trans (total_map_le (g := (·.2.2)) fun _ _ => Nat.le_refl _) ?_
  refine Nat.le_trans (Nat.le_of_eq ?_) (waterLevel_serves (((List.range 52).map (52 * d + ·)).map s.coreDemand) _)
  rw [State.dieCapped, List.map_map, List.map_map]
  exact congrArg total (List.map_congr_left fun t _ => Nat.min_comm ..)

theorem capped_tiles (s : State) : ((List.range 4).flatMap s.dieCapped).map (·.1) = List.range 208 := by
  rw [List.map_flatMap]
  simp only [State.dieCapped_tiles]
  rw [show 208 = 52 + 52 + 52 + 52 from rfl, List.range_add, List.range_add, List.range_add]
  rfl

/-- Of the capped demands, those of one die. -/
theorem capped_die (s : State) {d : Nat} (hd : d < 4) :
    ((List.range 4).flatMap s.dieCapped).filter (fun x => dieOfTile x.1 == d) = s.dieCapped d := by
  have mine (e : Nat) : (s.dieCapped e).filter (fun x => dieOfTile x.1 == d) = if e = d then s.dieCapped e else [] := by
    have inside {x : Nat × Nat × Nat} (hx : x ∈ s.dieCapped e) : dieOfTile x.1 = e :=
      mem_dieTiles.1 (s.dieCapped_tiles e ▸ List.mem_map_of_mem hx)
    split
    next same => exact List.filter_eq_self.2 fun x hx => by simp [inside hx, same]
    next other => exact List.filter_eq_nil_iff.2 fun x hx => by simp [inside hx, other]
  rw [List.filter_flatMap]
  simp only [mine, List.range_eq_range', List.range'_succ]
  interval_cases d <;> simp

theorem State.shares_shared (s : State) (module : Nat) :
    Shared (fun d => (s.die d).spent + s.slewStep d) module (s.shares module, module - total ((s.shares module).map Allot.core)) where
  tiles := by
    rw [State.shares_eq, sharesAt, List.map_map]
    exact capped_tiles s
  module := by
    have within : total ((s.shares module).map Allot.core) ≤ module := by
      refine Nat.le_trans (Nat.le_of_eq ?_) (waterLevel_serves (((List.range 4).flatMap s.dieCapped).map (·.2.2)) module)
      rw [State.shares_eq, sharesAt, List.map_map, List.map_map]
      exact congrArg total (List.map_congr_left fun t _ => Nat.min_comm ..)
    dsimp only
    omega
  die d hd := by
    refine Nat.le_trans ?_ (s.dieCapped_total d)
    rw [State.shares_eq, sharesAt, dieShares, List.filter_map, List.map_map, ← capped_die s hd]
    exact total_map_le fun _ _ => Nat.min_le_left ..

/-- The bonus of a die's tiles stays within what its cap and the module leave. -/
theorem State.bonus_shared (s : State) {module d : Nat} {r : List Allot × Nat}
    (h : Shared (fun d => (s.die d).spent + s.slewStep d) module r) : Shared (fun d => (s.die d).spent + s.slewStep d) module (s.bonus d r) := by
  unfold State.bonus
  dsimp only
  split
  · exact h
  next some =>
    generalize hleft : min ((s.die d).spent + s.slewStep d - total ((r.1.filter (fun a => dieOfTile a.tile == d)).map Allot.core)) r.2 = left
    generalize hjobs : ((r.1.filter (fun a => dieOfTile a.tile == d)).filter (fun a => s.paced a.tile)).length = jobs
    have given : left / jobs * jobs ≤ left := Nat.div_mul_le_self ..
    have raise (l : List Allot) : (l.map fun a => if dieOfTile a.tile == d && s.paced a.tile then { a with core := a.core + left / jobs } else a).map Allot.core =
        l.map fun a => if dieOfTile a.tile == d && s.paced a.tile then a.core + left / jobs else a.core := by
      rw [List.map_map]
      exact List.map_congr_left fun a _ => by dsimp only [Function.comp]; split <;> rfl
    have tile (a : Allot) : (if dieOfTile a.tile == d && s.paced a.tile then { a with core := a.core + left / jobs } else a).tile = a.tile := by
      split <;> rfl
    have mine (e : Nat) : (dieShares e r.1).filter (fun a => dieOfTile a.tile == d && s.paced a.tile) =
        if e = d then (dieShares d r.1).filter (fun a => s.paced a.tile) else [] := by
      rw [dieShares, dieShares, List.filter_filter]
      split
      next same =>
        subst same
        rw [List.filter_filter]
        exact List.filter_congr fun a _ => by cases dieOfTile a.tile == e <;> simp
      next other => exact List.filter_eq_nil_iff.2 fun a _ => by simp; omega
    refine ⟨?_, ?_, fun e he => ?_⟩
    · rw [List.map_map, ← h.tiles]
      exact List.map_congr_left fun a _ => tile a
    · have before := h.module
      have all : r.1.filter (fun a => dieOfTile a.tile == d && s.paced a.tile) = (dieShares d r.1).filter (fun a => s.paced a.tile) := by
        rw [dieShares, List.filter_filter]
        exact List.filter_congr fun a _ => Bool.and_comm ..
      dsimp only
      rw [raise, total_map_raise Allot.core, all, dieShares, hjobs]
      have : left ≤ r.2 := hleft ▸ Nat.min_le_right ..
      generalize left / jobs * jobs = n at given ⊢
      omega
    · have cap : total ((dieShares e r.1).map Allot.core) ≤ (s.die e).spent + s.slewStep e := h.die e he
      have : dieShares e (r.1.map fun a => if dieOfTile a.tile == d && s.paced a.tile then { a with core := a.core + left / jobs } else a) =
          (dieShares e r.1).map fun a => if dieOfTile a.tile == d && s.paced a.tile then { a with core := a.core + left / jobs } else a := by
        rw [dieShares, List.filter_map, dieShares]
        exact congrArg _ (List.filter_congr fun a _ => congrArg (dieOfTile · == e) (tile a))
      dsimp only
      rw [this, raise, total_map_raise Allot.core, mine]
      split
      next same =>
        subst same
        have : left ≤ (s.die e).spent + s.slewStep e - total ((dieShares e r.1).map Allot.core) := hleft ▸ Nat.min_le_left ..
        rw [dieShares, hjobs, ← dieShares]
        generalize left / jobs * jobs = n at given ⊢
        omega
      next => exact cap

theorem State.bonuses_shared (s : State) {module : Nat} (ds : List Nat) {r : List Allot × Nat}
    (h : Shared (fun d => (s.die d).spent + s.slewStep d) module r) :
    Shared (fun d => (s.die d).spent + s.slewStep d) module (ds.foldl (fun acc d => s.bonus d acc) r) := by
  induction ds generalizing r with
  | nil => exact h
  | cons d ds ih => exact ih (s.bonus_shared h)

/-- Memory tokens leave the shares of core tokens alone. -/
theorem State.memShares_shared (s : State) {cap : Nat → Nat} {module : Nat} {r : List Allot × Nat} (h : Shared cap module r) :
    Shared cap module (s.memShares r.1 r.2, r.2) := by
  have shares (f : Allot → Allot) (tile : ∀ a, (f a).tile = a.tile) (core : ∀ a, (f a).core = a.core) :
      Shared cap module (r.1.map f, r.2) := by
    have cores (l : List Allot) : (l.map f).map Allot.core = l.map Allot.core := by
      rw [List.map_map]
      exact List.map_congr_left fun a _ => core a
    refine ⟨?_, ?_, fun d hd => ?_⟩
    · rw [List.map_map, ← h.tiles]
      exact List.map_congr_left fun a _ => tile a
    · rw [cores, h.module]
    · have : dieShares d (r.1.map f) = (dieShares d r.1).map f := by
        rw [dieShares, List.filter_map, dieShares]
        exact congrArg _ (List.filter_congr fun a _ => congrArg (dieOfTile · == d) (tile a))
      rw [this, cores]
      exact h.die d hd
  exact shares _ (fun a => by split <;> rfl) (fun a => by split <;> rfl)

/-! ## The tiles of the slot that begins (R465, R469) -/

/-- A tile with its share and `n` cycles of the slot. -/
def Allot.give (a : Allot) (n : Nat) (u : Tile) : Tile :=
  { u with
    coreAllot := a.core, drawn := 0, slotLeft := n, memAllot := a.mem - u.memOwed, memOwed := u.memOwed - a.mem,
    limited := a.core < a.capped }

/-- One tile's allotment. -/
def State.allotOne (a : Allot) (s : State) : State := (s.mapTile a.tile (a.give (s.slotOf a.tile))).repace a.tile

theorem State.allot_cons (a : Allot) (l : List Allot) (s : State) : State.allot (a :: l) s = State.allot l (s.allotOne a) := rfl

theorem State.allotOne_other {a : Allot} {x : Nat} (other : x ≠ a.tile) (s : State) : (s.allotOne a).tile x = s.tile x := by
  rw [State.allotOne, State.repace_tile, if_neg fun h => other h.1, State.tile_mapTile_other _ other]

/-- A tile's rate follows from its window and its die's charge. -/
theorem State.mapTile_rate {f : Tile → Tile} (window : ∀ u, (f u).window = u.window) (t x : Nat) (s : State) : (s.mapTile t f).rate x = s.rate x := by
  have same : ((s.mapTile t f).tile x).window = (s.tile x).window := by
    rw [State.tile_mapTile]
    split
    next same => rw [same.1, window]
    next => rfl
  rw [State.rate, State.rate, Tile.classes, same]
  rfl

theorem State.allotOne_rate (a : Allot) (x : Nat) (s : State) : (s.allotOne a).rate x = s.rate x :=
  (State.repace_rate ..).trans (State.mapTile_rate (f := a.give (s.slotOf a.tile)) (fun _ => rfl) ..)

/-- What a tile has of an allotment. -/
structure Allotted (a : Allot) (rate : Nat) (u : Tile) : Prop where
  core : u.coreAllot = a.core
  runs : u.runs = min u.slotLeft (u.coreAllot / max 1 rate)
  drawn : u.drawn = 0

theorem State.allotOne_self {a : Allot} (here : a.tile < 208) (s : State) : Allotted a (s.rate a.tile) ((s.allotOne a).tile a.tile) := by
  rw [State.allotOne, State.repace_tile, if_pos ⟨rfl, here⟩, State.mapTile_rate (f := a.give (s.slotOf a.tile)) fun _ => rfl, State.tile_mapTile_self _ here]
  exact ⟨rfl, rfl, rfl⟩

theorem State.allot_rate (l : List Allot) (x : Nat) (s : State) : (s.allot l).rate x = s.rate x := by
  induction l generalizing s with
  | nil => rfl
  | cons a l ih => rw [State.allot_cons, ih, State.allotOne_rate]

theorem State.allot_other {l : List Allot} {x : Nat} (out : x ∉ l.map (·.tile)) (s : State) : (s.allot l).tile x = s.tile x := by
  induction l generalizing s with
  | nil => rfl
  | cons a l ih =>
    rw [List.map_cons, List.mem_cons, not_or] at out
    rw [State.allot_cons, ih out.2, State.allotOne_other out.1]

theorem State.allot_tile {l : List Allot} (once : (l.map (·.tile)).Nodup) {a : Allot} (mem : a ∈ l) (here : a.tile < 208) (s : State) :
    Allotted a (s.rate a.tile) ((s.allot l).tile a.tile) := by
  induction l generalizing s with
  | nil => cases mem
  | cons b l ih =>
    obtain ⟨out, once⟩ := List.nodup_cons.1 once
    rw [State.allot_cons]
    obtain rfl | mem := List.mem_cons.1 mem
    · rw [State.allot_other out]
      exact State.allotOne_self here s
    · rw [← State.allotOne_rate b]
      exact ih once mem _

theorem State.allot_same (l : List Allot) (s : State) :
    (s.allot l).dies = s.dies ∧ (s.allot l).power = s.power ∧ (s.allot l).clock = s.clock := by
  induction l generalizing s with
  | nil => exact ⟨rfl, rfl, rfl⟩
  | cons a l ih => exact ih (s.allotOne a)

/-! ## The marks of the slot -/

/-- What the marks of a slot leave as it is. -/
structure MarksKeep (s u : State) : Prop where
  tiles : u.tiles = s.tiles
  clock : u.clock = s.clock
  nextSlot : u.power.nextSlot = s.power.nextSlot
  die : ∀ e, (u.die e).spent = (s.die e).spent ∧ (u.die e).charged = (s.die e).charged

theorem MarksKeep.rate {s u : State} (h : MarksKeep s u) (t : Nat) : u.rate t = s.rate t := by
  rw [State.rate, State.rate, State.kappaOf, State.kappaOf, (h.die _).2, State.tile, h.tiles, State.tile]

theorem State.slotMarks_keep (l : List Allot) (d : Nat) (s : State) : MarksKeep s (s.slotMarks l d) := by
  have view : ∃ b, (s.slotMarks l d).slotView = (s.tiles, s.errs, s.clock, { s.power with winSlewing := b },
      (s.mapDie d (fun x => { x with still := x.frozen })).dies) := by
    unfold State.slotMarks
    dsimp only
    rw [State.count_slotView, State.count_slotView]
    exact ⟨_, rfl⟩
  obtain ⟨b, h⟩ := view
  have power : (s.slotMarks l d).power = { s.power with winSlewing := b } := congrArg (·.2.2.2.1) h
  have die (e : Nat) : (s.slotMarks l d).die e = (s.mapDie d (fun x => { x with still := x.frozen })).die e :=
    congrArg (fun v : Tab 208 Tile × ErrUnit × Nat × Power × Tab 4 Die => Tab.at v.2.2.2.2 Die.reset e) h
  refine ⟨congrArg (·.1) h, congrArg (·.2.2.1) h, by rw [power], fun e => ?_⟩
  rw [die, State.die_mapDie]
  split
  next same =>
    obtain ⟨rfl, -⟩ := same
    exact ⟨rfl, rfl⟩
  next => exact ⟨rfl, rfl⟩

theorem State.slotsMarks_keep (l : List Allot) (ds : List Nat) (s : State) :
    MarksKeep s (ds.foldl (fun (s : State) d => s.slotMarks l d) s) := by
  induction ds generalizing s with
  | nil => exact ⟨rfl, rfl, rfl, fun _ => ⟨rfl, rfl⟩⟩
  | cons d ds ih =>
    have first := s.slotMarks_keep l d
    have rest := ih (s.slotMarks l d)
    exact ⟨rest.tiles.trans first.tiles, rest.clock.trans first.clock, rest.nextSlot.trans first.nextSlot,
      fun e => ⟨(rest.die e).1.trans (first.die e).1, (rest.die e).2.trans (first.die e).2⟩⟩

/-! ## The whole slot -/

/-- The shares that a slot gives out, with what is left of the module's part. -/
def State.slotShares (s : State) (module : Nat) : List Allot × Nat :=
  (List.range 4).foldl (fun acc d => s.bonus d acc) (s.shares module, module - total ((s.shares module).map Allot.core))

theorem State.slotShares_shared (s : State) (module : Nat) : Shared (fun d => (s.die d).spent + s.slewStep d) module (s.slotShares module) :=
  s.bonuses_shared _ (s.shares_shared module)

/-- The service pool of a slot. -/
def State.slotPool (s : State) : Nat := min s.power.serviceDemand (s.budget / 2)

/-- The slot that ends, settled on every die. -/
def State.slotSettled (s : State) : State := (List.range 4).foldl (fun s d => State.slotDie d s) (s.until s.power.nextSlot)

/-- What the next slot gives each tile. -/
def State.slotGiven (s : State) : List Allot :=
  s.memShares (s.slotShares (s.budget - s.slotPool)).1 (s.slotShares (s.budget - s.slotPool)).2

/-- The next slot, given to the tiles and marked on every die. -/
def State.slotBegun (s : State) : State :=
  (List.range 4).foldl (fun (u : State) d => u.slotMarks s.slotGiven d) (s.allot s.slotGiven)

/-- The module's side of a slot's begin. -/
def State.slotClosed (pool : Nat) (limited : Bool) (s : State) : State :=
  { s with power := { s.power with
    nextSlot := s.power.nextSlot + 200, serviceAllot := pool, serviceDemand := s.power.serviceDemand - pool,
    winLimited := s.power.winLimited || limited } }

/-- Some tile gets less than its capped demand. -/
def State.slotLimited (s : State) : Bool := (s.shares (s.budget - s.slotPool)).any (fun a => decide (a.core < a.capped))

theorem execPacerSlot_eq (s : State) : execPacerSlot s = if !s.pacing then .next s else .next
    ((s.slotSettled.slotBegun.slotClosed s.slotSettled.slotPool s.slotSettled.slotLimited).count .serviceTokens 0 s.slotSettled.slotPool) := by
  unfold execPacerSlot State.slotClosed State.slotBegun State.slotGiven State.slotLimited State.slotShares State.slotPool State.slotSettled
  dsimp only

/-- Settles O30: the shares of Table PW.7 stay within the levels' bounds, the bonus within what they leave, and the tiles get
what they name. -/
theorem pacerKeepsBudgetAndSlew : Obligations.PacerKeepsBudgetAndSlew := by
  unfold Obligations.PacerKeepsBudgetAndSlew
  intro s on
  have run := (execPacerSlot_eq s).trans (if_neg (by simp [on]))
  refine ⟨_, run, ?_⟩
  generalize hv : s.slotSettled = v
  have settled : SlotKeeps (s.until s.power.nextSlot) v := hv ▸ State.slotDies_keeps (List.range 4) (s.until s.power.nextSlot)
  have die (d : Nat) (hd : d < 4) : v.die d = (s.die d).settled (s.dieSpending d) (s.slewStep d) := by
    rw [← hv, State.slotSettled, State.slotDies_die List.nodup_range hd, if_pos (List.mem_range.2 hd)]
    rfl
  have slew (d : Nat) : v.slewStep d = s.slewStep d := settled.slewStep d
  have budget : v.budget = (s.power.inForce - s.power.fixed) * 20000 := by
    rw [State.budget, settled.inForce, settled.fixed]
    rfl
  have pool : v.slotPool ≤ (s.power.inForce - s.power.fixed) * 20000 / 2 := budget ▸ Nat.min_le_right ..
  have nextSlot : v.power.nextSlot = s.power.nextSlot := settled.nextSlot
  have clock : v.clock = max s.clock s.power.nextSlot := settled.clock
  generalize v.slotLimited = b
  have shared := State.memShares_shared v (v.slotShares_shared (v.budget - v.slotPool))
  change Shared _ _ (v.slotGiven, _) at shared
  have marks : MarksKeep (v.allot v.slotGiven) v.slotBegun := State.slotsMarks_keep v.slotGiven (List.range 4) (v.allot v.slotGiven)
  generalize v.slotBegun = u at marks
  generalize v.slotGiven = l at marks shared
  generalize v.slotPool = p at pool shared
  obtain ⟨tiles, module, dies⟩ := shared
  dsimp only at tiles module dies
  obtain ⟨dies', power', clock'⟩ := v.allot_same l
  have given (a : Allot) (mem : a ∈ l) : Allotted a (v.rate a.tile) ((v.allot l).tile a.tile) :=
    State.allot_tile (tiles ▸ List.nodup_range) mem (List.mem_range.1 (tiles ▸ List.mem_map_of_mem mem)) v
  generalize ht : (u.slotClosed p b).count .serviceTokens 0 p = t
  have tile (x : Nat) : t.tile x = (v.allot l).tile x := by
    rw [← ht, State.tile, State.count_tiles, State.tile, ← marks.tiles]
    rfl
  have spent (d : Nat) : (t.die d).spent = (v.die d).spent := by
    rw [← ht, State.die_count]
    exact (marks.die d).1.trans (by rw [State.die, dies', State.die])
  have rate (x : Nat) : t.rate x = v.rate x := by
    have before : (v.allot l).rate x = v.rate x := v.allot_rate l x
    rw [← before, ← marks.rate, ← ht, State.rate, State.rate, State.kappaOf, State.kappaOf, State.die_count, State.tile, State.count_tiles]
    rfl
  have power : t.power = (u.slotClosed p b).power := by rw [← ht, State.count_power]
  have same : t.clock = (v.allot l).clock := by
    rw [← ht, State.count_clock, ← marks.clock]
    rfl
  have cores (ms : List Allot) (sub : ∀ a ∈ ms, a ∈ l) : total (ms.map fun a => (t.tile a.tile).coreAllot) = total (ms.map Allot.core) :=
    congrArg total (List.map_congr_left fun a mem => by rw [tile, (given a (sub a mem)).core])
  have pooled : t.power.serviceAllot = p := by rw [power]; rfl
  refine ⟨?_, ?_, fun d hd still => ?_, fun d hd still => ?_, fun d hd => ?_, fun d hd within => ?_, fun d hd => ?_, fun x hx => ?_, ?_, ?_⟩
  · have all := cores l fun _ mem => mem
    have sum : total ((List.range 208).map (fun x => (t.tile x).coreAllot)) = total (l.map Allot.core) := by
      rw [← tiles, List.map_map]
      exact all
    rw [sum, pooled, ← budget]
    have := budget ▸ pool
    omega
  · rw [pooled]; exact pool
  · rw [spent, die d hd, Die.settled_spent, still, if_neg Bool.false_ne_true]
  · rw [spent, die d hd, Die.settled_spent, still, if_pos rfl]
  · rw [spent, die d hd, Die.settled_spent]
    split <;> omega
  · rw [spent, die d hd, Die.settled_spent]
    split <;> omega
  · have mine := cores (dieShares d l) fun _ mem => (List.mem_filter.1 mem).1
    rw [total_dieShares tiles hd (fun x => (t.tile x).coreAllot)] at mine
    rw [mine, spent, ← slew]
    exact dies d hd
  · obtain ⟨a, mem, rfl⟩ := List.mem_map.1 (tiles ▸ List.mem_range.2 hx : x ∈ l.map (·.tile))
    obtain ⟨core, runs, drawn⟩ := given a mem
    rw [tile, rate]
    exact ⟨runs, drawn⟩
  · have next : u.power.nextSlot = s.power.nextSlot := by rw [marks.nextSlot, power', nextSlot]
    rw [power, ← next]
    rfl
  · rw [same, clock', clock]

end Sys2Proof.Machine
end

section
/-!
PROOFS. O57: the Bodkin's modular operations (R505, R507, Table SE.10).
-/
namespace Sys2Proof.Machine

/-! ## Starting an operation -/

section
variable {s : State} (free : s.bodkinFree)
include free

theorem State.bodkinRun_started (l : Nat) (vs r : List Nat) (st : BodkinStatus) (n : Nat) (c : Option (Nat × Curve)) :
    Started s (s.bodkinRun l vs r st n c) r st n c := by
  obtain ⟨idle, out, rails⟩ := free
  exact ⟨_, _, if_neg (by simp [idle, out, rails])⟩

theorem State.bodkinBad_started : Started s s.bodkinBad [] .badOperand 20 none := State.bodkinRun_started free ..

theorem State.bodkinMod_wide {mBits : Nat} (wide : 4096 < mBits) (cycles m : Nat) (vs : List Nat) (f : Nat → List Nat → Nat × BodkinStatus) :
    Started s (s.bodkinMod mBits cycles m vs f) [] .badOperand 20 none := by
  rw [State.bodkinMod, if_pos wide]
  exact State.bodkinBad_started free

end

/-- A modular operation on operands that fit ℓ limbs. -/
theorem State.bodkinMod_eq (s : State) {mBits m : Nat} (narrow : mBits ≤ 4096) (fits : m < 2 ^ (64 * ((mBits + 63) / 64))) (cycles : Nat)
    {vs : List Nat} (limbs : ∀ v ∈ vs, v < 2 ^ (64 * ((mBits + 63) / 64))) (f : Nat → List Nat → Nat × BodkinStatus) :
    s.bodkinMod mBits cycles m vs f =
      let r := if m % 2 = 0 ∨ m < 3 then (0, BodkinStatus.badOperand) else f m (vs.map (· % m))
      s.bodkinRun (bodkinLimbs mBits) (vs ++ [m]) [r.1] r.2 cycles none := by
  have reduced : vs.map (fun v => v % 2 ^ (64 * bodkinLimbs mBits) % m) = vs.map (· % m) :=
    List.map_congr_left fun v hv => congrArg (· % m) (Nat.mod_eq_of_lt (limbs v hv))
  have same : m % 2 ^ (64 * bodkinLimbs mBits) = m := Nat.mod_eq_of_lt fits
  rw [State.bodkinMod, if_neg (Nat.not_lt.2 narrow)]
  dsimp only
  rw [same, reduced]

section
variable {s : State} (free : s.bodkinFree) {mBits m : Nat} (narrow : mBits ≤ 4096) (fits : m < 2 ^ (64 * ((mBits + 63) / 64)))
  {vs : List Nat} (limbs : ∀ v ∈ vs, v < 2 ^ (64 * ((mBits + 63) / 64)))
include free narrow fits limbs

theorem State.bodkinMod_odd (odd : m % 2 = 1) (three : 3 ≤ m) (cycles : Nat) (f : Nat → List Nat → Nat × BodkinStatus) :
    Started s (s.bodkinMod mBits cycles m vs f) [(f m (vs.map (· % m))).1] (f m (vs.map (· % m))).2 cycles none := by
  rw [State.bodkinMod_eq s narrow fits cycles limbs, if_neg (by omega)]
  exact State.bodkinRun_started free ..

theorem State.bodkinMod_bad (bad : m % 2 = 0 ∨ m < 3) (cycles : Nat) (f : Nat → List Nat → Nat × BodkinStatus) :
    Started s (s.bodkinMod mBits cycles m vs f) [0] .badOperand cycles none := by
  rw [State.bodkinMod_eq s narrow fits cycles limbs, if_pos bad]
  exact State.bodkinRun_started free ..

end

/-! ## Modular powers -/

theorem powGo_lt {m acc : Nat} (h : acc < m) (f b e : Nat) : powGo m f b e acc < m := by
  induction f generalizing b e acc with
  | zero => exact h
  | succ f ih =>
    unfold powGo
    split
    · exact h
    · refine ih ?_ _ _
      split
      · exact Nat.mod_lt _ (by omega)
      · exact h

/-- The power of a residue. -/
theorem powMod_eq {m : Nat} (one : 1 < m) (b e : Nat) : powMod (b % m) e m = b ^ e % m := by
  have below : powMod (b % m) e m < m := powGo_lt (Nat.mod_lt _ (by omega)) ..
  have residue : ((powMod (b % m) e m : Nat) : ZMod m) = ((b ^ e : Nat) : ZMod m) := by
    rw [powMod_cast, ZMod.natCast_mod, Nat.cast_pow]
  rw [← Nat.mod_eq_of_lt below]
  exact (ZMod.natCast_eq_natCast_iff' ..).1 residue

theorem sub_residue {m : Nat} (some : 0 < m) (x y : Nat) : (x % m + m - y % m) % m < m ∧ ((x % m + m - y % m) % m + y) % m = x % m := by
  have hy := Nat.mod_lt y some
  refine ⟨Nat.mod_lt _ some, ?_⟩
  rw [Nat.mod_add_mod, ← Nat.add_mod_mod, Nat.sub_add_cancel (by omega), Nat.add_mod_right, Nat.mod_mod]

/-! ## The commands -/

theorem exec_modadd (s : State) (mBits x y m : Nat) : exec (.modadd mBits x y m) s =
    s.bodkinMod mBits (20 + bodkinAs (bodkinLimbs mBits)) m [x, y] (fun m v => ((v.getD 0 0 + v.getD 1 0) % m, .ok)) := rfl

theorem exec_modsub (s : State) (mBits x y m : Nat) : exec (.modsub mBits x y m) s =
    s.bodkinMod mBits (20 + bodkinAs (bodkinLimbs mBits)) m [x, y] (fun m v => ((v.getD 0 0 + m - v.getD 1 0) % m, .ok)) := rfl

theorem exec_modmul (s : State) (mBits x y m : Nat) : exec (.modmul mBits x y m) s =
    s.bodkinMod mBits (20 + bodkinMm (bodkinLimbs mBits)) m [x, y] (fun m v => (v.getD 0 0 * v.getD 1 0 % m, .ok)) := rfl

theorem exec_modexp (s : State) {eBits : Nat} (some : 1 ≤ eBits) (short : eBits ≤ 4096) (mBits x e m : Nat) :
    exec (.modexp mBits eBits x e m) s = s.bodkinMod mBits (20 + (2 * eBits + 2) * bodkinMm (bodkinLimbs mBits)) m [x]
      (fun m v => (powMod (v.getD 0 0) (e % 2 ^ eBits) m, .ok)) := if_neg (by omega)

/-- The outcome of x^(m − 2) for a residue x. -/
def inverseResult (m x : Nat) : Nat × BodkinStatus := if x = 0 then (0, .noInverse) else (powMod x (m - 2) m, .ok)

theorem exec_modinvP (s : State) (mBits x m : Nat) : exec (.modinvP mBits x m) s =
    s.bodkinMod mBits (20 + (2 * mBits + 2) * bodkinMm (bodkinLimbs mBits)) m [x] (fun m v => inverseResult m (v.getD 0 0)) := rfl

/-- A count changes the telemetry only. -/
theorem State.count_eq (c : Ctr) (i n : Nat) (s : State) : ∃ x, s.count c i n = { s with tele := x } := by
  rw [State.count]
  split
  · exact ⟨s.tele, rfl⟩
  · exact ⟨_, rfl⟩

theorem exec_bodkinDone {s : State} {o : BodkinOp} (op : s.bodkin.op = some o) : ∃ x y,
    exec .bodkinDone s = .next { s.until (o.since + o.cycles) with tele := x, bodkin :=
      { s.bodkin with mem := y, op := none, result := o.result, status := o.status,
                      curves := match o.loads with | some p => Tab.put s.bodkin.curves p.1 (some p.2) | none => s.bodkin.curves } } := by
  change ∃ x y, execBodkinDone s = _
  unfold execBodkinDone
  rw [op]
  dsimp only
  obtain ⟨x, h⟩ := State.count_eq .bodkinOps 0 1 (s.until (o.since + o.cycles))
  rw [h]
  obtain ⟨y, h⟩ := State.count_eq .bodkinBusyCycles 0 o.cycles { s.until (o.since + o.cycles) with tele := x }
  rw [h]
  exact ⟨_, _, rfl⟩

/-! ## The obligations -/

/-- Settles O57: a modular operation starts with the residues of its formula, and ends as it was started. -/
theorem bodkinComputesModulo : Obligations.BodkinComputesModulo := by
  unfold Obligations.BodkinComputesModulo
  refine ⟨fun s mBits eBits x y e m free narrow => ?_, fun s mBits eBits x y e m free range => ⟨?_, fun wide => ?_⟩, fun s o op => ?_⟩
  · intro l b tmm hx hy hm
    have one : ∀ v ∈ [x], v < b := by simpa using hx
    have two : ∀ v ∈ [x, y], v < b := by simp [hx, hy]
    refine ⟨fun odd three => ⟨?_, ?_, ?_, fun some short he => ?_, fun unit => ?_, fun zero => ?_⟩, fun bad => ⟨?_, ?_, ?_, fun some short => ?_, ?_⟩⟩
    · have sum : (x % m + y % m) % m = (x + y) % m := (Nat.add_mod ..).symm
      rw [exec_modadd, ← sum]
      exact State.bodkinMod_odd free narrow hm two odd three ..
    · have start := State.bodkinMod_odd free narrow hm two odd three (20 + (l + 4)) (fun m v => ((v.getD 0 0 + m - v.getD 1 0) % m, .ok))
      exact ⟨_, start, sub_residue (by omega) x y⟩
    · have product : x % m * (y % m) % m = x * y % m := (Nat.mul_mod ..).symm
      rw [exec_modmul, ← product]
      exact State.bodkinMod_odd free narrow hm two odd three ..
    · have power : powMod (x % m) (e % 2 ^ eBits) m = x ^ e % m := by rw [powMod_eq (by omega), Nat.mod_eq_of_lt he]
      rw [exec_modexp s some short, ← power]
      exact State.bodkinMod_odd free narrow hm one odd three ..
    · have outcome : inverseResult m (x % m) = (x ^ (m - 2) % m, .ok) := by
        rw [inverseResult, if_neg unit, powMod_eq (by omega)]
      have start := State.bodkinMod_odd free narrow hm one odd three (20 + (2 * mBits + 2) * tmm) (fun m v => inverseResult m (v.getD 0 0))
      change Started _ _ [(inverseResult m (x % m)).1] (inverseResult m (x % m)).2 _ _ at start
      rw [outcome] at start
      exact start
    · have outcome : inverseResult m (x % m) = (0, .noInverse) := if_pos zero
      have start := State.bodkinMod_odd free narrow hm one odd three (20 + (2 * mBits + 2) * tmm) (fun m v => inverseResult m (v.getD 0 0))
      change Started _ _ [(inverseResult m (x % m)).1] (inverseResult m (x % m)).2 _ _ at start
      rw [outcome] at start
      exact start
    · exact exec_modadd .. ▸ State.bodkinMod_bad free narrow hm two bad ..
    · exact exec_modsub .. ▸ State.bodkinMod_bad free narrow hm two bad ..
    · exact exec_modmul .. ▸ State.bodkinMod_bad free narrow hm two bad ..
    · exact exec_modexp s some short .. ▸ State.bodkinMod_bad free narrow hm one bad ..
    · exact exec_modinvP .. ▸ State.bodkinMod_bad free narrow hm one bad ..
  · change Started s (if eBits = 0 ∨ 4096 < eBits then _ else _) _ _ _ _
    split
    · exact State.bodkinBad_started free
    · exact State.bodkinMod_wide free (by omega) ..
  · exact ⟨exec_modadd .. ▸ State.bodkinMod_wide free wide .., exec_modsub .. ▸ State.bodkinMod_wide free wide ..,
      exec_modmul .. ▸ State.bodkinMod_wide free wide .., exec_modinvP .. ▸ State.bodkinMod_wide free wide ..⟩
  · obtain ⟨x, y, run⟩ := exec_bodkinDone op
    exact ⟨_, run, rfl, rfl, rfl, Nat.le_max_right .., Nat.le_max_left .., rfl⟩

end Sys2Proof.Machine
end

section
/-!
PROOFS. O58: the Bodkin's curve operations (R505-R508, Tables SE.9 and SE.11).
-/
namespace Sys2Proof.Machine

/-! ## Curve operations on a valid slot -/

section
variable {s : State} (free : s.bodkinFree) {slot : Nat} {c : Curve} (valid : s.curve slot = some c)
include free valid

theorem State.bodkinCurve_off {points : List Point} (off : points.any c.off = true) (scalars zero : List Nat) (cycles : Curve → Nat)
    (atInf : List Nat) (f : Curve → List Nat × BodkinStatus) :
    Started s (s.bodkinCurve slot scalars points zero cycles atInf f) zero .notOnCurve (cycles c) none := by
  rw [State.bodkinCurve, valid]
  dsimp only
  rw [if_pos off]
  exact State.bodkinRun_started free ..

theorem State.bodkinCurve_infinity {points : List Point} (on : points.any c.off = false) (inf : points.any (·.isNone) = true)
    (scalars zero : List Nat) (cycles : Curve → Nat) (atInf : List Nat) (f : Curve → List Nat × BodkinStatus) :
    Started s (s.bodkinCurve slot scalars points zero cycles atInf f) atInf .infinity (cycles c) none := by
  rw [State.bodkinCurve, valid]
  dsimp only
  rw [if_neg (by simp [on]), if_pos inf]
  exact State.bodkinRun_started free ..

theorem State.bodkinCurve_on {points : List Point} (on : points.any c.off = false) (finite : points.any (·.isNone) = false)
    (scalars zero : List Nat) (cycles : Curve → Nat) (atInf : List Nat) (f : Curve → List Nat × BodkinStatus) :
    Started s (s.bodkinCurve slot scalars points zero cycles atInf f) (f c).1 (f c).2 (cycles c) none := by
  rw [State.bodkinCurve, valid]
  dsimp only
  rw [if_neg (by simp [on]), if_neg (by simp [finite])]
  exact State.bodkinRun_started free ..

/-- An operation without points. -/
theorem State.bodkinCurve_scalars (scalars zero : List Nat) (cycles : Curve → Nat) (atInf : List Nat) {f : Curve → List Nat × BodkinStatus}
    {r : List Nat × BodkinStatus} (outcome : f c = r) : Started s (s.bodkinCurve slot scalars [] zero cycles atInf f) r.1 r.2 (cycles c) none :=
  outcome ▸ State.bodkinCurve_on free valid rfl rfl ..

end

/-- An invalid slot: no computation. -/
theorem State.bodkinCurve_invalid {s : State} (free : s.bodkinFree) {slot : Nat} (invalid : s.curve slot = none) (scalars : List Nat)
    (points : List Point) (zero : List Nat) (cycles : Curve → Nat) (atInf : List Nat) (f : Curve → List Nat × BodkinStatus) :
    Started s (s.bodkinCurve slot scalars points zero cycles atInf f) [] .badOperand 20 none := by
  rw [State.bodkinCurve, invalid]
  exact State.bodkinBad_started free

/-! ## The commands -/

/-- Cycles of ECADD. -/
def Curve.addCycles (c : Curve) : Nat :=
  20 + 8 * bodkinAs (bodkinLimbs (bitLength c.p)) + (2 * bitLength c.p + 18) * bodkinMm (bodkinLimbs (bitLength c.p))

/-- The outcome of ECDSA_SIGN. -/
def signResult (r : Option (Nat × Nat)) : List Nat × BodkinStatus :=
  match r with | some p => ([p.1, p.2], .ok) | none => ([0, 0], .retry)

/-- The outcome of ECDSA_VERIFY. -/
def verifyResult (ok : Bool) : List Nat × BodkinStatus := if ok then ([1], .ok) else ([0], .reject)

theorem exec_ecmulg (slot k : Nat) (s : State) : exec (.ecmulg slot k) s =
    s.bodkinCurve slot [k] [] [0, 0, 0] Curve.te [] (fun c => pointResult (c.mul (k % c.n) c.g)) := rfl

theorem exec_ecmul (slot k : Nat) (p : Point) (s : State) : exec (.ecmul slot k p) s =
    s.bodkinCurve slot [k] [p] [0, 0, 0] Curve.te [0, 0, 1] (fun c => pointResult (c.mul (k % c.n) p)) := rfl

theorem exec_ecdh (slot k : Nat) (p : Point) (s : State) : exec (.ecdh slot k p) s =
    s.bodkinCurve slot [k] [p] [0] Curve.te [0] (fun c => xResult (c.mul (k % c.n) p)) := rfl

theorem exec_ecadd (slot : Nat) (p q : Point) (s : State) : exec (.ecadd slot p q) s =
    s.bodkinCurve slot [] [p, q] [0, 0, 0] Curve.addCycles [0, 0, 1] (fun c => pointResult (c.add p q)) := rfl

theorem exec_ecdsaSign (slot e d k : Nat) (s : State) : exec (.ecdsaSign slot e d k) s =
    s.bodkinCurve slot [e, d, k] [] [] (fun c => 60 + c.te + c.scalarCycles) [] (fun c => signResult (c.sign e d k)) := rfl

theorem exec_ecdsaVerify (slot e r z : Nat) (q : Point) (s : State) : exec (.ecdsaVerify slot e r z q) s =
    s.bodkinCurve slot ([e, r, z] ++ pointWords q) [] [] (fun c => 80 + 2 * c.te + c.scalarCycles) []
      (fun c => verifyResult (ecdsaOk c e r z q)) := rfl

theorem exec_curveLoad {slot : Nat} (one : 1 ≤ slot) (three : slot ≤ 3) (p a b gx gy n : Nat) (s : State) :
    exec (.curveLoad slot p a b gx gy n) s =
      let c : Curve := { p := p, a := a, b := b, gx := gx, gy := gy, n := n }
      s.bodkinRun (bodkinLimbs (bitLength p)) [p, a, b, gx, gy, n] [] (if c.loadCode = 0 then .ok else .curveCode c.loadCode)
        (200 + c.te) (if c.loadCode = 0 then some (slot - 1, c) else none) := if_neg (by omega)

/-! ## ECDSA and CURVE_LOAD -/

/-- A signature out of range, or a public point that is none of the curve's, is refused. -/
theorem ecdsaOk_refuses {c : Curve} {e d z : Nat} {q : Point}
    (bad : 0 = d ∨ 0 = z ∨ c.n ≤ d ∨ c.n ≤ z ∨ q = none ∨ c.off q = true) : ecdsaOk c e d z q = false := by
  match q with
  | none => rfl
  | some (x, y) =>
    refine if_pos ?_
    have off : c.off (some (x, y)) = !c.on x y := rfl
    rw [off] at bad
    rw [Bool.not_eq_true'] at bad
    exact bad.imp Eq.symm (Or.imp Eq.symm (Or.imp_right (Or.imp_right fun h => h.resolve_left nofun)))

/-- The checks of Table SE.9, all passed. -/
theorem Curve.loadCode_eq_zero {c : Curve} : c.loadCode = 0 ↔ (160 ≤ bitLength c.p ∧ bitLength c.p ≤ 521) ∧ c.p % 2 = 1 ∧ c.a < c.p ∧ c.b < c.p ∧
    (4 * c.a * c.a * c.a + 27 * c.b * c.b) % c.p ≠ 0 ∧ c.on c.gx c.gy = true ∧
    (c.n % 2 = 1 ∧ ((c.n : Int) - (c.p + 1)) * ((c.n : Int) - (c.p + 1)) ≤ 4 * c.p) ∧ c.mul c.n c.g = none := by
  have square : ((((c.n : Int) - (c.p + 1)).natAbs * ((c.n : Int) - (c.p + 1)).natAbs : Nat) : Int) =
    ((c.n : Int) - (c.p + 1)) * ((c.n : Int) - (c.p + 1)) := Int.natAbs_mul_self
  unfold Curve.loadCode
  dsimp only
  generalize ((c.n : Int) - (c.p + 1)).natAbs * ((c.n : Int) - (c.p + 1)).natAbs = dist at square ⊢
  rw [← square]
  repeat' split
  all_goals simp_all
  all_goals omega

/-- Settles O58: the status of each curve operation by its points, and CURVE_LOAD by the checks of Table SE.9. -/
theorem bodkinComputesOnCurves : Obligations.BodkinComputesOnCurves := by
  unfold Obligations.BodkinComputesOnCurves
  refine ⟨fun s slot k e d z p q c free valid => ?_, fun s slot k p free invalid => ⟨?_, ?_⟩, fun s slot p a b gx gy n free => ?_⟩
  · intro b l tmm te ta ts res
    have one {p : Point} {v : Bool} (h : c.off p = v) : [p].any c.off = v := by simp [h]
    have finite {p : Point} (h : p ≠ none) : [p].any (·.isNone) = false := by
      cases p
      · exact absurd rfl h
      · rfl
    refine ⟨?_, fun off => ⟨?_, ?_, ?_, ?_⟩, fun inf => ?_, fun some on => ⟨?_, fun x y out => ?_, fun out => ?_, fun some' on' => ?_⟩,
      fun r w sign => ?_, fun sign => ?_, fun ok => ?_, fun bad => ?_, ecdsaOk_refuses, rfl, rfl⟩
    · exact exec_ecmulg .. ▸ State.bodkinCurve_on free valid rfl rfl ..
    · exact exec_ecmul .. ▸ State.bodkinCurve_off free valid (one off) ..
    · exact exec_ecdh .. ▸ State.bodkinCurve_off free valid (one off) ..
    · exact exec_ecadd .. ▸ State.bodkinCurve_off free valid (by simp [off]) ..
    · exact exec_ecadd .. ▸ State.bodkinCurve_off free valid (by simp [off]) ..
    · subst inf
      exact ⟨exec_ecmul .. ▸ State.bodkinCurve_infinity free valid rfl rfl .., exec_ecdh .. ▸ State.bodkinCurve_infinity free valid rfl rfl ..⟩
    · exact exec_ecmul .. ▸ State.bodkinCurve_on free valid (one on) (finite some) ..
    · have start := State.bodkinCurve_on free valid (one on) (finite some) [k] [0] Curve.te [0] (fun c => xResult (c.mul (k % c.n) p))
      rw [out] at start
      exact start
    · have start := State.bodkinCurve_on free valid (one on) (finite some) [k] [0] Curve.te [0] (fun c => xResult (c.mul (k % c.n) p))
      rw [out] at start
      exact start
    · have both : [p, q].any (·.isNone) = false := by
        have p' := finite some
        have q' := finite some'
        simp only [List.any_cons, List.any_nil, Bool.or_false] at p' q' ⊢
        rw [p', q']
        rfl
      exact exec_ecadd .. ▸ State.bodkinCurve_on free valid (by simp [on, on']) both ..
    · exact exec_ecdsaSign .. ▸ State.bodkinCurve_scalars (r := ([r, w], .ok)) free valid _ _ _ _ (congrArg signResult sign)
    · exact exec_ecdsaSign .. ▸ State.bodkinCurve_scalars (r := ([0, 0], .retry)) free valid _ _ _ _ (congrArg signResult sign)
    · exact exec_ecdsaVerify .. ▸ State.bodkinCurve_scalars (r := ([1], .ok)) free valid _ _ _ _ (congrArg verifyResult ok)
    · exact exec_ecdsaVerify .. ▸ State.bodkinCurve_scalars (r := ([0], .reject)) free valid _ _ _ _ (congrArg verifyResult bad)
  · exact exec_ecmul .. ▸ State.bodkinCurve_invalid free invalid ..
  · exact exec_ecmulg .. ▸ State.bodkinCurve_invalid free invalid ..
  · intro c
    refine ⟨fun out => ?_, fun one three => ⟨fun pass => ?_, fun fail => ?_⟩, Curve.loadCode_eq_zero⟩
    · have run : exec (.curveLoad slot p a b gx gy n) s = s.bodkinBad := if_pos out
      exact run ▸ State.bodkinBad_started free
    · rw [exec_curveLoad one three]
      dsimp only
      rw [if_pos pass, if_pos pass]
      exact State.bodkinRun_started free ..
    · rw [exec_curveLoad one three]
      dsimp only
      rw [if_neg fail, if_neg fail]
      exact State.bodkinRun_started free ..

end Sys2Proof.Machine
end

section
/-!
PROOFS. O50, refuted: a halted queue keeps the address that the request has after what was issued before it has been written.
-/
namespace Sys2Proof.Machine
open Sys2Proof.Tests

/-- Tile 0 GATHERs two words from host memory by two indices in its scratchpad, the first of them out of range, into a destination
that begins at the second: the 0 written for the first makes the second index 0. -/
def gatherOntoIndices : State :=
  ((move 21 true [{ hbmWords (2 ^ 63) 64 with space := 2 }, { words 0x1000 2 with index := true }, words 0x1004 2]).store (scratchAddr 0 0x1000)
    (leBytes 4 64 ++ leBytes 4 20)).mapTile 0 fun u =>
    { u with streams := u.streams.map (fun (q : StreamQueue) => { q with state := .running, seq := 3, limit := 16 }) }

/-- The queue's first host request is the line of word 20. -/
theorem gatherOntoIndices_requests : (gatherOntoIndices.streamCtx 0 0).any (fun c => gatherOntoIndices.hostRequests c == [0] &&
    gatherOntoIndices.requests c == [(2 ^ 63 + 64, false)]) = true ∧ ((gatherOntoIndices.tile 0).stream 0).state = .running ∧
    ((gatherOntoIndices.tile 0).stream 0).translated = 0 := by decide +kernel

/-- The halt leaves the address of word 0. -/
theorem gatherOntoIndices_halts : goes (exec (.translationComplete 0 0 false) gatherOntoIndices)
    (fun t => ((t.tile 0).stream 0).faultAddr == 2 ^ 63) = true := by decide +kernel

/-- Refutes O50: a GATHER whose destination overlaps its index tensor. What was issued before the halt is written first, and the
address that the halt keeps is read from the indices after it. -/
theorem not_translationsHaltAndResume : ¬ Obligations.TranslationsHaltAndResume := by
  unfold Obligations.TranslationsHaltAndResume
  rintro ⟨halts, -⟩
  obtain ⟨asked, running, first⟩ := gatherOntoIndices_requests
  obtain ⟨c, ctx, asked⟩ := (Option.any_eq_true _ _).1 asked
  rw [Bool.and_eq_true, beq_iff_eq, beq_iff_eq] at asked
  obtain ⟨host, requests⟩ := asked
  obtain ⟨-, u, run, stream, -⟩ := halts gatherOntoIndices 0 0 c 0 ctx running (by rw [host, first]; rfl)
  have kept := gatherOntoIndices_halts
  rw [run, goes, stream, requests] at kept
  cases kept

end Sys2Proof.Machine
end

section
/-!
PROOFS. O37: the SPDM responder (R497, Table SE.4).
-/
namespace Sys2Proof.Machine

/-! ## The chain -/

theorem State.flashBytes_length (s : State) (off n : Nat) : (s.flashBytes off n).length = n := by
  rw [State.flashBytes, List.length_map, List.length_range]

theorem State.flashBytes_getD (s : State) (off : Nat) {n i : Nat} (h : i < n) : (s.flashBytes off n).getD i 0 = Memory.get s.flash (off + i) := by
  simp [State.flashBytes, List.getD_eq_getElem?_getD, h]

theorem State.certChain_stored (s : State) {i : Nat} (h : i < 0x10000) : s.certChain.getD i 0 = Memory.get s.flash (0x80000 + i) := by
  rw [State.certChain, List.getD_append _ _ _ _ (by rw [State.flashBytes_length]; exact h), State.flashBytes_getD s _ h]

theorem State.certChain_alias {s : State} {c : AliasCert} (h : s.trust.aliasCert = some c) : s.certChain.drop 0x10000 = c.subject ++ c.signature := by
  rw [State.certChain, h, List.drop_left' (State.flashBytes_length ..)]
  rfl

/-! ## The responder -/

/-- What the responder answers outside a change of owner. -/
def State.spdmAnswer (r : SpdmRequest) (s : State) : Out :=
  match r with
  | .getVersion => .next { s with resp := .spdm (.version 0x13) }
  | .getCapabilities => .next { s with resp := .spdm (.capabilities spdmCapabilities) }
  | .negotiateAlgorithms => .next { s with resp := .spdm (.algorithms spdmAlgorithms) }
  | .getDigests => .next { s with resp := .spdm (.digests [(0, sha384 s.certChain)]) }
  | .getCertificate slot => .next { s with resp := .spdm (if slot = 0 then .certificate 0 s.certChain else .errorUnsupported) }
  | .challenge slot =>
    if slot = 0 then .next { s with resp := .spdm (.challengeAuth (sha384 s.certChain) ((List.range 32).map (Config.freeByte s.freeCount))
      (spdmSignature s.freeCount)), freeCount := s.freeCount + 1 }
    else .next { s with resp := .spdm .errorUnsupported }
  | .getMeasurements block =>
    match s.measurement block with
    | some v => .next { s with resp := .spdm (.measurement block v (spdmSignature s.freeCount)), freeCount := s.freeCount + 1 }
    | none => .next { s with resp := .spdm .errorUnsupported }
  | .keyExchange slot hb => if slot = 0 then .next (s.openSession hb) else .next { s with resp := .spdm .errorUnsupported }
  | .finish id | .heartbeat id | .keyUpdate id => .next (s.inSession id (fun s => s))
  | .ideKm id => .next (s.inSession id (fun s => { s with link := { s.link with ide := true } }))
  | .endSession id => .next (s.inSession id (State.endSession id))
  | .unsupported _ => .next { s with resp := .spdm .errorUnsupported }

section
variable {s : State} (serves : s.mbxServes = true)
include serves

theorem exec_spdmRequest_early (early : s.boot.stage < 9) (r : SpdmRequest) : exec (.spdmRequest r) s = .next { s with resp := .retry } := by
  change execSpdmRequest r s = _
  rw [execSpdmRequest, if_neg (by simp [serves]), if_pos early]

section
variable (ready : 9 ≤ s.boot.stage)
include ready

theorem exec_spdmRequest_changing (changing : s.trust.changing.isSome = true) (r : SpdmRequest) :
    exec (.spdmRequest r) s = .next { s with resp := .spdm .errorBusy } := by
  change execSpdmRequest r s = _
  rw [execSpdmRequest, if_neg (by simp [serves]), if_neg (Nat.not_lt.2 ready), if_pos changing]

theorem exec_spdmRequest (still : s.trust.changing = none) (r : SpdmRequest) : exec (.spdmRequest r) s = s.spdmAnswer r := by
  change execSpdmRequest r s = _
  rw [execSpdmRequest, if_neg (by simp [serves]), if_neg (Nat.not_lt.2 ready), if_neg (by simp [still])]
  cases r <;> rfl

end
end

/-- A message in an open session: it is acknowledged, after what it does. -/
theorem State.inSession_open {s : State} {id : Nat} (isOpen : s.trust.sessions.any (fun x => x.id == id) = true) (f : State → State) :
    s.inSession id f = { f { s with trust := { s.trust with
      sessions := s.trust.sessions.map (fun x => if x.id == id then { x with lastMessage := s.clock } else x) } } with resp := .spdm .ack } :=
  if_pos isOpen

theorem State.inSession_none {s : State} {id : Nat} (none : s.trust.sessions.any (fun x => x.id == id) = false) (f : State → State) :
    s.inSession id f = { s with resp := .spdm .errorOpen } := if_neg (by simp [none])

theorem State.endSession_ends (id : Nat) (s : State) : (s.endSession id).trust.sessions.any (fun x => x.id == id) = false := by
  simp [State.endSession]

/-- Settles O37: the responder's answers, request by request. -/
theorem spdmAnswers : Obligations.SpdmAnswers := by
  unfold Obligations.SpdmAnswers
  refine ⟨fun r s serves early => exec_spdmRequest_early serves early r, fun r s serves ready changing => exec_spdmRequest_changing serves ready changing r,
    fun s serves ready still => ?_, fun id s => ⟨fun beats => if_pos beats, fun silent => if_neg (by simp [silent])⟩⟩
  have answer := exec_spdmRequest serves ready still
  refine ⟨answer _, answer _, answer _, answer _, fun i hi => State.certChain_stored s hi, fun c h => State.certChain_alias h,
    fun k => ⟨answer _, fun zero => ⟨_, _, ?_, ?_, (answer _).trans (if_pos zero)⟩, fun other => (answer _).trans (if_neg other), answer _⟩,
    fun b type v block => ⟨spdmSignature s.freeCount, ?_, ?_⟩, fun b out => ?_, fun hb few => ?_, fun hb full => ?_, fun id none r session => ?_, fun id isOpen => ?_⟩
  · rw [List.length_map, List.length_range]
  · rw [spdmSignature, List.length_map, List.length_range]
  · rw [spdmSignature, List.length_map, List.length_range]
  · have value : s.measurement b = some (leBytes 1 type ++ leBytes 2 v.length ++ v) := by
      obtain ⟨rfl, rfl, rfl⟩ | ⟨rfl, rfl, m, runs, rfl⟩ | ⟨rfl, rfl, m, runs, rfl⟩ | ⟨rfl, rfl, rfl⟩ | ⟨rfl, rfl, rfl⟩ := block
      · rfl
      · rw [State.measurement, runs]; rfl
      · rw [State.measurement, runs]; rfl
      · rfl
      · rfl
    rw [answer, State.spdmAnswer, value]
  · have none : s.measurement b = none := by
      obtain rfl | out := out
      · rfl
      · obtain ⟨n, rfl⟩ : ∃ n, b = n + 6 := ⟨b - 6, by omega⟩
        rfl
    rw [answer, State.spdmAnswer, none]
  · have opened : s.openSession hb = { s.count .spdmSessions 0 1 with
        trust := { s.trust with
          sessions := s.trust.sessions ++ [{ id := s.trust.nextSession, heartbeat := hb, lastMessage := s.clock }]
          nextSession := s.trust.nextSession + 1 }, resp := .spdm (.sessionOpened s.trust.nextSession) } := if_pos few
    exact ⟨_, answer _, congrArg State.trust opened, congrArg State.resp opened⟩
  · exact (answer _).trans (congrArg Host.Outcome.next (if_neg (Nat.not_lt.2 full)))
  · rw [answer]
    simp only [List.mem_cons, List.not_mem_nil, or_false] at session
    obtain rfl | rfl | rfl | rfl | rfl := session <;> exact congrArg Host.Outcome.next (State.inSession_none none _)
  · have message (f : State → State) : (.next (s.inSession id f) : Out) = (.next _ : Out) := congrArg Host.Outcome.next (State.inSession_open isOpen f)
    exact ⟨_, (answer _).trans (message _), (answer _).trans (message _), (answer _).trans (message _), rfl, rfl, (answer _).trans (message _),
      _, (answer _).trans (message _), State.endSession_ends .., rfl⟩

end Sys2Proof.Machine
end

section
/-!
PROOFS. O36: the commands of the security mailbox (R498-R504, Tables SE.5 to SE.8).
-/
namespace Sys2Proof.Machine

/-! ## A change of owner -/

/-- Device memory cleared: only host memory is left. -/
theorem Memory.get_clear_device (m : Memory) (a : Nat) :
    Memory.get (Memory.clear m 0 (2 ^ 63)) a = if 2 ^ 63 ≤ a then Memory.get m a else 0 := by
  unfold Memory.clear
  induction m with
  | nil => simp [Memory.get]
  | cons c m ih =>
    obtain ⟨k, v⟩ := c
    generalize 2 ^ 63 = h at ih ⊢
    simp only [List.filter_cons, Nat.zero_le, decide_true, Bool.true_and, Bool.not_eq_true', decide_eq_false_iff_not, Nat.not_lt] at ih ⊢
    by_cases far : h ≤ k
    · rw [if_pos far, Memory.get, Memory.get, ih]
      split <;> grind
    · rw [if_neg far, ih, Memory.get]
      split
      · rw [if_neg (by omega), if_neg (by omega)]
      · rfl

theorem State.setOwner_facts (owner : List Byte) (s : State) : ∃ key cert n, s.setOwner owner =
    { s with trust := { s.trust with owner := owner, aliasKey := key, aliasCert := cert }, freeCount := n } := ⟨_, _, _, rfl⟩

/-- What a change of owner begins with. -/
structure OwnerChanges (s t : State) (owner : List Byte) (debug : Bool) : Prop where
  busy : t.mbx.busy = true
  changing : t.trust.changing = some owner
  owner : t.trust.owner = owner
  debug : t.trust.debug = (s.trust.debug || debug)
  sessions : t.trust.sessions = []
  nonce : t.trust.nonce = s.trust.nonce
  revoked : t.trust.revoked = s.trust.revoked
  svnTrusted : t.trust.svnTrusted = s.trust.svnTrusted
  svnService : t.trust.svnService = s.trust.svnService
  loaded : ∀ k, t.pset k = none ∧ t.pricking k = none
  mem : ∀ a, Memory.get t.mem a = if 2 ^ 63 ≤ a then Memory.get s.mem a else 0
  halt : t.halt = s.halt

theorem Tab.at_fill_default {α : Type} (n : Nat) (x : α) (k : Nat) : Tab.at (Tab.fill n x) x k = x := by
  simp [Tab.at, Tab.fill]

theorem State.beginChange_begins (owner : List Byte) (debug : Bool) (s : State) : OwnerChanges s (s.beginChange owner debug) owner debug where
  busy := rfl
  changing := rfl
  owner := rfl
  debug := rfl
  sessions := rfl
  nonce := rfl
  revoked := rfl
  svnTrusted := rfl
  svnService := rfl
  loaded k := ⟨Tab.at_fill_default 64 none k, Tab.at_fill_default 16 none k⟩
  mem a := Memory.get_clear_device s.mem a
  halt := rfl

/-- A change of owner ends: BUSY falls and service firmware is restarted. -/
theorem exec_ownerChangeDone {s : State} {owner : List Byte} (changing : s.trust.changing = some owner) : ∃ u, exec .ownerChangeDone s = .next u ∧
    u.mbx.busy = false ∧ u.mbx.result = 0 ∧ u.trust.changing = none ∧ u.trust.owner = s.trust.owner ∧ u.halt = s.halt :=
  ⟨_, if_neg (by simp [changing]), rfl, rfl, rfl, rfl, rfl⟩

/-! ## A GO -/

/-- The state in which a command of the mailbox runs. -/
def State.going (cmd : Nat) (s : State) : State := { s.unlatch with mbx := { s.mbx with cmd := cmd % 256 } }

theorem State.mbxOut_data (out : List Byte) (s : State) : (s.mbxOut out).mbx.data.take out.length = out := List.take_left' rfl

section
variable {s : State} (serves : s.mbxServes = true) (running : s.errs.fatal = false)
include serves running

/-- A GO with a command's length, while the mailbox is free. -/
theorem State.mailbox_going (free : s.mbx.busy = false) {cmd : Nat} (len : mailboxLen cmd = some s.mbx.len) (run : State → State) :
    s.mailbox .mainband cmd run = run (s.going cmd) := State.mailbox_runs run serves running free len

omit running in
theorem State.mailbox_badLength (free : s.mbx.busy = false) {cmd : Nat} (len : mailboxLen cmd ≠ some s.mbx.len) (run : State → State) :
    s.mailbox .mainband cmd run = { s.unlatch with mbx := { s.mbx with cmd := cmd % 256, busy := false, result := 1, outLen := 0 } } := by
  unfold State.mailbox
  dsimp only
  rw [if_neg (by have served : s.unlatch.mbxServes = true := serves; simp [served]), if_neg (by simp [State.windowOpen])]
  have length : decide (mailboxLen cmd ≠ some s.mbx.len) = true := decide_eq_true len
  rw [if_neg (by simpa [State.unlatch] using free)]
  exact if_pos (by rw [Bool.or_eq_true]; exact .inl length)

theorem State.mailbox_busy (busy : s.mbx.busy = true) (cmd : Nat) (run : State → State) :
    s.mailbox .mainband cmd run = s.unlatch.discard .mainband 0x060000 (cmd % 256 + 256) := by
  unfold State.mailbox
  dsimp only
  have waits : s.unlatch.mbx.busy = true := busy
  have live : s.unlatch.errs.fatal = false := running
  rw [if_neg (by have served : s.unlatch.mbxServes = true := serves; simp [served]), if_neg (by simp [State.windowOpen]), if_pos (.inr waits), live]
  rfl

end

/-! ## The commands' actions -/

theorem State.runDebugUnlock_halted {s : State} (halted : s.halt = .halted) : s.runDebugUnlock =
    if s.tokenOk (slice s.mbx.data 0 144) then ({ s with trust := { s.trust with nonce := none } } : State).beginChange (List.replicate 48 0) true
    else ({ s with trust := { s.trust with nonce := none } } : State).mbxResult 3 := if_neg (not_not.2 halted)

theorem State.runSvnCommit_busy {s : State} (jobs : s.jobs ≠ []) (blown : Bool) : s.runSvnCommit blown = s.mbxResult 5 :=
  if_pos (by rw [Bool.not_eq_true', Bool.eq_false_iff]; exact fun h => jobs (emptyList_iff.1 h))

theorem State.runSvnCommit_unblown {s : State} (jobs : s.jobs = []) : s.runSvnCommit false = s.mbxResult 4 := by
  unfold State.runSvnCommit
  rw [if_neg (by rw [emptyList_iff.2 jobs]; decide)]
  rfl

/-- Settles O36: each command's action on a mailbox that takes it, and what an odd GO leaves. -/
theorem securityMailbox : Obligations.SecurityMailbox := by
  unfold Obligations.SecurityMailbox
  intro s serves running free
  have takes {cmd : Nat} (len : mailboxLen cmd = some s.mbx.len) (run : State → State) :
      (.next (s.mailbox .mainband cmd run) : Out) = .next (run (s.going cmd)) :=
    congrArg Host.Outcome.next (State.mailbox_going serves running free len run)
  have badLength {cmd : Nat} (len : mailboxLen cmd ≠ some s.mbx.len) (run : State → State) :
      (.next (s.mailbox .mainband cmd run) : Out) =
        .next { s.unlatch with mbx := { s.mbx with cmd := cmd % 256, busy := false, result := 1, outLen := 0 } } :=
    congrArg Host.Outcome.next (State.mailbox_badLength serves free len run)
  refine ⟨fun len halted => ?_, fun len up => ?_, fun len => ?_, fun len up => ?_, fun len halted bad => ?_, fun len halted ok => ?_,
    fun len => ⟨fun jobs => ?_, fun jobs => ?_, fun a b trusted service jobs => ?_⟩, fun len => ?_, fun c unknown => ?_, fun blown p mem => ⟨fun len => ?_, fun m busy => ?_⟩⟩
  · have run : exec (.ownerChange .mainband) s = .next ((s.going 1).beginChange (slice s.mbx.data 0 48) false) :=
      (takes (by rw [len]; rfl) _).trans (congrArg Host.Outcome.next (if_pos halted))
    obtain ⟨hb, hc, ho, hd, hs, -, hr, ht, hv, hl, hm, hh⟩ := (s.going 1).beginChange_begins (slice s.mbx.data 0 48) false
    obtain ⟨u, done, ub, ur, uc, uo, uh⟩ := exec_ownerChangeDone hc
    exact ⟨_, run, hb, hc, ho, hd.trans (Bool.or_false _), hs, hr, ht, hv, hl, hm, u, done, ub, ur, uc, uo, uh.trans hh⟩
  · exact (takes (by rw [len]; rfl) _).trans (congrArg Host.Outcome.next (if_neg up))
  · refine ⟨_, (List.range 48).map (Config.freeByte s.freeCount), takes (by rw [len]; rfl) _, ?_, rfl, rfl, rfl, rfl, ?_, ?_⟩
    · rw [List.length_map, List.length_range]
    · change ((List.range 48).map (Config.freeByte s.freeCount)).length = 48
      rw [List.length_map, List.length_range]
    · have whole := State.mbxOut_data ((List.range 48).map (Config.freeByte s.freeCount))
        { s.going 2 with freeCount := s.freeCount + 1, trust := { s.trust with nonce := some ((List.range 48).map (Config.freeByte s.freeCount)) } }
      rw [List.length_map, List.length_range] at whole
      exact whole
  · exact (takes (by rw [len]; rfl) _).trans (congrArg Host.Outcome.next (if_pos up))
  · have run : (s.going 3).runDebugUnlock = ({ s.going 3 with trust := { s.trust with nonce := none } } : State).mbxResult 3 :=
      (State.runDebugUnlock_halted (s := s.going 3) halted).trans (if_neg (Bool.eq_false_iff.1 bad))
    exact (takes (by rw [len]; rfl) _).trans (congrArg Host.Outcome.next run)
  · have run : (s.going 3).runDebugUnlock =
        ({ s.going 3 with trust := { s.trust with nonce := none } } : State).beginChange (List.replicate 48 0) true :=
      (State.runDebugUnlock_halted (s := s.going 3) halted).trans (if_pos ok)
    obtain ⟨hb, hc, ho, hd, hs, hn, -, -, -, hl, hm, -⟩ :=
      ({ s.going 3 with trust := { s.trust with nonce := none } } : State).beginChange_begins (List.replicate 48 0) true
    exact ⟨_, (takes (by rw [len]; rfl) _).trans (congrArg Host.Outcome.next run), hb, hd.trans (Bool.or_true _), hn, ho, hc, hs, hl, hm⟩
  · exact (takes (by rw [len]; rfl) _).trans (congrArg Host.Outcome.next (State.runSvnCommit_busy (s := s.going 4) jobs true))
  · exact (takes (by rw [len]; rfl) _).trans (congrArg Host.Outcome.next (State.runSvnCommit_unblown (s := s.going 4) jobs))
  · have run := takes (cmd := 4) (by rw [len]; rfl) (State.runSvnCommit true)
    unfold State.runSvnCommit at run
    rw [if_neg (by have none : emptyList (s.going 4).jobs = true := emptyList_iff.2 jobs
                   rw [none]; decide)] at run
    refine ⟨_, run, rfl, rfl, ?_, ?_, ?_⟩
    · change (match s.trust.trusted with | some i => max s.trust.svnTrusted i.svn | none => s.trust.svnTrusted) = _
      rw [trusted]
    · change (match s.trust.service with | some i => max s.trust.svnService i.svn | none => s.trust.svnService) = _
      rw [service]
    · change s.trust.revoked ||| BitVec.ofNat 4 (match s.trust.trusted with | some i => 2 ^ i.keyIndex - 1 | none => 0) = _
      rw [trusted]
  · exact ⟨_, _, takes (by rw [len]; rfl) _, rfl, rfl, rfl, State.mbxOut_data .., rfl⟩
  · exact (exec_mailboxBadCmd unknown).trans (badLength (by simp [unknown]) _)
  · simp only [List.mem_cons, List.not_mem_nil, or_false] at mem
    obtain rfl | rfl | rfl | rfl | rfl := mem
    · exact badLength (cmd := 1) (fun h => len (Option.some.inj h).symm) _
    · exact badLength (cmd := 2) (fun h => len (Option.some.inj h).symm) _
    · exact badLength (cmd := 3) (fun h => len (Option.some.inj h).symm) _
    · exact badLength (cmd := 4) (fun h => len (Option.some.inj h).symm) _
    · exact badLength (cmd := 5) (fun h => len (Option.some.inj h).symm) _
  · have discards (cmd : Nat) (low : cmd % 256 = cmd) (run : State → State) :
        ∃ t, (.next (({ s with mbx := m } : State).mailbox .mainband cmd run) : Out) = .next t ∧ t.mbx = m ∧ t.trust = s.trust ∧
          Recorded s t (Err.plain .deferred 0x03 6 (requesterNum .mainband) 0x060000 (0x100 + cmd)) := by
      have same := State.mailbox_busy (s := { s with mbx := m }) serves running busy cmd run
      have recorded := State.discard_recorded .mainband 0x060000 (cmd % 256 + 256) ({ s with mbx := m } : State).unlatch
      have value : (cmd % 256 + 256) % 2 ^ 32 = 0x100 + cmd := by omega
      rw [value] at recorded
      exact ⟨_, congrArg Host.Outcome.next same, State.discard_same (p := .mbx) rfl, State.discard_same (p := .trust) rfl, recorded⟩
    simp only [List.mem_cons, List.not_mem_nil, or_false] at mem
    obtain rfl | rfl | rfl | rfl | rfl := mem
    · exact discards 1 rfl _
    · exact discards 2 rfl _
    · exact discards 3 rfl _
    · exact discards 4 rfl _
    · exact discards 5 rfl _

end Sys2Proof.Machine
end

section
/-!
PROOFS. O34: reset, the rails, REFCLK, THROTTLE_N and the start of start-up (R454-R457, R472, R482, R534, R544-R547).
-/
namespace Sys2Proof.Machine

/-! ## The ramp before a reset (R457, R472) -/

/-- Slots of the longest ramp of dies. -/
def State.rampSlots (ds : List Nat) (s : State) : Nat := (ds.map (fun d => ceilDiv (s.die d).spent (s.slewStep d))).foldl max 0

theorem foldl_max_ge {l : List Nat} {a x : Nat} (h : x ≤ a ∨ x ∈ l) : x ≤ l.foldl max a := by
  induction l generalizing a with
  | nil => exact h.resolve_right List.not_mem_nil
  | cons y l ih =>
    refine ih ?_
    obtain below | mem := h
    · exact .inl (below.trans (Nat.le_max_left ..))
    · obtain rfl | mem := List.mem_cons.1 mem
      · exact .inl (Nat.le_max_right ..)
      · exact .inr mem

theorem foldl_max_le {l : List Nat} {a b : Nat} (start : a ≤ b) (each : ∀ x ∈ l, x ≤ b) : l.foldl max a ≤ b := by
  induction l generalizing a with
  | nil => exact start
  | cons y l ih => exact ih (Nat.max_le.2 ⟨start, each y (List.mem_cons_self ..)⟩) fun x hx => each x (List.mem_cons_of_mem _ hx)

theorem State.rampSlots_mono {ds es : List Nat} (sub : ∀ d ∈ ds, d ∈ es) (s : State) : s.rampSlots ds ≤ s.rampSlots es := by
  refine foldl_max_le (Nat.zero_le _) fun x hx => ?_
  obtain ⟨d, hd, rfl⟩ := List.mem_map.1 hx
  exact foldl_max_ge (.inr (List.mem_map_of_mem (sub d hd)))

/-- A die's ramp fits the slots at its slew limit. -/
theorem State.spent_le_rampSlots {ds : List Nat} {d : Nat} (mem : d ∈ ds) (s : State) (moves : 0 < s.slewStep d) :
    (s.die d).spent ≤ s.rampSlots ds * s.slewStep d := by
  have slots : ceilDiv (s.die d).spent (s.slewStep d) ≤ s.rampSlots ds := foldl_max_ge (.inr (List.mem_map.2 ⟨d, mem, rfl⟩))
  refine Nat.le_trans ?_ (Nat.mul_le_mul_right _ slots)
  rw [ceilDiv, Nat.mul_comm]
  have := Nat.div_add_mod ((s.die d).spent + s.slewStep d - 1) (s.slewStep d)
  have := Nat.mod_lt ((s.die d).spent + s.slewStep d - 1) moves
  omega

/-- What a ramp changes: the dies, the time and the counters. -/
theorem State.rampDies_changes (ds : List Nat) (s : State) :
    ∃ dies tele, s.rampDies ds = { s with clock := s.clock + 200 * s.rampSlots ds, dies := dies, tele := tele } := by
  have fold : ∀ (es : List Nat) (u : State), ∃ dies tele, es.foldl State.rampDie u = { u with dies := dies, tele := tele } := by
    intro es
    induction es with
    | nil => exact fun u => ⟨u.dies, u.tele, rfl⟩
    | cons e es ih =>
      intro u
      obtain ⟨dies, tele, h⟩ := ih (u.rampDie e)
      obtain ⟨x, one⟩ := State.count_eq .ballastTokens e
        (total ((List.range ((u.die e).spent / u.slewStep e)).map (fun i => (u.die e).spent - (i + 1) * u.slewStep e))) (u.mapDie e Die.quiet)
      rw [List.foldl_cons, h, State.rampDie, one]
      exact ⟨_, _, rfl⟩
  exact fold ds { s with clock := s.clock + 200 * s.rampSlots ds }

/-- A reset forgets what a ramp changed, but for the time. -/
theorem State.moduleReset_ramped (ds : List Nat) (s : State) :
    (s.rampDies ds).moduleReset = { s.moduleReset with clock := s.clock + 200 * s.rampSlots ds } := by
  obtain ⟨dies, tele, h⟩ := s.rampDies_changes ds
  rw [h]
  rfl

theorem State.moduleReset_mem (s : State) (a : Nat) : Memory.get s.moduleReset.mem a = if 2 ^ 63 ≤ a then Memory.get s.mem a else 0 := by
  rw [← Memory.get_clear_device]
  refine congrArg (Memory.get · a) (List.filter_congr fun c _ => ?_)
  generalize 2 ^ 63 = h
  by_cases far : h ≤ c.1
  · simp [far]
  · simp [far, Nat.not_le.1 far]

theorem Pins.mem_rampable {p : Pins} {d : Nat} : d ∈ p.rampable ↔ d < 4 ∧ Tab.at p.railsGood false 10 = true ∧
    Tab.at p.railsGood false 5 = true ∧ Tab.at p.railsGood false d = true := by
  simp [Pins.rampable, and_assoc]

/-- A module reset with MRESET_N low. -/
def State.heldReset (s : State) : State := { s with pins := { s.pins with mreset := true, xspiHighZ := true } }

theorem exec_mresetAssert (s : State) :
    exec .mresetAssert s = .next ({ s.moduleReset with clock := s.clock + 200 * s.rampSlots s.pins.rampable } : State).heldReset :=
  congrArg (fun u : State => (.next u.heldReset : Out)) (s.moduleReset_ramped s.pins.rampable)

/-- The pins when rail `r` is lost. -/
def Pins.lose (p : Pins) (r : Nat) : Pins := { p with railsGood := Tab.put p.railsGood r false }

theorem Pins.rampable_of_lose {p : Pins} {r d : Nat} (h : d ∈ (p.lose r).rampable) : d ∈ p.rampable := by
  rw [Pins.mem_rampable] at h ⊢
  obtain ⟨hd, aux, hub, core⟩ := h
  have stood {k : Nat} (h : Tab.at (Tab.put p.railsGood r false) false k = true) : Tab.at p.railsGood false k = true := by
    rw [Tab.at_put] at h
    split at h
    · cases h
    · exact h
  exact ⟨hd, stood aux, stood hub, stood core⟩

theorem exec_railLost {r : Nat} (hr : r < 11) (s : State) : exec (.railLost r) s = .next
    { ({ s with pins := s.pins.lose r } : State).moduleReset with clock := s.clock + 200 * s.rampSlots (s.pins.lose r).rampable } :=
  (if_neg (Nat.not_le.2 hr)).trans (congrArg Host.Outcome.next (State.moduleReset_ramped (s.pins.lose r).rampable { s with pins := s.pins.lose r }))

/-! ## REFCLK and THROTTLE_N -/

/-- A fatal error leaves the state of REFCLK alone. -/
theorem State.raise_refclk {e : Err} (cls : e.cls = .fatal) (s : State) : (s.raise [e]).pins.refclk = s.pins.refclk := by
  cases running : s.errs.fatal with
  | true => rw [State.raise, if_pos running]
  | false =>
    have queue : ((s.enterFatal e).enterQueue e).pins = (s.enterFatal e).pins := State.enterQueue_same (p := .pins) rfl
    rw [State.raise_first_fatal running cls, queue]
    unfold State.enterFatal State.assertAlert
    dsimp only
    split <;> rfl

theorem State.realert_refclk (s : State) : s.realert.pins.refclk = s.pins.refclk := by
  unfold State.realert State.assertAlert
  repeat' split
  all_goals rfl

theorem State.raise_power (l : List Err) (s : State) : (s.raise l).power = s.power := by
  have : Raises Part.raised.contains := raises_of rfl
  exact (Evolves.refl Part.raised.contains s).raise.kept .power rfl

/-- The honoured state takes the filter output. -/
theorem State.honour_facts (s : State) : s.honour.pins.throttle = s.pins.throttleFilter ∧ s.honour.pins.throttleFilter = s.pins.throttleFilter ∧
    s.honour.clock = s.clock ∧ (s.pins.throttle ≠ s.pins.throttleFilter → s.honour.pins.throttleChanged = some s.clock) ∧
    (s.pins.throttle = s.pins.throttleFilter → s.honour.pins.throttleChanged = s.pins.throttleChanged) := by
  unfold State.honour
  split
  next same => exact ⟨same, rfl, rfl, fun other => absurd same other, fun _ => rfl⟩
  next other =>
    rw [State.count_pins, State.count_clock]
    exact ⟨rfl, rfl, rfl, fun _ => rfl, fun same => absurd same other⟩

/-- A state with the filter's output. -/
def State.filtered (s : State) (a : Bool) : State := { s with pins := { s.pins with throttleFilter := a } }

theorem exec_throttleFilter (a : Bool) (s : State) : exec (.throttleFilter a) s =
    match s.pins.throttleChanged with
    | some c => .next (if c + 50000 ≤ s.clock then (s.filtered a).honour else s.filtered a)
    | none => .next (s.filtered a).honour := rfl

theorem exec_throttleFilter_open {a : Bool} {s : State} (waits : ∀ c, s.pins.throttleChanged = some c → c + 50000 ≤ s.clock) :
    exec (.throttleFilter a) s = .next (s.filtered a).honour := by
  rw [exec_throttleFilter]
  cases changed : s.pins.throttleChanged with
  | none => rfl
  | some c => exact congrArg Host.Outcome.next (if_pos (waits c changed))

theorem exec_throttleFilter_held {a : Bool} {s : State} {c : Nat} (changed : s.pins.throttleChanged = some c) (early : s.clock < c + 50000) :
    exec (.throttleFilter a) s = .next (s.filtered a) := by
  rw [exec_throttleFilter, changed]
  exact congrArg Host.Outcome.next (if_neg (Nat.not_le.2 early))

theorem exec_throttleHonour {s : State} {c : Nat} (changed : s.pins.throttleChanged = some c) :
    exec .throttleHonour s = .next (s.until (c + 50000)).honour := by
  change execThrottleHonour s = _
  unfold execThrottleHonour
  rw [changed]

theorem State.goal_throttled {d : Nat} {s : State} (h : s.pins.throttle = true) : s.goal d = 7 := if_pos (by rw [h]; exact Bool.or_true _)

/-- The pins once rail `r` is good, at time `now`. -/
def Pins.gain (p : Pins) (r now : Nat) : Pins :=
  let q : Pins := { p with railsGood := Tab.put p.railsGood r true }
  if q.allGood && !p.allGood then { q with goodSince := now } else q

theorem Pins.gain_facts (p : Pins) (r now : Nat) : ∃ g, p.gain r now = { p with railsGood := Tab.put p.railsGood r true, goodSince := g } ∧
    (({ p with railsGood := Tab.put p.railsGood r true, goodSince := g } : Pins).allGood = true → p.allGood = false → g = now) := by
  unfold Pins.gain
  dsimp only
  split
  next => exact ⟨now, rfl, fun _ _ => rfl⟩
  next still => exact ⟨p.goodSince, rfl, fun all bad => absurd (Bool.and_eq_true_iff.2 ⟨all, by rw [bad]; rfl⟩) still⟩

/-- REFCLK gone. -/
def State.unclocked (s : State) : State :=
  { s with pins := { s.pins with refclk := false }, power := { s.power with refclkOk := false } }

/-- The PLLs out of lock. -/
def State.unlocked (s : State) : State := { s with power := { s.power with locked := false } }

theorem exec_refclkLost {s : State} (out : s.pins.mreset = false) (rails : s.pins.allGood = true) : exec .refclkLost s =
    if s.boot.begun then .next (s.unclocked.unlocked.raise
      [Err.plain .fatal 0x31 8 3 0 0]).realert else .next s.unclocked.awaitRefclk := by
  have live : (s.unclocked.pins.mreset || !s.unclocked.pins.allGood) = false := by
    change (s.pins.mreset || !s.pins.allGood) = false
    rw [out, rails]
    rfl
  exact if_neg (Bool.eq_false_iff.1 live)

/-- Start-up begun. -/
def State.begun (s : State) : State :=
  { s with
    boot := { Boot.reset with begun := true, t0 := s.clock },
    pins := { s.pins with refclk := true },
    power := { s.power with
      refclkOk := true, nextSlot := s.clock + 200, nextWindow := s.clock + 1000, nextSample := s.clock + 10000 } }

/-- Settles O34: a reset in one step, the pins' rows, and the start of start-up. -/
theorem resetsPinsAndStart : Obligations.ResetsPinsAndStart := by
  unfold Obligations.ResetsPinsAndStart
  refine ⟨⟨fun s => ?_, fun r s hr => ?_, fun r s hr => ?_, fun s => ⟨fun low => ?_, fun low => ?_⟩⟩, fun s out rails => ⟨fun begun => ?_, fun early => ?_⟩,
    fun a s => ?_, fun d s h => State.goal_throttled h, fun s early out rails => ?_, fun s begun => if_pos (by simp [begun])⟩
  · have run := exec_mresetAssert s
    refine ⟨_, run, rfl, Nat.le_add_right .., fun d hd core hub aux moves => ?_, fun k hk => ?_, rfl, rfl, rfl, rfl, rfl, s.moduleReset_mem⟩
    · have fits := State.spent_le_rampSlots (Pins.mem_rampable.2 ⟨hd, aux, hub, core⟩) s moves
      change 200 * (s.die d).spent ≤ (s.clock + 200 * s.rampSlots s.pins.rampable - s.clock) * s.slewStep d
      rw [Nat.add_sub_cancel_left, Nat.mul_assoc]
      exact Nat.mul_le_mul_left _ fits
    · exact Tab.at_map s.hbm Stack.reset Stack.reset (fun k => { Stack.reset with repairLog := k.repairLog, fuses := k.fuses }) k hk
  · have sub := State.rampSlots_mono (fun d => Pins.rampable_of_lose (p := s.pins) (r := r)) s
    refine ⟨_, _, exec_railLost hr s, ?_, exec_mresetAssert s, Nat.le_add_right .., ?_, rfl, fun k hk => Tab.at_put_other _ _ _ hk⟩
    · exact Tab.at_put_self s.pins.railsGood true false hr
    · exact Nat.add_le_add_left (Nat.mul_le_mul_left _ sub) _
  · have run : exec (.railGood r) s = .next (State.awaitRefclk { s with pins := s.pins.gain r s.clock }) := rfl
    obtain ⟨g, pins, since⟩ := s.pins.gain_facts r s.clock
    rw [pins] at run
    exact ⟨_, run, Tab.at_put_self _ _ _ hr, fun k hk => Tab.at_put_other _ _ _ hk, rfl, since⟩
  · exact if_pos (by simp [low])
  · have run : exec .mresetRelease s = .next (State.awaitRefclk { s with
        pins := { s.pins with mreset := false, xspiHighZ := false }, jtag := s.jtag.released }) := if_neg (by simp [low])
    rw [run, State.awaitRefclk]
    dsimp only
    rw [Bool.not_false, Bool.and_true]
    rfl
  · have run : exec .refclkLost s = .next (s.unclocked.unlocked.raise
        [Err.plain .fatal 0x31 8 3 0 0]).realert := by
      rw [exec_refclkLost out rails]
      exact if_pos begun
    have recorded := State.raise_recorded s.unclocked.unlocked (e := Err.plain .fatal 0x31 8 3 0 0) (by decide)
    have refclk := State.raise_refclk (e := Err.plain .fatal 0x31 8 3 0 0) rfl s.unclocked.unlocked
    have power := State.raise_power [Err.plain .fatal 0x31 8 3 0 0] s.unclocked.unlocked
    have fatal := State.raise_fatals (l := [Err.plain .fatal 0x31 8 3 0 0]) (s := s.unclocked.unlocked) (by simp) (by simp [Err.plain])
    generalize s.unclocked.unlocked.raise [Err.plain .fatal 0x31 8 3 0 0] = v at run recorded refclk power fatal
    obtain ⟨errs, -, -, power', -⟩ := v.realert_same
    have refclk' : v.realert.pins.refclk = v.pins.refclk := v.realert_refclk
    refine ⟨_, run, by rw [errs]; exact fatal, refclk'.trans refclk, ?_, State.realert_alerts (State.alertCause_of_fatal fatal), fun takes => ?_⟩
    · rw [power', power]
      rfl
    · rw [errs]
      exact recorded takes
  · have run : exec .refclkLost s = .next s.unclocked.awaitRefclk := by
      rw [exec_refclkLost out rails]
      exact if_neg (by simp [early])
    rw [run, State.awaitRefclk]
    have waits : (!s.unclocked.boot.begun && !s.unclocked.pins.mreset && s.unclocked.pins.allGood && !s.unclocked.pins.refclk) = true := by
      change (!s.boot.begun && !s.pins.mreset && s.pins.allGood && !false) = true
      rw [early, out, rails]
      rfl
    rw [waits, Bool.or_true]
    rfl
  · by_cases waits : ∀ c, s.pins.throttleChanged = some c → c + 50000 ≤ s.clock
    · obtain ⟨throttle, filter, clock, changed, kept⟩ := (s.filtered a).honour_facts
      refine ⟨_, exec_throttleFilter_open waits, filter, clock, fun _ => ⟨throttle, changed, kept⟩, fun c changed early => ?_⟩
      exact absurd early (Nat.not_lt.2 (waits c changed))
    · push Not at waits
      obtain ⟨c, changed, early⟩ := waits
      refine ⟨_, exec_throttleFilter_held changed early, rfl, rfl, fun open' => absurd early (Nat.not_lt.2 (open' c changed)), fun d changed' early' => ⟨rfl, ?_⟩⟩
      obtain ⟨throttle, -, clock, -⟩ := ((s.filtered a).until (d + 50000)).honour_facts
      exact ⟨_, exec_throttleHonour changed', throttle, clock.trans (Nat.max_eq_right (Nat.le_of_lt early'))⟩
  · have run : exec .startupBegin s = .next ((s.until (s.pins.goodSince + 1000000)).count .startups 0 1).begun := if_neg (by simp [early, out, rails])
    have clock : ((s.until (s.pins.goodSince + 1000000)).count .startups 0 1).clock = max s.clock (s.pins.goodSince + 1000000) := State.count_clock ..
    exact ⟨_, run, rfl, clock, rfl, rfl, rfl, rfl⟩

end Sys2Proof.Machine
end

section
/-!
PROOFS. O38: the service cluster, the I3C target and the JTAG port (R487-R490, R549, R554).
-/
namespace Sys2Proof.Machine

/-! ## Check values -/

theorem leNat_leBytes (n v : Nat) : leNat (leBytes n v) = v % 256 ^ n := by
  induction n generalizing v with
  | zero => simp [leBytes, leNat, Nat.mod_one]
  | succ n ih =>
    have power : 256 ^ (n + 1) = 2 ^ 8 * 256 ^ n := Nat.pow_succ'
    rw [leBytes, leNat, ih, BitVec.toNat_ofNat, power]
    exact (Nat.mod_mul ..).symm

theorem crc32cBit_lt {c : Nat} (h : c < 2 ^ 32) : crc32cBit c < 2 ^ 32 := by
  have half : c >>> 1 < 2 ^ 32 := Nat.lt_of_le_of_lt (Nat.shiftRight_le ..) h
  unfold crc32cBit
  split
  · exact Nat.xor_lt_two_pow half (by decide)
  · exact half

theorem crc32cByte_lt {c : Nat} (h : c < 2 ^ 32) (b : Byte) : crc32cByte c b < 2 ^ 32 := by
  have start : c ^^^ b.toNat < 2 ^ 32 := Nat.xor_lt_two_pow h (b.isLt.trans (by decide))
  exact crc32cBit_lt (crc32cBit_lt (crc32cBit_lt (crc32cBit_lt (crc32cBit_lt (crc32cBit_lt (crc32cBit_lt (crc32cBit_lt start)))))))

theorem crc32c_lt (bs : List Byte) : crc32c bs < 2 ^ 32 := by
  have fold : ∀ (bs : List Byte) (c : Nat), c < 2 ^ 32 → bs.foldl crc32cByte c < 2 ^ 32 := by
    intro bs
    induction bs with
    | nil => exact fun _ h => h
    | cons b bs ih => exact fun c h => ih _ (crc32cByte_lt h b)
  exact Nat.xor_lt_two_pow (fold bs _ (by decide)) (by decide)

theorem slice_whole {a : List Byte} (b : List Byte) {n : Nat} (h : a.length = n) : slice (a ++ b) 0 n = a := by
  simp [slice, ← h]

theorem slice_behind {a b : List Byte} (c : List Byte) {k n : Nat} (ha : a.length = k) (hb : b.length = n) :
    slice (a ++ (b ++ c)) k n = b := by
  simp [slice, ← ha, ← hb]

/-- Bytes with their check value agree with it. -/
theorem crcAgrees_withCrc {bs : List Byte} {n : Nat} (h : bs.length = n) : crcAgrees (withCrc bs) (n + 4) = true := by
  have whole : slice (withCrc bs) 0 n = bs := slice_whole _ h
  have crc : ((withCrc bs).drop n).take 4 = leBytes 4 (crc32c bs) := by
    rw [withCrc, List.drop_left' h, List.take_of_length_le (Nat.le_of_eq (leBytes_length ..))]
  rw [crcAgrees, Nat.add_sub_cancel, whole, fld, crc, leNat_leBytes]
  exact beq_iff_eq.2 (Nat.mod_eq_of_lt (crc32c_lt bs))

/-! ## The service cluster -/

theorem State.poisonLines_same {p : Part} (hp : [Part.tele, .linePoison, .hbm].contains p = false) (ls : List Nat) (s : State) :
    p.same s (ls.foldl (fun (s : State) l => s.poisonLine l) s) := by
  have : MayTele [Part.tele, .linePoison, .hbm].contains := ⟨rfl⟩
  have : MayLinePoison [Part.tele, .linePoison, .hbm].contains := ⟨rfl⟩
  have : MayHbm [Part.tele, .linePoison, .hbm].contains := ⟨rfl⟩
  exact ((Evolves.refl [Part.tele, .linePoison, .hbm].contains s).foldl fun _ _ hu => hu.poisonLine).kept p hp

theorem State.acceptPoison_none (s : State) : s.acceptPoison.poisonRequests = [] :=
  List.foldl_keeps (g := State.poisonRequests) (f := fun (s : State) (r : PoisonRequest) => r.lines.foldl (fun (s : State) l => s.poisonLine l) s)
    (fun u r => State.poisonLines_same (p := .poisonRequests) rfl r.lines u) s.poisonRequests { s with poisonRequests := [] }

theorem State.acceptPoison_errs (s : State) : s.acceptPoison.errs = s.errs :=
  List.foldl_keeps (g := State.errs) (f := fun (s : State) (r : PoisonRequest) => r.lines.foldl (fun (s : State) l => s.poisonLine l) s)
    (fun u r => State.poisonLines_same (p := .errs) rfl r.lines u) s.poisonRequests { s with poisonRequests := [] }

/-- What the halt before a restart may change. -/
def Part.pauses : List Part := Part.stops ++ [.halt, .linePoison]

theorem State.paused_same {p : Part} (hp : Part.pauses.contains p = false) (s : State) : p.same s s.halting.acceptPoison := by
  have : Stores Part.pauses.contains := stores_of rfl
  have : Raises Part.pauses.contains := raises_of rfl
  have : MayMsix Part.pauses.contains := ⟨rfl⟩
  have : MayHalt Part.pauses.contains := ⟨rfl⟩
  have : MayRings Part.pauses.contains := ⟨rfl⟩
  have : MayGroups Part.pauses.contains := ⟨rfl⟩
  have : MayPoisonRequests Part.pauses.contains := ⟨rfl⟩
  have : MayTVregs Part.pauses.contains := ⟨rfl⟩
  have : MayTProgram Part.pauses.contains := ⟨rfl⟩
  have : MayTWindow Part.pauses.contains := ⟨rfl⟩
  have : MayTStreams Part.pauses.contains := ⟨rfl⟩
  have : MayTQueues Part.pauses.contains := ⟨rfl⟩
  have : MayTWindows Part.pauses.contains := ⟨rfl⟩
  exact (Evolves.refl Part.pauses.contains s).halting.acceptPoison.kept p hp

theorem State.halting_errs {s : State} (jobs : s.jobs = []) : s.halting.errs = s.errs := by
  unfold State.halting
  dsimp only
  rw [jobs]
  split <;> rfl

/-- The state in which service firmware has been restarted after a missed heartbeat. -/
def State.serviceRestarted (s : State) : State :=
  ({ (s.until (s.trust.heartbeat + 100000000)).halting.acceptPoison with halt := .halted } : State).restartService.count .svcRestarts 0 1

theorem exec_heartbeatMissed {s : State} (runs : s.trust.serviceRunning = true) (live : s.errs.fatal = false) (still : s.trust.changing = none) :
    exec .heartbeatMissed s = .next { s.serviceRestarted.raise [Err.plain .contained 0x23 8 1 0 0] with halt := .running } :=
  if_neg (by simp [runs, live, still])

theorem State.serviceRestarted_facts (s : State) : s.serviceRestarted.trust = { s.trust with
      serviceRunning := s.trust.service.isSome && imageSigned s.trust.serviceImage, heartbeat := s.serviceRestarted.clock } ∧
    s.trust.heartbeat + 100000000 ≤ s.serviceRestarted.clock ∧ s.serviceRestarted.poisonRequests = [] ∧ (s.jobs = [] → s.serviceRestarted.errs = s.errs) := by
  have trust := State.paused_same (p := .trust) rfl (s.until (s.trust.heartbeat + 100000000))
  have clock := State.paused_same (p := .clock) rfl (s.until (s.trust.heartbeat + 100000000))
  have none := (s.until (s.trust.heartbeat + 100000000)).halting.acceptPoison_none
  have errs : s.jobs = [] → (s.until (s.trust.heartbeat + 100000000)).halting.acceptPoison.errs = s.errs := fun jobs =>
    (State.acceptPoison_errs _).trans (State.halting_errs jobs)
  unfold State.serviceRestarted
  generalize (s.until (s.trust.heartbeat + 100000000)).halting.acceptPoison = u at *
  rw [State.count_trust, State.count_clock, State.count_poisonRequests, State.count_errs]
  have trust : u.trust = s.trust := trust
  have clock : u.clock = max s.clock (s.trust.heartbeat + 100000000) := clock
  refine ⟨?_, Nat.le_trans (Nat.le_max_right ..) (Nat.le_of_eq clock.symm), none, errs⟩
  rw [← trust]
  rfl

/-! ## The status block and the JTAG port -/

theorem State.statusBlock_facts (s : State) : s.statusBlock.length = 64 ∧ slice s.statusBlock 0 4 = leBytes 4 0x12167A19 ∧
    slice s.statusBlock 8 4 = leBytes 4 s.errs.statusWord ∧ crcAgrees s.statusBlock 64 = true := by
  have four (v : Nat) : (leBytes 4 v).length = 4 := leBytes_length 4 v
  have body : s.statusBlock = withCrc ((leBytes 4 0x12167A19 ++ leBytes 4 s.boot.statusWord) ++ (leBytes 4 s.errs.statusWord ++
      (leBytes 4 s.power.statusWord ++ ((List.range 4).flatMap (fun d => leBytes 4 (s.die d).thermWord) ++
        ((List.range 4).flatMap (fun d => leBytes 4 (s.perfWord d)) ++ (leBytes 4 s.haltWord ++ List.replicate 8 0)))))) := by
    simp only [State.statusBlock, List.append_assoc]
  have dies (f : Nat → Nat) : ((List.range 4).flatMap fun d => leBytes 4 (f d)).length = 16 := by
    simp [List.length_flatMap, four]
  have length : ((leBytes 4 0x12167A19 ++ leBytes 4 s.boot.statusWord) ++ (leBytes 4 s.errs.statusWord ++
      (leBytes 4 s.power.statusWord ++ ((List.range 4).flatMap (fun d => leBytes 4 (s.die d).thermWord) ++
        ((List.range 4).flatMap (fun d => leBytes 4 (s.perfWord d)) ++ (leBytes 4 s.haltWord ++ List.replicate 8 0)))))).length = 60 := by
    simp only [List.length_append, four, dies, List.length_replicate]
  rw [body]
  refine ⟨?_, ?_, ?_, crcAgrees_withCrc length⟩
  · rw [withCrc, List.length_append, length, four]
  · rw [withCrc, List.append_assoc, List.append_assoc]
    exact slice_whole _ (four _)
  · rw [withCrc, List.append_assoc, List.append_assoc (as := leBytes 4 s.errs.statusWord)]
    exact slice_behind _ (by rw [List.length_append, four, four]) (four _)

theorem exec_i3cStatusRead {s : State} (served : s.i3cServed = true) (assigned : s.pins.i3cAddr.isSome = true) :
    exec .i3cStatusRead s = .next { s with resp := .data s.statusBlock false, pins := { s.pins with i3cInterrupt := false } } :=
  if_pos (by rw [served, assigned]; rfl)

theorem State.jtagTake_allowed {s : State} {allowed : Bool} (h : allowed = true) (i : JtagInstr) (f : State → State) :
    s.jtagTake allowed i f = .next (f { s with jtag := { s.jtag with instr := i, driving := false } }) := if_pos h

theorem State.jtagTake_bypass {s : State} {allowed : Bool} (h : allowed = false) (i : JtagInstr) (f : State → State) :
    s.jtagTake allowed i f = .next { s with jtag := { s.jtag with instr := .bypass, bypassBit := false, driving := false } } :=
  if_neg (by simp [h])

theorem exec_jtagExtest (b : List Bool) (s : State) : exec (.jtagExtest b) s =
    s.jtagTake s.jtagReset .extest (fun s => { s with jtag := { s.jtag with boundary := boundaryOf b, driving := true } }) := rfl

theorem exec_jtagIeee1838Access (k : Nat) (s : State) : exec (.jtagIeee1838Access k) s =
    s.jtagTake (s.jtagRuns && s.trust.debug) (.ieee1838 k) (fun s => s) := rfl

theorem exec_jtagIeee1687Access (k : Nat) (s : State) : exec (.jtagIeee1687Access k) s =
    s.jtagTake (s.jtagRuns && s.trust.debug) (.ieee1687 k) (fun s => s) := rfl

theorem exec_jtagIdcode (s : State) : exec .jtagIdcode s = s.jtagTake s.pins.allGood .idcode (fun s => { s with resp := .word 0x11216F33 }) := rfl

theorem exec_jtagSamplePreload (b : List Bool) (s : State) : exec (.jtagSamplePreload b) s = s.jtagTake s.pins.allGood .samplePreload (fun s => { s with
    freeCount := s.freeCount + 1, resp := .pins s.pinLevels, jtag := { s.jtag with boundary := boundaryOf b } }) := rfl

/-- An instruction that only its state allows: what it leaves of the port. -/
theorem State.jtagTake_ite {s : State} (allowed : Bool) (i : JtagInstr) (j : Jtag) {f : State → State}
    (h : f { s with jtag := { s.jtag with instr := i, driving := false } } = { s with jtag := j }) :
    s.jtagTake allowed i f = .next { s with jtag := if allowed then j else { s.jtag with instr := .bypass, bypassBit := false, driving := false } } := by
  cases allowed
  · exact State.jtagTake_bypass rfl i f
  · exact (State.jtagTake_allowed rfl i f).trans (congrArg Host.Outcome.next h)

/-- Settles O38: the service cluster's rows, the status block, and each JTAG instruction by the state. -/
theorem serviceTestAndManagement : Obligations.ServiceTestAndManagement := by
  unfold Obligations.ServiceTestAndManagement
  refine ⟨⟨fun s runs live => ⟨if_pos (by simp [runs, live]), fun still => ?_⟩, fun w a v s runs => ⟨fun inside => if_pos (by simp [inside]), fun outside => ?_⟩⟩,
    fun s served => ⟨fun a ha => ?_, fun none => if_neg (by simp [none]), fun assigned => ?_⟩, fun l s => rfl, fun s => ⟨fun rails => ⟨?_, fun b => ?_⟩,
      fun down b c mem => ?_, rfl, fun b => ?_, fun k => ?_, fun k => ?_⟩⟩
  · have run := exec_heartbeatMissed runs live still
    have mild : (Err.plain .contained 0x23 8 1 0 0).cls ≠ .fatal := by decide
    have trust : (s.serviceRestarted.raise [Err.plain .contained 0x23 8 1 0 0]).trust = s.serviceRestarted.trust :=
      State.raise_one_mild_same (p := .trust) mild rfl
    have requests : (s.serviceRestarted.raise [Err.plain .contained 0x23 8 1 0 0]).poisonRequests = s.serviceRestarted.poisonRequests :=
      State.raise_one_mild_same (p := .poisonRequests) mild rfl
    have clock := State.raise_mild_clock s.serviceRestarted mild
    obtain ⟨trust', time, none, errs⟩ := s.serviceRestarted_facts
    have recorded := State.raise_recorded s.serviceRestarted (e := Err.plain .contained 0x23 8 1 0 0) (by decide)
    generalize s.serviceRestarted = u at *
    refine ⟨_, run, rfl, requests.trans none, ?_, ?_, ?_, fun jobs takes => recorded ((errs jobs).symm ▸ takes)⟩
    · exact (congrArg Trust.serviceRunning (trust.trans trust')).trans rfl
    · exact (congrArg Trust.heartbeat (trust.trans trust')).trans clock.symm
    · exact Nat.le_trans time (Nat.le_of_eq clock.symm)
  · have mild : (Err.plain .deferred 0x0D 8 1 a.toNat 0).cls ≠ .fatal := nofun
    have run : exec (.svcDenied w a v) s = .next (if w then (s.count .svcWindowDenied 0 1).raise [Err.plain .deferred 0x0D 8 1 a.toNat 0]
        else { (s.count .svcWindowDenied 0 1).raise [Err.plain .deferred 0x0D 8 1 a.toNat 0] with resp := .word 0 }) := by
      refine if_neg ?_
      rw [runs, Bool.not_true, Bool.false_or, List.any_eq_true]
      rintro ⟨x, mem, inside⟩
      have beside := List.all_eq_true.1 outside x mem
      simp only [Bool.and_eq_true, Bool.or_eq_true, decide_eq_true_eq] at inside beside
      omega
    have recorded := State.raise_recorded (s.count .svcWindowDenied 0 1) (e := Err.plain .deferred 0x0D 8 1 a.toNat 0) nofun
    have resp : ((s.count .svcWindowDenied 0 1).raise [Err.plain .deferred 0x0D 8 1 a.toNat 0]).resp = s.resp :=
      (State.raise_one_mild_same (p := .resp) mild rfl).trans (State.count_resp ..)
    have mem := (State.raise_mild_mem (s.count .svcWindowDenied 0 1) mild).trans (State.count_mem ..)
    have trust : ((s.count .svcWindowDenied 0 1).raise [Err.plain .deferred 0x0D 8 1 a.toNat 0]).trust = s.trust :=
      (State.raise_one_mild_same (p := .trust) mild rfl).trans (State.count_trust ..)
    have takes : Recorded s ((s.count .svcWindowDenied 0 1).raise [Err.plain .deferred 0x0D 8 1 a.toNat 0]) (Err.plain .deferred 0x0D 8 1 a.toNat 0) :=
      fun h => recorded (by rw [State.count_errs]; exact h)
    generalize (s.count .svcWindowDenied 0 1).raise [Err.plain .deferred 0x0D 8 1 a.toNat 0] = u at *
    cases w with
    | true => exact ⟨u, run, nofun, fun _ => resp, mem, trust, takes⟩
    | false => exact ⟨_, run, fun _ => rfl, nofun, mem, trust, takes⟩
  · have run : exec (.i3cDynamicAddressAssignment a) s = .next { s with pins := { s.pins with i3cAddr := some (a % 128) } } := if_pos served
    rw [run, Nat.mod_eq_of_lt ha]
  · exact ⟨_, _, exec_i3cStatusRead served assigned, rfl, s.statusBlock_facts⟩
  · rw [exec_jtagIdcode, State.jtagTake_allowed rails]
  · rw [exec_jtagSamplePreload, State.jtagTake_allowed rails]
    refine ⟨_, rfl, ?_, rfl⟩
    rw [State.pinLevels, List.length_append, List.length_map, List.length_range]
    rfl
  · simp only [List.mem_cons, List.not_mem_nil, or_false] at mem
    obtain rfl | rfl := mem
    · rw [exec_jtagIdcode, State.jtagTake_bypass down]
    · rw [exec_jtagSamplePreload, State.jtagTake_bypass down]
  · rw [exec_jtagExtest]
    exact State.jtagTake_ite s.jtagReset .extest { s.jtag with instr := .extest, driving := true, boundary := boundaryOf b } rfl
  · rw [exec_jtagIeee1838Access]
    exact State.jtagTake_ite (s.jtagRuns && s.trust.debug) (.ieee1838 k) { s.jtag with instr := .ieee1838 k, driving := false } rfl
  · rw [exec_jtagIeee1687Access]
    exact State.jtagTake_ite (s.jtagRuns && s.trust.debug) (.ieee1687 k) { s.jtag with instr := .ieee1687 k, driving := false } rfl

end Sys2Proof.Machine
end

section
/-!
PROOFS. O35: the stages of start-up and the boot mailbox (R534-R543, R550-R553, Tables EB.6 to EB.9).
-/
namespace Sys2Proof.Machine

/-! ## Stages -/

theorem State.inStage_stage {s : State} {k : Nat} (h : s.inStage k = true) : s.boot.stage = k := by
  simp only [State.inStage, Bool.and_eq_true, beq_iff_eq] at h
  exact h.1.1.1.1.2

theorem State.realert_boot (s : State) : s.realert.boot = s.boot := by
  unfold State.realert State.assertAlert
  repeat' split
  all_goals rfl

theorem State.stopStartup_facts (code detail : Nat) (s : State) :
    (s.stopStartup code detail).boot = { s.boot with stopped := true, code := code, detail := detail } ∧
    (s.stopStartup code detail).pins.alertN = false :=
  ⟨State.realert_boot _, State.realert_alerts (by simp [State.alertCause])⟩

/-! ## Firmware (R539) -/

/-- What the flash slots of a kind hold: the first image that passes, else the code of the second. -/
theorem State.bootFlash_eq {s : State} {kind : Nat} {a b : List Byte} (ha : a = s.flashImage kind (if kind = 1 then 0 else 0x1000000))
    (hb : b = s.flashImage kind (if kind = 1 then 0x40000 else 0x2000000)) : s.bootFlash kind =
      if firmwareCode s.trust kind a = 0 then (0, 0, some a)
      else (firmwareCode s.trust kind b, 1, if firmwareCode s.trust kind b = 0 then some b else none) := by
  have slots : List.zip [0, 1] (flashSlots kind) = [(0, if kind = 1 then 0 else 0x1000000), (1, if kind = 1 then 0x40000 else 0x2000000)] := by
    unfold flashSlots
    split <;> rfl
  rw [State.bootFlash, slots, List.foldl_cons, List.foldl_cons, List.foldl_nil]
  dsimp only
  rw [← ha, ← hb]
  by_cases pass : firmwareCode s.trust kind a = 0
  · simp [pass]
  · simp [pass]

theorem Trust.layer0_facts (t : Trust) (m : Image) : (t.layer0 m).trusted = t.trusted ∧ (t.layer0 m).udsLocked = true ∧ (t.layer0 m).service = t.service := by
  unfold Trust.layer0
  split
  next locked => exact ⟨rfl, locked, rfl⟩
  next => exact ⟨rfl, rfl, rfl⟩

theorem State.runTrusted_facts (img : List Byte) (s : State) : (s.runTrusted img).boot = { s.boot with stage := 3 } ∧
    (s.runTrusted img).trust.trusted = some (Image.parse img) ∧ (s.runTrusted img).trust.udsLocked = true ∧
    (s.runTrusted img).trust.service = s.trust.service :=
  have ⟨trusted, locked, service⟩ := ({ s.trust with trusted := some (Image.parse img) } : Trust).layer0_facts (Image.parse img)
  ⟨rfl, trusted, locked, service⟩

theorem State.runService_facts (img : List Byte) (s : State) : (s.runService img).boot = { s.boot with stage := 7 } ∧
    (s.runService img).trust.service = some (Image.parse img) ∧ (s.runService img).trust.serviceRunning = true ∧
    (s.runService img).trust.trusted = s.trust.trusted := ⟨rfl, rfl, rfl, rfl⟩

/-- A stage that loads firmware of a kind: which stage and what runs it. -/
theorem State.loadStage_passes {s : State} {kind n src : Nat} {img : List Byte} {run : List Byte → State → State}
    (found : s.bootFlash kind = (0, src, some img)) (next : ∀ u : State, (run img u).boot = { u.boot with stage := n }) :
    (s.loadStage kind run).boot = { s.boot with stage := n, resultCode := 0, resultSource := src } ∧
    s.loadStage kind run = run img (s.bootResult 0 src) := by
  have same : s.loadStage kind run = run img (s.bootResult 0 src) := by
    rw [State.loadStage, found]
  exact ⟨by rw [same, next]; rfl, same⟩

theorem State.loadStage_waits {s : State} {kind code src : Nat} (run : List Byte → State → State) (found : s.bootFlash kind = (code, src, none)) :
    (s.loadStage kind run).boot = { s.boot with waiting := true, code := kind + 1, resultCode := code, resultSource := src } ∧
    (s.loadStage kind run).trust = s.trust := by
  rw [State.loadStage, found]
  exact ⟨rfl, rfl⟩

/-! ## Stacks (R550, R553) -/

/-- A stack that start-up accepts. -/
def stackGood (r : StackReport) : Bool := r.trained && r.sparesEnough

/-- One stack repaired and counted. -/
def State.repairOne (k : Nat) (p : StackReport) (s : State) : State :=
  let s := s.mapStack k (fun u => u.repaired p)
  s.count .hbmSoftRepairs 0 (s.stack k).soft

theorem State.repairOne_boot (k : Nat) (p : StackReport) (s : State) : (s.repairOne k p).boot = s.boot := by
  rw [State.repairOne, State.count_boot]
  rfl

theorem State.repairStacks_cons (k : Nat) (p : StackReport) (l : List (Nat × StackReport)) (s : State) : State.repairStacks ((k, p) :: l) s =
    if !p.trained then (s.repairOne k p).stopStartup 4 k else if !p.sparesEnough then (s.repairOne k p).stopStartup 5 k
    else (s.repairOne k p).repairStacks l := rfl

theorem State.repairStacks_good {k : Nat} {p : StackReport} (good : stackGood p = true) (l : List (Nat × StackReport)) (s : State) :
    State.repairStacks ((k, p) :: l) s = (s.repairOne k p).repairStacks l := by
  rw [stackGood, Bool.and_eq_true] at good
  rw [State.repairStacks_cons, if_neg (by simp [good.1]), if_neg (by simp [good.2])]

theorem State.repairStacks_all {l : List (Nat × StackReport)} (good : ∀ p ∈ l, stackGood p.2 = true) (s : State) :
    (s.repairStacks l).boot = { s.boot with stage := 4 } := by
  induction l generalizing s with
  | nil => rfl
  | cons p l ih =>
    rw [State.repairStacks_good (good p (List.mem_cons_self ..)), ih fun q hq => good q (List.mem_cons_of_mem _ hq), State.repairOne_boot]

theorem State.repairStacks_stops {l m : List (Nat × StackReport)} {k : Nat} {r : StackReport} (good : ∀ p ∈ l, stackGood p.2 = true) (bad : stackGood r = false)
    (s : State) : (s.repairStacks (l ++ (k, r) :: m)).boot = { s.boot with stopped := true, code := if r.trained then 5 else 4, detail := k } ∧
      (s.repairStacks (l ++ (k, r) :: m)).pins.alertN = false := by
  induction l generalizing s with
  | nil =>
    rw [List.nil_append, State.repairStacks_cons]
    have boot := State.repairOne_boot k r s
    cases trained : r.trained with
    | false =>
      have facts := (s.repairOne k r).stopStartup_facts 4 k
      rw [boot] at facts
      exact facts
    | true =>
      have facts := (s.repairOne k r).stopStartup_facts 5 k
      have few : r.sparesEnough = false := by rw [stackGood, trained, Bool.true_and] at bad; exact bad
      rw [boot] at facts
      rw [few]
      exact facts
  | cons p l ih =>
    rw [List.cons_append, State.repairStacks_good (good p (List.mem_cons_self ..)), ← State.repairOne_boot p.1 p.2 s]
    exact ih (fun q hq => good q (List.mem_cons_of_mem _ hq)) _

/-- The stacks in order, up to one of them. -/
theorem zip_range_split {l : List StackReport} (short : l.length ≤ 12) {k : Nat} {r : StackReport} (at_k : l[k]? = some r) :
    ∃ m, List.zip (List.range 12) l = List.zip (List.range k) (l.take k) ++ (k, r) :: m := by
  obtain ⟨hk, rfl⟩ := List.getElem?_eq_some_iff.1 at_k
  have below : k + 1 + (11 - k) = 12 := by omega
  have front : List.range 12 = List.range k ++ k :: (List.range (11 - k)).map (k + 1 + ·) := by
    rw [← below, List.range_add, List.range_succ, List.append_assoc, List.singleton_append]
  have split : l = l.take k ++ l[k] :: l.drop (k + 1) := by rw [← List.drop_eq_getElem_cons hk, List.take_append_drop]
  refine ⟨List.zip ((List.range (11 - k)).map (k + 1 + ·)) (l.drop (k + 1)), ?_⟩
  rw [front]
  conv_lhs => rw [split]
  rw [List.zip_append (by rw [List.length_range, List.length_take]; omega), List.zip_cons_cons]

/-! ## Tiles and the later stages -/

theorem State.assignSites_facts (f : List (List Nat)) (s : State) {d i : Nat} (hd : d < 4) (hi : i < 52) :
    ((s.assignSites f).tile (52 * d + i)).site = (passingSites (f.getD d [])).getD i 0 ∧ ((s.assignSites f).tile (52 * d + i)).die = d ∧
      Tab.at (s.assignSites f).spares [] d = (passingSites (f.getD d [])).drop 52 := by
  have die : dieOfTile (52 * d + i) = d := by unfold dieOfTile; omega
  have place : (52 * d + i) % 52 = i := by omega
  have tile := Tab.at_build (fun t => { s.tile t with
      logical := t, site := (passingSites (f.getD (dieOfTile t) [])).getD (t % 52) 0, die := dieOfTile t,
      col := (passingSites (f.getD (dieOfTile t) [])).getD (t % 52) 0 % 8, row := (passingSites (f.getD (dieOfTile t) [])).getD (t % 52) 0 / 8,
      locState := 0 }) Tile.reset (52 * d + i) (n := 208) (by omega)
  have same : (s.assignSites f).tile (52 * d + i) = _ := tile
  rw [same]
  dsimp only
  rw [die, place]
  exact ⟨rfl, rfl, Tab.at_build (fun d => (passingSites (f.getD d [])).drop 52) [] d hd⟩

theorem exec_stageTiles {s : State} (turn : s.inStage 4 = true) (f : List (List Nat)) (b : Option Nat) : exec (.stageTiles f b) s =
    match (List.range 4).find? (fun d => decide ((passingSites (f.getD d [])).length < 52)) with
    | some d => .next (s.stopStartup 6 d)
    | none => match b with
      | some b => .next (s.stopStartup 7 b)
      | none => .next ((s.assignSites f).enterStage 5) := if_neg (by simp [turn])

theorem State.trained_facts {a b : Bool} (n : Nat) (some : a = true ∨ b = true) (s : State) :
    (s.trained a b n).boot = s.boot ∧ (s.trained a b n).link.state = .up := by
  have width : flag a + flag b ≠ 0 := by obtain rfl | rfl := some <;> simp [flag]
  unfold State.trained
  dsimp only
  rw [if_neg width]
  split
  · exact ⟨rfl, rfl⟩
  · exact ⟨State.postEvent_same (p := .boot) rfl, congrArg Link.state (State.postEvent_same (p := .link) rfl)⟩

/-! ## The boot mailbox (R541) -/

section
variable {s : State} (serves : s.serves .sideband = true)
include serves

theorem State.gated_sideband (a : Nat) (f : State → State) : s.unlatch.gated .sideband a f = f s.unlatch :=
  State.gated_of_reaches f (by have serves' : s.unlatch.serves .sideband = true := serves
                               rw [State.reaches, serves']; rfl)

theorem exec_bootStart (k : Nat) : exec (.bootStart k) s = .next (s.unlatch.writeBootCtrl .sideband (k % 4 + 0x10)) :=
  congrArg Host.Outcome.next (State.gated_sideband serves 0x100 _)

theorem exec_bootPush : exec .bootPush s = .next (s.unlatch.writeBootCtrl .sideband (s.boot.ctrlKind % 4 + 0x20)) :=
  congrArg Host.Outcome.next (State.gated_sideband serves 0x100 _)

theorem exec_bootAbort : exec .bootAbort s = .next (s.unlatch.writeBootCtrl .sideband (s.boot.ctrlKind % 4 + 0x40)) :=
  congrArg Host.Outcome.next (State.gated_sideband serves 0x100 _)

end

/-- The KIND and command bits of a BOOT_CTRL word. -/
theorem bootWord_bits {k c : Nat} (hk : k < 4) (hc : c < 8) : bits (k % 4 + 16 * c) 1 0 = k ∧ bit (k % 4 + 16 * c) 4 = decide (c % 2 = 1) ∧
    bit (k % 4 + 16 * c) 5 = decide (c / 2 % 2 = 1) ∧ bit (k % 4 + 16 * c) 6 = decide (c / 4 = 1) := by
  interval_cases k <;> interval_cases c <;> decide

section
variable {k : Nat} (hk : k < 4) (q : Requester) (s : State)
include hk

theorem State.writeBootCtrl_start : s.writeBootCtrl q (k % 4 + 0x10) =
    if s.boot.waiting && k == s.boot.awaited then { s with boot := { s.boot with ctrlKind := k, image := some [], offset := 0 } }
    else s.discard q 0x100 (k % 4 + 0x10) := by
  obtain ⟨kind, start, push, abort⟩ := bootWord_bits hk (c := 1) (by decide)
  simp only [Nat.reduceMul] at kind start push abort
  rw [State.writeBootCtrl, State.bootRefuses, kind, start, push, abort]
  cases s.boot.waiting && k == s.boot.awaited <;> rfl

theorem State.writeBootCtrl_push : s.writeBootCtrl q (k % 4 + 0x20) =
    match s.boot.image with
    | some got => ({ s with boot := { s.boot with ctrlKind := k } } : State).bootAppend got
    | none => s.discard q 0x100 (k % 4 + 0x20) := by
  obtain ⟨kind, start, push, abort⟩ := bootWord_bits hk (c := 2) (by decide)
  simp only [Nat.reduceMul] at kind start push abort
  rw [State.writeBootCtrl, State.bootRefuses, kind, start, push, abort]
  cases image : s.boot.image with
  | none => simp
  | some got => simp [image]

theorem State.writeBootCtrl_abort : s.writeBootCtrl q (k % 4 + 0x40) = { s with boot := { s.boot with ctrlKind := k, image := none, offset := 0 } } := by
  obtain ⟨kind, start, push, abort⟩ := bootWord_bits hk (c := 4) (by decide)
  simp only [Nat.reduceMul] at kind start push abort
  rw [State.writeBootCtrl, State.bootRefuses, kind, start, push, abort]
  rfl

end

/-- What the last byte of an image brings. -/
theorem State.checkImage_fails {s : State} {img : List Byte} (fails : firmwareCode s.trust s.boot.awaited img ≠ 0) : s.checkImage img =
    { s with boot := { s.boot with resultCode := firmwareCode s.trust s.boot.awaited img, resultSource := 2, image := none } } := if_pos fails

theorem State.checkImage_passes {s : State} {img : List Byte} (passes : firmwareCode s.trust s.boot.awaited img = 0) : s.checkImage img =
    let u : State := { s with boot := { s.boot with resultCode := 0, resultSource := 2, image := none, waiting := false, code := 0 } }
    if s.boot.awaited = 1 then u.runTrusted img else u.runService img := by
  unfold State.checkImage
  dsimp only
  rw [passes]
  exact if_neg (not_not.2 rfl)

/-- The image grown by a PUSH. -/
def State.pushed (img : List Byte) (s : State) : State := { s.unlatch with boot := { s.boot with image := some img, offset := img.length } }

/-- A PUSH with an image begun. -/
theorem exec_bootPush_append {s : State} (serves : s.serves .sideband = true) (hk : s.boot.ctrlKind < 4) {got img : List Byte} (image : s.boot.image = some got)
    (grown : img = got ++ s.boot.data.take (min 128 (s.boot.len - got.length))) : exec .bootPush s =
      .next (if s.boot.len ≤ img.length then (s.pushed img).checkImage img else s.pushed img) := by
  have image' : s.unlatch.boot.image = some got := image
  rw [exec_bootPush serves, State.writeBootCtrl_push hk, image', grown]
  rfl

/-- No die has too few tiles. -/
theorem noneFew {f : List (List Nat)} (good : ∀ d, d < 4 → 52 ≤ (passingSites (f.getD d [])).length) :
    (List.range 4).find? (fun d => decide ((passingSites (f.getD d [])).length < 52)) = none := by
  rw [List.find?_eq_none]
  intro d hd
  simpa using good d (List.mem_range.1 hd)

/-- Settles O35: the stages in their turns, then the boot mailbox's commands. -/
theorem stagesAndBootMailbox : Obligations.StagesAndBootMailbox := by
  unfold Obligations.StagesAndBootMailbox
  refine ⟨⟨fun s turn => ⟨if_neg (by simp [turn]), fun r => ?_⟩, fun kind c a b s stage ha hb => ⟨fun img src found => ?_, fun badA badB => ?_⟩,
    fun l s turn short => ⟨fun good => ?_, fun k r at_k good bad => ?_⟩, fun f s turn => ⟨fun d hd good bad b => ?_, fun good => ⟨fun b => ?_, ?_⟩⟩,
    fun s turn => ?_, fun a b n s turn => ⟨fun ha hb => ?_, fun some => ?_⟩, fun s turn => ⟨_, if_neg (by simp [turn]), rfl, rfl⟩,
    fun r l f b x y n s p mem out => ?_⟩, fun s serves => ⟨fun k hk waits awaited => ?_, fun k hk odd => ?_, fun hk none => ?_, fun got img hk image grown => ?_,
      fun hk => ?_⟩⟩
  · have run : exec (.stageRom (some r)) s = .next (s.stopStartup 1 r) := if_neg (by simp [turn])
    exact ⟨_, run, s.stopStartup_facts 1 r⟩
  · have flash : s.bootFlash kind = (0, src, some img) := by
      rw [State.bootFlash_eq ha hb]
      obtain ⟨pass, rfl, rfl⟩ | ⟨fail, pass, rfl, rfl⟩ := found
      · rw [if_pos pass]
      · rw [if_neg fail, pass, if_pos rfl]
    obtain ⟨rfl, rfl, turn⟩ | ⟨rfl, rfl, turn⟩ := stage
    · have run : exec .stageTrusted s = .next (s.loadStage 1 State.runTrusted) := if_pos turn
      obtain ⟨boot, same⟩ := State.loadStage_passes (run := State.runTrusted) (n := 3) flash fun u => (u.runTrusted_facts img).1
      obtain ⟨-, trusted, locked, service⟩ := (s.bootResult 0 src).runTrusted_facts img
      rw [← same] at trusted locked service
      exact ⟨_, run, by rw [boot, State.inStage_stage turn], fun _ => ⟨trusted, locked, service⟩, nofun⟩
    · have run : exec .stageService s = .next (s.loadStage 2 State.runService) := if_pos turn
      obtain ⟨boot, same⟩ := State.loadStage_passes (run := State.runService) (n := 7) flash fun u => (u.runService_facts img).1
      obtain ⟨-, service, runs, trusted⟩ := (s.bootResult 0 src).runService_facts img
      rw [← same] at trusted runs service
      exact ⟨_, run, by rw [boot, State.inStage_stage turn], nofun, fun _ => ⟨service, runs, trusted⟩⟩
  · have flash : s.bootFlash kind = (firmwareCode s.trust kind b, 1, none) := by
      rw [State.bootFlash_eq ha hb, if_neg badA, if_neg badB]
    obtain ⟨rfl, rfl, turn⟩ | ⟨rfl, rfl, turn⟩ := stage
    · obtain ⟨boot, trust⟩ := State.loadStage_waits State.runTrusted flash
      exact ⟨_, if_pos turn, trust, boot⟩
    · obtain ⟨boot, trust⟩ := State.loadStage_waits State.runService flash
      exact ⟨_, if_pos turn, trust, boot⟩
  · exact ⟨_, if_pos turn, State.repairStacks_all (fun p hp => List.all_eq_true.1 good _ (List.of_mem_zip hp).2) s⟩
  · obtain ⟨m, split⟩ := zip_range_split short at_k
    have run : exec (.stageHbm l) s = .next (s.repairStacks (List.zip (List.range 12) l)) := if_pos turn
    rw [split] at run
    exact ⟨_, run, State.repairStacks_stops (fun p hp => List.all_eq_true.1 good _ (List.of_mem_zip hp).2) bad s⟩
  · have found : (List.range 4).find? (fun d => decide ((passingSites (f.getD d [])).length < 52)) = some d := by
      rw [List.find?_range_eq_some]
      exact ⟨decide_eq_true bad, List.mem_range.2 hd, fun e he => by simpa using good e he⟩
    rw [exec_stageTiles turn, found]
    exact ⟨_, rfl, s.stopStartup_facts 6 d⟩
  · rw [exec_stageTiles turn, noneFew good]
    exact ⟨_, rfl, s.stopStartup_facts 7 b⟩
  · rw [exec_stageTiles turn, noneFew good]
    exact ⟨_, rfl, rfl, fun d i hd hi => s.assignSites_facts f hd hi⟩
  · have run : exec .stageWipe s = .next ((s.wipe.setOwner (List.replicate 48 0)).enterStage 6) := if_neg (by simp [turn])
    have mem (a : Nat) := Memory.get_clear_device s.mem a
    refine ⟨_, run, rfl, fun a ha => (mem a).trans (if_neg (Nat.not_le.2 ha)), fun a ha => (mem a).trans (if_pos ha), rfl, rfl, rfl,
      fun k => ⟨Tab.at_fill_default 64 none k, Tab.at_fill_default 16 none k⟩, rfl, fun x hx => ?_⟩
    have tile : ((s.wipe.setOwner (List.replicate 48 0)).enterStage 6).tile x = (s.tile x).wiped := Tab.at_map s.tiles Tile.reset Tile.reset Tile.wiped x hx
    rw [tile]
    exact ⟨rfl, rfl, rfl⟩
  · have run : exec (.stageUcie a b n) s = .next (s.stopStartup 8 0) := by
      subst ha hb
      exact if_neg (by simp [turn])
    exact ⟨_, run, s.stopStartup_facts 8 0⟩
  · have run : exec (.stageUcie a b n) s = .next ((s.trained a b n).enterStage 8) :=
      (if_neg (by simp [turn])).trans (if_neg (by obtain rfl | rfl := some <;> simp))
    obtain ⟨boot, up⟩ := State.trained_facts n some s
    exact ⟨_, run, congrArg (fun b : Boot => { b with stage := 8 }) boot, up⟩
  · simp only [List.mem_cons, List.not_mem_nil, or_false] at mem
    obtain rfl | rfl | rfl | rfl | rfl | rfl | rfl | rfl := mem
    · exact if_pos (by simp [out])
    · exact if_neg (by simp [out])
    · exact if_neg (by simp [out])
    · exact if_pos (by simp [out])
    · exact if_pos (by simp [out])
    · exact if_neg (by simp [out])
    · exact if_pos (by simp [out])
    · exact if_pos (by simp [out])
  · have waits' : (s.unlatch.boot.waiting && k == s.unlatch.boot.awaited) = true := by
      change (s.boot.waiting && k == s.boot.awaited) = true
      rw [waits, awaited]
      exact beq_self_eq_true _
    rw [exec_bootStart serves, State.writeBootCtrl_start hk, if_pos waits']
    rfl
  · have odd' : (s.unlatch.boot.waiting && k == s.unlatch.boot.awaited) = false := by
      change (s.boot.waiting && k == s.boot.awaited) = false
      obtain still | other := odd
      · rw [still, Bool.false_and]
      · rw [beq_eq_false_iff_ne.2 other, Bool.and_false]
    have run := exec_bootStart serves k
    rw [State.writeBootCtrl_start hk, odd', if_neg Bool.false_ne_true] at run
    have recorded := State.discard_recorded .sideband 0x100 (k % 4 + 0x10) s.unlatch
    have value : (k % 4 + 0x10) % 2 ^ 32 = k + 0x10 := by omega
    rw [value] at recorded
    exact ⟨_, run, State.discard_same (p := .boot) rfl, recorded⟩
  · have none' : s.unlatch.boot.image = Option.none := none
    have run := exec_bootPush serves
    rw [State.writeBootCtrl_push hk, none'] at run
    have recorded := State.discard_recorded .sideband 0x100 (s.boot.ctrlKind % 4 + 0x20) s.unlatch
    have value : (s.boot.ctrlKind % 4 + 0x20) % 2 ^ 32 = s.boot.ctrlKind + 0x20 := by omega
    rw [value] at recorded
    exact ⟨_, run, State.discard_same (p := .boot) rfl, recorded⟩
  · have run := exec_bootPush_append serves hk image grown
    refine ⟨fun part => run.trans (congrArg Host.Outcome.next (if_neg (Nat.not_le.2 part))), fun whole fails => ?_, fun whole passes => ?_⟩
    · rw [run, if_pos whole]
      exact congrArg Host.Outcome.next (State.checkImage_fails (s := s.pushed img) fails)
    · rw [if_pos whole, State.checkImage_passes (s := s.pushed img) passes] at run
      dsimp only at run
      have kind : (s.pushed img).boot.awaited = if s.boot.stage = 2 then 1 else 2 := rfl
      rw [kind] at run
      by_cases two : s.boot.stage = 2
      · rw [if_pos two, if_pos rfl] at run
        exact ⟨_, run, rfl, rfl, rfl, rfl, rfl, fun _ => ⟨rfl, (State.runTrusted_facts img _).2.1⟩, fun six => by omega⟩
      · rw [if_neg two, if_neg (by decide)] at run
        exact ⟨_, run, rfl, rfl, rfl, rfl, rfl, fun h => absurd h two, fun _ => ⟨rfl, rfl⟩⟩
  · rw [exec_bootAbort serves, State.writeBootCtrl_abort hk]
    rfl

end Sys2Proof.Machine
end

section
/-! PROOFS. What the operations on a window leave of a macro-operation and of its tile. -/
namespace Sys2Proof.Machine

/-- A tile number outside the array reads as a tile in reset, whose window is empty. -/
theorem State.tile_lt_of_mopOf {s : State} {t seq : Nat} {m : Mop} (h : s.mopOf t seq = some m) : t < 208 := by
  by_contra ht
  have : s.tile t = Tile.reset := by simp [State.tile, Tab.at, ht]
  rw [State.mopOf, this] at h
  cases h

theorem State.mopOf_seq {s : State} {t seq : Nat} {m : Mop} (h : s.mopOf t seq = some m) : m.seq = seq := by
  simpa using List.find?_some h

/-- An update of a tile that keeps its window keeps what `mopOf` finds. -/
theorem State.mopOf_mapTile (s : State) (t t' seq : Nat) (f : Tile → Tile) (h : (f (s.tile t)).window = (s.tile t).window) :
    (s.mapTile t f).mopOf t' seq = s.mopOf t' seq := by
  unfold State.mopOf
  rw [State.tile_mapTile]
  split
  · next e => rw [h, e.1]
  · rfl

@[simp] theorem State.count_tile (s : State) (c : Ctr) (i n t : Nat) : (s.count c i n).tile t = s.tile t := by
  simp [State.tile]

@[simp] theorem State.count_mopOf (s : State) (c : Ctr) (i n t seq : Nat) : (s.count c i n).mopOf t seq = s.mopOf t seq := by
  simp [State.mopOf]

/-- Finding by sequence number commutes with an update of the macro-operation found. -/
theorem find_map_seq (l : List Mop) (seq : Nat) (f : Mop → Mop) (hf : ∀ m, (f m).seq = m.seq) :
    (l.map (fun m => if m.seq == seq then f m else m)).find? (fun m => m.seq == seq) =
      (l.find? (fun m => m.seq == seq)).map f := by
  induction l with
  | nil => rfl
  | cons m l ih =>
    rw [List.map_cons, List.find?_cons, List.find?_cons, ih]
    by_cases h : m.seq = seq
    · simp [h, hf]
    · have : (m.seq == seq) = false := by simpa using h
      simp [this]

/-- Finding another sequence number is not affected. -/
theorem find_map_other (l : List Mop) (seq k : Nat) (f : Mop → Mop) (hf : ∀ m, (f m).seq = m.seq) (hk : k ≠ seq) :
    (l.map (fun m => if m.seq == seq then f m else m)).find? (fun m => m.seq == k) = l.find? (fun m => m.seq == k) := by
  induction l with
  | nil => rfl
  | cons m l ih =>
    rw [List.map_cons, List.find?_cons, List.find?_cons, ih]
    by_cases h : m.seq = seq
    · have : (seq == k) = false := by simpa using hk.symm
      simp [h, hf, this]
    · simp [h]

theorem State.mopOf_mapMop {s : State} {t seq : Nat} {m : Mop} (f : Mop → Mop) (hf : ∀ m, (f m).seq = m.seq)
    (h : s.mopOf t seq = some m) : (s.mapMop t seq f).mopOf t seq = some (f m) := by
  have ht := State.tile_lt_of_mopOf h
  unfold State.mopOf State.mapMop at *
  rw [State.tile_mapTile_self _ ht, find_map_seq _ _ _ hf, h]
  rfl

theorem State.mopOf_mapMop_other (s : State) (t t' seq k : Nat) (f : Mop → Mop) (hf : ∀ m, (f m).seq = m.seq)
    (h : t' ≠ t ∨ k ≠ seq) : (s.mapMop t seq f).mopOf t' k = s.mopOf t' k := by
  unfold State.mopOf State.mapMop
  rw [State.tile_mapTile]
  split
  · next e =>
    obtain ⟨rfl, -⟩ := e
    exact find_map_other _ _ _ _ hf (h.resolve_left (fun n => n rfl))
  · rfl

/-- A part of a tile that does not look into its window is kept by an update of a macro-operation. -/
theorem State.mapMop_tile {α : Type} (g : Tile → α) (hg : ∀ (u : Tile) w, g { u with window := w } = g u) (s : State)
    (t t' seq : Nat) (f : Mop → Mop) : g ((s.mapMop t seq f).tile t') = g (s.tile t') := by
  unfold State.mapMop
  rw [State.tile_mapTile]
  split
  · next e => rw [hg, e.1]
  · rfl

@[simp] theorem State.mapMop_mem (s : State) (t seq : Nat) (f : Mop → Mop) : (s.mapMop t seq f).mem = s.mem := rfl

@[simp] theorem State.mapMop_linePoison (s : State) (t seq : Nat) (f : Mop → Mop) :
    (s.mapMop t seq f).linePoison = s.linePoison := rfl

/-- The parts of a found context. -/
theorem State.ctx_facts {s : State} {t seq : Nat} {c : Ctx} (h : s.ctx t seq = some c) :
    c.t = t ∧ c.mop.seq = seq ∧ (s.tile t).job = some c.ring ∧ s.job c.ring = some c.job ∧ s.mopOf t seq = some c.mop ∧
      c.chain = (s.tile t).chainOf c.mop := by
  unfold State.ctx at h
  split at h
  · next hr hm =>
    split at h
    · next hj =>
      cases h
      exact ⟨rfl, State.mopOf_seq hm, hr, hj, hm, rfl⟩
    · cases h
  · cases h

theorem State.readyCtx_ctx {s : State} {t seq : Nat} {k : MopWord → Bool} {c : Ctx} (h : s.readyCtx t seq k = some c) :
    s.ctx t seq = some c ∧ s.tileRuns t = true ∧ c.mop.ready = true ∧ s.poisonWaits c = false ∧ k c.w = true := by
  unfold State.readyCtx at h
  split at h
  · next e =>
    split at h
    · next g =>
      cases h
      simp only [Bool.and_eq_true, Bool.not_eq_true'] at g
      exact ⟨e, g.1.1.1, g.1.1.2, g.1.2, g.2⟩
    · cases h
  · cases h

theorem State.withReady_none {s : State} {t seq : Nat} {k : MopWord → Bool} (f : Ctx → State) (h : s.readyCtx t seq k = none) :
    s.withReady t seq k f = .next s := by
  rw [State.withReady, h]

theorem State.withReady_some {s : State} {t seq : Nat} {k : MopWord → Bool} {c : Ctx} (f : Ctx → State)
    (h : s.readyCtx t seq k = some c) : s.withReady t seq k f = .next (f c) := by
  rw [State.withReady, h]

theorem State.guarded_bad {s : State} {c : Ctx} {o : Nat} (f : State → State) (h : s.badWord c = some o) :
    s.guarded c f = (s.markGranule c.t (o / 4096)).stopMop c (.scratchWord o) := by
  rw [State.guarded, h]

theorem State.guarded_sound {s : State} {c : Ctx} (f : State → State) (h : s.badWord c = none) : s.guarded c f = f s := by
  rw [State.guarded, h]

/-- What `markGranule` leaves of every tile but its poison map. -/
theorem State.markGranule_tile {α : Type} (g : Tile → α) (hg : ∀ (u : Tile) m, g { u with marks := m } = g u) (s : State)
    (t gr t' : Nat) : g ((s.markGranule t gr).tile t') = g (s.tile t') := by
  unfold State.markGranule
  split
  · rfl
  · rw [State.count_tile, State.tile_mapTile]
    split
    · next e => rw [hg, e.1]
    · rfl

@[simp] theorem State.markGranule_mopOf (s : State) (t g t' seq : Nat) : (s.markGranule t g).mopOf t' seq = s.mopOf t' seq :=
  State.markGranule_tile (fun u => u.window.find? (fun m : Mop => m.seq == seq)) (fun _ _ => rfl) s t g t'

@[simp] theorem State.markGranule_linePoison (s : State) (t g : Nat) : (s.markGranule t g).linePoison = s.linePoison := by
  unfold State.markGranule
  split <;> simp

/-! The arms of `exec` that the engines' commands take. -/

theorem exec_ntt (t seq : Nat) : exec (.ntt t seq) = execNtt t seq := rfl
theorem exec_intt (t seq : Nat) : exec (.intt t seq) = execIntt t seq := rfl
theorem exec_autoCoefficient (t seq : Nat) : exec (.autoCoefficient t seq) = execAutoCoefficient t seq := rfl
theorem exec_autoEvaluation (t seq : Nat) : exec (.autoEvaluation t seq) = execAutoEvaluation t seq := rfl
theorem exec_autoIndex (t seq : Nat) : exec (.autoIndex t seq) = execAutoIndex t seq := rfl
theorem exec_extract (t seq : Nat) : exec (.extract t seq) = execExtract t seq := rfl
theorem exec_modup (t seq : Nat) : exec (.modup t seq) = execModup t seq := rfl
theorem exec_moddown (t seq : Nat) : exec (.moddown t seq) = execModdown t seq := rfl
theorem exec_rescale (t seq : Nat) : exec (.rescale t seq) = execRescale t seq := rfl
theorem exec_hmul (t seq : Nat) : exec (.hmul t seq) = execHmul t seq := rfl
theorem exec_pmul (t seq : Nat) : exec (.pmul t seq) = execPmul t seq := rfl
theorem exec_add (t seq : Nat) : exec (.add t seq) = execAdd t seq := rfl
theorem exec_sub (t seq : Nat) : exec (.sub t seq) = execSub t seq := rfl
theorem exec_neg (t seq : Nat) : exec (.neg t seq) = execNeg t seq := rfl
theorem exec_cmul (t seq : Nat) : exec (.cmul t seq) = execCmul t seq := rfl
theorem exec_vprog (t seq : Nat) : exec (.vprog t seq) = execVprog t seq := rfl
theorem exec_vcvt (t seq : Nat) : exec (.vcvt t seq) = execVcvt t seq := rfl
theorem exec_mxpModular (t seq : Nat) : exec (.mxpModular t seq) = execMxpModular t seq := rfl
theorem exec_mxpClear (t seq : Nat) : exec (.mxpClear t seq) = execMxpClear t seq := rfl
theorem exec_mxpExpand (t seq : Nat) : exec (.mxpExpand t seq) = execMxpExpand t seq := rfl
theorem exec_packRaise (t seq : Nat) : exec (.packRaise t seq) = execPackRaise t seq := rfl
theorem exec_packLwe (t seq : Nat) : exec (.packLwe t seq) = execPackLwe t seq := rfl

end Sys2Proof.Machine
end


section
/-! PROOFS. O40: an engine command waits for a ready macro-operation and stops at an uncorrectable word. -/
namespace Sys2Proof.Machine

/-- What stopping at an uncorrectable word leaves. -/
structure StopsAtWord (s u : State) (c : Ctx) (o : Nat) : Prop where
  marks : (u.tile c.t).marks.contains (o / 4096) = true
  mop : u.mopOf c.t c.mop.seq = some { c.mop with stop := some (.scratchWord o) }
  mem : u.mem = s.mem
  lines : u.linePoison = s.linePoison
  vregs : (u.tile c.t).vregs = (s.tile c.t).vregs

theorem State.markGranule_marks {s : State} {t : Nat} (g : Nat) (ht : t < 208) :
    ((s.markGranule t g).tile t).marks.contains g = true := by
  unfold State.markGranule
  split
  · assumption
  · rw [State.count_tile, State.tile_mapTile_self _ ht]
    exact List.contains_iff_mem.2 (mem_insertNat_self ..)

theorem State.stopMop_stopsAtWord {s : State} {c : Ctx} (o : Nat) (h : s.mopOf c.t c.mop.seq = some c.mop) :
    StopsAtWord s ((s.markGranule c.t (o / 4096)).stopMop c (.scratchWord o)) c o where
  marks := by
    rw [State.stopMop, State.mapMop_tile Tile.marks (fun _ _ => rfl)]
    exact State.markGranule_marks _ (State.tile_lt_of_mopOf h)
  mop := State.mopOf_mapMop _ (fun _ => rfl) (by rw [State.markGranule_mopOf, h])
  mem := by rw [State.stopMop, State.mapMop_mem, State.markGranule_mem]
  lines := by rw [State.stopMop, State.mapMop_linePoison, State.markGranule_linePoison]
  vregs := by
    rw [State.stopMop, State.mapMop_tile Tile.vregs (fun _ _ => rfl), State.markGranule_tile Tile.vregs (fun _ _ => rfl)]

/-- A command that waits for a ready macro-operation of kind `k`, and whose work `guarded` surrounds once `turn` holds. -/
structure Waits (e : State → Out) (t seq : Nat) (k : MopWord → Bool) (turn : State → Ctx → Prop) : Prop where
  idle : ∀ s, s.readyCtx t seq k = none → e s = .next s
  stops : ∀ s c o, s.readyCtx t seq k = some c → s.badWord c = some o → turn s c →
    e s = .next ((s.markGranule c.t (o / 4096)).stopMop c (.scratchWord o))

/-- Commands that do not take turns. -/
def anyTurn (_ : State) (_ : Ctx) : Prop := True

/-- A command that is `guarded` work on a ready macro-operation. -/
theorem waits_of_guarded {t seq : Nat} {k : MopWord → Bool} {e : State → Out} (f : State → Ctx → State → State)
    (h : ∀ s, e s = s.withReady t seq k fun c => s.guarded c (f s c)) : Waits e t seq k anyTurn where
  idle s none := by rw [h, State.withReady_none _ none]
  stops s c o some bad _ := by rw [h, State.withReady_some _ some, State.guarded_bad _ bad]

/-- The rule, the flags and the words of a one-input command may look at the state before. -/
theorem State.unary_waits (t seq : Nat) (k : MopWord → Bool) (rule : State → Ctx → List (Nat × RecIn) → RecIn → RecRule)
    (extra : State → Ctx → Option RecIn → Nat)
    (data : State → Ctx → View → State → View → Nat → RecIn → PSet → List ElemOut) :
    Waits (fun s => s.unary t seq k (rule s) (extra s) (data s)) t seq k anyTurn :=
  waits_of_guarded _ fun _ => rfl

/-- AUTO in evaluation form waits the same whether or not it is a stage of FC4. -/
theorem execAutoEvaluation_waits (t seq : Nat) : Waits (execAutoEvaluation t seq) t seq (isAuto 1) anyTurn where
  idle s none := by
    unfold execAutoEvaluation State.unary
    split
    · rw [State.withReady_none _ none]
    · rw [State.withReady_none _ none]
  stops s c o some bad _ := by
    unfold execAutoEvaluation State.unary
    split
    · rw [State.withReady_some _ some, State.guarded_bad _ bad]
    · rw [State.withReady_some _ some, State.guarded_bad _ bad]

theorem execVprog_waits (t seq : Nat) :
    Waits (execVprog t seq) t seq (fun w => w.family == Fam.vprog) (fun s c => s.vprogTurn c = true) where
  idle s none := State.withReady_none _ none
  stops s c o some bad turn := by
    rw [execVprog, State.withReady_some _ some, if_pos turn, State.guarded_bad _ bad]

/-- PACK counts nothing where it waits or stops. -/
theorem State.packOp_waits (t seq bit : Nat) (data : Ctx → View → State → View → Nat → RecIn → PSet → List ElemOut) :
    Waits (fun s => s.packOp t seq bit data) t seq (fun w => w.family == Fam.pack && w.packSrc == bit) anyTurn where
  idle s none := by
    have wait := (State.unary_waits t seq (fun w => w.family == Fam.pack && w.packSrc == bit) (fun _ c _ => packRule c)
      (fun s c r => packRange s c.w r) (fun _ => data)).idle s none
    rw [State.packOp, wait, none]
    rfl
  stops s c o some bad _ := by
    have stop := (State.unary_waits t seq (fun w => w.family == Fam.pack && w.packSrc == bit) (fun _ c _ => packRule c)
      (fun s c r => packRange s c.w r) (fun _ => data)).stops s c o some bad trivial
    rw [State.packOp, stop, some]
    dsimp only
    simp only [bad, Option.isNone_some, Bool.false_eq_true, if_false]

/-- Of the engine commands, VPROG alone waits for its turn. -/
def turnOf (t seq : Nat) (i : Instr) (s : State) (c : Ctx) : Prop := i = .vprog t seq → s.vprogTurn c = true

/-- Every engine command waits for its turn and stops at an uncorrectable word. -/
theorem engineCommands_wait (t seq : Nat) : ∀ p ∈ engineCommands t seq,
    Waits (exec p.1) t seq p.2 (turnOf t seq p.1) := by
  have plain {i : Instr} {e : State → Out} {k : MopWord → Bool} (he : exec i = e) (h : Waits e t seq k anyTurn) :
      Waits (exec i) t seq k (turnOf t seq i) := by
    subst he
    exact ⟨h.idle, fun s c o some bad _ => h.stops s c o some bad trivial⟩
  unfold engineCommands
  simp only [List.forall_mem_cons]
  refine ⟨?ntt, ?intt, ?autoCoefficient, ?autoEvaluation, ?autoIndex, ?extract, ?modup, ?moddown, ?rescale, ?hmul, ?pmul, ?add, ?sub, ?neg, ?cmul, ?vprog, ?vcvt, ?mxpModular, ?mxpClear, ?mxpExpand, ?packRaise, ?packLwe, nofun⟩
  case ntt => exact plain (exec_ntt t seq) (State.unary_waits ..)
  case intt => exact plain (exec_intt t seq) (State.unary_waits ..)
  case autoCoefficient => exact plain (exec_autoCoefficient t seq) (State.unary_waits ..)
  case autoEvaluation => exact plain (exec_autoEvaluation t seq) (execAutoEvaluation_waits ..)
  case autoIndex => exact plain (exec_autoIndex t seq) (waits_of_guarded _ fun _ => rfl)
  case extract => exact plain (exec_extract t seq) (State.unary_waits ..)
  case modup => exact plain (exec_modup t seq) (State.unary_waits ..)
  case moddown => exact plain (exec_moddown t seq) (State.unary_waits ..)
  case rescale => exact plain (exec_rescale t seq) (State.unary_waits ..)
  case hmul => exact plain (exec_hmul t seq) (State.unary_waits ..)
  case pmul => exact plain (exec_pmul t seq) (State.unary_waits ..)
  case add => exact plain (exec_add t seq) (State.unary_waits ..)
  case sub => exact plain (exec_sub t seq) (State.unary_waits ..)
  case neg => exact plain (exec_neg t seq) (State.unary_waits ..)
  case cmul => exact plain (exec_cmul t seq) (State.unary_waits ..)
  case vcvt => exact plain (exec_vcvt t seq) (waits_of_guarded _ fun _ => rfl)
  case mxpModular => exact plain (exec_mxpModular t seq) (waits_of_guarded _ fun _ => rfl)
  case mxpClear => exact plain (exec_mxpClear t seq) (waits_of_guarded _ fun _ => rfl)
  case mxpExpand => exact plain (exec_mxpExpand t seq) (waits_of_guarded _ fun _ => rfl)
  case packRaise => exact plain (exec_packRaise t seq) (State.packOp_waits ..)
  case packLwe => exact plain (exec_packLwe t seq) (State.packOp_waits ..)
  case vprog =>
    exact ⟨(execVprog_waits t seq).idle, fun s c o some bad turn => (execVprog_waits t seq).stops s c o some bad (turn rfl)⟩

/-- Settles O40: every engine command is guarded work on a ready macro-operation. -/
theorem engineCommandsWaitAndStop : Obligations.EngineCommandsWaitAndStop := by
  unfold Obligations.EngineCommandsWaitAndStop
  intro s t seq p hp
  have waits := engineCommands_wait t seq p hp
  refine ⟨waits.idle s, fun c o some bad turn => ⟨_, waits.stops s c o some bad turn, ?_⟩⟩
  obtain ⟨ctx, -⟩ := State.readyCtx_ctx some
  obtain ⟨rfl, rfl, -, -, mop, -⟩ := State.ctx_facts ctx
  have u := State.stopMop_stopsAtWord o mop
  exact ⟨u.marks, u.mop, u.mem, u.lines, u.vregs⟩

end Sys2Proof.Machine
end


section
/-! PROOFS. What a reader of a scratchpad gets after any bytes are stored anywhere: no poison and no write-combining entry
stands in between. -/
namespace Sys2Proof.Machine

/-- An address of a scratchpad. -/
def atScratch (a : Nat) : Prop := ∃ t o, home a = .scratch t o

theorem atScratch.bounds {a : Nat} (h : atScratch a) :
    0x20000000000 ≤ a ∧ a < 0x20068000000 ∧ a % 0x800000 < 0x600000 := by
  obtain ⟨t, o, h⟩ := h
  unfold home at h
  split at h
  · cases h
  · split at h
    · cases h
    · split at h
      · next r =>
        dsimp only at h
        split at h
        · next q => exact ⟨r.1, r.2, q⟩
        · cases h
      · split at h <;> cases h

theorem atScratch_of_bounds {a : Nat} (h1 : 0x20000000000 ≤ a) (h2 : a < 0x20068000000) (h3 : a % 0x800000 < 0x600000) :
    home a = .scratch ((a - 0x20000000000) / 0x800000) (a % 0x800000) := by
  unfold home
  rw [if_neg (by omega), if_neg (by omega), if_pos ⟨h1, h2⟩]
  dsimp only
  rw [if_pos h3]

theorem atScratch.stackAt {a : Nat} (h : atScratch a) : stackAt a = none := by
  obtain ⟨t, o, h⟩ := h
  simp only [Machine.stackAt, h]

theorem atScratch.line {a : Nat} (h : atScratch a) : atScratch (lineOf a) := by
  obtain ⟨h1, h2, h3⟩ := h.bounds
  have e : lineOf a = a / 64 * 64 := rfl
  exact ⟨_, _, atScratch_of_bounds (by omega) (by omega) (by omega)⟩

theorem atScratch.readByte {a : Nat} (h : atScratch a) (s : State) : s.readByte a = Memory.get s.mem a := by
  obtain ⟨t, o, h⟩ := h
  simp only [State.readByte, h]

/-- A line whose home is of another kind is not the line of a scratchpad byte. -/
theorem atScratch.line_ne {a l : Nat} (h : atScratch a) (hl : ∀ t o, home l ≠ .scratch t o) : lineOf a ≠ l := by
  rintro rfl
  obtain ⟨t, o, e⟩ := h.line
  exact hl t o e

/-- A write-back of an entry of a stack touches no scratchpad. -/
theorem State.writeBack_get {s : State} {k k' x : Nat} {e : WcbEntry} (hm : Memory.wf s.mem = true) (hl : e.line % 64 = 0)
    (hd : e.data.length = 64) (hh : home e.line = .hbm k' x) {b : Nat} (hb : atScratch b) :
    Memory.get (s.writeBack k e).mem b = Memory.get s.mem b := by
  have apart : lineOf b ≠ e.line := hb.line_ne (fun t o h => by rw [hh] at h; cases h)
  unfold State.writeBack
  dsimp only
  split
  next full =>
    show Memory.get (Memory.putAll s.mem e.line e.data) b = _
    rw [get_line_putAll hm hl hd full, if_neg fun h => apart h.1]
  next =>
    split
    next => simp
    next =>
      simp only [State.count_mem, State.mapStack_mem]
      rw [get_line_putMasked hm hl hd, if_neg fun h => apart h.1]

/-- Table MS.3 at a scratchpad byte: the bytes of its own line that the mask names, and nothing of another line. -/
theorem State.acceptLine_get {s : State} {line mask : Nat} {data : List Byte} (hw : s.wcbOk = true) (hm : Memory.wf s.mem = true)
    (hl : line % 64 = 0) (hd : data.length = 64) {b : Nat} (hb : atScratch b) :
    Memory.get (s.acceptLine line mask data).mem b =
      if lineOf b = line ∧ bit mask (b % 64) = true then data.getD (b % 64) 0 else Memory.get s.mem b := by
  unfold State.acceptLine
  by_cases h0 : mask = 0
  · rw [if_pos h0, h0, if_neg fun h => by rw [bit_zero] at h; cases h.2]
  rw [if_neg h0]
  cases hh : home line with
  | hbm k x =>
    have apart : lineOf b ≠ line := hb.line_ne (fun t o h => by rw [hh] at h; cases h)
    rw [if_neg fun h => apart h.1]
    dsimp only
    split
    next full =>
      show Memory.get (Memory.putAll s.mem line data) b = _
      rw [get_line_putAll hm hl hd full, if_neg fun h => apart h.1]
    next =>
      split
      next e found =>
        have line_e : e.line = line := (entryOf_line found).2
        split
        · rw [State.writeBack_get (k' := k) (x := x) (by simpa using hm) (by rw [line_e]; exact hl) (by simp [mergeBytes])
            (by rw [line_e]; exact hh) hb]
          simp
        · simp
      next =>
        simp only [State.mapStack_mem]
        split
        next old rest filled =>
          split
          · have mem_old : old ∈ (s.stack k).wcb := by
              have e : (s.count .wcbMerges k 1).stack k = s.stack k := by simp [State.stack]
              rw [← e, filled]
              exact List.mem_cons_self ..
            obtain ⟨at_k, aligned, len⟩ := entry_ok hw mem_old
            obtain ⟨x, home_old⟩ : ∃ x, home old.line = .hbm k x := by
              unfold stackAt at at_k
              split at at_k
              · next y e => cases at_k; exact ⟨y, e⟩
              · cases at_k
            rw [State.count_mem, State.writeBack_get (by simpa using hm) aligned len home_old hb, State.count_mem]
          · simp
        next => simp
  | near d x =>
    have apart : lineOf b ≠ line := hb.line_ne (fun t o h => by rw [hh] at h; cases h)
    rw [if_neg fun h => apart h.1]
    dsimp only
    split
    next full =>
      show Memory.get (Memory.putAll s.mem line data) b = _
      rw [get_line_putAll hm hl hd full, if_neg fun h => apart h.1]
    next =>
      split
      · simp
      · show Memory.get (Memory.putMasked s.mem line mask 0 data) b = _
        rw [get_line_putMasked hm hl hd, if_neg fun h => apart h.1]
  | scratch t off => exact get_line_putMasked hm hl hd b
  | host => exact get_line_putMasked hm hl hd b
  | unmapped =>
    have apart : lineOf b ≠ line := hb.line_ne (fun t o h => by rw [hh] at h; cases h)
    rw [if_neg fun h => apart h.1]

theorem State.acceptLines_get (L : List Nat) (a : Nat) (bs : List Byte) {b : Nat} (hb : atScratch b)
    (hL : ∀ l ∈ L, l % 64 = 0) : ∀ s : State, s.wcbOk = true → Memory.wf s.mem = true →
    let u := L.foldl (fun s l => s.acceptLine l (lineMask l a bs.length) (lineData l a bs)) s
    (u.wcbOk = true ∧ Memory.wf u.mem = true) ∧
      Memory.get u.mem b = if lineOf b ∈ L ∧ a ≤ b ∧ b < a + bs.length then bs.getD (b - a) 0 else Memory.get s.mem b := by
  induction L with
  | nil => exact fun s hw hm => ⟨⟨hw, hm⟩, by simp⟩
  | cons l L ih =>
    intro s hw hm
    have aligned : l % 64 = 0 := hL l (List.mem_cons_self ..)
    obtain ⟨hw', hm'⟩ := State.acceptLine_ok (data := lineData l a bs) aligned (lineMask_lt l a bs.length) hw hm
    obtain ⟨ok, get⟩ := ih (fun l hl => hL l (List.mem_cons_of_mem _ hl)) _ hw' hm'
    refine ⟨ok, ?_⟩
    rw [List.foldl_cons, get, State.acceptLine_get hw hm aligned (by simp [lineData]) hb, bit_lineMask _ _ _ _ (Nat.mod_lt _ (by decide))]
    by_cases here : lineOf b = l
    · have at_l : l + b % 64 = b := by have := (line_facts b l aligned).1 here; omega
      by_cases inside : a ≤ b ∧ b < a + bs.length
      · rw [if_pos (show lineOf b ∈ l :: L ∧ _ from ⟨by simp [here], inside⟩)]
        split
        · rfl
        · rw [if_pos ⟨here, decide_eq_true (by rw [at_l]; exact inside)⟩, lineData_getD _ _ _ _ (Nat.mod_lt _ (by decide)) (by omega),
            at_l]
      · rw [if_neg fun h => inside h.2, if_neg fun h => by have := of_decide_eq_true h.2; rw [at_l] at this; exact inside this,
          if_neg fun h => inside h.2]
    · rw [if_neg (show ¬(lineOf b = l ∧ _) from fun h => here h.1)]
      simp only [List.mem_cons, here, false_or]

/-- Stored bytes at a scratchpad byte, with what is to be known for the next store. -/
theorem State.store_get {s : State} (a : Nat) (bs : List Byte) (hw : s.wcbOk = true) (hm : Memory.wf s.mem = true) {b : Nat}
    (hb : atScratch b) : ((s.store a bs).wcbOk = true ∧ Memory.wf (s.store a bs).mem = true) ∧
      (s.store a bs).readByte b = if a ≤ b ∧ b < a + bs.length then bs.getD (b - a) 0 else s.readByte b := by
  obtain ⟨ok, get⟩ := State.acceptLines_get (linesOf a bs.length) a bs hb (fun l hl => (linesOf_facts hl).1) s hw hm
  refine ⟨ok, ?_⟩
  rw [hb.readByte, hb.readByte, State.store, get]
  by_cases inside : a ≤ b ∧ b < a + bs.length
  · rw [if_pos ⟨linesOf_mem inside.1 inside.2, inside⟩, if_pos inside]
  · rw [if_neg fun h => inside h.2, if_neg inside]

end Sys2Proof.Machine
end


section
/-! PROOFS. O41: poison passes from the inputs of an engine command to its outputs, is reported once, and leaves zeros. -/
namespace Sys2Proof.Machine

/-! ## Flags -/

theorem foldl_or (l : List Nat) (a : Nat) : l.foldl (fun a b => a ||| b) a = a ||| orFlags l := by
  unfold orFlags
  induction l generalizing a with
  | nil => exact (Nat.or_zero a).symm
  | cons x l ih => rw [List.foldl_cons, List.foldl_cons, ih, ih (0 ||| x), Nat.zero_or, Nat.or_assoc]

@[simp] theorem orFlags_cons (x : Nat) (l : List Nat) : orFlags (x :: l) = x ||| orFlags l := by
  unfold orFlags
  rw [List.foldl_cons, Nat.zero_or, foldl_or]
  rfl

/-- A flag among those joined adds nothing. -/
theorem or_orFlags {x : Nat} {l : List Nat} (h : x ∈ l) : x ||| orFlags l = orFlags l := by
  induction l with
  | nil => cases h
  | cons y l ih =>
    rw [orFlags_cons]
    rcases List.mem_cons.1 h with rfl | h
    · rw [← Nat.or_assoc, Nat.or_self]
    · rw [← Nat.or_assoc, Nat.or_comm x y, Nat.or_assoc, ih h]

theorem or_or_right {x a : Nat} (n : Nat) (h : x ||| a = a) : x ||| (n ||| a) = n ||| a := by
  rw [← Nat.or_assoc, Nat.or_comm x n, Nat.or_assoc, h]

theorem or_or_self (n a : Nat) : n ||| (n ||| a) = n ||| a := by
  rw [← Nat.or_assoc, Nat.or_self]

/-- The flags that an output batch inherits (R57). -/
def inheritedFlags (ins : List (Nat × RecIn)) : Nat := orFlags ((ins.map (·.2)).map (fun x => x.r.flags))

/-- The flags of a batch are its new ones and those it inherits, and a flagged batch has no data. -/
theorem State.batchOut_flags (s : State) (c : Ctx) (v : View) (b : Nat) (rule : List (Nat × RecIn) → RecIn → RecRule)
    (extra : Option RecIn → Nat) (data : RecIn → PSet → List ElemOut) :
    let o := s.batchOut c v b rule extra data
    o.flags = o.newFlags ||| inheritedFlags (s.inputs c b) ∧ (o.flags ≠ 0 → o.data = []) ∧ o.b = b := by
  unfold State.batchOut
  dsimp only
  split
  next => exact ⟨rfl, fun _ => rfl, rfl⟩
  next => exact ⟨rfl, fun poisoned => if_neg poisoned, rfl⟩

theorem State.batchOut_passes (s : State) (c : Ctx) (v : View) (b : Nat) (rule : List (Nat × RecIn) → RecIn → RecRule)
    (extra : Option RecIn → Nat) (data : RecIn → PSet → List ElemOut) :
    let o := s.batchOut c v b rule extra data
    (∀ x ∈ s.inputs c b, x.2.r.flags ||| o.flags = o.flags) ∧ o.newFlags ||| o.flags = o.flags ∧ (o.flags ≠ 0 → o.data = []) := by
  obtain ⟨flags, data, -⟩ := s.batchOut_flags c v b rule extra data
  dsimp only
  rw [flags]
  refine ⟨fun x hx => or_or_right _ (or_orFlags ?_), or_or_self _ _, flags ▸ data⟩
  exact List.mem_map_of_mem (f := fun x : RecIn => x.r.flags) (List.mem_map_of_mem (f := fun x : Nat × RecIn => x.2) hx)

/-! ## What writing outputs leaves of the window -/

theorem Part.stored_same {s u : State} (h : Evolves Part.stored.contains s u) (p : Part) (hp : Part.stored.contains p = false) :
    p.same s u := h.kept p hp

theorem State.store_evolves (s : State) (a : Nat) (bs : List Byte) : Evolves Part.stored.contains s (s.store a bs) :=
  have : Stores Part.stored.contains := stores_of rfl
  (Evolves.refl _ s).store

/-- A state whose sequencers are the same has the same macro-operations. -/
theorem State.mopOf_of_sequencer {s u : State} (h : ∀ x, (u.tile x).sequencer = (s.tile x).sequencer) (t seq : Nat) :
    u.mopOf t seq = s.mopOf t seq := by
  have window : (u.tile t).window = (s.tile t).window := congrArg (fun q => q.2.2.2.1) (h t)
  rw [State.mopOf, State.mopOf, window]

@[simp] theorem State.store_mopOf (s : State) (a : Nat) (bs : List Byte) (t seq : Nat) :
    (s.store a bs).mopOf t seq = s.mopOf t seq :=
  State.mopOf_of_sequencer (Part.stored_same (s.store_evolves a bs) .tWindow rfl) t seq

@[simp] theorem State.writeElem_mopOf (s : State) (v : View) (ix : List Nat) (x t seq : Nat) :
    (s.writeElem v ix x).mopOf t seq = s.mopOf t seq := by
  unfold State.writeElem
  split
  next => exact State.mopOf_mapTile _ _ _ _ _ rfl
  next =>
    dsimp only
    split <;> exact State.store_mopOf ..

@[simp] theorem State.writeOut_mopOf (s : State) (v : View) (l : List ElemOut) (t seq : Nat) :
    (s.writeOut v l).mopOf t seq = s.mopOf t seq := by
  refine List.foldl_keeps (g := fun s : State => s.mopOf t seq) (fun s p => ?_) l s
  split
  · exact State.writeElem_mopOf ..
  · rfl

@[simp] theorem State.writeRecord_mopOf (s : State) (v : View) (b : Nat) (r : Rec) (t seq : Nat) :
    (s.writeRecord v b r).mopOf t seq = s.mopOf t seq :=
  List.foldl_keeps (g := fun s : State => s.mopOf t seq) (fun s _ => State.store_mopOf s _ _ t seq) _ s

/-! ## The effect taken -/

/-- The macro-operation `m` is in the window, but for its cycle 0. -/
def State.hasMop (s : State) (t seq : Nat) (m : Mop) : Prop := ∃ x, s.mopOf t seq = some { m with start := x }

theorem State.hasMop_of_mopOf {s : State} {t seq : Nat} {m : Mop} (h : s.mopOf t seq = some m) : s.hasMop t seq m := ⟨m.start, h⟩

theorem State.hasMop_mapTile {s : State} {t seq : Nat} {m : Mop} (t' : Nat) {f : Tile → Tile} (hf : ∀ u, (f u).window = u.window)
    (h : s.hasMop t seq m) : (s.mapTile t' f).hasMop t seq m := by
  obtain ⟨x, h⟩ := h
  exact ⟨x, by rw [State.mopOf_mapTile _ _ _ _ _ (hf _), h]⟩

/-- A start, set by the sequence number. -/
def Mop.setStart (x : Option Nat) (m : Mop) : Mop := { m with start := x }

theorem State.hasMop_setStart {s : State} {t seq : Nat} {m : Mop} (t' seq' : Nat) (x : Option Nat) (h : s.hasMop t seq m) :
    (s.mapMop t' seq' (Mop.setStart x)).hasMop t seq m := by
  obtain ⟨y, h⟩ := h
  by_cases here : t = t' ∧ seq = seq'
  · obtain ⟨rfl, rfl⟩ := here
    exact ⟨x, (State.mopOf_mapMop (Mop.setStart x) (fun _ => rfl) h).trans rfl⟩
  · refine ⟨y, ?_⟩
    rw [State.mopOf_mapMop_other s t' t seq' seq (Mop.setStart x) (fun _ => rfl) (by by_contra n; push Not at n; exact here n), h]

theorem State.hasMop_setEngines {s : State} {t seq : Nat} {m : Mop} (t' : Nat) (p : State → Nat → Bool) (x : Option Nat)
    (es : List Nat) (h : s.hasMop t seq m) :
    (es.foldl (fun s e => if p s e = true then s else s.setEngine t' e x) s).hasMop t seq m := by
  induction es generalizing s with
  | nil => exact h
  | cons e es ih =>
    refine ih ?_
    dsimp only
    split
    · exact h
    · exact State.hasMop_mapTile t' (fun _ => rfl) h

/-- The signal of the first unit to the next stage may set a start, and nothing else of a macro-operation. -/
theorem State.unitDone_hasMop {s : State} (c : Ctx) (cycle : Nat) {t seq : Nat} {m : Mop} (h : s.hasMop t seq m) :
    (s.unitDone c cycle).hasMop t seq m := by
  unfold State.unitDone
  split
  next => exact h
  next ch _ =>
    extract_lets st u
    have units : u.hasMop t seq m := State.hasMop_mapTile c.t (fun _ => rfl) h
    clear_value u
    split
    next m' _ =>
      split
      next =>
        extract_lets x w
        have started : w.hasMop t seq m := State.hasMop_setStart c.t m'.seq (some x) units
        clear_value w
        split
        next i _ => exact State.hasMop_setEngines c.t _ (some (x + i)) _ started
        next => exact started
      next => exact units
    next => exact units

/-- The effect is taken. -/
def Mop.setDone (m : Mop) : Mop := { m with done := true }

theorem State.markDone_hasMop {s : State} {c : Ctx} {m : Mop} (h : s.mopOf c.t c.mop.seq = some m) :
    (s.markDone c).hasMop c.t c.mop.seq m.setDone := by
  have marked := State.hasMop_of_mopOf (State.mopOf_mapMop Mop.setDone (fun _ => rfl) h)
  unfold State.markDone
  dsimp only
  split
  next => exact State.unitDone_hasMop c _ marked
  next => exact marked

/-- The data and records of the output batches, written. -/
def State.writeOuts (v : View) (outs : List BatchOut) (s : State) : State :=
  let s := outs.foldl (fun s o => s.writeOut v (if o.flags = 0 then o.data else zeroOut v o.b)) s
  if v.desc.recorded then outs.foldl (fun s o => s.writeRecord v o.b { o.record with flags := o.flags }) s else s

/-- The POISON event kept for retirement where a flag is new (R71). -/
def State.keepPoison (c : Ctx) (new : Nat) (s : State) : State :=
  if new = 0 then s
  else s.mapMop c.t c.mop.seq (fun m => { m with events := m.events ++ [c.poisonEvent c.t c.mop.seq new 1] })

theorem State.commitOut_eq (s : State) (c : Ctx) (v : View) (outs : List BatchOut) :
    s.commitOut c v outs = ((s.writeOuts v outs).keepPoison c (orFlags (outs.map (·.newFlags)))).markDone c := rfl

theorem State.foldl_mopOf {α : Type} {t seq : Nat} {f : State → α → State} (h : ∀ s a, (f s a).mopOf t seq = s.mopOf t seq)
    (l : List α) (s : State) : (l.foldl f s).mopOf t seq = s.mopOf t seq :=
  List.foldl_keeps (g := fun s : State => s.mopOf t seq) h l s

@[simp] theorem State.writeOuts_mopOf (s : State) (v : View) (outs : List BatchOut) (t seq : Nat) :
    (s.writeOuts v outs).mopOf t seq = s.mopOf t seq := by
  unfold State.writeOuts
  dsimp only
  split
  · rw [State.foldl_mopOf fun u o => State.writeRecord_mopOf .., State.foldl_mopOf fun u o => State.writeOut_mopOf ..]
  · exact State.foldl_mopOf (fun u o => State.writeOut_mopOf ..) outs s

/-- Events kept for retirement. -/
def Mop.noted (es : List Err) (m : Mop) : Mop := { m with events := m.events ++ es }

theorem State.keepPoison_mopOf {s : State} {c : Ctx} {m : Mop} (new : Nat) (h : s.mopOf c.t c.mop.seq = some m) :
    (s.keepPoison c new).mopOf c.t c.mop.seq = some (m.noted (if new = 0 then [] else [c.poisonEvent c.t c.mop.seq new 1])) := by
  unfold State.keepPoison
  by_cases none : new = 0
  · rw [if_pos none, if_pos none, h, Mop.noted, List.append_nil]
  · rw [if_neg none, if_neg none]
    exact State.mopOf_mapMop (Mop.noted [c.poisonEvent c.t c.mop.seq new 1]) (fun _ => rfl) h

/-- The macro-operation after its outputs are committed: its effect taken, with one POISON event where a flag is new. -/
theorem State.commitOut_hasMop {s : State} {c : Ctx} {m : Mop} (v : View) (outs : List BatchOut) (h : s.mopOf c.t c.mop.seq = some m) :
    (s.commitOut c v outs).hasMop c.t c.mop.seq (Mop.setDone (m.noted (if orFlags (outs.map (·.newFlags)) = 0 then []
      else [c.poisonEvent c.t c.mop.seq (orFlags (outs.map (·.newFlags))) 1]))) := by
  rw [State.commitOut_eq]
  exact State.markDone_hasMop (State.keepPoison_mopOf _ (by rw [State.writeOuts_mopOf, h]))

/-! ## Zeros in a poisoned batch -/

/-- What the effect's last steps do beyond the writes does not reach memory. -/
theorem State.commitOut_readByte (s : State) (c : Ctx) (v : View) (outs : List BatchOut) (a : Nat) :
    (s.commitOut c v outs).readByte a = (s.writeOuts v outs).readByte a := by
  have : MayTWindow [Part.tWindow].contains := ⟨rfl⟩
  have evolves : Evolves [Part.tWindow].contains (s.writeOuts v outs) (s.commitOut c v outs) := by
    rw [State.commitOut_eq]
    refine Evolves.markDone ?_
    unfold State.keepPoison
    split
    · exact Evolves.refl _ _
    · exact (Evolves.refl _ _).mapMop
  exact State.readByte_of_same (evolves.kept .mem rfl) (evolves.kept .hbm rfl) a

/-- Memory in the order that the store lemmas ask for. -/
def State.canonical (s : State) : Prop := s.wcbOk = true ∧ Memory.wf s.mem = true

theorem leBytes_zero (n : Nat) : leBytes n 0 = List.replicate n 0 := by
  induction n with
  | zero => rfl
  | succ n ih =>
    rw [leBytes, List.replicate_succ, ← ih]
    rfl

/-- Zeros written for 32-bit words leave a scratchpad byte as it was or 0. -/
theorem State.writeElem_zero {s : State} {v : View} (ix : List Nat) (ok : s.canonical) (hb : v.buf = none)
    (hw : v.desc.elemBits = 32) {b : Nat} (at_b : atScratch b) :
    (s.writeElem v ix 0).canonical ∧
      (s.writeElem v ix 0).readByte b = if v.addr ix ≤ b ∧ b < v.addr ix + 4 then 0 else s.readByte b := by
  have eq : s.writeElem v ix 0 = s.store (v.addr ix) (leBytes 4 0) := by
    unfold State.writeElem
    rw [hb, hw]
    rfl
  rw [eq]
  obtain ⟨ok', read⟩ := State.store_get (v.addr ix) (leBytes 4 0) ok.1 ok.2 at_b
  refine ⟨ok', ?_⟩
  rw [read, leBytes_length, leBytes_zero]
  split
  · exact List.getD_replicate _ (by omega)
  · rfl

/-- After zeros are written a scratchpad byte that one of the words covers is 0, and one that was 0 stays so. -/
theorem State.writeOut_zero {v : View} (hb : v.buf = none) (hw : v.desc.elemBits = 32) {b : Nat} (at_b : atScratch b)
    (l : List ElemOut) (zeros : ∀ p ∈ l, p.2 = 0) : ∀ s : State, s.canonical →
    (s.writeOut v l).canonical ∧
      ((s.readByte b = 0 ∨ ∃ p ∈ l, v.holds p.1 = true ∧ v.addr p.1 ≤ b ∧ b < v.addr p.1 + 4) →
        (s.writeOut v l).readByte b = 0) := by
  induction l with
  | nil => exact fun s ok => ⟨ok, fun h => h.resolve_right (by simp)⟩
  | cons p l ih =>
    intro s ok
    obtain ⟨ix, x⟩ := p
    obtain rfl : x = 0 := zeros _ (List.mem_cons_self ..)
    have rest := ih fun q hq => zeros q (List.mem_cons_of_mem _ hq)
    change (State.writeOut v l (if v.holds ix = true then s.writeElem v ix 0 else s)).canonical ∧
      (_ → (State.writeOut v l (if v.holds ix = true then s.writeElem v ix 0 else s)).readByte b = 0)
    by_cases held : v.holds ix = true
    · rw [if_pos held]
      obtain ⟨ok', read⟩ := State.writeElem_zero ix ok hb hw at_b
      refine ⟨(rest _ ok').1, fun h => (rest _ ok').2 ?_⟩
      by_cases covered : v.addr ix ≤ b ∧ b < v.addr ix + 4
      · exact .inl (by rw [read, if_pos covered])
      · rcases h with h | ⟨q, hq, hold, cover⟩
        · exact .inl (by rw [read, if_neg covered, h])
        · rcases List.mem_cons.1 hq with rfl | hq
          · exact absurd cover covered
          · exact .inr ⟨q, hq, hold, cover⟩
    · rw [if_neg held]
      refine ⟨(rest _ ok).1, fun h => (rest _ ok).2 (h.imp_right ?_)⟩
      rintro ⟨q, hq, hold, cover⟩
      rcases List.mem_cons.1 hq with rfl | hq
      · exact absurd hold held
      · exact ⟨q, hq, hold, cover⟩

theorem Rec.bytes_length (r : Rec) (data : Nat) (layout : List Byte) : (r.bytes data layout).length = 64 := by
  simp only [Rec.bytes, withCrc, List.length_append, leBytes_length, slice_length]

/-- Records written leave a scratchpad byte outside their copies. -/
theorem State.writeRecord_outside {v : View} (k : Nat) (r : Rec) {b : Nat} (at_b : atScratch b)
    (out : ∀ j ∈ v.recordShards k, ¬ (v.recordIn k j ≤ b ∧ b < v.recordIn k j + 64)) {s : State} (ok : s.canonical) :
    (s.writeRecord v k r).readByte b = s.readByte b := by
  unfold State.writeRecord
  generalize v.recordShards k = js at out
  induction js generalizing s with
  | nil => rfl
  | cons j js ih =>
    obtain ⟨ok', read⟩ := State.store_get (v.recordIn k j) (r.bytes (v.recordData k j) v.layout) ok.1 ok.2 at_b
    rw [Rec.bytes_length] at read
    rw [List.foldl_cons, ih ok' fun j hj => out j (List.mem_cons_of_mem _ hj), read, if_neg (out j (List.mem_cons_self ..))]

theorem mem_zeroOut {v : View} {b : Nat} {ix : List Nat} (h : ix ∈ (List.range v.desc.count).map v.desc.unlinear)
    (batch : inBatch v.desc b ix = true) (held : v.holds ix = true) : (ix, 0) ∈ zeroOut v b :=
  List.mem_filterMap.2 ⟨ix, h, by rw [batch, held]; rfl⟩

theorem zeroOut_zero {v : View} {b : Nat} {p : ElemOut} (h : p ∈ zeroOut v b) : p.2 = 0 := by
  obtain ⟨ix, -, e⟩ := List.mem_filterMap.1 h
  split at e
  · cases e
    rfl
  · cases e

/-- Settles O41: a batch's flags join its inputs' and its own, the event is kept where one is new, and a poisoned batch is
zeros. -/
theorem poisonTravels : Obligations.PoisonTravels := by
  unfold Obligations.PoisonTravels
  intro s c v rule data found
  refine ⟨fun b => s.batchOut_passes .., ?reported, ?zeros⟩
  case reported =>
    obtain ⟨x, after⟩ := State.commitOut_hasMop v (v.outBatches.map fun b => s.batchOut c v b rule noExtra (data s v b)) found
    rw [List.map_map] at after
    exact ⟨_, after, rfl, rfl⟩
  case zeros =>
    intro b wcb mem one buf words poisoned ix listed batch held k hk place apart
    have out : s.engineEffect c v rule data = s.commitOut c v [s.batchOut c v b rule noExtra (data s v b)] := by
      rw [State.engineEffect, one]
      rfl
    rw [out, State.commitOut_readByte]
    obtain ⟨-, -, batch_b⟩ := s.batchOut_flags c v b rule noExtra (data s v b)
    generalize s.batchOut c v b rule noExtra (data s v b) = o at poisoned batch_b
    subst batch_b
    have zeros := State.writeOut_zero buf words place (zeroOut v o.b) (fun p hp => zeroOut_zero hp) s ⟨wcb, mem⟩
    have written := zeros.2 (.inr ⟨_, mem_zeroOut listed batch held, held, Nat.le_add_right .., Nat.add_lt_add_left hk _⟩)
    simp only [State.writeOuts, List.foldl_cons, List.foldl_nil, if_neg poisoned]
    split
    next recorded => rw [State.writeRecord_outside o.b _ place (apart recorded) zeros.1, written]
    next => exact written

end Sys2Proof.Machine
end


section
/-! PROOFS. O39: the commands of the NTE, the AUE, the BCE and the stream form of the VE complete with their records and
words. -/
namespace Sys2Proof.Machine

theorem State.withReady_workable {s : State} {t seq : Nat} {k : MopWord → Bool} {c : Ctx} (h : s.workable t seq k c)
    (f : Ctx → State → State) : (s.withReady t seq k fun c => s.guarded c (f c)) = .next (f c s) := by
  rw [State.withReady_some _ h.1, State.guarded_sound _ h.2]

theorem State.typedOp_some (s : State) {c : Ctx} {v : View} (hv : c.view 2 = some v) (rule : List (Nat × RecIn) → RecIn → RecRule)
    (extra : Option RecIn → Nat) (data : State → View → Nat → RecIn → PSet → List ElemOut) :
    s.typedOp c rule extra data = s.commitOut c v (v.outBatches.map fun b => s.batchOut c v b rule extra (data s v b)) := by
  rw [State.typedOp, hv]

/-- A one-input command of a workable macro-operation commits its batches. -/
theorem State.unary_workable {s : State} {t seq : Nat} {k : MopWord → Bool} {c : Ctx} {a v : View} (h : s.workable t seq k c)
    (ha : c.view 0 = some a) (hv : c.view 2 = some v) (rule : Ctx → List (Nat × RecIn) → RecIn → RecRule)
    (extra : Ctx → Option RecIn → Nat) (data : Ctx → View → State → View → Nat → RecIn → PSet → List ElemOut) :
    s.unary t seq k rule extra data =
      .next (s.commitOut c v (v.outBatches.map fun b => s.batchOut c v b (rule c) (extra c) (data c a s v b))) := by
  have work := State.withReady_workable h (fun c s =>
    match c.view 0 with
    | some v => s.typedOp c (rule c) (extra c) (data c v)
    | none => s.markDone c)
  rw [State.unary]
  refine work.trans ?_
  rw [ha]
  dsimp only
  rw [State.typedOp_some s hv]

theorem State.workable_mop {s : State} {t seq : Nat} {k : MopWord → Bool} {c : Ctx} (h : s.workable t seq k c) :
    s.mopOf t seq = some c.mop := by
  obtain ⟨ctx, -⟩ := State.readyCtx_ctx h.1
  obtain ⟨-, -, -, -, mop, -⟩ := State.ctx_facts ctx
  exact mop

/-- Outside a chain, and in every chain but FC4's, AUTO in evaluation form is a one-input command. -/
theorem execAutoEvaluation_alone {s : State} {t seq : Nat} {m : Mop} (h : s.mopOf t seq = some m) (hc : m.word.chain ≠ 4) :
    execAutoEvaluation t seq s =
      s.unary t seq (isAuto 1) (fun _ _ => keepRule Fam.auto) (fun _ => noExtra) autoEvalData := by
  rw [execAutoEvaluation, h]
  exact if_neg hc

/-- As the stage of an FC4 it adds into the accumulator. -/
theorem execAutoEvaluation_fc4 {s : State} {t seq : Nat} {c : Ctx} {a v : View} (h : s.workable t seq (isAuto 1) c)
    (hc : c.mop.word.chain = 4) (ha : c.view 0 = some a) (hv : c.view 2 = some v) :
    execAutoEvaluation t seq s = .next (s.commitOut c v (v.outBatches.map (s.autoAddBatch c a v))) := by
  rw [execAutoEvaluation, State.workable_mop h]
  refine (if_pos hc).trans ((State.withReady_workable h _).trans ?_)
  rw [ha, hv]

/-- AUTO by index tensor: the effect, unless a poisoned line of the index is one that a sound batch depends on. -/
theorem execAutoIndex_workable {s : State} {t seq : Nat} {c : Ctx} {a ix v : View} (h : s.workable t seq (isAuto 2) c)
    (ha : c.view 0 = some a) (hi : c.view 1 = some ix) (hv : c.view 2 = some v) :
    let outs := v.outBatches.map (fun b => s.batchOut c v b (fun _ => keepRule Fam.auto) noExtra (autoIndexData c a s v b))
    let index := (List.range ix.desc.count).map (fun i => ix.extent (ix.desc.unlinear i))
    execAutoIndex t seq s = .next (match s.badLine (if outs.any (fun o => o.flags == 0) then index else []) with
      | some l => s.stopMop c (.memLine l)
      | none => s.commitOut c v outs) := by
  refine (State.withReady_workable h _).trans ?_
  rw [ha, hi, hv] <;> rfl

theorem any_sound {l : List Nat} (f : Nat → BatchOut) :
    (l.map f).any (fun o => o.flags == 0) = true ↔ ∃ b ∈ l, (f b).flags = 0 := by
  simp [List.any_eq_true]

theorem State.badLine_nil (s : State) : s.badLine [] = none := rfl

/-- Settles O39: every command is its engine's effect on a workable macro-operation. -/
theorem polynomialCommandsComplete : Obligations.PolynomialCommandsComplete := by
  unfold Obligations.PolynomialCommandsComplete
  intro s t seq c a v ha hv
  have out : c.outDesc = v.desc := by rw [Ctx.outDesc, hv]
  refine ⟨?ntt, ?intt, ?autoCoefficient, ?autoEvaluation, ?autoAdd, ?autoIndex, ?extract, ?modup, ?moddown, ?rescale, ?hmul, ?pmul,
    ?add, ?sub, ?neg, ?cmul⟩
  case ntt => exact fun h => exec_ntt t seq ▸ State.unary_workable h ha hv ..
  case intt => exact fun h => exec_intt t seq ▸ State.unary_workable h ha hv ..
  case autoCoefficient => exact fun h => exec_autoCoefficient t seq ▸ State.unary_workable h ha hv ..
  case autoEvaluation =>
    intro h hc
    rw [exec_autoEvaluation, execAutoEvaluation_alone (State.workable_mop h) hc]
    exact State.unary_workable h ha hv ..
  case autoAdd =>
    intro h hc
    rw [exec_autoEvaluation]
    exact execAutoEvaluation_fc4 h hc ha hv
  case autoIndex =>
    intro ix hi h
    dsimp only
    have run := execAutoIndex_workable h ha hi hv
    dsimp only at run
    rw [exec_autoIndex, run]
    refine ⟨?effect, ?stop⟩
    case effect =>
      intro sound
      have none : s.badLine (if (v.outBatches.map fun b => s.batchOut c v b (fun _ => keepRule Fam.auto) noExtra
          (autoIndexData c a s v b)).any (fun o => o.flags == 0) then
          (List.range ix.desc.count).map (fun i => ix.extent (ix.desc.unlinear i)) else []) = none := by
        split
        next some =>
          obtain ⟨b, hb, flags⟩ := (any_sound _).1 some
          exact sound.resolve_right fun all => all b hb flags
        next => exact s.badLine_nil
      rw [none]
      rfl
    case stop =>
      intro l bad some
      rw [if_pos ((any_sound _).2 some), bad]
  case extract =>
    intro h
    rw [exec_extract, execExtract, State.unary_workable h ha hv, out]
    rfl
  case modup => exact fun h => exec_modup t seq ▸ State.unary_workable h ha hv ..
  case moddown => exact fun h => exec_moddown t seq ▸ State.unary_workable h ha hv ..
  case rescale => exact fun h => exec_rescale t seq ▸ State.unary_workable h ha hv ..
  case hmul => exact fun h => exec_hmul t seq ▸ State.unary_workable h ha hv ..
  case pmul => exact fun h => exec_pmul t seq ▸ State.unary_workable h ha hv ..
  case add => exact fun h => exec_add t seq ▸ State.unary_workable h ha hv ..
  case sub => exact fun h => exec_sub t seq ▸ State.unary_workable h ha hv ..
  case neg => exact fun h => exec_neg t seq ▸ State.unary_workable h ha hv ..
  case cmul => exact fun h => exec_cmul t seq ▸ State.unary_workable h ha hv ..

end Sys2Proof.Machine
end


section
/-! PROOFS. O45: PACK, VCVT and MXP complete with their records and words. -/
namespace Sys2Proof.Machine

/-! ## Counters -/

theorem Telemetry.get_set_self (m : Telemetry) (c : Ctr) (i v : Nat) : Telemetry.get (Telemetry.set m c i v) c i = v := by
  simp [Telemetry.get, Telemetry.set]

theorem Telemetry.get_set_other (m : Telemetry) {c c' : Ctr} {i i' : Nat} (v : Nat) (h : (c', i') ≠ (c, i)) :
    Telemetry.get (Telemetry.set m c i v) c' i' = Telemetry.get m c' i' := by
  have first : ((c, i) == (c', i')) = false := by simpa using h.symm
  rw [Telemetry.set, Telemetry.get, List.find?_cons, first]
  dsimp only
  exact Telemetry.get_filter_of_true fun n => by simpa using h

theorem State.count_get_self {c : Ctr} {i n : Nat} (s : State) (hn : n ≠ 0) :
    (s.count c i n).tele.get c i = sat c.width (s.tele.get c i + n) := by
  rw [State.count, if_neg hn]
  exact Telemetry.get_set_self ..

theorem State.count_get_other {c c' : Ctr} {i i' : Nat} (n : Nat) (s : State) (h : (c', i') ≠ (c, i)) :
    (s.count c i n).tele.get c' i' = s.tele.get c' i' := by
  rw [State.count]
  split
  · rfl
  · exact Telemetry.get_set_other _ _ h

/-! ## Rows and matrices of words -/

/-- The words of a row, with the elements that take them. -/
theorem mem_rowOut {v : View} {r c b : Nat} {ws : List Nat} {e : ElemOut} :
    e ∈ rowOut v r c b ws ↔ ∃ i, i < ws.length ∧ e.1 = v.desc.place i r c b ∧ e.2 = ws.getD i 0 := by
  unfold rowOut
  rw [List.mem_map]
  constructor
  · rintro ⟨⟨i, x⟩, hp, rfl⟩
    obtain ⟨k, hk, e⟩ := List.getElem_of_mem hp
    rw [List.getElem_zip, Prod.mk.injEq, List.getElem_range] at e
    have inside : k < ws.length := by rw [List.length_zip] at hk; omega
    obtain ⟨rfl, rfl⟩ := e
    exact ⟨k, inside, rfl, by rw [List.getD_eq_getElem _ _ inside]⟩
  · rintro ⟨i, hi, h1, h2⟩
    refine ⟨(i, ws.getD i 0), ?_, Prod.ext h1.symm h2.symm⟩
    rw [List.getD_eq_getElem _ _ hi]
    have hz : i < (List.zip (List.range ws.length) ws).length := by simpa using hi
    have e : (List.zip (List.range ws.length) ws)[i] = (i, ws[i]) := by simp
    exact e ▸ List.getElem_mem hz

theorem zipWith_map_range {f : Nat → Nat} (g : Nat → Nat → Nat) (n : Nat) :
    List.zipWith g ((List.range n).map f) (List.range n) = (List.range n).map fun i => g (f i) i := by
  rw [List.zipWith_map_left, List.zipWith_self]

/-- A PLAIN record is the one VCVT, CLEAR and EXPAND write. -/
theorem plainRec_record (pset level : Nat) (scale : Int) : (plainRec pset level scale).1 = plainOut pset level scale := rfl

/-! ## PACK -/

theorem State.packOp_workable {s : State} {t seq bit : Nat} {c : Ctx} {a v : View}
    (h : s.workable t seq (fun w => w.family == Fam.pack && w.packSrc == bit) c) (ha : c.view 0 = some a) (hv : c.view 2 = some v)
    (data : Ctx → View → State → View → Nat → RecIn → PSet → List ElemOut) :
    s.packOp t seq bit data = .next ((s.commitOut c v (v.outBatches.map fun b =>
      s.batchOut c v b (fun _ => packRule c) (packRange s c.w) (data c a s v b))).count .packCount t 1) := by
  rw [State.packOp, State.unary_workable h ha hv, h.1]
  dsimp only
  rw [if_pos (by rw [h.2]; rfl)]

/-! ## VCVT -/

/-- Output batch `b` of a VCVT. -/
def State.vcvtOut (s : State) (c : Ctx) (src v : View) (b : Nat) : BatchOut :=
  let fl := inputFlags c (s.inputs c b)
  let d := vcvtData c src s v b
  let new := if d.any (fun e => e.2.isNone) then fl.1 ||| Flag.nanSrc else fl.1
  { b := b, newFlags := new, flags := new ||| fl.2, record := (plainRec c.w.pset 0 (256 * c.w.frac)).1,
    data := d.map (fun e => (e.1, e.2.getD 0)) }

/-- NAN_SRC raised is counted for its tile. -/
def State.countNan (t : Nat) (outs : List BatchOut) (s : State) : State :=
  if outs.any (fun o => bit o.newFlags 3) then s.count .nanSrcRaised t 1 else s

@[simp] theorem State.countNan_mem (t : Nat) (outs : List BatchOut) (s : State) : (s.countNan t outs).mem = s.mem := by
  unfold State.countNan
  split <;> simp

theorem execVcvt_workable {s : State} {t seq : Nat} {c : Ctx} {a v : View} (h : s.workable t seq (fun w => w.family == Fam.vcvt) c)
    (ha : c.view 0 = some a) (hv : c.view 2 = some v) : execVcvt t seq s =
      .next (((s.count .vcvtCount c.t 1).countNan c.t (v.outBatches.map (s.vcvtOut c a v))).commitOut c v
        (v.outBatches.map (s.vcvtOut c a v))) := by
  refine (State.withReady_workable h _).trans ?_
  rw [ha, hv]
  rfl

/-- A word converted, and where NAN_SRC is not raised every conversion gives one. -/
theorem State.vcvtOut_data {s : State} {c : Ctx} {a v : View} {b : Nat} (sound : (s.vcvtOut c a v b).flags = 0) (e : ElemOut) :
    e ∈ (s.vcvtOut c a v b).data ↔ ∃ i ∈ vcvtPairs a v, inBatch v.desc b (v.desc.unlinear i.1) = true ∧
      e.1 = v.desc.unlinear i.1 ∧ toFixed c.job.mode.round (srcVal c.w.srcFmt (s.srcElem a c.w.srcFmt i.2)) c.w.frac
        (draw c.job.roundSeed c.t c.mop.seq i.1) = some e.2 := by
  have noNan : ∀ d ∈ vcvtData c a s v b, d.2.isNone ≠ true := by
    intro d hd nan
    have any : (vcvtData c a s v b).any (fun e => e.2.isNone) = true := List.any_eq_true.2 ⟨d, hd, nan⟩
    have flags : (s.vcvtOut c a v b).flags =
        ((inputFlags c (s.inputs c b)).1 ||| Flag.nanSrc) ||| (inputFlags c (s.inputs c b)).2 := by
      simp only [State.vcvtOut, any, if_true]
    have bit3 : Nat.testBit 0 3 = true := by
      rw [← sound, flags, Nat.testBit_or, Nat.testBit_or]
      simp [show Nat.testBit Flag.nanSrc 3 = true from rfl]
    cases bit3
  have data : (s.vcvtOut c a v b).data = (vcvtData c a s v b).map (fun e => (e.1, e.2.getD 0)) := rfl
  rw [data, List.mem_map]
  constructor
  · rintro ⟨d, hd, rfl⟩
    have some_d := noNan d hd
    obtain ⟨p, hp, ep⟩ := List.mem_filterMap.1 hd
    dsimp only at ep
    split at ep
    next batch =>
      cases ep
      dsimp only at some_d ⊢
      refine ⟨p, hp, batch, rfl, ?_⟩
      obtain ⟨x, hx⟩ := Option.ne_none_iff_exists'.1 fun none => some_d (Option.isNone_iff_eq_none.2 none)
      rw [hx]
      rfl
    next => cases ep
  · rintro ⟨p, hp, batch, h1, h2⟩
    refine ⟨(v.desc.unlinear p.1, some e.2), List.mem_filterMap.2 ⟨p, hp, ?_⟩, Prod.ext h1.symm rfl⟩
    dsimp only
    rw [if_pos batch, h2]

/-! ## MXP -/

/-- The partial sums that FC3's stage 2 leaves in the hold space; zeros where the product is poisoned. -/
def State.modularPartials (s : State) (c : Ctx) (x w side v : View) : List (List Nat) :=
  if c.w.chain = 3 ∧ c.w.cstage = 2 then
    match ((v.outBatches.map (s.mxModularOut c x w side v)).head?).bind (fun o => if o.flags = 0 then s.pset o.record.pset else none) with
    | some p => mxPartials c x w side s v p
    | none => List.replicate v.desc.matRows (List.replicate v.desc.matCols 0)
  else []

theorem execMxpModular_workable {s : State} {t seq : Nat} {c : Ctx} {x w v side : View}
    (h : s.workable t seq (fun m => m.family == Fam.mxp && m.mmode == 0) c) (h0 : c.view 0 = some x) (h1 : c.view 1 = some w)
    (h2 : c.view 2 = some v) (h3 : c.view 3 = some side) : execMxpModular t seq s =
      .next (((mxCount c v x.desc.matRows s).fc3Stage2 c (s.modularPartials c x w side v)).commitOut c v
        (v.outBatches.map (s.mxModularOut c x w side v))) := by
  refine (State.withReady_workable h _).trans ?_
  rw [h0, h1, h2, h3]
  rfl

@[simp] theorem mxCount_mem (c : Ctx) (v : View) (m : Nat) (s : State) : (mxCount c v m s).mem = s.mem := by
  simp [mxCount]

theorem execMxpClear_workable {s : State} {t seq : Nat} {c : Ctx} {x w v side : View}
    (h : s.workable t seq (fun m => m.family == Fam.mxp && m.mmode == 1) c) (h0 : c.view 0 = some x) (h1 : c.view 1 = some w)
    (h2 : c.view 2 = some v) (h3 : c.view 3 = some side) : execMxpClear t seq s =
      .next (((mxCount c v x.desc.matRows s).countNan c.t (v.outBatches.map (s.mxClearOut c x w side v))).commitOut c v
        (v.outBatches.map (s.mxClearOut c x w side v))) := by
  refine (State.withReady_workable h _).trans ?_
  rw [h0, h1, h2, h3]
  rfl

theorem execMxpExpand_workable {s : State} {t seq : Nat} {c : Ctx} {w v side : View}
    (h : s.workable t seq (fun m => m.family == Fam.mxp && m.mmode == 2) c) (h1 : c.view 1 = some w)
    (h2 : c.view 2 = some v) (h3 : c.view 3 = some side) : execMxpExpand t seq s =
      .next ((mxCount c v 0 s).commitOut c v (v.outBatches.map (s.mxExpandOut c w side v))) := by
  refine (State.withReady_workable h _).trans ?_
  rw [h1, h2, h3]

/-- One word for every row of the tile's own and every column (R224, R225). -/
theorem mem_mxModularData {c : Ctx} {x w side : View} {s : State} {v : View} {p : PSet} {e : ElemOut} :
    e ∈ mxModularData c x w side s v p ↔ ∃ k j, k ∈ v.matRowsIn ∧ j < v.desc.matCols ∧ e.1 = v.desc.matAt k j ∧ e.2 =
      (s.readWord (side.base + 8 * k) * total ((List.range x.desc.matRows).map fun i =>
        modWeight p.lwe.q (s.weight c w side k i x.desc.matRows v.desc.matRows) * s.readElem x (x.desc.matAt i j)) +
        (if j + 1 = v.desc.matCols then s.readWord (side.base + 8 * k + 4) else 0)) % p.lwe.q := by
  simp only [mxModularData, List.mem_flatMap, List.mem_map, List.mem_range, zipWith_map_range]
  constructor
  · rintro ⟨k, hk, j, hj, rfl⟩
    exact ⟨k, j, hk, hj, rfl, rfl⟩
  · rintro ⟨k, j, hk, hj, h1, h2⟩
    exact ⟨k, hk, j, hj, Prod.ext h1.symm h2.symm⟩

theorem State.mxModularOut_none {s : State} {c : Ctx} {x w side v : View} {b : Nat}
    (h : reference ((s.matInputs c 1 b).map (·.2)) = none) :
    (s.mxModularOut c x w side v b).data = [] ∧ (s.mxModularOut c x w side v b).record = noReference Dom.lwe v.desc := by
  unfold State.mxModularOut
  dsimp only
  rw [h]
  exact ⟨rfl, rfl⟩

theorem State.mxModularOut_some {s : State} {c : Ctx} {x w side v : View} {b : Nat} {ref : RecIn}
    (h : reference ((s.matInputs c 1 b).map (·.2)) = some ref) :
    (s.mxModularOut c x w side v b).record = (applyRule s ((s.matInputs c 1 b).map (·.2)) ref
      { keepRule Fam.mxp ref with scale := firstScales (s.matInputs c 1 b) [0, 1] }).1 ∧
    ((s.mxModularOut c x w side v b).flags = 0 → ∀ e, e ∈ (s.mxModularOut c x w side v b).data ↔
      ∃ p, s.pset ref.r.pset = some p ∧ e ∈ mxModularData c x w side s v p ∧ inBatch v.desc b e.1 = true) := by
  unfold State.mxModularOut
  dsimp only
  rw [h]
  refine ⟨rfl, fun sound e => ?_⟩
  dsimp only at sound ⊢
  rw [if_pos sound]
  cases set : s.pset ref.r.pset with
  | none => simp
  | some p => simp [List.mem_filter]

theorem State.mxClearOut_data {s : State} {c : Ctx} {x w side v : View} {b : Nat} (e : ElemOut) :
    e ∈ (s.mxClearOut c x w side v b).data ↔ ∃ k j, k ∈ v.matRowsIn ∧ j < v.desc.matCols ∧
      inBatch v.desc b (v.desc.matAt k j) = true ∧ e.1 = v.desc.matAt k j ∧ e.2 =
      (mxClearWord c side s (mxAccum c x w side s k j x.desc.matRows v.desc.matRows) k (k * v.desc.matCols + j)).1 := by
  simp only [State.mxClearOut, mxClearData, List.mem_map, List.mem_filter, List.mem_flatMap, List.mem_range]
  constructor
  · rintro ⟨d, ⟨⟨k, hk, j, hj, rfl⟩, batch⟩, rfl⟩
    exact ⟨k, j, hk, hj, batch, rfl, rfl⟩
  · rintro ⟨k, j, hk, hj, batch, h1, h2⟩
    exact ⟨_, ⟨⟨k, hk, j, hj, rfl⟩, batch⟩, Prod.ext h1.symm h2.symm⟩

theorem mem_mxExpandData {c : Ctx} {w side : View} {s : State} {v : View} {p : PSet} {e : ElemOut} :
    e ∈ mxExpandData c w side s v p ↔ ∃ r i, r < c.w.mxRows ∧ v.holdsRole Role.row r = true ∧ i < p.n ∧
      e.1 = v.desc.place i r 0 0 ∧
      e.2 = modWeight (p.q (p.rowIndex (min c.w.mxRows p.chain - 1) r)) (s.weight c w side 0 i p.n 1) := by
  simp only [mxExpandData, List.mem_flatMap, List.mem_filter, List.mem_range, mem_rowOut, List.length_map, List.length_range]
  have word (q i : Nat) (hi : i < p.n) :
      (((List.range p.n).map (fun i => s.weight c w side 0 i p.n 1)).map (modWeight q)).getD i 0 =
        modWeight q (s.weight c w side 0 i p.n 1) := by
    simp [List.getD, hi]
  constructor
  · rintro ⟨r, ⟨hr, hold⟩, i, hi, h1, h2⟩
    exact ⟨r, i, hr, hold, hi, h1, by rw [h2, word _ _ hi]⟩
  · rintro ⟨r, i, hr, hold, hi, h1, h2⟩
    exact ⟨r, ⟨hr, hold⟩, i, hi, h1, by rw [h2, word _ _ hi]⟩

theorem State.mxExpandOut_some {s : State} {c : Ctx} {w side v : View} {b : Nat} {p : PSet} (set : s.pset c.w.pset = some p) :
    (s.mxExpandOut c w side v b).record =
        plainOut c.w.pset (min c.w.mxRows p.chain - 1) (firstScales (s.matInputs c 1 b) [1]) ∧
      ((s.mxExpandOut c w side v b).flags = 0 → ∀ e, e ∈ (s.mxExpandOut c w side v b).data ↔
        e ∈ mxExpandData c w side s v p ∧ inBatch v.desc b e.1 = true) := by
  unfold State.mxExpandOut
  dsimp only
  rw [set]
  refine ⟨rfl, fun sound e => ?_⟩
  dsimp only at sound ⊢
  rw [if_pos sound, List.mem_filter]

theorem map_batch {f : Nat → BatchOut} (hf : ∀ b, (f b).b = b) (l : List Nat) : (l.map f).map (·.b) = l := by
  rw [List.map_map]
  exact (List.map_congr_left fun b _ => hf b).trans (List.map_id l)

theorem State.mxModularOut_b (s : State) (c : Ctx) (x w side v : View) (b : Nat) : (s.mxModularOut c x w side v b).b = b := by
  unfold State.mxModularOut
  dsimp only
  split <;> rfl

/-- Settles O45: each command commits its batches, whose words are those that the formulas give. -/
theorem typedCommandsComplete : Obligations.TypedCommandsComplete := by
  unfold Obligations.TypedCommandsComplete
  intro s t seq c v hv
  refine ⟨fun a ha => ⟨?raise, ?lwe, ?vcvt⟩, fun x w side h0 h1 h3 => ⟨?modular, ?clear⟩, fun w side h1 h3 => ?expand⟩
  case raise => exact fun h => exec_packRaise t seq ▸ State.packOp_workable h ha hv _
  case lwe => exact fun h => exec_packLwe t seq ▸ State.packOp_workable h ha hv _
  case vcvt =>
    intro h
    obtain ⟨ctx, -⟩ := State.readyCtx_ctx h.1
    obtain ⟨rfl, -⟩ := State.ctx_facts ctx
    refine ⟨_, _, exec_vcvt c.t seq ▸ execVcvt_workable h ha hv, by simp, ?counted, map_batch (fun _ => rfl) _, ?outs⟩
    case counted =>
      rw [← State.count_get_self s (n := 1) (by decide), State.countNan]
      split
      · exact State.count_get_other _ _ (by simp)
      · rfl
    case outs =>
      intro o ho
      obtain ⟨b, -, rfl⟩ := List.mem_map.1 ho
      exact ⟨rfl, State.vcvtOut_data⟩
  case modular =>
    intro h
    refine ⟨_, _, exec_mxpModular t seq ▸ execMxpModular_workable h h0 h1 hv h3, fun alone => by simp [State.fc3Stage2, alone],
      map_batch (s.mxModularOut_b c x w side v) _, fun o ho => ?_⟩
    obtain ⟨b, -, rfl⟩ := List.mem_map.1 ho
    dsimp only
    rw [State.mxModularOut_b]
    refine ⟨fun none => State.mxModularOut_none none, fun ref some => ?_⟩
    obtain ⟨record, data⟩ := State.mxModularOut_some (x := x) (w := w) (side := side) (v := v) some
    refine ⟨record, fun sound e => (data sound e).trans ?_⟩
    simp only [mem_mxModularData]
    constructor
    · rintro ⟨p, set, ⟨k, j, hk, hj, e1, e2⟩, batch⟩
      exact ⟨p, k, j, set, hk, hj, e1 ▸ batch, e1, e2⟩
    · rintro ⟨p, k, j, set, hk, hj, batch, e1, e2⟩
      exact ⟨p, set, ⟨k, j, hk, hj, e1, e2⟩, e1 ▸ batch⟩
  case clear =>
    intro h
    refine ⟨_, _, exec_mxpClear t seq ▸ execMxpClear_workable h h0 h1 hv h3, by simp, map_batch (fun _ => rfl) _, fun o ho => ?_⟩
    obtain ⟨b, -, rfl⟩ := List.mem_map.1 ho
    exact ⟨rfl, fun _ => State.mxClearOut_data⟩
  case expand =>
    intro h
    refine ⟨_, _, exec_mxpExpand t seq ▸ execMxpExpand_workable h h1 hv h3, by simp, map_batch (fun _ => rfl) _, fun o ho p set => ?_⟩
    obtain ⟨b, -, rfl⟩ := List.mem_map.1 ho
    obtain ⟨record, data⟩ := State.mxExpandOut_some (w := w) (side := side) (v := v) (b := b) set
    refine ⟨record, fun sound e => (data sound e).trans ?_⟩
    rw [mem_mxExpandData]
    constructor
    · rintro ⟨⟨r, i, hr, hold, hi, e1, e2⟩, batch⟩
      exact ⟨r, i, hr, hold, hi, e1 ▸ batch, e1, e2⟩
    · rintro ⟨r, i, hr, hold, hi, batch, e1, e2⟩
      exact ⟨⟨r, i, hr, hold, hi, e1, e2⟩, e1 ▸ batch⟩

end Sys2Proof.Machine
end


section
/-! PROOFS. O53: WIN opens and closes windows; remote writes land where one accepts them; remote reads. -/
namespace Sys2Proof.Machine

/-! ## Bytes written by another tile -/

/-- What one byte of a remote write leaves at the scratchpads' bytes. -/
theorem State.remoteByte_get {s : State} (w t off : Nat) (x : Byte) (ok : s.canonical) {b : Nat} (at_b : atScratch b) :
    (s.remoteByte w t off x).1.canonical ∧ (s.remoteByte w t off x).1.readByte b =
      if b = scratchAddr t off ∧ ((s.tile t).windowFor w off).isSome = true then x else s.readByte b := by
  unfold State.remoteByte
  split
  next found =>
    obtain ⟨ok', read⟩ := State.store_get (scratchAddr t off) [x] ok.1 ok.2 at_b
    refine ⟨ok', ?_⟩
    have same : ((s.store (scratchAddr t off) [x]).noteWrite (scratchAddr t off) (scratchAddr t off + 1)).readByte b =
        (s.store (scratchAddr t off) [x]).readByte b := State.readByte_of_same rfl rfl b
    rw [same, read, found]
    by_cases here : b = scratchAddr t off
    · subst here
      rw [if_pos ⟨Nat.le_refl _, Nat.lt_succ_self _⟩, if_pos ⟨rfl, rfl⟩, Nat.sub_self]
      rfl
    · rw [if_neg (by rw [List.length_singleton]; omega), if_neg fun h => here h.1]
  next found => exact ⟨ok, by rw [found, if_neg fun h => by cases h.2]⟩

/-- A remote write of one byte more. -/
theorem State.remoteStore_snoc (w t off : Nat) (bs : List Byte) (x : Byte) (s : State) :
    ∃ c, (s.remoteStore w t off (bs ++ [x])).1 =
      (((s.remoteStore w t off bs).1.remoteByte w t (off + bs.length) x).1.count c w 1) := by
  unfold State.remoteStore
  rw [List.length_append, List.length_singleton, List.range_succ, List.zip_append (by simp), List.foldl_append]
  simp only [List.zip_cons_cons, List.zip_nil_right, List.foldl_cons, List.foldl_nil]
  split
  · exact ⟨_, rfl⟩
  · exact ⟨_, rfl⟩

theorem State.remoteStore_evolves (w t off : Nat) (bs : List Byte) (s : State) :
    Evolves (.jobs :: Part.stored).contains s (s.remoteStore w t off bs).1 :=
  have : Stores (.jobs :: Part.stored).contains := stores_of rfl
  have : MayJobs (.jobs :: Part.stored).contains := ⟨rfl⟩
  (Evolves.refl _ s).remoteStore

/-- A remote write changes no window. -/
theorem State.remoteStore_windowFor (w t off : Nat) (bs : List Byte) (s : State) (t' w' o : Nat) :
    ((s.remoteStore w t off bs).1.tile t').windowFor w' o = (s.tile t').windowFor w' o := by
  have windows : ((s.remoteStore w t off bs).1.tile t').windows = (s.tile t').windows :=
    (s.remoteStore_evolves w t off bs).kept .tWindows rfl t'
  rw [Tile.windowFor, windows]
  rfl

/-- A remote write at the scratchpads' bytes: each byte that an open window accepts. -/
theorem State.remoteStore_get (w t off : Nat) (bs : List Byte) {s : State} (ok : s.canonical) {b : Nat} (at_b : atScratch b) :
    (s.remoteStore w t off bs).1.canonical ∧ (s.remoteStore w t off bs).1.readByte b =
      if (scratchAddr t off ≤ b ∧ b < scratchAddr t off + bs.length) ∧
        ((s.tile t).windowFor w (off + (b - scratchAddr t off))).isSome = true
      then bs.getD (b - scratchAddr t off) 0 else s.readByte b := by
  induction bs using List.reverseRecOn with
  | nil => exact ⟨ok, (if_neg fun h => by have := h.1; rw [List.length_nil] at this; omega).symm⟩
  | append_singleton bs x ih =>
    obtain ⟨ok', read'⟩ := ih
    obtain ⟨c, step⟩ := State.remoteStore_snoc w t off bs x s
    obtain ⟨ok'', read''⟩ := State.remoteByte_get w t (off + bs.length) x ok' at_b
    have counted (u : State) : (u.count c w 1).readByte b = u.readByte b := State.readByte_of_same (by simp) (by simp) b
    rw [step]
    refine ⟨⟨by rw [State.wcbOk, State.count_hbm]; exact ok''.1, by rw [State.count_mem]; exact ok''.2⟩, ?_⟩
    rw [counted, read'', read', State.remoteStore_windowFor]
    have shift : scratchAddr t (off + bs.length) = scratchAddr t off + bs.length := by unfold scratchAddr; omega
    rw [shift]
    by_cases last : b = scratchAddr t off + bs.length
    · subst last
      rw [Nat.add_sub_cancel_left, List.getD_append_right _ _ _ _ (Nat.le_refl _), Nat.sub_self, List.getD_cons_zero,
        List.length_append, List.length_singleton]
      by_cases accepts : ((s.tile t).windowFor w (off + bs.length)).isSome = true
      · rw [if_pos ⟨rfl, accepts⟩, if_pos ⟨by omega, accepts⟩]
      · rw [if_neg fun h => accepts h.2, if_neg fun h => accepts h.2, if_neg fun h => accepts h.2]
    · rw [if_neg fun h => last h.1]
      by_cases inside : scratchAddr t off ≤ b ∧ b < scratchAddr t off + bs.length
      · rw [List.getD_append _ _ _ _ (by omega)]
        simp only [inside, true_and, List.length_append, List.length_singleton, and_self,
          show b < scratchAddr t off + (bs.length + 1) by omega]
      · rw [if_neg fun h => inside h.1, if_neg fun h => inside (by rw [List.length_append, List.length_singleton] at h; omega)]

theorem atScratch_scratchAddr {t o : Nat} (ht : t < 208) (ho : o < 0x600000) : atScratch (scratchAddr t o) :=
  ⟨_, _, atScratch_of_bounds (by unfold scratchAddr; omega) (by unfold scratchAddr; omega) (by unfold scratchAddr; omega)⟩

/-! ## Remote reads -/

theorem execRemoteRead_runs {r t off len : Nat} {s : State} (ht : t < 208) (fits : off + len ≤ 0x600000)
    (up : s.pins.allGood = true) (open_ : s.letsIn t = true) : execRemoteRead r t off len s =
      .next { (s.remoteRead t off len).1.count .remoteBytesRead r len with
        resp := .status (s.remoteRead t off len).2.1 (s.remoteRead t off len).2.2 } := by
  rw [execRemoteRead, if_neg (by omega), if_neg (by simp [up, open_])]

theorem State.remoteRead_sound {s : State} {t off n : Nat} (sound : s.remoteBad t off n = false) :
    s.remoteRead t off n = (s, s.readRaw (scratchAddr t off) n, false) := by
  rw [State.remoteRead, if_neg (by simp [sound])]

/-! ## WIN -/

theorem Ctx.plainMarks_cases (c : Ctx) : c.plainMarks = 0 ∨ c.plainMarks = 4 := by
  unfold Ctx.plainMarks
  split
  · exact .inr rfl
  · exact .inl rfl

/-- The writer map of a WIN: zeros where it stands on a marked granule. -/
def State.winMap (s : State) (c : Ctx) (m : View) : BitVec 208 :=
  if c.plainMarks = 0 then BitVec.ofNat 208 (leNat (s.readZeroed m.base 26)) else 0

/-- The window that a WIN sets. -/
def Ctx.window (c : Ctx) (t : Nat) (v : View) (map : BitVec 208) (u : Tile) : Window :=
  { isOpen := map != 0, lo := (round64 v.dataRange).1 - scratchAddr t 0, hi := (round64 v.dataRange).2 - scratchAddr t 0,
    writers := map, epoch := ((u.winAt (c.w.immBits 2 0)).epoch + 1) % 65536 }

/-- A window of a tile replaced. -/
def State.setWindow (t k : Nat) (f : Tile → Window) (s : State) : State :=
  s.mapTile t (fun u => { u with windows := Tab.put u.windows k (f u) })

/-- WIN on a workable macro-operation whose map can be read, or counts as zeros. -/
theorem execWin_workable {s : State} {t seq : Nat} {c : Ctx} {v m : View} (h : s.workable t seq (fun w => w.family == Fam.win) c)
    (h0 : c.view 0 = some v) (h1 : c.view 1 = some m) (go : c.plainMarks ≠ 0 ∨ s.winStop c m.base = none) :
    execWin t seq s = .next (State.markDone c (let u := s.setWindow t (c.w.immBits 2 0) (c.window t v (s.winMap c m))
      if c.plainMarks = 0 then u
      else u.mapMop t seq (fun m => { m with events := m.events ++ [c.poisonEvent t seq c.plainMarks 1] }))) := by
  have none : (if c.plainMarks = 0 then s.winStop c m.base else none) = none := by
    split
    next unmarked => exact go.resolve_left fun n => n unmarked
    next => rfl
  refine (State.withReady_workable h _).trans ?_
  rw [h0, h1]
  dsimp only
  rw [none]
  rfl

theorem execWin_stops {s : State} {t seq : Nat} {c : Ctx} {v m : View} {x : AbortCause}
    (h : s.workable t seq (fun w => w.family == Fam.win) c) (h0 : c.view 0 = some v) (h1 : c.view 1 = some m)
    (unmarked : c.plainMarks = 0) (stop : s.winStop c m.base = some x) : execWin t seq s = .next (s.stopMop c x) := by
  have some : (if c.plainMarks = 0 then s.winStop c m.base else none) = some x := by rw [if_pos unmarked, stop]
  refine (State.withReady_workable h _).trans ?_
  rw [h0, h1]
  dsimp only
  rw [some]

/-- What the poison event and the retirement mark leave of the windows. -/
theorem State.markDone_windows (s : State) (c : Ctx) (t : Nat) : ((s.markDone c).tile t).windows = (s.tile t).windows :=
  have : MayTWindow [Part.tWindow].contains := ⟨rfl⟩
  ((Evolves.refl [Part.tWindow].contains s).markDone (c := c)).kept .tWindows rfl t

theorem round64_hi (p : Nat × Nat) : (round64 p).2 = (p.2 + 63) / 64 * 64 := rfl

theorem exec_win (t seq : Nat) : exec (.win t seq) = execWin t seq := rfl
theorem exec_remoteWrite (w t off : Nat) (data : List Byte) :
    exec (.remoteWrite w t off data) = execRemoteWrite w t off data := rfl
theorem exec_remoteRead (r t off len : Nat) : exec (.remoteRead r t off len) = execRemoteRead r t off len := rfl

theorem immBits_lt (w : MopWord) (k : Nat) (h : k = w.immBits 2 0) : k < 8 := by
  subst h
  exact Nat.mod_lt _ (by decide)

/-- The windows after a WIN: its own replaced, the others kept. -/
theorem State.winAt_setWindow {s : State} {t k : Nat} (ht : t < 208) (hk : k < 8) (f : Tile → Window) (j : Nat) :
    ((s.setWindow t k f).tile t).winAt j = if j = k then f (s.tile t) else (s.tile t).winAt j := by
  rw [State.setWindow, State.tile_mapTile_self _ ht]
  unfold Tile.winAt
  dsimp only
  split
  next same => rw [same, Tab.at_put_self _ _ _ hk]
  next other => rw [Tab.at_put_other _ _ _ other]

/-- Settles O53: WIN by the state it leaves, remote writes byte by byte through the windows, remote reads. -/
theorem windowsGuardScratchpads : Obligations.WindowsGuardScratchpads := by
  unfold Obligations.WindowsGuardScratchpads
  refine ⟨fun s t seq c v m ready h0 h1 => ?win, fun s w t off data => ?write, fun s r t off len => ?read⟩
  case win =>
    obtain ⟨ctx, -, -, -, family⟩ := State.readyCtx_ctx ready
    obtain ⟨rfl, rfl, -, -, mop, -⟩ := State.ctx_facts ctx
    have ht := State.tile_lt_of_mopOf mop
    rw [exec_win]
    refine ⟨fun o bad => ?bad, fun x sound unmarked stop => execWin_stops ⟨ready, sound⟩ h0 h1 unmarked stop, fun sound go => ?done⟩
    case bad =>
      rw [execWin, State.withReady_some _ ready, State.guarded_bad _ bad]
    case done =>
      refine ⟨_, execWin_workable ⟨ready, sound⟩ h0 h1 go, ?_⟩
      have opened : (s.setWindow c.t (c.w.immBits 2 0) (c.window c.t v (s.winMap c m))).mopOf c.t c.mop.seq = some c.mop := by
        rw [State.setWindow, State.mopOf_mapTile, mop]
        rfl
      have marked := State.keepPoison_mopOf c.plainMarks opened
      obtain ⟨x, done⟩ := State.markDone_hasMop marked
      have same : State.keepPoison c c.plainMarks (s.setWindow c.t (c.w.immBits 2 0) (c.window c.t v (s.winMap c m))) =
          (let u := s.setWindow c.t (c.w.immBits 2 0) (c.window c.t v (s.winMap c m))
           if c.plainMarks = 0 then u
           else u.mapMop c.t c.mop.seq (fun m => { m with events := m.events ++ [c.poisonEvent c.t c.mop.seq c.plainMarks 1] })) := rfl
      rw [← same]
      have windows (j : Nat) : (((State.keepPoison c c.plainMarks
          (s.setWindow c.t (c.w.immBits 2 0) (c.window c.t v (s.winMap c m)))).markDone c).tile c.t).winAt j =
          if j = c.w.immBits 2 0 then c.window c.t v (s.winMap c m) (s.tile c.t) else (s.tile c.t).winAt j := by
        rw [Tile.winAt, State.markDone_windows, State.keepPoison]
        have kept (f : Mop → Mop) (u : State) : ((u.mapMop c.t c.mop.seq f).tile c.t).windows = (u.tile c.t).windows :=
          State.mapMop_tile Tile.windows (fun _ _ => rfl) u c.t c.t c.mop.seq f
        rw [← State.winAt_setWindow ht (immBits_lt c.w _ rfl), Tile.winAt]
        split
        · rfl
        · rw [kept]
      refine ⟨?_, ?_, fun k hk => by rw [windows, if_neg hk]⟩
      · rw [done]
        have family : c.w.family = 25 := by simpa using family
        rcases c.plainMarks_cases with unmarked | marked
        · simp [Mop.setDone, Mop.noted, unmarked]
        · simp [Mop.setDone, Mop.noted, marked, Ctx.poisonEvent, family]
      · rw [windows, if_pos rfl]
        rfl
  case write =>
    rw [exec_remoteWrite]
    refine ⟨fun out => if_pos out, fun ht fits wait => ?waits, fun ht fits up lets wcb mem => ?lands⟩
    case waits =>
      rw [execRemoteWrite, if_neg (by omega), if_pos (by rcases wait with h | h <;> simp [h])]
    case lands =>
      refine ⟨(s.remoteStore w t off data).1, ?_, fun i hi => ?_, fun o apart ho => ?_, ?_⟩
      · rw [execRemoteWrite, if_neg (by omega), if_neg (by simp [up, lets])]
      · have shift : scratchAddr t (off + i) = scratchAddr t off + i := by unfold scratchAddr; omega
        obtain ⟨-, read⟩ := State.remoteStore_get w t off data ⟨wcb, mem⟩ (atScratch_scratchAddr ht (o := off + i) (by omega))
        rw [read, shift, Nat.add_sub_cancel_left]
        simp only [show scratchAddr t off ≤ scratchAddr t off + i ∧ scratchAddr t off + i < scratchAddr t off + data.length by omega,
          true_and, and_self]
      · obtain ⟨-, read⟩ := State.remoteStore_get w t off data ⟨wcb, mem⟩ (atScratch_scratchAddr ht ho)
        rw [read, if_neg]
        unfold scratchAddr
        omega
      · exact (s.remoteStore_evolves w t off data).kept .tWindows rfl t
  case read =>
    rw [exec_remoteRead]
    refine ⟨fun out => if_pos out, fun ht fits wait => ?waits, fun ht fits up lets => ?answers⟩
    case waits =>
      rw [execRemoteRead, if_neg (by omega), if_pos (by rcases wait with h | h <;> simp [h])]
    case answers =>
      refine ⟨_, execRemoteRead_runs ht fits up lets, ?_⟩
      dsimp only
      rw [State.count_mem]
      by_cases bad : s.remoteBad t off len = true
      · obtain ⟨answer, mem⟩ := State.remoteRead_of_bad bad
        rw [answer, if_pos bad]
        exact ⟨mem, rfl⟩
      · rw [State.remoteRead_sound (by simpa using bad), if_neg bad]
        exact ⟨rfl, rfl⟩

end Sys2Proof.Machine
end


section
/-! PROOFS. What the steps of a retirement leave: the tile's cycle and the sequence numbers of its window, memory outside
control pages, and the error queue. -/
namespace Sys2Proof.Machine

/-! ## The cycle and the sequence numbers of a tile -/

/-- A tile's cycle and the sequence numbers in its window. -/
def Tile.pulse (u : Tile) : Nat × List Nat := (u.cycle, u.window.map (·.seq))

def State.pulse (s : State) (t : Nat) : Nat × List Nat := (s.tile t).pulse

theorem State.pulse_mapTile (s : State) (t t' : Nat) {f : Tile → Tile} (hf : ∀ u, (f u).pulse = u.pulse) :
    (s.mapTile t f).pulse t' = s.pulse t' := by
  unfold State.pulse
  rw [State.tile_mapTile]
  split
  next h => rw [hf, h.1]
  next => rfl

@[simp] theorem State.pulse_count (s : State) (c : Ctr) (i n t : Nat) : (s.count c i n).pulse t = s.pulse t := by
  simp [State.pulse]

theorem State.pulse_mapMop (s : State) (t seq t' : Nat) {f : Mop → Mop} (hf : ∀ m, (f m).seq = m.seq) :
    (s.mapMop t seq f).pulse t' = s.pulse t' := by
  refine State.pulse_mapTile s t t' fun u => Prod.ext rfl ?_
  simp only [Tile.pulse, List.map_map]
  refine List.map_congr_left fun m _ => ?_
  dsimp only [Function.comp]
  split
  · exact hf m
  · rfl

/-- Where the sequencers are the same, so are cycles and sequence numbers. -/
theorem State.pulse_of_sequencer {s u : State} (h : ∀ x, (u.tile x).sequencer = (s.tile x).sequencer) (t : Nat) :
    u.pulse t = s.pulse t := by
  have cycle : (u.tile t).cycle = (s.tile t).cycle := congrArg (fun q => q.2.2.2.2.2.2.1) (h t)
  have window : (u.tile t).window = (s.tile t).window := congrArg (fun q => q.2.2.2.1) (h t)
  rw [State.pulse, State.pulse, Tile.pulse, Tile.pulse, cycle, window]

theorem State.pulse_of_evolves {F : Part → Bool} {s u : State} (h : Evolves F s u) (hF : F .tWindow = false) (t : Nat) :
    u.pulse t = s.pulse t := State.pulse_of_sequencer (h.kept .tWindow hF) t

theorem State.pulse_foldl {α : Type} {t : Nat} {f : State → α → State} (h : ∀ s a, (f s a).pulse t = s.pulse t) (l : List α)
    (s : State) : (l.foldl f s).pulse t = s.pulse t := List.foldl_keeps (g := fun s : State => s.pulse t) h l s

@[simp] theorem State.pulse_store (s : State) (a : Nat) (bs : List Byte) (t : Nat) : (s.store a bs).pulse t = s.pulse t :=
  State.pulse_of_evolves (s.store_evolves a bs) rfl t

@[simp] theorem State.pulse_mapStream (s : State) (t k : Nat) (f : StreamQueue → StreamQueue) (t' : Nat) :
    (s.mapStream t k f).pulse t' = s.pulse t' := by
  rw [State.mapStream, State.pulse_store]
  exact State.pulse_mapTile s t t' fun _ => rfl

@[simp] theorem State.pulse_mapQueue (s : State) (t k : Nat) (f : ShuttleQueue → ShuttleQueue) (t' : Nat) :
    (s.mapQueue t k f).pulse t' = s.pulse t' := by
  rw [State.mapQueue, State.pulse_store]
  exact State.pulse_mapTile s t t' fun _ => rfl

@[simp] theorem State.pulse_endSend (s : State) (d : ShuttleDesc) (x : SendState) (t : Nat) :
    (s.endSend d x).pulse t = s.pulse t :=
  State.pulse_mapMop s _ _ t fun m => by split <;> rfl

@[simp] theorem State.pulse_closeQueue (s : State) (t k t' : Nat) : (s.closeQueue t k).pulse t' = s.pulse t' := by
  unfold State.closeQueue
  rw [State.pulse_mapQueue]
  exact State.pulse_foldl (fun s d => by rw [State.pulse_count, State.pulse_endSend]) _ s

@[simp] theorem State.pulse_closeQueues (s : State) (t t' : Nat) : (s.closeQueues t).pulse t' = s.pulse t' :=
  State.pulse_foldl (fun s k => State.pulse_closeQueue s t k t') _ s

@[simp] theorem State.pulse_setEngine (s : State) (t e : Nat) (x : Option Nat) (t' : Nat) :
    (s.setEngine t e x).pulse t' = s.pulse t' := State.pulse_mapTile s t t' fun _ => rfl

@[simp] theorem State.pulse_freeEngines (s : State) (c : Ctx) (cycle t : Nat) : (s.freeEngines c cycle).pulse t = s.pulse t := by
  refine State.pulse_foldl (fun s e => ?_) _ s
  split
  · rfl
  · split
    · exact State.pulse_setEngine ..
    · rfl

@[simp] theorem State.pulse_closeChains (s : State) (t t' : Nat) : (s.closeChains t).pulse t' = s.pulse t' :=
  State.pulse_mapTile s t t' fun _ => rfl

@[simp] theorem State.pulse_clearGranules (s : State) (t : Nat) (gs : List Nat) (t' : Nat) :
    (s.clearGranules t gs).pulse t' = s.pulse t' := State.pulse_mapTile s t t' fun _ => rfl

@[simp] theorem State.pulse_repace (s : State) (t t' : Nat) : (s.repace t).pulse t' = s.pulse t' :=
  State.pulse_mapTile s t t' fun _ => rfl

@[simp] theorem State.pulse_runCycles (s : State) (t n t' : Nat) : (s.runCycles t n).pulse t' = s.pulse t' :=
  State.pulse_mapTile s t t' fun _ => rfl

@[simp] theorem State.pulse_unitDone (s : State) (c : Ctx) (cycle t : Nat) : (s.unitDone c cycle).pulse t = s.pulse t := by
  unfold State.unitDone
  split
  next => rfl
  next ch _ =>
    extract_lets st u
    have units : u.pulse t = s.pulse t := State.pulse_mapTile s c.t t fun _ => rfl
    clear_value u
    split
    next m _ =>
      split
      next =>
        extract_lets x w
        have started : w.pulse t = s.pulse t := (State.pulse_mapMop u c.t m.seq t (f := Mop.setStart (some x)) fun _ => rfl).trans units
        clear_value w
        split
        next =>
          refine (State.pulse_foldl (fun s e => ?_) _ w).trans started
          split
          · rfl
          · exact State.pulse_setEngine ..
        next => exact started
      next => exact units
    next => exact units

@[simp] theorem State.pulse_leaveStream (s : State) (c : Ctx) (t : Nat) : (s.leaveStream c).pulse t = s.pulse t := by
  unfold State.leaveStream
  dsimp only
  split
  · rfl
  · rw [State.pulse_mapStream]
    split <;> simp

@[simp] theorem State.pulse_accountWait (s : State) (t upto t' : Nat) : (s.accountWait t upto).pulse t' = s.pulse t' := by
  unfold State.accountWait
  have put (o : Offer) (n : Nat) (u : State) : (u.mapTile t (fun u => { u with offer := some { o with counted := n } })).pulse t' =
      u.pulse t' := State.pulse_mapTile u t t' fun _ => rfl
  split
  next => rfl
  next o _ =>
    split
    next => rfl
    next =>
      dsimp only
      split
      next => rw [put, State.pulse_count]
      next =>
        split
        next => rw [put, State.pulse_count]
        next =>
          split
          · rw [put, State.pulse_count, State.pulse_count]
          · rw [put, State.pulse_count]

theorem State.pulse_tileAt {s : State} {t : Nat} (ht : t < 208) (cycle : Nat) :
    (s.tileAt t cycle).pulse t = (max (s.tile t).cycle cycle, (s.tile t).window.map (·.seq)) := by
  have run (u : State) (hu : u.pulse t = s.pulse t) (n : Nat) (hn : n = cycle - (s.tile t).cycle) :
      (u.mapTile t (fun u => { u with cycle := u.cycle + n })).pulse t =
        (max (s.tile t).cycle cycle, (s.tile t).window.map (·.seq)) := by
    have h1 : (u.tile t).cycle = (s.tile t).cycle := congrArg Prod.fst hu
    have h2 : (u.tile t).window.map (·.seq) = (s.tile t).window.map (·.seq) := congrArg Prod.snd hu
    rw [State.pulse, State.tile_mapTile_self _ ht]
    simp only [Tile.pulse, h1, h2, hn, Prod.mk.injEq, and_true]
    omega
  refine run _ ?_ _ rfl
  split <;> simp

/-! ## A retirement in two halves -/

/-- A retirement up to the errors that it records. -/
def State.retireBefore (c : Ctx) (cycle : Nat) (s : State) : State :=
  let s := (s.tileAt c.t cycle).accountWait c.t (cycle + 1)
  let clears := if c.w.family = Fam.recv then [] else c.writeRanges.flatMap (fun r => granulesIn c.t r.1 r.2)
  let s := s.clearGranules c.t clears
  c.writeRanges.foldl (fun s r => s.noteWrite r.1 r.2) s

/-- The macro-operation leaves the window. -/
def State.leaveWindow (c : Ctx) (s : State) : State :=
  s.mapTile c.t (fun u => { u with window := u.window.filter (fun m => m.seq != c.mop.seq) })

/-- A retirement after the errors that it records. -/
def State.retireAfter (c : Ctx) (cycle : Nat) (s : State) : State :=
  let s := s.leaveStream c
  let s := if c.mop.unitAfter.isNone then s.unitDone c cycle else s
  let s := (s.leaveWindow c).repace c.t
  let s := (s.freeEngines c cycle).closeChains c.t
  if (s.tile c.t).finished then s.closeQueues c.t else s

theorem State.retireMop_eq (c : Ctx) (cycle : Nat) (s : State) :
    s.retireMop c cycle = ((s.retireBefore c cycle).raiseMop c.ring c.mop.events).retireAfter c cycle := rfl

/-- What a retirement may change before its errors are recorded. -/
def Part.retireBefore : List Part := [.tele, .tMarks, .tWindow, .jobs]

/-- What it may change after. -/
def Part.retireAfter : List Part := Part.stored ++ [.tWindow, .tStreams, .tQueues]

theorem State.retireBefore_evolves (c : Ctx) (cycle : Nat) (s : State) :
    Evolves Part.retireBefore.contains s (s.retireBefore c cycle) := by
  have : MayTele Part.retireBefore.contains := ⟨rfl⟩
  have : MayTMarks Part.retireBefore.contains := ⟨rfl⟩
  have : MayTWindow Part.retireBefore.contains := ⟨rfl⟩
  have : MayJobs Part.retireBefore.contains := ⟨rfl⟩
  have cleared := (Evolves.refl Part.retireBefore.contains s).tileAt (t := c.t) (cycle := cycle) |>.accountWait (t := c.t)
    (upto := cycle + 1) |>.clearGranules (t := c.t)
    (gs := if c.w.family = Fam.recv then [] else c.writeRanges.flatMap (fun r => granulesIn c.t r.1 r.2))
  exact Evolves.foldl cleared fun _ _ h => h.noteWrite

theorem State.retireAfter_evolves (c : Ctx) (cycle : Nat) (s : State) :
    Evolves Part.retireAfter.contains s (s.retireAfter c cycle) := by
  have : Stores Part.retireAfter.contains := stores_of rfl
  have : MayTWindow Part.retireAfter.contains := ⟨rfl⟩
  have : MayTStreams Part.retireAfter.contains := ⟨rfl⟩
  have : MayTQueues Part.retireAfter.contains := ⟨rfl⟩
  have left := (Evolves.refl Part.retireAfter.contains s).leaveStream (c := c)
  have unit : Evolves Part.retireAfter.contains s
      (if c.mop.unitAfter.isNone then (s.leaveStream c).unitDone c cycle else s.leaveStream c) := Evolves.ite left.unitDone left
  have gone := (Evolves.mapTile unit (t := c.t) (f := fun u => { u with window := u.window.filter (fun m => m.seq != c.mop.seq) })
    (fun _ => TKept.only_tWindow rfl)).repace (t := c.t)
  have closed := (gone.freeEngines (c := c) (cycle := cycle)).closeChains (t := c.t)
  exact Evolves.ite closed.closeQueues closed

theorem State.raiseMop_evolves (r : Nat) (l : List Err) (s : State) : Evolves Part.raised.contains s (s.raiseMop r l) :=
  have : Raises Part.raised.contains := raises_of rfl
  (Evolves.refl _ s).raiseMop

theorem State.pulse_leaveWindow {s : State} {c : Ctx} (ht : c.t < 208) : (s.leaveWindow c).pulse c.t =
    ((s.pulse c.t).1, (s.pulse c.t).2.filter (· != c.mop.seq)) := by
  rw [State.pulse, State.leaveWindow, State.tile_mapTile_self _ ht]
  simp only [Tile.pulse, State.pulse, List.filter_map, Function.comp_def]

theorem State.pulse_retireAfter {s : State} {c : Ctx} (ht : c.t < 208) (cycle : Nat) : (s.retireAfter c cycle).pulse c.t =
    ((s.pulse c.t).1, (s.pulse c.t).2.filter (· != c.mop.seq)) := by
  have unit : (if c.mop.unitAfter.isNone then (s.leaveStream c).unitDone c cycle else s.leaveStream c).pulse c.t = s.pulse c.t := by
    split <;> simp
  have closed (u : State) (hu : u.pulse c.t = s.pulse c.t) :
      ((((u.leaveWindow c).repace c.t).freeEngines c cycle).closeChains c.t).pulse c.t =
        ((s.pulse c.t).1, (s.pulse c.t).2.filter (· != c.mop.seq)) := by
    rw [State.pulse_closeChains, State.pulse_freeEngines, State.pulse_repace, State.pulse_leaveWindow ht, hu]
  unfold State.retireAfter
  extract_lets left unitDone gone ended
  have ended_pulse : ended.pulse c.t = ((s.pulse c.t).1, (s.pulse c.t).2.filter (· != c.mop.seq)) := closed _ unit
  split
  · rw [State.pulse_closeQueues, ended_pulse]
  · exact ended_pulse

theorem State.pulse_retireBefore {s : State} {c : Ctx} (ht : c.t < 208) (cycle : Nat) : (s.retireBefore c cycle).pulse c.t =
    (max (s.tile c.t).cycle cycle, (s.tile c.t).window.map (·.seq)) := by
  unfold State.retireBefore
  dsimp only
  rw [State.pulse_foldl (f := fun s (r : Nat × Nat) => s.noteWrite r.1 r.2) (fun s r => rfl), State.pulse_clearGranules, State.pulse_accountWait,
    State.pulse_tileAt ht]

theorem State.pulse_raiseMop (s : State) (r : Nat) (l : List Err) (t : Nat) : (s.raiseMop r l).pulse t = s.pulse t :=
  State.pulse_of_evolves (s.raiseMop_evolves r l) rfl t

theorem State.pulse_retireMop {s : State} {c : Ctx} (ht : c.t < 208) (cycle : Nat) : (s.retireMop c cycle).pulse c.t =
    (max (s.tile c.t).cycle cycle, ((s.tile c.t).window.map (·.seq)).filter (· != c.mop.seq)) := by
  rw [State.retireMop_eq, State.pulse_retireAfter ht, State.pulse_raiseMop, State.pulse_retireBefore ht]

/-- A sequence number that the window no longer has is found no more. -/
theorem State.mopOf_none_of_pulse {s : State} {t seq : Nat} (h : seq ∉ (s.pulse t).2) : s.mopOf t seq = none := by
  rw [State.mopOf, List.find?_eq_none]
  intro m hm same
  exact h (List.mem_map.2 ⟨m, hm, by simpa using same⟩)

/-- A macro-operation that retires leaves the window, and the tile's cycle comes to its own. -/
theorem State.retireMop_gone {s : State} {c : Ctx} (ht : c.t < 208) (cycle : Nat) :
    (s.retireMop c cycle).mopOf c.t c.mop.seq = none ∧ ((s.retireMop c cycle).tile c.t).cycle = max (s.tile c.t).cycle cycle := by
  have pulse := State.pulse_retireMop (s := s) (c := c) ht cycle
  refine ⟨State.mopOf_none_of_pulse ?_, congrArg Prod.fst pulse⟩
  rw [pulse]
  simp

/-! ## Errors of a macro-operation -/

/-- Without a guard the errors of a macro-operation are recorded at once. -/
theorem State.raiseMop_of_off {s : State} {r : Nat} (h : ∀ j, s.job r = some j → j.mode.guard = .off) (l : List Err) :
    s.raiseMop r l = s.raise l := by
  unfold State.raiseMop
  split
  next j hj => rw [if_pos (h j hj)]
  next => rfl

theorem State.job_noteWrite {s : State} {r lo hi : Nat} {j : Job} (h : (s.noteWrite lo hi).job r = some j) :
    ∃ i, s.job r = some i ∧ i.mode = j.mode := by
  unfold State.job State.noteWrite at h
  dsimp only at h
  rw [List.find?_map] at h
  obtain ⟨i, hi, rfl⟩ := Option.map_eq_some_iff.1 h
  refine ⟨i, ?_, by split <;> rfl⟩
  rw [← hi, State.job]
  congr 1
  funext x
  simp only [Function.comp]
  split <;> rfl

/-- The notes of what a retirement writes leave every job's MODE. -/
theorem State.retireBefore_job {s : State} {c : Ctx} {cycle r : Nat} {j : Job} (h : (s.retireBefore c cycle).job r = some j) :
    ∃ i, s.job r = some i ∧ i.mode = j.mode := by
  unfold State.retireBefore at h
  extract_lets u clears w at h
  have jobs : w.job r = s.job r := by
    have : MayTele [Part.tele, Part.tWindow].contains := ⟨rfl⟩
    have : MayTWindow [Part.tele, Part.tWindow].contains := ⟨rfl⟩
    have evolves := (Evolves.refl [Part.tele, Part.tWindow].contains s).tileAt (t := c.t) (cycle := cycle) |>.accountWait
      (t := c.t) (upto := cycle + 1)
    exact congrArg (fun l : List Job => l.find? (fun j => j.ring == r)) (evolves.kept .jobs rfl)
  rw [← jobs]
  clear_value w
  clear jobs
  generalize c.writeRanges = l at h
  induction l generalizing w with
  | nil => exact ⟨j, h, rfl⟩
  | cons p l ih =>
    obtain ⟨i, hi, mode⟩ := ih _ h
    obtain ⟨k, hk, mode'⟩ := State.job_noteWrite hi
    exact ⟨k, hk, mode'.trans mode⟩

/-- The errors of a macro-operation without guard after its retirement. -/
theorem State.retireMop_errs {s : State} {c : Ctx} (off : ∀ j, s.job c.ring = some j → j.mode.guard = .off) (cycle : Nat) :
    (s.retireMop c cycle).errs = ((s.retireBefore c cycle).raise c.mop.events).errs ∧ (s.retireBefore c cycle).errs = s.errs := by
  refine ⟨?_, (s.retireBefore_evolves c cycle).kept .errs rfl⟩
  rw [State.retireMop_eq, State.raiseMop_of_off fun j hj => ?_]
  · exact (State.retireAfter_evolves ..).kept .errs rfl
  · obtain ⟨i, hi, mode⟩ := State.retireBefore_job hj
    rw [← mode]
    exact off i hi

theorem Recorded.of_errs {s u s' u' : State} {e : Err} (h : Recorded s u e) (hs : s'.errs = s.errs) (hu : u'.errs = u.errs) :
    Recorded s' u' e := by
  unfold Recorded at *
  rwa [hs, hu]

/-- The one event of a macro-operation without guard is recorded at its retirement. -/
theorem State.retireMop_recorded {s : State} {c : Ctx} {x : Err} (off : ∀ j, s.job c.ring = some j → j.mode.guard = .off)
    (event : c.mop.events = [x]) (hx : x.cls ≠ .corrected) (cycle : Nat) : Recorded s (s.retireMop c cycle) x := by
  obtain ⟨after, before⟩ := State.retireMop_errs off cycle
  rw [event] at after
  exact (State.raise_recorded (s.retireBefore c cycle) hx).of_errs before.symm after

end Sys2Proof.Machine
end


section
/-! PROOFS. O51: how a SEND posts, waits, arrives at its receiver and retires. -/
namespace Sys2Proof.Machine

/-! ## Queues -/

theorem State.queues_store (s : State) (a : Nat) (bs : List Byte) (t : Nat) : ((s.store a bs).tile t).queues = (s.tile t).queues :=
  Part.stored_same (s.store_evolves a bs) .tQueues rfl t

/-- A queue after an update of one. -/
theorem State.queue_mapQueue {s : State} {t k : Nat} (f : ShuttleQueue → ShuttleQueue) (ht : t < 208) (hk : k < 8) (j : Nat) :
    ((s.mapQueue t k f).tile t).queue j = if j = k then f ((s.tile t).queue k) else (s.tile t).queue j := by
  rw [Tile.queue, State.mapQueue, State.queues_store, State.tile_mapTile_self _ ht]
  dsimp only
  split
  next same => rw [same, Tab.at_put_self _ _ _ hk]
  next other => rw [Tab.at_put_other _ _ _ other]; rfl

theorem State.mapQueue_mopOf (s : State) (t k : Nat) (f : ShuttleQueue → ShuttleQueue) (t' seq : Nat) :
    (s.mapQueue t k f).mopOf t' seq = s.mopOf t' seq := by
  rw [State.mapQueue, State.store_mopOf]
  exact State.mopOf_mapTile _ _ _ _ _ rfl

theorem MopWord.queue_lt (w : MopWord) : w.queue < 8 := immBits_lt w _ rfl

/-- A macro-operation's state does not reach the queues. -/
theorem State.mapMop_queues (s : State) (t seq : Nat) (f : Mop → Mop) (t' : Nat) :
    ((s.mapMop t seq f).tile t').queues = (s.tile t').queues := State.mapMop_tile Tile.queues (fun _ _ => rfl) s t t' seq f

/-- The engines freed: no queue, no macro-operation changes. -/
theorem State.freeEngines_keeps (s : State) (c : Ctx) (cycle t seq : Nat) :
    ((s.freeEngines c cycle).tile t).queues = (s.tile t).queues ∧ (s.freeEngines c cycle).mopOf t seq = s.mopOf t seq := by
  have setEngine (u : State) (e : Nat) (x : Option Nat) :
      (((u.setEngine c.t e x).tile t).queues, (u.setEngine c.t e x).mopOf t seq) = ((u.tile t).queues, u.mopOf t seq) := by
    refine Prod.ext ?_ (State.mopOf_mapTile _ _ _ _ _ rfl)
    rw [State.setEngine, State.tile_mapTile]
    split
    next h => rw [h.1]
    next => rfl
  have kept := List.foldl_keeps (g := fun u : State => ((u.tile t).queues, u.mopOf t seq)) (f := fun s e =>
    if (s.tile c.t).window.any (fun m => decide (c.mop.seq < m.seq) && m.word.engines.contains e) then s
    else match Tab.at (s.tile c.t).engines (some 0) e with
      | none => s.setEngine c.t e (some cycle)
      | some _ => s) (fun u e => ?_) c.w.engines s
  · exact Prod.mk.inj kept
  · split
    · rfl
    · split
      · exact setEngine ..
      · rfl

/-! ## SEND -/

theorem exec_send (t seq : Nat) : exec (.send t seq) = execSend t seq := rfl
theorem exec_shuttleSlotFree (t seq : Nat) : exec (.shuttleSlotFree t seq) = execShuttleSlotFree t seq := rfl
theorem exec_shuttleDescriptorArrive (t seq : Nat) (b : Bool) :
    exec (.shuttleDescriptorArrive t seq b) = execShuttleDescriptorArrive t seq b := rfl
theorem exec_shuttleAck (t seq : Nat) : exec (.shuttleAck t seq) = execShuttleAck t seq := rfl
theorem exec_sendCompletion (t seq : Nat) : exec (.sendCompletion t seq) = execSendCompletion t seq := rfl

/-- The state of a SEND. -/
def Mop.setSend (x : SendState) (m : Mop) : Mop := { m with send := x }

theorem State.setSend_mopOf {s : State} {c : Ctx} (x : SendState) (h : s.mopOf c.t c.mop.seq = some c.mop) :
    (s.setSend c x).mopOf c.t c.mop.seq = some { c.mop with send := x } :=
  State.mopOf_mapMop (Mop.setSend x) (fun _ => rfl) h

theorem State.postSend_mopOf {s : State} {c : Ctx} (h : s.mopOf c.t c.mop.seq = some c.mop) :
    (s.postSend c).mopOf c.t c.mop.seq = some { c.mop with send := .inFlight } := by
  rw [State.postSend, State.drawTokens, State.count_mopOf]
  refine (State.mopOf_mapTile _ _ _ _ _ rfl).trans ?_
  rw [State.count_mopOf, State.setSend_mopOf _ h]

theorem State.raise_mopOf (s : State) (l : List Err) (t seq : Nat) : (s.raise l).mopOf t seq = s.mopOf t seq := by
  have : Raises Part.raised.contains := raises_of rfl
  exact State.mopOf_of_sequencer (((Evolves.refl Part.raised.contains s).raise (l := l)).kept .tWindow rfl) t seq

/-- One resend more. -/
def Mop.resent (m : Mop) : Mop := { m with resends := m.resends + 1 }

/-- A descriptor of a SEND in flight reaches its receiver. -/
theorem execShuttleDescriptorArrive_ready {t seq : Nat} {s : State} {c : Ctx} (ready : s.readyCtx t seq isSend = some c)
    (flight : c.mop.send = .inFlight) (lets : s.letsIn c.w.peer = true) (damaged : Bool) :
    execShuttleDescriptorArrive t seq damaged s = .next (
      if damaged then
        if c.mop.resends < 3 then
          ((s.mapMop t seq Mop.resent).count .linkResends 0 1).raise [Err.ofJob .contained 0x21 1 c.w.peer c.job seq 0 1]
        else s.stopMop c .transit
      else if !((s.tile c.w.peer).queue c.w.queue).isOpen then (s.setSend c .closedDue).count .shuttleClosed t 1
      else if c.descriptor.epoch ≠ ((s.tile c.w.peer).queue c.w.queue).epoch then
        (s.setSend c (.staleDue c.descriptor.epoch ((s.tile c.w.peer).queue c.w.queue).epoch)).count .shuttleStale t 1
      else (((s.freeEngines c (s.tile t).cycle).writeSlot c.w.peer c.w.queue ((s.tile c.w.peer).queue c.w.queue).slots.length
        c.descriptor).mapQueue c.w.peer c.w.queue (fun q => { q with slots := q.slots ++ [c.descriptor] })).setSend c .accepted) := by
  rw [execShuttleDescriptorArrive, State.withReady_some _ ready, if_neg (by simp [flight, lets])]
  rfl

/-- An accepted descriptor takes the next slot of the receiver's queue. -/
theorem State.acceptSend_leaves {s : State} {c : Ctx} (mop : s.mopOf c.t c.mop.seq = some c.mop) (peer : c.w.peer < 208) (cycle n : Nat) :
    let u := (((s.freeEngines c cycle).writeSlot c.w.peer c.w.queue n c.descriptor).mapQueue c.w.peer c.w.queue
      (fun q => { q with slots := q.slots ++ [c.descriptor] })).setSend c .accepted
    u.mopOf c.t c.mop.seq = some { c.mop with send := .accepted } ∧ (u.tile c.w.peer).queue c.w.queue =
      { (s.tile c.w.peer).queue c.w.queue with slots := ((s.tile c.w.peer).queue c.w.queue).slots ++ [c.descriptor] } := by
  obtain ⟨queues, -⟩ := s.freeEngines_keeps c cycle c.w.peer 0
  obtain ⟨-, kept⟩ := s.freeEngines_keeps c cycle c.t c.mop.seq
  refine ⟨State.setSend_mopOf _ ?_, ?_⟩
  · rw [State.mapQueue_mopOf, State.writeSlot, State.store_mopOf, kept, mop]
  · dsimp only
    rw [State.setSend, Tile.queue, State.mapMop_queues, ← Tile.queue, State.queue_mapQueue _ peer c.w.queue_lt, if_pos rfl, Tile.queue,
      State.writeSlot, State.queues_store, queues]
    rfl

theorem State.fatal_of_tileRuns {s : State} {t : Nat} (h : s.tileRuns t = true) : s.errs.fatal = false := by
  simp only [State.tileRuns, Bool.and_eq_true, Bool.not_eq_true'] at h
  exact h.1.1.1.1.1

/-- Every job after a retirement without events has the MODE it had. -/
theorem State.retireMop_job {s : State} {c : Ctx} {cycle r : Nat} {j : Job} (running : s.errs.fatal = false)
    (none : c.mop.events = []) (off : ∀ j, s.job c.ring = some j → j.mode.guard = .off)
    (h : (s.retireMop c cycle).job r = some j) : ∃ i, s.job r = some i ∧ i.mode = j.mode := by
  have before : (s.retireBefore c cycle).errs = s.errs := (s.retireBefore_evolves c cycle).kept .errs rfl
  have unguarded : ∀ j, (s.retireBefore c cycle).job c.ring = some j → j.mode.guard = .off := fun j hj => by
    obtain ⟨i, hi, mode⟩ := State.retireBefore_job hj
    rw [← mode]
    exact off i hi
  have jobs : (s.retireMop c cycle).jobs = (s.retireBefore c cycle).jobs := by
    rw [State.retireMop_eq, State.raiseMop_of_off unguarded, none, State.raise_nil (by rw [before]; exact running)]
    exact (State.retireAfter_evolves ..).kept .jobs rfl
  refine State.retireBefore_job (c := c) (cycle := cycle) ?_
  rw [← h, State.job, State.job, jobs]

/-- Settles O51: SEND by the state that each of its commands leaves. -/
theorem sendsAreDelivered : Obligations.SendsAreDelivered := by
  unfold Obligations.SendsAreDelivered
  intro s t seq c
  refine ⟨fun ready => ?posts, fun ctx runs send => ?retires⟩
  case posts =>
    obtain ⟨ctx, -⟩ := State.readyCtx_ctx ready
    obtain ⟨rfl, rfl, -, -, mop, -⟩ := State.ctx_facts ctx
    have post : execSend c.t c.mop.seq s = _ := State.withReady_some _ ready
    have retry : execShuttleSlotFree c.t c.mop.seq s = _ := State.withReady_some _ ready
    rw [exec_send, exec_shuttleSlotFree, exec_shuttleDescriptorArrive, exec_shuttleDescriptorArrive, post, retry]
    refine ⟨?waits, ?posted, ?slot, ?freed, ?full, ?frozen, ?arrives⟩
    case waits =>
      intro short _
      rw [if_pos (by simp [short]), if_neg (by simp [short])]
      exact ⟨rfl, rfl⟩
    case posted =>
      intro covers idle free
      rw [if_neg (by simp [covers, idle]), if_pos free]
      exact ⟨_, rfl, State.postSend_mopOf mop⟩
    case slot =>
      intro covers idle full
      rw [if_neg (by simp [covers, idle]), if_neg (by simp [full])]
      refine ⟨_, rfl, ?_⟩
      rw [State.mopOf_mapMop (fun m => { m with waitSince := s.clock }) (fun _ => rfl) (State.setSend_mopOf _ mop)]
    case freed =>
      intro covers waiting free
      rw [if_pos (by simp [covers, waiting, free])]
      exact ⟨_, rfl, State.postSend_mopOf mop⟩
    case full =>
      intro _ full
      rw [if_neg (by simp [full])]
    case frozen =>
      intro _ closed b
      rw [exec_shuttleDescriptorArrive, execShuttleDescriptorArrive, State.withReady_some _ ready, if_pos (by simp [closed])]
    case arrives =>
      intro flight lets
      dsimp only
      rw [execShuttleDescriptorArrive_ready ready flight lets, execShuttleDescriptorArrive_ready ready flight lets]
      refine ⟨?again, ?transit, ?closed, ?stale, ?accepted⟩
      case again =>
        intro few
        rw [if_pos rfl, if_pos few]
        refine ⟨_, rfl, ?_, ?_⟩
        · rw [State.raise_mopOf, State.count_mopOf]
          exact State.mopOf_mapMop Mop.resent (fun _ => rfl) mop
        · exact (State.raise_recorded _ (by simp [Err.ofJob])).of_errs (by simp [State.mapMop]) rfl
      case transit =>
        intro many
        rw [if_pos rfl, if_neg (by omega)]
      case closed =>
        intro closed
        rw [if_neg (by decide), if_pos (by simp [closed])]
        exact ⟨_, rfl, by rw [State.count_mopOf, State.setSend_mopOf _ mop]⟩
      case stale =>
        intro opened stale
        rw [if_neg (by decide), if_neg (by simp [opened]), if_pos stale]
        exact ⟨_, rfl, by rw [State.count_mopOf, State.setSend_mopOf _ mop]⟩
      case accepted =>
        intro opened current peer
        rw [if_neg (by decide), if_neg (by simp [opened]), if_neg (not_not.2 current)]
        exact ⟨_, rfl, State.acceptSend_leaves mop peer _ _⟩
  case retires =>
    obtain ⟨rfl, rfl, -, job, mop, -⟩ := State.ctx_facts ctx
    have ht := State.tile_lt_of_mopOf mop
    have retired := State.retireMop_gone (s := s) (c := c) ht ((s.tile c.t).cycle + s.pathCycles c.t (deliveryNs c.w.peer c.t))
    rw [exec_shuttleAck, exec_sendCompletion, execShuttleAck, execSendCompletion, ctx]
    refine ⟨?ack, ?closed, ?stale⟩
    case ack =>
      intro due
      dsimp only
      rw [if_pos (by simp [runs, send, due])]
      exact ⟨_, rfl, retired.1⟩
    case closed =>
      intro due
      dsimp only
      rw [if_neg (by simp [runs, send]), due]
      exact ⟨_, rfl, retired.1⟩
    case stale =>
      intro e q due
      dsimp only
      rw [if_neg (by simp [runs, send]), due]
      refine ⟨_, rfl, ?_, fun none off => ?_⟩
      · exact (State.mopOf_of_sequencer ((State.raiseMop_evolves _ _ _).kept .tWindow rfl) _ _).trans retired.1
      · have unguarded : ∀ j, s.job c.ring = some j → j.mode.guard = .off := fun j hj => by
          rw [job] at hj
          cases hj
          exact off
        obtain ⟨after, before⟩ := State.retireMop_errs unguarded ((s.tile c.t).cycle + s.pathCycles c.t (deliveryNs c.w.peer c.t))
        rw [none, State.raise_nil (by rw [before]; exact State.fatal_of_tileRuns runs), before] at after
        rw [State.raiseMop_of_off fun j hj => ?_]
        · exact (State.raise_recorded _ (by simp [Ctx.staleEvent, Err.ofJob])).of_errs after.symm rfl
        · obtain ⟨i, hi, mode⟩ := State.retireMop_job (State.fatal_of_tileRuns runs) none unguarded hj
          rw [← mode]
          exact unguarded i hi

end Sys2Proof.Machine
end


section
/-! PROOFS. O52: RECV polls, takes and writes; SHQ_CTRL.RESET. -/
namespace Sys2Proof.Machine

theorem exec_recv (t seq : Nat) : exec (.recv t seq) = execRecv t seq := rfl
theorem exec_recvPoll (t seq : Nat) : exec (.recvPoll t seq) = execRecvPoll t seq := rfl
theorem exec_shqReset (q : Requester) : exec (.shqReset q) = execShqReset q := rfl

/-! ## The tile's time -/

/-- What a poll reads of a tile. -/
def Tile.pollView (u : Tile) := (u.window, u.queues, u.marks, u.eccDouble, u.memAllot)

/-- The tile's clock moves on: what a poll reads stays. -/
theorem State.tileAt_pollView (s : State) (t cycle t' : Nat) :
    ((s.tileAt t cycle).tile t').pollView = (s.tile t').pollView := by
  have mapTile (u : State) {f : Tile → Tile} (hf : ∀ x, (f x).pollView = x.pollView) :
      ((u.mapTile t f).tile t').pollView = (u.tile t').pollView := by
    rw [State.tile_mapTile]
    split
    next h => rw [hf, h.1]
    next => rfl
  have run : ((s.runCycles t (cycle - (s.tile t).cycle)).tile t').pollView = (s.tile t').pollView := mapTile s fun _ => rfl
  unfold State.tileAt
  dsimp only
  refine (mapTile _ ?_).trans ?_
  · exact fun _ => rfl
  · split
    · rw [State.count_tile, run]
    · exact run

theorem State.tileAt_mopOf (s : State) (t cycle t' seq : Nat) : (s.tileAt t cycle).mopOf t' seq = s.mopOf t' seq := by
  have window : ((s.tileAt t cycle).tile t').window = (s.tile t').window := congrArg Prod.fst (s.tileAt_pollView t cycle t')
  rw [State.mopOf, State.mopOf, window]

/-! ## The poll -/

/-- The lines that a RECV of a descriptor asks for. -/
def ShuttleDesc.lines (d : ShuttleDesc) : List Nat :=
  linesOf d.src d.length ++ (if d.recAddr = 1 then [] else linesOf d.recAddr 64)

/-- A descriptor of another epoch is freed, and its SEND answered STALE. -/
def State.answerStale (t k : Nat) (d : ShuttleDesc) (epoch : Nat) (s : State) : State :=
  ((s.freeSlot t k d).endSend d (.staleDue d.epoch epoch)).count .shuttleStale d.sender 1

/-- A descriptor is taken in a cycle. -/
def State.takeDescriptor (c : Ctx) (seq : Nat) (d : ShuttleDesc) (bad : Bool) (cycle : Nat) (s : State) : State :=
  let s := s.mapQueue c.t c.w.queue (fun q => { q with taken := (q.taken + 1) % 2 ^ 32 })
  let s := s.mapMop c.t seq (fun m =>
    { m with taken := some (cycle + 1, d), badHead := bad, latency := s.recvLatency c (cycle + 1 - c.mop.start.getD 0) d })
  ((s.freeEngines c (cycle + 1)).count .shuttleRecvs c.t 1).drawTokens c.t (requestTokens c.t (c.job.mode.check == .full) d.lines)

/-- The cycle of a RECV's next poll. -/
def State.nextPoll (s : State) (c : Ctx) : Nat := pollCycle (c.mop.start.getD 0) (s.tile c.t).cycle

theorem execRecvPoll_ready {t seq : Nat} {s : State} {c : Ctx} (ready : s.readyCtx t seq isRecv = some c)
    (untaken : c.mop.taken = none) (same : c.t = t) : execRecvPoll t seq s = .next (
      match (s.tile t).headOf c.w.queue with
      | none => s.tileAt t (s.nextPoll c + 1)
      | some d =>
        let u := s.tileAt t (s.nextPoll c + 1)
        if !u.covers t (requestTokens t (c.job.mode.check == .full) (d.lines.take 1)) then u
        else if !u.remoteBad t ((u.tile t).headSlot c.w.queue) 32 ∧ d.epoch ≠ ((s.tile t).queue c.w.queue).epoch then
          (u.remoteRead t ((u.tile t).headSlot c.w.queue) 32).1.answerStale t c.w.queue d ((s.tile t).queue c.w.queue).epoch
        else (u.remoteRead t ((u.tile t).headSlot c.w.queue) 32).1.takeDescriptor c seq d
          (u.remoteBad t ((u.tile t).headSlot c.w.queue) 32) (s.nextPoll c)) := by
  subst same
  rw [execRecvPoll, State.withReady_some _ ready, if_neg (by rw [untaken]; decide)]
  dsimp only
  cases (s.tile c.t).headOf c.w.queue <;> rfl

theorem State.remoteBad_of_pollView {s u : State} {t : Nat} (h : (u.tile t).pollView = (s.tile t).pollView) (off n : Nat) :
    u.remoteBad t off n = s.remoteBad t off n := by
  have marks : (u.tile t).marks = (s.tile t).marks := congrArg (fun x => x.2.2.1) h
  have words : (u.tile t).eccDouble = (s.tile t).eccDouble := congrArg (fun x => x.2.2.2.1) h
  rw [State.remoteBad, State.remoteBad, marks, words]

theorem Tile.headSlot_of_pollView {u v : Tile} (h : v.pollView = u.pollView) (k : Nat) : v.headSlot k = u.headSlot k := by
  have window : v.window = u.window := congrArg (fun x => x.1) h
  have queues : v.queues = u.queues := congrArg (fun x => x.2.1) h
  rw [Tile.headSlot, Tile.headSlot, Tile.queue, Tile.takenOf, window, queues]
  rfl

theorem Tile.queue_of_pollView {u v : Tile} (h : v.pollView = u.pollView) (k : Nat) : v.queue k = u.queue k := by
  have queues : v.queues = u.queues := congrArg (fun x => x.2.1) h
  rw [Tile.queue, queues]
  rfl

theorem State.covers_of_pollView {s u : State} {t : Nat} (h : (u.tile t).pollView = (s.tile t).pollView) (n : Nat) :
    u.covers t n = s.covers t n := by
  have allot : (u.tile t).memAllot = (s.tile t).memAllot := congrArg (fun x => x.2.2.2.2) h
  rw [State.covers, State.covers, allot]

/-- A remote read: marks at most. -/
theorem State.remoteRead_evolves (t off n : Nat) (s : State) : Evolves [Part.tele, Part.tMarks].contains s (s.remoteRead t off n).1 :=
  have : MayTele [Part.tele, Part.tMarks].contains := ⟨rfl⟩
  have : MayTMarks [Part.tele, Part.tMarks].contains := ⟨rfl⟩
  (Evolves.refl _ s).remoteRead

/-- What the answer STALE leaves: the slot freed, and the SEND's state. -/
theorem State.answerStale_leaves {s : State} {t k : Nat} (ht : t < 208) (hk : k < 8) (d : ShuttleDesc) (epoch : Nat) :
    ((s.answerStale t k d epoch).tile t).queue k = { (s.tile t).queue k with
      slots := ((s.tile t).queue k).slots.filter (fun x => x.seq != d.seq), head := (((s.tile t).queue k).head + 1) % 32 } ∧
    ∀ m, s.mopOf d.sender d.seq = some m → m.word.family = Fam.send →
      (s.answerStale t k d epoch).mopOf d.sender d.seq = some { m with send := .staleDue d.epoch epoch } := by
  refine ⟨?_, fun m found send => ?_⟩
  · rw [State.answerStale, State.count_tile, Tile.queue, State.endSend, State.mapMop_queues, ← Tile.queue, State.freeSlot,
      State.queue_mapQueue _ ht hk, if_pos rfl]
  · rw [State.answerStale, State.count_mopOf, State.endSend, State.mopOf_mapMop _ (fun x => by split <;> rfl)
      (by rw [State.freeSlot, State.mapQueue_mopOf, found]), if_pos send]

/-- What taking a descriptor leaves. -/
theorem State.takeDescriptor_leaves {s : State} {c : Ctx} {m : Mop} (found : s.mopOf c.t c.mop.seq = some m) (d : ShuttleDesc)
    (bad : Bool) (cycle : Nat) : ∃ x, (s.takeDescriptor c c.mop.seq d bad cycle).mopOf c.t c.mop.seq = some x ∧ x.badHead = bad ∧
      x.taken = some (cycle + 1, d) ∧ ((s.takeDescriptor c c.mop.seq d bad cycle).tile c.t).queue c.w.queue =
        { (s.tile c.t).queue c.w.queue with taken := (((s.tile c.t).queue c.w.queue).taken + 1) % 2 ^ 32 } := by
  have ht := State.tile_lt_of_mopOf found
  unfold State.takeDescriptor
  extract_lets u w
  have u_mop : u.mopOf c.t c.mop.seq = some m := by rw [State.mapQueue_mopOf, found]
  have u_queue : (u.tile c.t).queue c.w.queue =
      { (s.tile c.t).queue c.w.queue with taken := (((s.tile c.t).queue c.w.queue).taken + 1) % 2 ^ 32 } := by
    rw [State.queue_mapQueue _ ht c.w.queue_lt, if_pos rfl]
  have w_mop := State.mopOf_mapMop (fun m => { m with
    taken := some (cycle + 1, d), badHead := bad, latency := u.recvLatency c (cycle + 1 - c.mop.start.getD 0) d }) (fun _ => rfl) u_mop
  have w_queue : (w.tile c.t).queue c.w.queue = (u.tile c.t).queue c.w.queue := by
    rw [Tile.queue, State.mapMop_queues]
    rfl
  obtain ⟨queues, mop⟩ := w.freeEngines_keeps c (cycle + 1) c.t c.mop.seq
  have drawn (x : State) (n : Nat) : ((x.drawTokens c.t n).tile c.t).queues = (x.tile c.t).queues ∧
      (x.drawTokens c.t n).mopOf c.t c.mop.seq = x.mopOf c.t c.mop.seq := by
    refine ⟨?_, ?_⟩
    · rw [State.drawTokens, State.count_tile, State.tile_mapTile_self _ ht]
    · rw [State.drawTokens, State.count_mopOf, State.mopOf_mapTile]
      rfl
  refine ⟨{ m with taken := some (cycle + 1, d), badHead := bad, latency := u.recvLatency c (cycle + 1 - c.mop.start.getD 0) d },
    (drawn _ _).2.trans ?_, rfl, rfl, ?_⟩
  · rw [State.count_mopOf, mop, w_mop]
  · rw [Tile.queue, (drawn _ _).1, State.count_tile, queues, ← u_queue, ← w_queue]
    rfl

/-! ## The transfer -/

theorem State.mopOf_isSome_of_pulse {s u : State} {t seq : Nat} {m : Mop} (h : u.pulse t = s.pulse t) (found : s.mopOf t seq = some m) :
    ∃ x, u.mopOf t seq = some x := by
  have seqs : (u.tile t).window.map (·.seq) = (s.tile t).window.map (·.seq) := congrArg Prod.snd h
  have here : seq ∈ (u.tile t).window.map (·.seq) := by
    rw [seqs]
    exact List.mem_map.2 ⟨m, List.mem_of_find?_eq_some found, State.mopOf_seq found⟩
  obtain ⟨x, hx, same⟩ := List.mem_map.1 here
  exact Option.isSome_iff_exists.1 (List.find?_isSome.2 ⟨x, hx, by simpa using same⟩)

/-- FAULTED and RANGE of a RECV, and its record's. -/
def State.recvNew (s : State) (c : Ctx) (v : View) (d : ShuttleDesc) : Nat :=
  orFlags [if !c.mop.badHead && (d.length != v.dataRange.2 - v.dataRange.1 || (d.recAddr == 1) == v.desc.recorded) then Flag.range else 0,
    if c.mop.badHead || s.payloadBad d.src d.length || (v.desc.recorded && d.recAddr != 1 && s.payloadBad d.recAddr 64) then
      Flag.faulted else 0,
    (if v.desc.recorded && d.recAddr != 1 && !c.mop.badHead then some (s.recvRecord c v d) else none).elim 0 (fun x => x.newFlags)]

/-- All flags of a RECV's outputs. -/
def State.recvFlags (s : State) (c : Ctx) (v : View) (d : ShuttleDesc) : Nat :=
  s.recvNew c v d |||
    (if v.desc.recorded && d.recAddr != 1 && !c.mop.badHead then some (s.recvRecord c v d) else none).elim 0 (fun x => x.r.flags)

/-- The bytes that a RECV writes. -/
def State.recvBytes (s : State) (c : Ctx) (v : View) (d : ShuttleDesc) : List Byte :=
  if s.recvFlags c v d = 0 then s.readZeroed d.src d.length else List.replicate (v.dataRange.2 - v.dataRange.1) 0

/-- The records that it writes. -/
def State.recvOuts (s : State) (c : Ctx) (v : View) (d : ShuttleDesc) : List BatchOut :=
  if v.desc.recorded then v.outBatches.map (recvOut
    (if v.desc.recorded && d.recAddr != 1 && !c.mop.badHead then some (s.recvRecord c v d) else none)
    (s.recvNew c v d) (s.recvFlags c v d)) else []

/-- Unreadable words of the source mark their granules. -/
def State.recvMarks (v : View) (d : ShuttleDesc) (s : State) : State :=
  let s := s.markSource d.src d.length
  if v.desc.recorded && d.recAddr != 1 then s.markSource d.recAddr 64 else s

/-- What a RECV does once its bytes stand. -/
def State.recvEnd (c : Ctx) (v : View) (k : Nat) (d : ShuttleDesc) (new : Nat) (s : State) : State :=
  let s := if new = 0 then s
    else s.mapMop c.t c.mop.seq (fun m => { m with events := m.events ++ [c.poisonEvent c.t c.mop.seq new 1] })
  let s := match home d.src with
    | .scratch x _ => if x = c.t then s else s.count .remoteBytesRead c.t d.length
    | _ => s
  let s := if c.w.chain = 1 then s.unitDone c (s.recvGranule c k d v.dataRange.1 v.dataRange.2) else s
  s.markDone c

theorem execRecv_taken {s : State} {c : Ctx} {v : View} {k : Nat} {d : ShuttleDesc} (ready : s.readyCtx c.t c.mop.seq isRecv = some c)
    (taken : c.mop.taken = some (k, d)) (hv : c.view 2 = some v) (lets : s.openTo c.t d.src = true) :
    execRecv c.t c.mop.seq s =
      .next (((s.recvMarks v d).recvWrite c v (s.recvBytes c v d) (s.recvOuts c v d)).recvEnd c v k d (s.recvNew c v d)) := by
  rw [execRecv, State.withReady_some _ ready, taken, hv]
  dsimp only
  rw [if_neg (by rw [lets]; decide)]
  rfl

theorem State.recvMarks_evolves (v : View) (d : ShuttleDesc) (s : State) :
    Evolves [Part.tele, Part.tMarks].contains s (s.recvMarks v d) := by
  have source (u : State) (h : Evolves [Part.tele, Part.tMarks].contains s u) (a n : Nat) :
      Evolves [Part.tele, Part.tMarks].contains s (u.markSource a n) := by
    unfold State.markSource
    split
    · exact h.trans (u.remoteRead_evolves _ _ _)
    · exact h
  unfold State.recvMarks
  dsimp only
  split
  · exact source _ (source s (Evolves.refl _ s) _ _) _ _
  · exact source s (Evolves.refl _ s) _ _

theorem State.recvEnd_readByte (c : Ctx) (v : View) (k : Nat) (d : ShuttleDesc) (new : Nat) (s : State) (a : Nat) :
    (s.recvEnd c v k d new).readByte a = s.readByte a := by
  have : MayTWindow [Part.tele, Part.tWindow].contains := ⟨rfl⟩
  have : MayTele [Part.tele, Part.tWindow].contains := ⟨rfl⟩
  have evolves : Evolves [Part.tele, Part.tWindow].contains s (s.recvEnd c v k d new) := by
    unfold State.recvEnd
    extract_lets u w x
    have hu : Evolves [Part.tele, Part.tWindow].contains s u := Evolves.ite (Evolves.refl _ s) (Evolves.refl _ s).mapMop
    have hw : Evolves [Part.tele, Part.tWindow].contains s w := by
      dsimp only [w]
      split
      · exact Evolves.ite hu hu.count
      · exact hu
    have hx : Evolves [Part.tele, Part.tWindow].contains s x := Evolves.ite hw.unitDone hw
    exact hx.markDone
  exact State.readByte_of_same (evolves.kept .mem rfl) (evolves.kept .hbm rfl) a

theorem State.pulse_recvWrite (c : Ctx) (v : View) (bytes : List Byte) (outs : List BatchOut) (s : State) (t : Nat) :
    (s.recvWrite c v bytes outs).pulse t = s.pulse t := by
  have : Stores (.jobs :: Part.stored).contains := stores_of rfl
  have : MayJobs (.jobs :: Part.stored).contains := ⟨rfl⟩
  have stored : Evolves (.jobs :: Part.stored).contains s
      (outs.foldl (fun r o => State.dmaRecord c v o r) (State.tileStore c v.dataRange.1 bytes (s, none))).1 :=
    Evolves.foldlPair ((Evolves.refl _ s).tileStore) fun x _ h => h.dmaRecord
  have noted (d : Option Drop) (u : State) : (u.noteDrop c d).pulse t = u.pulse t := by
    unfold State.noteDrop
    split
    · rfl
    · refine (State.pulse_mapMop _ _ _ _ ?_).trans (State.pulse_mapTile u c.t t ?_)
      · exact fun _ => rfl
      · exact fun _ => rfl
  unfold State.recvWrite
  dsimp only
  rw [noted, State.pulse_of_evolves stored rfl]

/-- A RECV that has taken a descriptor ends with its effect taken. -/
theorem State.recvEnd_done {s : State} {c : Ctx} {m : Mop} (v : View) (k : Nat) (d : ShuttleDesc) (new : Nat)
    (found : s.mopOf c.t c.mop.seq = some m) : ((s.recvEnd c v k d new).mopOf c.t c.mop.seq).map (·.done) = some true := by
  unfold State.recvEnd
  extract_lets u w x
  have hu : u.pulse c.t = s.pulse c.t := by
    dsimp only [u]
    split
    · rfl
    · exact State.pulse_mapMop s c.t c.mop.seq c.t fun _ => rfl
  have hw : w.pulse c.t = s.pulse c.t := by
    dsimp only [w]
    split
    · split
      · exact hu
      · rw [State.pulse_count, hu]
    · exact hu
  have hx : x.pulse c.t = s.pulse c.t := by
    dsimp only [x]
    split
    · rw [State.pulse_unitDone, hw]
    · exact hw
  obtain ⟨y, hy⟩ := State.mopOf_isSome_of_pulse hx found
  obtain ⟨z, done⟩ := State.markDone_hasMop hy
  rw [done]
  rfl

theorem State.noteDrop_readByte (c : Ctx) (d : Option Drop) (s : State) (a : Nat) : (s.noteDrop c d).readByte a = s.readByte a := by
  refine State.readByte_of_same ?_ ?_ a <;>
  · unfold State.noteDrop
    split <;> rfl

theorem State.recvWrite_readByte (c : Ctx) (v : View) (bytes : List Byte) (s : State) (a : Nat) :
    (s.recvWrite c v bytes []).readByte a = (State.tileStore c v.dataRange.1 bytes (s, none)).1.readByte a :=
  State.noteDrop_readByte ..

/-- A tile's store to its own scratchpad or to memory. -/
theorem State.tileStore_plain {s u : State} {c : Ctx} {a : Nat} (bs : List Byte) (r : Option Drop) (h : s.plainTarget c.t a) :
    (State.tileStore c a bs (u, r)).1 = u.store a bs := by
  obtain ⟨-, here⟩ := h
  unfold State.tileStore
  cases hh : home a with
  | scratch x off =>
    rw [hh] at here
    exact congrArg Prod.fst (if_pos here.1)
  | _ => rfl

/-- Bytes that a RECV writes to plain memory are what is then read there. -/
theorem State.recv_plain {s : State} {c : Ctx} {v : View} {d : ShuttleDesc} {bytes : List Byte} (ok : s.canonical)
    (plain : ∀ i, i < bytes.length → s.plainTarget c.t (v.dataRange.1 + i)) {i : Nat} (hi : i < bytes.length) :
    ((s.recvMarks v d).recvWrite c v bytes []).readByte (v.dataRange.1 + i) = bytes.getD i 0 := by
  have marks := s.recvMarks_evolves v d
  have mem : (s.recvMarks v d).mem = s.mem := marks.kept .mem rfl
  have hbm : (s.recvMarks v d).hbm = s.hbm := marks.kept .hbm rfl
  have lines : (s.recvMarks v d).linePoison = s.linePoison := marks.kept .linePoison rfl
  have mapped (j : Nat) (hj : j < bytes.length) : home (v.dataRange.1 + j) ≠ .unmapped := by
    intro gone
    have here := (plain j hj).2
    rw [gone] at here
    exact here
  rw [State.recvWrite_readByte, State.tileStore_plain _ _ (by simpa using plain 0 (by omega)), (State.store_read (by rw [State.wcbOk, hbm]; exact ok.1)
    (by rw [mem]; exact ok.2) mapped _ (by rw [State.poisoned, lines]; exact (plain i hi).1)).2, if_pos (by omega), Nat.add_sub_cancel_left]

theorem readZeroed_length (s : State) (a n : Nat) : (s.readZeroed a n).length = n := by
  simp [State.readZeroed]

/-- A payload that can be read, of the right length and without a record, has no flags. -/
theorem State.recvBytes_sound {s : State} {c : Ctx} {v : View} {d : ShuttleDesc} (untyped : v.desc.recorded = false)
    (head : c.mop.badHead = false) (rec : d.recAddr = 1) (len : d.length = v.dataRange.2 - v.dataRange.1)
    (sound : s.payloadBad d.src d.length = false) : s.recvBytes c v d = s.readZeroed d.src d.length := by
  refine if_pos ?_
  simp [State.recvFlags, State.recvNew, untyped, head, rec, len ▸ sound, len, orFlags]

/-- A slot or a payload that cannot be read gives zeros. -/
theorem State.recvBytes_bad {s : State} {c : Ctx} {v : View} {d : ShuttleDesc}
    (bad : c.mop.badHead = true ∨ s.payloadBad d.src d.length = true) :
    s.recvBytes c v d = List.replicate (v.dataRange.2 - v.dataRange.1) 0 := by
  have faulted : (c.mop.badHead || s.payloadBad d.src d.length ||
      (v.desc.recorded && d.recAddr != 1 && s.payloadBad d.recAddr 64)) = true := by
    rcases bad with h | h <;> simp [h]
  refine if_neg fun none => ?_
  have bit2 : Nat.testBit (s.recvFlags c v d) 2 = true := by
    rw [State.recvFlags, State.recvNew, faulted]
    simp [orFlags, Nat.testBit_or, show Nat.testBit Flag.faulted 2 = true from rfl]
  rw [none] at bit2
  cases bit2

/-- An address in a scratchpad is that of its tile and offset. -/
theorem home_scratch_addr {a x off : Nat} (h : home a = .scratch x off) : x < 208 ∧ a = scratchAddr x off := by
  obtain ⟨lo, hi, mod⟩ := atScratch.bounds ⟨x, off, h⟩
  rw [atScratch_of_bounds lo hi mod] at h
  simp only [Home.scratch.injEq] at h
  obtain ⟨rfl, rfl⟩ := h
  refine ⟨by omega, ?_⟩
  unfold scratchAddr
  omega

/-- A store into another tile's scratchpad goes through its windows. -/
theorem State.tileStore_other {u : State} {c : Ctx} {a x off : Nat} (bs : List Byte) (place : home a = .scratch x off) (other : x ≠ c.t) :
    (State.tileStore c a bs (u, none)).1 = (u.remoteStore c.t x off bs).1 := by
  unfold State.tileStore
  rw [place]
  exact congrArg Prod.fst (if_neg other)

/-- An epoch that advances empties its queue and leaves the others. -/
theorem State.advanceEpoch_queues (s : State) {t k : Nat} (ht : t < 208) (hk : k < 8) :
    ((s.advanceEpoch t k).tile t).queue k = { (s.tile t).queue k with epoch := (((s.tile t).queue k).epoch + 1) % 65536, slots := [] } ∧
    (∀ j, j ≠ k → ((s.advanceEpoch t k).tile t).queue j = (s.tile t).queue j) ∧
    ∀ x, x ≠ t → ((s.advanceEpoch t k).tile x).queues = (s.tile x).queues := by
  have answered (l : List ShuttleDesc) (e x : Nat) : ((l.foldl (fun s d =>
      (s.endSend d (.staleDue d.epoch e)).count .shuttleStale d.sender 1) s).tile x).queues = (s.tile x).queues :=
    List.foldl_keeps (g := fun u : State => (u.tile x).queues) (fun u d => by
      rw [State.count_tile, State.endSend, State.mapMop_queues]) l s
  unfold State.advanceEpoch
  dsimp only
  refine ⟨?_, fun j hj => ?_, fun x hx => ?_⟩
  · rw [State.queue_mapQueue _ ht hk, if_pos rfl, Tile.queue, answered]
    rfl
  · rw [State.queue_mapQueue _ ht hk, if_neg hj, Tile.queue, answered]
    rfl
  · rw [State.mapQueue, State.queues_store, State.tile_mapTile_other _ hx, answered]

/-- Settles O52: a RECV by the state that its poll and its transfer leave. -/
theorem receivesTakeInOrder : Obligations.ReceivesTakeInOrder := by
  unfold Obligations.ReceivesTakeInOrder
  refine ⟨fun s t seq c ready => ?recv, fun s q reach ht hk => ?reset⟩
  case recv =>
    obtain ⟨ctx, -⟩ := State.readyCtx_ctx ready
    obtain ⟨rfl, rfl, -, -, mop, -⟩ := State.ctx_facts ctx
    have ht := State.tile_lt_of_mopOf mop
    dsimp only
    refine ⟨fun untaken => ⟨?waits, ?empty, ?short, ?stale, ?takes⟩, fun n d v taken hv closed => ?closed,
      fun n d v taken hv lets => ⟨_, exec_recv c.t c.mop.seq ▸ execRecv_taken ready taken hv lets, ?done, ?plain, ?windows⟩⟩
    case waits => rw [exec_recv, execRecv, State.withReady_some _ ready, untaken]
    case empty =>
      intro empty
      refine ⟨s.tileAt c.t (s.nextPoll c + 1), by rw [exec_recvPoll, execRecvPoll_ready ready untaken rfl, empty],
        by rw [State.tileAt_mopOf, mop], ?_⟩
      exact Tile.queue_of_pollView (s.tileAt_pollView c.t (s.nextPoll c + 1) c.t) c.w.queue
    all_goals have view := s.tileAt_pollView c.t (s.nextPoll c + 1) c.t
    all_goals have queue : ((s.tileAt c.t (s.nextPoll c + 1)).tile c.t).queue c.w.queue = (s.tile c.t).queue c.w.queue :=
      Tile.queue_of_pollView view c.w.queue
    all_goals have at_mop : (s.tileAt c.t (s.nextPoll c + 1)).mopOf c.t c.mop.seq = some c.mop := by rw [State.tileAt_mopOf, mop]
    case short =>
      intro d head short
      rw [exec_recvPoll, execRecvPoll_ready ready untaken rfl, head]
      dsimp only
      rw [State.covers_of_pollView view, if_pos (by rw [ShuttleDesc.lines, short]; rfl)]
      exact ⟨_, rfl, at_mop, queue⟩
    case stale =>
      intro d head covers sound stale
      rw [exec_recvPoll, execRecvPoll_ready ready untaken rfl, head]
      dsimp only
      rw [State.covers_of_pollView view, if_neg (by rw [ShuttleDesc.lines, covers]; decide), State.remoteBad_of_pollView view,
        Tile.headSlot_of_pollView view, if_pos ⟨by rw [sound]; rfl, stale⟩, State.remoteRead_sound
        (by rw [State.remoteBad_of_pollView view, sound])]
      obtain ⟨freed, answered⟩ := State.answerStale_leaves (s := s.tileAt c.t (s.nextPoll c + 1)) ht c.w.queue_lt d
        ((s.tile c.t).queue c.w.queue).epoch
      refine ⟨_, rfl, by rw [freed, queue], fun m found send => answered m (by rw [State.tileAt_mopOf, found]) send⟩
    case takes =>
      intro d head covers take
      rw [exec_recvPoll, execRecvPoll_ready ready untaken rfl, head]
      dsimp only
      rw [State.covers_of_pollView view, if_neg (by rw [ShuttleDesc.lines, covers]; decide), State.remoteBad_of_pollView view,
        Tile.headSlot_of_pollView view, if_neg fun h => by
          rcases take with bad | same
          · rw [bad] at h
            exact absurd h.1 (by decide)
          · exact h.2 same]
      have marks := (s.tileAt c.t (s.nextPoll c + 1)).remoteRead_evolves c.t ((s.tile c.t).headSlot c.w.queue) 32
      obtain ⟨m, found, bad, cycle, queue'⟩ := State.takeDescriptor_leaves
        ((State.mopOf_of_sequencer (marks.kept .tWindow rfl) c.t c.mop.seq).trans at_mop) d
        (s.remoteBad c.t ((s.tile c.t).headSlot c.w.queue) 32) (s.nextPoll c)
      refine ⟨_, m, rfl, found, bad, cycle, queue'.trans ?_⟩
      have kept : ((State.remoteRead c.t ((s.tile c.t).headSlot c.w.queue) 32 (s.tileAt c.t (s.nextPoll c + 1))).1.tile c.t).queue
          c.w.queue = (s.tile c.t).queue c.w.queue :=
        (congrArg (fun x => Tab.at x ShuttleQueue.reset c.w.queue) (marks.kept .tQueues rfl c.t)).trans queue
      rw [kept]
    case closed =>
      rw [exec_recv, execRecv, State.withReady_some _ ready, taken, hv]
      dsimp only
      rw [if_pos (by rw [closed]; rfl)]
    case done =>
      obtain ⟨x, found⟩ := State.mopOf_isSome_of_pulse (t := c.t) (seq := c.mop.seq)
        ((State.pulse_recvWrite c v (s.recvBytes c v d) (s.recvOuts c v d) (s.recvMarks v d) c.t).trans
          (State.pulse_of_evolves (s.recvMarks_evolves v d) rfl c.t)) mop
      exact State.recvEnd_done v n d _ found
    case plain =>
      intro untyped wcb mem plain
      have outs : s.recvOuts c v d = [] := if_neg (by rw [untyped]; decide)
      refine ⟨fun head rec len sound i hi => ?_, fun bad i hi => ?_⟩
      · have bytes := State.recvBytes_sound untyped head rec len sound
        have length : (s.recvBytes c v d).length = d.length := by rw [bytes, readZeroed_length]
        rw [State.recvEnd_readByte, outs, State.recv_plain ⟨wcb, mem⟩ (fun j hj => plain j (by omega)) (by omega), bytes]
      · have bytes := State.recvBytes_bad (v := v) bad
        have length : (s.recvBytes c v d).length = v.dataRange.2 - v.dataRange.1 := by rw [bytes, List.length_replicate]
        rw [State.recvEnd_readByte, outs, State.recv_plain ⟨wcb, mem⟩ (fun j hj => plain j (by omega)) (by omega), bytes,
          List.getD_replicate _ hi]
    case windows =>
      intro x off place other untyped wcb mem head rec len sound i hi inside
      have outs : s.recvOuts c v d = [] := if_neg (by rw [untyped]; decide)
      have bytes := State.recvBytes_sound untyped head rec len sound
      rw [State.recvEnd_readByte, outs, State.recvWrite_readByte, State.tileStore_other _ place other, bytes]
      have marks := s.recvMarks_evolves v d
      have u_mem : (s.recvMarks v d).mem = s.mem := marks.kept .mem rfl
      have u_hbm : (s.recvMarks v d).hbm = s.hbm := marks.kept .hbm rfl
      have u_windows : ((s.recvMarks v d).tile x).windows = (s.tile x).windows := marks.kept .tWindows rfl x
      obtain ⟨hx, base⟩ := home_scratch_addr place
      have shift : v.dataRange.1 + i = scratchAddr x (off + i) := by rw [base]; unfold scratchAddr; omega
      obtain ⟨-, read⟩ := State.remoteStore_get c.t x off (s.readZeroed d.src d.length) (s := s.recvMarks v d)
        ⟨by rw [State.wcbOk, u_hbm]; exact wcb, by rw [u_mem]; exact mem⟩ (atScratch_scratchAddr hx inside)
      have shift' : scratchAddr x (off + i) = scratchAddr x off + i := by unfold scratchAddr; omega
      rw [shift, read, shift', Nat.add_sub_cancel_left, Tile.windowFor, u_windows, State.readByte_of_same u_mem u_hbm]
      have len' : (s.readZeroed d.src d.length).length = d.length := readZeroed_length ..
      simp only [len', show scratchAddr x off ≤ scratchAddr x off + i ∧ scratchAddr x off + i < scratchAddr x off + d.length by omega,
        true_and, and_self]
      rfl
  case reset =>
    dsimp only
    refine ⟨_, congrArg Host.Outcome.next (State.gated_of_reaches (s := s.unlatch) _ reach), ?_⟩
    have selects : (s.unlatch.selects q) = s.selects q := rfl
    rw [State.shqReset]
    rw [selects, if_neg (by omega)]
    exact State.advanceEpoch_queues s.unlatch ht hk

end Sys2Proof.Machine
end

section
/-!
PROOFS. O56, refuted: the check value that a CHK writes into another tile's scratchpad is dropped there with an event of its own.
-/
namespace Sys2Proof.Machine
open Sys2Proof.Tests

/-- Tile 0 computes the check value of 16 bytes of its scratchpad into the scratchpad of tile 1, which has opened no window. -/
def computeFar : State :=
  { run .off (mop { word 27 0 with o1 := ⟨0xFFF, 0⟩ }) with
    jobs := [{ job0 .off with descs := [words 0 4, words 0x1000 4, { words 0 4 with space := 2, base := scratchAddr 1 0x2000 }] }] }

/-- Nothing stands in its way, and its operands are unmarked. -/
theorem computeFar_hyps : (computeFar.readyCtx 0 3 (fun w => w.family == 27 && w.chkAction == 0)).any (fun c =>
    computeFar.badWord c == none && computeFar.chkOpen c && c.plainMarks == 0 && c.w.chkAction == 0 && emptyList c.mop.events &&
    (c.view 0).any fun src => (c.view 2).any fun dst =>
      let p := c.w.chkSpans src dst
      computeFar.badLine [p.1] == none && computeFar.badRemote 0 [p.1] == none) = true := by decide +kernel

/-- The write to a closed scratchpad is an event. -/
theorem computeFar_drops : goes (exec (.chkCompute 0 3) computeFar)
    (fun t => (t.mopOf 0 3).any (fun m => !emptyList m.events)) = true := by decide +kernel

/-- Refutes O56: a CHK_COMPUTE whose destination lies in another tile's scratchpad without an open window. Its write is dropped with a
REMOTE_DROP event, beside the events that the statement gives. -/
theorem not_checkUnits : ¬ Obligations.CheckUnits := by
  unfold Obligations.CheckUnits
  rintro ⟨-, works, -⟩
  obtain ⟨c, ready, hyps⟩ := (Option.any_eq_true _ _).1 computeFar_hyps
  simp only [Bool.and_eq_true, beq_iff_eq] at hyps
  obtain ⟨⟨⟨⟨⟨sound, opened⟩, unmarked⟩, compute⟩, noEvents⟩, views⟩ := hyps
  obtain ⟨src, source, views⟩ := (Option.any_eq_true _ _).1 views
  obtain ⟨dst, target, views⟩ := (Option.any_eq_true _ _).1 views
  simp only [Bool.and_eq_true, beq_iff_eq] at views
  obtain ⟨line, remote⟩ := views
  have pair : ∀ a, computeFar.chkPair c src dst = some a → c.wordCause a = none := by
    intro a broken
    simp [State.chkPair, compute] at broken
  obtain ⟨-, -, -, -, -, normal⟩ := works computeFar 0 3 c src dst (0, .chkCompute 0 3) (by simp) ⟨ready, sound⟩ source target
  obtain ⟨u, run, -, events, none, -⟩ := normal opened unmarked line remote pair
  have dropped := computeFar_drops
  rw [run] at dropped
  obtain ⟨m, at_, one⟩ := (Option.any_eq_true _ _).1 dropped
  rw [none rfl, List.append_nil, at_, Option.map_some, Option.some.injEq] at events
  rw [events, noEvents] at one
  cases one

end Sys2Proof.Machine
end

section
/-!
PROOFS. O42: stream words (R123, R141), the digits of an LWE key switch (R159), rounded drops and MODUP's conversion from one modulus
(R135-R138) as arithmetic of residues.
-/
namespace Sys2Proof.Machine

/-! ## Stream words -/

theorem getD_map_of_lt {f : Nat → Nat} {l : List Nat} {n : Nat} (h : n < l.length) : (l.map f).getD n 0 = f (l.getD n 0) := by
  simp [List.getD_eq_getElem?_getD, h]

theorem State.streamRow_length (s : State) (dst v : View) (c r b : Nat) : (s.streamRow dst v c r b).length = dst.n := by
  unfold State.streamRow State.readRowIn
  split <;> simp

/-- A row made of two rows, word by word. -/
theorem State.zip_streamRow (s : State) (f : Nat → Nat → Nat) (d a v : View) (k j r b : Nat) {w : Nat} (hw : w < d.n) :
    (List.zipWith f (s.streamRow d a k r b) (s.streamRow d v j r b)).getD w 0 =
      f ((s.streamRow d a k r b).getD w 0) ((s.streamRow d v j r b).getD w 0) :=
  getD_zipWith (by rwa [State.streamRow_length]) (by rwa [State.streamRow_length])

theorem State.map_streamRow (s : State) (f : Nat → Nat) (d a : View) (k r b : Nat) {w : Nat} (hw : w < d.n) :
    ((s.streamRow d a k r b).map f).getD w 0 = f ((s.streamRow d a k r b).getD w 0) :=
  getD_map_of_lt (by rwa [State.streamRow_length])

/-- A difference taken of the residues. -/
theorem mod_sub_add {q : Nat} (hq : 0 < q) (x y : Nat) : ((x % q + q - y % q) % q + y) % q = x % q := by
  have below := Nat.mod_lt y hq
  calc ((x % q + q - y % q) % q + y) % q
      = (x % q + q - y % q + y % q) % q := by rw [Nat.mod_add_mod, Nat.add_mod, Nat.add_mod (x % q + q - y % q), Nat.mod_mod]
    _ = x % q := by rw [Nat.sub_add_cancel (by omega), Nat.add_mod_right, Nat.mod_mod]

theorem negSel_add {q x : Nat} (hq : q ≤ 2 ^ 32) (hx : x < 2 * q) : (negSel q x + x) % q = 0 :=
  Nat.mod_eq_zero_of_dvd ((ZMod.natCast_eq_zero_iff ..).1 (by rw [Nat.cast_add, negSel_cast hq hx, neg_add_cancel]))

theorem total_filter (p : Nat → Bool) (f : Nat → Nat) (l : List Nat) :
    total ((l.filter p).map f) = total (l.map fun i => if p i then f i else 0) := by
  induction l with
  | nil => rfl
  | cons i l ih =>
    cases h : p i
    · simp [h, ih, total_cons]
    · simp [h, ih, total_cons]

theorem hmulRow_getD {q n w : Nat} (hw : w < n) (a b : Nat → List Nat) (ca cb k : Nat) :
    (hmulRow q n a b ca cb k).getD w 0 =
      total ((List.range (k + 1)).map fun j => if j < ca ∧ k - j < cb then (a j).getD w 0 * (b (k - j)).getD w 0 else 0) % q := by
  rw [hmulRow, List.getD_eq_getElem _ _ (by simpa using hw), List.getElem_map, List.getElem_range, total_filter]
  simp only [Bool.and_eq_true, decide_eq_true_eq]

/-! ## Digits -/

/-- Counting digits from the top, a word's l digits of b bits are its low b·l bits. -/
theorem total_digits (b v : Nat) : ∀ l, total ((List.range l).map fun i => v / 2 ^ (b * (l - 1 - i)) % 2 ^ b * 2 ^ (b * (l - 1 - i))) = v % 2 ^ (b * l)
  | 0 => by simp [total, Nat.mod_one]
  | l + 1 => by
    have low := total_digits b v l
    have shift : ∀ i, l + 1 - 1 - (i + 1) = l - 1 - i := by omega
    rw [List.range_succ_eq_map, List.map_cons, List.map_map, total_cons]
    simp only [Function.comp_def, Nat.succ_eq_add_one, shift, low]
    rw [Nat.mul_add_one, Nat.pow_add, Nat.mod_mul, Nat.add_sub_cancel, Nat.sub_zero, Nat.mul_comm, Nat.add_comm]

theorem lweDigits_lt {q b l a d : Nat} (h : d ∈ lweDigits q b l a) : d < 2 ^ b := by
  rw [lweDigits, List.mem_map] at h
  obtain ⟨i, -, rfl⟩ := h
  exact Nat.mod_lt _ (Nat.two_pow_pos b)

theorem lweDigits_length (q b l a : Nat) : (lweDigits q b l a).length = l := by simp [lweDigits]

theorem lweDigits_total (q b l a : Nat) : total ((List.range l).map fun i => (lweDigits q b l a).getD i 0 * 2 ^ (b * (l - 1 - i))) =
    (a % q * 2 ^ (b * l) + q / 2) / q % 2 ^ (b * l) := by
  have digit : ∀ i ∈ List.range l, (lweDigits q b l a).getD i 0 * 2 ^ (b * (l - 1 - i)) =
      (a % q * 2 ^ (b * l) + q / 2) / q % 2 ^ (b * l) / 2 ^ (b * (l - 1 - i)) % 2 ^ b * 2 ^ (b * (l - 1 - i)) := by
    intro i hi
    rw [List.mem_range] at hi
    simp [lweDigits, List.getD_eq_getElem?_getD, hi]
  rw [List.map_congr_left digit, total_digits, Nat.mod_mod]

/-! ## Base conversion and rounded drops -/

theorem invMod_one {m : Nat} (hm : 1 < m) : invMod 1 m = 1 := by
  have steps : ∃ f, 2 * Nat.log2 (m + 1) + 4 = f + 2 := ⟨2 * Nat.log2 (m + 1) + 2, rfl⟩
  obtain ⟨f, steps⟩ := steps
  have go : invGo (f + 2) m ((1 % m : Nat) : Int) 0 1 = (1, 1) := by
    cases f <;> simp [invGo, Nat.mod_eq_of_lt hm]
  have one : ((1 : Int) % (m : Int)).toNat = 1 := by
    rw [Int.emod_eq_of_lt (by omega) (by omega)]
    rfl
  rw [invMod, invMod?, steps, go]
  simp [one]

theorem conv_one {q : Nat} (hq : 1 < q) (t x : Nat) : conv [(q, x)] t = x % q % t := by
  have whole : q / q = 1 := Nat.div_self (by omega)
  simp [conv, product, total, whole, invMod_one hq]

theorem dropRound_one {q t : Nat} (hq : 1 < q) (inv : q * invMod (q % t) t % t = 1) (x : Nat) (ht : 0 < t) :
    dropRound [(q, x % q)] t (x % t) = (x + q / 2) / q % t := by
  have lower : (conv [(q, (x % q + q / 2) % q)] t) = (x + q / 2) % q % t := by
    rw [conv_one hq, Nat.mod_mod, Nat.mod_add_mod]
  have split := Nat.div_add_mod (x + q / 2) q
  have product : product [q] = q := by simp [product]
  have cast : (((x + q / 2) / q * q : Nat) : ZMod t) = ((x + q / 2 : Nat) : ZMod t) - (((x + q / 2) % q : Nat) : ZMod t) := by
    rw [eq_sub_iff_add_eq, ← Nat.cast_add, Nat.mul_comm, split]
  have inverse := mul_cast_eq_one inv
  simp only [dropRound, List.map_cons, List.map_nil, product, lower]
  rw [Nat.mod_add_mod]
  refine (ZMod.natCast_eq_natCast_iff' ..).1 ?_
  have le : (x + q / 2) % q % t ≤ (x + q / 2) % t + t := (Nat.mod_lt _ ht).le.trans (Nat.le_add_left ..)
  rw [Nat.cast_mul, ZMod.natCast_mod, Nat.cast_sub le, Nat.cast_add ((x + q / 2) % t), ZMod.natCast_self, add_zero, ZMod.natCast_mod,
    ZMod.natCast_mod, ← cast, Nat.cast_mul, mul_assoc, inverse, mul_one]

theorem dropAt_top {l : Nat} {qs : List Nat} {x : Nat} (len : qs.length = l + 1) (big : ∀ q ∈ qs, 1 < q)
    (inv : ∀ r, r < l → qs.getD l 1 * invMod (qs.getD l 1 % qs.getD r 1) (qs.getD r 1) % qs.getD r 1 = 1) :
    dropAt l qs (qs.map (x % ·)) = (List.range l).map fun r => (x + qs.getD l 1 / 2) / qs.getD l 1 % qs.getD r 1 := by
  have member : ∀ r, r < l + 1 → 1 < qs.getD r 1 ∧ (qs.map (x % ·)).getD r 0 = x % qs.getD r 1 := by
    intro r hr
    have at_ : r < qs.length := by omega
    rw [List.getD_eq_getElem _ _ at_, List.getD_eq_getElem _ _ (by simpa using at_), List.getElem_map]
    exact ⟨big _ (List.getElem_mem at_), rfl⟩
  have top : qs.drop l = [qs.getD l 1] := by
    rw [List.drop_eq_getElem_cons (by omega), List.drop_of_length_le (by omega), List.getD_eq_getElem _ _ (by omega)]
  have source : List.zip (qs.drop l) ((qs.map (x % ·)).drop l) = [(qs.getD l 1, x % qs.getD l 1)] := by
    rw [← List.map_drop, top]
    rfl
  rw [dropAt, source]
  refine List.map_congr_left fun r hr => ?_
  rw [List.mem_range] at hr
  obtain ⟨big, residue⟩ := member r (by omega)
  rw [residue]
  exact dropRound_one (member l (by omega)).1 (inv r hr) x (by omega)

/-- Settles O42: word by word for the streams, in base 2^b for the digits, and in ℤ/t for the drops. -/
theorem wordsAreResidues : Obligations.WordsAreResidues := by
  unfold Obligations.WordsAreResidues
  refine ⟨fun s a v d k r b i q w hw hq => ⟨?_, ?_, ?_, ?_, fun hx hq32 => ?_, ?_⟩,
    fun q b l a _ => ⟨lweDigits_length .., fun d => lweDigits_lt, lweDigits_total ..⟩,
    fun q t x hq ht inv => dropRound_one hq inv x (by omega), fun q t x hq => conv_one hq t x, fun l qs x len big inv => dropAt_top len big inv⟩
  · exact s.zip_streamRow (fun x y => (x + y) % q) d a v k k r b hw
  · have word : (streamOut s 11 a (some v) d k r b i q).getD w 0 = _ := s.zip_streamRow (fun x y => (x % q + q - y % q) % q) d a v k k r b hw
    simp only [word]
    exact mod_sub_add hq _ _
  · exact s.zip_streamRow (fun x y => x * y % q) d a v k 0 r b hw
  · exact s.map_streamRow (fun x => x * s.tableWord v i % q) d a k r b hw
  · have word : (streamOut s 12 a none d k r b i q).getD w 0 = _ := s.map_streamRow (negSel q) d a k r b hw
    simp only [word]
    exact ⟨negSel_add hq32 hx, negSel_lt hq32 hx⟩
  · have row : streamOut s 8 a (some v) d k r b i q = hmulRow q d.n (fun c => s.streamRow d a c r b) (fun c => s.streamRow d v c r b)
      (a.desc.roleExtent 3) (v.desc.roleExtent 3) k := rfl
    rw [row, hmulRow_getD hw]

end Sys2Proof.Machine
end

section
/-!
PROOFS. O60, refuted: a job may name a tile whose scratchpad address is another memory's, and an abort that starts a recovery writes its
queues' words there.
-/
namespace Sys2Proof.Machine
open Sys2Proof.Tests

/-- The tile number whose scratchpad address is the first of host memory. -/
abbrev tileAtHost := (2 ^ 63 - 0x20000000000) / 0x800000

/-- Under GUARD, tile 0's macro-operation has met an abort cause; the job names a third tile, which the module does not have. -/
def abortBeyond : State :=
  let s := run .mirror { mop (word 0 0) with stop := some .transit }
  { s with jobs := s.jobs.map (fun j => { j with tiles := j.tiles ++ [⟨tileAtHost, 0, 9, 0⟩] }) }

/-- An address of host memory, where the status word of that tile's first stream queue would stand. -/
abbrev strayAddr := 2 ^ 63 + 0x5FE08C

theorem abortBeyond_hyps : (abortBeyond.ctx 0 3).any (fun c => c.job.ending.isNone && c.mop.stop == some .transit && c.chain.isNone) = true ∧
    abortBeyond.tileRuns 0 = true ∧ Memory.wf abortBeyond.mem = true ∧ home strayAddr = .host := by decide +kernel

/-- The recovery writes there. -/
theorem abortBeyond_writes : goes (exec (.macroAbort 0 3 .transit) abortBeyond)
    (fun t => Memory.get t.mem strayAddr != Memory.get abortBeyond.mem strayAddr) = true := by decide +kernel

/-- Refutes O60: an abort under GUARD in a job with a tile number beyond the module's. The recovery that it starts makes that tile's
stream queues idle, and their words are written at an address of host memory, which is no control page. -/
theorem not_macroOperationsEnd : ¬ Obligations.MacroOperationsEnd := by
  unfold Obligations.MacroOperationsEnd
  intro ends
  obtain ⟨hyps, runs, sound, host⟩ := abortBeyond_hyps
  obtain ⟨c, ctx, hyps⟩ := (Option.any_eq_true _ _).1 hyps
  simp only [Bool.and_eq_true, beq_iff_eq, Option.isNone_iff_eq_none] at hyps
  obtain ⟨⟨live, stop⟩, chain⟩ := hyps
  obtain ⟨-, -, ends⟩ := ends abortBeyond 0 3
  obtain ⟨-, -, aborts, -⟩ := ends c ctx runs
  obtain ⟨v, run, -, kept, -⟩ := aborts .transit .transit live (Or.inl stop) (by rw [chain]; rintro _ ⟨⟩)
  have written := abortBeyond_writes
  have same := kept sound strayAddr (by rw [host]; rintro _ _ ⟨⟩)
  rw [run, goes, same, bne_self_eq_false] at written
  cases written

end Sys2Proof.Machine
end

section
/-!
PROOFS. O46: vector programs (R143-R148, R564): the run of a program, its issue cycles, and what each instruction lands.
-/
namespace Sys2Proof.Machine

/-! ## The command -/

/-- What the runs of a program may change before its effect is noted: what stores change, and the tile registers. -/
abbrev Part.vectors : List Part := .tVregs :: Part.stored

theorem State.vectors_window {s u : State} (h : Evolves Part.vectors.contains s u) (t seq : Nat) : u.mopOf t seq = s.mopOf t seq :=
  State.mopOf_of_sequencer (h.kept .tWindow rfl) t seq

theorem State.audit_mopOf (t : Nat) (j : Job) (es : List (List Byte)) (s : State) (t' seq : Nat) :
    (s.audit t j es).mopOf t' seq = s.mopOf t' seq := by
  refine State.foldl_mopOf (fun s e => ?_) es s
  dsimp only
  split
  · refine (State.mopOf_mapTile _ _ _ _ _ rfl).trans ?_
    rw [State.store_mopOf, State.count_mopOf, State.count_mopOf]
  · rw [State.count_mopOf, State.count_mopOf]

theorem State.audit_freeCount (t : Nat) (j : Job) (es : List (List Byte)) (s : State) : (s.audit t j es).freeCount = s.freeCount := by
  have : Stores (Part.tWindow :: Part.stored).contains := stores_of rfl
  have : MayTWindow (Part.tWindow :: Part.stored).contains := ⟨rfl⟩
  have evolves : Evolves (Part.tWindow :: Part.stored).contains s (s.audit t j es) := (Evolves.refl _ s).audit
  exact evolves.kept .freeCount rfl

/-- The passes of a VPROG, from the tile with what has landed. -/
def State.vprogPasses (c : Ctx) (s : State) : VPass :=
  let g := s.program c.job.image c.w.prog
  let start := c.mop.start.getD 0 + (if c.w.chain = 0 then 0 else c.mop.held)
  let u := s.mapTile c.t (fun u => u.land (start + 6))
  let x : VCtx :=
    { t := c.t, seq := c.mop.seq, start := start, tile := u.tile c.t, older := (u.tile c.t).landings,
      moduli := [], round := c.job.mode.round, seed := c.job.roundSeed, free := u.freeCount,
      slots := c.slots, pos := 0, zeros := [] }
  let first : VPass := { lands := [], reads := [], newFlags := 0, start := start, state := u }
  match c.chain.bind (fun ch => (ch.inters[0]?).map (fun i => (ch, i))) with
  | some (ch, i) => if ch.kind = 2 ∨ ch.kind = 5 then x.passUnits c g ch i first else x.pass c g first
  | none => x.pass c g first

theorem State.vprogPasses_evolves (c : Ctx) (s : State) : Evolves Part.vectors.contains s (s.vprogPasses c).state := by
  have : Stores Part.vectors.contains := stores_of rfl
  have : MayTVregs Part.vectors.contains := ⟨rfl⟩
  unfold State.vprogPasses
  extract_lets g start u x first
  have landed : Evolves Part.vectors.contains s u := (Evolves.refl _ s).mapTile fun _ => TKept.land _ _
  have begun : Evolves Part.vectors.contains s first.state := landed
  clear_value x first
  split
  · split
    · exact begun.passUnits
    · exact begun.pass
  · exact begun.pass

/-- The passes noted: the free values used up, a NaN counted, the landings kept. -/
def State.vprogNoted (c : Ctx) (r : VPass) : State :=
  let s := { r.state with freeCount := r.state.freeCount + 1 }
  let s := if bit r.newFlags 3 then s.count .nanSrcRaised c.t 1 else s
  s.mapTile c.t (fun u => { u with landings := u.landings ++ r.lands })

theorem State.runVprog_eq (c : Ctx) (s : State) : s.runVprog c =
    (let r := s.vprogPasses c
     let u := (State.vprogNoted c r).keepPoison c r.newFlags
     (if c.job.mode.audit then u.audit c.t c.job (timingEvents c.t c.mop.seq
       ((s.mapTile c.t (fun u => u.land (c.mop.start.getD 0 + (if c.w.chain = 0 then 0 else c.mop.held) + 6))).tile c.t).landings r.reads)
      else u).markDone c) := rfl

theorem State.vprogNoted_freeCount (c : Ctx) (r : VPass) : (State.vprogNoted c r).freeCount = r.state.freeCount + 1 := by
  unfold State.vprogNoted
  split
  · rw [State.mapTile_freeCount, State.count_freeCount]
  · rfl

theorem State.vprogNoted_mopOf (c : Ctx) (r : VPass) (t seq : Nat) : (State.vprogNoted c r).mopOf t seq = r.state.mopOf t seq := by
  unfold State.vprogNoted
  refine (State.mopOf_mapTile _ _ _ _ _ rfl).trans ?_
  split
  · exact State.count_mopOf ..
  · rfl

theorem State.keepPoison_freeCount (c : Ctx) (new : Nat) (s : State) : (s.keepPoison c new).freeCount = s.freeCount := by
  unfold State.keepPoison
  split <;> rfl

theorem State.markDone_freeCount (c : Ctx) (s : State) : (s.markDone c).freeCount = s.freeCount := by
  have : MayTWindow [Part.tWindow].contains := ⟨rfl⟩
  have evolves : Evolves [Part.tWindow].contains s (s.markDone c) := (Evolves.refl _ s).markDone
  exact evolves.kept .freeCount rfl

/-- A program that runs takes its macro-operation's effect and one number of free values. -/
theorem State.runVprog_done {s : State} {c : Ctx} {m : Mop} (h : s.mopOf c.t c.mop.seq = some m) :
    ((s.runVprog c).mopOf c.t c.mop.seq).map (·.done) = some true ∧ (s.runVprog c).freeCount = s.freeCount + 1 := by
  rw [State.runVprog_eq]
  extract_lets r u
  have passes := s.vprogPasses_evolves c
  have kept : (u.mopOf c.t c.mop.seq) = _ := State.keepPoison_mopOf r.newFlags
    ((State.vprogNoted_mopOf c r ..).trans ((State.vectors_window passes ..).trans h))
  have free : u.freeCount = s.freeCount + 1 := by
    rw [State.keepPoison_freeCount, State.vprogNoted_freeCount]
    exact congrArg (· + 1) (passes.kept .freeCount rfl)
  clear_value u
  split
  · obtain ⟨x, done⟩ := State.markDone_hasMop ((State.audit_mopOf ..).trans kept)
    rw [done, State.markDone_freeCount, State.audit_freeCount]
    exact ⟨rfl, free⟩
  · obtain ⟨x, done⟩ := State.markDone_hasMop kept
    rw [done, State.markDone_freeCount]
    exact ⟨rfl, free⟩

theorem exec_vprog_runs {s : State} {t seq : Nat} {c : Ctx} (h : s.workable t seq (fun w => w.family == 14) c) (turn : s.vprogTurn c = true)
    (sound : s.badProgram c = none) : exec (.vprog t seq) s = .next (s.runVprog c) := by
  rw [exec_vprog, execVprog, State.withReady_some _ h.1, if_pos turn, State.guarded_sound _ h.2, sound]

theorem exec_vprog_stops {s : State} {t seq a : Nat} {c : Ctx} (h : s.workable t seq (fun w => w.family == 14) c) (turn : s.vprogTurn c = true)
    (bad : s.badProgram c = some a) : exec (.vprog t seq) s = .next (s.stopMop c (.memLine a)) := by
  rw [exec_vprog, execVprog, State.withReady_some _ h.1, if_pos turn, State.guarded_sound _ h.2, bad]

/-! ## Issue cycles (R146) -/

theorem vIssueGo_length (slots : Slots) : ∀ (ws : List Nat) (c : Nat), (vIssueGo slots c ws).length = ws.length + 1
  | [], _ => rfl
  | w :: ws, c => by simp only [vIssueGo, List.length_cons, vIssueGo_length slots ws]

theorem vIssueGo_first (slots : Slots) (c : Nat) (ws : List Nat) : (vIssueGo slots c ws).getD 0 0 = c := by
  cases ws <;> rfl

/-- The delay that an instruction of a list asks before itself. -/
theorem vIssueGo_next (slots : Slots) : ∀ (ws : List Nat) (c i : Nat), i < ws.length →
    (vIssueGo slots c ws).getD (i + 1) 0 = (vIssueGo slots c ws).getD i 0 + vDuration slots (ws.getD i 0) +
      (if i + 1 < ws.length ∧ vMem (ws.getD (i + 1) 0) = false ∧ vBc (ws.getD (i + 1) 0) ≠ 0 then 16 else 0)
  | [], _, _, h => absurd h (by simp)
  | [w], c, 0, _ => by simp [vIssueGo]
  | w :: w' :: ws, c, 0, _ => by
    simp only [vIssueGo, List.getD_cons_zero, List.getD_cons_succ, List.length_cons]
    simp [vDelay]
  | w :: ws, c, i + 1, h => by
    have rest (k : Nat) := vIssueGo_next slots ws k i (by simpa using h)
    simp only [vIssueGo, List.getD_cons_succ, List.length_cons, Nat.add_lt_add_iff_right]
    exact rest _

theorem vTiming_latency (slots : Slots) (g : Program) : (vTiming slots g).1 = (vIssue slots g).getD g.words.length 0 + 16 := by
  have len := vIssueGo_length slots g.words 6
  rw [vTiming, vEnd, vIssue, List.getLast?_eq_getElem?, len, Nat.add_sub_cancel, List.getD_eq_getElem?_getD,
    List.getElem?_eq_getElem (by omega)]
  rfl

/-! ## What a compute instruction lands -/

theorem Tile.readRow_length (u : Tile) (ls : List Landing) (reg row c : Nat) : (u.readRow ls reg row c).length = 128 := by
  simp [Tile.readRow]

theorem VCtx.rows_getD (x : VCtx) (ls : List Landing) (reg c : Nat) (once : Bool) (r : Nat) :
    (x.rows ls reg c once).getD r [] = if r < 32 then x.tile.readRow ls reg r (if once then c else c + r) else [] := by
  by_cases h : r < 32 <;> simp [VCtx.rows, List.getD_eq_getElem?_getD, h]

/-- Word k of row r as an instruction issued in cycle c reads it. -/
def VCtx.word (x : VCtx) (ls : List Landing) (reg c r k : Nat) : Nat := (x.tile.readRow ls reg r (c + r)).getD k 0

theorem VCtx.rows_word (x : VCtx) (ls : List Landing) (reg c : Nat) {r : Nat} (hr : r < 32) (k : Nat) :
    ((x.rows ls reg c false).getD r []).getD k 0 = x.word ls reg c r k := by
  rw [VCtx.rows_getD, if_pos hr]
  rfl

/-- The B value at (row, column) (R145). -/
def VCtx.bWord (x : VCtx) (ls : List Landing) (w c r k : Nat) : Nat :=
  if vBc w = 0 then x.word ls (vB w) c r k
  else if vBc w = 1 then if vSel w < 32 then (x.tile.readRow ls (vB w) (vSel w) c).getD k 0 else 0
  else if vBc w = 2 then (x.tile.readRow ls (vB w) r c).getD (vSel w) 0
  else (x.tile.readRow ls (vB w) 0 c).getD (vSel w) 0

theorem VCtx.vBroadcast_rows (x : VCtx) (ls : List Landing) (w c : Nat) {r : Nat} (hr : r < 32) (k : Nat) :
    vBroadcast w (x.rows ls (vB w) c (vBc w != 0)) r k = x.bWord ls w c r k := by
  unfold vBroadcast VCtx.bWord
  simp only [VCtx.rows_getD, hr, if_true]
  split
  case h_1 none => rw [none]; rfl
  case h_2 row => rw [row]; split <;> rfl
  case h_3 column => rw [column]; rfl
  case h_4 n0 n1 n2 => rw [if_neg n0, if_neg n1, if_neg n2, if_pos (by omega), if_pos (by simpa using n0)]

/-- Instructions that do not work element by element: sums, compressions and conversions. -/
abbrev vWhole : List Nat := [0x18, 0x19, 0x1A, 0x1B, 0x1C, 0x1D, 0x28]

/-- One element of any other compute instruction. -/
def VCtx.element (x : VCtx) (ls : List Landing) (i w c r k : Nat) : Nat :=
  let a := x.word ls (vA w) c r k
  let b := if vUsesB w then x.bWord ls w c r k else vBroadcast w [] r k
  if vOp w = 0x2A ∨ vOp w = 0x2B then vPick w a b
  else if vModular w then
    match x.q r with
    | some q => vElem w q a b (if vOp w = 0x05 then x.word ls (vC w) c r k else 0)
    | none => x.freeWord i r k
  else vElem w 1 a b 0

theorem VCtx.compute_element (x : VCtx) (ls : List Landing) (i c : Nat) {w : Nat} (plain : vOp w ∉ vWhole) :
    x.compute ls i w c =
      ((List.range 32).map (fun r => (r, c + r + vDepth w, (List.range 128).map (x.element ls i w c r))), false) := by
  have b : ∀ r, r < 32 → ∀ k, vBroadcast w (if vUsesB w then x.rows ls (vB w) c (vBc w != 0) else []) r k =
      if vUsesB w then x.bWord ls w c r k else vBroadcast w [] r k := by
    intro r hr k
    split
    · exact x.vBroadcast_rows ls w c hr k
    · rfl
  have d : ∀ r, r < 32 → ∀ k, ((if vOp w = 0x05 then x.rows ls (vC w) c false else []).getD r []).getD k 0 =
      if vOp w = 0x05 then x.word ls (vC w) c r k else 0 := by
    intro r hr k
    split
    · exact x.rows_word ls (vC w) c hr k
    · rfl
  unfold VCtx.compute
  split
  case h_8 =>
    refine congrArg (·, false) (List.map_congr_left fun r hr => ?_)
    rw [List.mem_range] at hr
    refine congrArg (fun row => (r, c + r + vDepth w, row)) (List.map_congr_left fun k _ => ?_)
    dsimp only
    rw [x.rows_word ls (vA w) c hr k, b r hr k, d r hr k]
    rfl
  all_goals next op => exact absurd op (fun op => plain (by rw [op]; decide))

/-- What an instruction leaves at row r and column k, and how many cycles after its issue and the row's turn. -/
def VCtx.Lands (x : VCtx) (ls : List Landing) (i w c r k : Nat) (e : Nat × Nat) : Prop :=
  ∃ row, ((x.compute ls i w c).1)[r]? = some (r, c + r + e.1, row) ∧ row.getD k 0 = e.2

theorem VCtx.lands_of_rows {x : VCtx} {ls : List Landing} {i w c r k e : Nat} {f : Nat → List Nat} {nan : Bool} {v : Nat}
    (h : x.compute ls i w c = ((List.range 32).map (fun r => (r, c + r + e, f r)), nan)) (hr : r < 32) (value : (f r).getD k 0 = v) :
    x.Lands ls i w c r k (e, v) :=
  ⟨f r, by rw [h]; simp [hr], value⟩

theorem getD_map_range {f : Nat → Nat} {n k : Nat} (h : k < n) : ((List.range n).map f).getD k 0 = f k := by
  simp [List.getD_eq_getElem?_getD, h]

theorem VCtx.lands_element {x : VCtx} {ls : List Landing} {i w c r k : Nat} {e v : Nat} (plain : vOp w ∉ vWhole) (hr : r < 32) (hk : k < 128)
    (depth : vDepth w = e) (value : x.element ls i w c r k = v) : x.Lands ls i w c r k (e, v) :=
  VCtx.lands_of_rows (f := fun r => (List.range 128).map (x.element ls i w c r)) (depth ▸ x.compute_element ls i c plain) hr
    ((getD_map_range hk).trans value)

section
variable {x : VCtx} {ls : List Landing} {i w c r k : Nat}

theorem VCtx.element_modular {q : Nat} (hq : x.q r = some q) (op : vOp w ∈ [1, 2, 3, 4, 5, 6]) :
    x.element ls i w c r k = vElem w q (x.word ls (vA w) c r k) (x.bWord ls w c r k) (x.word ls (vC w) c r k) := by
  simp only [List.mem_cons, List.not_mem_nil, or_false] at op
  rcases op with op | op | op | op | op | op <;> simp [VCtx.element, op, vModular, vUsesB, vElem, hq]

theorem VCtx.element_free (hq : x.q r = none) (op : vOp w ∈ [1, 2, 3, 4, 5, 6]) :
    x.element ls i w c r k = (Config.freeLane x.free (x.pos + 4096 * i + 128 * r + k)).toNat := by
  simp only [List.mem_cons, List.not_mem_nil, or_false] at op
  rcases op with op | op | op | op | op | op <;> simp [VCtx.element, op, vModular, hq, VCtx.freeWord]

theorem VCtx.element_word (op : vOp w ∈ [8, 9, 0xA, 0xB, 0xC, 0xD, 0xE, 0xF, 0x10, 0x29, 0x2C, 0x2D]) :
    x.element ls i w c r k = vElem w 1 (x.word ls (vA w) c r k) (x.bWord ls w c r k) 0 := by
  simp only [List.mem_cons, List.not_mem_nil, or_false] at op
  rcases op with op | op | op | op | op | op | op | op | op | op | op | op <;> simp [VCtx.element, op, vModular, vUsesB, vElem]

theorem VCtx.element_pick (op : vOp w = 0x2A ∨ vOp w = 0x2B) :
    x.element ls i w c r k = vPick w (x.word ls (vA w) c r k) (x.bWord ls w c r k) := by
  rcases op with op | op <;> simp [VCtx.element, op, vUsesB]

/-! ## Sums, compressions and conversions -/

theorem eq_map_getD {l : List Nat} {n : Nat} (h : l.length = n) : l = (List.range n).map (l.getD · 0) := by
  subst h
  refine List.ext_getElem (by simp) fun i hi _ => ?_
  rw [List.getElem_map, List.getElem_range, List.getD_eq_getElem _ _ hi]

theorem VCtx.total_row (hr : r < 32) (reg : Nat) :
    total ((x.rows ls reg c false).getD r []) = total ((List.range 128).map (x.word ls reg c r)) := by
  have row : (x.rows ls reg c false).getD r [] = x.tile.readRow ls reg r (c + r) := by
    rw [VCtx.rows_getD, if_pos hr]
    rfl
  rw [row, eq_map_getD (Tile.readRow_length x.tile ls reg r (c + r))]
  rfl

theorem VCtx.column (reg : Nat) : (x.rows ls reg c false).map (fun row => row.getD k 0) = (List.range 32).map (fun r => x.word ls reg c r k) := by
  rw [VCtx.rows, List.map_map]
  rfl

theorem getD_head_zeros (v k : Nat) : (v :: List.replicate 127 0).getD k 0 = if k = 0 then v else 0 := by
  cases k with
  | zero => rfl
  | succ k =>
    rw [List.getD_cons_succ, if_neg (Nat.succ_ne_zero k), List.getD_eq_getElem?_getD, List.getElem?_replicate]
    split <;> rfl

theorem VCtx.lands_rowSum (hr : r < 32) {q : Nat} (hq : x.q r = some q) (op : vOp w = 0x18) :
    x.Lands ls i w c r k (10, if k = 0 then total ((List.range 128).map (x.word ls (vA w) c r)) % q else 0) := by
  refine VCtx.lands_of_rows (nan := false) (e := 10) (f := fun r => (match x.q r with
    | some q => total ((x.rows ls (vA w) c false).getD r []) % q
    | none => x.freeWord i r 0) :: List.replicate 127 0) ?_ hr ?_
  · simp only [VCtx.compute, op] <;> rfl
  · rw [hq, getD_head_zeros, VCtx.total_row hr]

theorem VCtx.lands_wordSum (hr : r < 32) (op : vOp w = 0x1A) :
    x.Lands ls i w c r k (10, if k = 0 then total ((List.range 128).map (x.word ls (vA w) c r)) % 2 ^ 32 else 0) := by
  refine VCtx.lands_of_rows (nan := false) (e := 10) (f := fun r =>
    word32 (total ((x.rows ls (vA w) c false).getD r [])) :: List.replicate 127 0) ?_ hr ?_
  · simp only [VCtx.compute, op]
  · rw [getD_head_zeros, VCtx.total_row hr]
    rfl

/-- The places that a mask row marks. -/
theorem maskPositions_eq (row : List Nat) : maskPositions row = (List.range 128).filter fun i => row.getD i 0 ≠ 0 :=
  List.filter_congr fun i _ => by rw [Bool.eq_iff_iff, bne_iff_ne, decide_eq_true_iff]

theorem maskPositions_nodup (row : List Nat) : (maskPositions row).Nodup := List.nodup_range.filter _

theorem compress_getD (mask a : List Nat) (hk : k < 128) :
    (compress mask a).getD k 0 = if k < (maskPositions mask).length then a.getD ((maskPositions mask).getD k 0) 0 else 0 := by
  rw [compress, getD_map_range hk]
  split
  next j some =>
    have inside := (List.getElem?_eq_some_iff.1 some).1
    have place : (maskPositions mask).getD k 0 = j := by
      rw [List.getD_eq_getElem?_getD, some]
      rfl
    rw [if_pos inside, place]
  next none => rw [if_neg (by simpa using none)]

theorem expand_getD_unmarked (mask a : List Nat) (hk : k < 128) (out : k ∉ maskPositions mask) : (expand mask a).getD k 0 = 0 := by
  have none : (maskPositions mask).findIdx? (· == k) = none := by
    rw [List.findIdx?_eq_none_iff]
    intro j hj
    rw [beq_eq_false_iff_ne]
    rintro rfl
    exact out hj
  rw [expand, getD_map_range hk, none]

theorem expand_getD_marked (mask a : List Nat) (hk : k < 128) {j : Nat} (at_j : (maskPositions mask)[j]? = some k) :
    (expand mask a).getD k 0 = a.getD j 0 := by
  obtain ⟨inside, is⟩ := List.getElem?_eq_some_iff.1 at_j
  have first : (maskPositions mask).findIdx? (· == k) = some j := by
    rw [List.findIdx?_eq_some_iff_getElem]
    refine ⟨inside, by rw [is, beq_self_eq_true], fun n hn same => ?_⟩
    rw [beq_iff_eq] at same
    exact absurd ((maskPositions_nodup mask).getElem_inj_iff.1 (same.trans is.symm)) (by omega)
  rw [expand, getD_map_range hk, first]

theorem VCtx.lands_compress (hr : r < 32) (op : vOp w = 0x1C) :
    x.Lands ls i w c r k (4, (compress (x.tile.readRow ls (maskReg (vC w)) r (c + r)) (x.tile.readRow ls (vA w) r (c + r))).getD k 0) := by
  refine VCtx.lands_of_rows (nan := false) (e := 4) (f := fun r =>
    compress (x.tile.readRow ls (maskReg (vC w)) r (c + r)) ((x.rows ls (vA w) c false).getD r [])) ?_ hr ?_
  · simp only [VCtx.compute, op]
  · rw [VCtx.rows_getD, if_pos hr]
    rfl

theorem VCtx.lands_expand (hr : r < 32) (op : vOp w = 0x1D) :
    x.Lands ls i w c r k (4, (expand (x.tile.readRow ls (maskReg (vC w)) r (c + r)) (x.tile.readRow ls (vA w) r (c + r))).getD k 0) := by
  refine VCtx.lands_of_rows (nan := false) (e := 4) (f := fun r =>
    expand (x.tile.readRow ls (maskReg (vC w)) r (c + r)) ((x.rows ls (vA w) c false).getD r [])) ?_ hr ?_
  · simp only [VCtx.compute, op]
  · rw [VCtx.rows_getD, if_pos hr]
    rfl

/-- The fixed-point value of an element, none for a NaN. -/
def VCtx.fixed (x : VCtx) (ls : List Landing) (i w c r k : Nat) : Option Nat :=
  toFixed x.round (srcVal (vC w) (x.word ls (vA w) c r k)) (signed 7 (vSel w)) (draw x.seed x.t x.seq (x.pos + 4096 * i + 128 * r + k))

theorem VCtx.compute_fixed (op : vOp w = 0x28) : x.compute ls i w c =
    ((List.range 32).map (fun r => (r, c + r + 4, (List.range 128).map fun k => (x.fixed ls i w c r k).getD 0)),
      (List.range 32).any (fun r => (List.range 128).any fun k => (x.fixed ls i w c r k).isNone)) := by
  have value : ∀ r, r < 32 → ∀ k, toFixed x.round (srcVal (vC w) (((x.rows ls (vA w) c false).getD r []).getD k 0)) (signed 7 (vSel w))
      (draw x.seed x.t x.seq (x.pos + 4096 * i + 128 * r + k)) = x.fixed ls i w c r k := by
    intro r hr k
    rw [x.rows_word ls (vA w) c hr k]
    rfl
  simp only [VCtx.compute, op]
  refine congrArg₂ Prod.mk (List.map_congr_left fun r hr => ?_) ?_
  · rw [List.mem_range] at hr
    simp only [value r hr]
  · rw [Bool.eq_iff_iff, List.any_eq_true, List.any_eq_true]
    refine exists_congr fun r => and_congr_right fun hr => ?_
    rw [List.mem_range] at hr
    simp only [value r hr]

theorem VCtx.lands_fixed (hr : r < 32) (hk : k < 128) (op : vOp w = 0x28) :
    x.Lands ls i w c r k (4, (x.fixed ls i w c r k).getD 0) :=
  VCtx.lands_of_rows (f := fun r => (List.range 128).map fun k => (x.fixed ls i w c r k).getD 0) (VCtx.compute_fixed op) hr (getD_map_range hk)

/-- Only a conversion meets a NaN that counts. -/
theorem VCtx.compute_nan : (x.compute ls i w c).2 = true ↔
    vOp w = 0x28 ∧ ∃ r k, r < 32 ∧ k < 128 ∧ x.fixed ls i w c r k = none := by
  by_cases op : vOp w = 0x28
  · rw [VCtx.compute_fixed op]
    simp only [List.any_eq_true, List.mem_range, Option.isNone_iff_eq_none, op, true_and]
    constructor
    · rintro ⟨r, hr, k, hk, none⟩
      exact ⟨r, k, hr, hk, none⟩
    · rintro ⟨r, k, hr, hk, none⟩
      exact ⟨r, hr, k, hk, none⟩
  · have calm : (x.compute ls i w c).2 = false := by
      unfold VCtx.compute
      split
      case h_7 is => exact absurd is op
      all_goals rfl
    simp [calm, op]

theorem VCtx.compute_columnSum (hk : k < 128) {y : Nat}
    (sum : (∃ q, x.q 0 = some q ∧ vOp w = 0x19 ∧ y = total ((List.range 32).map fun r => x.word ls (vA w) c r k) % q) ∨
      (vOp w = 0x1B ∧ y = total ((List.range 32).map fun r => x.word ls (vA w) c r k) % 2 ^ 32)) :
    ∃ row, (x.compute ls i w c).1 = [(0, c + 35, row)] ∧ row.getD k 0 = y := by
  rcases sum with ⟨q, hq, op, rfl⟩ | ⟨op, rfl⟩
  · refine ⟨(List.range 128).map (fun k => match x.q 0 with
      | some q => total ((x.rows ls (vA w) c false).map (fun row => row.getD k 0)) % q
      | none => x.freeWord i 0 k), ?_, ?_⟩
    · simp only [VCtx.compute, op] <;> rfl
    · rw [getD_map_range hk, hq, VCtx.column]
  · refine ⟨(List.range 128).map (fun k => word32 (total ((x.rows ls (vA w) c false).map (fun row => row.getD k 0)))), ?_, ?_⟩
    · simp only [VCtx.compute, op]
    · rw [getD_map_range hk, VCtx.column]
      rfl

/-! ## One instruction -/

theorem zeroWithin_nil (a : Nat) (bs : List Byte) : zeroWithin [] a bs = bs := by
  rw [zeroWithin]
  simp only [List.any_nil, Bool.false_eq_true, if_false]
  exact List.map_snd_zip (by simp)

/-- The rows that an LD or LDK lands. -/
def VCtx.loaded (x : VCtx) (w c : Nat) (s : State) : List Landing :=
  let tr := vTransfer x.slots w
  (List.range (vCount w)).map (fun k =>
    let ws := (List.range 128).map (fun j => s.readWord (tr.1 + 512 * k + 4 * j))
    { cycle := x.start + c + 32 * rowGroup tr.1 tr.2 k + 31, reg := if vOp w = 0x22 then maskReg (vD w) else vD w, row := vFirst w + k,
      value := vecOf (if vOp w = 0x22 then ws.map (fun v => if v = 0 then 0 else 1) else ws), writer := x.seq })

theorem VCtx.instr_nop (op : vOp w = 0) (run : VRun) (s : State) : x.instr i w c (run, s) = (run, s) := by
  have reads : vReads w (x.start + c) = [] := by rw [vReads, if_pos op]
  rw [VCtx.instr]
  simp only [op, if_true, reads, List.append_nil]

theorem VCtx.instr_load (op : vOp w = 0x20 ∨ vOp w = 0x22) (run : VRun) (s : State) : x.instr i w c (run, s) =
    ({ run with reads := run.reads ++ vReads w (x.start + c), lands := run.lands ++ x.loaded w c s }, s) := by
  have mem : vMem w = true := by rcases op with op | op <;> simp [vMem, op]
  have other : vOp w ≠ 0 ∧ vOp w ≠ 0x21 := by rcases op with op | op <;> simp [op]
  rw [VCtx.instr]
  simp only [if_neg other.1, if_neg other.2, mem, if_true]
  rfl

theorem VCtx.instr_store (op : vOp w = 0x21) (run : VRun) (s : State) : x.instr i w c (run, s) =
    (let tr := vTransfer x.slots w
     let bs := (List.range (vCount w)).flatMap (fun k =>
       (x.tile.readRow (x.older ++ run.lands) (vD w) (vFirst w + k) (x.start + c + k)).flatMap (leBytes 4))
     ({ run with reads := run.reads ++ vReads w (x.start + c), stored := run.stored ++ [tr] }, s.store tr.1 (zeroWithin x.zeros tr.1 bs))) := by
  rw [VCtx.instr]
  simp only [op, Nat.reduceEqDiff, if_false, if_true]

theorem VCtx.instr_compute (op : vOp w ≠ 0) (mem : vMem w = false) (run : VRun) (s : State) :
    (x.instr i w c (run, s)).2 = s ∧ (x.instr i w c (run, s)).1.lands = run.lands ++
      (x.compute (x.older ++ run.lands) i w (x.start + c)).1.map fun r =>
        { cycle := r.2.1, reg := vD w, row := r.1, value := vecOf r.2.2, writer := x.seq } := by
  have store : vOp w ≠ 0x21 := fun op => by simp [vMem, op] at mem
  rw [VCtx.instr]
  simp only [if_neg op, if_neg store, mem, Bool.false_eq_true, if_false]
  exact ⟨trivial, trivial⟩

theorem vecOf_at (l : List Nat) {j : Nat} (hj : j < 128) : Tab.at (vecOf l) 0 j = BitVec.ofNat 32 (l.getD j 0) := Tab.at_build _ _ _ hj

theorem VCtx.loaded_row (x : VCtx) {w c k : Nat} (s : State) (hk : k < vCount w) :
    ∃ l, (x.loaded w c s)[k]? = some l ∧ l.row = vFirst w + k ∧ l.writer = x.seq ∧
      l.cycle = x.start + c + 32 * rowGroup (vTransfer x.slots w).1 (512 * vCount w) k + 31 ∧
      (vOp w = 0x20 → l.reg = vD w ∧ ∀ j, j < 128 →
        Tab.at l.value 0 j = BitVec.ofNat 32 (s.readWord ((vTransfer x.slots w).1 + 512 * k + 4 * j))) ∧
      (vOp w = 0x22 → l.reg = maskReg (vD w) ∧ ∀ j, j < 128 →
        Tab.at l.value 0 j = if s.readWord ((vTransfer x.slots w).1 + 512 * k + 4 * j) = 0 then 0 else 1) := by
  refine ⟨_, by rw [VCtx.loaded, List.getElem?_map, List.getElem?_range hk]; rfl, rfl, rfl, rfl, fun op => ⟨?_, fun j hj => ?_⟩,
    fun op => ⟨if_pos op, fun j hj => ?_⟩⟩
  · exact if_neg (by omega)
  · rw [vecOf_at _ hj, if_neg (by omega), getD_map_range hj]
  · rw [vecOf_at _ hj, if_pos op, List.map_map, getD_map_range hj]
    dsimp only [Function.comp]
    split <;> rfl

/-! ## Every instruction by its opcode -/

/-- Modular instructions under a modulus (Table PE.4). -/
theorem VCtx.lands_modular (hr : r < 32) (hk : k < 128) {q : Nat} (hq : x.q r = some q) (pos : 0 < q) (le : q ≤ 2 ^ 32) :
    let a := x.word ls (vA w) c r k
    let b := x.bWord ls w c r k
    let d := x.word ls (vC w) c r k
    (vOp w = 1 → x.Lands ls i w c r k (3, (a + b) % q)) ∧
    (vOp w = 2 → ∃ z, x.Lands ls i w c r k (3, z) ∧ z < q ∧ (z + b) % q = a % q) ∧
    (vOp w = 3 → a < 2 * q → ∃ z, x.Lands ls i w c r k (3, z) ∧ z < q ∧ (z + a) % q = 0) ∧
    (vOp w = 4 → x.Lands ls i w c r k (11, a * b % q)) ∧ (vOp w = 5 → x.Lands ls i w c r k (12, (a * b + d) % q)) ∧
    (vOp w = 6 → a < 2 * q → x.Lands ls i w c r k (3, a % q)) ∧
    (vOp w = 0x18 → x.Lands ls i w c r k (10, if k = 0 then total ((List.range 128).map (x.word ls (vA w) c r)) % q else 0)) := by
  intro a b d
  have value (op : vOp w ∈ [1, 2, 3, 4, 5, 6]) : x.element ls i w c r k = vElem w q a b d := VCtx.element_modular hq op
  refine ⟨fun op => ?_, fun op => ?_, fun op small => ?_, fun op => ?_, fun op => ?_, fun op small => ?_,
    fun op => VCtx.lands_rowSum hr hq op⟩
  · exact VCtx.lands_element (by simp [op]) hr hk (by simp [vDepth, op]) ((value (by simp [op])).trans (by simp [vElem, op]))
  · refine ⟨(a % q + q - b % q) % q, ?_, Nat.mod_lt _ pos, mod_sub_add pos ..⟩
    exact VCtx.lands_element (by simp [op]) hr hk (by simp [vDepth, op]) ((value (by simp [op])).trans (by simp [vElem, op]))
  · refine ⟨negSel q a, ?_, negSel_lt le small, negSel_add le small⟩
    exact VCtx.lands_element (by simp [op]) hr hk (by simp [vDepth, op]) ((value (by simp [op])).trans (by simp [vElem, op]))
  · exact VCtx.lands_element (by simp [op]) hr hk (by simp [vDepth, op]) ((value (by simp [op])).trans (by simp [vElem, op]))
  · exact VCtx.lands_element (by simp [op]) hr hk (by simp [vDepth, op]) ((value (by simp [op])).trans (by simp [vElem, op]))
  · have residue : red q a = a % q := by
      rw [red]
      split
      · rw [Nat.mod_eq_sub_mod ‹_›, Nat.mod_eq_of_lt (by omega)]
      · rw [Nat.mod_eq_of_lt (by omega)]
    exact VCtx.lands_element (by simp [op]) hr hk (by simp [vDepth, op])
      ((value (by simp [op])).trans (by simp [vElem, op, residue]))

/-- Modular instructions on a row whose entry names no modulus: free words. -/
theorem VCtx.lands_free (hr : r < 32) (hk : k < 128) (hq : x.q r = none) {e : Nat} (op : vOp w ∈ [1, 2, 3, 4, 5, 6]) (depth : vDepth w = e) :
    x.Lands ls i w c r k (e, (Config.freeLane x.free (x.pos + 4096 * i + 128 * r + k)).toNat) := by
  refine VCtx.lands_element (fun whole => ?_) hr hk depth (VCtx.element_free hq op)
  simp only [List.mem_cons, List.not_mem_nil, or_false] at op whole
  omega

/-- Word and clear-domain instructions that work element by element. -/
theorem VCtx.lands_word (hr : r < 32) (hk : k < 128) {e v : Nat} (op : vOp w ∈ [8, 9, 0xA, 0xB, 0xC, 0xD, 0xE, 0xF, 0x10, 0x29, 0x2C, 0x2D])
    (depth : vDepth w = e) (value : vElem w 1 (x.word ls (vA w) c r k) (x.bWord ls w c r k) 0 = v) : x.Lands ls i w c r k (e, v) := by
  refine VCtx.lands_element (fun whole => ?_) hr hk depth ((VCtx.element_word op).trans value)
  simp only [List.mem_cons, List.not_mem_nil, or_false] at op whole
  omega

/-- FMIN and FMAX. -/
theorem VCtx.lands_pick (hr : r < 32) (hk : k < 128) (op : vOp w = 0x2A ∨ vOp w = 0x2B) :
    x.Lands ls i w c r k (2, vPick w (x.word ls (vA w) c r k) (x.bWord ls w c r k)) := by
  refine VCtx.lands_element (fun whole => ?_) hr hk ?_ (VCtx.element_pick op)
  · simp only [List.mem_cons, List.not_mem_nil, or_false] at whole
    omega
  · rcases op with op | op <;> simp [vDepth, op]

end

/-- Settles O46: the command by its passes, the issue cycles by the recursion over the words, each instruction by its opcode. -/
theorem vprogRuns : Obligations.VprogRuns := by
  unfold Obligations.VprogRuns
  refine ⟨fun s t seq c work turn => ⟨fun sound => ?_, fun a bad => exec_vprog_stops work turn bad⟩,
    fun slots g => ⟨vIssueGo_length .., vIssueGo_first .., vTiming_latency .., fun i hi => vIssueGo_next slots g.words 6 i hi⟩,
    fun x ls i w c r k hr hk => ?_, fun x i w c run s => ?_⟩
  · obtain ⟨ctx, -⟩ := State.readyCtx_ctx work.1
    obtain ⟨rfl, rfl, -, -, mop, -⟩ := State.ctx_facts ctx
    obtain ⟨done, free⟩ := State.runVprog_done mop
    exact ⟨_, exec_vprog_runs work turn sound, done, free⟩
  · intro va a b d m lands
    refine ⟨fun q hq pos le => VCtx.lands_modular hr hk hq pos le, fun hq => ⟨fun op => ?_, fun op => ?_, fun op => ?_⟩, ?_,
      fun y sum => VCtx.compute_columnSum hk sum, VCtx.compute_nan⟩
    · refine VCtx.lands_free hr hk hq ?_ ?_
      · simp only [List.mem_cons, List.not_mem_nil, or_false] at op ⊢
        omega
      · simp only [List.mem_cons, List.not_mem_nil, or_false] at op
        rcases op with op | op | op | op <;> simp [vDepth, op]
    · exact VCtx.lands_free hr hk hq (by simp [op]) (by simp [vDepth, op])
    · exact VCtx.lands_free hr hk hq (by simp [op]) (by simp [vDepth, op])
    · rintro e (⟨op, rfl⟩ | ⟨op, rfl⟩ | ⟨op, rfl⟩ | ⟨op, rfl⟩ | ⟨op, rfl⟩ | ⟨op, rfl⟩ | ⟨op, rfl⟩ | ⟨op, rfl⟩ | ⟨op, rfl⟩ | ⟨op, rfl⟩ | ⟨op, rfl⟩ |
        ⟨op, out, rfl⟩ | ⟨op, j, at_j, rfl⟩ | ⟨op, rfl⟩ | ⟨op, n, p, z, value, rfl⟩ | ⟨op, rfl⟩ | ⟨op, rfl⟩ | ⟨op, rfl⟩ | ⟨op, rfl⟩)
      iterate 9 exact VCtx.lands_word hr hk (by simp [op]) (by simp [vDepth, op]) (by simp only [vElem, op] <;> rfl)
      · exact VCtx.lands_wordSum hr op
      · have value := compress_getD (x.tile.readRow ls (maskReg (vC w)) r (c + r)) (x.tile.readRow ls (vA w) r (c + r)) hk
        rw [maskPositions_eq] at value
        have landed := VCtx.lands_compress (x := x) (ls := ls) (i := i) (c := c) (k := k) hr op
        rw [value] at landed
        exact landed
      · have value := expand_getD_unmarked (x.tile.readRow ls (maskReg (vC w)) r (c + r)) (x.tile.readRow ls (vA w) r (c + r)) hk
          (by rwa [maskPositions_eq])
        have landed := VCtx.lands_expand (x := x) (ls := ls) (i := i) (c := c) (k := k) hr op
        rw [value] at landed
        exact landed
      · have value := expand_getD_marked (x.tile.readRow ls (maskReg (vC w)) r (c + r)) (x.tile.readRow ls (vA w) r (c + r)) hk
          (j := j) (by rwa [maskPositions_eq])
        have landed := VCtx.lands_expand (x := x) (ls := ls) (i := i) (c := c) (k := k) hr op
        rw [value] at landed
        exact landed
      · exact VCtx.lands_fixed hr hk op
      · refine VCtx.lands_word hr hk (by simp [op]) (by simp [vDepth, op]) ?_
        simp only [vElem, op]
        exact congrArg toF32 (by rw [show intVal (signed 32 (x.word ls (vA w) c r k)) = .fin n p z from value])
      · have landed := VCtx.lands_pick (x := x) (ls := ls) (i := i) (c := c) hr hk (.inl op)
        simp only [vPick, op, if_true] at landed
        exact landed
      · have landed := VCtx.lands_pick (x := x) (ls := ls) (i := i) (c := c) hr hk (.inr op)
        simp only [vPick, op, Nat.reduceEqDiff, if_false] at landed
        exact landed
      iterate 2 exact VCtx.lands_word hr hk (by simp [op]) (by simp [vDepth, op]) (by simp only [vElem, op] <;> rfl)
  · intro o a
    refine ⟨fun op => VCtx.instr_nop op run s, fun op => ?_, fun op => ?_, fun op mem => VCtx.instr_compute op mem run s⟩
    · have loaded := VCtx.instr_load (x := x) (i := i) (c := c) op run s
      refine ⟨congrArg Prod.snd loaded, x.loaded w c s, congrArg (fun p => p.1.lands) loaded, by simp [VCtx.loaded], fun k hk => x.loaded_row s hk⟩
    · have stored := VCtx.instr_store (x := x) (i := i) (c := c) op run s
      refine ⟨congrArg (fun p => p.1.lands) stored, fun none => (congrArg Prod.snd stored).trans ?_⟩
      dsimp only
      rw [none, zeroWithin_nil]

end Sys2Proof.Machine
end

section
/-!
PROOFS. What of a job stands through aborts, stops, errors and writes: all but the ranges that it has written and its count of events.
-/
namespace Sys2Proof.Machine

/-- A job without the ranges it has written and its EVENTS. -/
def Job.core (j : Job) : Job := { j with written := [], events := 0 }

def State.cores (s : State) : List Job := s.jobs.map Job.core

theorem State.cores_of_jobs {s t : State} (h : t.jobs = s.jobs) : t.cores = s.cores := congrArg (List.map Job.core) h

theorem Evolves.cores {F : Part → Bool} {s t : State} (h : Evolves F s t) (hF : F .jobs = false) : t.cores = s.cores :=
  State.cores_of_jobs (h.kept .jobs hF)

theorem State.cores_map {s t : State} {f : Job → Job} (h : t.jobs = s.jobs.map f) (hf : ∀ j, (f j).core = j.core) : t.cores = s.cores := by
  rw [State.cores, h, List.map_map, State.cores]
  exact List.map_congr_left fun j _ => hf j

@[simp] theorem State.noteWrite_cores (lo hi : Nat) (s : State) : (s.noteWrite lo hi).cores = s.cores :=
  State.cores_map rfl fun j => by split <;> rfl

/-- A job found by its ring where the cores stand. -/
theorem State.job_of_cores {s t : State} (h : t.cores = s.cores) {r : Nat} {j : Job} (job : s.job r = some j) :
    ∃ j', t.job r = some j' ∧ j'.core = j.core := by
  have find (u : State) : (u.job r).map Job.core = u.cores.find? (fun j => j.ring == r) := by
    rw [State.job, State.cores, List.find?_map]
    rfl
  have same : (t.job r).map Job.core = some j.core := by rw [find t, h, ← find s, job]; rfl
  exact Option.map_eq_some_iff.1 same

/-- An error entered changes of the jobs no more than an EVENTS. -/
theorem State.enterErr_jobs {α : Type} {κ : Job → α} (hκ : ∀ (j : Job) (n : Nat), κ { j with events := n } = κ j) (e : Err) (s : State) :
    (s.enterErr e).jobs.map κ = s.jobs.map κ := by
  have queue (u : State) : (u.enterQueue e).jobs = u.jobs := by
    unfold State.enterQueue
    dsimp only
    split
    · exact (State.countMax_jobs ..).trans (State.count_jobs ..)
    · exact State.countMax_jobs ..
  have event (u : State) : (u.countEvent e).jobs.map κ = u.jobs.map κ := by
    unfold State.countEvent
    split
    · split
      · rw [State.mapJob, List.map_map]
        refine List.map_congr_left fun j _ => ?_
        dsimp only [Function.comp]
        split
        · split
          · exact hκ j _
          · rfl
        · rfl
      · rfl
    · rfl
  have alert : (if s.errs.fatal then s else s.enterFatal e).jobs = s.jobs := by
    unfold State.enterFatal State.assertAlert
    split
    · rfl
    · dsimp only
      split <;> rfl
  unfold State.enterErr
  split
  · rw [State.count_jobs]
  · rw [State.count_jobs, queue s]
  · rw [event, State.count_jobs, queue s]
  · rw [queue, alert]

/-- Errors raised change of the jobs no more than their EVENTS. -/
theorem State.raise_jobs {α : Type} {κ : Job → α} (hκ : ∀ (j : Job) (n : Nat), κ { j with events := n } = κ j) (l : List Err) (s : State) :
    (s.raise l).jobs.map κ = s.jobs.map κ := by
  unfold State.raise
  split
  · rfl
  · exact List.foldl_keeps (f := fun s e => State.enterErr e s) (g := fun s => s.jobs.map κ) (fun u e => State.enterErr_jobs hκ e u) _ s

@[simp] theorem State.raise_cores (l : List Err) (s : State) : (s.raise l).cores = s.cores := State.raise_jobs (κ := Job.core) (fun _ _ => rfl) l s

/-- An abort changes the jobs only by noting what the macro-operation may have written. -/
theorem State.abortMop_jobs (c : Ctx) (s : State) :
    ∃ u : State, u.jobs = s.jobs ∧ (s.abortMop c).jobs = (c.writeRanges.foldl (fun s r => s.noteWrite r.1 r.2) u).jobs := by
  have : Stores Part.aborts.contains := stores_of rfl
  have : MayGroups Part.aborts.contains := ⟨rfl⟩
  have : MayPoisonRequests Part.aborts.contains := ⟨rfl⟩
  have : MayTVregs Part.aborts.contains := ⟨rfl⟩
  have : MayTWindow Part.aborts.contains := ⟨rfl⟩
  have : MayTStreams Part.aborts.contains := ⟨rfl⟩
  have : MayTQueues Part.aborts.contains := ⟨rfl⟩
  unfold State.abortMop
  extract_lets +onlyGivenNames s1 hold lines s2 s3 s4 s5 s6 s7 s8 s9
  have marked : Evolves Part.aborts.contains s s3 :=
    (Evolves.foldl (Evolves.refl _ s).accountWait fun _ _ hu => hu.markRange).requestPoison
  refine ⟨s3, marked.kept .jobs rfl, Evolves.kept (F := Part.aborts.contains) (s := s4) ?_ .jobs rfl⟩
  have counted : Evolves Part.aborts.contains s4 s5 := (Evolves.refl _ s4).count
  clear_value s5
  have given : Evolves Part.aborts.contains s4 s6 := by
    unfold s6
    split
    · exact counted.giveBack
    · exact counted
  clear_value s6
  have closed : Evolves Part.aborts.contains s4 s7 := by
    unfold s7
    split
    · exact given.closeRun
    · exact given
  clear_value s7
  have left : Evolves Part.aborts.contains s4 s8 := closed.leaveStream
  clear_value s8
  have gone : Evolves Part.aborts.contains s4 s9 := Evolves.repace (Evolves.mapTile left fun x =>
    ⟨fun e => not_may MayTVregs.mayTVregs e, fun _ => rfl, fun _ => rfl, fun _ => rfl, fun e => not_may MayTWindow.mayTWindow e,
      fun _ => rfl, fun _ => rfl, fun _ => rfl, fun _ => rfl, fun _ => rfl⟩)
  clear_value s9
  exact Evolves.closeChains (gone.foldl fun _ _ hu => hu.setEngine)

@[simp] theorem State.abortMop_cores (c : Ctx) (s : State) : (s.abortMop c).cores = s.cores := by
  obtain ⟨u, before, after⟩ := s.abortMop_jobs c
  refine (State.cores_of_jobs after).trans (Eq.trans ?_ (State.cores_of_jobs before))
  exact List.foldl_keeps (f := fun (s : State) (r : Nat × Nat) => s.noteWrite r.1 r.2) (fun s r => s.noteWrite_cores ..) _ u

@[simp] theorem State.abortAll_cores (cs : List Ctx) (s : State) : (s.abortAll cs).cores = s.cores :=
  List.foldl_keeps (f := fun s c => State.abortMop c s) (fun u c => State.abortMop_cores c u) cs s

@[simp] theorem State.abortTile_cores (t : Nat) (s : State) : (s.abortTile t).cores = s.cores := by
  have : MayTWindow Part.aborts.contains := ⟨rfl⟩
  unfold State.abortTile
  extract_lets +onlyGivenNames s1
  have aborted : s1.cores = s.cores := State.abortAll_cores ..
  clear_value s1
  refine (Evolves.cores (F := Part.aborts.contains) (Evolves.repace ?_) rfl).trans aborted
  exact Evolves.mapTile (Evolves.refl _ s1) fun _ => TKept.only_tWindow rfl

@[simp] theorem State.settleTile_cores (advance : Bool) (t : Nat) (s : State) : (s.settleTile advance t).cores = s.cores :=
  State.cores_of_jobs (State.settleTile_same (p := .jobs) rfl)

end Sys2Proof.Machine
end

section
/-!
PROOFS. O59, refuted: a LOAD is admitted beside a macro-operation of its own sequence number, and the cycles that it waits for credit
are held cycles of both.
-/
namespace Sys2Proof.Machine
open Sys2Proof.Tests

/-- Tile 0 offers a LOAD of five lines with sequence number 3 while a NOP with that number stands in its window; the LOAD's queue may have
one line outstanding. -/
def offeredTwice : State :=
  (move 19 false [hbmWords 0 64, words 0x1000 4, words 0x2000 64]).mapTile 0 fun u =>
    { u with window := [mop (word 28 0)], offer := some { word := { word 19 0 with o1 := ⟨0xFFF, 0⟩ }, cycle := 0, counted := 0 },
             streams := u.streams.map (fun (q : StreamQueue) => { q with limit := 1 }) }

/-- The LOAD may be admitted. -/
theorem offeredTwice_hyps : (offeredTwice.activeJob 0).isSome = true ∧ (offeredTwice.tile 0).entry.isSome = true ∧
    (offeredTwice.tile 0).offer.isSome = true ∧ (offeredTwice.offered 0).isEmpty = false ∧
    (offeredTwice.tile 0).staticBlock (offeredTwice.offered 0) = none ∧ (offeredTwice.tile 0).engineCycle (offeredTwice.offered 0) = some 0 ∧
    (offeredTwice.tile 0).chainBlock (offeredTwice.offered 0) = false := by decide +kernel

/-- The NOP has held cycles after it. -/
theorem offeredTwice_holds : goes (exec (.macroAdmit 0) offeredTwice)
    (fun v => (v.tile 0).window.head?.map (·.held) != (offeredTwice.tile 0).window.head?.map (·.held)) = true := by decide +kernel

/-- Refutes O59: a LOAD admitted beside a macro-operation of the same sequence number. The cycles that it waits for its queue's credit are
added to that one too, so the window is not the old one with the LOAD behind it. -/
theorem not_sequencerOffersAndAdmits : ¬ Obligations.SequencerOffersAndAdmits := by
  unfold Obligations.SequencerOffersAndAdmits
  intro admits
  obtain ⟨active, entered, offered, some, static, engines, chains⟩ := offeredTwice_hyps
  obtain ⟨j, active⟩ := Option.isSome_iff_exists.1 active
  obtain ⟨e, entered⟩ := Option.isSome_iff_exists.1 entered
  obtain ⟨o, offered⟩ := Option.isSome_iff_exists.1 offered
  obtain ⟨-, -, admits⟩ := admits offeredTwice 0 j e active entered
  cases ctxs : offeredTwice.offered 0 with
  | nil => rw [ctxs] at some; cases some
  | cons c rest =>
    rw [ctxs] at static engines chains
    obtain ⟨admits, -⟩ := admits o c rest offered ctxs
    obtain ⟨v, new, run, -, -, -, window, -⟩ := admits 0 static engines chains
    have held := offeredTwice_holds
    have first : (offeredTwice.tile 0).window = [mop (word 28 0)] := by decide +kernel
    rw [run, goes, window, first] at held
    cases held

end Sys2Proof.Machine
end

section
/-!
PROOFS. O48: key delivery (R165-R175, R198-R207): the run of a group through what its stream reads, verdicts, key words, objects, and the
places of streams at the Bobbins.
-/
namespace Sys2Proof.Machine

/-! ## Contexts and runs -/

/-- A state with the same jobs, programs and sequencers has the same contexts. -/
theorem State.ctx_of_same {s u : State} (jobs : u.jobs = s.jobs) (program : ∀ x, (u.tile x).program = (s.tile x).program)
    (sequencer : ∀ x, (u.tile x).sequencer = (s.tile x).sequencer) (t seq : Nat) : u.ctx t seq = s.ctx t seq := by
  have job : (u.tile t).job = (s.tile t).job := congrArg (fun p => p.1) (program t)
  have chains : (u.tile t).chains = (s.tile t).chains := congrArg (fun q => q.2.2.2.2.1) (sequencer t)
  rw [State.ctx, State.ctx, job, State.mopOf_of_sequencer sequencer]
  simp only [State.job, jobs, Tile.chainOf, chains]

/-- A macro-operation changed, by a change that keeps its number and its word. -/
theorem State.ctx_mapMop {s : State} {t seq : Nat} {c : Ctx} (h : s.ctx t seq = some c) (t' seq' : Nat) {f : Mop → Mop}
    (hf : ∀ m, (f m).seq = m.seq ∧ (f m).word = m.word) :
    (s.mapMop t' seq' f).ctx t seq = some { c with mop := if t = t' ∧ seq = seq' then f c.mop else c.mop } := by
  obtain ⟨rfl, rfl, job, found, mop, chain⟩ := State.ctx_facts h
  have same (g : Tile → Option Nat) (hg : ∀ (u : Tile) w, g { u with window := w } = g u) :
      g ((s.mapMop t' seq' f).tile c.t) = g (s.tile c.t) := State.mapMop_tile g hg ..
  have chains : ((s.mapMop t' seq' f).tile c.t).chains = (s.tile c.t).chains := State.mapMop_tile Tile.chains (fun _ _ => rfl) ..
  have after : (s.mapMop t' seq' f).mopOf c.t c.mop.seq = some (if c.t = t' ∧ c.mop.seq = seq' then f c.mop else c.mop) := by
    by_cases here : c.t = t' ∧ c.mop.seq = seq'
    · obtain ⟨rfl, seq⟩ := here
      rw [if_pos ⟨rfl, seq⟩, ← seq]
      exact State.mopOf_mapMop f (fun m => (hf m).1) mop
    · rw [if_neg here, State.mopOf_mapMop_other s t' c.t seq' c.mop.seq f (fun m => (hf m).1) (by by_contra n; push Not at n; exact here n), mop]
  have stage : ((s.mapMop t' seq' f).tile c.t).chainOf (if c.t = t' ∧ c.mop.seq = seq' then f c.mop else c.mop) = c.chain := by
    rw [chain, Tile.chainOf, Tile.chainOf, chains]
    split
    · rw [(hf _).1, (hf _).2]
    · rfl
  rw [State.ctx, same Tile.job (fun _ _ => rfl), job, after]
  dsimp only
  rw [show (s.mapMop t' seq' f).job c.ring = s.job c.ring from rfl, found, stage]

theorem State.runOf_of_groups {s u : State} (h : u.groups = s.groups) (r t seq : Nat) : u.runOf r t seq = s.runOf r t seq := by
  rw [State.runOf, State.runOf, h]

theorem State.mapMop_runOf (s : State) (t' seq' : Nat) (f : Mop → Mop) (r t seq : Nat) :
    (s.mapMop t' seq' f).runOf r t seq = s.runOf r t seq := rfl

theorem find?_map_keeps {α : Type} {p : α → Bool} {f : α → α} (hf : ∀ x, p (f x) = p x) (l : List α) :
    (l.map f).find? p = (l.find? p).map f := by
  rw [List.find?_map]
  exact congrArg (Option.map f) (congrArg (List.find? · l) (funext hf))

/-- A run after a change of the runs of one name, by a change that keeps its ring and who its members are. -/
theorem State.runOf_mapRun {s : State} {r t seq : Nat} {x : GroupRun} (h : s.runOf r t seq = some x) (g : GroupRun) {f : GroupRun → GroupRun}
    (hf : ∀ x, (f x).ring = x.ring ∧ (f x).members.any (fun m => m.tile == t && m.seq == seq) = x.members.any (fun m => m.tile == t && m.seq == seq)) :
    (s.mapRun g f).runOf r t seq = some (if x.same g then f x else x) := by
  have keeps : ∀ x : GroupRun, ((if x.same g then f x else x).ring == r &&
      (if x.same g then f x else x).members.any (fun m => m.tile == t && m.seq == seq)) =
      (x.ring == r && x.members.any (fun m => m.tile == t && m.seq == seq)) := by
    intro x
    split
    · rw [(hf x).1, (hf x).2]
    · rfl
  rw [State.runOf, State.mapRun, find?_map_keeps keeps]
  rw [State.runOf] at h
  rw [h]
  rfl

theorem GroupRun.same_self (g : GroupRun) : g.same g = true := by simp [GroupRun.same]

/-- A run with a change of the members on a tile. -/
def GroupRun.withMember (t : Nat) (f : GMember → GMember) (g : GroupRun) : GroupRun :=
  { g with members := g.members.map (fun m => if m.tile == t then f m else m) }

theorem GroupRun.member_withMember {g : GroupRun} {t : Nat} {f : GMember → GMember} (hf : ∀ m, (f m).tile = m.tile) :
    (g.withMember t f).member t = (g.member t).map f := by
  have keeps : ∀ m : GMember, ((if m.tile == t then f m else m).tile == t) = (m.tile == t) := by
    intro m
    split
    · rw [hf]
    · rfl
  rw [GroupRun.member, GroupRun.withMember, find?_map_keeps keeps, GroupRun.member]
  cases found : g.members.find? (fun m => m.tile == t) with
  | none => rfl
  | some m => rw [Option.map_some, Option.map_some, if_pos (List.find?_some found)]

theorem State.runOf_mapMember {s : State} {r t seq : Nat} {x : GroupRun} (h : s.runOf r t seq = some x) {g : GroupRun} (same : x.same g = true)
    (t' : Nat) {f : GMember → GMember} (hf : ∀ m, (f m).tile = m.tile ∧ (f m).seq = m.seq) :
    (s.mapMember g t' f).runOf r t seq = some (x.withMember t' f) := by
  refine (State.runOf_mapRun h g (f := GroupRun.withMember t' f) fun x => ⟨rfl, ?_⟩).trans (by rw [if_pos same])
  rw [GroupRun.withMember, List.any_map]
  refine congrArg (List.any x.members) (funext fun m => ?_)
  dsimp only [Function.comp]
  split
  · rw [(hf m).1, (hf m).2]
  · rfl

/-! ## What a stream reads (R169) -/

/-- What reading lines of a key image may change. -/
abbrev Part.keyReads : List Part := [.tele, .groups, .power]

/-- A run with more lines read. -/
def GroupRun.read (ls : List KeyLine) (g : GroupRun) : GroupRun := { g with lines := g.lines ++ ls }

/-- `u` is `s` after its run `g` has read some lines. -/
structure State.ReadBy (s u : State) (g : GroupRun) : Prop where
  evolves : Evolves Part.keyReads.contains s u
  run : ∀ r t seq x, s.runOf r t seq = some x → x.same g = true → ∃ ls, u.runOf r t seq = some (x.read ls)

theorem State.ReadBy.refl (s : State) (g : GroupRun) : s.ReadBy s g :=
  ⟨Evolves.refl _ s, fun r t seq x h _ => ⟨[], by rw [h, GroupRun.read, List.append_nil]⟩⟩

theorem State.ReadBy.trans {s u v : State} {g : GroupRun} (a : s.ReadBy u g) (b : u.ReadBy v g) : s.ReadBy v g := by
  refine ⟨a.evolves.trans b.evolves, fun r t seq x h same => ?_⟩
  obtain ⟨ls, h⟩ := a.run r t seq x h same
  obtain ⟨ms, h⟩ := b.run r t seq (x.read ls) h same
  exact ⟨ls ++ ms, by rw [h, GroupRun.read, GroupRun.read, GroupRun.read, List.append_assoc]⟩

theorem State.readKeyLine_readBy (s : State) (g : GroupRun) (full : Bool) (pass a : Nat) (dests dies : List Nat) :
    s.ReadBy (s.readKeyLine g full pass a dests dies) g := by
  have : MayTele Part.keyReads.contains := ⟨rfl⟩
  have : MayGroups Part.keyReads.contains := ⟨rfl⟩
  have : MayPower Part.keyReads.contains := ⟨rfl⟩
  refine ⟨(Evolves.refl _ s).readKeyLine, fun r t seq x h same => ?_⟩
  unfold State.readKeyLine
  extract_lets k u w
  have groups : w.groups = s.groups := Evolves.kept (F := [Part.tele, Part.power].contains) (s := s) (t := w) ?_ .groups rfl
  · refine ⟨[{ pass := pass, addr := a, bytes := w.readRaw a 64 }], ?_⟩
    have found : w.runOf r t seq = some x := by rw [State.runOf, groups]; exact h
    clear_value w
    refine (State.runOf_mapRun found g (f := GroupRun.read [{ pass := pass, addr := a, bytes := w.readRaw a 64 }]) fun _ => ⟨rfl, rfl⟩).trans ?_
    rw [if_pos same]
  · have : MayTele [Part.tele, Part.power].contains := ⟨rfl⟩
    have : MayPower [Part.tele, Part.power].contains := ⟨rfl⟩
    exact (Evolves.refl _ s).count.count.askService

theorem State.readBy_foldl {α : Type} {g : GroupRun} {f : State → α → State} (hf : ∀ s a, State.ReadBy s (f s a) g) (l : List α) (s : State) :
    s.ReadBy (l.foldl f s) g := by
  induction l generalizing s with
  | nil => exact State.ReadBy.refl s g
  | cons a l ih => exact (hf s a).trans (ih (f s a))

theorem State.readHeaders_readBy (s : State) (g : GroupRun) (full : Bool) (bases : List Nat) : s.ReadBy (s.readHeaders g full bases) g :=
  State.readBy_foldl (fun s a => s.readKeyLine_readBy g full 0 a [] (g.tiles.map dieOfTile)) _ s

theorem State.readKeyLines_readBy (s : State) (g : GroupRun) (full : Bool) (pass : Nat) (holders : Nat → List Nat) (l : List Nat) :
    s.ReadBy (s.readKeyLines g full pass holders l) g :=
  State.readBy_foldl (fun s a => s.readKeyLine_readBy g full pass a (holders a) ((holders a).map dieOfTile)) l s

/-! ## Commands of a key stream -/

theorem exec_keyVerdict_eq (t seq : Nat) (s : State) : exec (.keyVerdict t seq) s = execKeyVerdict t seq s := rfl

theorem exec_pbsKeyVerdict_eq (t seq : Nat) (s : State) : exec (.pbsKeyVerdict t seq) s = execPbsKeyVerdict t seq s := rfl

theorem exec_keyRingArrival_eq (t seq bytes cycles : Nat) (s : State) :
    exec (.keyRingArrival t seq bytes cycles) s = execKeyRingArrival t seq bytes cycles s := rfl

theorem exec_pbsObjectArrival_eq (t seq cycles : Nat) (s : State) :
    exec (.pbsObjectArrival t seq cycles) s = execPbsObjectArrival t seq cycles s := rfl

/-- The command of a macro-operation that its stream serves does its work. -/
theorem State.withStream_feeds {s : State} {t seq : Nat} {c : Ctx} (h : s.feeds t seq c) {kind : MopWord → Bool} (hk : kind c.w = true)
    (f : Ctx → State) : s.withStream t seq kind f = .next (f c) := by
  obtain ⟨ctx, runs, started, live, unstopped, sound, pool⟩ := h
  have start : (c.mop.start.isSome || c.w.chain == 6) = true := by
    rw [Bool.or_eq_true, beq_iff_eq]
    exact started
  rw [State.withStream, ctx]
  dsimp only
  rw [if_pos (by rw [runs, pool, start, live, unstopped, sound, hk]; rfl)]

/-- A command of a stream that can serve nothing does nothing. -/
theorem State.withStream_rests {s : State} {t seq : Nat} {c : Ctx} (ctx : s.ctx t seq = some c) (kind : MopWord → Bool) {f : Ctx → State}
    (rests : s.poolOpen = true → f c = s) : s.withStream t seq kind f = .next s := by
  rw [State.withStream, ctx]
  dsimp only
  split
  next open_ =>
    simp only [Bool.and_eq_true] at open_
    rw [rests open_.1.1.1.1.1.2]
  next => rfl

/-! ## What a served stream leaves of contexts and runs -/

theorem State.ReadBy.count {s u : State} {g : GroupRun} (h : s.ReadBy u g) (ctr : Ctr) (i n : Nat) : s.ReadBy (u.count ctr i n) g where
  evolves :=
    have : MayTele Part.keyReads.contains := ⟨rfl⟩
    h.evolves.count
  run := fun r t seq x found same => by
    rw [State.runOf, State.count_groups]
    exact h.run r t seq x found same

theorem State.ReadBy.ctx {s u : State} {g : GroupRun} (h : s.ReadBy u g) (t seq : Nat) : u.ctx t seq = s.ctx t seq :=
  State.ctx_of_same (h.evolves.kept .jobs rfl) (h.evolves.kept .tProgram rfl) (h.evolves.kept .tWindow rfl) t seq

theorem State.ReadBy.mem {s u : State} {g : GroupRun} (h : s.ReadBy u g) : u.mem = s.mem := h.evolves.kept .mem rfl

theorem State.ReadBy.mopOf {s u : State} {g : GroupRun} (h : s.ReadBy u g) (t seq : Nat) : u.mopOf t seq = s.mopOf t seq :=
  State.mopOf_of_sequencer (h.evolves.kept .tWindow rfl) t seq

/-- The member on a tile changes once the stream has read what it brings. -/
theorem State.ReadBy.member {s u : State} {g : GroupRun} (h : s.ReadBy u g) {r t seq : Nat} (run : s.runOf r t seq = some g) (t' : Nat)
    {f : GMember → GMember} (hf : ∀ m, (f m).tile = m.tile ∧ (f m).seq = m.seq) :
    ∃ g', (u.mapMember g t' f).runOf r t seq = some g' ∧ g'.member t' = (g.member t').map f := by
  obtain ⟨ls, found⟩ := h.run r t seq g run g.same_self
  exact ⟨_, State.runOf_mapMember found g.same_self t' hf, GroupRun.member_withMember (g := g.read ls) fun m => (hf m).1⟩

theorem State.mapMember_ctx (s : State) (g : GroupRun) (t' : Nat) (f : GMember → GMember) (t seq : Nat) :
    (s.mapMember g t' f).ctx t seq = s.ctx t seq := rfl

/-! ## Members released from their hold (R175) -/

/-- A member that holds for a verdict is released. -/
def State.releaseHolder (g : GroupRun) (s : State) (x : Nat) : State :=
  match g.member x, s.memberCtx g x with
  | some m, some cx => if cx.mop.hold = .verdict then s.release x m.seq 0 true else s
  | _, _ => s

theorem Mop.delayed_seq (m : Mop) (cycles : Nat) (early : Bool) : (m.delayed cycles early).seq = m.seq := rfl

theorem Mop.delayed_hold (m : Mop) (cycles : Nat) (early : Bool) :
    m.delayed cycles early = { m.delayed cycles early with hold := m.hold } := rfl

/-- A macro-operation as a release leaves it. -/
def Mop.released (cycles : Nat) (early : Bool) (m : Mop) : Mop := { m.delayed cycles early with hold := .none }

theorem State.release_ctx {s : State} {t seq : Nat} {c : Ctx} (h : s.ctx t seq = some c) (t' seq' cycles : Nat) (early : Bool) :
    (s.release t' seq' cycles early).ctx t seq =
      some { c with mop := if t = t' ∧ seq = seq' then c.mop.released cycles early else c.mop } :=
  State.ctx_mapMop h t' seq' (f := Mop.released cycles early) fun _ => ⟨rfl, rfl⟩

theorem State.release_mopOf {s : State} {t seq : Nat} {m : Mop} (h : s.mopOf t seq = some m) (cycles : Nat) (early : Bool) :
    (s.release t seq cycles early).mopOf t seq = some (m.released cycles early) :=
  State.mopOf_mapMop (Mop.released cycles early) (fun _ => rfl) h

theorem State.releaseHolder_memberCtx {s : State} {g : GroupRun} {x : Nat} {d : Ctx} (h : s.memberCtx g x = some d) (y : Nat) :
    (s.releaseHolder g y).memberCtx g x =
      some { d with mop := if x = y ∧ d.mop.hold = .verdict then d.mop.released 0 true else d.mop } := by
  unfold State.memberCtx at h
  cases mine : g.member x with
  | none => rw [mine] at h; cases h
  | some m =>
    rw [mine] at h
    dsimp only at h
    have ofCtx (u : State) : u.memberCtx g x = u.ctx x m.seq := by rw [State.memberCtx, mine]
    by_cases here : x = y
    · subst here
      rw [ofCtx, State.releaseHolder, mine, ofCtx, h]
      dsimp only
      by_cases holds : d.mop.hold = .verdict
      · rw [if_pos holds, if_pos ⟨rfl, holds⟩, State.release_ctx h, if_pos ⟨rfl, rfl⟩]
      · rw [if_neg holds, if_neg (fun n => holds n.2), h]
    · rw [if_neg (fun n => here n.1), ofCtx, State.releaseHolder]
      split
      next =>
        split
        · rw [State.release_ctx h, if_neg (fun n => here n.1)]
        · exact h
      next => exact h

/-- Releases reach every member of a list that holds for a verdict. -/
theorem State.releaseHolders_memberCtx {g : GroupRun} {x : Nat} (l : List Nat) {s : State} {d : Ctx} (h : s.memberCtx g x = some d)
    (holds : d.mop.hold = .none ∨ d.mop.hold = .verdict ∧ x ∈ l) :
    ∃ d', (l.foldl (State.releaseHolder g) s).memberCtx g x = some d' ∧ d'.mop.seq = d.mop.seq ∧ d'.mop.hold = .none := by
  induction l generalizing s d with
  | nil => exact ⟨d, h, rfl, holds.elim id fun n => absurd n.2 List.not_mem_nil⟩
  | cons y l ih =>
    have next := State.releaseHolder_memberCtx h y
    by_cases here : x = y ∧ d.mop.hold = .verdict
    · rw [if_pos here] at next
      obtain ⟨d', after, seq, none⟩ := ih next (.inl rfl)
      exact ⟨d', after, seq, none⟩
    · rw [if_neg here] at next
      refine ih next (holds.imp_right fun n => ⟨n.1, ?_⟩)
      exact (List.mem_cons.1 n.2).resolve_left fun e => here ⟨e, n.1⟩

theorem State.releaseHolder_keeps (g : GroupRun) (s : State) (x : Nat) :
    ((s.releaseHolder g x).groups, (s.releaseHolder g x).mem) = (s.groups, s.mem) := by
  unfold State.releaseHolder
  split
  next => split <;> rfl
  next => rfl

theorem State.memberCtx_seq {s : State} {g : GroupRun} {x : Nat} {d : Ctx} (h : s.memberCtx g x = some d) :
    ∃ m, g.member x = some m ∧ s.ctx x m.seq = some d ∧ d.mop.seq = m.seq ∧ s.mopOf x d.mop.seq = some d.mop := by
  unfold State.memberCtx at h
  split at h
  next m mine =>
    obtain ⟨-, seq, -, -, mop, -⟩ := State.ctx_facts h
    exact ⟨m, mine, h, seq, by rw [seq]; exact mop⟩
  next => cases h

/-! ## The verdict of a KSW (R167, R174, R175) -/

/-- The header counters of a verdict. -/
def State.countVerdict (v : Verdict) (s : State) : State :=
  let s := if bit v.flags 2 then s.count .keyHeaderFaulted 0 1 else s
  if bit v.flags 1 then s.count .keyMismatch 0 1 else s

theorem State.ReadBy.countVerdict {s u : State} {g : GroupRun} (h : s.ReadBy u g) (v : Verdict) : s.ReadBy (u.countVerdict v) g := by
  unfold State.countVerdict
  dsimp only
  split <;> split
  · exact (h.count ..).count ..
  · exact h.count ..
  · exact h.count ..
  · exact h

/-- A verdict given to a member. -/
def GMember.judged (v : Verdict) (m : GMember) : GMember := { m with verdict := some v }

theorem exec_keyVerdict {s : State} {t seq : Nat} {c : Ctx} {g : GroupRun} {m : GMember} {p : PSet} {v : View} (feeds : s.feeds t seq c)
    (run : s.runOf c.ring t seq = some g) (started : g.allStarted = true) (streams : s.streaming g = true) (member : g.member t = some m)
    (pset : s.pset c.w.pset = some p) (key : c.view 1 = some v) (ksw : c.w.family = 7) (streamed : c.w.kswStreams = true)
    (leads : g.setLeader (g.setOf t) = t) (unjudged : m.verdict = none) :
    exec (.keyVerdict t seq) s = .next (match s.poisonedLine (g.unread 0 [(v.base, 64)]) with
      | some a => s.stopMop c (.memLine a)
      | none =>
        let r := kswVerdict (s.streamHeader g v.base) c.w (keyfeedForm c.job.mode.keyfeed) (s.inputTag c) p
        (g.setTiles (g.setOf t)).foldl (State.releaseHolder g)
          (((s.readHeaders g c.full [v.base]).countVerdict r).mapMember g t (GMember.judged r))) := by
  rw [exec_keyVerdict_eq, execKeyVerdict, State.withStream_feeds feeds (by rw [ksw, streamed]; rfl), run, key, pset]
  dsimp only
  rw [if_neg (by rw [started, streams, leads, member]; simp [unjudged])]
  rfl

theorem keyVerdict_judges {s : State} {c : Ctx} {g : GroupRun} {m : GMember} {t seq : Nat} (run : s.runOf c.ring t seq = some g)
    (member : g.member t = some m) (bases l : List Nat) (r : Verdict) :
    let u := l.foldl (State.releaseHolder g) (((s.readHeaders g c.full bases).countVerdict r).mapMember g t (GMember.judged r))
    ∃ g', u.runOf c.ring t seq = some g' ∧ (g'.member t).map (·.verdict) = some (some r) ∧
      (∀ x ∈ l, ∀ d, s.memberCtx g x = some d → d.mop.hold = .verdict → (u.mopOf x d.mop.seq).map (·.hold) = some .none) ∧
      u.mem = s.mem := by
  intro u
  have read := (s.readHeaders_readBy g c.full bases).countVerdict r
  obtain ⟨g', run', member'⟩ := read.member run t (f := GMember.judged r) fun _ => ⟨rfl, rfl⟩
  have keeps := List.foldl_keeps (g := fun u : State => (u.groups, u.mem)) (State.releaseHolder_keeps g) l
    (((s.readHeaders g c.full bases).countVerdict r).mapMember g t (GMember.judged r))
  have groups : u.groups = _ := congrArg Prod.fst keeps
  have mem : u.mem = _ := congrArg Prod.snd keeps
  refine ⟨g', by rw [State.runOf, groups]; exact run', by rw [member', member]; rfl, fun x hx d found holds => ?_, mem.trans read.mem⟩
  have before : (((s.readHeaders g c.full bases).countVerdict r).mapMember g t (GMember.judged r)).memberCtx g x = some d := by
    rw [State.memberCtx] at found ⊢
    split at found
    · rw [State.mapMember_ctx, read.ctx, found]
    · cases found
  obtain ⟨d', after, seq, none⟩ := State.releaseHolders_memberCtx l before (.inr ⟨holds, hx⟩)
  obtain ⟨-, -, -, -, mop⟩ := State.memberCtx_seq after
  rw [seq] at mop
  rw [mop, Option.map_some, none]

/-! ## The verdict of a PBS (R201) -/

/-- The header counters of a PBS member's verdict. -/
def State.countPbsVerdict (t : Nat) (v : Verdict) (s : State) : State :=
  let s := if bit v.flags 1 then s.count .pbsKeyMismatch t 1 else s
  if bit v.flags 2 then s.count .keyHeaderFaulted 0 1 else s

theorem State.ReadBy.countPbsVerdict {s u : State} {g : GroupRun} (h : s.ReadBy u g) (t : Nat) (v : Verdict) :
    s.ReadBy (u.countPbsVerdict t v) g := by
  unfold State.countPbsVerdict
  dsimp only
  split <;> split
  · exact (h.count ..).count ..
  · exact h.count ..
  · exact h.count ..
  · exact h

/-- What a PBS member is told of its two headers. -/
def State.pbsJudgement (s : State) (g : GroupRun) (c : Ctx) (base k : Nat) (p : PSet) : Verdict :=
  let h := pbsVerdict (s.streamHeader g base) (s.streamHeader g k) c.w (keyfeedForm c.job.mode.keyfeed) p
  if c.mop.start.isSome then h.against (s.inputTag c) else h

theorem exec_pbsKeyVerdict {s : State} {t seq : Nat} {c : Ctx} {g : GroupRun} {m : GMember} {p : PSet} {v : View} (feeds : s.feeds t seq c)
    (run : s.runOf c.ring t seq = some g) (started : g.allStarted = true) (streams : s.streaming g = true) (member : g.member t = some m)
    (pset : s.pset c.w.pset = some p) (key : c.view 1 = some v) (pbs : c.w.family = 17) (unjudged : m.verdict = none) :
    exec (.pbsKeyVerdict t seq) s = .next (match s.poisonedLine (g.unread 0 [(v.base, 64), (c.pbsImage p, 64)]) with
      | some a => s.stopMop c (.memLine a)
      | none =>
        let r := s.pbsJudgement g c v.base (c.pbsImage p) p
        let w := ((s.readHeaders g c.full [v.base, c.pbsImage p]).countPbsVerdict t r).mapMember g t (GMember.judged r)
        if c.mop.hold = .verdict then w.release t seq 0 true else w) := by
  rw [exec_pbsKeyVerdict_eq, execPbsKeyVerdict, State.withStream_feeds feeds (by rw [pbs]; rfl), run, key, pset]
  dsimp only
  rw [if_neg (by rw [started, streams, member]; simp [unjudged])]
  rfl

theorem pbsKeyVerdict_judges {s : State} {c : Ctx} {g : GroupRun} {m : GMember} {t seq : Nat} (ctx : s.ctx t seq = some c)
    (run : s.runOf c.ring t seq = some g) (member : g.member t = some m) (bases : List Nat) (r : Verdict) :
    let w := ((s.readHeaders g c.full bases).countPbsVerdict t r).mapMember g t (GMember.judged r)
    let u := if c.mop.hold = .verdict then w.release t seq 0 true else w
    ∃ g', u.runOf c.ring t seq = some g' ∧ (g'.member t).map (·.verdict) = some (some r) ∧
      (c.mop.hold = .verdict → (u.mopOf t seq).map (·.hold) = some .none) ∧ u.mem = s.mem := by
  intro w u
  have read := (s.readHeaders_readBy g c.full bases).countPbsVerdict t r
  obtain ⟨g', run', member'⟩ := read.member run t (f := GMember.judged r) fun _ => ⟨rfl, rfl⟩
  have keeps : u.groups = w.groups ∧ u.mem = w.mem := by
    unfold u
    split <;> exact ⟨rfl, rfl⟩
  refine ⟨g', by rw [State.runOf, keeps.1]; exact run', by rw [member', member]; rfl, fun holds => ?_, keeps.2.trans read.mem⟩
  obtain ⟨-, -, -, -, mop, -⟩ := State.ctx_facts ctx
  have before : w.mopOf t seq = some c.mop := (read.mopOf t seq).trans mop
  have after : u.mopOf t seq = some (c.mop.released 0 true) := by
    unfold u
    rw [if_pos holds]
    exact State.mopOf_mapMop (Mop.released 0 true) (fun _ => rfl) before
  rw [after]
  rfl

theorem stopMop_stop {s : State} {t seq : Nat} {c : Ctx} (ctx : s.ctx t seq = some c) (cause : AbortCause) :
    ((s.stopMop c cause).mopOf t seq).map (·.stop) = some (some cause) := by
  obtain ⟨rfl, rfl, -, -, mop, -⟩ := State.ctx_facts ctx
  rw [State.stopMop, State.mopOf_mapMop (fun m => { m with stop := some cause }) (fun _ => rfl) mop]
  rfl

/-! ## Key words in a member's ring (R171, R181) -/

/-- No member whose ring is full holds another back. -/
theorem GroupRun.heldBack_of_room {g : GroupRun} {t : Nat} (room : ∀ x ∈ g.members, x.tile ≠ t → x.ring < 65536) (mine : List KeyPiece)
    (theirs : Nat → List KeyPiece) : g.heldBack t mine theirs = piecesSize mine := by
  rw [GroupRun.heldBack]
  generalize piecesSize mine = n
  revert room
  induction g.members with
  | nil => exact fun _ => rfl
  | cons x l ih =>
    intro room
    rw [List.foldl_cons, if_pos, ih fun y hy => room y (List.mem_cons_of_mem _ hy)]
    by_cases here : x.tile = t
    · exact .inl here
    · exact .inr (room x List.mem_cons_self here)

theorem State.fillKeyRing_evolves (s : State) (c : Ctx) (got : Nat) (bs : List Byte) :
    Evolves Part.stored.contains s (s.fillKeyRing c got bs) := by
  have : Stores Part.stored.contains := stores_of rfl
  exact (Evolves.refl _ s).fillKeyRing

/-- A member that has taken `n` more bytes of key words. -/
def GMember.filled (n : Nat) (hold : Hold) (m : GMember) : GMember :=
  { m with got := m.got + n, ring := if hold = .keyRing then 0 else m.ring + n }

/-- A member's ring filled, its lines read. -/
def State.ringFilled (s : State) (g : GroupRun) (c : Ctx) (bases : List Nat) (pass : Nat) (holders : Nat → List Nat) (lines : List Nat)
    (got : Nat) (bs : List Byte) (n : Nat) : State :=
  (((s.readHeaders g c.full bases).readKeyLines g c.full pass holders lines).fillKeyRing c got bs).mapMember g c.t
    (GMember.filled n c.mop.hold)

theorem State.ringFilled_run {s : State} {g : GroupRun} {c : Ctx} {m : GMember} (run : s.runOf c.ring c.t c.mop.seq = some g)
    (member : g.member c.t = some m) (bases : List Nat) (pass : Nat) (holders : Nat → List Nat) (lines : List Nat) (got : Nat)
    (bs : List Byte) (n : Nat) :
    (∃ g', (s.ringFilled g c bases pass holders lines got bs n).runOf c.ring c.t c.mop.seq = some g' ∧
      g'.member c.t = some (m.filled n c.mop.hold)) ∧
    (s.ringFilled g c bases pass holders lines got bs n).mopOf c.t c.mop.seq = s.mopOf c.t c.mop.seq := by
  have read := (s.readHeaders_readBy g c.full bases).trans (State.readKeyLines_readBy _ g c.full pass holders lines)
  have fill := ((s.readHeaders g c.full bases).readKeyLines g c.full pass holders lines).fillKeyRing_evolves c got bs
  obtain ⟨ls, found⟩ := read.run c.ring c.t c.mop.seq g run g.same_self
  rw [← State.runOf_of_groups (fill.kept .groups rfl)] at found
  refine ⟨⟨_, State.runOf_mapMember found g.same_self c.t (f := GMember.filled n c.mop.hold) fun _ => ⟨rfl, rfl⟩, ?_⟩, ?_⟩
  · rw [GroupRun.member_withMember (f := GMember.filled n c.mop.hold) fun _ => rfl]
    exact congrArg (Option.map _) member
  · exact (State.mopOf_of_sequencer (fill.kept .tWindow rfl) ..).trans (read.mopOf ..)

/-- The members that hold a word of a line. -/
def GroupRun.keyHolders (g : GroupRun) (theirs : Nat → List KeyPiece) (a : Nat) : List Nat :=
  g.tiles.filter (fun x => (theirs x).any (fun (p : KeyPiece) => p.stored.any (fun b => decide (b < a + 64) && decide (a < b + p.size))))

/-- Key words arrive: the lines not yet read are read, unless one is poisoned, and a member that holds on them goes on. -/
theorem State.ringArrival_eq {s : State} {g : GroupRun} {c : Ctx} {m : GMember} (member : g.member c.t = some m)
    (room : ∀ x ∈ g.members, x.tile ≠ c.t → x.ring < 65536) (k : Key) {theirs : Nat → List KeyPiece} {mine : List KeyPiece}
    (own : theirs c.t = mine) (at0 bytes cycles n : Nat) (ctr : Ctr)
    (size : n = min (if c.mop.hold = .keyRing then bytes else min bytes (65536 - m.ring)) (piecesSize mine - at0)) :
    s.ringArrival g c k theirs at0 bytes cycles ctr =
      if n = 0 then s
      else
        match s.poisonedLine (g.unread 0 [(k.base, 64)] ++ g.unread k.pass (storedRanges (slicePieces mine at0 n))) with
        | some a => s.stopMop c (.memLine a)
        | none =>
          let w := s.ringFilled g c [k.base] k.pass (g.keyHolders theirs) (g.unread k.pass (storedRanges (slicePieces mine at0 n)))
            m.got ((slicePieces mine at0 n).flatMap (s.pieceBytes k)) n
          if c.mop.hold = .keyRing then
            if at0 + n = piecesSize mine then (w.count ctr c.t cycles).release c.t c.mop.seq cycles (c.early k.pass)
            else (w.count ctr c.t cycles).mapMop c.t c.mop.seq (fun m => m.delayed cycles (c.early k.pass))
          else w := by
  rw [State.ringArrival, own, GroupRun.heldBack_of_room room, member, Option.getD_some]
  simp only [decide_eq_true_eq, ← size]
  split
  · rfl
  · cases s.poisonedLine (g.unread 0 [(k.base, 64)] ++ g.unread k.pass (storedRanges (slicePieces mine at0 n))) with
    | some a => rfl
    | none => rfl

/-- What the arrival of key words at a member leaves, where it takes `n` bytes. -/
theorem State.ringArrival_served {s : State} {t seq : Nat} {g : GroupRun} {c : Ctx} {m : GMember} (ctx : s.ctx t seq = some c)
    (run : s.runOf c.ring t seq = some g) (member : g.member t = some m)
    (room : ∀ x ∈ g.members, x.tile ≠ t → x.ring < 65536) (k : Key) {theirs : Nat → List KeyPiece} {mine : List KeyPiece}
    (own : theirs t = mine) (at0 bytes cycles n : Nat) (ctr : Ctr)
    (size : n = min (if c.mop.hold = .keyRing then bytes else min bytes (65536 - m.ring)) (piecesSize mine - at0)) :
    let lines := g.unread 0 [(k.base, 64)] ++ g.unread k.pass (storedRanges (slicePieces mine at0 n))
    let u := s.ringArrival g c k theirs at0 bytes cycles ctr
    (n = 0 → u = s) ∧
    (∀ a, n ≠ 0 → s.poisonedLine lines = some a → u = s.stopMop c (.memLine a)) ∧
    (n ≠ 0 → s.poisonedLine lines = none → ∃ g', u.runOf c.ring t seq = some g' ∧
      g'.member t = some (m.filled n c.mop.hold) ∧
      u.mopOf t seq = some (if c.mop.hold = .keyRing then { c.mop.delayed cycles (c.early k.pass) with
        hold := if at0 + n = piecesSize mine then .none else .keyRing } else c.mop)) := by
  obtain ⟨rfl, rfl, -, -, mop, -⟩ := State.ctx_facts ctx
  dsimp only
  rw [State.ringArrival_eq member room k own at0 bytes cycles n ctr size]
  refine ⟨fun idle => if_pos idle, fun a taken found => by rw [if_neg taken, found], fun taken sound => ?_⟩
  rw [if_neg taken, sound]
  dsimp only
  have filled := State.ringFilled_run (s := s) run member [k.base] k.pass (g.keyHolders theirs)
    (g.unread k.pass (storedRanges (slicePieces mine at0 n))) m.got ((slicePieces mine at0 n).flatMap (s.pieceBytes k)) n
  obtain ⟨⟨g', run', member'⟩, mop'⟩ := filled
  generalize s.ringFilled g c [k.base] k.pass (g.keyHolders theirs) (g.unread k.pass (storedRanges (slicePieces mine at0 n)))
    m.got ((slicePieces mine at0 n).flatMap (s.pieceBytes k)) n = w at *
  have counted : (w.count ctr c.t cycles).mopOf c.t c.mop.seq = some c.mop := by rw [State.count_mopOf, mop', mop]
  by_cases drains : c.mop.hold = .keyRing
  · rw [if_pos drains, if_pos drains]
    by_cases last : at0 + n = piecesSize mine
    · rw [if_pos last]
      refine ⟨g', ?_, member', ?_⟩
      · rw [State.release, State.mapMop_runOf, State.runOf_of_groups (State.count_groups ..), run']
      · rw [if_pos last]
        exact State.release_mopOf counted cycles _
    · rw [if_neg last]
      refine ⟨g', ?_, member', ?_⟩
      · rw [State.mapMop_runOf, State.runOf_of_groups (State.count_groups ..), run']
      · rw [if_neg last]
        rw [State.mopOf_mapMop (fun m => m.delayed cycles (c.early k.pass)) (fun m => m.delayed_seq ..) counted, ← drains]
        exact congrArg some (c.mop.delayed_hold ..)
  · rw [if_neg drains, if_neg drains]
    exact ⟨g', run', member', by rw [mop', mop]⟩

theorem exec_keyRingArrival_ksw {s : State} {t seq : Nat} {c : Ctx} {g : GroupRun} {m : GMember} {p : PSet} {v : View}
    (feeds : s.feeds t seq c) (run : s.runOf c.ring t seq = some g) (started : g.allStarted = true) (streams : s.streaming g = true)
    (member : g.member t = some m) (own : m.seq = seq) (pset : s.pset c.w.pset = some p) (key : c.view 1 = some v)
    (ksw : c.w.family = 7) (streamed : c.w.kswStreams = true) (bytes cycles : Nat) :
    ∃ theirs, exec (.keyRingArrival t seq bytes cycles) s =
        .next (s.ringArrival g c (s.runKey g c p v.base 0) theirs m.got bytes cycles .kswKeyWaitCycles) ∧
      theirs t = s.kswPieces g c p := by
  refine ⟨fun x => match s.memberCtx g x with | some cx => s.kswPieces g cx p | none => [], ?_, ?_⟩
  · rw [exec_keyRingArrival_eq, execKeyRingArrival, feeds.1]
    dsimp only
    rw [if_neg (by rw [ksw]; decide), State.kswRing, State.withStream_feeds feeds (by rw [ksw, streamed]; rfl), run, pset]
    dsimp only
    rw [if_neg (by rw [started, streams]; decide), member, key]
    rfl
  · dsimp only
    rw [State.memberCtx, member]
    dsimp only
    rw [own, feeds.1]

theorem exec_keyRingArrival_pbs {s : State} {t seq : Nat} {c : Ctx} {g : GroupRun} {m : GMember} {p : PSet}
    (feeds : s.feeds t seq c) (run : s.runOf c.ring t seq = some g) (started : g.allStarted = true) (streams : s.streaming g = true)
    (member : g.member t = some m) (pset : s.pset c.w.pset = some p) (pbs : c.w.family = 17) (pass : Nat)
    (wave : pass = m.got / max (piecesSize (s.pbsPieces g c p)) 1) (fed : (pass + 1) * p.lweN ≤ m.objects) (more : pass < c.waves)
    (bytes cycles : Nat) :
    exec (.keyRingArrival t seq bytes cycles) s =
      .next (s.ringArrival g c (s.runKey g c p (c.pbsImage p) pass) (fun _ => s.pbsPieces g c p)
        (m.got % max (piecesSize (s.pbsPieces g c p)) 1) bytes cycles .pbsKeyWaitCycles) := by
  rw [exec_keyRingArrival_eq, execKeyRingArrival, feeds.1]
  dsimp only
  rw [if_pos (by rw [pbs]), State.pbsRing, State.withStream_feeds feeds (by rw [pbs]; rfl), run, pset]
  dsimp only
  rw [member]
  dsimp only [Option.elim]
  subst wave
  have goes : ¬ (!g.allStarted || !s.streaming g ||
      decide (m.objects < (m.got / max (piecesSize (s.pbsPieces g c p)) 1 + 1) * p.lweN) ||
      decide (c.waves ≤ m.got / max (piecesSize (s.pbsPieces g c p)) 1)) = true := by
    rw [started, streams, decide_eq_false (Nat.not_lt.2 fed), decide_eq_false (Nat.not_le.2 more)]
    decide
  exact congrArg Host.Outcome.next (if_neg goes)

/-! ## Refresh objects (R198, R207) -/

/-- A member that has taken one more object. -/
def GMember.fed (m : GMember) : GMember := { m with objects := m.objects + 1 }

theorem exec_pbsObjectArrival {s : State} {t seq : Nat} {c : Ctx} {g : GroupRun} {m : GMember} {p : PSet} {v : View} (feeds : s.feeds t seq c)
    (run : s.runOf c.ring t seq = some g) (started : g.allStarted = true) (streams : s.streaming g = true) (member : g.member t = some m)
    (pset : s.pset c.w.pset = some p) (key : c.view 1 = some v) (pbs : c.w.family = 17) (fits : s.objectFits g c p m.objects = true)
    (cycles : Nat) :
    let size := objectSize p (2 ^ c.w.ringLog) (c.job.mode.keyfeed == .seeded)
    let pass := m.objects / max p.lweN 1
    let new := g.unread pass [(v.base + 64 + m.objects % max p.lweN 1 * size, size)]
    exec (.pbsObjectArrival t seq cycles) s = .next (match s.poisonedLine (g.unread 0 [(v.base, 64)] ++ new) with
      | some a => s.stopMop c (.memLine a)
      | none =>
        let w := ((s.readHeaders g c.full [v.base]).readKeyLines g c.full pass (fun _ => g.tiles) new).mapMember g t GMember.fed
        if c.mop.hold = .object then (w.release t seq cycles (c.early pass)).count .pbsKeyWaitCycles t cycles else w) := by
  intro size pass new
  rw [exec_pbsObjectArrival_eq, execPbsObjectArrival, State.withStream_feeds feeds (by rw [pbs]; rfl), run, key, pset]
  dsimp only
  rw [member]
  have waits : ¬ (!g.allStarted || !s.streaming g || !s.objectFits g c p m.objects) = true := by rw [started, streams, fits]; decide
  exact congrArg Host.Outcome.next (if_neg waits)

theorem pbsObjectArrival_feeds {s : State} {c : Ctx} {g : GroupRun} {m : GMember} {t seq : Nat} (ctx : s.ctx t seq = some c)
    (run : s.runOf c.ring t seq = some g) (member : g.member t = some m) (bases : List Nat) (pass : Nat) (holders : Nat → List Nat)
    (lines : List Nat) (cycles : Nat) :
    let w := ((s.readHeaders g c.full bases).readKeyLines g c.full pass holders lines).mapMember g t GMember.fed
    let u := if c.mop.hold = .object then (w.release t seq cycles (c.early pass)).count .pbsKeyWaitCycles t cycles else w
    ∃ g', u.runOf c.ring t seq = some g' ∧ g'.member t = some m.fed ∧
      u.mopOf t seq = some (if c.mop.hold = .object then c.mop.released cycles (c.early pass) else c.mop) := by
  intro w u
  have read := (s.readHeaders_readBy g c.full bases).trans (State.readKeyLines_readBy _ g c.full pass holders lines)
  obtain ⟨g', run', member'⟩ := read.member run t (f := GMember.fed) fun _ => ⟨rfl, rfl⟩
  obtain ⟨-, -, -, -, mop, -⟩ := State.ctx_facts ctx
  have before : w.mopOf t seq = some c.mop := (read.mopOf t seq).trans mop
  rw [member] at member'
  unfold u
  split
  · refine ⟨g', ?_, member', ?_⟩
    · rw [State.runOf_of_groups (State.count_groups ..), State.release, State.mapMop_runOf, run']
    rw [State.count_mopOf]
    exact State.release_mopOf before cycles _
  · exact ⟨g', run', member', before⟩

/-! ## A stream without a place (R172), and places at a Bobbin (log 71) -/

theorem streamCommands_rest {s : State} {t seq : Nat} {c : Ctx} {g : GroupRun} (ctx : s.ctx t seq = some c)
    (run : s.runOf c.ring t seq = some g) (idle : s.streaming g = false ∨ s.poolOpen = false) (bytes cycles : Nat) :
    ∀ e ∈ [Instr.keyVerdict t seq, .pbsKeyVerdict t seq, .keyRingArrival t seq bytes cycles, .pbsObjectArrival t seq cycles],
      exec e s = .next s := by
  have placed (pool : s.poolOpen = true) : s.streaming g = false := idle.resolve_right (by rw [pool]; decide)
  intro e he
  simp only [List.mem_cons, List.not_mem_nil, or_false] at he
  obtain rfl | rfl | rfl | rfl := he
  case inl =>
    rw [exec_keyVerdict_eq, execKeyVerdict]
    refine State.withStream_rests ctx _ fun pool => ?_
    dsimp only
    split
    next x _ _ same _ _ =>
      rw [run] at same
      cases same
      exact if_pos (by simp [placed pool])
    next => rfl
  case inr.inl =>
    rw [exec_pbsKeyVerdict_eq, execPbsKeyVerdict]
    refine State.withStream_rests ctx _ fun pool => ?_
    dsimp only
    split
    next x _ _ same _ _ =>
      rw [run] at same
      cases same
      exact if_pos (by simp [placed pool])
    next => rfl
  case inr.inr.inl =>
    rw [exec_keyRingArrival_eq, execKeyRingArrival, ctx]
    dsimp only
    split
    · rw [State.pbsRing]
      refine State.withStream_rests ctx _ fun pool => ?_
      dsimp only
      split
      next x _ same _ =>
        rw [run] at same
        cases same
        exact if_pos (by simp [placed pool])
      next => rfl
    · rw [State.kswRing]
      refine State.withStream_rests ctx _ fun pool => ?_
      dsimp only
      split
      next x _ same _ =>
        rw [run] at same
        cases same
        exact if_pos (by simp [placed pool])
      next => rfl
  case inr.inr.inr =>
    rw [exec_pbsObjectArrival_eq, execPbsObjectArrival]
    refine State.withStream_rests ctx _ fun pool => ?_
    dsimp only
    split
    next x _ _ same _ _ =>
      rw [run] at same
      cases same
      exact if_pos (by simp [placed pool])
    next => rfl

theorem exec_bobbinStreamStart (s : State) (k : Nat) : exec (.bobbinStreamStart k) s = execBobbinStreamStart k s := rfl

theorem State.count_stack (s : State) (ctr : Ctr) (i n k : Nat) : (s.count ctr i n).stack k = s.stack k := by
  rw [State.stack, State.count_hbm, State.stack]

theorem bobbinStreamStart_takes {s : State} {k : Nat} (stack : k < 12) {x : KeyStream} {rest : List KeyStream}
    (waits : (s.stack k).bobbinWaiting = x :: rest) (free : (s.stack k).bobbinActive.length < 4) :
    ∃ u, exec (.bobbinStreamStart k) s = .next u ∧ (u.stack k).bobbinActive = (s.stack k).bobbinActive ++ [x] ∧
      (u.stack k).bobbinWaiting = rest ∧ ∀ j, j ≠ k → u.stack j = s.stack j := by
  refine ⟨_, by rw [exec_bobbinStreamStart, execBobbinStreamStart, waits]; exact if_pos free, ?_, ?_, fun j other => ?_⟩
  · rw [State.count_stack, State.stack_mapStack_self _ stack]
  · rw [State.count_stack, State.stack_mapStack_self _ stack]
  · rw [State.count_stack, State.stack_mapStack_other _ other]

theorem bobbinStreamStart_full {s : State} {k : Nat} (full : 4 ≤ (s.stack k).bobbinActive.length) :
    exec (.bobbinStreamStart k) s = .next s := by
  rw [exec_bobbinStreamStart, execBobbinStreamStart]
  split
  · exact if_neg (Nat.not_lt.2 full)
  · rfl

/-! ## Verdicts (Tables KS.8, RF.3) -/

/-- Checks 5 to 10 of Table KS.8: what a key header must say for this word and set. -/
def KeyHeader.Fits (h : KeyHeader) (w : MopWord) (form : Nat) (p : PSet) : Prop :=
  h.kind = w.kswKind ∧ h.form = form ∧ h.pset = w.pset ∧
    (if w.kswKind = 3 then h.digits = p.pbsLevels ∧ h.baseLog * h.digits ≤ 32 ∧ h.baseLog ≠ 0
      else h.digits = ceilDiv p.chain (alphaOf p.chain p.dnum) ∧ h.keytagOut = h.keytag) ∧ h.galois = w.kswGalois

theorem KeyHeader.fits_iff (h : KeyHeader) (w : MopWord) (form : Nat) (p : PSet) :
    h.Fits w form p ↔ (h.kind != w.kswKind || h.form != form || h.pset != w.pset ||
      (if w.kswKind = 3 then h.digits != p.pbsLevels || decide (h.baseLog * h.digits > 32) || h.baseLog == 0
        else h.digits != ceilDiv p.chain (alphaOf p.chain p.dnum) || h.keytagOut != h.keytag) || h.galois != w.kswGalois) = false := by
  unfold KeyHeader.Fits
  split <;> simp [and_assoc]

theorem kswVerdict_unsound {h : KeyHeader} (unsound : h.sound = false) (w : MopWord) (form keytag : Nat) (p : PSet) :
    (kswVerdict h w form keytag p).flags = 4 := by
  simp [kswVerdict, unsound, Flag.faulted]

theorem kswVerdict_misfit {h : KeyHeader} {w : MopWord} {form : Nat} {p : PSet} (sound : h.sound = true) (misfit : ¬ h.Fits w form p)
    (keytag : Nat) : (kswVerdict h w form keytag p).flags = 2 ∧ (kswVerdict h w form keytag p).perSet = false := by
  rw [KeyHeader.fits_iff, Bool.not_eq_false] at misfit
  unfold kswVerdict
  dsimp only
  rw [if_neg (by rw [sound]; decide), if_pos misfit]
  exact ⟨rfl, rfl⟩

theorem kswVerdict_otherTag {h : KeyHeader} {w : MopWord} {form keytag : Nat} {p : PSet} (sound : h.sound = true) (fits : h.Fits w form p)
    (other : h.keytag ≠ keytag) : (kswVerdict h w form keytag p).flags = 2 ∧ (kswVerdict h w form keytag p).perSet = true := by
  rw [KeyHeader.fits_iff] at fits
  unfold kswVerdict
  dsimp only
  rw [if_neg (by rw [sound]; decide), if_neg (by rw [fits]; decide), if_pos (bne_iff_ne.2 other)]
  exact ⟨rfl, rfl⟩

theorem kswVerdict_agrees {h : KeyHeader} {w : MopWord} {form keytag : Nat} {p : PSet} (sound : h.sound = true) (fits : h.Fits w form p)
    (same : h.keytag = keytag) : kswVerdict h w form keytag p =
      { flags := 0, keytag := h.keytag, keytagOut := h.keytagOut, baseLog := h.baseLog, perSet := false } := by
  rw [KeyHeader.fits_iff] at fits
  unfold kswVerdict
  dsimp only
  rw [if_neg (by rw [sound]; decide), if_neg (by rw [fits]; decide), if_neg (by simp [same])]
  rfl

theorem pbsVerdict_unsound {r k : KeyHeader} (unsound : r.sound = false ∨ k.sound = false) (w : MopWord) (form : Nat) (p : PSet) :
    (pbsVerdict r k w form p).flags = 4 := by
  have : (!r.sound || !k.sound) = true := by rcases unsound with h | h <;> simp [h]
  unfold pbsVerdict
  dsimp only
  rw [if_pos this]

/-- Checks 2 to 5 of Table RF.3: what the two headers of a PBS must say. -/
def KeyHeader.PairFits (r k : KeyHeader) (w : MopWord) (form : Nat) (p : PSet) : Prop :=
  r.kind = 4 ∧ r.form = form ∧ r.pset = w.pset ∧ r.digits = p.pbsLevels ∧ r.baseLog = p.pbsBaseLog ∧ r.galois = 0 ∧
    k.kind = 3 ∧ k.form = form ∧ k.pset = w.pset ∧ k.digits = p.pbsLevels ∧ k.baseLog ≠ 0 ∧ k.baseLog * k.digits ≤ 32 ∧
    k.galois = 0 ∧ k.keytag = r.keytagOut

theorem pbsVerdict_misfit {r k : KeyHeader} {w : MopWord} {form : Nat} {p : PSet} (hr : r.sound = true) (hk : k.sound = true)
    (misfit : ¬ r.PairFits k w form p) : (pbsVerdict r k w form p).flags = 2 := by
  unfold pbsVerdict
  dsimp only
  rw [if_neg (by rw [hr, hk]; decide)]
  split
  next => rfl
  next refresh =>
    split
    next => rfl
    next switch =>
      split
      next => rfl
      next tags =>
        refine absurd ?_ misfit
        simp only [Bool.or_eq_true, bne_iff_ne, beq_iff_eq, decide_eq_true_eq, not_or, not_not, not_lt] at refresh switch tags
        unfold KeyHeader.PairFits
        tauto

theorem pbsVerdict_fits {r k : KeyHeader} {w : MopWord} {form : Nat} {p : PSet} (hr : r.sound = true) (hk : k.sound = true)
    (fits : r.PairFits k w form p) : pbsVerdict r k w form p =
      { flags := 0, keytag := r.keytag, keytagOut := k.keytagOut, baseLog := k.baseLog, perSet := false } := by
  obtain ⟨kind, form', pset, digits, base, galois, kind', form'', pset', digits', base', small, galois', tags⟩ := fits
  unfold pbsVerdict
  dsimp only
  rw [if_neg (by rw [hr, hk]; decide), if_neg (by simp [kind, form', pset, digits, base, galois]), if_neg ?_, if_neg (by simp [tags])]
  simp only [Bool.or_eq_true, bne_iff_ne, beq_iff_eq, decide_eq_true_eq, not_or, not_not, not_lt]
  tauto

/-! ## The statement -/

theorem kswVerdict_rows (h : KeyHeader) (w : MopWord) (form keytag : Nat) (p : PSet) :
    let v := kswVerdict h w form keytag p
    (h.sound = false → v.flags = 4) ∧
    (h.sound = true →
      (h.kind ≠ w.kswKind ∨ h.form ≠ form ∨ h.pset ≠ w.pset ∨ h.galois ≠ w.kswGalois → v.flags = 2 ∧ v.perSet = false) ∧
      (w.kswKind ≠ 3 → h.digits ≠ ceilDiv p.chain (alphaOf p.chain p.dnum) ∨ h.keytagOut ≠ h.keytag → v.flags = 2 ∧ v.perSet = false) ∧
      (w.kswKind = 3 → h.digits ≠ p.pbsLevels ∨ h.baseLog = 0 ∨ 32 < h.baseLog * h.digits → v.flags = 2 ∧ v.perSet = false) ∧
      (h.keytag ≠ keytag → v.flags = 2) ∧
      (h.kind = w.kswKind → h.form = form → h.pset = w.pset → h.galois = w.kswGalois →
        (if w.kswKind = 3 then h.digits = p.pbsLevels ∧ h.baseLog ≠ 0 ∧ h.baseLog * h.digits ≤ 32
          else h.digits = ceilDiv p.chain (alphaOf p.chain p.dnum) ∧ h.keytagOut = h.keytag) →
        (h.keytag ≠ keytag → v.perSet = true) ∧
        (h.keytag = keytag → v.flags = 0 ∧ v.keytagOut = h.keytagOut ∧ v.baseLog = h.baseLog))) := by
  intro v
  refine ⟨fun unsound => kswVerdict_unsound unsound .., fun sound => ⟨fun wrong => kswVerdict_misfit sound ?_ _,
    fun kind wrong => kswVerdict_misfit sound ?_ _, fun kind wrong => kswVerdict_misfit sound ?_ _, fun other => ?_,
    fun kind form' pset galois digits => ?_⟩⟩
  · rintro ⟨kind, form', pset, -, galois⟩
    exact wrong.elim (absurd kind) fun wrong => wrong.elim (absurd form') fun wrong => wrong.elim (absurd pset) (absurd galois)
  · rintro ⟨-, -, -, digits, -⟩
    rw [if_neg kind] at digits
    exact wrong.elim (absurd digits.1) (absurd digits.2)
  · rintro ⟨-, -, -, digits, -⟩
    rw [if_pos kind] at digits
    exact wrong.elim (absurd digits.1) fun wrong => wrong.elim digits.2.2 (Nat.not_lt.2 digits.2.1)
  · by_cases fits : h.Fits w form p
    · exact (kswVerdict_otherTag sound fits other).1
    · exact (kswVerdict_misfit sound fits keytag).1
  · have fits : h.Fits w form p := by
      refine ⟨kind, form', pset, ?_, galois⟩
      split at digits
      next lwe =>
        rw [if_pos lwe]
        exact ⟨digits.1, digits.2.2, digits.2.1⟩
      next rlwe =>
        rw [if_neg rlwe]
        exact digits
    refine ⟨fun other => (kswVerdict_otherTag sound fits other).2, fun same => ?_⟩
    unfold v
    rw [kswVerdict_agrees sound fits same]
    exact ⟨rfl, rfl, rfl⟩

theorem pbsVerdict_rows (r k : KeyHeader) (w : MopWord) (form keytag : Nat) (p : PSet) :
    let v := pbsVerdict r k w form p
    (r.sound = false ∨ k.sound = false → v.flags = 4) ∧
    (r.sound = true → k.sound = true → (¬ r.PairFits k w form p → v.flags = 2) ∧
      (r.PairFits k w form p → v.flags = 0 ∧ v.keytagOut = k.keytagOut ∧ v.baseLog = k.baseLog ∧
        (v.against keytag).flags = if r.keytag = keytag then 0 else 2)) := by
  intro v
  refine ⟨fun unsound => pbsVerdict_unsound unsound .., fun hr hk => ⟨pbsVerdict_misfit hr hk, fun fits => ?_⟩⟩
  unfold v
  rw [pbsVerdict_fits hr hk fits]
  refine ⟨rfl, rfl, rfl, ?_⟩
  by_cases same : r.keytag = keytag
  · rw [Verdict.against, if_neg (fun n => n.2 same), if_pos same]
  · rw [Verdict.against, if_pos ⟨rfl, same⟩, if_neg same]

/-- Settles O48: the effect of each command of a stream with its place, the rest of it without one, and the two verdicts. -/
theorem keysAreDelivered : Obligations.KeysAreDelivered := by
  unfold Obligations.KeysAreDelivered
  refine ⟨⟨fun s t seq c g m p v feeds run started streams member own pset key => ⟨fun ksw streamed leads unjudged => ?_,
    fun pbs unjudged => ?_, fun mine pass at0 base bytes cycles n serves room size => ?_, fun cycles pbs fits => ?_⟩,
    fun m cycles early => ⟨rfl, rfl⟩, fun s t seq bytes cycles c g ctx run idle => streamCommands_rest ctx run idle bytes cycles,
    fun s k stack => ⟨fun x rest => bobbinStreamStart_takes stack, bobbinStreamStart_full⟩⟩, kswVerdict_rows, pbsVerdict_rows⟩
  · rw [exec_keyVerdict feeds run started streams member pset key ksw streamed leads unjudged]
    refine ⟨fun a found => ⟨_, rfl, ?_⟩, fun sound => ?_⟩
    · rw [found]
      exact stopMop_stop feeds.1 _
    · rw [sound]
      obtain ⟨g', run', verdict, freed, mem⟩ := keyVerdict_judges run member [v.base] (g.setTiles (g.setOf t))
        (kswVerdict (s.streamHeader g v.base) c.w (keyfeedForm c.job.mode.keyfeed) (s.inputTag c) p)
      exact ⟨_, g', rfl, run', verdict, freed, mem⟩
  · dsimp only
    rw [exec_pbsKeyVerdict feeds run started streams member pset key pbs unjudged]
    refine ⟨fun a found => ⟨_, rfl, ?_⟩, fun sound => ?_⟩
    · rw [found]
      exact stopMop_stop feeds.1 _
    · rw [sound]
      obtain ⟨g', run', verdict, freed, mem⟩ := pbsKeyVerdict_judges feeds.1 run member [v.base, c.pbsImage p]
        (s.pbsJudgement g c v.base (c.pbsImage p) p)
      exact ⟨_, g', rfl, run', verdict, freed, mem⟩
  · obtain ⟨ksw, streamed, rfl, rfl, rfl, rfl⟩ | ⟨pbs, rfl, wave, rfl, fed, more, rfl⟩ := serves
    · obtain ⟨theirs, runs, mine⟩ := exec_keyRingArrival_ksw feeds run started streams member own pset key ksw streamed bytes cycles
      obtain ⟨idle, stops, takes⟩ := State.ringArrival_served feeds.1 run member room (s.runKey g c p v.base 0) mine m.got bytes cycles n
        .kswKeyWaitCycles size
      rw [runs]
      refine ⟨fun none => by rw [idle none], fun a taken found => by rw [stops a taken found], fun taken sound => ?_⟩
      obtain ⟨g', run', member', mop⟩ := takes taken sound
      exact ⟨_, g', rfl, run', member', mop⟩
    · rw [exec_keyRingArrival_pbs feeds run started streams member pset pbs pass wave fed more]
      obtain ⟨idle, stops, takes⟩ := State.ringArrival_served feeds.1 run member room (s.runKey g c p (c.pbsImage p) pass)
        (theirs := fun _ => s.pbsPieces g c p) rfl (m.got % max (piecesSize (s.pbsPieces g c p)) 1) bytes cycles n .pbsKeyWaitCycles size
      refine ⟨fun none => by rw [idle none], fun a taken found => by rw [stops a taken found], fun taken sound => ?_⟩
      obtain ⟨g', run', member', mop⟩ := takes taken sound
      exact ⟨_, g', rfl, run', member', mop⟩
  · dsimp only
    rw [exec_pbsObjectArrival feeds run started streams member pset key pbs fits cycles]
    refine ⟨fun a found => by rw [found], fun sound => ?_⟩
    rw [sound]
    obtain ⟨g', run', member', mop⟩ := pbsObjectArrival_feeds feeds.1 run member [v.base] (m.objects / max p.lweN 1) (fun _ => g.tiles)
      (g.unread (m.objects / max p.lweN 1) [(v.base + 64 + m.objects % max p.lweN 1 *
        objectSize p (2 ^ c.w.ringLog) (c.job.mode.keyfeed == .seeded), objectSize p (2 ^ c.w.ringLog) (c.job.mode.keyfeed == .seeded))]) cycles
    exact ⟨_, g', rfl, run', member', mop⟩

end Sys2Proof.Machine
end

section
/-!
PROOFS. What a stop of a job's tiles, a start of a recovery and a start of a commit leave of the job (R438, R442, R443).
-/
namespace Sys2Proof.Machine

/-! ## The job of a ring -/

theorem State.job_mapJob {s : State} {r : Nat} {j : Job} (job : s.job r = some j) {f : Job → Job} (hf : ∀ j, (f j).ring = j.ring) :
    (s.mapJob r f).job r = some (f j) := by
  have keeps : ∀ x : Job, ((if x.ring == r then f x else x).ring == r) = (x.ring == r) := by
    intro x
    split
    · rw [hf]
    · rfl
  rw [State.job] at job
  rw [State.job, State.mapJob, find?_map_keeps keeps, job, Option.map_some, if_pos (List.find?_some job)]

/-- A job found by its ring where what `κ` shows of the jobs stands, its ring among it. -/
theorem State.job_of_map {α : Type} {κ : Job → α} (ring : α → Nat) (hκ : ∀ j, ring (κ j) = j.ring) {s t : State}
    (h : t.jobs.map κ = s.jobs.map κ) {r : Nat} {j : Job} (job : s.job r = some j) : ∃ j', t.job r = some j' ∧ κ j' = κ j := by
  have find (u : State) : (u.job r).map κ = (u.jobs.map κ).find? (fun x => ring x == r) := by
    rw [State.job, List.find?_map]
    exact congrArg (Option.map κ) (congrArg (List.find? · u.jobs) (funext fun j => by rw [Function.comp, hκ]))
  have same : (t.job r).map κ = some (κ j) := by rw [find t, h, ← find s, job]; rfl
  exact Option.map_eq_some_iff.1 same

/-- A job without its schedules' S and F as well. -/
def Job.heart (j : Job) : Job := { j.core with scheds := [] }

def State.hearts (s : State) : List Job := s.jobs.map Job.heart

theorem State.hearts_of_jobs {s t : State} (h : t.jobs = s.jobs) : t.hearts = s.hearts := congrArg (List.map Job.heart) h

theorem State.hearts_of_cores {s t : State} (h : t.cores = s.cores) : t.hearts = s.hearts := by
  have through (u : State) : u.hearts = u.cores.map fun j => { j with scheds := [] } := by
    rw [State.hearts, State.cores, List.map_map]
    rfl
  rw [through, through, h]

theorem State.job_of_hearts {s t : State} (h : t.hearts = s.hearts) {r : Nat} {j : Job} (job : s.job r = some j) :
    ∃ j', t.job r = some j' ∧ j'.heart = j.heart :=
  State.job_of_map (κ := Job.heart) Job.ring (fun _ => rfl) h job

theorem Job.heart_of_core {a b : Job} (h : a.core = b.core) : a.heart = b.heart := congrArg (fun j => { j with scheds := [] }) h

theorem State.mapJob_hearts (r : Nat) {f : Job → Job} (hf : ∀ j, (f j).heart = j.heart) (s : State) : (s.mapJob r f).hearts = s.hearts := by
  rw [State.hearts, State.mapJob, List.map_map, State.hearts]
  refine List.map_congr_left fun j _ => ?_
  dsimp only [Function.comp]
  split
  · exact hf j
  · rfl

/-! ## Reads of incomplete entries -/

@[simp] theorem State.lineRead_cores (line : Nat) (e : ReadError) (s : State) : (s.lineRead line e).cores = s.cores := by
  unfold State.lineRead
  split
  · rfl
  · split
    · rfl
    · rw [State.raise_cores]
      exact State.cores_of_jobs (State.count_jobs ..)
    · split
      · rfl
      · split
        · rw [State.raise_cores]
          exact State.cores_of_jobs (State.count_jobs ..)
        · have : MayLinePoison Part.stored.contains := ⟨rfl⟩
          have : MayTele Part.stored.contains := ⟨rfl⟩
          exact (Evolves.refl Part.stored.contains s).markPoison.cores rfl

@[simp] theorem State.mergeReads_cores (merges : List (Nat × ReadError)) (s : State) : (s.mergeReads merges).cores = s.cores := by
  refine List.foldl_keeps (g := State.cores) (fun u k => ?_) _ s
  refine List.foldl_keeps (g := State.cores) (fun v e => ?_) _ u
  split
  · rfl
  · exact State.lineRead_cores ..

/-! ## Schedules -/

theorem State.putSched_cores (j : Job) (e : SchedEntry) (die h : Nat) (s : State) : (s.putSched j e die h).cores = s.cores := by
  have : Stores Part.stored.contains := stores_of rfl
  unfold State.putSched
  split
  · split
    · rfl
    · refine List.foldl_keeps (g := State.cores) (fun u t => ?_) _ s
      dsimp only
      rw [State.noteWrite_cores]
      exact (State.store_evolves ..).cores rfl
  · rfl

theorem State.runSched_hearts (r : Nat) (x : Schedule) (s : State) : (s.runSched r x).hearts = s.hearts := by
  unfold State.runSched
  split
  · rfl
  · dsimp only
    rw [State.hearts_of_cores (State.putSched_cores ..)]
    refine State.mapJob_hearts r (fun _ => ?_) s
    rfl

theorem State.stepScheds_hearts (r b : Nat) (s : State) : (s.stepScheds r b).hearts = s.hearts := by
  unfold State.stepScheds
  split
  · rfl
  · dsimp only
    refine (List.foldl_keeps (g := State.hearts) (fun u x => State.runSched_hearts ..) _ _).trans ?_
    exact State.hearts_of_jobs (State.count_jobs ..)

/-! ## Stopped tiles (Table TR.6, step 1) -/

/-- A job whose tiles have stopped. -/
def Job.stopped (j : Job) : Job :=
  { j with
    heldErrs := [], committing := false, taking := none, copied := [], resolving := none,
    barriers := j.barriers.map (fun b => { b with arrived := [] }) }

theorem Job.stopped_core {a b : Job} (h : a.core = b.core) : a.stopped.core = b.stopped.core := by
  have through (j : Job) : j.stopped.core = j.core.stopped := rfl
  rw [through, through, h]

theorem State.abortTiles_cores (ts : List Nat) (s : State) : (s.abortTiles ts).cores = s.cores := by
  unfold State.abortTiles
  refine (List.foldl_keeps (g := State.cores) (fun u t => State.abortTile_cores ..) ts _).trans ?_
  exact State.abortAll_cores ..

/-- What closing windows and idling stream queues may change. -/
abbrev Part.idles : List Part := [.mem, .linePoison, .hbm, .tele, .tMarks, .tWindows, .tStreams]

theorem State.stopTiles_job {s : State} {r : Nat} {j : Job} (job : s.job r = some j) :
    ∃ j', (s.stopTiles r).job r = some j' ∧ j'.core = j.stopped.core := by
  have : Stores Part.idles.contains := stores_of rfl
  have : MayTWindows Part.idles.contains := ⟨rfl⟩
  have : MayTStreams Part.idles.contains := ⟨rfl⟩
  unfold State.stopTiles
  rw [job]
  dsimp only
  have idle : ∀ u : State, Evolves Part.idles.contains u
      (j.tileIds.foldl (fun s t => (s.closeWindows t).idleStreams t) u) :=
    fun u => (Evolves.refl _ u).foldl fun _ _ hu => hu.closeWindows.idleStreams
  obtain ⟨j', job', core⟩ := State.job_of_cores (((idle _).cores rfl).trans (s.abortTiles_cores j.tileIds)) job
  exact ⟨j'.stopped, State.job_mapJob job' (f := Job.stopped) fun _ => rfl, Job.stopped_core core⟩

/-! ## A recovery starts -/

/-- A job that recovers. -/
def Job.recovering (n : Nat) (x : Recovery) (j : Job) : Job := { j with epochRecoveries := n, recovery := some x }

theorem Job.recovering_core (n : Nat) (x : Recovery) {a b : Job} (h : a.core = b.core) : (a.recovering n x).core = (b.recovering n x).core := by
  have through (j : Job) : (j.recovering n x).core = j.core.recovering n x := rfl
  rw [through, through, h]

/-- A job after the start of a recovery: stopped, with a recovery that has the new takeover first and those still due. -/
theorem State.startRecovery_job {s : State} {r : Nat} {j : Job} (job : s.job r = some j) (takeover : Option Nat) (arg : Nat) (named : List Nat) :
    ∃ j' n x, (s.startRecovery r takeover arg named).job r = some j' ∧ j'.core = (j.stopped.recovering n x).core ∧
      x.takeovers = takeover.toList ++ (j.recovery.elim [] (·.takeovers)).filter (fun t => some t != takeover) := by
  obtain ⟨k, stopped, core⟩ := State.stopTiles_job job
  unfold State.startRecovery
  split
  next missing => rw [job] at missing; cases missing
  next found =>
  rw [job] at found
  cases found
  extract_lets +onlyGivenNames u n old failed since w
  have started : w.job r = some (k.recovering n
      { takeovers := takeover.toList ++ failed, arg := arg, site := 0, since := since, named := old ++ named }) :=
    State.job_mapJob stopped (f := Job.recovering n _) fun _ => rfl
  have after : (if 4 ≤ n then w.raise [Err.ofJob .fatal 0x34 0 0 j 0 j.epoch 0] else w).cores = w.cores := by
    split
    · exact State.raise_cores ..
    · rfl
  clear_value w
  obtain ⟨j', job', same⟩ := State.job_of_cores after started
  exact ⟨j', n, _, job', same.trans (Job.recovering_core _ _ core), rfl⟩

/-! ## A commit starts -/

/-- A job whose commit has begun. -/
def Job.beginning (clock : Nat) (copied crcs : List Nat) (taking : Saved) (j : Job) : Job :=
  { j with committing := true, commitSince := clock, copied := copied, writtenAt := j.written.length, crcs := crcs, taking := some taking }

/-- What starting a commit copies may change. -/
abbrev Part.copies : List Part := [.mem, .linePoison, .hbm, .tele, .tMarks, .power, .jobs]

/-- A commit begins in a job that guards its state: its copies are made and its state is taken, or a recovery starts. -/
theorem State.beginCommit_job {s : State} {r : Nat} {j : Job} (job : s.job r = some j) (guard : j.mode.guard ≠ .off) :
    ((∃ clock copied crcs taking, (s.beginCommit r).job r = some (j.beginning clock copied crcs taking)) ∧
        Evolves Part.copies.contains s (s.beginCommit r)) ∨
      (∃ i a, (j.numbered.filter (fun x => j.dirty x.2)).findSome? (s.copyFault j) = some (i, a)) ∧
        ∃ (u : State) (named : List Nat), u.jobs = s.jobs ∧ (∀ x, (u.tile x).windows = (s.tile x).windows) ∧
          s.beginCommit r = u.startRecovery r none 0xFF named := by
  have : Stores Part.copies.contains := stores_of rfl
  have : MayPower Part.copies.contains := ⟨rfl⟩
  have : MayJobs Part.copies.contains := ⟨rfl⟩
  have : MayTele Part.stored.contains := ⟨rfl⟩
  have : MayLinePoison Part.stored.contains := ⟨rfl⟩
  have : MayTMarks Part.stored.contains := ⟨rfl⟩
  unfold State.beginCommit
  rw [job]
  dsimp only
  rw [if_neg guard]
  split
  next i a found =>
    refine .inr ⟨⟨i, a, found⟩, ?_⟩
    split
    next a' => exact ⟨_, _, (Evolves.refl Part.stored.contains s).spoilSource.kept .jobs rfl,
        (Evolves.refl Part.stored.contains s).spoilSource.kept .tWindows rfl, rfl⟩
    next => exact ⟨s, _, rfl, fun _ => rfl, rfl⟩
  next found =>
    refine .inl ⟨?_, ?_⟩
    · have copied (l : List (Nat × GuardShard)) : (l.foldl (fun s x => s.copyShard j x.2) s).jobs = s.jobs := by
        have : MayPower [Part.mem, .linePoison, .hbm, .tele, .tMarks, .power].contains := ⟨rfl⟩
        have : Stores [Part.mem, .linePoison, .hbm, .tele, .tMarks, .power].contains := stores_of rfl
        exact ((Evolves.refl [Part.mem, .linePoison, .hbm, .tele, .tMarks, .power].contains s).foldl fun _ _ hu => hu.copyShard).kept .jobs rfl
      refine ⟨_, _, _, _, (State.job_mapJob (by rw [State.job, copied]; exact job) ?_).trans rfl⟩
      exact fun _ => rfl
    · exact ((Evolves.refl _ s).foldl fun _ _ hu => hu.copyShard).mapJob fun _ => rfl

end Sys2Proof.Machine
end

section
/-!
PROOFS. O54: barriers and stalls (R367, R374-R379): windows that close, BARs that are done, entries written back.
-/
namespace Sys2Proof.Machine

/-! ## Windows that close (R371) -/

/-- Every window of a tile is closed. -/
def Tile.closed (u : Tile) : Prop := ∀ k, (u.winAt k).isOpen = false

theorem Tile.closed_of_windows {u v : Tile} (h : v.windows = u.windows) (closed : u.closed) : v.closed := by
  intro k
  rw [Tile.winAt, h]
  exact closed k

theorem State.tile_out {s : State} {t : Nat} (h : 208 ≤ t) : s.tile t = Tile.reset := by
  simp [State.tile, Tab.at, Nat.not_lt.2 h]

theorem Tile.reset_closed : Tile.reset.closed := by
  intro k
  by_cases h : k < 8 <;> simp [Tile.winAt, Tab.at, Tile.reset, Tab.fill, h, Window.reset]

/-- A tile whose windows have been closed. -/
def Tile.shut (u : Tile) : Tile := { u with windows := u.windows.map (fun w => { w with isOpen := false }) }

theorem Tile.shut_closed (u : Tile) : u.shut.closed := by
  intro k
  by_cases h : k < 8 <;> simp [Tile.winAt, Tab.at, Tile.shut, h, Window.reset]

theorem State.closeWindows_closed (s : State) (t : Nat) : ((s.closeWindows t).tile t).closed := by
  by_cases inside : t < 208
  · rw [State.closeWindows, State.tile_mapTile_self _ inside]
    exact Tile.shut_closed _
  · rw [State.tile_out (Nat.not_lt.1 inside)]
    exact Tile.reset_closed

theorem State.closeWindows_keeps {s : State} {x : Nat} (closed : (s.tile x).closed) (t : Nat) : ((s.closeWindows t).tile x).closed := by
  by_cases here : x = t
  · rw [here]
    exact s.closeWindows_closed t
  · rw [State.closeWindows, State.tile_mapTile_other _ here]
    exact closed

theorem State.closeAll_closed {ts : List Nat} {x : Nat} (s : State) (h : x ∈ ts ∨ (s.tile x).closed) :
    ((ts.foldl (fun s t => s.closeWindows t) s).tile x).closed := by
  induction ts generalizing s with
  | nil => exact h.resolve_left List.not_mem_nil
  | cons t ts ih =>
    refine ih _ ?_
    obtain mem | closed := h
    · obtain rfl | mem := List.mem_cons.1 mem
      · exact .inr (s.closeWindows_closed _)
      · exact .inl mem
    · exact .inr (State.closeWindows_keeps closed t)

/-- What stopping tiles may change before their windows close. -/
abbrev Part.tileStops : List Part := .jobs :: Part.aborts

theorem State.stopTiles_closed {s : State} {x : Nat} (closed : (s.tile x).closed) (r : Nat) : ((s.stopTiles r).tile x).closed := by
  have : Stores Part.tileStops.contains := stores_of rfl
  have : MayJobs Part.tileStops.contains := ⟨rfl⟩
  have : MayGroups Part.tileStops.contains := ⟨rfl⟩
  have : MayPoisonRequests Part.tileStops.contains := ⟨rfl⟩
  have : MayTVregs Part.tileStops.contains := ⟨rfl⟩
  have : MayTWindow Part.tileStops.contains := ⟨rfl⟩
  have : MayTStreams Part.tileStops.contains := ⟨rfl⟩
  have : MayTQueues Part.tileStops.contains := ⟨rfl⟩
  unfold State.stopTiles
  split
  next => exact closed
  next j _ =>
    have aborted : ((s.abortTiles j.tileIds).tile x).closed :=
      Tile.closed_of_windows ((Evolves.refl Part.tileStops.contains s).abortTiles.kept .tWindows rfl x) closed
    have idle (ts : List Nat) (u : State) (h : (u.tile x).closed) :
        ((ts.foldl (fun s t => (s.closeWindows t).idleStreams t) u).tile x).closed := by
      induction ts generalizing u with
      | nil => exact h
      | cons t ts ih =>
        exact ih _ (Tile.closed_of_windows ((Evolves.refl Part.tileStops.contains _).idleStreams.kept .tWindows rfl x)
          (State.closeWindows_keeps h t))
    exact idle _ _ aborted

theorem State.startRecovery_closed {s : State} {x : Nat} (closed : (s.tile x).closed) (r : Nat) (takeover : Option Nat) (arg : Nat)
    (named : List Nat) : ((s.startRecovery r takeover arg named).tile x).closed := by
  have : Raises Part.raised.contains := raises_of rfl
  unfold State.startRecovery
  split
  next => exact closed
  next =>
    have either (p : Prop) [Decidable p] (u : State) (es : List Err) (h : (u.tile x).closed) :
        ((if p then u.raise es else u).tile x).closed := by
      split
      · exact Tile.closed_of_windows ((Evolves.refl Part.raised.contains u).raise.kept .tWindows rfl x) h
      · exact h
    exact either _ _ _ (State.stopTiles_closed closed r)

/-! ## BARs that are done (R377) -/

/-- The BARs of a barrier on a tile have taken their effect. -/
def Tile.barsDone (b : Nat) (u : Tile) : Prop :=
  ∀ m ∈ u.window, m.word.family = 26 → m.word.barrier = b → m.start.isSome = true → m.done = true

/-- A tile whose BARs of a barrier have been released. -/
def Tile.released (b : Nat) (u : Tile) : Tile :=
  { u with window := u.window.map (fun m =>
      if m.word.family = Fam.bar ∧ m.word.immBits 3 0 = b ∧ m.start.isSome then { m with done := true } else m) }

theorem Tile.released_barsDone (b : Nat) (u : Tile) : (u.released b).barsDone b := by
  intro m hm bar here started
  obtain ⟨x, -, rfl⟩ := List.mem_map.1 hm
  by_cases own : x.word.family = Fam.bar ∧ x.word.immBits 3 0 = b ∧ x.start.isSome
  · rw [if_pos own]
  · rw [if_neg own] at bar here started
    exact absurd ⟨bar, here, started⟩ own

theorem State.releaseTile_barsDone (s : State) (b t : Nat) : ((s.mapTile t (Tile.released b)).tile t).barsDone b := by
  by_cases inside : t < 208
  · rw [State.tile_mapTile_self _ inside]
    exact Tile.released_barsDone b _
  · rw [State.tile_out (Nat.not_lt.1 inside)]
    exact fun m hm => absurd hm List.not_mem_nil

theorem State.releaseTiles_barsDone {b : Nat} {ts : List Nat} {x : Nat} (s : State) (h : x ∈ ts ∨ (s.tile x).barsDone b) :
    ((ts.foldl (fun s t => s.mapTile t (Tile.released b)) s).tile x).barsDone b := by
  induction ts generalizing s with
  | nil => exact h.resolve_left List.not_mem_nil
  | cons t ts ih =>
    refine ih _ ?_
    by_cases here : x = t
    · rw [here]
      exact .inr (s.releaseTile_barsDone b t)
    · refine h.imp (fun mem => (List.mem_cons.1 mem).resolve_left here) fun done => ?_
      rw [State.tile_mapTile_other _ here]
      exact done

/-- A job after a use of a barrier is over. -/
def Job.resolved (b : Nat) (j : Job) : Job :=
  { j with
    resolving := none,
    barriers := (List.zip (List.range j.barriers.length) j.barriers).map (fun x =>
      if x.1 = b then { x.2 with arrived := [], uses := x.2.uses + 1 } else x.2) }

theorem zip_range_getElem? {α : Type} (l : List α) (i : Nat) : ((List.range l.length).zip l)[i]? = l[i]?.map (fun x => (i, x)) := by
  rw [List.zip, List.getElem?_zipWith]
  by_cases h : i < l.length <;> simp [h]

theorem Job.resolved_barrier {j : Job} {b : Nat} {y : Barrier} (h : j.barriers[b]? = some y) :
    (j.resolved b).barriers[b]? = some { y with arrived := [], uses := y.uses + 1 } := by
  rw [Job.resolved, List.getElem?_map, zip_range_getElem?, h, Option.map_some, Option.map_some, if_pos rfl]

/-- The release of a barrier's BARs: the use is over, and its members' BARs are done. -/
theorem State.releaseBars_eq {s : State} {r b : Nat} {j : Job} {y : Barrier} (job : s.job r = some j) (h : j.barriers[b]? = some y) :
    (s.releaseBars r b).job r = some (j.resolved b) ∧ ∀ t ∈ y.members, ((s.releaseBars r b).tile t).barsDone b := by
  have e : s.releaseBars r b = (y.members.foldl (fun s t => s.mapTile t (Tile.released b)) s).mapJob r (Job.resolved b) := by
    rw [State.releaseBars, job]
    dsimp only
    rw [h]
    rfl
  have jobs : (y.members.foldl (fun s t => s.mapTile t (Tile.released b)) s).jobs = s.jobs :=
    List.foldl_keeps (f := fun s t => s.mapTile t (Tile.released b)) (g := State.jobs) (fun _ _ => rfl) _ s
  rw [e]
  refine ⟨State.job_mapJob (by rw [State.job, jobs]; exact job) fun _ => rfl, fun t ht => ?_⟩
  exact State.releaseTiles_barsDone s (.inl ht)

/-! ## Entries written back (R323) -/

theorem State.writeBack_stack_other (s : State) {k j : Nat} (e : WcbEntry) (h : j ≠ k) : (s.writeBack k e).stack j = s.stack j := by
  have dropped : (s.mapStack k (fun u => { u with wcb := u.wcb.filter (fun x => x.line != e.line) })).stack j = s.stack j :=
    State.stack_mapStack_other _ h _
  unfold State.writeBack
  dsimp only
  split
  · exact dropped
  · split
    · rw [State.count_stack, State.count_stack, State.count_stack, dropped]
    · exact ((State.count_stack ..).trans (State.count_stack ..)).trans dropped

/-- Write-backs of some entries of a stack leave the others. -/
theorem State.writeBacks_wcb {k : Nat} (hk : k < 12) (l : List WcbEntry) (s : State) :
    ∀ x ∈ ((l.foldl (fun s e => s.writeBack k e) s).stack k).wcb, x ∈ (s.stack k).wcb ∧ ∀ e ∈ l, x.line ≠ e.line := by
  induction l generalizing s with
  | nil => exact fun x hx => ⟨hx, fun e he => absurd he List.not_mem_nil⟩
  | cons e l ih =>
    intro x hx
    obtain ⟨mem, others⟩ := ih (s.writeBack k e) x hx
    rw [State.writeBack_wcb s k e hk, List.mem_filter, bne_iff_ne] at mem
    exact ⟨mem.1, List.forall_mem_cons.2 ⟨mem.2, others⟩⟩

/-- Every entry of one stack written back. -/
def State.writeBackStack (s : State) (k : Nat) : State := (s.stack k).wcb.foldl (fun s e => s.writeBack k e) s

theorem State.writeBackStack_wcb (s : State) {k : Nat} (hk : k < 12) : ((s.writeBackStack k).stack k).wcb = [] := by
  refine List.eq_nil_iff_forall_not_mem.2 fun x hx => ?_
  obtain ⟨mem, others⟩ := State.writeBacks_wcb hk _ s x hx
  exact others x mem rfl

theorem State.writeBackStack_other (s : State) {k j : Nat} (h : j ≠ k) : (s.writeBackStack k).stack j = s.stack j :=
  List.foldl_keeps (f := fun s e => s.writeBack k e) (g := fun s => s.stack j) (fun u e => u.writeBack_stack_other e h) _ s

theorem State.writeBackAll_wcb (s : State) {k : Nat} (hk : k < 12) : (s.writeBackAll.stack k).wcb = [] := by
  have through (ks : List Nat) (s : State) (h : k ∈ ks ∨ (s.stack k).wcb = []) : ((ks.foldl State.writeBackStack s).stack k).wcb = [] := by
    induction ks generalizing s with
    | nil => exact h.resolve_left List.not_mem_nil
    | cons j ks ih =>
      refine ih _ ?_
      by_cases here : k = j
      · rw [here] at hk ⊢
        exact .inr (s.writeBackStack_wcb hk)
      · refine h.imp (fun mem => (List.mem_cons.1 mem).resolve_left here) fun empty => ?_
        rw [s.writeBackStack_other here, empty]
  exact through (List.range 12) s (.inl (List.mem_range.2 hk))

/-! ## A module without poison -/

/-- No line is poisoned, no granule marked, no word uncorrectable. -/
def State.Sound (s : State) : Prop := s.linePoison = [] ∧ ∀ x, (s.tile x).faults = ([], [])

theorem State.sound_of_same {s u : State} (h : s.Sound) (lines : u.linePoison = s.linePoison) (faults : ∀ x, (u.tile x).faults = (s.tile x).faults) :
    u.Sound := ⟨lines.trans h.1, fun x => (faults x).trans (h.2 x)⟩

theorem State.Sound.count {s : State} (h : s.Sound) (ctr : Ctr) (i n : Nat) : (s.count ctr i n).Sound :=
  State.sound_of_same h (State.count_linePoison ..) fun x => by rw [State.count_tile]

theorem State.Sound.mapStack {s : State} (h : s.Sound) (k : Nat) (f : Stack → Stack) : (s.mapStack k f).Sound := h

theorem State.Sound.written {s : State} (h : s.Sound) (mem : Memory) (line : Nat) :
    ({ s with mem := mem, linePoison := s.linePoison.filter (· != line) } : State).Sound := ⟨by rw [h.1, List.filter_nil], h.2⟩

theorem State.Sound.writeBack {s : State} (h : s.Sound) (k : Nat) (e : WcbEntry) : (s.writeBack k e).Sound := by
  unfold State.writeBack
  dsimp only
  split
  · exact (h.mapStack k _).written ..
  · have counted := ((h.mapStack k fun u => { u with wcb := u.wcb.filter (fun x => x.line != e.line) }).count .wcbRmw k 1).count .memTokens 0 82
    split
    · exact counted.count ..
    · exact counted

theorem State.Sound.acceptLine {s : State} (h : s.Sound) (line mask : Nat) (data : List Byte) : (s.acceptLine line mask data).Sound := by
  unfold State.acceptLine
  split
  · exact h
  · split
    next k _ _ =>
      split
      · exact (h.mapStack k _).written ..
      · have counted := h.count .wcbMerges k 1
        dsimp only
        split
        · split
          · exact (counted.mapStack k _).writeBack ..
          · exact counted.mapStack k _
        · refine State.Sound.mapStack ?_ k _
          split
          · split
            · exact (counted.writeBack ..).count ..
            · exact counted
          · exact counted
    next =>
      split
      · exact h.written ..
      · split
        · exact h.count ..
        · exact h
    next t _ _ =>
      refine ⟨h.1, fun x => ?_⟩
      rw [State.tile_mapTile]
      split
      next same =>
        obtain ⟨rfl, -⟩ := same
        have clean := h.2 x
        rw [Tile.faults, Prod.mk.injEq] at clean
        refine Prod.ext clean.1 ?_
        show List.filter _ (s.tile x).eccDouble = []
        rw [clean.2, List.filter_nil]
      next => exact h.2 x
    next => exact h
    next => exact h

theorem State.Sound.foldl {α : Type} {f : State → α → State} (hf : ∀ s a, s.Sound → (f s a).Sound) (l : List α) {s : State} (h : s.Sound) :
    (l.foldl f s).Sound := by
  induction l generalizing s with
  | nil => exact h
  | cons a l ih => exact ih (hf s a h)

theorem State.Sound.store {s : State} (h : s.Sound) (a : Nat) (bs : List Byte) : (s.store a bs).Sound :=
  State.Sound.foldl (fun _ _ hu => hu.acceptLine ..) _ h

theorem State.Sound.writeBackAll {s : State} (h : s.Sound) : s.writeBackAll.Sound :=
  State.Sound.foldl (fun _ _ hu => State.Sound.foldl (fun _ _ hv => hv.writeBack ..) _ hu) _ h

theorem State.Sound.putSched {s : State} (h : s.Sound) (j : Job) (e : SchedEntry) (die x : Nat) : (s.putSched j e die x).Sound := by
  unfold State.putSched
  split
  · split
    · exact h
    · refine State.Sound.foldl (fun u t hu => ?_) _ h
      exact State.sound_of_same (hu.store _ _) rfl fun _ => rfl
  · exact h

theorem State.Sound.stepScheds {s : State} (h : s.Sound) (r b : Nat) : (s.stepScheds r b).Sound := by
  unfold State.stepScheds
  split
  · exact h
  · dsimp only
    refine State.Sound.foldl (fun u x hu => ?_) _ (h.count ..)
    unfold State.runSched
    split
    · exact hu
    · dsimp only
      refine State.Sound.putSched ?_ _ _ _ _
      exact hu

theorem State.mergeReads_nil (s : State) : s.mergeReads [] = s := by
  have clean (line : Nat) (u : State) : u.lineRead line .clean = u := by
    unfold State.lineRead
    split <;> rfl
  refine List.foldl_keeps (g := id) (fun u k => ?_) _ s
  refine List.foldl_keeps (g := id) (fun v e => ?_) _ u
  split
  · rfl
  · exact clean ..

/-- A sound module can read any shard, and copies it where complement pairs are not checked. -/
theorem State.Sound.copyFault {s : State} (h : s.Sound) {j : Job} (word : j.mode.check = .word) (x : Nat × GuardShard) : s.copyFault j x = none := by
  have readable : s.unreadable x.2.base x.2.size = false := by
    unfold State.unreadable
    split
    next t off _ =>
      have clean := h.2 t
      rw [Tile.faults, Prod.mk.injEq] at clean
      rw [State.remoteBad, clean.1, clean.2]
      simp
    next =>
      rw [h.1]
      simp
  rw [State.copyFault, readable, Job.pairFault, if_pos word]
  rfl

/-! ## BAR arrives (R377) -/

/-- A barrier after a tile has arrived. -/
def Barrier.arrive (t : Nat) (b : Barrier) : Barrier := { b with arrived := insertNat t b.arrived }

/-- A job after a tile has arrived at one of its barriers. -/
def Job.arrive (t barrier : Nat) (j : Job) : Job :=
  { j with barriers := (List.zip (List.range j.barriers.length) j.barriers).map (fun b =>
      if b.1 = barrier ∧ !b.2.arrived.contains t then { b.2 with arrived := insertNat t b.2.arrived } else b.2) }

theorem Job.arrive_barrier {t k b : Nat} {j : Job} {x : Barrier} (h : j.barriers[b]? = some x) :
    ∃ y, (j.arrive t k).barriers[b]? = some y ∧ y.members = x.members ∧ y.uses = x.uses ∧
      (b = k → y.arrived.contains t = true ∧ ∀ z, z ≠ t → y.arrived.contains z = x.arrived.contains z) ∧ (b ≠ k → y = x) := by
  have at_b : (j.arrive t k).barriers[b]? = some (if b = k ∧ !x.arrived.contains t then x.arrive t else x) := by
    rw [Job.arrive, List.getElem?_map, zip_range_getElem?, h]
    rfl
  refine ⟨_, at_b, ?_⟩
  by_cases comes : b = k ∧ !x.arrived.contains t
  · rw [if_pos comes]
    refine ⟨rfl, rfl, fun _ => ⟨?_, fun z other => ?_⟩, fun other => absurd comes.1 other⟩
    · rw [Barrier.arrive, insertNat_contains]
      simp
    · rw [Barrier.arrive, insertNat_contains]
      simp [other]
  · rw [if_neg comes]
    refine ⟨rfl, rfl, fun here => ⟨?_, fun _ _ => rfl⟩, fun _ => rfl⟩
    by_contra absent
    exact comes ⟨here, by simp only [Bool.not_eq_true] at absent; rw [absent]; rfl⟩

theorem bar_arrives {s : State} {t seq : Nat} {c : Ctx} (ready : s.readyCtx t seq isBar = some c) :
    ∃ u, exec (.bar t seq) s = .next u ∧ u.job c.ring = some (c.job.arrive t c.w.barrier) := by
  obtain ⟨rfl, -, -, found, -, -⟩ := State.ctx_facts (State.readyCtx_ctx ready).1
  have e : exec (.bar c.t seq) s = execBar c.t seq s := rfl
  rw [e, execBar, State.withReady_some _ ready]
  exact ⟨_, rfl, State.job_mapJob (f := Job.arrive c.t c.w.barrier) found fun _ => rfl⟩

/-! ## The watchdog (R367) -/

theorem stallWatchdog_raises {s : State} {t seq : Nat} {c : Ctx} (ctx : s.ctx t seq = some c) (runs : s.tileRuns t = true)
    (stallable : c.stallable = true) (fresh : c.mop.stalled = false) (set_ : s.wdog ≠ 0) :
    ∃ u, exec (.stallWatchdog t seq) s = .next u ∧ u.mopOf t seq = some { c.mop with stalled := true } ∧
      c.mop.waitSince + 1000 * s.wdog ≤ u.clock ∧ Recorded s u c.stallEvent := by
  obtain ⟨-, -, -, -, mop, -⟩ := State.ctx_facts ctx
  have e : exec (.stallWatchdog t seq) s = execStallWatchdog t seq s := rfl
  rw [e, execStallWatchdog, ctx]
  dsimp only
  rw [if_pos (by rw [runs, stallable, fresh, bne_iff_ne.2 set_]; rfl)]
  have : Raises Part.raised.contains := raises_of rfl
  refine ⟨_, rfl, ?_, ?_, ?_⟩
  · rw [State.mopOf_of_sequencer ((Evolves.refl Part.raised.contains _).raise.kept .tWindow rfl), State.count_mopOf]
    exact State.mopOf_mapMop (fun m => { m with stalled := true }) (fun _ => rfl) mop
  · rw [(Evolves.refl Part.raised.contains _).raise.kept .clock rfl, State.count_clock]
    exact Nat.le_max_right ..
  · refine fun takes => State.raise_recorded _ (fun h : ErrClass.deferred = .corrected => by cases h) ?_
    rw [State.count_errs]
    exact takes

theorem stallWatchdog_waits {s : State} {t seq : Nat} {c : Ctx} (ctx : s.ctx t seq = some c)
    (quiet : c.stallable = false ∨ c.mop.stalled = true ∨ s.wdog = 0) : exec (.stallWatchdog t seq) s = .next s := by
  have e : exec (.stallWatchdog t seq) s = execStallWatchdog t seq s := rfl
  rw [e, execStallWatchdog, ctx]
  refine if_neg ?_
  simp only [Bool.and_eq_true, Bool.not_eq_true', bne_iff_ne]
  rintro ⟨⟨⟨-, stallable⟩, fresh⟩, set_⟩
  rcases quiet with h | h | h
  · rw [stallable] at h; cases h
  · rw [fresh] at h; cases h
  · exact set_ h

/-! ## Resolutions (R374-R379) -/

/-- A barrier of a job can resolve. -/
def State.resolvable (s : State) (j : Job) (b : Barrier) : Prop :=
  s.errs.fatal = false ∧ j.ending = none ∧ j.recovery = none ∧ j.committing = false ∧ b.members ≠ [] ∧ ∀ t ∈ b.members, t ∈ b.arrived

/-- Every entry written back, and the resolution counted. -/
def State.drainedFor (b : Barrier) (merges : List (Nat × ReadError)) (s : State) : State :=
  b.members.foldl (fun s t => s.count .barResolved t 1) (s.mergeReads merges).writeBackAll

/-- The windows of a barrier's members closed, the epoch counted, the schedules stepped. -/
def State.steppedFor (ring barrier : Nat) (b : Barrier) (s : State) : State :=
  ((b.members.foldl (fun s t => s.closeWindows t) s).mapJob ring (fun j => { j with epoch := j.epoch + 1 })).stepScheds ring barrier

theorem exec_barrierResolve {s : State} {ring barrier : Nat} {j : Job} {b : Barrier} (job : s.job ring = some j)
    (found : j.barriers[barrier]? = some b) (merges : List (Nat × ReadError)) :
    (¬ s.resolvable j b → exec (.barrierResolve ⟨ring, merges⟩ barrier) s = .next s) ∧
    (s.resolvable j b → exec (.barrierResolve ⟨ring, merges⟩ barrier) s = .next (
      let w := s.drainedFor b merges
      if j.deviceWide b = true then
        if j.mode.guard = .off then (w.steppedFor ring barrier b).releaseBars ring barrier
        else ((w.steppedFor ring barrier b).mapJob ring (fun j => { j with resolving := some barrier })).beginCommit ring
      else w.releaseBars ring barrier)) := by
  have e : exec (.barrierResolve ⟨ring, merges⟩ barrier) s = execBarrierResolve ⟨ring, merges⟩ barrier s := rfl
  have blocked : (s.errs.fatal || j.ending.isSome || j.recovery.isSome || j.committing || emptyList b.members ||
      !b.members.all (fun t => b.arrived.contains t)) = true ↔ ¬ s.resolvable j b := by
    have empty : emptyList b.members = true ↔ b.members = [] := by cases b.members <;> simp [emptyList]
    simp only [Bool.or_eq_true, empty, Bool.not_eq_true', State.resolvable, ← Bool.not_eq_true, Option.isSome_iff_ne_none,
      List.all_eq_true, List.contains_iff_mem]
    tauto
  rw [e, execBarrierResolve, job]
  dsimp only
  rw [found]
  dsimp only
  refine ⟨fun no => if_pos (blocked.2 no), fun yes => ?_⟩
  rw [if_neg fun n => blocked.1 n yes]
  split
  · split <;> rfl
  · rfl

/-- What draining the write-combining buffers may change. -/
abbrev Part.drains : List Part := [.errs, .jobs, .dies, .pins, .hbm, .tele, .linePoison, .mem]

theorem State.drainedFor_evolves (b : Barrier) (merges : List (Nat × ReadError)) (s : State) :
    Evolves Part.drains.contains s (s.drainedFor b merges) := by
  have : Raises Part.drains.contains := raises_of rfl
  have : MayLinePoison Part.drains.contains := ⟨rfl⟩
  have : MayMem Part.drains.contains := ⟨rfl⟩
  exact (Evolves.refl _ s).mergeReads.writeBackAll.foldl fun _ _ hu => hu.count

theorem State.drainedFor_cores (b : Barrier) (merges : List (Nat × ReadError)) (s : State) : (s.drainedFor b merges).cores = s.cores := by
  refine (List.foldl_keeps (f := fun s t => s.count .barResolved t 1) (g := State.cores) (fun u t => ?_) b.members _).trans ?_
  · exact State.cores_of_jobs (State.count_jobs ..)
  · have : MayTele Part.stored.contains := ⟨rfl⟩
    have : MayMem Part.stored.contains := ⟨rfl⟩
    have : MayLinePoison Part.stored.contains := ⟨rfl⟩
    have : MayHbm Part.stored.contains := ⟨rfl⟩
    exact ((Evolves.refl Part.stored.contains _).writeBackAll.cores rfl).trans (State.mergeReads_cores ..)

theorem State.drainedFor_wcb (b : Barrier) (merges : List (Nat × ReadError)) (s : State) {k : Nat} (hk : k < 12) :
    ((s.drainedFor b merges).stack k).wcb = [] := by
  refine (congrArg Stack.wcb ?_).trans ((s.mergeReads merges).writeBackAll_wcb hk)
  exact List.foldl_keeps (f := fun (s : State) t => s.count .barResolved t 1) (g := fun s => s.stack k) (fun u t => State.count_stack ..)
    b.members _

theorem State.Sound.drainedFor {s : State} (h : s.Sound) (b : Barrier) : (s.drainedFor b []).Sound := by
  rw [State.drainedFor, State.mergeReads_nil]
  exact State.Sound.foldl (fun _ _ hu => hu.count ..) _ h.writeBackAll

/-- What a device-wide barrier steps. -/
abbrev Part.steps : List Part := [.mem, .linePoison, .hbm, .tele, .tMarks, .jobs, .tWindows]

theorem State.steppedFor_evolves (ring barrier : Nat) (b : Barrier) (s : State) :
    Evolves Part.steps.contains s (s.steppedFor ring barrier b) := by
  have : Stores Part.steps.contains := stores_of rfl
  have : MayJobs Part.steps.contains := ⟨rfl⟩
  have : MayTWindows Part.steps.contains := ⟨rfl⟩
  have shut : Evolves Part.steps.contains s (b.members.foldl (fun s t => s.closeWindows t) s) :=
    (Evolves.refl _ s).foldl fun _ _ hu => hu.closeWindows
  exact (shut.mapJob (r := ring) (f := fun j => { j with epoch := j.epoch + 1 }) fun _ => rfl).stepScheds

theorem State.steppedFor_closed (ring barrier : Nat) (b : Barrier) (s : State) {t : Nat} (ht : t ∈ b.members) :
    ((s.steppedFor ring barrier b).tile t).closed := by
  have : Stores Part.tileStops.contains := stores_of rfl
  have : MayJobs Part.tileStops.contains := ⟨rfl⟩
  refine Tile.closed_of_windows ((Evolves.refl Part.tileStops.contains _).stepScheds.kept .tWindows rfl t) ?_
  exact State.closeAll_closed (ts := b.members) s (.inl ht)

theorem State.closeAll_jobs (ts : List Nat) (s : State) : (ts.foldl (fun s t => s.closeWindows t) s).jobs = s.jobs :=
  List.foldl_keeps (f := fun s t => s.closeWindows t) (g := State.jobs) (fun _ _ => rfl) ts s

theorem Job.barriers_of_heart {a b : Job} (h : a.heart = b.heart) : a.barriers = b.barriers := by
  have same := congrArg Job.barriers h
  exact same

/-- A job in its next epoch. -/
def Job.nextEpoch (j : Job) : Job := { j with epoch := j.epoch + 1 }

theorem Job.nextEpoch_heart {a b : Job} (h : a.heart = b.heart) : a.nextEpoch.heart = b.nextEpoch.heart := by
  have through (j : Job) : j.nextEpoch.heart = j.heart.nextEpoch := rfl
  rw [through, through, h]

theorem State.steppedFor_job {ring : Nat} {s : State} {j : Job} (job : s.job ring = some j) (barrier : Nat) (b : Barrier) :
    ∃ j', (s.steppedFor ring barrier b).job ring = some j' ∧ j'.heart = j.nextEpoch.heart := by
  have stepped : ((b.members.foldl (fun s t => s.closeWindows t) s).mapJob ring Job.nextEpoch).job ring = some j.nextEpoch :=
    State.job_mapJob (by rw [State.job, State.closeAll_jobs]; exact job) fun _ => rfl
  exact State.job_of_hearts (State.stepScheds_hearts ring barrier _) stepped

theorem State.Sound.steppedFor {s : State} (h : s.Sound) (ring barrier : Nat) (b : Barrier) : (s.steppedFor ring barrier b).Sound := by
  refine State.Sound.stepScheds ?_ ring barrier
  refine State.sound_of_same (u := b.members.foldl (fun s t => s.closeWindows t) s) h ?_ ?_
  · exact List.foldl_keeps (f := fun s t => s.closeWindows t) (g := State.linePoison) (fun _ _ => rfl) _ s
  · intro x
    have : MayTWindows [Part.tWindows].contains := ⟨rfl⟩
    exact ((Evolves.refl [Part.tWindows].contains s).foldl fun _ _ hu => hu.closeWindows).kept .tMarks rfl x

/-- A job whose barrier waits for a commit. -/
def Job.awaiting (barrier : Nat) (j : Job) : Job := { j with resolving := some barrier }

theorem releaseBars_kept (ring barrier : Nat) (s : State) :
    (s.releaseBars ring barrier).hbm = s.hbm ∧ ∀ x, ((s.releaseBars ring barrier).tile x).windows = (s.tile x).windows := by
  have : MayJobs [Part.jobs, .tWindow].contains := ⟨rfl⟩
  have : MayTWindow [Part.jobs, .tWindow].contains := ⟨rfl⟩
  have evolves := (Evolves.refl [Part.jobs, .tWindow].contains s).releaseBars (ring := ring) (barrier := barrier)
  exact ⟨evolves.kept .hbm rfl, evolves.kept .tWindows rfl⟩

/-- The use of a barrier whose BARs are released at once is over. -/
theorem releaseBars_resolves {s : State} {ring barrier : Nat} {j : Job} {b : Barrier} (job : s.job ring = some j)
    (found : j.barriers[barrier]? = some b) :
    (∃ j' y, (s.releaseBars ring barrier).job ring = some j' ∧ j'.barriers[barrier]? = some y ∧
      y.members = b.members ∧ y.arrived = [] ∧ y.uses = b.uses + 1) ∧
    ∀ t ∈ b.members, ∀ m ∈ ((s.releaseBars ring barrier).tile t).window, m.word.family = 26 → m.word.barrier = barrier →
      m.start.isSome = true → m.done = true := by
  obtain ⟨job', done⟩ := State.releaseBars_eq job found
  exact ⟨⟨_, _, job', Job.resolved_barrier found, rfl, rfl, rfl⟩, done⟩

/-- What a commit that begins at a device-wide barrier leaves, or the recovery in its place. -/
theorem beginCommit_waits {w s : State} {ring barrier : Nat} {j j1 : Job} {b : Barrier} (job : w.job ring = some j1)
    (heart : j1.heart = j.nextEpoch.heart) (guard : j.mode.guard ≠ .off) (idle : j.recovery = none)
    (window : ∀ t, (w.tile t).window = (s.tile t).window) (closed : ∀ t ∈ b.members, (w.tile t).closed) :
    let u := (w.mapJob ring (Job.awaiting barrier)).beginCommit ring
    (∀ t ∈ b.members, (u.tile t).closed) ∧
    ∃ j', u.job ring = some j' ∧ j'.epoch = j.epoch + 1 ∧
      ((j'.committing = true ∧ j'.resolving = some barrier ∧ j'.taking.isSome = true ∧ j'.saved = j.saved ∧ j'.recovery = none ∧
          j'.barriers = j.barriers ∧ ∀ t, (u.tile t).window = (s.tile t).window) ∨
        (j'.committing = false ∧ j'.recovery.isSome = true ∧ j'.resolving = none ∧ ∀ y ∈ j'.barriers, y.arrived = [])) ∧
      (w.Sound → j.mode.check = .word → j'.committing = true) := by
  intro u
  have waits : (w.mapJob ring (Job.awaiting barrier)).job ring = some (j1.awaiting barrier) := State.job_mapJob job fun _ => rfl
  have field {α : Type} (f : Job → α) (hf : ∀ j : Job, f j.heart = f j) : f j1 = f j.nextEpoch := by rw [← hf, heart, hf]
  have mode : j1.mode = j.mode := field Job.mode fun _ => rfl
  have guarded : (j1.awaiting barrier).mode.guard ≠ .off := by
    show j1.mode.guard ≠ .off
    rw [mode]
    exact guard
  obtain ⟨⟨clock, copied, crcs, taking, begun⟩, evolves⟩ | ⟨⟨i, a, faulty⟩, v, named, jobs, windows, recovers⟩ :=
    State.beginCommit_job waits guarded
  · refine ⟨fun t ht => Tile.closed_of_windows (evolves.kept .tWindows rfl t) (closed t ht), _, begun, field Job.epoch fun _ => rfl,
      .inl ⟨rfl, rfl, rfl, field Job.saved fun _ => rfl, (field Job.recovery fun _ => rfl).trans idle, field Job.barriers fun _ => rfl,
        fun t => ?_⟩, fun _ _ => rfl⟩
    exact (congrArg (fun q => q.2.2.2.1) (evolves.kept .tWindow rfl t)).trans (window t)
  · have running : v.job ring = some (j1.awaiting barrier) := by rw [State.job, jobs]; exact waits
    obtain ⟨j', n, x, job', core, -⟩ := State.startRecovery_job running none 0xFF named
    have field' {α : Type} (f : Job → α) (hf : ∀ j : Job, f j.core = f j) : f j' = f ((j1.awaiting barrier).stopped.recovering n x) := by
      rw [← hf, core, hf]
    refine ⟨fun t ht => ?_, j', ?_, (field' Job.epoch fun _ => rfl).trans (field Job.epoch fun _ => rfl),
      .inr ⟨field' Job.committing fun _ => rfl, congrArg Option.isSome (field' Job.recovery fun _ => rfl), field' Job.resolving fun _ => rfl,
        fun y hy => ?_⟩, fun sound word => ?_⟩
    · show (((w.mapJob ring (Job.awaiting barrier)).beginCommit ring).tile t).closed
      rw [recovers]
      exact State.startRecovery_closed (Tile.closed_of_windows (windows t) (closed t ht)) ring none 0xFF named
    · show ((w.mapJob ring (Job.awaiting barrier)).beginCommit ring).job ring = _
      rw [recovers]
      exact job'
    · rw [field' Job.barriers fun _ => rfl] at hy
      obtain ⟨z, -, rfl⟩ := List.mem_map.1 hy
      rfl
    · have none : (w.mapJob ring (Job.awaiting barrier)).copyFault (j1.awaiting barrier) = fun _ => none :=
        funext fun x => State.Sound.copyFault (j := j1.awaiting barrier) sound (by show j1.mode.check = .word; rw [mode]; exact word) x
      have clean : List.findSome? ((w.mapJob ring (Job.awaiting barrier)).copyFault (j1.awaiting barrier))
          ((j1.awaiting barrier).numbered.filter (fun x => (j1.awaiting barrier).dirty x.2)) = Option.none := by
        rw [none, List.findSome?_eq_none_iff]
        exact fun _ _ => rfl
      rw [clean] at faulty
      cases faulty

/-- What a resolution leaves, by the barrier's width and the job's guard. -/
theorem barrierResolve_resolves {s : State} {ring barrier : Nat} {j : Job} {b : Barrier} (job : s.job ring = some j)
    (found : j.barriers[barrier]? = some b) (merges : List (Nat × ReadError)) (ok : s.resolvable j b) :
    ∃ u, exec (.barrierResolve ⟨ring, merges⟩ barrier) s = .next u ∧
      (j.deviceWide b = false → ∀ k, k < 12 → (u.stack k).wcb = []) ∧
      (j.deviceWide b = true → ∀ t ∈ b.members, ∀ k, ((u.tile t).winAt k).isOpen = false) ∧
      (j.deviceWide b = false ∨ j.mode.guard = .off → (∃ j' y, u.job ring = some j' ∧ j'.barriers[barrier]? = some y ∧
          y.members = b.members ∧ y.arrived = [] ∧ y.uses = b.uses + 1) ∧
        ∀ t ∈ b.members, ∀ m ∈ (u.tile t).window, m.word.family = 26 → m.word.barrier = barrier → m.start.isSome = true → m.done = true) ∧
      (j.deviceWide b = true → j.mode.guard ≠ .off → ∃ j', u.job ring = some j' ∧ j'.epoch = j.epoch + 1 ∧
        ((j'.committing = true ∧ j'.resolving = some barrier ∧ j'.taking.isSome = true ∧ j'.saved = j.saved ∧ j'.recovery = none ∧
            j'.barriers = j.barriers ∧ ∀ t, (u.tile t).window = (s.tile t).window) ∨
          (j'.committing = false ∧ j'.recovery.isSome = true ∧ j'.resolving = none ∧ ∀ y ∈ j'.barriers, y.arrived = [])) ∧
        (merges = [] → s.linePoison = [] → (∀ t, (s.tile t).marks = [] ∧ (s.tile t).eccDouble = []) → j.mode.check = .word →
          j'.committing = true)) := by
  refine ⟨_, (exec_barrierResolve job found merges).2 ok, ?_⟩
  obtain ⟨j0, drained, core⟩ := State.job_of_cores (s.drainedFor_cores b merges) job
  have heart0 := Job.heart_of_core core
  by_cases wide : j.deviceWide b = true
  · simp only [wide, if_true, Bool.true_eq_false, false_or, IsEmpty.forall_iff, true_and, forall_const]
    obtain ⟨j1, stepped, heart⟩ := State.steppedFor_job drained barrier b
    have heart := heart.trans (Job.nextEpoch_heart heart0)
    have closed (t : Nat) (ht : t ∈ b.members) := (s.drainedFor b merges).steppedFor_closed ring barrier b ht
    by_cases guard : j.mode.guard = .off
    · rw [if_pos guard]
      have barriers : j1.barriers = j.barriers := (Job.barriers_of_heart heart).trans rfl
      refine ⟨fun t ht => Tile.closed_of_windows ((releaseBars_kept ..).2 t) (closed t ht),
        fun _ => releaseBars_resolves stepped (barriers ▸ found), fun n => absurd guard n⟩
    · rw [if_neg guard]
      have window (t : Nat) : (((s.drainedFor b merges).steppedFor ring barrier b).tile t).window = (s.tile t).window :=
        congrArg (fun q => q.2.2.2.1) (((State.steppedFor_evolves ring barrier b _).kept .tWindow rfl t).trans
          ((s.drainedFor_evolves b merges).kept .tWindow rfl t))
      obtain ⟨shut, j', job', epoch, outcome, sound⟩ := beginCommit_waits (barrier := barrier) stepped heart guard ok.2.2.1 window closed
      refine ⟨shut, fun n => absurd n guard, fun _ => ⟨j', job', epoch, outcome, fun none clean marks word => sound ?_ word⟩⟩
      rw [none]
      exact (State.Sound.drainedFor ⟨clean, fun x => Prod.ext (marks x).1 (marks x).2⟩ b).steppedFor ring barrier b
  · rw [if_neg wide]
    have narrow : j.deviceWide b = false := by simpa using wide
    have barriers : j0.barriers = j.barriers := Job.barriers_of_heart heart0
    refine ⟨fun _ k hk => ?_, fun n => absurd n wide, fun _ => releaseBars_resolves drained (barriers ▸ found), fun n => absurd n wide⟩
    rw [State.stack, (releaseBars_kept ..).1]
    exact s.drainedFor_wcb b merges hk

/-- Settles O54: the arrival, the resolution by the barrier's width and the job's guard, and the watchdog. -/
theorem barriersResolve : Obligations.BarriersResolve := by
  unfold Obligations.BarriersResolve
  refine ⟨fun s t seq c ready => ?_, fun s ring barrier merges j b job found =>
    ⟨(exec_barrierResolve job found merges).1, barrierResolve_resolves job found merges⟩,
    fun s t seq c ctx runs => ⟨stallWatchdog_raises ctx runs, stallWatchdog_waits ctx⟩⟩
  obtain ⟨u, next, job⟩ := bar_arrives ready
  exact ⟨u, _, next, job, by simp [Job.arrive], fun b x found => Job.arrive_barrier found⟩

end Sys2Proof.Machine
end

section
/-!
PROOFS. O55: tile failures, spares, the ends of commits and of recoveries (R365, R366, R438-R444, R447, Tables TR.5-TR.7).
-/
namespace Sys2Proof.Machine

/-! ## A spare takes over (R442) -/

/-- Memory that has been cleared reads as zeros. -/
theorem Memory.get_clear {m : Memory} {lo hi a : Nat} (h : lo ≤ a ∧ a < hi) : Memory.get (Memory.clear m lo hi) a = 0 := by
  unfold Memory.clear
  induction m with
  | nil => rfl
  | cons c m ih =>
    obtain ⟨k, v⟩ := c
    rw [List.filter_cons]
    split
    next stays =>
      have other : k ≠ a := by
        rintro rfl
        simp [h] at stays
      rw [Memory.get]
      split
      · rfl
      · rw [if_neg (Ne.symm other), ih]
    next => exact ih

/-- A tile on a spare site. -/
def Tile.onSite (site : Nat) (u : Tile) : Tile :=
  { u with
    site := site, locState := 1, failed := false, marks := [], eccDouble := [], landings := [],
    vregs := Tile.reset.vregs, kregs := Tile.reset.kregs }

/-- What a takeover by a spare leaves. -/
structure TakenOver (s u : State) (t site : Nat) (rest : List Nat) : Prop where
  tile : u.tile t = (s.tile t).onSite site
  spares : Tab.at u.spares [] (dieOfTile t) = rest
  errs : u.errs = s.errs
  jobs : u.jobs = s.jobs
  zeros : ∀ o, o < 0x600000 → u.readByte (scratchAddr t o) = 0

theorem State.takeover_takes {s : State} {t site : Nat} {rest : List Nat} (inside : t < 208)
    (spare : Tab.at s.spares [] (dieOfTile t) = site :: rest) : TakenOver s (s.takeover t) t site rest := by
  have die : dieOfTile t < 4 := by unfold dieOfTile; omega
  unfold State.takeover
  dsimp only
  rw [spare]
  refine ⟨?_, ?_, State.count_errs .., State.count_jobs .., fun o ho => ?_⟩
  · rw [State.count_tile, State.tile_mapTile_self _ inside]
    rfl
  · rw [State.count_spares]
    exact Tab.at_put_self _ _ _ die
  · rw [(atScratch_scratchAddr inside ho).readByte, State.count_mem]
    exact Memory.get_clear (by unfold scratchAddr; omega)

theorem State.takeover_lacks {s : State} {t : Nat} (none : Tab.at s.spares [] (dieOfTile t) = []) : (s.takeover t).errs.fatal = true := by
  unfold State.takeover
  dsimp only
  rw [none]
  exact State.raise_fatals (by simp) (by simp [Err.plain])

/-! ## Failures (Table TR.7) -/

theorem State.raise_corrected {s : State} {e : Err} (cls : e.cls = .corrected) (running : s.errs.fatal = false) :
    s.raise [e] = s.count .errCorrected 0 1 := by
  rw [State.raise, if_neg (by rw [running]; decide)]
  show s.enterErr e = _
  rw [State.enterErr, cls]

theorem State.fatal_raise {s : State} (fatal : s.errs.fatal = true) (l : List Err) : (s.raise l).errs.fatal = true := by
  rw [State.raise, if_pos fatal]
  exact fatal

theorem exec_tilePollTimeout (t : Nat) (s : State) : exec (.tilePollTimeout t) s = .next (s.tileFails t) := rfl

theorem State.tileFails_blocked {s : State} {t : Nat} (h : (s.tile t).failed = true ∨ s.errs.fatal = true ∨ s.pins.allGood = false) :
    s.tileFails t = s := by
  rw [State.tileFails, if_pos]
  simp only [Bool.or_eq_true, Bool.not_eq_true']
  tauto

theorem State.tileFails_eq {s : State} {t : Nat} (inside : t < 208) (works : (s.tile t).failed = false) (running : s.errs.fatal = false)
    (good : s.pins.allGood = true) : s.tileFails t =
      match s.runningJob t with
      | some j =>
        let s := s.mapTile t (fun u => { u with failed := true })
        if j.mode.guard = .off then s.plainFailure j t else s.guardedFailure j t
      | none => (s.takeover t).raise [Err.plain .corrected 0 1 t 0 0] := by
  have runs : ¬ (decide (t ≥ 208) || (s.tile t).failed || s.errs.fatal || !s.pins.allGood) = true := by
    rw [works, running, good]
    simp [inside]
  rw [State.tileFails, if_neg runs] <;> rfl

/-- The job of a tile stands at its ring. -/
theorem State.runningJob_job {s : State} {t : Nat} {j : Job} (h : s.runningJob t = some j) : s.job j.ring = some j := by
  unfold State.runningJob at h
  split at h
  · next r _ =>
    obtain ⟨x, found, rest⟩ := Option.bind_eq_some_iff.1 h
    split at rest
    · cases rest
    · cases rest
      have ring : j.ring = r := by simpa using List.find?_some found
      rw [ring]
      exact found
  · cases h

theorem State.tileFails_spare {s : State} {t site : Nat} {rest : List Nat} (inside : t < 208) (works : (s.tile t).failed = false)
    (running : s.errs.fatal = false) (good : s.pins.allGood = true) (free : s.runningJob t = none)
    (spare : Tab.at s.spares [] (dieOfTile t) = site :: rest) : TakenOver s (s.tileFails t) t site rest := by
  obtain ⟨tile, spares, errs, jobs, zeros⟩ := State.takeover_takes inside spare
  rw [State.tileFails_eq inside works running good, free]
  dsimp only
  rw [State.raise_corrected rfl (by rw [errs, running])]
  refine ⟨by rw [State.count_tile, tile], by rw [State.count_spares, spares], by rw [State.count_errs, errs], by rw [State.count_jobs, jobs],
    fun o ho => ?_⟩
  rw [State.readByte_of_same (State.count_mem ..) (State.count_hbm ..), zeros o ho]

theorem State.tileFails_lost {s : State} {t : Nat} (inside : t < 208) (works : (s.tile t).failed = false)
    (running : s.errs.fatal = false) (good : s.pins.allGood = true) (free : s.runningJob t = none)
    (none_ : Tab.at s.spares [] (dieOfTile t) = []) : (s.tileFails t).errs.fatal = true := by
  rw [State.tileFails_eq inside works running good, free]
  exact State.fatal_raise (State.takeover_lacks none_) _

/-! ### In a job without guard (R441) -/

/-- A tile without macro-operations. -/
def State.bare (s : State) (t : Nat) : Prop := (s.tile t).window = []

theorem State.bare_of_sequencer {s u : State} (h : ∀ x, (u.tile x).sequencer = (s.tile x).sequencer) {t : Nat} (bare : s.bare t) : u.bare t := by
  have window : (u.tile t).window = (s.tile t).window := congrArg (fun q => q.2.2.2.1) (h t)
  rw [State.bare, window]
  exact bare

theorem State.bare_foldl {α : Type} {f : State → α → State} {t : Nat} (hf : ∀ s a, s.bare t → (f s a).bare t) (l : List α) {s : State}
    (h : s.bare t) : (l.foldl f s).bare t := by
  induction l generalizing s with
  | nil => exact h
  | cons a l ih => exact ih (hf s a h)

theorem State.bare_mapMop {s : State} {t : Nat} (h : s.bare t) (t' seq : Nat) (f : Mop → Mop) : (s.mapMop t' seq f).bare t := by
  unfold State.bare State.mapMop
  rw [State.tile_mapTile]
  split
  next same =>
    rw [← same.1]
    show List.map _ (s.tile t).window = []
    rw [show (s.tile t).window = [] from h, List.map_nil]
  next => exact h

theorem State.bare_mapQueue {s : State} {t : Nat} (h : s.bare t) (x k : Nat) (f : ShuttleQueue → ShuttleQueue) : (s.mapQueue x k f).bare t := by
  have : Stores (Part.tQueues :: Part.stored).contains := stores_of rfl
  have : MayTQueues (Part.tQueues :: Part.stored).contains := ⟨rfl⟩
  exact State.bare_of_sequencer ((Evolves.refl (Part.tQueues :: Part.stored).contains s).mapQueue.kept .tWindow rfl) h

theorem State.bare_count {s : State} {t : Nat} (h : s.bare t) (c : Ctr) (i n : Nat) : (s.count c i n).bare t := by
  unfold State.bare
  rw [State.count_tile]
  exact h

theorem State.bare_endSend {s : State} {t : Nat} (h : s.bare t) (d : ShuttleDesc) (x : SendState) : (s.endSend d x).bare t :=
  State.bare_mapMop h _ _ _

theorem State.bare_advanceEpoch {s : State} {t : Nat} (h : s.bare t) (x k : Nat) : (s.advanceEpoch x k).bare t := by
  unfold State.advanceEpoch
  refine State.bare_mapQueue (State.bare_foldl (fun u d hu => ?_) _ h) _ _ _
  exact State.bare_count (State.bare_endSend hu _ _) _ _ _

theorem State.bare_closeQueue {s : State} {t : Nat} (h : s.bare t) (x k : Nat) : (s.closeQueue x k).bare t := by
  unfold State.closeQueue
  refine State.bare_mapQueue (State.bare_foldl (fun u d hu => ?_) _ h) _ _ _
  exact State.bare_count (State.bare_endSend hu _ _) _ _ _

/-- What closing a tile's windows and idling its stream queues leaves of every window of macro-operations. -/
theorem State.bare_idle {s : State} {t : Nat} (h : s.bare t) (x : Nat) : ((s.closeWindows x).idleStreams x).bare t := by
  have : Stores Part.idles.contains := stores_of rfl
  have : MayTWindows Part.idles.contains := ⟨rfl⟩
  have : MayTStreams Part.idles.contains := ⟨rfl⟩
  exact State.bare_of_sequencer ((Evolves.refl Part.idles.contains s).closeWindows.idleStreams.kept .tWindow rfl) h

theorem State.abortTile_bare (s : State) {t : Nat} (inside : t < 208) : (s.abortTile t).bare t := by
  unfold State.abortTile
  extract_lets +onlyGivenNames u
  clear_value u
  unfold State.bare
  rw [State.repace_tile, if_pos ⟨rfl, inside⟩, State.tile_mapTile_self _ inside]
  rfl

/-- What a failure in a job without guard may change besides errors. -/
abbrev Part.failures : List Part := .tWindows :: Part.tileStops

/-- A tile's macro-operations aborted, its queues advanced and closed, its windows closed, its streams idle. -/
def State.failedPlain (t : Nat) (s : State) : State :=
  ((((s.abortTiles [t]).advanceEpochs t).closeQueues t).closeWindows t).idleStreams t

theorem State.failedPlain_evolves (t : Nat) (s : State) : Evolves Part.failures.contains s (s.failedPlain t) := by
  have : Stores Part.failures.contains := stores_of rfl
  have : MayJobs Part.failures.contains := ⟨rfl⟩
  have : MayGroups Part.failures.contains := ⟨rfl⟩
  have : MayPoisonRequests Part.failures.contains := ⟨rfl⟩
  have : MayTVregs Part.failures.contains := ⟨rfl⟩
  have : MayTWindow Part.failures.contains := ⟨rfl⟩
  have : MayTStreams Part.failures.contains := ⟨rfl⟩
  have : MayTQueues Part.failures.contains := ⟨rfl⟩
  have : MayTWindows Part.failures.contains := ⟨rfl⟩
  exact (Evolves.refl _ s).abortTiles.advanceEpochs.closeQueues.closeWindows.idleStreams

theorem State.failedPlain_bare (s : State) {t : Nat} (inside : t < 208) : (s.failedPlain t).bare t := by
  have aborted : (s.abortTiles [t]).bare t := State.abortTile_bare _ inside
  have advanced : ((s.abortTiles [t]).advanceEpochs t).bare t := State.bare_foldl (fun _ _ hu => State.bare_advanceEpoch hu ..) _ aborted
  have closed : (((s.abortTiles [t]).advanceEpochs t).closeQueues t).bare t :=
    State.bare_foldl (fun _ _ hu => State.bare_closeQueue hu ..) _ advanced
  exact State.bare_idle closed t

theorem State.plainFailure_facts {s : State} {t : Nat} (inside : t < 208) (j : Job) :
    (s.plainFailure j t).bare t ∧ ((s.plainFailure j t).tile t).failed = (s.tile t).failed ∧
      Recorded s (s.plainFailure j t) (Err.ofJob .deferred 0x0A 1 t j 0 0 4) := by
  have : Raises Part.raised.contains := raises_of rfl
  have raised : Evolves Part.raised.contains (s.failedPlain t) (s.plainFailure j t) := (Evolves.refl _ _).raise
  refine ⟨State.bare_of_sequencer (raised.kept .tWindow rfl) (s.failedPlain_bare inside), ?_, fun takes => ?_⟩
  · have place := (raised.kept .tPlace rfl t).trans ((s.failedPlain_evolves t).kept .tPlace rfl t)
    exact congrArg (fun p => p.2.2.2.2.2.2) place
  · refine State.raise_recorded (s.failedPlain t) (fun h : ErrClass.deferred = .corrected => by cases h) ?_
    rw [(s.failedPlain_evolves t).kept .errs rfl]
    exact takes

theorem State.tileFails_plain {s : State} {t : Nat} {j : Job} (inside : t < 208) (works : (s.tile t).failed = false)
    (running : s.errs.fatal = false) (good : s.pins.allGood = true) (busy : s.runningJob t = some j) (guard : j.mode.guard = .off) :
    ((s.tileFails t).tile t).failed = true ∧ ((s.tileFails t).tile t).window = [] ∧
      Recorded s (s.tileFails t) (Err.ofJob .deferred 0x0A 1 t j 0 0 4) := by
  rw [State.tileFails_eq inside works running good, busy]
  dsimp only
  rw [if_pos guard]
  obtain ⟨bare, failed, recorded⟩ := State.plainFailure_facts (s := s.mapTile t (fun u => { u with failed := true })) inside j
  refine ⟨failed.trans ?_, bare, recorded⟩
  rw [State.tile_mapTile_self _ inside]

/-! ### In a job that guards its state (R442) -/

theorem Job.field_of_core {α : Type} (f : Job → α) (hf : ∀ j : Job, f j.core = f j) {a b : Job} (h : a.core = b.core) : f a = f b := by
  rw [← hf, h, hf]

/-- A shard that has lost both its tile and the tile that mirrors it. -/
theorem Job.lostWith_isSome {j : Job} {t : Nat} {g : GuardShard} : (j.lostWith t g).isSome = true ↔
    ∃ a b, g.tile = some a ∧ g.holder = some b ∧ ((a = t ∧ b ∈ j.fallen) ∨ (b = t ∧ a ∈ j.fallen)) := by
  unfold Job.lostWith
  split
  next a b tile holder =>
    rw [tile, holder]
    constructor
    · intro h
      refine ⟨a, b, rfl, rfl, ?_⟩
      split at h
      next own => exact .inl ⟨own.1, List.contains_iff_mem.1 own.2⟩
      next =>
        split at h
        next own => exact .inr ⟨own.1, List.contains_iff_mem.1 own.2⟩
        next => cases h
    · rintro ⟨a, b, ⟨⟩, ⟨⟩, own | own⟩
      · rw [if_pos ⟨own.1, List.contains_iff_mem.2 own.2⟩]
        rfl
      · split
        · rfl
        · rw [if_pos ⟨own.1, List.contains_iff_mem.2 own.2⟩]
          rfl
  next lacks =>
    constructor
    · intro h; cases h
    · rintro ⟨a, b, tile, holder, -⟩
      exact absurd holder (lacks a b tile)

/-- A shard of the job is lost with a tile. -/
def Job.loses (j : Job) (t : Nat) : Prop :=
  j.saved ≠ none ∧ ∃ g ∈ j.shards, ∃ a b, g.tile = some a ∧ g.holder = some b ∧ ((a = t ∧ b ∈ j.fallen) ∨ (b = t ∧ a ∈ j.fallen))

theorem Job.loses_iff {j : Job} {t : Nat} : j.loses t ↔ ((if j.saved.isSome then j.shards else []).findSome? (j.lostWith t)).isSome = true := by
  rw [List.findSome?_isSome_iff, Job.loses]
  split
  next saved =>
    have : j.saved ≠ none := Option.isSome_iff_ne_none.1 saved
    simp only [this, not_false_eq_true, ne_eq, true_and, Job.lostWith_isSome]
  next unsaved =>
    simp only [Bool.not_eq_true, Option.isSome_eq_false_iff, Option.isNone_iff_eq_none] at unsaved
    simp [unsaved]

/-- A job whose tile has failed: the slots that the tile held are lost. -/
def Job.withFallen (t : Nat) (j : Job) : Job :=
  { j with
    shards := j.shards.map (fun g => if g.holder = some t then { g with current := none } else g),
    fallen := t :: j.fallen }

theorem State.guardedFailure_lost {s : State} {j : Job} {t : Nat} (lost : j.loses t) : (s.guardedFailure j t).errs.fatal = true := by
  obtain ⟨first, found⟩ := Option.isSome_iff_exists.1 (Job.loses_iff.1 lost)
  rw [State.guardedFailure, found]
  exact State.raise_fatals (by simp) (by simp [Err.ofJob])

theorem State.guardedFailure_recovers {s : State} {j : Job} {t : Nat} (job : s.job j.ring = some j) (kept : ¬ j.loses t) :
    ∃ j', (s.guardedFailure j t).job j.ring = some j' ∧ (∀ g ∈ j'.shards, g.holder = some t → g.current = none) ∧
      j'.recovery.map (·.takeovers) = some (t :: (j.recovery.elim [] (·.takeovers)).filter (· ≠ t)) := by
  have found : (if j.saved.isSome then j.shards else []).findSome? (j.lostWith t) = none := by
    rw [Job.loses_iff, Bool.not_eq_true, Option.isSome_eq_false_iff, Option.isNone_iff_eq_none] at kept
    exact kept
  have fallen : (s.mapJob j.ring (Job.withFallen t)).job j.ring = some (j.withFallen t) := State.job_mapJob job fun _ => rfl
  obtain ⟨j', n, x, job', core, takeovers⟩ := State.startRecovery_job fallen (some t) t []
  have shards : j'.shards = (j.withFallen t).shards := (Job.field_of_core Job.shards (fun _ => rfl) core).trans rfl
  have recovery : j'.recovery = some x := Job.field_of_core Job.recovery (fun _ => rfl) core
  rw [State.guardedFailure, found]
  refine ⟨j', job', fun g hg held => ?_, ?_⟩
  · rw [shards] at hg
    obtain ⟨y, -, rfl⟩ := List.mem_map.1 hg
    split
    next => rfl
    next other =>
      rw [if_neg other] at held
      exact absurd held other
  · rw [recovery, Option.map_some, takeovers]
    refine congrArg some (congrArg (List.cons t) (List.filter_congr fun y _ => ?_))
    rw [Bool.eq_iff_iff, bne_iff_ne, decide_eq_true_iff]
    exact not_congr Option.some_inj

theorem State.tileFails_guarded {s : State} {t : Nat} {j : Job} (inside : t < 208) (works : (s.tile t).failed = false)
    (running : s.errs.fatal = false) (good : s.pins.allGood = true) (busy : s.runningJob t = some j) (guard : j.mode.guard ≠ .off) :
    s.tileFails t = (s.mapTile t (fun u => { u with failed := true })).guardedFailure j t ∧ ((s.tileFails t).tile t).failed = true := by
  have e : s.tileFails t = (s.mapTile t (fun u => { u with failed := true })).guardedFailure j t := by
    rw [State.tileFails_eq inside works running good, busy]
    exact if_neg guard
  refine ⟨e, ?_⟩
  have : Stores (Part.failures ++ Part.raised).contains := stores_of rfl
  have : Raises (Part.failures ++ Part.raised).contains := raises_of rfl
  have : MayGroups (Part.failures ++ Part.raised).contains := ⟨rfl⟩
  have : MayPoisonRequests (Part.failures ++ Part.raised).contains := ⟨rfl⟩
  have : MayTVregs (Part.failures ++ Part.raised).contains := ⟨rfl⟩
  have : MayTWindow (Part.failures ++ Part.raised).contains := ⟨rfl⟩
  have : MayTStreams (Part.failures ++ Part.raised).contains := ⟨rfl⟩
  have : MayTQueues (Part.failures ++ Part.raised).contains := ⟨rfl⟩
  have : MayTWindows (Part.failures ++ Part.raised).contains := ⟨rfl⟩
  have place := (Evolves.refl (Part.failures ++ Part.raised).contains
    (s.mapTile t (fun u => { u with failed := true }))).guardedFailure (j := j) (t := t) |>.kept .tPlace rfl t
  rw [e]
  refine (congrArg (fun p => p.2.2.2.2.2.2) place).trans ?_
  rw [State.tile_mapTile_self _ inside]
  rfl

/-! ## Spares (R441, R442) -/

theorem exec_spareTakeover {s : State} {t : Nat} (inside : t < 208) (failed : (s.tile t).failed = true) (running : s.errs.fatal = false)
    (good : s.pins.allGood = true) : exec (.spareTakeover t) s =
      match s.runningJob t with
      | some j =>
        if j.recovery.any (fun r => r.takeovers.contains t) then
          let s := s.takeover t
          .next (s.mapJob j.ring (fun x => { x with
            recovery := x.recovery.map (fun r => if r.arg = t then { r with site := (s.tile t).site } else r) }))
        else .next s
      | none => .next (s.takeover t) := by
  have e : exec (.spareTakeover t) s = execSpareTakeover t s := rfl
  have runs : ¬ (decide (t ≥ 208) || !(s.tile t).failed || s.errs.fatal || !s.pins.allGood) = true := by
    rw [failed, running, good]
    simp [inside]
  rw [e, execSpareTakeover, if_neg runs] <;> rfl

theorem spareTakeover_waits {s : State} {t : Nat} {j : Job} (inside : t < 208) (failed : (s.tile t).failed = true) (running : s.errs.fatal = false)
    (good : s.pins.allGood = true) (busy : s.runningJob t = some j) (undue : j.recovery.any (fun r => r.takeovers.contains t) = false) :
    exec (.spareTakeover t) s = .next s := by
  rw [exec_spareTakeover inside failed running good, busy]
  exact if_neg (by rw [undue]; decide)

theorem spareTakeover_takes {s : State} {t site : Nat} {rest : List Nat} (inside : t < 208) (failed : (s.tile t).failed = true)
    (running : s.errs.fatal = false) (good : s.pins.allGood = true) (spare : Tab.at s.spares [] (dieOfTile t) = site :: rest)
    (due : ∀ j, s.runningJob t = some j → j.recovery.any (fun r => r.takeovers.contains t) = true) :
    ∃ u, exec (.spareTakeover t) s = .next u ∧ (u.tile t).site = site ∧ (u.tile t).failed = false ∧ Tab.at u.spares [] (dieOfTile t) = rest := by
  obtain ⟨tile, spares, -, -, -⟩ := State.takeover_takes inside spare
  rw [exec_spareTakeover inside failed running good]
  cases busy : s.runningJob t with
  | none => exact ⟨_, rfl, by rw [tile]; rfl, by rw [tile]; rfl, spares⟩
  | some j =>
    refine ⟨_, if_pos (due j busy), ?_, ?_, spares⟩
    · show ((s.takeover t).tile t).site = site
      rw [tile]
      rfl
    · show ((s.takeover t).tile t).failed = false
      rw [tile]
      rfl

/-! ## The end of a commit (R439, R440, R447) -/

/-- A job without its EVENTS. -/
def Job.calm (j : Job) : Job := { j with events := 0 }

/-- A job after a commit has finished. -/
def Job.committed (j : Job) : Job :=
  { j with
    committing := false, saved := j.taking, taking := none, copied := [], heldErrs := [],
    written := j.written.take (j.written.length - j.writtenAt),
    shards := j.numbered.map (fun x => if j.copied.contains x.1 then x.2.switch (j.nextGen x.2.entry) else x.2),
    generation := j.generation + 1, epochRecoveries := 0, aborted := [], fallen := [], crcs := [] }

/-- What the readings of the saved state say: lost to a second disagreement of its pairs, or to an uncorrectable word. -/
def Job.stateLost (j : Job) (n : Nat) (e : ReadError) : Prop :=
  (j.mode.check ≠ .word ∧ 2 ≤ n) ∨ ∃ k, e = .uncorrectable k ∧ k ≠ 0

theorem State.statePairs_lost (s : State) (j : Job) (ring n : Nat) (e : ReadError) : (s.statePairs j ⟨ring, n, e⟩).2 = true ↔ j.stateLost n e := by
  unfold State.statePairs Job.stateLost
  dsimp only
  by_cases word : j.mode.check = .word
  · rw [if_pos word]
    cases e <;> simp [word]
  · rw [if_neg word]
    cases e <;> simp [word, or_comm]

theorem State.raise_corrected_jobs (s : State) : (s.raise [Err.plain .corrected 0 0 0 0 0]).jobs = s.jobs := by
  by_cases running : s.errs.fatal = false
  · rw [State.raise_corrected rfl running, State.count_jobs]
  · rw [State.raise, if_pos (by simpa using running)]

theorem State.statePairs_jobs (s : State) (j : Job) (reads : PairReads) : (s.statePairs j reads).1.jobs = s.jobs := by
  have noted : ((match reads.error with | .single => s.raise [Err.plain .corrected 0 0 0 0 0] | _ => s) : State).jobs = s.jobs := by
    split
    · exact s.raise_corrected_jobs
    · rfl
  unfold State.statePairs
  dsimp only
  split
  · exact noted
  · exact (State.count_jobs ..).trans noted

/-- A state whose comparisons are done. -/
def State.verified (s : State) (j : Job) : State := if j.mode.guard = .mirrorVerify then s.compareShards j else s

theorem State.verified_jobs (s : State) (j : Job) : (s.verified j).jobs = s.jobs := by
  unfold State.verified
  split
  · have : MayTele [Part.tele, .linePoison, .power, .tMarks].contains := ⟨rfl⟩
    have : MayLinePoison [Part.tele, .linePoison, .power, .tMarks].contains := ⟨rfl⟩
    have : MayPower [Part.tele, .linePoison, .power, .tMarks].contains := ⟨rfl⟩
    have : MayTMarks [Part.tele, .linePoison, .power, .tMarks].contains := ⟨rfl⟩
    exact (Evolves.refl [Part.tele, .linePoison, .power, .tMarks].contains s).compareShards.kept .jobs rfl
  · rfl

/-- The state in which a finished commit is noted. -/
def State.noted (s : State) (j : Job) (ring : Nat) : State :=
  (((s.mapJob ring Job.committed).count .commits 0 1).count .commitUs 0 ((s.clock - j.commitSince) / 1000)).raise j.heldErrs

theorem exec_commitFinish {s : State} {ring : Nat} {j : Job} (job : s.job ring = some j) (n : Nat) (e : ReadError) :
    exec (.commitFinish ⟨ring, n, e⟩) s = .next (
      if j.committing = false ∨ s.errs.fatal = true ∨ s.poolOpen = false then s
      else
        let r := (s.verified j).statePairs j ⟨ring, n, e⟩
        if j.mode.guard = .mirrorVerify ∧ s.mismatches j ≠ [] then
          (r.1.count .verifyMismatch 0 (s.mismatches j).length).startRecovery ring none 0xFF ((s.mismatches j).map (·.1))
        else if r.2 = true then r.1.startRecovery ring none 0xFF []
        else match j.resolving with
          | some b => (r.1.noted j ring).releaseBars ring b
          | none => r.1.noted j ring) := by
  have e : exec (.commitFinish ⟨ring, n, e⟩) s = execCommitFinish ⟨ring, n, e⟩ s := rfl
  rw [e, execCommitFinish, job]
  dsimp only
  by_cases blocked : j.committing = false ∨ s.errs.fatal = true ∨ s.poolOpen = false
  · rw [if_pos blocked, if_pos (by simp only [Bool.or_eq_true, Bool.not_eq_true']; tauto)]
  · rw [if_neg blocked, if_neg (by simp only [Bool.or_eq_true, Bool.not_eq_true']; tauto)]
    by_cases verify : j.mode.guard = .mirrorVerify
    · have verified : s.verified j = s.compareShards j := if_pos verify
      rw [verified]
      simp only [verify, decide_true, if_true, true_and]
      cases bad : s.mismatches j with
      | cons x l => rfl
      | nil =>
        simp only [emptyList, Bool.not_true, ne_eq, not_true_eq_false, if_false, Bool.false_eq_true]
        split
        · rfl
        · cases j.resolving <;> rfl
    · have verified : s.verified j = s := if_neg verify
      rw [verified]
      simp only [verify, decide_false, Bool.false_eq_true, if_false, false_and]
      simp only [emptyList, Bool.not_true, if_false, Bool.false_eq_true]
      split
      · rfl
      · cases j.resolving <;> rfl

theorem Job.field_of_calm {α : Type} (f : Job → α) (hf : ∀ j : Job, f j.calm = f j) {a b : Job} (h : a.calm = b.calm) : f a = f b := by
  rw [← hf, h, hf]

theorem State.readings_job {s : State} {ring : Nat} {j : Job} (job : s.job ring = some j) (reads : PairReads) :
    ((s.verified j).statePairs j reads).1.job ring = some j := by
  rw [State.job, State.statePairs_jobs, State.verified_jobs]
  exact job

/-- What makes a commit start a recovery in place of finishing. -/
def State.commitFails (s : State) (j : Job) (n : Nat) (e : ReadError) : Prop :=
  (j.mode.guard = .mirrorVerify ∧ s.mismatches j ≠ []) ∨ j.stateLost n e

theorem commitFinish_fails {s : State} {ring n : Nat} {e : ReadError} {j : Job} (job : s.job ring = some j) (begun : j.committing = true)
    (running : s.errs.fatal = false) (pool : s.poolOpen = true) (fails : s.commitFails j n e) :
    ∃ u j', exec (.commitFinish ⟨ring, n, e⟩) s = .next u ∧ u.job ring = some j' ∧
      j'.recovery.isSome = true ∧ j'.saved = j.saved ∧ j'.generation = j.generation := by
  have starts (w : State) (hw : w.job ring = some j) (named : List Nat) :
      ∃ j', (w.startRecovery ring none 0xFF named).job ring = some j' ∧
        j'.recovery.isSome = true ∧ j'.saved = j.saved ∧ j'.generation = j.generation := by
    obtain ⟨j', m, x, job', core, -⟩ := State.startRecovery_job hw none 0xFF named
    exact ⟨j', job', congrArg Option.isSome (Job.field_of_core Job.recovery (fun _ => rfl) core), (Job.field_of_core Job.saved (fun _ => rfl) core).trans rfl,
      (Job.field_of_core Job.generation (fun _ => rfl) core).trans rfl⟩
  have read := State.readings_job job ⟨ring, n, e⟩
  rw [exec_commitFinish job, if_neg (by simp [begun, running, pool])]
  dsimp only
  by_cases differs : j.mode.guard = .mirrorVerify ∧ s.mismatches j ≠ []
  · rw [if_pos differs]
    obtain ⟨j', job', facts⟩ := starts (((s.verified j).statePairs j ⟨ring, n, e⟩).1.count .verifyMismatch 0 (s.mismatches j).length)
      (by rw [State.job, State.count_jobs]; exact read) ((s.mismatches j).map (·.1))
    exact ⟨_, j', rfl, job', facts⟩
  · rw [if_neg differs, if_pos ((State.statePairs_lost ..).2 (fails.resolve_left differs))]
    obtain ⟨j', job', facts⟩ := starts _ read []
    exact ⟨_, j', rfl, job', facts⟩

theorem State.noted_job {s : State} {ring : Nat} {j : Job} (job : s.job ring = some j) :
    ∃ j', (s.noted j ring).job ring = some j' ∧ j'.calm = j.committed.calm := by
  have committed : (((s.mapJob ring Job.committed).count .commits 0 1).count .commitUs 0 ((s.clock - j.commitSince) / 1000)).job ring =
      some j.committed := by
    rw [State.job, State.count_jobs, State.count_jobs]
    exact State.job_mapJob job fun _ => rfl
  exact State.job_of_map (κ := Job.calm) Job.ring (fun _ => rfl) (State.raise_jobs (κ := Job.calm) (fun _ _ => rfl) ..) committed

theorem State.releaseBars_job {s : State} {r : Nat} {j : Job} (job : s.job r = some j) (b : Nat) :
    (s.releaseBars r b).job r = some (j.resolved b) := by
  have jobs (ts : List Nat) : (ts.foldl (fun s t => s.mapTile t (Tile.released b)) s).jobs = s.jobs :=
    List.foldl_keeps (f := fun s t => s.mapTile t (Tile.released b)) (g := State.jobs) (fun _ _ => rfl) ts s
  have e : s.releaseBars r b = ((((j.barriers[b]?).map (·.members)).getD []).foldl (fun s t => s.mapTile t (Tile.released b)) s).mapJob r
      (Job.resolved b) := by
    rw [State.releaseBars, job]
    rfl
  rw [e]
  exact State.job_mapJob (by rw [State.job, jobs]; exact job) fun _ => rfl

/-- What a finished commit leaves of its job: `k` is the job, with what the resolution that it waited for adds. -/
structure Job.Finished (j k : Job) : Prop where
  committing : k.committing = false
  saved : k.saved = j.taking
  written : k.written = j.written.take (j.written.length - j.writtenAt)
  heldErrs : k.heldErrs = []
  generation : k.generation = j.generation + 1
  shards : k.shards = j.numbered.map (fun x => if j.copied.contains x.1 then x.2.switch (j.nextGen x.2.entry) else x.2)

theorem Job.finished_of_calm {j k : Job} (h : k.calm = j.committed.calm) : j.Finished k where
  committing := Job.field_of_calm Job.committing (fun _ => rfl) h
  saved := Job.field_of_calm Job.saved (fun _ => rfl) h
  written := Job.field_of_calm Job.written (fun _ => rfl) h
  heldErrs := Job.field_of_calm Job.heldErrs (fun _ => rfl) h
  generation := Job.field_of_calm Job.generation (fun _ => rfl) h
  shards := Job.field_of_calm Job.shards (fun _ => rfl) h

theorem commitFinish_finishes {s : State} {ring n : Nat} {e : ReadError} {j : Job} (job : s.job ring = some j) (begun : j.committing = true)
    (running : s.errs.fatal = false) (pool : s.poolOpen = true) (stands : ¬ s.commitFails j n e) :
    ∃ u j', exec (.commitFinish ⟨ring, n, e⟩) s = .next u ∧ u.job ring = some j' ∧ j.Finished j' ∧
      ∀ b y, j.resolving = some b → j.barriers[b]? = some y →
        (∃ z, j'.barriers[b]? = some z ∧ z.arrived = [] ∧ z.uses = y.uses + 1) ∧ ∀ t ∈ y.members, (u.tile t).barsDone b := by
  have whole : ¬ ((s.verified j).statePairs j ⟨ring, n, e⟩).2 = true := fun lost => stands (.inr ((State.statePairs_lost ..).1 lost))
  obtain ⟨k, job', calm⟩ := State.noted_job (State.readings_job job ⟨ring, n, e⟩)
  have finished := Job.finished_of_calm calm
  have barriers : k.barriers = j.barriers := (Job.field_of_calm Job.barriers (fun _ => rfl) calm).trans rfl
  rw [exec_commitFinish job, if_neg (by simp [begun, running, pool])]
  dsimp only
  rw [if_neg fun differs => stands (.inl differs), if_neg whole]
  cases waits : j.resolving with
  | none => exact ⟨_, k, rfl, job', finished, fun b y some _ => by cases some⟩
  | some b =>
    refine ⟨_, k.resolved b, rfl, State.releaseBars_job job' b, ⟨finished.1, finished.2, finished.3, finished.4, finished.5, finished.6⟩,
      fun b' y same found => ?_⟩
    cases same
    rw [← barriers] at found
    exact ⟨⟨_, Job.resolved_barrier found, rfl, rfl⟩, (State.releaseBars_eq job' found).2⟩

/-! ## The end of a recovery (R442, R443) -/

theorem State.restoreShard_cores (j : Job) (g : GuardShard) (s : State) : (s.restoreShard j g).cores = s.cores := by
  have : Stores (Part.power :: Part.stored).contains := stores_of rfl
  have : MayPower (Part.power :: Part.stored).contains := ⟨rfl⟩
  have asked (u : State) (n : Nat) : (u.askService n).cores = u.cores :=
    (Evolves.refl (Part.power :: Part.stored).contains u).askService.cores rfl
  unfold State.restoreShard
  split
  next =>
    split
    · exact State.raise_cores ..
    · rfl
  next slot gen _ =>
    dsimp only
    split
    next =>
      rw [State.raise_cores]
      split
      · exact ((Evolves.refl (Part.power :: Part.stored).contains _).spoilSource.cores rfl).trans (asked ..)
      · exact asked ..
    next =>
      exact ((Evolves.refl (Part.power :: Part.stored).contains _).putBack.count.askService.cores rfl).trans (asked ..)

/-- The shards that a recovery names, restored; then its saved state read back. -/
def State.readBack (j : Job) (r : Recovery) (reads : PairReads) (s : State) : State :=
  let p := ((j.numbered.filter (j.restores r)).foldl (fun s x => s.restoreShard j x.2) s).statePairs j reads
  if p.2 && j.saved.isSome then p.1.raise [Err.ofJob .fatal 0x36 0 0 j 0 0 0] else p.1

theorem State.readBack_cores (j : Job) (r : Recovery) (reads : PairReads) (s : State) : (s.readBack j r reads).cores = s.cores := by
  have shards : ((j.numbered.filter (j.restores r)).foldl (fun s x => s.restoreShard j x.2) s).cores = s.cores :=
    List.foldl_keeps (f := fun s (x : Nat × GuardShard) => s.restoreShard j x.2) (g := State.cores) (fun u x => State.restoreShard_cores ..) _ s
  have read := (State.cores_of_jobs (State.statePairs_jobs _ j reads)).trans shards
  unfold State.readBack
  dsimp only
  split
  · rw [State.raise_cores]
    exact read
  · exact read

/-- A job after its recovery. -/
def Job.recovered (n : Nat) (j : Job) : Job := { j with recovery := none, recoveries := n }

/-- A recovery's end noted. -/
def State.recoveryNoted (j : Job) (r : Recovery) (ring : Nat) (s : State) : State :=
  let n := min 0xFFFF (j.recoveries + 1)
  let s := s.raise [Err.ofJob .contained 0x22 0 0 j 0 (r.arg + 256 * r.site) n]
  ((s.count .recoveries 0 1).count .recoveryUs 0 ((s.clock - r.since) / 1000)).mapJob ring (Job.recovered n)

/-- What a recovery waits for before it ends. -/
def State.recoveryWaits (s : State) (j : Job) (r : Recovery) : Prop :=
  s.poisonDue j = true ∨ s.poolOpen = false ∨ ∃ t ∈ r.takeovers, (s.tile t).failed = true

theorem exec_restoreDone {s : State} {ring : Nat} {j : Job} {r : Recovery} (job : s.job ring = some j) (running : s.errs.fatal = false)
    (recovers : j.recovery = some r) (n : Nat) (e : ReadError) :
    (s.recoveryWaits j r → exec (.restoreDone ⟨ring, n, e⟩) s = .next s) ∧
    (¬ s.recoveryWaits j r → exec (.restoreDone ⟨ring, n, e⟩) s =
      let w := s.readBack j r ⟨ring, n, e⟩
      if w.errs.fatal = true then .next w
      else
        let v := w.recoveryNoted j r ring
        match j.saved with
        | some x => .next (x.tiles.foldl (fun s x => s.restoreTile x) (v.restoreShared ring x))
        | none =>
          let u := r.takeovers.foldl (fun s t => s.writeControlPage t) v
          let u := if emptyList r.takeovers then u else u.putScheds ring
          .next ((j.tileIds.foldl (fun s t => s.startTile t 0) u).beginCommit ring)) := by
  have eq : exec (.restoreDone ⟨ring, n, e⟩) s = execRestoreDone ⟨ring, n, e⟩ s := rfl
  have waits : (s.errs.fatal || s.poisonDue j || !s.poolOpen || r.takeovers.any (fun t => (s.tile t).failed)) = true ↔ s.recoveryWaits j r := by
    rw [running]
    simp only [Bool.false_or, Bool.or_eq_true, Bool.not_eq_true', List.any_eq_true, or_assoc]
    rfl
  rw [eq, execRestoreDone, job]
  dsimp only
  rw [recovers]
  exact ⟨fun due => if_pos (waits.2 due), fun free => (if_neg fun n => free (waits.1 n)).trans rfl⟩

/-! ### Tiles restored -/

/-- A tile stands where the last commit left it. -/
def State.stands (s : State) (x : SavedTile) : Prop := (s.tile x.tile).next = x.next ∧ (s.tile x.tile).window = [] ∧ (s.tile x.tile).offer = none

theorem State.stands_of_sequencer {s u : State} {x : SavedTile} (h : (u.tile x.tile).sequencer = (s.tile x.tile).sequencer)
    (stands : s.stands x) : u.stands x := by
  have next : (u.tile x.tile).next = (s.tile x.tile).next := congrArg (fun q => q.1) h
  have window : (u.tile x.tile).window = (s.tile x.tile).window := congrArg (fun q => q.2.2.2.1) h
  have offer : (u.tile x.tile).offer = (s.tile x.tile).offer := congrArg (fun q => q.2.2.1) h
  rw [State.stands, next, window, offer]
  exact stands

/-- What restoring queues may change. -/
abbrev Part.requeues : List Part := .tQueues :: .tStreams :: Part.stored

/-- The queues of a restored tile. -/
def State.restoreQueues (x : SavedTile) (s : State) : State :=
  (List.range 8).foldl (fun s k =>
    (s.mapQueue x.tile k (fun q => { q with
      isOpen := true, epoch := x.epochs.getD k 0, sender := x.senders.getD k 0xFF, slots := [] })).mapStream x.tile k
      (fun q => { x.streams.getD k StreamQueue.reset with cfgLimit := q.cfgLimit })) s

theorem State.restoreQueues_sequencer (x : SavedTile) (s : State) (y : Nat) :
    ((s.restoreQueues x).tile y).sequencer = (s.tile y).sequencer := by
  have : Stores Part.requeues.contains := stores_of rfl
  have : MayTQueues Part.requeues.contains := ⟨rfl⟩
  have : MayTStreams Part.requeues.contains := ⟨rfl⟩
  have evolves : Evolves Part.requeues.contains s (s.restoreQueues x) := (Evolves.refl _ s).foldl fun _ _ hu => hu.mapQueue.mapStream
  exact evolves.kept .tWindow rfl y

theorem State.restoreTile_eq (x : SavedTile) (s : State) : s.restoreTile x = State.restoreQueues x
    (((s.countSet .auditLost x.tile x.auditLost).mapTile x.tile (fun u => { u with auditPos := x.auditPos })).startTile x.tile x.next) := rfl

theorem State.startTile_tile (t next y : Nat) (s : State) (other : y ≠ t) : ((s.startTile t next).tile y) = s.tile y := by
  rw [State.startTile, State.repace_tile, if_neg fun n => other n.1, State.tile_mapTile_other _ other]

theorem State.restoreTile_stands (s : State) {x : SavedTile} (inside : x.tile < 208) : (s.restoreTile x).stands x := by
  rw [State.restoreTile_eq]
  refine State.stands_of_sequencer (State.restoreQueues_sequencer ..) ?_
  rw [State.stands, State.startTile, State.repace_tile, if_pos ⟨rfl, inside⟩, State.tile_mapTile_self _ inside]
  exact ⟨rfl, rfl, rfl⟩

theorem State.restoreTile_keeps {s : State} {x y : SavedTile} (other : x.tile ≠ y.tile) (stands : s.stands x) : (s.restoreTile y).stands x := by
  rw [State.restoreTile_eq]
  refine State.stands_of_sequencer ((State.restoreQueues_sequencer ..).trans ?_) stands
  rw [State.startTile_tile _ _ _ _ other, State.tile_mapTile_other _ other, State.tile, State.countSet_tiles, State.tile]

theorem State.restoreTiles_stands {l : List SavedTile} (distinct : (l.map (·.tile)).Nodup) {x : SavedTile} (inside : x.tile < 208) (s : State)
    (h : x ∈ l ∨ s.stands x ∧ ∀ y ∈ l, x.tile ≠ y.tile) : (l.foldl (fun s x => s.restoreTile x) s).stands x := by
  induction l generalizing s with
  | nil => exact (h.resolve_left List.not_mem_nil).1
  | cons y l ih =>
    rw [List.map_cons, List.nodup_cons] at distinct
    refine ih distinct.2 _ ?_
    obtain mem | ⟨stands, others⟩ := h
    · obtain rfl | mem := List.mem_cons.1 mem
      · refine .inr ⟨s.restoreTile_stands inside, fun y hy same => distinct.1 ?_⟩
        rw [same]
        exact List.mem_map_of_mem hy
      · exact .inl mem
    · exact .inr ⟨State.restoreTile_keeps (others y List.mem_cons_self) stands, fun z hz => others z (List.mem_cons_of_mem _ hz)⟩

/-- What restoring a job's tiles and shared state leaves of its job. -/
theorem State.restored_job {s : State} {ring : Nat} {j : Job} (job : s.job ring = some j) (v : Saved) :
    ∃ j', (v.tiles.foldl (fun s x => s.restoreTile x) (s.restoreShared ring v)).job ring = some j' ∧ j'.heart = j.heart := by
  have : Stores (Part.tProgram :: .tWindow :: Part.requeues).contains := stores_of rfl
  have : MayTProgram (Part.tProgram :: .tWindow :: Part.requeues).contains := ⟨rfl⟩
  have : MayTWindow (Part.tProgram :: .tWindow :: Part.requeues).contains := ⟨rfl⟩
  have : MayTQueues (Part.tProgram :: .tWindow :: Part.requeues).contains := ⟨rfl⟩
  have : MayTStreams (Part.tProgram :: .tWindow :: Part.requeues).contains := ⟨rfl⟩
  refine State.job_of_hearts ?_ job
  have tiles (u : State) : Evolves (Part.tProgram :: .tWindow :: Part.requeues).contains u (v.tiles.foldl (fun s x => s.restoreTile x) u) :=
    (Evolves.refl _ u).foldl fun _ _ hu => hu.restoreTile
  have shared : (s.restoreShared ring v).hearts = s.hearts := by
    refine (State.hearts_of_jobs ?_).trans (State.mapJob_hearts ring (f := fun j => { j with scheds := v.scheds }) (fun _ => rfl) s)
    refine List.foldl_keeps (g := State.jobs) (fun _ _ => ?_) _ _
    rfl
  exact (State.hearts_of_jobs ((tiles _).kept .jobs rfl)).trans shared

theorem Job.field_of_heart {α : Type} (f : Job → α) (hf : ∀ j : Job, f j.heart = f j) {a b : Job} (h : a.heart = b.heart) : f a = f b := by
  rw [← hf, h, hf]

theorem restoreDone_restores {s : State} {ring n : Nat} {e : ReadError} {j : Job} {r : Recovery} (job : s.job ring = some j)
    (running : s.errs.fatal = false) (recovers : j.recovery = some r) (free : ¬ s.recoveryWaits j r) :
    ∃ u, exec (.restoreDone ⟨ring, n, e⟩) s = .next u ∧
      (∀ k, e = .uncorrectable k → k ≠ 0 → j.saved ≠ none → u.errs.fatal = true) ∧
      (u.errs.fatal = false → ∀ v, j.saved = some v → ∃ j', u.job ring = some j' ∧ j'.recovery = none ∧
        j'.recoveries = min 0xFFFF (j.recoveries + 1) ∧ ((v.tiles.map (·.tile)).Nodup → ∀ x ∈ v.tiles, x.tile < 208 → u.stands x)) := by
  have next := (exec_restoreDone job running recovers n e).2 free
  dsimp only at next
  by_cases fatal : (s.readBack j r ⟨ring, n, e⟩).errs.fatal = true
  · rw [if_pos fatal] at next
    exact ⟨_, next, fun _ _ _ _ => fatal, fun sound => by rw [sound] at fatal; cases fatal⟩
  · rw [if_neg fatal] at next
    have sound (k : Nat) (uncorrectable : e = .uncorrectable k) (nonzero : k ≠ 0) : j.saved = none := by
      by_contra saved
      refine fatal ?_
      unfold State.readBack
      dsimp only
      rw [if_pos]
      · exact State.raise_fatals (by simp) (by simp [Err.ofJob])
      · rw [(State.statePairs_lost ..).2 (.inr ⟨k, uncorrectable, nonzero⟩), Option.isSome_iff_ne_none.2 saved]
        rfl
    cases saved : j.saved with
    | none =>
      rw [saved] at next
      exact ⟨_, next, fun _ _ _ n => absurd rfl n, fun _ v n => by cases n⟩
    | some v =>
      rw [saved] at next
      refine ⟨_, next, fun k uncorrectable nonzero _ => ?_, fun _ v' same => ?_⟩
      · rw [sound k uncorrectable nonzero] at saved
        cases saved
      · cases same
        obtain ⟨k, read, core⟩ := State.job_of_cores (s.readBack_cores j r ⟨ring, n, e⟩) job
        obtain ⟨k', raised, -⟩ := State.job_of_cores
          (State.raise_cores [Err.ofJob .contained 0x22 0 0 j 0 (r.arg + 256 * r.site) (min 0xFFFF (j.recoveries + 1))] _) read
        have noted : ((s.readBack j r ⟨ring, n, e⟩).recoveryNoted j r ring).job ring = some (k'.recovered (min 0xFFFF (j.recoveries + 1))) := by
          refine State.job_mapJob ?_ fun _ => rfl
          rw [State.job, State.count_jobs, State.count_jobs]
          exact raised
        obtain ⟨j', job', heart⟩ := State.restored_job noted v
        exact ⟨j', job', (Job.field_of_heart Job.recovery (fun _ => rfl) heart).trans rfl,
          (Job.field_of_heart Job.recoveries (fun _ => rfl) heart).trans rfl,
          fun distinct x hx inside => State.restoreTiles_stands distinct inside _ (.inl hx)⟩

/-- Settles O55: failures by their job, takeovers, the two ends of a commit, the end of a recovery. -/
theorem recoveriesFollowTheirSteps : Obligations.RecoveriesFollowTheirSteps := by
  unfold Obligations.RecoveriesFollowTheirSteps
  refine ⟨fun s t cause => ⟨rfl, fun blocked => ?_, fun inside works running good => ⟨fun free => ⟨fun site rest spare => ?_, fun none => ?_⟩,
    fun j busy guard => ?_, fun j busy guard => ⟨fun lost => ?_, fun kept => ?_⟩⟩⟩,
    fun s t inside failed running good => ⟨fun j => spareTakeover_waits inside failed running good,
      fun site rest => spareTakeover_takes inside failed running good⟩,
    fun s ring n e j job => ⟨fun blocked => ?_, fun begun running pool => ?_⟩,
    fun s ring n e j r job running => ⟨fun none => ?_, fun recovers waits => (exec_restoreDone job running recovers n e).1 waits,
      fun recovers quiet pool whole => restoreDone_restores job running recovers ?_⟩⟩
  · rw [exec_tilePollTimeout, State.tileFails_blocked blocked]
  · obtain ⟨tile, spares, errs, -, zeros⟩ := State.tileFails_spare inside works running good free spare
    exact ⟨_, rfl, by rw [tile]; rfl, by rw [tile]; rfl, by rw [tile]; rfl, spares, errs, zeros⟩
  · exact ⟨_, rfl, State.tileFails_lost inside works running good free none⟩
  · exact ⟨_, rfl, State.tileFails_plain inside works running good busy guard⟩
  · obtain ⟨e, failed⟩ := State.tileFails_guarded inside works running good busy guard
    exact ⟨_, rfl, failed, by rw [e]; exact State.guardedFailure_lost lost⟩
  · obtain ⟨e, failed⟩ := State.tileFails_guarded inside works running good busy guard
    obtain ⟨j', job', shards, takeovers⟩ := State.guardedFailure_recovers (s := s.mapTile t (fun u => { u with failed := true })) (t := t)
      (show s.job j.ring = some j from State.runningJob_job busy) kept
    exact ⟨_, j', rfl, failed, by rw [e]; exact job', shards, takeovers⟩
  · rw [exec_commitFinish job, if_pos blocked]
  · by_cases fails : s.commitFails j n e
    · obtain ⟨u, j', next, job', facts⟩ := commitFinish_fails job begun running pool fails
      exact ⟨u, j', next, job', fun _ => facts, fun n => absurd fails n⟩
    · obtain ⟨u, j', next, job', finished, resolves⟩ := commitFinish_finishes job begun running pool fails
      exact ⟨u, j', next, job', fun n => absurd n fails, fun _ => ⟨finished.committing, finished.saved, finished.written, finished.heldErrs,
        finished.generation, finished.shards, resolves⟩⟩
  · have e : exec (.restoreDone ⟨ring, n, e⟩) s = execRestoreDone ⟨ring, n, e⟩ s := rfl
    rw [e, execRestoreDone, job]
    dsimp only
    rw [none]
  · rintro (due | spent | ⟨t, ht, failed⟩)
    · rw [quiet] at due; cases due
    · rw [pool] at spent; cases spent
    · rw [whole t ht] at failed; cases failed

end Sys2Proof.Machine
end

section
/-!
PROOFS. Elements written into lines by a tile DMA (R316, R369): the bits an element lays into a line, and the bytes a line then has.
-/
namespace Sys2Proof.Machine

/-! ## Bits laid over a number -/

theorem bit_eq_testBit (v i : Nat) : bit v i = v.testBit i := by
  rw [Nat.testBit_eq_decide_div_mod_eq]
  unfold bit
  rw [Nat.shiftRight_eq_div_pow]
  by_cases h : v / 2 ^ i % 2 = 1 <;> simp [h]

/-- A field of a number replaced. -/
theorem overlay_testBit (x v o w j : Nat) (hv : v < 2 ^ w) :
    (x - (x &&& (2 ^ w - 1) * 2 ^ o) + v * 2 ^ o).testBit j = if o ≤ j ∧ j < o + w then v.testBit (j - o) else x.testBit j := by
  have masked : x &&& (2 ^ w - 1) * 2 ^ o = x / 2 ^ o % 2 ^ w * 2 ^ o := by
    apply Nat.eq_of_testBit_eq
    intro i
    rw [Nat.testBit_and, Nat.testBit_mul_two_pow, Nat.testBit_mul_two_pow, Nat.testBit_two_pow_sub_one, Nat.testBit_mod_two_pow,
      Nat.testBit_div_two_pow]
    by_cases h : o ≤ i
    · have : i - o + o = i := by omega
      simp [h, this, Bool.and_comm]
    · simp [h]
  have split : x = x / 2 ^ o / 2 ^ w * 2 ^ w * 2 ^ o + x / 2 ^ o % 2 ^ w * 2 ^ o + x % 2 ^ o := by
    have h1 := Nat.div_add_mod x (2 ^ o)
    have h2 := Nat.div_add_mod (x / 2 ^ o) (2 ^ w)
    calc x = 2 ^ o * (x / 2 ^ o) + x % 2 ^ o := h1.symm
      _ = 2 ^ o * (2 ^ w * (x / 2 ^ o / 2 ^ w) + x / 2 ^ o % 2 ^ w) + x % 2 ^ o := by rw [h2]
      _ = _ := by ring
  have replaced : x - (x &&& (2 ^ w - 1) * 2 ^ o) + v * 2 ^ o = 2 ^ o * (2 ^ w * (x / 2 ^ o / 2 ^ w) + v) + x % 2 ^ o := by
    rw [masked]
    have : x - x / 2 ^ o % 2 ^ w * 2 ^ o = x / 2 ^ o / 2 ^ w * 2 ^ w * 2 ^ o + x % 2 ^ o := by omega
    rw [this]
    ring
  rw [replaced, Nat.testBit_two_pow_mul_add _ (Nat.mod_lt _ (Nat.two_pow_pos o)), Nat.testBit_mod_two_pow]
  by_cases low : j < o
  · rw [if_pos low, if_neg (by omega)]
    simp [low]
  · rw [if_neg low, Nat.testBit_two_pow_mul_add _ hv]
    by_cases inside : j - o < w
    · rw [if_pos inside, if_pos (by omega)]
    · rw [if_neg inside, if_neg (by omega), Nat.testBit_div_two_pow, Nat.testBit_div_two_pow]
      congr 1
      omega

/-! ## Elements laid over a line -/

/-- Bit `j` of the window of three lines that begins 512 bits before line `l` belongs to an element. -/
def View.covers (v : View) (l : Nat) (e : ElemOut) (j : Nat) : Prop :=
  v.bitAddr e.1 + 512 ≤ 8 * l + j ∧ 8 * l + j < v.bitAddr e.1 + 512 + v.desc.elemBits

/-- An element laid over a line changes its own bits, within the line, and marks them. -/
theorem View.overlay_testBit {v : View} (narrow : v.desc.elemBits ≤ 64) (l : Nat) (acc : Nat × Nat) (e : ElemOut) {j : Nat}
    (hj : 512 ≤ j ∧ j < 1024) :
    (v.covers l e j → (v.overlay l acc e).1.testBit j = (e.2 % 2 ^ v.desc.elemBits).testBit (8 * l + j - (v.bitAddr e.1 + 512)) ∧
      (v.overlay l acc e).2.testBit j = true) ∧
    (¬ v.covers l e j → (v.overlay l acc e).1.testBit j = acc.1.testBit j ∧ (v.overlay l acc e).2.testBit j = acc.2.testBit j) := by
  unfold View.overlay View.covers
  dsimp only
  generalize v.bitAddr e.1 = a
  generalize v.desc.elemBits = w at narrow ⊢
  by_cases away : a + 512 < 8 * l ∨ 1024 ≤ a + 512 - 8 * l
  · rw [if_pos away]
    exact ⟨fun covers => by omega, fun _ => ⟨rfl, rfl⟩⟩
  · rw [if_neg away]
    have small : e.2 % 2 ^ w < 2 ^ w := Nat.mod_lt _ (Nat.two_pow_pos w)
    rw [Sys2Proof.Machine.overlay_testBit _ _ _ _ _ small, Nat.testBit_or, Nat.testBit_mul_two_pow, Nat.testBit_two_pow_sub_one]
    refine ⟨fun covers => ?_, fun misses => ?_⟩
    · rw [if_pos (by omega)]
      refine ⟨congrArg _ (by omega), ?_⟩
      have h1 : a + 512 - 8 * l ≤ j := by omega
      have h2 : j - (a + 512 - 8 * l) < w := by omega
      simp [h1, h2]
    · rw [if_neg (by omega)]
      refine ⟨rfl, ?_⟩
      by_cases h1 : a + 512 - 8 * l ≤ j
      · have h2 : ¬ j - (a + 512 - 8 * l) < w := by omega
        simp [h2]
      · simp [h1]

theorem View.overlays_miss {v : View} (narrow : v.desc.elemBits ≤ 64) (l : Nat) (es : List ElemOut) {j : Nat} (hj : 512 ≤ j ∧ j < 1024)
    (misses : ∀ e ∈ es, ¬ v.covers l e j) (acc : Nat × Nat) :
    (es.foldl (v.overlay l) acc).1.testBit j = acc.1.testBit j ∧ (es.foldl (v.overlay l) acc).2.testBit j = acc.2.testBit j := by
  induction es generalizing acc with
  | nil => exact ⟨rfl, rfl⟩
  | cons e es ih =>
    obtain ⟨value, mark⟩ := ih (fun x hx => misses x (List.mem_cons_of_mem _ hx)) (v.overlay l acc e)
    obtain ⟨value', mark'⟩ := (View.overlay_testBit narrow l acc e hj).2 (misses e List.mem_cons_self)
    exact ⟨value.trans value', mark.trans mark'⟩

theorem View.overlays_cover {v : View} (narrow : v.desc.elemBits ≤ 64) (l : Nat) (es : List ElemOut) {j : Nat} (hj : 512 ≤ j ∧ j < 1024)
    {e : ElemOut} (mem : e ∈ es) (covers : v.covers l e j) (only : ∀ x ∈ es, v.covers l x j → x = e) (acc : Nat × Nat) :
    (es.foldl (v.overlay l) acc).1.testBit j = (e.2 % 2 ^ v.desc.elemBits).testBit (8 * l + j - (v.bitAddr e.1 + 512)) ∧
      (es.foldl (v.overlay l) acc).2.testBit j = true := by
  induction es generalizing acc with
  | nil => exact absurd mem List.not_mem_nil
  | cons x es ih =>
    by_cases later : e ∈ es
    · exact ih later (fun y hy => only y (List.mem_cons_of_mem _ hy)) _
    · obtain rfl : e = x := (List.mem_cons.1 mem).resolve_right later
      obtain ⟨value, mark⟩ := View.overlays_miss narrow l es hj (fun y hy covered => by
        rw [only y (List.mem_cons_of_mem _ hy) covered] at hy
        exact later hy) (v.overlay l acc e)
      obtain ⟨value', mark'⟩ := (View.overlay_testBit narrow l acc e hj).1 covers
      exact ⟨value.trans value', mark.trans mark'⟩

/-! ## The bytes and the mask of a line -/

theorem maskOf_testBit (p : Nat → Bool) (n : Nat) :
    (List.range n).foldl (fun m i => if p i then m else m + 2 ^ i) 0 < 2 ^ n ∧
    ∀ i, ((List.range n).foldl (fun m i => if p i then m else m + 2 ^ i) 0).testBit i = (decide (i < n) && !p i) := by
  induction n with
  | zero => simp
  | succ n ih =>
    obtain ⟨small, bits⟩ := ih
    rw [List.range_succ, List.foldl_append]
    generalize (List.range n).foldl (fun m i => if p i then m else m + 2 ^ i) 0 = m at small bits
    have double : 2 ^ (n + 1) = 2 ^ n + 2 ^ n := by rw [Nat.pow_succ]; omega
    show (if p n then m else m + 2 ^ n) < 2 ^ (n + 1) ∧ ∀ i, (if p n then m else m + 2 ^ n).testBit i = _
    cases marked : p n with
    | true =>
      refine ⟨by rw [if_pos rfl]; omega, fun i => ?_⟩
      rw [if_pos rfl, bits]
      by_cases last : i = n
      · simp [last, marked]
      · rw [decide_eq_decide.2 (by omega : i < n ↔ i < n + 1)]
    | false =>
      refine ⟨by rw [if_neg Bool.false_ne_true]; omega, fun i => ?_⟩
      rw [if_neg Bool.false_ne_true, Nat.add_comm]
      obtain less | rfl | more := Nat.lt_trichotomy i n
      · rw [Nat.testBit_two_pow_add_gt less, bits, decide_eq_true less, decide_eq_true (by omega : i < n + 1)]
      · rw [Nat.testBit_two_pow_add_eq, Nat.testBit_lt_two_pow small, marked]
        simp
      · rw [Nat.testBit_lt_two_pow, decide_eq_false (by omega : ¬ i < n + 1)]
        · rfl
        · calc 2 ^ n + m < 2 ^ (n + 1) := by omega
            _ ≤ 2 ^ i := Nat.pow_le_pow_right (by decide) more

theorem leBytes_getD (n v i : Nat) (h : i < n) : (leBytes n v).getD i 0 = BitVec.ofNat 8 (v / 256 ^ i) := by
  induction n generalizing v i with
  | zero => omega
  | succ n ih =>
    cases i with
    | zero => simp [leBytes]
    | succ i =>
      rw [leBytes, List.getD_cons_succ, ih _ _ (by omega), Nat.div_div_eq_div_mul, Nat.pow_succ']

/-- Two numbers have the same byte at two places where they have the same eight bits there. -/
theorem byte_eq_of_testBit {x y i k : Nat} (h : ∀ b, b < 8 → x.testBit (8 * i + b) = y.testBit (8 * k + b)) :
    BitVec.ofNat 8 (x / 256 ^ i) = BitVec.ofNat 8 (y / 256 ^ k) := by
  apply BitVec.eq_of_getLsbD_eq
  intro b hb
  have pow (n : Nat) : 256 ^ n = 2 ^ (8 * n) := by rw [Nat.pow_mul]
  rw [BitVec.getLsbD_ofNat, BitVec.getLsbD_ofNat, pow, pow, Nat.testBit_div_two_pow, Nat.testBit_div_two_pow, Nat.add_comm b, Nat.add_comm b, h b hb]

/-- A line written with elements of whole bytes: bytes that no element covers are left alone, and one that one element covers is its. -/
theorem State.lineWrite_byte {s : State} {v : View} {w : Nat} (width : v.desc.elemBits = 8 * w) (narrow : v.desc.elemBits ≤ 64)
    (whole : ∀ ix, v.bitAddr ix % 8 = 0) (l : Nat) (es : List ElemOut) {i : Nat} (hi : i < 64) :
    ((∀ e ∈ es, ¬ (v.bitAddr e.1 / 8 ≤ l + i ∧ l + i < v.bitAddr e.1 / 8 + w)) → bit (s.lineWrite v l es).1 i = false) ∧
    (∀ e ∈ es, v.bitAddr e.1 / 8 ≤ l + i ∧ l + i < v.bitAddr e.1 / 8 + w →
      (∀ x ∈ es, v.bitAddr x.1 / 8 ≤ l + i ∧ l + i < v.bitAddr x.1 / 8 + w → x = e) →
      bit (s.lineWrite v l es).1 i = true ∧
      (s.lineWrite v l es).2.getD i 0 = BitVec.ofNat 8 (e.2 % 2 ^ v.desc.elemBits / 256 ^ (l + i - v.bitAddr e.1 / 8))) := by
  have covers_iff (e : ElemOut) (b : Nat) (hb : b < 8) :
      v.covers l e (512 + 8 * i + b) ↔ v.bitAddr e.1 / 8 ≤ l + i ∧ l + i < v.bitAddr e.1 / 8 + w := by
    have := whole e.1
    unfold View.covers
    omega
  have byte (p : Nat) : (bits p (519 + 8 * i) (512 + 8 * i) == 0) = true ↔ ∀ b, b < 8 → p.testBit (512 + 8 * i + b) = false := by
    rw [beq_iff_eq, bits, show 519 + 8 * i + 1 - (512 + 8 * i) = 8 by omega, Nat.shiftRight_eq_div_pow]
    constructor
    · intro zero b hb
      have same : (p / 2 ^ (512 + 8 * i) % 2 ^ 8).testBit b = (0 : Nat).testBit b := congrArg (Nat.testBit · b) zero
      rw [Nat.testBit_mod_two_pow, decide_eq_true hb, Bool.true_and, Nat.testBit_div_two_pow, Nat.zero_testBit, Nat.add_comm] at same
      exact same
    · intro none
      apply Nat.eq_of_testBit_eq
      intro b
      rw [Nat.testBit_mod_two_pow, Nat.testBit_div_two_pow, Nat.zero_testBit]
      by_cases hb : b < 8
      · rw [Nat.add_comm b, none b hb, Bool.and_false]
      · simp [hb]
  have mask : bit (s.lineWrite v l es).1 i =
      !(bits (es.foldl (v.overlay l) (leNat (s.readRaw l 64) * 2 ^ 512, 0)).2 (519 + 8 * i) (512 + 8 * i) == 0) := by
    have := (maskOf_testBit (fun i => bits (es.foldl (v.overlay l) (leNat (s.readRaw l 64) * 2 ^ 512, 0)).2 (519 + 8 * i) (512 + 8 * i) == 0) 64).2 i
    rw [bit_eq_testBit, State.lineWrite]
    simp only [beq_iff_eq] at this
    rw [decide_eq_true hi, Bool.true_and] at this
    exact this
  refine ⟨fun misses => ?_, fun e mem covered only => ⟨?_, ?_⟩⟩
  · rw [mask, (byte _).2 fun b hb => ?_, Bool.not_true]
    rw [(View.overlays_miss narrow l es (j := 512 + 8 * i + b) (by omega) (fun e he => (covers_iff e b hb).not.2 (misses e he)) _).2]
    exact Nat.zero_testBit _
  · rw [mask, Bool.not_eq_true', ← Bool.not_eq_true, byte]
    intro none
    have marked := (View.overlays_cover narrow l es (j := 512 + 8 * i + 0) (by omega) mem ((covers_iff e 0 (by decide)).2 covered)
      (fun x hx cx => only x hx ((covers_iff x 0 (by decide)).1 cx)) (leNat (s.readRaw l 64) * 2 ^ 512, 0)).2
    rw [none 0 (by decide)] at marked
    cases marked
  · rw [State.lineWrite, leBytes_getD _ _ _ hi]
    refine byte_eq_of_testBit fun b hb => ?_
    rw [Nat.testBit_div_two_pow, show 8 * i + b + 512 = 512 + 8 * i + b by omega,
      (View.overlays_cover narrow l es (j := 512 + 8 * i + b) (by omega) mem ((covers_iff e b hb).2 covered)
        (fun x hx cx => only x hx ((covers_iff x b hb).1 cx)) _).1]
    have := whole e.1
    exact congrArg _ (by omega)

theorem State.lineWrite_shape (s : State) (v : View) (l : Nat) (es : List ElemOut) :
    (s.lineWrite v l es).1 < 2 ^ 64 ∧ (s.lineWrite v l es).2.length = 64 := by
  refine ⟨?_, leBytes_length ..⟩
  have := (maskOf_testBit (fun i => bits (es.foldl (v.overlay l) (leNat (s.readRaw l 64) * 2 ^ 512, 0)).2 (519 + 8 * i) (512 + 8 * i) == 0) 64).1
  simp only [beq_iff_eq] at this
  exact this

end Sys2Proof.Machine
end

section
/-!
PROOFS. O49: LOAD, STORE, GATHER and SCATTER (R316, R351, R368, R369).
-/
namespace Sys2Proof.Machine

/-! ## Lines -/

theorem mem_insertNat_iff {x a : Nat} {l : List Nat} : x ∈ insertNat a l ↔ x = a ∨ x ∈ l :=
  ⟨mem_insertNat, fun h => h.elim (fun e => e ▸ mem_insertNat_self a l) mem_insertNat_of_mem⟩

theorem mem_insertNats {x : Nat} (as acc : List Nat) : x ∈ as.foldl (fun acc a => insertNat a acc) acc ↔ x ∈ as ∨ x ∈ acc := by
  induction as generalizing acc with
  | nil => simp
  | cons a as ih =>
    rw [List.foldl_cons, ih, mem_insertNat_iff, List.mem_cons]
    tauto

/-- The lines of a list of extents. -/
theorem mem_lineSet {x : Nat} {l : List (Nat × Nat)} : x ∈ lineSet l ↔ ∃ p ∈ l, x ∈ linesOf p.1 p.2 := by
  have through (l : List (Nat × Nat)) (acc : List Nat) :
      x ∈ l.foldl (fun acc p => (linesOf p.1 p.2).foldl (fun acc x => insertNat x acc) acc) acc ↔ (∃ p ∈ l, x ∈ linesOf p.1 p.2) ∨ x ∈ acc := by
    induction l generalizing acc with
    | nil => simp
    | cons p l ih =>
      rw [List.foldl_cons, ih, mem_insertNats]
      simp only [List.mem_cons, exists_eq_or_imp]
      rw [or_left_comm, or_assoc]
  rw [lineSet, through]
  simp

/-- A line of another tile's scratchpad holds no byte that a tile may write as its own. -/
theorem State.plainTarget_line {s : State} {t b x off : Nat} (plain : s.plainTarget t b) (h : home (lineOf b) = .scratch x off) : x = t := by
  obtain ⟨lo, hi, mod⟩ := atScratch.bounds ⟨x, off, h⟩
  rw [atScratch_of_bounds lo hi mod, Home.scratch.injEq] at h
  have place : home b = .scratch x (b % 0x800000) := by
    rw [atScratch_of_bounds (by unfold lineOf at lo; omega) (by unfold lineOf at hi; omega) (by unfold lineOf at mod; omega), Home.scratch.injEq]
    refine ⟨?_, rfl⟩
    rw [← h.1]
    unfold lineOf
    omega
  have := plain.2
  rw [place] at this
  exact this.1

theorem State.plainTarget_mapped {s : State} {t b : Nat} (plain : s.plainTarget t b) : home b ≠ .unmapped := by
  intro h
  have := plain.2
  rw [h] at this
  exact this

/-! ## What a move writes -/

/-- A byte belongs to an element of `w` whole bytes. -/
def View.hits (v : View) (w : Nat) (e : ElemOut) (b : Nat) : Prop := v.bitAddr e.1 / 8 ≤ b ∧ b < v.bitAddr e.1 / 8 + w

/-- The byte that an element has at an address. -/
def View.byteOf (v : View) (e : ElemOut) (b : Nat) : Byte :=
  BitVec.ofNat 8 (e.2 % 2 ^ v.desc.elemBits / 256 ^ (b - v.bitAddr e.1 / 8))

/-- Elements of `w` whole bytes, no byte of two, each byte where its tile may write. -/
structure Plain (s : State) (c : Ctx) (v : View) (w : Nat) (es : List ElemOut) : Prop where
  width : v.desc.elemBits = 8 * w
  narrow : v.desc.elemBits ≤ 64
  whole : ∀ ix, v.bitAddr ix % 8 = 0
  target : ∀ e ∈ es, ∀ b, v.hits w e b → s.plainTarget c.t b
  only : ∀ e ∈ es, ∀ x ∈ es, ∀ b, v.hits w e b → v.hits w x b → x = e

/-- A state in the course of a move: memory is sound, and no target is poisoned. -/
structure Mid (u : State) (v : View) (w : Nat) (es : List ElemOut) : Prop where
  wcb : u.wcbOk = true
  mem : Memory.wf u.mem = true
  sound : ∀ e ∈ es, ∀ b, v.hits w e b → u.poisoned b = false

theorem View.extent_whole {v : View} {w : Nat} (width : v.desc.elemBits = 8 * w) {ix : List Nat} (whole : v.bitAddr ix % 8 = 0) :
    v.extent ix = (v.bitAddr ix / 8, w) := by
  unfold View.extent
  dsimp only
  rw [width, whole, ceilDiv]
  exact congrArg _ (by omega)

/-- Elements of a byte or more begin on a byte. -/
theorem View.bitAddr_whole {v : View} (wide : 8 ≤ v.desc.elemBits) (ix : List Nat) : v.bitAddr ix % 8 = 0 := by
  unfold View.bitAddr Desc.offsetBits
  split
  · dsimp only
    omega
  · rw [if_neg (by omega)]
    omega

/-- One line of a move written. -/
def Ctx.putLine (c : Ctx) (v : View) (es : List ElemOut) (acc : State × Option Drop) (l : Nat) : State × Option Drop :=
  State.dmaLine c l (acc.1.lineWrite v l es).1 (acc.1.lineWrite v l es).2 acc

section
variable {s : State} {c : Ctx} {v : View} {w : Nat} {es : List ElemOut} (plain : Plain s c v w es)
include plain

/-- A line that holds a target is accepted by its controller, and no byte is dropped. -/
theorem Plain.putLine_eq {sub : List ElemOut} {acc : State × Option Drop} {l : Nat} (holds : ∃ e ∈ es, ∃ b, v.hits w e b ∧ lineOf b = l) :
    c.putLine v sub acc l = (acc.1.acceptLine l (acc.1.lineWrite v l sub).1 (acc.1.lineWrite v l sub).2, acc.2) := by
  obtain ⟨e, he, b, hits, rfl⟩ := holds
  unfold Ctx.putLine State.dmaLine
  split
  next t off place => exact if_pos (State.plainTarget_line (plain.target e he b hits) place)
  next => rfl

theorem Plain.putLine_mid {sub : List ElemOut} {acc : State × Option Drop} {l : Nat} (holds : ∃ e ∈ es, ∃ b, v.hits w e b ∧ lineOf b = l)
    (mid : Mid acc.1 v w es) : Mid (c.putLine v sub acc l).1 v w es ∧ (c.putLine v sub acc l).2 = acc.2 := by
  rw [plain.putLine_eq holds]
  obtain ⟨e, he, b, hits, rfl⟩ := holds
  obtain ⟨wcb, mem⟩ := State.acceptLine_ok (data := (acc.1.lineWrite v (lineOf b) sub).2) (show lineOf b % 64 = 0 by unfold lineOf; omega)
    (acc.1.lineWrite_shape v (lineOf b) sub).1 mid.wcb mid.mem
  exact ⟨⟨wcb, mem, fun x hx y hy => State.acceptLine_poison y (mid.sound x hx y hy)⟩, rfl⟩

/-- A target after one line of some elements: the byte of its element where the line holds it and the element is among them. -/
theorem Plain.putLine_read {sub : List ElemOut} (within : ∀ e ∈ sub, e ∈ es) {acc : State × Option Drop} {l : Nat}
    (holds : ∃ e ∈ es, ∃ b, v.hits w e b ∧ lineOf b = l) (mid : Mid acc.1 v w es) {e : ElemOut} (he : e ∈ es) {b : Nat} (hits : v.hits w e b) :
    (lineOf b = l → e ∈ sub → (c.putLine v sub acc l).1.readByte b = v.byteOf e b) ∧
    (lineOf b ≠ l ∨ e ∉ sub → (c.putLine v sub acc l).1.readByte b = acc.1.readByte b) := by
  rw [plain.putLine_eq holds]
  obtain ⟨x, hx, y, hitsx, rfl⟩ := holds
  have mapped : home (lineOf y) ≠ .unmapped := fun h => State.plainTarget_mapped (plain.target x hx y hitsx) ((unmapped_line y).1 h)
  obtain ⟨small, length⟩ := acc.1.lineWrite_shape v (lineOf y) sub
  dsimp only
  rw [State.acceptLine_read mid.wcb mid.mem (show lineOf y % 64 = 0 by unfold lineOf; omega) mapped length small b (.inr (mid.sound e he b hits))]
  have inside : b % 64 < 64 := Nat.mod_lt _ (by decide)
  obtain ⟨misses, hit⟩ := State.lineWrite_byte (s := acc.1) plain.width plain.narrow plain.whole (lineOf y) sub inside
  refine ⟨fun here mem => ?_, fun other => ?_⟩
  · have place : lineOf y + b % 64 = b := by rw [← here]; unfold lineOf; omega
    rw [place] at hit
    obtain ⟨marked, byte⟩ := hit e mem hits fun z hz hz' => plain.only e he z (within z hz) b hits hz'
    rw [if_pos ⟨here, marked⟩, byte]
    rfl
  · refine if_neg ?_
    rintro ⟨here, marked⟩
    have place : lineOf y + b % 64 = b := by rw [← here]; unfold lineOf; omega
    rw [place] at misses
    rw [misses fun z hz hz' => (other.resolve_left (fun n => n here)) (plain.only e he z (within z hz) b hits hz' ▸ hz)] at marked
    cases marked

/-- Lines of some elements written one after another. -/
theorem Plain.putLines {sub : List ElemOut} (within : ∀ e ∈ sub, e ∈ es) (ls : List Nat) (holds : ∀ l ∈ ls, ∃ e ∈ es, ∃ b, v.hits w e b ∧ lineOf b = l)
    {acc : State × Option Drop} (mid : Mid acc.1 v w es) :
    Mid (ls.foldl (c.putLine v sub) acc).1 v w es ∧ (ls.foldl (c.putLine v sub) acc).2 = acc.2 ∧
    ∀ e ∈ es, ∀ b, v.hits w e b →
      (lineOf b ∈ ls → e ∈ sub → (ls.foldl (c.putLine v sub) acc).1.readByte b = v.byteOf e b) ∧
      (lineOf b ∉ ls ∨ e ∉ sub → (ls.foldl (c.putLine v sub) acc).1.readByte b = acc.1.readByte b) := by
  induction ls generalizing acc with
  | nil => exact ⟨mid, rfl, fun e _ b _ => ⟨fun h => absurd h List.not_mem_nil, fun _ => rfl⟩⟩
  | cons l ls ih =>
    have first := holds l List.mem_cons_self
    obtain ⟨mid', drop⟩ := plain.putLine_mid (sub := sub) first mid
    obtain ⟨last, drops, reads⟩ := ih (fun x hx => holds x (List.mem_cons_of_mem _ hx)) mid'
    refine ⟨last, drops.trans drop, fun e he b hits => ?_⟩
    obtain ⟨written, kept⟩ := plain.putLine_read within first mid he hits
    obtain ⟨writtens, kepts⟩ := reads e he b hits
    refine ⟨fun mem among => ?_, fun other => ?_⟩
    · by_cases later : lineOf b ∈ ls
      · exact writtens later among
      · exact (kepts (.inl later)).trans (written ((List.mem_cons.1 mem).resolve_right later) among)
    · refine (kepts ?_).trans (kept ?_)
      · exact other.imp_left fun n h => n (List.mem_cons_of_mem _ h)
      · exact other.imp_left fun n h => n (h ▸ List.mem_cons_self)

/-- Elements written one after another, each by its lines. -/
theorem Plain.putElems (sub : List ElemOut) (within : ∀ e ∈ sub, e ∈ es) {acc : State × Option Drop} (mid : Mid acc.1 v w es) :
    let r := sub.foldl (fun acc e => (linesOf (v.bitAddr e.1 / 8) w).foldl (c.putLine v [e]) acc) acc
    Mid r.1 v w es ∧ r.2 = acc.2 ∧ ∀ e ∈ es, ∀ b, v.hits w e b →
      (e ∈ sub → r.1.readByte b = v.byteOf e b) ∧ (e ∉ sub → r.1.readByte b = acc.1.readByte b) := by
  induction sub generalizing acc with
  | nil => exact ⟨mid, rfl, fun e _ b _ => ⟨fun h => absurd h List.not_mem_nil, fun _ => rfl⟩⟩
  | cons x sub ih =>
    have hx := within x List.mem_cons_self
    have lines : ∀ l ∈ linesOf (v.bitAddr x.1 / 8) w, ∃ e ∈ es, ∃ b, v.hits w e b ∧ lineOf b = l := by
      intro l hl
      obtain ⟨-, i, hi, here⟩ := linesOf_facts hl
      exact ⟨x, hx, v.bitAddr x.1 / 8 + i, ⟨by omega, by omega⟩, here⟩
    obtain ⟨mid', drop, read⟩ := plain.putLines (sub := [x]) (fun e he => by rw [List.mem_singleton.1 he]; exact hx) _ lines mid
    obtain ⟨last, drops, reads⟩ := ih (fun e he => within e (List.mem_cons_of_mem _ he)) mid'
    refine ⟨last, drops.trans drop, fun e he b hits => ?_⟩
    obtain ⟨written, kept⟩ := read e he b hits
    obtain ⟨writtens, kepts⟩ := reads e he b hits
    refine ⟨fun mem => ?_, fun other => ?_⟩
    · by_cases later : e ∈ sub
      · exact writtens later
      · obtain rfl := (List.mem_cons.1 mem).resolve_right later
        exact (kepts later).trans (written (linesOf_mem hits.1 hits.2) (List.mem_singleton_self e))
    · refine (kepts fun h => other (List.mem_cons_of_mem _ h)).trans (kept (.inr fun h => other ?_))
      rw [List.mem_singleton.1 h]
      exact List.mem_cons_self

theorem Plain.extent (ix : List Nat) : v.extent ix = (v.bitAddr ix / 8, w) := View.extent_whole plain.width (plain.whole ix)

/-- The elements of a move, written: every target then reads as its element's byte. -/
theorem Plain.dmaWrite {acc : State × Option Drop} (mid : Mid acc.1 v w es) :
    Mid (State.dmaWrite c v es acc).1 v w es ∧ (State.dmaWrite c v es acc).2 = acc.2 ∧
      ∀ e ∈ es, ∀ b, v.hits w e b → (State.dmaWrite c v es acc).1.readByte b = v.byteOf e b := by
  have extents : es.map (fun e => v.extent e.1) = es.map (fun e => (v.bitAddr e.1 / 8, w)) := List.map_congr_left fun e _ => plain.extent e.1
  by_cases lined : c.w.family = Fam.load ∨ c.w.family = Fam.store
  · have e : State.dmaWrite c v es acc = (lineSet (es.map (fun e => (v.bitAddr e.1 / 8, w)))).foldl (c.putLine v es) acc := by
      unfold State.dmaWrite
      dsimp only
      rw [if_pos lined, extents]
      rfl
    have lines : ∀ l ∈ lineSet (es.map (fun e => (v.bitAddr e.1 / 8, w))), ∃ e ∈ es, ∃ b, v.hits w e b ∧ lineOf b = l := by
      intro l hl
      obtain ⟨p, hp, hl⟩ := mem_lineSet.1 hl
      obtain ⟨x, hx, rfl⟩ := List.mem_map.1 hp
      obtain ⟨-, i, hi, here⟩ := linesOf_facts hl
      exact ⟨x, hx, v.bitAddr x.1 / 8 + i, ⟨by omega, by dsimp only at hi; omega⟩, here⟩
    obtain ⟨last, drop, reads⟩ := plain.putLines (sub := es) (fun _ h => h) _ lines mid
    rw [e]
    refine ⟨last, drop, fun x hx b hits => (reads x hx b hits).1 ?_ hx⟩
    exact mem_lineSet.2 ⟨_, List.mem_map_of_mem hx, linesOf_mem hits.1 hits.2⟩
  · have e : State.dmaWrite c v es acc = es.foldl (fun acc e => (linesOf (v.bitAddr e.1 / 8) w).foldl (c.putLine v [e]) acc) acc := by
      unfold State.dmaWrite
      dsimp only
      rw [if_neg lined]
      refine congrArg (fun f => es.foldl f acc) (funext fun acc => funext fun e => ?_)
      rw [plain.extent]
      rfl
    obtain ⟨last, drop, reads⟩ := plain.putElems es (fun _ h => h) mid
    rw [e]
    exact ⟨last, drop, fun x hx b hits => (reads x hx b hits).1 hx⟩

end

/-! ## The command -/

theorem exec_dmaOp {t seq : Nat} {e : Nat × Instr} (he : e ∈ [(19, Instr.load t seq), (20, .store t seq), (21, .gather t seq), (22, .scatter t seq)])
    {s : State} {c : Ctx} (ready : s.readyCtx t seq (fun w => w.family == e.1) = some c) :
    exec e.2 s = .next (if s.dmaReady c && s.dmaOpen c then s.guarded c (State.dma c) else s) := by
  have op : exec e.2 s = s.dmaOp t seq e.1 := by
    simp only [List.mem_cons, List.not_mem_nil, or_false] at he
    obtain rfl | rfl | rfl | rfl := he <;> rfl
  rw [op, State.dmaOp, State.withReady_some _ ready]

/-- The outputs' records and, for the flags given, the elements that a transfer reads. -/
def State.dmaReads (s : State) (c : Ctx) (src dst : View) (outs : List BatchOut) : List (Nat × Nat) :=
  c.indexExtents ++ ((s.moves c).filter (fun m => flagsAt dst.desc outs m.1 == 0)).filterMap (fun m => m.2.map src.extent)

def recordReads (src : View) (outs : List BatchOut) : List (Nat × Nat) :=
  if src.desc.recorded then outs.map (fun o => (src.recordRead o.b, 64)) else []

/-- The elements that a transfer writes. -/
def State.dmaElems (s : State) (c : Ctx) (src dst : View) (outs : List BatchOut) : List ElemOut :=
  (if (c.w.family == Fam.scatter) = true then scatterZeros dst outs else []) ++
    s.movedValues src dst outs (if (c.w.family == Fam.scatter) = true then (s.moves c).filter (fun m => flagsAt dst.desc outs m.1 == 0) else s.moves c)

/-- The data and records of a transfer written, drops and poison noted. -/
def State.dmaData (s : State) (c : Ctx) (src dst : View) (outs : List BatchOut) : State :=
  let vals := s.dmaElems c src dst outs
  let r := State.dmaWrite c dst vals (s.countDma c src (s.moves c), none)
  let r := if dst.desc.recorded then outs.foldl (fun r o => State.dmaRecord c dst o r) r else r
  ((r.1.noteDrop c r.2).clearGranules c.t (coveredGranules c.t (vals.map (fun e => dst.extent e.1)))).keepPoison c (orFlags (outs.map (·.newFlags)))

/-- A transfer's queue and its macro-operation done. -/
def State.dmaEnd (c : Ctx) (n : Nat) (s : State) : State :=
  let s := s.mapStream c.t c.w.queue (fun q => if q.seq = c.mop.seq then { q with pos := n, issues := [] } else q)
  let s := if c.w.chain = 1 ∧ c.mop.unitAfter.isNone then
      s.unitDone c (max (c.mop.start.getD 0 + s.firstGranule c) (s.tile c.t).cycle) else s
  s.markDone c

theorem State.dma_eq {s m : State} {c : Ctx} {src dst : View} (source : c.view 0 = some src) (dest : c.view 2 = some dst)
    (pairs : s.movePairs c src dst = m) :
    (∀ u, m.dmaStop c (recordReads src (m.copyOuts c src dst)) (m.dmaReads c src dst (m.copyOuts c src dst)) = some u → s.dma c = u) ∧
    (m.dmaStop c (recordReads src (m.copyOuts c src dst)) (m.dmaReads c src dst (m.copyOuts c src dst)) = none →
      s.dma c = (m.dmaData c src dst (m.copyOuts c src dst)).dmaEnd c (m.requests c).length) := by
  subst pairs
  have both : s.dma c =
      match (s.movePairs c src dst).dmaStop c (recordReads src ((s.movePairs c src dst).copyOuts c src dst))
        ((s.movePairs c src dst).dmaReads c src dst ((s.movePairs c src dst).copyOuts c src dst)) with
      | some stopped => stopped
      | none => ((s.movePairs c src dst).dmaData c src dst ((s.movePairs c src dst).copyOuts c src dst)).dmaEnd c
          ((s.movePairs c src dst).requests c).length := by
    rw [State.dma, source, dest]
    rfl
  exact ⟨fun u stop => by rw [both, stop], fun none => by rw [both, none]⟩

/-! ### What stops it -/

theorem State.remoteRead_mop (s : State) (x off n t seq : Nat) :
    (s.remoteRead x off n).1.mopOf t seq = s.mopOf t seq ∧ (s.remoteRead x off n).1.mem = s.mem := by
  have : MayTele [Part.tele, .tMarks].contains := ⟨rfl⟩
  have : MayTMarks [Part.tele, .tMarks].contains := ⟨rfl⟩
  have evolves := (Evolves.refl [Part.tele, .tMarks].contains s).remoteRead (target := x) (off := off) (n := n)
  exact ⟨State.mopOf_of_sequencer (evolves.kept .tWindow rfl) .., evolves.kept .mem rfl⟩

theorem State.stopMop_found {s : State} {c : Ctx} {m : Mop} (mop : s.mopOf c.t c.mop.seq = some m) (cause : AbortCause) :
    ((s.stopMop c cause).mopOf c.t c.mop.seq).map (·.stop) = some (some cause) ∧ (s.stopMop c cause).mem = s.mem := by
  rw [State.stopMop, State.mopOf_mapMop (fun m => { m with stop := some cause }) (fun _ => rfl) mop]
  exact ⟨rfl, rfl⟩

/-- The transfer has stopped with a cause, nothing written. -/
def State.StoppedBy (m u : State) (c : Ctx) (cause : AbortCause) : Prop :=
  (u.mopOf c.t c.mop.seq).map (·.stop) = some (some cause) ∧ u.mem = m.mem

theorem State.remoteStop {m : State} {c : Ctx} {x : Mop} (mop : m.mopOf c.t c.mop.seq = some x) (p : Nat × Nat × Nat) :
    m.StoppedBy ((m.remoteRead p.1 p.2.1 p.2.2).1.stopMop c .remote) c .remote := by
  obtain ⟨same, mem⟩ := m.remoteRead_mop p.1 p.2.1 p.2.2 c.t c.mop.seq
  obtain ⟨stop, kept⟩ := State.stopMop_found (s := (m.remoteRead p.1 p.2.1 p.2.2).1) (same.trans mop) .remote
  exact ⟨stop, kept.trans mem⟩

theorem State.dmaStop_cases {m : State} {c : Ctx} {x : Mop} (mop : m.mopOf c.t c.mop.seq = some x) (records reads : List (Nat × Nat)) :
    ((m.badRemote c.t records).isSome = true → ∃ u, m.dmaStop c records reads = some u ∧ m.StoppedBy u c .remote) ∧
    (m.badRemote c.t records = none → ∀ a, m.badLine reads = some a → ∃ u, m.dmaStop c records reads = some u ∧ m.StoppedBy u c (.memLine a)) ∧
    (m.badRemote c.t records = none → m.badLine reads = none → (m.badRemote c.t reads).isSome = true →
      ∃ u, m.dmaStop c records reads = some u ∧ m.StoppedBy u c .remote) ∧
    (m.badRemote c.t records = none → m.badLine reads = none → m.badRemote c.t reads = none → m.dmaStop c records reads = none) := by
  refine ⟨fun bad => ?_, fun none a bad => ?_, fun none sound bad => ?_, fun none sound clean => ?_⟩
  · obtain ⟨p, found⟩ := Option.isSome_iff_exists.1 bad
    exact ⟨_, by rw [State.dmaStop, found], State.remoteStop mop p⟩
  · exact ⟨_, by rw [State.dmaStop, none]; dsimp only; rw [bad], State.stopMop_found mop _⟩
  · obtain ⟨p, found⟩ := Option.isSome_iff_exists.1 bad
    exact ⟨_, by rw [State.dmaStop, none]; dsimp only; rw [sound]; dsimp only; rw [found], State.remoteStop mop p⟩
  · rw [State.dmaStop, none]
    dsimp only
    rw [sound]
    dsimp only
    rw [clean]

/-! ### What takes effect -/

theorem State.countDma_facts (s : State) (c : Ctx) (src : View) (ms : List Move) : (s.countDma c src ms).mopOf c.t c.mop.seq = s.mopOf c.t c.mop.seq ∧
    (s.countDma c src ms).mem = s.mem ∧ (s.countDma c src ms).hbm = s.hbm ∧ (s.countDma c src ms).linePoison = s.linePoison := by
  have : MayTele [Part.tele, .tWindow].contains := ⟨rfl⟩
  have : MayTWindow [Part.tele, .tWindow].contains := ⟨rfl⟩
  have evolves := (Evolves.refl [Part.tele, .tWindow].contains s).countDma (c := c) (src := src) (ms := ms)
  refine ⟨?_, evolves.kept .mem rfl, evolves.kept .hbm rfl, evolves.kept .linePoison rfl⟩
  unfold State.countDma
  dsimp only
  rw [State.drawTokens, State.count_mopOf, State.mopOf_mapTile _ _ _ _ _ rfl]
  simp only [State.count_mopOf]

/-- A macro-operation stands in the window. -/
def State.holds (s : State) (c : Ctx) : Prop := ∃ m, s.mopOf c.t c.mop.seq = some m

theorem State.holds_of_same {s u : State} {c : Ctx} (h : u.mopOf c.t c.mop.seq = s.mopOf c.t c.mop.seq) (holds : s.holds c) : u.holds c := by
  obtain ⟨m, mop⟩ := holds
  exact ⟨m, h.trans mop⟩

theorem State.holds_mapMop {s : State} {c : Ctx} (holds : s.holds c) (f : Mop → Mop) (hf : ∀ m, (f m).seq = m.seq) :
    (s.mapMop c.t c.mop.seq f).holds c := by
  obtain ⟨m, mop⟩ := holds
  exact ⟨f m, State.mopOf_mapMop f hf mop⟩

theorem State.dmaData_holds {s : State} {c : Ctx} (holds : s.holds c) (src dst : View) (outs : List BatchOut) :
    (s.dmaData c src dst outs).holds c := by
  have : Stores (Part.jobs :: Part.stored).contains := stores_of rfl
  have : MayJobs (Part.jobs :: Part.stored).contains := ⟨rfl⟩
  have writes (F : Part → Bool) (h : F .tWindow = false) {u v : State} (e : Evolves F u v) (holds : u.holds c) : v.holds c :=
    State.holds_of_same (State.mopOf_of_sequencer (e.kept .tWindow h) ..) holds
  unfold State.dmaData
  extract_lets vals r r'
  have counted : (s.countDma c src (s.moves c)).holds c := State.holds_of_same (s.countDma_facts c src (s.moves c)).1 holds
  have written : r.1.holds c := writes (Part.jobs :: Part.stored).contains rfl
    (Evolves.dmaWrite (acc := (s.countDma c src (s.moves c), none)) (Evolves.refl _ _)) counted
  clear_value r
  have recorded : r'.1.holds c := by
    unfold r'
    split
    · clear r'
      induction outs generalizing r with
      | nil => exact written
      | cons o outs ih => exact ih _ (writes (Part.jobs :: Part.stored).contains rfl (Evolves.dmaRecord (acc := r) (Evolves.refl _ _)) written)
    · exact written
  clear_value r'
  have noted : (r'.1.noteDrop c r'.2).holds c := by
    unfold State.noteDrop
    split
    · exact recorded
    · refine State.holds_mapMop ?_ _ fun _ => rfl
      exact State.holds_of_same (State.mopOf_mapTile _ _ _ _ _ rfl) recorded
  have cleared := State.holds_of_same (u := (r'.1.noteDrop c r'.2).clearGranules c.t (coveredGranules c.t (vals.map (fun e => dst.extent e.1))))
    (State.mopOf_mapTile _ _ _ _ _ rfl) noted
  unfold State.keepPoison
  split
  · exact cleared
  · exact State.holds_mapMop cleared _ fun _ => rfl

theorem State.mapStream_holds {s : State} {c : Ctx} (holds : s.holds c) (t k : Nat) (f : StreamQueue → StreamQueue) : (s.mapStream t k f).holds c := by
  have : Stores (Part.tStreams :: Part.stored).contains := stores_of rfl
  have : MayTStreams (Part.tStreams :: Part.stored).contains := ⟨rfl⟩
  exact State.holds_of_same (State.mopOf_of_sequencer ((Evolves.refl (Part.tStreams :: Part.stored).contains s).mapStream.kept .tWindow rfl) ..) holds

theorem State.dmaEnd_done {s : State} {c : Ctx} (holds : s.holds c) (n : Nat) : ((s.dmaEnd c n).mopOf c.t c.mop.seq).map (·.done) = some true := by
  unfold State.dmaEnd
  extract_lets u w
  have streamed : u.holds c := State.mapStream_holds holds ..
  clear_value u
  have unit : w.holds c := by
    unfold w
    split
    · obtain ⟨m, mop⟩ := streamed
      obtain ⟨x, after⟩ := State.unitDone_hasMop c _ (State.hasMop_of_mopOf mop)
      exact ⟨_, after⟩
    · exact streamed
  clear_value w
  obtain ⟨m, mop⟩ := unit
  obtain ⟨x, after⟩ := State.markDone_hasMop mop
  rw [after]
  rfl

/-! ### What is read back -/

/-- A byte in sound memory, outside every poisoned line. -/
structure OwnByte (s : State) (b : Nat) : Prop where
  wcb : s.wcbOk = true
  mem : Memory.wf s.mem = true
  line : s.poisoned b = false

theorem Tile.statusAddr {t k i : Nat} (ht : t < 208) (hk : k < 8) (hi : i < 32) :
    home (scratchAddr t (0x5FE080 + 32 * k) + i) = .scratch t (0x5FE080 + 32 * k + i) := by
  have at_b : scratchAddr t (0x5FE080 + 32 * k) + i = scratchAddr t (0x5FE080 + 32 * k + i) := by unfold scratchAddr; omega
  obtain ⟨x, o, place⟩ := atScratch_scratchAddr (o := 0x5FE080 + 32 * k + i) ht (by omega)
  obtain ⟨hx, same⟩ := home_scratch_addr place
  obtain ⟨lo, hi, mod⟩ := atScratch.bounds ⟨x, o, place⟩
  rw [at_b, atScratch_of_bounds lo hi mod]
  unfold scratchAddr
  rw [Home.scratch.injEq]
  omega

/-- A stream queue's status word reaches no byte that a tile may write as plain memory. -/
theorem State.mapStream_read {s : State} {t k b : Nat} (ht : t < 208) (hk : k < 8) (f : StreamQueue → StreamQueue) (sound : OwnByte s b)
    (below : ∀ x o, home b = .scratch x o → o < controlPage) : (s.mapStream t k f).readByte b = s.readByte b := by
  unfold State.mapStream
  dsimp only
  generalize hu : s.mapTile t (fun u => { u with streams := Tab.put u.streams k (f (u.stream k)) }) = u
  have mem : u.mem = s.mem := by rw [← hu]; rfl
  have hbm : u.hbm = s.hbm := by rw [← hu]; rfl
  have lines : u.linePoison = s.linePoison := by rw [← hu]; rfl
  have length : ((u.tile t).stream k).bytes.length = 32 := by simp [StreamQueue.bytes, leBytes_length]
  have place {i : Nat} (hi : i < 32) := Tile.statusAddr ht hk hi
  rw [(State.store_read (by rw [State.wcbOk, hbm]; exact sound.wcb) (by rw [mem]; exact sound.mem)
    (fun i hi gone => by rw [length] at hi; rw [place hi] at gone; cases gone) b
    (by rw [State.poisoned, lines]; exact sound.line)).2, length, if_neg, State.readByte_of_same mem hbm]
  rintro ⟨lo, hi⟩
  have off : _ < 0x5FC000 := below t (0x5FE080 + 32 * k + (b - scratchAddr t (0x5FE080 + 32 * k)))
    (by rw [← place (i := b - scratchAddr t (0x5FE080 + 32 * k)) (by omega)]; exact congrArg home (by omega))
  omega

theorem State.dmaEnd_read {s : State} {c : Ctx} {b : Nat} (inside : c.t < 208) (n : Nat) (sound : OwnByte s b)
    (below : ∀ x o, home b = .scratch x o → o < controlPage) : (s.dmaEnd c n).readByte b = s.readByte b := by
  have : MayTWindow [Part.tWindow].contains := ⟨rfl⟩
  unfold State.dmaEnd
  extract_lets u w
  have streamed : u.readByte b = s.readByte b := State.mapStream_read inside c.w.queue_lt _ sound below
  have evolves : Evolves [Part.tWindow].contains u (w.markDone c) := by
    refine Evolves.markDone ?_
    unfold w
    exact Evolves.ite (Evolves.refl _ u).unitDone (Evolves.refl _ u)
  exact (State.readByte_of_same (evolves.kept .mem rfl) (evolves.kept .hbm rfl) b).trans streamed

/-- The element that a move writes. -/
def State.moveElem (s : State) (src : View) (m : Move) : ElemOut := (m.1, match m.2 with | some i => s.readElem src i | none => 0)

section
variable {s : State} {c : Ctx} {src dst : View} (untyped : dst.desc.recorded = false) (unmarked : c.plainMarks = 0)
include untyped unmarked

theorem State.copyOuts_plain : s.copyOuts c src dst = [{ b := 0, newFlags := 0, flags := 0, record := Rec.zero, data := [] }] := by
  rw [State.copyOuts, untyped, unmarked]
  rfl

theorem State.flagsAt_plain (ix : List Nat) : flagsAt dst.desc (s.copyOuts c src dst) ix = 0 := by
  rw [State.copyOuts_plain untyped unmarked, flagsAt, untyped]
  rfl

theorem State.dmaElems_plain : s.dmaElems c src dst (s.copyOuts c src dst) = (s.moves c).map (s.moveElem src) := by
  have flagged := State.flagsAt_plain (s := s) (src := src) untyped unmarked
  have zeros : scatterZeros dst (s.copyOuts c src dst) = [] := by
    rw [State.copyOuts_plain untyped unmarked]
    rfl
  have kept : (s.moves c).filter (fun m => flagsAt dst.desc (s.copyOuts c src dst) m.1 == 0) = s.moves c :=
    List.filter_eq_self.2 fun m _ => by rw [flagged]; rfl
  rw [State.dmaElems, zeros, kept, ite_self, ite_self, List.nil_append, State.movedValues]
  refine List.map_congr_left fun m _ => ?_
  rw [if_pos (flagged m.1)]
  rfl

theorem State.dmaData_plain : s.dmaData c src dst (s.copyOuts c src dst) =
    let r := State.dmaWrite c dst ((s.moves c).map (s.moveElem src)) (s.countDma c src (s.moves c), none)
    (r.1.noteDrop c r.2).clearGranules c.t (coveredGranules c.t (((s.moves c).map (s.moveElem src)).map (fun e => dst.extent e.1))) := by
  unfold State.dmaData
  dsimp only
  rw [State.dmaElems_plain untyped unmarked, State.copyOuts_plain untyped unmarked, if_neg (by simp [untyped])]
  rfl

end

/-- What the statement asks of a move between plain operands. -/
structure PlainMove (s : State) (c : Ctx) (src dst : View) : Prop where
  untyped : dst.desc.recorded = false
  unmarked : c.plainMarks = 0
  wcb : s.wcbOk = true
  mem : Memory.wf s.mem = true
  memory : dst.buf = none
  widths : dst.desc.elemBits ∈ [8, 16, 32, 64]
  once : ((s.moves c).map (·.1)).Nodup
  target : ∀ m ∈ s.moves c, ∀ i, i < (dst.extent m.1).2 → s.plainTarget c.t ((dst.extent m.1).1 + i)
  disjoint : ∀ m ∈ s.moves c, ∀ n ∈ s.moves c, m.1 ≠ n.1 → apart (dst.extent m.1) (dst.extent n.1)

section
variable {s : State} {c : Ctx} {src dst : View} (move : PlainMove s c src dst)
include move

theorem PlainMove.width : dst.desc.elemBits = 8 * (dst.desc.elemBits / 8) ∧ 8 ≤ dst.desc.elemBits ∧ dst.desc.elemBits ≤ 64 := by
  have := move.widths
  simp only [List.mem_cons, List.not_mem_nil, or_false] at this
  omega

theorem PlainMove.extent (ix : List Nat) : dst.extent ix = (dst.bitAddr ix / 8, dst.desc.elemBits / 8) :=
  View.extent_whole move.width.1 (View.bitAddr_whole move.width.2.1 ix)

theorem PlainMove.plain : Plain s c dst (dst.desc.elemBits / 8) ((s.moves c).map (s.moveElem src)) where
  width := move.width.1
  narrow := move.width.2.2
  whole := View.bitAddr_whole move.width.2.1
  target := by
    intro e he b hits
    obtain ⟨m, hm, rfl⟩ := List.mem_map.1 he
    obtain ⟨lo, hi⟩ := hits
    have here := move.target m hm (b - dst.bitAddr m.1 / 8)
    rw [move.extent] at here
    have := here (by dsimp only [State.moveElem] at lo hi ⊢; omega)
    rwa [show dst.bitAddr m.1 / 8 + (b - dst.bitAddr m.1 / 8) = b by dsimp only [State.moveElem] at lo; omega] at this
  only := by
    intro e he x hx b ⟨lo, hi⟩ ⟨lo', hi'⟩
    obtain ⟨m, hm, rfl⟩ := List.mem_map.1 he
    obtain ⟨n, hn, rfl⟩ := List.mem_map.1 hx
    by_cases same : m.1 = n.1
    · rw [List.inj_on_of_nodup_map move.once hm hn same]
    · have away := move.disjoint m hm n hn same
      rw [apart, move.extent, move.extent] at away
      dsimp only [State.moveElem] at lo hi lo' hi' away
      omega

theorem PlainMove.mid : Mid (s.countDma c src (s.moves c)) dst (dst.desc.elemBits / 8) ((s.moves c).map (s.moveElem src)) := by
  obtain ⟨-, mem, hbm, lines⟩ := s.countDma_facts c src (s.moves c)
  refine ⟨by rw [State.wcbOk, hbm]; exact move.wcb, by rw [mem]; exact move.mem, fun e he b hits => ?_⟩
  rw [State.poisoned, lines]
  exact (move.plain.target e he b hits).1

/-- Every byte of an element that was moved. -/
theorem PlainMove.readByte (inside : c.t < 208) (n : Nat) {m : Move} (hm : m ∈ s.moves c) {i : Nat} (hi : i < dst.desc.elemBits / 8) :
    ((s.dmaData c src dst (s.copyOuts c src dst)).dmaEnd c n).readByte (dst.bitAddr m.1 / 8 + i) =
      BitVec.ofNat 8 ((s.moveElem src m).2 % 2 ^ dst.desc.elemBits / 256 ^ i) := by
  obtain ⟨mid, dropped, reads⟩ := move.plain.dmaWrite (acc := (s.countDma c src (s.moves c), none)) move.mid
  have he := List.mem_map_of_mem (f := s.moveElem src) hm
  have hits : dst.hits (dst.desc.elemBits / 8) (s.moveElem src m) (dst.bitAddr m.1 / 8 + i) := by
    constructor <;> dsimp only [State.moveElem] <;> omega
  have data := State.dmaData_plain (s := s) (src := src) move.untyped move.unmarked
  dsimp only at data
  have read := reads _ he _ hits
  have sound : OwnByte _ (dst.bitAddr m.1 / 8 + i) := ⟨mid.wcb, mid.mem, mid.sound _ he _ hits⟩
  rw [dropped] at data
  clear dropped reads mid
  generalize (State.dmaWrite c dst ((s.moves c).map (s.moveElem src)) (s.countDma c src (s.moves c), none)).1 = u at data read sound
  rw [data]
  rw [State.dmaEnd_read inside n (s := (u.noteDrop c none).clearGranules c.t _) ⟨sound.wcb, sound.mem, sound.line⟩]
  · refine (State.readByte_of_same rfl rfl _).trans (read.trans ?_)
    rw [View.byteOf, show dst.bitAddr m.1 / 8 + i - dst.bitAddr (s.moveElem src m).1 / 8 = i from Nat.add_sub_cancel_left ..]
  · intro x o place
    have := (move.plain.target _ he _ hits).2
    rw [place] at this
    exact this.2

/-- An element that was moved holds its value. -/
theorem PlainMove.readElem (inside : c.t < 208) (n : Nat) {m : Move} (hm : m ∈ s.moves c) :
    ((s.dmaData c src dst (s.copyOuts c src dst)).dmaEnd c n).readElem dst m.1 = (s.moveElem src m).2 % 2 ^ dst.desc.elemBits := by
  have wide := move.width.1
  have bytes : ((s.dmaData c src dst (s.copyOuts c src dst)).dmaEnd c n).readRaw (dst.bitAddr m.1 / 8) (dst.desc.elemBits / 8) =
      leBytes (dst.desc.elemBits / 8) ((s.moveElem src m).2 % 2 ^ dst.desc.elemBits) := by
    refine List.ext_getElem (by simp [State.readRaw, leBytes_length]) fun i hi hi' => ?_
    have small : i < dst.desc.elemBits / 8 := by simpa [State.readRaw] using hi
    have byte := leBytes_getD _ ((s.moveElem src m).2 % 2 ^ dst.desc.elemBits) i small
    rw [List.getD_eq_getElem _ _ hi'] at byte
    rw [byte, ← move.readByte inside n hm small]
    simp [State.readRaw]
  rw [State.readElem, move.memory]
  dsimp only
  rw [if_neg (by have := move.width.2.1; omega), bytes, leNat_leBytes]
  refine Nat.mod_eq_of_lt ?_
  calc _ < 2 ^ dst.desc.elemBits := Nat.mod_lt _ (by positivity)
    _ = 256 ^ (dst.desc.elemBits / 8) := by rw [wide, pow_mul]; norm_num

end

/-! ### Complement pairs -/

/-- Where nothing is compared, or every pair agrees, no source is spoilt. -/
theorem State.movePairs_sound {s : State} {c : Ctx} {src dst : View}
    (h : c.job.mode.check = .word ∨ c.w.family ∈ [21, 22] ∨ ∀ r ∈ (c.w.movedRecords src dst).1, brokenRecord [0] (s.readRaw r.1 64) = none) :
    s.movePairs c src dst = s := by
  unfold State.movePairs
  split
  next => rfl
  next compared =>
    simp only [Bool.not_eq_true', decide_eq_false_iff_not, not_or] at compared
    obtain ⟨checks, lined⟩ := compared
    have sound := (h.resolve_left checks).resolve_left fun other => by
      refine lined ⟨fun e => ?_, fun e => ?_⟩
      · rw [e] at other
        exact absurd other (by decide)
      · rw [e] at other
        exact absurd other (by decide)
    revert sound
    generalize (c.w.movedRecords src dst).1 = l
    intro sound
    induction l with
    | nil => rfl
    | cons r l ih =>
      rw [List.foldl_cons, sound r List.mem_cons_self]
      exact ih fun x hx => sound x (List.mem_cons_of_mem _ hx)

theorem State.movePairs_mop (s : State) (c : Ctx) (src dst : View) (t seq : Nat) :
    (s.movePairs c src dst).mopOf t seq = s.mopOf t seq := by
  have : MayTele [Part.tele, .linePoison, .tMarks].contains := ⟨rfl⟩
  have : MayLinePoison [Part.tele, .linePoison, .tMarks].contains := ⟨rfl⟩
  have : MayTMarks [Part.tele, .linePoison, .tMarks].contains := ⟨rfl⟩
  exact State.mopOf_of_sequencer (((Evolves.refl [Part.tele, .linePoison, .tMarks].contains s).movePairs (c := c) (src := src) (dst := dst)).kept
    .tWindow rfl) ..

/-- Settles O49: what stops a transfer stops it before anything is written; what does not leaves every line of the destination with
the elements laid into it, no byte of two elements, and the status word of the queue lies beside them. -/
theorem dmaMovesData : Obligations.DmaMovesData := by
  unfold Obligations.DmaMovesData
  intro s t seq c src dst e he ready source dest
  obtain ⟨found, -, -, -, family⟩ := State.readyCtx_ctx ready
  obtain ⟨rfl, rfl, -, -, mop, -⟩ := State.ctx_facts found
  have runs := exec_dmaOp he ready
  have open_ (r : s.dmaReady c = true) (o : s.dmaOpen c = true) : exec e.2 s = .next (s.guarded c (State.dma c)) := by rw [runs, r, o]; rfl
  refine ⟨fun closed => ?_, fun r o w bad => ?_, fun r o sound => ?_⟩
  · rw [runs]
    rcases closed with h | h <;> simp [h]
  · rw [open_ r o, State.guarded_bad _ bad]
  · have run : exec e.2 s = .next (s.dma c) := by rw [open_ r o, State.guarded_sound _ sound]
    intro m outs records reads
    have held : m.mopOf c.t c.mop.seq = some c.mop := (State.movePairs_mop ..).trans mop
    have writes : m.holds c := ⟨_, held⟩
    obtain ⟨badRecord, badLine, badElem, clear⟩ := State.dmaStop_cases held records reads
    obtain ⟨stops, goes⟩ := State.dma_eq (m := m) source dest rfl
    have stopped {cause : AbortCause} (h : ∃ u, m.dmaStop c records reads = some u ∧ m.StoppedBy u c cause) :
        ∃ u, exec e.2 s = .next u ∧ m.StoppedBy u c cause := by
      obtain ⟨u, stop, by_⟩ := h
      exact ⟨u, run.trans (congrArg _ (stops u stop)), by_⟩
    refine ⟨fun h => ?_, fun bad => stopped (badRecord bad), fun clean a bad => stopped (badLine clean a bad),
      fun clean lines bad => stopped (badElem clean lines bad), fun clean lines elems => ?_⟩
    · refine State.movePairs_sound (h.imp_right (Or.imp_left fun other => ?_))
      rwa [show c.w.family = e.1 by simpa using family]
    · refine ⟨_, run.trans (congrArg _ (goes (clear clean lines elems))), State.dmaEnd_done (State.dmaData_holds writes ..) _, ?_⟩
      intro bare untyped unmarked wcb mem memory widths once target disjoint x hx
      have same : m = s := State.movePairs_sound (.inr (.inr fun r hr => by
        rw [MopWord.movedRecords, bare] at hr
        cases hr))
      rw [same]
      exact PlainMove.readElem ⟨untyped, unmarked, wcb, mem, memory, widths, once, target, disjoint⟩ (State.tile_lt_of_mopOf mop) _ hx

end Sys2Proof.Machine
end

section
/-!
PROOFS. O47, refuted: RANGE is bit 4 of a record's flags (Table CT.10), where the statement asks for bit 0, EXHAUSTED.
-/
namespace Sys2Proof.Machine
open Sys2Proof.Tests

/-- A run of a KSW on tiles 0 and 1 whose members have their key words and a verdict without flags. -/
def pairRun : GroupRun := group 7 160 0 (some { verdict with flags := 0 }) true

/-- An RLWE record of 2 components. -/
def pairRecord : Rec := { Rec.zero with domain := Dom.rlwe, comps := 2 }

/-- KSW of kind RELIN, which takes 3 components, on a ciphertext of 2: its descriptor and its record agree. -/
def relinOfPair : State :=
  let s := grouped 7 1 pairRun
  let rows : Desc := { words 0 4 with recorded := true, recordOffset := 0x100 }
  let rows := { rows with dims := rows.dims ++ [{ extent := 2, stride := 16, role := Role.comp, axis := 0, parts := 1, block := 0 }] }
  { s with
    jobs := s.jobs.map (fun j => { j with image := { j.image with psetRef := 1 }, descs := j.descs.set 0 rows }),
    mem := Memory.putAll s.mem (scratchAddr 0 0x100) (pairRecord.bytes 0 (List.replicate 28 0)) }

/-- The record passes every check on input, and the output's one new flag is RANGE. -/
theorem relinOfPair_flags : (relinOfPair.memberCtx pairRun (pairRun.setLeader 0)).any (fun c => (c.view 0).any fun _ => (c.view 2).any fun _ =>
    (pairRun.member c.t).bind (·.verdict) == some { verdict with flags := 0 } && (relinOfPair.kswSet pairRun 0 pset0).any fun o =>
      o.newFlags == Flag.range && (reference ((relinOfPair.inputs c o.b).map (·.2))).any fun ref =>
        ref.newFlags == 0 && !ref.outside && ref.r.comps != kswComps c.w.kswKind pset0.n) = true := by decide +kernel

/-- Refutes O47: a KSW of kind RELIN on a record of 2 components raises RANGE, 16; the statement's clause on COMPONENTS wants the bit
of EXHAUSTED, 1. -/
theorem not_groupCommandsActTogether : ¬ Obligations.GroupCommandsActTogether := by
  unfold Obligations.GroupCommandsActTogether
  rintro ⟨-, sets, -⟩
  obtain ⟨c, member, hyps⟩ := (Option.any_eq_true _ _).1 relinOfPair_flags
  obtain ⟨src, source, hyps⟩ := (Option.any_eq_true _ _).1 hyps
  obtain ⟨dst, target, hyps⟩ := (Option.any_eq_true _ _).1 hyps
  simp only [Bool.and_eq_true, beq_iff_eq] at hyps
  obtain ⟨judged, outputs⟩ := hyps
  obtain ⟨o, among, hyps⟩ := List.any_eq_true.1 outputs
  simp only [Bool.and_eq_true, beq_iff_eq] at hyps
  obtain ⟨range, hyps⟩ := hyps
  obtain ⟨ref, first, hyps⟩ := (Option.any_eq_true _ _).1 hyps
  simp only [Bool.and_eq_true, beq_iff_eq, Bool.not_eq_true', bne_iff_ne, ne_eq] at hyps
  obtain ⟨⟨-, inside⟩, comps⟩ := hyps
  obtain ⟨-, outs⟩ := sets relinOfPair pairRun 0 pset0 c src dst { verdict with flags := 0 } member source target fun _ => judged
  obtain ⟨-, -, -, -, -, -, rules⟩ := outs o among
  obtain ⟨raised, -⟩ := rules ref first
  have bit0 := raised inside comps
  rw [range] at bit0
  exact absurd bit0 (by decide)

end Sys2Proof.Machine
end
